-- ==== Sys2Proof/Word.lean ====
section
/-! DEFINITION. The word types of the machine and the plainest bit arithmetic over them (R4, R12, R73, R85). -/

namespace Sys2Proof

/-- One v register, one instruction word, one PC (R73, R85). -/
abbrev Word := BitVec 32

/-- A pair wN, a buffer pointer, a 64-bit CSR (R11, R85). -/
abbrev DWord := BitVec 64

abbrev Byte := BitVec 8

/-- The number of a v register, v0 to v63 (R85). -/
abbrev Reg := BitVec 6

/-- A pair number n, which names w(2n) (R85). -/
abbrev PairNo := BitVec 5

/-- A predicate number, p0 to p7 (R85). -/
abbrev PredNo := BitVec 3

/-- Bit `i` of a natural number as a natural number. -/
def bitN (x i : Nat) : Nat := (x >>> i) % 2

/-- Bits [hi:lo] of a natural number (R12 Bits). -/
def bitsN (x hi lo : Nat) : Nat := (x >>> lo) % 2 ^ (hi + 1 - lo)

/-- The signed value of the low `w` bits of `x` (R12 SignExtend). -/
def sgn (w x : Nat) : Int := if x % 2 ^ w < 2 ^ (w - 1) then (x % 2 ^ w : Nat) else (x % 2 ^ w : Nat) - 2 ^ w

/-- A 48-bit offset moved by a signed amount, wrapping modulo 2^48 (R89). -/
def wrap48 (x : Int) : Nat := (x % 2 ^ 48).toNat

/-- A nat as the low bits of an integer (R12: a narrowing). -/
def natMod (x : Int) (w : Nat) : Nat := (x % 2 ^ w).toNat

/-- Mask of the 32 lanes with lane `l` alone. -/
def laneBit (l : Nat) : Word := BitVec.twoPow 32 l

/-- The number of ones of a lane mask below lane `l`. -/
def onesBelow (m : Word) (l : Nat) : Nat := (List.range l).countP fun i => m.getLsbD i

/-- The number of ones of a lane mask. -/
def ones (m : Word) : Nat := onesBelow m 32

/-- The lanes of a mask in ascending order. -/
def lanesOf (m : Word) : List Nat := (List.range 32).filter fun i => m.getLsbD i

/-- The lowest lane of a mask. -/
def lowestLane (m : Word) : Option Nat := (List.range 32).find? fun i => m.getLsbD i

/-- Little-endian value of a list of bytes (R5). -/
def leNat : List Byte → Nat
  | [] => 0
  | b :: bs => b.toNat + 256 * leNat bs

/-- The `n` low bytes of a value, lowest first (R5). -/
def leBytes : Nat → Nat → List Byte
  | 0, _ => []
  | n + 1, x => BitVec.ofNat 8 x :: leBytes n (x / 256)

end Sys2Proof
end

