-- ==== Sys2Proof/Config.lean ====
section
/-! DEFINITION. What the manual leaves open: constants without a body, so that nothing can be proved of their values
(notes/assumptions/3.md). -/

namespace Sys2Proof.Config

/-- Whether a core's translation cache still holds a buffer-table entry it once held (R171): per access and lane. -/
opaque keepsEntry (time core idx lane : Nat) : Bool
/-- Whether it still holds a page-table entry (R171). -/
opaque keepsPage (time core idx page lane : Nat) : Bool
/-- Whether an L1 still holds a lease copy it could use (R173, R174): a copy may be evicted at any time. -/
opaque keepsCopy (time core line tid : Nat) : Bool
/-- Whether the translation of a store that fails is found at its issue (R205). -/
opaque pageEarly (time core lane : Nat) : Bool
/-- A flash byte written under an earlier key of the slot (R198). -/
opaque flashByte (slot key off : Nat) : BitVec 8
/-- The digest key drawn at power-on reset (R363). -/
opaque hk (boot : Nat) : BitVec 128
/-- The result of an SFU form where the manual gives only an error bound (R233). -/
opaque sfu (fn : Nat) (x : BitVec 32) : BitVec 32
/-- The result of a special case the manual does not state. -/
opaque value32 (n : Nat) : BitVec 32
/-- Energy measured in a 10 microsecond sample, in microjoules (R313). -/
opaque energy (n : Nat) : Nat
/-- Which cores of a slot pass the health test (R388). -/
opaque healthy (n : Nat) : BitVec 16
/-- Digests, nonces and signatures of the security protocol (R388). -/
opaque spdm (n : Nat) : Nat
/-- Which of its lines a full L1 evicts (R14, R172), and the set and way that a line takes in its L2 slice (R355). -/
opaque l1Victim (n : Nat) : Nat
/-- Which of its lines a full LLC quarter gives up (R17). -/
opaque llcVictim (n : Nat) : Nat
opaque l2Set (line : Nat) : Nat
opaque l2Way (n : Nat) : Nat
/-- The fused threshold of an L2 slice's rail, in millivolts (R355). -/
opaque vthr (slice : Nat) : Nat
/-- The row of a place of a pseudo-channel, and whether an access opens it (R324). -/
opaque rowOf (chan a : Nat) : Nat
opaque activates (id : Nat) : Bool
/-- Row activations after which a row is held back (R324). -/
opaque rowThr : Nat
/-- How far an image of a partition reaches, in 4 KiB pages (R344). -/
opaque imageSize (n : Nat) : Nat

end Sys2Proof.Config
end

