-- ==== Sys2Proof/Machine/Num.lean ====
section
/-! DEFINITION. Number formats and arithmetic (R112 to R134, R224, R225, R231 to R233): floating-point values as exact
dyadic numbers, one rounding, the logarithmic formats and conversion between formats. -/

namespace Sys2Proof.Machine

/-! ### Floating-point formats (R113) -/

/-- A format: exponent bits and fraction bits. -/
structure Fmt where
  eb : Nat
  fb : Nat
  deriving DecidableEq, Repr

def fp32 : Fmt := ⟨8, 23⟩
def fp16 : Fmt := ⟨5, 10⟩
def bf16 : Fmt := ⟨8, 7⟩

def Fmt.bias (f : Fmt) : Int := 2 ^ (f.eb - 1) - 1
def Fmt.expMax (f : Fmt) : Nat := 2 ^ f.eb - 1
def Fmt.signBit (f : Fmt) : Nat := 2 ^ (f.eb + f.fb)
def Fmt.infBits (f : Fmt) : Nat := f.expMax * 2 ^ f.fb
/-- The canonical NaN (R113). -/
def Fmt.nan (f : Fmt) : Nat := f.infBits + 2 ^ (f.fb - 1)
def Fmt.maxFin (f : Fmt) : Nat := f.infBits - 1
def Fmt.signed (f : Fmt) (neg : Bool) (x : Nat) : Nat := if neg then f.signBit + x else x

/-- A value: NaN, an infinity, or (−1)^neg × m × 2^e exactly. -/
inductive FVal where
  | nan
  | inf (neg : Bool)
  | fin (neg : Bool) (m : Nat) (e : Int)
  deriving DecidableEq, Repr

/-- The value of a bit pattern (R113). -/
def Fmt.val (f : Fmt) (x : Nat) : FVal :=
  let fr := x % 2 ^ f.fb
  let ex := x / 2 ^ f.fb % 2 ^ f.eb
  let neg := x / f.signBit % 2 = 1
  if ex = f.expMax then (if fr = 0 then .inf neg else .nan)
  else if ex = 0 then .fin neg fr (1 - f.bias - f.fb)
  else .fin neg (2 ^ f.fb + fr) ((ex : Int) - f.bias - f.fb)

/-- Rounding modes (R121). -/
inductive Rm where
  | ne | tz | dn | up
  deriving DecidableEq, Repr

def Rm.of (x : BitVec 2) : Rm := match x.toNat with | 0 => .ne | 1 => .tz | 2 => .dn | _ => .up

/-- Round m / 2^k to an integer (R121), for a number of sign `neg`. -/
def roundShift (rm : Rm) (neg : Bool) (m k : Nat) : Nat :=
  let q := m / 2 ^ k
  let r := m % 2 ^ k
  let up := match rm with
    | .ne => decide (2 ^ k < 2 * r) || (decide (2 * r = 2 ^ k) && k ≠ 0 && q % 2 = 1)
    | .tz => false
    | .dn => neg && r ≠ 0
    | .up => !neg && r ≠ 0
  if up then q + 1 else q

/-- m × 2^e rounded to a format with an unbounded exponent: the significand and its exponent, not below the quantum of
the subnormals. -/
def Fmt.roundRaw (f : Fmt) (rm : Rm) (neg : Bool) (m : Nat) (e : Int) : Nat × Int :=
  let q := max ((Nat.log2 m : Int) + e) (1 - f.bias) - f.fb
  if q ≤ e then (m * 2 ^ (e - q).toNat, q)
  else (roundShift rm neg m (q - e).toNat, q)

/-- The bits of m × 2^e rounded, none where it overflows (R124). -/
def Fmt.round? (f : Fmt) (rm : Rm) (neg : Bool) (m : Nat) (e : Int) : Option Nat :=
  if m = 0 then some (f.signed neg 0)
  else
    let (n, q) := f.roundRaw rm neg m e
    let (n, q) := if n = 2 ^ (f.fb + 1) then (2 ^ f.fb, q + 1) else (n, q)
    if n < 2 ^ f.fb then some (f.signed neg n)
    else
      let be := q + f.fb + f.bias
      if (f.expMax : Int) ≤ be then none else some (f.signed neg (be.toNat * 2 ^ f.fb + (n - 2 ^ f.fb)))

/-- RoundNE (R12, R114): overflow gives infinity. -/
def Fmt.roundNE (f : Fmt) (v : FVal) : Nat :=
  match v with
  | .nan => f.nan
  | .inf neg => f.signed neg f.infBits
  | .fin neg m e => (f.round? .ne neg m e).getD (f.signed neg f.infBits)

/-! ### Exact arithmetic -/

/-- A signed dyadic from an integer times 2^e; `zneg` is the sign of an exact zero. -/
def ofInt' (x : Int) (e : Int) (zneg : Bool) : FVal := if x = 0 then .fin zneg 0 0 else .fin (x < 0) x.natAbs e

def FVal.neg : FVal → FVal
  | .nan => .nan
  | .inf n => .inf !n
  | .fin n m e => .fin (!n) m e

/-- The exact sum (R114): an exact zero of unlike signs is +0. -/
def FVal.add (a b : FVal) : FVal :=
  match a, b with
  | .nan, _ => .nan
  | _, .nan => .nan
  | .inf x, .inf y => if x = y then .inf x else .nan
  | .inf x, _ => .inf x
  | _, .inf y => .inf y
  | .fin x m e, .fin y n d =>
    let lo := min e d
    let i : Int := (if x then -1 else 1) * (m * 2 ^ (e - lo).toNat : Nat)
    let j : Int := (if y then -1 else 1) * (n * 2 ^ (d - lo).toNat : Nat)
    ofInt' (i + j) lo (x && y && m = 0 && n = 0)

/-- The exact product (R114). -/
def FVal.mul (a b : FVal) : FVal :=
  match a, b with
  | .nan, _ => .nan
  | _, .nan => .nan
  | .inf x, .inf y => .inf (x != y)
  | .inf x, .fin y n _ => if n = 0 then .nan else .inf (x != y)
  | .fin x m _, .inf y => if m = 0 then .nan else .inf (x != y)
  | .fin x m e, .fin y n d => .fin (x != y) (m * n) (e + d)

def Fmt.add (f : Fmt) (a b : Nat) : Nat := f.roundNE ((f.val a).add (f.val b))
def Fmt.sub (f : Fmt) (a b : Nat) : Nat := f.roundNE ((f.val a).add (f.val b).neg)
def Fmt.mul (f : Fmt) (a b : Nat) : Nat := f.roundNE ((f.val a).mul (f.val b))
/-- One rounding after multiply and add (R227). -/
def Fmt.fma (f : Fmt) (a b c : Nat) : Nat := f.roundNE (((f.val a).mul (f.val b)).add (f.val c))

def Fmt.isNaN (f : Fmt) (x : Nat) : Bool := f.val x = .nan
def Fmt.isNeg (f : Fmt) (x : Nat) : Bool := x / f.signBit % 2 = 1

/-- Order of the bit patterns that are no NaN, with −0 below +0 (R131, R223). -/
def Fmt.key (f : Fmt) (x : Nat) : Int :=
  if f.isNeg x then -((x % f.signBit : Nat) : Int) - 1 else ((x % f.signBit : Nat) : Int)

def Fmt.minF (f : Fmt) (a b : Nat) : Nat :=
  if f.isNaN a || f.isNaN b then f.nan else if f.key b < f.key a then b else a
def Fmt.maxF (f : Fmt) (a b : Nat) : Nat :=
  if f.isNaN a || f.isNaN b then f.nan else if f.key a < f.key b then b else a

/-- Order by value: zeros are equal (R149). -/
def Fmt.ord (f : Fmt) (x : Nat) : Int :=
  if f.isNeg x then -((x % f.signBit : Nat) : Int) else ((x % f.signBit : Nat) : Int)
def Fmt.eqF (f : Fmt) (a b : Nat) : Bool := !f.isNaN a && !f.isNaN b && f.ord a = f.ord b
def Fmt.ltF (f : Fmt) (a b : Nat) : Bool := !f.isNaN a && !f.isNaN b && decide (f.ord a < f.ord b)
def Fmt.leF (f : Fmt) (a b : Nat) : Bool := !f.isNaN a && !f.isNaN b && decide (f.ord a ≤ f.ord b)

/-- An integer nearest to m × 2^e by a mode. -/
def roundInt (rm : Rm) (neg : Bool) (m : Nat) (e : Int) : Nat :=
  if 0 ≤ e then m * 2 ^ e.toNat else roundShift rm neg m (-e).toNat

/-- `FRND` (R224). -/
def frnd (rm : Rm) (x : Nat) : Nat :=
  match fp32.val x with
  | .nan => fp32.nan
  | .inf _ => x
  | .fin neg m e => if 0 ≤ e then x else (fp32.round? .ne neg (roundInt rm neg m e) 0).getD x

/-- `FSCALE` (R224); scales beyond 600 act as 600, which changes no result. -/
def fscale (x : Nat) (b : Int) : Nat :=
  match fp32.val x with
  | .nan => fp32.nan
  | .inf _ => x
  | .fin neg m e => if m = 0 then x else fp32.roundNE (.fin neg m (e + max (-600) (min 600 b)))

/-- `FCLASS` (R225). -/
def fclass (x : Nat) : Nat :=
  match fp32.val x with
  | .nan => if bitN x 22 = 0 then 2 ^ 8 else 2 ^ 9
  | .inf neg => if neg then 1 else 2 ^ 7
  | .fin neg m _ =>
    if m = 0 then (if neg then 2 ^ 3 else 2 ^ 4)
    else if m < 2 ^ 23 then (if neg then 2 ^ 2 else 2 ^ 5)
    else if neg then 2 else 2 ^ 6

/-- Apply an operation to both 16-bit elements (R115). -/
def packed (f : Nat → Nat → Nat) (a b : Word) : Word :=
  BitVec.ofNat 32 (f (bitsN a.toNat 15 0) (bitsN b.toNat 15 0) + f (bitsN a.toNat 31 16) (bitsN b.toNat 31 16) * 2 ^ 16)

def packed3 (f : Nat → Nat → Nat → Nat) (a b c : Word) : Word :=
  BitVec.ofNat 32 (f (bitsN a.toNat 15 0) (bitsN b.toNat 15 0) (bitsN c.toNat 15 0) +
    f (bitsN a.toNat 31 16) (bitsN b.toNat 31 16) (bitsN c.toNat 31 16) * 2 ^ 16)

/-- A two-operand FP32 form on words. -/
def onWords (f : Nat → Nat → Nat) (a b : Word) : Word := BitVec.ofNat 32 (f a.toNat b.toNat)

/-! ### Exact sums (R130 to R132) -/

/-- A list of values summed exactly: NaN, infinities, then the sum in units of 2^base; −0 where all are −0. -/
def sumExact (base : Int) (l : List FVal) : FVal :=
  if l.any fun v => v = .nan then .nan
  else
    let p := l.contains (.inf false)
    let n := l.contains (.inf true)
    if p && n then .nan else if p then .inf false else if n then .inf true
    else
      let i : Int := l.foldl (fun s v => match v with
        | .fin neg m e => s + (if neg then -1 else 1) * (m * 2 ^ (e - base).toNat : Nat)
        | _ => s) 0
      ofInt' i base (!l.isEmpty && l.all fun v => match v with | .fin neg m _ => neg && m = 0 | _ => false)

/-- `SGRED.add.f32` (R132). -/
def sumF32 (l : List Nat) : Nat := fp32.roundNE (sumExact (-149) (l.map fp32.val))

/-- The tree of R131 on the values in rank order: neighbours are added level by level, an odd one out goes up. -/
def pairUp (f : Nat → Nat → Nat) : List Nat → List Nat
  | a :: b :: r => f a b :: pairUp f r
  | l => l
def treeSum (f : Nat → Nat → Nat) : Nat → List Nat → Nat
  | 0, l => l.headD 0
  | n + 1, l => treeSum f n (pairUp f l)

/-! ### Logarithmic formats (R118 to R123) -/

/-- The fraction table of R119. -/
def lgTable (i : Nat) : Nat :=
  match i with
  | 0 => 0x800000 | 1 => 0x8B95C2 | 2 => 0x9837F0 | 3 => 0xA5FED7 | 4 => 0xB504F3 | 5 => 0xC5672A | 6 => 0xD744FD
  | _ => 0xEAC0C7

/-- A logarithmic code: zero, NaR, or a sign and the logarithm in steps. -/
inductive LgVal where
  | zero
  | nar
  | num (neg : Bool) (c : Int)
  deriving DecidableEq, Repr

/-- The code of `w` bits (R118). -/
def lgVal (w x : Nat) : LgVal :=
  let neg := x / 2 ^ (w - 1) % 2 = 1
  let c := sgn (w - 1) x
  if c = -(2 ^ (w - 2) : Nat) then (if neg then .nar else .zero) else .num neg c

/-- The bits of a code. -/
def lgBits (w : Nat) (v : LgVal) : Nat :=
  match v with
  | .zero => 2 ^ (w - 2)
  | .nar => 2 ^ (w - 1) + 2 ^ (w - 2)
  | .num neg c => (if neg then 2 ^ (w - 1) else 0) + natMod c (w - 1)

/-- Steps to a factor of two: 4 for LG6, 8 for LG8. -/
def lgSteps (w : Nat) : Nat := if w = 6 then 4 else 8

/-- The linear value of a logarithm of `c` steps (R119). -/
def lgLinear (w : Nat) (neg : Bool) (c : Int) : FVal :=
  let n := lgSteps w
  .fin neg (lgTable ((c % n).toNat * (8 / n))) (c / n - 23)

def lgToF (w : Nat) (v : LgVal) : FVal :=
  match v with
  | .zero => .fin false 0 0
  | .nar => .nan
  | .num neg c => lgLinear w neg c

/-- A logarithm placed in a format after rounding (R122): overflow is none; below the range it is zero, except where the
mode rounds away from zero. -/
def lgPlace (w : Nat) (rm : Rm) (neg : Bool) (c : Int) : Option LgVal :=
  let hi : Int := 2 ^ (w - 2) - 1
  if hi < c then none
  else if c < -hi then
    (if (rm = .up && !neg) || (rm = .dn && neg) then some (.num neg (-hi)) else some .zero)
  else some (.num neg c)

/-- Round a nonzero m × 2^e to a logarithm (R122). With N steps, the logarithm lies at or above c steps exactly when the
N-th power is at least 2^c. -/
def lgRound (w : Nat) (rm : Rm) (neg : Bool) (m : Nat) (e : Int) : Option LgVal :=
  let n := lgSteps w
  let lo : Int := (Nat.log2 (m ^ n) : Int) + n * e
  let exact := m ^ n = 2 ^ Nat.log2 (m ^ n)
  let upper := decide (2 * lo + 1 ≤ (Nat.log2 (m ^ (2 * n)) : Int) + 2 * n * e)
  let c := if exact then lo else match rm with
    | .ne => if upper then lo + 1 else lo
    | .tz => lo
    | .dn => if neg then lo + 1 else lo
    | .up => if neg then lo else lo + 1
  lgPlace w rm neg c

/-- LG8 to LG6 (R123): eighths to quarters, an odd count being a tie. -/
def lg8to6 (rm : Rm) (neg : Bool) (c : Int) : Option LgVal :=
  let lo := c / 2
  let c' := if c % 2 = 0 then lo else match rm with
    | .ne => if lo % 2 = 0 then lo else lo + 1
    | .tz => lo
    | .dn => if neg then lo + 1 else lo
    | .up => if neg then lo else lo + 1
  lgPlace 6 rm neg c'

/-! ### Conversion (R124, R228 to R231) -/

/-- The source value of `CVT` (R230): format numbers 0 f32, 1 f16, 2 bf16, 3 lg8, 4 lg6, 5 i32, 6 n32, 7 i8. -/
def cvtSource (src x : Nat) : FVal :=
  match src with
  | 0 => fp32.val x
  | 1 => fp16.val (x % 2 ^ 16)
  | 2 => bf16.val (x % 2 ^ 16)
  | 3 => lgToF 8 (lgVal 8 (x % 2 ^ 8))
  | 4 => lgToF 6 (lgVal 6 (x % 2 ^ 6))
  | 5 => ofInt' (sgn 32 x) 0 false
  | 6 => ofInt' (x % 2 ^ 32 : Nat) 0 false
  | _ => ofInt' (sgn 8 x) 0 false

/-- Into a floating-point format under a policy (R124); none is `FPTRAP`. -/
def cvtFloat (f : Fmt) (rm : Rm) (pol : Nat) (v : FVal) : Option Nat :=
  match v with
  | .nan => if pol = 3 then none else some f.nan
  | .inf neg => some (f.signed neg f.infBits)
  | .fin neg m e =>
    match f.round? rm neg m e with
    | some x => some x
    | none =>
      match pol with
      | 0 => some (f.signed neg f.maxFin)
      | 1 => some (f.signed neg f.infBits)
      | 2 => some f.nan
      | _ => none

/-- What a logarithmic target holds for a result that overflows, by policy (R124). -/
def lgOver (w pol : Nat) (neg : Bool) : Option Nat :=
  match pol with
  | 0 => some (lgBits w (.num neg (2 ^ (w - 2) - 1)))
  | 3 => none
  | _ => some (lgBits w .nar)

/-- Into a logarithmic format (R122, R124). -/
def cvtLg (w : Nat) (rm : Rm) (pol : Nat) (v : FVal) : Option Nat :=
  match v with
  | .nan => if pol = 3 then none else some (lgBits w .nar)
  | .inf neg => lgOver w pol neg
  | .fin neg m e =>
    if m = 0 then some (lgBits w .zero)
    else match lgRound w rm neg m e with
      | some x => some (lgBits w x)
      | none => lgOver w pol neg

/-- Into an integer of `w` bits (R124). -/
def cvtInt (w : Nat) (signed : Bool) (rm : Rm) (pol : Nat) (v : FVal) : Option Nat :=
  let lo : Int := if signed then -2 ^ (w - 1) else 0
  let hi : Int := if signed then 2 ^ (w - 1) - 1 else 2 ^ w - 1
  let ovf (neg : Bool) : Option Nat :=
    match pol with
    | 0 => some (natMod (if neg then lo else hi) w)
    | 3 => none
    | _ => some (2 ^ (w - 1))
  match v with
  | .nan => match pol with
    | 0 => some 0
    | 3 => none
    | _ => some (2 ^ (w - 1))
  | .inf neg => ovf neg
  | .fin neg m e =>
    let i : Int := (if neg then -1 else 1) * (roundInt rm neg m e : Nat)
    if i < lo ∨ hi < i then ovf neg else some (natMod i w)

/-- `CVT` of one source (R231); none is `FPTRAP`. -/
def cvtOne (src tgt : Nat) (rm : Rm) (pol x : Nat) : Option Nat :=
  match src, tgt with
  | 3, 4 =>
    match lgVal 8 (x % 2 ^ 8) with
    | .zero => some (lgBits 6 .zero)
    | .nar => if pol = 3 then none else some (lgBits 6 .nar)
    | .num neg c =>
      match lg8to6 rm neg c with
      | some v => some (lgBits 6 v)
      | none => lgOver 6 pol neg
  | 4, 3 =>
    match lgVal 6 (x % 2 ^ 6) with
    | .zero => some (lgBits 8 .zero)
    | .nar => if pol = 3 then none else some (lgBits 8 .nar)
    | .num neg c => some (lgBits 8 (.num neg (2 * c)))
  | _, 0 => cvtFloat fp32 rm pol (cvtSource src x)
  | _, 1 => cvtFloat fp16 rm pol (cvtSource src x)
  | _, 2 => cvtFloat bf16 rm pol (cvtSource src x)
  | _, 3 => cvtLg 8 rm pol (cvtSource src x)
  | _, 4 => cvtLg 6 rm pol (cvtSource src x)
  | _, 5 => cvtInt 32 true rm pol (cvtSource src x)
  | _, 6 => cvtInt 32 false rm pol (cvtSource src x)
  | _, _ => cvtInt 8 true rm pol (cvtSource src x)

/-! ### Special functions (R232, R233) -/

/-- Whether a nonzero value is a power of two, and its exponent. -/
def powExp (m : Nat) (e : Int) : Option Int := if m = 2 ^ Nat.log2 m then some ((Nat.log2 m : Int) + e) else none

/-- 2π and ln 2 in units of 2^−256. -/
def twoPiFix : Int := 0x6487ed5110b4611a62633145c06e0e68948127044533e63a0105df531d89cd912
def ln2Fix : Int := 0xb17217f7d1cf79abc9e3b39803f2f6af40f343267298b62d8a0d175b8baafa2b

/-- A product of numbers in units of 2^−256. -/
def fixMul (x y : Int) : Int := x * y / 2 ^ 256

/-- The sum of a series whose term n + 1 is term n times `x` over `d n`. -/
def fixSeries (t x : Int) (d : Nat → Int) : Int :=
  ((List.range 60).foldl (fun (a : Int × Int) n => let u := fixMul a.2 x / d n; (a.1 + u, u)) (t, t)).1

/-- 2^x, sin x, cos x and tanh x in units of 2^−256, and log2 of m × 2^e; tanh for 0 ≤ x < 10. -/
def exp2Fix (x : Int) : Int :=
  let f := fixSeries (2 ^ 256) (fixMul (x % 2 ^ 256) ln2Fix) fun n => n + 1
  let k := x / 2 ^ 256
  if 0 ≤ k then f * 2 ^ k.toNat else f / 2 ^ (-k).toNat
def sinFix (x : Int) : Int :=
  let r := x % twoPiFix
  fixSeries r (-fixMul r r) fun n => (2 * n + 2) * (2 * n + 3)
def cosFix (x : Int) : Int :=
  let r := x % twoPiFix
  fixSeries (2 ^ 256) (-fixMul r r) fun n => (2 * n + 1) * (2 * n + 2)
def tanhFix (x : Int) : Int :=
  let y := exp2Fix (2 * x * 2 ^ 256 / ln2Fix)
  (y - 2 ^ 256) * 2 ^ 256 / (y + 2 ^ 256)
def log2Fix (m : Nat) (e : Int) : Int :=
  let y : Int := m * 2 ^ (256 - Nat.log2 m)
  let z := (y - 2 ^ 256) * 2 ^ 256 / (y + 2 ^ 256)
  let l := ((List.range 90).foldl (fun (a : Int × Int) n => (a.1 + a.2 / (2 * n + 1), fixMul a.2 (fixMul z z))) (0, z)).1
  2 * l * 2 ^ 256 / ln2Fix + ((Nat.log2 m : Int) + e) * 2 ^ 256

/-- A value m × 2^e with e ≥ −149 in units of 2^−256. -/
def fixOf (neg : Bool) (m : Nat) (e : Int) : Int := (if neg then -1 else 1) * (m * 2 ^ (e + 256).toNat : Nat)

/-- One ulp of FP32 at a value in units of 2^−256. -/
def fixUlp (a : Int) : Int := 2 ^ (max ((Nat.log2 a.natAbs : Int) - 256) (-126) + 233).toNat

/-- A result of the SFU where R233 gives only a bound: any FP32 value within `b` of the exact result `a`, which is
known to far more places than any difference from such a value needs; which one is open (notes/assumptions/3.md). -/
def sfuOpen (fn x : Nat) (a b : Int) : Nat :=
  let y := (Config.sfu fn (BitVec.ofNat 32 x)).toNat
  match fp32.val y with
  | .fin neg m e => if (fixOf neg m e - a).natAbs ≤ b.natAbs then y else fp32.roundNE (ofInt' a (-256) false)
  | _ => fp32.roundNE (ofInt' a (-256) false)

/-- `RCP`. -/
def rcpF (x : Nat) : Nat :=
  match fp32.val x with
  | .nan => fp32.nan
  | .inf neg => fp32.signed neg 0
  | .fin neg m e =>
    if m = 0 then fp32.signed neg fp32.infBits
    else match powExp m e with
      | some k => fp32.roundNE (.fin neg 1 (-k))
      | none =>
        let a : Int := (2 ^ (256 - e).toNat / m : Nat)
        sfuOpen 0 x (if neg then -a else a) (fixUlp a)

/-- The square root of m × 2^e as a significand with a sticky bit and its exponent. -/
def sqrtRaw (m : Nat) (e : Int) : Nat × Int :=
  let sh : Nat := if e % 2 = 0 then 100 else 101
  let y := m * 2 ^ sh
  let r := Nat.sqrt y
  (2 * r + (if r * r = y then 0 else 1), (e - sh) / 2 - 1)

/-- `RSQ`. -/
def rsqF (x : Nat) : Nat :=
  match fp32.val x with
  | .nan => fp32.nan
  | .inf neg => if neg then fp32.nan else 0
  | .fin neg m e =>
    if m = 0 then fp32.signed neg fp32.infBits
    else if neg then fp32.nan
    else
      let a : Int := (Nat.sqrt (2 ^ (512 - e).toNat / m) : Nat)
      match powExp m e with
      | some k => if k % 2 = 0 then fp32.roundNE (.fin false 1 (-(k / 2))) else sfuOpen 1 x a (fixUlp a)
      | none => sfuOpen 1 x a (fixUlp a)

/-- `SQRT`: correctly rounded. -/
def sqrtF (x : Nat) : Nat :=
  match fp32.val x with
  | .nan => fp32.nan
  | .inf neg => if neg then fp32.nan else x
  | .fin neg m e =>
    if m = 0 then x
    else if neg then fp32.nan
    else let (n, d) := sqrtRaw m e; fp32.roundNE (.fin false n d)

/-- `EXP2`. -/
def exp2F (x : Nat) : Nat :=
  match fp32.val x with
  | .nan => fp32.nan
  | .inf neg => if neg then 0 else fp32.infBits
  | .fin neg m e =>
    let lt (k : Nat) : Bool := decide (k * 2 ^ (-e).toNat < m * 2 ^ e.toNat)
    let ge (k : Nat) : Bool := decide (k * 2 ^ (-e).toNat ≤ m * 2 ^ e.toNat)
    if !neg && ge 128 then fp32.infBits
    else if neg && lt 150 then 0
    else
      let a := exp2Fix (fixOf neg m e)
      let k : Int := (if neg then -1 else 1) * (roundInt .tz neg m e : Nat)
      if (0 ≤ e ∨ m % 2 ^ (-e).toNat = 0) ∧ -149 ≤ k then fp32.roundNE (.fin false 1 k) else sfuOpen 3 x a (2 * fixUlp a)

/-- `LOG2`. -/
def log2F (x : Nat) : Nat :=
  match fp32.val x with
  | .nan => fp32.nan
  | .inf neg => if neg then fp32.nan else x
  | .fin neg m e =>
    if m = 0 then fp32.signed true fp32.infBits
    else if neg then fp32.nan
    else match powExp m e with
      | some k => fp32.roundNE (ofInt' k 0 false)
      | none =>
        let a := log2Fix m e
        let v := fixOf false m e
        sfuOpen 4 x a (if 2 ^ 255 ≤ v ∧ v ≤ 2 ^ 257 then 2 ^ 234 else 2 * fixUlp a)

/-- `SIN` (fn 5) and `COS` (fn 6). -/
def trigF (fn atZero x : Nat) : Nat :=
  match fp32.val x with
  | .nan => fp32.nan
  | .inf _ => fp32.nan
  | .fin neg m e =>
    if m = 0 then (if fn = 5 then x else atZero)
    else sfuOpen fn x (if fn = 5 then sinFix (fixOf neg m e) else cosFix (fixOf neg m e)) (2 ^ 235)

/-- `TANH`. -/
def tanhF (x : Nat) : Nat :=
  match fp32.val x with
  | .nan => fp32.nan
  | .inf neg => fp32.signed neg 0x3F800000
  | .fin neg m e =>
    if m = 0 then x
    else if 10 * 2 ^ (-e).toNat ≤ m * 2 ^ e.toNat then fp32.signed neg 0x3F800000
    else
      let t := tanhFix (fixOf false m e)
      sfuOpen 7 x (if neg then -t else t) (if 2 ^ 253 ≤ fixOf false m e then 2 * fixUlp t else 2 ^ 230)

/-! ### Matrix terms (R125 to R130) -/

/-- One LG product in units of 2^−31 for LG6 and 2^−39 for LG8; none is NaR (R126, R127). -/
def lgProduct (w a b : Nat) : Option Int :=
  match lgVal w a, lgVal w b with
  | .nar, _ => none
  | _, .nar => none
  | .zero, _ => some 0
  | _, .zero => some 0
  | .num x c, .num y d =>
    let n := lgSteps w
    let sum := c + d
    let sh := sum / n - 23 + (if w = 6 then 31 else 39)
    some ((if x != y then -1 else 1) * (lgTable ((sum % n).toNat * (8 / n)) * 2 ^ sh.toNat : Nat))

/-- The sum of a block, none where a product is NaR. -/
def lgBlock (w : Nat) (l : List (Nat × Nat)) : Option Int :=
  l.foldl (fun s x => match s, lgProduct w x.1 x.2 with
    | some a, some b => some (a + b)
    | _, _ => none) (some 0)

/-- The term of one LG block with its scales (R128, R129). -/
def lgTerm (w : Nat) (sa sb : Int) (l : List (Nat × Nat)) : Nat :=
  if sa = -128 ∨ sb = -128 then fp32.nan
  else match lgBlock w l with
    | none => fp32.nan
    | some s => fp32.roundNE (ofInt' s (sa + sb - (if w = 6 then 31 else 39)) false)

/-- The term of a BF16 or F16 block (R130). -/
def fpTerm (f : Fmt) (l : List (Nat × Nat)) : Nat :=
  match sumExact (-300) (l.map fun x => (f.val x.1).mul (f.val x.2)) with
  | .fin neg m e => fp32.roundNE (.fin (neg && m ≠ 0) m e)
  | v => fp32.roundNE v

/-- The I8 sum added to the accumulator (R130). -/
def i8Acc (acc : Nat) (l : List (Nat × Nat)) : Nat :=
  natMod (l.foldl (fun s x => s + sgn 8 x.1 * sgn 8 x.2) (acc : Int)) 32

end Sys2Proof.Machine
end

