-- ==== Sys2Proof/Syntax.lean ====
section
/-! DEFINITION. The instruction set as syntax: one constructor per row of the opcode table
(spec/opcode_table.json). The first 255 rows are 32-bit words (R72, R88 to R93); the other rows are the
part's events, which have no encoding and act on operands that name the objects concerned. -/

namespace Sys2Proof

/-- The two fields every word carries beside its major opcode (R72): `c` chains the word to the next one of its
group, `s` is its stall count (R80). -/
structure Hdr where
  c : BitVec 1
  s : BitVec 2
  deriving DecidableEq, Repr

/-- The two masters of the register blocks (R378). -/
inductive Master where
  | host
  | sideBand
  deriving DecidableEq, Repr

/-- The way by which a register write reaches the device (R375, R377): the device status block by one of the masters,
or the window of the partition whose first slot is `first`, through the physical function or a virtual one. -/
inductive Via where
  | dsb (m : Master)
  | windowPf (m : Master) (first : Nat)
  | windowVf (first vf : Nat)
  deriving DecidableEq, Repr

/-- What an SPDM requester offers in `NEGOTIATE_ALGORITHMS` (R388), each as whether the one supported choice is among
what it offers. -/
structure AlgOffer where
  ed448 : Bool
  sha3_384 : Bool
  dmtf : Bool
  rawBits : Bool
  deriving DecidableEq, Repr

/-- The instruction set: one constructor per row of the opcode table, in the table's order. -/
inductive Instr where
  /-- NOP (R137). -/
  | nop (h : Hdr)
  /-- EXIT (R159). -/
  | exit (h : Hdr)
  /-- YIELD (R274). -/
  | yield (h : Hdr)
  /-- SLEEP (R275). -/
  | sleep (h : Hdr) (a : BitVec 6)
  /-- PRI (R137). -/
  | pri (h : Hdr) (prio : BitVec 4)
  /-- TRAP (R289). -/
  | trap (h : Hdr) (imm : BitVec 12)
  /-- LAUNCH (R277). -/
  | launch (h : Hdr) (d : BitVec 6) (a : BitVec 5)
  /-- FWDH (R276). -/
  | fwdh (h : Hdr) (d : BitVec 6) (a : BitVec 6)
  /-- RDS (R138). -/
  | rds (h : Hdr) (d : BitVec 6) (sel : BitVec 6)
  /-- CSRR (R292). -/
  | csrr (h : Hdr) (d : BitVec 6) (r : BitVec 12)
  /-- CSRW (R292). -/
  | csrw (h : Hdr) (v : BitVec 6) (r : BitVec 12)
  /-- CSRS (R292). -/
  | csrs (h : Hdr) (v : BitVec 6) (r : BitVec 12)
  /-- CSRC (R292). -/
  | csrc (h : Hdr) (v : BitVec 6) (r : BitVec 12)
  /-- ERET (R296). -/
  | eret (h : Hdr)
  /-- WFI (R297). -/
  | wfi (h : Hdr)
  /-- BTINV (R300). -/
  | btinv (h : Hdr) (a : BitVec 6)
  /-- BTSYNC (R300). -/
  | btsync (h : Hdr)
  /-- DIG (R302). -/
  | dig (h : Hdr) (a : BitVec 6)
  /-- ADD (R141). -/
  | add (h : Hdr) (d : BitVec 6) (a : BitVec 6) (b : BitVec 6)
  /-- SUB (R141). -/
  | sub (h : Hdr) (d : BitVec 6) (a : BitVec 6) (b : BitVec 6)
  /-- MUL (R141). -/
  | mul (h : Hdr) (d : BitVec 6) (a : BitVec 6) (b : BitVec 6)
  /-- MULHI_I (R141). -/
  | mulhiI (h : Hdr) (d : BitVec 6) (a : BitVec 6) (b : BitVec 6)
  /-- MULHI_N (R141). -/
  | mulhiN (h : Hdr) (d : BitVec 6) (a : BitVec 6) (b : BitVec 6)
  /-- MACC (R141). -/
  | macc (h : Hdr) (d : BitVec 6) (a : BitVec 6) (b : BitVec 6)
  /-- DIV_I (R141). -/
  | divI (h : Hdr) (d : BitVec 6) (a : BitVec 6) (b : BitVec 6)
  /-- DIV_N (R141). -/
  | divN (h : Hdr) (d : BitVec 6) (a : BitVec 6) (b : BitVec 6)
  /-- REM_I (R141). -/
  | remI (h : Hdr) (d : BitVec 6) (a : BitVec 6) (b : BitVec 6)
  /-- REM_N (R141). -/
  | remN (h : Hdr) (d : BitVec 6) (a : BitVec 6) (b : BitVec 6)
  /-- MIN_I (R141). -/
  | minI (h : Hdr) (d : BitVec 6) (a : BitVec 6) (b : BitVec 6)
  /-- MIN_N (R141). -/
  | minN (h : Hdr) (d : BitVec 6) (a : BitVec 6) (b : BitVec 6)
  /-- MAX_I (R141). -/
  | maxI (h : Hdr) (d : BitVec 6) (a : BitVec 6) (b : BitVec 6)
  /-- MAX_N (R141). -/
  | maxN (h : Hdr) (d : BitVec 6) (a : BitVec 6) (b : BitVec 6)
  /-- ABS (R141). -/
  | abs (h : Hdr) (d : BitVec 6) (a : BitVec 6)
  /-- NEG (R141). -/
  | neg (h : Hdr) (d : BitVec 6) (a : BitVec 6)
  /-- AND (R141). -/
  | and (h : Hdr) (d : BitVec 6) (a : BitVec 6) (b : BitVec 6)
  /-- OR (R141). -/
  | or (h : Hdr) (d : BitVec 6) (a : BitVec 6) (b : BitVec 6)
  /-- XOR (R141). -/
  | xor (h : Hdr) (d : BitVec 6) (a : BitVec 6) (b : BitVec 6)
  /-- ANDN (R141). -/
  | andn (h : Hdr) (d : BitVec 6) (a : BitVec 6) (b : BitVec 6)
  /-- ORN (R141). -/
  | orn (h : Hdr) (d : BitVec 6) (a : BitVec 6) (b : BitVec 6)
  /-- SHL (R142). -/
  | shl (h : Hdr) (d : BitVec 6) (a : BitVec 6) (b : BitVec 6)
  /-- SHR (R142). -/
  | shr (h : Hdr) (d : BitVec 6) (a : BitVec 6) (b : BitVec 6)
  /-- SRA (R142). -/
  | sra (h : Hdr) (d : BitVec 6) (a : BitVec 6) (b : BitVec 6)
  /-- ROTL (R142). -/
  | rotl (h : Hdr) (d : BitVec 6) (a : BitVec 6) (b : BitVec 6)
  /-- SHLI (R142). -/
  | shli (h : Hdr) (d : BitVec 6) (a : BitVec 6) (n : BitVec 5)
  /-- SHRI (R142). -/
  | shri (h : Hdr) (d : BitVec 6) (a : BitVec 6) (n : BitVec 5)
  /-- SRAI (R142). -/
  | srai (h : Hdr) (d : BitVec 6) (a : BitVec 6) (n : BitVec 5)
  /-- CLZ (R141). -/
  | clz (h : Hdr) (d : BitVec 6) (a : BitVec 6)
  /-- CTZ (R141). -/
  | ctz (h : Hdr) (d : BitVec 6) (a : BitVec 6)
  /-- POPC (R141). -/
  | popc (h : Hdr) (d : BitVec 6) (a : BitVec 6)
  /-- BREV (R141). -/
  | brev (h : Hdr) (d : BitVec 6) (a : BitVec 6)
  /-- BFX_I (R143). -/
  | bfxI (h : Hdr) (d : BitVec 6) (a : BitVec 6) (b : BitVec 6)
  /-- BFX_N (R143). -/
  | bfxN (h : Hdr) (d : BitVec 6) (a : BitVec 6) (b : BitVec 6)
  /-- BFI (R143). -/
  | bfi (h : Hdr) (d : BitVec 6) (a : BitVec 6) (b : BitVec 6)
  /-- MOV (R141). -/
  | mov (h : Hdr) (d : BitVec 6) (a : BitVec 6)
  /-- ADD64 (R144). -/
  | add64 (h : Hdr) (d : BitVec 5) (a : BitVec 5) (b : BitVec 5)
  /-- SUB64 (R144). -/
  | sub64 (h : Hdr) (d : BitVec 5) (a : BitVec 5) (b : BitVec 5)
  /-- MULW_I (R144). -/
  | mulwI (h : Hdr) (d : BitVec 5) (a : BitVec 6) (b : BitVec 6)
  /-- MULW_N (R144). -/
  | mulwN (h : Hdr) (d : BitVec 5) (a : BitVec 6) (b : BitVec 6)
  /-- ADDOF (R148). -/
  | addof (h : Hdr) (d : BitVec 5) (a : BitVec 5) (b : BitVec 6)
  /-- MKPTR (R148). -/
  | mkptr (h : Hdr) (d : BitVec 5) (a : BitVec 5) (b : BitVec 6)
  /-- PIX (R148). -/
  | pix (h : Hdr) (d : BitVec 6) (a : BitVec 5)
  /-- SEL_P0 (R145). -/
  | selP0 (h : Hdr) (d : BitVec 6) (a : BitVec 6) (b : BitVec 6)
  /-- SEL_P1 (R145). -/
  | selP1 (h : Hdr) (d : BitVec 6) (a : BitVec 6) (b : BitVec 6)
  /-- SEL_P2 (R145). -/
  | selP2 (h : Hdr) (d : BitVec 6) (a : BitVec 6) (b : BitVec 6)
  /-- SEL_P3 (R145). -/
  | selP3 (h : Hdr) (d : BitVec 6) (a : BitVec 6) (b : BitVec 6)
  /-- SEL_P4 (R145). -/
  | selP4 (h : Hdr) (d : BitVec 6) (a : BitVec 6) (b : BitVec 6)
  /-- SEL_P5 (R145). -/
  | selP5 (h : Hdr) (d : BitVec 6) (a : BitVec 6) (b : BitVec 6)
  /-- SEL_P6 (R145). -/
  | selP6 (h : Hdr) (d : BitVec 6) (a : BitVec 6) (b : BitVec 6)
  /-- ADDI (R146). -/
  | addi (h : Hdr) (d : BitVec 6) (a : BitVec 6) (imm : BitVec 12)
  /-- ANDI (R146). -/
  | andi (h : Hdr) (d : BitVec 6) (a : BitVec 6) (imm : BitVec 12)
  /-- ORI (R146). -/
  | ori (h : Hdr) (d : BitVec 6) (a : BitVec 6) (imm : BitVec 12)
  /-- XORI (R146). -/
  | xori (h : Hdr) (d : BitVec 6) (a : BitVec 6) (imm : BitVec 12)
  /-- LUI (R147). -/
  | lui (h : Hdr) (d : BitVec 4) (imm : BitVec 20)
  /-- APC (R147). -/
  | apc (h : Hdr) (d : BitVec 4) (imm : BitVec 20)
  /-- CMP_EQ_B32 (R149). -/
  | cmpEqB32 (h : Hdr) (p : BitVec 3) (a : BitVec 6) (b : BitVec 6)
  /-- CMP_NE_B32 (R149). -/
  | cmpNeB32 (h : Hdr) (p : BitVec 3) (a : BitVec 6) (b : BitVec 6)
  /-- CMP_LT_I32 (R149). -/
  | cmpLtI32 (h : Hdr) (p : BitVec 3) (a : BitVec 6) (b : BitVec 6)
  /-- CMP_LE_I32 (R149). -/
  | cmpLeI32 (h : Hdr) (p : BitVec 3) (a : BitVec 6) (b : BitVec 6)
  /-- CMP_LT_N32 (R149). -/
  | cmpLtN32 (h : Hdr) (p : BitVec 3) (a : BitVec 6) (b : BitVec 6)
  /-- CMP_LE_N32 (R149). -/
  | cmpLeN32 (h : Hdr) (p : BitVec 3) (a : BitVec 6) (b : BitVec 6)
  /-- CMP_EQ_B64 (R149). -/
  | cmpEqB64 (h : Hdr) (p : BitVec 3) (a : BitVec 5) (b : BitVec 5)
  /-- CMP_NE_B64 (R149). -/
  | cmpNeB64 (h : Hdr) (p : BitVec 3) (a : BitVec 5) (b : BitVec 5)
  /-- CMP_LT_I64 (R149). -/
  | cmpLtI64 (h : Hdr) (p : BitVec 3) (a : BitVec 5) (b : BitVec 5)
  /-- CMP_LE_I64 (R149). -/
  | cmpLeI64 (h : Hdr) (p : BitVec 3) (a : BitVec 5) (b : BitVec 5)
  /-- CMP_LT_N64 (R149). -/
  | cmpLtN64 (h : Hdr) (p : BitVec 3) (a : BitVec 5) (b : BitVec 5)
  /-- CMP_LE_N64 (R149). -/
  | cmpLeN64 (h : Hdr) (p : BitVec 3) (a : BitVec 5) (b : BitVec 5)
  /-- CMP_EQ_F32 (R149). -/
  | cmpEqF32 (h : Hdr) (p : BitVec 3) (a : BitVec 6) (b : BitVec 6)
  /-- CMP_NE_F32 (R149). -/
  | cmpNeF32 (h : Hdr) (p : BitVec 3) (a : BitVec 6) (b : BitVec 6)
  /-- CMP_LT_F32 (R149). -/
  | cmpLtF32 (h : Hdr) (p : BitVec 3) (a : BitVec 6) (b : BitVec 6)
  /-- CMP_LE_F32 (R149). -/
  | cmpLeF32 (h : Hdr) (p : BitVec 3) (a : BitVec 6) (b : BitVec 6)
  /-- CMP_UN_F32 (R149). -/
  | cmpUnF32 (h : Hdr) (p : BitVec 3) (a : BitVec 6) (b : BitVec 6)
  /-- CMPI_EQ (R150). -/
  | cmpiEq (h : Hdr) (p : BitVec 3) (a : BitVec 6) (imm : BitVec 12)
  /-- CMPI_NE (R150). -/
  | cmpiNe (h : Hdr) (p : BitVec 3) (a : BitVec 6) (imm : BitVec 12)
  /-- CMPI_LT_I (R150). -/
  | cmpiLtI (h : Hdr) (p : BitVec 3) (a : BitVec 6) (imm : BitVec 12)
  /-- CMPI_GE_I (R150). -/
  | cmpiGeI (h : Hdr) (p : BitVec 3) (a : BitVec 6) (imm : BitVec 12)
  /-- CMPI_LT_N (R150). -/
  | cmpiLtN (h : Hdr) (p : BitVec 3) (a : BitVec 6) (imm : BitVec 12)
  /-- CMPI_GE_N (R150). -/
  | cmpiGeN (h : Hdr) (p : BitVec 3) (a : BitVec 6) (imm : BitVec 12)
  /-- CMPI_BSET (R150). -/
  | cmpiBset (h : Hdr) (p : BitVec 3) (a : BitVec 6) (imm : BitVec 5)
  /-- CMPI_BCLR (R150). -/
  | cmpiBclr (h : Hdr) (p : BitVec 3) (a : BitVec 6) (imm : BitVec 5)
  /-- PAND (R151). -/
  | pand (h : Hdr) (p : BitVec 3) (a : BitVec 3) (b : BitVec 3)
  /-- POR (R151). -/
  | por (h : Hdr) (p : BitVec 3) (a : BitVec 3) (b : BitVec 3)
  /-- PXOR (R151). -/
  | pxor (h : Hdr) (p : BitVec 3) (a : BitVec 3) (b : BitVec 3)
  /-- PANDN (R151). -/
  | pandn (h : Hdr) (p : BitVec 3) (a : BitVec 3) (b : BitVec 3)
  /-- PMOV (R151). -/
  | pmov (h : Hdr) (p : BitVec 3) (a : BitVec 3)
  /-- PSET (R151). -/
  | pset (h : Hdr) (p : BitVec 3) (n : BitVec 1)
  /-- P2V (R151). -/
  | p2v (h : Hdr) (d : BitVec 6)
  /-- V2P (R151). -/
  | v2p (h : Hdr) (a : BitVec 6)
  /-- BR (R153). -/
  | br (h : Hdr) (p : BitVec 3) (n : BitVec 1) (prio : BitVec 4) (disp : BitVec 16)
  /-- JMP (R154). -/
  | jmp (h : Hdr) (prio : BitVec 4) (disp : BitVec 19)
  /-- CALL (R154). -/
  | call (h : Hdr) (prio : BitVec 4) (disp : BitVec 19)
  /-- JR (R155). -/
  | jr (h : Hdr) (a : BitVec 6) (prio : BitVec 4)
  /-- CALLR (R155). -/
  | callr (h : Hdr) (a : BitVec 6) (prio : BitVec 4)
  /-- RET (R155). -/
  | ret (h : Hdr) (prio : BitVec 4)
  /-- KJOIN (R156). -/
  | kjoin (h : Hdr) (d : BitVec 6)
  /-- KLEAVE (R156). -/
  | kleave (h : Hdr) (d : BitVec 6)
  /-- KWAIT (R158). -/
  | kwait (h : Hdr) (p : BitVec 3) (a : BitVec 6)
  /-- KBAL (R156). -/
  | kbal (h : Hdr) (d : BitVec 6) (b : BitVec 3)
  /-- KMOV (R156). -/
  | kmov (h : Hdr) (d : BitVec 6) (a : BitVec 6)
  /-- KRD (R156). -/
  | krd (h : Hdr) (d : BitVec 6) (a : BitVec 6)
  /-- KWR (R156). -/
  | kwr (h : Hdr) (d : BitVec 6) (a : BitVec 6)
  /-- KCLR (R156). -/
  | kclr (h : Hdr) (d : BitVec 6)
  /-- KFRONT (R156). -/
  | kfront (h : Hdr) (d : BitVec 6) (sel : BitVec 6)
  /-- FADD (R223). -/
  | fadd (h : Hdr) (d : BitVec 6) (a : BitVec 6) (b : BitVec 6)
  /-- FSUB (R223). -/
  | fsub (h : Hdr) (d : BitVec 6) (a : BitVec 6) (b : BitVec 6)
  /-- FMUL (R223). -/
  | fmul (h : Hdr) (d : BitVec 6) (a : BitVec 6) (b : BitVec 6)
  /-- FMIN (R223). -/
  | fmin (h : Hdr) (d : BitVec 6) (a : BitVec 6) (b : BitVec 6)
  /-- FMAX (R223). -/
  | fmax (h : Hdr) (d : BitVec 6) (a : BitVec 6) (b : BitVec 6)
  /-- FABS (R223). -/
  | fabs (h : Hdr) (d : BitVec 6) (a : BitVec 6)
  /-- FNEG (R223). -/
  | fneg (h : Hdr) (d : BitVec 6) (a : BitVec 6)
  /-- FCPS (R223). -/
  | fcps (h : Hdr) (d : BitVec 6) (a : BitVec 6) (b : BitVec 6)
  /-- FRND_NE (R224). -/
  | frndNe (h : Hdr) (d : BitVec 6) (a : BitVec 6)
  /-- FRND_TZ (R224). -/
  | frndTz (h : Hdr) (d : BitVec 6) (a : BitVec 6)
  /-- FRND_DN (R224). -/
  | frndDn (h : Hdr) (d : BitVec 6) (a : BitVec 6)
  /-- FRND_UP (R224). -/
  | frndUp (h : Hdr) (d : BitVec 6) (a : BitVec 6)
  /-- FCLASS (R225). -/
  | fclass (h : Hdr) (d : BitVec 6) (a : BitVec 6)
  /-- FSCALE (R224). -/
  | fscale (h : Hdr) (d : BitVec 6) (a : BitVec 6) (b : BitVec 6)
  /-- HADD2 (R226). -/
  | hadd2 (h : Hdr) (d : BitVec 6) (a : BitVec 6) (b : BitVec 6)
  /-- HSUB2 (R226). -/
  | hsub2 (h : Hdr) (d : BitVec 6) (a : BitVec 6) (b : BitVec 6)
  /-- HMUL2 (R226). -/
  | hmul2 (h : Hdr) (d : BitVec 6) (a : BitVec 6) (b : BitVec 6)
  /-- HMIN2 (R226). -/
  | hmin2 (h : Hdr) (d : BitVec 6) (a : BitVec 6) (b : BitVec 6)
  /-- HMAX2 (R226). -/
  | hmax2 (h : Hdr) (d : BitVec 6) (a : BitVec 6) (b : BitVec 6)
  /-- BADD2 (R226). -/
  | badd2 (h : Hdr) (d : BitVec 6) (a : BitVec 6) (b : BitVec 6)
  /-- BSUB2 (R226). -/
  | bsub2 (h : Hdr) (d : BitVec 6) (a : BitVec 6) (b : BitVec 6)
  /-- BMUL2 (R226). -/
  | bmul2 (h : Hdr) (d : BitVec 6) (a : BitVec 6) (b : BitVec 6)
  /-- BMIN2 (R226). -/
  | bmin2 (h : Hdr) (d : BitVec 6) (a : BitVec 6) (b : BitVec 6)
  /-- BMAX2 (R226). -/
  | bmax2 (h : Hdr) (d : BitVec 6) (a : BitVec 6) (b : BitVec 6)
  /-- FFMA (R227). -/
  | ffma (h : Hdr) (d : BitVec 6) (a : BitVec 6) (b : BitVec 6) (c : BitVec 6)
  /-- HFMA2 (R227). -/
  | hfma2 (h : Hdr) (d : BitVec 6) (a : BitVec 6) (b : BitVec 6) (c : BitVec 6)
  /-- BFMA2 (R227). -/
  | bfma2 (h : Hdr) (d : BitVec 6) (a : BitVec 6) (b : BitVec 6) (c : BitVec 6)
  /-- CVT (R231). -/
  | cvt (h : Hdr) (d : BitVec 6) (a : BitVec 6) (rm : BitVec 2) (pol : BitVec 2) (src : BitVec 3) (tgt : BitVec 3)
  /-- CVT_F16X2_F32X2 (R229). -/
  | cvtF16x2F32x2 (h : Hdr) (d : BitVec 6) (a : BitVec 5) (rm : BitVec 2) (pol : BitVec 2)
  /-- CVT_BF16X2_F32X2 (R229). -/
  | cvtBf16x2F32x2 (h : Hdr) (d : BitVec 6) (a : BitVec 5) (rm : BitVec 2) (pol : BitVec 2)
  /-- CVT_F32_F16HI (R229). -/
  | cvtF32F16hi (h : Hdr) (d : BitVec 6) (a : BitVec 6) (rm : BitVec 2) (pol : BitVec 2)
  /-- CVT_F32_BF16HI (R229). -/
  | cvtF32Bf16hi (h : Hdr) (d : BitVec 6) (a : BitVec 6) (rm : BitVec 2) (pol : BitVec 2)
  /-- RCP (R232). -/
  | rcp (h : Hdr) (d : BitVec 6) (a : BitVec 6)
  /-- RSQ (R232). -/
  | rsq (h : Hdr) (d : BitVec 6) (a : BitVec 6)
  /-- SQRT (R232). -/
  | sqrt (h : Hdr) (d : BitVec 6) (a : BitVec 6)
  /-- EXP2 (R232). -/
  | exp2 (h : Hdr) (d : BitVec 6) (a : BitVec 6)
  /-- LOG2 (R232). -/
  | log2 (h : Hdr) (d : BitVec 6) (a : BitVec 6)
  /-- SIN (R232). -/
  | sin (h : Hdr) (d : BitVec 6) (a : BitVec 6)
  /-- COS (R232). -/
  | cos (h : Hdr) (d : BitVec 6) (a : BitVec 6)
  /-- TANH (R232). -/
  | tanh (h : Hdr) (d : BitVec 6) (a : BitVec 6)
  /-- SHFL_IDX (R235). -/
  | shflIdx (h : Hdr) (d : BitVec 6) (a : BitVec 6) (b : BitVec 6)
  /-- SHFL_UP (R235). -/
  | shflUp (h : Hdr) (d : BitVec 6) (a : BitVec 6) (b : BitVec 6)
  /-- SHFL_DN (R235). -/
  | shflDn (h : Hdr) (d : BitVec 6) (a : BitVec 6) (b : BitVec 6)
  /-- SHFL_XOR (R235). -/
  | shflXor (h : Hdr) (d : BitVec 6) (a : BitVec 6) (b : BitVec 6)
  /-- VOTE_ANY (R236). -/
  | voteAny (h : Hdr) (p : BitVec 3) (b : BitVec 3)
  /-- VOTE_ALL (R236). -/
  | voteAll (h : Hdr) (p : BitVec 3) (b : BitVec 3)
  /-- LRANK (R236). -/
  | lrank (h : Hdr) (d : BitVec 6) (b : BitVec 3)
  /-- LCNT (R236). -/
  | lcnt (h : Hdr) (d : BitVec 6) (b : BitVec 3)
  /-- BCAST (R237). -/
  | bcast (h : Hdr) (d : BitVec 6) (a : BitVec 6) (b : BitVec 6)
  /-- RDX_ADD_I32 (R238). -/
  | rdxAddI32 (h : Hdr) (d : BitVec 6) (a : BitVec 6)
  /-- RDX_ADD_F32 (R238). -/
  | rdxAddF32 (h : Hdr) (d : BitVec 6) (a : BitVec 6)
  /-- RDX_MIN_I32 (R238). -/
  | rdxMinI32 (h : Hdr) (d : BitVec 6) (a : BitVec 6)
  /-- RDX_MAX_I32 (R238). -/
  | rdxMaxI32 (h : Hdr) (d : BitVec 6) (a : BitVec 6)
  /-- RDX_MIN_F32 (R238). -/
  | rdxMinF32 (h : Hdr) (d : BitVec 6) (a : BitVec 6)
  /-- RDX_MAX_F32 (R238). -/
  | rdxMaxF32 (h : Hdr) (d : BitVec 6) (a : BitVec 6)
  /-- LD (R204). -/
  | ld (h : Hdr) (d : BitVec 6) (w : BitVec 5) (t : BitVec 3) (cp : BitVec 2) (imm : BitVec 7)
  /-- LDX (R204). -/
  | ldx (h : Hdr) (d : BitVec 6) (w : BitVec 5) (t : BitVec 3) (cp : BitVec 2) (b : BitVec 6)
  /-- ST (R204). -/
  | st (h : Hdr) (v : BitVec 6) (w : BitVec 5) (t : BitVec 3) (cp : BitVec 2) (imm : BitVec 7)
  /-- STX (R204). -/
  | stx (h : Hdr) (v : BitVec 6) (w : BitVec 5) (t : BitVec 3) (cp : BitVec 2) (b : BitVec 6)
  /-- ATOM_ADD_I32 (R208). -/
  | atomAddI32 (h : Hdr) (d : BitVec 6) (a : BitVec 5) (b : BitVec 6)
  /-- ATOM_ADD_F32 (R208). -/
  | atomAddF32 (h : Hdr) (d : BitVec 6) (a : BitVec 5) (b : BitVec 6)
  /-- ATOM_ADD_BF16X2 (R208). -/
  | atomAddBf16x2 (h : Hdr) (d : BitVec 6) (a : BitVec 5) (b : BitVec 6)
  /-- ATOM_MIN_I32 (R208). -/
  | atomMinI32 (h : Hdr) (d : BitVec 6) (a : BitVec 5) (b : BitVec 6)
  /-- ATOM_MIN_N32 (R208). -/
  | atomMinN32 (h : Hdr) (d : BitVec 6) (a : BitVec 5) (b : BitVec 6)
  /-- ATOM_MAX_I32 (R208). -/
  | atomMaxI32 (h : Hdr) (d : BitVec 6) (a : BitVec 5) (b : BitVec 6)
  /-- ATOM_MAX_N32 (R208). -/
  | atomMaxN32 (h : Hdr) (d : BitVec 6) (a : BitVec 5) (b : BitVec 6)
  /-- ATOM_AND (R208). -/
  | atomAnd (h : Hdr) (d : BitVec 6) (a : BitVec 5) (b : BitVec 6)
  /-- ATOM_OR (R208). -/
  | atomOr (h : Hdr) (d : BitVec 6) (a : BitVec 5) (b : BitVec 6)
  /-- ATOM_XOR (R208). -/
  | atomXor (h : Hdr) (d : BitVec 6) (a : BitVec 5) (b : BitVec 6)
  /-- ATOM_XCHG (R208). -/
  | atomXchg (h : Hdr) (d : BitVec 6) (a : BitVec 5) (b : BitVec 6)
  /-- ATOM_CAS (R208). -/
  | atomCas (h : Hdr) (d : BitVec 6) (a : BitVec 5) (b : BitVec 6)
  /-- ATOM_INC (R208). -/
  | atomInc (h : Hdr) (d : BitVec 6) (a : BitVec 5) (b : BitVec 6)
  /-- ATOM_XCHG_64 (R208). -/
  | atomXchg64 (h : Hdr) (d : BitVec 5) (a : BitVec 5) (b : BitVec 5)
  /-- ATOM_CAS_64 (R208). -/
  | atomCas64 (h : Hdr) (d : BitVec 5) (a : BitVec 5) (b : BitVec 5)
  /-- RED_ADD_I32 (R210). -/
  | redAddI32 (h : Hdr) (a : BitVec 5) (b : BitVec 6)
  /-- RED_ADD_F32 (R210). -/
  | redAddF32 (h : Hdr) (a : BitVec 5) (b : BitVec 6)
  /-- RED_ADD_BF16X2 (R210). -/
  | redAddBf16x2 (h : Hdr) (a : BitVec 5) (b : BitVec 6)
  /-- RED_MIN_I32 (R210). -/
  | redMinI32 (h : Hdr) (a : BitVec 5) (b : BitVec 6)
  /-- RED_MAX_I32 (R210). -/
  | redMaxI32 (h : Hdr) (a : BitVec 5) (b : BitVec 6)
  /-- RED_AND (R210). -/
  | redAnd (h : Hdr) (a : BitVec 5) (b : BitVec 6)
  /-- RED_OR (R210). -/
  | redOr (h : Hdr) (a : BitVec 5) (b : BitVec 6)
  /-- RED_XOR (R210). -/
  | redXor (h : Hdr) (a : BitVec 5) (b : BitVec 6)
  /-- LDA_B32 (R212). -/
  | ldaB32 (h : Hdr) (d : BitVec 6) (a : BitVec 5)
  /-- LDA_B64 (R212). -/
  | ldaB64 (h : Hdr) (d : BitVec 5) (a : BitVec 5)
  /-- STR_B32 (R213). -/
  | strB32 (h : Hdr) (a : BitVec 5) (b : BitVec 6)
  /-- STR_B64 (R213). -/
  | strB64 (h : Hdr) (a : BitVec 5) (b : BitVec 5)
  /-- LDA_SYS (R212). -/
  | ldaSys (h : Hdr) (d : BitVec 6) (a : BitVec 5)
  /-- STR_SYS (R213). -/
  | strSys (h : Hdr) (a : BitVec 5) (b : BitVec 6)
  /-- FENCE_VAULT (R215). -/
  | fenceVault (h : Hdr) (d : BitVec 6)
  /-- FENCE_PART (R215). -/
  | fencePart (h : Hdr) (d : BitVec 6)
  /-- FENCE_SYS (R215). -/
  | fenceSys (h : Hdr) (d : BitVec 6)
  /-- FWAIT (R216). -/
  | fwait (h : Hdr) (a : BitVec 6)
  /-- FENCEW_VAULT (R215). -/
  | fencewVault (h : Hdr)
  /-- FENCEW_PART (R215). -/
  | fencewPart (h : Hdr)
  /-- FENCEW_SYS (R215). -/
  | fencewSys (h : Hdr)
  /-- PREF_L1 (R219). -/
  | prefL1 (h : Hdr) (a : BitVec 5)
  /-- PREF_L2 (R219). -/
  | prefL2 (h : Hdr) (a : BitVec 5)
  /-- COPY (R249). -/
  | copy (h : Hdr) (d : BitVec 6) (a : BitVec 5) (b : BitVec 6)
  /-- CARM (R251). -/
  | carm (h : Hdr) (a : BitVec 6) (b : BitVec 5)
  /-- BWAIT_FULL (R253). -/
  | bwaitFull (h : Hdr) (a : BitVec 6)
  /-- BWAIT_FREE (R253). -/
  | bwaitFree (h : Hdr) (a : BitVec 6)
  /-- BTAKE (R253). -/
  | btake (h : Hdr) (a : BitVec 6)
  /-- BFREE (R253). -/
  | bfree (h : Hdr) (a : BitVec 6)
  /-- BSTAT (R253). -/
  | bstat (h : Hdr) (d : BitVec 6) (a : BitVec 6)
  /-- RUN (R259). -/
  | run (h : Hdr) (d : BitVec 6) (a : BitVec 5)
  /-- RSTOP (R259). -/
  | rstop (h : Hdr)
  /-- POP (R259). -/
  | pop (h : Hdr) (d : BitVec 6) (n : BitVec 2)
  /-- QSTAT (R259). -/
  | qstat (h : Hdr) (d : BitVec 6)
  /-- QRESET (R259). -/
  | qreset (h : Hdr) (m : BitVec 4)
  /-- MMA (R263). -/
  | mma (h : Hdr) (t : BitVec 6) (a : BitVec 6) (wb : BitVec 5) (ty : BitVec 3) (n : BitVec 2) (bs : BitVec 2)
  /-- TZERO (R262). -/
  | tzero (h : Hdr) (d : BitVec 6) (a : BitVec 5) (b : BitVec 6)
  /-- TLD (R262). -/
  | tld (h : Hdr) (d : BitVec 6) (a : BitVec 6) (b : BitVec 6)
  /-- TST (R262). -/
  | tst (h : Hdr) (v : BitVec 6) (a : BitVec 6) (b : BitVec 6)
  /-- TRLS (R262). -/
  | trls (h : Hdr) (a : BitVec 6)
  /-- MMAG (R267). -/
  | mmag (h : Hdr) (d : BitVec 6) (a : BitVec 6) (b : BitVec 5)
  /-- MMAL (R266). -/
  | mmal (h : Hdr) (d : BitVec 6) (a : BitVec 6) (b : BitVec 5)
  /-- TSTAT (R262). -/
  | tstat (h : Hdr) (d : BitVec 6) (a : BitVec 6)
  /-- SGNEW (R282). -/
  | sgnew (h : Hdr) (d : BitVec 6) (a : BitVec 5) (p : BitVec 3)
  /-- SGJOIN (R282). -/
  | sgjoin (h : Hdr) (d : BitVec 6) (a : BitVec 5) (p : BitVec 3)
  /-- SGJOIN_H (R282). -/
  | sgjoinH (h : Hdr) (d : BitVec 6) (a : BitVec 6) (p : BitVec 3)
  /-- SGLEAVE (R283). -/
  | sgleave (h : Hdr) (a : BitVec 6)
  /-- SGBAR (R284). -/
  | sgbar (h : Hdr) (d : BitVec 6) (a : BitVec 6)
  /-- SGVOTE_ANY (R284). -/
  | sgvoteAny (h : Hdr) (d : BitVec 6) (a : BitVec 6) (b : BitVec 3)
  /-- SGVOTE_ALL (R284). -/
  | sgvoteAll (h : Hdr) (d : BitVec 6) (a : BitVec 6) (b : BitVec 3)
  /-- SGVOTE_CNT (R284). -/
  | sgvoteCnt (h : Hdr) (d : BitVec 6) (a : BitVec 6) (b : BitVec 3)
  /-- SGRED_ADD_I32 (R284). -/
  | sgredAddI32 (h : Hdr) (d : BitVec 6) (a : BitVec 6) (b : BitVec 6)
  /-- SGRED_ADD_F32 (R284). -/
  | sgredAddF32 (h : Hdr) (d : BitVec 6) (a : BitVec 6) (b : BitVec 6)
  /-- SGRED_MIN_I32 (R284). -/
  | sgredMinI32 (h : Hdr) (d : BitVec 6) (a : BitVec 6) (b : BitVec 6)
  /-- SGRED_MAX_I32 (R284). -/
  | sgredMaxI32 (h : Hdr) (d : BitVec 6) (a : BitVec 6) (b : BitVec 6)
  /-- SGRED_MIN_F32 (R284). -/
  | sgredMinF32 (h : Hdr) (d : BitVec 6) (a : BitVec 6) (b : BitVec 6)
  /-- SGRED_MAX_F32 (R284). -/
  | sgredMaxF32 (h : Hdr) (d : BitVec 6) (a : BitVec 6) (b : BitVec 6)
  /-- SGSTAT (R288). -/
  | sgstat (h : Hdr) (d : BitVec 6) (a : BitVec 6) (sel : BitVec 2)
  /-- SGDROP (R283). -/
  | sgdrop (h : Hdr) (a : BitVec 6)
  /-- SHORT_STALL_EXPIRY (R49). -/
  | shortStallExpiry (core slot ent : Nat)
  /-- POOL_STALL_CONVERT (R64). -/
  | poolStallConvert (part : Nat)
  /-- POOLEXHAUST (R64). -/
  | poolexhaust (part launch : Nat)
  /-- RESULT_WRITEBACK (R82). -/
  | resultWriteback (id : Nat)
  /-- LOAD_RESPONSE (R50). -/
  | loadResponse (id : Nat)
  /-- STORE_ACK (R175). -/
  | storeAck (id : Nat)
  /-- STORE_HORIZON_REACHED (R50). -/
  | storeHorizonReached (tid : Nat)
  /-- DEVICE_TIME_WAKE (R55). -/
  | deviceTimeWake (tid : Nat)
  /-- LADLE_DRAIN_WINDOW (R60). -/
  | ladleDrainWindow (lad : Nat)
  /-- LADLE_DRAIN (R61). -/
  | ladleDrain (cluster : Nat)
  /-- SCHEDULER_FORWARD (R66). -/
  | schedulerForward (tid cluster : Nat)
  /-- RECORD_ARRIVAL (R66). -/
  | recordArrival (tid : Nat)
  /-- HOME_WRITE (R175). -/
  | homeWrite (id : Nat)
  /-- HOME_READ (R176). -/
  | homeRead (id : Nat)
  /-- VAULT_BANK_ACCESS (R177). -/
  | vaultBankAccess (id : Nat)
  /-- L1_LEASE_EXPIRY (R174). -/
  | l1LeaseExpiry (core line : Nat)
  /-- LEASE_EXPIRY_NOTICE (R174). -/
  | leaseExpiryNotice (core line : Nat)
  /-- UPDATE_ONLY_GRANT (R186). -/
  | updateOnlyGrant (core line : Nat)
  /-- L1_EVICT (R186). -/
  | l1Evict (core line : Nat)
  /-- DEFERRED_STORE_FAULT (R205). -/
  | deferredStoreFault (id : Nat)
  /-- FAULT_ENTRY_RETRY (R334). -/
  | faultEntryRetry (id : Nat)
  /-- BUFFER_STATE_OP (R271). -/
  | bufferStateOp (id : Nat)
  /-- COPY_COMPLETE (R252). -/
  | copyComplete (id : Nat)
  /-- BUFFER_FULL (R252). -/
  | bufferFull (part buf : Nat)
  /-- RUNNER_PUSH (R258). -/
  | runnerPush (id : Nat)
  /-- ENGINE_PAGE_FAULT (R241). -/
  | enginePageFault (id : Nat)
  /-- TILE_OP_ARRIVAL (R261). -/
  | tileOpArrival (id : Nat)
  /-- MMA_STEP (R264). -/
  | mmaStep (id : Nat)
  /-- MMAL_STEP (R266). -/
  | mmalStep (id : Nat)
  /-- SG_HOME_REQUEST (R286). -/
  | sgHomeRequest (id : Nat)
  /-- SG_REPLY (R282). -/
  | sgReply (id : Nat)
  /-- SG_ARRIVAL_DEPART (R284). -/
  | sgArrivalDepart (id : Nat)
  /-- SG_RESULT (R287). -/
  | sgResult (id : Nat)
  /-- SYSCALL_POST (R289). -/
  | syscallPost (tid : Nat)
  /-- LAUNCH_ENQUEUE (R277). -/
  | launchEnqueue (id : Nat)
  /-- SYSDONE_WRITE (R291). -/
  | sysdoneWrite (part : Nat) (idx : BitVec 16)
  /-- FLTDONE_SERVICE (R335). -/
  | fltdoneService (part fid : Nat)
  /-- FLTDONE_FAIL (R335). -/
  | fltdoneFail (part fid : Nat)
  /-- WATCHDOG (R330). -/
  | watchdog (tid : Nat)
  /-- VAULT_SPILL (R337). -/
  | vaultSpill (part launch cast : Nat)
  /-- VAULT_RESTORE (R337). -/
  | vaultRestore (part launch cast : Nat)
  /-- POUR_PREEMPT (R340). -/
  | pourPreempt (core slot : Nat)
  /-- PREEMPT_COMPLETE (R342). -/
  | preemptComplete (part : Nat)
  /-- VF_SLICE_END (R315). -/
  | vfSliceEnd (part : Nat)
  /-- BUNDLE_READ (R307). -/
  | bundleRead (part q : Nat)
  /-- CAST_ADMIT (R312). -/
  | castAdmit (part : Nat)
  /-- DEP_REREAD (R312). -/
  | depReread (part q : Nat)
  /-- CAST_START (R314). -/
  | castStart (cluster : Nat)
  /-- POUR_START (R314). -/
  | pourStart (cluster : Nat)
  /-- EPILOGUE_START (R311). -/
  | epilogueStart (part launch : Nat)
  /-- BUNDLE_RETIRE (R311). -/
  | bundleRetire (part launch : Nat)
  /-- POUR_PROMOTE (R320). -/
  | pourPromote (core slot : Nat)
  /-- ASSAY_DEADLINE (R320). -/
  | assayDeadline (part launch cast : Nat)
  /-- STEAL_REQUEST (R322). -/
  | stealRequest (cluster : Nat)
  /-- STEAL_HANDLE (R322). -/
  | stealHandle (thief : Nat)
  /-- STEAL_REPLY (R322). -/
  | stealReply (thief : Nat)
  /-- ENACCT_SAMPLE (R313). -/
  | enacctSample (part : Nat)
  /-- ROW_WINDOW_END (R324). -/
  | rowWindowEnd (chan : Nat)
  /-- ASSAY_SETUP (R364). -/
  | assaySetup (part launch cast : Nat)
  /-- SUSPICION_DECAY (R365). -/
  | suspicionDecay
  /-- FINJ_FLIP (R368). -/
  | finjFlip (part : Nat) (v : BitVec 32)
  /-- FINJ_POISON (R368). -/
  | finjPoison (part tid : Nat) (v : BitVec 32)
  /-- FINJ_OFF (R368). -/
  | finjOff (part : Nat) (v : BitVec 32)
  /-- RECHOLD_HOLD (R301). -/
  | recholdHold (part : Nat) (ref : BitVec 32)
  /-- RECHOLD_RELEASE (R301). -/
  | recholdRelease (part : Nat) (ref : BitVec 32)
  /-- QACK (R381). -/
  | qack (slot : Nat)
  /-- INTERRUPT_ENTRY (R298). -/
  | interruptEntry (slot source : Nat)
  /-- L2_VTHR_DROP (R355). -/
  | l2VthrDrop (slice : Nat)
  /-- L2_VTHR_RECOVER (R355). -/
  | l2VthrRecover (slice : Nat)
  /-- EYE_MEASURE (R370). -/
  | eyeMeasure (off : Nat) (tm : BitVec 8) (vm : BitVec 16)
  /-- LANE_RETRAIN (R371). -/
  | laneRetrain (off : Nat)
  /-- RETRAIN_DONE (R371). -/
  | retrainDone (off : Nat)
  /-- POWER_ON_RESET (R9). -/
  | powerOnReset
  /-- READY_SET (R31). -/
  | readySet (bit : Nat)
  /-- READY_CLEAR (R31). -/
  | readyClear (bit : Nat)
  /-- PORT_TRAIN (R390). -/
  | portTrain (port : Nat) (peer : BitVec 64)
  /-- PEER_DOWN (R391). -/
  | peerDown (part e : Nat)
  /-- MIGFWD_FORWARD (R394). -/
  | migfwdForward (part buf off : Nat) (data : List (BitVec 8))
  /-- QUEUE_TAIL_WRITE (R306). -/
  | queueTailWrite (part q : Nat) (t : BitVec 32)
  /-- CFGLOCK_CREQ (R378). -/
  | cfglockCreq (m : Master)
  /-- CFGLOCK_CRELEASE (R378). -/
  | cfglockCrelease (m : Master)
  /-- CFGLOCK_MREQ (R378). -/
  | cfglockMreq (m : Master)
  /-- CFGLOCK_MRELEASE (R378). -/
  | cfglockMrelease (m : Master)
  /-- CREATE (R381). -/
  | create (m : Master) (v : BitVec 64)
  /-- DESTROY (R381). -/
  | destroy (m : Master) (v : BitVec 64)
  /-- QUIESCE (R381). -/
  | quiesce (m : Master) (v : BitVec 64)
  /-- QUIESCE_TIMEOUT (R381). -/
  | quiesceTimeout (part : Nat)
  /-- RESUME (R381). -/
  | resume (m : Master) (v : BitVec 64)
  /-- RESET (R388). -/
  | reset (m : Master) (v : BitVec 64)
  /-- SCRUB (R386). -/
  | scrub (m : Master) (v : BitVec 64)
  /-- SCRUB_DONE (R386). -/
  | scrubDone (slot : Nat)
  /-- SHAKEOUT (R388). -/
  | shakeout (m : Master) (v : BitVec 64)
  /-- SHAKEOUT_DONE (R388). -/
  | shakeoutDone (slot : Nat)
  /-- PREQ_PREEMPT (R350). -/
  | preqPreempt (part : Nat) (v : BitVec 64)
  /-- PREQ_MOVE (R350). -/
  | preqMove (part : Nat) (v : BitVec 64)
  /-- PCTX_SAVE (R344). -/
  | pctxSave (part : Nat) (v : BitVec 64)
  /-- PCTX_RESTORE (R344). -/
  | pctxRestore (part : Nat) (v : BitVec 64)
  /-- PCTX_SAVE_ONEVF (R345). -/
  | pctxSaveOnevf (part : Nat) (v : BitVec 64)
  /-- PCTX_RESTORE_ONEVF (R345). -/
  | pctxRestoreOnevf (part : Nat) (v : BitVec 64)
  /-- PCTX_COMPLETE (R345). -/
  | pctxComplete (part : Nat)
  /-- MCTP_DSB_READ (R375). -/
  | mctpDsbRead (off : Nat)
  /-- MCTP_DSB_WRITE (R375). -/
  | mctpDsbWrite (off : Nat) (v : BitVec 64)
  /-- GET_VERSION (R388). -/
  | getVersion (slot : Nat)
  /-- GET_CAPABILITIES (R388). -/
  | getCapabilities (slot : Nat)
  /-- NEGOTIATE_ALGORITHMS (R388). -/
  | negotiateAlgorithms (slot : Nat) (offer : AlgOffer)
  /-- GET_DIGESTS (R388). -/
  | getDigests (slot : Nat)
  /-- GET_CERTIFICATE (R388). -/
  | getCertificate (slot chain off len : Nat)
  /-- CHALLENGE (R388). -/
  | challenge (slot chain nonce : Nat)
  /-- GET_MEASUREMENTS (R388). -/
  | getMeasurements (slot index nonce : Nat)
  /-- REGISTER_WRITE (R8). -/
  | registerWrite (via : Via) (off size : Nat) (v : BitVec 64)
  /-- ILLEGAL_ENCODING (R94). -/
  | illegalEncoding (w : BitVec 32)
  /-- BTINV_ACTED (R171). -/
  | btinvActed (part idx : Nat)
  /-- ARRIVAL_VALIDATION (R284). -/
  | arrivalValidation (id : Nat)
  /-- PEER_UP (R391). -/
  | peerUp (part e : Nat)
  /-- PLDM_TELEMETRY (R388). -/
  | pldmTelemetry (slot : Nat)
  deriving DecidableEq, Repr

end Sys2Proof
end

