-- ==== Sys2Proof/WellFormed.lean ====
section
/-! DEFINITION. Which terms of `Instr` stand for a word that R94 does not send to `ILLEGAL` on its fields alone
(R85, R87, R90, R138, R156, R229), and which event operands name a part that exists (R13). The checks of R292 on the
CSR address depend on the profile and stand in the meanings of the CSR forms. -/

namespace Sys2Proof

/-- A field that names a mask register holds 0 to 11 (R85). -/
def maskOk (k : BitVec 6) : Bool := k.toNat < 12

/-- A field that names a handle register holds 0 to 7 (R85). -/
def handleOk (k : BitVec 6) : Bool := k.toNat < 8

/-- The register field of an access of type `ty` (R89, R203): a b64 register is even, a b128 register is a multiple
of 4, code 7 is no type. -/
def accessOk (ty : BitVec 3) (r : Reg) : Bool :=
  match ty.toNat with
  | 5 => r.toNat % 2 == 0
  | 6 => r.toNat % 4 == 0
  | 7 => false
  | _ => true

/-- The operands of `MMA` (R85, R90, R94, R128): the A block and its scale register end by v63 unless a queue is
named, and `bs` keeps every scale byte within the register. -/
def mmaOk (a : BitVec 6) (ty : BitVec 3) (n bs : BitVec 2) : Bool :=
  n.toNat < 3 &&
  match ty.toNat with
  | 0 | 1 | 4 => bs.toNat == 0 && (a.toNat ≥ 60 || a.toNat + 15 ≤ 63)
  | 2 => bs.toNat ≤ 2 && (a.toNat ≥ 60 || a.toNat + 16 ≤ 63)
  | 3 => bs.toNat == 0 && (a.toNat ≥ 60 || a.toNat + 24 ≤ 63)
  | _ => false

/-- The well-formed terms. -/
def wf : Instr → Bool
  | .rds _ _ sel => sel.toNat ≤ 20
  | .kjoin _ d | .kleave _ d | .kclr _ d => maskOk d
  | .kwait _ _ a => maskOk a
  | .kbal _ d _ => maskOk d
  | .kmov _ d a => maskOk d && maskOk a
  | .krd _ _ a => maskOk a
  | .kwr _ d _ => maskOk d
  | .kfront _ _ sel => sel.toNat ≤ 2
  | .cvt _ _ _ _ _ src tgt => src != tgt
  | .ld _ d _ t _ _ => accessOk t d
  | .ldx _ d _ t _ _ => accessOk t d
  | .st _ v _ t _ _ => accessOk t v
  | .stx _ v _ t _ _ => accessOk t v
  | .mma _ _ a _ ty n bs => mmaOk a ty n bs
  | .sgnew _ d _ _ | .sgjoin _ d _ _ | .sgjoinH _ d _ _ => handleOk d
  | .sgleave _ a | .sgdrop _ a | .sgbar _ _ a => handleOk a
  | .sgvoteAny _ _ a _ | .sgvoteAll _ _ a _ | .sgvoteCnt _ _ a _ => handleOk a
  | .sgredAddI32 _ _ a _ | .sgredAddF32 _ _ a _ | .sgredMinI32 _ _ a _ | .sgredMaxI32 _ _ a _
  | .sgredMinF32 _ _ a _ | .sgredMaxF32 _ _ a _ => handleOk a
  | .sgstat _ _ a _ => handleOk a
  | .interruptEntry slot source => slot < 64 && source < 6
  | .ladleDrain c | .castStart c | .pourStart c | .stealRequest c | .stealHandle c | .stealReply c => c < 128
  | .schedulerForward _ c => c < 128
  | .l2VthrDrop s | .l2VthrRecover s => s < 128
  | .qack s | .scrubDone s | .shakeoutDone s => s < 64
  | .readySet b | .readyClear b => b < 320
  | _ => true

end Sys2Proof
end

