-- ==== Sys2Proof/Decode.lean ====
section
/-! DEFINITION. The decoder of the 32-bit instruction words and the encoder, both written from the formats of R88 and
the opcode map of R91 to R93. A word that is no instruction is rejected by the name of the rule it breaks (R94). -/

namespace Sys2Proof

/-- Why a word is no instruction (R94). -/
inductive DecodeErr where
  /-- `OP` is 0x1F (R91). -/
  | reservedMajor
  /-- The fn, cc or pair code is not listed for the major (R91, R229). -/
  | unlistedFn
  /-- A field the instruction does not use is nonzero (R94). -/
  | unusedField
  /-- A register field or selector breaks R85, R90, R138 or R156. -/
  | badOperand
  /-- Fewer than four bytes were given (R73). -/
  | truncated
  deriving DecidableEq, Repr

/-! ### Fields of a payload (R88) -/

def fD (p : BitVec 24) : BitVec 6 := p.extractLsb' 18 6
def fA (p : BitVec 24) : BitVec 6 := p.extractLsb' 12 6
def fB (p : BitVec 24) : BitVec 6 := p.extractLsb' 6 6
def fN (p : BitVec 24) : BitVec 6 := p.extractLsb' 0 6
def fI12 (p : BitVec 24) : BitVec 12 := p.extractLsb' 0 12
def fD4 (p : BitVec 24) : BitVec 4 := p.extractLsb' 20 4
def fI20 (p : BitVec 24) : BitVec 20 := p.extractLsb' 0 20
def fP (p : BitVec 24) : BitVec 3 := p.extractLsb' 21 3
def fCc (p : BitVec 24) : BitVec 3 := p.extractLsb' 18 3
def fNeg (p : BitVec 24) : BitVec 1 := p.extractLsb' 20 1
def fPrio4 (p : BitVec 24) : BitVec 4 := p.extractLsb' 16 4
def fDisp16 (p : BitVec 24) : BitVec 16 := p.extractLsb' 0 16
def fL (p : BitVec 24) : BitVec 1 := p.extractLsb' 19 1
def fDisp19 (p : BitVec 24) : BitVec 19 := p.extractLsb' 0 19
def fW (p : BitVec 24) : BitVec 5 := p.extractLsb' 13 5
def fTy (p : BitVec 24) : BitVec 3 := p.extractLsb' 10 3
def fCp (p : BitVec 24) : BitVec 2 := p.extractLsb' 8 2
def fX (p : BitVec 24) : BitVec 1 := p.extractLsb' 7 1
def fI7 (p : BitVec 24) : BitVec 7 := p.extractLsb' 0 7
def fWb (p : BitVec 24) : BitVec 5 := p.extractLsb' 7 5
def fYe (p : BitVec 24) : BitVec 3 := p.extractLsb' 4 3
def fNe (p : BitVec 24) : BitVec 2 := p.extractLsb' 2 2
def fBs (p : BitVec 24) : BitVec 2 := p.extractLsb' 0 2

/-! ### Formats (R88): a payload from its fields -/

def t3 (d a b fn : BitVec 6) : BitVec 24 := d ++ (a ++ (b ++ fn))
def ti (d a : BitVec 6) (imm : BitVec 12) : BitVec 24 := d ++ (a ++ imm)
def tu (d : BitVec 4) (imm : BitVec 20) : BitVec 24 := d ++ imm
def tc (pd cc : BitVec 3) (a : BitVec 6) (imm : BitVec 12) : BitVec 24 := pd ++ (cc ++ (a ++ imm))
def tb (p : BitVec 3) (n : BitVec 1) (prio : BitVec 4) (disp : BitVec 16) : BitVec 24 := p ++ (n ++ (prio ++ disp))
def tj (prio : BitVec 4) (l : BitVec 1) (disp : BitVec 19) : BitVec 24 := prio ++ (l ++ disp)
def tm (d : BitVec 6) (w : BitVec 5) (ty : BitVec 3) (cp : BitVec 2) (x : BitVec 1) (low : BitVec 7) : BitVec 24 :=
  d ++ (w ++ (ty ++ (cp ++ (x ++ low))))
def te (t a : BitVec 6) (wb : BitVec 5) (ty : BitVec 3) (n bs : BitVec 2) : BitVec 24 :=
  t ++ (a ++ (wb ++ (ty ++ (n ++ bs))))

/-- A whole word (R72): chain, stall count, major opcode, payload. -/
def word (h : Hdr) (op : BitVec 5) (payload : BitVec 24) : BitVec 32 := h.c ++ (h.s ++ (op ++ payload))

def hdrOf (w : BitVec 32) : Hdr := ⟨w.extractLsb' 31 1, w.extractLsb' 29 2⟩
def opOf (w : BitVec 32) : BitVec 5 := w.extractLsb' 24 5
def payloadOf (w : BitVec 32) : BitVec 24 := w.extractLsb' 0 24

/-! ### Readings of one six-bit field (R85, R92, R93): the used bits, the others zero -/

def zero6 (x : BitVec 6) : Except DecodeErr Unit := if x = 0 then .ok () else .error .unusedField
def pair6 (x : BitVec 6) : Except DecodeErr (BitVec 5) :=
  if x.extractLsb' 0 1 = 0 then .ok (x.extractLsb' 1 5) else .error .badOperand
def hi3 (x : BitVec 6) : Except DecodeErr (BitVec 3) :=
  if x.extractLsb' 0 3 = 0 then .ok (x.extractLsb' 3 3) else .error .unusedField
def lo1 (x : BitVec 6) : Except DecodeErr (BitVec 1) :=
  if x.extractLsb' 1 5 = 0 then .ok (x.extractLsb' 0 1) else .error .unusedField
def lo2 (x : BitVec 6) : Except DecodeErr (BitVec 2) :=
  if x.extractLsb' 2 4 = 0 then .ok (x.extractLsb' 0 2) else .error .unusedField
def lo3 (x : BitVec 6) : Except DecodeErr (BitVec 3) :=
  if x.extractLsb' 3 3 = 0 then .ok (x.extractLsb' 0 3) else .error .unusedField
def lo4 (x : BitVec 6) : Except DecodeErr (BitVec 4) :=
  if x.extractLsb' 4 2 = 0 then .ok (x.extractLsb' 0 4) else .error .unusedField
def lo5 (x : BitVec 6) : Except DecodeErr (BitVec 5) :=
  if x.extractLsb' 5 1 = 0 then .ok (x.extractLsb' 0 5) else .error .unusedField
/-- The b field of `SGJOIN.h` (R281): bit 3 set, pd below it. -/
def join3 (x : BitVec 6) : Except DecodeErr (BitVec 3) :=
  if x.extractLsb' 3 3 = 1 then .ok (x.extractLsb' 0 3) else .error .unusedField
/-- The b field of `CVT` (R228): rm, policy, two zero bits. -/
def cvtFields (x : BitVec 6) : Except DecodeErr (BitVec 2 × BitVec 2) :=
  if x.extractLsb' 0 2 = 0 then .ok (x.extractLsb' 4 2, x.extractLsb' 2 2) else .error .unusedField
/-- The low bits of a TM word with X = 1 (R88, R90): b, then a zero bit. -/
def even7 (x : BitVec 7) : Except DecodeErr (BitVec 6) :=
  if x.extractLsb' 0 1 = 0 then .ok (x.extractLsb' 1 6) else .error .unusedField
/-- The immediate of `CMPI.BSET` and `CMPI.BCLR` (R150): five bits, the others zero. -/
def imm5 (x : BitVec 12) : Except DecodeErr (BitVec 5) :=
  if x.extractLsb' 5 7 = 0 then .ok (x.extractLsb' 0 5) else .error .unusedField

/-- The CMPI major, OP 0x09, format TC (R91, R150). -/
def decodeCmpi (h : Hdr) (p cc : BitVec 3) (a : BitVec 6) (imm : BitVec 12) : Except DecodeErr Instr :=
  match cc.toNat with
  | 0 => .ok (.cmpiEq h p a imm)
  | 1 => .ok (.cmpiNe h p a imm)
  | 2 => .ok (.cmpiLtI h p a imm)
  | 3 => .ok (.cmpiGeI h p a imm)
  | 4 => .ok (.cmpiLtN h p a imm)
  | 5 => .ok (.cmpiGeN h p a imm)
  | 6 => do let i ← imm5 imm; .ok (.cmpiBset h p a i)
  | _ => do let i ← imm5 imm; .ok (.cmpiBclr h p a i)

/-- The SYS major, OP 0x00, format T3 (R91). -/
def decodeSys (h : Hdr) (d a b fn : BitVec 6) : Except DecodeErr Instr :=
  match fn.toNat with
  | 0 => do zero6 d; zero6 a; zero6 b; .ok (.nop h)
  | 1 => do zero6 d; zero6 a; zero6 b; .ok (.exit h)
  | 2 => do zero6 d; zero6 a; zero6 b; .ok (.yield h)
  | 3 => do zero6 d; zero6 b; .ok (.sleep h a)
  | 4 => do zero6 d; zero6 a; let prio ← lo4 b; .ok (.pri h prio)
  | 5 => do zero6 d; let imm := a ++ b; .ok (.trap h imm)
  | 6 => do let a ← pair6 a; zero6 b; .ok (.launch h d a)
  | 7 => do zero6 b; .ok (.fwdh h d a)
  | 8 => do zero6 a; let sel := b; .ok (.rds h d sel)
  | 9 => do let r := a ++ b; .ok (.csrr h d r)
  | 10 => do let v := d; let r := a ++ b; .ok (.csrw h v r)
  | 11 => do let v := d; let r := a ++ b; .ok (.csrs h v r)
  | 12 => do let v := d; let r := a ++ b; .ok (.csrc h v r)
  | 13 => do zero6 d; zero6 a; zero6 b; .ok (.eret h)
  | 14 => do zero6 d; zero6 a; zero6 b; .ok (.wfi h)
  | 15 => do zero6 d; zero6 b; .ok (.btinv h a)
  | 16 => do zero6 d; zero6 a; zero6 b; .ok (.btsync h)
  | 17 => do zero6 d; zero6 b; .ok (.dig h a)
  | _ => .error .unlistedFn

/-- The INT major, OP 0x01, format T3 (R91). -/
def decodeInt (h : Hdr) (d a b fn : BitVec 6) : Except DecodeErr Instr :=
  match fn.toNat with
  | 0 => .ok (.add h d a b)
  | 1 => .ok (.sub h d a b)
  | 2 => .ok (.mul h d a b)
  | 3 => .ok (.mulhiI h d a b)
  | 4 => .ok (.mulhiN h d a b)
  | 5 => .ok (.macc h d a b)
  | 6 => .ok (.divI h d a b)
  | 7 => .ok (.divN h d a b)
  | 8 => .ok (.remI h d a b)
  | 9 => .ok (.remN h d a b)
  | 10 => .ok (.minI h d a b)
  | 11 => .ok (.minN h d a b)
  | 12 => .ok (.maxI h d a b)
  | 13 => .ok (.maxN h d a b)
  | 14 => do zero6 b; .ok (.abs h d a)
  | 15 => do zero6 b; .ok (.neg h d a)
  | 16 => .ok (.and h d a b)
  | 17 => .ok (.or h d a b)
  | 18 => .ok (.xor h d a b)
  | 19 => .ok (.andn h d a b)
  | 20 => .ok (.orn h d a b)
  | 21 => .ok (.shl h d a b)
  | 22 => .ok (.shr h d a b)
  | 23 => .ok (.sra h d a b)
  | 24 => .ok (.rotl h d a b)
  | 25 => do let n ← lo5 b; .ok (.shli h d a n)
  | 26 => do let n ← lo5 b; .ok (.shri h d a n)
  | 27 => do let n ← lo5 b; .ok (.srai h d a n)
  | 28 => do zero6 b; .ok (.clz h d a)
  | 29 => do zero6 b; .ok (.ctz h d a)
  | 30 => do zero6 b; .ok (.popc h d a)
  | 31 => do zero6 b; .ok (.brev h d a)
  | 32 => .ok (.bfxI h d a b)
  | 33 => .ok (.bfxN h d a b)
  | 34 => .ok (.bfi h d a b)
  | 35 => do zero6 b; .ok (.mov h d a)
  | 36 => do let d ← pair6 d; let a ← pair6 a; let b ← pair6 b; .ok (.add64 h d a b)
  | 37 => do let d ← pair6 d; let a ← pair6 a; let b ← pair6 b; .ok (.sub64 h d a b)
  | 38 => do let d ← pair6 d; .ok (.mulwI h d a b)
  | 39 => do let d ← pair6 d; .ok (.mulwN h d a b)
  | 40 => do let d ← pair6 d; let a ← pair6 a; .ok (.addof h d a b)
  | 41 => do let d ← pair6 d; let a ← pair6 a; .ok (.mkptr h d a b)
  | 42 => do let a ← pair6 a; zero6 b; .ok (.pix h d a)
  | 43 => .ok (.selP0 h d a b)
  | 44 => .ok (.selP1 h d a b)
  | 45 => .ok (.selP2 h d a b)
  | 46 => .ok (.selP3 h d a b)
  | 47 => .ok (.selP4 h d a b)
  | 48 => .ok (.selP5 h d a b)
  | 49 => .ok (.selP6 h d a b)
  | _ => .error .unlistedFn

/-- The CMP major, OP 0x08, format T3 (R91). -/
def decodeCmp (h : Hdr) (d a b fn : BitVec 6) : Except DecodeErr Instr :=
  match fn.toNat with
  | 0 => do let p ← hi3 d; .ok (.cmpEqB32 h p a b)
  | 1 => do let p ← hi3 d; .ok (.cmpNeB32 h p a b)
  | 2 => do let p ← hi3 d; .ok (.cmpLtI32 h p a b)
  | 3 => do let p ← hi3 d; .ok (.cmpLeI32 h p a b)
  | 4 => do let p ← hi3 d; .ok (.cmpLtN32 h p a b)
  | 5 => do let p ← hi3 d; .ok (.cmpLeN32 h p a b)
  | 6 => do let p ← hi3 d; let a ← pair6 a; let b ← pair6 b; .ok (.cmpEqB64 h p a b)
  | 7 => do let p ← hi3 d; let a ← pair6 a; let b ← pair6 b; .ok (.cmpNeB64 h p a b)
  | 8 => do let p ← hi3 d; let a ← pair6 a; let b ← pair6 b; .ok (.cmpLtI64 h p a b)
  | 9 => do let p ← hi3 d; let a ← pair6 a; let b ← pair6 b; .ok (.cmpLeI64 h p a b)
  | 10 => do let p ← hi3 d; let a ← pair6 a; let b ← pair6 b; .ok (.cmpLtN64 h p a b)
  | 11 => do let p ← hi3 d; let a ← pair6 a; let b ← pair6 b; .ok (.cmpLeN64 h p a b)
  | 12 => do let p ← hi3 d; .ok (.cmpEqF32 h p a b)
  | 13 => do let p ← hi3 d; .ok (.cmpNeF32 h p a b)
  | 14 => do let p ← hi3 d; .ok (.cmpLtF32 h p a b)
  | 15 => do let p ← hi3 d; .ok (.cmpLeF32 h p a b)
  | 16 => do let p ← hi3 d; .ok (.cmpUnF32 h p a b)
  | _ => .error .unlistedFn

/-- The PRD major, OP 0x0A, format T3 (R91). -/
def decodePrd (h : Hdr) (d a b fn : BitVec 6) : Except DecodeErr Instr :=
  match fn.toNat with
  | 0 => do let p ← hi3 d; let a ← lo3 a; let b ← lo3 b; .ok (.pand h p a b)
  | 1 => do let p ← hi3 d; let a ← lo3 a; let b ← lo3 b; .ok (.por h p a b)
  | 2 => do let p ← hi3 d; let a ← lo3 a; let b ← lo3 b; .ok (.pxor h p a b)
  | 3 => do let p ← hi3 d; let a ← lo3 a; let b ← lo3 b; .ok (.pandn h p a b)
  | 4 => do let p ← hi3 d; let a ← lo3 a; zero6 b; .ok (.pmov h p a)
  | 5 => do let p ← hi3 d; zero6 a; let n ← lo1 b; .ok (.pset h p n)
  | 6 => do zero6 a; zero6 b; .ok (.p2v h d)
  | 7 => do zero6 d; zero6 b; .ok (.v2p h a)
  | _ => .error .unlistedFn

/-- The JR major, OP 0x0D, format T3 (R91). -/
def decodeJr (h : Hdr) (d a b fn : BitVec 6) : Except DecodeErr Instr :=
  match fn.toNat with
  | 0 => do zero6 d; let prio ← lo4 b; .ok (.jr h a prio)
  | 1 => do zero6 d; let prio ← lo4 b; .ok (.callr h a prio)
  | 2 => do zero6 d; zero6 a; let prio ← lo4 b; .ok (.ret h prio)
  | _ => .error .unlistedFn

/-- The KM major, OP 0x0E, format T3 (R91). -/
def decodeKm (h : Hdr) (d a b fn : BitVec 6) : Except DecodeErr Instr :=
  match fn.toNat with
  | 0 => do zero6 a; zero6 b; .ok (.kjoin h d)
  | 1 => do zero6 a; zero6 b; .ok (.kleave h d)
  | 2 => do let p ← hi3 d; zero6 b; .ok (.kwait h p a)
  | 3 => do zero6 a; let b ← lo3 b; .ok (.kbal h d b)
  | 4 => do zero6 b; .ok (.kmov h d a)
  | 5 => do zero6 b; .ok (.krd h d a)
  | 6 => do zero6 b; .ok (.kwr h d a)
  | 7 => do zero6 a; zero6 b; .ok (.kclr h d)
  | 8 => do zero6 a; let sel := b; .ok (.kfront h d sel)
  | _ => .error .unlistedFn

/-- The FALU major, OP 0x0F, format T3 (R91). -/
def decodeFalu (h : Hdr) (d a b fn : BitVec 6) : Except DecodeErr Instr :=
  match fn.toNat with
  | 0 => .ok (.fadd h d a b)
  | 1 => .ok (.fsub h d a b)
  | 2 => .ok (.fmul h d a b)
  | 3 => .ok (.fmin h d a b)
  | 4 => .ok (.fmax h d a b)
  | 5 => do zero6 b; .ok (.fabs h d a)
  | 6 => do zero6 b; .ok (.fneg h d a)
  | 7 => .ok (.fcps h d a b)
  | 8 => do zero6 b; .ok (.frndNe h d a)
  | 9 => do zero6 b; .ok (.frndTz h d a)
  | 10 => do zero6 b; .ok (.frndDn h d a)
  | 11 => do zero6 b; .ok (.frndUp h d a)
  | 12 => do zero6 b; .ok (.fclass h d a)
  | 13 => .ok (.fscale h d a b)
  | 14 => .ok (.hadd2 h d a b)
  | 15 => .ok (.hsub2 h d a b)
  | 16 => .ok (.hmul2 h d a b)
  | 17 => .ok (.hmin2 h d a b)
  | 18 => .ok (.hmax2 h d a b)
  | 19 => .ok (.badd2 h d a b)
  | 20 => .ok (.bsub2 h d a b)
  | 21 => .ok (.bmul2 h d a b)
  | 22 => .ok (.bmin2 h d a b)
  | 23 => .ok (.bmax2 h d a b)
  | _ => .error .unlistedFn

/-- The CVT major, OP 0x13, format T3 (R91). -/
def decodeCvt (h : Hdr) (d a b fn : BitVec 6) : Except DecodeErr Instr :=
  match fn.toNat with
  | 0 => do let (rm, pol) ← cvtFields b; let a ← pair6 a; .ok (.cvtF16x2F32x2 h d a rm pol)
  | 9 => do let (rm, pol) ← cvtFields b; let a ← pair6 a; .ok (.cvtBf16x2F32x2 h d a rm pol)
  | 18 => do let (rm, pol) ← cvtFields b; .ok (.cvtF32F16hi h d a rm pol)
  | 27 => do let (rm, pol) ← cvtFields b; .ok (.cvtF32Bf16hi h d a rm pol)
  | 36 => .error .unlistedFn
  | 45 => .error .unlistedFn
  | 54 => .error .unlistedFn
  | 63 => .error .unlistedFn
  | _ => do let (rm, pol) ← cvtFields b; .ok (.cvt h d a rm pol (fn.extractLsb' 3 3) (fn.extractLsb' 0 3))

/-- The SFU major, OP 0x14, format T3 (R91). -/
def decodeSfu (h : Hdr) (d a b fn : BitVec 6) : Except DecodeErr Instr :=
  match fn.toNat with
  | 0 => do zero6 b; .ok (.rcp h d a)
  | 1 => do zero6 b; .ok (.rsq h d a)
  | 2 => do zero6 b; .ok (.sqrt h d a)
  | 3 => do zero6 b; .ok (.exp2 h d a)
  | 4 => do zero6 b; .ok (.log2 h d a)
  | 5 => do zero6 b; .ok (.sin h d a)
  | 6 => do zero6 b; .ok (.cos h d a)
  | 7 => do zero6 b; .ok (.tanh h d a)
  | _ => .error .unlistedFn

/-- The LANE major, OP 0x15, format T3 (R91). -/
def decodeLane (h : Hdr) (d a b fn : BitVec 6) : Except DecodeErr Instr :=
  match fn.toNat with
  | 0 => .ok (.shflIdx h d a b)
  | 1 => .ok (.shflUp h d a b)
  | 2 => .ok (.shflDn h d a b)
  | 3 => .ok (.shflXor h d a b)
  | 4 => do let p ← hi3 d; zero6 a; let b ← lo3 b; .ok (.voteAny h p b)
  | 5 => do let p ← hi3 d; zero6 a; let b ← lo3 b; .ok (.voteAll h p b)
  | 6 => do zero6 a; let b ← lo3 b; .ok (.lrank h d b)
  | 7 => do zero6 a; let b ← lo3 b; .ok (.lcnt h d b)
  | 8 => .ok (.bcast h d a b)
  | 9 => do zero6 b; .ok (.rdxAddI32 h d a)
  | 10 => do zero6 b; .ok (.rdxAddF32 h d a)
  | 11 => do zero6 b; .ok (.rdxMinI32 h d a)
  | 12 => do zero6 b; .ok (.rdxMaxI32 h d a)
  | 13 => do zero6 b; .ok (.rdxMinF32 h d a)
  | 14 => do zero6 b; .ok (.rdxMaxF32 h d a)
  | _ => .error .unlistedFn

/-- The ATOM major, OP 0x18, format T3 (R91). -/
def decodeAtom (h : Hdr) (d a b fn : BitVec 6) : Except DecodeErr Instr :=
  match fn.toNat with
  | 0 => do let a ← pair6 a; .ok (.atomAddI32 h d a b)
  | 1 => do let a ← pair6 a; .ok (.atomAddF32 h d a b)
  | 2 => do let a ← pair6 a; .ok (.atomAddBf16x2 h d a b)
  | 3 => do let a ← pair6 a; .ok (.atomMinI32 h d a b)
  | 4 => do let a ← pair6 a; .ok (.atomMinN32 h d a b)
  | 5 => do let a ← pair6 a; .ok (.atomMaxI32 h d a b)
  | 6 => do let a ← pair6 a; .ok (.atomMaxN32 h d a b)
  | 7 => do let a ← pair6 a; .ok (.atomAnd h d a b)
  | 8 => do let a ← pair6 a; .ok (.atomOr h d a b)
  | 9 => do let a ← pair6 a; .ok (.atomXor h d a b)
  | 10 => do let a ← pair6 a; .ok (.atomXchg h d a b)
  | 11 => do let a ← pair6 a; .ok (.atomCas h d a b)
  | 12 => do let a ← pair6 a; .ok (.atomInc h d a b)
  | 13 => do let d ← pair6 d; let a ← pair6 a; let b ← pair6 b; .ok (.atomXchg64 h d a b)
  | 14 => do let d ← pair6 d; let a ← pair6 a; let b ← pair6 b; .ok (.atomCas64 h d a b)
  | 15 => do zero6 d; let a ← pair6 a; .ok (.redAddI32 h a b)
  | 16 => do zero6 d; let a ← pair6 a; .ok (.redAddF32 h a b)
  | 17 => do zero6 d; let a ← pair6 a; .ok (.redAddBf16x2 h a b)
  | 18 => do zero6 d; let a ← pair6 a; .ok (.redMinI32 h a b)
  | 19 => do zero6 d; let a ← pair6 a; .ok (.redMaxI32 h a b)
  | 20 => do zero6 d; let a ← pair6 a; .ok (.redAnd h a b)
  | 21 => do zero6 d; let a ← pair6 a; .ok (.redOr h a b)
  | 22 => do zero6 d; let a ← pair6 a; .ok (.redXor h a b)
  | 23 => do let a ← pair6 a; zero6 b; .ok (.ldaB32 h d a)
  | 24 => do let d ← pair6 d; let a ← pair6 a; zero6 b; .ok (.ldaB64 h d a)
  | 25 => do zero6 d; let a ← pair6 a; .ok (.strB32 h a b)
  | 26 => do zero6 d; let a ← pair6 a; let b ← pair6 b; .ok (.strB64 h a b)
  | 27 => do let a ← pair6 a; zero6 b; .ok (.ldaSys h d a)
  | 28 => do zero6 d; let a ← pair6 a; .ok (.strSys h a b)
  | _ => .error .unlistedFn

/-- The FENCE major, OP 0x19, format T3 (R91). -/
def decodeFence (h : Hdr) (d a b fn : BitVec 6) : Except DecodeErr Instr :=
  match fn.toNat with
  | 0 => do zero6 a; zero6 b; .ok (.fenceVault h d)
  | 1 => do zero6 a; zero6 b; .ok (.fencePart h d)
  | 2 => do zero6 a; zero6 b; .ok (.fenceSys h d)
  | 3 => do zero6 d; zero6 b; .ok (.fwait h a)
  | 4 => do zero6 d; zero6 a; zero6 b; .ok (.fencewVault h)
  | 5 => do zero6 d; zero6 a; zero6 b; .ok (.fencewPart h)
  | 6 => do zero6 d; zero6 a; zero6 b; .ok (.fencewSys h)
  | 7 => do zero6 d; let a ← pair6 a; zero6 b; .ok (.prefL1 h a)
  | 8 => do zero6 d; let a ← pair6 a; zero6 b; .ok (.prefL2 h a)
  | _ => .error .unlistedFn

/-- The COPY major, OP 0x1A, format T3 (R91). -/
def decodeCopy (h : Hdr) (d a b fn : BitVec 6) : Except DecodeErr Instr :=
  match fn.toNat with
  | 0 => do let a ← pair6 a; .ok (.copy h d a b)
  | 1 => do zero6 d; let b ← pair6 b; .ok (.carm h a b)
  | 2 => do zero6 d; zero6 b; .ok (.bwaitFull h a)
  | 3 => do zero6 d; zero6 b; .ok (.bwaitFree h a)
  | 4 => do zero6 d; zero6 b; .ok (.btake h a)
  | 5 => do zero6 d; zero6 b; .ok (.bfree h a)
  | 6 => do zero6 b; .ok (.bstat h d a)
  | _ => .error .unlistedFn

/-- The RUN major, OP 0x1B, format T3 (R91). -/
def decodeRun (h : Hdr) (d a b fn : BitVec 6) : Except DecodeErr Instr :=
  match fn.toNat with
  | 0 => do let a ← pair6 a; zero6 b; .ok (.run h d a)
  | 1 => do zero6 d; zero6 a; zero6 b; .ok (.rstop h)
  | 2 => do zero6 a; let n ← lo2 b; .ok (.pop h d n)
  | 3 => do zero6 a; zero6 b; .ok (.qstat h d)
  | 4 => do zero6 d; zero6 a; let m ← lo4 b; .ok (.qreset h m)
  | _ => .error .unlistedFn

/-- The TILE major, OP 0x1D, format T3 (R91). -/
def decodeTile (h : Hdr) (d a b fn : BitVec 6) : Except DecodeErr Instr :=
  match fn.toNat with
  | 0 => do let a ← pair6 a; .ok (.tzero h d a b)
  | 1 => .ok (.tld h d a b)
  | 2 => do let v := d; .ok (.tst h v a b)
  | 3 => do zero6 d; zero6 b; .ok (.trls h a)
  | 4 => do let b ← pair6 b; .ok (.mmag h d a b)
  | 5 => do let b ← pair6 b; .ok (.mmal h d a b)
  | 6 => do zero6 b; .ok (.tstat h d a)
  | _ => .error .unlistedFn

/-- The SG major, OP 0x1E, format T3 (R91). -/
noncomputable def decodeSg (h : Hdr) (d a b fn : BitVec 6) : Except DecodeErr Instr :=
  match fn.toNat with
  | 0 => do let a ← pair6 a; let p ← lo3 b; .ok (.sgnew h d a p)
  | 1 => if b.extractLsb' 3 1 = 0 then do let a ← pair6 a; let p ← lo3 b; .ok (.sgjoin h d a p)
      else do let p ← join3 b; .ok (.sgjoinH h d a p)
  | 2 => do zero6 d; zero6 b; .ok (.sgleave h a)
  | 3 => do zero6 b; .ok (.sgbar h d a)
  | 4 => do let b ← lo3 b; .ok (.sgvoteAny h d a b)
  | 5 => do let b ← lo3 b; .ok (.sgvoteAll h d a b)
  | 6 => do let b ← lo3 b; .ok (.sgvoteCnt h d a b)
  | 7 => .ok (.sgredAddI32 h d a b)
  | 8 => .ok (.sgredAddF32 h d a b)
  | 9 => .ok (.sgredMinI32 h d a b)
  | 10 => .ok (.sgredMaxI32 h d a b)
  | 11 => .ok (.sgredMinF32 h d a b)
  | 12 => .ok (.sgredMaxF32 h d a b)
  | 13 => do let sel ← lo2 b; .ok (.sgstat h d a sel)
  | 14 => do zero6 d; zero6 b; .ok (.sgdrop h a)
  | _ => .error .unlistedFn

/-- The word whose fields are the header, the major opcode and the payload (R91). -/
noncomputable def decodeMajor (h : Hdr) (op : BitVec 5) (pl : BitVec 24) : Except DecodeErr Instr :=
  match op.toNat with
  | 0 => decodeSys h (fD pl) (fA pl) (fB pl) (fN pl)
  | 1 => decodeInt h (fD pl) (fA pl) (fB pl) (fN pl)
  | 2 => .ok (.addi h (fD pl) (fA pl) (fI12 pl))
  | 3 => .ok (.andi h (fD pl) (fA pl) (fI12 pl))
  | 4 => .ok (.ori h (fD pl) (fA pl) (fI12 pl))
  | 5 => .ok (.xori h (fD pl) (fA pl) (fI12 pl))
  | 6 => .ok (.lui h (fD4 pl) (fI20 pl))
  | 7 => .ok (.apc h (fD4 pl) (fI20 pl))
  | 8 => decodeCmp h (fD pl) (fA pl) (fB pl) (fN pl)
  | 9 => decodeCmpi h (fP pl) (fCc pl) (fA pl) (fI12 pl)
  | 10 => decodePrd h (fD pl) (fA pl) (fB pl) (fN pl)
  | 11 => .ok (.br h (fP pl) (fNeg pl) (fPrio4 pl) (fDisp16 pl))
  | 12 => if fL pl = 0 then .ok (.jmp h (fD4 pl) (fDisp19 pl)) else .ok (.call h (fD4 pl) (fDisp19 pl))
  | 13 => decodeJr h (fD pl) (fA pl) (fB pl) (fN pl)
  | 14 => decodeKm h (fD pl) (fA pl) (fB pl) (fN pl)
  | 15 => decodeFalu h (fD pl) (fA pl) (fB pl) (fN pl)
  | 16 => .ok (.ffma h (fD pl) (fA pl) (fB pl) (fN pl))
  | 17 => .ok (.hfma2 h (fD pl) (fA pl) (fB pl) (fN pl))
  | 18 => .ok (.bfma2 h (fD pl) (fA pl) (fB pl) (fN pl))
  | 19 => decodeCvt h (fD pl) (fA pl) (fB pl) (fN pl)
  | 20 => decodeSfu h (fD pl) (fA pl) (fB pl) (fN pl)
  | 21 => decodeLane h (fD pl) (fA pl) (fB pl) (fN pl)
  | 22 => if fX pl = 0 then .ok (.ld h (fD pl) (fW pl) (fTy pl) (fCp pl) (fI7 pl)) else do let b ← even7 (fI7 pl); .ok (.ldx h (fD pl) (fW pl) (fTy pl) (fCp pl) b)
  | 23 => if fX pl = 0 then .ok (.st h (fD pl) (fW pl) (fTy pl) (fCp pl) (fI7 pl)) else do let b ← even7 (fI7 pl); .ok (.stx h (fD pl) (fW pl) (fTy pl) (fCp pl) b)
  | 24 => decodeAtom h (fD pl) (fA pl) (fB pl) (fN pl)
  | 25 => decodeFence h (fD pl) (fA pl) (fB pl) (fN pl)
  | 26 => decodeCopy h (fD pl) (fA pl) (fB pl) (fN pl)
  | 27 => decodeRun h (fD pl) (fA pl) (fB pl) (fN pl)
  | 28 => .ok (.mma h (fD pl) (fA pl) (fWb pl) (fYe pl) (fNe pl) (fBs pl))
  | 29 => decodeTile h (fD pl) (fA pl) (fB pl) (fN pl)
  | 30 => decodeSg h (fD pl) (fA pl) (fB pl) (fN pl)
  | _ => .error .reservedMajor

/-- The instruction a word stands for, or why it is none (R91, R94). -/
noncomputable def decode (w : BitVec 32) : Except DecodeErr Instr :=
  match decodeMajor (hdrOf w) (opOf w) (payloadOf w) with
  | .ok i => if wf i then .ok i else .error .badOperand
  | .error e => .error e

/-- The four bytes of a word as memory holds them (R5), read from the front of a list of bytes. -/
noncomputable def decodeBytes : List Byte → Except DecodeErr (Instr × List Byte)
  | b0 :: b1 :: b2 :: b3 :: rest =>
    match decode (b3 ++ (b2 ++ (b1 ++ b0))) with
    | .ok i => .ok (i, rest)
    | .error e => .error e
  | _ => .error .truncated

/-- The bytes of a word, lowest address first (R5). -/
def wordBytes (w : BitVec 32) : List Byte :=
  [w.extractLsb' 0 8, w.extractLsb' 8 8, w.extractLsb' 16 8, w.extractLsb' 24 8]

/-- What the decoder reads from an instruction whose bits are `w`, laid out as R5 stores it. -/
noncomputable def decodeTableWord (_nbits w : Nat) : Option Instr :=
  match decodeBytes (wordBytes (BitVec.ofNat 32 w)) with
  | .ok (i, _) => some i
  | .error _ => none

/-- The word of an instruction, from the formats of R88 and the opcode map of R91; an event has none. -/
def encodeWord : Instr → Option (BitVec 32)
  | .nop h => some (word h 0 (t3 0 0 0 0))
  | .exit h => some (word h 0 (t3 0 0 0 1))
  | .yield h => some (word h 0 (t3 0 0 0 2))
  | .sleep h a => some (word h 0 (t3 0 a 0 3))
  | .pri h prio => some (word h 0 (t3 0 0 (0#2 ++ prio) 4))
  | .trap h imm => some (word h 0 (t3 0 (imm.extractLsb' 6 6) (imm.extractLsb' 0 6) 5))
  | .launch h d a => some (word h 0 (t3 d (a ++ 0#1) 0 6))
  | .fwdh h d a => some (word h 0 (t3 d a 0 7))
  | .rds h d sel => some (word h 0 (t3 d 0 sel 8))
  | .csrr h d r => some (word h 0 (t3 d (r.extractLsb' 6 6) (r.extractLsb' 0 6) 9))
  | .csrw h v r => some (word h 0 (t3 v (r.extractLsb' 6 6) (r.extractLsb' 0 6) 10))
  | .csrs h v r => some (word h 0 (t3 v (r.extractLsb' 6 6) (r.extractLsb' 0 6) 11))
  | .csrc h v r => some (word h 0 (t3 v (r.extractLsb' 6 6) (r.extractLsb' 0 6) 12))
  | .eret h => some (word h 0 (t3 0 0 0 13))
  | .wfi h => some (word h 0 (t3 0 0 0 14))
  | .btinv h a => some (word h 0 (t3 0 a 0 15))
  | .btsync h => some (word h 0 (t3 0 0 0 16))
  | .dig h a => some (word h 0 (t3 0 a 0 17))
  | .add h d a b => some (word h 1 (t3 d a b 0))
  | .sub h d a b => some (word h 1 (t3 d a b 1))
  | .mul h d a b => some (word h 1 (t3 d a b 2))
  | .mulhiI h d a b => some (word h 1 (t3 d a b 3))
  | .mulhiN h d a b => some (word h 1 (t3 d a b 4))
  | .macc h d a b => some (word h 1 (t3 d a b 5))
  | .divI h d a b => some (word h 1 (t3 d a b 6))
  | .divN h d a b => some (word h 1 (t3 d a b 7))
  | .remI h d a b => some (word h 1 (t3 d a b 8))
  | .remN h d a b => some (word h 1 (t3 d a b 9))
  | .minI h d a b => some (word h 1 (t3 d a b 10))
  | .minN h d a b => some (word h 1 (t3 d a b 11))
  | .maxI h d a b => some (word h 1 (t3 d a b 12))
  | .maxN h d a b => some (word h 1 (t3 d a b 13))
  | .abs h d a => some (word h 1 (t3 d a 0 14))
  | .neg h d a => some (word h 1 (t3 d a 0 15))
  | .and h d a b => some (word h 1 (t3 d a b 16))
  | .or h d a b => some (word h 1 (t3 d a b 17))
  | .xor h d a b => some (word h 1 (t3 d a b 18))
  | .andn h d a b => some (word h 1 (t3 d a b 19))
  | .orn h d a b => some (word h 1 (t3 d a b 20))
  | .shl h d a b => some (word h 1 (t3 d a b 21))
  | .shr h d a b => some (word h 1 (t3 d a b 22))
  | .sra h d a b => some (word h 1 (t3 d a b 23))
  | .rotl h d a b => some (word h 1 (t3 d a b 24))
  | .shli h d a n => some (word h 1 (t3 d a (0#1 ++ n) 25))
  | .shri h d a n => some (word h 1 (t3 d a (0#1 ++ n) 26))
  | .srai h d a n => some (word h 1 (t3 d a (0#1 ++ n) 27))
  | .clz h d a => some (word h 1 (t3 d a 0 28))
  | .ctz h d a => some (word h 1 (t3 d a 0 29))
  | .popc h d a => some (word h 1 (t3 d a 0 30))
  | .brev h d a => some (word h 1 (t3 d a 0 31))
  | .bfxI h d a b => some (word h 1 (t3 d a b 32))
  | .bfxN h d a b => some (word h 1 (t3 d a b 33))
  | .bfi h d a b => some (word h 1 (t3 d a b 34))
  | .mov h d a => some (word h 1 (t3 d a 0 35))
  | .add64 h d a b => some (word h 1 (t3 (d ++ 0#1) (a ++ 0#1) (b ++ 0#1) 36))
  | .sub64 h d a b => some (word h 1 (t3 (d ++ 0#1) (a ++ 0#1) (b ++ 0#1) 37))
  | .mulwI h d a b => some (word h 1 (t3 (d ++ 0#1) a b 38))
  | .mulwN h d a b => some (word h 1 (t3 (d ++ 0#1) a b 39))
  | .addof h d a b => some (word h 1 (t3 (d ++ 0#1) (a ++ 0#1) b 40))
  | .mkptr h d a b => some (word h 1 (t3 (d ++ 0#1) (a ++ 0#1) b 41))
  | .pix h d a => some (word h 1 (t3 d (a ++ 0#1) 0 42))
  | .selP0 h d a b => some (word h 1 (t3 d a b 43))
  | .selP1 h d a b => some (word h 1 (t3 d a b 44))
  | .selP2 h d a b => some (word h 1 (t3 d a b 45))
  | .selP3 h d a b => some (word h 1 (t3 d a b 46))
  | .selP4 h d a b => some (word h 1 (t3 d a b 47))
  | .selP5 h d a b => some (word h 1 (t3 d a b 48))
  | .selP6 h d a b => some (word h 1 (t3 d a b 49))
  | .addi h d a imm => some (word h 2 (ti d a imm))
  | .andi h d a imm => some (word h 3 (ti d a imm))
  | .ori h d a imm => some (word h 4 (ti d a imm))
  | .xori h d a imm => some (word h 5 (ti d a imm))
  | .lui h d imm => some (word h 6 (tu d imm))
  | .apc h d imm => some (word h 7 (tu d imm))
  | .cmpEqB32 h p a b => some (word h 8 (t3 (p ++ 0#3) a b 0))
  | .cmpNeB32 h p a b => some (word h 8 (t3 (p ++ 0#3) a b 1))
  | .cmpLtI32 h p a b => some (word h 8 (t3 (p ++ 0#3) a b 2))
  | .cmpLeI32 h p a b => some (word h 8 (t3 (p ++ 0#3) a b 3))
  | .cmpLtN32 h p a b => some (word h 8 (t3 (p ++ 0#3) a b 4))
  | .cmpLeN32 h p a b => some (word h 8 (t3 (p ++ 0#3) a b 5))
  | .cmpEqB64 h p a b => some (word h 8 (t3 (p ++ 0#3) (a ++ 0#1) (b ++ 0#1) 6))
  | .cmpNeB64 h p a b => some (word h 8 (t3 (p ++ 0#3) (a ++ 0#1) (b ++ 0#1) 7))
  | .cmpLtI64 h p a b => some (word h 8 (t3 (p ++ 0#3) (a ++ 0#1) (b ++ 0#1) 8))
  | .cmpLeI64 h p a b => some (word h 8 (t3 (p ++ 0#3) (a ++ 0#1) (b ++ 0#1) 9))
  | .cmpLtN64 h p a b => some (word h 8 (t3 (p ++ 0#3) (a ++ 0#1) (b ++ 0#1) 10))
  | .cmpLeN64 h p a b => some (word h 8 (t3 (p ++ 0#3) (a ++ 0#1) (b ++ 0#1) 11))
  | .cmpEqF32 h p a b => some (word h 8 (t3 (p ++ 0#3) a b 12))
  | .cmpNeF32 h p a b => some (word h 8 (t3 (p ++ 0#3) a b 13))
  | .cmpLtF32 h p a b => some (word h 8 (t3 (p ++ 0#3) a b 14))
  | .cmpLeF32 h p a b => some (word h 8 (t3 (p ++ 0#3) a b 15))
  | .cmpUnF32 h p a b => some (word h 8 (t3 (p ++ 0#3) a b 16))
  | .cmpiEq h p a imm => some (word h 9 (tc p 0 a imm))
  | .cmpiNe h p a imm => some (word h 9 (tc p 1 a imm))
  | .cmpiLtI h p a imm => some (word h 9 (tc p 2 a imm))
  | .cmpiGeI h p a imm => some (word h 9 (tc p 3 a imm))
  | .cmpiLtN h p a imm => some (word h 9 (tc p 4 a imm))
  | .cmpiGeN h p a imm => some (word h 9 (tc p 5 a imm))
  | .cmpiBset h p a imm => some (word h 9 (tc p 6 a (0#7 ++ imm)))
  | .cmpiBclr h p a imm => some (word h 9 (tc p 7 a (0#7 ++ imm)))
  | .pand h p a b => some (word h 10 (t3 (p ++ 0#3) (0#3 ++ a) (0#3 ++ b) 0))
  | .por h p a b => some (word h 10 (t3 (p ++ 0#3) (0#3 ++ a) (0#3 ++ b) 1))
  | .pxor h p a b => some (word h 10 (t3 (p ++ 0#3) (0#3 ++ a) (0#3 ++ b) 2))
  | .pandn h p a b => some (word h 10 (t3 (p ++ 0#3) (0#3 ++ a) (0#3 ++ b) 3))
  | .pmov h p a => some (word h 10 (t3 (p ++ 0#3) (0#3 ++ a) 0 4))
  | .pset h p n => some (word h 10 (t3 (p ++ 0#3) 0 (0#5 ++ n) 5))
  | .p2v h d => some (word h 10 (t3 d 0 0 6))
  | .v2p h a => some (word h 10 (t3 0 a 0 7))
  | .br h p n prio disp => some (word h 11 (tb p n prio disp))
  | .jmp h prio disp => some (word h 12 (tj prio 0 disp))
  | .call h prio disp => some (word h 12 (tj prio 1 disp))
  | .jr h a prio => some (word h 13 (t3 0 a (0#2 ++ prio) 0))
  | .callr h a prio => some (word h 13 (t3 0 a (0#2 ++ prio) 1))
  | .ret h prio => some (word h 13 (t3 0 0 (0#2 ++ prio) 2))
  | .kjoin h d => some (word h 14 (t3 d 0 0 0))
  | .kleave h d => some (word h 14 (t3 d 0 0 1))
  | .kwait h p a => some (word h 14 (t3 (p ++ 0#3) a 0 2))
  | .kbal h d b => some (word h 14 (t3 d 0 (0#3 ++ b) 3))
  | .kmov h d a => some (word h 14 (t3 d a 0 4))
  | .krd h d a => some (word h 14 (t3 d a 0 5))
  | .kwr h d a => some (word h 14 (t3 d a 0 6))
  | .kclr h d => some (word h 14 (t3 d 0 0 7))
  | .kfront h d sel => some (word h 14 (t3 d 0 sel 8))
  | .fadd h d a b => some (word h 15 (t3 d a b 0))
  | .fsub h d a b => some (word h 15 (t3 d a b 1))
  | .fmul h d a b => some (word h 15 (t3 d a b 2))
  | .fmin h d a b => some (word h 15 (t3 d a b 3))
  | .fmax h d a b => some (word h 15 (t3 d a b 4))
  | .fabs h d a => some (word h 15 (t3 d a 0 5))
  | .fneg h d a => some (word h 15 (t3 d a 0 6))
  | .fcps h d a b => some (word h 15 (t3 d a b 7))
  | .frndNe h d a => some (word h 15 (t3 d a 0 8))
  | .frndTz h d a => some (word h 15 (t3 d a 0 9))
  | .frndDn h d a => some (word h 15 (t3 d a 0 10))
  | .frndUp h d a => some (word h 15 (t3 d a 0 11))
  | .fclass h d a => some (word h 15 (t3 d a 0 12))
  | .fscale h d a b => some (word h 15 (t3 d a b 13))
  | .hadd2 h d a b => some (word h 15 (t3 d a b 14))
  | .hsub2 h d a b => some (word h 15 (t3 d a b 15))
  | .hmul2 h d a b => some (word h 15 (t3 d a b 16))
  | .hmin2 h d a b => some (word h 15 (t3 d a b 17))
  | .hmax2 h d a b => some (word h 15 (t3 d a b 18))
  | .badd2 h d a b => some (word h 15 (t3 d a b 19))
  | .bsub2 h d a b => some (word h 15 (t3 d a b 20))
  | .bmul2 h d a b => some (word h 15 (t3 d a b 21))
  | .bmin2 h d a b => some (word h 15 (t3 d a b 22))
  | .bmax2 h d a b => some (word h 15 (t3 d a b 23))
  | .ffma h d a b c => some (word h 16 (t3 d a b c))
  | .hfma2 h d a b c => some (word h 17 (t3 d a b c))
  | .bfma2 h d a b c => some (word h 18 (t3 d a b c))
  | .cvt h d a rm pol src tgt => some (word h 19 (t3 d a (rm ++ pol ++ 0#2) (src ++ tgt)))
  | .cvtF16x2F32x2 h d a rm pol => some (word h 19 (t3 d (a ++ 0#1) (rm ++ pol ++ 0#2) 0))
  | .cvtBf16x2F32x2 h d a rm pol => some (word h 19 (t3 d (a ++ 0#1) (rm ++ pol ++ 0#2) 9))
  | .cvtF32F16hi h d a rm pol => some (word h 19 (t3 d a (rm ++ pol ++ 0#2) 18))
  | .cvtF32Bf16hi h d a rm pol => some (word h 19 (t3 d a (rm ++ pol ++ 0#2) 27))
  | .rcp h d a => some (word h 20 (t3 d a 0 0))
  | .rsq h d a => some (word h 20 (t3 d a 0 1))
  | .sqrt h d a => some (word h 20 (t3 d a 0 2))
  | .exp2 h d a => some (word h 20 (t3 d a 0 3))
  | .log2 h d a => some (word h 20 (t3 d a 0 4))
  | .sin h d a => some (word h 20 (t3 d a 0 5))
  | .cos h d a => some (word h 20 (t3 d a 0 6))
  | .tanh h d a => some (word h 20 (t3 d a 0 7))
  | .shflIdx h d a b => some (word h 21 (t3 d a b 0))
  | .shflUp h d a b => some (word h 21 (t3 d a b 1))
  | .shflDn h d a b => some (word h 21 (t3 d a b 2))
  | .shflXor h d a b => some (word h 21 (t3 d a b 3))
  | .voteAny h p b => some (word h 21 (t3 (p ++ 0#3) 0 (0#3 ++ b) 4))
  | .voteAll h p b => some (word h 21 (t3 (p ++ 0#3) 0 (0#3 ++ b) 5))
  | .lrank h d b => some (word h 21 (t3 d 0 (0#3 ++ b) 6))
  | .lcnt h d b => some (word h 21 (t3 d 0 (0#3 ++ b) 7))
  | .bcast h d a b => some (word h 21 (t3 d a b 8))
  | .rdxAddI32 h d a => some (word h 21 (t3 d a 0 9))
  | .rdxAddF32 h d a => some (word h 21 (t3 d a 0 10))
  | .rdxMinI32 h d a => some (word h 21 (t3 d a 0 11))
  | .rdxMaxI32 h d a => some (word h 21 (t3 d a 0 12))
  | .rdxMinF32 h d a => some (word h 21 (t3 d a 0 13))
  | .rdxMaxF32 h d a => some (word h 21 (t3 d a 0 14))
  | .ld h d w t cp imm => some (word h 22 (tm d w t cp 0 imm))
  | .ldx h d w t cp b => some (word h 22 (tm d w t cp 1 (b ++ 0#1)))
  | .st h v w t cp imm => some (word h 23 (tm v w t cp 0 imm))
  | .stx h v w t cp b => some (word h 23 (tm v w t cp 1 (b ++ 0#1)))
  | .atomAddI32 h d a b => some (word h 24 (t3 d (a ++ 0#1) b 0))
  | .atomAddF32 h d a b => some (word h 24 (t3 d (a ++ 0#1) b 1))
  | .atomAddBf16x2 h d a b => some (word h 24 (t3 d (a ++ 0#1) b 2))
  | .atomMinI32 h d a b => some (word h 24 (t3 d (a ++ 0#1) b 3))
  | .atomMinN32 h d a b => some (word h 24 (t3 d (a ++ 0#1) b 4))
  | .atomMaxI32 h d a b => some (word h 24 (t3 d (a ++ 0#1) b 5))
  | .atomMaxN32 h d a b => some (word h 24 (t3 d (a ++ 0#1) b 6))
  | .atomAnd h d a b => some (word h 24 (t3 d (a ++ 0#1) b 7))
  | .atomOr h d a b => some (word h 24 (t3 d (a ++ 0#1) b 8))
  | .atomXor h d a b => some (word h 24 (t3 d (a ++ 0#1) b 9))
  | .atomXchg h d a b => some (word h 24 (t3 d (a ++ 0#1) b 10))
  | .atomCas h d a b => some (word h 24 (t3 d (a ++ 0#1) b 11))
  | .atomInc h d a b => some (word h 24 (t3 d (a ++ 0#1) b 12))
  | .atomXchg64 h d a b => some (word h 24 (t3 (d ++ 0#1) (a ++ 0#1) (b ++ 0#1) 13))
  | .atomCas64 h d a b => some (word h 24 (t3 (d ++ 0#1) (a ++ 0#1) (b ++ 0#1) 14))
  | .redAddI32 h a b => some (word h 24 (t3 0 (a ++ 0#1) b 15))
  | .redAddF32 h a b => some (word h 24 (t3 0 (a ++ 0#1) b 16))
  | .redAddBf16x2 h a b => some (word h 24 (t3 0 (a ++ 0#1) b 17))
  | .redMinI32 h a b => some (word h 24 (t3 0 (a ++ 0#1) b 18))
  | .redMaxI32 h a b => some (word h 24 (t3 0 (a ++ 0#1) b 19))
  | .redAnd h a b => some (word h 24 (t3 0 (a ++ 0#1) b 20))
  | .redOr h a b => some (word h 24 (t3 0 (a ++ 0#1) b 21))
  | .redXor h a b => some (word h 24 (t3 0 (a ++ 0#1) b 22))
  | .ldaB32 h d a => some (word h 24 (t3 d (a ++ 0#1) 0 23))
  | .ldaB64 h d a => some (word h 24 (t3 (d ++ 0#1) (a ++ 0#1) 0 24))
  | .strB32 h a b => some (word h 24 (t3 0 (a ++ 0#1) b 25))
  | .strB64 h a b => some (word h 24 (t3 0 (a ++ 0#1) (b ++ 0#1) 26))
  | .ldaSys h d a => some (word h 24 (t3 d (a ++ 0#1) 0 27))
  | .strSys h a b => some (word h 24 (t3 0 (a ++ 0#1) b 28))
  | .fenceVault h d => some (word h 25 (t3 d 0 0 0))
  | .fencePart h d => some (word h 25 (t3 d 0 0 1))
  | .fenceSys h d => some (word h 25 (t3 d 0 0 2))
  | .fwait h a => some (word h 25 (t3 0 a 0 3))
  | .fencewVault h => some (word h 25 (t3 0 0 0 4))
  | .fencewPart h => some (word h 25 (t3 0 0 0 5))
  | .fencewSys h => some (word h 25 (t3 0 0 0 6))
  | .prefL1 h a => some (word h 25 (t3 0 (a ++ 0#1) 0 7))
  | .prefL2 h a => some (word h 25 (t3 0 (a ++ 0#1) 0 8))
  | .copy h d a b => some (word h 26 (t3 d (a ++ 0#1) b 0))
  | .carm h a b => some (word h 26 (t3 0 a (b ++ 0#1) 1))
  | .bwaitFull h a => some (word h 26 (t3 0 a 0 2))
  | .bwaitFree h a => some (word h 26 (t3 0 a 0 3))
  | .btake h a => some (word h 26 (t3 0 a 0 4))
  | .bfree h a => some (word h 26 (t3 0 a 0 5))
  | .bstat h d a => some (word h 26 (t3 d a 0 6))
  | .run h d a => some (word h 27 (t3 d (a ++ 0#1) 0 0))
  | .rstop h => some (word h 27 (t3 0 0 0 1))
  | .pop h d n => some (word h 27 (t3 d 0 (0#4 ++ n) 2))
  | .qstat h d => some (word h 27 (t3 d 0 0 3))
  | .qreset h m => some (word h 27 (t3 0 0 (0#2 ++ m) 4))
  | .mma h t a wb ty n bs => some (word h 28 (te t a wb ty n bs))
  | .tzero h d a b => some (word h 29 (t3 d (a ++ 0#1) b 0))
  | .tld h d a b => some (word h 29 (t3 d a b 1))
  | .tst h v a b => some (word h 29 (t3 v a b 2))
  | .trls h a => some (word h 29 (t3 0 a 0 3))
  | .mmag h d a b => some (word h 29 (t3 d a (b ++ 0#1) 4))
  | .mmal h d a b => some (word h 29 (t3 d a (b ++ 0#1) 5))
  | .tstat h d a => some (word h 29 (t3 d a 0 6))
  | .sgnew h d a p => some (word h 30 (t3 d (a ++ 0#1) (0#3 ++ p) 0))
  | .sgjoin h d a p => some (word h 30 (t3 d (a ++ 0#1) (0#3 ++ p) 1))
  | .sgjoinH h d a p => some (word h 30 (t3 d a (0#2 ++ 1#1 ++ p) 1))
  | .sgleave h a => some (word h 30 (t3 0 a 0 2))
  | .sgbar h d a => some (word h 30 (t3 d a 0 3))
  | .sgvoteAny h d a b => some (word h 30 (t3 d a (0#3 ++ b) 4))
  | .sgvoteAll h d a b => some (word h 30 (t3 d a (0#3 ++ b) 5))
  | .sgvoteCnt h d a b => some (word h 30 (t3 d a (0#3 ++ b) 6))
  | .sgredAddI32 h d a b => some (word h 30 (t3 d a b 7))
  | .sgredAddF32 h d a b => some (word h 30 (t3 d a b 8))
  | .sgredMinI32 h d a b => some (word h 30 (t3 d a b 9))
  | .sgredMaxI32 h d a b => some (word h 30 (t3 d a b 10))
  | .sgredMinF32 h d a b => some (word h 30 (t3 d a b 11))
  | .sgredMaxF32 h d a b => some (word h 30 (t3 d a b 12))
  | .sgstat h d a sel => some (word h 30 (t3 d a (0#4 ++ sel) 13))
  | .sgdrop h a => some (word h 30 (t3 0 a 0 14))
  | .shortStallExpiry _ _ _ => none
  | .poolStallConvert _ => none
  | .poolexhaust _ _ => none
  | .resultWriteback _ => none
  | .loadResponse _ => none
  | .storeAck _ => none
  | .storeHorizonReached _ => none
  | .deviceTimeWake _ => none
  | .ladleDrainWindow _ => none
  | .ladleDrain _ => none
  | .schedulerForward _ _ => none
  | .recordArrival _ => none
  | .homeWrite _ => none
  | .homeRead _ => none
  | .vaultBankAccess _ => none
  | .l1LeaseExpiry _ _ => none
  | .leaseExpiryNotice _ _ => none
  | .updateOnlyGrant _ _ => none
  | .l1Evict _ _ => none
  | .deferredStoreFault _ => none
  | .faultEntryRetry _ => none
  | .bufferStateOp _ => none
  | .copyComplete _ => none
  | .bufferFull _ _ => none
  | .runnerPush _ => none
  | .enginePageFault _ => none
  | .tileOpArrival _ => none
  | .mmaStep _ => none
  | .mmalStep _ => none
  | .sgHomeRequest _ => none
  | .sgReply _ => none
  | .sgArrivalDepart _ => none
  | .sgResult _ => none
  | .syscallPost _ => none
  | .launchEnqueue _ => none
  | .sysdoneWrite _ _ => none
  | .fltdoneService _ _ => none
  | .fltdoneFail _ _ => none
  | .watchdog _ => none
  | .vaultSpill _ _ _ => none
  | .vaultRestore _ _ _ => none
  | .pourPreempt _ _ => none
  | .preemptComplete _ => none
  | .vfSliceEnd _ => none
  | .bundleRead _ _ => none
  | .castAdmit _ => none
  | .depReread _ _ => none
  | .castStart _ => none
  | .pourStart _ => none
  | .epilogueStart _ _ => none
  | .bundleRetire _ _ => none
  | .pourPromote _ _ => none
  | .assayDeadline _ _ _ => none
  | .stealRequest _ => none
  | .stealHandle _ => none
  | .stealReply _ => none
  | .enacctSample _ => none
  | .rowWindowEnd _ => none
  | .assaySetup _ _ _ => none
  | .suspicionDecay => none
  | .finjFlip _ _ => none
  | .finjPoison _ _ _ => none
  | .finjOff _ _ => none
  | .recholdHold _ _ => none
  | .recholdRelease _ _ => none
  | .qack _ => none
  | .interruptEntry _ _ => none
  | .l2VthrDrop _ => none
  | .l2VthrRecover _ => none
  | .eyeMeasure _ _ _ => none
  | .laneRetrain _ => none
  | .retrainDone _ => none
  | .powerOnReset => none
  | .readySet _ => none
  | .readyClear _ => none
  | .portTrain _ _ => none
  | .peerDown _ _ => none
  | .migfwdForward _ _ _ _ => none
  | .queueTailWrite _ _ _ => none
  | .cfglockCreq _ => none
  | .cfglockCrelease _ => none
  | .cfglockMreq _ => none
  | .cfglockMrelease _ => none
  | .create _ _ => none
  | .destroy _ _ => none
  | .quiesce _ _ => none
  | .quiesceTimeout _ => none
  | .resume _ _ => none
  | .reset _ _ => none
  | .scrub _ _ => none
  | .scrubDone _ => none
  | .shakeout _ _ => none
  | .shakeoutDone _ => none
  | .preqPreempt _ _ => none
  | .preqMove _ _ => none
  | .pctxSave _ _ => none
  | .pctxRestore _ _ => none
  | .pctxSaveOnevf _ _ => none
  | .pctxRestoreOnevf _ _ => none
  | .pctxComplete _ => none
  | .mctpDsbRead _ => none
  | .mctpDsbWrite _ _ => none
  | .getVersion _ => none
  | .getCapabilities _ => none
  | .negotiateAlgorithms _ _ => none
  | .getDigests _ => none
  | .getCertificate _ _ _ _ => none
  | .challenge _ _ _ => none
  | .getMeasurements _ _ _ => none
  | .registerWrite _ _ _ _ => none
  | .illegalEncoding _ => none
  | .btinvActed _ _ => none
  | .arrivalValidation _ => none
  | .peerUp _ _ => none
  | .pldmTelemetry _ => none

/-- The words of a well-formed instruction; none for an event and for a term that is not well-formed. -/
def encode (i : Instr) : Option (BitVec 32) := if wf i then encodeWord i else none

end Sys2Proof
end

