-- ==== Sys2Proof/Machine/State.lean ====
section
/-! DEFINITION. The state of the whole device as plain data (INVENTORY.md, heading State). Times are device cycles
(R6). Objects in flight carry an `id` of the model. Fields marked (model) are the model's own. -/

namespace Sys2Proof.Machine

/-- Why a step stops with a fault. -/
inductive Fault where
  /-- Raised by `step` alone, when the outside sends as the next event something that is no event of the part (an
  instruction word, or an event whose operands name no part of the device). Safe: no hardware does this. -/
  | notAnEvent
  deriving DecidableEq, Repr

/-- Why a step refuses. -/
inductive Refusal where
  /-- Raised by an arm of `exec` whose instruction has no meaning yet. Safe. -/
  | notModelled (mnemonic : String)
  deriving DecidableEq, Repr

/-! ### Threads (R40, R42, R69) -/

/-- Privilege levels (R95, R298): user or U, supervisor or S, M. -/
inductive Level where
  | user
  | sup
  | mon
  deriving DecidableEq, Repr

/-- A register an instruction names (R85). -/
inductive RegRef where
  | v (n : BitVec 6)
  | p (n : BitVec 3)
  | k (n : Nat)
  | h (n : BitVec 3)
  deriving DecidableEq, Repr

/-- A fixed-latency result that may not be read before `ready` (R81, R83); `old` is the value read until then. -/
structure Late where
  reg : RegRef
  old : Word
  ready : Nat
  deriving DecidableEq, Repr

/-- Where a thread is (R46, R66). -/
inductive Loc where
  | lane (core slot lane : Nat)
  | record
  | ended
  deriving DecidableEq, Repr

/-- One thread, wherever it lies. In a protected launch (R136) the odd physical lane is a second entry, the shadow,
and `twin` names the other one of the pair. -/
structure Thread where
  tid : Nat
  part : Nat
  launch : Nat
  cast : Nat
  tic : Nat
  /-- 0 the original run, 1 the re-run, 2 the third run, 3 the rewrite run (R360). -/
  run : Nat
  shadow : Bool
  twin : Nat
  loc : Loc
  v : Vector Word 64
  p : BitVec 7
  h : Vector Word 8
  /-- Poison mark of each v register (R354). -/
  poison : DWord
  /-- Pending marks (R82). -/
  pendV : DWord
  pendP : BitVec 8
  pendH : BitVec 8
  late : List Late
  level : Level
  /-- The `TRAP` class, its handler's code buffer and its entry time (R326, R328, R330). -/
  trapClass : Bool
  hbuf : Nat
  hstart : Nat
  trappc : Word
  trapcause : Word
  trapinfo : DWord
  /-- The number of fences issued; F is its low 24 bits (R214). -/
  fence : Nat
  acktag : Word
  ackt : Word
  wakest : Word
  kind : Nat
  /-- `SLPT` while `SV` = 1 (R51, R275). -/
  sleepAt : Option Nat
  digs : Nat
  tileOps : Nat
  stateOps : Nat
  /-- The value of a byte of memory that it has observed, by the place in home order at which its home held it (R184). -/
  seen : List (Nat × Nat)
  /-- Registers that hold a token of status `TRAPPED`: register, code, tile handle (R266). -/
  trapTok : List (Nat × Nat × Word)
  /-- Tile operations without a result that found their tile gone: handle and word (R260, notes/assumptions/39.md). -/
  stale : List (Word × Word) := []
  deriving DecidableEq, Repr

/-! ### Pours and the frontier (R44, R45, R48) -/

/-- A range lock (R189): the operation, the hull, whether it is a destination, the tile it belongs to. -/
structure Lock where
  op : Nat
  part : Nat
  /-- The slot whose table holds the entry. -/
  slot : Nat
  buf : Nat
  lo : Nat
  hi : Nat
  dst : Bool
  tile : Option Word
  /-- The operation has ended, and the last of its writes is complete in this cy: the lock goes then (R192). -/
  free : Option Nat := none
  deriving DecidableEq, Repr

/-- What an engine issue needs (R239): its range locks, and a place on a core: 1 a Tundish of its cluster, 2 a runner,
3 its matrix queue, 0 none. -/
structure EngNeed where
  core : Nat
  place : Nat
  locks : List Lock
  deriving DecidableEq, Repr

/-- What a group waits for (R48): the wake type, the key, the keys of lanes whose own key differs, and of an engine issue
what it needs. -/
structure Wait where
  wtype : Nat
  key : Nat
  keys : List (Nat × Nat) := []
  need : Option EngNeed := none
  deriving DecidableEq, Repr

/-- A short stall (R48, R49), with the cy of the last try; `pool` is the order number of a pool-stalled entry (R64).
Wake types 14 and 15 are the model's own: a wait without a window, on a mask and on a home's reply (R157, R272, R284,
R254); 13 is a fetch that the network dropped and that nothing answers (R383). -/
structure Stall where
  start : Nat
  tried : Nat
  wtype : Nat
  key : Nat
  /-- Keys of single lanes that differ from `key`. -/
  keys : List (Nat × Nat)
  pool : Option Nat
  /-- (model) It is to become a record once the flask homes have answered its threads (R272), or, of a page fault, in the
  cy that follows the issue (R332). -/
  await : Bool := false
  /-- Its window has ended with the condition false: it converts in the cy after (R49). -/
  expired : Bool := false
  /-- What an engine issue waits for (R239). -/
  need : Option EngNeed := none
  deriving DecidableEq, Repr

/-- A frontier entry (R44, R328). -/
structure Entry where
  pc : Word
  prio : BitVec 4
  mask : Word
  /-- The code buffer it fetches from (R328). -/
  buf : Nat
  stall : Option Stall
  /-- Order number of a pool-stalled split entry (R45). -/
  split : Option Nat
  /-- Released from its wait on a mask (R158), with what its `KWAIT` writes, until that has issued. -/
  freed : Option Bool := none
  deriving DecidableEq, Repr

/-- A resident pour (R43, R80, R156, R319, R320). -/
structure Pour where
  core : Nat
  slot : Nat
  part : Nat
  launch : Nat
  entries : List Entry
  k : Vector Word 12
  /-- No group issues before this cy (R80). -/
  ready : Nat
  /-- When the pour last issued or was formed (R319). -/
  last : Nat
  formed : Nat
  /-- Restored from an annex (R319 class 2). -/
  fromAnnex : Bool
  /-- Since when it has been ready without issuing (R320). -/
  readySince : Option Nat
  promoted : Bool
  /-- Pool references of the records it was formed from, freed when it issues first (R61). -/
  refs : List Nat
  /-- A pre-emption request reached it but the pool had no room (R65): its order number. -/
  poolStalled : Option Nat
  deriving DecidableEq, Repr

/-! ### Records, annexes and ladles (R51 to R66) -/

/-- The tile block of a stopped `MMAL` (R52). -/
structure TileBlk where
  handle : Word
  counters : List Nat
  deriving DecidableEq, Repr

/-- A continuation record (R51); the saved registers stand in its thread. -/
structure Rec where
  tid : Nat
  part : Nat
  cluster : Nat
  kind : Nat
  prio : BitVec 4
  resume : Word
  buf : Nat
  wtype : Nat
  key : Nat
  livemask : DWord
  faultix : Nat
  /-- Annex reference and lane, for kind 1 (R57). -/
  annex : Nat
  lane : Nat
  /-- Pool reference (R62). -/
  ref : Nat
  ps : Bool
  asRun : Bool
  pt : Bool
  tile : Option TileBlk
  /-- When the wake fired (R55). -/
  fired : Option Nat
  /-- Status that the wake delivers in `sr.wakest` (R287). -/
  status : Nat
  held : Bool
  /-- On its way to a cluster (R66); 256 and above: another device. -/
  transit : Option Nat
  /-- (model) Records that travel together (R66, R276) bear one number. -/
  convoy : Nat
  deriving DecidableEq, Repr

/-- A pour annex (R57). -/
structure Annex where
  ref : Nat
  part : Nat
  entries : List Entry
  k : Vector Word 12
  count : Nat
  deriving DecidableEq, Repr

/-- A ladle (R59, R60): its key, its records in order with the cy each entered. -/
structure Ladle where
  id : Nat
  part : Nat
  cluster : Nat
  launch : Nat
  resume : Word
  annex : Nat
  buf : Nat
  pin : Option Nat
  members : List (Nat × Nat)
  eligibleSince : Option Nat
  aged : Bool
  deriving DecidableEq, Repr

/-! ### Memory system (R160 to R187) -/

/-- A lease copy in an L1 (R174): the line's bytes as of its grant. -/
structure L1Copy where
  core : Nat
  line : Nat
  data : List Byte
  /-- The place in home order of the newest write that it holds (R161, R184). -/
  granted : Nat
  expiry : Nat
  /-- Bytes that a store of the core wrote, with the place of that write in home order. -/
  own : List (Nat × Nat) := []
  /-- Taken by a load with `cp` 01: evicted first (R172). -/
  strm : Bool := false
  deriving DecidableEq, Repr

/-- A line that an L2 slice holds (R160, R161, R172, R219, R355), at a set and way; `mode` is 0 normal, 1 stream,
3 retained. -/
structure L2Line where
  slice : Nat
  set : Nat
  way : Nat
  line : Nat
  mode : Nat
  deriving DecidableEq, Repr

/-- A line that the LLC quarter of a slot holds (R17, R24). -/
structure LlcLine where
  slot : Nat
  line : Nat
  deriving DecidableEq, Repr

/-- The read-modify-write operations (R208, R210). -/
inductive RmwOp where
  | addI32 | addF32 | addBf16x2 | minI32 | minN32 | maxI32 | maxN32 | band | bor | bxor | xchg | cas | inc
  | xchg64 | cas64
  deriving DecidableEq, Repr

/-- A partial value in an update-only copy (R186, R210). -/
structure Partial where
  addr : Nat
  op : RmwOp
  value : Word
  poison : Bool
  deriving DecidableEq, Repr

/-- An update-only copy of a line (R186): requested, then granted. -/
structure UCopy where
  core : Nat
  line : Nat
  granted : Bool
  /-- The GWCT with which contributions are acknowledged, fixed at the grant. -/
  gwct : Nat
  parts : List Partial
  deriving DecidableEq, Repr

/-- Home state of a line (R174, R175). -/
structure Line where
  line : Nat
  lx : Nat
  tag : BitVec 16
  /-- Leases granted and not seen released: core and expiry. -/
  leases : List (Nat × Nat)
  deriving DecidableEq, Repr

/-- What an access does (R201). -/
inductive AccKind where
  | load | store | atom (op : RmwOp) | red (op : RmwOp) | lda | str | host
  deriving DecidableEq, Repr

/-- How far an access has come (R175, R179, R205). -/
inductive Stage where
  /-- Left the core. -/
  | sent
  /-- Performed; the value or acknowledgement travels back. -/
  | performed
  /-- Acknowledged or returned: complete but for its GWCT. -/
  | done
  /-- A deferred store fault whose entry is not yet written; the cy of the next try (R205, R334). -/
  | unposted (retry : Nat)
  /-- A deferred store fault posted under this fault id and ring index (R205). -/
  | faulted (fid ix : Nat)
  /-- Dropped by a router that does not deliver it (R383): it is never performed and never answered. -/
  | lost
  deriving DecidableEq, Repr

/-- An access in flight, or complete and still covered by a fence (R200, R214). -/
structure Acc where
  id : Nat
  /-- The thread; none for the host's own accesses. -/
  tid : Option Nat
  core : Nat
  part : Nat
  launch : Nat
  cast : Nat
  kind : AccKind
  buf : Nat
  off : Nat
  size : Nat
  /-- Buffer kind (R164), for scopes (R178). -/
  bkind : Nat
  addr : Nat
  /-- `ty` of the access (R203), for extension and fault entries. -/
  ty : Nat
  cp : Nat
  dst : Option Reg
  data : Nat
  cmp : Nat
  poison : Bool
  lane : Nat
  pc : Word
  /-- Program order within the thread, and the fences issued before it (R214). -/
  seq : Nat
  mark : Nat
  stage : Stage
  gwct : Nat
  tag : BitVec 16
  /-- The lease code of the buffer where L1 copies are permitted, else 0 (R173). -/
  lease : Nat
  /-- L2 allocation in effect (R172): 0 normal, 1 stream, 2 none, 3 retained. -/
  policy : Nat := 0
  /-- The kills of the gang before it was issued (R336, R357). -/
  kills : Nat := 0
  deriving DecidableEq, Repr

/-- A variable-latency result on its way to its registers (R82). -/
structure PendRes where
  id : Nat
  tid : Nat
  writes : List (RegRef × Word)
  /-- Whether it goes to the shadow of the thread too (R136); each physical lane has its own result of a word it executes. -/
  both : Bool := true
  /-- The data are poisoned: they mark the registers they are written to (R241, R262). -/
  bad : Bool := false
  /-- A trap that waits in the registers it writes: code and handle (R260, R266). -/
  trap : Option (Nat × Word) := none
  deriving DecidableEq, Repr

/-- A parameter block that a word has read and holds until it issues (R195): the issuing thread, the word, the data. -/
structure HeldBlock where
  tid : Nat
  pc : Word
  data : Nat
  /-- The word writes `BADPARAM` for it. -/
  bad : Bool
  /-- (model) Its read was dropped by the network, and nothing answers it (R383). -/
  lost : Bool := false
  deriving DecidableEq, Repr

/-- A posted removal of a buffer index from the translation caches (R171, R300); `waits` holds the ids of the accesses
and engine operations that `BTSYNC` waits for. -/
structure BtInv where
  part : Nat
  idx : Nat
  tid : Nat
  acted : Bool
  waits : List Nat
  deriving DecidableEq, Repr

/-- A cached buffer-table entry of a core (R171): the 64 bytes as one number. -/
structure CachedEntry where
  core : Nat
  part : Nat
  idx : Nat
  raw : Nat
  deriving DecidableEq, Repr

/-- A cached page-table entry of a core (R171). -/
structure CachedPage where
  core : Nat
  part : Nat
  idx : Nat
  page : Nat
  raw : Nat
  deriving DecidableEq, Repr

/-! ### Engines (R239 to R271) -/

/-- An element of a feed-queue entry with its poison mark (R258). -/
abbrev QElem := Word × Bool

/-- A copy of the Tundish (R243 to R252). -/
structure CopyOp where
  id : Nat
  part : Nat
  launch : Nat
  /-- The gang of the issuing thread; none for a prologue copy (R311). -/
  gang : Option Nat
  cast : Nat
  run : Nat
  vf : Nat
  proc : Nat
  level : Level
  cluster : Nat
  issuer : Option Nat
  /-- Threads that receive the token, with the register (R240). -/
  tokens : List (Nat × Reg)
  /-- The parameter block, bit 0 first (R243). -/
  blk : Nat
  state : Nat
  accounted : Bool
  /-- Elements moved (R241). -/
  vec : Nat
  paused : Option Nat
  retry : Option Nat
  stopped : Bool
  prologue : Bool
  gwct : Nat
  /-- Its program count as a state operation of its threads (R271). -/
  order : List (Nat × Nat)
  pc : Word
  /-- The issuing lane as a mask (R333), and whether a prologue copy has taken its locks and begun (R311). -/
  lanes : Nat := 0
  issued : Bool := true
  /-- Where its append to a log begins, once it has begun (R199, R246). -/
  place : Option Nat := none
  /-- A request of it was dropped by a router (R383): it never goes on. -/
  stuck : Bool := false
  deriving DecidableEq, Repr

/-- A runner (R257, R258). -/
structure Runner where
  id : Nat
  part : Nat
  launch : Nat
  cast : Nat
  run : Nat
  core : Nat
  issuer : Option Nat
  tokens : List (Nat × Reg)
  blk : Nat
  vec : Nat
  stream : Nat
  stopReq : Bool
  paused : Option Nat
  retry : Option Nat
  stopped : Bool
  sup : Bool
  pc : Word
  lanes : Nat := 0
  stuck : Bool := false
  deriving DecidableEq, Repr

/-- What a tile operation does (R261, R262, R264, R266, R267). -/
inductive TileKind where
  | zero (d : Reg)
  | load (d : Reg) (sel : List (Nat × Word))
  | store (elems : List (Nat × Word × Word))
  | release
  | mma
  | mmal
  | mmag
  deriving DecidableEq, Repr

/-- A tile operation in flight or in progress. The operands of the matrix forms are kept here too. -/
structure TileOp where
  id : Nat
  part : Nat
  launch : Nat
  cast : Nat
  run : Nat
  core : Nat
  handle : Word
  kind : TileKind
  /-- Active threads with their lane and their count of tile operations (R261). -/
  threads : List (Nat × Nat × Nat)
  issuer : Nat
  arrived : Bool
  /-- MMA: type, N code, slot, bs; rows as lists of words per lane; queue entries still to stage (R263). -/
  ty : Nat
  ncode : Nat
  wb : Nat
  bs : Nat
  mask : Word
  rows : List (Nat × List QElem)
  queue : Option Nat
  staged : List (List QElem)
  need : Nat
  /-- The headers of the weight image read at issue (R256). -/
  headers : List (Nat × Nat)
  /-- MMAL and MMAG: the descriptor, the next step, the token register (R265, R266). -/
  blk : Nat
  vec : Nat
  token : Option Reg
  paused : Option Nat
  retry : Option Nat
  stopped : Bool
  pc : Word
  stuck : Bool := false
  /-- An upset of the multipliers in its next step (R269): whether in the second computation, the row and column, and the
  bits that come out wrong. -/
  upset : Option (Bool × Nat × Nat × Word) := none
  /-- The word that issued it. -/
  word : Word := 0
  deriving DecidableEq, Repr

/-- An entry of a tile table (R260); an unlisted entry is free with generation 1. -/
structure Tile where
  vault : Nat
  idx : Nat
  gen : Nat
  live : Bool
  off : Nat
  ncode : Nat
  tall : Bool
  i32 : Bool
  part : Nat
  launch : Nat
  gang : Nat
  buf : Nat
  /-- Its gang was killed: it is released once the operation in progress on it has ended (R260). -/
  dying : Bool := false
  deriving DecidableEq, Repr

/-- A valid weight-slot tag (R255). -/
structure WeightTag where
  core : Nat
  slot : Nat
  part : Nat
  launch : Nat
  deriving DecidableEq, Repr

/-- A state operation sent to the buffer's home (R252, R254, R271). -/
inductive BufOpKind where
  | arm (shares : List Nat)
  | account (producer size : Nat)
  | take
  | free
  deriving DecidableEq, Repr

/-- How far a state operation has come: sent, performed, or refused with a trap code. -/
inductive BufOpStage where
  | sent
  /-- Performed; for a copy, whether it was accounted. -/
  | performed (counted : Bool)
  | refused (code : BitVec 8)
  deriving DecidableEq, Repr

structure BufOp where
  id : Nat
  part : Nat
  buf : Nat
  kind : BufOpKind
  /-- The issuing thread and the word (R239). -/
  tid : Nat
  pc : Word
  /-- The active threads with their counts of state operations (R271). -/
  order : List (Nat × Nat)
  stage : BufOpStage
  deriving DecidableEq, Repr

/-- The greatest GWCT of the writes delivered into a state buffer since it was armed (R252). -/
structure Delivery where
  part : Nat
  buf : Nat
  gwct : Nat
  deriving DecidableEq, Repr

/-! ### Flasks (R278 to R288) -/

/-- A thread's name as a flask knows it (R280). -/
structure Who where
  launch : Nat
  cast : Nat
  tic : Nat
  deriving DecidableEq, Repr

/-- A member, with the first phase it is counted in (R286). -/
structure Member where
  who : Who
  fromPhase : Nat
  deriving DecidableEq, Repr

/-- An arrival at a flask (R284): the thread, its phase, its function code, its contribution, its register. -/
structure Arrival where
  id : Nat
  tid : Nat
  who : Who
  phase : Nat
  fn : Nat
  value : Word
  dst : Reg
  deriving DecidableEq, Repr

/-- A flask entry (R280); an unlisted entry is free with generation 1. -/
structure Flask where
  part : Nat
  home : Nat
  idx : Nat
  gen : Nat
  live : Bool
  name : DWord
  members : List Member
  phase : Nat
  isOpen : Bool
  expect : Nat
  op : Nat
  arrived : List Arrival
  held : List Arrival
  mix : Bool
  faultMark : Bool
  dropMark : Bool
  /-- The L2 slice of its home (R278): slice and index name the entry, whatever partition the slice belongs to. -/
  slice : Nat := 0
  deriving DecidableEq, Repr

/-- Where a flask request is on its way (R282, R284). -/
inductive SgKind where
  | new (name : DWord) (h : BitVec 3) (p : BitVec 3)
  | join (name : DWord) (h : BitVec 3) (p : BitVec 3)
  | joinH (handle : Word) (h : BitVec 3) (p : BitVec 3)
  | leave (handle : Word) (h : BitVec 3)
  | drop (handle : Word) (h : BitVec 3)
  | stat (handle : Word) (sel : Nat) (d : Reg)
  /-- An arrival, with its phase once validated. -/
  | arrive (handle : Word) (fn : Nat) (value : Word) (d : Reg)
  /-- A departure of an ended member (R286): a kill sets the fault mark. -/
  | gone (handle : Word) (killed : Bool)
  deriving DecidableEq, Repr

/-- Progress of a flask request: sent, performed with its reply, issued with its phase, departed, counted, result on its
way. -/
inductive SgStage where
  | sent
  | reply (h : Word) (p : Bool)
  /-- The home's answer to a leave, a drop or a validation has returned; the word has not issued yet. -/
  | returned (phase : Nat)
  /-- The home found the handle stale; the word takes `STALEHANDLE` when it is tried again. -/
  | stale
  | validated (phase : Nat)
  | departed (phase : Nat)
  | counted (phase : Nat)
  | result (value : Word) (status phase : Nat)
  deriving DecidableEq, Repr

structure SgReq where
  id : Nat
  part : Nat
  tid : Nat
  who : Who
  kind : SgKind
  stage : SgStage
  seq : Nat
  deriving DecidableEq, Repr

/-! ### Launches, casts, assay (R35 to R42, R308 to R318, R357 to R367) -/

/-- One level of a launch's region chain (R35, R38). -/
structure Region where
  ptr : DWord
  number : Nat
  action : Nat
  /-- Effective budgets as read at the last admission (R36, R38). -/
  prio : Nat
  poolrec : Nat
  maxcores : Nat
  vaultb : Nat
  energy : Nat
  assay : Nat
  deriving DecidableEq, Repr

/-- A launch (R39, R311). -/
structure Launch where
  part : Nat
  num : Nat
  queue : Nat
  /-- Its place in the queue, for replay (R347). -/
  index : Nat
  vf : Nat
  proc : Nat
  /-- The bundle and the kernel descriptors, bit 0 first (R106, R308). -/
  bundle : Nat
  kinfo : Nat
  codeBuf : Nat
  chain : List Region
  swin : Nat
  drain : Nat
  poolto : Nat
  action : Nat
  gang : Nat
  ncast : Nat
  castsz : Nat
  /-- Casts admitted so far, and gangs to admit again after a kill (R357). -/
  admitted : Nat
  relaunch : List Nat
  /-- Kills of each gang (R357). -/
  kills : List (Nat × Nat)
  failed : Bool
  badPrologue : Bool
  corrupt : Bool
  rewritten : Bool
  /-- 0 not due, 1 running, 2 ended (R311). -/
  epilogue : Nat
  /-- The selected casts, which stay selected through a relaunch (R360). -/
  selected : List Nat
  /-- The runner descriptor of the access slice (R258). -/
  access : Option Nat
  /-- The GWCT of the status that was written into the fence record (R311). -/
  fenced : Option Nat
  /-- When the writes of copies that ended before their last write was complete are complete (R311). -/
  writesAt : Nat := 0
  /-- Whether the launch holds its inputs, and the buffers held (R362). -/
  holding : List Nat
  deriving DecidableEq, Repr

/-- Assay state of a selected cast (R360 to R367). -/
structure Assay where
  /-- Digests of the runs ended so far, with their cores. -/
  digests : List (Nat × BitVec 128)
  digest : BitVec 128
  decided : Bool
  verdict : Nat
  deadline : Option Nat
  promoted : Bool
  deriving DecidableEq, Repr

/-- A cast (R40, R314). The epilogue's single cast has `num` 2^32, so that it differs from cast 0 (R311). -/
structure Cast where
  part : Nat
  launch : Nat
  num : Nat
  cluster : Nat
  started : Bool
  /-- Pours not started yet (R314). -/
  pours : List Nat
  ended : Bool
  threads : Nat
  /-- Vault allocation: offset and size (R40), and, while it is spilled, its former offset (R337). -/
  alloc : Option (Nat × Nat)
  /-- The vault and offset of the original run's allocation (R364). -/
  orig : Option (Nat × Nat)
  need : Nat
  spilled : Option Nat
  /-- The buffers that lie in the spilled allocation (R337). -/
  spillBufs : List Nat
  /-- Where in the pool backing its spilled allocation lies (R337). -/
  spillAt : Nat := 0
  queues : List (List (List QElem))
  pin : Option Nat
  run : Nat
  assay : Option Assay
  admittedAt : Nat
  stealable : Bool
  deriving DecidableEq, Repr

/-! ### Partitions (R293, R305 to R317, R334, R345, R349, R369, R379 to R382, R391 to R394) -/

/-- A queue context (R305) with the head bundle that was read and its arbitration state (R307, R317). -/
structure Queue where
  flost : Bool
  blost : Bool
  hrej : Bool
  head : BitVec 32
  tail : BitVec 32
  dev : Bool
  en : Bool
  proc : BitVec 12
  vf : BitVec 4
  prio : BitVec 4
  size : BitVec 4
  qbase : DWord
  /-- The head bundle read and not yet wholly admitted, with its launch once it has one. -/
  headBundle : Option Nat
  headLaunch : Option Nat
  since : Nat
  depRead : Option Nat
  depOk : Bool
  /-- The refused head bundle's status, with the GWCT of its write (R310). -/
  refused : Option Nat
  /-- Bundles read and not yet retired. -/
  unretired : Nat
  deriving DecidableEq, Repr

/-- A vault range of a killed gang, which is free once the writes that its engine operations issued are complete (R339):
the cy. -/
structure VaultHold where
  part : Nat
  launch : Nat
  cluster : Nat
  off : Nat
  size : Nat
  free : Nat
  deriving DecidableEq, Repr

/-- An outstanding fault id (R333). -/
structure FaultId where
  fid : Nat
  ix : Nat
  deriving DecidableEq, Repr

/-- A request to post a syscall entry or a bundle once earlier accesses are complete (R277, R289). -/
structure PostReq where
  id : Nat
  tid : Nat
  part : Nat
  /-- `none` for a syscall, the bundle and its queue for a launch. -/
  bundle : Option (Nat × Nat)
  dst : Reg
  code : Nat
  pc : Word
  /-- v0 to v5 as the word read them. -/
  args : Nat
  seq : Nat
  /-- The `LAUNCH` word it comes from: the id of the word's first request (R277). -/
  word : Nat := 0
  /-- Its bundle stands in slot `TAIL`, and the write is complete in this cy (R306). -/
  placed : Option Nat := none
  deriving DecidableEq, Repr

/-- A remote-buffer peer entry (R391). -/
structure PeerEntry where
  idx : Nat
  en : Bool
  up : Bool
  dev : BitVec 5
  slot : BitVec 6
  deriving DecidableEq, Repr

/-- A partition (R379), its registers and its scheduler's state. Reset values are in `Part.fresh`. -/
structure Part where
  first : Nat
  sz : Nat
  nvf : Nat
  tenant : BitVec 32
  /-- 1 running, 2 quiesced (R379). -/
  state : Nat
  quiescing : Option Nat
  qack : List Nat
  sbchk : Bool
  swin : BitVec 16
  fspill : BitVec 8
  trapvec : Word
  fltdone : Word
  btbase : DWord
  traplim : Word
  sglim : BitVec 17
  sysring : DWord
  sysnext : Nat
  rechold : DWord
  poolbk : DWord
  poolPages : Nat
  assayctl : Word
  assaykey : DWord
  finj : Word
  finjTid : Option Nat
  enacct : DWord
  enLog : List (Nat × Nat)
  enpol : BitVec 16
  queues : List (Nat × Queue)
  pweight : List (Nat × Nat)
  vfslice : Word
  qage : Word
  rlrate : Word
  frq : DWord
  frqix : Nat
  nextFid : Nat
  faults : List FaultId
  preq : DWord
  preqMove : Bool
  /-- (model) The number that the records which the move of `PREQ` forwards bear (R350). -/
  preqConvoy : Nat := 0
  errcnt : List (Nat × DWord)
  pctxbuf : DWord
  pctx : DWord
  /-- The requests of `PREQ` and `PCTX` in progress, as they were accepted; `STAT` of one that ended (R345, R349). -/
  preqRun : DWord := 0
  /-- Kernel descriptors of objects that the loader rejected (R110). -/
  rejected : List DWord := []
  pctxRun : DWord := 0
  ilvmap : List (Nat × DWord)
  peers : List PeerEntry
  migfwd : List (Nat × Nat)
  sliceVf : Nat
  sliceStart : Nat
  /-- The VF being pre-empted, and the VF the slice passes to when that is complete (R342). -/
  preempting : Option (Nat × Nat)
  deficits : List (Nat × Int)
  /-- The process being visited (R316), and the admissions of the last 1,000,000 cy: cy, estimate, region numbers
  (R313). -/
  drr : Nat
  admits : List (Nat × Nat × List Nat)
  /-- The last 10 µs period that was sampled (R313). -/
  sampled : Nat
  nextLaunch : Nat
  /-- Last drain of a record or growth of the pool (R64). -/
  lastPool : Nat
  notReady : Bool
  /-- Its slots that are not ready (R384). -/
  down : List Nat := []
  /-- Buffers whose state a thread changed by `CARM` or `BTAKE`: buffer, launch, gang (R339). -/
  changed : List (Nat × Nat × Nat)
  /-- Append points of the log buffers, in bytes (R199). -/
  logs : List (Nat × Nat)
  deriving DecidableEq, Repr

/-- A context-switch image (R344, R345): what it holds of a partition or, with `vf`, of one VF. `size` is in 4 KiB pages;
`good` is its check value; `base` is above every id in it (model). -/
structure Image where
  size : Nat
  vf : Option Nat
  good : Bool
  base : Nat
  part : Part
  threads : List Thread
  recs : List Rec
  annexes : List Annex
  ladles : List Ladle
  entryLists : List (Nat × Nat)
  launches : List Launch
  casts : List Cast
  copies : List CopyOp
  runners : List Runner
  tileOps : List TileOp
  tiles : List Tile
  flasks : List Flask
  locks : List Lock
  deliveries : List Delivery
  cells : List Host.Cell
  poisoned : List Nat
  /-- Arrivals that wait at their thread or in a phase, and deferred stores that wait for their fault's service. -/
  sgs : List SgReq := []
  accs : List Acc := []
  /-- The bytes of spilled allocations, with their poison: offset in the pool backing. -/
  spills : List (Nat × List (Byte × Bool)) := []
  deriving DecidableEq, Repr

/-! ### Control cores (R298, R299) -/

/-- A layer's bank (R298). -/
structure Bank where
  trapvec : Word
  trappc : Word
  trapcause : Word
  trapinfo : DWord
  deriving DecidableEq, Repr

/-- One PMP region (R299). -/
structure Pmp where
  cfg : BitVec 8
  base : DWord
  lim : BitVec 48
  deriving DecidableEq, Repr

/-- A control core (R298). `active` lists the layers entered and not yet left, innermost first; `idle` says that what
the outermost of them interrupted had ended. -/
structure Ctl where
  slot : Nat
  tid : Nat
  idle : Bool
  bankM : Bank
  bankS : Bank
  active : List Level
  pending : List Nat
  pmp : Vector Pmp 8
  waiting : Bool
  oos : Bool
  /-- M is handling a trap (R298): the number of activations with that one. -/
  mTrap : Option Nat := none
  deriving DecidableEq, Repr

/-! ### The device outside the partitions (R29 to R32, R365, R370, R371, R378 to R390) -/

/-- A slot's configuration (R379). -/
structure SlotCfg where
  slot : Nat
  tenant : BitVec 32
  first : BitVec 6
  sz : BitVec 3
  nvf : BitVec 5
  state : BitVec 3
  deriving DecidableEq, Repr

/-- A lane's margin monitor (R370). -/
structure EyeLane where
  off : Nat
  low : Bool
  tm : BitVec 8
  vm : BitVec 16
  deriving DecidableEq, Repr

/-- A margin monitor group's registers (R370, R371): thresholds, `LNCTL`, and the spare mapping in effect. -/
structure EyeGroup where
  base : Nat
  tmin : BitVec 8
  vmin : BitVec 16
  go : Bool
  sp0 : BitVec 8
  sp1 : BitVec 8
  map0 : BitVec 8
  map1 : BitVec 8
  deriving DecidableEq, Repr

/-- A long command of a master in progress (R380). -/
structure Command where
  classM : Bool
  op : Nat
  first : Nat
  slots : Nat
  deriving DecidableEq, Repr

/-- SPDM progress of a slot's responder and its measurement log (R388): `log` numbers the free values of the digests. -/
structure Spdm where
  slot : Nat
  version : Bool
  caps : Bool
  algs : Option Bool
  log : Option Nat
  deriving DecidableEq, Repr

/-- Answers on the side-band port (R375, R388). -/
inductive Answer where
  | dsb (v : DWord)
  | spdmVersion (major minor : Nat)
  | spdmCapabilities (cert chal meas keyEx psk encrypt mac : Bool)
  | spdmAlgorithms (selected : Bool)
  | spdmDigests (slot : Nat) (digest : Nat)
  | spdmCertificate (slot off len : Nat)
  | spdmChallenge (slot nonce signature : Nat)
  | spdmMeasurements (blocks : List (Nat × Nat)) (nonce signature : Nat)
  | spdmError
  | pldm (sensor : Nat)
  deriving DecidableEq, Repr

/-- A remote write sent on to another device (R394). -/
structure Forward where
  dev : Nat
  slot : Nat
  buf : Nat
  off : Nat
  data : List Byte
  deriving DecidableEq, Repr

/-- An event on the side-band port: a cause of `INTSTAT` (R385), a margin that fell below its threshold (R370), a lane
that stays below it with both spares in use (R371). -/
inductive Notice where
  | cause (bit : Nat)
  | margin (off : Nat)
  | laneLost (off : Nat)
  deriving DecidableEq, Repr

/-- A master's own view of `CFGLOCK` (R378). -/
structure LockView where
  creq : Bool
  mreq : Bool
  lost : Bool
  deriving DecidableEq, Repr

/-- Activations of a row of a pseudo-channel in the refresh window (R324). -/
structure RowCount where
  chan : Nat
  row : Nat
  count : Nat
  last : Nat
  deriving DecidableEq, Repr

/-- The device outside the partitions. -/
structure Dev where
  readyDie : BitVec 4
  readyStack : BitVec 16
  readyFlash : BitVec 8
  readyLink : BitVec 12
  readyHost : Bool
  /-- `CC`, `FWM`, `FWS`, `FWU` of each slot, bit s (R30). -/
  cc : DWord
  fwm : DWord
  fws : DWord
  fwu : DWord
  cown : Option Master
  mown : Option Master
  /-- When each lock was granted (R378). -/
  cownAt : Nat
  mownAt : Nat
  host : LockView
  sideBand : LockView
  intstat : BitVec 5
  pcmd : DWord
  pcmdst : BitVec 8
  mcmd : DWord
  mcmdst : BitVec 8
  passMask : BitVec 16
  commands : List Command
  grpcfg : DWord
  /-- Devices of the group seen through trained ports: port, DEVNUM, BRIDGE (R390). -/
  peers : List (Nat × Nat × Bool)
  /-- The group and number under which another device was found (R390). -/
  clash : Option (Nat × Nat)
  /-- DSB error counters and `NBDROP`: offset and value (R375, R383). -/
  errs : List (Nat × DWord)
  slots : List SlotCfg
  encap : List (Nat × BitVec 16)
  susp : List (Nat × Nat × Bool)
  decayed : Nat
  eyeLanes : List EyeLane
  eyeGroups : List EyeGroup
  /-- L2 slices coded with DEC-TED (R355). -/
  decTed : List Nat
  /-- The rails of the L2 slices (R355): slice, millivolts, and since when it has been at least 10 mV above `VTHR`. -/
  rails : List (Nat × Nat × Option Nat) := []
  /-- Activations per pseudo-channel and row in the window, with the cy of the last (R324). -/
  rows : List RowCount
  /-- Changes of each slot's flash key (R198, R386). -/
  flashKeys : List (Nat × Nat)
  /-- Slots being scrubbed (R386, R387). -/
  scrubbing : List Nat
  /-- Flash bytes written under the present key of their slot: slot and offset (R198, R386). -/
  flashFresh : List (Nat × Nat)
  /-- Flash pages that firmware sealed before they were full (R199): slot and page. -/
  sealed : List (Nat × Nat) := []
  spdm : List Spdm
  answer : Option Answer
  /-- Context-switch images by their host bus address (R344, R345). -/
  images : List (Nat × Image)
  /-- Remote writes sent on (R394), the oldest first. -/
  forwards : List Forward
  /-- Events sent to management on the side-band port, the oldest first (R370, R371, R385). -/
  notices : List Notice := []
  /-- How often MSI-X vector 0 of the PF has been raised (R385). -/
  hostMsgs : Nat := 0
  /-- `GRPCFG` as it was when a port last trained (R390). -/
  grpact : DWord := 0
  /-- The windows of partitions that `DESTROY` has removed (R395). -/
  kept : List Part := []
  /-- Power-on resets so far: each draws a new digest key (R363). -/
  boots : Nat
  deriving DecidableEq, Repr

/-! ### The group being executed (model) -/

/-- How a meaning is run: a group of one word; the checks, the waits and the effect of a word of a larger group. -/
inductive Phase where
  | alone
  | check
  | hold
  | apply
  deriving DecidableEq, Repr

/-- A trap found for a lane (R78, R331); `fault` carries what a fault entry needs (R333): buffer, offset, SRC, TY. -/
structure LaneTrap where
  lane : Nat
  tid : Nat
  code : BitVec 8
  info : DWord
  fault : Option (Nat × Nat × Nat × Nat)
  /-- The fault id and ring index of a deferred store fault (R217). -/
  store : Option (Nat × Nat)
  /-- The page faults of the same access on other spans (R332). -/
  also : List (Nat × Nat × Nat × Nat) := []
  /-- A `PROTECT` whose points its core has already (R269, R358). -/
  charged : Bool := false
  deriving DecidableEq, Repr

/-- Where a transferring lane goes (R152, R296): its target, priority and code buffer. -/
structure Target where
  lane : Nat
  pc : Word
  prio : BitVec 4
  buf : Nat
  deriving DecidableEq, Repr

/-- What a new record holds beside its thread's registers (R51). -/
structure RecInit where
  kind : Nat
  wtype : Nat
  key : Nat
  resume : Word
  prio : BitVec 4
  buf : Nat
  cluster : Nat
  faultix : Nat := 0
  annex : Nat := 0
  lane : Nat := 0
  ps : Bool := false
  alsoLive : DWord := 0
  tile : Option TileBlk := none
  deriving DecidableEq, Repr

/-- How the segment of a lane ends when its group closes (R77): by `EXIT`, as a record, or as a record on its way to
another cluster. -/
inductive EndAct where
  | exit
  | record (i : RecInit)
  | forward (i : RecInit) (cluster convoy : Nat)
  /-- A control core enters a layer (R298): the layer, where to return, the code and the information. -/
  | enter (into : Level) (ret : Word) (code : BitVec 8) (info : DWord)
  /-- A control core returns from a layer (R298). -/
  | back (layer : Level)
  deriving DecidableEq, Repr

/-- The issue context: the entry whose group is executed, its active lanes with their threads, and what the words of
the group have found so far. -/
structure Cur where
  core : Nat
  slot : Nat
  ent : Nat
  pc : Word
  wpc : Word
  fall : Word
  word : Word
  pos : Nat
  phase : Phase
  lanes : List (Nat × Nat)
  traps : List LaneTrap
  wait : Option Wait
  transfers : List Target
  newPrio : Option (BitVec 4)
  gone : Word
  ends : List (Nat × EndAct)
  stall : Nat
  snap : List Thread
  /-- The lowest active lane of the entry with its thread (R239). -/
  lead : Option (Nat × Nat) := none
  /-- The threads, shadows included, in which the words of the group that closed last took effect. -/
  acted : Nat := 0
  deriving DecidableEq, Repr

/-- What the outside sends (model): an event of the table, or a host write to a partition's memory (R387), at a set
address of channel set 0 of the partition. -/
inductive Input where
  | event (i : Instr)
  | hostWrite (part addr : Nat) (data : List Byte)
  /-- Bytes of the host's own memory, or of a peer's, change (R391). -/
  | outside (key : Nat) (data : List Byte)
  /-- An array shows an error, correctable or not (R354): the class of R369; for the register file the thread and the
  register, for an L1 the core and the line, else 0 and the key of a byte of the granule. -/
  | arrayError (cls owner place : Nat) (hard : Bool)
  /-- An error of a router, a long link, a bridge or a port (R26, R369): its counter's offset. -/
  | linkError (off : Nat)
  /-- The multipliers of a matrix operation upset its next step (R269). -/
  | upset (id : Nat) (second : Bool) (row col : Nat) (flip : Word)
  /-- The rail of an L2 slice in millivolts (R355). -/
  | rail (slice mv : Nat)
  /-- Firmware seals a page of a log (R199). -/
  | sealPage (slot page : Nat)
  /-- The loader rejects an object, or takes it after all: the pointer of a kernel descriptor of it (R110). -/
  | loaded (part : Nat) (kernel : DWord) (ok : Bool)
  /-- The Tundish migrates the tile of a record on its way, to an offset of the destination's vault (R68). -/
  | migrateTile (tid off : Nat)
  /-- A device of the group that is not at the other end of a port becomes known through it: its number and `BRIDGE`
  (R390). -/
  | member (port num : Nat) (bridge : Bool)
  deriving DecidableEq, Repr

/-- The machine's state. -/
structure State where
  /-- Device time (R6, R28). -/
  time : Nat
  /-- (model) What arrives from outside and from the network, with its cy, in order. -/
  agenda : List (Nat × Input)
  /-- (model) Objects in flight that the network or an engine holds back: id, and the cy before which the device does not
  go on with it by itself. -/
  slow : List (Nat × Nat)
  /-- (model) Next id of an object in flight. -/
  nextId : Nat
  /-- (model) Counter of free values: a free value is `Config`'s function of it. -/
  free : Nat
  /-- (model) The writes that homes and banks have performed: the place of the last in home order (R161). -/
  homeOrder : Nat
  cur : Cur
  threads : List Thread
  pours : List Pour
  recs : List Rec
  annexes : List Annex
  ladles : List Ladle
  /-- Records whose wake fired and that wait for a ladle, per cluster in order (R59). -/
  entryLists : List (Nat × Nat)
  /-- Memory: address and byte, rising, no zero byte listed. -/
  mem : List Host.Cell
  /-- Poisoned granules: the first address of each (R354). -/
  poisoned : List Nat
  lines : List Line
  l1 : List L1Copy
  l2 : List L2Line
  /-- The lines of the LLC quarters (R17). -/
  llc : List LlcLine
  ucopies : List UCopy
  accs : List Acc
  results : List PendRes
  held : List HeldBlock
  btinvs : List BtInv
  bcache : List CachedEntry
  pcache : List CachedPage
  locks : List Lock
  copies : List CopyOp
  runners : List Runner
  tileOps : List TileOp
  tiles : List Tile
  wtags : List WeightTag
  bufOps : List BufOp
  deliveries : List Delivery
  flasks : List Flask
  sgs : List SgReq
  posts : List PostReq
  launches : List Launch
  casts : List Cast
  /-- Vault ranges of killed gangs (R339). -/
  vholds : List VaultHold := []
  parts : List Part
  ctls : List Ctl
  /-- Steal requests on their way: thief, victim, casts carried back (R322), and the cy of a thief's next request. -/
  steals : List (Nat × Nat × Option (List (Nat × Nat)))
  stealAfter : List (Nat × Nat)
  /-- Pipes taken on each core in this cy (R79). -/
  busy : List (Nat × Nat)
  dev : Dev
  deriving DecidableEq, Repr

/-! ### Reset (R9) -/

def Cur.reset : Cur :=
  { core := 0, slot := 0, ent := 0, pc := 0, wpc := 0, fall := 0, word := 0, pos := 0, phase := .alone, lanes := [],
    traps := [], wait := none, transfers := [], newPrio := none, gone := 0, ends := [], stall := 0, snap := [] }

def LockView.reset : LockView := { creq := false, mreq := false, lost := false }

def Dev.reset : Dev :=
  { readyDie := 0, readyStack := 0, readyFlash := 0, readyLink := 0, readyHost := false, cc := 0, fwm := 0, fws := 0,
    fwu := 0, cown := none, mown := none, cownAt := 0, mownAt := 0, host := .reset, sideBand := .reset, intstat := 0, pcmd := 0, pcmdst := 0,
    mcmd := 0, mcmdst := 0, passMask := 0, commands := [], grpcfg := 0, peers := [], clash := none, errs := [], slots := [],
    encap := [], susp := [], decayed := 0, eyeLanes := [], eyeGroups := [], decTed := [], rows := [], flashKeys := [],
    scrubbing := [], flashFresh := [], spdm := [], answer := none, images := [], forwards := [],
    boots := 0 }

/-- The machine after power-on reset (R9): time 0, no partition, nothing ready, no thread, no control core out of
reset, memory with nothing listed. -/
def State.reset : State :=
  { time := 0, agenda := [], slow := [], nextId := 1, free := 0, homeOrder := 0, cur := .reset, threads := [], pours := [], recs := [],
    annexes := [], ladles := [], entryLists := [], mem := [], poisoned := [], lines := [], l1 := [], l2 := [], llc := [], ucopies := [],
    accs := [], results := [], held := [], btinvs := [], bcache := [], pcache := [], locks := [], copies := [], runners := [],
    tileOps := [], tiles := [], wtags := [], bufOps := [], deliveries := [], flasks := [], sgs := [], posts := [],
    launches := [], casts := [], parts := [], ctls := [], steals := [], stealAfter := [], busy := [], dev := .reset }

/-- A partition's registers at their reset values (R63, R84, R162, R280, R291, R294, R301, R305, R317, R327, R330,
R334, R335, R337, R345, R349, R359, R368, R369, R382). -/
def Part.fresh (first sz nvf : Nat) (tenant : BitVec 32) : Part :=
  { first, sz, nvf, tenant, state := 1, quiescing := none, qack := [], sbchk := true, swin := 256, fspill := 50,
    trapvec := 0, fltdone := 0, btbase := 0, traplim := 10000000, sglim := 0, sysring := 0, sysnext := 0, rechold := 0,
    poolbk := 0, poolPages := 0, assayctl := 0x40271001#32, assaykey := 0, finj := 0, finjTid := none, enacct := 0,
    enLog := [], enpol := 0, queues := [], pweight := [], vfslice := 2000, qage := 1000, rlrate := 0, 
    frq := 0, frqix := 0, nextFid := 1, faults := [], preq := 0, preqMove := false, errcnt := [], pctxbuf := 0,
    pctx := 0, ilvmap := [], peers := [], migfwd := [], sliceVf := 0, sliceStart := 0,
    preempting := none, deficits := [], drr := 0, admits := [], sampled := 0, nextLaunch := 0, lastPool := 0, notReady := false, changed := [], logs := [] }

/-- A queue context at its reset values (R305); an unlisted context is this one. -/
def Queue.fresh : Queue :=
  { flost := false, blost := false, hrej := false, head := 0, tail := 0, dev := false, en := false, proc := 0, vf := 0,
    prio := 0, size := 0, qbase := 0, headBundle := none, headLaunch := none, since := 0, depRead := none,
    depOk := false, refused := none, unretired := 0 }

end Sys2Proof.Machine
end

