-- ==== Sys2Proof/Machine/Store.lean ====
section
/-! DEFINITION. Finding and changing the parts of the state, the memory as a canonical list of cells, and the keys of
the places that a location of the package has in it. -/

namespace Sys2Proof.Machine

/-! ### Lists keyed by a property -/

/-- Change every entry that meets `p`. -/
def updL {α : Type} (p : α → Bool) (f : α → α) (l : List α) : List α := l.map fun x => if p x then f x else x

/-- Replace the value of a key, or add it. -/
def setL {α : Type} (l : List (Nat × α)) (k : Nat) (v : α) : List (Nat × α) := (k, v) :: l.filter (fun x => x.1 ≠ k)

/-- The value of a key, or a default. -/
def getL {α : Type} (l : List (Nat × α)) (k : Nat) (d : α) : α := ((l.find? fun x => x.1 = k).map (·.2)).getD d

/-- The lowest entry by a measure, the first among equals. -/
def minBy {α : Type} (f : α → Nat) : List α → Option α
  | [] => none
  | x :: xs => match minBy f xs with
    | none => some x
    | some y => if f x ≤ f y then some x else some y

/-- Adjacent repeats of a sorted list taken once. -/
def dedupN : List Nat → List Nat
  | [] => []
  | x :: xs => if xs.contains x then dedupN xs else x :: dedupN xs

/-- Insertion into an ascending list without repeats. -/
def insertN (x : Nat) : List Nat → List Nat
  | [] => [x]
  | y :: ys => if x < y then x :: y :: ys else if x = y then y :: ys else y :: insertN x ys

/-- The numbers of a list, ascending, each once. -/
def sortN (l : List Nat) : List Nat := l.foldr insertN []

/-! ### Memory -/

/-- One byte of memory; an unlisted address reads as 0. -/
def memRead : List Host.Cell → Nat → Byte
  | [], _ => 0
  | (k, v) :: r, a => if k = a then v else memRead r a

/-- Write one byte, keeping the canonical form. -/
def memWrite : List Host.Cell → Nat → Byte → List Host.Cell
  | [], a, b => if b = 0 then [] else [(a, b)]
  | (k, v) :: r, a, b =>
    if a < k then (if b = 0 then (k, v) :: r else (a, b) :: (k, v) :: r)
    else if a = k then (if b = 0 then r else (a, b) :: r)
    else (k, v) :: memWrite r a b

/-- The canonical form: addresses strictly rising, no zero byte listed. -/
def memWf : List Host.Cell → Bool
  | [] => true
  | [(_, v)] => v != 0
  | (k, v) :: (k', v') :: r => v != 0 && decide (k < k') && memWf ((k', v') :: r)

abbrev Memory.wf (m : List Host.Cell) : Bool := memWf m

/-- Write a list of bytes at rising addresses. -/
def memWriteBytes (m : List Host.Cell) : Nat → List Byte → List Host.Cell
  | _, [] => m
  | a, b :: bs => memWriteBytes (memWrite m a b) (a + 1) bs

/-- The bytes of `n` rising addresses. -/
def memBytes (m : List Host.Cell) (a : Nat) : Nat → List Byte
  | 0 => []
  | n + 1 => memRead m a :: memBytes m (a + 1) n

/-- A little-endian value of `n` bytes (R5). -/
def memNat (m : List Host.Cell) (a n : Nat) : Nat := leNat (memBytes m a n)

/-- Clear a range of addresses. -/
def memClear (m : List Host.Cell) (lo hi : Nat) : List Host.Cell := m.filter fun c => !(lo ≤ c.1 && c.1 < hi)

/-! ### Keys of the places of the package -/

/-- Byte `a` of package pseudo-channel `c` (R16); a channel offers fewer than 2^29 bytes (R382). -/
def dramKey (c a : Nat) : Nat := c * 2 ^ 29 + a
/-- Byte `o` of vault `v` (R15). -/
def vaultKey (v o : Nat) : Nat := 2 ^ 44 + v * 2 ^ 23 + o
/-- Byte `o` of slot `w` of a core's weight buffer (R14). -/
def weightKey (core w o : Nat) : Nat := 2 ^ 45 + core * 2 ^ 18 + w * 2 ^ 13 + o
/-- Byte `o` of a slot's flash share (R18). -/
def flashKey (slot o : Nat) : Nat := 2 ^ 46 + slot * 2 ^ 36 + o
/-- A host bus address (R391). -/
def hostKey (a : Nat) : Nat := 2 ^ 60 + a
/-- A set address of channel set 0 of a peer's partition (R391). -/
def peerKey (dev slot a : Nat) : Nat := 2 ^ 62 + (dev * 64 + slot) * 2 ^ 52 + a

/-- Whether a key is a place of a pseudo-channel, and its channel. -/
def keyChan (k : Nat) : Option Nat := if k < 2 ^ 44 then some (k / 2 ^ 29) else none
/-- Whether a key is a place of a vault, and its vault. -/
def keyVault (k : Nat) : Option Nat :=
  if 2 ^ 44 ≤ k ∧ k < 2 ^ 45 then some ((k - 2 ^ 44) / 2 ^ 23) else none

/-- The L2 slice that is the home of a line of a pseudo-channel (R161). -/
def homeSlice (k : Nat) : Nat :=
  2 * (k / 2 ^ 29 / 40) + (List.range 14).foldl (fun x i => x + k / 2 ^ (7 + i)) 0 % 2

/-- Count an error in the management block (R369, R375, R383). -/
def countError (d : Dev) (off : Nat) : Dev := { d with errs := setL d.errs off (getL d.errs off 0 + 1) }

/-- The counter of dropped flits, `NBDROP` (R383; its place in the counters is the model's). -/
def nbdrop : Nat := 0x8000

/-- An array error in a pair of counters: correctable ones in [31:0], uncorrectable ones in [63:32], saturating (R369). -/
def countPair (v : DWord) (hard : Bool) : DWord :=
  let ue := v.toNat / 2 ^ 32
  let ce := v.toNat % 2 ^ 32
  if hard then BitVec.ofNat 64 (min (ue + 1) (2 ^ 32 - 1) * 2 ^ 32 + ce)
  else BitVec.ofNat 64 (ue * 2 ^ 32 + min (ce + 1) (2 ^ 32 - 1))

/-! ### Units and their numbers (R13, R24) -/

/-- Whether a core number is a control core's: control core of slot s is numbered 1,024 + s (model). -/
def isCtlCore (core : Nat) : Bool := 1024 ≤ core
/-- The cluster of a core; a control core lies beside cluster 2s (R19). -/
def clusterOf (core : Nat) : Nat := if isCtlCore core then 2 * (core - 1024) else core / 8
def slotOfCluster (cl : Nat) : Nat := cl / 2
def dieOfCluster (cl : Nat) : Nat := cl / 32
def quadOfCluster (cl : Nat) : Nat := cl / 8

namespace State
variable (s : State)

/-! ### Lookups -/

def thread? (tid : Nat) : Option Thread := s.threads.find? fun t => t.tid = tid
def pour? (core slot : Nat) : Option Pour := s.pours.find? fun p => p.core = core && p.slot = slot
def rec? (tid : Nat) : Option Rec := s.recs.find? fun r => r.tid = tid
def part? (p : Nat) : Option Part := s.parts.find? fun x => x.first = p
def launch? (p n : Nat) : Option Launch := s.launches.find? fun x => x.part = p && x.num = n
def cast? (p l c : Nat) : Option Cast := s.casts.find? fun x => x.part = p && x.launch = l && x.num = c
def acc? (id : Nat) : Option Acc := s.accs.find? fun a => a.id = id
def copy? (id : Nat) : Option CopyOp := s.copies.find? fun a => a.id = id
def runner? (id : Nat) : Option Runner := s.runners.find? fun a => a.id = id
def tileOp? (id : Nat) : Option TileOp := s.tileOps.find? fun a => a.id = id
def sg? (id : Nat) : Option SgReq := s.sgs.find? fun a => a.id = id
def ctl? (slot : Nat) : Option Ctl := s.ctls.find? fun c => c.slot = slot
def line? (k : Nat) : Option Line := s.lines.find? fun l => l.line = k
def l1? (core line : Nat) : Option L1Copy := s.l1.find? fun l => l.core = core && l.line = line
def ucopy? (core line : Nat) : Option UCopy := s.ucopies.find? fun l => l.core = core && l.line = line
def flask? (p home idx : Nat) : Option Flask := s.flasks.find? fun f => f.part = p && f.home = home && f.idx = idx && f.live
def ladle? (id : Nat) : Option Ladle := s.ladles.find? fun l => l.id = id

/-- The partition that holds a slot (R24, R379). -/
def partOfSlot (slot : Nat) : Option Part := s.parts.find? fun x => x.first ≤ slot && decide (slot < x.first + 2 ^ x.sz)

/-! ### Updates -/

def updThread (tid : Nat) (f : Thread → Thread) : State := { s with threads := updL (fun t => t.tid = tid) f s.threads }
def updPour (core slot : Nat) (f : Pour → Pour) : State :=
  { s with pours := updL (fun p => p.core = core && p.slot = slot) f s.pours }
def updRec (tid : Nat) (f : Rec → Rec) : State := { s with recs := updL (fun r => r.tid = tid) f s.recs }
def updPart (p : Nat) (f : Part → Part) : State := { s with parts := updL (fun x => x.first = p) f s.parts }
def updLaunch (p n : Nat) (f : Launch → Launch) : State :=
  { s with launches := updL (fun x => x.part = p && x.num = n) f s.launches }
def updCast (p l c : Nat) (f : Cast → Cast) : State :=
  { s with casts := updL (fun x => x.part = p && x.launch = l && x.num = c) f s.casts }
def updAcc (id : Nat) (f : Acc → Acc) : State := { s with accs := updL (fun a => a.id = id) f s.accs }
def updCopy (id : Nat) (f : CopyOp → CopyOp) : State := { s with copies := updL (fun a => a.id = id) f s.copies }
def updRunner (id : Nat) (f : Runner → Runner) : State := { s with runners := updL (fun a => a.id = id) f s.runners }
def updTileOp (id : Nat) (f : TileOp → TileOp) : State := { s with tileOps := updL (fun a => a.id = id) f s.tileOps }
def updSg (id : Nat) (f : SgReq → SgReq) : State := { s with sgs := updL (fun a => a.id = id) f s.sgs }
def updCtl (slot : Nat) (f : Ctl → Ctl) : State := { s with ctls := updL (fun c => c.slot = slot) f s.ctls }
def updFlask (p home idx : Nat) (f : Flask → Flask) : State :=
  { s with flasks := updL (fun x => x.part = p && x.home = home && x.idx = idx && x.live) f s.flasks }
def updDev (f : Dev → Dev) : State := { s with dev := f s.dev }
def updCur (f : Cur → Cur) : State := { s with cur := f s.cur }

/-- Whether the routers of a vault's slot deliver what a unit of a slot sends there: only within one partition, by the
`NBOUND` of the vault's slot (R379, R383). -/
def reaches (slot k : Nat) : Bool :=
  match keyVault k with
  | some v => (s.partOfSlot (v / 2)).any fun p => decide (p.first ≤ slot) && decide (slot < p.first + 2 ^ p.sz)
  | none => true

/-- Count an array error of a class in a partition (R369). -/
def countArray (part cls : Nat) (hard : Bool) : State :=
  s.updPart part fun p => { p with errcnt := setL p.errcnt cls (countPair (getL p.errcnt cls 0) hard) }

/-- A fresh id of an object in flight. -/
def bumpId : State := { s with nextId := s.nextId + 1 }

/-- Write bytes of memory. -/
def poke (k : Nat) (bs : List Byte) : State := { s with mem := memWriteBytes s.mem k bs }
/-- Write the `n` bytes of a value. -/
def pokeN (k n x : Nat) : State := s.poke k (leBytes n x)
/-- The value of `n` bytes. -/
def peek (k n : Nat) : Nat := memNat s.mem k n

end State
end Sys2Proof.Machine
end

