-- ==== Sys2Proof/Machine/Coherence.lean ====
section
/-! DEFINITION. The home of a line: its order of writes, update-only copies and their combination (R161, R174, R175,
R186, R208). -/

namespace Sys2Proof.Machine

/-! ### Poison (R354, R356) -/

/-- Whether any of the bytes lies in a poisoned granule. -/
def poisonedAt (s : State) (k size : Nat) : Bool := s.poisoned.any fun g => decide (g < k + size) && decide (k < g + 8)

/-- A store of good data: granules it covers whole lose their mark (R356). -/
def healAt (s : State) (k size : Nat) : State :=
  { s with poisoned := s.poisoned.filter fun g => !(decide (k ≤ g) && decide (g + 8 ≤ k + size)) }

/-- Mark the granules of a range. -/
def poisonAt (s : State) (k size : Nat) : State :=
  { s with poisoned := (List.range ((k % 8 + size + 7) / 8)).map (fun i => k / 8 * 8 + 8 * i) ++ s.poisoned }

/-- A write of data at a place, poisoned or not. -/
def storeAt (s : State) (k size x : Nat) (poison : Bool) : State :=
  let s := s.pokeN k size x
  if poison then poisonAt s k size else healAt s k size

/-! ### Lines and combinations -/

/-- The line of a key. -/
def lineOf (k : Nat) : Nat := k / 128

/-- A value combined with what a location or a partial value holds (R208). -/
def rmwNew (op : RmwOp) (old b cmp : Nat) : Nat :=
  let x : Word := BitVec.ofNat 32 old
  let y : Word := BitVec.ofNat 32 b
  match op with
  | .addI32 => (old + b) % 2 ^ 32
  | .addF32 => fp32.add (old % 2 ^ 32) (b % 2 ^ 32)
  | .addBf16x2 => (packed bf16.add x y).toNat
  | .minI32 => if y.slt x then b else old
  | .minN32 => min old b
  | .maxI32 => if x.slt y then b else old
  | .maxN32 => max old b
  | .band => old &&& b
  | .bor => old ||| b
  | .bxor => old ^^^ b
  | .xchg => b
  | .cas => if old = cmp then b else old
  | .inc => if b ≤ old then 0 else old + 1
  | .xchg64 => b
  | .cas64 => if old = cmp then b else old

/-- Gather a reduction into the partial values of an update-only copy, in issue order (R186, R210): into the last one of
its location where that has the same operation. -/
def gather (ps : List Partial) (addr : Nat) (op : RmwOp) (b : Nat) (poison : Bool) : List Partial :=
  match ps with
  | [] => [{ addr, op, value := BitVec.ofNat 32 b, poison }]
  | p :: r =>
    if p.addr = addr ∧ p.op = op ∧ !(r.any fun q => q.addr = addr) then
      { p with value := BitVec.ofNat 32 (rmwNew op p.value.toNat b 0), poison := p.poison || poison } :: r
    else p :: gather r addr op b poison

/-- Home state of a line; an unlisted line has granted nothing and has tag 0. -/
def lineAt (s : State) (l : Nat) : Line := (s.line? l).getD { line := l, lx := 0, tag := 0, leases := [] }

def putLine (s : State) (x : Line) : State := { s with lines := x :: s.lines.filter fun y => y.line ≠ x.line }

/-- A write takes its place in home order, and its GWCT and its sequence tag at the home of its line (R161, R175); other
places have GWCT the present cy and tag 0 (R177, R218). -/
def stamp (s : State) (key : Nat) : State × Nat × BitVec 16 :=
  let s : State := { s with homeOrder := s.homeOrder + 1 }
  if (keyChan key).isSome then
    let x := lineAt s (lineOf key)
    (putLine s { x with tag := x.tag + 1 }, max s.time x.lx, x.tag + 1)
  else (s, s.time, 0)

/-! ### Rows (R324) -/

def rowCount (s : State) (c r : Nat) : RowCount :=
  match s.dev.rows.find? fun x => x.chan = c && x.row = r with
  | some x => if x.last / 32000000 < s.time / 32000000 then { x with count := 0 } else x
  | none => { chan := c, row := r, count := 0, last := 0 }

/-- Whether the bank queue serves an access now. -/
def rowFree (s : State) (id k : Nat) : Bool :=
  match keyChan k with
  | some c =>
    let x := rowCount s c (Config.rowOf c (k % 2 ^ 29))
    decide (x.last + 1000 ≤ s.time) || decide (x.count ≤ Config.rowThr) || !Config.activates id
  | none => true

/-- The activation that an access makes. -/
def touchRow (s : State) (id k : Nat) : State :=
  match keyChan k with
  | some c =>
    let x := rowCount s c (Config.rowOf c (k % 2 ^ 29))
    s.updDev fun d =>
      let rows := { x with count := x.count + 1, last := s.time } :: d.rows.filter fun y => !(y.chan = c && y.row = x.row)
      { d with rows := if Config.activates id then rows else d.rows }
  | none => s

/-- The activation of an access that waits in its bank's queue while the device goes on: past the threshold it comes 1,000
cy after the row's previous one (notes/assumptions/131.md). -/
def queueRow (s : State) (k : Nat) : State :=
  match keyChan k with
  | some c =>
    let x := rowCount s c (Config.rowOf c (k % 2 ^ 29))
    let at' := if Config.rowThr < x.count then max s.time (x.last + 1000) else s.time
    s.updDev fun d =>
      let rows := { x with count := x.count + 1, last := at' } :: d.rows.filter fun y => !(y.chan = c && y.row = x.row)
      { d with rows := if Config.activates s.nextId then rows else d.rows }
  | none => s

/-! ### Update-only copies (R186) -/

/-- Apply one partial value at its location. -/
def applyPartial (s : State) (p : Partial) : State :=
  let bad := p.poison || poisonedAt s p.addr 4
  storeAt s p.addr 4 (rmwNew p.op (s.peek p.addr 4) p.value.toNat 0) bad

/-- The home combines every update-only copy of a line, in ascending core number, as one write (R186). -/
def combineLine (s : State) (l : Nat) : State :=
  let cs := s.ucopies.filter fun u => u.line = l && u.granted
  let cores := sortN (cs.map (·.core))
  let ps := cores.flatMap fun c => (cs.filter fun u => u.core = c).flatMap (·.parts)
  let s := if ps.isEmpty then s else (stamp (ps.foldl applyPartial (queueRow s (128 * l))) (128 * l)).1
  { s with ucopies := s.ucopies.filter fun u => !(u.line = l && u.granted) }

/-- An L1 gives up an update-only copy: it is combined, as one write (R186). -/
def evictU (s : State) (core line : Nat) : State :=
  match s.ucopy? core line with
  | some u =>
    if u.granted then
      let s : State := { s with ucopies := s.ucopies.filter fun x => !(x.core = core && x.line = line) }
      if u.parts.isEmpty then s else (stamp (u.parts.foldl applyPartial (queueRow s (128 * line))) (128 * line)).1
    else s
  | none => s

/-- Room in an L1 of 128 KiB for one more line (R14, R160): one that streams, else any other, is given up (R172). -/
def l1Room (s : State) (core line : Nat) : State :=
  let cs := s.l1.filter fun c => c.core = core && c.line ≠ line
  let us := s.ucopies.filter fun u => u.core = core && u.line ≠ line && u.granted
  if cs.length + us.length < 1024 then s
  else
    let first := (cs.filter (·.strm)).map (·.line)
    let cand := if first.isEmpty then cs.map (·.line) ++ us.map (·.line) else first
    let v := cand.getD (Config.l1Victim s.free % cand.length) line
    let s := evictU { s with free := s.free + 1 } core v
    { s with l1 := s.l1.filter fun c => !(c.core = core && c.line = v) }

/-- A line comes into the LLC quarter of its slot, which holds 2^20 lines; a full quarter gives up another (R17, R24,
R33). -/
def llcBring (s : State) (k : Nat) : State :=
  match keyChan k with
  | none => s
  | some c =>
    let line := lineOf k
    let mine := s.llc.filter fun x => x.slot = c / 40
    if mine.any fun x => x.line = line then s
    else if mine.length < 2 ^ 20 then { s with llc := { slot := c / 40, line } :: s.llc }
    else
      let v := ((mine[Config.llcVictim s.free % mine.length]?).map (·.line)).getD line
      { s with free := s.free + 1, llc := { slot := c / 40, line } :: s.llc.filter fun x => !(x.slot = c / 40 && x.line = v) }

/-- A line comes into its home slice (R160, R172, R219), at a way of its set; under DEC-TED ways 14 and 15 are given up
(R355), from the LLC or through it from DRAM (R17). Mode 2 allocates nothing in the slice. -/
def l2Bring (s : State) (k mode : Nat) : State :=
  let line := lineOf k
  let slice := homeSlice k
  if (keyChan k).isNone then s
  else if s.l2.any fun x => x.line = line then
    if mode = 2 then s else { s with l2 := updL (fun x => x.line = line) (fun x => { x with mode }) s.l2 }
  else
    let s := llcBring s k
    if mode = 2 then s
    else
      let set := Config.l2Set line % 2048
      let way := Config.l2Way s.free % (if s.dev.decTed.contains slice then 14 else 16)
      { s with free := s.free + 1,
               l2 := { slice, set, way, line, mode } :: s.l2.filter fun x => !(x.slice = slice && x.set = set && x.way = way) }

/-- An engine's access activates its row now, or is held back (R324). -/
def rowGo (s : State) (k : Nat) : Option State :=
  if (keyChan k).isNone then some s
  else if rowFree s s.nextId k then some (touchRow s.bumpId s.nextId k) else none

/-- Combine the lines of a range of bytes. -/
def combineAt (s : State) (k n : Nat) : State :=
  if s.ucopies.isEmpty then s
  else (List.range ((k + n - 1) / 128 - k / 128 + 1)).foldl (fun s i => combineLine s (k / 128 + i)) s

/-- What a read at home returns (R176, R186). -/
def homePeek (s : State) (k n : Nat) : Nat := (combineAt s k n).peek k n

/-- A write performed at its home: the value changes at once; the GWCT and the tag (R175). -/
def writeHome (s : State) (k n x : Nat) (poison : Bool) : State × Nat × BitVec 16 :=
  stamp (storeAt (combineAt s k n) k n x poison) k

end Sys2Proof.Machine
end

