-- ==== Sys2Proof/Machine/Port.lean ====
section
/-! DEFINITION. The memory port: the buffer table, translation, interleave and the checks of an access (R162 to R170,
R187, R190, R193, R299). -/

namespace Sys2Proof.Machine

/-! ### Trap codes (R303) -/

abbrev TrapCode := BitVec 8

def Trap.illegal : TrapCode := 0x01
def Trap.groupconf : TrapCode := 0x02
def Trap.understall : TrapCode := 0x03
def Trap.priv : TrapCode := 0x04
def Trap.bounds : TrapCode := 0x08
def Trap.rights : TrapCode := 0x09
def Trap.owner : TrapCode := 0x0A
def Trap.page : TrapCode := 0x0B
def Trap.align : TrapCode := 0x0C
def Trap.rangelock : TrapCode := 0x0D
def Trap.flashdirect : TrapCode := 0x0E
def Trap.atomemu : TrapCode := 0x0F
def Trap.copyrights : TrapCode := 0x10
def Trap.bufstate : TrapCode := 0x11
def Trap.stalehandle : TrapCode := 0x12
def Trap.poolexhaust : TrapCode := 0x13
def Trap.poison : TrapCode := 0x14
def Trap.protect : TrapCode := 0x15
def Trap.defstore : TrapCode := 0x16
def Trap.fptrap : TrapCode := 0x17
def Trap.assayviol : TrapCode := 0x18
def Trap.layercall : TrapCode := 0x20
def Trap.layerexit : TrapCode := 0x21
def Trap.watchdog : TrapCode := 0x30
def Trap.interrupt : TrapCode := 0x40
/-- (model) No code of the part: the lane tries again as a record of wake type 0 at its group (R289). -/
def Trap.retry : TrapCode := 0xFE

/-! ### Fields of a buffer-table entry (R163) -/

/-- The kind; 9 to 15, and a vault range that passes the vault, act as 0 (R164, R169). -/
def btKind (e : Nat) : Nat :=
  let k := bitsN e 3 0
  if 9 ≤ k then 0
  else if (k = 2 ∨ k = 3) ∧ 2 ^ 23 < bitsN e 150 128 + bitsN e 111 64 then 0
  else k
def btState (e : Nat) : Nat := if 5 ≤ bitsN e 6 4 then 0 else bitsN e 6 4
def btSup (e : Nat) : Bool := bitN e 7 = 1
/-- The rights; kinds 4 and 5 lack W and A (R187). -/
def btRights (e : Nat) : Nat :=
  if btKind e = 4 ∨ btKind e = 5 then bitsN e 15 8 &&& 0xF9 else bitsN e 15 8
def btR (e : Nat) : Bool := bitN (btRights e) 0 = 1
def btW (e : Nat) : Bool := bitN (btRights e) 1 = 1
def btA (e : Nat) : Bool := bitN (btRights e) 2 = 1
def btX (e : Nat) : Bool := bitN (btRights e) 3 = 1
def btE (e : Nat) : Bool := bitN (btRights e) 4 = 1
def btD (e : Nat) : Bool := bitN (btRights e) 5 = 1
def btS (e : Nat) : Bool := bitN (btRights e) 6 = 1
def btL (e : Nat) : Bool := bitN (btRights e) 7 = 1
def btPolicy (e : Nat) : Nat := min (bitsN e 17 16) 2
/-- The lease code; 12 to 15 act as 11. -/
def btLease (e : Nat) : Nat := min (bitsN e 21 18) 11
def btPage (e : Nat) : Nat :=
  match bitsN e 23 22 with
  | 0 => 2 ^ 12
  | 1 => 2 ^ 16
  | 2 => 2 ^ 21
  | _ => 2 ^ 30
def btProc (e : Nat) : Nat := bitsN e 43 32
def btVf (e : Nat) : Nat := bitsN e 47 44
def btSet (e : Nat) : Nat := bitsN e 59 48
def btGran (e : Nat) : Nat := min (bitsN e 63 60) 8
def btLength (e : Nat) : Nat := bitsN e 111 64
def btGen (e : Nat) : Nat := bitsN e 127 112
def btBase (e : Nat) : Nat := bitsN e 191 128
def btVault (e : Nat) : Nat := bitsN e 157 151
def btVaultOff (e : Nat) : Nat := bitsN e 150 128
def btShares (e : Nat) : Nat := bitsN e 255 192
def btHold (e : Nat) : Nat := bitsN e 271 256

/-! ### Interleave and tables (R162, R167, R168, R382) -/

/-- Bytes that one pseudo-channel offers to set addresses (R382). -/
def chanBytes : Nat := 0x13330000

/-- Capacity of a channel set (R382). -/
def setCap (p : Part) (set : Nat) : Nat := if 64 ≤ set then 0 else bitsN (getL p.ilvmap set 0#64).toNat 23 12 * chanBytes

/-- The place of a set address, with granule code `g` (R168); none beyond the capacity. -/
def setKey (p : Part) (set g a : Nat) : Option Nat :=
  if a < setCap p set then
    let e := (getL p.ilvmap set 0#64).toNat
    let n := bitsN e 23 12
    let gr := 2 ^ (g + 8)
    let u := a / gr
    some (dramKey (bitsN e 11 0 + u % n) (u / n * gr + a % gr))
  else none

/-- A little-endian field of the tables, in channel set 0 with granule code 4 (R162); zero beyond the capacity. -/
def tableNat (s : State) (p : Part) (a n : Nat) : Nat :=
  match setKey p 0 4 a with
  | some k => homePeek s k n
  | none => 0

/-- The number of entries of the buffer table (R162). -/
def btCount (p : Part) : Nat := 2 ^ (min (bitsN p.btbase.toNat 3 0) 8 + 8)
/-- The set address of an entry. -/
def btAddr (p : Part) (idx : Nat) : Nat := bitsN p.btbase.toNat 63 12 * 4096 + 64 * idx
/-- An entry as memory holds it. -/
def btMem (s : State) (p : Part) (idx : Nat) : Nat := if idx < btCount p then tableNat s p (btAddr p idx) 64 else 0

/-- Write a field of an entry in memory: the byte `o` of the entry and the `n` bytes of a value (R163, RO fields and
states). -/
def btPoke (s : State) (p : Part) (idx o n x : Nat) : State :=
  match setKey p 0 4 (btAddr p idx + o) with
  | some k => (writeHome s k n x false).1
  | none => s

/-- Set the state of a buffer (R163). -/
def setBufState (s : State) (p : Part) (idx st : Nat) : State :=
  let b := bitsN (btMem s p idx) 7 0
  btPoke s p idx 0 1 (b / 128 * 128 + st * 16 + b % 16)

/-- The entry that one access of a core uses (R171): the cached one or the one in memory. -/
def btSeen (s : State) (core : Nat) (p : Part) (idx lane : Nat) : Nat :=
  match s.bcache.find? fun c => c.core = core && c.part = p.first && c.idx = idx with
  | some c => if Config.keepsEntry s.time core idx lane then c.raw else btMem s p idx
  | none => btMem s p idx

/-- The page entry that one access of a core uses (R167, R171). -/
def ptSeen (s : State) (core : Nat) (p : Part) (e idx page lane : Nat) : Nat :=
  match s.pcache.find? fun c => c.core = core && c.part = p.first && c.idx = idx && c.page = page with
  | some c =>
    if Config.keepsPage s.time core idx page lane then c.raw else tableNat s p (btBase e + 8 * page) 8
  | none => tableNat s p (btBase e + 8 * page) 8

/-- The capacity behind the frames of a buffer: its channel set (R167), its flash share (notes/assumptions/105.md), or the
host's bus addresses. -/
def frameCap (p : Part) (e : Nat) : Nat :=
  match btKind e with
  | 6 => 2 ^ 36 * 2 ^ p.sz
  | 7 => 2 ^ 36 * 2 ^ p.sz
  | 8 => 2 ^ 52
  | _ => setCap p (btSet e)

/-- Whether a page-table entry maps its page (R167). -/
def ptValid (p : Part) (e raw : Nat) : Bool :=
  bitN raw 0 = 1 && bitsN raw 11 1 = 0 && bitsN raw 63 52 = 0 && bitsN raw 51 12 * 4096 % btPage e = 0 &&
    decide (bitsN raw 51 12 * 4096 + btPage e ≤ frameCap p e)

/-- Where a page's byte lies, by the kind of its buffer (R164, R168, R391). -/
def frameKey (p : Part) (e a : Nat) : Option Nat :=
  match btKind e with
  | 6 => some (flashKey (p.first + a / 2 ^ 36) (a % 2 ^ 36))
  | 7 => some (flashKey (p.first + a / 2 ^ 36) (a % 2 ^ 36))
  | 8 =>
    if bitN (btSet e) 11 = 0 then some (hostKey a)
    else (p.peers.find? fun x => x.idx = btSet e % 32).map fun x => peerKey x.dev.toNat x.slot.toNat a
  | _ => setKey p (btSet e) (btGran e) a

/-- The place of byte `off` of a buffer whose entry is `e` (R167, R168, R169); none where check 9 fails. -/
def locate (s : State) (core : Nat) (p : Part) (e idx off lane : Nat) : Option Nat :=
  if btKind e = 2 ∨ btKind e = 3 then some (vaultKey (btVault e) (btVaultOff e + off))
  else
    let raw := ptSeen s core p e idx (off / btPage e) lane
    if ptValid p e raw then frameKey p e (bitsN raw 51 12 * 4096 + off % btPage e) else none

/-! ### The checks (R165, R170, R187, R190, R193, R299) -/

/-- What an access does, as far as the port's checks ask. -/
inductive PortOp where
  | load | store | atom (op : RmwOp) | red (op : RmwOp) | lda (sys : Bool) | str (sys : Bool) | pref | fetch
  | eread | ewrite
  deriving DecidableEq, Repr

/-- Who makes an access (R165). -/
structure Req where
  part : Nat
  core : Nat
  lane : Nat
  level : Level
  vf : Nat
  proc : Nat
  deriving DecidableEq, Repr

/-- The rights an access needs (R165); a fetch asks for X alone, through a buffer of any kind
(notes/assumptions/137.md). -/
def rightsOk (op : PortOp) (e : Nat) : Bool :=
  match op with
  | .load => btR e
  | .lda _ => btR e
  | .pref => btR e
  | .store => btW e
  | .str _ => btW e
  | .atom _ => btR e && btW e && btA e
  | .red _ => btW e && btA e
  | .fetch => btX e
  | .eread => btE e
  | .ewrite => btD e

/-- Whether a requester stands above user level, or is a control core (R165). -/
def Req.high (r : Req) : Bool := isCtlCore r.core || r.level != .user

/-- The owner check (R165). -/
def ownerOk (r : Req) (e : Nat) : Bool :=
  r.high || btS e || (btVf e = r.vf && (btProc e = r.proc || btProc e = 0xFFF))

/-- Support of an operation on a kind (R187). -/
def rmwOk (op : RmwOp) (kind : Nat) : Bool :=
  match op with
  | .addI32 => true
  | .xchg => true
  | .cas => true
  | .xchg64 => kind != 2 && kind != 3
  | .cas64 => kind != 2 && kind != 3
  | .addBf16x2 => kind = 1
  | _ => kind != 8

/-- Support of an access on a kind (R187), whose table gives no cell for `LDA` on kinds 4 and 5: the model supports it
(notes/assumptions/137.md). -/
def opSupported (op : PortOp) (kind : Nat) : Bool :=
  match op with
  | .atom o => rmwOk o kind
  | .red o => rmwOk o kind
  | .lda sys => kind != 8 || sys
  | .str sys => kind != 8 || sys
  | _ => true

def PortOp.writes : PortOp → Bool
  | .store => true
  | .str _ => true
  | .atom _ => true
  | .red _ => true
  | _ => false

def PortOp.engine : PortOp → Bool
  | .eread => true
  | .ewrite => true
  | _ => false

/-- Whether a lock overlaps bytes of a buffer. -/
def Lock.hits (l : Lock) (part idx off size : Nat) : Bool :=
  l.part = part && l.buf = idx && decide (off ≤ l.hi) && decide (l.lo < off + size)

/-- Range locks and assay hold (R190, R193). -/
def lockedOut (s : State) (op : PortOp) (p : Part) (idx off size : Nat) : Bool :=
  if op.engine || op = .fetch then false
  else if op.writes then
    (s.locks.any fun l => l.hits p.first idx off size) || btHold (btMem s p idx) != 0
  else s.locks.any fun l => l.dst && l.hits p.first idx off size

/-- What the first matching PMP region grants (R299). -/
def pmpDecides (c : Ctl) (idx off size : Nat) : Option Pmp :=
  c.pmp.toList.find? fun r =>
    bitN r.cfg.toNat 3 = 1 && bitsN r.base.toNat 63 48 = idx && decide (bitsN r.base.toNat 47 0 ≤ off) &&
      decide (off + size ≤ r.lim.toNat + 1)

def pmpGrants (op : PortOp) (cfg : BitVec 8) : Bool :=
  match op with
  | .fetch => bitN cfg.toNat 2 = 1
  | .atom _ => bitN cfg.toNat 0 = 1 && bitN cfg.toNat 1 = 1
  | .red _ => bitN cfg.toNat 0 = 1 && bitN cfg.toNat 1 = 1
  | .store => bitN cfg.toNat 1 = 1
  | .str _ => bitN cfg.toNat 1 = 1
  | _ => bitN cfg.toNat 0 = 1

/-- The PMP check of a control core (R299): U always, S where the access falls in a locked region, M never. -/
def pmpOk (s : State) (r : Req) (op : PortOp) (idx off size : Nat) : Bool :=
  if isCtlCore r.core then
    match s.ctl? (r.core - 1024) with
    | none => true
    | some c =>
      match r.level with
      | .mon => true
      | .user =>
        match pmpDecides c idx off size with
        | some x => pmpGrants op x.cfg
        | none => false
      | .sup =>
        if (c.pmp.toList.any fun x => bitN x.cfg.toNat 7 = 1 && bitN x.cfg.toNat 3 = 1 &&
            bitsN x.base.toNat 63 48 = idx && decide (bitsN x.base.toNat 47 0 < off + size) &&
            decide (off ≤ x.lim.toNat)) then
          match pmpDecides c idx off size with
          | some x => pmpGrants op x.cfg
          | none => false
        else true
  else true

/-- A remote buffer's peer must be up (R391). -/
def peerUp (p : Part) (e : Nat) : Bool :=
  btKind e != 8 || bitN (btSet e) 11 = 0 || (p.peers.any fun x => x.idx = btSet e % 32 && x.up)

/-- Checks 1 to 8 of R170 for one lane, with the entry `e` it uses; the first that fails. -/
def portCheck8 (s : State) (r : Req) (p : Part) (op : PortOp) (e idx off size : Nat) : Option TrapCode :=
  if idx = 0 ∨ btCount p ≤ idx ∨ btKind e = 0 then some Trap.bounds
  else if !op.engine && (btKind e = 6 || btKind e = 7) then some Trap.flashdirect
  else if btLength e < off + size then some Trap.bounds
  else if !op.engine && off % size != 0 then some Trap.align
  else if !rightsOk op e || (btSup e && !r.high) || !peerUp p e then some Trap.rights
  else if !ownerOk r e then some Trap.owner
  else if !pmpOk s r op idx off size then some Trap.rights
  else if !opSupported op (btKind e) then some Trap.atomemu
  else if lockedOut s op p idx off size then some Trap.rangelock
  else none

/-- The outcome of the port's checks (R170): a trap, or the entry used and the place of the first byte. -/
inductive PortRes where
  | trap (code : TrapCode)
  | ok (e key : Nat)
  deriving DecidableEq, Repr

/-- The nine checks of R170 for one lane. -/
def portCheck (s : State) (r : Req) (op : PortOp) (idx off size : Nat) : PortRes :=
  match s.part? r.part with
  | none => .trap Trap.bounds
  | some p =>
    let e := btSeen s r.core p idx r.lane
    match portCheck8 s r p op e idx off size with
    | some c => .trap c
    | none =>
      match locate s r.core p e idx off r.lane with
      | some k => .ok e k
      | none => .trap Trap.page

/-- A walk's read of a table combines the line that it reads (R186). -/
def walkTouch (s : State) (p : Part) (a n : Nat) : State :=
  match setKey p 0 4 a with
  | some k => combineAt s k n
  | none => s

/-- Keep the entries of other cores and the newest `n` of one core. -/
def newest {α : Type} (mine : α → Bool) : Nat → List α → List α
  | _, [] => []
  | n, x :: r => if mine x then (if n = 0 then newest mine 0 r else x :: newest mine (n - 1) r) else x :: newest mine n r

/-- What a successful access leaves in the core's translation caches of 256 and 1,024 entries (R171): what it used, in
place of the oldest. -/
def noteCaches (s : State) (core part idx off e : Nat) : State :=
  match s.part? part with
  | none => s
  | some p =>
    let s := if s.bcache.any fun c => c.core = core && c.part = part && c.idx = idx then s
      else
        let s := walkTouch s p (btAddr p idx) 64
        { s with bcache := { core, part, idx, raw := e } :: newest (fun c => c.core = core) 255 s.bcache }
    if btKind e = 2 ∨ btKind e = 3 then s
    else
      let page := off / btPage e
      if s.pcache.any fun c => c.core = core && c.part = part && c.idx = idx && c.page = page then s
      else
        let s := walkTouch s p (btBase e + 8 * page) 8
        { s with pcache := { core, part, idx, page, raw := ptSeen s core p e idx page 0 } ::
                   newest (fun c => c.core = core) 1023 s.pcache }

/-- Supervisor accesses of the device itself to a partition's memory (R307, R311, R334): the place of a byte by R170. -/
def devPlace (s : State) (part : Nat) (op : PortOp) (ptr size : Nat) : PortRes :=
  portCheck s { part, core := 2 ^ 20, lane := 0, level := .sup, vf := 0, proc := 0 } op (bitsN ptr 63 48)
    (bitsN ptr 47 0) size

/-- Whether the network drops such an access: its place is a vault of another partition (R383). -/
def devLost (s : State) (part : Nat) (op : PortOp) (ptr size : Nat) : Bool :=
  match devPlace s part op ptr size with
  | .ok _ k => !s.reaches part k
  | .trap _ => false

/-- The place of such an access; one that the network drops is as one that fails its checks (notes/assumptions/122.md). -/
def devLocate (s : State) (part : Nat) (op : PortOp) (ptr size : Nat) : PortRes :=
  if devLost s part op ptr size then .trap Trap.bounds else devPlace s part op ptr size

/-- A request was dropped by a router: it is counted (R383). -/
def dropFlit (s : State) : State := s.updDev fun d => countError d nbdrop

/-- What such an access leaves behind: a dropped one is counted (R383), a line it reads is combined first (R186), and its
row is activated (R324). -/
def devTouch (s : State) (part : Nat) (op : PortOp) (ptr size : Nat) : State :=
  match devPlace s part op ptr size with
  | .ok _ k => if s.reaches part k then queueRow (combineAt s k size) k else dropFlit s
  | .trap _ => s

/-- Such a request that a router drops is counted, and has no other effect (R383). -/
def countLost (s : State) (part : Nat) (op : PortOp) (ptr size : Nat) : State :=
  if devLost s part op ptr size then dropFlit s else s

/-- Whether the bank's queue serves such an access now (R324). -/
def devFree (s : State) (part : Nat) (op : PortOp) (ptr size : Nat) : Bool :=
  match devPlace s part op ptr size with
  | .ok _ k => rowFree s s.nextId k
  | .trap _ => true

/-- A store of the device at its home (R175): a further piece of an access whose row is open. -/
def devPut (s : State) (k n x : Nat) : State := (writeHome s k n x false).1
/-- A store of the device at its home, or the first piece of one (R175, R324). -/
def devStore (s : State) (k n x : Nat) : State := devPut (queueRow s k) k n x

end Sys2Proof.Machine
end

