-- ==== Sys2Proof/Machine/Regs.lean ====
section
/-! DEFINITION. Reading and writing the registers of a thread (R81 to R87, R356), the mask registers of a pour (R156),
and what may be asked of a thread's accesses (R50, R178 to R181, R214, R216). -/

namespace Sys2Proof.Machine

/-- Set or clear bit `i`. -/
def setBit {n : Nat} (x : BitVec n) (i : Nat) (b : Bool) : BitVec n :=
  if b then x ||| BitVec.twoPow n i else x &&& ~~~BitVec.twoPow n i

/-- The mask of a list of lanes. -/
def maskOf (ls : List Nat) : Word := ls.foldl (fun m l => m ||| laneBit l) 0

def boolBit (b : Bool) : Nat := if b then 1 else 0
def b2w (b : Bool) : Word := if b then 1 else 0

/-- A lower register number of the pair `n` (R85). -/
def pairLo (n : PairNo) : Reg := n ++ (0 : BitVec 1)
/-- The higher one. -/
def pairHi (n : PairNo) : Reg := n ++ (1 : BitVec 1)

namespace Thread
variable (t : Thread)

/-- A v register, or while a fixed-latency result is not yet due the value before it (R83). -/
def rdV (now : Nat) (r : Reg) : Word :=
  match t.late.find? fun l => decide (l.reg = .v r) && decide (now < l.ready) with
  | some l => l.old
  | none => t.v[r.toNat]'r.isLt

/-- A predicate; p7 reads as 1 (R85). -/
def rdP (now : Nat) (n : PredNo) : Bool :=
  if n = 7 then true
  else match t.late.find? fun l => decide (l.reg = .p n) && decide (now < l.ready) with
    | some l => l.old.getLsbD 0
    | none => t.p.getLsbD n.toNat

/-- A pair: the low half in the lower register (R11). -/
def rdW (now : Nat) (n : PairNo) : DWord := t.rdV now (pairHi n) ++ t.rdV now (pairLo n)

/-- A handle register. -/
def rdH (n : BitVec 3) : Word := t.h[n.toNat]'n.isLt

/-- Write a v register with good data (R356): its poison mark and what was due on it go. -/
def setV (r : Reg) (x : Word) : Thread :=
  { t with v := t.v.set r.toNat x r.isLt, poison := setBit t.poison r.toNat false,
           late := t.late.filter (fun l => l.reg ≠ .v r), trapTok := t.trapTok.filter (fun k => k.1 ≠ r.toNat) }

/-- Write a predicate; a write to p7 is discarded (R85). -/
def setP (n : PredNo) (b : Bool) : Thread :=
  if n = 7 then t
  else { t with p := setBit t.p n.toNat b, late := t.late.filter (fun l => l.reg ≠ .p n) }

def setH (n : BitVec 3) (x : Word) : Thread := { t with h := t.h.set n.toNat x n.isLt }

/-- Write a fixed-latency result of latency `lat` (R81, R83). -/
def putV (now lat : Nat) (r : Reg) (x : Word) : Thread :=
  let old := t.rdV now r
  let t' := t.setV r x
  { t' with late := { reg := .v r, old, ready := now + lat } :: t'.late }

def putP (now lat : Nat) (n : PredNo) (b : Bool) : Thread :=
  if n = 7 then t
  else
    let old := b2w (t.rdP now n)
    let t' := t.setP n b
    { t' with late := { reg := .p n, old, ready := now + lat } :: t'.late }

def putW (now lat : Nat) (n : PairNo) (x : DWord) : Thread :=
  (t.putV now lat (pairLo n) (x.extractLsb' 0 32)).putV now lat (pairHi n) (x.extractLsb' 32 32)

/-- Mark a destination pending (R82). -/
def pend (r : RegRef) : Thread :=
  match r with
  | .v n => { t with pendV := setBit t.pendV n.toNat true }
  | .p n => if n = 7 then t else { t with pendP := setBit t.pendP n.toNat true }
  | .h n => { t with pendH := setBit t.pendH n.toNat true }
  | .k _ => t

/-- Clear a pending mark (R82). -/
def unpend (r : RegRef) : Thread :=
  match r with
  | .v n => { t with pendV := setBit t.pendV n.toNat false }
  | .p n => { t with pendP := setBit t.pendP n.toNat false }
  | .h n => { t with pendH := setBit t.pendH n.toNat false }
  | .k _ => t

def isPending (r : RegRef) : Bool :=
  match r with
  | .v n => t.pendV.getLsbD n.toNat
  | .p n => n != 7 && t.pendP.getLsbD n.toNat
  | .h n => t.pendH.getLsbD n.toNat
  | .k _ => false

/-- Write a pending result to its register and clear the mark; a register that is no longer pending, because the
thread's record does not save it (R52), takes nothing. -/
def deliver (w : RegRef × Word) : Thread :=
  if !t.isPending w.1 then t
  else match w.1 with
  | .v n => (t.setV n w.2).unpend w.1
  | .p n => (t.setP n (w.2.getLsbD 0)).unpend w.1
  | .h n => (t.setH n w.2).unpend w.1
  | .k _ => t

/-- The thread that a shadow belongs to (R136), else the thread itself. -/
def owner : Nat := if t.shadow then t.twin else t.tid

/-- F (R214). -/
def fenceF : BitVec 24 := BitVec.ofNat 24 t.fence

end Thread

/-- Order of the levels (R95). -/
def Level.rank : Level → Nat
  | .user => 0
  | .sup => 1
  | .mon => 3

def Level.ofRank (n : Nat) : Level := if n = 0 then .user else if n = 3 then .mon else .sup

/-! ### Accesses of a thread (R178 to R181, R214, R216) -/

/-- Whether a scope covers a buffer kind (R178): 0 vault, 1 part, 2 sys. -/
def scopeCovers (scope kind : Nat) : Bool :=
  match scope with
  | 0 => kind = 2 || kind = 3
  | 1 => decide (1 ≤ kind) && decide (kind ≤ 5)
  | _ => (decide (1 ≤ kind) && decide (kind ≤ 5)) || kind = 8

/-- Whether an access is complete (R175, R179): acknowledged, and device time at or past its GWCT. -/
def Acc.complete (a : Acc) (now : Nat) : Bool := a.stage = .done && decide (a.gwct ≤ now)

/-- Whether an access writes, so that it has a GWCT (R175). -/
def Acc.isWrite (a : Acc) : Bool :=
  match a.kind with
  | .load => false
  | .lda => false
  | _ => true

/-- The thread's accesses within a scope. -/
def State.accsOf (s : State) (tid scope : Nat) : List Acc :=
  s.accs.filter fun a => a.tid = some tid && scopeCovers scope a.bkind

/-- Every earlier access of the thread within a scope is complete (R181). -/
def State.scopeDone (s : State) (tid scope : Nat) : Bool := (s.accsOf tid scope).all fun a => a.complete s.time

/-- How many fences had been issued when fence `num` of the thread was, if it is one of its last 2^23 (R216). -/
def fenceNo (t : Thread) (num : Nat) : Option Nat :=
  let d := natMod ((t.fence : Int) - num) 24
  if d < 2 ^ 23 ∧ d < t.fence then some (t.fence - d) else none

/-- The covered set of a token (R216). -/
def State.covered (s : State) (tid scope num : Nat) : List Acc :=
  match s.thread? tid with
  | none => []
  | some t =>
    match fenceNo t num with
    | some n => (s.accsOf tid scope).filter fun a => a.mark < n
    | none => s.accsOf tid scope

def State.coveredDone (s : State) (tid scope num : Nat) : Bool :=
  (s.covered tid scope num).all fun a => a.complete s.time

/-- The covered write whose GWCT is greatest, the last in program order among equals (R180). -/
def lastWrite (l : List Acc) : Option Acc :=
  l.foldl (fun b a =>
    if !a.isWrite then b
    else match b with
      | none => some a
      | some x => if x.gwct < a.gwct ∨ (x.gwct = a.gwct ∧ x.seq < a.seq) then some a else b) none

/-- A posted and unserviced deferred store fault among accesses (R217): its fault id and ring index, that of the
earliest store. -/
def defStoreOf (l : List Acc) : Option (Nat × Nat) :=
  (minBy Acc.seq (l.filter fun a => match a.stage with | .faulted _ _ => true | _ => false)).bind fun a =>
    match a.stage with
    | .faulted f i => some (f, i)
    | _ => none

/-- The condition of `BTSYNC` for a thread (R171, R300). -/
def State.btsyncOk (s : State) (tid : Nat) : Bool :=
  (s.btinvs.filter fun b => b.tid = tid).all fun b =>
    b.acted && b.waits.all fun id =>
      !(s.bufOps.any fun o => o.id = id && o.stage = .sent) &&
      match s.acc? id with
      | some a => match a.stage with
        | .sent => false
        | .performed => false
        | .unposted _ => false
        | .lost => false
        | _ => true
      | none =>
        match s.copy? id with
        | some c => c.paused.isSome
        | none =>
          match s.runner? id with
          | some r => r.paused.isSome
          | none => match s.tileOp? id with
            | some x => x.paused.isSome
            | none => true

/-! ### Who makes an access -/

/-- The requester that a thread on a lane is (R165): its launch's VF and process. -/
def State.reqOf (s : State) (t : Thread) (core lane : Nat) : Req :=
  match s.launch? t.part t.launch with
  | some l => { part := t.part, core, lane, level := t.level, vf := l.vf, proc := l.proc }
  | none =>
    match (if isCtlCore core then s.partOfSlot (core - 1024) else none) with
    | some p => { part := p.first, core, lane, level := t.level, vf := 0, proc := 0 }
    | none => { part := t.part, core, lane, level := t.level, vf := 0, proc := 0 }

/-- The shadow of a thread in a protected launch, if it has one (R136). -/
def State.twinOf (s : State) (t : Thread) : Option Thread := if t.twin = 0 then none else s.thread? t.twin

/-- Change a thread and its shadow alike. -/
def State.updBoth (s : State) (tid : Nat) (f : Thread → Thread) : State :=
  match s.thread? tid with
  | none => s
  | some t => if t.twin = 0 then s.updThread tid f else (s.updThread tid f).updThread t.twin f

/-- Write a result to a thread and its shadow, wherever they lie (R50). -/
def State.deliverTo (s : State) (tid : Nat) (ws : List (RegRef × Word)) : State :=
  s.updBoth tid fun t => ws.foldl Thread.deliver t

end Sys2Proof.Machine
end

