-- ==== Sys2Proof/Machine/Frame.lean ====
section
/-! DEFINITION. Fetch and the framing of issue groups (R73 to R77), and which entries of a pour wait on a mask (R157,
R158). -/

namespace Sys2Proof.Machine

open Sys2Proof (Instr)

/-! ### The pipes of a core (R14, R91) -/

/-- The four pipes of a core (R14), numbered S 0, V 1, M 2, E 3; 4 stands for the reserved major, which has none. -/
abbrev Pipe := Nat

/-- The pipe of a major opcode (R91). -/
def pipeOfOp (op : Nat) : Pipe :=
  match op with
  | 0x00 => 0 | 0x0A => 0 | 0x0B => 0 | 0x0C => 0 | 0x0D => 0 | 0x0E => 0 | 0x1E => 0
  | 0x16 => 2 | 0x17 => 2 | 0x18 => 2 | 0x19 => 2
  | 0x1A => 3 | 0x1B => 3 | 0x1C => 3 | 0x1D => 3
  | 0x1F => 4
  | _ => 1

/-- The pipe of the word `w`. -/
def pipeOf (w : Word) : Pipe := pipeOfOp (opOf w).toNat

/-- The pipes that the words of a group take. -/
def pipesOf (ws : List Word) : List Pipe := (ws.map pipeOf).filter fun x => decide (x < 4)

/-! ### Fetch (R74) -/

/-- The threads of a mask of a pour that lie in its lanes; the shadow of a visible lane is not listed. -/
def State.lanesIn (s : State) (core slot : Nat) (mask : Word) : List (Nat × Nat) :=
  (lanesOf mask).filterMap fun l =>
    (s.threads.find? fun t => t.loc = .lane core slot l && !t.shadow).map fun t => (l, t.tid)

/-- The word at an offset of a code buffer as one lane fetches it: the word, or the trap. -/
def fetchLane (s : State) (core lane : Nat) (t : Thread) (buf : Nat) (off : Word) : Except LaneTrap Word :=
  let mk (c : TrapCode) : LaneTrap :=
    { lane, tid := t.tid, code := c, info := BitVec.ofNat 64 (off.toNat + buf * 2 ^ 48),
      fault := if c = Trap.page then some (buf, off.toNat, 4, 7) else none, store := none }
  match portCheck s (s.reqOf t core lane) .fetch buf off.toNat 4 with
  | .trap c => .error (mk c)
  | .ok _ k => if poisonedAt s k 4 then .error (mk Trap.poison) else .ok (BitVec.ofNat 32 (homePeek s k 4))

/-- The lanes of an entry with their threads. -/
def entryLanes (s : State) (core slot : Nat) (e : Entry) : List (Nat × Thread) :=
  (s.lanesIn core slot e.mask).filterMap fun x => (s.thread? x.2).map fun t => (x.1, t)

/-- A word for an entry: what its first fetching lane reads. -/
def fetchWord (s : State) (core slot : Nat) (e : Entry) (off : Word) : Option Word :=
  (entryLanes s core slot e).findSome? fun x =>
    match fetchLane s core x.1 x.2 e.buf off with
    | .ok w => some w
    | .error _ => none

/-- The trap that a lane's fetch at an offset takes, if it takes one. -/
def fetchTrap (s : State) (core : Nat) (buf : Nat) (off : Word) (x : Nat × Thread) : Option LaneTrap :=
  match fetchLane s core x.1 x.2 buf off with
  | .ok _ => none
  | .error k => some k

/-- Position of an offset in its packet (R73). -/
def posOf (pc : Word) : Nat := pc.toNat % 12 / 4

/-- The words of the group from `pc` on, to the first word without `C`, at most to position 2 (R75), with the traps of
the lanes that cannot fetch one of them (R74): a lane that traps at a word fetches none after it. -/
def fetchRun (s : State) (core buf : Nat) : Nat → Word → List (Nat × Thread) → List Word × List LaneTrap
  | 0, _, _ => ([], [])
  | n + 1, pc, lanes =>
    let ks := lanes.filterMap (fetchTrap s core buf pc)
    let good := lanes.filter fun x => (fetchTrap s core buf pc x).isNone
    match good.head?.map fun x => fetchLane s core x.1 x.2 buf pc with
    | some (.ok w) =>
      if (hdrOf w).c = 1 ∧ posOf pc < 2 then
        let r := fetchRun s core buf n (pc + 4) good
        (w :: r.1, ks ++ r.2)
      else ([w], ks)
    | _ => ([], ks)

/-- The words of an entry's next group and the traps of its fetch. -/
def fetchGroup (s : State) (core slot : Nat) (e : Entry) : List Word × List LaneTrap :=
  fetchRun s core e.buf 3 e.pc (entryLanes s core slot e)

/-- The words of an entry's next group; none where no lane can fetch all of them. -/
def groupWords (s : State) (core slot : Nat) (e : Entry) : List Word :=
  let r := fetchGroup s core slot e
  if (entryLanes s core slot e).all fun x => r.2.any fun k => k.lane = x.1 then [] else r.1

/-- Whether the word at `pc` begins a group (R75). Where the word before it cannot be fetched the spec does not say: the
model takes it as one that does not chain (notes/assumptions/106.md). -/
def beginsGroup (s : State) (core slot : Nat) (e : Entry) (pc : Word) : Bool :=
  posOf pc = 0 ||
    match fetchWord s core slot e (pc - 4) with
    | some w => (hdrOf w).c = 0
    | none => true

/-! ### Waiting on a mask (R157, R158) -/

/-- The mask register of a `KWAIT` word, read from its bits (R156): OP 0x0E, fn 2. -/
def kwaitBits (w : Word) : Option Nat :=
  let p := payloadOf w
  if opOf w = 0x0E ∧ fN p = 2 ∧ fCc p = 0 ∧ fB p = 0 ∧ (fA p).toNat < 12 then some (fA p).toNat else none

/-- The mask register on which the next group of an entry would wait, if it holds a `KWAIT`. -/
def kwaitReg (s : State) (core slot : Nat) (e : Entry) : Option Nat :=
  (groupWords s core slot e).findSome? kwaitBits

/-- A mask register of a pour. -/
def Pour.kreg (p : Pour) (n : Nat) : Word := p.k.toList.getD n 0

/-- The mask register on which an entry is waiting (R157). -/
def kwaiting (s : State) (p : Pour) (e : Entry) : Option Nat :=
  (kwaitReg s p.core p.slot e).bind fun k => if e.mask &&& p.kreg k ≠ 0 then some k else none

/-- The union of the masks of the entries waiting on a register (R158). -/
def kwaitUnion (s : State) (p : Pour) (k : Nat) : Word :=
  p.entries.foldl (fun m e => if kwaiting s p e = some k then m ||| e.mask else m) 0

/-- Whether the entries waiting on a register are released (R158). -/
def kreleased (s : State) (p : Pour) (k : Nat) : Bool := p.kreg k &&& ~~~kwaitUnion s p k = 0

/-- Every entry of the pour waits on a mask and none is released (R158). -/
def kstuck (s : State) (p : Pour) : Bool :=
  p.entries.all fun e =>
    match kwaiting s p e with
    | some k => e.freed.isNone && !kreleased s p k
    | none => false

/-- The entries of a pour once the releases of a cy are noted (R158): an entry that is released stays so until it issues
its `KWAIT`. -/
def noteFreed (s : State) (p : Pour) : Pour :=
  let stuck := kstuck s p
  let note (e : Entry) : Entry :=
    match e.freed, kwaiting s p e with
    | none, some k => { e with freed := if kreleased s p k then some true else if stuck then some false else none }
    | _, _ => e
  { p with entries := p.entries.map note }

end Sys2Proof.Machine
end

