-- ==== Sys2Proof/Machine/Pool.lean ====
section
/-! DEFINITION. Continuation records, the record pool, ladles and wakes (R45 to R66, R301, R352). -/

namespace Sys2Proof.Machine

/-! ### Launch parameters that a thread's rules read -/

/-- A field of a number: bits [hi:lo] of the launch's kernel descriptor (R106). -/
def Launch.lmCount (l : Launch) : Nat := bitsN l.kinfo 239 224
def Launch.lmBase (l : Launch) : Nat := bitsN l.kinfo 223 192
/-- `FLAGS` of the bundle (R308). -/
def Launch.protected (l : Launch) : Bool := bitN l.bundle 771 = 1
def Launch.assayable (l : Launch) : Bool := bitN l.bundle 772 = 1
def Launch.relaunchable (l : Launch) : Bool := bitN l.bundle 773 = 1
def Launch.portable (l : Launch) : Bool := bitN l.bundle 774 = 1
def Launch.stealable (l : Launch) : Bool := bitN l.bundle 775 = 1
/-- The gang of a cast (R41). -/
def Launch.gangOf (l : Launch) (cast : Nat) : Nat := cast / max l.gang 1
/-- The gang number and the cast number that an identity names; the epilogue's single cast has gang 0 and cast 0. -/
def Launch.gangNo (l : Launch) (cast : Nat) : Nat := if 2 ^ 32 ≤ cast then 0 else l.gangOf cast
/-- The region a launch runs in: the first of its chain (R38). -/
def Launch.region (l : Launch) : Nat := ((l.chain.head?).map (·.number)).getD 0

/-- The device's own read of a buffer (R47, R307): a supervisor load. -/
def devRead (s : State) (part ptr size : Nat) : Option Nat :=
  match devLocate s part .load ptr size with
  | .ok _ k => some (homePeek s k size)
  | .trap _ => none

/-- A pointer moved within its buffer (R89). -/
def ptrAdd (ptr off : Nat) : Nat := bitsN ptr 63 48 * 2 ^ 48 + (bitsN ptr 47 0 + off) % 2 ^ 48

/-- What an access of the device in `n` pieces of `w` bytes leaves behind, its row activated once (R186, R324, R383). -/
def devTouchBlock (s : State) (part : Nat) (op : PortOp) (ptr w n : Nat) : State :=
  (List.range (n - 1)).foldl (fun s i =>
    match devPlace s part op (ptrAdd ptr (w * (i + 1))) w with
    | .ok _ k => if s.reaches part k then combineAt s k w else dropFlit s
    | .trap _ => s) (devTouch s part op ptr w)

/-- Reads of the device: pointer, bytes of a piece, pieces. -/
abbrev DevReads := List (Nat × Nat × Nat)

/-- What they leave behind. -/
def touchAll (s : State) (part : Nat) (rs : DevReads) : State :=
  rs.foldl (fun s r => devTouchBlock s part .load r.1 r.2.1 r.2.2) s

/-- Whether the banks' queues serve them now (R324). -/
def allFree (s : State) (part : Nat) (rs : DevReads) : Bool := rs.all fun r => devFree s part .load r.1 r.2.1

/-- Read a block of `n` aligned 16-byte pieces, lowest first. -/
def devReadBlock (s : State) (part ptr : Nat) : Nat → Option Nat
  | 0 => some 0
  | n + 1 =>
    match devReadBlock s part ptr n, devRead s part (ptrAdd ptr (16 * n)) 16 with
    | some x, some y => some (x + y * 2 ^ (128 * n))
    | _, _ => none

/-- The registers that a record at a resume offset saves (R47): the launch's live map, or all. -/
def liveMask (s : State) (l : Launch) (resume : Word) : DWord :=
  let entry (i : Nat) : Option Nat := devRead s l.part (ptrAdd (l.codeBuf * 2 ^ 48) (l.lmBase + 16 * i)) 16
  match (List.range l.lmCount).findSome? fun i =>
      (entry i).bind fun e => if bitsN e 31 0 = resume.toNat then some (bitsN e 127 64) else none with
  | some m => BitVec.ofNat 64 m
  | none => BitVec.allOnes 64

/-! ### Room in the pool (R37, R62 to R64, R352) -/

/-- Vault places of a partition: 682 in each vault (R62). -/
def vaultPlaces (p : Part) : Nat := 682 * (2 * 2 ^ p.sz)

def poolBuf (p : Part) : Nat := bitsN p.poolbk.toNat 63 48

/-- The length of the backing, 0 where there is none or it fails its checks (R63). -/
def backLength (s : State) (p : Part) : Nat :=
  if poolBuf p = 0 then 0
  else
    let e := btMem s p (poolBuf p)
    if btKind e = 1 ∧ btR e ∧ btW e ∧ btSup e then btLength e else 0

/-- Usable backing places: every page of the place is grown (R63). -/
def backPlaces (pages : Nat) : Nat := pages * 4096 / 384

def poolCapacity (s : State) (p : Part) : Nat :=
  let cap := bitsN p.poolbk.toNat 31 0
  if cap = 0 then vaultPlaces p + backLength s p / 384 else cap

/-- Pool references in use; place i has reference i + 1, the vault places first (R62). -/
def usedRefs (s : State) (part : Nat) : List Nat :=
  (s.recs.filter fun r => r.part = part).map (·.ref) ++ (s.annexes.filter fun a => a.part = part).map (·.ref) ++
    (s.pours.filter fun p => p.part = part).flatMap (·.refs)

/-- Whether a launch's region chain holds a region. -/
def Launch.inRegion (l : Launch) (number : Nat) : Bool := l.chain.any fun r => r.number = number

/-- Records and annexes charged to a region (R37, R61, R352). -/
def chargedTo (s : State) (part number : Nat) : Nat :=
  ((s.pours.filter fun p => p.part = part && (s.launch? part p.launch).any fun l => l.inRegion number).flatMap
    (·.refs)).length +
  (s.recs.countP fun r => r.part = part &&
    match (s.thread? r.tid).bind fun t => s.launch? part t.launch with
    | some l => l.inRegion number
    | none => false) +
  (s.annexes.countP fun a => a.part = part &&
    ((s.recs.find? fun r => r.part = part && r.annex = a.ref).any fun r =>
      match (s.thread? r.tid).bind fun t => s.launch? part t.launch with
      | some l => l.inRegion number
      | none => false))

/-- Whether the region chain of a launch has room for `n` more records (R37). -/
def chainRoom (s : State) (l : Launch) (n : Nat) : Bool :=
  l.chain.all fun r => decide (chargedTo s l.part r.number + n ≤ r.poolrec)

/-- The lowest free reference. -/
def freeRef (used : List Nat) : Nat :=
  match (List.range (used.length + 1)).find? fun i => !used.contains (i + 1) with
  | some i => i + 1
  | none => used.length + 1

/-- The places of the backing that spilled allocations cover, as references (R337). -/
def spillRefs (s : State) (p : Part) : List Nat :=
  (s.casts.filter fun c => c.part = p.first && c.spilled.isSome).flatMap fun c =>
    (List.range ((c.need + 383) / 384)).map fun i => vaultPlaces p + c.spillAt / 384 + i + 1

/-- The references that `n` new records take. -/
def freeRefs (used : List Nat) : Nat → List Nat
  | 0 => []
  | n + 1 => freeRef used :: freeRefs (freeRef used :: used) n

/-- The reference that the next record or annex takes. -/
def nextRef (s : State) (part : Nat) : Nat := freeRef (usedRefs s part ++ ((s.part? part).map (spillRefs s)).getD [])

/-- Pages of the backing that the places of references need (R63). -/
def pagesFor (p : Part) (refs : List Nat) : Nat :=
  refs.foldl (fun m r => max m (((r - vaultPlaces p) * 384 + 4095) / 4096)) 0

/-- The device's access to the backing at an offset passes the checks of R170 (R63): for a read and for a write. -/
def backOk (s : State) (p : Part) (off : Nat) : Bool :=
  let ok (op : PortOp) : Bool :=
    match devLocate s p.first op (poolBuf p * 2 ^ 48 + off) 32 with
    | .ok _ _ => true
    | .trap _ => false
  ok .load && ok .store

/-- A place can be written: it lies in a vault, or the first and the last bytes of its place in the backing are reached
(R63). -/
def placeOk (s : State) (p : Part) (ref : Nat) : Bool :=
  decide (ref ≤ vaultPlaces p) ||
    (backOk s p ((ref - 1 - vaultPlaces p) * 384) && backOk s p ((ref - 1 - vaultPlaces p) * 384 + 352))

/-- Room for `n` records of a launch (R64 step 1): none, or the partition with its pool grown as far as that takes. -/
def poolRoom (s : State) (part launch n : Nat) : Option Part :=
  match s.part? part, s.launch? part launch with
  | some p, some l =>
    let used := usedRefs s part
    let refs := freeRefs (used ++ spillRefs s p) n
    let pages := max p.poolPages (pagesFor p refs)
    if !chainRoom s l n ∨ poolCapacity s p < used.length + n ∨ !refs.all (placeOk s p) then none
    else if pages * 4096 ≤ max (p.poolPages * 4096) (backLength s p) then some { p with poolPages := pages } else none
  | _, _ => none

/-- Room taken: the pool grown, with the note of growth that the pool timeout reads (R64). -/
def takeRoom (s : State) (part launch n : Nat) : Option State :=
  match s.part? part, poolRoom s part launch n with
  | some p, some p' =>
    some (s.updPart part fun _ => { p' with lastPool := if p.poolPages < p'.poolPages then s.time else p'.lastPool })
  | _, _ => none

/-! ### The bytes of a record (R51, R52) -/

/-- The place of byte `off` of a partition's backing, for 32 bytes. -/
def backKey (s : State) (part off : Nat) : Option Nat :=
  (s.part? part).bind fun p =>
    match devLocate s part .load (poolBuf p * 2 ^ 48 + off) 32 with
    | .ok _ k => some k
    | .trap _ => none

/-- Where byte `off` of the place of a reference lies, for 32 bytes: the on-chip places fill the top 256 KiB of each vault
(R62, notes/assumptions/132.md), the others lie in the backing. -/
def placeKey (s : State) (part ref off : Nat) : Option Nat :=
  match s.part? part with
  | none => none
  | some p =>
    if ref ≤ vaultPlaces p then some (vaultKey (2 * p.first + (ref - 1) / 682) (2 ^ 23 - 2 ^ 18 + 384 * ((ref - 1) % 682) + off))
    else backKey s part ((ref - 1 - vaultPlaces p) * 384 + off)

/-- Write bytes at the place of a reference, in pieces of 32; the words at the offsets `bad` are poisoned (R356). -/
def placeWrite (s : State) (part ref : Nat) (bs : List Byte) (bad : List Nat) : State :=
  let s := (List.range ((bs.length + 31) / 32)).foldl (fun s i =>
    match placeKey s part ref (32 * i) with
    | some k => (if i % 4 = 0 then devStore else devPut) s k 32 (leNat ((bs.drop (32 * i)).take 32))
    | none => s) s
  bad.foldl (fun s o =>
    match placeKey s part ref (o / 32 * 32) with
    | some k => poisonAt s (k + o % 32) 4
    | none => s) s

/-- Read `n` pieces of 32 bytes at the place of a reference as a number. -/
def placeRead (s : State) (part ref : Nat) : Nat → Nat
  | 0 => 0
  | n + 1 => placeRead s part ref n +
      ((placeKey s part ref (32 * n)).map fun k => homePeek s k 32).getD 0 * 2 ^ (256 * n)

/-- What a read of a place of 384 bytes leaves behind (R186, R324). -/
def placeTouch (s : State) (part ref : Nat) : State :=
  (List.range 3).foldl (fun s i =>
    match placeKey s part ref (128 * i) with
    | some k => queueRow (combineAt s k 128) k
    | none => s) s

/-- Whether the word at an offset of the place of a reference is poisoned. -/
def placeBad (s : State) (part ref off : Nat) : Bool :=
  !s.poisoned.isEmpty && (placeKey s part ref (off / 32 * 32)).any fun k => poisonedAt s (k + off % 32) 4

/-- Bytes with zero padding to a multiple of 32 (R51). -/
def padded (bs : List Byte) : List Byte := bs ++ List.replicate ((32 - bs.length % 32) % 32) 0

/-- Numbers laid one after another, each with its width in bits, the first lowest. -/
def packBits : List (Nat × Nat) → Nat
  | [] => 0
  | (w, x) :: r => x % 2 ^ w + 2 ^ w * packBits r

/-- Bit i set where handle registers are not all null (R53). -/
def hasHandles (t : Thread) : Bool := t.h.toList.any fun x => x != 0

/-- The header of a record as a number (R51). -/
def recHeader (t : Thread) (l : Option Launch) (r : Rec) : Nat :=
  let flags := boolBit (hasHandles t) + 2 * boolBit r.tile.isSome + 4 * boolBit (r.annex != 0) + 8 * boolBit r.pt +
    16 * boolBit r.asRun + 32 * boolBit r.ps
  let nlive := (List.range 64).countP fun i => r.livemask.getLsbD i
  packBits [(32, r.resume.toNat), (16, t.launch), (16, t.tic), (32, t.cast), (4, r.prio.toNat), (4, r.kind), (8, nlive),
    (16, flags), (60, r.key), (4, r.wtype), (64, r.livemask.toNat), (64, t.pendV.toNat), (7, t.p.toNat), (9, 0),
    (16, r.faultix), (32, r.annex), (32, (l.map Launch.region).getD 0), (32, (l.map fun x => x.gangNo t.cast).getD 0),
    (60, t.sleepAt.getD 0), (3, 0), (1, boolBit t.sleepAt.isSome)]

/-- The whole record as bytes (R51, R52), a multiple of 32. -/
def recBytes (t : Thread) (l : Option Launch) (r : Rec) : List Byte :=
  let regs := (List.range 64).filter fun i => r.livemask.getLsbD i
  padded <| leBytes 64 (recHeader t l r) ++
    (if hasHandles t then t.h.toList.flatMap fun x => leBytes 4 x.toNat else []) ++
    (match r.tile with
     | some b => leBytes 4 b.handle.toNat ++ (b.counters.flatMap fun c => leBytes 4 c) ++ leBytes 8 0
     | none => []) ++
    regs.flatMap fun i => leBytes 4 (t.v.toList.getD i 0).toNat

/-- The registers below one among the saved ones: its slot in a record. -/
def slotIn (live : DWord) (i : Nat) : Nat := (List.range i).countP fun j => live.getLsbD j

/-- The offset of the slot of register `i` in the record of a thread. -/
def slotOff (t : Thread) (r : Rec) (i : Nat) : Nat :=
  64 + 32 * boolBit (hasHandles t) + 32 * boolBit r.tile.isSome + 4 * slotIn r.livemask i

/-- Write a record at its place, with the poison of its registers (R51, R356). -/
def writeRec (s : State) (tid : Nat) : State :=
  match s.rec? tid, s.thread? tid with
  | some r, some t =>
    placeWrite s r.part r.ref (recBytes t (s.launch? t.part t.launch) r)
      (((List.range 64).filter fun i => r.livemask.getLsbD i && t.poison.getLsbD i).map (slotOff t r))
  | _, _ => s

/-- A register of a record whose word has been poisoned at its place is poisoned (R354, R356). -/
def recPoison (s : State) (tid : Nat) : State :=
  if s.poisoned.isEmpty then s
  else
    match s.rec? tid, s.thread? tid with
    | some r, some t =>
      let bad (i : Nat) : Bool := r.livemask.getLsbD i && placeBad s r.part r.ref (slotOff t r i)
      s.updThread tid fun t => { t with poison := (List.range 64).foldl (fun m i => if bad i then setBit m i true else m) t.poison }
    | _, _ => s

/-- Write a record again after a change. -/
def flushRec (s : State) (tid : Nat) : State := writeRec (recPoison s tid) tid

/-- Read a record as firmware may have left it (R58, R301): what decides how it runs on. -/
def loadRec (s : State) (tid : Nat) : State :=
  match s.rec? tid, s.thread? tid with
  | some r, some t =>
    let h := placeRead s r.part r.ref 12
    let s := placeTouch s r.part r.ref
    let live := BitVec.ofNat 64 (bitsN h 255 192)
    let hb := boolBit (bitN h 112 = 1)
    let tb := boolBit (bitN h 113 = 1)
    let off (i : Nat) : Nat := 64 + 32 * hb + 32 * tb + 4 * slotIn live i
    let word (o : Nat) : Word := BitVec.ofNat 32 (h >>> (8 * o))
    let v : Vector Word 64 := Vector.ofFn fun i => if live.getLsbD i.val then word (off i.val) else 0
    let hs : Vector Word 8 := if hb = 1 then Vector.ofFn fun i => word (64 + 4 * i.val) else Vector.replicate 8 0
    let tile : Option TileBlk :=
      if tb = 1 then some { handle := word (64 + 32 * hb), counters := (List.range 5).map fun i => (word (68 + 32 * hb + 4 * i)).toNat }
      else none
    let poison := (List.range 64).foldl (fun m i =>
      if live.getLsbD i && placeBad s r.part r.ref (off i) then setBit m i true else m) (0 : DWord)
    let s := s.updRec tid fun r =>
      { r with resume := BitVec.ofNat 32 (bitsN h 31 0), prio := BitVec.ofNat 4 (bitsN h 99 96), key := bitsN h 187 128,
               wtype := bitsN h 191 188, livemask := live, tile }
    s.updBoth t.tid fun t =>
      { t with v, h := hs, p := BitVec.ofNat 7 (bitsN h 326 320), pendV := BitVec.ofNat 64 (bitsN h 319 256) &&& live, poison,
               sleepAt := if bitN h 511 = 1 then some (bitsN h 507 448) else none }
  | _, _ => s

/-- The bytes of an annex (R57). -/
def annexBytes (s : State) (a : Annex) : List Byte :=
  let front := (List.range 8).map fun i => match a.entries[i]? with
    | some e => (64, e.pc.toNat + e.mask.toNat * 2 ^ 32)
    | none => (64, 0)
  let prio := (List.range 8).map fun i => (4, ((a.entries[i]?).map fun e => e.prio.toNat).getD 0)
  let lane := (List.range 32).map fun l =>
    (32, ((s.recs.find? fun r => r.part = a.part && r.annex = a.ref && r.lane = l).map (·.ref)).getD 0)
  leBytes 256 (packBits (front ++ (a.k.toList.map fun m => (32, m.toNat)) ++ prio ++
    [(8, a.entries.length), (8, 0), (16, a.count), (64, 0)] ++ lane))

/-- Write an annex at its place. -/
def flushAnnex (s : State) (part ref : Nat) : State :=
  match s.annexes.find? fun a => a.part = part && a.ref = ref with
  | some a => placeWrite s part ref (annexBytes s a) []
  | none => s

/-- Read an annex as firmware may have left it (R58, R301); each entry keeps its code buffer. -/
def loadAnnex (s : State) (part ref : Nat) : State :=
  let x := placeRead s part ref 8
  let s := placeTouch s part ref
  let new (a : Annex) : Annex :=
    let es := (List.range (min 8 (bitsN x 935 928))).map fun i =>
      let buf := ((a.entries[i]?).map (·.buf)).getD (((a.entries.head?).map (·.buf)).getD 0)
      ({ pc := BitVec.ofNat 32 (x >>> (64 * i)), prio := BitVec.ofNat 4 (x >>> (896 + 4 * i)),
         mask := BitVec.ofNat 32 (x >>> (64 * i + 32)), buf, stall := none, split := none } : Entry)
    { a with entries := es, k := Vector.ofFn fun i => BitVec.ofNat 32 (x >>> (512 + 32 * i.val)) }
  { s with annexes := updL (fun a => a.part = part && a.ref = ref) new s.annexes }

/-- A record that firmware holds is read before it is changed (R58, R301). -/
def reloadHeld (s : State) (tid : Nat) : State := if (s.rec? tid).any (·.held) then loadRec s tid else s

/-- Write a late result to a thread wherever it lies (R50): into the record's slot where it is a record. -/
def deliverRec (s : State) (tid : Nat) (ws : List (RegRef × Word)) : State :=
  flushRec ((reloadHeld s tid).deliverTo tid ws) tid

/-- Write a late result to one physical lane's thread, of the thread `own` (R136). -/
def deliverLane (s : State) (tid own : Nat) (ws : List (RegRef × Word)) : State :=
  flushRec ((reloadHeld s own).updThread tid fun t => ws.foldl Thread.deliver t) own

/-! ### Ladles (R59) -/

/-- The core to which a thread's run is pinned (R361). -/
def State.pinOf (s : State) (t : Thread) : Option Nat := (s.cast? t.part t.launch t.cast).bind (·.pin)

/-- Whether a ladle holds the key of a record and has room. -/
def Ladle.takes (l : Ladle) (r : Rec) (launch : Nat) (pin : Option Nat) : Bool :=
  l.part = r.part && l.cluster = r.cluster && l.launch = launch && l.resume = r.resume && l.annex = r.annex &&
    l.buf = r.buf && l.pin = pin && decide (l.members.length < 32)

/-- A record's place among those that enter a ladle: by the cy, then by cast and thread (R348). -/
def insertMember (s : State) (x : Nat × Nat) : List (Nat × Nat) → List (Nat × Nat)
  | [] => [x]
  | y :: ys =>
    let k (tid : Nat) : Nat := ((s.thread? tid).map fun t => t.cast * 2 ^ 16 + t.tic).getD 0
    if y.2 = x.2 ∧ k x.1 < k y.1 then x :: y :: ys else y :: insertMember s x ys

/-- A record whose wake has fired enters a ladle of its cluster (R59): the earliest that holds its key and has room, a
free one, or the entry list. -/
def enterLadle (s : State) (tid : Nat) : State :=
  match s.rec? tid, s.thread? tid with
  | some r, some t =>
    if r.held || r.transit.isSome then s
    else
      let pin := s.pinOf t
      match minBy Ladle.id (s.ladles.filter fun l => l.takes r t.launch pin) with
      | some l =>
        { s with ladles := updL (fun x => x.id = l.id) (fun x => { x with members := insertMember s (tid, s.time) x.members }) s.ladles }
      | none =>
        if (s.ladles.countP fun l => l.cluster = r.cluster) < 256 then
          let l : Ladle :=
            { id := s.nextId, part := r.part, cluster := r.cluster, launch := t.launch, resume := r.resume,
              annex := r.annex, buf := r.buf, pin, members := [(tid, s.time)], eligibleSince := none, aged := false }
          { s with nextId := s.nextId + 1, ladles := s.ladles ++ [l] }
        else { s with entryLists := s.entryLists ++ [(r.cluster, tid)] }
  | _, _ => s

/-- A ladle without a record: with its oldest record goes what was noted of the wait of that record (R60). -/
def Ladle.without (tid : Nat) (l : Ladle) : Ladle :=
  { l with members := l.members.filter (fun m => m.1 ≠ tid),
           aged := l.aged && !((l.members.head?).any fun m => m.1 = tid) }

/-- Take a record out of its ladle or entry list; a ladle without members is free. -/
def leaveLadle (s : State) (tid : Nat) : State :=
  { s with
    ladles := (s.ladles.map (Ladle.without tid)).filter fun l => l.members ≠ [],
    entryLists := s.entryLists.filter fun x => x.2 ≠ tid }

/-- Records of the entry lists enter ladles that have room, in order of wake (R59). -/
def serveEntryLists (s : State) : State :=
  s.entryLists.foldl (fun s x => enterLadle { s with entryLists := s.entryLists.filter fun y => y.2 ≠ x.2 } x.2) s

/-! ### Wakes (R50, R55, R56) -/

/-- An arrival of the thread on a flask whose result is not written yet. -/
def State.pendingArrival (s : State) (tid : Nat) (handle : Word) : Option SgReq :=
  s.sgs.find? fun g => g.tid = tid &&
    match g.kind, g.stage with
    | .arrive h _ _ _, .validated _ => h = handle
    | .arrive h _ _ _, .departed _ => h = handle
    | .arrive h _ _ _, .counted _ => h = handle
    | .arrive h _ _ _, .result _ _ _ => h = handle
    | _, _ => false

/-- A thread awaits the reply of a flask home, or a validation, and does not become a record (R272). -/
def State.awaitsHome (s : State) (tid : Nat) : Bool :=
  s.sgs.any fun g => g.tid = tid &&
    match g.kind, g.stage with
    | .gone _ _, _ => false
    | .stat _ _ _, _ => false
    | _, .sent => true
    | _, .reply _ _ => true
    | _, _ => false

/-- Whether a VF of the partition is stopped: it is being pre-empted, or a context request covers it, or one did that
ended with `TOOSMALL` (R340, R345). -/
def Part.halts (p : Part) (vf : Nat) : Bool :=
  (p.preempting.any fun x => x.1 = vf) ||
    ((bitN p.pctxRun.toNat 63 = 1 || bitsN p.pctxRun.toNat 55 48 = 4) &&
      (bitN p.pctxRun.toNat 61 = 0 || bitsN p.pctxRun.toNat 59 56 = vf))

/-- Whether records of a VF are being moved by `PREQ` (R350). -/
def Part.moves (p : Part) (vf : Nat) : Bool := p.preqMove && bitsN p.preqRun.toNat 23 20 = vf

/-- Whether the condition of a wake holds now (R50, R55). -/
def wakeHolds (s : State) (tid wtype key : Nat) : Bool :=
  match s.thread? tid with
  | none => false
  | some t =>
    match wtype with
    | 0 => true
    | 1 =>
      if bitN key 0 = 0 then t.pendV = 0 && ((s.twinOf t).all fun u => u.pendV = 0)
      else if bitsN key 2 1 = 3 then s.btsyncOk tid
      else if bitN key 3 = 1 then s.coveredDone tid (bitsN key 2 1) (bitsN key 27 4)
      else s.scopeDone tid (bitsN key 2 1)
    | 2 => (s.part? t.part).any fun p => btState (btMem s p (bitsN key 15 0)) = bitsN key 18 16
    | 3 => (s.pendingArrival tid (BitVec.ofNat 32 key)).isNone
    | 4 => decide (key ≤ s.time % 2 ^ 60)
    | 5 => (s.part? t.part).any fun p => !(p.faults.any fun f => f.fid = bitsN key 31 0)
    | 7 => (s.cast? t.part t.launch t.cast).any fun c =>
        !((c.queues.getD (bitsN key 1 0) []).isEmpty)
    | 8 =>
      match s.part? t.part, s.launch? t.part t.launch with
      | some p, some l => p.sliceVf = l.vf && !p.halts l.vf && !p.moves l.vf
      | _, _ => false
    | _ => false

/-- A wake fires: it is kept in the record, which enters a ladle unless it is held or on its way (R55, R301). -/
def fireWake (s : State) (tid : Nat) (status : Nat) : State :=
  match s.rec? tid with
  | none => s
  | some r =>
    if r.fired.isSome then s
    else enterLadle (s.updRec tid fun r => { r with fired := some s.time, status }) tid

/-- What a wake of a type delivers as status: that of the arrival's result for type 3, which `sr.wakest` got with the
result, before or after the thread became a record; else 0 (R287). -/
def wakeStatus (s : State) (tid wtype : Nat) : Nat :=
  if wtype = 3 then ((s.thread? tid).map fun t => bitsN t.wakest.toNat 15 8).getD 0 else 0

/-- Fire the wake of a thread's record if its condition holds (R56). -/
def checkWake (s : State) (tid : Nat) : State :=
  match s.rec? tid with
  | none => s
  | some r => if r.fired.isNone && wakeHolds s tid r.wtype r.key then fireWake s tid (wakeStatus s tid r.wtype) else s

/-- Fire every wake of one type of a partition whose condition holds. -/
def checkWakes (s : State) (part wtype : Nat) : State :=
  ((s.recs.filter fun r => r.part = part && r.wtype = wtype && r.fired.isNone).map (·.tid)).foldl checkWake s

/-- A record never misses a wake (R56): those on the state of a buffer are tested after every write that may have been to a
buffer table. -/
def bufferWakes (s : State) : State := s.parts.foldl (fun s p => checkWakes s p.first 2) s

/-- A request of `PREQ` is complete: `GO` reads 0. -/
def Part.preqDone (p : Part) : Part := { p with preq := setBit p.preq 63 false, preqRun := setBit p.preqRun 63 false }

/-- The end of a move of records (R350): `GO` reads 0 once every one that the request forwarded has arrived, and the wakes of type 8 fire. -/
def settleMove (s : State) (part : Nat) : State :=
  match s.part? part with
  | none => s
  | some p =>
    if p.preqMove && !(s.recs.any fun r => r.part = part && r.transit.isSome && r.convoy = p.preqConvoy) then
      checkWakes (s.updPart part fun p => { p.preqDone with preqMove := false }) part 8
    else s

/-! ### The loops of a thread (R52, R53, R241, R265) -/

/-- The counts of a loop's descriptor (R265). -/
def loopCounts (o : TileOp) : List Nat := (List.range 5).map fun k => bitsN o.blk (207 + 16 * k) (192 + 16 * k)

/-- The iteration counters of a number of steps (R244). -/
def countersOf (o : TileOp) : List Nat := iterCounts (loopCounts o) o.vec
where
  /-- The vector of number `n`, loop 0 fastest. -/
  iterCounts : List Nat → Nat → List Nat
    | [], _ => []
    | c :: cs, n => n % max c 1 :: iterCounts cs (n / max c 1)

/-- The `MMAL` that a thread issued and that is not at its end: the first in order of issue, since a record has one tile
block (R52); the vectors of others stay in the engine (notes/assumptions/115.md). -/
def loopOf (s : State) (tid : Nat) : Option TileOp := s.tileOps.find? fun o => o.issuer = tid && o.kind = .mmal

/-- Its tile block (R52). -/
def tileBlkOf (s : State) (tid : Nat) : Option TileBlk :=
  (loopOf s tid).map fun o => { handle := o.handle, counters := countersOf o }

/-- The tile block with which a thread becomes a record: that of a loop which has stopped (R53, R241). -/
def stoppedBlk (s : State) (tid : Nat) : Option TileBlk :=
  if (loopOf s tid).any (·.stopped) then tileBlkOf s tid else none

/-! ### Making a record (R46, R47, R51 to R57, R83) -/

/-- The poison of the registers that a record saves: two slots share a granule of 8 bytes (R354, R356). -/
def granulePoison (m x : DWord) : DWord :=
  if x &&& m = 0 then 0
  else (List.range 64).foldl (fun a i =>
    if m.getLsbD i && (List.range 64).any fun j => x.getLsbD j && m.getLsbD j && slotIn m j / 2 = slotIn m i / 2
    then setBit a i true else a) 0

/-- The registers not saved read as zero on resume (R47); only saved registers stay pending, and the slot of a pending one
holds zero until its response writes it (R52). -/
def Thread.keepLive (t : Thread) (m : DWord) : Thread :=
  { t with v := Vector.ofFn (fun i => if m.getLsbD i.val && !t.pendV.getLsbD i.val then t.v[i.val] else 0), pendV := t.pendV &&& m,
           poison := granulePoison m t.poison, late := [], loc := .record }

/-- A lane leaves its pour: its bit goes from the entries and from k0 to k11 (R46). An entry without lanes goes, and so
does a pour without threads (R44). -/
def leavePour (s : State) (core slot lane : Nat) : State :=
  let s := s.updPour core slot fun p =>
    { p with entries := (p.entries.map fun e => { e with mask := setBit e.mask lane false }).filter fun e => e.mask ≠ 0,
             k := p.k.map fun m => setBit m lane false }
  if s.threads.any fun t => match t.loc with | .lane c sl l => c = core && sl = slot && l ≠ lane | _ => false then s
  else { s with pours := s.pours.filter fun p => !(p.core = core && p.slot = slot) }

/-- The accesses that a record's wait on accesses covers (R50). -/
def waitSet (s : State) (tid key : Nat) : List Acc :=
  if bitN key 3 = 1 then s.covered tid (bitsN key 2 1) (bitsN key 27 4) else s.accsOf tid (bitsN key 2 1)

/-- A record of kind 0 that waits on accesses, one of which has a posted fault, becomes kind 2 in place (R217). -/
def meetStoreFault (s : State) (tid : Nat) : State :=
  match s.rec? tid with
  | none => s
  | some r =>
    if r.kind = 0 && r.wtype = 1 && bitN r.key 0 = 1 && bitsN r.key 2 1 != 3 && r.fired.isNone then
      match defStoreOf (waitSet s tid r.key) with
      | some (fid, ix) =>
        flushRec ((reloadHeld s tid).updRec tid fun r => { r with kind := 2, wtype := 5, key := fid, faultix := ix }) tid
      | none => s
    else s

/-- A thread becomes a record in room already taken (R51, R56): it leaves its pour, unless the pour goes whole into an
annex, and its wake fires at once if its condition holds. -/
def makeRec (s : State) (tid : Nat) (i : RecInit) : State :=
  match s.thread? tid with
  | none => s
  | some t =>
    let l := s.launch? t.part t.launch
    let all := i.kind = 1 ∨ i.kind = 5
    let live := if all then BitVec.allOnes 64 else (l.map fun l => liveMask s l i.resume).getD (BitVec.allOnes 64) ||| i.alsoLive
    let ref := nextRef s t.part
    let r : Rec :=
      { tid, part := t.part, cluster := i.cluster, kind := i.kind, prio := i.prio, resume := i.resume, buf := i.buf,
        wtype := i.wtype, key := i.key, livemask := live, faultix := i.faultix, annex := i.annex, lane := i.lane, ref,
        ps := i.ps, asRun := decide (t.run = 1 ∨ t.run = 2), pt := (l.map Launch.protected).getD false,
        tile := i.tile.orElse fun _ => stoppedBlk s tid,
        fired := none, status := 0, held := false, transit := none, convoy := 0 }
    let s := match t.loc with
      | .lane c sl ln => if i.kind = 1 then s else leavePour s c sl ln
      | _ => s
    let s := match l with
      | some l => if all then s else devTouchBlock s t.part .load (ptrAdd (l.codeBuf * 2 ^ 48) l.lmBase) 16 l.lmCount
      | none => s
    let s := s.updBoth tid fun t => t.keepLive live
    let s := writeRec { s with recs := s.recs ++ [r] } tid
    checkWake (meetStoreFault s tid) tid

/-! ### Pool-stalled entries (R45, R64) -/

/-- Turn the threads of lanes into records, if the pool has room for all. -/
def convert (s : State) (part launch core : Nat) (ts : List (Nat × Nat)) (i : RecInit) : Option State :=
  (takeRoom s part launch ts.length).map fun s =>
    ts.foldl (fun s x => makeRec s x.2 { i with lane := x.1, cluster := clusterOf core }) s

/-- Whether the threads of an entry wait in their slot for a syscall's reply (R64, R289). -/
def Entry.holds (e : Entry) : Bool :=
  e.stall.any fun st => st.pool.isSome && (st.wtype = 6 || (st.await && st.wtype = 5))

/-- R45 once: the entry of lowest priority, the highest PC among equals, leaves the pour; a handler entry only where
every entry is one (R328). An entry that waits on a mask never becomes a record (R157), and one that waits for the pool
keeps its own condition (R64). -/
def splitVictim (s : State) (p : Pour) : Option Entry :=
  let isH (e : Entry) : Bool := (s.lanesIn p.core p.slot e.mask).any fun x => (s.thread? x.2).any (·.trapClass)
  let cands := p.entries.filter fun e =>
    e.split.isNone && !e.holds && (kwaiting s p e).isNone
  let cands' := if cands.all isH then cands else cands.filter fun e => !isH e
  minBy (fun e : Entry => e.prio.toNat * 2 ^ 32 + (2 ^ 32 - 1 - e.pc.toNat)) cands'

/-- Apply R45: records of kind 4, or a pool-stalled split entry where the pool has no room. -/
def splitOne (s : State) (core slot : Nat) : State :=
  match s.pour? core slot with
  | none => s
  | some p =>
    match splitVictim s p with
    | none => s
    | some e =>
      match convert s p.part p.launch core (s.lanesIn core slot e.mask)
          { kind := 4, wtype := 0, key := 0, resume := e.pc, prio := e.prio, buf := e.buf, cluster := 0 } with
      | some s' => s'
      | none =>
        let s := s.bumpId
        s.updPour core slot fun p =>
          { p with entries := updL (fun x => x.pc = e.pc && x.buf = e.buf && x.split.isNone && !x.holds)
                     (fun x => { x with split := some s.nextId }) p.entries }

/-- Whether the lanes of an entry leave the pour in the cy after their page fault (R332). -/
def Entry.leaving (e : Entry) (now : Nat) : Bool := e.stall.any fun st => st.await && st.wtype = 5 && decide (now ≤ st.start)

/-- R45 until at most 8 entries may issue; lanes that leave in the next cy make none. -/
def splitWhile (s : State) (core slot : Nat) : Nat → State
  | 0 => s
  | n + 1 =>
    match s.pour? core slot with
    | none => s
    | some p => if 8 < (p.entries.countP fun e => e.split.isNone && !e.leaving s.time) then splitWhile (splitOne s core slot) core slot n else s

/-- R152's Place on a list of entries; a pool-stalled split entry never merges (R45), nor one whose threads await a syscall
reply in their slot (R64), and entries merge only where both PC and code buffer agree (R328). The merged entry tries its
group afresh: a wait that was going on is over, and a pool-stalled entry loses its place in the order, which is the model's
choice (notes/assumptions/13.md). -/
def placeIn (es : List Entry) (pc : Word) (prio : BitVec 4) (mask : Word) (buf : Nat) : List Entry :=
  if mask = 0 then es
  else if es.any fun e => e.pc = pc && e.buf = buf && e.split.isNone && !e.holds then
    updL (fun e => e.pc = pc && e.buf = buf && e.split.isNone && !e.holds)
      (fun e => { e with mask := e.mask ||| mask, prio := if e.prio < prio then prio else e.prio, stall := none }) es
  else es ++ [{ pc, prio, mask, buf, stall := none, split := none }]

end Sys2Proof.Machine
end

