-- ==== Sys2Proof/Machine/Kill.lean ====
section
/-! DEFINITION. The end of threads, casts and gangs, suspicion, escalation to the fault domain, and partition reset
(R31, R40, R159, R286, R338, R339, R346, R347, R357, R360 to R367). -/

namespace Sys2Proof.Machine

/-! ### Small parts -/

/-- A queue context of a partition (R305). -/
def Part.queue (p : Part) (q : Nat) : Queue := getL p.queues q Queue.fresh
def updQueue (s : State) (part q : Nat) (f : Queue → Queue) : State :=
  s.updPart part fun p => { p with queues := setL p.queues q (f (p.queue q)) }

/-- Raise a status interrupt of the host, MSI-X vector 0 of the PF; the side-band receives the same cause (R31, R385). -/
def raiseInt (s : State) (bit : Nat) : State :=
  s.updDev fun d =>
    { d with intstat := setBit d.intstat bit true, notices := d.notices ++ [.cause bit], hostMsgs := d.hostMsgs + 1 }

/-- An interrupt source becomes pending at the control core of a slot (R385). -/
def raiseCtl (s : State) (slot source : Nat) : State := s.updCtl slot fun c => { c with pending := insertN source c.pending }

/-- The slots of a partition. -/
def Part.slots (p : Part) : List Nat := (List.range (2 ^ p.sz)).map (p.first + ·)
/-- Whether a cluster belongs to a partition. -/
def Part.hasCluster (p : Part) (cl : Nat) : Bool := decide (2 * p.first ≤ cl) && decide (cl < 2 * (p.first + 2 ^ p.sz))
def Part.clusters (p : Part) : List Nat := (List.range (2 * 2 ^ p.sz)).map (2 * p.first + ·)

/-- Every slot's S layer takes an interrupt (R334, R381). -/
def raiseS (s : State) (p : Part) (source : Nat) : State := p.slots.foldl (fun s x => raiseCtl s x source) s

/-- Release a tile: its entry is free and its generation advances, skipping 0 (R260). -/
def releaseTile (t : Tile) : Tile := { t with live := false, dying := false, gen := if t.gen = 4095 then 1 else t.gen + 1 }

/-- The handle of an entry. -/
def tileHandle (t : Tile) : Word := BitVec.ofNat 32 (t.gen + t.idx * 2 ^ 12 + t.vault * 2 ^ 25)

/-- Whether an operation on a tile is in progress. -/
def tileInUse (s : State) (t : Tile) : Bool := s.tileOps.any fun o => o.arrived && o.part = t.part && o.handle = tileHandle t

/-- The tiles of killed gangs on which no operation is in progress any more are released (R260). -/
def settleTiles (s : State) : State :=
  { s with tiles := s.tiles.map fun t => if t.dying && !tileInUse s t then releaseTile t else t }

/-- A flask's generation advances (R279). -/
def destroyFlask (f : Flask) : Flask :=
  { f with live := false, gen := if f.gen = 4095 then 1 else f.gen + 1, members := [], isOpen := false, expect := 0,
           arrived := [], held := [], mix := false, faultMark := false, dropMark := false, phase := 0 }

/-! ### Suspicion (R365) -/

def qthr (p : Part) : Nat := if bitsN p.assayctl.toNat 31 24 = 0 then 64 else bitsN p.assayctl.toNat 31 24

def suspOf (s : State) (core : Nat) : Nat × Bool :=
  match s.dev.susp.find? fun x => x.1 = core with
  | some (_, n, q) => (n, q)
  | none => (0, false)

def quarantined (s : State) (core : Nat) : Bool := (suspOf s core).2

def setSusp (s : State) (core n : Nat) (q : Bool) : State :=
  s.updDev fun d => { d with susp := setL d.susp core (n, q) }

/-! ### Assay (R361, R362, R366) -/

/-- Change the count of launches that hold a buffer (R163, R362). -/
def bumpHold (s : State) (part idx : Nat) (up : Bool) : State :=
  match s.part? part with
  | none => s
  | some p =>
    let h := btHold (btMem s p idx)
    btPoke s p idx 32 2 (if up then h + 1 else h - 1)

/-- Whether a cast still owes its rewrite run (R367): its original run was wrong, its bundle may be relaunched, and the
digest of a rewrite run is not there yet. -/
def rewriteOwed (s : State) (c : Cast) : Bool :=
  c.assay.any (fun a => a.decided && a.verdict = 2 && a.digests.length = 3) &&
    (s.launch? c.part c.launch).any Launch.relaunchable

/-- Whether the assay of a cast, if it has one, is over (R362, R367). -/
def assayOver (s : State) (c : Cast) : Bool := c.assay.all (fun a => a.decided) && !rewriteOwed s c

/-- The launch's hold on its inputs ends once every selected cast admitted so far is decided and every rewrite run has
ended (R362). -/
def endHold (s : State) (part launch : Nat) : State :=
  match s.launch? part launch with
  | none => s
  | some l =>
    if l.holding ≠ [] ∧ (s.casts.all fun c =>
        !(c.part = part && c.launch = launch) || assayOver s c) then
      let s := l.holding.foldl (fun s i => bumpHold s part i false) s
      s.updLaunch part launch fun l => { l with holding := [] }
    else s

/-- Fix the decision of a selected cast. -/
def decide' (s : State) (part launch cast verdict : Nat) : State :=
  endHold (s.updCast part launch cast fun c =>
    { c with assay := c.assay.map fun a => { a with decided := true, verdict, deadline := none } }) part launch

/-! ### The end of a thread (R46, R159, R286) -/

/-- A thread's name (R280). -/
def Thread.who (t : Thread) : Who := { launch := t.launch, cast := t.cast, tic := t.tic }

/-- The handles of the flasks a thread is a member of: those it holds, and those on their way to it. -/
def heldHandles (s : State) (t : Thread) : List Word :=
  (t.h.toList.filter fun h => h ≠ 0) ++ s.sgs.filterMap fun g =>
    if g.tid = t.tid then
      match g.stage with
      | .reply h true => some h
      | _ => none
    else none

/-- A departure of an ended member from the flask of each handle it holds (R286). -/
def departures (s : State) (t : Thread) (killed : Bool) : State :=
  (heldHandles s t).foldl (fun s h =>
    let g : SgReq :=
      { id := s.nextId, part := t.part, tid := t.tid, who := t.who, stage := .sent, seq := s.nextId,
        kind := .gone h killed }
    { s with nextId := s.nextId + 1, sgs := s.sgs ++ [g] }) s

/-- An annex loses one of its records, whose `LANEREC` word is cleared; without records it is freed (R60, R339). -/
def dropFromAnnex (s : State) (ref : Nat) (part : Nat) : State :=
  let s := if s.recs.any fun r => r.part = part && r.annex = ref && r.held then loadAnnex s part ref else s
  flushAnnex { s with annexes := (updL (fun a => a.ref = ref && a.part = part) (fun a => { a with count := a.count - 1 }) s.annexes).filter
                        fun a => a.count ≠ 0 } part ref

/-- A record is discarded: it leaves its ladle and the pool, records that waited for the ladle enter it (R59), and a move
that waited for it alone is over (R350). -/
def dropRec (s : State) (tid : Nat) : State :=
  match s.rec? tid with
  | none => s
  | some r =>
    let s := leaveLadle s tid
    let s : State := { s with recs := s.recs.filter fun x => x.tid ≠ tid }
    settleMove (serveEntryLists (if r.annex = 0 then s else dropFromAnnex s r.annex r.part)) r.part

/-- A thread ends (R159): it leaves its pour or the pool and its flasks; what it awaited is discarded, what it issued
completes. -/
def endThread (s : State) (tid : Nat) (killed : Bool) : State :=
  match s.thread? tid with
  | none => s
  | some t =>
    let s := departures s t killed
    let s := match t.loc with
      | .lane c sl ln => leavePour s c sl ln
      | _ => s
    let s := dropRec s tid
    { s with
      threads := s.threads.filter (fun x => x.tid ≠ tid && (t.twin = 0 || x.tid ≠ t.twin)),
      results := s.results.filter (fun x => x.tid ≠ tid && (t.twin = 0 || x.tid ≠ t.twin)),
      held := s.held.filter (fun x => x.tid ≠ tid),
      accs := s.accs.filter (fun a => a.tid ≠ some tid || (a.isWrite && !a.complete s.time)) }

/-- The locks of an operation go, those of its destinations once its writes are complete, in a cy `done` (R192). -/
def freeLocksAt (s : State) (op done : Nat) : State :=
  { s with locks := (s.locks.filter fun l => l.op ≠ op || (l.dst && decide (s.time < done))).map fun l =>
             if l.op = op then { l with free := some done } else l }

/-- The locks of an operation whose writes are complete go. -/
def freeLocks (s : State) (op : Nat) : State := freeLocksAt s op 0

/-- Locks whose cy has come go. -/
def locksDue (now : Nat) (ls : List Lock) : List Lock := ls.filter fun l => !(l.free.any fun t => decide (t ≤ now))

/-- Engine operations end: copies, runners and tile operations of some ids, with their locks (R192, R241). -/
def endOps (s : State) (ids : List Nat) : State :=
  let done (id : Nat) : Nat := ((s.copy? id).map (·.gwct)).getD 0
  let s := ids.foldl (fun s id => match s.copy? id with
    | some c => (freeLocksAt s id (done id)).updLaunch c.part c.launch fun l => { l with writesAt := max l.writesAt c.gwct }
    | none => freeLocksAt s id (done id)) s
  settleTiles { s with
    copies := s.copies.filter (fun x => !ids.contains x.id),
    runners := s.runners.filter (fun x => !ids.contains x.id),
    tileOps := s.tileOps.filter (fun x => !ids.contains x.id) }

/-! ### Quarantine (R365) -/

/-- A cast is pinned no longer: its records in ladles enter ladles of their new key. -/
def unpin (s : State) (c : Cast) : State :=
  let s := s.updCast c.part c.launch c.num fun c => { c with pin := none }
  let mine (tid : Nat) : Bool := (s.thread? tid).any fun t => t.part = c.part && t.launch = c.launch && t.cast = c.num
  ((s.ladles.flatMap fun l => l.members.map (·.1)).filter mine).foldl (fun s tid => enterLadle (leaveLadle s tid) tid) s

/-- The engine operations of a run that is thrown away go with it. -/
def dropRun (s : State) (c : Cast) : State :=
  let cs := s.copies.filter fun x => x.part = c.part && x.launch = c.launch && x.cast = c.num && x.run = c.run && !x.prologue
  let rs := s.runners.filter fun x => x.part = c.part && x.launch = c.launch && x.cast = c.num
  let ts := s.tileOps.filter fun x => x.part = c.part && x.launch = c.launch && x.cast = c.num
  endOps s (cs.map (·.id) ++ rs.map (·.id) ++ ts.map (·.id))

/-- A later run is thrown away, to be set up again on another core (R365, R373). -/
def restartRun (s : State) (c : Cast) : State :=
  let ts := (s.threads.filter fun t => t.part = c.part && t.launch = c.launch && t.cast = c.num && !t.shadow).map (·.tid)
  let s := dropRun (ts.foldl (fun s tid => endThread s tid false) s) c
  s.updCast c.part c.launch c.num fun c =>
    { c with ended := true, alloc := none, spilled := none, spillBufs := [], queues := [], pin := none,
             assay := c.assay.map fun a => { a with digest := 0, deadline := none, promoted := false } }

/-- Whether a cast's original run is pinned to a core, now or before it ended. -/
def Cast.origOn (c : Cast) (core : Nat) : Bool :=
  (c.run = 0 && c.pin = some core) || c.assay.any fun a => (a.digests.head?).any fun d => d.1 = core

/-- The pinned runs of a core that is quarantined (R365, R366, R373): an assay that is not decided and whose original run
was made there is cancelled; a later run that goes on there is thrown away and set up again, or, where its assay was
cancelled, goes on elsewhere (notes/assumptions/134.md). -/
def quarantineRuns (s : State) (core : Nat) : State :=
  s.casts.foldl (fun s c =>
    if c.assay.any (fun a => !a.decided) && c.origOn core then
      let s := decide' s c.part c.launch c.num 0
      if c.run = 0 then unpin s c else s
    else if c.run ≠ 0 && !c.ended && c.pin = some core then
      if assayOver s c then unpin s c else restartRun s c
    else s) s

/-- Suspicion points for a core, and quarantine at the threshold of its partition (R365). -/
def addSusp (s : State) (core pts : Nat) : State :=
  let old := suspOf s core
  let n := min 255 (old.1 + pts)
  let thr := ((s.partOfSlot (core / 16)).map qthr).getD 64
  if thr ≤ n ∧ !old.2 then quarantineRuns (raiseInt (setSusp s core n true) 1) core else setSusp s core n old.2

/-! ### The end of a run of a cast (R40, R364, R367) -/

/-- The core to which the cast's present run is pinned. -/
def Cast.core (c : Cast) : Nat := c.pin.getD 0

/-- A verdict by the digests of the runs so far (R364, R367): the decision, or none where another run is due. -/
def judge (s : State) (c : Cast) : State :=
  match c.assay with
  | none => s
  | some a =>
    match a.digests with
    | [(_, d0), (_, d1)] => if d0 = d1 then decide' s c.part c.launch c.num 1 else s
    | [(k0, d0), (k1, d1), (k2, d2)] =>
      if d2 = d0 then addSusp (decide' s c.part c.launch c.num 1) k1 16
      else
        let s := (decide' s c.part c.launch c.num 2).updLaunch c.part c.launch fun l => { l with corrupt := true }
        if d2 = d1 then addSusp s k0 16 else addSusp (addSusp (addSusp s k0 4) k1 4) k2 4
    | [(_, _), (_, d1), (_, d2), (k3, d3)] =>
      let agree := d2 = d1 && d3 = d1
      let s := if agree then s.updLaunch c.part c.launch fun l => { l with rewritten := true } else addSusp s k3 16
      endHold s c.part c.launch
    | _ => s

/-- Whether an engine still fills or takes from the queues of a cast: its runner, or a staging `MMA` (R159, R263). -/
def queuesInUse (s : State) (part launch cast : Nat) : Bool :=
  (s.runners.any fun r => r.part = part && r.launch = launch && r.cast = cast) ||
    s.tileOps.any fun o => o.part = part && o.launch = launch && o.cast = cast && o.need ≠ 0

/-- The last thread of a cast's run has exited (R40): its allocation and queues are freed,
those that an engine still uses once it has ended (notes/assumptions/113.md); the digest of a selected
cast's run is kept and judged. -/
def castEnd (s : State) (part launch cast : Nat) : State :=
  match s.cast? part launch cast with
  | none => s
  | some c =>
    let used := queuesInUse s part launch cast
    let s := s.updCast c.part c.launch c.num fun c =>
      { c with ended := true, alloc := none, spilled := none, queues := if used then c.queues else [],
               assay := c.assay.map fun a =>
                 if a.decided && !rewriteOwed s c then a
                 else { a with digests := a.digests ++ [(c.core, a.digest)], digest := 0, deadline := none,
                               promoted := false } }
    match s.cast? part launch cast with
    | some c => judge s c
    | none => s

/-- Whether any thread of a cast lives. -/
def castLives (s : State) (part launch cast : Nat) : Bool :=
  s.threads.any fun t => t.part = part && t.launch = launch && t.cast = cast

/-- After a thread ended: its cast ends with its last thread (R40). -/
def checkCastEnd (s : State) (part launch cast : Nat) : State :=
  match s.cast? part launch cast with
  | none => s
  | some c => if c.started && c.pours.isEmpty && !c.ended && !castLives s part launch cast then castEnd s part launch cast else s

/-- `EXIT` of a thread (R159). -/
def exitThread (s : State) (tid : Nat) : State :=
  match s.thread? tid with
  | none => s
  | some t => checkCastEnd (endThread s tid false) t.part t.launch t.cast

/-! ### Kills (R339, R357, R366) -/

/-- Whether a cast number lies in a gang (R41). -/
def inGang (l : Launch) (g cast : Nat) : Bool := cast / max l.gang 1 = g

/-- Clear a share table (R251, R339). -/
def clearShares (s : State) (part ptr : Nat) : State :=
  (List.range 8).foldl (fun s i =>
    match devLocate s part .store (ptrAdd ptr (16 * i)) 16 with
    | .ok _ k => (if i = 0 then devStore else devPut) s k 16 0
    | .trap _ => countLost s part .store (ptrAdd ptr (16 * i)) 16) s

/-- Buffers whose state the gang changed return to free (R339). -/
def freeChanged (s : State) (part launch g : Nat) : State :=
  match s.part? part with
  | none => s
  | some p =>
    let mine := (p.changed.filter fun x => x.2.1 = launch && x.2.2 = g).map (·.1)
    let s := mine.foldl (fun s b =>
      let e := btMem s p b
      if 2 ≤ btState e then clearShares (setBufState s p b 1) part (btShares e) else s) s
    let drop (c : CopyOp) : CopyOp := { c with accounted := c.accounted && !mine.contains (bitsN c.state 15 0) }
    let s : State := { s with copies := updL (fun c => c.part = part) drop s.copies }
    checkWakes (s.updPart part fun p => { p with changed := p.changed.filter fun x => !(x.2.1 = launch && x.2.2 = g) }) part 2

/-- End the engine operations of a gang (R241): their tokens are discarded, their locks released. -/
def killEngines (s : State) (l : Launch) (g : Nat) : State :=
  let cs := s.copies.filter fun c => c.part = l.part && c.launch = l.num && c.gang = some g
  let rs := s.runners.filter fun r => r.part = l.part && r.launch = l.num && inGang l g r.cast
  let ts := s.tileOps.filter fun t => t.part = l.part && t.launch = l.num && inGang l g t.cast
  let s := endOps s (cs.map (·.id) ++ rs.map (·.id) ++ ts.map (·.id))
  settleTiles { s with
    tiles := s.tiles.map fun t =>
      if t.live && t.part = l.part && t.launch = l.num && t.gang = g then { t with dying := true } else t }

/-- The vault ranges of a gang that is killed stay taken until the writes which its engine operations issued are complete
(R339). -/
def holdRanges (s : State) (l : Launch) (g : Nat) : State :=
  let done := (s.copies.filter fun c => c.part = l.part && c.launch = l.num && c.gang = some g).foldl (fun m c => max m c.gwct) 0
  if done ≤ s.time then s
  else
    let mine := s.casts.filter fun c => c.part = l.part && c.launch = l.num && inGang l g c.num
    let held (c : Cast) : Option VaultHold :=
      c.alloc.map fun a => { part := c.part, launch := c.launch, cluster := c.cluster, off := a.1, size := a.2, free := done }
    { s with vholds := s.vholds ++ mine.filterMap held }

/-- Kill a gang (R339), then relaunch it or mark the bundle failed (R357). Its stores that await the service of a fault
stay, as those of a thread that exits do (R159, R205, R336). -/
def killGang (s : State) (part launch g : Nat) : State :=
  match s.launch? part launch with
  | none => s
  | some l =>
    let mine := (s.threads.filter fun t => t.part = part && t.launch = launch && inGang l g t.cast && !t.shadow).map (·.tid)
    let s := mine.foldl (fun s tid => endThread s tid true) s
    let s := killEngines (holdRanges s l g) l g
    let s := freeChanged s part launch g
    let s : State := { s with
      bufOps := s.bufOps.filter (fun b => !mine.contains b.tid),
      posts := s.posts.filter (fun b => b.bundle.isSome || !mine.contains b.tid) }
    let kills := getL l.kills g 0 + 1
    let again := l.relaunchable && decide (kills ≤ 3)
    let s := s.updLaunch part launch fun l =>
      { l with kills := setL l.kills g kills, relaunch := if again then insertN g l.relaunch else l.relaunch,
               failed := l.failed || !again }
    let gone (c : Cast) : Cast :=
      { c with started := true, pours := [], ended := true, alloc := none, spilled := none, queues := [],
               assay := c.assay.map fun a => { a with decided := true, verdict := 0, deadline := none } }
    let hit (c : Cast) : Bool := c.part = part && c.launch = launch && inGang l g c.num
    let cs := if again then s.casts.filter fun c => !hit c else updL hit gone s.casts
    let s : State := { s with casts := cs }
    endHold s part launch

/-! ### Partition reset (R346, R347) -/

/-- The index from which a queue replays (R347): the oldest bundle read whose fence was not written, the one farthest behind
`TAIL`. -/
def replayHead (s : State) (part q : Nat) (x : Queue) : BitVec 32 :=
  let live := (s.launches.filter fun l => l.part = part && l.queue = q).map (·.index)
  let pend := if x.headBundle.isSome && x.headLaunch.isNone then [(x.head - 1).toNat] else []
  match minBy (fun i : Nat => (BitVec.ofNat 32 i - x.tail).toNat) (live ++ pend) with
  | some i => BitVec.ofNat 32 i
  | none => x.head

/-- A queue context after a reset (R347). -/
def replayQueue (s : State) (part q : Nat) (x : Queue) : Queue :=
  { x with hrej := false, head := replayHead s part q x, headBundle := none, headLaunch := none, depRead := none,
           depOk := false, refused := none, unretired := 0, since := s.time }

/-- A partition's registers after a reset (R346 steps 4 and 5): `FRQ`, `SYSRING`, ownership and the like stay. A request of
`PREQ` is complete, since nothing is left to pre-empt or to move. -/
def resetRegs (s : State) (p : Part) : Part :=
  let f := Part.fresh p.first p.sz p.nvf p.tenant
  { f with
    state := p.state, quiescing := p.quiescing, qack := p.qack, assaykey := p.assaykey, sysring := p.sysring,
    preq := setBit p.preq 63 false, preqRun := setBit p.preqRun 63 false, pctx := p.pctx, pctxRun := p.pctxRun, pweight := p.pweight, vfslice := p.vfslice, qage := p.qage, rlrate := p.rlrate, frq := p.frq,
    frqix := p.frqix, errcnt := p.errcnt, pctxbuf := p.pctxbuf, ilvmap := p.ilvmap, peers := p.peers,
    migfwd := p.migfwd, rejected := p.rejected, logs := p.logs, notReady := p.notReady, down := p.down, sliceStart := s.time,
    sampled := s.time / 10000,
    queues := p.queues.map (fun x => (x.1, replayQueue s p.first x.1 x.2)) }

/-- Whether a key lies in memory that a reset clears: the vaults and weight buffers of the partition's clusters. -/
def resetClears (p : Part) (k : Nat) : Bool :=
  (decide (vaultKey (2 * p.first) 0 ≤ k) && decide (k < vaultKey (2 * (p.first + 2 ^ p.sz)) 0)) ||
    (decide (weightKey (16 * p.first) 0 0 ≤ k) && decide (k < weightKey (16 * (p.first + 2 ^ p.sz)) 0 0))

/-- Whether a pseudo-channel belongs to a partition (R24). -/
def Part.hasChan (p : Part) (c : Option Nat) : Bool :=
  c.any fun c => decide (40 * p.first ≤ c) && decide (c < 40 * (p.first + 2 ^ p.sz))

/-- Entries of the fault ring are cleared (R346 step 3): their `STATE`. -/
def clearFaultRing (s : State) (p : Part) : State :=
  (List.range (2 ^ (min (bitsN p.frq.toNat 3 0) 12 + 4))).foldl (fun s i =>
    match devLocate s p.first .store (ptrAdd (bitsN p.frq.toNat 63 12 * 4096) (64 * i)) 64 with
    | .ok _ k => (if i % 2 = 0 then devStore else devPut) s k 64 0
    | .trap _ => countLost s p.first .store (ptrAdd (bitsN p.frq.toNat 63 12 * 4096) (64 * i)) 64) s

/-- Reset a partition (R346). -/
def resetPart (s : State) (part : Nat) : State :=
  match s.part? part with
  | none => s
  | some p =>
    let mineC (core : Nat) : Bool := !isCtlCore core && p.hasCluster (clusterOf core)
    let s := clearFaultRing s p
    let p' := resetRegs s p
    { s with
      threads := s.threads.filter (fun t => t.part ≠ part || (match t.loc with | .lane c _ _ => isCtlCore c | _ => false)),
      pours := s.pours.filter (fun x => x.part ≠ part || isCtlCore x.core),
      recs := s.recs.filter (fun r => r.part ≠ part),
      annexes := s.annexes.filter (fun r => r.part ≠ part),
      ladles := s.ladles.filter (fun r => r.part ≠ part),
      entryLists := s.entryLists.filter (fun x => !p.hasCluster x.1),
      mem := s.mem.filter (fun c => !resetClears p c.1),
      poisoned := s.poisoned.filter (fun k => !resetClears p k),
      lines := s.lines.filter (fun x => !p.hasChan (keyChan (128 * x.line))),
      l2 := s.l2.filter (fun x => !p.hasCluster x.slice),
      held := s.held.filter (fun b => (s.thread? b.tid).any fun t => t.part ≠ part),
      l1 := s.l1.filter (fun x => !mineC x.core),
      ucopies := s.ucopies.filter (fun x => !mineC x.core),
      accs := s.accs.filter (fun a => a.part ≠ part),
      results := s.results.filter (fun r => (s.thread? r.tid).any fun t => t.part ≠ part),
      btinvs := s.btinvs.filter (fun b => b.part ≠ part),
      bcache := s.bcache.filter (fun c => c.part ≠ part),
      pcache := s.pcache.filter (fun c => c.part ≠ part),
      locks := s.locks.filter (fun l => l.part ≠ part),
      copies := s.copies.filter (fun c => c.part ≠ part),
      runners := s.runners.filter (fun c => c.part ≠ part),
      tileOps := s.tileOps.filter (fun c => c.part ≠ part),
      tiles := s.tiles.map (fun t => if t.live && t.part = part then releaseTile t else t),
      wtags := s.wtags.filter (fun w => !mineC w.core),
      bufOps := s.bufOps.filter (fun b => b.part ≠ part),
      deliveries := s.deliveries.filter (fun b => b.part ≠ part),
      flasks := s.flasks.map (fun f => if f.part = part && f.live then destroyFlask f else f),
      sgs := s.sgs.filter (fun g => g.part ≠ part),
      posts := s.posts.filter (fun g => g.part ≠ part),
      launches := s.launches.filter (fun l => l.part ≠ part),
      casts := s.casts.filter (fun l => l.part ≠ part),
      vholds := s.vholds.filter (fun l => l.part ≠ part),
      parts := updL (fun x => x.first = part) (fun _ => p') s.parts,
      steals := s.steals.filter (fun x => !p.hasCluster x.1),
      stealAfter := s.stealAfter.filter (fun x => !p.hasCluster x.1) }

/-! ### `READY` (R29 to R32, R384) -/

/-- A change of a `READY` bit raises the status-change interrupt of the host and of every control core (R31, R385). -/
def readyChanged (s : State) : State := s.ctls.foldl (fun s c => raiseCtl s c.slot 3) (raiseInt s 0)

/-- Whether a slot is ready (R32). -/
def slotReady (d : Dev) (slot : Nat) : Bool :=
  d.readyDie.getLsbD (slot / 16) && d.readyStack.getLsbD (slot / 4) && d.cc.getLsbD slot && d.fwm.getLsbD slot &&
    d.fws.getLsbD slot

/-- One partition after a change: a slot that stops being ready raises `NOTREADY`, with such a slot it admits nothing, and
when one becomes ready again it is reset (R384). -/
def settlePart (s : State) (p : Part) : State :=
  let down := p.slots.filter fun x => !slotReady s.dev x
  if down = p.down then s
  else
    let s := s.updPart p.first fun p => { p with down, notReady := !down.isEmpty }
    let s := if down.any fun x => !p.down.contains x then raiseInt s 3 else s
    if p.down.any fun x => !down.contains x then resetPart s p.first else s

def settleReady (s : State) : State := s.parts.foldl settlePart s

/-- Clear a `READY` bit of a slot and every later one (R31). -/
def clearReadyFrom (s : State) (slot bit : Nat) : State :=
  settleReady (readyChanged (s.updDev fun d =>
    { d with cc := if bit = 0 then setBit d.cc slot false else d.cc,
             fwm := if bit ≤ 1 then setBit d.fwm slot false else d.fwm,
             fws := if bit ≤ 2 then setBit d.fws slot false else d.fws,
             fwu := setBit d.fwu slot false }))

/-! ### Escalation (R338) -/

/-- Kill every admitted gang, the epilogue's among them, of every live launch whose region chain holds a region. -/
def killRegion (s : State) (part number : Nat) : State :=
  let ls := s.launches.filter fun l => l.part = part && l.inRegion number
  ls.foldl (fun s l =>
    (dedupN ((s.casts.filter fun c => c.part = part && c.launch = l.num).map fun c => l.gangOf c.num)).foldl
      (fun s g => killGang s part l.num g) s) s

/-- Apply the fault action of a region chain to a gang (R338). -/
def applyAction (s : State) (part launch g : Nat) : List Region → State
  | [] => resetPart s part
  | r :: rest =>
    match r.action with
    | 0 => killGang s part launch g
    | 1 => killRegion s part r.number
    | _ => applyAction s part launch g rest

/-- A trap taken as escalation (R338): `WATCHDOG`, a nested trap, `FLTDONE.FAIL`, `POOLEXHAUST`. -/
def escalate (s : State) (part launch g : Nat) : State :=
  match s.launch? part launch with
  | some l => applyAction s part launch g l.chain
  | none => s

def escalateThread (s : State) (tid : Nat) : State :=
  match s.thread? tid with
  | none => s
  | some t =>
    match s.launch? t.part t.launch with
    | some l => escalate s t.part t.launch (l.gangOf t.cast)
    | none => s

/-- The gang of a thread is killed (R357). -/
def killThreadGang (s : State) (tid : Nat) : State :=
  match s.thread? tid with
  | none => s
  | some t =>
    match s.launch? t.part t.launch with
    | some l => killGang s t.part t.launch (l.gangOf t.cast)
    | none => s

end Sys2Proof.Machine
end

