-- ==== Sys2Proof/Machine/Ops.lean ====
section
/-! DEFINITION. The group being executed: its lanes, its close (R77, R152), short stalls (R48), taking an exception
(R325 to R334) and returning from one (R296, R298). -/

namespace Sys2Proof.Machine

namespace State
variable (s : State)

/-! ### The issue context -/

def ctlHere : Bool := isCtlCore s.cur.core
/-- The pour of the issuing entry. -/
def curPour? : Option Pour := s.pour? s.cur.core s.cur.slot
/-- The index of the issuing entry: it stays where it was, unless its own group took entries out of the pour. -/
def entIdx (p : Pour) : Nat :=
  if (p.entries[s.cur.ent]?).any fun e => e.pc = s.cur.pc then s.cur.ent else p.entries.findIdx fun e => e.pc = s.cur.pc
def curEntry? : Option Entry := s.curPour?.bind fun p => p.entries[s.entIdx p]?
/-- The partition of the issuing entry; for a control core the one that holds its slot, if any (R293). -/
def curPart : Nat :=
  if s.ctlHere then ((s.partOfSlot (s.cur.core - 1024)).map (·.first)).getD 64
  else (s.curPour?.map (·.part)).getD 64
def curLaunch? : Option Launch := s.curPour?.bind fun p => s.launch? p.part p.launch
/-- The lanes of the pour (R156). -/
def present : Word := ((s.curPour?).map fun p => p.entries.foldl (fun m e => m ||| e.mask) 0).getD 0
def frontierSize : Nat := ((s.curPour?).map fun p => p.entries.length).getD 0
/-- The active lanes of the issuing entry as a mask. -/
def active : Word := maskOf (s.cur.lanes.map (·.1))
/-- Whether a thread executes the group: on an active lane, or as the shadow of one (R136). -/
def isActive (t : Thread) : Bool := s.cur.lanes.any fun x => x.2 = t.tid || (t.shadow && x.2 = t.twin)
/-- The thread as it stood before the group issued (R77). -/
def before (t : Thread) : Thread := (s.cur.snap.find? fun u => u.tid = t.tid).getD t
def before? (tid : Nat) : Option Thread := (s.thread? tid).map s.before
/-- The lane of an executing thread. -/
def laneOf (t : Thread) : Nat :=
  ((s.cur.lanes.find? fun x => x.2 = t.tid || (t.shadow && x.2 = t.twin)).map (·.1)).getD 0
/-- Change every executing thread by what it was before the group (R86). -/
def eachThread (f : Thread → Thread → Thread) : State :=
  { s with threads := s.threads.map fun t => if s.isActive t then f (s.before t) t else t }
/-- The lowest active lane of the entry with its thread: the issuing lane (R239). -/
def issuing? : Option (Nat × Thread) :=
  (s.cur.lead.orElse fun _ => s.cur.lanes.head?).bind fun x => (s.before? x.2).map fun t => (x.1, t)

end State

/-! ### A word's meaning and how it is run (R77, R78) -/

/-- What a word does: the trap it finds for a lane, what it waits for, its effect on the active lanes. -/
structure Sem where
  chk : State → Nat → Thread → Option LaneTrap := fun _ _ _ => none
  /-- What its first try leaves behind even where it then waits. -/
  pre : State → State := fun s => s
  wait : State → Option Wait := fun _ => none
  eff : State → State

/-- A trap with the word as its information (R78, R331). -/
def wordTrap (s : State) (lane tid : Nat) (code : TrapCode) : LaneTrap :=
  { lane, tid, code, info := (0 : BitVec 32) ++ s.cur.word, fault := none, store := none }

/-- A trap of steps 1 to 3 of R78: the word and its position. -/
def staticTrap (s : State) (lane tid : Nat) (code : TrapCode) : LaneTrap :=
  { lane, tid, code, info := BitVec.ofNat 64 (s.cur.word.toNat + s.cur.pos * 2 ^ 32), fault := none, store := none }

/-- Record the traps that a word finds for lanes without one, and its wait. -/
def noteWord (sem : Sem) (s : State) : State :=
  let ts := s.cur.lanes.filterMap fun x =>
    if s.cur.traps.any fun k => k.lane = x.1 then none
    else (s.thread? x.2).bind fun t => sem.chk s x.1 (s.before t)
  s.updCur fun c => { c with traps := c.traps ++ ts }

/-- Lanes with a trap leave the group; the others go on (R78). -/
def dropTrapped (s : State) : State :=
  s.updCur fun c => { c with lanes := c.lanes.filter fun x => !(c.traps.any fun k => k.lane = x.1) }

/-! ### Fault entries (R332 to R334) -/

/-- The bytes of a fault entry (R333). -/
def faultBytes (fid src ty cluster buf off launch pc lanes done region : Nat) (iter : List Nat) : List Byte :=
  leBytes 64 (packBits ([(32, fid), (4, src), (3, ty), (1, 0), (7, cluster), (1, 0), (16, buf), (48, off), (16, launch),
    (32, pc), (32, lanes), (32, done)] ++ (List.range 5).map (fun k => (32, iter.getD k 0)) ++
    [(32, region), (92, 0), (4, 1)]))

/-- The next fault id that is not outstanding (R333). -/
def nextFid (p : Part) : Nat :=
  let cand (i : Nat) : Nat := (p.nextFid - 1 + i) % (2 ^ 31 - 1) + 1
  match (List.range (p.faults.length + 1)).find? fun i => !(p.faults.any fun f => f.fid = cand i) with
  | some i => cand i
  | none => cand 0

/-- The pointer of an entry of the fault ring (R334). -/
def frqPtr (p : Part) (ix : Nat) : Nat := ptrAdd (bitsN p.frq.toNat 63 12 * 4096) (64 * ix)
def frqSize (p : Part) : Nat := 2 ^ (min (bitsN p.frq.toNat 3 0) 12 + 4)

/-- A fault entry whose write a router drops (R383). -/
def missFault (s : State) (part : Nat) : State :=
  match s.part? part with
  | some p => countLost s part .store (frqPtr p p.frqix) 64
  | none => s

/-- Post a fault entry (R334): the new state with its fault id and index; none where the entry is not free or the write
would fail. -/
def postFault (s : State) (part slot src ty cluster buf off launch pc lanes done region : Nat) (iter : List Nat) :
    Option (State × Nat × Nat) :=
  match s.part? part with
  | none => none
  | some p =>
    match devLocate s part .store (frqPtr p p.frqix) 64 with
    | .trap _ => none
    | .ok _ k =>
      if bitsN (homePeek s k 64) 511 508 ≠ 0 then none
      else
        let fid := nextFid p
        let ix := p.frqix
        let s := devStore s k 64 (leNat (faultBytes fid src ty cluster buf off launch pc lanes done region iter))
        let s := s.updPart part fun p =>
          { p with frqix := (ix + 1) % frqSize p, nextFid := fid % (2 ^ 31 - 1) + 1, faults := p.faults ++ [{ fid, ix }] }
        some (raiseCtl s slot 0, fid, ix)

/-! ### Taking an exception (R298, R325, R326, R328, R329) -/

/-- `TRAPCAUSE` from its fields (R295). -/
def trapCauseOf (code : TrapCode) (prio : BitVec 4) (level : Level) : Word :=
  BitVec.ofNat 32 (code.toNat + prio.toNat * 2 ^ 8 + level.rank * 2 ^ 14)

/-- What entry to the handler writes in the trapping thread (R326). -/
def Thread.enterHandler (t : Thread) (now : Nat) (pc : Word) (code : TrapCode) (prio : BitVec 4) (info : DWord)
    (buf : Nat) : Thread :=
  { t with trappc := pc, trapcause := trapCauseOf code prio .user, trapinfo := info, level := .sup, trapClass := true,
           hbuf := buf, hstart := now }

/-- Place lanes at a PC of the current pour, then apply R45. -/
def placeLanes (s : State) (core slot : Nat) (pc : Word) (prio : BitVec 4) (mask : Word) (buf : Nat) : State :=
  let s := s.updPour core slot fun p => { p with entries := placeIn p.entries pc prio mask buf }
  splitWhile s core slot 33

/-- A layer entry of a control core (R298): the layer's bank is written, its activation begins, and the thread goes on
at the handler's packet in the layer. -/
def enterLayer (s : State) (slot : Nat) (into : Level) (ret : Word) (prio : BitVec 4) (code : TrapCode) (info : DWord) :
    State :=
  match s.ctl? slot with
  | none => s
  | some c =>
    match s.thread? c.tid with
    | none => s
    | some t =>
      let upd (b : Bank) : Bank := { b with trappc := ret, trapcause := trapCauseOf code prio t.level, trapinfo := info }
      let c' : Ctl := if into = .mon then { c with bankM := upd c.bankM } else { c with bankS := upd c.bankS }
      let vec := if into = .mon then c.bankM.trapvec else c.bankS.trapvec
      let s := s.updCtl slot fun _ => { c' with active := into :: c.active, waiting := false }
      let s := s.updThread c.tid fun t => { t with level := into, hbuf := bitsN vec.toNat 31 16 }
      let e : Entry :=
        { pc := BitVec.ofNat 32 (12 * bitsN vec.toNat 15 0), prio := 15, mask := 1, buf := bitsN vec.toNat 31 16,
          stall := none, split := none }
      s.updPour (1024 + slot) 0 fun p => { p with entries := [e] }

/-- `TRAPINFO` of a trap of a control core: where the manual states none for the code, a free value. -/
def openInfo (s : State) (code : TrapCode) (info : DWord) : State × DWord :=
  if code = Trap.page ∨ code = Trap.poison ∨ code = Trap.defstore then
    ({ s with free := s.free + 2 }, Config.value32 s.free ++ Config.value32 (s.free + 1))
  else (s, info)

/-- A trap enters M, which handles it from now on. -/
def enterMon (s : State) (slot : Nat) (pc : Word) (prio : BitVec 4) (code : TrapCode) (info : DWord) : State :=
  (enterLayer s slot .mon pc prio code info).updCtl slot fun c => { c with mTrap := some c.active.length }

/-- A trap in a control core (R298, R346): U enters S, S and M enter M; a trap in M while M handles an earlier one takes
the core out of service and resets the partition. -/
def trapControl (s : State) (slot : Nat) (pc : Word) (prio : BitVec 4) (code : TrapCode) (info : DWord) : State :=
  let (s, info) := openInfo s code info
  match s.ctl? slot with
  | none => s
  | some c =>
    match (s.thread? c.tid).map Thread.level with
    | some .user => enterLayer s slot .sup pc prio code info
    | some .mon =>
      if c.mTrap.isSome then
        let s := s.updCtl slot fun c => { c with oos := true, waiting := true }
        let s := clearReadyFrom s slot 0
        match s.partOfSlot slot with
        | some p => resetPart s p.first
        | none => s
      else enterMon s slot pc prio code info
    | _ => enterMon s slot pc prio code info

/-- A trap uses up the answer of a home that it comes from (R252, R260, R283, R284). -/
def dropAnswers (s : State) (tid : Nat) : State :=
  { s.updThread tid (fun t => { t with stale := [] }) with
    sgs := s.sgs.filter (fun g => !(g.tid = tid && (g.stage = .stale || match g.stage with | .returned _ => true | _ => false))),
    bufOps := s.bufOps.filter (fun b => !(b.tid = tid && match b.stage with | .refused _ => true | _ => false)) }

/-- A handler-taken trap of one lane of a pour (R326, R327, R329): entry to the partition's handler, or escalation for a
nested trap and for a partition without a handler. -/
def enterTrap (s : State) (core slot : Nat) (pc : Word) (prio : BitVec 4) (from' : Nat) (k : LaneTrap) : State :=
  match s.thread? k.tid with
  | none => s
  | some t =>
    match s.part? t.part with
    | none => s
    | some p =>
      let buf := bitsN p.trapvec.toNat 31 16
      if t.trapClass ∨ buf = 0 then
        escalateThread (s.updPour core slot fun p =>
          { p with entries := placeIn p.entries pc prio (laneBit k.lane) from' }) k.tid
      else
        let s := (dropAnswers s k.tid).updBoth k.tid fun t => t.enterHandler s.time pc k.code prio k.info buf
        placeLanes s core slot (BitVec.ofNat 32 (12 * bitsN p.trapvec.toNat 15 0)) 15 (laneBit k.lane) buf

/-- Where a pool-stalled lane waits: with the lanes that wait there for a wake of the same type (R44, R64), else as an
entry of its own. -/
def stallLane (es : List Entry) (lane : Nat) (i : RecInit) (st : Stall) : List Entry :=
  let same (e : Entry) : Bool := e.pc = i.resume && e.buf = i.buf && e.split.isNone &&
    e.stall.any fun x => x.pool.isSome && x.wtype = i.wtype && x.await = st.await && (!x.await || x.start = st.start)
  let join (e : Entry) : Entry :=
    { e with mask := e.mask ||| laneBit lane, prio := if e.prio < i.prio then i.prio else e.prio,
             stall := e.stall.map fun x => { x with keys := setL x.keys lane i.key } }
  if es.any same then updL same join es
  else es ++ [{ pc := i.resume, prio := i.prio, mask := laneBit lane, buf := i.buf, stall := some st, split := none }]

/-- A lane becomes a record, or waits on the same condition in its pour slot, pool-stalled, where the pool has no room
(R64). -/
def recordOrStall (s : State) (core slot lane tid : Nat) (i : RecInit) : State :=
  match s.thread? tid with
  | none => s
  | some t =>
    let await := s.awaitsHome tid
    match (if await then none else convert s t.part t.launch core [(lane, tid)] i) with
    | some s => s
    | none =>
      let st : Stall :=
        { start := s.time, tried := s.time, wtype := i.wtype, key := i.key, keys := [], pool := some s.nextId, await }
      s.bumpId.updPour core slot fun p => { p with entries := stallLane p.entries lane i st }

/-- A lane that takes a page fault waits in its pour slot for the rest of the cy and becomes a record in the next
(R332). -/
def recordNext (s : State) (core slot lane : Nat) (i : RecInit) : State :=
  let st : Stall :=
    { start := s.time, tried := s.time, wtype := i.wtype, key := i.key, keys := [], pool := some s.nextId, await := true }
  s.bumpId.updPour core slot fun p => { p with entries := stallLane p.entries lane i st }

/-- The 4 KiB-aligned span of a fault (R332). -/
def spanOf (x : Nat × Nat × Nat × Nat) : Nat × Nat := (x.1, x.2.1 / 4096)

/-- The lowest faulting offset of a span. -/
def lowestOf (f : Nat × Nat × Nat × Nat) (ks : List LaneTrap) : Nat :=
  ((ks.flatMap fun k => k.fault.toList ++ k.also).filter fun x => spanOf x = spanOf f).foldl (fun m x => min m x.2.1) f.2.1

/-- The entry of one span (R333): the lanes that wait on it and the lanes that took neither trap nor fault. -/
def postPage (s : State) (core tid : Nat) (pc done lanes : Word) (f : Nat × Nat × Nat × Nat) (ks : List LaneTrap) :
    Option (State × Nat × Nat) :=
  let l := (s.thread? tid).bind fun t => s.launch? t.part t.launch
  let part := ((s.thread? tid).map Thread.part).getD 64
  postFault s part (slotOfCluster (clusterOf core)) f.2.2.1 f.2.2.2 (clusterOf core) f.1 (lowestOf f ks)
    ((l.map (·.num)).getD 0) pc.toNat lanes.toNat done.toNat ((l.map Launch.region).getD 0) []

/-- An entry of a thread's fault whose write a router drops (R383). -/
def missPage (s : State) (tid : Nat) : State := missFault s (((s.thread? tid).map Thread.part).getD 64)

/-- The entries of spans on which no lane waits, since each of their lanes waits on a lower one. -/
def postOthers (s : State) (core : Nat) (pc done : Word) (all ks : List LaneTrap) : State :=
  (ks.foldl (fun (acc : State × List (Nat × Nat)) k => k.also.foldl (fun acc f =>
    if acc.2.contains (spanOf f) then acc
    else ((((postPage acc.1 core k.tid pc done 0 f all).map (·.1)).getD (missPage acc.1 k.tid)), spanOf f :: acc.2)) acc)
    (s, all.filterMap fun k => k.fault.map spanOf)).1

/-- Page faults of a group (R332): lanes that fault on one 4 KiB span of one buffer share an entry. A ring that takes no
entry leaves records that fault again (R334). -/
def takePages (s : State) (core slot : Nat) (e : Entry) (pc : Word) (done : Word) (ks : List LaneTrap) : Nat → State
  | 0 => s
  | n + 1 =>
    match ks with
    | [] => s
    | k :: _ =>
      match k.fault with
      | none => s
      | some f =>
        let same (x : LaneTrap) : Bool := x.fault.any fun g => spanOf g = spanOf f
        let mine := ks.filter same
        let base : RecInit :=
          { kind := 2, wtype := 5, key := 0, resume := pc, prio := e.prio, buf := e.buf, cluster := clusterOf core }
        let s := match postPage s core k.tid pc done (maskOf (mine.map (·.lane))) f ks with
          | some (s, fid, ix) =>
            mine.foldl (fun s x => recordNext s core slot x.lane { base with key := fid, faultix := ix }) s
          | none =>
            mine.foldl (fun s x => recordOrStall s core slot x.lane x.tid { base with kind := 0, wtype := 0 }) (missPage s k.tid)
        takePages s core slot e pc done (ks.filter fun x => !same x) n

/-- The gang kill of `POISON` and `PROTECT` (R357, R358). -/
def takeKill (s : State) (core : Nat) (k : LaneTrap) : State :=
  killThreadGang (if k.code = Trap.protect && !k.charged then addSusp s core 16 else s) k.tid

/-- TAKING AN EXCEPTION: the lanes of a group that trap are dealt with by how their codes are taken (R325). `e` is the
entry they leave and `done` the lanes that took no trap. -/
def takeTraps (s : State) (core slot : Nat) (e : Entry) (pc : Word) (done : Word) (ks : List LaneTrap) : State :=
  if isCtlCore core then
    match ks with
    | k :: _ => trapControl s (core - 1024) pc e.prio k.code k.info
    | [] => s
  else
    let pages := ks.filter fun k => k.code = Trap.page
    let stores := ks.filter fun k => k.code = Trap.defstore
    let kills := ks.filter fun k => k.code = Trap.poison ∨ k.code = Trap.protect
    let again := ks.filter fun k => k.code = Trap.retry
    let hand := ks.filter fun k =>
      !(k.code = Trap.page ∨ k.code = Trap.defstore ∨ k.code = Trap.poison ∨ k.code = Trap.protect ∨ k.code = Trap.retry)
    let s := again.foldl (fun s k =>
      recordOrStall s core slot k.lane k.tid
        { kind := 0, wtype := 0, key := 0, resume := pc, prio := e.prio, buf := e.buf, cluster := clusterOf core }) s
    let s := takePages s core slot e pc done pages 33
    let s := postOthers s core pc done pages pages
    let s := stores.foldl (fun s k =>
      recordOrStall s core slot k.lane k.tid
        { kind := 2, wtype := 5, key := (k.store.map (·.1)).getD 0, resume := pc, prio := e.prio, buf := e.buf,
          cluster := clusterOf core, faultix := (k.store.map (·.2)).getD 0 }) s
    let s := hand.foldl (fun s k => enterTrap s core slot pc e.prio e.buf k) s
    kills.foldl (fun s k => takeKill s core k) s

/-! ### RETURNING FROM AN EXCEPTION (R296, R298) -/

/-- What `ERET` changes in a thread of a compute core (R296, R328): the level and the end of the `TRAP` class. -/
def Thread.leaveHandler (t : Thread) : Thread :=
  { t with level := Level.ofRank (min (bitsN t.trapcause.toNat 15 14) 2), trapClass := false, hbuf := 0 }

/-- The layers still entered once a layer is left. -/
def Ctl.rest (c : Ctl) (layer : Level) : List Level :=
  if c.active.contains layer then c.active.drop (c.active.findIdx (fun l => l = layer) + 1) else c.active

/-- A control core with some activations left: a trap that M handled is over once its activation is. -/
def Ctl.leave (c : Ctl) (rest : List Level) : Ctl :=
  { c with active := rest, mTrap := if c.mTrap.any (fun n => decide (rest.length < n)) then none else c.mTrap }

/-- A control core goes on where a bank says, at its `PLEVEL` (R298); the layer's activation ends. -/
def returnLayer (s : State) (slot : Nat) (layer : Level) : State :=
  match s.ctl? slot with
  | none => s
  | some c =>
    let b := if layer = .mon then c.bankM else c.bankS
    let back := Level.ofRank (bitsN b.trapcause.toNat 15 14)
    let s := s.updCtl slot fun c =>
      { c.leave (c.rest layer) with idle := c.idle && !(c.rest layer).isEmpty, waiting := false }
    let vec := if back = .mon then c.bankM.trapvec else c.bankS.trapvec
    let buf := bitsN vec.toNat 31 16
    let s := s.updThread c.tid fun t => { t with level := back, hbuf := buf }
    let e : Entry :=
      { pc := b.trappc &&& 0xFFFFFFFC, prio := BitVec.ofNat 4 (bitsN b.trapcause.toNat 11 8), mask := 1, buf, stall := none,
        split := none }
    s.updPour (1024 + slot) 0 fun p => { p with entries := [e] }

/-! ### Closing a group (R77, R80, R152) -/

/-- Transfers in ascending order of target (R152). -/
def insertTarget (x : Target) : List Target → List Target
  | [] => [x]
  | y :: ys => if x.pc.toNat ≤ y.pc.toNat then x :: y :: ys else y :: insertTarget x ys

/-- The frontier after the group (R152): what remains falls through, then each target is placed. -/
def frontierAfter (c : Cur) (es : List Entry) (e : Entry) : List Entry :=
  let live := maskOf (c.lanes.map (·.1))
  let moved := maskOf (c.transfers.map (·.lane))
  let rest := e.mask &&& live &&& ~~~c.gone &&& ~~~moved
  let es := placeIn es c.fall (c.newPrio.getD e.prio) rest e.buf
  (c.transfers.foldr insertTarget []).foldl (fun es t => placeIn es t.pc t.prio (laneBit t.lane) t.buf) es

/-- The ends of segments and the changes of layer (R77, R298): after the other words of the group. -/
def endLane (core slot : Nat) (prio : BitVec 4) (s : State) (x : Nat × EndAct) : State :=
  match x.2 with
  | .enter into ret code info => enterLayer s (core - 1024) into ret prio code info
  | .back layer => returnLayer s (core - 1024) layer
  | .exit => exitThread s x.1
  | .record i => recordOrStall s core slot i.lane x.1 i
  | .forward i cl convoy =>
    let s := recordOrStall s core slot i.lane x.1 i
    serveEntryLists ((leaveLadle s x.1).updRec x.1 fun r => { r with transit := some cl, convoy })

/-- Drop a pour without entries: its slot is free (R44). -/
def freePour (s : State) (core slot : Nat) : State :=
  { s with pours := s.pours.filter fun p => !(p.core = core && p.slot = slot && p.entries.isEmpty) }

/-- The issue context after a group. -/
def Cur.closed (c : Cur) : Cur :=
  { c with phase := .alone, lanes := [], traps := [], wait := none, transfers := [], newPrio := none, gone := 0,
           ends := [], stall := 0, snap := [], lead := none, acted := 0 }

/-- A stopped `MMAL` goes on in the cy in which the pour restored from its thread's record first tries a group, on that
pour's core (R351). -/
def restartLoops (s : State) (core slot : Nat) : State :=
  let here (tid : Nat) : Bool :=
    (s.thread? tid).any fun t => match t.loc with | .lane c sl _ => c = core && sl = slot | _ => false
  let p (o : TileOp) : Bool := o.stopped && o.kind = .mmal && here o.issuer
  { s with tileOps := updL p (fun o => { o with stopped := false, core }) s.tileOps }

/-- The first try of a group of a restored pour: its records' pool space is freed, its loops go on (R61, R351). -/
def firstTry (s : State) (p : Pour) (core slot : Nat) : State :=
  if p.refs.isEmpty then s else restartLoops (s.updPour core slot fun p => { p with refs := [] }) core slot

/-- Blocks held for threads whose lane takes a trap are let go (R195). -/
def dropTrappedBlocks (s : State) : State :=
  { s with held := s.held.filter fun b => !(s.cur.traps.any fun k => k.tid = b.tid) }

/-- The group has issued for its live lanes (R77, R80, R152): the frontier changes, segments end, traps are taken, and
a frontier of more than 8 entries is cut (R45). -/
def closeGroup (s : State) : State :=
  let c := s.cur
  match s.curPour?, s.curEntry? with
  | some p, some e =>
    let es := frontierAfter c (p.entries.eraseIdx (s.entIdx p)) e
    let issued := !c.lanes.isEmpty
    let acted := s.threads.countP s.isActive
    let s := s.updPour c.core c.slot fun p =>
      { p with entries := es, ready := s.time + 1 + (if issued then c.stall else 0), last := s.time, readySince := none,
               promoted := false }
    let s := dropTrappedBlocks (if issued then firstTry s p c.core c.slot else s)
    let s := c.ends.foldl (endLane c.core c.slot e.prio) s
    let s := takeTraps s c.core c.slot e c.pc (maskOf (c.lanes.map (·.1))) c.traps
    let s := splitWhile s c.core c.slot 33
    (freePour s c.core c.slot).updCur fun k => { k.closed with acted }
  | _, _ => s.updCur Cur.closed

/-- The group is refused issue (R48): the entry, without the lanes that trap, waits; a wait of the same type keeps its
start, and an entry that waits for the pool keeps its place in that order (R64). -/
def stallGroup (s : State) (w : Wait) : State :=
  let c := s.cur
  match s.curPour?, s.curEntry? with
  | some p, some e =>
    let live := maskOf (c.lanes.map (·.1))
    let start := match e.stall with
      | some st => if st.wtype = w.wtype then st.start else s.time
      | none => s.time
    let e' : Entry :=
      { e with mask := e.mask &&& live,
               stall := some { start, tried := s.time, wtype := w.wtype, key := w.key, keys := w.keys,
                               pool := e.stall.bind (·.pool), need := w.need } }
    let s := s.updPour c.core c.slot fun _ => { p with entries := p.entries.set (s.entIdx p) e' }
    let s := dropTrappedBlocks (firstTry s p c.core c.slot)
    let s := takeTraps s c.core c.slot e c.pc 0 c.traps
    (freePour s c.core c.slot).updCur Cur.closed
  | _, _ => s.updCur Cur.closed

/-- Keep the greatest stall count of the group (R80). -/
def keepStall (h : Hdr) (s : State) : State := s.updCur fun c => { c with stall := max c.stall h.s.toNat }

/-- Run a word (R77, R78): as a group of its own, or the checks or the effect of a word of a larger group. -/
def runWord (h : Hdr) (sem : Sem) (s : State) : State :=
  match s.cur.phase with
  | .check => noteWord sem s
  | .hold =>
    let s := sem.pre s
    match s.cur.wait with
    | some _ => s
    | none => s.updCur fun c => { c with wait := sem.wait s }
  | .apply => sem.eff (keepStall h s)
  | .alone =>
    let s := dropTrapped (noteWord sem s)
    if s.cur.lanes.isEmpty then closeGroup s
    else
      let s := sem.pre s
      match sem.wait s with
      | some w => stallGroup s w
      | none => closeGroup (sem.eff (keepStall h s))

/-! ### Effects that many words share -/

/-- A fixed-latency result into a v register of every executing thread (R81, R86). -/
def putResult (lat : Nat) (d : Reg) (f : Thread → Word) (s : State) : State :=
  s.eachThread fun b t => t.putV s.time lat d (f b)

/-- A fixed-latency result into a pair. -/
def putPair (lat : Nat) (d : PairNo) (f : Thread → DWord) (s : State) : State :=
  s.eachThread fun b t => t.putW s.time lat d (f b)

/-- A fixed-latency result into a predicate. -/
def putPred (lat : Nat) (d : PredNo) (f : Thread → Bool) (s : State) : State :=
  s.eachThread fun b t => t.putP s.time lat d (f b)

/-- A variable-latency result (R82): its registers become pending, and a result is on its way to each executing
thread. -/
def sendResult (ws : Thread → List (RegRef × Word)) (s : State) : State :=
  let ts := s.threads.filter s.isActive
  let rs : List PendRes := (ts.zipIdx).map fun x =>
    { id := s.nextId + x.2, tid := x.1.tid, writes := ws (s.before x.1), both := false }
  let s' := s.eachThread fun b t => (ws b).foldl (fun t w => t.pend w.1) t
  { s' with nextId := s.nextId + ts.length, results := s.results ++ rs }

/-- Send the active lanes to targets (R152). -/
def transfer (f : Thread → Option (Word × BitVec 4)) (s : State) : State :=
  let e := s.curEntry?
  let ts := s.cur.lanes.filterMap fun x =>
    (s.before? x.2).bind fun t => (f t).map fun y =>
      ({ lane := x.1, pc := y.1, prio := y.2, buf := (e.map (·.buf)).getD 0 } : Target)
  s.updCur fun c => { c with transfers := c.transfers ++ ts }

/-- `PROTECT` where the two physical lanes of a visible lane differ in what a word compares (R136, R202, R272). -/
def protectIf {α : Type} [DecidableEq α] (f : Thread → α) (s : State) (lane : Nat) (t : Thread) : Option LaneTrap :=
  match s.twinOf t with
  | some u => if f t = f (s.before u) then none else some (wordTrap s lane t.tid Trap.protect)
  | none => none

/-- The first of several checks that finds a trap. -/
def firstTrap : List (Option LaneTrap) → Option LaneTrap
  | [] => none
  | some k :: _ => some k
  | none :: r => firstTrap r

/-- The level check of a privileged word (R95). -/
def privIf (need : Level) (s : State) (lane : Nat) (t : Thread) : Option LaneTrap :=
  if t.level.rank < need.rank then some (staticTrap s lane t.tid Trap.priv) else none

/-- The cast of a thread is selected for assay (R360). -/
def State.selected (s : State) (t : Thread) : Bool := (s.cast? t.part t.launch t.cast).any fun c => c.assay.isSome

/-- `ASSAYVIOL` in a selected cast (R211, R272). -/
def assayIf (s : State) (lane : Nat) (t : Thread) : Option LaneTrap :=
  if s.selected t then some (wordTrap s lane t.tid Trap.assayviol) else none

end Sys2Proof.Machine
end

