-- ==== Sys2Proof/Machine/Flags.lean ====
section
/-! DEFINITION. How register forms compute: fixed-latency and variable-latency results, comparisons into predicates, and
the integer functions of a lane (R81, R117, R141 to R151). The part has no flags beside the predicates (R112). -/

namespace Sys2Proof.Machine

/-- What a meaning answers. -/
abbrev Outcome := Host.Outcome State Fault Refusal

/-! ### Shapes of register forms -/

/-- The bits that fault injection inverts in every V-pipe result of the issuing core (R368). -/
def finjFlip (s : State) : Word :=
  match s.part? s.curPart with
  | some p =>
    if bitsN p.finj.toNat 31 30 = 1 ∧ bitsN p.finj.toNat 25 16 = s.cur.core then BitVec.twoPow 32 (bitsN p.finj.toNat 4 0)
    else 0
  | none => 0

/-- A fixed-latency V-pipe result (R81, R86, R368). -/
def putV (lat : Nat) (d : Reg) (f : Thread → Word) (s : State) : State :=
  putResult lat d (fun t => f t ^^^ finjFlip s) s

/-- A fixed-latency result of the V pipe in a v register. -/
def fixedV (h : Hdr) (lat : Nat) (d : Reg) (f : Nat → Thread → Word) (s : State) : State :=
  runWord h { eff := fun s => putV lat d (f s.time) s } s

/-- A fixed-latency result of the V pipe in a pair. -/
def fixedW (h : Hdr) (lat : Nat) (d : PairNo) (f : Nat → Thread → DWord) (s : State) : State :=
  runWord h { eff := fun s => putPair lat d (fun t => f s.time t ^^^ (finjFlip s ++ finjFlip s)) s } s

/-- A fixed-latency result in a predicate. -/
def fixedP (h : Hdr) (lat : Nat) (p : PredNo) (f : Nat → Thread → Bool) (s : State) : State :=
  runWord h { eff := fun s => putPred lat p (f s.time) s } s

/-- A variable-latency result of the V pipe in a v register (R82). -/
def varV (h : Hdr) (d : Reg) (f : Nat → Thread → Word) (s : State) : State :=
  runWord h { eff := fun s => sendResult (fun t => [(.v d, f s.time t ^^^ finjFlip s)]) s } s

def alu1 (h : Hdr) (lat : Nat) (d a : Reg) (f : Word → Word) (s : State) : State :=
  fixedV h lat d (fun now t => f (t.rdV now a)) s

def alu2 (h : Hdr) (lat : Nat) (d a b : Reg) (f : Word → Word → Word) (s : State) : State :=
  fixedV h lat d (fun now t => f (t.rdV now a) (t.rdV now b)) s

def alu3 (h : Hdr) (lat : Nat) (d a b c : Reg) (f : Word → Word → Word → Word) (s : State) : State :=
  fixedV h lat d (fun now t => f (t.rdV now a) (t.rdV now b) (t.rdV now c)) s

/-- `SEL` (R145). -/
def select (h : Hdr) (d : Reg) (p : PredNo) (a b : Reg) (s : State) : State :=
  fixedV h 2 d (fun now t => if t.rdP now p then t.rdV now a else t.rdV now b) s

/-! ### Predicate results (R149 to R151) -/

/-- `CMP` on registers. -/
def compare (h : Hdr) (p : PredNo) (a b : Reg) (f : Word → Word → Bool) (s : State) : State :=
  fixedP h 2 p (fun now t => f (t.rdV now a) (t.rdV now b)) s

/-- `CMP` on pairs. -/
def compareW (h : Hdr) (p : PredNo) (a b : PairNo) (f : DWord → DWord → Bool) (s : State) : State :=
  fixedP h 2 p (fun now t => f (t.rdW now a) (t.rdW now b)) s

/-- `CMPI`. -/
def test (h : Hdr) (p : PredNo) (a : Reg) (f : Word → Bool) (s : State) : State :=
  fixedP h 2 p (fun now t => f (t.rdV now a)) s

/-- The predicates as a word (R151). -/
def predWord (now : Nat) (t : Thread) : Word :=
  (List.range 8).foldl (fun w i => setBit w i (t.rdP now (BitVec.ofNat 3 i))) 0

/-- Every predicate p0 to p6 from the bits of a register (R151). -/
def putPreds (a : Reg) (s : State) : State :=
  s.eachThread fun b t =>
    (List.range 7).foldl (fun t i => t.putP s.time 2 (BitVec.ofNat 3 i) ((b.rdV s.time a).getLsbD i)) t

/-! ### Integer functions (R117, R141 to R144, R148) -/

/-- The signed and the unsigned 64-bit product. -/
def mulI (x y : Word) : DWord := x.signExtend 64 * y.signExtend 64
def mulN (x y : Word) : DWord := x.setWidth 64 * y.setWidth 64

/-- Division and remainder (R117): by 0, and of −2^31 by −1. -/
def divI (x y : Word) : Word := if y = 0 then BitVec.allOnes 32 else x.sdiv y
def divN (x y : Word) : Word := if y = 0 then BitVec.allOnes 32 else x / y
def remI (x y : Word) : Word := if y = 0 then x else x.srem y
def remN (x y : Word) : Word := if y = 0 then x else x % y

def shlN (x : Word) (n : Nat) : Word := if 32 ≤ n then 0 else x <<< n
def shrN (x : Word) (n : Nat) : Word := if 32 ≤ n then 0 else x >>> n
def sraN (x : Word) (n : Nat) : Word := x.sshiftRight (min n 31)
def rotlN (x : Word) (n : Nat) : Word := x.rotateLeft (n % 32)

/-- Bit i is bit 31 − i. -/
def brevW (x : Word) : Word := (List.range 32).foldl (fun w i => setBit w i (x.getLsbD (31 - i))) 0
/-- The number of leading zeros. -/
def clzN (x : Word) : Nat := 32 - (if x = 0 then 0 else Nat.log2 x.toNat + 1)

/-- Position and width of a field (R143). -/
def fieldPos (b : Word) : Nat := bitsN b.toNat 4 0
def fieldWidth (b : Word) : Nat := min (bitsN b.toNat 13 8) 32

/-- `BFX` (R143). -/
def bfx (signed : Bool) (a b : Word) : Word :=
  let x : Nat := if signed then (a.signExtend 64).toNat else a.toNat
  let f := x / 2 ^ fieldPos b % 2 ^ fieldWidth b
  if fieldWidth b = 0 then 0
  else if signed then BitVec.ofInt 32 (sgn (fieldWidth b) f) else BitVec.ofNat 32 f

/-- `BFI` (R143). -/
def bfi (d a b : Word) : Word :=
  let m : Word := (BitVec.ofNat 32 (2 ^ fieldWidth b - 1)) <<< fieldPos b
  (d &&& ~~~m) ||| ((a <<< fieldPos b) &&& m)

/-- `ADDOF` (R148). -/
def addOffset (p : DWord) (b : Word) : DWord :=
  p.extractLsb' 48 16 ++ (p.extractLsb' 0 48 + b.signExtend 48)

/-- `MKPTR` (R148). -/
def makePointer (p : DWord) (b : Word) : DWord := b.extractLsb' 0 16 ++ p.extractLsb' 0 48

end Sys2Proof.Machine
end

