-- ==== Sys2Proof/Machine/Operands.lean ====
section
/-! DEFINITION. Operand forms: the registers that a word reads and writes (R76, R82, R83, R85), the
addresses of memory operands and the extension of loaded data (R89, R203, R204). -/

namespace Sys2Proof.Machine

open Sys2Proof (Instr)

/-- The header of a word; events have none. -/
def hdrI (i : Instr) : Hdr :=
  match encodeWord i with
  | some w => hdrOf w
  | none => ⟨0, 0⟩

def vv (r : Reg) : List RegRef := [.v r]
def ww (n : PairNo) : List RegRef := [.v (pairLo n), .v (pairHi n)]
def pp (n : PredNo) : List RegRef := [.p n]
def hh (a : BitVec 6) : List RegRef := [.h (a.extractLsb' 0 3)]
/-- `n` registers from a register on. -/
def blk (r : Reg) (n : Nat) : List RegRef := (List.range n).map fun i => .v (r + BitVec.ofNat 6 i)

/-- The registers of the data of an access of type `ty` (R203). -/
def dataRegs (ty : BitVec 3) (r : Reg) : List RegRef :=
  match ty.toNat with
  | 5 => blk r 2
  | 6 => blk r 4
  | _ => vv r

/-- Whether a CSR is 64 bits wide (R293). -/
def csrWide (r : BitVec 12) : Bool :=
  r = 0x103 || r = 0x105 || r = 0x108 || r = 0x10A || r = 0x10C || r = 0x111 || r = 0x120 || r = 0x121 ||
    (decide (0x208 ≤ r.toNat) && decide (r.toNat ≤ 0x217))

/-- The registers a CSR form moves. -/
def csrRegs (r : BitVec 12) (d : Reg) : List RegRef := if csrWide r then blk d 2 else vv d

/-- The registers of an A block (R263). -/
def aBlock (ty : BitVec 3) (a : Reg) : List RegRef :=
  if 60 ≤ a.toNat then []
  else match ty.toNat with
    | 2 => blk a 17
    | 3 => blk a 25
    | _ => blk a 16

/-- The registers a word reads. -/
def reads : Instr → List RegRef
  | .sleep _ a | .btinv _ a | .dig _ a | .v2p _ a | .fwait _ a | .bwaitFull _ a | .bwaitFree _ a | .btake _ a
  | .bfree _ a | .trls _ a => vv a
  | .sgleave _ a | .sgdrop _ a => hh a
  | .trap _ _ => blk 0 6
  | .launch _ _ a | .pix _ _ a | .ldaB32 _ _ a | .ldaSys _ _ a | .run _ _ a | .ldaB64 _ _ a | .prefL1 _ a
  | .prefL2 _ a => ww a
  | .fwdh _ _ a | .abs _ _ a | .neg _ _ a | .clz _ _ a | .ctz _ _ a | .popc _ _ a | .brev _ _ a | .mov _ _ a
  | .kwr _ _ a | .fabs _ _ a | .fneg _ _ a | .frndNe _ _ a | .frndTz _ _ a | .frndDn _ _ a | .frndUp _ _ a
  | .fclass _ _ a | .rcp _ _ a | .rsq _ _ a | .sqrt _ _ a | .exp2 _ _ a | .log2 _ _ a | .sin _ _ a | .cos _ _ a
  | .tanh _ _ a | .rdxAddI32 _ _ a | .rdxAddF32 _ _ a | .rdxMinI32 _ _ a | .rdxMaxI32 _ _ a | .rdxMinF32 _ _ a
  | .rdxMaxF32 _ _ a | .bstat _ _ a | .tstat _ _ a => vv a
  | .sgbar _ _ a => hh a
  | .csrw _ v r | .csrs _ v r | .csrc _ v r => csrRegs r v
  | .macc _ d a b | .bfi _ d a b => vv a ++ vv b ++ vv d
  | .add _ _ a b | .sub _ _ a b | .mul _ _ a b | .mulhiI _ _ a b | .mulhiN _ _ a b | .divI _ _ a b | .divN _ _ a b
  | .remI _ _ a b | .remN _ _ a b | .minI _ _ a b | .minN _ _ a b | .maxI _ _ a b | .maxN _ _ a b | .and _ _ a b
  | .or _ _ a b | .xor _ _ a b | .andn _ _ a b | .orn _ _ a b | .shl _ _ a b | .shr _ _ a b | .sra _ _ a b
  | .rotl _ _ a b | .bfxI _ _ a b | .bfxN _ _ a b | .fadd _ _ a b | .fsub _ _ a b | .fmul _ _ a b | .fmin _ _ a b
  | .fmax _ _ a b | .fcps _ _ a b | .fscale _ _ a b | .hadd2 _ _ a b | .hsub2 _ _ a b | .hmul2 _ _ a b
  | .hmin2 _ _ a b | .hmax2 _ _ a b | .badd2 _ _ a b | .bsub2 _ _ a b | .bmul2 _ _ a b | .bmin2 _ _ a b
  | .bmax2 _ _ a b | .shflIdx _ _ a b | .shflUp _ _ a b | .shflDn _ _ a b | .shflXor _ _ a b | .bcast _ _ a b
  | .tld _ _ a b => vv a ++ vv b
  | .selP0 _ _ a b => vv a ++ vv b ++ pp 0
  | .selP1 _ _ a b => vv a ++ vv b ++ pp 1
  | .selP2 _ _ a b => vv a ++ vv b ++ pp 2
  | .selP3 _ _ a b => vv a ++ vv b ++ pp 3
  | .selP4 _ _ a b => vv a ++ vv b ++ pp 4
  | .selP5 _ _ a b => vv a ++ vv b ++ pp 5
  | .selP6 _ _ a b => vv a ++ vv b ++ pp 6
  | .sgredAddI32 _ _ a b | .sgredAddF32 _ _ a b | .sgredMinI32 _ _ a b | .sgredMaxI32 _ _ a b
  | .sgredMinF32 _ _ a b | .sgredMaxF32 _ _ a b => hh a ++ vv b
  | .shli _ _ a _ | .shri _ _ a _ | .srai _ _ a _ => vv a
  | .add64 _ _ a b | .sub64 _ _ a b | .atomXchg64 _ _ a b => ww a ++ ww b
  | .atomCas64 _ d a b => ww a ++ ww b ++ ww d
  | .mulwI _ _ a b | .mulwN _ _ a b => vv a ++ vv b
  | .addof _ _ a b | .mkptr _ _ a b => ww a ++ vv b
  | .addi _ _ a _ | .andi _ _ a _ | .ori _ _ a _ | .xori _ _ a _ => vv a
  | .cmpEqB32 _ _ a b | .cmpNeB32 _ _ a b | .cmpLtI32 _ _ a b | .cmpLeI32 _ _ a b | .cmpLtN32 _ _ a b
  | .cmpLeN32 _ _ a b | .cmpEqF32 _ _ a b | .cmpNeF32 _ _ a b | .cmpLtF32 _ _ a b | .cmpLeF32 _ _ a b
  | .cmpUnF32 _ _ a b => vv a ++ vv b
  | .cmpEqB64 _ _ a b | .cmpNeB64 _ _ a b | .cmpLtI64 _ _ a b | .cmpLeI64 _ _ a b | .cmpLtN64 _ _ a b
  | .cmpLeN64 _ _ a b => ww a ++ ww b
  | .cmpiEq _ _ a _ | .cmpiNe _ _ a _ | .cmpiLtI _ _ a _ | .cmpiGeI _ _ a _ | .cmpiLtN _ _ a _ | .cmpiGeN _ _ a _ => vv a
  | .cmpiBset _ _ a _ | .cmpiBclr _ _ a _ => vv a
  | .pand _ _ a b | .por _ _ a b | .pxor _ _ a b | .pandn _ _ a b => pp a ++ pp b
  | .pmov _ _ a => pp a
  | .p2v _ _ => [.p 0, .p 1, .p 2, .p 3, .p 4, .p 5, .p 6]
  | .br _ p _ _ _ => pp p
  | .jr _ a _ | .callr _ a _ => vv a
  | .ret _ _ => vv 63
  | .kbal _ _ b | .lrank _ _ b | .lcnt _ _ b | .voteAny _ _ b | .voteAll _ _ b => pp b
  | .ffma _ _ a b c | .hfma2 _ _ a b c | .bfma2 _ _ a b c => vv a ++ vv b ++ vv c
  | .cvt _ _ a _ _ _ _ | .cvtF32F16hi _ _ a _ _ | .cvtF32Bf16hi _ _ a _ _ => vv a
  | .cvtF16x2F32x2 _ _ a _ _ | .cvtBf16x2F32x2 _ _ a _ _ => ww a
  | .ld _ _ w _ _ _ => ww w
  | .ldx _ _ w _ _ b => ww w ++ vv b
  | .st _ v w t _ _ => ww w ++ dataRegs t v
  | .stx _ v w t _ b => ww w ++ vv b ++ dataRegs t v
  | .atomCas _ d a b => ww a ++ vv b ++ vv d
  | .atomAddI32 _ _ a b | .atomAddF32 _ _ a b | .atomAddBf16x2 _ _ a b | .atomMinI32 _ _ a b | .atomMinN32 _ _ a b
  | .atomMaxI32 _ _ a b | .atomMaxN32 _ _ a b | .atomAnd _ _ a b | .atomOr _ _ a b | .atomXor _ _ a b
  | .atomXchg _ _ a b | .atomInc _ _ a b | .copy _ _ a b | .tzero _ _ a b => ww a ++ vv b
  | .redAddI32 _ a b | .redAddF32 _ a b | .redAddBf16x2 _ a b | .redMinI32 _ a b | .redMaxI32 _ a b | .redAnd _ a b
  | .redOr _ a b | .redXor _ a b | .strB32 _ a b | .strSys _ a b => ww a ++ vv b
  | .strB64 _ a b => ww a ++ ww b
  | .carm _ a b => vv a ++ ww b
  | .mma _ t a _ ty _ _ => vv t ++ aBlock ty a
  | .tst _ v a b => vv v ++ vv a ++ vv b
  | .mmag _ _ a b | .mmal _ _ a b => vv a ++ ww b
  | .sgnew _ d a _ | .sgjoin _ d a _ => ww a ++ hh d
  | .sgjoinH _ d a _ => vv a ++ hh d
  | .sgvoteAny _ _ a b | .sgvoteAll _ _ a b | .sgvoteCnt _ _ a b => hh a ++ pp b
  | .sgstat _ _ a _ => hh a
  | _ => []

/-- The registers a word writes (R76): a pair counts as both halves, `CALL` and `CALLR` write v63, a write to p7 counts
as none. -/
def writes : Instr → List RegRef
  | .launch _ d _ | .pix _ d _ | .ldaB32 _ d _ | .ldaSys _ d _ | .run _ d _ => vv d
  | .fwdh _ d _ | .abs _ d _ | .neg _ d _ | .clz _ d _ | .ctz _ d _ | .popc _ d _ | .brev _ d _ | .mov _ d _
  | .krd _ d _ | .fabs _ d _ | .fneg _ d _ | .frndNe _ d _ | .frndTz _ d _ | .frndDn _ d _ | .frndUp _ d _
  | .fclass _ d _ | .rcp _ d _ | .rsq _ d _ | .sqrt _ d _ | .exp2 _ d _ | .log2 _ d _ | .sin _ d _ | .cos _ d _
  | .tanh _ d _ | .rdxAddI32 _ d _ | .rdxAddF32 _ d _ | .rdxMinI32 _ d _ | .rdxMaxI32 _ d _ | .rdxMinF32 _ d _
  | .rdxMaxF32 _ d _ | .bstat _ d _ | .tstat _ d _ | .sgbar _ d _ | .rds _ d _ | .kfront _ d _ => vv d
  | .kmov _ d _ | .kwr _ d _ | .kbal _ d _ | .kjoin _ d | .kleave _ d | .kclr _ d => [.k d.toNat]
  | .csrr _ d r => csrRegs r d
  | .add _ d _ _ | .sub _ d _ _ | .mul _ d _ _ | .mulhiI _ d _ _ | .mulhiN _ d _ _ | .macc _ d _ _ | .divI _ d _ _
  | .divN _ d _ _ | .remI _ d _ _ | .remN _ d _ _ | .minI _ d _ _ | .minN _ d _ _ | .maxI _ d _ _ | .maxN _ d _ _
  | .and _ d _ _ | .or _ d _ _ | .xor _ d _ _ | .andn _ d _ _ | .orn _ d _ _ | .shl _ d _ _ | .shr _ d _ _
  | .sra _ d _ _ | .rotl _ d _ _ | .bfxI _ d _ _ | .bfxN _ d _ _ | .bfi _ d _ _ | .selP0 _ d _ _ | .selP1 _ d _ _
  | .selP2 _ d _ _ | .selP3 _ d _ _ | .selP4 _ d _ _ | .selP5 _ d _ _ | .selP6 _ d _ _ | .fadd _ d _ _ | .fsub _ d _ _
  | .fmul _ d _ _ | .fmin _ d _ _ | .fmax _ d _ _ | .fcps _ d _ _ | .fscale _ d _ _ | .hadd2 _ d _ _ | .hsub2 _ d _ _
  | .hmul2 _ d _ _ | .hmin2 _ d _ _ | .hmax2 _ d _ _ | .badd2 _ d _ _ | .bsub2 _ d _ _ | .bmul2 _ d _ _
  | .bmin2 _ d _ _ | .bmax2 _ d _ _ | .shflIdx _ d _ _ | .shflUp _ d _ _ | .shflDn _ d _ _ | .shflXor _ d _ _
  | .bcast _ d _ _ | .tld _ d _ _ | .sgredAddI32 _ d _ _ | .sgredAddF32 _ d _ _ | .sgredMinI32 _ d _ _
  | .sgredMaxI32 _ d _ _ | .sgredMinF32 _ d _ _ | .sgredMaxF32 _ d _ _ => vv d
  | .shli _ d _ _ | .shri _ d _ _ | .srai _ d _ _ => vv d
  | .add64 _ d _ _ | .sub64 _ d _ _ | .atomXchg64 _ d _ _ | .atomCas64 _ d _ _ => ww d
  | .mulwI _ d _ _ | .mulwN _ d _ _ => ww d
  | .addof _ d _ _ | .mkptr _ d _ _ => ww d
  | .addi _ d _ _ | .andi _ d _ _ | .ori _ d _ _ | .xori _ d _ _ => vv d
  | .lui _ d _ | .apc _ d _ => vv (d.setWidth 6)
  | .cmpEqB32 _ p _ _ | .cmpNeB32 _ p _ _ | .cmpLtI32 _ p _ _ | .cmpLeI32 _ p _ _ | .cmpLtN32 _ p _ _
  | .cmpLeN32 _ p _ _ | .cmpEqF32 _ p _ _ | .cmpNeF32 _ p _ _ | .cmpLtF32 _ p _ _ | .cmpLeF32 _ p _ _
  | .cmpUnF32 _ p _ _ => pp p
  | .cmpEqB64 _ p _ _ | .cmpNeB64 _ p _ _ | .cmpLtI64 _ p _ _ | .cmpLeI64 _ p _ _ | .cmpLtN64 _ p _ _
  | .cmpLeN64 _ p _ _ => pp p
  | .cmpiEq _ p _ _ | .cmpiNe _ p _ _ | .cmpiLtI _ p _ _ | .cmpiGeI _ p _ _ | .cmpiLtN _ p _ _ | .cmpiGeN _ p _ _ => pp p
  | .cmpiBset _ p _ _ | .cmpiBclr _ p _ _ => pp p
  | .pand _ p _ _ | .por _ p _ _ | .pxor _ p _ _ | .pandn _ p _ _ => pp p
  | .pmov _ p _ => pp p
  | .pset _ p _ => pp p
  | .p2v _ d | .fenceVault _ d | .fencePart _ d | .fenceSys _ d | .qstat _ d => vv d
  | .v2p _ _ => [.p 0, .p 1, .p 2, .p 3, .p 4, .p 5, .p 6]
  | .call _ _ _ => vv 63
  | .callr _ _ _ => vv 63
  | .kwait _ p _ => pp p
  | .lrank _ d _ | .lcnt _ d _ => vv d
  | .ffma _ d _ _ _ | .hfma2 _ d _ _ _ | .bfma2 _ d _ _ _ => vv d
  | .cvt _ d _ _ _ _ _ => vv d
  | .cvtF16x2F32x2 _ d _ _ _ | .cvtBf16x2F32x2 _ d _ _ _ => vv d
  | .cvtF32F16hi _ d _ _ _ | .cvtF32Bf16hi _ d _ _ _ => vv d
  | .voteAny _ p _ | .voteAll _ p _ => pp p
  | .ld _ d _ t _ _ => dataRegs t d
  | .ldx _ d _ t _ _ => dataRegs t d
  | .atomAddI32 _ d _ _ | .atomAddF32 _ d _ _ | .atomAddBf16x2 _ d _ _ | .atomMinI32 _ d _ _ | .atomMinN32 _ d _ _
  | .atomMaxI32 _ d _ _ | .atomMaxN32 _ d _ _ | .atomAnd _ d _ _ | .atomOr _ d _ _ | .atomXor _ d _ _
  | .atomXchg _ d _ _ | .atomCas _ d _ _ | .atomInc _ d _ _ | .copy _ d _ _ | .tzero _ d _ _ => vv d
  | .ldaB64 _ d _ => ww d
  | .pop _ d _ => vv d
  | .mmag _ d _ _ | .mmal _ d _ _ => vv d
  | .sgnew _ d _ p | .sgjoin _ d _ p => hh d ++ pp p
  | .sgjoinH _ d _ p => hh d ++ pp p
  | .sgleave _ a | .sgdrop _ a => hh a
  | .sgvoteAny _ d _ _ | .sgvoteAll _ d _ _ | .sgvoteCnt _ d _ _ => vv d
  | .sgstat _ d _ _ => vv d
  | _ => []

/-! ### Memory operands (R89, R203, R204) -/

/-- The size of an access of type `ty` (R89). -/
def tySize (ty : BitVec 3) : Nat :=
  match ty.toNat with
  | 0 => 1 | 1 => 1 | 2 => 2 | 3 => 2 | 4 => 4 | 5 => 8 | 6 => 16
  | _ => 4

/-- A pointer moved by a signed offset within its buffer (R204): the index and the offset. -/
def effAddr (p : DWord) (off : Int) : Nat × Nat := (bitsN p.toNat 63 48, wrap48 (bitsN p.toNat 47 0 + off))

/-- The address of the X = 0 form. -/
def addrImm (now : Nat) (t : Thread) (w : PairNo) (ty : BitVec 3) (imm : BitVec 7) : Nat × Nat :=
  effAddr (t.rdW now w) (imm.toInt * tySize ty)

/-- The address of the X = 1 form. -/
def addrReg (now : Nat) (t : Thread) (w : PairNo) (b : Reg) : Nat × Nat := effAddr (t.rdW now w) (t.rdV now b).toInt

/-- The address of the forms without an offset (R207). -/
def addrPair (now : Nat) (t : Thread) (w : PairNo) : Nat × Nat := effAddr (t.rdW now w) 0

/-- The data registers as one value, the lowest register lowest (R120, R203). -/
def dataOf (now : Nat) (t : Thread) (ty : BitVec 3) (r : Reg) : Nat :=
  match ty.toNat with
  | 0 => (t.rdV now r).toNat % 2 ^ 8
  | 1 => (t.rdV now r).toNat % 2 ^ 8
  | 2 => (t.rdV now r).toNat % 2 ^ 16
  | 3 => (t.rdV now r).toNat % 2 ^ 16
  | 5 => (t.rdV now r).toNat + (t.rdV now (r + 1)).toNat * 2 ^ 32
  | 6 => (t.rdV now r).toNat + (t.rdV now (r + 1)).toNat * 2 ^ 32 + (t.rdV now (r + 2)).toNat * 2 ^ 64 +
      (t.rdV now (r + 3)).toNat * 2 ^ 96
  | _ => (t.rdV now r).toNat

/-- What a load of type `ty` writes (R203). -/
def loadWrites (ty : Nat) (d : Reg) (x : Nat) : List (RegRef × Word) :=
  match ty with
  | 0 => [(.v d, BitVec.ofNat 32 (x % 2 ^ 8))]
  | 1 => [(.v d, BitVec.ofInt 32 (sgn 8 x))]
  | 2 => [(.v d, BitVec.ofNat 32 (x % 2 ^ 16))]
  | 3 => [(.v d, BitVec.ofInt 32 (sgn 16 x))]
  | 5 => [(.v d, BitVec.ofNat 32 x), (.v (d + 1), BitVec.ofNat 32 (x / 2 ^ 32))]
  | 6 => [(.v d, BitVec.ofNat 32 x), (.v (d + 1), BitVec.ofNat 32 (x / 2 ^ 32)),
          (.v (d + 2), BitVec.ofNat 32 (x / 2 ^ 64)), (.v (d + 3), BitVec.ofNat 32 (x / 2 ^ 96))]
  | _ => [(.v d, BitVec.ofNat 32 x)]

/-- The target of a TB branch at word offset `P` (R89). -/
def targetTB (p : Word) (disp : BitVec 16) : Word := p + (disp.signExtend 32 <<< 2)
/-- The target of a TJ transfer (R89). -/
def targetTJ (p : Word) (disp : BitVec 19) : Word := p + (disp.signExtend 32 <<< 2)

end Sys2Proof.Machine
end

