-- ==== Sys2Proof/Machine/Access.lean ====
section
/-! DEFINITION. Accesses of the M pipe from their checks at issue to the moment they leave the core (R173, R186, R200 to
R220), and the digest of an assay (R363). -/

namespace Sys2Proof.Machine

/-! ### The digest of a run (R363) -/

/-- Multiplication by x in GF(2^128) modulo x^128 + x^7 + x^2 + x + 1. -/
def gfTwice (a : BitVec 128) : BitVec 128 := (a <<< 1) ^^^ (if a.msb then 0x87 else 0)

/-- The product of `a` with the polynomial of bits `n - 1` to 0 of `b`. -/
def gfMulLow (a b : BitVec 128) : Nat → BitVec 128
  | 0 => 0
  | n + 1 => gfTwice (gfMulLow a (b >>> 1) n) ^^^ (if b.getLsbD 0 then a else 0)

def gfMul (a b : BitVec 128) : BitVec 128 := gfMulLow a b 128

/-- One block of a digest. -/
def digestBlock (hk : BitVec 128) (idx off size data : Nat) : BitVec 128 :=
  let m1 := BitVec.ofNat 128 (idx % 2 ^ 16 + off % 2 ^ 48 * 2 ^ 16 + size * 2 ^ 64)
  gfMul (gfMul hk m1 ^^^ BitVec.ofNat 128 (data % 2 ^ (8 * size))) hk

/-- Add a block to the digest of the run that a thread belongs to. -/
def addDigest (s : State) (t : Thread) (idx off size data : Nat) : State :=
  s.updCast t.part t.launch t.cast fun c =>
    { c with assay := c.assay.map fun a => { a with digest := a.digest + digestBlock (Config.hk s.dev.boots) idx off size data } }

/-! ### What a word asks of a lane -/

structure Ask where
  op : PortOp
  kind : AccKind
  idx : Nat
  off : Nat
  size : Nat
  ty : Nat
  cp : Nat := 0
  dst : Option Reg := none
  data : Nat := 0
  cmp : Nat := 0
  deriving DecidableEq, Repr

/-- `SRC` of a fault entry (R333). -/
def srcOf (op : PortOp) : Nat :=
  match op with
  | .store => 1
  | .str _ => 1
  | .atom _ => 3
  | .red _ => 3
  | .fetch => 4
  | _ => 0

/-- A trap of an access (R331), or its page fault (R332). -/
def accessTrap (lane tid : Nat) (code : TrapCode) (idx off src ty : Nat) : LaneTrap :=
  { lane, tid, code, info := BitVec.ofNat 64 (idx * 2 ^ 48 + off),
    fault := if code = Trap.page then some (idx, off, src, ty) else none, store := none }

/-- Whether the translation of a store is decided at its issue; otherwise it is decided after it (R205). -/
def pageAtIssue (s : State) (a : Ask) (lane : Nat) : Bool :=
  match a.op with
  | .store => Config.pageEarly s.time s.cur.core lane
  | _ => true

/-- The port's checks for one lane (R170, R205). -/
def askTrap (s : State) (lane : Nat) (t : Thread) (a : Ask) : Option LaneTrap :=
  match portCheck s (s.reqOf t s.cur.core lane) a.op a.idx a.off a.size with
  | .ok _ _ => none
  | .trap c =>
    if c = Trap.page ∧ (a.op = .pref ∨ !pageAtIssue s a lane) then none
    else some (accessTrap lane t.tid c a.idx a.off (srcOf a.op) a.ty)

/-- Whether an atomic or a reduction, which a selected cast may not make (R211). -/
def AccKind.isAtomic : AccKind → Bool
  | .atom _ => true
  | .red _ => true
  | _ => false

/-- The checks of an access in the order of R220. -/
def askChk (f : Nat → Thread → Ask) (s : State) (lane : Nat) (t : Thread) : Option LaneTrap :=
  let a := f s.time t
  firstTrap [protectIf (f s.time) s lane t, if a.kind.isAtomic then assayIf s lane t else none, askTrap s lane t a]

/-! ### When an access may be performed (R177, R182, R184) -/

/-- Program order within one thread (R201), and lane order within one word that writes (R184, R209): `a` comes before
`b`. -/
def Acc.precedes (a b : Acc) : Bool :=
  (a.tid.isSome && a.tid = b.tid && decide (a.seq < b.seq)) ||
    (a.part = b.part && a.seq = b.seq && a.isWrite && b.isWrite && decide (a.lane < b.lane))

/-- Whether two accesses touch the same bytes, by place or by buffer and offset. -/
def Acc.overlaps (a b : Acc) : Bool :=
  (decide (a.addr < b.addr + b.size) && decide (b.addr < a.addr + a.size)) ||
    (a.part = b.part && a.buf = b.buf && decide (a.off < b.off + b.size) && decide (b.off < a.off + a.size))

/-- The bank of a vault place (R169). -/
def bankOf (k : Nat) : Option (Nat × Nat) := (keyVault k).map fun v => (v, (k - 2 ^ 44) % 2 ^ 23 / 64 % 128)

/-- Whether an access is still to be performed: on its way, or a store whose page fault awaits service (R205). -/
def Acc.waits (a : Acc) : Bool :=
  match a.stage with
  | .sent => true
  | .unposted _ => true
  | .faulted _ _ => true
  | _ => false

/-- Whether an earlier access holds a later one of its thread back: an `LDA` whose value has not returned (R182), an
access of the same bytes (R184) or of the same bank (R177) that has not been performed. -/
def Acc.blocks (a b : Acc) : Bool :=
  a.precedes b &&
    ((decide (a.seq < b.seq) && a.kind = .lda && (a.stage = .sent || a.stage = .performed)) ||
      (a.waits && a.overlaps b) ||
      (decide (a.seq < b.seq) && a.stage = .sent && (bankOf a.addr).isSome && bankOf a.addr = bankOf b.addr))

/-- Whether an access in flight may be performed now. -/
def mayPerform (s : State) (a : Acc) : Bool := a.stage = .sent && !(s.accs.any fun b => b.blocks a)

/-! ### What a thread has seen (R184) -/

/-- The bytes of a range. -/
def bytesOf (k size : Nat) : List Nat := (List.range size).map (k + ·)

/-- A thread has observed bytes as their home held them at a place in home order. -/
def noteSeenAt (s : State) (tid : Option Nat) (k size n : Nat) : State :=
  match tid with
  | none => s
  | some t =>
    s.updThread t fun t => { t with seen := (bytesOf k size).foldl (fun l b => setL l b (max n (getL l b 0))) t.seen }

/-- A thread has read or written bytes at their home just now. -/
def noteSeen (s : State) (tid : Option Nat) (k size : Nat) : State := noteSeenAt s tid k size s.homeOrder

/-- A thread has read bytes of a lease copy: each as its home held it when the copy was granted or its core stored it. -/
def noteCopy (s : State) (tid : Option Nat) (c : L1Copy) (k size : Nat) : State :=
  (bytesOf k size).foldl (fun s b => noteSeenAt s tid b 1 (max c.granted (getL c.own b 0))) s

/-- Whether a copy is as new, for every byte of a range, as what the thread has observed. -/
def seenBy (s : State) (tid : Option Nat) (c : L1Copy) (k size : Nat) : Bool :=
  (bytesOf k size).all fun b =>
    decide ((((tid.bind s.thread?).map fun t => getL t.seen b 0).getD 0) ≤ max c.granted (getL c.own b 0))

/-- Whether a load may use a lease copy instead of its home (R173, R176, R184). -/
def copyServes (s : State) (a : Acc) (c : L1Copy) : Bool :=
  a.lease ≠ 0 && a.cp ≠ 3 && mayPerform s a && decide (s.time < c.expiry) && seenBy s a.tid c a.addr a.size &&
    Config.keepsCopy s.time a.core c.line (a.tid.getD 0) &&
    !(s.accs.any fun b => b.core = a.core && b.isWrite && b.stage = .sent && b.overlaps a)

/-- The lease copy that a load uses instead of its home. -/
def l1Hit (s : State) (a : Acc) : Option L1Copy :=
  match a.kind, s.l1? a.core (lineOf a.addr) with
  | .load, some c => if copyServes s a c then some c else none
  | _, _ => none

/-! ### Leaving the core -/

/-- The place of an access whose page is not mapped yet: no place of the package. -/
def lateKey (part idx off : Nat) : Nat := 2 ^ 80 + part * 2 ^ 64 + idx * 2 ^ 48 + off
def isLate (k : Nat) : Bool := decide (2 ^ 80 ≤ k)

/-- A vault address within the allocation of the original run, redirected to the run's own (R364). -/
def redirect (s : State) (t : Thread) (k : Nat) : Nat :=
  if t.run = 0 then k
  else match s.cast? t.part t.launch t.cast with
    | some c =>
      match c.orig, c.alloc with
      | some (v, o), some (o', n) =>
        if vaultKey v o ≤ k ∧ k < vaultKey v o + n then vaultKey c.cluster o' + (k - vaultKey v o) else k
      | _, _ => k
    | none => k

/-- The L2 allocation in effect for an access of a cached kind (R172): `POLICY` 3 acts as 2. -/
def l2Policy (e : Nat) (k : AccKind) (cp : Nat) : Nat :=
  let p := min (btPolicy e) 2
  if !(btKind e = 1 || btKind e = 4 || btKind e = 5) then 2
  else if k = .load ∧ cp = 1 ∧ p ≠ 2 then 1
  else if k = .load ∧ cp = 2 ∧ p = 0 then 3
  else p

/-- Bytes of an L1 copy that a store of its core replaces (R173). -/
def patch (data : List Byte) (at' : Nat) (new : List Byte) : List Byte :=
  data.take at' ++ new ++ data.drop (at' + new.length)

/-- A store updates its core's copy of the line as it leaves the core; poisoned data drop it (R173, R354). -/
def patchL1 (s : State) (core key size data : Nat) (poison : Bool) : State :=
  if poison then { s with l1 := s.l1.filter fun c => !(c.core = core && c.line = lineOf key) }
  else
    let new (c : L1Copy) : L1Copy := { c with data := patch c.data (key % 128) (leBytes size data) }
    { s with l1 := updL (fun c => c.core = core && c.line = lineOf key) new s.l1 }

/-- A core drops its copy of a line (R173, R186); the notice to the home is an event of its own (R174). -/
def dropL1 (s : State) (core key : Nat) : State :=
  { s with l1 := s.l1.filter fun c => !(c.core = core && c.line = lineOf key) }

/-- Whether injection poisons this store (R368), and the state with injection used up and the effect counted, as an
uncorrectable error of the register file from which the data come (notes/assumptions/114.md). -/
def injected (s : State) (t : Thread) (k : AccKind) : Bool × State :=
  match s.part? t.part with
  | some p =>
    if k = .store ∧ bitsN p.finj.toNat 31 30 = 2 ∧ p.finjTid = some t.tid then
      (true, (s.updPart t.part fun p => { p with finj := p.finj &&& 0x3FFFFFFF, finjTid := none }).countArray t.part 0 true)
    else (false, s)
  | none => (false, s)

/-- An access that leaves the core. -/
def mkAcc (s : State) (t : Thread) (lane : Nat) (a : Ask) (e key seq : Nat) (poison : Bool) : Acc :=
  { id := s.nextId, tid := if a.op = .pref then none else some t.tid, core := s.cur.core, part := (s.reqOf t s.cur.core lane).part,
    launch := t.launch, cast := t.cast, kind := a.kind, buf := a.idx, off := a.off, size := a.size, bkind := btKind e, addr := key, ty := a.ty, cp := a.cp,
    dst := a.dst, data := a.data, cmp := a.cmp, poison, lane, pc := s.cur.pc, seq, mark := t.fence, stage := .sent,
    gwct := 0, tag := 0,
    lease := if (btKind e = 1 ∨ btKind e = 4 ∨ btKind e = 5) ∧ btL e then btLease e else 0,
    policy := l2Policy e a.kind (if a.op = .pref then 0 else a.cp),
    kills := ((s.launch? t.part t.launch).map fun l => getL l.kills (l.gangOf t.cast) 0).getD 0 }

/-! ### Leases (R173, R174, R176) -/

/-- The home sends a lease copy of a line; a full L1 gives up another (R14). -/
def grantLease (s : State) (core line code : Nat) (strm : Bool) : State :=
  let s := l1Room s core line
  let e := s.time + 2 ^ (code + 5)
  let x := lineAt s line
  let s := putLine s { x with lx := max x.lx e, leases := (core, e) :: x.leases.filter fun y => y.1 ≠ core }
  let c : L1Copy := { core, line, data := memBytes s.mem (128 * line) 128, granted := s.homeOrder, expiry := e, strm }
  { s with l1 := c :: s.l1.filter fun y => !(y.core = core && y.line = line) }

/-- After a read at home: the copy that R173 permits, or the replacement of one held (R176); an `LDA` that can bring none
leaves the one held (R182). -/
def leaseAfter (s : State) (a : Acc) (wants : Bool) : State :=
  let line := lineOf a.addr
  let held := (s.l1? a.core line).isSome
  if a.lease ≠ 0 ∧ (wants ∨ held) ∧ !poisonedAt s (128 * line) 128 then grantLease s a.core line a.lease (a.cp = 1)
  else if held ∧ a.kind ≠ .lda then dropL1 s a.core a.addr
  else s

/-! ### Reductions and sending -/

/-- Whether an access is a reduction. -/
def Acc.isRed (a : Acc) : Bool :=
  match a.kind with
  | .red _ => true
  | _ => false

/-- A reduction that an L1 may gather (R186): into a granted copy at once, else it waits in the core for the grant, and
behind the reductions of the line that wait already. -/
def sendRed (s : State) (a : Acc) (op : RmwOp) : State :=
  let line := lineOf a.addr
  let s := dropL1 s a.core a.addr
  match s.ucopy? a.core line with
  | some u =>
    if u.granted && mayPerform s a && !(s.accs.any fun b => b.core = a.core && b.isRed && b.stage = .sent && lineOf b.addr = line) then
      let s := noteSeen s a.tid a.addr a.size
      let new (u : UCopy) : UCopy := { u with parts := gather u.parts a.addr op a.data a.poison }
      { s with accs := s.accs ++ [{ a with stage := .performed, gwct := u.gwct }],
               ucopies := updL (fun u => u.core = a.core && u.line = line) new s.ucopies }
    else { s with accs := s.accs ++ [a] }
  | none =>
    { s with accs := s.accs ++ [a],
             ucopies := s.ucopies ++ [{ core := a.core, line, granted := false, gwct := 0, parts := [] }] }

/-- One lane's access leaves the core (R204, R205, R207, R219, R364). -/
def sendLane (seq : Nat) (s : State) (lane : Nat) (t : Thread) (a : Ask) : State :=
  match s.part? (s.reqOf t s.cur.core lane).part with
  | none => s
  | some p =>
    let e := btSeen s s.cur.core p a.idx lane
    match portCheck s (s.reqOf t s.cur.core lane) a.op a.idx a.off a.size with
    | .trap _ =>
      if a.op = .pref then s
      else
        let digested := (btKind e = 1 ∨ btKind e = 8) ∧ s.selected t
        let s := if digested then addDigest s t a.idx a.off a.size a.data else s
        if digested ∧ (t.run = 1 ∨ t.run = 2) then s
        else
          let (bad, s) := injected s t a.kind
          let x := mkAcc s t lane a e (lateKey p.first a.idx a.off) seq bad
          { s.bumpId with accs := s.accs ++ [x] }
    | .ok e k =>
      let s := noteCaches s s.cur.core p.first a.idx a.off e
      let k := redirect s t k
      if a.op = .pref then
        let x := mkAcc s t lane a e k seq false
        if x.policy = 2 ∧ (x.lease = 0 ∨ a.cp ≠ 1) then s
        else
          let x := if a.cp = 1 ∧ x.lease ≠ 0 then x else { x with cp := 2, lease := 0 }
          { s.bumpId with accs := s.accs ++ [x] }
      else
        let digested := (a.kind = .store ∨ a.kind = .str) ∧ (btKind e = 1 ∨ btKind e = 8) ∧ s.selected t
        let s := if digested then addDigest s t a.idx a.off a.size a.data else s
        if digested ∧ (t.run = 1 ∨ t.run = 2) then s
        else
          let (bad, s) := injected s t a.kind
          let x := mkAcc s t lane a e k seq bad
          let s := s.bumpId
          match a.kind with
          | .red op => if x.lease ≠ 0 then sendRed s x op else dropL1 { s with accs := s.accs ++ [x] } s.cur.core k
          | .atom _ => dropL1 { s with accs := s.accs ++ [x] } s.cur.core k
          | .store => patchL1 { s with accs := s.accs ++ [x] } s.cur.core k a.size a.data bad
          | .str => patchL1 { s with accs := s.accs ++ [x] } s.cur.core k a.size a.data bad
          | _ => { s with accs := s.accs ++ [x] }

/-- The registers that an access's result is written to (R203, R207). -/
def Ask.writes (a : Ask) : List RegRef :=
  match a.dst with
  | some d => (loadWrites a.ty d 0).map (·.1)
  | none => []

/-- Every active lane's access leaves the core, in ascending lane number; results become pending (R82, R200). -/
def sendAll (f : Nat → Thread → Ask) (s : State) : State :=
  let seq := s.nextId
  let s := s.cur.lanes.foldl (fun s x =>
    match s.before? x.2 with
    | some t => sendLane seq s x.1 t (f s.time t)
    | none => s) s.bumpId
  s.eachThread fun b t => (f s.time b).writes.foldl Thread.pend t

/-- A word that makes an access (R200, R204, R208, R210, R212). -/
def accessWord (h : Hdr) (f : Nat → Thread → Ask) (s : State) : State :=
  runWord h { chk := askChk f, eff := sendAll f } s

/-- A word that waits for a home's answer (R254, R272): the model's own wake type 15. -/
def homeWait : Wait := { wtype := 15, key := 0 }

/-- A word that makes records waits until no flask home owes its threads an answer (R272). -/
def recordWait (s : State) : Option Wait :=
  if s.cur.lanes.any fun x => s.awaitsHome x.2 then some homeWait else none

/-! ### Waits for accesses, and the deferred store faults they meet (R213, R216, R217) -/

/-- `DEFSTORE` where a set of accesses holds a posted deferred store fault. -/
def defTrap (s : State) (lane : Nat) (t : Thread) (l : List Acc) : Option LaneTrap :=
  (defStoreOf l).map fun d => { wordTrap s lane t.tid Trap.defstore with store := some d }

/-- The key of a wait for a scope (R48). -/
def scopeKey (scope : Nat) : Nat := 1 + 2 * scope

/-- The lanes wait until every earlier access within a scope is complete. -/
def scopeWait (scope : Nat) (s : State) : Option Wait :=
  if s.cur.lanes.all fun x => s.scopeDone x.2 scope then none else some { wtype := 1, key := scopeKey scope }

/-- The acknowledgement registers at the end of a wait (R180, R218). -/
def Thread.acked (t : Thread) (l : List Acc) : Thread :=
  match lastWrite l with
  | some a => { t with acktag := a.tag.setWidth 32, ackt := BitVec.ofNat 32 a.gwct }
  | none => t

/-- A release (R181, R213). -/
def releaseWord (h : Hdr) (scope : Nat) (f : Nat → Thread → Ask) (s : State) : State :=
  runWord h
    { chk := fun s lane t => firstTrap [askChk f s lane t, defTrap s lane t (s.accsOf t.tid scope)],
      wait := scopeWait scope, eff := sendAll f } s

end Sys2Proof.Machine
end

