-- ==== Sys2Proof/Machine/Service.lean ====
section
/-! DEFINITION. What firmware and the host ask of the device through registers: the end of a fault, a syscall reply,
a record held or released, fault injection, an acknowledged quiesce (R63, R290, R291, R301, R335, R368, R380, R381). -/

namespace Sys2Proof.Machine

/-! ### Threads that wait without a record (R64) -/

/-- Threads of pool-stalled entries that wait on a wake type and key. -/
def stalledOn (s : State) (part wtype key : Nat) : List Nat :=
  (s.pours.filter fun p => p.part = part).flatMap fun p => p.entries.flatMap fun e =>
    match e.stall with
    | some st =>
      if st.pool.isSome && st.wtype = wtype then
        (s.lanesIn p.core p.slot e.mask).filterMap fun x => if getL st.keys x.1 st.key = key then some x.2 else none
      else []
    | none => []

/-- A lane of a pool-stalled entry goes on at the entry's PC (R64). -/
def unstall (s : State) (tid : Nat) : State :=
  match (s.thread? tid).map Thread.loc with
  | some (.lane c sl ln) =>
    match (s.pour? c sl).bind fun p => p.entries.find? fun e => e.mask.getLsbD ln with
    | none => s
    | some e =>
      s.updPour c sl fun p =>
        let es := (p.entries.map fun x => { x with mask := setBit x.mask ln false }).filter fun x => x.mask ≠ 0
        { p with entries := placeIn es e.pc e.prio (laneBit ln) e.buf }
  | _ => s

/-! ### `FLTDONE` (R335, R336) -/

/-- The end of a fault id. -/
def endFault (s : State) (part fid : Nat) : State :=
  s.updPart part fun p => { p with faults := p.faults.filter fun f => f.fid ≠ fid }

/-- A deferred store of a fault id is tried again. -/
def Acc.replay (part fid : Nat) (a : Acc) : Acc :=
  match a.stage with
  | .faulted f _ => if a.part = part ∧ f = fid then { a with stage := .sent } else a
  | _ => a

/-- The operations paused on a fault id go on from their vectors (R241). -/
def resumeOps (s : State) (part fid : Nat) : State :=
  { s with
    copies := updL (fun c => c.part = part && c.paused = some fid) (fun c => { c with paused := none }) s.copies,
    runners := updL (fun c => c.part = part && c.paused = some fid) (fun c => { c with paused := none }) s.runners,
    tileOps := updL (fun c => c.part = part && c.paused = some fid) (fun c => { c with paused := none }) s.tileOps }

/-- Whether a fault id is outstanding. -/
def outstanding (s : State) (part fid : Nat) : Bool := (s.part? part).any fun p => p.faults.any fun f => f.fid = fid

/-- A fault is serviced. -/
def fltService (s : State) (part fid : Nat) : State :=
  let s := s.updPart part fun p => { p with fltdone := BitVec.ofNat 32 (fid % 2 ^ 31) }
  if outstanding s part fid then
    let s := resumeOps (endFault s part fid) part fid
    checkWakes { s with accs := s.accs.map (Acc.replay part fid) } part 5
  else s

/-- Whether an access belongs to the present run of its gang, not to one that was killed (R336). -/
def Acc.ofRun (s : State) (a : Acc) : Bool :=
  (s.launch? a.part a.launch).any fun l => getL l.kills (l.gangOf a.cast) 0 = a.kills

/-- The gangs whose threads, stores or operations wait on a fault id: launch and gang. A store of a run that was killed has
none any more. -/
def gangsOn (s : State) (part fid : Nat) : List (Nat × Nat) :=
  let g (launch cast : Nat) : List (Nat × Nat) := ((s.launch? part launch).map fun l => (launch, l.gangOf cast)).toList
  let ts := (s.recs.filter fun r => r.part = part && r.wtype = 5 && r.key = fid).map (·.tid) ++ stalledOn s part 5 fid
  (ts.flatMap fun x => ((s.thread? x).map fun t => g t.launch t.cast).getD []) ++
  (s.accs.flatMap fun a => match a.stage with
    | .faulted f _ => if a.part = part ∧ f = fid ∧ a.ofRun s then g a.launch a.cast else []
    | _ => []) ++
  (s.copies.flatMap fun c =>
    if c.part = part && c.paused = some fid then (c.gang.map fun x => (c.launch, x)).toList else []) ++
  (s.runners.flatMap fun c => if c.part = part && c.paused = some fid then g c.launch c.cast else []) ++
  (s.tileOps.flatMap fun c => if c.part = part && c.paused = some fid then g c.launch c.cast else [])

/-- A prologue copy that cannot go on ends with a status other than `OK` (R311). -/
def failPrologues (s : State) (part fid : Nat) : State :=
  let cs := s.copies.filter fun c => c.part = part && c.paused = some fid && c.gang.isNone
  cs.foldl (fun s c =>
    let s := freeLocksAt { s with copies := s.copies.filter fun x => x.id ≠ c.id } c.id c.gwct
    s.updLaunch part c.launch fun l => { l with badPrologue := true, writesAt := max l.writesAt c.gwct }) s

/-- A deferred store that waits on a fault id. -/
def Acc.waitsOn (part fid : Nat) (a : Acc) : Bool :=
  match a.stage with
  | .faulted f _ => a.part = part && f = fid
  | _ => false

/-- A fault cannot be serviced: each gang that waits on it goes to the fault domain (R338). Its stores are never performed
(notes/assumptions/117.md). -/
def fltFail (s : State) (part fid : Nat) : State :=
  let s := s.updPart part fun p => { p with fltdone := BitVec.ofNat 32 (2 ^ 31 + fid % 2 ^ 31) }
  if outstanding s part fid then
    let gs := gangsOn s part fid
    let s := failPrologues (endFault s part fid) part fid
    let s : State := { s with accs := s.accs.filter fun a => !a.waitsOn part fid }
    (gs.eraseDups).foldl (fun s x => escalate s part x.1 x.2) s
  else s

/-! ### The syscall ring (R289 to R291) -/

/-- The pointer of an entry of the ring, and the number of entries. -/
def sysPtr (p : Part) (ix : Nat) : Nat := ptrAdd (bitsN p.sysring.toNat 63 12 * 4096) (64 * ix)
def sysSize (p : Part) : Nat := 2 ^ (min (bitsN p.sysring.toNat 3 0) 12 + 4)

/-- An entry of the ring. -/
def sysEntry (s : State) (p : Part) (ix : Nat) : Option Nat := devReadBlock s p.first (sysPtr p ix) 4

/-- `STATE` of an entry: 3 to 15 act as 1. -/
def sysState (e : Nat) : Nat := if 3 ≤ bitsN e 31 28 then 1 else bitsN e 31 28

/-- Write `STATE` of an entry. -/
def setSysState (s : State) (p : Part) (ix st : Nat) : State :=
  match devLocate s p.first .store (sysPtr p ix) 64 with
  | .ok _ k => devStore s (k + 3) 1 (homePeek s (k + 3) 1 % 16 + 16 * st)
  | .trap _ => countLost s p.first .store (sysPtr p ix) 64

/-- The number of entries in state 1 or 2 (R291). -/
def sysPosted (s : State) (p : Part) : Nat :=
  (List.range (sysSize p)).countP fun i => (sysEntry s p i).any fun e => sysState e ≠ 0

/-- The reply's v0 and v1 (R291). -/
def replyTo (e : Nat) (t : Thread) : Thread :=
  (t.setV 0 (BitVec.ofNat 32 (bitsN e 415 384))).setV 1 (BitVec.ofNat 32 (bitsN e 447 416))

/-- A replied entry is taken (R291): v0 and v1 of the thread, `STATE` 0, the wake. -/
def sysReply (s : State) (part ix : Nat) : State :=
  match s.part? part with
  | none => s
  | some p =>
    match (if ix < sysSize p then sysEntry s p ix else none) with
    | none => s
    | some e =>
      if sysState e ≠ 2 then s
      else
        let s := setSysState s p ix 0
        match (s.recs.find? fun r => r.part = part && r.wtype = 6 && r.key = ix && r.fired.isNone).map (·.tid) with
        | some tid =>
          fireWake (flushRec ((reloadHeld s tid).updBoth tid (replyTo e)) tid) tid (bitsN e 455 448)
        | none =>
          (stalledOn s part 6 ix).foldl (fun s tid => unstall (s.updBoth tid (replyTo e)) tid) s

/-! ### `RECHOLD` (R301) -/

/-- The record a reference names, with those that share its annex. -/
def recsOfRef (s : State) (part ref : Nat) : List Rec :=
  match s.recs.find? fun r => r.part = part && r.ref = ref with
  | some r => s.recs.filter fun x => x.part = part && (x.tid = r.tid || (r.annex ≠ 0 && x.annex = r.annex))
  | none => []

/-- `STATUS` of a write that names a reference. -/
def holdStatus (s : State) (part ref : Nat) : Nat :=
  match recsOfRef s part ref with
  | [] => if s.pours.any fun p => p.part = part && p.refs.contains ref then 3 else 1
  | rs => if rs.any fun r => r.transit.isSome then 2 else 0

/-- Hold records: they leave their ladles and enter none. -/
def holdRecs (s : State) (rs : List Rec) : State :=
  serveEntryLists (rs.foldl (fun s r => (leaveLadle s r.tid).updRec r.tid fun r => { r with held := true }) s)

/-- Release records as firmware left them; those whose wake has fired enter a ladle. -/
def releaseRecs (s : State) (rs : List Rec) : State :=
  rs.foldl (fun s r =>
    if !r.held then s
    else
      let s := loadRec s r.tid
      let s := if r.annex = 0 then s else loadAnnex s r.part r.annex
      let s := s.updRec r.tid fun r => { r with held := false }
      if r.fired.isSome then enterLadle s r.tid else checkWake s r.tid) s

/-- A write of `RECHOLD`. -/
def rechold (s : State) (part : Nat) (hold : Bool) (ref : Nat) : State :=
  let st := holdStatus s part ref
  let rs := recsOfRef s part ref
  let s := if st ≠ 0 then s else if hold then holdRecs s rs else releaseRecs s rs
  s.updPart part fun p =>
    { p with rechold := BitVec.ofNat 64 (boolBit hold * 2 ^ 63 + st * 2 ^ 32 + ref % 2 ^ 32) }

/-! ### `FINJ`, `POOLBK` (R63, R368) -/

/-- A write of `FINJ` by a thread. -/
def setFinj (s : State) (part : Nat) (tid : Option Nat) (v : Word) : State :=
  s.updPart part fun p =>
    { p with finj := v &&& 0xC3FF001F#32, finjTid := if bitsN v.toNat 31 30 = 2 then tid else none }

/-- Whether a record, an annex or a spilled allocation lies in the backing. -/
def backingUsed (s : State) (p : Part) : Bool :=
  ((usedRefs s p.first).any fun r => decide (vaultPlaces p < r)) ||
    s.casts.any fun c => c.part = p.first && c.spilled.isSome

/-- A write of `POOLBK` (R63). Another backing begins without grown pages (notes/assumptions/103.md). -/
def setPoolbk (s : State) (part : Nat) (v : DWord) : State :=
  match s.part? part with
  | none => s
  | some p =>
    let v := v &&& 0xFFFF0000FFFFFFFF#64
    if bitsN v.toNat 63 48 = poolBuf p then s.updPart part fun p => { p with poolbk := v }
    else if backingUsed s p then s
    else s.updPart part fun p => { p with poolbk := v, poolPages := 0 }

/-! ### Commands and the quiesce (R380, R381, R385) -/

/-- A command of a class ends with a status. -/
def endCommand (s : State) (classM : Bool) (op first status : Nat) : State :=
  let s := s.updDev fun d =>
    let d : Dev := { d with commands := d.commands.filter fun c => !(c.classM = classM && c.op = op && c.first = first) }
    if classM then { d with mcmdst := BitVec.ofNat 8 status } else { d with pcmdst := BitVec.ofNat 8 status }
  raiseInt s 2

/-- A slot's firmware acknowledges a quiesce; with the last one the partition is quiesced (R381). -/
def qackSlot (s : State) (slot : Nat) : State :=
  match s.partOfSlot slot with
  | none => s
  | some p =>
    if p.quiescing.isNone then s
    else
      let acks := insertN slot p.qack
      if p.slots.all fun x => acks.contains x then
        let s := s.updPart p.first fun p => { p with quiescing := none, qack := [], state := 2 }
        let s := s.updDev fun d =>
          { d with slots := updL (fun x => p.slots.contains x.slot) (fun x => { x with state := 2 }) d.slots }
        endCommand s false 3 p.first 0
      else s.updPart p.first fun p => { p with qack := acks }

end Sys2Proof.Machine
end

