-- ==== Sys2Proof/Machine/Engine.lean ====
section
/-! DEFINITION. What the engines share: iteration vectors and hulls (R244), the checks of an engine operand (R170, R249),
range locks (R189 to R192, R268), completion tokens (R240), engine reads and writes (R241, R250), flash (R198), compressed
streams (R247, R248) and weight images (R255, R256). -/

namespace Sys2Proof.Machine

/-! ### Iteration (R244) -/

/-- The number of iteration vectors. -/
def iterTotal (counts : List Nat) : Nat := counts.foldl (· * ·) 1

/-- The vector of number `n`, loop 0 fastest. -/
def iterOf : List Nat → Nat → List Nat
  | [], _ => []
  | c :: cs, n => n % c :: iterOf cs (n / c)

/-- The sum of a vector's counters, each times its stride. -/
def dot : List Nat → List Int → Int
  | i :: is, st :: sts => i * st + dot is sts
  | _, _ => 0

/-- The lowest and highest offset that the iterations touch, with the bytes of one element. -/
def hullLo (base : Int) (counts : List Nat) (strides : List Int) : Int :=
  base + ((counts.zip strides).foldl (fun x k => x + min 0 (((k.1 : Int) - 1) * k.2)) 0)
def hullHi (base : Int) (counts : List Nat) (strides : List Int) (size : Nat) : Int :=
  base + ((counts.zip strides).foldl (fun x k => x + max 0 (((k.1 : Int) - 1) * k.2)) 0) + size - 1

/-! ### Checks of operands (R170, R249) -/

/-- Steps 1, 3 to 6 of R170 for bytes lo to hi of a buffer, with the first offset for the trap; `lo` may be negative,
which no buffer holds. -/
def hullCheck (s : State) (r : Req) (op : PortOp) (idx : Nat) (lo hi : Int) : Option TrapCode :=
  match s.part? r.part with
  | none => some Trap.bounds
  | some p =>
    let e := btSeen s r.core p idx r.lane
    if idx = 0 ∨ btCount p ≤ idx ∨ btKind e = 0 ∨ lo < 0 then some Trap.bounds
    else portCheck8 s r p op e idx lo.toNat (hi - lo + 1).toNat

/-- The steps of R170 for the hull of a runner's or a loop's operand, step 2 among them. -/
def hullCheckAll (s : State) (r : Req) (idx : Nat) (lo hi : Int) : Option TrapCode :=
  if idx ≠ 0 ∧ ((s.part? r.part).any fun p => decide (idx < btCount p) &&
      (btKind (btSeen s r.core p idx r.lane) = 6 || btKind (btSeen s r.core p idx r.lane) = 7)) then some Trap.flashdirect
  else hullCheck s r .eread idx lo hi

/-- Step 1 alone. -/
def indexCheck (s : State) (r : Req) (idx : Nat) : Option TrapCode :=
  match s.part? r.part with
  | none => some Trap.bounds
  | some p =>
    if idx = 0 ∨ btCount p ≤ idx ∨ btKind (btSeen s r.core p idx r.lane) = 0 then some Trap.bounds else none

/-- Steps 1, 5 and 6, with a right. -/
def stateCheck (s : State) (r : Req) (right : Nat → Bool) (idx : Nat) : Option TrapCode :=
  match indexCheck s r idx with
  | some c => some c
  | none =>
    match s.part? r.part with
    | none => some Trap.bounds
    | some p =>
      let e := btSeen s r.core p idx r.lane
      if !right e || (btSup e && !r.high) || !peerUp p e then some Trap.rights
      else if !ownerOk r e then some Trap.owner
      else none

/-- A trap of an engine word at its lanes (R239): `BOUNDS` names a handle and the word, the others a place or a buffer. -/
def engineTrap (s : State) (lane tid : Nat) (code : TrapCode) (idx off : Nat) : LaneTrap :=
  if code = Trap.bounds ∨ code = Trap.protect ∨ code = Trap.assayviol then wordTrap s lane tid code
  else if code = Trap.copyrights ∨ code = Trap.bufstate then
    { wordTrap s lane tid code with info := BitVec.ofNat 32 (idx % 2 ^ 16) ++ s.cur.word }
  else accessTrap lane tid code idx off 0 7

/-- A trap of a handle: it and the word (R331). -/
def handleTrap (s : State) (lane tid : Nat) (code : TrapCode) (h : Word) : LaneTrap :=
  { wordTrap s lane tid code with info := h ++ s.cur.word }

/-- The trap that the issuing lane finds, for any active lane of the entry (R239). -/
def forLane (lane tid : Nat) (k : LaneTrap) : LaneTrap := { k with lane, tid }

/-- The comparison of a protected launch: a difference in any active lane is `PROTECT` for all (R242). -/
def engineProtect {α : Type} [DecidableEq α] (f : Thread → α) (s : State) (lane : Nat) (t : Thread) : Option LaneTrap :=
  if s.cur.lanes.any fun x => match s.before? x.2 with
      | some t => (s.twinOf t).any fun u => f t ≠ f (s.before u)
      | none => false
  then some (wordTrap s lane t.tid Trap.protect) else none

/-- The requester of the issuing lane. -/
def State.issuer (s : State) : Option (Nat × Thread × Req) :=
  s.issuing?.map fun x => (x.1, x.2, s.reqOf x.2 s.cur.core x.1)

/-- The physical lane of a thread on a visible lane (R136). -/
def physLane (s : State) (t : Thread) : Nat :=
  if t.twin = 0 then s.laneOf t else 2 * s.laneOf t + boolBit t.shadow

/-! ### Range locks (R189 to R192) -/

/-- Whether two locks keep operations apart: one is a destination, they share bytes, and not one tile. -/
def Lock.clash (a b : Lock) : Bool :=
  a.part = b.part && a.buf = b.buf && decide (a.lo ≤ b.hi) && decide (b.lo ≤ a.hi) && (a.dst || b.dst) &&
    !(a.tile.isSome && a.tile = b.tile)

/-- Whether an operation may take its locks (R191). -/
def canLock (s : State) (slot : Nat) (ls : List Lock) : Bool :=
  decide ((s.locks.countP fun l => l.slot = slot) + ls.length ≤ 256) &&
    ls.all fun l =>
      !(s.locks.any fun k => k.op ≠ l.op && Lock.clash k l) &&
        (!l.dst || (s.part? l.part).all fun p => btHold (btMem s p l.buf) = 0)

/-- Whether the locks and the place that an engine issue needs are free (R191, R239, R250, R258, R263). -/
def engFree (s : State) (n : EngNeed) : Bool :=
  canLock s (slotOfCluster (clusterOf n.core)) (n.locks.map fun l => { l with op := s.nextId }) &&
    (n.place ≠ 1 || decide ((s.copies.countP fun c => c.cluster = clusterOf n.core) < 16)) &&
    (n.place ≠ 2 || decide ((s.runners.countP fun r => r.core = n.core) < 4)) &&
    (n.place ≠ 3 || decide ((s.tileOps.countP fun o => o.kind = .mma && o.core = n.core) < 4))

/-- The wait of an engine issue (R239): wake type 0. -/
def engWait (s : State) (place : Nat) (ls : List Lock) : Option Wait :=
  let n : EngNeed := { core := s.cur.core, place, locks := ls }
  if engFree s n then none else some { wtype := 0, key := 0, need := some n }

/-- Take them. -/
def addLocks (s : State) (ls : List Lock) : State := { s with locks := s.locks ++ ls }

/-! ### Tokens (R240) -/

/-- A token word. -/
def tokenOf (status info : Nat) : Word := BitVec.ofNat 32 (status + info % 2 ^ 24 * 2 ^ 8)

/-- Write a token to the threads that receive it. -/
def giveToken (s : State) (ts : List (Nat × Reg)) (w : Word) : State :=
  ts.foldl (fun s x => deliverRec s x.1 [(.v x.2, w)]) s

/-- The threads of the issuing entry's active lanes with a register. -/
def activeTokens (s : State) (d : Reg) : List (Nat × Reg) := s.cur.lanes.map fun x => (x.2, d)

/-! ### Reads and writes of an engine (R198, R241, R250) -/

/-- A key moved to a run's own allocation (R364). -/
def redirectRun (s : State) (part launch cast run k : Nat) : Nat :=
  if run = 0 then k
  else match s.cast? part launch cast with
    | some c =>
      match c.orig, c.alloc with
      | some (v, o), some (o', n) =>
        if vaultKey v o ≤ k ∧ k < vaultKey v o + n then vaultKey c.cluster o' + (k - vaultKey v o) else k
      | _, _ => k
    | none => k

/-- Whether a page of flash is sealed (R199): full of bytes written under the present key, or sealed by firmware. -/
def pageSealed (s : State) (slot page : Nat) : Bool :=
  s.dev.sealed.contains (slot, page) ||
    (List.range 4096).all fun i => s.dev.flashFresh.contains (slot, 4096 * page + i)

/-- The byte of flash at a key: what was written under the slot's present key to a sealed page, else a free value
(R198, R199). -/
def flashRead (s : State) (k : Nat) : Byte :=
  let slot := (k - 2 ^ 46) / 2 ^ 36
  let off := (k - 2 ^ 46) % 2 ^ 36
  if s.dev.flashFresh.contains (slot, off) && pageSealed s slot (off / 4096) then memRead s.mem k
  else Config.flashByte slot (getL s.dev.flashKeys slot 0) off

/-- Whether a key lies in flash. -/
def isFlash (k : Nat) : Bool := decide (2 ^ 46 ≤ k) && decide (k < 2 ^ 46 + 2 ^ 42)

/-- Who iterates: what the translation of an engine's access needs. -/
structure Eng where
  part : Nat
  launch : Nat
  cast : Nat
  run : Nat
  core : Nat
  deriving DecidableEq, Repr

/-- The place of a byte of a buffer, none where its page is not mapped. -/
def engLocate (s : State) (g : Eng) (idx off : Nat) : Option Nat :=
  (s.part? g.part).bind fun p =>
    let e := btSeen s g.core p idx 0
    if idx = 0 ∨ btCount p ≤ idx ∨ btKind e = 0 then none
    else (locate s g.core p e idx off 0).map fun k => redirectRun s g.part g.launch g.cast g.run k

/-- Whether a buffer lies with a peer that is down: what is read of it is poisoned, what is written is discarded
(R391). -/
def peerGone (s : State) (g : Eng) (idx : Nat) : Bool :=
  (s.part? g.part).any fun p => !peerUp p (btSeen s g.core p idx 0)

/-- Read a byte with its poison mark. -/
def engByte (s : State) (g : Eng) (idx off : Nat) : Option (Byte × Bool) :=
  (engLocate s g idx off).map fun k =>
    if peerGone s g idx then (0, true)
    else if isFlash k then (flashRead s k, poisonedAt s k 1) else (BitVec.ofNat 8 (homePeek s k 1), poisonedAt s k 1)

/-- Read bytes as a value; it is poisoned if any is. -/
def engRead (s : State) (g : Eng) (idx off : Nat) : Nat → Option (Nat × Bool)
  | 0 => some (0, false)
  | n + 1 =>
    match engByte s g idx off, engRead s g idx (off + 1) n with
    | some (b, x), some (v, y) => some (b.toNat + 256 * v, x || y)
    | _, _ => none

/-- Whether the network takes an engine's requests to the place of a byte (R383). -/
def engReach (s : State) (g : Eng) (idx off : Nat) : Bool :=
  (engLocate s g idx off).all (s.reaches (slotOfCluster (clusterOf g.core)))

/-- What engine reads of some offsets leave behind, each of `n` bytes: their rows are activated, and the homes of global
lines combine update-only copies (R186, R324); none where a row holds one back. -/
def engTouch (g : Eng) (idx n : Nat) : List Nat → State → Option State
  | [], s => some s
  | o :: r, s =>
    match engLocate s g idx o with
    | none => engTouch g idx n r s
    | some k => (rowGo s k).bind fun s => engTouch g idx n r (if isFlash k then s else combineAt s k n)

/-- The lowest of some offsets that cannot be read (R333). -/
def missing (s : State) (g : Eng) (idx : Nat) (offs : List Nat) : Option Nat :=
  minBy id (offs.filter fun o => (engLocate s g idx o).isNone)

/-- Write one element; none where its page is not mapped, else with the GWCT. An element does not pass a page. -/
def engWrite (s : State) (g : Eng) (idx off size x : Nat) (poison : Bool) : Option (State × Nat) :=
  (engLocate s g idx off).map fun k =>
    if peerGone s g idx then (s, s.time)
    else
      let r := writeHome s k size x poison
      (r.1, r.2.1)

/-! ### Compressed streams (R247, R248) -/

/-- One block of a stream: a byte that could not be read, a malformed block, or what it decodes to and where the next one
begins. -/
inductive Blk where
  | fault (off : Nat)
  | bad
  | ok (data : List Byte) (poison : Bool) (next : Nat)
  deriving DecidableEq, Repr

/-- Bytes of a stream from an offset on: they and whether any is poisoned, or the offset that could not be read. -/
def streamBytes (get : Nat → Option (Byte × Bool)) (off : Nat) : Nat → Except Nat (List Byte × Bool)
  | 0 => .ok ([], false)
  | n + 1 =>
    match get off with
    | none => .error off
    | some (b, x) =>
      match streamBytes get (off + 1) n with
      | .ok (bs, y) => .ok (b :: bs, x || y)
      | .error k => .error k

/-- The fields of a header (R247). -/
def hdrMethod (h : Nat) : Nat := bitsN h 3 0
def hdrEc (h : Nat) : Nat := bitsN h 7 4
def hdrClen (h : Nat) : Nat := bitsN h 23 8
def hdrUlen (h : Nat) : Nat := bitsN h 39 24

/-- `size` bytes of a list at a position. -/
def sliceAt (bs : List Byte) (i size : Nat) : List Byte := (bs.drop i).take size

/-- Bit `i` of a list of bytes. -/
def bitOfBytes (bs : List Byte) (i : Nat) : Bool := ((bs[i / 8]?).getD 0).getLsbD (i % 8)

/-- The elements of a `ZMASK` body. -/
def zmaskOut (bs : List Byte) (es size : Nat) : List Byte :=
  ((List.range es).foldl (fun (acc : List Byte × Nat) i =>
    if bitOfBytes bs i then (acc.1 ++ sliceAt bs ((es + 7) / 8 + size * acc.2) size, acc.2 + 1)
    else (acc.1 ++ List.replicate size 0, acc.2)) ([], 0)).1

/-- The elements of a `DICT16` body. -/
def dictOut (bs : List Byte) (es size : Nat) : List Byte :=
  (List.range es).flatMap fun i =>
    let b := ((bs[16 * size + i / 2]?).getD 0).toNat
    sliceAt bs (size * (if i % 2 = 0 then b % 16 else b / 16)) size

/-- The body of a block; none where it is malformed (R248). -/
def blockBody (h : Nat) (bs : List Byte) : Option (List Byte) :=
  let u := hdrUlen h
  let size := 2 ^ hdrEc h
  let es := u / size
  match hdrMethod h with
  | 0 => if hdrClen h = u then some bs else none
  | 1 =>
    let n := (List.range es).countP fun i => bitOfBytes bs i
    let spare := (List.range (8 * ((es + 7) / 8))).any fun i => decide (es ≤ i) && bitOfBytes bs i
    if spare ∨ hdrClen h ≠ (es + 7) / 8 + size * n then none else some (zmaskOut bs es size)
  | 2 => if hdrClen h = 16 * size + (es + 1) / 2 then some (dictOut bs es size) else none
  | _ => none

/-- Whether a header is well formed in itself. -/
def hdrOk (h : Nat) : Bool :=
  decide (hdrMethod h ≤ 2) && decide (hdrEc h ≤ 3) && bitsN h 63 40 = 0 && decide (1 ≤ hdrUlen h) &&
    decide (hdrUlen h ≤ 4096) && hdrUlen h % 2 ^ hdrEc h = 0

/-- Decode the block at an offset of a stream of `len` bytes, with `room` bytes of output left. -/
def decodeBlock (get : Nat → Option (Byte × Bool)) (off len room : Nat) : Blk :=
  if len < off + 8 then .bad
  else match streamBytes get off 8 with
    | .error k => .fault k
    | .ok (hb, px) =>
      let h := leNat hb
      if !hdrOk h ∨ len < off + 8 + hdrClen h ∨ room < hdrUlen h then .bad
      else match streamBytes get (off + 8) (hdrClen h) with
        | .error k => .fault k
        | .ok (bs, py) =>
          match blockBody h bs with
          | some d => .ok d (px || py) ((off + 8 + hdrClen h + 7) / 8 * 8)
          | none => .bad

/-- How the decoding of a stream ends. -/
inductive StreamEnd where
  | full
  | bad (block : Nat)
  | fault (off : Nat)
  deriving DecidableEq, Repr

/-- Decode a stream until `room` bytes are out. -/
def decodeStream (get : Nat → Option (Byte × Bool)) (len : Nat) : Nat → Nat → Nat → Nat → List (Byte × Bool) × StreamEnd
  | 0, _, n, room => ([], if room = 0 then .full else .bad n)
  | fuel + 1, off, n, room =>
    if room = 0 then ([], .full)
    else match decodeBlock get off len room with
      | .fault k => ([], .fault k)
      | .bad => ([], .bad n)
      | .ok d px next =>
        let r := decodeStream get len fuel next (n + 1) (room - d.length)
        (d.map (fun b => (b, px)) ++ r.1, r.2)

/-! ### Weight images (R255, R256) -/

/-- K of a type (R256). -/
def kOf (ty : Nat) : Nat := match ty with | 0 => 32 | 1 => 32 | 2 => 64 | 3 => 128 | _ => 64
/-- N of a code (R90). -/
def nOf (ncode : Nat) : Nat := match ncode with | 0 => 32 | 1 => 64 | _ => 128
/-- Bytes of the scale header, of a column, and of the image. -/
def imgHead (ty n : Nat) : Nat := match ty with | 2 => 2 * n | 3 => 4 * n | _ => 0
def imgCol (ty : Nat) : Nat := if ty = 3 then 96 else 64
def imgSize (ty n : Nat) : Nat := imgHead ty n + imgCol ty * n

/-- A byte of a core's weight area. -/
def weightByte (s : State) (core o : Nat) : Option (Byte × Bool) :=
  let k := weightKey core 0 0 + o
  some (memRead s.mem k, poisonedAt s k 1)

/-- Whether a core's slot bears a launch's tag. -/
def tagOk (s : State) (core slot part launch : Nat) : Bool :=
  s.wtags.any fun w => w.core = core && w.slot = slot && w.part = part && w.launch = launch

/-- The header at an offset of the area, where it is well formed, uses no `DICT16` and lies in slots with the right tag. -/
def imgHeader (s : State) (core part launch off : Nat) : Option Nat :=
  if 2 ^ 18 < off + 8 then none
  else
    let h := leNat (memBytes s.mem (weightKey core 0 0 + off) 8)
    let last := off + 8 + hdrClen h
    if !hdrOk h ∨ hdrMethod h = 2 ∨ 2 ^ 18 < last then none
    else if (List.range 32).all fun w => !(decide (off < 8192 * (w + 1)) && decide (8192 * w < last)) || tagOk s core w part launch
    then some h else none

/-- The headers of an image from its first slot on: offset and header of each block, none where R256 gives `BUFSTATE`. -/
def imgHeaders (s : State) (core part launch : Nat) : Nat → Nat → Nat → Option (List (Nat × Nat))
  | 0, _, _ => none
  | fuel + 1, off, room =>
    match imgHeader s core part launch off with
    | none => none
    | some h =>
      if room ≤ hdrUlen h then some [(off, h)]
      else (imgHeaders s core part launch fuel ((off + 8 + hdrClen h + 7) / 8 * 8) (room - hdrUlen h)).map fun r => (off, h) :: r

/-- A body as found, under a header read before (R256): bytes that are not there decode as zero. -/
def blockLoose (h : Nat) (bs : List Byte) : List Byte :=
  let d := if hdrMethod h = 1 then zmaskOut bs (hdrUlen h / 2 ^ hdrEc h) (2 ^ hdrEc h) else bs
  (d ++ List.replicate (hdrUlen h) 0).take (hdrUlen h)

/-- The image's bytes under headers read before, with whether any byte read is poisoned. -/
def imgLoose (s : State) (core : Nat) : List (Nat × Nat) → List Byte × Bool
  | [] => ([], false)
  | (off, h) :: r =>
    let rest := imgLoose s core r
    let k := weightKey core 0 0 + off
    (blockLoose h (memBytes s.mem (k + 8) (hdrClen h)) ++ rest.1, poisonedAt s k (8 + hdrClen h) || rest.2)

/-- The image's bytes under its headers, none where a body is malformed, with whether any byte read is poisoned. -/
def imgBytes (s : State) (core : Nat) : List (Nat × Nat) → Option (List Byte × Bool)
  | [] => some ([], false)
  | (off, h) :: r =>
    match streamBytes (weightByte s core) (off + 8) (hdrClen h) with
    | .error _ => none
    | .ok (bs, px) =>
      match blockBody h bs, imgBytes s core r with
      | some d, some (ds, py) => some (d ++ ds, px || py || poisonedAt s (weightKey core 0 0 + off) 8)
      | _, _ => none

/-- The headers of the image that begins at a slot. -/
def imgAt (s : State) (core part launch slot ty n : Nat) : Option (List (Nat × Nat)) :=
  imgHeaders s core part launch (2 ^ 15) (8192 * slot) (imgSize ty n)

end Sys2Proof.Machine
end

