-- ==== Sys2Proof/Machine/Fetch.lean ====
section
/-! DEFINITION. The checks of a decoded word that come before it acts (R78, R94 to R96, R292, R293). -/

namespace Sys2Proof.Machine

open Sys2Proof (Instr)

/-! ### CSR table (R293) -/

/-- The read level and the write level of a CSR, none where no level may; none at all where the address is not in the
table of the profile. -/
def csrLevels (ctl : Bool) (r : BitVec 12) : Option (Option Level × Option Level) :=
  if r = 0x120 ∨ r = 0x121 then some (some .user, none)
  else if r = 0x111 then some (none, some .mon)
  else if r = 0x10B ∨ r = 0x122 then (if ctl then some (some .sup, some .sup) else none)
  else if 0x200 ≤ r.toNat ∧ r.toNat ≤ 0x217 then (if ctl then some (some .sup, some .mon) else none)
  else if r = 0x001 ∨ r = 0x002 ∨ r = 0x003 ∨ r = 0x110 ∨ r = 0x112 then some (some .sup, some .sup)
  else if 0x100 ≤ r.toNat ∧ r.toNat ≤ 0x10C then some (some .sup, some .sup)
  else none

/-- The accesses of a CSR form: 0 read, 1 write, 2 both (R292). -/
def csrNeed (mode : Nat) (l : Option Level × Option Level) (t : Level) : Bool :=
  let ok (x : Option Level) : Bool := x.any fun y => y.rank ≤ t.rank
  match mode with
  | 0 => ok l.1
  | 1 => ok l.2
  | _ => ok l.1 && ok l.2

/-- `ILLEGAL` or `PRIV` of a CSR form (R292, R293). -/
def csrStatic (ctl : Bool) (mode : Nat) (r : BitVec 12) (d : Reg) (t : Level) : Option TrapCode :=
  match csrLevels ctl r with
  | none => some Trap.illegal
  | some l =>
    if csrWide r && d.toNat % 2 = 1 then some Trap.illegal
    else if !csrNeed mode l t then some Trap.priv
    else none

/-- The level a word needs (R273). -/
def needLevel : Instr → Level
  | .eret _ | .wfi _ | .btinv _ _ | .btsync _ => .sup
  | _ => .user

/-- `ILLEGAL` or `PRIV` of a decoded word for one thread (step 2 of R78). -/
def staticCode (ctl : Bool) (i : Instr) (w : Word) (t : Level) : Option TrapCode :=
  if ctl && pipeOf w = 3 then some Trap.illegal
  else match i with
    | .csrr _ d r => csrStatic ctl 0 r d t
    | .csrw _ v r => csrStatic ctl 1 r v t
    | .csrs _ v r => csrStatic ctl 2 r v t
    | .csrc _ v r => csrStatic ctl 2 r v t
    | i => if t.rank < (needLevel i).rank then some Trap.priv else none

end Sys2Proof.Machine
end

