-- ==== Sys2Proof/Machine/Csr.lean ====
section
/-! DEFINITION. The control and status registers (R63, R84, R162, R280, R291 to R295, R299, R301, R313, R327, R330,
R335, R337, R359, R368, R381, R392) and the four CSR forms. -/

namespace Sys2Proof.Machine

/-! ### Registers -/

/-- The partition whose CSRs a core reaches (R293). -/
def csrPart (s : State) (core : Nat) (t : Thread) : Option Part :=
  if isCtlCore core then s.partOfSlot (core - 1024) else s.part? t.part

/-- The bank that a layer of a control core sees (R298). -/
def Ctl.bank (c : Ctl) (l : Level) : Bank := if l = .mon then c.bankM else c.bankS

/-- Change the bank that a layer sees. -/
def Ctl.setBank (c : Ctl) (l : Level) (f : Bank → Bank) : Ctl :=
  if l = .mon then { c with bankM := f c.bankM } else { c with bankS := f c.bankS }

/-- The trap registers of a requester: those of the thread, or those of the layer's bank. -/
def trapRegs (s : State) (core : Nat) (t : Thread) : Bank :=
  match (if isCtlCore core then s.ctl? (core - 1024) else none) with
  | some c => c.bank t.level
  | none =>
    { trapvec := ((s.part? t.part).map (·.trapvec)).getD 0, trappc := t.trappc, trapcause := t.trapcause,
      trapinfo := t.trapinfo }

/-- Change a trap register of a requester. -/
def setTrapRegs (s : State) (core : Nat) (t : Thread) (f : Bank → Bank) : State :=
  let b := f (trapRegs s core t)
  if isCtlCore core then s.updCtl (core - 1024) fun c => c.setBank t.level f
  else
    let s := s.updPart t.part fun p => { p with trapvec := b.trapvec }
    s.updBoth t.tid fun t => { t with trappc := b.trappc, trapcause := b.trapcause, trapinfo := b.trapinfo }

/-- A PMP register (R299): its region, and which of the three. -/
def pmpNo (r : BitVec 12) : Option (Nat × Nat) :=
  if 0x200 ≤ r.toNat ∧ r.toNat ≤ 0x217 then some ((r.toNat - 0x200) % 8, (r.toNat - 0x200) / 8) else none

def pmpRead (s : State) (core : Nat) (i k : Nat) : DWord :=
  match (s.ctl? (core - 1024)).bind fun c => c.pmp.toList[i]? with
  | some x => if k = 0 then x.cfg.setWidth 64 else if k = 1 then x.base else x.lim.setWidth 64
  | none => 0

/-- A write of a PMP register; a locked region takes none. -/
def pmpWrite (i k : Nat) (v : DWord) (c : Ctl) : Ctl :=
  if h : i < 8 then
    let x := c.pmp[i]
    if bitN x.cfg.toNat 7 = 1 then c
    else
      let y : Pmp :=
        if k = 0 then { x with cfg := v.setWidth 8 &&& 0x8F } else if k = 1 then { x with base := v }
        else { x with lim := v.setWidth 48 }
      { c with pmp := c.pmp.set i y h }
  else c

/-- The value of a register of a partition. -/
def partCsr (s : State) (p : Part) (r : BitVec 12) : DWord :=
  match r.toNat with
  | 0x001 => if p.sbchk then 1 else 0
  | 0x002 => p.swin.setWidth 64
  | 0x003 => p.fspill.setWidth 64
  | 0x104 => p.fltdone.setWidth 64
  | 0x105 => p.btbase
  | 0x106 => p.traplim.setWidth 64
  | 0x107 => p.sglim.setWidth 64
  | 0x108 => p.sysring
  | 0x109 => BitVec.ofNat 64 (sysPosted s p * 2 ^ 16 + p.sysnext % 2 ^ 16)
  | 0x10A => p.rechold
  | 0x10C => p.poolbk
  | 0x110 => p.assayctl.setWidth 64
  | 0x112 => p.finj.setWidth 64
  | 0x120 => p.enacct
  | 0x122 => p.enpol.setWidth 64
  | _ => 0

/-- What `CSRR` returns (R292). -/
def csrRead (s : State) (core : Nat) (t : Thread) (r : BitVec 12) : DWord :=
  match pmpNo r with
  | some (i, k) => pmpRead s core i k
  | none =>
    match r.toNat with
    | 0x100 => (trapRegs s core t).trapvec.setWidth 64
    | 0x101 => (trapRegs s core t).trappc.setWidth 64
    | 0x102 => (trapRegs s core t).trapcause.setWidth 64
    | 0x103 => (trapRegs s core t).trapinfo
    | 0x121 => BitVec.ofNat 64 s.time
    | _ => match csrPart s core t with
      | some p => partCsr s p r
      | none => 0

/-- A write of a register of a partition; reserved and RO fields keep reading as they do (R292). -/
def partCsrWrite (s : State) (core : Nat) (t : Thread) (p : Part) (r : BitVec 12) (v : DWord) : State :=
  let w : Word := v.setWidth 32
  let upd (f : Part → Part) : State := s.updPart p.first f
  match r.toNat with
  | 0x001 => upd fun p => { p with sbchk := w.getLsbD 0 }
  | 0x002 => upd fun p => { p with swin := w.setWidth 16 }
  | 0x003 => upd fun p => { p with fspill := w.setWidth 8 }
  | 0x104 => if w.getLsbD 31 then fltFail s p.first (bitsN w.toNat 30 0) else fltService s p.first (bitsN w.toNat 30 0)
  | 0x105 => upd fun p => { p with btbase := v &&& 0xFFFFFFFFFFFFF00F#64 }
  | 0x106 => upd fun p => { p with traplim := w }
  | 0x107 => upd fun p => { p with sglim := w.setWidth 17 }
  | 0x108 => upd fun p => { p with sysring := v &&& 0xFFFFFFFFFFFFF00F#64 }
  | 0x109 => sysReply s p.first (bitsN w.toNat 15 0)
  | 0x10A => rechold s p.first (v.getLsbD 63) (bitsN v.toNat 31 0)
  | 0x10B => if w.getLsbD 0 then qackSlot s (core - 1024) else s
  | 0x10C => setPoolbk s p.first v
  | 0x110 => upd fun p => { p with assayctl := w &&& 0xFFFFFF01#32 }
  | 0x111 => upd fun p => { p with assaykey := v }
  | 0x112 => setFinj s p.first (some t.tid) w
  | 0x122 => upd fun p => { p with enpol := w.setWidth 16 }
  | _ => s

/-- A write of a CSR (R292). -/
def csrWrite (s : State) (core : Nat) (t : Thread) (r : BitVec 12) (v : DWord) : State :=
  match pmpNo r with
  | some (i, k) => s.updCtl (core - 1024) (pmpWrite i k v)
  | none =>
    match r.toNat with
    | 0x100 => setTrapRegs s core t fun b => { b with trapvec := v.setWidth 32 }
    | 0x101 => setTrapRegs s core t fun b => { b with trappc := v.setWidth 32 }
    | 0x102 => setTrapRegs s core t fun b => { b with trapcause := v.setWidth 32 &&& 0xCFFF#32 }
    | 0x103 => setTrapRegs s core t fun b => { b with trapinfo := v }
    | _ => match csrPart s core t with
      | some p => partCsrWrite s core t p r v
      | none => s

/-! ### The forms (R292, R293) -/

/-- The value that a form takes from its source registers. -/
def csrSource (now : Nat) (t : Thread) (r : BitVec 12) (v : Reg) : DWord :=
  if csrWide r then t.rdV now (v + 1) ++ t.rdV now v else (0 : Word) ++ t.rdV now v

/-- The registers that `CSRR` writes. -/
def csrResult (r : BitVec 12) (d : Reg) (x : DWord) : List (RegRef × Word) :=
  if csrWide r then [(.v d, x.extractLsb' 0 32), (.v (d + 1), x.extractLsb' 32 32)] else [(.v d, x.setWidth 32)]

/-- `ILLEGAL` or `PRIV` of a form on a lane. -/
def csrChk (mode : Nat) (r : BitVec 12) (d : Reg) (s : State) (lane : Nat) (t : Thread) : Option LaneTrap :=
  (csrStatic s.ctlHere mode r d t.level).map fun c => staticTrap s lane t.tid c

/-- A form that writes: each active lane in ascending order, from what the register then holds. -/
def csrStore (h : Hdr) (mode : Nat) (v : Reg) (r : BitVec 12) (f : DWord → DWord → DWord) (s : State) : State :=
  runWord h
    { chk := fun s lane t =>
        firstTrap [csrChk mode r v s lane t, protectIf (fun t => csrSource s.time t r v) s lane t],
      eff := fun s => s.cur.lanes.foldl (fun s x =>
        match s.thread? x.2, s.before? x.2 with
        | some t, some b => csrWrite s s.cur.core t r (f (csrRead s s.cur.core t r) (csrSource s.time b r v))
        | _, _ => s) s } s

/-- `CSRR` (R292). -/
def execCsrr (h : Hdr) (d : Reg) (r : BitVec 12) (s : State) : Outcome :=
  .next (runWord h
    { chk := csrChk 0 r d,
      eff := fun s => sendResult (fun t => csrResult r d (csrRead s s.cur.core t r)) s } s)

/-- `CSRW` (R292). -/
def execCsrw (h : Hdr) (v : Reg) (r : BitVec 12) (s : State) : Outcome :=
  .next (csrStore h 1 v r (fun _ x => x) s)

/-- `CSRS` (R292). -/
def execCsrs (h : Hdr) (v : Reg) (r : BitVec 12) (s : State) : Outcome :=
  .next (csrStore h 2 v r (fun old x => old ||| x) s)

/-- `CSRC` (R292). -/
def execCsrc (h : Hdr) (v : Reg) (r : BitVec 12) (s : State) : Outcome :=
  .next (csrStore h 2 v r (fun old x => old &&& ~~~x) s)

end Sys2Proof.Machine
end

