-- ==== Sys2Proof/Machine/System.lean ====
section
/-! DEFINITION. Words that act on the thread: the end and the move of a segment, system calls, launches from the device,
identities, returns, waits for interrupts, translation shoot-down and digests (R138 to R140, R159, R273 to R277, R289,
R296 to R298, R300, R302). -/

namespace Sys2Proof.Machine

/-! ### Ends of segments (R159, R274) -/

/-- Add ends of segments: the lanes of their threads leave the frontier. -/
def addEnds (s : State) (es : List (Nat × Nat × EndAct)) : State :=
  s.updCur fun c => { c with gone := c.gone ||| maskOf (es.map (·.1)), ends := c.ends ++ es.map (·.2) }

/-- Records that the group has promised so far. -/
def promised (s : State) : Nat :=
  s.cur.ends.countP fun x => match x.2 with
    | .record _ => true
    | .forward _ _ _ => true
    | _ => false

/-- Room for one more record of a thread (R64 step 1). -/
def takeOne (s : State) (t : Thread) : Option State := takeRoom s t.part t.launch (promised s + 1)

/-- The priority of the issuing entry after the group (R137). -/
def curPrio (s : State) : BitVec 4 := s.cur.newPrio.getD ((s.curEntry?.map (·.prio)).getD 0)
def curBuf (s : State) : Nat := (s.curEntry?.map (·.buf)).getD 0

/-- A record of wake type 0 at the fall-through (R274). -/
def yieldInit (s : State) (lane : Nat) : RecInit :=
  { kind := 0, wtype := 0, key := 0, resume := s.cur.fall, prio := curPrio s, buf := curBuf s,
    cluster := clusterOf s.cur.core, lane }

/-- `EXIT` of a control core (R298): U goes to S; S and M return to what they interrupted, or the core waits. -/
def exitControl (s : State) : State :=
  match s.ctl? (s.cur.core - 1024) with
  | none => s
  | some c =>
    match s.thread? c.tid with
    | none => s
    | some t =>
      match t.level with
      | .user =>
        (addEnds s [(0, c.tid, .enter .sup s.cur.fall Trap.layerexit 0)]).updCtl c.slot fun c => { c with idle := true }
      | l =>
        if c.active.contains l && !((c.rest l).isEmpty && c.idle) then addEnds s [(0, c.tid, .back l)]
        else s.updCtl c.slot fun c => { c.leave (c.rest l) with waiting := true, idle := true }

/-- `EXIT` (R159, R298). -/
def execExit (h : Hdr) (s : State) : Outcome :=
  .next (runWord h
    { eff := fun s => if s.ctlHere then exitControl s else addEnds s (s.cur.lanes.map fun x => (x.1, x.2, .exit)) } s)

/-- One lane's `YIELD`: a record where the pool has room, else nothing. -/
def yieldLane (s : State) (x : Nat × Nat) : State :=
  match (s.thread? x.2).bind fun t => takeOne s t with
  | some s => addEnds s [(x.1, x.2, .record (yieldInit s x.1))]
  | none => s

/-- `YIELD` (R273, R274). -/
def execYield (h : Hdr) (s : State) : Outcome :=
  .next (runWord h { wait := recordWait, eff := fun s => if s.ctlHere then s else s.cur.lanes.foldl yieldLane s } s)

/-! ### `SLEEP` (R275) -/

/-- The first try fixes the wake time of the threads that have none. -/
def sleepPre (a : Reg) (s : State) : State :=
  let ts := s.cur.lanes.filterMap fun x => s.before? x.2
  let wake := s.time + ts.foldl (fun m t => max m (t.rdV s.time a).toNat) 0
  s.eachThread fun _ t => { t with sleepAt := some (t.sleepAt.getD wake) }

/-- `SLEEP` (R275). -/
def execSleep (h : Hdr) (a : Reg) (s : State) : Outcome :=
  .next (runWord h
    { chk := fun s lane t => protectIf (fun t => t.rdV s.time a) s lane t,
      pre := sleepPre a,
      wait := fun s =>
        let ks := s.cur.lanes.filterMap fun x => (s.thread? x.2).bind fun t => t.sleepAt.map fun k => (x.1, k % 2 ^ 60)
        if ks.all fun k => decide (k.2 ≤ s.time % 2 ^ 60) then none
        else some { wtype := 4, key := ks.foldl (fun m k => max m k.2) 0, keys := ks },
      eff := fun s => s.eachThread fun _ t => { t with sleepAt := none } } s)

/-! ### `TRAP` (R289, R298) -/

/-- Syscalls of a partition on their way to the ring. -/
def sysWaiting (s : State) (part : Nat) : Nat := s.posts.countP fun q => q.part = part && q.bundle.isNone

/-- The check of the `k`-th entry from the next one on, for one lane. -/
def entryTrap (s : State) (p : Part) (k lane tid : Nat) : Option LaneTrap :=
  let ptr := sysPtr p ((p.sysnext + k) % sysSize p)
  match devLocate s p.first .store ptr 64 with
  | .trap c => some (accessTrap lane tid c (bitsN ptr 63 48) (bitsN ptr 47 0) 1 6)
  | .ok _ key =>
    if sysSize p ≤ k ∨ bitsN (homePeek s key 64) 31 28 ≠ 0 then
      some { lane, tid, code := Trap.retry, info := 0, fault := none, store := none }
    else none

/-- The lanes in ascending order with the traps of their entries: each takes the entry after those that earlier lanes
took; a lane that another check turned away takes none. -/
def entryTraps (s : State) (p : Part) (refused : Nat → Thread → Bool) : List (Nat × Nat) → Nat → List LaneTrap
  | [], _ => []
  | x :: r, k =>
    match s.before? x.2 with
    | none => entryTraps s p refused r k
    | some t =>
      if refused x.1 t || s.cur.traps.any (fun y => y.lane = x.1) then entryTraps s p refused r k
      else match entryTrap s p k x.1 x.2 with
        | some y => y :: entryTraps s p refused r k
        | none => entryTraps s p refused r (k + 1)

/-- The check of one lane's entry. -/
def trapChk (refused : Nat → Thread → Bool) (s : State) (lane : Nat) (t : Thread) : Option LaneTrap :=
  if s.ctlHere then none
  else (s.part? t.part).bind fun p =>
    (entryTraps s p refused s.cur.lanes (sysWaiting s t.part)).find? fun y => y.lane = lane

/-- What a syscall passes: v0 to v5 (R290). -/
def sysArgs (now : Nat) (t : Thread) : Nat :=
  packBits ((List.range 6).map fun i => (32, (t.rdV now (BitVec.ofNat 6 i)).toNat))

/-- One lane's system call: the request to post, and the record that waits for the reply. -/
def trapLane (imm : BitVec 12) (s : State) (x : Nat × Nat) : State :=
  match s.before? x.2 with
  | none => s
  | some t =>
    let q : PostReq :=
      { id := s.nextId, tid := x.2, part := t.part, bundle := none, dst := 0, code := imm.toNat, pc := s.cur.wpc,
        args := sysArgs s.time t, seq := s.nextId }
    let i : RecInit := { yieldInit s x.1 with kind := 3, wtype := 6, key := 2 ^ 16, alsoLive := 3 }
    addEnds { s.bumpId with posts := s.posts ++ [q] } [(x.1, x.2, .record i)]

/-- `TRAP` in a control core (R298): a call to the next layer up. -/
def trapCall (imm : BitVec 12) (s : State) : State :=
  s.cur.lanes.foldl (fun s x =>
    let up : Level := if ((s.thread? x.2).map Thread.level) = some .user then .sup else .mon
    addEnds s [(x.1, x.2, .enter up s.cur.fall Trap.layercall (imm.setWidth 64))]) s

/-- `TRAP` (R289, R298). -/
def execTrap (h : Hdr) (imm : BitVec 12) (s : State) : Outcome :=
  .next (runWord h
    { chk := fun s lane t =>
        let own (lane : Nat) (t : Thread) : Option LaneTrap :=
          firstTrap [if s.ctlHere then none else assayIf s lane t, protectIf (sysArgs s.time) s lane t]
        firstTrap [own lane t, trapChk (fun l u => (own l u).isSome) s lane t],
      eff := fun s => if s.ctlHere then trapCall imm s else s.cur.lanes.foldl (trapLane imm) s } s)

/-! ### Blocks of 128 bytes read by a lane (R195, R265, R277) -/

/-- The trap of one 16-byte piece of a block. -/
def pieceTrap (s : State) (lane : Nat) (t : Thread) (ptr : Nat) : Option LaneTrap :=
  match portCheck s (s.reqOf t s.cur.core lane) .load (bitsN ptr 63 48) (bitsN ptr 47 0) 16 with
  | .trap c => some (accessTrap lane t.tid c (bitsN ptr 63 48) (bitsN ptr 47 0) 0 6)
  | .ok _ k => if poisonedAt s k 16 then some (wordTrap s lane t.tid Trap.poison) else none

/-- The trap of reading `n` pieces at a pointer that is a multiple of `al`. -/
def blockTrap (s : State) (lane : Nat) (t : Thread) (ptr n al : Nat) : Option LaneTrap :=
  let bad := accessTrap lane t.tid Trap.align (bitsN ptr 63 48) (bitsN ptr 47 0) 0 6
  let off := bitsN ptr 47 0 % al ≠ 0
  match pieceTrap s lane t ptr with
  | some k =>
    if k.code = Trap.bounds ∨ k.code = Trap.flashdirect then some k else if off then some bad else some k
  | none =>
    if off then some bad else (List.range n).findSome? fun i => pieceTrap s lane t (ptrAdd ptr (16 * i))

/-- The page faults of the pieces of a block (R332). -/
def pieceFaults (s : State) (lane : Nat) (t : Thread) (ptr n : Nat) : List (Nat × Nat × Nat × Nat) :=
  (List.range n).filterMap fun i => (pieceTrap s lane t (ptrAdd ptr (16 * i))).bind (·.fault)

/-- The load of one 16-byte piece (R195); none where a check fails. -/
def pieceAcc (s : State) (lane : Nat) (t : Thread) (ptr : Nat) : Option Acc :=
  let a : Ask :=
    { op := .load, kind := .load, idx := bitsN ptr 63 48, off := bitsN ptr 47 0, size := 16, ty := 6 }
  match portCheck s (s.reqOf t s.cur.core lane) .load a.idx a.off 16 with
  | .ok e k => some (mkAcc s t lane a e (redirect s t k) s.nextId false)
  | .trap _ => none

/-- Whether the network drops the read of a block (R383). -/
def blockDropped (s : State) (lane : Nat) (t : Thread) (ptr n : Nat) : Bool :=
  (List.range n).any fun i => (pieceAcc s lane t (ptrAdd ptr (16 * i))).any fun a =>
    !s.reaches (slotOfCluster (clusterOf a.core)) a.addr

/-- Whether the read of a block of this word was dropped before: nothing answers it. -/
def blockLost (s : State) (t : Thread) : Bool := s.held.any fun b => b.tid = t.tid && b.pc = s.cur.wpc && b.lost

/-- Whether the read of a block can be performed now: no earlier access of the thread holds it back (R182, R184), its row
serves it (R324), and the network delivers it (R383). -/
def blockReady (s : State) (lane : Nat) (t : Thread) (ptr n : Nat) : Bool :=
  !blockLost s t && !blockDropped s lane t ptr n &&
    (List.range n).all fun i => (pieceAcc s lane t (ptrAdd ptr (16 * i))).all fun a =>
      mayPerform s a && ((l1Hit s a).isSome || rowFree s s.nextId a.addr)

/-- A read of a block that is dropped is counted, once (R383). -/
def loseBlock (s : State) (lane : Nat) (t : Thread) (ptr n : Nat) : State :=
  if blockDropped s lane t ptr n && !blockLost s t then
    dropFlit { s with held := { tid := t.tid, pc := s.cur.wpc, data := 0, bad := false, lost := true } :: s.held }
  else s

/-- What a piece reads: a lease copy's bytes or the home's (R172, R176). -/
def pieceRead (s : State) (lane : Nat) (t : Thread) (ptr : Nat) : Nat :=
  match pieceAcc s lane t ptr with
  | some a => match l1Hit s a with
    | some c => leNat ((c.data.drop (a.addr % 128)).take 16)
    | none => homePeek s a.addr 16
  | none => 0

/-- The block of `n` pieces. -/
def blockRead (s : State) (lane : Nat) (t : Thread) (ptr n : Nat) : Nat :=
  (List.range n).foldl (fun x i => x + pieceRead s lane t (ptrAdd ptr (16 * i)) * 2 ^ (128 * i)) 0

/-- What the read of one piece leaves behind, as any load's (R195): read at home, its line is combined (R186), comes into
its slice (R172) and takes the lease copy that R173 permits (R176); the thread has seen it (R184). -/
def pieceNote (lane : Nat) (t : Thread) (s : State) (ptr : Nat) : State :=
  match pieceAcc s lane t ptr with
  | some a => match l1Hit s a with
    | some c => noteCopy s (some t.tid) c a.addr 16
    | none => leaseAfter (noteSeen (l2Bring (combineAt s a.addr 16) a.addr a.policy) (some t.tid) a.addr 16) a true
  | none => s

/-- What the read of a block leaves behind; it activates one row (R324). -/
def blockNote (s : State) (lane : Nat) (t : Thread) (ptr n : Nat) : State :=
  let s := match pieceAcc s lane t ptr with
    | some a => if (l1Hit s a).isSome then s else touchRow s s.nextId a.addr
    | none => s
  (List.range n).foldl (fun s i => pieceNote lane t s (ptrAdd ptr (16 * i))) s

/-! ### Blocks held while their word waits (R195) -/

/-- The block that the issuing thread's word holds. -/
def heldBlock (s : State) (t : Thread) : Option HeldBlock := s.held.find? fun b => b.tid = t.tid && b.pc = s.cur.wpc && !b.lost

/-- The trap of reading a block that is not held yet. -/
def heldTrap (s : State) (lane : Nat) (t : Thread) (ptr n al : Nat) : Option LaneTrap :=
  if (heldBlock s t).isSome then none
  else (blockTrap s lane t ptr n al).map fun k =>
    if k.fault.isSome then { k with also := pieceFaults s lane t ptr n } else k

/-- Whether the block is held or can be read now. -/
def heldReady (s : State) (lane : Nat) (t : Thread) (ptr n : Nat) : Bool :=
  (heldBlock s t).isSome || blockReady s lane t ptr n

/-- The block: the one held, or as it is read now. -/
def heldRead (s : State) (lane : Nat) (t : Thread) (ptr n : Nat) : Nat :=
  ((heldBlock s t).map (·.data)).getD (blockRead s lane t ptr n)

/-- Read a block and hold it until the word issues, or lose it. -/
def holdBlock (s : State) (lane : Nat) (t : Thread) (ptr n : Nat) (bad : Bool) : State :=
  if (heldBlock s t).isSome then s
  else if !blockReady s lane t ptr n then loseBlock s lane t ptr n
  else
    let b : HeldBlock := { tid := t.tid, pc := s.cur.wpc, data := blockRead s lane t ptr n, bad }
    let s := blockNote s lane t ptr n
    { s with held := b :: s.held }

/-- The word issues: its block is let go. -/
def letGo (s : State) (t : Thread) : State := { s with held := s.held.filter fun b => !(b.tid = t.tid && b.pc = s.cur.wpc) }

/-! ### `LAUNCH` (R277) -/

/-- One lane's bundle is read and on its way to the queue of its launch. -/
def launchLane (word : Nat) (d : Reg) (a : PairNo) (s : State) (x : Nat × Nat) : State :=
  match s.before? x.2, s.curLaunch? with
  | some t, some l =>
    let q : PostReq :=
      { id := s.nextId, tid := x.2, part := t.part, bundle := some (blockRead s x.1 t (t.rdW s.time a).toNat 8, l.queue),
        dst := d, code := 0, pc := s.cur.wpc, args := 0, seq := s.nextId, word }
    let s := blockNote s x.1 t (t.rdW s.time a).toNat 8
    { s.bumpId with posts := s.posts ++ [q] }
  | _, _ => s

/-- Whether every lane's bundle can be read now. -/
def launchReady (a : PairNo) (s : State) : Bool :=
  s.cur.lanes.all fun x => (s.before? x.2).all fun t => blockReady s x.1 t (t.rdW s.time a).toNat 8

/-- Bundles whose reads the network drops are counted (R383). -/
def launchLost (a : PairNo) (s : State) : State :=
  s.cur.lanes.foldl (fun s x => match s.before? x.2 with
    | some t => loseBlock s x.1 t (t.rdW s.time a).toNat 8
    | none => s) s

/-- `LAUNCH` (R273, R277). -/
def execLaunch (h : Hdr) (d : Reg) (a : PairNo) (s : State) : Outcome :=
  .next (runWord h
    { chk := fun s lane t =>
        if s.ctlHere then none
        else firstTrap [assayIf s lane t, protectIf (fun t => t.rdW s.time a) s lane t,
          blockTrap s lane t (t.rdW s.time a).toNat 8 128],
      pre := fun s => if s.ctlHere then s else launchLost a s,
      wait := fun s => if s.ctlHere || launchReady a s then none else some homeWait,
      eff := fun s =>
        if s.ctlHere then sendResult (fun _ => [(.v d, 2)]) s
        else (s.cur.lanes.foldl (launchLane s.nextId d a) s).eachThread fun _ t => t.pend (.v d) } s)

/-! ### `FWDH` (R67, R276) -/

/-- Whether another device is paired with a partition (R391). -/
def paired (p : Part) (dev : Nat) : Bool := p.peers.any fun x => x.up && x.dev.toNat = dev

/-- The status of a forward but for room (R276). -/
def fwdStatus (s : State) (t : Thread) (w : Nat) : Nat :=
  match s.part? t.part, s.launch? t.part t.launch with
  | some p, some l =>
    let far := bitN w 13 = 1
    let pinned := (s.cast? t.part t.launch t.cast).any fun c => c.assay.isSome
    if bitsN w 31 14 ≠ 0 ∨ bitN w 7 ≠ 0 then 2
    else if !far && !p.hasCluster (bitsN w 6 0) then 2
    else if far && !paired p (bitsN w 12 8) then 2
    else if pinned then 1
    else if far && (!l.portable || max (bitsN l.bundle 735 704) (bitsN l.kinfo 159 128) ≠ 0 ||
        max (bitsN l.bundle 767 736) (bitsN l.kinfo 191 160) ≠ 0) then 1
    else 0
  | _, _ => 2

/-- Where a forward goes: a cluster of the device, or, from 256 on, another device. -/
def fwdTarget (w : Nat) : Nat := if bitN w 13 = 1 then 256 + 128 * bitsN w 12 8 + bitsN w 6 0 else bitsN w 6 0

/-- One lane's forward: the status into vd, and the record that travels. -/
def fwdLane (d a : Reg) (convoy : Nat) (s : State) (x : Nat × Nat) : State :=
  match s.before? x.2 with
  | none => s
  | some t =>
    let w := (t.rdV s.time a).toNat
    let put (s : State) (st : Nat) : State := s.updBoth x.2 fun t => t.setV d (BitVec.ofNat 32 st)
    if s.ctlHere then put s 4
    else
      let st := fwdStatus s t w
      if st ≠ 0 then put s st
      else match takeOne s t with
        | none => put s 3
        | some s' =>
          let i := yieldInit s' x.1
          let e : EndAct := if fwdTarget w = clusterOf s'.cur.core then .record i else .forward i (fwdTarget w) convoy
          addEnds (put s' 0) [(x.1, x.2, e)]

/-- `FWDH` (R273, R276). -/
def execFwdh (h : Hdr) (d a : Reg) (s : State) : Outcome :=
  .next (runWord h
    { chk := fun s lane t => protectIf (fun t => t.rdV s.time a) s lane t,
      wait := recordWait,
      eff := fun s => s.cur.lanes.foldl (fwdLane d a s.nextId) s.bumpId } s)

/-! ### `RDS` (R69, R138 to R140) -/

/-- What a thread's identity selectors read. -/
def rdsThread (s : State) (t : Thread) (sel : Nat) : Nat :=
  let l := s.launch? t.part t.launch
  let lane := s.laneOf t
  match sel with
  | 0 => t.tic
  | 1 => t.cast
  | 2 => if 2 ^ 32 ≤ t.cast then 1 else (l.map (·.ncast)).getD 0
  | 3 => if 2 ^ 32 ≤ t.cast then ((s.cast? t.part t.launch t.cast).map (·.threads)).getD 0 else (l.map (·.castsz)).getD 0
  | 4 => lane
  | 5 => onesBelow s.active lane
  | 6 => ones s.active
  | 7 => s.cur.slot
  | 8 => s.cur.core
  | 9 => clusterOf s.cur.core
  | 10 => (l.map fun l => l.gangNo t.cast).getD 0
  | 11 => if 2 ^ 32 ≤ t.cast then 0 else (l.map fun l => t.cast % max l.gang 1).getD 0
  | 12 => t.launch
  | 13 => (l.map Launch.region).getD 0
  | 16 => ((s.curEntry?).map fun e => e.prio.toNat).getD 0
  | 17 => t.kind
  | 18 => t.wakest.toNat
  | _ => 0

/-- A selector's value (R138 to R140). -/
def rdsValue (s : State) (t : Thread) (sel : Nat) : Word :=
  if sel = 14 then BitVec.ofNat 32 s.time
  else if sel = 15 then BitVec.ofNat 32 (s.time / 2 ^ 32)
  else if sel = 19 then t.acktag
  else if sel = 20 then t.ackt
  else if s.ctlHere then (if sel = 6 then 1 else 0)
  else BitVec.ofNat 32 (rdsThread s t sel)

/-- `RDS` (R138). -/
def execRds (h : Hdr) (d sel : Reg) (s : State) : Outcome :=
  .next (runWord h { eff := fun s => sendResult (fun t => [(.v d, rdsValue s t sel.toNat)]) s } s)

/-! ### `ERET`, `WFI` (R296 to R298) -/

/-- `ERET` on a compute core (R296): each lane goes on where its `TRAPPC` says. -/
def eretLanes (s : State) : State :=
  let buf (t : Thread) : Nat := ((s.launch? t.part t.launch).map (·.codeBuf)).getD 0
  let ts := s.cur.lanes.filterMap fun x => (s.before? x.2).map fun t =>
    ({ lane := x.1, pc := t.trappc &&& 0xFFFFFFFC#32, prio := BitVec.ofNat 4 (bitsN t.trapcause.toNat 11 8),
       buf := buf t } : Target)
  (s.eachThread fun _ t => t.leaveHandler).updCur fun c => { c with transfers := c.transfers ++ ts }

/-- `ERET` (R296, R298). -/
def execEret (h : Hdr) (s : State) : Outcome :=
  .next (runWord h
    { chk := privIf .sup,
      eff := fun s =>
        if s.ctlHere then
          s.cur.lanes.foldl (fun s x =>
            addEnds s [(x.1, x.2, .back (((s.thread? x.2).map Thread.level).getD .sup))]) s
        else eretLanes s } s)

/-- The layer that takes an interrupt source (R385). -/
def sourceLevel (src : Nat) : Level := if 4 ≤ src then .mon else .sup

/-- `WFI` (R297): the core waits unless an interrupt for the current layer or a higher one is pending. -/
def execWfi (h : Hdr) (s : State) : Outcome :=
  .next (runWord h
    { chk := privIf .sup,
      eff := fun s =>
        if s.ctlHere then
          s.updCtl (s.cur.core - 1024) fun c =>
            let lvl := ((s.thread? c.tid).map Thread.level).getD .mon
            if c.pending.any fun x => decide (lvl.rank ≤ (sourceLevel x).rank) then c else { c with waiting := true }
        else s } s)

/-! ### `BTINV`, `BTSYNC` (R171, R300) -/

/-- One lane posts a removal; an index outside the table has no effect. -/
def btinvLane (a : Reg) (s : State) (x : Nat × Nat) : State :=
  match s.before? x.2 with
  | none => s
  | some t =>
    let idx := bitsN (t.rdV s.time a).toNat 15 0
    match csrPart s s.cur.core t with
    | some p =>
      if idx < btCount p then
        { s with btinvs := s.btinvs ++ [{ part := p.first, idx, tid := x.2, acted := false, waits := [] }] }
      else s
    | none => s

/-- `BTINV` (R300). -/
def execBtinv (h : Hdr) (a : Reg) (s : State) : Outcome :=
  .next (runWord h
    { chk := fun s lane t => firstTrap [privIf .sup s lane t, protectIf (fun t => t.rdV s.time a) s lane t],
      eff := fun s => s.cur.lanes.foldl (btinvLane a) s } s)

/-- `BTSYNC` (R300). -/
def execBtsync (h : Hdr) (s : State) : Outcome :=
  .next (runWord h
    { chk := privIf .sup,
      wait := fun s => if s.cur.lanes.all fun x => s.btsyncOk x.2 then none else some { wtype := 1, key := 7 },
      eff := fun s => { s with btinvs := s.btinvs.filter fun b => !(b.acted && s.cur.lanes.any fun x => x.2 = b.tid) } } s)

/-! ### `DIG` (R302) -/

/-- One lane's block of the digest. -/
def digLane (a : Reg) (s : State) (x : Nat × Nat) : State :=
  match s.before? x.2 with
  | some t =>
    if s.selected t then
      (addDigest s t 0 (t.tic * 2 ^ 32 + t.digs) 4 (t.rdV s.time a).toNat).updBoth x.2 fun t => { t with digs := t.digs + 1 }
    else s
  | none => s

/-- `DIG` (R302). -/
def execDig (h : Hdr) (a : Reg) (s : State) : Outcome :=
  .next (runWord h
    { chk := fun s lane t => protectIf (fun t => t.rdV s.time a) s lane t,
      eff := fun s => if s.ctlHere then s else s.cur.lanes.foldl (digLane a) s } s)

end Sys2Proof.Machine
end

