-- ==== Sys2Proof/Machine/Copy.lean ====
section
/-! DEFINITION. The Tundish: copies and the states of destination buffers (R243 to R246, R249 to R254, R271). -/

namespace Sys2Proof.Machine

/-! ### The parameter block (R243 to R245) -/

def cSrc (b : Nat) : Nat := bitsN b 63 0
def cDst (b : Nat) : Nat := bitsN b 127 64
def cCounts (b : Nat) : List Nat := (List.range 5).map fun k => bitsN b (159 + 32 * k) (128 + 32 * k)
def cSstr (b : Nat) : List Int := (List.range 5).map fun k => sgn 32 (bitsN b (319 + 32 * k) (288 + 32 * k))
def cDstr (b : Nat) : List Int := (List.range 5).map fun k => sgn 32 (bitsN b (479 + 32 * k) (448 + 32 * k))
def cEsize (b : Nat) : Nat := bitsN b 610 608
def cTarget (b : Nat) : Nat := bitsN b 612 611
def cDecomp (b : Nat) : Bool := bitN b 613 = 1
def cProducer (b : Nat) : Nat := bitsN b 617 615
/-- The length of a compressed stream (R245). -/
def cStream (b : Nat) : Nat := bitsN b 319 288
/-- The size of an element, the number of elements and the size of the copy. -/
def cElem (b : Nat) : Nat := 2 ^ cEsize b
def cTotal (b : Nat) : Nat := iterTotal (cCounts b)
def cSize (b : Nat) : Nat := cElem b * cTotal b

/-- The hulls of the operands: lowest and highest offset. -/
def cSrcHull (b : Nat) : Int × Int :=
  if cDecomp b then ((bitsN (cSrc b) 47 0 : Int), (bitsN (cSrc b) 47 0 : Int) + cStream b - 1)
  else (hullLo (bitsN (cSrc b) 47 0) (cCounts b) (cSstr b), hullHi (bitsN (cSrc b) 47 0) (cCounts b) (cSstr b) (cElem b))
def cDstBase (b : Nat) : Nat := if cTarget b = 3 then bitsN (cDst b) 17 0 else bitsN (cDst b) 47 0
def cDstHull (b : Nat) : Int × Int :=
  (hullLo (cDstBase b) (cCounts b) (cDstr b), hullHi (cDstBase b) (cCounts b) (cDstr b) (cElem b))

/-- Whether a target suits a kind of buffer (R243). -/
def targetFits (target kind : Nat) : Bool :=
  match target with
  | 0 => kind = 1 || kind = 7 || kind = 8
  | 1 => kind = 2
  | 2 => kind = 3
  | _ => true

/-- Whether a block breaks a rule of R245; `kind` is that of the destination buffer. -/
def copyBad (b kind : Nat) : Bool :=
  let z := cElem b
  let mul (x : Int) : Bool := x % (z : Int) = 0
  bitsN b 1023 618 ≠ 0 || bitN b 614 ≠ 0 || cEsize b = 7 || !mul (bitsN (cSrc b) 47 0) || !mul (cDstBase b) ||
    !((cDstr b).all mul) || !(cDecomp b || (cSstr b).all mul) || !targetFits (cTarget b) kind ||
    (cTarget b = 3 && (bitsN (cDst b) 63 18 ≠ 0 || cDecomp b ||
      (cTotal b ≠ 0 && (decide ((cDstHull b).1 < 0) || decide (2 ^ 18 ≤ (cDstHull b).2))))) ||
    (cDecomp b && !(((cSstr b).drop 1).all fun x => x = 0))

/-- The kind of a buffer as a requester sees it. -/
def idxKind (s : State) (r : Req) (idx : Nat) : Nat :=
  match s.part? r.part with
  | none => 0
  | some p => if idx = 0 ∨ btCount p ≤ idx then 0 else btKind (btSeen s r.core p idx r.lane)

/-- The kind of the destination buffer; an index that names none has kind 0, which suits no `TARGET`
(notes/assumptions/108.md). -/
def copyKind (s : State) (r : Req) (b : Nat) : Nat := idxKind s r (bitsN (cDst b) 63 48)

/-- The first check of the operands that fails (R249 step 5): code, buffer and offset. A log cannot be read through its
own buffer (R199; notes/assumptions/112.md). -/
def copyHulls (s : State) (r : Req) (b : Nat) : Option (TrapCode × Nat × Nat) :=
  let si := bitsN (cSrc b) 63 48
  let di := bitsN (cDst b) 63 48
  let src :=
    if cTotal b = 0 then indexCheck s r si
    else match hullCheck s r .eread si (cSrcHull b).1 (cSrcHull b).2 with
      | some c => some c
      | none => if idxKind s r si = 7 then some Trap.rights else none
  let dst :=
    if cTarget b = 3 then none
    else if cTotal b = 0 then indexCheck s r di else hullCheck s r .ewrite di (cDstHull b).1 (cDstHull b).2
  match src, dst with
  | some c, _ => some (c, si, (cSrcHull b).1.toNat)
  | none, some c => some (c, di, (cDstHull b).1.toNat)
  | none, none => none

/-- The state buffer's own checks (R249 step 6). -/
def copyState (s : State) (r : Req) (b st : Nat) : Option TrapCode :=
  if st = 0 then none
  else if cTarget b ≠ 3 ∧ st ≠ bitsN (cDst b) 63 48 then some Trap.copyrights
  else match indexCheck s r st with
    | some c => some c
    | none =>
      let kind := ((s.part? r.part).map fun p => btKind (btSeen s r.core p st r.lane)).getD 0
      if kind = 1 ∨ kind = 2 ∨ kind = 3 then stateCheck s r btD st else some Trap.copyrights

/-! ### State operations at the home (R251, R252, R254, R271) -/

/-- A share table's entry: pointer, and its value read at supervisor level. -/
def sharePtr (e i : Nat) : Nat := ptrAdd (btShares e) (16 * i)
def shareGet (s : State) (part e i : Nat) : Option Nat := devRead s part (sharePtr e i) 16
/-- Write an entry, where it passes the checks. -/
def sharePut (s : State) (part e i x : Nat) : Option State :=
  match devLocate s part .store (sharePtr e i) 16 with
  | .ok _ k => some (writeHome s k 16 x false).1
  | .trap _ => none
def shExpect (x : Nat) : Nat := bitsN x 31 0
def shCommit (x : Nat) : Nat := bitsN x 63 32
def shDeliv (x : Nat) : Nat := bitsN x 95 64
def shMake (expect commit deliv : Nat) : Nat := packBits [(32, expect), (32, commit), (32, deliv), (32, 0)]

/-- What an access to a table leaves behind: one entry, or the whole of it (R186, R324, R383). -/
def touchShares (s : State) (part buf : Nat) (i : Option Nat) : State :=
  match s.part? part with
  | none => s
  | some p =>
    match i with
    | some i => devTouch s part .store (sharePtr (btMem s p buf) i) 16
    | none => devTouchBlock s part .store (sharePtr (btMem s p buf) 0) 16 8

/-- Write the whole table from an arming block. -/
def armShares (s : State) (part e : Nat) (shares : List Nat) : Option State :=
  (List.range 8).foldl (fun o i => o.bind fun s => sharePut s part e i (shMake (shares.getD i 0) 0 0)) (some s)

/-- A change of state, with the wakes on it (R55). -/
def changeState (s : State) (p : Part) (buf st : Nat) : State := checkWakes (setBufState (checkWakes s p.first 2) p buf st) p.first 2

/-- Note that a gang changed a buffer's state (R339). -/
def noteChanged (s : State) (part buf tid : Nat) : State :=
  match s.thread? tid with
  | none => s
  | some t =>
    match s.launch? part t.launch with
    | none => s
    | some l => s.updPart part fun p => { p with changed := (buf, l.num, l.gangOf t.cast) :: p.changed.filter fun x => x.1 ≠ buf }

/-- Perform a state operation: the state after it with whether a copy was accounted, or the trap (R252). -/
def performBufOp (s : State) (b : BufOp) : Except TrapCode (State × Bool) :=
  match s.part? b.part with
  | none => .error Trap.bounds
  | some p =>
    let e := btMem s p b.buf
    let st := btState e
    match b.kind with
    | .arm shares =>
      if (shares.all fun x => x = 0) ∨ st ≠ 1 then .error Trap.bufstate
      else match armShares s b.part e shares with
        | none => .error Trap.bufstate
        | some s =>
          let s : State := { s with deliveries := s.deliveries.filter fun d => !(d.part = b.part && d.buf = b.buf) }
          .ok (noteChanged (changeState s p b.buf 2) b.part b.buf b.tid, false)
    | .account producer size =>
      if st = 0 then .ok (s, false)
      else if st ≠ 2 then .error Trap.bufstate
      else match shareGet s b.part e producer with
        | none => .error Trap.bufstate
        | some x =>
          if shExpect x = 0 then .error Trap.copyrights
          else if shExpect x < shCommit x + size then .error Trap.bufstate
          else match sharePut s b.part e producer (shMake (shExpect x) (shCommit x + size) (shDeliv x)) with
            | some s => .ok (s, true)
            | none => .error Trap.bufstate
    | .take =>
      if st = 3 then .ok (noteChanged (changeState s p b.buf 4) b.part b.buf b.tid, false) else .error Trap.bufstate
    | .free =>
      if st = 4 then
        .ok ((changeState s p b.buf 1).updPart b.part fun p => { p with changed := p.changed.filter fun x => x.1 ≠ b.buf }, false)
      else .error Trap.bufstate

/-- What a state operation leaves behind at the share table: an arming that is performed writes it, a copy's account of a
buffer in use changes an entry. -/
def bufOpTouch (s : State) (b : BufOp) : State :=
  match b.kind with
  | .arm shares =>
    if (s.part? b.part).any (fun p => btState (btMem s p b.buf) = 1) && !(shares.all fun x => x = 0) then touchShares s b.part b.buf none else s
  | .account producer _ =>
    if (s.part? b.part).any fun p => btState (btMem s p b.buf) = 2 then touchShares s b.part b.buf (some producer) else s
  | _ => s

/-- The state operation of the word at an offset that the active lanes have under way. -/
def bufOpHere (s : State) : Option BufOp :=
  s.bufOps.find? fun b => b.pc = s.cur.wpc && s.cur.lanes.any fun x => x.2 = b.tid

/-- Send a state operation to the buffer's home, once (R271): it carries the count of every active thread. -/
def sendBufOp (s : State) (buf : Nat) (k : BufOpKind) : State :=
  if (bufOpHere s).isSome then s
  else match s.issuing? with
    | none => s
    | some (_, t) =>
      let order := s.cur.lanes.filterMap fun x => (s.thread? x.2).map fun t => (x.2, t.stateOps)
      let b : BufOp :=
        { id := s.nextId, part := t.part, buf, kind := k, tid := t.tid, pc := s.cur.wpc, order, stage := .sent }
      { s.bumpId.eachThread fun _ t => { t with stateOps := t.stateOps + 1 } with bufOps := s.bufOps ++ [b] }

/-- The word waits until the home has answered (R254). -/
def bufOpWait (s : State) : Option Wait :=
  match bufOpHere s with
  | some b => match b.stage with
    | .sent => some homeWait
    | _ => none
  | none => none

/-- A trap that the home answered. -/
def bufOpTrap (s : State) (lane : Nat) (t : Thread) : Option LaneTrap :=
  match bufOpHere s with
  | some b => match b.stage with
    | .refused c => some (engineTrap s lane t.tid c b.buf 0)
    | _ => none
  | none => none

/-- The answered operation goes. -/
def dropBufOp (s : State) : State :=
  match bufOpHere s with
  | some b => { s with bufOps := s.bufOps.filter fun x => x.id ≠ b.id }
  | none => s

/-! ### `COPY` (R249, R250) -/

/-- What the issuing lane's `COPY` names: the block, whether it writes `BADPARAM`, and the state buffer. -/
structure CopyArgs where
  lane : Nat
  thread : Thread
  req : Req
  ptr : Nat
  blk : Nat
  bad : Bool
  state : Nat

def copyArgs (s : State) (a : PairNo) (b : Reg) : Option CopyArgs :=
  s.issuer.map fun x =>
    let ptr := (x.2.1.rdW s.time a).toNat
    let blk := heldRead s x.1 x.2.1 ptr 8
    { lane := x.1, thread := x.2.1, req := x.2.2, ptr, blk,
      bad := ((heldBlock s x.2.1).map (·.bad)).getD (copyBad blk (copyKind s x.2.2 blk)),
      state := bitsN (x.2.1.rdV s.time b).toNat 15 0 }

/-- Step 1 (R249): only producer threads of one cast of a kernel that may produce. -/
def producersOnly (s : State) : Bool :=
  let ts := s.cur.lanes.filterMap fun x => s.before? x.2
  (ts.all fun t => decide (t.tic < 32)) && (ts.all fun t => (ts.head?).any fun u => u.cast = t.cast) &&
    (s.curLaunch?).any fun l => bitN l.kinfo 40 = 1

/-- The trap of a `COPY` (R249 steps 1 to 7): the steps are taken once, at the first try that reads the block. -/
def copyTrap (a : PairNo) (b : Reg) (s : State) (lane : Nat) (t : Thread) : Option LaneTrap :=
  match copyArgs s a b with
  | none => none
  | some x =>
    if (heldBlock s x.thread).isSome then bufOpTrap s lane t
    else if !producersOnly s then some (engineTrap s lane t.tid Trap.copyrights 0 0)
    else match blockTrap s x.lane x.thread x.ptr 8 128 with
      | some k => some (forLane lane t.tid k)
      | none =>
        if x.bad || !blockReady s x.lane x.thread x.ptr 8 then none
        else if s.selected x.thread ∧ cTarget x.blk = 0 then some (engineTrap s lane t.tid Trap.assayviol 0 0)
        else match copyHulls s x.req x.blk with
          | some (c, idx, off) => some (engineTrap s lane t.tid c idx off)
          | none => match copyState s x.req x.blk x.state with
            | some c => some (engineTrap s lane t.tid c x.state 0)
            | none => none

/-- The locks of a copy (R268). -/
def copyLocks (op part slot b : Nat) : List Lock :=
  if cTotal b = 0 then []
  else
    let l (ptr : Nat) (h : Int × Int) (dst : Bool) : Lock :=
      { op, part, slot, buf := bitsN ptr 63 48, lo := h.1.toNat, hi := h.2.toNat, dst, tile := none }
    l (cSrc b) (cSrcHull b) false :: (if cTarget b = 3 then [] else [l (cDst b) (cDstHull b) true])

/-- A copy as it starts. -/
def newCopy (id : Nat) (t : Thread) (l : Launch) (core blk st : Nat) (counted : Bool) (toks : List (Nat × Reg)) (pc : Word) :
    CopyOp :=
  { id, part := t.part, launch := t.launch, gang := some (l.gangOf t.cast), cast := t.cast, run := t.run, vf := l.vf,
    proc := l.proc, level := t.level, cluster := clusterOf core, issuer := some t.tid, tokens := toks, blk, state := st,
    accounted := counted, vec := 0, paused := none, retry := none, stopped := false, prologue := false, gwct := 0,
    order := [], pc }

/-- The first try reads the block; a copy with a state buffer is accounted (R249 steps 2 and 7). -/
def copyPre (a : PairNo) (b : Reg) (s : State) : State :=
  match copyArgs s a b with
  | some x =>
    let ready := heldReady s x.lane x.thread x.ptr 8
    let s := holdBlock s x.lane x.thread x.ptr 8 x.bad
    if !ready ∨ x.bad ∨ x.state = 0 then s else sendBufOp s x.state (.account (cProducer x.blk) (cSize x.blk))
  | none => s

/-- What a `COPY` waits for: its block, its accounting, its locks and its place (R191, R250). -/
def copyWait (a : PairNo) (b : Reg) (s : State) : Option Wait :=
  match copyArgs s a b with
  | some x =>
    if !heldReady s x.lane x.thread x.ptr 8 then some homeWait
    else if x.bad then none
    else match bufOpWait s with
      | some w => some w
      | none =>
        engWait s 1 (copyLocks s.nextId x.req.part (slotOfCluster (clusterOf s.cur.core)) x.blk)
  | none => none

/-- The copy begins, or its token says `BADPARAM`. -/
def copyEff (d : Reg) (a : PairNo) (b : Reg) (s : State) : State :=
  match copyArgs s a b, s.curLaunch? with
  | some x, some l =>
    let s := letGo (s.eachThread fun _ t => t.pend (.v d)) x.thread
    if x.bad then giveToken s (activeTokens s d) (tokenOf 1 0)
    else
      let counted := (bufOpHere s).any fun b => b.stage = .performed true
      let s := dropBufOp s
      let c := newCopy s.nextId x.thread l s.cur.core x.blk x.state counted (activeTokens s d) s.cur.wpc
      let c := { c with lanes := ((s.cur.lanes.head?).map fun x => (laneBit x.1).toNat).getD 0 }
      let s := addLocks s (copyLocks c.id c.part (slotOfCluster c.cluster) x.blk)
      { s.bumpId with copies := s.copies ++ [c] }
  | _, _ => s

/-- `COPY` (R249). -/
def execCopy (h : Hdr) (d : Reg) (a : PairNo) (b : Reg) (s : State) : Outcome :=
  .next (runWord h
    { chk := fun s lane t =>
        firstTrap [engineProtect (fun t => (t.rdW s.time a, t.rdV s.time b)) s lane t, copyTrap a b s lane t],
      pre := copyPre a b, wait := copyWait a b, eff := copyEff d a b } s)

/-! ### `CARM`, `BTAKE`, `BFREE`, `BWAIT`, `BSTAT` (R251 to R253) -/

/-- The buffer that a state word of the issuing lane names. -/
def stateBuf (s : State) (a : Reg) : Nat := ((s.issuing?).map fun x => bitsN (x.2.rdV s.time a).toNat 15 0).getD 0

/-- The trap of a state word on its buffer. -/
def stateTrap (right : Nat → Bool) (a : Reg) (s : State) (lane : Nat) (t : Thread) : Option LaneTrap :=
  match s.issuer with
  | none => none
  | some (_, _, r) => (stateCheck s r right (stateBuf s a)).map fun c => engineTrap s lane t.tid c (stateBuf s a) 0

/-- A state operation of the issuing lane's buffer. -/
def stateWord (h : Hdr) (right : Nat → Bool) (a : Reg) (k : BufOpKind) (s : State) : State :=
  runWord h
    { chk := fun s lane t =>
        firstTrap [engineProtect (fun t => t.rdV s.time a) s lane t, stateTrap right a s lane t, bufOpTrap s lane t],
      pre := fun s => sendBufOp s (stateBuf s a) k,
      wait := bufOpWait,
      eff := dropBufOp } s

/-- The eight shares of an arming block. -/
def armBlock (s : State) (b : PairNo) : List Nat :=
  match s.issuer with
  | none => []
  | some (il, it, _) =>
    let x := heldRead s il it (it.rdW s.time b).toNat 2
    (List.range 8).map fun i => bitsN x (32 * i + 31) (32 * i)

/-- Whether the arming block is held or can be read now. -/
def armReady (s : State) (b : PairNo) : Bool :=
  s.issuer.all fun x => heldReady s x.1 x.2.1 (x.2.1.rdW s.time b).toNat 2

/-- Hold the arming block, and let it go. -/
def holdArm (s : State) (b : PairNo) : State :=
  match s.issuer with
  | some (il, it, _) => holdBlock s il it (it.rdW s.time b).toNat 2 false
  | none => s
def letGoHere (s : State) : State :=
  match s.issuing? with
  | some (_, t) => letGo s t
  | none => s

/-- The trap of reading the arming block, which comes before those of the buffer (notes/assumptions/108.md). -/
def armTrap (s : State) (b : PairNo) (lane : Nat) (t : Thread) : Option LaneTrap :=
  match s.issuer with
  | some (il, it, _) => (heldTrap s il it (it.rdW s.time b).toNat 2 16).map (forLane lane t.tid)
  | none => none

/-- `CARM` (R251). -/
def execCarm (h : Hdr) (a : Reg) (b : PairNo) (s : State) : Outcome :=
  .next (runWord h
    { chk := fun s lane t =>
        firstTrap [engineProtect (fun t => (t.rdV s.time a, t.rdW s.time b)) s lane t, armTrap s b lane t,
          stateTrap btD a s lane t, bufOpTrap s lane t],
      pre := fun s =>
        if armReady s b then sendBufOp (holdArm s b) (stateBuf s a) (.arm (armBlock s b)) else holdArm s b,
      wait := fun s => if armReady s b then bufOpWait s else some homeWait,
      eff := fun s => letGoHere (dropBufOp s) } s)

/-- `BTAKE` (R253). -/
def execBtake (h : Hdr) (a : Reg) (s : State) : Outcome := .next (stateWord h btR a .take s)

/-- `BFREE` (R253). -/
def execBfree (h : Hdr) (a : Reg) (s : State) : Outcome := .next (stateWord h btR a .free s)

/-- The present state of the buffer that a state word names. -/
def stateOf (s : State) (a : Reg) : Nat :=
  ((s.issuing?).bind fun x => (s.part? x.2.part).map fun p => btState (btMem s p (stateBuf s a))).getD 0

/-- Whether an earlier state operation of an active thread on a buffer is still on its way to the home (R271). -/
def stateOpBefore (s : State) (buf : Nat) : Bool :=
  s.bufOps.any fun b => b.buf = buf && b.stage = .sent && s.cur.lanes.any fun x => b.order.any fun y => y.1 = x.2

/-- A wait for a state (R252). -/
def bwaitWord (h : Hdr) (a : Reg) (want : Nat) (s : State) : State :=
  runWord h
    { chk := fun s lane t =>
        firstTrap [engineProtect (fun t => t.rdV s.time a) s lane t, stateTrap btR a s lane t,
          if stateOf s a = 0 && !stateOpBefore s (stateBuf s a) then
            some (engineTrap s lane t.tid Trap.bufstate (stateBuf s a) 0) else none],
      wait := fun s =>
        if stateOpBefore s (stateBuf s a) then some homeWait
        else if stateOf s a = want then none else some { wtype := 2, key := stateBuf s a + want * 2 ^ 16 },
      eff := fun s => s.eachThread fun _ t => { t with stateOps := t.stateOps + 1 } } s

/-- `BWAIT.full` (R253). -/
def execBwaitFull (h : Hdr) (a : Reg) (s : State) : Outcome := .next (bwaitWord h a 3 s)

/-- `BWAIT.free` (R253). -/
def execBwaitFree (h : Hdr) (a : Reg) (s : State) : Outcome := .next (bwaitWord h a 1 s)

/-- What `BSTAT` reads (R253): the state, the named producers, and those with their whole share delivered. -/
def bstatValue (s : State) (a : Reg) : Word :=
  match s.issuing?.bind fun x => s.part? x.2.part with
  | none => 0
  | some p =>
    let e := btMem s p (stateBuf s a)
    let sh (i : Nat) : Nat := (shareGet s p.first e i).getD 0
    let bit (f : Nat → Bool) : Nat := (List.range 8).foldl (fun x i => x + (if f i then 2 ^ i else 0)) 0
    BitVec.ofNat 32 (btState e + 2 ^ 3 * bit (fun i => shExpect (sh i) ≠ 0) +
      2 ^ 11 * bit (fun i => shExpect (sh i) ≠ 0 && shDeliv (sh i) = shExpect (sh i)))

/-- `BSTAT` (R253). -/
def execBstat (h : Hdr) (d a : Reg) (s : State) : Outcome :=
  .next (runWord h
    { chk := fun s lane t =>
        firstTrap [engineProtect (fun t => t.rdV s.time a) s lane t, stateTrap btR a s lane t],
      wait := fun s => if stateOpBefore s (stateBuf s a) then some homeWait else none,
      eff := fun s =>
        let s := s.eachThread fun _ t => { t with stateOps := t.stateOps + 1 }
        sendResult (fun _ => [(.v d, bstatValue s a)]) s } s)

end Sys2Proof.Machine
end

