-- ==== Sys2Proof/Machine/MemEvents.lean ====
section
/-! DEFINITION. The events of the memory system: accesses performed at their homes and banks, leases, update-only copies,
responses and acknowledgements, deferred store faults (R82, R173 to R187, R205, R206, R217, R324, R334, R354). -/

namespace Sys2Proof.Machine

/-! ### Performing an access -/

/-- The access has been performed, with what travels back. -/
def performed (s : State) (id data gwct : Nat) (tag : BitVec 16) (poison : Bool) : State :=
  s.updAcc id fun a => { a with stage := .performed, data, gwct, tag, poison }

/-- A read of the latest write. -/
def readNow (s : State) (a : Acc) : State :=
  let s := combineAt s a.addr a.size
  noteSeen (performed s a.id (s.peek a.addr a.size) 0 0 (poisonedAt s a.addr a.size)) a.tid a.addr a.size

/-- Whether the core's copy of the line already holds what a store writes. -/
def copyHolds (s : State) (a : Acc) : Bool :=
  (s.l1? a.core (lineOf a.addr)).any fun c => (c.data.drop (a.addr % 128)).take a.size = leBytes a.size a.data

/-- The core's copy holds these bytes as its home does after the store. -/
def ownBytes (s : State) (a : Acc) : State :=
  let new (c : L1Copy) : L1Copy := { c with own := (bytesOf a.addr a.size).foldl (fun l b => setL l b s.homeOrder) c.own }
  { s with l1 := updL (fun c => c.core = a.core && c.line = lineOf a.addr) new s.l1 }

/-- A store. -/
def storeNow (s : State) (a : Acc) : State :=
  let r := writeHome s a.addr a.size a.data a.poison
  let s := noteSeen (performed r.1 a.id a.data r.2.1 r.2.2 a.poison) a.tid a.addr a.size
  if copyHolds s a then ownBytes s a else s

/-- A read and write in one (R186, R208): what returns is the old value. -/
def rmwNow (s : State) (a : Acc) (op : RmwOp) : State :=
  let s := combineAt s a.addr a.size
  let old := s.peek a.addr a.size
  let bad := poisonedAt s a.addr a.size
  let r := writeHome s a.addr a.size (rmwNew op old a.data a.cmp) (a.poison || (bad && op != .xchg64))
  noteSeen (performed r.1 a.id old r.2.1 r.2.2 bad) a.tid a.addr a.size

/-- An access is performed where its bytes live. -/
def performAt (s : State) (a : Acc) : State :=
  match a.kind with
  | .load => readNow s a
  | .lda => readNow s a
  | .atom op => rmwNow s a op
  | .red op => rmwNow s a op
  | .store => storeNow s a
  | .str => storeNow s a
  | .host => storeNow s a

/-! ### Late translation (R205) -/

/-- The place of a store that left the core before its translation, if its page is mapped now. -/
def latePlace (s : State) (a : Acc) : Option Nat :=
  if isLate a.addr then
    (s.part? a.part).bind fun p =>
      (locate s a.core p (btSeen s a.core p a.buf a.lane) a.buf a.off a.lane).map fun k =>
        match a.tid.bind s.thread? with
        | some t => redirect s t k
        | none => k
  else some a.addr

/-! ### The home and the bank -/

def Acc.reads (a : Acc) : Bool :=
  match a.kind with
  | .load => true
  | .lda => true
  | _ => false

/-- A reduction that its core's L1 gathers. -/
def Acc.gathers (a : Acc) : Bool :=
  match a.kind with
  | .red _ => a.lease != 0
  | _ => false

/-- Whether a read may be performed at its home now (R176). -/
def homeReadReady (s : State) (a : Acc) : Bool :=
  a.reads && (keyVault a.addr).isNone && mayPerform s a && rowFree s a.id a.addr

/-- A read at its home: the latest write, and a lease copy where R173 permits one; the line comes into its slice as R172
says. A prefetch of the slice reads nothing, and uncorrectable data in the line drop a prefetch (R219). -/
def homeReadDo (s : State) (a : Acc) : State :=
  let s := touchRow s a.id a.addr
  if a.tid.isNone ∧ poisonedAt (combineAt s a.addr 1) (128 * lineOf a.addr) 128 then
    { combineAt s a.addr 1 with accs := s.accs.filter fun x => x.id ≠ a.id }
  else
  let s := l2Bring s a.addr a.policy
  if a.tid.isNone then
    let s := if a.cp = 2 then s else leaseAfter (readNow s a) a true
    { s with accs := s.accs.filter fun x => x.id ≠ a.id }
  else leaseAfter (readNow s a) a (a.kind = .load && a.cp != 3)

/-- `HOME_READ` (R176, R186). -/
def execHomeRead (id : Nat) (s : State) : Outcome :=
  .next (match s.acc? id with
    | some a => if homeReadReady s a then homeReadDo s a else s
    | none => s)

/-- Whether a write may be performed at its home now, and where (R175, R205). -/
def homeWritePlace (s : State) (a : Acc) : Option Nat :=
  if a.reads || a.gathers || !mayPerform s a then none
  else (latePlace s a).bind fun k => if (keyVault k).isNone && rowFree s a.id k then some k else none

/-- A write at its home. A store whose translation came late updates its core's copy of the line as it gets its place
(R173, R204, R205). -/
def homeWriteDo (s : State) (a : Acc) (k : Nat) : State :=
  let late := isLate a.addr && (a.kind = .store || a.kind = .str)
  let a := { a with addr := k }
  let s := (l2Bring (touchRow s a.id k) k a.policy).updAcc a.id fun _ => a
  let s := if late then patchL1 s a.core k a.size a.data a.poison else s
  match a.kind with
  | .host =>
    let s := storeNow s a
    { s with accs := s.accs.filter fun x => x.id ≠ a.id }
  | .atom _ => leaseAfter (performAt s a) a false
  | _ => performAt s a

/-- `HOME_WRITE` (R56, R175). -/
def execHomeWrite (id : Nat) (s : State) : Outcome :=
  .next (match s.acc? id with
    | some a => match homeWritePlace s a with
      | some k => bufferWakes (homeWriteDo s a k)
      | none => s
    | none => s)

/-- Whether an access may be performed at its bank now (R177). -/
def bankReady (s : State) (a : Acc) : Bool := (keyVault a.addr).isSome && mayPerform s a

/-- A request reaches a vault of another partition: it is dropped and counted (R383). -/
def loseRequest (s : State) (a : Acc) : State :=
  dropFlit (s.updAcc a.id fun a => { a with stage := .lost })

/-- `VAULT_BANK_ACCESS` (R177, R383). -/
def execVaultBankAccess (id : Nat) (s : State) : Outcome :=
  .next (match s.acc? id with
    | some a =>
      if bankReady s a then
        if s.reaches (slotOfCluster (clusterOf a.core)) a.addr then performAt s a else loseRequest s a
      else s
    | none => s)

/-! ### Responses and acknowledgements (R50, R82, R173, R179, R206) -/

/-- Poison and traps that come with a result stay with the v registers it was written to (R241, R260, R354). -/
def markResult (s : State) (r : PendRes) (due : List (RegRef × Word)) (own : Nat) : State :=
  let mark (t : Thread) (w : RegRef × Word) : Thread :=
    match w.1 with
    | .v n =>
      let t := if r.bad then { t with poison := setBit t.poison n.toNat true } else t
      match r.trap with
      | some (c, h) => { t with trapTok := (n.toNat, c, h) :: t.trapTok }
      | none => t
    | _ => t
  if !r.bad && r.trap.isNone then s else flushRec (s.updThread r.tid fun t => due.foldl mark t) own

/-- `RESULT_WRITEBACK` (R82). -/
def execResultWriteback (id : Nat) (s : State) : Outcome :=
  .next (match s.results.find? fun r => r.id = id with
    | some r =>
      let s : State := { s with results := s.results.filter fun x => x.id ≠ id }
      let own := ((s.thread? r.tid).map Thread.owner).getD r.tid
      let due := r.writes.filter fun w => (s.thread? r.tid).any fun t => t.isPending w.1
      let s := if r.both then deliverRec s r.tid r.writes else deliverLane s r.tid own r.writes
      checkWake (markResult s r due own) own
    | none => s)

/-- What a read or an atomic brings back. -/
def responseOf (s : State) (a : Acc) : Option (Nat × Bool) :=
  match a.stage with
  | .performed =>
    if a.reads then some (a.data, a.poison)
    else match a.kind with
      | .atom _ => some (a.data, a.poison)
      | _ => none
  | .sent => (l1Hit s a).map fun c => (leNat ((c.data.drop (a.addr % 128)).take a.size), false)
  | _ => none

/-- The access is answered: a load is gone, an atomic is complete but for its GWCT (R179); a remote one has the cy of its
report as GWCT (R218). -/
def answered (s : State) (a : Acc) : State :=
  if a.reads then { s with accs := s.accs.filter fun x => x.id ≠ a.id }
  else s.updAcc a.id fun a => { a with stage := .done, gwct := if a.bkind = 8 then s.time else a.gwct }

/-- Data return to a thread wherever it lies, or are poisoned and kill its gang (R206, R357). -/
def loadResponse (s : State) (a : Acc) (x : Nat × Bool) : State :=
  let s := match l1Hit s a with
    | some c => if a.stage = .sent then noteCopy s a.tid c a.addr a.size else s
    | none => s
  let s := answered s a
  match a.tid, a.dst with
  | some t, some d =>
    if x.2 then
      if isCtlCore a.core then
        match (s.pour? a.core 0).bind fun p => p.entries.head? with
        | some e =>
          let s := s.updThread t fun u => ((loadWrites a.ty d 0).map (·.1)).foldl Thread.unpend u
          trapControl s (a.core - 1024) e.pc e.prio Trap.poison 0
        | none => s
      else killThreadGang s t
    else checkWake (deliverRec s t (loadWrites a.ty d x.1)) t
  | _, _ => s

/-- `LOAD_RESPONSE` (R50, R206). -/
def execLoadResponse (id : Nat) (s : State) : Outcome :=
  .next (match s.acc? id with
    | some a => match responseOf s a with
      | some x => loadResponse s a x
      | none => s
    | none => s)

/-- Whether a write waits for nothing but its acknowledgement. -/
def ackReady (a : Acc) : Bool :=
  a.stage = .performed && !a.reads &&
    match a.kind with
    | .atom _ => false
    | _ => true

/-- `STORE_ACK` (R175): GWCT and tag reach the thread; a remote write has the cy of its report as GWCT (R218). -/
def execStoreAck (id : Nat) (s : State) : Outcome :=
  .next (match s.acc? id with
    | some a =>
      if ackReady a then
        let s := s.updAcc id fun a => { a with stage := .done, gwct := if a.bkind = 8 then s.time else a.gwct }
        match a.tid with
        | some t => if (s.thread? t).isSome then checkWake s t else s
        | none => s
      else s
    | none => s)

/-- Whether a record's wait of type 1 is satisfied. -/
def horizonReached (s : State) (tid : Nat) : Bool :=
  (s.rec? tid).any fun r => r.wtype = 1 && r.fired.isNone && wakeHolds s tid 1 r.key

/-- `STORE_HORIZON_REACHED` (R50). -/
def execStoreHorizonReached (tid : Nat) (s : State) : Outcome :=
  .next (if horizonReached s tid then fireWake s tid 0 else s)

/-- Whether a sleeper's time has come. -/
def sleepOver (s : State) (tid : Nat) : Bool :=
  (s.rec? tid).any fun r => r.wtype = 4 && r.fired.isNone && wakeHolds s tid 4 r.key

/-- `DEVICE_TIME_WAKE` (R55). -/
def execDeviceTimeWake (tid : Nat) (s : State) : Outcome :=
  .next (if sleepOver s tid then fireWake s tid 0 else s)

/-! ### The end of leases (R174) -/

/-- Whether a copy has reached its expiry. -/
def leaseOver (s : State) (core line : Nat) : Bool := (s.l1? core line).any fun c => decide (c.expiry ≤ s.time)

/-- `L1_LEASE_EXPIRY` (R174). -/
def execL1LeaseExpiry (core line : Nat) (s : State) : Outcome :=
  .next (if leaseOver s core line then
      let x := lineAt s line
      let s : State := { s with l1 := s.l1.filter fun c => !(c.core = core && c.line = line) }
      putLine s { x with leases := x.leases.filter fun y => !(y.1 = core && decide (y.2 ≤ s.time)) }
    else s)

/-- Whether a core dropped a copy whose lease the home still counts. -/
def noticeDue (s : State) (core line : Nat) : Bool :=
  (lineAt s line).leases.any (fun y => y.1 = core) && (s.l1? core line).isNone

/-- `LEASE_EXPIRY_NOTICE` (R174): where no other lease is left, LX falls to the present cy. -/
def execLeaseExpiryNotice (core line : Nat) (s : State) : Outcome :=
  .next (if noticeDue s core line then
      let x := lineAt s line
      let rest := x.leases.filter fun y => y.1 ≠ core
      putLine s { x with lx := if rest.any fun y => decide (s.time < y.2) then x.lx else min x.lx s.time, leases := rest }
    else s)

/-! ### Update-only copies (R186) -/

/-- The reductions of a core that wait for a line, in issue order. -/
def waitingReds (s : State) (core line : Nat) : List Acc :=
  s.accs.filter fun a => a.core = core && a.gathers && a.stage = .sent && lineOf a.addr = line

/-- Whether a grant is due: a request is outstanding, or the first reduction that waits may gather. -/
def grantDue (s : State) (core line : Nat) : Bool :=
  (s.ucopy? core line).any (fun u => !u.granted) || ((waitingReds s core line).head?).any (mayPerform s)

/-- The copy of a line as a core holds it once granted. -/
def grantCopy (s : State) (core line : Nat) : State :=
  let s := l1Room s core line
  let fresh : UCopy := { core, line, granted := true, gwct := max s.time (lineAt s line).lx, parts := [] }
  match s.ucopy? core line with
  | some u => if u.granted then s else
    { s with ucopies := updL (fun u => u.core = core && u.line = line) (fun _ => fresh) s.ucopies }
  | none => { s with ucopies := s.ucopies ++ [fresh] }

/-- Waiting reductions gather into the copy in issue order, up to the first that is held back, and are acknowledged. -/
def gatherAll (core line : Nat) : List Acc → State → State
  | [], s => s
  | a :: r, s =>
    match a.kind, s.ucopy? core line, mayPerform s a with
    | .red op, some u, true =>
      let new (u : UCopy) : UCopy := { u with parts := gather u.parts a.addr op a.data a.poison }
      let s : State := { s with ucopies := updL (fun u => u.core = core && u.line = line) new s.ucopies }
      gatherAll core line r (noteSeen (performed s a.id a.data u.gwct 0 a.poison) a.tid a.addr a.size)
    | _, _, _ => s

/-- `UPDATE_ONLY_GRANT` (R186). -/
def execUpdateOnlyGrant (core line : Nat) (s : State) : Outcome :=
  .next (if grantDue s core line then
      gatherAll core line (waitingReds s core line) (grantCopy s core line)
    else s)

/-- `L1_EVICT` (R186): the evicted copy is combined, as one write. -/
def execL1Evict (core line : Nat) (s : State) : Outcome := .next (evictU s core line)

/-! ### Deferred store faults (R205, R217, R334) -/

/-- Whether the translation of a store in flight has failed. -/
def storeFaults (s : State) (a : Acc) : Bool := a.stage = .sent && isLate a.addr && (latePlace s a).isNone

/-- The lanes of a fault entry: one. -/
def laneWord (lane : Nat) : Nat := (laneBit lane).toNat

/-- Post the fault entry of a store (R333, R334). -/
def postStoreFault (s : State) (a : Acc) : Option (State × Nat × Nat) :=
  let cl := clusterOf a.core
  postFault s a.part (slotOfCluster cl) 2 a.ty cl a.buf a.off a.launch a.pc.toNat (laneWord a.lane) 0
    (((s.launch? a.part a.launch).map Launch.region).getD 0) []

/-- A store's fault entry is written, or its write is tried again 1,000 cy later. -/
def faultStore (s : State) (a : Acc) : State :=
  match postStoreFault s a with
  | some (s, fid, ix) =>
    let s := s.updAcc a.id fun a => { a with stage := .faulted fid ix }
    match a.tid with
    | some t => meetStoreFault s t
    | none => s
  | none => (missFault s a.part).updAcc a.id fun a => { a with stage := .unposted (s.time + 1000) }

/-- `DEFERRED_STORE_FAULT` (R205). -/
def execDeferredStoreFault (id : Nat) (s : State) : Outcome :=
  .next (match s.acc? id with
    | some a => if storeFaults s a then faultStore s a else s
    | none => s)

end Sys2Proof.Machine
end

