-- ==== Sys2Proof/Machine/Runner.lean ====
section
/-! DEFINITION. Runners and feed queues (R257 to R259). -/

namespace Sys2Proof.Machine

/-! ### The descriptor (R257) -/

def rCounts (b : Nat) : List Nat := (List.range 5).map fun k => bitsN b (16 * k + 15) (16 * k)
def rMask (b : Nat) : Nat := bitsN b 83 80
/-- The enabled streams, ascending. -/
def rStreams (b : Nat) : List Nat := (List.range 4).filter fun i => bitN (rMask b) i = 1
/-- The 224 bits of a stream. -/
def rStream (b i : Nat) : Nat := bitsN b (351 + 224 * i) (128 + 224 * i)
def rPtr (x : Nat) : Nat := bitsN x 63 0
def rStrides (x : Nat) : List Int := (List.range 5).map fun k => sgn 24 (bitsN x (87 + 24 * k) (64 + 24 * k))
def rLane (x : Nat) : Int := sgn 24 (bitsN x 207 184)
def rTy (x : Nat) : Nat := bitsN x 210 208
def rQueue (x : Nat) : Nat := bitsN x 212 211
/-- The size of an element of an access type (R89). -/
def rSize (x : Nat) : Nat := tySize (BitVec.ofNat 3 (rTy x))

/-- Whether a descriptor writes `BADPARAM` (R259). -/
def runBad (b : Nat) : Bool :=
  bitsN b 127 84 ≠ 0 || ((List.range 4).any fun i => bitsN (rStream b i) 223 213 ≠ 0) ||
    (List.range 4).any fun i =>
      let x := rStream b i
      let mul (v : Int) : Bool := v % (rSize x : Int) = 0
      decide (4 < rTy x) || !mul (bitsN (rPtr x) 47 0) || !mul (rLane x) || !((rStrides x).all mul)

/-- The hull of a stream. -/
def streamHull (b i : Nat) : Int × Int :=
  let x := rStream b i
  let base : Int := bitsN (rPtr x) 47 0
  (hullLo base (32 :: rCounts b) (rLane x :: rStrides x), hullHi base (32 :: rCounts b) (rLane x :: rStrides x) (rSize x))

/-- The first stream whose hull fails its checks (R259): code, buffer and offset. -/
def runHulls (s : State) (r : Req) (b : Nat) : Option (TrapCode × Nat × Nat) :=
  (rStreams b).findSome? fun i =>
    let idx := bitsN (rPtr (rStream b i)) 63 48
    let h := streamHull b i
    let c := if iterTotal (rCounts b) = 0 then indexCheck s r idx else hullCheckAll s r idx h.1 h.2
    c.map fun c => (c, idx, h.1.toNat)

/-- The locks of a runner (R268). -/
def runLocks (op part slot b : Nat) : List Lock :=
  if iterTotal (rCounts b) = 0 then []
  else (rStreams b).map fun i =>
    let h := streamHull b i
    { op, part, slot, buf := bitsN (rPtr (rStream b i)) 63 48, lo := h.1.toNat, hi := h.2.toNat, dst := false, tile := none }

/-! ### Queues of a cast -/

/-- The runner of a thread's cast, running or paused. -/
def runnerOf (s : State) (t : Thread) : Option Runner :=
  s.runners.find? fun r => r.part = t.part && r.launch = t.launch && r.cast = t.cast

/-- A feed queue of a cast. -/
def feedQueue (s : State) (t : Thread) (q : Nat) : List (List QElem) :=
  ((s.cast? t.part t.launch t.cast).map fun c => c.queues.getD q []).getD []

/-- Change a feed queue of a cast. -/
def updQueueOf (s : State) (part launch cast q : Nat) (f : List (List QElem) → List (List QElem)) : State :=
  s.updCast part launch cast fun c =>
    { c with queues := (List.range 4).map fun i => if i = q then f (c.queues.getD i []) else c.queues.getD i [] }

/-! ### The RUN forms (R259) -/

/-- What `RUN` of the issuing lane reads: its descriptor. -/
structure RunArgs where
  lane : Nat
  thread : Thread
  req : Req
  ptr : Nat
  blk : Nat

def runArgs (s : State) (a : PairNo) : Option RunArgs :=
  s.issuer.map fun x =>
    let ptr := (x.2.1.rdW s.time a).toNat
    { lane := x.1, thread := x.2.1, req := x.2.2, ptr, blk := heldRead s x.1 x.2.1 ptr 8 }

/-- The trap of a `RUN`. -/
def runTrap (a : PairNo) (s : State) (lane : Nat) (t : Thread) : Option LaneTrap :=
  match runArgs s a with
  | none => none
  | some x =>
    if (runnerOf s x.thread).isSome then some (engineTrap s lane t.tid Trap.bufstate 0 0)
    else if (heldBlock s x.thread).isSome then none
    else match blockTrap s x.lane x.thread x.ptr 8 128 with
      | some k => some (forLane lane t.tid k)
      | none =>
        if runBad x.blk || !blockReady s x.lane x.thread x.ptr 8 then none
        else (runHulls s x.req x.blk).map fun y => engineTrap s lane t.tid y.1 y.2.1 y.2.2

/-- What a `RUN` waits for: its descriptor, its locks and its place (R191, R258). -/
def runWait (a : PairNo) (s : State) : Option Wait :=
  match runArgs s a with
  | some x =>
    let sl := slotOfCluster (clusterOf s.cur.core)
    if !heldReady s x.lane x.thread x.ptr 8 then some homeWait
    else if runBad x.blk then none
    else engWait s 2 (runLocks s.nextId x.thread.part sl x.blk)
  | none => none

/-- The runner starts, or its token says `BADPARAM`. -/
def runEff (d : Reg) (a : PairNo) (s : State) : State :=
  match runArgs s a with
  | some x =>
    let s := letGo (s.eachThread fun _ t => t.pend (.v d)) x.thread
    if runBad x.blk then giveToken s (activeTokens s d) (tokenOf 1 0)
    else
      let t := x.thread
      let r : Runner :=
        { id := s.nextId, part := t.part, launch := t.launch, cast := t.cast, run := t.run, core := s.cur.core,
          issuer := some t.tid, tokens := activeTokens s d, blk := x.blk, vec := 0, stream := 0, stopReq := false,
          paused := none, retry := none, stopped := false, sup := false, pc := s.cur.wpc,
          lanes := ((s.cur.lanes.head?).map fun x => (laneBit x.1).toNat).getD 0 }
      let s := addLocks s (runLocks r.id r.part (slotOfCluster (clusterOf r.core)) x.blk)
      { s.bumpId with runners := s.runners ++ [r] }
  | none => s

/-- `RUN` (R259). -/
def execRun (h : Hdr) (d : Reg) (a : PairNo) (s : State) : Outcome :=
  .next (runWord h
    { chk := fun s lane t => firstTrap [engineProtect (fun t => t.rdW s.time a) s lane t, runTrap a s lane t],
      pre := fun s => match runArgs s a with
        | some x => holdBlock s x.lane x.thread x.ptr 8 (runBad x.blk)
        | none => s,
      wait := runWait a, eff := runEff d a } s)

/-- `RSTOP` (R259). -/
def execRstop (h : Hdr) (s : State) : Outcome :=
  .next (runWord h
    { eff := fun s =>
        match (s.issuing?).bind fun x => runnerOf s x.2 with
        | some r => s.updRunner r.id fun r => { r with stopReq := true }
        | none => s } s)

/-- The head entry of a queue of the issuing lane's cast. -/
def popHead (s : State) (q : Nat) : Option (List QElem) := (s.issuing?).bind fun x => (feedQueue s x.2 q).head?

/-- The lanes whose element of a popped entry is poisoned take `POISON` once the group has issued (R220, R259). -/
def popTraps (s : State) (e : List QElem) : List LaneTrap :=
  s.cur.lanes.filterMap fun x =>
    let bad (t : Thread) : Bool := ((e[physLane s t]?).map (·.2)).getD false
    (s.thread? x.2).bind fun t =>
      if bad t || (s.twinOf t).any bad then some (wordTrap s x.1 x.2 Trap.poison) else none

/-- `POP` (R259). -/
def execPop (h : Hdr) (d : Reg) (n : BitVec 2) (s : State) : Outcome :=
  .next (runWord h
    { wait := fun s => if (popHead s n.toNat).isNone then some { wtype := 7, key := n.toNat } else none,
      eff := fun s =>
        match s.issuing?, popHead s n.toNat with
        | some (_, t), some e =>
          let ks := popTraps s e
          let s := sendResult (fun t => [(.v d, ((e[physLane s t]?).map (·.1)).getD 0)]) s
          (updQueueOf s t.part t.launch t.cast n.toNat (List.drop 1)).updCur fun c => { c with traps := c.traps ++ ks }
        | _, _ => s } s)

/-- What `QSTAT` reads. -/
def qstatValue (s : State) (t : Thread) : Word :=
  let r := runnerOf s t
  BitVec.ofNat 32 (packBits ((List.range 4).map fun q => (5, (feedQueue s t q).length)) +
    2 ^ 20 * boolBit (r.any fun r => r.paused.isNone) + 2 ^ 21 * boolBit (r.any fun r => r.paused.isSome))

/-- `QSTAT` (R259). -/
def execQstat (h : Hdr) (d : Reg) (s : State) : Outcome :=
  .next (runWord h
    { eff := fun s =>
        let x := ((s.issuing?).map fun x => qstatValue s x.2).getD 0
        sendResult (fun _ => [(.v d, x)]) s } s)

/-- `QRESET` (R259). -/
def execQreset (h : Hdr) (m : BitVec 4) (s : State) : Outcome :=
  .next (runWord h
    { chk := fun s lane t =>
        if ((s.issuing?).bind fun x => runnerOf s x.2).any fun r => r.paused.isNone then
          some (engineTrap s lane t.tid Trap.bufstate 0 0)
        else none,
      eff := fun s =>
        match s.issuing? with
        | some (_, t) =>
          (List.range 4).foldl (fun s q =>
            if m.getLsbD q then updQueueOf s t.part t.launch t.cast q (fun _ => []) else s) s
        | none => s } s)

end Sys2Proof.Machine
end

