-- ==== Sys2Proof/Machine/Tile.lean ====
section
/-! DEFINITION. Tiles and the words of the matrix engine (R125 to R130, R256, R260 to R269). -/

namespace Sys2Proof.Machine

/-! ### Tiles (R260) -/

def tileCols (ncode : Nat) : Nat := match ncode with | 0 => 32 | 1 => 64 | 2 => 128 | _ => 512
def tileRows (tall : Bool) : Nat := if tall then 128 else 32
/-- The bytes of a shape word's tile (R262); none where the shape is not one of R260. -/
def shapeBytes (w : Nat) : Option Nat :=
  let n := bitsN w 1 0
  let tall := bitN w 2 = 1
  if tall = (n = 3 : Bool) then some (4 * tileRows tall * tileCols n) else none

/-- The live tile of a handle in a launch; none where the handle is stale. -/
def tileOf (s : State) (part launch : Nat) (h : Word) : Option Tile :=
  s.tiles.find? fun t =>
    t.live && t.vault = bitsN h.toNat 31 25 && t.idx = bitsN h.toNat 24 12 && t.gen = bitsN h.toNat 11 0 &&
      t.part = part && t.launch = launch

/-- The key of an element. -/
def elemKey (t : Tile) (r c : Nat) : Nat := vaultKey t.vault (t.off + 4 * (r * tileCols t.ncode + c))
def tileBytes (t : Tile) : Nat := 4 * tileRows t.tall * tileCols t.ncode

/-- The lock of an operation on a tile (R268), by its buffer and its place there. -/
def tileLock (s : State) (op slot : Nat) (t : Tile) (h : Word) (dst : Bool) : Lock :=
  let base := ((s.part? t.part).map fun p => btVaultOff (btMem s p t.buf)).getD 0
  { op, part := t.part, slot, buf := t.buf, lo := t.off - base, hi := t.off - base + tileBytes t - 1, dst, tile := some h }

/-- The tile of the issuing lane's handle. -/
def issuedTile (s : State) (a : Reg) : Option (Word × Tile) :=
  s.issuing?.bind fun x => (tileOf s x.2.part x.2.launch (x.2.rdV s.time a)).map fun t => (x.2.rdV s.time a, t)
def issuedHandle (s : State) (a : Reg) : Word := ((s.issuing?).map fun x => x.2.rdV s.time a).getD 0

/-- `STALEHANDLE` of the issuing lane's handle. -/
def staleTrap (a : Reg) (s : State) (lane : Nat) (t : Thread) : Option LaneTrap :=
  if (issuedTile s a).isSome then none else some (handleTrap s lane t.tid Trap.stalehandle (issuedHandle s a))

/-- The active threads with their lanes and counts (R261), and the counts advanced. -/
def tileThreads (s : State) : List (Nat × Nat × Nat) :=
  s.cur.lanes.filterMap fun x => (s.thread? x.2).map fun t => (x.2, x.1, t.tileOps)
def countTileOp (s : State) : State := s.eachThread fun _ t => { t with tileOps := t.tileOps + 1 }

/-- A tile operation that leaves the core. -/
def newTileOp (s : State) (h : Word) (k : TileKind) : TileOp :=
  let t := (s.issuing?).map (·.2)
  { id := s.nextId, part := (t.map (·.part)).getD 64, launch := (t.map (·.launch)).getD 0, cast := (t.map (·.cast)).getD 0,
    run := (t.map (·.run)).getD 0, core := s.cur.core, handle := h, kind := k, threads := tileThreads s,
    issuer := (t.map (·.tid)).getD 0, arrived := false, ty := 0, ncode := 0, wb := 0, bs := 0, mask := 0, rows := [],
    queue := none, staged := [], need := 0, headers := [], blk := 0, vec := 0, token := none, paused := none, retry := none,
    stopped := false, pc := s.cur.wpc, word := s.cur.word }

/-- The slot whose lock table an issue uses. -/
def lockSlot (s : State) : Nat := slotOfCluster (clusterOf s.cur.core)

/-- Send a tile operation with its locks. -/
def sendTileOp (s : State) (o : TileOp) (ls : List Lock) : State :=
  let s := addLocks (countTileOp s) ls
  { s.bumpId with tileOps := s.tileOps ++ [o] }

/-- The wait of a tile word for its locks (R191), and of an `MMA` for a place in its core's queue (R263). -/
def tileWait (s : State) (place : Nat) (a : Reg) (dst : Bool) : Option Wait :=
  match issuedTile s a with
  | some (h, t) => engWait s place [tileLock s s.nextId (lockSlot s) t h dst]
  | none => none

/-! ### `TZERO`, `TLD`, `TST`, `TRLS`, `TSTAT` (R262) -/

/-- The trap of a `TZERO`. -/
def tzeroTrap (a : PairNo) (b : Reg) (s : State) (lane : Nat) (t : Thread) : Option LaneTrap :=
  match s.issuer with
  | none => none
  | some (_, it, r) =>
    let ptr := (it.rdW s.time a).toNat
    let idx := bitsN ptr 63 48
    let off := bitsN ptr 47 0
    match shapeBytes (it.rdV s.time b).toNat with
    | none => some (engineTrap s lane t.tid Trap.bounds 0 0)
    | some n =>
      match hullCheck s r .ewrite idx off (off + n - 1) with
      | some c => some (engineTrap s lane t.tid c idx off)
      | none =>
        if !((s.part? r.part).any fun p => btKind (btSeen s r.core p idx r.lane) = 3) then
          some (engineTrap s lane t.tid Trap.bounds idx off)
        else if off % 128 ≠ 0 then some (engineTrap s lane t.tid Trap.align idx off)
        else none

/-- The lock of the tile that a `TZERO` creates. -/
def tzeroLock (s : State) (a : PairNo) (b : Reg) : List Lock :=
  match s.issuing? with
  | some (_, t) =>
    let ptr := (t.rdW s.time a).toNat
    let n := (shapeBytes (t.rdV s.time b).toNat).getD 1
    [{ op := s.nextId, part := t.part, slot := lockSlot s, buf := bitsN ptr 63 48, lo := bitsN ptr 47 0,
       hi := bitsN ptr 47 0 + n - 1, dst := true, tile := none }]
  | none => []

/-- `TZERO` (R262). -/
def execTzero (h : Hdr) (d : Reg) (a : PairNo) (b : Reg) (s : State) : Outcome :=
  .next (runWord h
    { chk := fun s lane t =>
        firstTrap [engineProtect (fun t => (t.rdW s.time a, t.rdV s.time b)) s lane t, tzeroTrap a b s lane t],
      wait := fun s => engWait s 0 (tzeroLock s a b),
      eff := fun s =>
        match s.issuing? with
        | some (_, t) =>
          let o := { newTileOp s 0 (.zero d) with blk := (t.rdW s.time a).toNat, ncode := bitsN (t.rdV s.time b).toNat 3 0 }
          (sendTileOp s o (tzeroLock s a b)).eachThread fun _ t => t.pend (.v d)
        | none => s } s)

/-- Row and column that a lane's selector names (R262). -/
def selRow (w : Word) (phys : Nat) : Nat := 32 * bitsN w.toNat 10 9 + phys
def selCol (w : Word) : Nat := bitsN w.toNat 8 0

/-- `BOUNDS` of one lane's row or column. -/
def selTrap (a b : Reg) (s : State) (lane : Nat) (t : Thread) : Option LaneTrap :=
  match issuedTile s a with
  | none => none
  | some (h, x) =>
    let w := t.rdV s.time b
    if tileRows x.tall ≤ selRow w (physLane s t) ∨ tileCols x.ncode ≤ selCol w then some (handleTrap s lane t.tid Trap.bounds h)
    else none

/-- Each executing thread with the element it names: row and column packed. -/
def selList (s : State) (b : Reg) : List (Nat × Word) :=
  (s.threads.filter s.isActive).map fun t =>
    let w := (s.before t).rdV s.time b
    (t.tid, BitVec.ofNat 32 (selRow w (physLane s t) * 2 ^ 16 + selCol w))

/-- `TLD` (R262). -/
def execTld (h : Hdr) (d a b : Reg) (s : State) : Outcome :=
  .next (runWord h
    { chk := fun s lane t =>
        firstTrap [engineProtect (fun t => (t.rdV s.time a, t.rdV s.time b)) s lane t, staleTrap a s lane t, selTrap a b s lane t],
      wait := fun s => tileWait s 0 a false,
      eff := fun s =>
        match issuedTile s a with
        | some (hd, t) =>
          (sendTileOp s (newTileOp s hd (.load d (selList s b))) [tileLock s s.nextId (lockSlot s) t hd false]).eachThread
            fun _ t => t.pend (.v d)
        | none => s } s)

/-- `TST` (R262). -/
def execTst (h : Hdr) (v a b : Reg) (s : State) : Outcome :=
  .next (runWord h
    { chk := fun s lane t =>
        firstTrap [engineProtect (fun t => (t.rdV s.time v, t.rdV s.time a, t.rdV s.time b)) s lane t, staleTrap a s lane t,
          selTrap a b s lane t],
      wait := fun s => tileWait s 0 a true,
      eff := fun s =>
        match issuedTile s a with
        | some (hd, t) =>
          let es := (selList s b).filterMap fun x => (s.before? x.1).map fun t => (x.1, x.2, t.rdV s.time v)
          sendTileOp s (newTileOp s hd (.store es)) [tileLock s s.nextId (lockSlot s) t hd true]
        | none => s } s)

/-- `TRLS` (R262). It issues at once and waits for its tile at the home vault, as the model's choice
(notes/assumptions/140.md). -/
def execTrls (h : Hdr) (a : Reg) (s : State) : Outcome :=
  .next (runWord h
    { chk := fun s lane t => firstTrap [engineProtect (fun t => t.rdV s.time a) s lane t, staleTrap a s lane t],
      eff := fun s => sendTileOp s (newTileOp s (issuedHandle s a) .release) [] } s)

/-- What `TSTAT` reads. -/
def tstatValue (s : State) (a : Reg) : Word :=
  match issuedTile s a with
  | some (h, t) =>
    BitVec.ofNat 32 (packBits [(2, t.ncode), (1, boolBit t.tall), (1, boolBit t.i32), (1, 1),
      (1, boolBit (s.tileOps.any fun o => o.arrived && o.handle = h && o.part = t.part))])
  | none => 0

/-- `TSTAT` (R262). -/
def execTstat (h : Hdr) (d a : Reg) (s : State) : Outcome :=
  .next (runWord h
    { chk := fun s lane t => engineProtect (fun t => t.rdV s.time a) s lane t,
      eff := fun s => sendResult (fun _ => [(.v d, tstatValue s a)]) s } s)

/-! ### `MMA` (R263, R264) -/

/-- Registers or entries of an A operand: the block, and one more for the scales of LG types. -/
def aCount (ty : Nat) : Nat := match ty with | 2 => 17 | 3 => 25 | _ => 16

/-- Whether a tile suits a product of a type and width (R264). -/
def tileFits (t : Tile) (ty ncode : Nat) : Bool :=
  !t.tall && decide (nOf ncode ≤ tileCols t.ncode) && t.i32 = (ty = 4 : Bool)

/-- The queue that an A field names. -/
def aQueue (a : Reg) : Option Nat := if 60 ≤ a.toNat then some (a.toNat - 60) else none

/-- The headers of an image whose bodies are well formed as they stand. R256 has the headers decoded at issue: that the
bodies are tested there too is the model's choice (notes/assumptions/141.md). -/
def goodImage (s : State) (core part launch slot ty n : Nat) : Option (List (Nat × Nat)) :=
  (imgAt s core part launch slot ty n).bind fun hs => (imgBytes s core hs).map fun _ => hs

/-- The trap of an `MMA` after its handle. -/
def mmaTrap (t : Reg) (wb ty n : Nat) (s : State) (lane : Nat) (th : Thread) : Option LaneTrap :=
  match issuedTile s t with
  | none => some (handleTrap s lane th.tid Trap.stalehandle (issuedHandle s t))
  | some (h, x) =>
    if !tileFits x ty n then some (handleTrap s lane th.tid Trap.bounds h)
    else match s.issuing? with
      | some (_, it) =>
        if (goodImage s s.cur.core it.part it.launch wb ty (nOf n)).isNone then
          some (engineTrap s lane th.tid Trap.bufstate 0 0)
        else none
      | none => none

/-- The A rows of registers: each executing thread's physical lane with its block. -/
def aRows (s : State) (a : Reg) (ty : Nat) : List (Nat × List QElem) :=
  (s.threads.filter s.isActive).map fun t =>
    let b := s.before t
    (physLane s t, (List.range (aCount ty)).map fun i =>
      let r := a + BitVec.ofNat 6 i
      (b.rdV s.time r, b.poison.getLsbD r.toNat))

/-- The rows that an `MMA` updates: the physical lanes of its active threads. -/
def aMask (s : State) : Word := maskOf ((s.threads.filter s.isActive).map fun t => physLane s t)

/-- `MMA` (R263, R264). -/
def execMma (h : Hdr) (t a : Reg) (wb : BitVec 5) (ty : BitVec 3) (n bs : BitVec 2) (s : State) : Outcome :=
  .next (runWord h
    { chk := fun s lane th =>
        firstTrap [engineProtect (fun u => (u.rdV s.time t,
            if (aQueue a).isSome then [] else (List.range (aCount ty.toNat)).map fun i => u.rdV s.time (a + BitVec.ofNat 6 i))) s lane th,
          mmaTrap t wb.toNat ty.toNat n.toNat s lane th],
      wait := fun s =>
        match aQueue a with
        | some q =>
          if (popHead s q).isNone then some { wtype := 7, key := q }
          else tileWait s 3 t true
        | none => tileWait s 3 t true,
      eff := fun s =>
        match s.issuing?, issuedTile s t with
        | some (_, it), some (hd, x) =>
          let need := aCount ty.toNat
          let took := match aQueue a with
            | some q => (feedQueue s it q).take need
            | none => []
          let o : TileOp :=
            { newTileOp s hd .mma with
              ty := ty.toNat, ncode := n.toNat, wb := wb.toNat, bs := bs.toNat, mask := aMask s,
              rows := if (aQueue a).isSome then [] else aRows s a ty.toNat, queue := aQueue a, staged := took,
              need := if (aQueue a).isSome then need - took.length else 0,
              headers := (goodImage s s.cur.core it.part it.launch wb.toNat ty.toNat (nOf n.toNat)).getD [] }
          let s := sendTileOp s o [tileLock s s.nextId (lockSlot s) x hd true]
          match aQueue a with
          | some q => updQueueOf s it.part it.launch it.cast q (List.drop took.length)
          | none => s
        | _, _ => s } s)

/-! ### The product (R125 to R130, R256, R264) -/

/-- Element `k` of a row of words (R125). -/
def aElem (ty : Nat) (ws : List Word) (k : Nat) : Nat :=
  let word (i : Nat) : Nat := ((ws[i]?).getD 0).toNat
  match ty with
  | 0 => bitsN (word (k / 2)) (16 * (k % 2) + 15) (16 * (k % 2))
  | 1 => bitsN (word (k / 2)) (16 * (k % 2) + 15) (16 * (k % 2))
  | 3 => (word (6 * k / 32) + word (6 * k / 32 + 1) * 2 ^ 32) / 2 ^ (6 * k % 32) % 64
  | _ => bitsN (word (k / 4)) (8 * (k % 4) + 7) (8 * (k % 4))

/-- B(k, n) of an image (R256). -/
def bElem (ty n : Nat) (img : List Byte) (k c : Nat) : Nat :=
  let byte (i : Nat) : Nat := ((img[i]?).getD 0).toNat
  let h := imgHead ty n
  match ty with
  | 0 => byte (64 * c + 2 * k) + 256 * byte (64 * c + 2 * k + 1)
  | 1 => byte (64 * c + 2 * k) + 256 * byte (64 * c + 2 * k + 1)
  | 3 => (byte (h + 96 * c + 6 * k / 8) + 256 * byte (h + 96 * c + 6 * k / 8 + 1)) / 2 ^ (6 * k % 8) % 64
  | _ => byte (h + 64 * c + k)

/-- The new accumulator of one element (R129, R130): `scale` gives the A scale bytes of the row. -/
def accumulate (ty n : Nat) (img : List Byte) (row : List Word) (scale : Nat → Nat) (c acc : Nat) : Nat :=
  let kb := match ty with | 3 => 4 | 2 => 2 | _ => 1
  let pair (k : Nat) : Nat × Nat := (aElem ty row k, bElem ty n img k c)
  match ty with
  | 0 => fp32.add acc (fpTerm bf16 ((List.range 32).map pair))
  | 1 => fp32.add acc (fpTerm fp16 ((List.range 32).map pair))
  | 4 => i8Acc acc ((List.range 64).map pair)
  | _ =>
    (List.range kb).foldl (fun acc j =>
      let sa := sgn 8 (scale j)
      let sb := sgn 8 (((img[kb * c + j]?).getD 0).toNat)
      fp32.add acc (lgTerm (if ty = 3 then 6 else 8) sa sb ((List.range 32).map fun i => pair (32 * j + i)))) acc

/-- The new elements of one product, in rows of a tile from a column on: row, column and value, for each row with its
words and scale bytes (R264, R266). -/
def productOf (s : State) (t : Tile) (ty n c0 : Nat) (img : List Byte) (rows : List (Nat × List Word × (Nat → Nat))) :
    List (Nat × Nat × Nat) :=
  rows.flatMap fun r => (List.range n).map fun c =>
    (r.1, c0 + c, accumulate ty n img r.2.1 r.2.2 c (s.peek (elemKey t r.1 (c0 + c)) 4))

/-- The multiplier row that computes a tile row: in the second computation it is turned by 16 (R269). -/
def mulRow (second : Bool) (r : Nat) : Nat := if second then r / 32 * 32 + (r % 32 + 16) % 32 else r

/-- What one of the two computations gives where the multipliers are upset. -/
def upsetBy (u : Option (Bool × Nat × Nat × Word)) (second : Bool) (xs : List (Nat × Nat × Nat)) : List (Nat × Nat × Nat) :=
  match u with
  | some (b, row, col, f) =>
    xs.map fun x => if b = second ∧ mulRow second x.1 = row ∧ x.2.1 = col then (x.1, x.2.1, x.2.2 ^^^ f.toNat) else x
  | none => xs

/-- Write the elements of a product; poison of the old value stays. -/
def writeProduct (s : State) (t : Tile) (xs : List (Nat × Nat × Nat)) : State :=
  xs.foldl (fun s x => storeAt s (elemKey t x.1 x.2.1) 4 x.2.2 (poisonedAt s (elemKey t x.1 x.2.1) 4)) s

/-- Whether a launch is protected. -/
def isProtected (s : State) (part launch : Nat) : Bool := (s.launch? part launch).any Launch.protected

/-- The elements that a step writes: in a protected launch it is computed twice, and a difference writes nothing (R269). -/
def checkedProduct (s : State) (o : TileOp) (xs : List (Nat × Nat × Nat)) : Option (List (Nat × Nat × Nat)) :=
  if isProtected s o.part o.launch ∧ upsetBy o.upset false xs ≠ upsetBy o.upset true xs then none
  else some (upsetBy o.upset false xs)

/-- The scale byte of a row's last register (R128). -/
def regScale (ty bs : Nat) (ws : List Word) (j : Nat) : Nat :=
  bitsN (((ws[aCount ty - 1]?).getD 0).toNat) (8 * (bs + j) + 7) (8 * (bs + j))

/-- The rows of a staged `MMA` (R263, R264): of registers, or row m from element m of each entry. -/
def mmaRows (o : TileOp) : List (Nat × List QElem) :=
  match o.queue with
  | none => o.rows
  | some _ => (lanesOf o.mask).map fun m => (m, o.staged.map fun e => (e[m]?).getD (0, false))

/-! ### `MMAL` and `MMAG` (R265 to R267) -/

def mAptr (b : Nat) : Nat := bitsN b 63 0
def mSptr (b : Nat) : Nat := bitsN b 127 64
def mAstride (b : Nat) : Nat := bitsN b 159 128
def mSstride (b : Nat) : Nat := bitsN b 175 160
def mTy (b : Nat) : Nat := bitsN b 178 176
def mN (b : Nat) : Nat := bitsN b 180 179
def mWb (b : Nat) : Nat := bitsN b 186 182
def mCounts (b : Nat) : List Nat := (List.range 5).map fun k => bitsN b (207 + 16 * k) (192 + 16 * k)
def mAstep (b : Nat) : List Int := (List.range 5).map fun k => sgn 32 (bitsN b (303 + 32 * k) (272 + 32 * k))
def mSstep (b : Nat) : List Int := (List.range 5).map fun k => sgn 16 (bitsN b (447 + 16 * k) (432 + 16 * k))
def mWstep (b : Nat) : List Int := (List.range 5).map fun k => sgn 8 (bitsN b (519 + 8 * k) (512 + 8 * k))
def mTstep (b : Nat) : List Int := (List.range 5).map fun k => sgn 16 (bitsN b (567 + 16 * k) (552 + 16 * k))
def mReserved (b : Nat) : Bool := bitsN b 1023 632 ≠ 0 || bitsN b 191 187 ≠ 0 || bitN b 181 ≠ 0
def mLg (b : Nat) : Bool := mTy b = 2 || mTy b = 3
/-- Bytes of one A row, and scale bytes of a row. -/
def mRow (ty : Nat) : Nat := if ty = 3 then 96 else 64
def mKb (ty : Nat) : Nat := match ty with | 3 => 4 | 2 => 2 | _ => 1

/-- The hulls of A and of the scales. -/
def mHull (ptr : Nat) (b : Nat) (steps : List Int) (stride rows size : Nat) : Int × Int :=
  (hullLo (bitsN ptr 47 0) (rows :: mCounts b) ((stride : Int) :: steps),
   hullHi (bitsN ptr 47 0) (rows :: mCounts b) ((stride : Int) :: steps) size)
def mAhull (b rows : Nat) : Int × Int := mHull (mAptr b) b (mAstep b) (mAstride b) rows (mRow (mTy b))
def mShull (b rows : Nat) : Int × Int := mHull (mSptr b) b (mSstep b) (mSstride b) rows (mKb (mTy b))

/-- Whether a descriptor breaks a rule whatever its tile (R266, R267); `akind` is the kind of the A buffer. -/
def mBad (gang : Bool) (b akind : Nat) : Bool :=
  mReserved b || decide (4 < mTy b) || mN b = 3 || (akind = 4 || akind = 5 || akind = 6 || akind = 7 || akind = 8) ||
    (gang && (mN b ≠ 2 || !((mTstep b).all fun x => x = 0) || !(akind = 2 || akind = 3)))

/-- Whether the column range of the whole loop leaves the tile (R266). -/
def mColumns (b : Nat) (t : Tile) : Bool :=
  iterTotal (mCounts b) ≠ 0 &&
    (decide (hullLo 0 (mCounts b) (mTstep b) < 0) ||
      decide ((tileCols t.ncode : Int) ≤ hullHi 0 (mCounts b) (mTstep b) (nOf (mN b))))

/-- The kind of the A buffer as a requester sees it. -/
def mKind (s : State) (r : Req) (b : Nat) : Nat :=
  match s.part? r.part with
  | none => 0
  | some p =>
    let idx := bitsN (mAptr b) 63 48
    if idx = 0 ∨ btCount p ≤ idx then 0 else btKind (btSeen s r.core p idx r.lane)

/-- The casts of the gang of a cast (R41): the last gang may hold fewer, and the epilogue's cast is alone. -/
def gangSize (l : Launch) (cast : Nat) : Nat :=
  if 2 ^ 32 ≤ cast then 1 else min (max l.gang 1) (l.ncast - l.gangOf cast * max l.gang 1)

/-- Whether the tile suits the loop (R266, R267). -/
def mTileOk (gang : Bool) (b : Nat) (t : Tile) (l : Launch) (cast : Nat) : Bool :=
  (if gang then t.tall && decide (2 ≤ gangSize l cast) else !t.tall) && t.i32 = (mTy b = 4 : Bool)

/-- Whether an issued loop writes `BADPARAM`. -/
def mRefused (gang : Bool) (s : State) (r : Req) (b : Nat) (t : Tile) : Bool :=
  mBad gang b (mKind s r b) || (!gang && mColumns b t)

/-- The first hull that fails its checks: code, buffer and offset. -/
def mHulls (s : State) (r : Req) (b rows : Nat) : Option (TrapCode × Nat × Nat) :=
  let chk (ptr : Nat) (h : Int × Int) : Option (TrapCode × Nat × Nat) :=
    let idx := bitsN ptr 63 48
    let c := if iterTotal (mCounts b) = 0 then indexCheck s r idx else hullCheckAll s r idx h.1 h.2
    c.map fun c => (c, idx, h.1.toNat)
  match chk (mAptr b) (mAhull b rows) with
  | some x => some x
  | none => if mLg b then chk (mSptr b) (mShull b rows) else none

def mRows (gang : Bool) : Nat := if gang then 128 else 32

/-- What a loop of the issuing lane names: its descriptor, whether it writes `BADPARAM`, handle and tile. -/
structure LoopArgs where
  lane : Nat
  thread : Thread
  req : Req
  ptr : Nat
  blk : Nat
  bad : Bool
  handle : Word
  tile : Tile

def loopArgs (gang : Bool) (s : State) (a : Reg) (b : PairNo) : Option LoopArgs :=
  match s.issuer, issuedTile s a with
  | some (il, it, r), some (h, t) =>
    let ptr := (it.rdW s.time b).toNat
    let blk := heldRead s il it ptr 8
    some { lane := il, thread := it, req := r, ptr, blk,
           bad := ((heldBlock s it).map (·.bad)).getD (mRefused gang s r blk t), handle := h, tile := t }
  | _, _ => none

/-- The trap of a loop at issue. -/
def loopTrap (gang : Bool) (a : Reg) (b : PairNo) (s : State) (lane : Nat) (th : Thread) : Option LaneTrap :=
  match loopArgs gang s a b, s.curLaunch? with
  | some x, some l =>
    if (heldBlock s x.thread).isSome then none
    else match blockTrap s x.lane x.thread x.ptr 8 128 with
    | some k => some (forLane lane th.tid k)
    | none =>
      if !blockReady s x.lane x.thread x.ptr 8 then none
      else if mBad gang x.blk (mKind s x.req x.blk) then none
      else if !mTileOk gang x.blk x.tile l x.thread.cast then some (handleTrap s lane th.tid Trap.bounds x.handle)
      else if x.bad then none
      else (mHulls s x.req x.blk (mRows gang)).map fun k =>
        if k.1 = Trap.bounds then handleTrap s lane th.tid k.1 x.handle else engineTrap s lane th.tid k.1 k.2.1 k.2.2
  | none, _ => if (issuedTile s a).isSome then none else some (handleTrap s lane th.tid Trap.stalehandle (issuedHandle s a))
  | _, _ => none

/-- The locks of a loop (R268). -/
def loopLocks (s : State) (gang : Bool) (t : Tile) (h : Word) (x : Nat) : List Lock :=
  let l (ptr : Nat) (y : Int × Int) : Lock :=
    { op := s.nextId, part := t.part, slot := lockSlot s, buf := bitsN ptr 63 48, lo := y.1.toNat, hi := y.2.toNat,
      dst := false, tile := none }
  tileLock s s.nextId (lockSlot s) t h true ::
    (if iterTotal (mCounts x) = 0 then []
     else l (mAptr x) (mAhull x (mRows gang)) :: (if mLg x then [l (mSptr x) (mShull x (mRows gang))] else []))

/-- What a loop waits for: its descriptor and its locks. -/
def loopWait (gang : Bool) (a : Reg) (b : PairNo) (s : State) : Option Wait :=
  match loopArgs gang s a b with
  | some x =>
    if !heldReady s x.lane x.thread x.ptr 8 then some homeWait
    else if x.bad then none
    else engWait s 0 (loopLocks s gang x.tile x.handle x.blk)
  | none => none

/-- The loop is on its way, or its token says `BADPARAM`. -/
def loopEff (gang : Bool) (d a : Reg) (b : PairNo) (s : State) : State :=
  match loopArgs gang s a b with
  | some x =>
    let s' := letGo (s.eachThread fun _ t => t.pend (.v d)) x.thread
    if x.bad then giveToken s' (activeTokens s d) (tokenOf 1 0)
    else
      let o : TileOp :=
        { newTileOp s x.handle (if gang then .mmag else .mmal) with
          ty := mTy x.blk, ncode := mN x.blk, wb := mWb x.blk, blk := x.blk, token := some d }
      sendTileOp s' o (loopLocks s gang x.tile x.handle x.blk)
  | none => s

/-- `MMAL` and `MMAG`. -/
def loopWord (gang : Bool) (h : Hdr) (d a : Reg) (b : PairNo) (s : State) : State :=
  runWord h
    { chk := fun s lane th =>
        firstTrap [engineProtect (fun u => (u.rdV s.time a, u.rdW s.time b)) s lane th, loopTrap gang a b s lane th],
      pre := fun s => match loopArgs gang s a b with
        | some x => holdBlock s x.lane x.thread x.ptr 8 x.bad
        | none => s,
      wait := loopWait gang a b, eff := loopEff gang d a b } s

/-- `MMAL` (R266). -/
def execMmal (h : Hdr) (d a : Reg) (b : PairNo) (s : State) : Outcome := .next (loopWord false h d a b s)

/-- `MMAG` (R267). -/
def execMmag (h : Hdr) (d a : Reg) (b : PairNo) (s : State) : Outcome := .next (loopWord true h d a b s)

end Sys2Proof.Machine
end

