-- ==== Sys2Proof/Machine/EngineEvents.lean ====
section
/-! DEFINITION. The events of the engines: copies, full buffers, runners, tile operations, matrix steps, and the faults
that pause them (R198, R199, R241, R244 to R246, R250 to R252, R255 to R269, R334). -/

namespace Sys2Proof.Machine

/-! ### Moving the elements of a copy (R241, R244 to R248, R250, R255) -/

/-- Who a copy iterates for. -/
def CopyOp.eng (c : CopyOp) : Eng := { part := c.part, launch := c.launch, cast := c.cast, run := c.run, core := 8 * c.cluster }

/-- The offset of an operand at an iteration number (R244). -/
def iterOff (base : Nat) (counts : List Nat) (strides : List Int) (n : Nat) : Nat :=
  wrap48 ((base : Int) + dot (iterOf counts n) strides)

/-- What stops a copy before its last element. -/
inductive CopyStop where
  | none
  | fault (buf off : Nat)
  | badBlock (n : Nat)
  /-- A row holds an access back (R324). -/
  | held
  deriving DecidableEq, Repr

/-- The bytes of a compressed source as far as they decode, and how they end (R247, R248). -/
def decoded (s : State) (c : CopyOp) : List (Byte × Bool) × StreamEnd :=
  let base := bitsN (cSrc c.blk) 47 0
  let idx := bitsN (cSrc c.blk) 63 48
  decodeStream (fun o => engByte s c.eng idx (base + o)) (cStream c.blk) (cSize c.blk + 1) 0 0 (cSize c.blk)

/-- The offsets of a hull, one for each 4 KiB page. -/
def hullPages (h : Int × Int) : List Nat :=
  (List.range (h.2.toNat / 4096 - h.1.toNat / 4096 + 1)).map fun i => max h.1.toNat ((h.1.toNat / 4096 + i) * 4096)

/-- The kind of the source buffer of a copy. -/
def sourceKind (s : State) (c : CopyOp) : Nat :=
  ((s.part? c.part).map fun p => btKind (btSeen s (8 * c.cluster) p (bitsN (cSrc c.blk) 63 48) 0)).getD 0

/-- A page of a flash source that is not mapped: every page that the hull touches is read (R198). -/
def flashHole (s : State) (c : CopyOp) : Option Nat :=
  if sourceKind s c = 6 ∨ sourceKind s c = 7 then
    (hullPages (cSrcHull c.blk)).find? fun o => (engLocate s c.eng (bitsN (cSrc c.blk) 63 48) o).isNone
  else none

/-- Element `n` of the source, or what stops the copy there. -/
def sourceElem (s : State) (c : CopyOp) (out : List (Byte × Bool) × StreamEnd) (n : Nat) : Except CopyStop (Nat × Bool) :=
  let z := cElem c.blk
  let idx := bitsN (cSrc c.blk) 63 48
  if (flashHole s c).isSome then .error (.fault idx ((flashHole s c).getD 0))
  else if cDecomp c.blk then
    let bs := (out.1.drop (n * z)).take z
    if bs.length = z then .ok (leNat (bs.map (·.1)), bs.any (·.2))
    else match out.2 with
      | .fault off => .error (.fault idx (bitsN (cSrc c.blk) 47 0 + off))
      | .bad k => .error (.badBlock k)
      | .full => .error (.badBlock 0)
  else
    let off := iterOff (bitsN (cSrc c.blk) 47 0) (cCounts c.blk) (cSstr c.blk) n
    match engRead s c.eng idx off z with
    | some x => .ok x
    | none => .error (.fault idx off)

/-- The destination of element `n`. -/
def destOff (c : CopyOp) (n : Nat) : Nat := iterOff (cDstBase c.blk) (cCounts c.blk) (cDstr c.blk) n

/-- The kind of the destination buffer of a copy. -/
def destKind (s : State) (c : CopyOp) : Nat :=
  if cTarget c.blk = 3 then 0
  else ((s.part? c.part).map fun p => btKind (btSeen s (8 * c.cluster) p (bitsN (cDst c.blk) 63 48) 0)).getD 0

/-- The append point of a log buffer. -/
def logPoint (s : State) (part idx : Nat) : Nat := ((s.part? part).map fun p => getL p.logs idx 0).getD 0

/-- Note flash bytes written under the present key (R198). -/
def noteFlash (s : State) (k n : Nat) : State :=
  let new := (List.range n).map fun i => ((k - 2 ^ 46) / 2 ^ 36, (k - 2 ^ 46) % 2 ^ 36 + i)
  s.updDev fun d => { d with flashFresh := new ++ d.flashFresh.filter fun x => !new.contains x }

/-- Write element `n`: into the weight buffers of the cluster, at the log's append point, or at its place; none where its
page is not mapped. -/
def destElem (s : State) (c : CopyOp) (kind n x : Nat) (poison : Bool) : Except CopyStop (State × Nat) :=
  let z := cElem c.blk
  let idx := bitsN (cDst c.blk) 63 48
  if cTarget c.blk = 3 then
    .ok ((List.range 8).foldl (fun s j => storeAt s (weightKey (8 * c.cluster + j) 0 (destOff c n)) z x poison) s, s.time)
  else
    let off := if kind = 7 then c.place.getD (logPoint s c.part idx) + n * z else destOff c n
    match engLocate s c.eng idx off with
    | none => .error (.fault idx off)
    | some k =>
      if peerGone s c.eng idx then .ok (s, s.time)
      else match rowGo s k with
        | none => .error .held
        | some s =>
          let r := writeHome (if isFlash k then noteFlash s k z else s) k z x poison
          .ok (r.1, r.2.1)

/-- What the read of element `n` leaves behind; a compressed source is read line by line as it decodes. -/
def touchSource (s : State) (c : CopyOp) (n : Nat) : Option State :=
  let idx := bitsN (cSrc c.blk) 63 48
  let base := bitsN (cSrc c.blk) 47 0
  if cDecomp c.blk then
    engTouch c.eng idx 64 (if 64 * n < cStream c.blk then [base + 64 * n] else []) s
  else engTouch c.eng idx (cElem c.blk) [iterOff base (cCounts c.blk) (cSstr c.blk) n] s

/-- Move elements from number `n` on, at most `fuel`: the state, the elements moved, the greatest GWCT, what stops it. -/
def moveElems (c : CopyOp) (kind : Nat) (out : List (Byte × Bool) × StreamEnd) :
    Nat → State → Nat → Nat → State × Nat × Nat × CopyStop
  | 0, s, n, g => (s, n, g, .none)
  | fuel + 1, s, n, g =>
    match sourceElem s c out n with
    | .error e => (s, n, g, e)
    | .ok (x, bad) =>
      match (match touchSource s c n with | some s' => destElem s' c kind n x bad | none => .error .held) with
      | .error e => (s, n, g, e)
      | .ok (s', g') => moveElems c kind out fuel s' (n + 1) (max g g')

/-- The elements of a copy that are left, moved as far as they go. -/
def moveCopy (s : State) (c : CopyOp) : State × Nat × Nat × CopyStop :=
  let out := if cDecomp c.blk then decoded s c else ([], .full)
  moveElems c (destKind s c) out (cTotal c.blk - c.vec) s c.vec c.gwct

/-! ### Flash and logs (R32, R198, R199, R246) -/

/-- Whether a source page lies in a flash stack that is not ready. -/
def flashNotReady (s : State) (c : CopyOp) : Bool :=
  (hullPages (cSrcHull c.blk)).any fun o =>
    (engLocate s c.eng (bitsN (cSrc c.blk) 63 48) o).any fun k =>
      isFlash k && !(s.dev.readyFlash.getLsbD ((k - 2 ^ 46) / 2 ^ 36 / 8))

/-- Whether a log has no room for a whole copy. -/
def logFull (s : State) (c : CopyOp) : Bool :=
  let idx := bitsN (cDst c.blk) 63 48
  destKind s c = 7 && (s.part? c.part).any fun p => decide (btLength (btMem s p idx) < logPoint s c.part idx + cSize c.blk)

/-- An append that begins takes its whole place at the append point (R199, R246). -/
def takePlace (s : State) (c : CopyOp) : State × CopyOp :=
  let idx := bitsN (cDst c.blk) 63 48
  if destKind s c = 7 ∧ c.place = none then
    let c := { c with place := some (logPoint s c.part idx) }
    ((s.updPart c.part fun p => { p with logs := setL p.logs idx (getL p.logs idx 0 + cSize c.blk) }).updCopy c.id fun _ => c, c)
  else (s, c)

/-- Whether the network drops the requests of a copy (R383). -/
def copyLost (s : State) (c : CopyOp) : Bool :=
  cTotal c.blk ≠ 0 &&
    (!engReach s c.eng (bitsN (cSrc c.blk) 63 48) (cSrcHull c.blk).1.toNat ||
      (cTarget c.blk ≠ 3 && !engReach s c.eng (bitsN (cDst c.blk) 63 48) (cDstHull c.blk).1.toNat))

/-! ### The end of a copy (R240, R252, R255) -/

/-- A token reaches its threads, and the waits on it end. -/
def endToken (s : State) (ts : List (Nat × Reg)) (w : Word) : State :=
  ts.foldl (fun s x => checkWake s x.1) (giveToken s ts w)

/-- The share of a copy in its state buffer, once it has ended (R252). -/
def settleShare (s : State) (c : CopyOp) (ok : Bool) : State :=
  match s.part? c.part with
  | none => s
  | some p =>
    let e := btMem s p c.state
    let s := if c.accounted then touchShares s c.part c.state (some (cProducer c.blk)) else s
    if !c.accounted then s
    else match shareGet s c.part e (cProducer c.blk) with
      | none => s
      | some x =>
        let z := cSize c.blk
        let y := if ok then shMake (shExpect x) (shCommit x) (shDeliv x + z) else shMake (shExpect x) (shCommit x - z) (shDeliv x)
        let s := (sharePut s c.part e (cProducer c.blk) y).getD s
        if ok then
          let old := ((s.deliveries.find? fun d => d.part = c.part && d.buf = c.state).map (·.gwct)).getD 0
          { s with deliveries := { part := c.part, buf := c.state, gwct := max old c.gwct } ::
                     s.deliveries.filter fun d => !(d.part = c.part && d.buf = c.state) }
        else s

/-- The slots that a weight copy wrote. -/
def slotsWritten (c : CopyOp) : List Nat := sortN ((List.range (cTotal c.blk)).map fun n => destOff c n / 8192)

/-- They bear its launch's tag in every core of the cluster (R255). -/
def tagSlots (s : State) (c : CopyOp) : State :=
  if cTarget c.blk ≠ 3 then s
  else
    let ws := slotsWritten c
    let mine (w : WeightTag) : Bool := w.core / 8 = c.cluster && ws.contains w.slot
    let new := (List.range 8).flatMap fun j => ws.map fun w =>
      ({ core := 8 * c.cluster + j, slot := w, part := c.part, launch := c.launch } : WeightTag)
    { s with wtags := new ++ s.wtags.filter fun w => !mine w }

/-- A copy ends with a status (R240, R252, R311). -/
def endCopy (s : State) (c : CopyOp) (status info : Nat) : State :=
  let s := settleShare s c (status = 0)
  let s := if status = 0 then tagSlots s c else s
  let s := freeLocksAt { s with copies := s.copies.filter fun x => x.id ≠ c.id } c.id c.gwct
  let s := s.updLaunch c.part c.launch fun l =>
    { l with badPrologue := l.badPrologue || (c.prologue && status != 0), writesAt := max l.writesAt c.gwct }
  endToken s c.tokens (tokenOf status info)

/-- The source locks of a copy whose reads have all returned (R192). -/
def freeSources (s : State) (op : Nat) : State := { s with locks := s.locks.filter fun l => l.op ≠ op || l.dst }

/-- A copy that has begun goes on: it moves what it can, and ends. -/
def runCopy (s : State) (c : CopyOp) : State :=
  if copyLost s c then dropFlit (s.updCopy c.id fun c => { c with stuck := true })
  else if decide (c.vec < cTotal c.blk) && flashNotReady s c then endCopy s c 3 0
  else if c.place = none && logFull s c then endCopy s c 4 (logPoint s c.part (bitsN (cDst c.blk) 63 48) / 4096)
  else
    let (s, c) := takePlace s c
    let r := moveCopy s c
    let c' := { c with vec := r.2.1, gwct := r.2.2.1 }
    let s' := r.1.updCopy c.id fun _ => c'
    match r.2.2.2 with
    | .fault _ _ => s'
    | .held => s'
    | .badBlock n => endCopy s' c' 2 n
    | .none =>
      let s' := if c.vec < c'.vec then freeSources s' c.id else s'
      if c'.gwct ≤ s'.time then endCopy s' c' 0 0 else s'

/-! ### Prologue copies (R249, R311) -/

/-- The requester that the front end is for a prologue copy. -/
def CopyOp.req (c : CopyOp) : Req := { part := c.part, core := 8 * c.cluster, lane := 0, level := .user, vf := c.vf, proc := c.proc }

/-- A prologue copy is issued as `COPY` (R249 steps 3 to 8): it ends with a status other than `OK`, waits for its locks,
or begins. -/
def issueCopy (s : State) (c : CopyOp) : State :=
  let slot := slotOfCluster c.cluster
  if copyBad c.blk (copyKind s c.req c.blk) then endCopy s c 1 0
  else if (copyHulls s c.req c.blk).isSome ∨ (copyState s c.req c.blk c.state).isSome then endCopy s c 1 0
  else if !canLock s slot (copyLocks c.id c.part slot c.blk) ∨ 16 ≤ (s.copies.countP fun x => x.cluster = c.cluster && x.issued) then s
  else
    let begin (s : State) (counted : Bool) : State :=
      (addLocks s (copyLocks c.id c.part slot c.blk)).updCopy c.id fun c => { c with issued := true, accounted := counted }
    if c.state = 0 then begin s false
    else
      let b : BufOp :=
        { id := c.id, part := c.part, buf := c.state, kind := .account (cProducer c.blk) (cSize c.blk), tid := 0, pc := 0,
          order := [], stage := .sent }
      let s := bufOpTouch s b
      match performBufOp s b with
      | .ok (s, counted) => begin s counted
      | .error _ => endCopy s c 1 0

/-- Whether a copy may go on: nothing holds it. -/
def copyReady (c : CopyOp) : Bool := !c.stopped && !c.stuck && c.paused.isNone && c.retry.isNone

/-- `COPY_COMPLETE` (R250, R252). -/
def execCopyComplete (id : Nat) (s : State) : Outcome :=
  .next (match s.copy? id with
    | some c => if !copyReady c then s else if c.issued then runCopy s c else issueCopy s c
    | none => s)

/-! ### Full buffers (R252) -/

/-- Whether a buffer turns full now. -/
def fullDue (s : State) (p : Part) (buf : Nat) : Bool :=
  let e := btMem s p buf
  let sh (i : Nat) : Nat := (shareGet s p.first e i).getD 0
  btState e = 2 && ((List.range 8).any fun i => shExpect (sh i) ≠ 0) &&
    ((List.range 8).all fun i => (shareGet s p.first e i).isSome && shDeliv (sh i) = shExpect (sh i)) &&
    s.deliveries.all fun d => !(d.part = p.first && d.buf = buf) || decide (d.gwct ≤ s.time)

/-- `BUFFER_FULL` (R252). -/
def execBufferFull (part buf : Nat) (s : State) : Outcome :=
  .next (match s.part? part with
    | some p => if fullDue s p buf then changeState s p buf 3 else s
    | none => s)

/-! ### Runners (R258, R259, R263) -/

/-- Who a runner iterates for. -/
def Runner.eng (r : Runner) : Eng := { part := r.part, launch := r.launch, cast := r.cast, run := r.run, core := r.core }

/-- The stream that a runner reads next; none once it has visited every vector. -/
def nextStream (r : Runner) : Option Nat :=
  if r.vec < iterTotal (rCounts r.blk) then (rStreams r.blk)[r.stream]? else none

/-- The offsets of the 32 elements of an entry. -/
def entryOffs (r : Runner) (i : Nat) : List Nat :=
  let x := rStream r.blk i
  (List.range 32).map fun l =>
    wrap48 ((bitsN (rPtr x) 47 0 : Int) + dot (iterOf (rCounts r.blk) r.vec) (rStrides x) + l * rLane x)

/-- The first offset of an entry that a check other than `PAGE` refuses, for a runner that the front end started. -/
def entryRefused (s : State) (r : Runner) (i : Nat) : Bool :=
  let x := rStream r.blk i
  let idx := bitsN (rPtr x) 63 48
  r.sup && (s.part? r.part).any fun p => (entryOffs r i).any fun o =>
    let l := s.launch? r.part r.launch
    let q : Req :=
      { part := r.part, core := r.core, lane := 0, level := .sup, vf := (l.map (·.vf)).getD 0,
        proc := (l.map (·.proc)).getD 0 }
    (hullCheckAll s q idx o (o + rSize x - 1)).isSome || decide (btCount p ≤ idx)

/-- An entry as read, or the lowest offset whose page is not mapped (R333). -/
def readEntry (s : State) (r : Runner) (i : Nat) : Except Nat (List QElem) :=
  let x := rStream r.blk i
  let idx := bitsN (rPtr x) 63 48
  match missing s r.eng idx (entryOffs r i) with
  | some o => .error o
  | none => .ok ((entryOffs r i).map fun o =>
      let y := (engRead s r.eng idx o (rSize x)).getD (0, false)
      ((((loadWrites (rTy x) 0 y.1).head?).map (·.2)).getD 0, y.2))

/-- The `MMA` of a cast that takes the next entry of a queue: the earliest that still stages it (R263). -/
def stagingOn (s : State) (r : Runner) (q : Nat) : Option TileOp :=
  minBy TileOp.id (s.tileOps.filter fun o =>
    o.kind = .mma && o.queue = some q && o.need != 0 && o.part = r.part && o.launch = r.launch && o.cast = r.cast)

/-- An entry goes to a staging `MMA` or to the end of its queue. -/
def pushEntry (s : State) (r : Runner) (q : Nat) (e : List QElem) : State :=
  match stagingOn s r q with
  | some o => s.updTileOp o.id fun o => { o with staged := o.staged ++ [e], need := o.need - 1 }
  | none => checkWakes (updQueueOf s r.part r.launch r.cast q (fun l => l ++ [e])) r.part 7

/-- Whether an entry has room. -/
def roomFor (s : State) (r : Runner) (q : Nat) : Bool :=
  (stagingOn s r q).isSome ||
    ((s.cast? r.part r.launch r.cast).any fun c => decide ((c.queues.getD q []).length < 16))

/-- A runner after one entry: the next stream, or the next vector. -/
def advance (r : Runner) : Runner :=
  if r.stream + 1 < (rStreams r.blk).length then { r with stream := r.stream + 1 } else { r with stream := 0, vec := r.vec + 1 }

/-- A runner ends with a status; the queues of a cast that has ended go with it. -/
def endRunner (s : State) (r : Runner) (status : Nat) : State :=
  let s := freeLocks { s with runners := s.runners.filter fun x => x.id ≠ r.id } r.id
  let s := s.updCast r.part r.launch r.cast fun c => if c.ended then { c with queues := [] } else c
  endToken s r.tokens (tokenOf status 0)

/-- Whether nothing holds a runner. -/
def runnerReady (r : Runner) : Bool := !r.stopped && !r.stuck && r.paused.isNone && r.retry.isNone

/-- Whether the cast of a runner has ended, so that nothing takes entries from its queues any more. -/
def castOver (s : State) (r : Runner) : Bool := (s.cast? r.part r.launch r.cast).all (·.ended)

/-- The lock of a stream goes with the last read of it (R192). -/
def freeStream (s : State) (r : Runner) (i : Nat) : State :=
  if r.vec + 1 < iterTotal (rCounts r.blk) then s
  else match (runLocks r.id r.part (slotOfCluster (clusterOf r.core)) r.blk)[(rStreams r.blk).findIdx fun j => j = i]? with
    | some l => { s with locks := s.locks.erase l }
    | none => s

/-- One push, or the end of the runner. -/
def runRunner (s : State) (r : Runner) : State :=
  if r.stopReq then endRunner s r 5
  else match nextStream r with
  | none => endRunner s r 0
  | some i =>
    let q := rQueue (rStream r.blk i)
    if entryRefused s r i then
      let s := endRunner s r 0
      match s.launch? r.part r.launch with
      | some l => escalate s r.part r.launch (l.gangOf r.cast)
      | none => s
    else if !engReach s r.eng (bitsN (rPtr (rStream r.blk i)) 63 48) (bitsN (rPtr (rStream r.blk i)) 47 0) then
      dropFlit (s.updRunner r.id fun r => { r with stuck := true })
    else if !roomFor s r q then (if castOver s r then endRunner s r 0 else s)
    else match readEntry s r i, engTouch r.eng (bitsN (rPtr (rStream r.blk i)) 63 48) (rSize (rStream r.blk i)) (entryOffs r i) s with
      | .ok e, some s =>
        let r' := advance r
        let s := freeStream ((pushEntry s r q e).updRunner r.id fun _ => r') r i
        if (nextStream r').isNone then endRunner s r' 0 else s
      | _, _ => s

/-- `RUNNER_PUSH` (R258). -/
def execRunnerPush (id : Nat) (s : State) : Outcome :=
  .next (match s.runner? id with
    | some r => if runnerReady r then runRunner s r else s
    | none => s)

/-! ### Tile operations (R260 to R262) -/

/-- Whether one of two operations of a thread on a tile comes first. -/
def TileOp.before (x o : TileOp) : Bool :=
  x.threads.any fun a => o.threads.any fun b => a.1 = b.1 && decide (a.2.2 < b.2.2)

/-- Whether an operation may be performed at its tile: none is in progress there, and no earlier one of its threads is
on its way (R261). -/
def tileReady (s : State) (o : TileOp) : Bool :=
  !o.arrived && !o.stuck && (o.handle = 0 || !(s.tileOps.any fun x =>
    x.part = o.part && x.handle = o.handle && x.id ≠ o.id && (x.arrived || x.before o)))

/-- A tile operation is over; a tile whose gang was killed goes with the last one in progress (R260). -/
def dropTileOp (s : State) (id : Nat) : State :=
  settleTiles (freeLocks { s with tileOps := s.tileOps.filter fun o => o.id ≠ id } id)

/-- A result is on its way to a thread. -/
def sendBack (s : State) (tid : Nat) (ws : List (RegRef × Word)) : State :=
  { s.bumpId with results := s.results ++ [{ id := s.nextId, tid, writes := ws }] }

/-- The free entry of lowest index of a vault's tile table, with its generation (R260). -/
def freeTile (s : State) (vault : Nat) : Option (Nat × Nat) :=
  ((List.range 1024).find? fun i => !(s.tiles.any fun t => t.vault = vault && t.idx = i && t.live)).map fun i =>
    (i, ((s.tiles.find? fun t => t.vault = vault && t.idx = i).map (·.gen)).getD 1)

/-- Clear a range of vault bytes. -/
def zeroBytes (s : State) (k n : Nat) : State :=
  { s with mem := memClear s.mem k (k + n), poisoned := s.poisoned.filter fun g => !(decide (k ≤ g) && decide (g < k + n)) }

/-- `TZERO` at the home vault (R262): a new tile, zeroed; the handle, or 0. -/
def zeroTile (s : State) (o : TileOp) (d : Reg) : State :=
  let g : Eng := { part := o.part, launch := o.launch, cast := o.cast, run := o.run, core := o.core }
  let give (s : State) (h : Word) : State := o.threads.foldl (fun s x => sendBack s x.1 [(.v d, h)]) s
  match engLocate s g (bitsN o.blk 63 48) (bitsN o.blk 47 0) with
  | none => give s 0
  | some k =>
    let v := (k - 2 ^ 44) / 2 ^ 23
    match freeTile s v with
    | none => give s 0
    | some (i, gen) =>
      let t : Tile :=
        { vault := v, idx := i, gen, live := true, off := (k - 2 ^ 44) % 2 ^ 23, ncode := bitsN o.ncode 1 0,
          tall := bitN o.ncode 2 = 1, i32 := bitN o.ncode 3 = 1, part := o.part, launch := o.launch,
          gang := ((s.launch? o.part o.launch).map fun l => l.gangNo o.cast).getD 0, buf := bitsN o.blk 63 48 }
      let s := zeroBytes s k (tileBytes t)
      give { s with tiles := t :: s.tiles.filter fun x => !(x.vault = v && x.idx = i) } (tileHandle t)

/-- `TLD` at the home vault (R262): poison goes with an element into its register (R241); of a tile that has gone, the
register holds a free value and the trap `STALEHANDLE` (R260). -/
def loadTile (s : State) (o : TileOp) (d : Reg) (sel : List (Nat × Word)) : State :=
  let own := sel.filter fun x => (s.thread? x.1).isSome
  match tileOf s o.part o.launch o.handle with
  | none => own.foldl (fun s x =>
      { (s.bumpId) with free := s.free + 1,
                        results := s.results ++ [{ id := s.nextId, tid := x.1, writes := [(.v d, Config.value32 s.free)],
                                                   both := false, trap := some (Trap.stalehandle.toNat, o.handle) }] }) s
  | some t =>
    let key (w : Word) : Nat := elemKey t (w.toNat / 2 ^ 16) (w.toNat % 2 ^ 16)
    own.foldl (fun s x =>
      { (s.bumpId) with results := s.results ++ [{ id := s.nextId, tid := x.1, writes := [(.v d, BitVec.ofNat 32 (s.peek (key x.2) 4))],
                                                   both := false, bad := poisonedAt s (key x.2) 4 }] }) s

/-- An operation without a result finds its tile gone: its threads take `STALEHANDLE` at the next group that they issue
(R260, notes/assumptions/39.md). -/
def staleOp (s : State) (o : TileOp) : State :=
  o.threads.foldl (fun s x => s.updThread x.1 fun t => { t with stale := t.stale ++ [(o.handle, o.word)] }) s

/-- `TST` at the home vault. -/
def storeTile (s : State) (o : TileOp) (es : List (Nat × Word × Word)) : State :=
  match tileOf s o.part o.launch o.handle with
  | none => staleOp s o
  | some t => es.foldl (fun s x => storeAt s (elemKey t (x.2.1.toNat / 2 ^ 16) (x.2.1.toNat % 2 ^ 16)) 4 x.2.2.toNat false) s

/-- `TRLS` at the home vault (R260). -/
def dropTile (s : State) (o : TileOp) : State :=
  let mine (t : Tile) : Bool := t.live && tileHandle t = o.handle && t.part = o.part && t.launch = o.launch
  if s.tiles.any mine then { s with tiles := updL mine releaseTile s.tiles } else staleOp s o

/-- A tile operation reaches its home vault: performed whole, or, for a matrix operation, begun. -/
def arriveTile (s : State) (o : TileOp) : State :=
  match o.kind with
  | .zero d =>
    if engReach s { part := o.part, launch := o.launch, cast := o.cast, run := o.run, core := o.core } (bitsN o.blk 63 48) (bitsN o.blk 47 0)
    then zeroTile (dropTileOp s o.id) o d
    else dropFlit (s.updTileOp o.id fun o => { o with stuck := true })
  | .load d sel => loadTile (dropTileOp s o.id) o d sel
  | .store es => storeTile (dropTileOp s o.id) o es
  | .release => dropTile (dropTileOp s o.id) o
  | _ => s.updTileOp o.id fun o => { o with arrived := true }

/-- `TILE_OP_ARRIVAL` (R261, R262). -/
def execTileOpArrival (id : Nat) (s : State) : Outcome :=
  .next (match s.tileOp? id with
    | some o => if tileReady s o then arriveTile s o else s
    | none => s)

/-! ### `MMA` (R263, R264) -/

/-- Whether an `MMA` is in progress with every operand staged, and no earlier one of its core holds the core's operand
stage while it waits for a runner (R263, R264). -/
def mmaReady (s : State) (o : TileOp) : Bool :=
  o.kind = .mma && o.arrived && o.need = 0 && !o.stopped &&
    !(s.tileOps.any fun x => x.kind = .mma && x.core = o.core && x.need ≠ 0 && !x.stopped && decide (x.id < o.id))

/-- The gang of an operation is killed for `POISON` (R357). -/
def killOp (s : State) (o : TileOp) : State :=
  match s.launch? o.part o.launch with
  | some l => killGang s o.part o.launch (l.gangOf o.cast)
  | none => s

/-- The rows of the product with their scales. -/
def mmaOperand (o : TileOp) : List (Nat × List Word × (Nat → Nat)) :=
  (mmaRows o).map fun r =>
    let ws := r.2.map (·.1)
    (r.1, ws, regScale o.ty o.bs ws)

/-- The two computations of an `MMA` differ: the gang of its threads is killed, and the core is suspect (R269, R357,
R358). -/
def protectOp (s : State) (o : TileOp) : State := killOp (addSusp s o.core 16) o

/-- An `MMA` is performed. -/
def runMma (s : State) (o : TileOp) : State :=
  let img := imgLoose s o.core o.headers
  match tileOf s o.part o.launch o.handle with
  | none => staleOp (dropTileOp s o.id) o
  | some t =>
    if img.2 || (mmaRows o).any fun r => r.2.any (·.2) then killOp (dropTileOp s o.id) o
    else match checkedProduct s o (productOf s t o.ty (nOf o.ncode) 0 img.1 (mmaOperand o)) with
      | some xs => dropTileOp (writeProduct s t xs) o.id
      | none => protectOp (dropTileOp s o.id) o

/-- `MMA_STEP` (R264). -/
def execMmaStep (id : Nat) (s : State) : Outcome :=
  .next (match s.tileOp? id with
    | some o => if mmaReady s o then runMma s o else s
    | none => s)

/-! ### `MMAL`, `MMAG` (R266, R267) -/

/-- Who a loop iterates for. -/
def TileOp.eng (o : TileOp) : Eng := { part := o.part, launch := o.launch, cast := o.cast, run := o.run, core := o.core }

/-- The parts of one step: core, first row, first column, first slot (R266, R267). -/
def stepParts (s : State) (o : TileOp) : List (Nat × Nat × Nat × Nat) :=
  let v := iterOf (mCounts o.blk) o.vec
  let slot (j : Nat) : Nat := (((mWb o.blk : Int) + dot v (mWstep o.blk) + 2 * j) % 32).toNat
  match o.kind with
  | .mmag =>
    let g := ((s.launch? o.part o.launch).map fun l => o.cast / max l.gang 1 * l.gang).getD 0
    let cl (k : Nat) : Nat := ((s.cast? o.part o.launch (g + k)).map (·.cluster)).getD (clusterOf o.core)
    (List.range 16).map fun x => (8 * cl (x / 8) + x % 8, 32 * (x / 4), 128 * (x % 4), slot (x % 4))
  | _ => [(o.core, 0, (dot v (mTstep o.blk)).toNat, slot 0)]

/-- The offsets of row `m` of A and of its scales in the present step. -/
def rowOff (o : TileOp) (m : Nat) : Nat :=
  wrap48 ((bitsN (mAptr o.blk) 47 0 : Int) + dot (iterOf (mCounts o.blk) o.vec) (mAstep o.blk) + m * mAstride o.blk)
def scaleOff (o : TileOp) (m : Nat) : Nat :=
  wrap48 ((bitsN (mSptr o.blk) 47 0 : Int) + dot (iterOf (mCounts o.blk) o.vec) (mSstep o.blk) + m * mSstride o.blk)

/-- Row `m` of A as words with its scales and whether any byte is poisoned. -/
def loopRow (s : State) (o : TileOp) (m : Nat) : List Word × List Nat × Bool :=
  let a := (engRead s o.eng (bitsN (mAptr o.blk) 63 48) (rowOff o m) (mRow o.ty)).getD (0, false)
  let ws := (List.range (mRow o.ty / 4)).map fun i => BitVec.ofNat 32 (a.1 >>> (32 * i))
  if mLg o.blk then
    let x := (engRead s o.eng (bitsN (mSptr o.blk) 63 48) (scaleOff o m) (mKb o.ty)).getD (0, false)
    (ws, (List.range (mKb o.ty)).map (fun j => bitsN x.1 (8 * j + 7) (8 * j)), a.2 || x.2)
  else (ws, [], a.2)

/-- The rows that a step reads. -/
def stepRows (o : TileOp) : List Nat := List.range (mRows (o.kind = .mmag))

/-- The place that a step cannot read, the lowest offset of its buffer (R333). -/
def stepMissing (s : State) (o : TileOp) : Option (Nat × Nat) :=
  let ai := bitsN (mAptr o.blk) 63 48
  let si := bitsN (mSptr o.blk) 63 48
  match missing s o.eng ai ((stepRows o).flatMap fun m => bytesOf (rowOff o m) (mRow o.ty)) with
  | some f => some (ai, f)
  | none =>
    if mLg o.blk then (missing s o.eng si ((stepRows o).flatMap fun m => bytesOf (scaleOff o m) (mKb o.ty))).map fun f => (si, f)
    else none

/-- What the reads of a step leave behind; none where a row holds one back. -/
def stepTouch (s : State) (o : TileOp) : Option State :=
  (engTouch o.eng (bitsN (mAptr o.blk) 63 48) (mRow o.ty) ((stepRows o).map (rowOff o)) s).bind fun s =>
    if mLg o.blk then engTouch o.eng (bitsN (mSptr o.blk) 63 48) (mKb o.ty) ((stepRows o).map (scaleOff o)) s else some s

/-- Whether the network drops the requests of a loop (R383). -/
def stepLost (s : State) (o : TileOp) : Bool :=
  !engReach s o.eng (bitsN (mAptr o.blk) 63 48) (rowOff o 0) ||
    (mLg o.blk && !engReach s o.eng (bitsN (mSptr o.blk) 63 48) (scaleOff o 0))

/-- The core whose comparison of an upset step fails (R269, R358): the one that computes the element. -/
def upsetCore (s : State) (o : TileOp) : Nat :=
  (o.upset.bind fun u => (stepParts s o).findSome? fun x =>
    if x.2.1 ≤ u.2.1 ∧ u.2.1 < x.2.1 + 32 ∧ x.2.2.1 ≤ u.2.2.1 ∧ u.2.2.1 < x.2.2.1 + nOf o.ncode then some x.1 else none).getD o.core

/-- What a step comes to: a place that is not mapped, a trap, or the state after it. -/
inductive StepEnd where
  | fault (buf off : Nat)
  | held
  | trap (code : TrapCode)
  | ok (s : State)
  deriving DecidableEq, Repr

/-- The products of all parts of a step, or the trap that a weight image or poison gives. -/
def stepProduct (s : State) (o : TileOp) (t : Tile) : Except TrapCode (List (Nat × Nat × Nat)) :=
  let n := nOf o.ncode
  let imgs := (stepParts s o).map fun x => (x, (imgAt s x.1 o.part o.launch x.2.2.2 o.ty n).bind fun hs => imgBytes s x.1 hs)
  let rs := (stepRows o).map (loopRow s o)
  if imgs.any fun x => x.2.isNone then .error Trap.bufstate
  else if (imgs.any fun x => x.2.any (·.2)) || rs.any (·.2.2) then .error Trap.poison
  else .ok (imgs.flatMap fun x =>
    let rows := (List.range 32).map fun m =>
      let r := rs.getD (x.1.2.1 + m) ([], [], false)
      (x.1.2.1 + m, r.1, fun j => r.2.1.getD j 0)
    productOf s t o.ty n x.1.2.2.1 ((x.2.map (·.1)).getD []) rows)

/-- One step. -/
def loopStep (s : State) (o : TileOp) (t : Tile) : StepEnd :=
  match stepMissing s o, stepTouch s o with
  | some (b, f), _ => .fault b f
  | none, none => .held
  | none, some s =>
    match stepProduct s o t with
    | .error c => .trap c
    | .ok xs =>
      match checkedProduct s o xs with
      | some xs => .ok (writeProduct s t xs)
      | none => .trap Trap.protect

/-- The threads that receive the token. -/
def loopTokens (o : TileOp) : List (Nat × Reg) := o.threads.filterMap fun x => o.token.map fun d => (x.1, d)

/-- The end of a loop with `OK`. -/
def endLoop (s : State) (o : TileOp) : State := endToken (dropTileOp s o.id) (loopTokens o) (tokenOf 0 0)

/-- The end of a loop with `TRAPPED` (R240, R266): the trap waits in the register. -/
def trapLoop (s : State) (o : TileOp) (code : TrapCode) : State :=
  let s := dropTileOp s o.id
  (loopTokens o).foldl (fun s x =>
    let due := (s.thread? x.1).any fun t => t.isPending (.v x.2)
    let s := deliverRec s x.1 [(.v x.2, tokenOf 6 (code.toNat + o.vec % 2 ^ 16 * 2 ^ 8))]
    let s := if due then s.updBoth x.1 fun t => { t with trapTok := (x.2.toNat, code.toNat, o.handle) :: t.trapTok } else s
    checkWake s x.1) s

/-- Whether nothing holds a loop in progress. -/
def loopReady (o : TileOp) : Bool :=
  (o.kind = .mmal || o.kind = .mmag) && o.arrived && !o.stopped && !o.stuck && o.paused.isNone && o.retry.isNone

/-- A loop goes on by one step; one whose tile has gone takes `STALEHANDLE` (R260). -/
def runLoop (s : State) (o : TileOp) : State :=
  match tileOf s o.part o.launch o.handle with
  | none => trapLoop s o Trap.stalehandle
  | some t =>
    if iterTotal (mCounts o.blk) ≤ o.vec then endLoop s o
    else if stepLost s o then dropFlit (s.updTileOp o.id fun o => { o with stuck := true })
    else match loopStep s o t with
      | .fault _ _ => s
      | .held => s
      | .trap c => trapLoop (if c = Trap.protect then addSusp s (upsetCore s o) 16 else s) o c
      | .ok s' =>
        let o' := { o with vec := o.vec + 1, upset := none }
        let s' := s'.updTileOp o.id fun _ => o'
        if iterTotal (mCounts o.blk) ≤ o'.vec then endLoop s' o' else s'

/-- `MMAL_STEP` (R266, R267). -/
def execMmalStep (id : Nat) (s : State) : Outcome :=
  .next (match s.tileOp? id with
    | some o => if loopReady o then runLoop s o else s
    | none => s)

/-! ### Faults of the engines (R241, R333, R334) -/

/-- A fault of an engine operation: where it lies, and what its entry says. -/
structure EngFault where
  part : Nat
  launch : Nat
  cluster : Nat
  src : Nat
  buf : Nat
  off : Nat
  pc : Word
  lanes : Nat
  iter : List Nat
  deriving DecidableEq, Repr

/-- The fault that a copy stands before. -/
def copyFault (s : State) (c : CopyOp) : Option EngFault :=
  if !c.issued || !(decide (c.vec < cTotal c.blk)) || (flashNotReady s c || (c.place = none && logFull s c)) || copyLost s c then none
  else
    let out := if cDecomp c.blk then decoded s c else ([], .full)
    let stop := match sourceElem s c out c.vec with
      | .error e => e
      | .ok (x, bad) => match destElem s c (destKind s c) c.vec x bad with
        | .error e => e
        | .ok _ => .none
    match stop with
    | .fault b o =>
      some { part := c.part, launch := c.launch, cluster := c.cluster, src := 5, buf := b, off := o, pc := c.pc, lanes := c.lanes,
             iter := iterOf (cCounts c.blk) c.vec }
    | _ => none

/-- The fault that a runner stands before. -/
def runnerFault (s : State) (r : Runner) : Option EngFault :=
  match nextStream r with
  | none => none
  | some i =>
    if r.stopReq || entryRefused s r i || !roomFor s r (rQueue (rStream r.blk i)) then none
    else match readEntry s r i with
      | .ok _ => none
      | .error o =>
        some { part := r.part, launch := r.launch, cluster := clusterOf r.core, src := 6, buf := bitsN (rPtr (rStream r.blk i)) 63 48,
               off := o, pc := r.pc, lanes := r.lanes, iter := iterOf (rCounts r.blk) r.vec }

/-- The fault that a loop stands before. -/
def loopFault (s : State) (o : TileOp) : Option EngFault :=
  if !((o.kind = .mmal || o.kind = .mmag) && o.arrived) || decide (iterTotal (mCounts o.blk) ≤ o.vec) ||
      (tileOf s o.part o.launch o.handle).isNone then none
  else match stepMissing s o with
    | none => none
    | some (b, f) =>
      some { part := o.part, launch := o.launch, cluster := clusterOf o.core, src := 7, buf := b, off := f, pc := o.pc,
             lanes := ((o.threads.head?).map fun x => (laneBit x.2.1).toNat).getD 0, iter := iterOf (mCounts o.blk) o.vec }

/-- An engine operation, running or held. -/
inductive EngineOp where
  | copy (c : CopyOp)
  | runner (r : Runner)
  | loop (o : TileOp)

/-- The engine operation of an id. -/
def engineOp? (s : State) (id : Nat) : Option EngineOp :=
  match s.copy? id, s.runner? id, s.tileOp? id with
  | some c, _, _ => some (.copy c)
  | _, some r, _ => some (.runner r)
  | _, _, some o => some (.loop o)
  | _, _, _ => none

/-- Whether nothing but a fault holds it. -/
def EngineOp.ready : EngineOp → Bool
  | .copy c => copyReady c
  | .runner r => runnerReady r
  | .loop o => loopReady o

/-- When it tries its fault entry again. -/
def EngineOp.retry : EngineOp → Option Nat
  | .copy c => c.retry
  | .runner r => r.retry
  | .loop o => o.retry

/-- The fault it stands before. -/
def EngineOp.fault (s : State) : EngineOp → Option EngFault
  | .copy c => copyFault s c
  | .runner r => runnerFault s r
  | .loop o => loopFault s o

/-- Set what holds an operation: a fault id, or the cy of the next try. -/
def holdOp (s : State) (id : Nat) (paused retry : Option Nat) : State :=
  ((s.updCopy id fun c => { c with paused, retry }).updRunner id fun c => { c with paused, retry }).updTileOp id
    fun c => { c with paused, retry }

/-- Post the entry of an engine's fault, or try again 1,000 cy later. -/
def postEngine (s : State) (id : Nat) (f : EngFault) : State :=
  match postFault s f.part (slotOfCluster f.cluster) f.src 7 f.cluster f.buf f.off f.launch f.pc.toNat f.lanes 0
      (((s.launch? f.part f.launch).map Launch.region).getD 0) f.iter with
  | some (s, fid, _) => holdOp s id (some fid) none
  | none => holdOp (missFault s f.part) id none (some (s.time + 1000))

/-- The fault of an operation that nothing holds. -/
def engineFaults (s : State) (id : Nat) : Option EngFault :=
  (engineOp? s id).bind fun o => if o.ready then o.fault s else none

/-- `ENGINE_PAGE_FAULT` (R241, R334). -/
def execEnginePageFault (id : Nat) (s : State) : Outcome :=
  .next (match engineFaults s id with
    | some f => postEngine s id f
    | none => s)

/-- A store whose fault entry is due to be tried again. -/
def storeRetry (s : State) (id : Nat) : Option Acc :=
  (s.acc? id).bind fun a => match a.stage with
    | .unposted t => if t ≤ s.time then some a else none
    | _ => none

/-- An engine operation whose fault entry is due to be tried again. -/
def engineRetry (s : State) (id : Nat) : Option EngineOp :=
  (engineOp? s id).bind fun o => if o.retry.any fun t => decide (t ≤ s.time) then some o else none

/-- `FAULT_ENTRY_RETRY` (R205, R334). -/
def execFaultEntryRetry (id : Nat) (s : State) : Outcome :=
  .next (match storeRetry s id, engineRetry s id with
    | some a, _ => faultStore s a
    | none, some o =>
      match o.fault s with
      | some f => postEngine s id f
      | none => holdOp s id none none
    | none, none => s)

end Sys2Proof.Machine
end

