-- ==== Sys2Proof/Machine/Front.lean ====
section
/-! DEFINITION. What the front end reads from memory: region control blocks, bundles and their lists, dependences; and
the priority of launches (R35 to R38, R306 to R313, R318). -/

namespace Sys2Proof.Machine

/-! ### Regions (R35, R36, R38) -/

/-- The value of a field of one level: from its parent where `INHERIT` says so (R36). -/
def inheritOr (rcb bit own parent : Nat) : Nat := if bitN (bitsN rcb 127 112) bit = 1 then parent else own

/-- A budget below a root is capped at its parent's (R36). -/
def capMin (own parent : Nat) : Nat := min own parent
def capEnergy (own parent : Nat) : Nat := if own = 0 then parent else if parent = 0 then own else min own parent

/-- Effective values of one region (R36). -/
structure RegEff where
  prio : Nat
  action : Nat
  maxcores : Nat
  poolrec : Nat
  vaultb : Nat
  energy : Nat
  assay : Nat
  swin : Nat
  drain : Nat
  poolto : Nat
  deriving DecidableEq, Repr

/-- Effective energy budget of a partition in watts (R392): of `ENCAP` and `ENPOL` the smaller that is not 0. -/
def enBudget (s : State) (p : Part) : Nat :=
  let c := (getL s.dev.encap p.first 0#16).toNat
  let q := p.enpol.toNat
  if c = 0 then q else if q = 0 then c else min c q

/-- Defaults at a root (R36). -/
def rootEff (s : State) (p : Part) : RegEff :=
  { prio := 0, action := 0, maxcores := 16 * 2 ^ p.sz, poolrec := poolCapacity s p,
    vaultb := 2 * 2 ^ p.sz * (2 ^ 23 - 2 ^ 18), energy := enBudget s p, assay := 0, swin := p.swin.toNat, drain := 2000,
    poolto := 10000 }

/-- The effective values of a region from its block and its parent's values; `root` for a root. -/
def effOf (rcb : Nat) (root : Bool) (up : RegEff) : RegEff :=
  let cap (bit own parent : Nat) (f : Nat → Nat → Nat) : Nat :=
    if bitN (bitsN rcb 127 112) bit = 1 then parent else if root then own else f own parent
  { prio := inheritOr rcb 0 (bitsN rcb 99 96) up.prio,
    action := inheritOr rcb 1 (bitsN rcb 101 100) up.action,
    maxcores := cap 2 (bitsN rcb 143 128) up.maxcores fun a b => min (max a 1) (max b 1),
    poolrec := cap 3 (bitsN rcb 191 160) up.poolrec capMin,
    vaultb := cap 4 (bitsN rcb 255 192) up.vaultb capMin,
    energy := cap 5 (bitsN rcb 287 256) up.energy capEnergy,
    assay := min 65536 (inheritOr rcb 6 (bitsN rcb 319 288) up.assay),
    swin := inheritOr rcb 7 (bitsN rcb 335 320) up.swin,
    drain := inheritOr rcb 8 (bitsN rcb 383 352) up.drain,
    poolto := inheritOr rcb 9 (bitsN rcb 415 384) up.poolto }

/-- The chain from a region to its root, nearest first, as pointers and blocks; none where it is refused (R38).
R38 names no status for a pointer that is not a multiple of 128 (R35): the model refuses such a chain
(notes/assumptions/135.md). -/
def rcbChain (s : State) (part : Nat) : Nat → Nat → Option (List (Nat × Nat))
  | 0, _ => none
  | n + 1, ptr =>
    match devReadBlock s part ptr 8 with
    | none => none
    | some b =>
      if bitsN ptr 6 0 ≠ 0 then none
      else if bitsN b 63 0 = 0 then some [(ptr, b)]
      else (rcbChain s part n (bitsN b 63 0)).map fun r => (ptr, b) :: r

/-- The regions of a chain with their effective values, nearest first. -/
def chainEff (s : State) (p : Part) : List (Nat × Nat) → List (Region × RegEff)
  | [] => []
  | (ptr, b) :: r =>
    let up := chainEff s p r
    let base := ((up.head?).map (·.2)).getD (rootEff s p)
    let e := effOf b up.isEmpty base
    ({ ptr := BitVec.ofNat 64 ptr, number := bitsN b 95 64, action := e.action, prio := e.prio, poolrec := e.poolrec,
       maxcores := e.maxcores, vaultb := e.vaultb, energy := e.energy, assay := e.assay }, e) :: up

/-- The chain that a bundle's `RCB` names (R38): at most 8 deep, no number twice. -/
def regionChain (s : State) (p : Part) (rcb : Nat) : Option (List (Region × RegEff)) :=
  match rcbChain s p.first 8 rcb with
  | none => none
  | some c =>
    let ns := c.map fun x => bitsN x.2 95 64
    if ns.length = (dedupN ns).length then some (chainEff s p c) else none

/-! ### Bundles (R308, R309) -/

def bKernel (b : Nat) : Nat := bitsN b 63 0
def bParam (b : Nat) : Nat := bitsN b 127 64
def bRcb (b : Nat) : Nat := bitsN b 191 128
def bFencePtr (b : Nat) : Nat := bitsN b 255 192
def bFenceVal (b : Nat) : Nat := bitsN b 319 256
def bDeps (b : Nat) : Nat := bitsN b 383 320
def bInputs (b : Nat) : Nat := bitsN b 447 384
def bPrologue (b : Nat) : Nat := bitsN b 511 448
def bEpilogue (b : Nat) : Nat := bitsN b 575 512
def bAccess (b : Nat) : Nat := bitsN b 639 576
def bNcast (b : Nat) : Nat := bitsN b 671 640
def bCastsz (b : Nat) : Nat := bitsN b 687 672
def bVault (b : Nat) : Nat := bitsN b 735 704
def bTile (b : Nat) : Nat := bitsN b 767 736
def bGang (b : Nat) : Nat := bitsN b 770 768
def bEclass (b : Nat) : Nat := bitsN b 779 776
/-- Reserved fields of a bundle (R308). -/
def bReservedOk (b : Nat) : Bool := bitsN b 1023 780 = 0 && bitsN b 703 688 = 0

/-- A kernel descriptor (R106). -/
def kEntry (k : Nat) : Nat := bitsN k 31 0
def kPrio (k : Nat) : Nat := bitsN k 35 32
def kProducer (k : Nat) : Bool := bitN k 40 = 1
def kThreads (k : Nat) : Nat := bitsN k 111 96
def kVault (k : Nat) : Nat := bitsN k 159 128
def kTile (k : Nat) : Nat := bitsN k 191 160
def kAccess (k : Nat) : Nat := bitsN k 319 256

/-- A list: its count and its bytes (R309); the entries have `w` bytes, and the list is read in 8-byte pieces. -/
def listOf (s : State) (part ptr w maxn : Nat) : Option (List Nat) :=
  if ptr = 0 then some []
  else match devRead s part ptr 8 with
    | none => none
    | some n =>
      if maxn < n then none
      else (List.range n).mapM fun i =>
        if w = 16 then
          match devRead s part (ptrAdd ptr (8 + 16 * i)) 8, devRead s part (ptrAdd ptr (16 + 16 * i)) 8 with
          | some x, some y => some (x + y * 2 ^ 64)
          | _, _ => none
        else devRead s part (ptrAdd ptr (8 + 2 * i)) 2

def depList (s : State) (part b : Nat) : Option (List Nat) := listOf s part (bDeps b) 16 16
def inputList (s : State) (part b : Nat) : Option (List Nat) := listOf s part (bInputs b) 2 32
def prologueList (s : State) (part b : Nat) : Option (List Nat) := listOf s part (bPrologue b) 16 64

/-- The reads of a list of `w`-byte entries that its head names (R309). -/
def listReads (s : State) (part ptr w : Nat) : DevReads :=
  if ptr = 0 then [] else [(ptr, 8, if w = 16 then 1 + 2 * ((devRead s part ptr 8).getD 0 % 65) else 8)]

/-- The reads of a dependence list and of the words that it names (R312). -/
def depReads (s : State) (part b : Nat) : DevReads :=
  listReads s part (bDeps b) 16 ++ ((depList s part b).getD []).map fun d => (bitsN d 63 0, 8, 1)

/-- What the front end reads to check and to admit a bundle: its region control blocks, and for a first cast its kernels,
its lists and their blocks, and the access slice's descriptor (R38, R106, R258, R309). -/
def bundleReads (s : State) (part b : Nat) (first : Bool) : DevReads :=
  (((rcbChain s part 8 (bRcb b)).getD []).map fun x => (x.1, 16, 8)) ++
  if !first then []
  else
    [(bKernel b, 16, 4)] ++ (if bEpilogue b = 0 then [] else [(bEpilogue b, 16, 4)]) ++ depReads s part b ++
      listReads s part (bInputs b) 2 ++ listReads s part (bPrologue b) 16 ++
      (((prologueList s part b).getD []).map fun e => (bitsN e 63 0, 16, 8)) ++
      (let acc := if bAccess b = 0 then kAccess ((devReadBlock s part (bKernel b) 4).getD 0) else bAccess b
       if acc = 0 then [] else [(acc, 16, 8)])

/-- Every dependence satisfied (R312): the word at the pointer, read as by `LDA.sys`, is at least the value. -/
def depsOk (s : State) (part b : Nat) : Bool :=
  match depList s part b with
  | none => false
  | some ds => ds.all fun d => (devRead s part (bitsN d 63 0) 8).any fun x => decide (bitsN d 127 64 ≤ x)

/-! ### A thread at its start -/

/-- A thread at its start (R42). -/
def Thread.fresh (tid part launch cast tic : Nat) (loc : Loc) (param : DWord) : Thread :=
  { tid, part, launch, cast, tic, run := 0, shadow := false, twin := 0, loc,
    v := (Vector.replicate 64 0).set 0 (param.extractLsb' 0 32) |>.set 1 (param.extractLsb' 32 32), p := 0,
    h := Vector.replicate 8 0, poison := 0, pendV := 0, pendP := 0, pendH := 0, late := [], level := .user,
    trapClass := false, hbuf := 0, hstart := 0, trappc := 0, trapcause := 0, trapinfo := 0, fence := 0, acktag := 0,
    ackt := 0, wakest := 0, kind := 0, sleepAt := none, digs := 0, tileOps := 0, stateOps := 0, trapTok := [],
    seen := [] }

/-! ### Priority (R318) -/

/-- The head bundles of a partition that wait, with their queue. -/
def waitingHeads (p : Part) : List (Nat × Nat) :=
  p.queues.filterMap fun (q, x) => if x.headLaunch.isNone then x.headBundle.map fun b => (q, b) else none

/-- The priority of a bundle: its region's, or that of a waiting bundle that depends on its fence. -/
def bundlePrio (s : State) (p : Part) : Nat → Nat → Nat → Nat
  | 0, own, _ => own
  | n + 1, own, fence =>
    (waitingHeads p).foldl (fun m x =>
      let deps := (depList s p.first x.2).getD []
      if fence ≠ 0 ∧ deps.any fun d => bitsN d 63 0 = fence then
        let own := (((regionChain s p (bRcb x.2)).bind List.head?).map fun r => r.1.prio).getD 0
        max m (bundlePrio s p n own (bFencePtr x.2))
      else m) own

/-- The priority of a launch (R318). -/
def launchPrio (s : State) (part launch : Nat) : Nat :=
  match s.part? part, s.launch? part launch with
  | some p, some l => bundlePrio s p (16 * 2 ^ p.sz + 1) (((l.chain.head?).map (·.prio)).getD 0) (bFencePtr l.bundle)
  | _, _ => 0

end Sys2Proof.Machine
end

