-- ==== Sys2Proof/Machine/Issue.lean ====
section
/-! DEFINITION. Issue selection in a core (R44, R48, R79, R80, R319, R320, R328) and the preparation of the chosen group
with the checks that come before its words act (R76, R78, R82, R83, R266, R356). -/

namespace Sys2Proof.Machine

open Sys2Proof (Instr)

/-! ### Decoded groups (R76, R94) -/

/-- A decoded word; a word that is no instruction stands as the event that takes `ILLEGAL` (R94). -/
noncomputable def instrOf (w : Word) : Instr :=
  match decode w with
  | .ok i => i
  | .error _ => .illegalEncoding w

/-- The registers a word writes, read from its bits. -/
noncomputable def writesW (w : Word) : List RegRef := writes (instrOf w)
noncomputable def readsW (w : Word) : List RegRef := reads (instrOf w)

/-- A list without repeats. -/
def noRepeat {α : Type} [DecidableEq α] : List α → Bool
  | [] => true
  | x :: xs => !xs.contains x && noRepeat xs

/-- The conditions of R76 on the words of a group, of which the first stands at `pc`. -/
noncomputable def groupOk (pc : Word) (ws : List Word) : Bool :=
  let last := pc + BitVec.ofNat 32 (4 * (ws.length - 1))
  !(posOf last = 2 && ((ws.getLast?).any fun w => (hdrOf w).c = 1)) && noRepeat (pipesOf ws) &&
    noRepeat ((ws.flatMap writesW).filter fun r => r ≠ .p 7)

/-! ### Eligible entries (R44, R48, R157, R328) -/

/-- Whether the condition that a lane of a stalled entry waits for holds. -/
def laneWoken (s : State) (st : Stall) (x : Nat × Nat) : Bool :=
  if st.wtype = 1 && bitN st.key 0 = 0 then
    let clear (t : Thread) : Bool := t.pendV = 0 && t.pendP = 0 && t.pendH = 0
    (s.thread? x.2).any fun t => clear t && (s.twinOf t).all clear
  else if st.wtype = 0 then st.need.all (engFree s)
  else if st.wtype = 14 then true
  else if st.wtype = 15 then !s.awaitsHome x.2 && !(s.bufOps.any fun b => b.tid = x.2 && b.stage = .sent)
  else wakeHolds s x.2 st.wtype (getL st.keys x.1 st.key)

/-- Whether the condition that a stalled entry waits for holds for every lane (R48, R49). -/
def allWoken (s : State) (core slot : Nat) (e : Entry) : Bool :=
  e.stall.all fun st => (s.lanesIn core slot e.mask).all (laneWoken s st)

/-- Whether a lane that waits on accesses meets a posted deferred store fault (R217). -/
def laneFaulted (s : State) (st : Stall) (x : Nat × Nat) : Bool :=
  let key := getL st.keys x.1 st.key
  st.wtype = 1 && bitN key 0 = 1 && bitsN key 2 1 != 3 && (defStoreOf (waitSet s x.2 key)).isSome

/-- Whether a stalled entry has cause to try its group: its condition holds for every lane, or a lane of it is to leave
(R217). -/
def stallCond (s : State) (core slot : Nat) (e : Entry) : Bool :=
  match e.stall with
  | none => true
  | some st =>
    !(st.await && (st.wtype = 5 || (s.lanesIn core slot e.mask).any fun x => s.awaitsHome x.2)) &&
      (allWoken s core slot e || (s.lanesIn core slot e.mask).any (laneFaulted s st))

/-- An entry may try its group: its condition holds, and it was not tried in this cy. -/
def stallOver (s : State) (core slot : Nat) (e : Entry) : Bool :=
  (e.stall.all fun st => decide (st.tried < s.time)) && stallCond s core slot e

/-- Whether an entry is a handler entry (R328). -/
def isHandler (s : State) (core slot : Nat) (e : Entry) : Bool :=
  (s.lanesIn core slot e.mask).any fun x => (s.thread? x.2).any (·.trapClass)

/-- Whether an entry may issue (R44, R49, R157): one that waits on a mask only once it is released, as noted when the
cy began. -/
def eligible (s : State) (p : Pour) (e : Entry) : Bool :=
  e.split.isNone && (e.stall.all fun st => !st.expired) && stallOver s p.core p.slot e &&
    match kwaiting s p e with
    | none => true
    | some _ => e.freed.isSome

/-- The entry a pour issues from (R44, R328): handler entries first, then the highest priority, then the lowest PC. -/
def chooseEntry (s : State) (p : Pour) : Option Nat :=
  let cands := (p.entries.zipIdx).filter fun x => eligible s p x.1
  (minBy (fun x : Entry × Nat =>
    (if isHandler s p.core p.slot x.1 then 0 else 2 ^ 40) + (15 - x.1.prio.toNat) * 2 ^ 32 + x.1.pc.toNat) cands).map (·.2)

/-! ### Ranking of pours (R319, R320) -/

/-- The run of the threads of a pour (R360) and the assay of their cast. -/
def pourAssay (s : State) (p : Pour) : Option (Thread × Option Assay) :=
  ((s.threads.find? fun t => match t.loc with | .lane c sl _ => c = p.core && sl = p.slot | _ => false)).map fun t =>
    (t, (s.cast? t.part t.launch t.cast).bind (·.assay))

/-- Class of a pour with its order within the class, lower first. -/
def pourRank (s : State) (p : Pour) : Nat × Nat :=
  let handlers := p.entries.filter fun e => isHandler s p.core p.slot e
  let starts := handlers.flatMap fun e => (s.lanesIn p.core p.slot e.mask).filterMap fun x => (s.thread? x.2).map (·.hstart)
  match minBy id starts with
  | some h => (0, h)
  | none =>
    if p.fromAnnex ∧ s.time - p.formed < 4096 then (1, p.last)
    else if p.promoted then (2, p.readySince.getD 0)
    else
      let bg := (pourAssay s p).any fun x => x.1.run = 1 || x.1.run = 2
      let due := (pourAssay s p).any fun x => x.2.any (·.promoted)
      if bg && !due then (4, p.last)
      else (3, (2 ^ 32 - (if bg then 15 else launchPrio s p.part p.launch)) * 2 ^ 80 + p.last)

def rankNat (x : Nat × Nat) : Nat := x.1 * 2 ^ 160 + x.2

/-- A group that may issue: the pour's place and the entry. -/
structure Cand where
  core : Nat
  slot : Nat
  ent : Nat
  deriving DecidableEq, Repr

/-- The pipes that an entry's group uses. -/
def candPipes (s : State) (p : Pour) (e : Entry) : List Pipe := pipesOf (groupWords s p.core p.slot e)

/-- Whether every thread of the pour may issue: not while its VF is being pre-empted (R340), nor while its partition is
stopped, nor on a waiting control core. -/
def pourMayIssue (s : State) (p : Pour) : Bool :=
  decide (p.ready ≤ s.time) && p.poolStalled.isNone &&
    (if isCtlCore p.core then (s.ctl? (p.core - 1024)).any fun c => !c.waiting && !c.oos
     else
      !(match s.part? p.part, s.launch? p.part p.launch with
        | some x, some l => x.halts l.vf
        | _, _ => false) && !quarantined s p.core)

/-- The pour and entry that a core issues next in this cy (R79, R319), by rank, whose pipes are free. -/
def chooseInCore (s : State) (core : Nat) : Option Cand :=
  let cands := (s.pours.filter fun p => p.core = core && pourMayIssue s p).filterMap fun p =>
    (chooseEntry s p).bind fun i => (p.entries[i]?).bind fun e =>
      if (candPipes s p e).any fun x => s.busy.contains (core, x) then none
      else some (rankNat (pourRank s p), { core, slot := p.slot, ent := i : Cand })
  (minBy (fun x : Nat × Cand => x.1) cands).map (·.2)

/-- The next group of the device in this cy, cores in ascending order. -/
def chooseIssue (s : State) : Option Cand :=
  (sortN (s.pours.map (·.core))).findSome? fun c => chooseInCore s c

/-! ### The scoreboard (R82, R83, R284) -/

/-- The arrival that a thread must await before its next group (R284): of an `SGBAR`, or of a register it reads or
writes. -/
def awaitedArrival (s : State) (tid : Nat) (regs : List RegRef) : Option (Nat × Nat) :=
  s.sgs.findSome? fun g =>
    if g.tid ≠ tid then none
    else match g.kind, g.stage with
      | .arrive h fn _ d, .validated ph =>
        if fn = 3 ∨ regs.contains (.v d) then some (3, h.toNat + ph % 2 ^ 28 * 2 ^ 32) else none
      | .arrive h fn _ d, .departed ph =>
        if fn = 3 ∨ regs.contains (.v d) then some (3, h.toNat + ph % 2 ^ 28 * 2 ^ 32) else none
      | .arrive h fn _ d, .counted ph =>
        if fn = 3 ∨ regs.contains (.v d) then some (3, h.toNat + ph % 2 ^ 28 * 2 ^ 32) else none
      | .arrive h fn _ d, .result _ _ ph =>
        if fn = 3 ∨ regs.contains (.v d) then some (3, h.toNat + ph % 2 ^ 28 * 2 ^ 32) else none
      | _, _ => none

/-- The wait of the scoreboard for a group, if any lane has one; of a protected launch, either physical lane (R82,
R136). -/
def scoreWait (s : State) (lanes : List (Nat × Thread)) (regs : List RegRef) : Option Wait :=
  let arr := lanes.filterMap fun x => (awaitedArrival s x.2.tid regs).map fun w => (x.1, w.2)
  match arr with
  | k :: _ => some { wtype := 3, key := k.2, keys := arr }
  | [] =>
    let waits (t : Thread) : Bool := regs.any fun r => t.isPending r
    if lanes.any fun x => waits x.2 || (s.twinOf x.2).any waits then some { wtype := 1, key := 0 } else none

/-- `UNDERSTALL` of one thread (R78, R83): the first word that reads a result too early, with the register. -/
def tooEarly (s : State) (t : Thread) (lane : Nat) : List (Nat × Word × List RegRef) → Option LaneTrap
  | [] => none
  | (pos, w, rs) :: r =>
    let early (x : RegRef) : Bool := rs.contains x && t.late.any fun l => l.reg = x && decide (s.time < l.ready)
    let vs := (List.range 64).find? fun i => early (.v (BitVec.ofNat 6 i))
    let ps := (List.range 7).find? fun i => early (.p (BitVec.ofNat 3 i))
    let mk (n isP : Nat) : LaneTrap :=
      { lane, tid := t.tid, code := Trap.understall, fault := none, store := none,
        info := BitVec.ofNat 64 (w.toNat + pos * 2 ^ 32 + n * 2 ^ 34 + isP * 2 ^ 40) }
    match vs, ps with
    | some n, _ => some (mk n 0)
    | none, some n => some (mk n 1)
    | none, none => tooEarly s t lane r

/-- `SBCHK.CHK` as the group obeys it (R84). -/
def sbchkOf (s : State) (core part : Nat) : Bool :=
  match (if isCtlCore core then s.partOfSlot (core - 1024) else s.part? part) with
  | some p => p.sbchk
  | none => true

/-- Traps that the reads of one word raise (R266, R356): a poisoned register, or a token of status `TRAPPED`. -/
def readTrap (t : Thread) (lane : Nat) (w : Word) (rs : List RegRef) : Option LaneTrap :=
  let vs := rs.filterMap fun r => match r with | .v n => some n | _ => none
  match vs.findSome? fun n => (t.trapTok.find? fun k => k.1 = n.toNat).map fun k => (n, k) with
  | some (n, k) =>
    some { lane, tid := t.tid, code := BitVec.ofNat 8 k.2.1, info := k.2.2 ++ t.v[n.toNat]'n.isLt, fault := none,
           store := none, charged := true }
  | none =>
    if vs.any fun n => t.poison.getLsbD n.toNat then
      some { lane, tid := t.tid, code := Trap.poison, info := (0 : BitVec 32) ++ w, fault := none, store := none }
    else none

/-! ### Preparing a group -/

/-- The outcome of the checks before the words act. -/
inductive Prep where
  /-- The group is refused or takes its traps without a word acting: the state is closed. -/
  | closed (s : State)
  /-- The words act on the prepared state. -/
  | go (s : State) (ws : List Word)

/-- The issue context of a group. -/
def cursor (c : Cand) (e : Entry) (n : Nat) (lanes : List (Nat × Thread)) : Cur :=
  { core := c.core, slot := c.slot, ent := c.ent, pc := e.pc, wpc := e.pc, fall := e.pc + BitVec.ofNat 32 (4 * n),
    word := 0, pos := 0, phase := .alone, lanes := lanes.map fun x => (x.1, x.2.tid), traps := [], wait := none,
    transfers := [], newPrio := none, gone := 0, ends := [], stall := 0, snap := [], lead := (lanes.head?).map fun x => (x.1, x.2.tid) }

/-- Give every listed lane a trap. -/
def withTraps (s : State) (ks : List LaneTrap) : State :=
  dropTrapped (s.updCur fun c => { c with traps := c.traps ++ ks })

/-- `GROUPCONF` or a static trap for every lane, by R78 steps 1 and 2. The word that `GROUPCONF` names is the group's
first (notes/assumptions/129.md). -/
noncomputable def staticTraps (core : Nat) (pc : Word) (ws : List Word) (begins : Bool) (lanes : List (Nat × Thread)) :
    List LaneTrap :=
  let info (w : Word) (pos : Nat) : DWord := BitVec.ofNat 64 (w.toNat + pos * 2 ^ 32)
  if !begins || !groupOk pc ws then
    lanes.map fun x => { lane := x.1, tid := x.2.tid, code := Trap.groupconf, info := info (ws.headD 0) 0,
                         fault := none, store := none }
  else
    lanes.filterMap fun x =>
      (ws.zipIdx).findSome? fun (w, i) =>
        let code := match decode w with
          | .error _ => some Trap.illegal
          | .ok ins => staticCode (isCtlCore core) ins w x.2.level
        code.map fun c => { lane := x.1, tid := x.2.tid, code := c, info := info w i, fault := none,
                            store := none }

/-- Whether a word takes `ASSAYVIOL` in a selected cast before every other execution trap (R272): `TRAP`, `LAUNCH` and the
SG words. -/
def assayFirst (w : Word) : Bool :=
  opOf w = 0x1E || (opOf w = 0x00 && (fN (payloadOf w) = 5 || fN (payloadOf w) = 6))

/-- `STALEHANDLE` of a tile operation that a thread issued before (R260, notes/assumptions/39.md). -/
def staleOpTrap (t : Thread) (lane : Nat) : Option LaneTrap :=
  t.stale.head?.map fun x => { lane, tid := t.tid, code := Trap.stalehandle, info := x.1 ++ x.2, fault := none, store := none }

/-- The trap that comes from an earlier tile operation, or from the registers that one word reads, in either physical lane
(R136, R260, R266, R356), after the `ASSAYVIOL` that stands before it (R272). -/
noncomputable def sourceTrap (s : State) (w : Word) (lane : Nat) (t : Thread) : Option LaneTrap :=
  firstTrap [
    staleOpTrap t lane,
    if assayFirst w && t.part != 64 then (assayIf s lane t).map fun k => { k with info := (0 : BitVec 32) ++ w } else none,
    readTrap t lane w (readsW w),
    ((s.twinOf t).bind fun u => readTrap u lane w (readsW w)).map fun k => { k with tid := t.tid }]

/-- The traps that the register reads of a group's words raise for a lane, word by word. -/
noncomputable def laneReadTrap (s : State) (ws : List Word) (x : Nat × Thread) : Option LaneTrap :=
  ws.findSome? fun w => sourceTrap s w x.1 x.2


def untrapped (ks : List LaneTrap) (lanes : List (Nat × Thread)) : List (Nat × Thread) :=
  lanes.filter fun x => !(ks.any fun k => k.lane = x.1)

/-- Whether the network drops the fetch of a lane (R383): nothing answers it. -/
def fetchLost (s : State) (core : Nat) (e : Entry) (lanes : List (Nat × Thread)) : Bool :=
  lanes.any fun x => match portCheck s (s.reqOf x.2 core x.1) .fetch e.buf e.pc.toNat 4 with
    | .ok _ k => !s.reaches (slotOfCluster (clusterOf core)) k
    | .trap _ => false

/-- The lines that a fetch reads are combined first (R186). -/
def fetchNote (s : State) (core : Nat) (e : Entry) (lanes : List (Nat × Thread)) : State :=
  lanes.foldl (fun s x => match portCheck s (s.reqOf x.2 core x.1) .fetch e.buf e.pc.toNat 4 with
    | .ok _ k => combineAt s k 12
    | .trap _ => s) s

/-- Fetch, frame and check the group of a candidate (R74 to R78, R82, R83): lanes that trap leave it at each check, and the
group goes on whole for the others. The traps of fetch come first, and the scoreboard between `PRIV` and `UNDERSTALL`
(notes/assumptions/129.md). -/
noncomputable def prepare (s : State) (c : Cand) : Prep :=
  match (s.pour? c.core c.slot).bind fun p => (p.entries[c.ent]?).map fun e => (p, e) with
  | none => .closed s
  | some (p, e) =>
    let lanes := entryLanes s c.core c.slot e
    if fetchLost s c.core e lanes then .closed (stallGroup (dropFlit (s.updCur fun _ => cursor c e 1 lanes)) { wtype := 13, key := 0 }) else
    let s := fetchNote s c.core e lanes
    let fg := fetchGroup s c.core c.slot e
    let ws := fg.1
    let s1 := withTraps (s.updCur fun _ => cursor c e (max ws.length 1) lanes) fg.2
    let l1 := untrapped fg.2 lanes
    let st := staticTraps c.core e.pc ws (beginsGroup s c.core c.slot e e.pc) l1
    let s2 := withTraps s1 st
    let l2 := untrapped st l1
    if l2.isEmpty then .closed (closeGroup s2)
    else
      match scoreWait s l2 (ws.flatMap fun w => readsW w ++ writesW w) with
      | some w => .closed (stallGroup s2 w)
      | none =>
        let tagged := (ws.zipIdx).map fun (w, i) => (i, w, readsW w)
        let us := if sbchkOf s c.core p.part then l2.filterMap fun x => tooEarly s x.2 x.1 tagged else []
        let s3 := withTraps s2 us
        let l3 := untrapped us l2
        if l3.isEmpty then .closed (closeGroup s3)
        else if ws.length = 1 then
          let rs := l3.filterMap (laneReadTrap s ws)
          let s4 := withTraps s3 rs
          if (untrapped rs l3).isEmpty then .closed (closeGroup s4) else .go s4 ws
        else
          .go (s3.updCur fun k =>
            { k with snap := s.threads.filter fun t => k.lanes.any fun y => y.2 = t.tid || (t.shadow && y.2 = t.twin) }) ws

/-! ### Running a group (R77, R78) -/

/-- Put the context on word `i` of the group. -/
def atWord (s : State) (w : Word) (i : Nat) (ph : Phase) : State :=
  s.updCur fun c => { c with word := w, wpc := c.pc + BitVec.ofNat 32 (4 * i), pos := i, phase := ph }

/-- The order in which the effects take place: the S-pipe word, which transfers control, last. -/
def effectOrder (ws : List Word) : List (Word × Nat) :=
  (ws.zipIdx).filter (fun x => pipeOf x.1 ≠ 0) ++ (ws.zipIdx).filter (fun x => pipeOf x.1 = 0)

/-- Run words one after another. -/
noncomputable def runWords (ex : Instr → State → Host.Outcome State Fault Refusal) (ph : Phase) (s : State) :
    List (Word × Nat) → Host.Outcome State Fault Refusal
  | [] => .next s
  | (w, i) :: r =>
    match ex (instrOf w) (atWord s w i ph) with
    | .next s' => runWords ex ph s' r
    | .fault f => .fault f
    | .refused f => .refused f

/-- The traps that the reads of the words find, word by word, before each word's own checks. -/
noncomputable def readTraps (s : State) (w : Word) : State :=
  let ks := s.cur.lanes.filterMap fun x =>
    if s.cur.traps.any fun k => k.lane = x.1 then none
    else (s.thread? x.2).bind fun t => sourceTrap s w x.1 t
  s.updCur fun c => { c with traps := c.traps ++ ks }

/-- The checks of every word (R78 step 4), in ascending position. -/
noncomputable def checkWords (ex : Instr → State → Host.Outcome State Fault Refusal) (s : State) :
    List (Word × Nat) → Host.Outcome State Fault Refusal
  | [] => .next s
  | (w, i) :: r =>
    match ex (instrOf w) (readTraps (atWord s w i .check) w) with
    | .next s' => checkWords ex s' r
    | .fault f => .fault f
    | .refused f => .refused f

/-- A group of several words: checks until no further lane traps, then a wait or the effects (R77, R78, R217). -/
noncomputable def runMany (ex : Instr → State → Host.Outcome State Fault Refusal) (ws : List Word) :
    Nat → State → Host.Outcome State Fault Refusal
  | 0, s => .next (closeGroup s)
  | n + 1, s =>
    match checkWords ex s ws.zipIdx with
    | .next s' =>
      let s'' := dropTrapped s'
      if s''.cur.lanes.isEmpty then .next (closeGroup s'')
      else if s''.cur.lanes.length < s'.cur.lanes.length then runMany ex ws n s''
      else match runWords ex .hold s'' ws.zipIdx with
        | .next u =>
          match u.cur.wait with
          | some w => .next (stallGroup u w)
          | none =>
            match runWords ex .apply u (effectOrder ws) with
            | .next t => .next (closeGroup t)
            | r => r
        | r => r
    | r => r

/-- The registers into which fault injection put inverted bits as a group issued on a core: each counts in its partition as
an uncorrectable error of the register file (R368, R369; notes/assumptions/114.md). -/
noncomputable def countFlips (core : Nat) (ws : List Word) (s : State) : State :=
  match s.partOfSlot (slotOfCluster (clusterOf core)) with
  | some p =>
    if bitsN p.finj.toNat 31 30 = 1 ∧ bitsN p.finj.toNat 25 16 = core then
      let n := s.cur.acted * (((ws.filter fun w => pipeOf w = 1).flatMap writesW).countP fun r => match r with | .v _ => true | _ => false)
      (List.range n).foldl (fun s _ => s.countArray p.first 0 true) s
    else s
  | none => s

/-- What a group that issued leaves behind: the pipes of its words taken in this cy (R79), injected effects counted
(R368). -/
noncomputable def markBusy (core slot : Nat) (ws : List Word) (t0 : Nat) (s : State) : State :=
  let stalled := (s.pour? core slot).any fun p => decide (p.ready ≤ t0)
  if stalled then s else countFlips core ws { s with busy := ((pipesOf ws).map fun x => (core, x)) ++ s.busy }

/-- Issue a candidate's group with the meanings `ex`. -/
noncomputable def issue (ex : Instr → State → Host.Outcome State Fault Refusal) (s : State) (c : Cand) :
    Host.Outcome State Fault Refusal :=
  match prepare s c with
  | .closed s' => .next s'
  | .go s' ws =>
    let r := match ws with
      | [w] => ex (instrOf w) (atWord s' w 0 .alone)
      | _ => runMany ex ws 33 s'
    match r with
    | .next t => .next (markBusy c.core c.slot ws s.time t)
    | r => r

end Sys2Proof.Machine
end

