-- ==== Sys2Proof/Machine/RecordEvents.lean ====
section
/-! DEFINITION. The events of continuation records: short stalls that end as records, the record pool, ladles and drains,
forwards, pre-emption, spills, syscalls and the watchdog (R45 to R68, R289 to R291, R301, R319 to R321, R330, R335 to
R343, R348 to R353, R361). -/

namespace Sys2Proof.Machine

/-! ### Short stalls and the pool (R49, R64) -/

/-- The ring index of a fault id. -/
def faultIx (s : State) (part fid : Nat) : Nat :=
  (((s.part? part).bind fun p => p.faults.find? fun f => f.fid = fid).map (·.ix)).getD 0

/-- The record that a lane of a stalled entry becomes: its kind follows from what it waits for (R54). -/
def stallInit (s : State) (part : Nat) (e : Entry) (st : Stall) (ps : Bool) (lane : Nat) : RecInit :=
  let key := getL st.keys lane st.key
  { kind := if st.wtype = 5 then 2 else if st.wtype = 6 then 3 else 0, wtype := st.wtype, key, resume := e.pc,
    prio := e.prio, buf := e.buf, cluster := 0, lane, ps, faultix := if st.wtype = 5 then faultIx s part key else 0,
    alsoLive := if st.wtype = 6 then 3 else 0 }

/-- Lanes become records, if the pool has room for all. -/
def convertLanes (s : State) (p : Pour) (ts : List (Nat × Nat)) (f : Nat → RecInit) : Option State :=
  (takeRoom s p.part p.launch ts.length).map fun s =>
    ts.foldl (fun s x => makeRec s x.2 { f x.1 with cluster := clusterOf p.core }) s

/-- Whether any thread of an entry awaits a flask home (R272). -/
def entryAwaits (s : State) (p : Pour) (e : Entry) : Bool :=
  (s.lanesIn p.core p.slot e.mask).any fun x => s.awaitsHome x.2

/-- Whether the window of an entry's short stall ends with this cy and its condition is false (R49); with a thread that
awaits a flask home it does not end (R272), nor while the entry waits on a mask (R157). -/
def windowEnds (s : State) (p : Pour) (e : Entry) : Bool :=
  match e.stall, s.launch? p.part p.launch with
  | some st, some l =>
    st.pool.isNone && !st.expired && decide (st.wtype < 13) && !isCtlCore p.core && decide (st.start + l.swin ≤ s.time) &&
      !allWoken s p.core p.slot e && !entryAwaits s p e && (kwaiting s p e).isNone
  | _, _ => false

/-- Whether an entry converts: its window ended with the cy before (R49). -/
def stallExpired (_ : State) (_ : Pour) (e : Entry) : Bool := e.stall.any (·.expired)

/-- The entry's threads become records of kind 0, or the entry is pool-stalled (R64). -/
def expireStall (s : State) (p : Pour) (i : Nat) (e : Entry) (st : Stall) : State :=
  match convertLanes s p (s.lanesIn p.core p.slot e.mask) (stallInit s p.part e st false) with
  | some s => s
  | none =>
    s.bumpId.updPour p.core p.slot fun p =>
      { p with entries := p.entries.set i { e with stall := some { st with pool := some s.nextId, expired := false } } }

/-- `SHORT_STALL_EXPIRY` (R49, R64). -/
def execShortStallExpiry (core slot ent : Nat) (s : State) : Outcome :=
  .next (match s.pour? core slot with
    | none => s
    | some p =>
      match p.entries[ent]? with
      | none => s
      | some e =>
        match e.stall with
        | some st => if stallExpired s p e then expireStall s p ent e st else s
        | none => s)

/-! ### Pours that become records (R57, R65, R340, R352) -/

/-- Whether a pour may go whole into an annex: no entry waits for the pool, and no thread for a flask home. -/
def pourWhole (s : State) (p : Pour) : Bool :=
  p.entries.all fun e => e.split.isNone && (e.stall.all fun st => st.pool.isNone) && !entryAwaits s p e

/-- A pre-empted pour: one annex, and a record of kind 1 for every thread (R340, R352); none where the pool has no
room. -/
def annexPour (s : State) (p : Pour) (ps : Bool) : Option State :=
  let es := p.entries.flatMap fun e => (s.lanesIn p.core p.slot e.mask).map fun x => (e, x)
  if !pourWhole s p then none
  else (takeRoom s p.part p.launch (es.length + 1)).map fun s =>
    let ref := nextRef s p.part
    let plain := p.entries.map fun e => { e with stall := none, freed := none }
    let a : Annex := { ref, part := p.part, entries := plain, k := p.k, count := es.length }
    let s : State := { s with annexes := s.annexes ++ [a] }
    let s := es.foldl (fun s x =>
      makeRec s x.2.2
        { kind := 1, wtype := 8, key := 0, resume := x.1.pc, prio := x.1.prio, buf := x.1.buf, cluster := clusterOf p.core,
          annex := ref, lane := x.2.1, ps, tile := tileBlkOf s x.2.2 }) s
    let mine (o : TileOp) : Bool := o.kind = .mmal && es.any fun x => x.2.2 = o.issuer
    let s : State := { s with
      pours := s.pours.filter (fun q => !(q.core = p.core && q.slot = p.slot)),
      tileOps := updL mine (fun o => { o with stopped := true }) s.tileOps }
    flushAnnex s p.part ref

/-- Whether a pre-emption request concerns a pour: its VF is stopped, or its core quarantined (R340, R365). -/
def preemptWanted (s : State) (p : Pour) : Bool :=
  !isCtlCore p.core && p.poolStalled.isNone &&
    (quarantined s p.core ||
      match s.part? p.part, s.launch? p.part p.launch with
      | some x, some l => x.halts l.vf
      | _, _ => false)

/-- The request reaches a pour; where the pool has no room it stays, pool-stalled (R65). While a thread of the pour awaits
a flask home the pour only stays (R272), and so for the rest of the cy of a page fault (R332). -/
def preemptPour (s : State) (p : Pour) : State :=
  match annexPour s p false with
  | some s => s
  | none =>
    if p.entries.any fun e => entryAwaits s p e || e.leaving s.time then s else s.bumpId.updPour p.core p.slot fun p => { p with poolStalled := some s.nextId }

/-- `POUR_PREEMPT` (R340). -/
def execPourPreempt (core slot : Nat) (s : State) : Outcome :=
  .next (match s.pour? core slot with
    | some p => if preemptWanted s p then preemptPour s p else s
    | none => s)

/-! ### Pool-stalled entries and pours in order (R45, R64, R65) -/

/-- Something that waits for room: its order number, the place of its pour, and its entry, none for the whole pour. -/
structure Waiting where
  order : Nat
  core : Nat
  slot : Nat
  ent : Option Nat
  deriving DecidableEq, Repr

def insertWaiting (x : Waiting) : List Waiting → List Waiting
  | [] => [x]
  | y :: ys => if x.order ≤ y.order then x :: y :: ys else y :: insertWaiting x ys

/-- What waits for room in a partition, in the order in which it stalled. -/
def waitingForRoom (s : State) (part : Nat) : List Waiting :=
  ((s.pours.filter fun p => p.part = part).flatMap fun p =>
    (p.poolStalled.toList.map fun n => { order := n, core := p.core, slot := p.slot, ent := none : Waiting }) ++
    (p.entries.zipIdx).filterMap fun x =>
      let n := match x.1.split with
        | some n => some n
        | none => x.1.stall.bind fun st => st.pool
      n.map fun n => { order := n, core := p.core, slot := p.slot, ent := some x.2 : Waiting }).foldr insertWaiting []

/-- The records that it needs. -/
def roomNeeded (s : State) (p : Pour) (ent : Option Nat) : Nat :=
  match ent with
  | none => (p.entries.foldl (fun n e => n + (s.lanesIn p.core p.slot e.mask).length) 0) + 1
  | some i => ((p.entries[i]?).map fun e => (s.lanesIn p.core p.slot e.mask).length).getD 0

/-- Whether it may convert at all now: its threads await no flask home, the cy of its page fault is over (R332), and it does
not wait on a mask (R157), unless it is split, when it never issues again (R45; notes/assumptions/13.md). -/
def roomReady (s : State) (p : Pour) (ent : Option Nat) : Bool :=
  match ent with
  | none => pourWhole s p
  | some i => (p.entries[i]?).any fun e =>
    !entryAwaits s p e && !e.leaving s.time && (e.split.isSome || (kwaiting s p e).isNone)

/-- The first in order that converts: one whose region has no room does not hold up those of other regions. -/
def nextToConvert (s : State) : List Waiting → List Nat → Option (Waiting × Pour)
  | [], _ => none
  | x :: xs, blocked =>
    match s.pour? x.core x.slot with
    | none => nextToConvert s xs blocked
    | some p =>
      match s.launch? p.part p.launch with
      | none => nextToConvert s xs blocked
      | some l =>
        let n := roomNeeded s p x.ent
        if blocked.contains l.region ∨ !roomReady s p x.ent then nextToConvert s xs blocked
        else if chainRoom s l n then (if (poolRoom s p.part p.launch n).isSome then some (x, p) else none)
        else nextToConvert s xs (l.region :: blocked)

/-- It becomes records, which carry `FLAGS.PS` unless they only awaited a flask home. -/
def convertWaiting (s : State) (x : Waiting) (p : Pour) : State :=
  match x.ent with
  | none => (annexPour s p true).getD s
  | some i =>
    match p.entries[i]? with
    | none => s
    | some e =>
      let ts := s.lanesIn p.core p.slot e.mask
      match e.split, e.stall with
      | some _, _ =>
        (convertLanes s p ts fun lane =>
          { kind := 4, wtype := 0, key := 0, resume := e.pc, prio := e.prio, buf := e.buf, cluster := 0, lane, ps := true }).getD s
      | none, some st => (convertLanes s p ts (stallInit s p.part e st (!st.await))).getD s
      | none, none => s

/-- Whether something waits for other than room: for its flask homes, or for the end of the cy of its fault. -/
def waitsOtherwise (s : State) (x : Waiting) : Bool :=
  match s.pour? x.core x.slot, x.ent with
  | some p, some i => (p.entries[i]?).any fun e => e.stall.any (·.await)
  | _, _ => false

/-- The first entry that has waited otherwise and is now to become records. -/
def nextAsk (s : State) (part : Nat) : Option Waiting :=
  (waitingForRoom s part).find? fun x => waitsOtherwise s x && (s.pour? x.core x.slot).any fun p => roomReady s p x.ent

/-- What becomes of such an entry: records, or where the pool has no room it is pool-stalled from now on (R64 step 2). -/
def askRoom (s : State) (x : Waiting) : State :=
  match s.pour? x.core x.slot, x.ent with
  | some p, some i =>
    if (poolRoom s p.part p.launch (roomNeeded s p x.ent)).isSome then convertWaiting s x p
    else s.bumpId.updPour x.core x.slot fun p => { p with entries := p.entries.modify i fun e =>
      { e with stall := e.stall.map fun st => { st with await := false, pool := some s.nextId } } }
  | _, _ => s

/-- What stalls for room alone. -/
def stalledForRoom (s : State) (part : Nat) : List Waiting := (waitingForRoom s part).filter fun x => !waitsOtherwise s x

/-- Whether anything converts now. -/
def convertDue (s : State) (part : Nat) : Bool := (nextAsk s part).isSome || (nextToConvert s (stalledForRoom s part) []).isSome

/-- `POOL_STALL_CONVERT` (R45, R64, R65). -/
def execPoolStallConvert (part : Nat) (s : State) : Outcome :=
  .next (match nextAsk s part with
    | some x => askRoom s x
    | none => match nextToConvert s (stalledForRoom s part) [] with
      | some (x, p) => convertWaiting s x p
      | none => s)

/-- The threads of a launch that wait for room: the gangs they belong to. -/
def stalledGangs (s : State) (part : Nat) (l : Launch) : List Nat :=
  dedupN ((waitingForRoom s part).flatMap fun x =>
    match s.pour? x.core x.slot with
    | none => []
    | some p =>
      if p.launch ≠ l.num then []
      else
        let m := match x.ent with
          | none => p.entries.foldl (fun m e => m ||| e.mask) 0
          | some i => ((p.entries[i]?).map fun e => if e.stall.any (·.await) then 0 else e.mask).getD 0
        (s.lanesIn p.core p.slot m).filterMap fun y => (s.thread? y.2).map fun t => l.gangOf t.cast)

/-- Whether a launch's pool timeout has passed: no drain and no growth for `POOLTO` (R64 step 4). -/
def poolTimeout (s : State) (part launch : Nat) : Bool :=
  match s.part? part, s.launch? part launch with
  | some p, some l => stalledGangs s part l != [] && decide (p.lastPool + 1000 * l.poolto ≤ s.time)
  | _, _ => false

/-- `POOLEXHAUST` (R64, R338). -/
def execPoolexhaust (part launch : Nat) (s : State) : Outcome :=
  .next (if poolTimeout s part launch then
      match s.launch? part launch with
      | some l => (stalledGangs s part l).foldl (fun s g => escalate s part launch g) s
      | none => s
    else s)

/-! ### Ladles and drains (R60, R61, R315, R321, R361) -/

/-- Whether a ladle's oldest record has waited its launch's `DRAIN`. -/
def windowOver (s : State) (l : Ladle) : Bool :=
  !l.aged && match l.members, s.launch? l.part l.launch with
    | m :: _, some x => decide (m.2 + x.drain ≤ s.time)
    | _, _ => false

/-- `LADLE_DRAIN_WINDOW` (R60). -/
def execLadleDrainWindow (lad : Nat) (s : State) : Outcome :=
  .next (match s.ladle? lad with
    | some l =>
      if windowOver s l then { s with ladles := updL (fun x => x.id = lad) (fun x => { x with aged := true }) s.ladles } else s
    | none => s)

/-- Pour slots taken on a core. -/
def slotsTaken (s : State) (core : Nat) : Nat := s.pours.countP fun p => p.core = core
def coresOf (cluster : Nat) : List Nat := (List.range 8).map (8 * cluster + ·)
/-- Whether a core may take a pour: a free slot, and not quarantined (R365). -/
def coreOpen (s : State) (core : Nat) : Bool := decide (slotsTaken s core < 16) && !quarantined s core
/-- The lowest free pour slot of a core. -/
def freeSlot (s : State) (core : Nat) : Nat :=
  ((List.range 16).find? fun i => (s.pour? core i).isNone).getD 0
/-- The cores with the most free slots, the lowest number first among equals. -/
def bestCore (s : State) (cores : List Nat) : Option Nat := minBy (slotsTaken s) (cores.filter (coreOpen s))

/-- The cores that hold a pour of a region. -/
def regionCores (s : State) (part number : Nat) : List Nat :=
  dedupN ((s.pours.filter fun p => p.part = part && (s.launch? part p.launch).any fun l => l.inRegion number).map (·.core))

/-- Whether a pour of a launch on a core keeps every core count of its chain within `MAXCORES` (R312). -/
def coresAllow (s : State) (l : Launch) (core : Nat) : Bool :=
  l.chain.all fun r =>
    let cs := regionCores s l.part r.number
    cs.contains core || decide (cs.length < max r.maxcores 1)

/-- The core that a new pour of a launch goes to (R314, R321, R361): the pinned one, or the best of the cluster, or one
that already holds a pour of the region. -/
def pourCore (s : State) (l : Launch) (cluster : Nat) (pin : Option Nat) : Option Nat :=
  match pin with
  | some c => if coreOpen s c ∧ coresAllow s l c then some c else none
  | none =>
    match bestCore s (coresOf cluster) with
    | none => none
    | some c =>
      if coresAllow s l c then some c
      else bestCore s ((coresOf cluster).filter fun c => (regionCores s l.part l.region).contains c && coresAllow s l c)

/-- The lanes of a pour of a launch: 16 visible lanes in a protected one (R136). -/
def pourWidth (l : Launch) : Nat := if l.protected then 16 else 32

/-- Whether a ladle is eligible to drain (R60). -/
def ladleEligible (s : State) (l : Ladle) : Bool :=
  if l.annex ≠ 0 then
    (s.annexes.find? fun a => a.part = l.part && a.ref = l.annex).any fun a => a.count = l.members.length
  else
    l.members.length = 32 || l.aged ||
      ((coresOf l.cluster).any (coreOpen s) && !(s.ladles.any fun x => x.cluster = l.cluster && x.members.length = 32))

/-- Whether the VF of a ladle holds the slice and is not stopped. -/
def ladleOpen (s : State) (l : Ladle) : Bool :=
  match s.part? l.part, s.launch? l.part l.launch with
  | some p, some x => p.sliceVf = x.vf && !p.halts x.vf
  | _, _ => false

/-- Whether a ladle may drain now: its VF runs, and no cast of its records is spilled. -/
def ladleFree (s : State) (l : Ladle) : Bool :=
  ladleOpen s l && l.members.all fun m =>
    (s.thread? m.1).all fun t => (s.cast? t.part t.launch t.cast).all fun c => c.spilled.isNone

/-- Whether a ladle holds assay re-run records whose deadline has not passed (R321). -/
def ladleBackground (s : State) (l : Ladle) : Bool :=
  (l.members.head?).any fun m =>
    (s.rec? m.1).any (·.asRun) &&
      ((s.thread? m.1).bind fun t => s.cast? t.part t.launch t.cast).any fun c => !(c.assay.any (·.promoted))

/-- The order in which ladles drain (R321), lower first: by annex, class, age, priority and oldest record in turn. -/
def ladleRank (s : State) (l : Ladle) : Nat :=
  let trap := (l.members.head?).any fun m => (s.thread? m.1).any (·.trapClass)
  let old := l.eligibleSince.any fun t => decide (t + 4096 ≤ s.time)
  let due := (l.members.head?).any fun m => (s.rec? m.1).any (·.asRun)
  let prio := if due then 15 else launchPrio s l.part l.launch
  let oldest := ((l.members.head?).map (·.2)).getD 0
  let bit (b : Bool) (n : Nat) : Nat := if b then 0 else 2 ^ n
  bit (!ladleBackground s l) 203 + bit (l.annex ≠ 0) 202 + bit trap 201 + bit old 200 + (15 - prio) * 2 ^ 160 + oldest

/-- The ladle of a cluster that drains next, and its core. -/
def nextDrain (s : State) (cluster : Nat) : Option (Ladle × Nat) :=
  let cands := (s.ladles.filter fun l => l.cluster = cluster && ladleEligible s l && ladleFree s l).filterMap fun l =>
    (s.launch? l.part l.launch).bind fun x => (pourCore s x cluster l.pin).map fun c => (l, c)
  minBy (fun x : Ladle × Nat => ladleRank s x.1) cands

/-- What resuming from a record changes in a thread (R69, R287): records of kind 1 leave `sr.kind` and `sr.wakest`. -/
def resumed (core slot lane : Nat) (r : Rec) (t : Thread) : Thread :=
  let t := { t with loc := .lane core slot lane }
  if r.kind = 1 then t
  else { t with kind := r.kind, wakest := BitVec.ofNat 32 (r.wtype + r.status % 256 * 2 ^ 8) }

/-- The step number of iteration counters (R351). -/
def stepOf : List Nat → List Nat → Nat
  | c :: cs, i :: is => i + c * stepOf cs is
  | _, _ => 0

/-- The tile block of a record goes back to its loop (R61, R351). -/
def restoreLoop (s : State) (r : Rec) : State :=
  match r.tile, loopOf s r.tid with
  | some b, some o => s.updTileOp o.id fun o => { o with handle := b.handle, vec := stepOf (loopCounts o) b.counters }
  | _, _ => s

/-- Frontier of a drained annex, for the lanes that are left. -/
def annexFront (a : Annex) (present : Word) : List Entry :=
  (a.entries.map fun e => { e with mask := e.mask &&& present, stall := none, split := none }).filter fun e => e.mask ≠ 0

/-- Drain a ladle onto a core (R61). -/
def drainLadle (s : State) (l : Ladle) (x : Launch) (core : Nat) : State :=
  let slot := freeSlot s core
  let taken := if l.annex ≠ 0 then l.members else l.members.take (pourWidth x)
  let rs := taken.filterMap fun m => s.rec? m.1
  let placed := (rs.zipIdx).map fun y => (y.1, if l.annex ≠ 0 then y.1.lane else y.2)
  let mask := maskOf (placed.map (·.2))
  let a := if l.annex = 0 then none else s.annexes.find? fun a => a.part = l.part && a.ref = l.annex
  let prio := rs.foldl (fun (m : BitVec 4) r => if m < r.prio then r.prio else m) 0
  let entries := match a with
    | some a => annexFront a mask
    | none => [{ pc := l.resume, prio, mask, buf := l.buf, stall := none, split := none }]
  let p : Pour :=
    { core, slot, part := l.part, launch := l.launch, entries,
      k := match a with
        | some a => a.k.map fun m => m &&& mask
        | none => Vector.replicate 12 0,
      ready := s.time + 1, last := s.time, formed := s.time, fromAnnex := a.isSome, readySince := none, promoted := false,
      refs := rs.map (·.ref) ++ a.toList.map (·.ref), poolStalled := none }
  let s := placed.foldl (fun s y =>
    restoreLoop ((recPoison s y.1.tid).updBoth y.1.tid (resumed core slot y.2 y.1)) y.1) s
  let gone := rs.map (·.tid)
  let rest (y : Ladle) : Ladle := if y.id = l.id then { y with members := y.members.filter (fun m => !(gone.contains m.1)), aged := false } else y
  let s : State := { s with
    recs := s.recs.filter (fun r => !gone.contains r.tid),
    annexes := s.annexes.filter (fun y => !(l.annex ≠ 0 && y.part = l.part && y.ref = l.annex)),
    ladles := (s.ladles.map rest).filter fun y => y.members ≠ [],
    pours := s.pours ++ [p] }
  serveEntryLists (splitWhile (s.updPart l.part fun p => { p with lastPool := s.time }) core slot 33)

/-- `LADLE_DRAIN` (R61, R321). -/
def execLadleDrain (cluster : Nat) (s : State) : Outcome :=
  .next (match nextDrain s cluster with
    | some (l, core) =>
      match s.launch? l.part l.launch with
      | some x => drainLadle s l x core
      | none => s
    | none => s)

/-! ### Forwards (R66, R68, R350) -/

/-- The records that travel with one: those of its annex. -/
def travelWith (s : State) (r : Rec) : List Rec :=
  if r.annex = 0 then [r] else s.recs.filter fun x => x.part = r.part && x.annex = r.annex

/-- Records set out for a cluster together. -/
def sendRecs (s : State) (rs : List Rec) (cluster : Nat) : State :=
  serveEntryLists
    (rs.foldl (fun t r => (leaveLadle t r.tid).updRec r.tid fun r => { r with transit := some cluster, convoy := s.nextId }) s.bumpId)

/-- Whether a cluster scheduler may forward a ready record (R66, R361). -/
def mayForward (s : State) (r : Rec) (cluster : Nat) : Bool :=
  r.fired.isSome && cluster != r.cluster && (s.part? r.part).any (fun p => p.hasCluster cluster) &&
    ((s.thread? r.tid).any fun t => (s.pinOf t).isNone) &&
    (travelWith s r).all fun x => !x.held && x.transit.isNone && x.fired.isSome

/-- `SCHEDULER_FORWARD` (R66). -/
def execSchedulerForward (tid cluster : Nat) (s : State) : Outcome :=
  .next (match s.rec? tid with
    | some r => if mayForward s r cluster then sendRecs s (travelWith s r) cluster else s
    | none => s)

/-- Whether a record reaches a cluster of this device. -/
def arrives (r : Rec) : Bool := r.transit.any fun c => decide (c < 256)

/-! ### Slices and pre-emption (R315, R340 to R342, R349, R350, R353) -/

/-- The VF of a tile operation or runner: its launch's. -/
def vfOf (s : State) (part launch : Nat) : Nat := ((s.launch? part launch).map (·.vf)).getD 0

/-- The vector of a stopped `MMAL` goes into the tile block of its issuer's record, if that is a record already (R241). -/
def noteLoop (s : State) (tid : Nat) : State :=
  match s.rec? tid, tileBlkOf s tid with
  | some r, some b =>
    if r.tile.isNone then flushRec ((reloadHeld s tid).updRec tid fun r => { r with tile := some b }) tid else s
  | _, _ => s

/-- Stop the engine operations of the VFs that `f` names (R341): an `MMA` that is wholly staged goes on, and so does
an operation whose issuing thread has exited (R241). -/
def stopEngines (s : State) (part : Nat) (f : Nat → Bool) : State :=
  let loop (o : TileOp) : Bool := o.kind = .mmal || o.kind = .mmag || (o.kind = .mma && o.need != 0)
  let live (tid : Option Nat) : Bool := tid.all fun t => (s.thread? t).isSome
  let stops (o : TileOp) : Bool := o.part = part && f (vfOf s part o.launch) && loop o && live (some o.issuer)
  let s' : State := { s with
    copies := updL (fun c => c.part = part && f c.vf && live c.issuer) (fun c => { c with stopped := true }) s.copies,
    runners := updL (fun c => c.part = part && f (vfOf s part c.launch) && live c.issuer) (fun c => { c with stopped := true }) s.runners,
    tileOps := updL stops (fun c => { c with stopped := true }) s.tileOps }
  (s.tileOps.filter fun o => stops o && o.kind = .mmal).foldl (fun s o => noteLoop s o.issuer) s'

/-- Whether a record waits for pending registers, and so for the token of its loop, which would never come if the loop
waited for the record (notes/assumptions/115.md). -/
def awaitsLoop (r : Rec) : Bool :=
  r.kind ≠ 1 && r.wtype = 1 && bitN r.key 0 = 0 && r.fired.isNone && r.transit.isNone

/-- Such a record's stopped loops go on from its tile block, on the cluster that holds the record (R241, R342). -/
def resumeLoop (s : State) (r : Rec) : State :=
  let s := reloadHeld s r.tid
  match s.rec? r.tid with
  | none => s
  | some r =>
    let s := restoreLoop s r
    let mine (o : TileOp) : Bool := o.issuer = r.tid && o.kind = .mmal && o.stopped
    flushRec ({ s with
      tileOps := updL mine (fun o => { o with core := 8 * r.cluster + o.core % 8, stopped := false }) s.tileOps }.updRec r.tid
        fun r => { r with tile := none }) r.tid

/-- The loops that records of a VF wait for go on. -/
def resumeLoops (s : State) (part vf : Nat) : State :=
  let due (r : Rec) : Bool := r.part = part && awaitsLoop r && (s.thread? r.tid).any (fun t => vfOf s part t.launch = vf) &&
    s.tileOps.any fun o => o.issuer = r.tid && o.kind = .mmal && o.stopped
  (s.recs.filter due).foldl resumeLoop s

/-- Whether a stopped `MMAL` stays as it is until the pour restored from its thread's record first tries a group (R351). -/
def loopKept (s : State) (o : TileOp) : Bool :=
  o.kind = .mmal && ((s.rec? o.issuer).isSome ||
    (s.thread? o.issuer).any fun t => match t.loc with
      | .lane c sl _ => (s.pour? c sl).any fun p => !p.refs.isEmpty
      | _ => false)

/-- The stopped operations of a VF go on (R342, R351). -/
def startEngines (s : State) (part vf : Nat) : State :=
  let s := resumeLoops s part vf
  let goes (o : TileOp) : Bool := o.part = part && vfOf s part o.launch = vf && !loopKept s o
  { s with
    copies := updL (fun c => c.part = part && c.vf = vf) (fun c => { c with stopped := false }) s.copies,
    runners := updL (fun c => c.part = part && vfOf s part c.launch = vf) (fun c => { c with stopped := false }) s.runners,
    tileOps := updL goes (fun c => { c with stopped := false }) s.tileOps }

/-- Records that travel together arrive and enter ladles once their wakes have fired (R66). -/
def arriveRecs (s : State) (r : Rec) (cluster : Nat) : State :=
  let rs := s.recs.filter fun x => x.part = r.part && x.transit = some cluster && (x.tid = r.tid || (r.convoy ≠ 0 && x.convoy = r.convoy))
  let s := rs.foldl (fun s x => s.updRec x.tid fun x => { x with transit := none, convoy := 0, cluster }) s
  let s := rs.foldl (fun s x => if x.fired.isSome then enterLadle s x.tid else checkWake s x.tid) s
  let s := match s.part? r.part with
    | some p => if p.halts p.sliceVf then s else resumeLoops s p.first p.sliceVf
    | none => s
  settleMove s r.part

/-- `RECORD_ARRIVAL` (R66). -/
def execRecordArrival (tid : Nat) (s : State) : Outcome :=
  .next (match s.rec? tid with
    | some r => if arrives r then arriveRecs s r (r.transit.getD 0) else s
    | none => s)

/-- Whether every pour of the VFs that `f` names has converted and every engine operation has stopped (R342). -/
def vfQuiet (s : State) (part : Nat) (f : Nat → Bool) : Bool :=
  !(s.pours.any fun p => p.part = part && !isCtlCore p.core && f (vfOf s part p.launch)) &&
    !(s.copies.any fun c => c.part = part && f c.vf && !c.stopped && c.paused.isNone) &&
    !(s.runners.any fun c => c.part = part && f (vfOf s part c.launch) && !c.stopped && c.paused.isNone) &&
    !(s.tileOps.any fun c => c.part = part && f (vfOf s part c.launch) && !c.stopped && c.paused.isNone)

/-- Begin to pre-empt a VF; `next` holds the slice afterwards. -/
def startPreempt (s : State) (part vf next : Nat) : State :=
  stopEngines (s.updPart part fun p => { p with preempting := some (vf, next) }) part fun x => x = vf

/-- Whether a queue is idle (R305). -/
def Queue.idle (q : Queue) : Bool := q.head = q.tail && q.unretired = 0

/-- Whether a VF has work (R315). -/
def hasWork (p : Part) (vf : Nat) : Bool := p.queues.any fun q => q.2.en && q.2.vf.toNat = vf && !q.2.idle

/-- The next VF with work after the holder. -/
def nextVf (p : Part) : Option Nat :=
  ((List.range 15).map fun i => (p.sliceVf + 1 + i) % 16).find? fun v => hasWork p v

/-- The length of a slice in cy (R317). -/
def sliceLength (p : Part) : Nat := 1000 * max p.vfslice.toNat 1

/-- Whether a slice ends: it is over, or its holder has no work while another VF has. -/
def sliceOver (p : Part) : Nat → Bool := fun now =>
  p.preempting.isNone && (decide (p.sliceStart + sliceLength p ≤ now) || (!hasWork p p.sliceVf && (nextVf p).isSome))

/-- `VF_SLICE_END` (R315). -/
def execVfSliceEnd (part : Nat) (s : State) : Outcome :=
  .next (match s.part? part with
    | none => s
    | some p =>
      if sliceOver p s.time then
        match nextVf p with
        | some v => startPreempt s part p.sliceVf v
        | none => s.updPart part fun p => { p with sliceStart := s.time }
      else s)

/-- Whether a request of `PREQ` waits to begin, and for which VF (R349). -/
def preqWaits (p : Part) : Option Nat :=
  if bitN p.preqRun.toNat 63 = 1 && !p.preqMove then some (bitsN p.preqRun.toNat 23 20) else none

/-- A request begins: if its VF holds the slice, the slice passes as at its end (R350). -/
def startPreq (s : State) (p : Part) (vf : Nat) : State :=
  startPreempt s p.first vf (if p.sliceVf = vf then (nextVf p).getD vf else p.sliceVf)

/-- A request's pre-emption is complete: its move begins, or it ends (R350). -/
def finishPreq (s : State) (p : Part) (vf : Nat) : State :=
  if bitN p.preqRun.toNat 62 = 0 then s.updPart p.first Part.preqDone
  else
    let src := bitsN p.preqRun.toNat 6 0
    let dst := bitsN p.preqRun.toNat 14 8
    let mine (r : Rec) : Bool :=
      r.part = p.first && r.cluster = src && !r.held && r.transit.isNone &&
        (s.thread? r.tid).any fun t => vfOf s p.first t.launch = vf
    let rs := s.recs.filter fun r => mine r && (travelWith s r).all mine
    let casts := ((rs.filterMap fun r => s.thread? r.tid).filter fun t => (s.pinOf t).isSome).map fun t => (t.launch, t.cast)
    let s := (sendRecs s rs dst).updPart p.first fun p => { p with preqMove := true, preqConvoy := s.nextId }
    let s := (casts.eraseDups).foldl (fun s x =>
      let s := decide' s p.first x.1 x.2 0
      match s.cast? p.first x.1 x.2 with
      | some c => unpin s c
      | none => s) s
    settleMove s p.first

/-- Records of a VF whose wake has fired enter ladles: those that a one-VF restore brought (R345). -/
def enterFired (s : State) (part vf : Nat) : State :=
  let out (r : Rec) : Bool := r.part = part && r.fired.isSome && !r.held && r.transit.isNone &&
    ((s.thread? r.tid).any fun t => vfOf s part t.launch = vf) &&
    !(s.ladles.any fun l => l.members.any fun m => m.1 = r.tid) && !(s.entryLists.any fun x => x.2 = r.tid)
  ((s.recs.filter out).map (·.tid)).foldl enterLadle s

/-- The slice passes; the incoming VF's wakes of type 8 fire and its stopped operations go on (R342). -/
def passSlice (s : State) (part vf next : Nat) : State :=
  let s := s.updPart part fun p =>
    { p with preempting := none, sliceVf := next, sliceStart := if p.sliceVf = next then p.sliceStart else s.time }
  let s := match s.part? part with
    | some p =>
      match preqWaits p with
      | some v => if v = vf then finishPreq s p vf else startPreq s p v
      | none => s
    | none => s
  match s.part? part with
  | some p => if p.halts next then s else enterFired (checkWakes (startEngines s part next) part 8) part next
  | none => s

/-- Whether a pre-emption is complete (R342, R353). -/
def preemptDone (s : State) (p : Part) : Bool := p.preempting.any fun x => vfQuiet s p.first fun v => v = x.1

/-- `PREEMPT_COMPLETE` (R342). -/
def execPreemptComplete (part : Nat) (s : State) : Outcome :=
  .next (match s.part? part with
    | none => s
    | some p =>
      match p.preempting with
      | some (vf, next) => if preemptDone s p then passSlice s part vf next else s
      | none => s)

/-! ### Vault allocations (R337, R343) -/

/-- Vault bytes that casts may take (R62), and the granule of an allocation. -/
def vaultBytes : Nat := 2 ^ 23 - 2 ^ 18
def roundUp (n : Nat) : Nat := (n + 127) / 128 * 128

/-- The allocations of a vault: offset and size. -/
def allocsOf (s : State) (cluster : Nat) : List (Nat × Nat) :=
  (s.casts.filter fun c => c.cluster = cluster).filterMap (·.alloc) ++
    (s.vholds.filter fun x => x.cluster = cluster && decide (s.time < x.free)).map fun x => (x.off, x.size)

/-- The lowest free range of a size (R314). -/
def freeVault (s : State) (cluster size : Nat) : Option Nat :=
  let as := allocsOf s cluster
  let n := roundUp size
  (sortN (0 :: as.map fun a => a.1 + roundUp a.2)).find? fun o =>
    decide (o + n ≤ vaultBytes) && as.all fun a => decide (o + n ≤ a.1) || decide (a.1 + roundUp a.2 ≤ o)

/-- Copy 32 bytes of memory with their poison: their homes combine both lines, and the write takes its place in home order
(R175, R186). -/
def copyPiece (s : State) (src dst : Nat) : State :=
  let s := (stamp (combineAt (combineAt s src 32) dst 32) dst).1
  let marks := s.poisoned.filter fun g => decide (src ≤ g) && decide (g < src + 32)
  { s with mem := memWriteBytes s.mem dst (memBytes s.mem src 32),
           poisoned := marks.map (fun g => g - src + dst) ++ s.poisoned.filter fun g => !(decide (dst ≤ g) && decide (g < dst + 32)) }

/-- Copy `n` pieces of 32 bytes between a vault and the backing. -/
def copyPieces (src dst : Nat → Option Nat) : Nat → State → State
  | 0, s => s
  | n + 1, s =>
    let s := copyPieces src dst n s
    match src n, dst n with
    | some a, some b => copyPiece (if n % 4 = 0 then queueRow (queueRow s a) b else s) a b
    | _, _ => s

/-- Move a range of memory with its poison; what was at the destination goes. -/
def moveBytes (s : State) (src dst n : Nat) : State :=
  let cells := s.mem.filter fun c => decide (src ≤ c.1) && decide (c.1 < src + n)
  let m := memClear (memClear s.mem src (src + n)) dst (dst + n)
  let marks := s.poisoned.filter fun g => decide (src ≤ g) && decide (g < src + n)
  let others := s.poisoned.filter fun g => !(decide (src ≤ g) && decide (g < src + n)) && !(decide (dst ≤ g) && decide (g < dst + n))
  { s with mem := cells.foldl (fun m c => memWrite m (c.1 - src + dst) c.2) m,
           poisoned := marks.map (fun g => g - src + dst) ++ others }

/-- Where in the pool backing a spill of `n` bytes goes: the highest free range of whole places below the end or below
another spill whose pages can be reached (R63, R337; notes/assumptions/52.md); none where there is no room. -/
def spillPlace (s : State) (p : Part) (n : Nat) : Option Nat :=
  let size := (n + 383) / 384 * 384
  let tops := backLength s p / 384 * 384 :: (s.casts.filter fun c => c.part = p.first && c.spilled.isSome).map (·.spillAt)
  let taken := usedRefs s p.first ++ spillRefs s p
  let free (o : Nat) : Bool :=
    taken.all (fun r => decide (r ≤ vaultPlaces p + o / 384) || decide (vaultPlaces p + (o + size) / 384 < r)) &&
      (List.range (size / 4096 + 1)).all (fun i => backOk s p (o + min (4096 * i) (size - 32))) && backOk s p (o + size - 32)
  (tops.filter fun t => decide (size ≤ t)).map (fun t => t - size) |>.find? free

/-- The buffers of a partition whose vault range lies in an allocation. -/
def allocBufs (s : State) (p : Part) (cluster o n : Nat) : List Nat :=
  (List.range (btCount p)).filter fun i =>
    let e := btMem s p i
    (btKind e = 2 || btKind e = 3) && btVault e = cluster && decide (o ≤ btVaultOff e) && decide (btVaultOff e + btLength e ≤ o + n)

/-- Whether a lock lies within buffers of an allocation. -/
def lockedWithin (s : State) (part : Nat) (bufs : List Nat) : Bool := s.locks.any fun l => l.part = part && bufs.contains l.buf

/-- Whether an engine operation that is neither stopped nor paused has a lock within buffers of an allocation (R343). -/
def runsWithin (s : State) (part : Nat) (bufs : List Nat) : Bool :=
  let runs (id : Nat) : Bool :=
    !((s.copies.any fun c => c.id = id && (c.stopped || c.paused.isSome)) ||
      (s.runners.any fun c => c.id = id && (c.stopped || c.paused.isSome)) ||
      (s.tileOps.any fun c => c.id = id && (c.stopped || c.paused.isSome)))
  s.locks.any fun l => l.part = part && bufs.contains l.buf && runs l.op

/-- The live threads of a cast. -/
def castThreads (s : State) (c : Cast) : List Thread :=
  s.threads.filter fun t => t.part = c.part && t.launch = c.launch && t.cast = c.num && !t.shadow

/-- Whether enough of a cast's threads are fault records (R337). -/
def faultShare (s : State) (p : Part) (c : Cast) : Bool :=
  let ts := castThreads s c
  let k := ts.countP fun t => (s.rec? t.tid).any fun r => r.kind = 2
  let pct := min 100 p.fspill.toNat
  pct ≠ 0 && !ts.isEmpty && decide (pct * ts.length ≤ 100 * k)

/-- Whether a cast of the slice holder waits for vault bytes of a cluster that another VF's casts hold (R343). -/
def vaultWanted (s : State) (p : Part) (c : Cast) : Bool :=
  vfOf s p.first c.launch ≠ p.sliceVf &&
    s.casts.any fun x => x.part = p.first && x.cluster = c.cluster && !x.started && !x.ended &&
      vfOf s p.first x.launch = p.sliceVf && (freeVault s x.cluster x.need).isNone

/-- The oldest cast of a stopped VF on a cluster whose allocation may go. -/
def oldestHolder (s : State) (p : Part) (cluster : Nat) : Option Nat :=
  (minBy Cast.admittedAt (s.casts.filter fun c =>
    c.part = p.first && c.cluster = cluster && c.alloc.isSome && vfOf s p.first c.launch ≠ p.sliceVf)).map (·.admittedAt)

/-- Whether a cast's allocation is spilled (R337, R343). -/
def spillDue (s : State) (p : Part) (c : Cast) : Bool :=
  match c.alloc with
  | none => false
  | some (o, n) =>
    let bufs := allocBufs s p c.cluster o n
    poolBuf p ≠ 0 && c.started && !c.ended && n != 0 && (castThreads s c).all (fun t => (s.rec? t.tid).isSome) &&
      ((faultShare s p c && !lockedWithin s p.first bufs) ||
        (vaultWanted s p c && oldestHolder s p c.cluster = some c.admittedAt && !runsWithin s p.first bufs)) &&
      (spillPlace s p n).isSome

/-- A spill: the allocation goes to the pool backing and is free. -/
def spillCast (s : State) (p : Part) (c : Cast) (o n at' : Nat) : State :=
  let bufs := allocBufs s p c.cluster o n
  let s := copyPieces (fun i => some (vaultKey c.cluster (o + 32 * i))) (fun i => backKey s p.first (at' + 32 * i)) ((n + 31) / 32) s
  s.updCast c.part c.launch c.num fun c => { c with alloc := none, spilled := some o, spillBufs := bufs, spillAt := at' }

/-- `VAULT_SPILL` (R337). -/
def execVaultSpill (part launch cast : Nat) (s : State) : Outcome :=
  .next (match s.part? part, s.cast? part launch cast with
    | some p, some c =>
      match c.alloc.bind fun a => (spillPlace s p a.2).map fun x => (a, x) with
      | some ((o, n), x) => if spillDue s p c then spillCast s p c o n x else s
      | none => s
    | _, _ => s)

/-- Whether a ladle would drain now but for spilled allocations. -/
def ladleWaits (s : State) (l : Ladle) : Bool :=
  ladleEligible s l && ladleOpen s l && (s.launch? l.part l.launch).any fun x => (pourCore s x l.cluster l.pin).isSome

/-- Whether a spilled cast is wanted back: a ladle with a record of it would drain, and a range is free whose backing can
be read. -/
def restoreDue (s : State) (p : Part) (c : Cast) : Bool :=
  c.spilled.isSome && (s.ladles.any fun l => l.part = c.part && l.launch = c.launch && ladleWaits s l &&
      l.members.any fun m => (s.thread? m.1).any fun t => t.cast = c.num) &&
    (freeVault s c.cluster c.need).isSome &&
    (List.range (c.need / 4096 + 1)).all fun i => backOk s p (c.spillAt + min (4096 * i) (c.need - 1))

/-- `PTBASE` of an entry moved within its vault (R163, R169). -/
def moveEntry (s : State) (p : Part) (idx cluster src dst : Nat) : State :=
  let off := btVaultOff (btMem s p idx) - src + dst
  let s := btPoke s p idx 16 8 (off + cluster * 2 ^ 23)
  { s with bcache := s.bcache.filter (fun x => !(x.part = p.first && x.idx = idx)),
           pcache := s.pcache.filter (fun x => !(x.part = p.first && x.idx = idx)) }

/-- A spilled allocation comes back: its bytes, its entries and the offsets of its tiles (R337). -/
def restoreCast (s : State) (p : Part) (c : Cast) (src dst : Nat) : State :=
  let s := copyPieces (fun i => backKey s p.first (c.spillAt + 32 * i)) (fun i => some (vaultKey c.cluster (dst + 32 * i)))
    ((c.need + 31) / 32) s
  let s := c.spillBufs.foldl (fun s i => moveEntry s p i c.cluster src dst) s
  let mine (t : Tile) : Bool := t.live && t.part = p.first && c.spillBufs.contains t.buf
  let s : State := { s with tiles := updL mine (fun t => { t with off := t.off - src + dst }) s.tiles }
  s.updCast c.part c.launch c.num fun c =>
    { c with alloc := some (dst, c.need), spilled := none, spillBufs := [],
             orig := c.orig.map fun x => if x = (c.cluster, src) then (c.cluster, dst) else x }

/-- `VAULT_RESTORE` (R337). -/
def execVaultRestore (part launch cast : Nat) (s : State) : Outcome :=
  .next (match s.part? part, s.cast? part launch cast with
    | some p, some c =>
      match c.spilled, freeVault s c.cluster c.need with
      | some src, some dst => if restoreDue s p c then restoreCast s p c src dst else s
      | _, _ => s
    | _, _ => s)

/-! ### System calls (R289 to R291) -/

/-- A syscall that waits for its post. -/
def syscallOf (s : State) (tid : Nat) : Option PostReq := s.posts.find? fun q => q.tid = tid && q.bundle.isNone

/-- The bytes of a syscall entry (R290). -/
def sysBytes (t : Thread) (l : Launch) (q : PostReq) (ix : Nat) : List Byte :=
  leBytes 64 (packBits [(16, ix), (12, q.code), (4, 1), (16, t.launch), (16, t.tic), (32, t.cast), (32, q.pc.toNat),
    (32, l.region), (12, l.proc), (4, l.vf), (16, 0), (192, q.args), (128, 0)])

/-- Whether earlier accesses in scope `sys` are complete and the entry is free; then its place (R289 step 3). -/
def syscallPlace (s : State) (q : PostReq) : Option Nat :=
  let early := (s.accsOf q.tid 2).filter fun a => decide (a.seq < q.seq)
  if early.all (fun a => a.complete s.time) then
    (s.part? q.part).bind fun p =>
      match devLocate s q.part .store (sysPtr p p.sysnext) 64 with
      | .ok _ k => if bitsN (homePeek s k 64) 31 28 = 0 && devFree s q.part .store (sysPtr p p.sysnext) 64 then some k else none
      | .trap _ => none
  else none

/-- The index of a posted entry becomes the key of its thread's wait (R289 step 4). -/
def keySyscall (s : State) (t : Thread) (ix : Nat) : State :=
  match s.rec? t.tid with
  | some _ => flushRec ((reloadHeld s t.tid).updRec t.tid fun r => { r with key := ix }) t.tid
  | none =>
    match t.loc with
    | .lane c sl ln =>
      s.updPour c sl fun p =>
        { p with entries := p.entries.map fun e =>
            if e.mask.getLsbD ln then { e with stall := e.stall.map fun st => { st with keys := setL st.keys ln ix } } else e }
    | _ => s

/-- Post a syscall entry. -/
def postSyscall (s : State) (t : Thread) (l : Launch) (q : PostReq) (k : Nat) : State :=
  let ix := ((s.part? q.part).map (·.sysnext)).getD 0
  let s := devStore s k 64 (leNat (sysBytes t l q ix))
  let s := s.updPart q.part fun p => { p with sysnext := (ix + 1) % sysSize p }
  let s : State := { s with posts := s.posts.filter fun x => x.id ≠ q.id }
  raiseCtl (keySyscall s t ix) q.part 1

/-- `SYSCALL_POST` (R289). -/
def execSyscallPost (tid : Nat) (s : State) : Outcome :=
  .next (match syscallOf s tid, s.thread? tid with
    | some q, some t =>
      match syscallPlace s q, s.launch? t.part t.launch with
      | some k, some l => postSyscall s t l q k
      | _, _ => s
    | _, _ => s)

/-- `SYSDONE_WRITE` (R291). -/
def execSysdoneWrite (part : Nat) (idx : BitVec 16) (s : State) : Outcome := .next (sysReply s part idx.toNat)

/-! ### Faults (R330, R335) -/

/-- `FLTDONE_SERVICE` (R335). -/
def execFltdoneService (part fid : Nat) (s : State) : Outcome := .next (fltService s part fid)

/-- `FLTDONE_FAIL` (R335, R338). -/
def execFltdoneFail (part fid : Nat) (s : State) : Outcome := .next (fltFail s part fid)

/-- Whether a handler activation has passed its limit (R330). -/
def handlerLate (s : State) (tid : Nat) : Bool :=
  match s.thread? tid with
  | some t => t.trapClass && (s.part? t.part).any fun p => p.traplim != 0 && decide (t.hstart + p.traplim.toNat < s.time)
  | none => false

/-- `WATCHDOG` (R330). -/
def execWatchdog (tid : Nat) (s : State) : Outcome := .next (if handlerLate s tid then escalateThread s tid else s)

/-! ### Held records (R301) -/

/-- `RECHOLD_HOLD` (R301). -/
def execRecholdHold (part : Nat) (ref : BitVec 32) (s : State) : Outcome := .next (rechold s part true ref.toNat)

/-- `RECHOLD_RELEASE` (R301). -/
def execRecholdRelease (part : Nat) (ref : BitVec 32) (s : State) : Outcome := .next (rechold s part false ref.toNat)

/-! ### Promotion (R320) -/

/-- Whether a pour has been ready for 4,096 cy without issuing. -/
def promoteDue (s : State) (p : Pour) : Bool :=
  !p.promoted && decide (3 ≤ (pourRank s p).1) && p.readySince.any fun t => decide (t + 4096 ≤ s.time)

/-- `POUR_PROMOTE` (R320). -/
def execPourPromote (core slot : Nat) (s : State) : Outcome :=
  .next (match s.pour? core slot with
    | some p => if promoteDue s p then s.updPour core slot fun p => { p with promoted := true } else s
    | none => s)

end Sys2Proof.Machine
end

