-- ==== Sys2Proof/Machine/AdmitEvents.lean ====
section
/-! DEFINITION. The front end: bundles read, checked and refused, casts admitted and started, epilogues, fences, steals,
launches from the device, energy and row windows (R38 to R42, R277, R305 to R318, R322, R324, R357, R360 to R362). -/

namespace Sys2Proof.Machine

/-! ### Fence records (R310, R311) -/

/-- Places of a fence record's three writes, none where one would fail its checks. -/
def fencePlaces (s : State) (part ptr : Nat) : Option (Nat × Nat × Nat) :=
  match devLocate s part .store (ptrAdd ptr 8) 4, devLocate s part .store (ptrAdd ptr 12) 4, devLocate s part .store ptr 8 with
  | .ok _ a, .ok _ b, .ok _ c => if bitsN ptr 3 0 = 0 then some (a, b, c) else none
  | _, _, _ => none

/-- Whether the bank's queue takes a fence record now (R324). -/
def fenceFree (s : State) (part ptr : Nat) : Bool := devFree s part .store (ptrAdd ptr 8) 4 && devFree s part .store ptr 8

/-- Write status and launch: the state with the GWCT after which the value may be written. -/
def fenceStatus (s : State) (part ptr status launch : Nat) : Option (State × Nat) :=
  (fencePlaces s part ptr).map fun x =>
    let r := writeHome (queueRow s x.1) x.1 4 status false
    let q := writeHome r.1 x.2.1 4 (launch % 2 ^ 16) false
    (q.1, max r.2.1 q.2.1)

/-- Dependences of the partition are read again after a fence write (R312). -/
def rereadDeps (s : State) (part : Nat) : State :=
  s.updPart part fun p => { p with queues := p.queues.map fun x => (x.1, { x.2 with depRead := none }) }

/-- A fence record that cannot be written is lost (R311); one that a router drops is counted (R383). -/
def lostFence (s : State) (part q ptr : Nat) : State :=
  updQueue (if bitsN ptr 3 0 = 0 then countLost s part .store (ptrAdd ptr 8) 4 else s) part q fun x => { x with flost := true }

/-- Write `FENCEVAL`. -/
def fenceValue (s : State) (part q ptr val : Nat) : State :=
  match fencePlaces s part ptr with
  | some x => rereadDeps (devStore s x.2.2 8 val) part
  | none => lostFence s part q ptr

/-! ### Reading bundles (R307) -/

/-- Whether any of the `n` 16-byte pieces at a pointer is poisoned. -/
def blockPoisoned (s : State) (part ptr n : Nat) : Bool :=
  (List.range n).any fun i => match devLocate s part .load (ptrAdd ptr (16 * i)) 16 with
    | .ok _ k => poisonedAt s k 16
    | .trap _ => false

/-- The pointer of a ring slot (R305). -/
def ringPtr (x : Queue) (k : Nat) : Nat := ptrAdd x.qbase.toNat (128 * (k % 2 ^ (min x.size.toNat 10 + 4)))

/-- Whether the partition and the VF of a queue may go on now: running, not quiescing, holding the slice. -/
def vfRuns (p : Part) (vf : Nat) : Bool :=
  p.state = 1 && p.quiescing.isNone && !p.notReady && p.sliceVf = vf && !p.halts vf && !p.preqMove

/-- Whether a queue's next bundle may be read. -/
def readDue (s : State) (p : Part) (q : Nat) : Bool :=
  let x := p.queue q
  x.en && x.head != x.tail && x.headBundle.isNone && x.refused.isNone && vfRuns p x.vf.toNat &&
    devFree s p.first .load (ringPtr x x.head.toNat) 16

/-- Read bundle `HEAD`, or skip it (R307). -/
def readBundle (s : State) (p : Part) (q : Nat) : State :=
  let x := p.queue q
  let ptr := ringPtr x x.head.toNat
  let s := devTouchBlock s p.first .load ptr 16 8
  match (if blockPoisoned s p.first ptr 8 then none else devReadBlock s p.first ptr 8) with
  | some b =>
    updQueue s p.first q fun x =>
      { x with head := x.head + 1, headBundle := some b, headLaunch := none, since := s.time, depRead := none,
               depOk := false, unretired := x.unretired + 1 }
  | none => updQueue s p.first q fun x => { x with head := x.head + 1, blost := true }

/-- `BUNDLE_READ` (R307). -/
def execBundleRead (part q : Nat) (s : State) : Outcome :=
  .next (match s.part? part with
    | some p => if readDue s p q then readBundle s p q else s
    | none => s)

/-! ### Dependences (R312) -/

/-- Whether the list of a queue's head bundle is to be read again. -/
def rereadDue (s : State) (p : Part) (q : Nat) : Bool :=
  let x := p.queue q
  x.headBundle.isSome && (x.depRead.all fun t => decide (t + 10000 ≤ s.time)) &&
    allFree s p.first (depReads s p.first (x.headBundle.getD 0))

/-- `DEP_REREAD` (R312). -/
def execDepReread (part q : Nat) (s : State) : Outcome :=
  .next (match s.part? part with
    | some p =>
      if rereadDue s p q then
        let ok := ((p.queue q).headBundle).any fun b => depsOk s part b
        updQueue (touchAll s part (depReads s part (((p.queue q).headBundle).getD 0))) part q fun x => { x with depRead := some s.time, depOk := ok }
      else s
    | none => s)

/-! ### Checks of a head bundle (R38, R41, R106, R258, R309, R310) -/

/-- A kernel descriptor at a pointer. -/
def kernelAt (s : State) (part ptr : Nat) : Option Nat := devReadBlock s part ptr 4

/-- Whether a descriptor breaks a rule that the loader checks (R106, R110). -/
def kernelBad (k : Nat) : Bool :=
  bitsN k 511 320 ≠ 0 || bitsN k 255 240 ≠ 0 || bitsN k 127 112 ≠ 0 || bitsN k 63 48 ≠ 0 || bitsN k 47 42 ≠ 0 ||
    bitsN k 39 36 ≠ 0 || kThreads k = 0 || decide (1024 < kThreads k) || kEntry k % 12 ≠ 0

/-- The threads, and the bytes, that a cast of a descriptor takes. -/
def castThreadsOf (b k : Nat) : Nat := if bCastsz b = 0 then kThreads k else bCastsz b
def castBytes (b k : Nat) : Nat := max (bVault b) (kVault k) + max (bTile b) (kTile k) + 8192

/-- The access slice's runner descriptor (R106, R258): its pointer, 0 where there is none. -/
def accessPtr (b k : Nat) : Nat := if bAccess b = 0 then kAccess k else bAccess b

/-- Whether the access slice is refused. -/
def accessRefused (s : State) (p : Part) (x : Queue) (b k : Nat) : Bool :=
  let ptr := accessPtr b k
  ptr ≠ 0 &&
    match (if bitsN ptr 6 0 = 0 then devReadBlock s p.first ptr 8 else none) with
    | none => true
    | some d =>
      let r : Req := { part := p.first, core := 16 * p.first, lane := 0, level := .sup, vf := x.vf.toNat, proc := x.proc.toNat }
      runBad d || (runHulls s r d).isSome

/-- Whether a list or a block that a bundle names cannot be read, or breaks a rule. -/
def listsBad (s : State) (part b : Nat) : Bool :=
  match depList s part b, inputList s part b, prologueList s part b with
  | some ds, some _, some ps =>
    (ds.any fun d => (devRead s part (bitsN d 63 0) 8).isNone) ||
      ps.any fun e => bitsN e 127 80 ≠ 0 || (devReadBlock s part (bitsN e 63 0) 8).isNone || bitsN e 6 0 ≠ 0
  | _, _, _ => true

/-- Clusters of a partition in one quadrant. -/
def quadClusters (p : Part) : Nat := min 8 (2 * 2 ^ p.sz)

/-- Whether the kernel of a descriptor's pointer may not run: it is unreadable, or belongs to a rejected object (R110). -/
def kernelRefused (s : State) (p : Part) (ptr : Nat) : Bool :=
  (kernelAt s p.first ptr).all kernelBad || p.rejected.contains (BitVec.ofNat 64 ptr)

/-- The access slice's descriptor of a bundle is refused (R258, R310), whether its kernel can be read or not. -/
def sliceRefused (s : State) (p : Part) (x : Queue) (b : Nat) : Bool :=
  accessRefused s p x b ((kernelAt s p.first (bKernel b)).getD 0)

/-- The status with which a head bundle is refused, 0 where it is not (R310). The access slice's descriptor is checked
once, when the first cast is admitted (R258): of a bundle that another check refuses, with that one. -/
def refuseStatus (s : State) (p : Part) (x : Queue) (b : Nat) : Nat :=
  let st :=
    if !bReservedOk b || bNcast b = 0 || decide (1024 < bCastsz b) || listsBad s p.first b ||
        (devReadBlock s p.first (bRcb b) 8).isNone then 1
    else if kernelRefused s p (bKernel b) || (bEpilogue b ≠ 0 && kernelRefused s p (bEpilogue b)) then 2
    else if (regionChain s p (bRcb b)).isNone then 3
    else if bGang b = 0 || decide (4 < bGang b) || decide (quadClusters p < bGang b) then 4
    else 0
  if 1 < st ∧ sliceRefused s p x b then 1 else st

/-- A refused bundle: its fence record, and the queue moves on (R310, R311). -/
def refuseBundle (s : State) (p : Part) (q b status : Nat) : State :=
  let n := (Config.value32 s.free).toNat
  let s : State := { touchAll s p.first (bundleReads s p.first b true) with free := s.free + 1 }
  let gone (x : Queue) : Queue := { x with headBundle := none, unretired := x.unretired - 1 }
  match fenceStatus s p.first (bFencePtr b) status n with
  | none => updQueue (lostFence s p.first q (bFencePtr b)) p.first q gone
  | some (s, g) => updQueue s p.first q fun x => { x with refused := some g }

/-- The refused bundle's fence value, once its status is complete. -/
def finishRefused (s : State) (p : Part) (q b : Nat) : State :=
  updQueue (fenceValue s p.first q (bFencePtr b) (bFenceVal b)) p.first q fun x =>
    { x with headBundle := none, refused := none, unretired := x.unretired - 1 }

/-- The queues of a partition that refuse, or finish refusing, their head bundle: with the bundle and the status. -/
def refusals (s : State) (p : Part) : List (Nat × Nat × Option Nat) :=
  p.queues.filterMap fun (q, x) =>
    match x.headBundle, x.refused with
    | some b, some g => if g ≤ s.time ∧ fenceFree s p.first (bFencePtr b) then some (q, b, none) else none
    | some b, none =>
      if x.headLaunch.isSome || !vfRuns p x.vf.toNat then none
      else
        let st := refuseStatus s p x b
        if st = 0 ∨ !fenceFree s p.first (bFencePtr b) ∨ !allFree s p.first (bundleReads s p.first b true) then none
        else some (q, b, some st)
    | none, _ => none

/-! ### What may be admitted (R311, R312, R313, R357) -/

/-- The next admission of a queue: its launch, none for a bundle's first cast, and the casts of the gang. -/
structure Adm where
  q : Nat
  launch : Option Launch
  bundle : Nat
  casts : List Nat
  /-- Whether a killed gang is admitted again. -/
  again : Bool
  deriving DecidableEq, Repr

/-- The casts of a gang of a bundle. -/
def gangCasts (b g : Nat) : List Nat :=
  ((List.range (max (bGang b) 1)).map fun i => g * max (bGang b) 1 + i).filter fun c => decide (c < bNcast b)

/-- The casts of a relaunched gang; the epilogue's single cast is a gang of its own. -/
def relaunchCasts (l : Launch) (g : Nat) : List Nat :=
  if g = l.gangOf (2 ^ 32) then [2 ^ 32] else gangCasts l.bundle g

/-- The next admission of a queue, relaunched gangs first (R357). -/
def nextAdm (s : State) (p : Part) (q : Nat) : Option Adm :=
  let x := p.queue q
  let redo := s.launches.findSome? fun l =>
    if l.part = p.first ∧ l.queue = q then l.relaunch.head?.map fun g =>
      ({ q, launch := some l, bundle := l.bundle, casts := relaunchCasts l g, again := true } : Adm)
    else none
  match redo with
  | some a => some a
  | none =>
    match x.headBundle, x.refused with
    | some b, none =>
      match x.headLaunch.bind fun n => s.launch? p.first n with
      | some l => some { q, launch := some l, bundle := b, casts := gangCasts b (l.admitted / max l.gang 1), again := false }
      | none => if x.headLaunch.isSome then none else some { q, launch := none, bundle := b, casts := gangCasts b 0, again := false }
    | _, _ => none

/-- The kernel descriptor of an admission. -/
def admKernel (s : State) (p : Part) (a : Adm) : Nat :=
  match a.launch with
  | some l => l.kinfo
  | none => (kernelAt s p.first (bKernel a.bundle)).getD 0

/-- The pours of a cast (R308). -/
def poursOf (b threads : Nat) : Nat := if bitN b 771 = 1 then (threads + 15) / 16 else (threads + 31) / 32

/-- The pour count of an admission: its cost (R316). -/
def admCost (s : State) (p : Part) (a : Adm) : Nat :=
  let k := admKernel s p a
  a.casts.foldl (fun n c => n + poursOf a.bundle (if c = 2 ^ 32 then kThreads k else castThreadsOf a.bundle k)) 0

/-- The chain of an admission, as read now (R38). -/
def admChain (s : State) (p : Part) (a : Adm) : List (Region × RegEff) := (regionChain s p (bRcb a.bundle)).getD []

/-- Bytes of vault reserved by casts that have not ended, in a region. -/
def vaultUsed (s : State) (part number : Nat) : Nat :=
  (s.casts.filter fun c => c.part = part && !c.ended && (s.launch? part c.launch).any fun l => l.inRegion number).foldl
    (fun n c => n + c.need) 0 +
  (s.vholds.filter fun x => x.part = part && decide (s.time < x.free) && (s.launch? part x.launch).any fun l => l.inRegion number).foldl
    (fun n x => n + x.size) 0

/-- Whether a level of the chain has room for bytes, and a core (R312). -/
def levelRoom (s : State) (part bytes : Nat) (x : Region × RegEff) : Bool :=
  decide (vaultUsed s part x.1.number + bytes ≤ x.2.vaultb) &&
    decide ((regionCores s part x.1.number).length < max x.2.maxcores 1)

/-- The estimates of the admissions of the last 1,000,000 cy, over all or of one region (R313). -/
def estimates (s : State) (p : Part) (region : Option Nat) : Nat :=
  (p.admits.filter fun a => decide (s.time < a.1 + 1000000) && region.all fun n => a.2.2.contains n).foldl (fun n a => n + a.2.1) 0
/-- The increase of `ENACCT` over the last 1 ms. -/
def measured (s : State) (p : Part) : Nat :=
  (p.enLog.filter fun a => decide (s.time < a.1 + 1000000)).foldl (fun n a => n + a.2) 0

/-- The energy test (R313). -/
def energyOk (s : State) (p : Part) (e : Nat) (chain : List (Region × RegEff)) : Bool :=
  let w := enBudget s p
  let a := estimates s p none
  (w = 0 || (if a = 0 then decide (measured s p ≤ 1000 * w) else decide (measured s p + a + e ≤ 1000 * w))) &&
    chain.all fun x =>
      let b := estimates s p (some x.1.number)
      x.2.energy = 0 || b = 0 || decide (b + e ≤ 1000 * x.2.energy)

/-- Whether an entry of a region is pool-stalled (R64): not one whose threads only await a flask home (R272). -/
def regionStalled (s : State) (p : Part) (chain : List (Region × RegEff)) : Bool :=
  (waitingForRoom s p.first).any fun x =>
    (s.pour? x.core x.slot).any fun w =>
      ((x.ent.bind fun i => w.entries[i]?).all fun e => !(e.stall.any (·.await))) &&
      (s.launch? w.part w.launch).any fun l => (chain.head?).any fun r => l.region = r.1.number

/-- Whether the next launch number is free (R39). -/
def numberFree (s : State) (p : Part) : Bool :=
  (s.launch? p.first p.nextLaunch).isNone && !(s.threads.any fun t => t.part = p.first && t.launch = p.nextLaunch)

/-- The buffers of an input list that exist, each once (R362). -/
def inputs (s : State) (p : Part) (b : Nat) : List Nat :=
  (dedupN ((inputList s p.first b).getD [])).filter fun i => i ≠ 0 && decide (i < btCount p) && btKind (btMem s p i) != 0

/-- Whether a cast is selected for assay at its admission (R360). -/
def assayHash (p : Part) (launch cast : Nat) : Nat :=
  let x := (p.assaykey.toNat ^^^ (launch <<< 48) ^^^ cast) % 2 ^ 64
  let x := x ^^^ (x >>> 33)
  let x := x * 0xFF51AFD7ED558CCD % 2 ^ 64
  let x := x ^^^ (x >>> 33)
  x % 2 ^ 16

def selects (p : Part) (a : Adm) (chain : List (Region × RegEff)) (cast : Nat) : Bool :=
  let n := (a.launch.map (·.num)).getD p.nextLaunch
  cast ≠ 2 ^ 32 && bitN a.bundle 772 = 1 &&
    ((a.launch.any fun l => l.selected.contains cast) ||
      (bitN p.assayctl.toNat 0 = 1 && (chain.head?).any fun r => decide (assayHash p n cast < r.2.assay)))

/-- Whether admission waits for a hold of the inputs: a count at its greatest (R362). -/
def holdWaits (s : State) (p : Part) (a : Adm) (chain : List (Region × RegEff)) : Bool :=
  (a.launch.isNone || ((a.launch.any fun l => l.holding = []) && a.casts.any (selects p a chain))) &&
    (inputs s p a.bundle).any fun i => btHold (btMem s p i) = 65535

/-- Whether an admission may take place now (R312). Where the RCB chain of a launch is bad when it is read again, the launch
waits (notes/assumptions/101.md). -/
def admissible (s : State) (p : Part) (a : Adm) : Bool :=
  let x := p.queue a.q
  let chain := admChain s p a
  let k := admKernel s p a
  vfRuns p x.vf.toNat && (a.again || x.depOk) && (a.launch.isSome || numberFree s p) && !chain.isEmpty &&
    !regionStalled s p chain && chain.all (levelRoom s p.first (a.casts.length * castBytes a.bundle k)) &&
    energyOk s p (a.casts.length * 2 ^ bEclass a.bundle) chain && !holdWaits s p a chain &&
    !(a.launch.any fun l => l.badPrologue && !a.again) && allFree s p.first (bundleReads s p.first a.bundle a.launch.isNone)

/-! ### Deficit round robin (R316, R317) -/

/-- The effective priority of a queue. -/
def queuePrio (s : State) (p : Part) (a : Adm) : Nat :=
  let x := p.queue a.q
  let age := min 15 (x.prio.toNat + (s.time - x.since) / (1000 * max p.qage.toNat 1))
  let own := (((admChain s p a).head?).map fun r => r.2.prio).getD 0
  max age (bundlePrio s p (16 * 2 ^ p.sz + 1) own (bFencePtr a.bundle))

/-- The best admission of a process. -/
def bestAdm (s : State) (p : Part) (proc : Nat) : Option Adm :=
  let as := p.queues.filterMap fun (q, x) =>
    if x.proc.toNat = proc ∧ vfRuns p x.vf.toNat then (nextAdm s p q).bind fun a => if admissible s p a then some a else none
    else none
  minBy (fun a : Adm => (15 - queuePrio s p a) * 2 ^ 16 + a.q) as

/-- The processes with queues of the slice holder, ascending. -/
def sliceProcs (p : Part) : List Nat :=
  sortN (p.queues.filterMap fun x => if x.2.vf.toNat = p.sliceVf then some x.2.proc.toNat else none)

def weightOf (p : Part) (proc : Nat) : Nat := max (getL p.pweight (p.sliceVf * 4096 + proc) 1 % 256) 1
def deficitKey (p : Part) (proc : Nat) : Nat := p.sliceVf * 4096 + proc

/-- The next process in ascending order, cyclically. -/
def nextProc (ps : List Nat) (now : Nat) : Nat :=
  match ps.find? fun x => decide (now < x) with
  | some x => x
  | none => ps.headD 0

/-- Visit processes until one may admit: the deficits, that process and its admission with its cost. `as` gives each
process its best admission. -/
def visit (p : Part) (as : List (Nat × Option (Adm × Nat))) (ps : List Nat) :
    Nat → List (Nat × Int) → Nat → Option (List (Nat × Int) × Nat × Adm × Nat)
  | 0, _, _ => none
  | n + 1, ds, proc =>
    let cap : Int := weightOf p proc + 32
    let k := deficitKey p proc
    let next := nextProc ps proc
    let enter (ds : List (Nat × Int)) : List (Nat × Int) :=
      let c : Int := weightOf p next
      setL ds (deficitKey p next) (min (c + 32) (getL ds (deficitKey p next) 0 + c))
    match getL as proc none with
    | some (a, cost) =>
      let d := getL ds k 0
      if (cost : Int) ≤ d ∨ d = cap then some (setL ds k (d - cost), proc, a, cost) else visit p as ps n (enter ds) next
    | none => visit p as ps n (enter (setL ds k 0)) next

/-- The next admission of a partition, with the deficits after it. -/
def chooseAdm (s : State) (p : Part) : Option (List (Nat × Int) × Nat × Adm) :=
  let ps := sliceProcs p
  let as := ps.map fun x => (x, (bestAdm s p x).map fun a => (a, admCost s p a))
  if as.any fun x => x.2.isSome then
    let start := if ps.contains p.drr then p.drr else ps.headD 0
    (visit p as ps (512 * (ps.length + 1)) p.deficits start).map fun r => (r.1, r.2.1, r.2.2.1)
  else none

/-- The deficits of the slice holder's processes once none has anything admissible: each visit finds nothing and sets
0 (R316). -/
def idleDeficits (p : Part) : List (Nat × Int) :=
  (sliceProcs p).foldl (fun ds x => if getL ds (deficitKey p x) 0 = 0 then ds else setL ds (deficitKey p x) 0) p.deficits

/-! ### Home clusters (R41, R314) -/

/-- Pour slots that the unstarted casts of a cluster will need. -/
def slotsPromised (s : State) (cluster : Nat) : Nat :=
  (s.casts.filter fun c => c.cluster = cluster && !c.started && !c.ended).foldl (fun n c => n + c.pours.length) 0

/-- Free pour slots of a cluster, less those promised. -/
def freeSlots (s : State) (cluster : Nat) : Int :=
  (((coresOf cluster).filter fun c => !quarantined s c).foldl (fun n c => n + (16 - (slotsTaken s c : Int))) 0) -
    slotsPromised s cluster

/-- The cluster with the most free slots, the lowest first among equals. -/
def bestCluster (s : State) (cs : List Nat) : Option Nat := minBy (fun c => (2 ^ 20 - freeSlots s c).toNat) cs

/-- The home clusters of a gang's casts: distinct clusters of one quadrant. -/
def homesOf (s : State) (p : Part) (n : Nat) : List Nat :=
  match bestCluster s p.clusters with
  | none => []
  | some c =>
    let rest := (p.clusters.filter fun x => quadOfCluster x = quadOfCluster c)
    ((List.range n).foldl (fun (acc : List Nat) _ =>
      if acc.isEmpty then [c]
      else match bestCluster s (rest.filter fun x => !acc.contains x) with
        | some x => acc ++ [x]
        | none => acc) [])

/-! ### Admission (R311, R312) -/

/-- A fresh assay of a selected cast. -/
def Assay.fresh : Assay :=
  { digests := [], digest := 0, decided := false, verdict := 0, deadline := none, promoted := false }

/-- A cast as it is admitted. -/
def newCast (s : State) (p : Part) (l : Launch) (num threads cluster : Nat) (sel : Bool) : Cast :=
  { part := p.first, launch := l.num, num, cluster, started := false, pours := List.range (poursOf l.bundle threads),
    ended := false, threads, alloc := none, orig := none, need := castBytes l.bundle l.kinfo, spilled := none,
    spillBufs := [], queues := [[], [], [], []], pin := none, run := 0, assay := if sel then some Assay.fresh else none,
    admittedAt := s.nextId, stealable := l.stealable && l.gang = 1 }

/-- The prologue copies of a bundle, which the front end issues (R311). -/
def prologueCopies (s : State) (p : Part) (l : Launch) (cluster : Nat) : State :=
  ((prologueList s p.first l.bundle).getD []).foldl (fun s e =>
    let c : CopyOp :=
      { id := s.nextId, part := p.first, launch := l.num, gang := none, cast := 0, run := 0, vf := l.vf, proc := l.proc,
        level := .user, cluster, issuer := none, tokens := [], blk := (devReadBlock s p.first (bitsN e 63 0) 8).getD 0,
        state := bitsN e 79 64, accounted := false, vec := 0, paused := none, retry := none, stopped := false,
        prologue := true, gwct := 0, order := [], pc := 0, issued := false }
    { s.bumpId with copies := s.copies ++ [c] }) s

/-- A new launch (R38, R39). -/
def newLaunch (s : State) (p : Part) (a : Adm) (chain : List (Region × RegEff)) : Launch :=
  let x := p.queue a.q
  let k := admKernel s p a
  let e := (chain.head?).map (·.2)
  let acc := accessPtr a.bundle k
  { part := p.first, num := p.nextLaunch, queue := a.q, index := (x.head - 1).toNat, vf := x.vf.toNat, proc := x.proc.toNat,
    bundle := a.bundle, kinfo := k, codeBuf := bitsN (bKernel a.bundle) 63 48, chain := chain.map (·.1),
    swin := (e.map (·.swin)).getD 256, drain := (e.map (·.drain)).getD 2000, poolto := (e.map (·.poolto)).getD 10000,
    action := (e.map (·.action)).getD 0, gang := max (bGang a.bundle) 1, ncast := bNcast a.bundle,
    castsz := castThreadsOf a.bundle k, admitted := 0, relaunch := [], kills := [], failed := false, badPrologue := false,
    corrupt := false, rewritten := false, epilogue := 0, selected := [],
    access := if acc = 0 then none else devReadBlock s p.first acc 8, fenced := none, holding := [] }

/-- The budgets of a launch, its effective `PRIO` among them, are read again at each admission: those of the RCBs that its
chain named at the first one. The chain, its numbers and the fault action stay (R38, R69; notes/assumptions/101.md). -/
def rebudget (l : Launch) (chain : List (Region × RegEff)) : Launch :=
  { l with chain := l.chain.map fun r =>
      match chain.find? fun x => x.1.ptr = r.ptr with
      | some x => { x.1 with number := r.number, action := r.action }
      | none => r }

/-- The inputs of a launch are held from the admission of a selected cast on (R362). -/
def beginHold (s : State) (p : Part) (l : Launch) : State :=
  if l.holding ≠ [] then s
  else
    let is := inputs s p l.bundle
    (is.foldl (fun s i => bumpHold s p.first i true) s).updLaunch p.first l.num fun l => { l with holding := is }

/-- Admit the casts of an admission (R311, R312, R314, R360). -/
def admitCasts (s : State) (p : Part) (a : Adm) : State :=
  let chain := admChain s p a
  let s := touchAll s p.first (bundleReads s p.first a.bundle a.launch.isNone)
  let l0 := rebudget (a.launch.getD (newLaunch s p a chain)) chain
  let picked := a.casts.filter (selects p a chain)
  let g := l0.gangOf (a.casts.headD 0)
  let l : Launch :=
    { l0 with admitted := if a.again then l0.admitted else l0.admitted + a.casts.length,
              relaunch := if a.again then l0.relaunch.filter (fun x => x ≠ g) else l0.relaunch,
              selected := l0.selected ++ picked.filter fun c => !l0.selected.contains c }
  let homes := homesOf s p a.casts.length
  let s : State := { s with launches :=
    if a.launch.isSome then updL (fun x => x.part = p.first && x.num = l.num) (fun _ => l) s.launches else s.launches ++ [l] }
  let s := (a.casts.zip homes).foldl (fun s x =>
    let n := if x.1 = 2 ^ 32 then kThreads l.kinfo else l.castsz
    { s.bumpId with casts := s.casts ++ [newCast s p l x.1 n x.2 (picked.contains x.1)] }) s
  let s := if a.launch.isNone then prologueCopies s p l (homes.headD (2 * p.first)) else s
  let s := if picked.isEmpty then s else beginHold s p l
  let entry := (s.time, a.casts.length * 2 ^ bEclass a.bundle, chain.map fun x => x.1.number)
  let s := s.updPart p.first fun p =>
    { p with admits := entry :: p.admits.filter (fun x => decide (s.time < x.1 + 1000000)),
             nextLaunch := if a.launch.isNone then (p.nextLaunch + 1) % 65536 else p.nextLaunch }
  if a.again then updQueue s p.first a.q fun x => if x.headLaunch = some l.num then { x with since := s.time } else x
  else updQueue s p.first a.q fun x =>
    if l.ncast ≤ l.admitted then { x with headBundle := none, headLaunch := none, since := s.time }
    else { x with headLaunch := some l.num, since := s.time }

/-- A head bundle whose prologue failed has no further cast admitted (R311). -/
def abandoned (s : State) (p : Part) : Option Nat :=
  (p.queues.find? fun x => (x.2.headLaunch.bind fun n => s.launch? p.first n).any (·.badPrologue)).map (·.1)

/-- The next admission, or, with a bundle's first cast, the refusal of its access slice's descriptor (R258). -/
def admitNext (s : State) (p : Part) (ds : List (Nat × Int)) (proc : Nat) (a : Adm) : State :=
  if a.launch.isNone ∧ sliceRefused s p (p.queue a.q) a.bundle then refuseBundle s p a.q a.bundle 1
  else admitCasts (s.updPart p.first fun p => { p with deficits := ds, drr := proc }) p a

/-- `CAST_ADMIT` (R310, R312, R316, R357, R360): a refusal, or the next admission. -/
def execCastAdmit (part : Nat) (s : State) : Outcome :=
  .next (match s.part? part with
    | none => s
    | some p =>
      match (refusals s p).head?, abandoned s p, chooseAdm s p with
      | some (q, b, some st), _, _ => refuseBundle s p q b st
      | some (q, b, none), _, _ => finishRefused s p q b
      | none, some q, _ => updQueue s part q fun x => { x with headBundle := none, headLaunch := none, since := s.time }
      | none, none, some (ds, proc, a) => admitNext s p ds proc a
      | none, none, none => s.updPart part fun p => { p with deficits := idleDeficits p })

/-- Whether it has something to do. -/
def admitDue (s : State) (p : Part) : Bool :=
  !(refusals s p).isEmpty || (abandoned s p).isSome || (chooseAdm s p).isSome || idleDeficits p != p.deficits

/-! ### Casts start (R42, R136, R314, R361) -/

/-- The parameter of a launch. -/
def Launch.param (l : Launch) : DWord := BitVec.ofNat 64 (bParam l.bundle)

/-- Put a pour of a cast on a core (R42): pour `j` holds the threads from `j` times its width. -/
def startPour (s : State) (l : Launch) (c : Cast) (j core : Nat) : State :=
  let slot := freeSlot s core
  let w := pourWidth l
  let tics := (List.range w).filter fun i => decide (j * w + i < c.threads)
  let p : Pour :=
    { core, slot, part := c.part, launch := c.launch,
      entries := [{ pc := BitVec.ofNat 32 (kEntry l.kinfo), prio := BitVec.ofNat 4 (kPrio l.kinfo), mask := maskOf tics,
                    buf := l.codeBuf, stall := none, split := none }],
      k := Vector.replicate 12 0, ready := s.time + 1, last := s.time, formed := s.time, fromAnnex := false,
      readySince := none, promoted := false, refs := [], poolStalled := none }
  let one (tid i : Nat) : Thread :=
    { Thread.fresh tid c.part c.launch c.num (j * w + i) (.lane core slot i) l.param with run := c.run }
  let s := tics.foldl (fun s i =>
    if l.protected then
      { s with nextId := s.nextId + 2,
               threads := s.threads ++ [{ one s.nextId i with twin := s.nextId + 1 },
                 { one (s.nextId + 1) i with shadow := true, twin := s.nextId }] }
    else { s with nextId := s.nextId + 1, threads := s.threads ++ [one s.nextId i] }) s
  { s with pours := s.pours ++ [p] }

/-- Whether a cast's launch may start pours now. -/
def castRuns (s : State) (c : Cast) : Bool :=
  match s.part? c.part, s.launch? c.part c.launch with
  | some p, some l => vfRuns p l.vf || (p.quiescing.isSome && p.sliceVf = l.vf && !p.halts l.vf)
  | _, _ => false

/-- The oldest unstarted cast of a cluster that its VF lets start. -/
def oldestCast (s : State) (cluster : Nat) : Option Cast :=
  minBy Cast.admittedAt (s.casts.filter fun c => c.cluster = cluster && !c.started && !c.ended && castRuns s c)

/-- The runner of a cast's access slice (R258). -/
def accessRunner (s : State) (l : Launch) (c : Cast) (core d : Nat) : Runner :=
  { id := s.nextId, part := c.part, launch := c.launch, cast := c.num, run := c.run, core, issuer := none, tokens := [],
    blk := d, vec := 0, stream := 0, stopReq := false, paused := none, retry := none, stopped := false, sup := true,
    pc := BitVec.ofNat 32 (kEntry l.kinfo) }

/-- Whether a core can take the runner of a launch's access slice. -/
def runnerFits (s : State) (l : Launch) (core : Nat) : Bool :=
  match l.access with
  | none => true
  | some d =>
    let sl := slotOfCluster (clusterOf core)
    canLock s sl (runLocks s.nextId l.part sl d) && decide ((s.runners.countP fun r => r.core = core) < 4)

/-- What the next start on a cluster takes: the cast, its launch, the vault offset and the core of pour 0. -/
def startPlan (s : State) (cluster : Nat) : Option (Cast × Launch × Nat × Nat) :=
  (oldestCast s cluster).bind fun c =>
    match s.launch? c.part c.launch, freeVault s cluster c.need with
    | some l, some o =>
      (pourCore s l cluster none).bind fun core => if runnerFits s l core then some (c, l, o, core) else none
    | _, _ => none

/-- Start a cast: its allocation, its access slice, its pour 0; a selected cast is pinned (R314, R361). -/
def startCast (s : State) (c : Cast) (l : Launch) (o core : Nat) : State :=
  let sl := slotOfCluster (clusterOf core)
  let s := match l.access with
    | some d =>
      let r := accessRunner s l c core d
      { (addLocks s (runLocks r.id l.part sl d)).bumpId with runners := s.runners ++ [r] }
    | none => s
  let s := s.updCast c.part c.launch c.num fun c =>
    { c with started := true, pours := c.pours.drop 1, alloc := some (o, c.need), orig := some (c.cluster, o),
             pin := if c.assay.isSome then some core else none }
  startPour s l c (c.pours.headD 0) core

/-- `CAST_START` (R314). -/
def execCastStart (cluster : Nat) (s : State) : Outcome :=
  .next (match startPlan s cluster with
    | some (c, l, o, core) => startCast s c l o core
    | none => s)

/-- The next further pour of a cluster's casts: the oldest started cast with pours left that a core takes. -/
def pourPlan (s : State) (cluster : Nat) : Option (Cast × Launch × Nat) :=
  let cs := (s.casts.filter fun c => c.cluster = cluster && c.started && !c.ended && c.pours ≠ [] && castRuns s c && c.run = 0).filterMap
    fun c => (s.launch? c.part c.launch).bind fun l => (pourCore s l cluster c.pin).map fun core => (c, l, core)
  minBy (fun x : Cast × Launch × Nat => x.1.admittedAt) cs

/-- `POUR_START` (R314). -/
def execPourStart (cluster : Nat) (s : State) : Outcome :=
  .next (match pourPlan s cluster with
    | some (c, l, core) =>
      startPour (s.updCast c.part c.launch c.num fun c => { c with pours := c.pours.drop 1 }) l c (c.pours.headD 0) core
    | none => s)

/-! ### Epilogue and retirement (R311, R367) -/

/-- The casts of a launch. -/
def castsOf (s : State) (part launch : Nat) : List Cast := s.casts.filter fun c => c.part = part && c.launch = launch

/-- Whether every main cast has been admitted and has ended, with every assay over and every prologue copy complete. -/
def mainOver (s : State) (l : Launch) : Bool :=
  (l.badPrologue || decide (l.ncast ≤ l.admitted)) && l.relaunch = [] &&
    ((castsOf s l.part l.num).all fun c => c.num = 2 ^ 32 || (c.ended && assayOver s c)) &&
    !(s.copies.any fun c => c.part = l.part && c.launch = l.num && c.prologue)

/-- Whether the epilogue is due. -/
def epilogueDue (s : State) (l : Launch) : Bool :=
  mainOver s l && l.epilogue = 0 && !l.badPrologue && bEpilogue l.bundle ≠ 0 &&
    !((castsOf s l.part l.num).any fun c => c.num = 2 ^ 32) && devFree s l.part .load (bEpilogue l.bundle) 16

/-- `EPILOGUE_START` (R311): a single cast of its own threads, without the tests of an admission and without an access slice
(notes/assumptions/102.md). -/
def execEpilogueStart (part launch : Nat) (s : State) : Outcome :=
  .next (match s.part? part, s.launch? part launch with
    | some p, some l =>
      if epilogueDue s l then
        let k := (kernelAt s part (bEpilogue l.bundle)).getD 0
        let s := devTouchBlock s part .load (bEpilogue l.bundle) 16 4
        let l' : Launch := { l with epilogue := 1, kinfo := k, codeBuf := bitsN (bEpilogue l.bundle) 63 48, access := none }
        let c := newCast s p l' (2 ^ 32) (kThreads k) ((homesOf s p 1).headD (2 * p.first)) false
        { (s.updLaunch part launch fun _ => l').bumpId with casts := s.casts ++ [c] }
      else s
    | _, _ => s)

/-- Whether every part of a launch has ended and every write of them is complete in scope `sys`. -/
def retireDue (s : State) (l : Launch) : Bool :=
  mainOver s l && (castsOf s l.part l.num).all (fun c => c.ended) &&
    (l.badPrologue || bEpilogue l.bundle = 0 || (castsOf s l.part l.num).any fun c => c.num = 2 ^ 32) &&
    !(s.threads.any fun t => t.part = l.part && t.launch = l.num) &&
    !(s.accs.any fun a => a.part = l.part && a.launch = l.num && a.isWrite && !a.complete s.time) &&
    !(s.copies.any fun c => c.part = l.part && c.launch = l.num) && !(s.runners.any fun c => c.part = l.part && c.launch = l.num) &&
    !(s.tileOps.any fun c => c.part = l.part && c.launch = l.num) && decide (l.writesAt ≤ s.time) &&
    (l.fenced.all fun g => decide (g ≤ s.time)) && fenceFree s l.part (bFencePtr l.bundle)

/-- The completion status of a launch (R310, R367). -/
def retireStatus (l : Launch) : Nat :=
  (if l.badPrologue then 5 else if l.failed then 0x10 else if l.corrupt then 0x11 else 0) + (if l.rewritten then 256 else 0)

/-- The launch's parts are freed, its tiles released (R260, R311). -/
def freeLaunch (s : State) (l : Launch) : State :=
  let s : State := { s with
    launches := s.launches.filter (fun x => !(x.part = l.part && x.num = l.num)),
    casts := s.casts.filter (fun c => !(c.part = l.part && c.launch = l.num)),
    accs := s.accs.filter (fun a => !(a.part = l.part && a.launch = l.num)),
    tiles := updL (fun t => t.live && t.part = l.part && t.launch = l.num) releaseTile s.tiles }
  updQueue s l.part l.queue fun x =>
    { x with unretired := x.unretired - 1, headBundle := if x.headLaunch = some l.num then none else x.headBundle,
             headLaunch := if x.headLaunch = some l.num then none else x.headLaunch }

/-- `BUNDLE_RETIRE` (R311): status and launch, and, once those writes are complete, the fence value. -/
def retire (s : State) (l : Launch) : State :=
  let ptr := bFencePtr l.bundle
  match l.fenced with
  | some _ => freeLaunch (fenceValue s l.part l.queue ptr (bFenceVal l.bundle)) l
  | none =>
    match fenceStatus s l.part ptr (retireStatus l) l.num with
    | none => freeLaunch (lostFence s l.part l.queue ptr) l
    | some (s, g) =>
      if g ≤ s.time then freeLaunch (fenceValue s l.part l.queue ptr (bFenceVal l.bundle)) l
      else s.updLaunch l.part l.num fun l => { l with fenced := some g }

def execBundleRetire (part launch : Nat) (s : State) : Outcome :=
  .next (match s.launch? part launch with
    | some l => if retireDue s l then retire s l else s
    | none => s)

/-! ### `LAUNCH` and `TAIL` (R277, R306) -/

/-- Whether a partition takes in no bundles: from the arrival of a quiesce until it is withdrawn or resumed (R381). -/
def Part.intakeOff (p : Part) : Bool := p.quiescing.isSome || p.state = 2

/-- Bundles between `HEAD` and `TAIL`, and the slots of the ring. -/
def Queue.fill (x : Queue) : Nat := (x.tail - x.head).toNat
def Queue.slots (x : Queue) : Nat := 2 ^ (min x.size.toNat 10 + 4)

/-- Whether a launch from the device comes after another: one of an earlier lane of its word, or of an earlier word of its
thread (R277). -/
def PostReq.after (r x : PostReq) : Bool :=
  decide (x.id ≠ r.id) && ((x.word = r.word && decide (x.seq < r.seq)) || (x.tid = r.tid && decide (x.seq < r.seq)))

/-- A launch from the device whose thread's earlier accesses are complete and whose turn it is (R277): the bundle may be
placed, or stands in its slot and `TAIL` may advance (R306). -/
def enqueueReady (s : State) (id : Nat) : Option (PostReq × Nat × Nat) :=
  (s.posts.find? fun x => x.id = id).bind fun r =>
    r.bundle.bind fun b =>
      match r.placed with
      | some g => if g ≤ s.time then some (r, b) else none
      | none => if !((s.part? r.part).all fun p => devFree s p.first .store (ringPtr (p.queue b.2) (p.queue b.2).tail.toNat) 16) then none else
        let early := (s.accsOf r.tid 1).filter fun a => decide (a.seq < r.seq)
        let held := s.posts.any fun x => x.part = r.part && (x.bundle.any fun y => y.2 = b.2) && (r.after x || x.placed.isSome)
        if early.all (fun a => a.complete s.time) && !held then some (r, b) else none

/-- The status of a launch from the device: 2 where the queue takes none, 1 where its ring is full (R277, R306). -/
def queueStatus (s : State) (p : Part) (q : Nat) : Nat :=
  let x := p.queue q
  if !x.en || !x.dev || p.intakeOff then 2
  else if x.slots ≤ x.fill then 1
  else if (List.range 8).any fun i => match devLocate s p.first .store (ptrAdd (ringPtr x x.tail.toNat) (16 * i)) 16 with
      | .trap _ => true
      | .ok _ _ => false then 2
  else 0

/-- Write a bundle into slot `TAIL`: the state and the cy in which the write is complete. -/
def placeBundle (s : State) (p : Part) (q b : Nat) : State × Nat :=
  (List.range 8).foldl (fun r i =>
    match devLocate s p.first .store (ptrAdd (ringPtr (p.queue q) (p.queue q).tail.toNat) (16 * i)) 16 with
    | .ok _ k =>
      let w := writeHome (if i = 0 then queueRow r.1 k else r.1) k 16 (bitsN b (128 * i + 127) (128 * i)) false
      (w.1, max r.2 w.2.1)
    | .trap _ => r) (s, s.time)

/-- A launch from the device ends: its status goes to the thread. -/
def endPost (s : State) (r : PostReq) (status : Nat) : State :=
  let s : State := { s with posts := s.posts.filter fun x => x.id ≠ r.id }
  checkWake (deliverRec s r.tid [(.v r.dst, BitVec.ofNat 32 status)]) r.tid

/-- `TAIL` advances over a bundle that stands in its slot. -/
def advanceTail (s : State) (r : PostReq) (q : Nat) : State :=
  endPost (updQueue s r.part q fun x => { x with tail := x.tail + 1 }) r 0

/-- The bundle is refused, or written; once that write is complete `TAIL` advances. -/
def enqueue (s : State) (p : Part) (r : PostReq) (q b : Nat) : State :=
  let st := queueStatus s p q
  let x := p.queue q
  let sent := x.en && x.dev && !p.intakeOff && decide (x.fill < x.slots)
  if st ≠ 0 then endPost (if sent then countLost s p.first .store (ringPtr x x.tail.toNat) 16 else s) r st
  else
    let w := placeBundle s p q b
    if w.2 ≤ s.time then advanceTail w.1 r q
    else { w.1 with posts := updL (fun x => x.id = r.id) (fun x => { x with placed := some w.2 }) w.1.posts }

/-- `LAUNCH_ENQUEUE` (R277, R306). -/
def execLaunchEnqueue (id : Nat) (s : State) : Outcome :=
  .next (match enqueueReady s id with
    | some (r, b, q) =>
      match s.part? r.part with
      | some p => if r.placed.isSome then advanceTail s r q else enqueue s p r q b
      | none => s
    | none => s)

/-- A host write of `TAIL` (R306). -/
def tailWrite (s : State) (p : Part) (q : Nat) (t : BitVec 32) : State :=
  let x := p.queue q
  if 16 * 2 ^ p.sz ≤ q then s
  else if !p.intakeOff ∧ (t - x.head).toNat ≤ x.slots ∧ (!x.dev ∨ x.idle) then updQueue s p.first q fun x => { x with tail := t }
  else updQueue s p.first q fun x => { x with hrej := true }

/-- `QUEUE_TAIL_WRITE` (R306). -/
def execQueueTailWrite (part q : Nat) (t : BitVec 32) (s : State) : Outcome :=
  .next (match s.part? part with
    | some p => tailWrite s p q t
    | none => s)

/-! ### Steals (R322) -/

/-- Where a cast on its way between clusters stands: in no cluster's queue. -/
def nowhere : Nat := 1024

/-- Unstarted casts of a cluster that may be stolen, oldest first. -/
def stealableCasts (s : State) (cluster : Nat) : List Cast :=
  let cs := s.casts.filter fun c => c.cluster = cluster && !c.started && !c.ended && c.stealable
  (sortN (cs.map (·.admittedAt))).filterMap fun n => cs.find? fun c => c.admittedAt = n

/-- Whether a cluster scheduler is idle. -/
def clusterIdle (s : State) (cluster : Nat) : Bool :=
  !(s.casts.any fun c => c.cluster = cluster && !c.started && !c.ended) && decide (8 ≤ freeSlots s cluster)

/-- The unstarted casts of `STEAL` bundles of a cluster, of any gang size. -/
def stealCount (s : State) (cluster : Nat) : Nat :=
  s.casts.countP fun c => c.cluster = cluster && !c.started && !c.ended && (s.launch? c.part c.launch).any Launch.stealable

/-- The victim of an idle cluster: another of its partition with the most of them, the lowest among equals. -/
def victimOf (s : State) (cluster : Nat) : Option Nat :=
  (s.partOfSlot (slotOfCluster cluster)).bind fun p =>
    minBy (fun c => 2 ^ 40 - stealCount s c) (p.clusters.filter fun c => c ≠ cluster)

/-- Whether a cluster may ask now. -/
def stealDue (s : State) (cluster : Nat) : Option Nat :=
  if clusterIdle s cluster ∧ !(s.steals.any fun x => x.1 = cluster) ∧ getL s.stealAfter cluster 0 ≤ s.time then victimOf s cluster
  else none

/-- `STEAL_REQUEST` (R322). -/
def execStealRequest (cluster : Nat) (s : State) : Outcome :=
  .next (match stealDue s cluster with
    | some v => { s with steals := s.steals ++ [(cluster, v, none)] }
    | none => s)

/-- `STEAL_HANDLE` (R322): at most 4 casts set out. -/
def execStealHandle (thief : Nat) (s : State) : Outcome :=
  .next (match s.steals.find? fun x => x.1 = thief && x.2.2.isNone with
    | some (_, v, _) =>
      let cs := (stealableCasts s v).take 4
      let s := cs.foldl (fun s c => s.updCast c.part c.launch c.num fun c => { c with cluster := nowhere }) s
      { s with steals := s.steals.map fun x => if x.1 = thief then (thief, v, some (cs.map fun c => (c.launch, c.num))) else x }
    | none => s)

/-- `STEAL_REPLY` (R322): the thief is the casts' home, or waits. -/
def execStealReply (thief : Nat) (s : State) : Outcome :=
  .next (match s.steals.find? fun x => x.1 = thief && x.2.2.isSome with
    | some (_, _, some cs) =>
      let s : State := { s with steals := s.steals.filter fun x => x.1 ≠ thief }
      if cs.isEmpty then { s with stealAfter := setL s.stealAfter thief (s.time + 1000) }
      else match s.partOfSlot (slotOfCluster thief) with
        | some p =>
          let s : State := { s with stealAfter := setL s.stealAfter thief (s.time + 1) }
          cs.foldl (fun s x => s.updCast p.first x.1 x.2 fun c => if c.cluster = nowhere then { c with cluster := thief } else c) s
        | none => s
    | _ => s)

/-! ### Energy and rows (R313, R324) -/

/-- `ENACCT_SAMPLE` (R313): what was measured is a free value. -/
def execEnacctSample (part : Nat) (s : State) : Outcome :=
  .next (match s.part? part with
    | some p =>
      if p.sampled < s.time / 10000 then
        let e := Config.energy s.free
        let s : State := { s with free := s.free + 1 }
        s.updPart part fun p =>
          { p with enacct := p.enacct + BitVec.ofNat 64 e, sampled := p.sampled + 1,
                   enLog := (s.time, e) :: p.enLog.filter fun x => decide (s.time < x.1 + 1000000) }
      else s
    | none => s)

/-- A row of a channel that has not been activated in this refresh window (R324). -/
def rowOld (s : State) (chan : Nat) (x : RowCount) : Bool :=
  x.chan = chan && decide (x.last / 32000000 < s.time / 32000000)
/-- Whether a pseudo-channel counts activations of an earlier window. -/
def rowsOld (s : State) (chan : Nat) : Bool := s.dev.rows.any (rowOld s chan)

/-- `ROW_WINDOW_END` (R324). -/
def execRowWindowEnd (chan : Nat) (s : State) : Outcome :=
  .next (if rowsOld s chan then s.updDev fun d => { d with rows := d.rows.filter fun x => !rowOld s chan x } else s)

end Sys2Proof.Machine
end

