-- ==== Sys2Proof/Machine/Atomic.lean ====
section
/-! DEFINITION. Atomics, reductions, acquire and release (R207 to R213). -/

namespace Sys2Proof.Machine

/-- An atomic of 4 bytes (R207, R208): the operand, and for `.cas` the compare value in the result register. -/
def atomAsk (op : RmwOp) (d : Reg) (a : PairNo) (b : Reg) (now : Nat) (t : Thread) : Ask :=
  { op := .atom op, kind := .atom op, idx := (addrPair now t a).1, off := (addrPair now t a).2, size := 4, ty := 4,
    dst := some d, data := (t.rdV now b).toNat, cmp := if op = .cas then (t.rdV now d).toNat else 0 }

/-- An atomic of 8 bytes. -/
def atomAsk64 (op : RmwOp) (d a b : PairNo) (now : Nat) (t : Thread) : Ask :=
  { op := .atom op, kind := .atom op, idx := (addrPair now t a).1, off := (addrPair now t a).2, size := 8, ty := 5,
    dst := some (pairLo d), data := (t.rdW now b).toNat, cmp := if op = .cas64 then (t.rdW now d).toNat else 0 }

/-- A reduction (R207, R210). -/
def redAsk (op : RmwOp) (a : PairNo) (b : Reg) (now : Nat) (t : Thread) : Ask :=
  { op := .red op, kind := .red op, idx := (addrPair now t a).1, off := (addrPair now t a).2, size := 4, ty := 4,
    data := (t.rdV now b).toNat }

/-- An acquiring load of `n` bytes (R207, R212). -/
def ldaAsk (sys : Bool) (n : Nat) (d : Reg) (a : PairNo) (now : Nat) (t : Thread) : Ask :=
  { op := .lda sys, kind := .lda, idx := (addrPair now t a).1, off := (addrPair now t a).2, size := n,
    ty := if n = 8 then 5 else 4, cp := 3, dst := some d }

/-- A releasing store of `n` bytes (R207, R213). -/
def strAsk (sys : Bool) (n : Nat) (a : PairNo) (data : Nat → Thread → Nat) (now : Nat) (t : Thread) : Ask :=
  { op := .str sys, kind := .str, idx := (addrPair now t a).1, off := (addrPair now t a).2, size := n,
    ty := if n = 8 then 5 else 4, data := data now t }

/-- `ATOM.add.i32` (R208). -/
def execAtomAddI32 (h : Hdr) (d : Reg) (a : PairNo) (b : Reg) (s : State) : Outcome :=
  .next (accessWord h (atomAsk .addI32 d a b) s)

/-- `ATOM.add.f32` (R208). -/
def execAtomAddF32 (h : Hdr) (d : Reg) (a : PairNo) (b : Reg) (s : State) : Outcome :=
  .next (accessWord h (atomAsk .addF32 d a b) s)

/-- `ATOM.add.bf16x2` (R208). -/
def execAtomAddBf16x2 (h : Hdr) (d : Reg) (a : PairNo) (b : Reg) (s : State) : Outcome :=
  .next (accessWord h (atomAsk .addBf16x2 d a b) s)

/-- `ATOM.min.i32` (R208). -/
def execAtomMinI32 (h : Hdr) (d : Reg) (a : PairNo) (b : Reg) (s : State) : Outcome :=
  .next (accessWord h (atomAsk .minI32 d a b) s)

/-- `ATOM.min.n32` (R208). -/
def execAtomMinN32 (h : Hdr) (d : Reg) (a : PairNo) (b : Reg) (s : State) : Outcome :=
  .next (accessWord h (atomAsk .minN32 d a b) s)

/-- `ATOM.max.i32` (R208). -/
def execAtomMaxI32 (h : Hdr) (d : Reg) (a : PairNo) (b : Reg) (s : State) : Outcome :=
  .next (accessWord h (atomAsk .maxI32 d a b) s)

/-- `ATOM.max.n32` (R208). -/
def execAtomMaxN32 (h : Hdr) (d : Reg) (a : PairNo) (b : Reg) (s : State) : Outcome :=
  .next (accessWord h (atomAsk .maxN32 d a b) s)

/-- `ATOM.and` (R208). -/
def execAtomAnd (h : Hdr) (d : Reg) (a : PairNo) (b : Reg) (s : State) : Outcome :=
  .next (accessWord h (atomAsk .band d a b) s)

/-- `ATOM.or` (R208). -/
def execAtomOr (h : Hdr) (d : Reg) (a : PairNo) (b : Reg) (s : State) : Outcome :=
  .next (accessWord h (atomAsk .bor d a b) s)

/-- `ATOM.xor` (R208). -/
def execAtomXor (h : Hdr) (d : Reg) (a : PairNo) (b : Reg) (s : State) : Outcome :=
  .next (accessWord h (atomAsk .bxor d a b) s)

/-- `ATOM.xchg` (R208). -/
def execAtomXchg (h : Hdr) (d : Reg) (a : PairNo) (b : Reg) (s : State) : Outcome :=
  .next (accessWord h (atomAsk .xchg d a b) s)

/-- `ATOM.cas` (R208). -/
def execAtomCas (h : Hdr) (d : Reg) (a : PairNo) (b : Reg) (s : State) : Outcome :=
  .next (accessWord h (atomAsk .cas d a b) s)

/-- `ATOM.inc` (R208). -/
def execAtomInc (h : Hdr) (d : Reg) (a : PairNo) (b : Reg) (s : State) : Outcome :=
  .next (accessWord h (atomAsk .inc d a b) s)

/-- `ATOM.xchg.64` (R208). -/
def execAtomXchg64 (h : Hdr) (d a b : PairNo) (s : State) : Outcome :=
  .next (accessWord h (atomAsk64 .xchg64 d a b) s)

/-- `ATOM.cas.64` (R208). -/
def execAtomCas64 (h : Hdr) (d a b : PairNo) (s : State) : Outcome :=
  .next (accessWord h (atomAsk64 .cas64 d a b) s)

/-- `RED.add.i32` (R210). -/
def execRedAddI32 (h : Hdr) (a : PairNo) (b : Reg) (s : State) : Outcome :=
  .next (accessWord h (redAsk .addI32 a b) s)

/-- `RED.add.f32` (R210). -/
def execRedAddF32 (h : Hdr) (a : PairNo) (b : Reg) (s : State) : Outcome :=
  .next (accessWord h (redAsk .addF32 a b) s)

/-- `RED.add.bf16x2` (R210). -/
def execRedAddBf16x2 (h : Hdr) (a : PairNo) (b : Reg) (s : State) : Outcome :=
  .next (accessWord h (redAsk .addBf16x2 a b) s)

/-- `RED.min.i32` (R210). -/
def execRedMinI32 (h : Hdr) (a : PairNo) (b : Reg) (s : State) : Outcome :=
  .next (accessWord h (redAsk .minI32 a b) s)

/-- `RED.max.i32` (R210). -/
def execRedMaxI32 (h : Hdr) (a : PairNo) (b : Reg) (s : State) : Outcome :=
  .next (accessWord h (redAsk .maxI32 a b) s)

/-- `RED.and` (R210). -/
def execRedAnd (h : Hdr) (a : PairNo) (b : Reg) (s : State) : Outcome :=
  .next (accessWord h (redAsk .band a b) s)

/-- `RED.or` (R210). -/
def execRedOr (h : Hdr) (a : PairNo) (b : Reg) (s : State) : Outcome :=
  .next (accessWord h (redAsk .bor a b) s)

/-- `RED.xor` (R210). -/
def execRedXor (h : Hdr) (a : PairNo) (b : Reg) (s : State) : Outcome :=
  .next (accessWord h (redAsk .bxor a b) s)

/-- `LDA.b32` (R212). -/
def execLdaB32 (h : Hdr) (d : Reg) (a : PairNo) (s : State) : Outcome :=
  .next (accessWord h (ldaAsk false 4 d a) s)

/-- `LDA.b64` (R212). -/
def execLdaB64 (h : Hdr) (d a : PairNo) (s : State) : Outcome :=
  .next (accessWord h (ldaAsk false 8 (pairLo d) a) s)

/-- `LDA.sys` (R212). -/
def execLdaSys (h : Hdr) (d : Reg) (a : PairNo) (s : State) : Outcome :=
  .next (accessWord h (ldaAsk true 4 d a) s)

/-- `STR.b32` (R213). -/
def execStrB32 (h : Hdr) (a : PairNo) (b : Reg) (s : State) : Outcome :=
  .next (releaseWord h 1 (strAsk false 4 a fun now t => (t.rdV now b).toNat) s)

/-- `STR.b64` (R213). -/
def execStrB64 (h : Hdr) (a b : PairNo) (s : State) : Outcome :=
  .next (releaseWord h 1 (strAsk false 8 a fun now t => (t.rdW now b).toNat) s)

/-- `STR.sys` (R213). -/
def execStrSys (h : Hdr) (a : PairNo) (b : Reg) (s : State) : Outcome :=
  .next (releaseWord h 2 (strAsk true 4 a fun now t => (t.rdV now b).toNat) s)

end Sys2Proof.Machine
end

