-- ==== Sys2Proof/Machine/Branch.lean ====
section
/-! DEFINITION. `NOP`, `PRI` and the control transfers (R136, R137, R152 to R155). -/

namespace Sys2Proof.Machine

/-- The physical lanes of a visible lane may not go to different PCs (R136). -/
def moveWord (h : Hdr) (link : Bool) (f : Nat → Thread → Option (Word × BitVec 4)) (s : State) : State :=
  runWord h
    { chk := fun s lane t => protectIf (fun t => ((f s.time t).map (·.1)).getD s.cur.fall) s lane t,
      eff := fun s =>
        let s := transfer (f s.time) s
        if link then putResult 2 63 (fun _ => s.cur.fall) s else s } s

/-- `NOP` (R137). -/
def execNop (h : Hdr) (s : State) : Outcome :=
  .next (runWord h { eff := fun s => s } s)

/-- `PRI` (R137). -/
def execPri (h : Hdr) (prio : BitVec 4) (s : State) : Outcome :=
  .next (runWord h { eff := fun s => s.updCur fun c => { c with newPrio := some prio } } s)

/-- `BR` (R153). -/
def execBr (h : Hdr) (p : PredNo) (n : BitVec 1) (prio : BitVec 4) (disp : BitVec 16) (s : State) : Outcome :=
  .next (moveWord h false (fun now t =>
    if t.rdP now p != (n = 1 : Bool) then some (targetTB s.cur.wpc disp, prio) else none) s)

/-- `JMP` (R154). -/
def execJmp (h : Hdr) (prio : BitVec 4) (disp : BitVec 19) (s : State) : Outcome :=
  .next (moveWord h false (fun _ _ => some (targetTJ s.cur.wpc disp, prio)) s)

/-- `CALL` (R154). -/
def execCall (h : Hdr) (prio : BitVec 4) (disp : BitVec 19) (s : State) : Outcome :=
  .next (moveWord h true (fun _ _ => some (targetTJ s.cur.wpc disp, prio)) s)

/-- `JR` (R155). -/
def execJr (h : Hdr) (a : Reg) (prio : BitVec 4) (s : State) : Outcome :=
  .next (moveWord h false (fun now t => some (t.rdV now a, prio)) s)

/-- `CALLR` (R155). -/
def execCallr (h : Hdr) (a : Reg) (prio : BitVec 4) (s : State) : Outcome :=
  .next (moveWord h true (fun now t => some (t.rdV now a, prio)) s)

/-- `RET` (R155). -/
def execRet (h : Hdr) (prio : BitVec 4) (s : State) : Outcome :=
  .next (moveWord h false (fun now t => some (t.rdV now 63, prio)) s)

end Sys2Proof.Machine
end

