-- ==== Sys2Proof/Machine/CareEvents.lean ====
section
/-! DEFINITION. Events of care and control: assay runs set up, suspicion, fault injection, margins and retraining, posted
removals, control-core interrupts, words that are no instruction (R94, R171, R298, R320, R355, R364 to R373, R381). -/

namespace Sys2Proof.Machine

/-! ### Where assay runs are made (R364, R367, R372) -/

/-- Whether a partition lies on more than one drag die. -/
def manyDies (p : Part) : Bool := p.clusters.any fun c => dieOfCluster c ≠ dieOfCluster (2 * p.first)

/-- The test of R372 against the original run's home cluster. -/
def awayFrom (p : Part) (home c : Nat) : Bool := if manyDies p then dieOfCluster c ≠ dieOfCluster home else c ≠ home

/-- The cluster of a third run. -/
def thirdCluster (p : Part) (home second : Nat) : List Nat :=
  match p.clusters.find? fun c => awayFrom p home c && c ≠ home && c ≠ second with
  | some c => [c]
  | none => match p.clusters.find? fun c => c ≠ home && c ≠ second with
    | some c => [c]
    | none => [home, second]

/-- The cluster of a rewrite run that has no core given. -/
def rewriteCluster (p : Part) (home second third : Nat) : List Nat :=
  match p.clusters.find? fun c => awayFrom p home c && c ≠ home && c ≠ second && c ≠ third with
  | some c => [c]
  | none => match p.clusters.find? fun c => c ≠ home && c ≠ second && c ≠ third with
    | some c => [c]
    | none => [home, second].filter fun c => c ≠ third

/-- The core of the clusters with the most free pour slots that is not quarantined and not among some. -/
def runCore (s : State) (cs not : List Nat) : Option Nat :=
  minBy (slotsTaken s) ((cs.flatMap coresOf).filter fun k => !quarantined s k && !not.contains k)

/-- The run that a cast waits for, with its core (R364, R367, R372, R373). -/
def dueRun (s : State) (p : Part) (c : Cast) : Option (Nat × Nat) :=
  match c.assay with
  | none => none
  | some a =>
    let home := ((c.orig.map (·.1))).getD c.cluster
    let ks := a.digests.map (·.1)
    if !c.ended then none
    else if a.decided then
      if rewriteOwed s c then
        match a.digests with
        | [_, (k1, d1), (k2, d2)] =>
          if d2 = d1 ∧ !quarantined s k2 then some (3, k2)
          else (runCore s (rewriteCluster p home (clusterOf k1) (clusterOf k2)) ks).map fun k => (3, k)
        | _ => none
      else none
    else match a.digests with
      | [_] => (p.clusters.find? (awayFrom p home)).bind fun cl => (runCore s [cl] ks).map fun k => (1, k)
      | [_, (k1, _)] => (runCore s (thirdCluster p home (clusterOf k1)) ks).map fun k => (2, k)
      | _ => none

/-- Whether the region chain of a launch has vault bytes left (R37, R364). -/
def vaultbOk (s : State) (l : Launch) (bytes : Nat) : Bool :=
  l.chain.all fun r => decide (vaultUsed s l.part r.number + bytes ≤ r.vaultb)

/-- The deadline after which a run is promoted, in cy (R359). -/
def lagOf (p : Part) : Nat := 1000 * max (bitsN p.assayctl.toNat 23 8) 1

/-- What set-up takes: the run, its core and the vault offset. -/
def setupPlan (s : State) (part launch cast : Nat) : Option (Cast × Launch × Nat × Nat × Nat) :=
  match s.part? part, s.launch? part launch, s.cast? part launch cast with
  | some p, some l, some c =>
    (dueRun s p c).bind fun r =>
      (freeVault s (clusterOf r.2) c.need).bind fun o =>
        if vaultbOk s l c.need ∧ (poolRoom s part launch c.threads).isSome then some (c, l, r.1, r.2, o) else none
  | _, _, _ => none

/-- One thread of a run as a record of kind 5 (R364 step 1). -/
def setupThread (l : Launch) (c : Cast) (run core : Nat) (s : State) (tic : Nat) : State :=
  let t : Thread := { Thread.fresh s.nextId c.part c.launch c.num tic .record l.param with run }
  let s : State :=
    if l.protected then
      { s with nextId := s.nextId + 2,
               threads := s.threads ++ [{ t with twin := s.nextId + 1 }, { t with tid := s.nextId + 1, shadow := true, twin := s.nextId }] }
    else { s with nextId := s.nextId + 1, threads := s.threads ++ [t] }
  makeRec s t.tid
    { kind := 5, wtype := 0, key := 0, resume := BitVec.ofNat 32 (kEntry l.kinfo), prio := BitVec.ofNat 4 (kPrio l.kinfo),
      buf := l.codeBuf, cluster := clusterOf core }

/-- Set up a run (R364, R367). -/
def setupRun (s : State) (c : Cast) (l : Launch) (run core o : Nat) : State :=
  let due := s.time + ((s.part? c.part).map lagOf).getD 0
  let s := (takeRoom s c.part c.launch c.threads).getD s
  let s := s.updCast c.part c.launch c.num fun c =>
    { c with ended := false, run, pin := some core, cluster := clusterOf core, alloc := some (o, c.need), spilled := none, spillBufs := [],
             queues := [[], [], [], []],
             assay := c.assay.map fun a =>
               { a with digest := 0, promoted := false, deadline := if run = 3 then none else some due } }
  (List.range c.threads).foldl (setupThread l c run core) s

/-- `ASSAY_SETUP` (R54, R364, R367, R372, R373). -/
def execAssaySetup (part launch cast : Nat) (s : State) : Outcome :=
  .next (match setupPlan s part launch cast with
    | some (c, l, run, core, o) => setupRun s c l run core o
    | none => s)

/-- Whether the deadline of a run has passed. -/
def deadlineOver (s : State) (c : Cast) : Bool := c.assay.any fun a => a.deadline.any fun t => decide (t ≤ s.time)

/-- `ASSAY_DEADLINE` (R320). -/
def execAssayDeadline (part launch cast : Nat) (s : State) : Outcome :=
  .next (match s.cast? part launch cast with
    | some c =>
      if deadlineOver s c then
        s.updCast part launch cast fun c => { c with assay := c.assay.map fun a => { a with deadline := none, promoted := true } }
      else s
    | none => s)

/-! ### Suspicion and injection (R365, R368) -/

/-- Whether device time has passed a multiple of 10^9 cy since the scores fell last. -/
def decayDue (s : State) : Bool := decide (s.dev.decayed < s.time / 10 ^ 9)

/-- `SUSPICION_DECAY` (R365). -/
def execSuspicionDecay (s : State) : Outcome :=
  .next (if decayDue s then
      s.updDev fun d => { d with susp := d.susp.map fun x => (x.1, x.2.1 - 1, x.2.2), decayed := d.decayed + 1 }
    else s)

/-- `FINJ_FLIP` (R368): a write of `FINJ` with mode 1. -/
def execFinjFlip (part : Nat) (v : BitVec 32) (s : State) : Outcome :=
  .next (if bitsN v.toNat 31 30 = 1 then setFinj s part none v else s)

/-- `FINJ_POISON` (R368): a write of `FINJ` with mode 2 by a thread. -/
def execFinjPoison (part tid : Nat) (v : BitVec 32) (s : State) : Outcome :=
  .next (if bitsN v.toNat 31 30 = 2 then setFinj s part (some tid) v else s)

/-- `FINJ_OFF` (R368): a write of `FINJ` with mode 0 or 3. -/
def execFinjOff (part : Nat) (v : BitVec 32) (s : State) : Outcome :=
  .next (if bitsN v.toNat 31 30 = 0 ∨ bitsN v.toNat 31 30 = 3 then setFinj s part none v else s)

/-! ### Tiles that migrate (R68) -/

/-- A tile moved to the same entry of another vault's table: what it is there. -/
def movedTile (t : Tile) (vault off buf : Nat) : Tile := { t with vault, off, buf }

/-- The tile buffer of a partition that holds a range of a vault, 0 where none does (notes/assumptions/116.md). -/
def tileBuf (s : State) (p : Part) (vault off n : Nat) : Nat :=
  ((List.range (btCount p)).find? fun i =>
    let e := btMem s p i
    btKind e = 3 && btVault e = vault && decide (btVaultOff e ≤ off) && decide (off + n ≤ btVaultOff e + btLength e)).getD 0

/-- A forward that migrates the tile of a stopped `MMAL` (R68): its bytes go to the destination's vault before the record
enters a ladle, the home field of the handle is rewritten in the tile block, and its locks go with it. Where the entry of
the same index is live there, the tile stays (notes/assumptions/116.md). -/
def migrateTile (tid off : Nat) (s : State) : State :=
  match s.rec? tid, s.thread? tid with
  | some r, some th =>
    match r.transit, r.tile.bind fun b => (tileOf s r.part th.launch b.handle).map fun t => (b, t) with
    | some cl, some (b, t) =>
      if 128 ≤ cl ∨ t.vault = cl ∨ off % 128 ≠ 0 ∨ vaultBytes < off + tileBytes t ∨
          (s.tiles.any fun x => x.live && x.vault = cl && x.idx = t.idx) then s
      else
        let buf := ((s.part? r.part).map fun p => tileBuf s p cl off (tileBytes t)).getD 0
        let base := ((s.part? r.part).map fun p => btVaultOff (btMem s p buf)).getD 0
        let new := movedTile t cl off buf
        let h := tileHandle new
        let at' (l : Lock) : Lock :=
          { l with tile := some h, slot := slotOfCluster cl, buf, lo := off - base, hi := off - base + tileBytes t - 1 }
        let s := moveBytes s (vaultKey t.vault t.off) (vaultKey cl off) (tileBytes t)
        let s : State := { s with
          tiles := new :: (s.tiles.filter fun x => !(x.vault = cl && x.idx = t.idx)).map fun x =>
            if x.vault = t.vault ∧ x.idx = t.idx then releaseTile x else x,
          locks := updL (fun l => l.part = r.part && l.tile = some b.handle) at' s.locks }
        flushRec ((reloadHeld s tid).updRec tid fun r => { r with tile := some { b with handle := h } }) tid
    | _, _ => s
  | _, _ => s

/-! ### L2 rails (R355) -/

/-- The entry of a slice in the list of rails, none while nothing was reported of it. -/
def railOf (s : State) (slice : Nat) : Option (Nat × Option Nat) := (s.dev.rails.find? fun x => x.1 = slice).map (·.2)

/-- Whether a rail lies below `VTHR` while its slice still codes with SEC-DED. -/
def railLow (s : State) (slice : Nat) : Bool :=
  (railOf s slice).any (fun x => decide (x.1 < Config.vthr slice)) && !s.dev.decTed.contains slice

/-- Whether a rail has stayed at least 10 mV above `VTHR` for 1 ms. -/
def railBack (s : State) (slice : Nat) : Bool :=
  (railOf s slice).any (fun x => x.2.any fun t => decide (t + 10 ^ 6 ≤ s.time)) && s.dev.decTed.contains slice

/-- `L2_VTHR_DROP` (R355): the rail falls below `VTHR`. Ways 14 and 15 are written back and invalidated, and the slice codes
with DEC-TED; no value changes. -/
def execL2VthrDrop (slice : Nat) (s : State) : Outcome :=
  .next (if slice < 128 then
      { s with
        l2 := s.l2.filter fun x => !(x.slice = slice && decide (14 ≤ x.way)),
        dev := { s.dev with
          decTed := insertN slice s.dev.decTed,
          rails := (slice, min (((railOf s slice).map (·.1)).getD 0) (Config.vthr slice - 1), none) ::
            s.dev.rails.filter fun x => x.1 ≠ slice } }
    else s)

/-- `L2_VTHR_RECOVER` (R355): the slice returns to SEC-DED and to its 16 ways. -/
def execL2VthrRecover (slice : Nat) (s : State) : Outcome :=
  .next (if railBack s slice then s.updDev fun d => { d with decTed := d.decTed.filter fun x => x ≠ slice } else s)

/-! ### Margins (R370, R371) -/

/-- Whether an offset is that of a lane's `EYEMON` word. -/
def isEyemon (off : Nat) : Bool :=
  off % 4 = 0 && decide (off % 128 < 72) &&
    ((decide (0x100000 ≤ off) && decide (off < 0x100000 + 128 * 2560)) ||
      (decide (0x200000 ≤ off) && decide (off < 0x200000 + 256 * 12)))

/-- The 128-byte group of an offset, and whether there is an interface there. -/
def eyeBase (off : Nat) : Nat := off - off % 128
def isEyeGroup (off : Nat) : Bool := isEyemon (eyeBase off)

/-- A lane and a group at their reset values. -/
def EyeLane.fresh (off : Nat) : EyeLane := { off, low := false, tm := 0, vm := 0 }
def EyeGroup.fresh (base : Nat) : EyeGroup :=
  { base, tmin := 8, vmin := 20, go := false, sp0 := 0xFF, sp1 := 0xFF, map0 := 0xFF, map1 := 0xFF }

def eyeLane (s : State) (off : Nat) : EyeLane := (s.dev.eyeLanes.find? fun x => x.off = off).getD (.fresh off)
def eyeGroup (s : State) (base : Nat) : EyeGroup := (s.dev.eyeGroups.find? fun x => x.base = base).getD (.fresh base)
def setEyeLane (s : State) (x : EyeLane) : State :=
  s.updDev fun d => { d with eyeLanes := x :: d.eyeLanes.filter fun y => y.off ≠ x.off }
def setEyeGroup (s : State) (x : EyeGroup) : State :=
  s.updDev fun d => { d with eyeGroups := x :: d.eyeGroups.filter fun y => y.base ≠ x.base }

/-- `EYE_MEASURE` (R370, R371): `LOW` is set where a margin lies below its threshold, and its setting raises the margin
interrupt to management; where both spares are in use the lane is reported. -/
def execEyeMeasure (off : Nat) (tm : BitVec 8) (vm : BitVec 16) (s : State) : Outcome :=
  .next (if isEyemon off then
      let g := eyeGroup s (eyeBase off)
      let was := (eyeLane s off).low
      let bad := decide (tm < g.tmin) || decide (vm < g.vmin)
      let new := (if bad && !was then [Notice.margin off] else []) ++
        (if bad && g.map0 != 0xFF && g.map1 != 0xFF then [Notice.laneLost off] else [])
      (setEyeLane s { off, low := was || bad, tm, vm }).updDev fun d => { d with notices := d.notices ++ new }
    else s)

/-- A spare's lane as a retrain reads it: above 15 none. -/
def spareOf (v : BitVec 8) : BitVec 8 := if 15 < v.toNat then 0xFF else v

/-- `LANE_RETRAIN` (R371): the interface quiesces and takes the spare mapping. -/
def execLaneRetrain (off : Nat) (s : State) : Outcome :=
  .next (let g := eyeGroup s (eyeBase off)
    if isEyeGroup off ∧ g.go then setEyeGroup s { g with map0 := spareOf g.sp0, map1 := spareOf g.sp1 } else s)

/-- `RETRAIN_DONE` (R371). -/
def execRetrainDone (off : Nat) (s : State) : Outcome :=
  .next (let g := eyeGroup s (eyeBase off)
    if isEyeGroup off ∧ g.go ∧ g.map0 = spareOf g.sp0 ∧ g.map1 = spareOf g.sp1 then setEyeGroup s { g with go := false }
    else s)

/-! ### Posted removals (R171) -/

/-- Whether removals of an index are still on their way. -/
def btinvDue (s : State) (part idx : Nat) : Bool := s.btinvs.any fun b => b.part = part && b.idx = idx && !b.acted

/-- The indices that the block of an engine operation names. -/
def copyBufs (c : CopyOp) : List Nat :=
  [bitsN (cSrc c.blk) 63 48, bitsN (cDst c.blk) 63 48] ++ if c.state = 0 then [] else [c.state]
def runnerBufs (r : Runner) : List Nat := (rStreams r.blk).map fun i => bitsN (rPtr (rStream r.blk i)) 63 48
def loopBufs (o : TileOp) : List Nat :=
  match o.kind with
  | .mmal | .mmag => [bitsN (mAptr o.blk) 63 48, bitsN (mSptr o.blk) 63 48]
  | _ => []

/-- Accesses and engine operations through an index that are not complete: an operation uses the buffers that its block
names, whether it still holds their locks or not. -/
def usersOf (s : State) (part idx : Nat) : List Nat :=
  ((s.accs.filter fun a => a.part = part && a.buf = idx && a.stage != .done).map (·.id)) ++
    ((s.locks.filter fun l => l.part = part && l.buf = idx).map (·.op)) ++
    ((s.copies.filter fun c => c.part = part && (copyBufs c).contains idx).map (·.id)) ++
    ((s.runners.filter fun r => r.part = part && (runnerBufs r).contains idx).map (·.id)) ++
    ((s.bufOps.filter fun o => o.part = part && o.buf = idx && o.stage = .sent).map (·.id)) ++
    ((s.tileOps.filter fun o => o.part = part &&
      ((loopBufs o).contains idx || s.tiles.any fun t => t.live && t.part = part && t.buf = idx &&
        t.vault = bitsN o.handle.toNat 31 25 && t.idx = bitsN o.handle.toNat 24 12)).map (·.id))

/-- `BTINV_ACTED` (R171). -/
def execBtinvActed (part idx : Nat) (s : State) : Outcome :=
  .next (if btinvDue s part idx then
      let ids := usersOf s part idx
      { s with
        bcache := s.bcache.filter (fun c => !(c.part = part && c.idx = idx)),
        pcache := s.pcache.filter (fun c => !(c.part = part && c.idx = idx)),
        btinvs := updL (fun b => b.part = part && b.idx = idx && !b.acted) (fun b => { b with acted := true, waits := ids }) s.btinvs }
    else s)

/-! ### Control cores (R297, R298, R381, R385) -/

/-- Whether a control core takes a pending interrupt source now. -/
def interruptReady (s : State) (slot source : Nat) : Bool :=
  match s.ctl? slot with
  | none => false
  | some c =>
    let into := sourceLevel source
    c.pending.contains source && !c.oos &&
      match s.thread? c.tid with
      | none => false
      | some t =>
        decide (t.level.rank < into.rank) || (c.waiting && decide (t.level.rank ≤ into.rank)) ||
          (c.waiting && c.idle && c.active.isEmpty)

/-- An interrupt enters its layer. -/
def takeInterrupt (s : State) (slot source : Nat) : State :=
  match (s.pour? (1024 + slot) 0).bind fun p => p.entries.head? with
  | some e =>
    let s := s.updCtl slot fun c => { c with pending := c.pending.filter fun x => x ≠ source }
    enterLayer s slot (sourceLevel source) e.pc e.prio Trap.interrupt (BitVec.ofNat 64 source)
  | none => s

/-- `INTERRUPT_ENTRY` (R298). -/
def execInterruptEntry (slot source : Nat) (s : State) : Outcome :=
  .next (if interruptReady s slot source then takeInterrupt s slot source else s)

/-- `QACK` (R381). -/
def execQack (slot : Nat) (s : State) : Outcome := .next (qackSlot s slot)

/-! ### Words that are no instruction (R94) -/

/-- `ILLEGAL_ENCODING` (R94): every lane takes `ILLEGAL`. -/
def execIllegalEncoding (w : BitVec 32) (s : State) : Outcome :=
  .next (runWord (hdrOf w)
    { chk := fun s lane t => some (staticTrap s lane t.tid Trap.illegal), eff := fun s => s } s)

end Sys2Proof.Machine
end

