-- ==== Sys2Proof/Machine/Cmp.lean ====
section
/-! DEFINITION. Comparisons and predicates (R149 to R151). -/

namespace Sys2Proof.Machine

/-- `CMP.EQ.b32` (R149). -/
def execCmpEqB32 (h : Hdr) (p : PredNo) (a b : Reg) (s : State) : Outcome :=
  .next (compare h p a b (fun x y => x = y) s)

/-- `CMP.NE.b32` (R149). -/
def execCmpNeB32 (h : Hdr) (p : PredNo) (a b : Reg) (s : State) : Outcome :=
  .next (compare h p a b (fun x y => x ≠ y) s)

/-- `CMP.LT.i32` (R149). -/
def execCmpLtI32 (h : Hdr) (p : PredNo) (a b : Reg) (s : State) : Outcome :=
  .next (compare h p a b (fun x y => x.slt y) s)

/-- `CMP.LE.i32` (R149). -/
def execCmpLeI32 (h : Hdr) (p : PredNo) (a b : Reg) (s : State) : Outcome :=
  .next (compare h p a b (fun x y => x.sle y) s)

/-- `CMP.LT.n32` (R149). -/
def execCmpLtN32 (h : Hdr) (p : PredNo) (a b : Reg) (s : State) : Outcome :=
  .next (compare h p a b (fun x y => x < y) s)

/-- `CMP.LE.n32` (R149). -/
def execCmpLeN32 (h : Hdr) (p : PredNo) (a b : Reg) (s : State) : Outcome :=
  .next (compare h p a b (fun x y => x ≤ y) s)

/-- `CMP.EQ.b64` (R149). -/
def execCmpEqB64 (h : Hdr) (p : PredNo) (a b : PairNo) (s : State) : Outcome :=
  .next (compareW h p a b (fun x y => x = y) s)

/-- `CMP.NE.b64` (R149). -/
def execCmpNeB64 (h : Hdr) (p : PredNo) (a b : PairNo) (s : State) : Outcome :=
  .next (compareW h p a b (fun x y => x ≠ y) s)

/-- `CMP.LT.i64` (R149). -/
def execCmpLtI64 (h : Hdr) (p : PredNo) (a b : PairNo) (s : State) : Outcome :=
  .next (compareW h p a b (fun x y => x.slt y) s)

/-- `CMP.LE.i64` (R149). -/
def execCmpLeI64 (h : Hdr) (p : PredNo) (a b : PairNo) (s : State) : Outcome :=
  .next (compareW h p a b (fun x y => x.sle y) s)

/-- `CMP.LT.n64` (R149). -/
def execCmpLtN64 (h : Hdr) (p : PredNo) (a b : PairNo) (s : State) : Outcome :=
  .next (compareW h p a b (fun x y => x < y) s)

/-- `CMP.LE.n64` (R149). -/
def execCmpLeN64 (h : Hdr) (p : PredNo) (a b : PairNo) (s : State) : Outcome :=
  .next (compareW h p a b (fun x y => x ≤ y) s)

/-- `CMP.EQ.f32` (R149). -/
def execCmpEqF32 (h : Hdr) (p : PredNo) (a b : Reg) (s : State) : Outcome :=
  .next (compare h p a b (fun x y => fp32.eqF x.toNat y.toNat) s)

/-- `CMP.NE.f32` (R149). -/
def execCmpNeF32 (h : Hdr) (p : PredNo) (a b : Reg) (s : State) : Outcome :=
  .next (compare h p a b (fun x y => !fp32.eqF x.toNat y.toNat) s)

/-- `CMP.LT.f32` (R149). -/
def execCmpLtF32 (h : Hdr) (p : PredNo) (a b : Reg) (s : State) : Outcome :=
  .next (compare h p a b (fun x y => fp32.ltF x.toNat y.toNat) s)

/-- `CMP.LE.f32` (R149). -/
def execCmpLeF32 (h : Hdr) (p : PredNo) (a b : Reg) (s : State) : Outcome :=
  .next (compare h p a b (fun x y => fp32.leF x.toNat y.toNat) s)

/-- `CMP.UN.f32` (R149). -/
def execCmpUnF32 (h : Hdr) (p : PredNo) (a b : Reg) (s : State) : Outcome :=
  .next (compare h p a b (fun x y => fp32.isNaN x.toNat || fp32.isNaN y.toNat) s)

/-- `CMPI.EQ` (R150). -/
def execCmpiEq (h : Hdr) (p : PredNo) (a : Reg) (imm : BitVec 12) (s : State) : Outcome :=
  .next (test h p a (fun x => let y : Word := imm.signExtend 32; x = y) s)

/-- `CMPI.NE` (R150). -/
def execCmpiNe (h : Hdr) (p : PredNo) (a : Reg) (imm : BitVec 12) (s : State) : Outcome :=
  .next (test h p a (fun x => let y : Word := imm.signExtend 32; x ≠ y) s)

/-- `CMPI.LT.i` (R150). -/
def execCmpiLtI (h : Hdr) (p : PredNo) (a : Reg) (imm : BitVec 12) (s : State) : Outcome :=
  .next (test h p a (fun x => let y : Word := imm.signExtend 32; x.slt y) s)

/-- `CMPI.GE.i` (R150). -/
def execCmpiGeI (h : Hdr) (p : PredNo) (a : Reg) (imm : BitVec 12) (s : State) : Outcome :=
  .next (test h p a (fun x => let y : Word := imm.signExtend 32; y.sle x) s)

/-- `CMPI.LT.n` (R150). -/
def execCmpiLtN (h : Hdr) (p : PredNo) (a : Reg) (imm : BitVec 12) (s : State) : Outcome :=
  .next (test h p a (fun x => let y : Word := imm.signExtend 32; x < y) s)

/-- `CMPI.GE.n` (R150). -/
def execCmpiGeN (h : Hdr) (p : PredNo) (a : Reg) (imm : BitVec 12) (s : State) : Outcome :=
  .next (test h p a (fun x => let y : Word := imm.signExtend 32; y ≤ x) s)

/-- `CMPI.BSET` (R150). -/
def execCmpiBset (h : Hdr) (p : PredNo) (a : Reg) (imm : BitVec 5) (s : State) : Outcome :=
  .next (test h p a (fun x => x.getLsbD imm.toNat) s)

/-- `CMPI.BCLR` (R150). -/
def execCmpiBclr (h : Hdr) (p : PredNo) (a : Reg) (imm : BitVec 5) (s : State) : Outcome :=
  .next (test h p a (fun x => !x.getLsbD imm.toNat) s)

/-- `PAND` (R151). -/
def execPand (h : Hdr) (p a b : PredNo) (s : State) : Outcome :=
  .next (fixedP h 2 p (fun now t => let x := t.rdP now a; let y := t.rdP now b; x && y) s)

/-- `POR` (R151). -/
def execPor (h : Hdr) (p a b : PredNo) (s : State) : Outcome :=
  .next (fixedP h 2 p (fun now t => let x := t.rdP now a; let y := t.rdP now b; x || y) s)

/-- `PXOR` (R151). -/
def execPxor (h : Hdr) (p a b : PredNo) (s : State) : Outcome :=
  .next (fixedP h 2 p (fun now t => let x := t.rdP now a; let y := t.rdP now b; x != y) s)

/-- `PANDN` (R151). -/
def execPandn (h : Hdr) (p a b : PredNo) (s : State) : Outcome :=
  .next (fixedP h 2 p (fun now t => let x := t.rdP now a; let y := t.rdP now b; x && !y) s)

/-- `PMOV` (R151). -/
def execPmov (h : Hdr) (p a : PredNo) (s : State) : Outcome :=
  .next (fixedP h 2 p (fun now t => t.rdP now a) s)

/-- `PSET` (R151). -/
def execPset (h : Hdr) (p : PredNo) (n : BitVec 1) (s : State) : Outcome :=
  .next (fixedP h 2 p (fun _ _ => n = 1) s)

/-- `P2V` (R151): bit i is pi, and p7 reads as 1. -/
def execP2v (h : Hdr) (d : Reg) (s : State) : Outcome :=
  .next (runWord h { eff := fun s => putResult 2 d (predWord s.time) s } s)

/-- `V2P` (R151): writes p0 to p6. -/
def execV2p (h : Hdr) (a : Reg) (s : State) : Outcome :=
  .next (runWord h { eff := putPreds a } s)

end Sys2Proof.Machine
end

