-- ==== Sys2Proof/Machine/Registers.lean ====
section
/-! DEFINITION. The device status block and the partition register windows as their masters read them (R29, R30, R305,
R317, R334, R345, R349, R365, R369, R370, R371, R375 to R382, R390 to R394). -/

namespace Sys2Proof.Machine

open Sys2Proof (Master)

/-- The 8 bytes at a multiple of 8, from a function that gives 4 bytes at a multiple of 4. -/
def pairWords (f : Nat → Nat) (off : Nat) : Nat := f off % 2 ^ 32 + f (off + 4) % 2 ^ 32 * 2 ^ 32

/-! ### The device status block (R375) -/

/-- `READY` words (R29, R30). -/
def readyWord (d : Dev) (i : Nat) : Nat :=
  if i = 0 then
    d.readyDie.toNat + d.readyStack.toNat * 2 ^ 4 + d.readyFlash.toNat * 2 ^ 20 + d.readyLink.toNat * 2 ^ 28 +
      boolBit d.readyHost * 2 ^ 40
  else
    (List.range 16).foldl (fun x m =>
      let s := 16 * (i - 1) + m
      x + (boolBit (d.cc.getLsbD s) + 2 * boolBit (d.fwm.getLsbD s) + 4 * boolBit (d.fws.getLsbD s) +
        8 * boolBit (d.fwu.getLsbD s)) * 2 ^ (4 * m)) 0

def ownerCode : Option Master → Nat
  | none => 0
  | some .host => 1
  | some .sideBand => 2

def Dev.view (d : Dev) : Master → LockView
  | .host => d.host
  | .sideBand => d.sideBand

/-- `CFGLOCK` as a master reads it (R378). -/
def cfglockValue (d : Dev) (m : Master) : Nat :=
  2 * boolBit (d.view m).mreq + 4 * ownerCode d.cown + 16 * boolBit (d.view m).creq + 32 * boolBit (d.view m).lost +
    64 * ownerCode d.mown

/-- A slot's configuration; unlisted: unassigned, without a tenant. -/
def slotCfg (s : State) (slot : Nat) : SlotCfg :=
  (s.dev.slots.find? fun x => x.slot = slot).getD { slot, tenant := 0, first := 0, sz := 0, nvf := 0, state := 0 }

/-- `PCFG`, `NBOUND` (R379). -/
def pcfgValue (x : SlotCfg) : Nat :=
  x.state.toNat + x.nvf.toNat * 2 ^ 10 + x.sz.toNat * 2 ^ 15 + x.first.toNat * 2 ^ 18 + x.tenant.toNat * 2 ^ 32
def nboundValue (x : SlotCfg) : Nat := if x.state = 0 then 0 else x.sz.toNat + x.first.toNat * 2 ^ 8 + 2 ^ 63

/-- `SUSP` (R365). -/
def suspValue (s : State) (core : Nat) : Nat := (suspOf s core).1 + 256 * boolBit (suspOf s core).2

/-- The words of the margin monitors (R370, R371). -/
def eyeWord (s : State) (off : Nat) : Nat :=
  let g := eyeGroup s (eyeBase off)
  if isEyemon off then
    let x := eyeLane s off
    x.vm.toNat + x.tm.toNat * 2 ^ 16 + boolBit x.low * 2 ^ 31
  else if !isEyeGroup off then 0
  else if off % 128 = 120 then g.vmin.toNat + g.tmin.toNat * 2 ^ 16
  else if off % 128 = 124 then g.sp0.toNat + g.sp1.toNat * 2 ^ 8 + boolBit g.go * 2 ^ 31
  else 0

/-- Whether a command of a class is in progress. -/
def Dev.busy (d : Dev) (classM : Bool) : Bool := d.commands.any fun c => c.classM = classM

/-- The 8 bytes of the device status block at a multiple of 8, as a master reads them. -/
def dsbValue (s : State) (m : Master) (off : Nat) : DWord :=
  let d := s.dev
  BitVec.ofNat 64 <|
    if off < 0x28 then readyWord d (off / 8)
    else if off = 0x40 then cfglockValue d m
    else if off = 0x48 then d.intstat.toNat
    else if off = 0x50 then d.pcmd.toNat
    else if off = 0x58 then d.pcmdst.toNat + boolBit (d.busy false) * 2 ^ 63
    else if off = 0x60 then d.mcmd.toNat
    else if off = 0x68 then d.mcmdst.toNat + d.passMask.toNat * 2 ^ 8 + boolBit (d.busy true) * 2 ^ 63
    else if off = 0x70 then d.grpcfg.toNat
    else if 0x1000 ≤ off ∧ off < 0x1200 then pcfgValue (slotCfg s ((off - 0x1000) / 8))
    else if 0x2000 ≤ off ∧ off < 0x2200 then nboundValue (slotCfg s ((off - 0x2000) / 8))
    else if 0x3000 ≤ off ∧ off < 0x3200 then (getL d.encap ((off - 0x3000) / 8) 0#16).toNat
    else if 0x4000 ≤ off ∧ off < 0x4800 then
      (List.range 4).foldl (fun x i => x + suspValue s ((off - 0x4000) / 2 + i) * 2 ^ (16 * i)) 0
    else if off = nbdrop ∧ m = .host then 0
    else if 0x8000 ≤ off ∧ off < 0x100000 then (getL d.errs off 0#64).toNat
    else if 0x100000 ≤ off ∧ off < 0x400000 then pairWords (eyeWord s) off
    else 0

/-! ### The partition register window (R375) -/

/-- The 8 bytes of a queue context (R305). -/
def queueWord (x : Queue) (i : Nat) : Nat :=
  match i with
  | 0 => x.qbase.toNat
  | 1 =>
    x.size.toNat + x.prio.toNat * 2 ^ 4 + x.vf.toNat * 2 ^ 8 + x.proc.toNat * 2 ^ 12 + boolBit x.en * 2 ^ 24 +
      boolBit x.dev * 2 ^ 25 + x.tail.toNat * 2 ^ 32
  | 2 => x.head.toNat + boolBit x.idle * 2 ^ 32 + boolBit x.hrej * 2 ^ 33 + boolBit x.blost * 2 ^ 34 + boolBit x.flost * 2 ^ 35
  | _ => 0

/-- A byte of `PWEIGHT` (R317). -/
def pweightByte (p : Part) (i : Nat) : Nat := getL p.pweight i 1 % 256

/-- Entries of the fault ring in state 1, as which 2 to 15 act (R333), and `FRQNEXT` (R334). -/
def frqPosted (s : State) (p : Part) : Nat :=
  (List.range (frqSize p)).countP fun i =>
    match devLocate s p.first .load (frqPtr p i) 64 with
    | .ok _ k => bitsN (homePeek s (k + 60) 4) 31 28 != 0
    | .trap _ => false
def frqNext (s : State) (p : Part) : Nat := p.frqix % 2 ^ 16 + frqPosted s p % 2 ^ 16 * 2 ^ 16

/-- A `PEER` entry (R391). -/
def Part.peer (p : Part) (e : Nat) : PeerEntry :=
  (p.peers.find? fun x => x.idx = e).getD { idx := e, en := false, up := false, dev := 0, slot := 0 }
def peerValue (x : PeerEntry) : Nat := x.slot.toNat + x.dev.toNat * 2 ^ 8 + boolBit x.up * 2 ^ 62 + boolBit x.en * 2 ^ 63

/-- The 8 bytes of a window at a multiple of 8, as the physical function reads them. -/
def windowValue (s : State) (p : Part) (off : Nat) : DWord :=
  BitVec.ofNat 64 <|
    if off < 32 * (16 * 2 ^ p.sz) ∧ off < 0x10000 then queueWord (p.queue (off / 32)) (off % 32 / 8)
    else if 0x10000 ≤ off ∧ off < 0x20000 then
      (List.range 8).foldl (fun x i => x + pweightByte p (off - 0x10000 + i) * 2 ^ (8 * i)) 0
    else if off = 0x20000 then p.vfslice.toNat + p.qage.toNat * 2 ^ 32
    else if off = 0x20008 then enBudget s p % 2 ^ 32 + p.rlrate.toNat * 2 ^ 32
    else if off = 0x20010 then p.frq.toNat
    else if off = 0x20018 then frqNext s p
    else if off = 0x20020 then p.preq.toNat
    else if off = 0x20028 then sysPosted s p * 2 ^ 16 + p.sysnext % 2 ^ 16
    else if off = 0x20030 then p.enacct.toNat
    else if 0x20040 ≤ off ∧ off < 0x20080 then (getL p.errcnt ((off - 0x20040) / 8) 0#64).toNat
    else if off = 0x20080 then p.pctxbuf.toNat
    else if off = 0x20088 then p.pctx.toNat
    else if 0x20200 ≤ off ∧ off < 0x20400 then (getL p.ilvmap ((off - 0x20200) / 8) 0#64).toNat
    else if 0x20400 ≤ off ∧ off < 0x20500 then peerValue (p.peer ((off - 0x20400) / 8))
    else if 0x20600 ≤ off ∧ off < 0x20800 then getL p.migfwd ((off - 0x20600) / 32) 0 / 2 ^ (64 * (off % 32 / 8)) % 2 ^ 64
    else if 0x30000 ≤ off ∧ off < 0x30000 + 32 * 2 ^ p.sz then
      (List.range 4).foldl (fun x i => x + suspValue s (16 * p.first + (off - 0x30000) / 2 + i) * 2 ^ (16 * i)) 0
    else 0

/-- What a VF reads (R377): contexts of other VFs read as zero. -/
def windowVfValue (s : State) (p : Part) (vf off : Nat) : DWord :=
  if off < 0x10000 ∧ (p.queue (off / 32)).vf.toNat ≠ vf then 0 else windowValue s p off

/-! ### Sizes (R376) -/

/-- A write of 4 or 8 bytes, naturally aligned. -/
def sizeOk (off size : Nat) : Bool := (size = 4 || size = 8) && off % size = 0

/-- What a read returns: all ones for another size or place. -/
def readSized (f : Nat → DWord) (off size : Nat) : DWord :=
  if !sizeOk off size then BitVec.allOnes 64
  else if size = 8 then f off
  else BitVec.ofNat 64 ((f (off - off % 8)).toNat / 2 ^ (8 * (off % 8)) % 2 ^ 32)

/-- The bits that a write of a size at an offset covers, and its value there. -/
def writeMask (off size : Nat) : DWord := if size = 8 then BitVec.allOnes 64 else BitVec.ofNat 64 ((2 ^ 32 - 1) * 2 ^ (8 * (off % 8)))
def writeBits (off size : Nat) (v : DWord) : DWord :=
  if size = 8 then v else BitVec.ofNat 64 (v.toNat % 2 ^ 32 * 2 ^ (8 * (off % 8)))
/-- The 8 bytes after a write of plain fields. -/
def mergeWrite (old : DWord) (off size : Nat) (v : DWord) : DWord :=
  (old &&& ~~~writeMask off size) ||| writeBits off size v

end Sys2Proof.Machine
end

