-- ==== Sys2Proof/Machine/Commands.lean ====
section
/-! DEFINITION. The locks, the commands of the two masters on partitions and slots, pre-emption requests and context
switches (R198, R344 to R346, R349, R350, R378 to R388, R395). -/

namespace Sys2Proof.Machine

open Sys2Proof (Master)

/-! ### `CFGLOCK` (R378) -/

def Dev.setView (d : Dev) (m : Master) (f : LockView → LockView) : Dev :=
  match m with
  | .host => { d with host := f d.host }
  | .sideBand => { d with sideBand := f d.sideBand }

/-- The master that wins a class. -/
def winner (classM : Bool) : Master := if classM then .sideBand else .host

def Dev.owner (d : Dev) (classM : Bool) : Option Master := if classM then d.mown else d.cown
def Dev.setOwner (d : Dev) (classM : Bool) (m : Option Master) (now : Nat) : Dev :=
  if classM then { d with mown := m, mownAt := now } else { d with cown := m, cownAt := now }
def Dev.ownedAt (d : Dev) (classM : Bool) : Nat := if classM then d.mownAt else d.cownAt

/-- A master's own last request of a class. -/
def Dev.noteReq (d : Dev) (classM : Bool) (m : Master) (v : Bool) : Dev :=
  d.setView m fun w => if classM then { w with mreq := v } else { w with creq := v }

/-- A request of a lock: granted if it is free, seized by the class's winner, else refused. The loser of a request of the
same cy never held the lock. -/
def requestLock (s : State) (classM : Bool) (m : Master) : State :=
  s.updDev fun d =>
    let d := d.noteReq classM m true
    match d.owner classM with
    | none => d.setOwner classM (some m) s.time
    | some x =>
      if x = m ∨ m ≠ winner classM then d
      else
        let d := if d.ownedAt classM = s.time then d else d.setView x fun w => { w with lost := true }
        d.setOwner classM (some m) s.time

/-- A release: it frees the lock if the master holds it. -/
def releaseLock (s : State) (classM : Bool) (m : Master) : State :=
  s.updDev fun d =>
    let d := d.noteReq classM m false
    if d.owner classM = some m then d.setOwner classM none s.time else d

/-- `CFGLOCK_CREQ`, `CFGLOCK_CRELEASE`, `CFGLOCK_MREQ`, `CFGLOCK_MRELEASE` (R378). -/
def execCfglockCreq (m : Master) (s : State) : Outcome := .next (requestLock s false m)
def execCfglockCrelease (m : Master) (s : State) : Outcome := .next (releaseLock s false m)
def execCfglockMreq (m : Master) (s : State) : Outcome := .next (requestLock s true m)
def execCfglockMrelease (m : Master) (s : State) : Outcome := .next (releaseLock s true m)

/-- Whether a master holds the lock of a class. -/
def holds (s : State) (classM : Bool) (m : Master) : Bool := s.dev.owner classM = some m

/-! ### Scrubs (R198, R369, R386, R387) -/

/-- Whether a key is a place of a slot's own memories: its pseudo-channels, vaults and weight buffers. -/
def slotClears (slot k : Nat) : Bool :=
  ((keyChan k).any fun c => decide (40 * slot ≤ c) && decide (c < 40 * slot + 40)) ||
    ((keyVault k).any fun v => slotOfCluster v = slot) ||
    (decide (weightKey (16 * slot) 0 0 ≤ k) && decide (k < weightKey (16 * slot + 16) 0 0))

/-- Begin a scrub of a slot: every place reads as zero from now on, and the flash key is new. -/
def beginScrub (s : State) (slot : Nat) : State :=
  let here (core : Nat) : Bool := !isCtlCore core && slotOfCluster (clusterOf core) = slot
  let s : State := { s with
    mem := s.mem.filter (fun c => !slotClears slot c.1 && !(decide (flashKey slot 0 ≤ c.1) && decide (c.1 < flashKey (slot + 1) 0))),
    l2 := s.l2.filter (fun x => x.slice / 2 ≠ slot),
    llc := s.llc.filter (fun x => x.slot ≠ slot),
    poisoned := s.poisoned.filter (fun k => !slotClears slot k),
    lines := s.lines.filter (fun l => !slotClears slot (128 * l.line)),
    l1 := s.l1.filter (fun x => !here x.core),
    ucopies := s.ucopies.filter (fun x => !here x.core),
    wtags := s.wtags.filter (fun w => !here w.core) }
  s.updDev fun d =>
    { d with scrubbing := insertN slot d.scrubbing, flashKeys := setL d.flashKeys slot (getL d.flashKeys slot 0 + 1),
             flashFresh := d.flashFresh.filter (fun x => x.1 ≠ slot), sealed := d.sealed.filter fun x => x.1 ≠ slot }

def setSlot (s : State) (x : SlotCfg) : State :=
  s.updDev fun d => { d with slots := x :: d.slots.filter fun y => y.slot ≠ x.slot }

/-- Whether a slot belongs to a partition. -/
def assigned (s : State) (slot : Nat) : Bool := (s.partOfSlot slot).isSome

/-- The `STATE` of a running partition: 3 while a slot of it is being scrubbed (R381). -/
def runState (s : State) (p : Part) : Nat := if p.slots.any fun x => s.dev.scrubbing.contains x then 3 else 1

/-- `PCFG.STATE` of the slots of a running partition follows the scrubs. -/
def settleScrub (s : State) (p : Part) : State :=
  if p.state = 2 then s
  else
    let s := s.updPart p.first fun x => { x with state := runState s p }
    p.slots.foldl (fun s x => setSlot s { slotCfg s x with state := if s.dev.scrubbing.contains x then 3 else 1 }) s

/-- A scrub ends (R386): `SCRUBDONE`, and `SCRUB` ends `OK`. -/
def endScrub (s : State) (slot : Nat) : State :=
  let s := raiseInt (s.updDev fun d => { d with scrubbing := d.scrubbing.filter fun x => x ≠ slot }) 4
  let s := match s.partOfSlot slot with
    | some p => settleScrub s p
    | none => s
  if s.dev.commands.any fun c => c.classM && c.op = 2 && c.first = slot then endCommand s true 2 slot 0 else s

/-- `SCRUB_DONE` (R386). -/
def execScrubDone (slot : Nat) (s : State) : Outcome :=
  .next (if s.dev.scrubbing.contains slot then endScrub s slot else s)

/-! ### Partitions made and removed (R381, R395) -/

/-- The status of a command, raised with `CMDDONE`. -/
def giveStatus (s : State) (classM : Bool) (st : Nat) : State :=
  raiseInt (s.updDev fun d =>
    if classM then { d with mcmdst := BitVec.ofNat 8 st } else { d with pcmdst := BitVec.ofNat 8 st }) 2

/-- A partition goes: its slots are unassigned and keep their tenant, its window keeps its registers (R395). -/
def removePart (s : State) (p : Part) : State :=
  let s : State := { s.updDev fun d => { d with kept := p :: d.kept.filter fun x => x.first ≠ p.first } with
    parts := s.parts.filter fun x => x.first ≠ p.first }
  p.slots.foldl (fun s x => setSlot s { slotCfg s x with first := 0, sz := 0, nvf := 0, state := 0 }) s

/-- A new partition before its state is cleared: the registers of its window are those that a partition with the same first
slot left there, else at their reset values (R9, R395, notes/assumptions/100.md); its `ILVMAP` is that of R382, and
`ERRCNT` goes to 0 where a slot changes its tenant (R369, R386). -/
def freshPart (s : State) (first sz nvf : Nat) (tenant : BitVec 32) : Part :=
  let old := (s.dev.kept.find? fun x => x.first = first).getD (Part.fresh first sz nvf tenant)
  let moves := (List.range (2 ^ sz)).any fun i => (slotCfg s (first + i)).tenant ≠ tenant
  { old with
    sz, nvf, tenant, state := 1, quiescing := none, qack := [], queues := [], rejected := [], notReady := false, down := [],
    pctx := setBit old.pctx 63 false, pctxRun := setBit old.pctxRun 63 false,
    errcnt := if moves then [] else old.errcnt, logs := if moves then [] else old.logs,
    ilvmap := [(0, BitVec.ofNat 64 (40 * first + 40 * 2 ^ sz * 2 ^ 12))] }

/-- Build a partition (R381, R382): its tables, a clean partition state, and scrubs where the tenant changes. -/
def createPart (s : State) (first sz nvf : Nat) (tenant : BitVec 32) : State :=
  let p := freshPart s first sz nvf tenant
  let s := resetPart { s with parts := s.parts ++ [p] } first
  let s := p.slots.foldl (fun s x =>
    let old := slotCfg s x
    let s := if old.tenant = tenant then s else beginScrub s x
    setSlot s { slot := x, tenant, first := BitVec.ofNat 6 first, sz := BitVec.ofNat 3 sz, nvf := BitVec.ofNat 5 nvf, state := 1 }) s
  settleScrub s p

/-! ### `PCMD` (R380, R381) -/

/-- The slots that a command names. -/
def cmdFirst (v : DWord) : Nat := bitsN v.toNat 45 40
def cmdSz (v : DWord) : Nat := bitsN v.toNat 54 52
def cmdOp (v : DWord) : Nat := bitsN v.toNat 63 60
def cmdNvf (v : DWord) : Nat := bitsN v.toNat 36 32
def cmdTenant (v : DWord) : BitVec 32 := v.setWidth 32

/-- Whether a command is well formed; `NVF` and `TENANT` are fields of `CREATE` alone. -/
def cmdForm (create : Bool) (ops : Nat) (v : DWord) : Bool :=
  let n := v.toNat
  bitsN n 59 55 = 0 && bitsN n 51 46 = 0 && bitsN n 39 37 = 0 && decide (1 ≤ cmdOp v) && decide (cmdOp v ≤ ops) &&
    decide (cmdSz v ≤ 6) && cmdFirst v % 2 ^ cmdSz v = 0 &&
    (if create then decide (1 ≤ cmdNvf v) && decide (cmdNvf v ≤ 16) && cmdTenant v != 0
     else cmdNvf v = 0 && cmdTenant v = 0)

/-- Whether a command's slots overlap those of one in progress. -/
def cmdOverlaps (s : State) (v : DWord) : Bool :=
  s.dev.commands.any fun c =>
    decide (c.first < cmdFirst v + 2 ^ cmdSz v) && decide (cmdFirst v < c.first + c.slots)

/-- The partition that a command names exactly. -/
def cmdPart (s : State) (v : DWord) : Option Part :=
  (s.part? (cmdFirst v)).bind fun p => if p.sz = cmdSz v then some p else none

/-- A long command begins. -/
def startCommand (s : State) (classM : Bool) (v : DWord) (slots : Nat) : State :=
  s.updDev fun d => { d with commands := d.commands ++ [{ classM, op := cmdOp v, first := cmdFirst v, slots }] }

/-- A write of `PCMD` by the holder of lock C. -/
def pcmdRun (s : State) (v : DWord) : State :=
  let slots := (List.range (2 ^ cmdSz v)).map (cmdFirst v + ·)
  if !cmdForm (cmdOp v = 1) 4 v then giveStatus s false 3
  else if cmdOverlaps s v then giveStatus s false 4
  else if cmdOp v = 1 then
    if slots.any (assigned s) then giveStatus s false 3
    else if !slots.all (slotReady s.dev) then giveStatus s false 1
    else giveStatus (createPart s (cmdFirst v) (cmdSz v) (cmdNvf v) (cmdTenant v)) false 0
  else match cmdPart s v with
    | none => giveStatus s false 3
    | some p =>
      if cmdOp v = 2 then
        if p.state = 2 then giveStatus (removePart s p) false 0 else giveStatus s false 2
      else if cmdOp v = 3 then
        if p.queues.any fun q => !q.2.idle then giveStatus s false 2
        else
          let s := s.updPart p.first fun p => { p with quiescing := some s.time, qack := [] }
          startCommand (raiseS s p 2) false v (2 ^ p.sz)
      else if p.state = 2 then
        let s := s.updPart p.first fun x => { x with state := 1 }
        giveStatus (settleScrub s { p with state := 1 }) false 0
      else giveStatus s false 2

/-- What `PCMD` and `MCMD` hold of a value: reserved bits read as zero (R10, R380). -/
def cmdBits (v : DWord) : DWord := v &&& 0xF0703F1FFFFFFFFF#64

/-- A write of `PCMD` (R380). -/
def pcmdWrite (s : State) (m : Master) (v : DWord) : State :=
  if holds s false m then pcmdRun (s.updDev fun d => { d with pcmd := cmdBits v }) v
  else s.updDev fun d => { d with pcmdst := 5 }

/-- `CREATE` (R381). -/
def execCreate (m : Master) (v : BitVec 64) (s : State) : Outcome := .next (if cmdOp v = 1 then pcmdWrite s m v else s)
/-- `DESTROY` (R381, R395). -/
def execDestroy (m : Master) (v : BitVec 64) (s : State) : Outcome := .next (if cmdOp v = 2 then pcmdWrite s m v else s)
/-- `QUIESCE` (R381). -/
def execQuiesce (m : Master) (v : BitVec 64) (s : State) : Outcome := .next (if cmdOp v = 3 then pcmdWrite s m v else s)
/-- `RESUME` (R381). -/
def execResume (m : Master) (v : BitVec 64) (s : State) : Outcome := .next (if cmdOp v = 4 then pcmdWrite s m v else s)

/-- Whether a quiesce has waited 10 ms. -/
def quiesceOver (s : State) (part : Nat) : Bool :=
  (s.part? part).any fun p => p.quiescing.any fun t => decide (t + 10000000 ≤ s.time)

/-- `QUIESCE_TIMEOUT` (R381). -/
def execQuiesceTimeout (part : Nat) (s : State) : Outcome :=
  .next (if quiesceOver s part then
      endCommand (s.updPart part fun p => { p with quiescing := none, qack := [] }) false 3 part 2
    else s)

/-! ### `MCMD` (R380, R386, R388) -/

/-- The first steps of a shakeout (R388): the partition goes, the firmware bits clear, the slot is scrubbed. -/
def beginShakeout (s : State) (slot : Nat) : State :=
  let s := match s.partOfSlot slot with
    | some p => removePart (resetPart s p.first) p
    | none => s
  raiseCtl (beginScrub (clearReadyFrom s slot 1) slot) slot 5

/-- A write of `MCMD` by the holder of lock M: the slot is `FIRST`. -/
def mcmdRun (s : State) (v : DWord) : State :=
  let slot := cmdFirst v
  if !cmdForm false 3 v then giveStatus s true 3
  else if cmdOverlaps s v then giveStatus s true 4
  else if cmdOp v = 1 then
    match s.partOfSlot slot with
    | some p => giveStatus (resetPart s p.first) true 0
    | none => giveStatus s true 3
  else if cmdOp v = 2 then
    if assigned s slot then giveStatus s true 3 else beginScrub (startCommand s true v 1) slot
  else beginShakeout (startCommand s true v 1) slot

/-- A write of `MCMD` (R380). -/
def mcmdWrite (s : State) (m : Master) (v : DWord) : State :=
  if holds s true m then mcmdRun (s.updDev fun d => { d with mcmd := cmdBits v }) v
  else s.updDev fun d => { d with mcmdst := 5 }

/-- `RESET` (R388). -/
def execReset (m : Master) (v : BitVec 64) (s : State) : Outcome := .next (if cmdOp v = 1 then mcmdWrite s m v else s)
/-- `SCRUB` (R386). -/
def execScrub (m : Master) (v : BitVec 64) (s : State) : Outcome := .next (if cmdOp v = 2 then mcmdWrite s m v else s)
/-- `SHAKEOUT` (R388). -/
def execShakeout (m : Master) (v : BitVec 64) (s : State) : Outcome := .next (if cmdOp v = 3 then mcmdWrite s m v else s)

/-- A core's health test (R365, R388): a pass clears the score and the bit, a failure leaves the core quarantined. -/
def healthOf (slot : Nat) (mask : BitVec 16) (s : State) (i : Nat) : State :=
  let core := 16 * slot + i
  if mask.getLsbD i then setSusp s core 0 false
  else
    let old := suspOf s core
    let s := setSusp s core old.1 true
    if old.2 then s else raiseInt s 1

/-- The M and S images of a slot are loaded and measured: the vectors that they set are free values. -/
def loadImages (s : State) (slot : Nat) : State :=
  let s : State := { s with free := s.free + 2 }
  let s := s.updCtl slot fun c =>
    { c with bankM := { c.bankM with trapvec := Config.value32 (s.free - 2) },
             bankS := { c.bankS with trapvec := Config.value32 (s.free - 1) } }
  s.updDev fun d =>
    { d with spdm := { slot, version := false, caps := false, algs := none, log := some s.free } ::
               d.spdm.filter fun x => x.slot ≠ slot }

/-- Whether a shakeout is in progress whose scrub has ended. -/
def shakeoutOver (s : State) (slot : Nat) : Bool :=
  (s.dev.commands.any fun c => c.classM && c.op = 3 && c.first = slot) && !s.dev.scrubbing.contains slot

/-- The end of a shakeout: measured images, `FWM` and `FWS`, the health test (R388 steps 4 to 6). -/
def endShakeout (s : State) (slot : Nat) : State :=
  let mask := Config.healthy s.free
  let s := loadImages { s with free := s.free + 1 } slot
  let s := s.updDev fun d =>
    { d with passMask := mask, fwm := setBit d.fwm slot (d.cc.getLsbD slot), fws := setBit d.fws slot (d.cc.getLsbD slot) }
  let s := (List.range 16).foldl (healthOf slot mask) s
  endCommand (settleReady (readyChanged s)) true 3 slot 0

/-- `SHAKEOUT_DONE` (R388). -/
def execShakeoutDone (slot : Nat) (s : State) : Outcome := .next (if shakeoutOver s slot then endShakeout s slot else s)

/-! ### `PREQ` (R349, R350) -/

/-- Whether the clusters of a move are in order. -/
def moveOk (p : Part) (v : DWord) : Bool :=
  p.hasCluster (bitsN v.toNat 6 0) && p.hasCluster (bitsN v.toNat 14 8) && bitsN v.toNat 6 0 != bitsN v.toNat 14 8

/-- `PREQ` with `STAT`. -/
def preqWith (v : DWord) (stat : Nat) : DWord :=
  (v &&& ~~~0x00000000000F0000#64) ||| BitVec.ofNat 64 (stat % 16 * 2 ^ 16)

/-- The fields of `PREQ` that a write sets. -/
def preqFields (v : DWord) : DWord := v &&& 0xC000000000F07F7F#64

/-- A write of some bits of `PREQ` by the holder of lock C: the request in progress keeps the fields it was accepted with. -/
def preqWrite (s : State) (p : Part) (mask v : DWord) : State :=
  let go := (v &&& mask).getLsbD 63
  let new := preqFields ((p.preq &&& ~~~mask) ||| (v &&& mask))
  let bad := new.getLsbD 62 && !moveOk p new
  let stat := if bad then 2 else bitsN p.preq.toNat 19 16
  let upd (x : DWord) : State := s.updPart p.first fun p => { p with preq := x }
  if p.preq.getLsbD 63 then
    (if go then upd (preqWith p.preq 1) else upd (preqWith (setBit new 63 true) stat))
  else if !go || bad then upd (preqWith (setBit new 63 false) stat)
  else
    let s := s.updPart p.first fun p => { p with preq := new, preqRun := new }
    if p.preempting.isSome then s else startPreq s { p with preq := new, preqRun := new } (bitsN new.toNat 23 20)

/-- A write of `PREQ` as it arrives. -/
def preqArrives (part : Nat) (v : DWord) (s : State) : State :=
  match s.part? part with
  | some p => if holds s false .host then preqWrite s p (BitVec.allOnes 64) v else s
  | none => s

/-- `PREQ_PREEMPT` (R350). -/
def execPreqPreempt (part : Nat) (v : BitVec 64) (s : State) : Outcome :=
  .next (if v.getLsbD 63 && !v.getLsbD 62 then preqArrives part v s else s)
/-- `PREQ_MOVE` (R350). -/
def execPreqMove (part : Nat) (v : BitVec 64) (s : State) : Outcome :=
  .next (if v.getLsbD 63 && v.getLsbD 62 then preqArrives part v s else s)

/-! ### Context switches (R344, R345) -/

/-- The fields of `PCTX` that a write sets; `STAT` is 0 as a request begins. -/
def pctxFields (v : DWord) : DWord := v &&& 0xEF000000FFFFFFFF#64
def pctxWith (v : DWord) (stat : Nat) : DWord :=
  (v &&& ~~~0x00FF000000000000#64) ||| BitVec.ofNat 64 (stat % 256 * 2 ^ 48)
/-- Whether a request covers a VF. -/
def pctxCovers (v : DWord) (vf : Nat) : Bool := !v.getLsbD 61 || bitsN v.toNat 59 56 = vf

/-- A write of some bits of `PCTX` by the holder of lock C: a request pre-empts the VFs it covers, and keeps the fields it
was accepted with. -/
def pctxWrite (s : State) (p : Part) (mask v : DWord) : State :=
  let go := (v &&& mask).getLsbD 63
  let new := pctxFields ((p.pctx &&& ~~~mask) ||| (v &&& mask))
  let stat := bitsN p.pctx.toNat 55 48
  let upd (x : DWord) : State := s.updPart p.first fun p => { p with pctx := x }
  if p.pctx.getLsbD 63 then
    (if go then upd (pctxWith p.pctx 1) else upd (pctxWith (setBit new 63 true) stat))
  else if !go then upd (pctxWith (setBit new 63 false) stat)
  else stopEngines (s.updPart p.first fun p => { p with pctx := new, pctxRun := new }) p.first (pctxCovers new)

def pctxArrives (part : Nat) (v : DWord) (s : State) : State :=
  match s.part? part with
  | some p => if holds s false .host then pctxWrite s p (BitVec.allOnes 64) v else s
  | none => s

/-- `PCTX_SAVE` (R344). -/
def execPctxSave (part : Nat) (v : BitVec 64) (s : State) : Outcome :=
  .next (if v.getLsbD 63 && !v.getLsbD 62 && !v.getLsbD 61 then pctxArrives part v s else s)
/-- `PCTX_RESTORE` (R344). -/
def execPctxRestore (part : Nat) (v : BitVec 64) (s : State) : Outcome :=
  .next (if v.getLsbD 63 && v.getLsbD 62 && !v.getLsbD 61 then pctxArrives part v s else s)
/-- `PCTX_SAVE_ONEVF` (R345). -/
def execPctxSaveOnevf (part : Nat) (v : BitVec 64) (s : State) : Outcome :=
  .next (if v.getLsbD 63 && !v.getLsbD 62 && v.getLsbD 61 then pctxArrives part v s else s)
/-- `PCTX_RESTORE_ONEVF` (R345). -/
def execPctxRestoreOnevf (part : Nat) (v : BitVec 64) (s : State) : Outcome :=
  .next (if v.getLsbD 63 && v.getLsbD 62 && v.getLsbD 61 then pctxArrives part v s else s)

/-- The threads of the VFs that `f` names. -/
def vfThreads (s : State) (part : Nat) (f : Nat → Bool) : List Thread :=
  s.threads.filter fun t => t.part = part && (s.launch? part t.launch).any fun l => f l.vf

/-- Whether a request of a flask rests: an arrival that waits at its thread, or is counted in a phase (R344). -/
def SgReq.rests (g : SgReq) : Bool :=
  match g.stage with
  | .validated _ | .counted _ => true
  | _ => false

/-- Whether nothing of those threads is on its way. -/
def nothingInFlight (s : State) (part : Nat) (ts : List Nat) : Bool :=
  !(s.accs.any fun a => (a.tid.any fun t => ts.contains t) && (a.stage = .sent || a.stage = .performed)) &&
    !(s.results.any fun r => ts.contains r.tid) && (s.sgs.all fun g => g.part ≠ part || !ts.contains g.tid || g.rests) &&
    !(s.bufOps.any fun b => ts.contains b.tid) && !(s.posts.any fun q => ts.contains q.tid) &&
    !(s.recs.any fun r => ts.contains r.tid && r.transit.isSome)

/-- Whether a thread of a VF holds a flask membership, a tile or a vault allocation. -/
def vfHolds (s : State) (part vf : Nat) : Bool :=
  ((vfThreads s part fun v => v = vf).any fun t =>
    s.flasks.any fun f => f.part = part && f.live && f.members.any fun m => m.who = t.who) ||
  (s.tiles.any fun t => t.live && t.part = part && vfOf s part t.launch = vf) ||
  (s.casts.any fun c => c.part = part && vfOf s part c.launch = vf && (c.alloc.any fun a => decide (0 < a.2)))

/-- What a save writes. -/
def imageOf (s : State) (p : Part) (vf : Option Nat) (size : Nat) : Image :=
  let part := p.first
  let f (v : Nat) : Bool := vf.all fun x => x = v
  let ts := vfThreads s part f
  let mine (tid : Nat) : Bool := ts.any fun t => t.tid = tid
  let whole := vf.isNone
  let rs := s.recs.filter fun r => r.part = part && mine r.tid
  { size, vf, good := true, base := s.nextId,
    part := { p with queues := p.queues.filter fun q => f q.2.vf.toNat },
    threads := ts, recs := rs, annexes := s.annexes.filter (fun a => a.part = part && rs.any fun r => r.annex = a.ref),
    ladles := if whole then s.ladles.filter (fun l => l.part = part) else [],
    entryLists := s.entryLists.filter (fun x => mine x.2),
    launches := s.launches.filter (fun l => l.part = part && f l.vf),
    casts := s.casts.filter (fun c => c.part = part && f (vfOf s part c.launch)),
    copies := s.copies.filter (fun c => c.part = part && f c.vf),
    runners := s.runners.filter (fun c => c.part = part && f (vfOf s part c.launch)),
    tileOps := s.tileOps.filter (fun c => c.part = part && f (vfOf s part c.launch)),
    tiles := if whole then s.tiles.filter (fun t => p.hasCluster t.vault) else [],
    flasks := if whole then s.flasks.filter (fun x => p.hasCluster x.slice) else [],
    locks := s.locks.filter (fun l => l.part = part &&
      ((s.copies.any fun c => c.id = l.op && f c.vf) || (s.runners.any fun c => c.id = l.op && f (vfOf s part c.launch)) ||
        s.tileOps.any fun c => c.id = l.op && f (vfOf s part c.launch))),
    deliveries := if whole then s.deliveries.filter (fun d => d.part = part) else [],
    sgs := s.sgs.filter (fun g => g.part = part && mine g.tid),
    accs := s.accs.filter (fun a => a.part = part && f (vfOf s part a.launch) &&
      (match a.stage with | .faulted _ _ => true | .unposted _ => true | _ => false)),
    spills := if whole then (s.casts.filter fun c => c.part = part && c.spilled.isSome).map fun c =>
        (c.spillAt, (List.range c.need).map fun i => match backKey s part ((c.spillAt + i) / 32 * 32) with
          | some k => (memRead s.mem (k + (c.spillAt + i) % 32), poisonedAt s (k + (c.spillAt + i) % 32) 1)
          | none => (0, false))
      else [],
    cells := if whole then s.mem.filter (fun c => (keyVault c.1).any p.hasCluster) else [],
    poisoned := if whole then s.poisoned.filter (fun k => (keyVault k).any p.hasCluster) else [] }

/-- Names in an image as they are in the partition that takes it: ids become new ones, and clusters move with the first
slot. -/
structure Move where
  ids : Nat
  src : Nat
  dst : Nat
  deriving DecidableEq, Repr

def Move.id (m : Move) (i : Nat) : Nat := if i = 0 then 0 else i + m.ids
def Move.cluster (m : Move) (c : Nat) : Nat := if 256 ≤ c then c else c - 2 * m.src + 2 * m.dst
def Move.core (m : Move) (c : Nat) : Nat := c - 16 * m.src + 16 * m.dst
def Move.vkey (m : Move) (k : Nat) : Nat := k - vaultKey (2 * m.src) 0 + vaultKey (2 * m.dst) 0

def Move.thread (m : Move) (t : Thread) : Thread := { t with tid := m.id t.tid, twin := m.id t.twin, part := m.dst, seen := [] }
def Move.record (m : Move) (r : Rec) : Rec := { r with tid := m.id r.tid, part := m.dst, cluster := m.cluster r.cluster }
def Move.ladle (m : Move) (l : Ladle) : Ladle :=
  { l with id := m.id l.id, part := m.dst, cluster := m.cluster l.cluster, pin := l.pin.map m.core,
           members := l.members.map fun x => (m.id x.1, x.2) }
def Move.cast (m : Move) (c : Cast) : Cast :=
  { c with part := m.dst, cluster := m.cluster c.cluster, pin := c.pin.map m.core,
           orig := c.orig.map (fun x => (m.cluster x.1, x.2)), admittedAt := m.id c.admittedAt }
def Move.copy (m : Move) (c : CopyOp) : CopyOp :=
  { c with id := m.id c.id, part := m.dst, cluster := m.cluster c.cluster, issuer := c.issuer.map m.id,
           tokens := c.tokens.map (fun x => (m.id x.1, x.2)), order := c.order.map (fun x => (m.id x.1, x.2)) }
def Move.runner (m : Move) (c : Runner) : Runner :=
  { c with id := m.id c.id, part := m.dst, core := m.core c.core, issuer := c.issuer.map m.id,
           tokens := c.tokens.map (fun x => (m.id x.1, x.2)) }
def Move.tileOp (m : Move) (c : TileOp) : TileOp :=
  { c with id := m.id c.id, part := m.dst, core := m.core c.core, issuer := m.id c.issuer,
           threads := c.threads.map fun x => (m.id x.1, x.2) }
def Move.flask (m : Move) (f : Flask) : Flask :=
  { f with part := m.dst, slice := m.cluster f.slice,
           arrived := f.arrived.map (fun a => { a with id := m.id a.id, tid := m.id a.tid }),
           held := f.held.map (fun a => { a with id := m.id a.id, tid := m.id a.tid }) }

def Move.sg (m : Move) (g : SgReq) : SgReq := { g with id := m.id g.id, part := m.dst, tid := m.id g.tid }
def Move.acc (m : Move) (a : Acc) : Acc := { a with id := m.id a.id, tid := a.tid.map m.id, core := m.core a.core, part := m.dst }

/-- Write a spilled allocation into the pool backing again. -/
def putSpill (s : State) (part : Nat) (x : Nat × List (Byte × Bool)) : State :=
  (x.2.zipIdx).foldl (fun s y => match backKey s part ((x.1 + y.2) / 32 * 32) with
    | some k => storeAt s (k + (x.1 + y.2) % 32) 1 y.1.1.toNat y.1.2
    | none => s) s

/-- Add what an image holds to a partition that holds none of it. -/
def addImage (s : State) (first : Nat) (i : Image) : State :=
  let m : Move := { ids := s.nextId, src := i.part.first, dst := first }
  { s with
    nextId := s.nextId + i.base,
    threads := s.threads ++ i.threads.map m.thread,
    recs := s.recs ++ i.recs.map m.record,
    annexes := s.annexes ++ i.annexes.map (fun a => { a with part := first }),
    ladles := s.ladles ++ i.ladles.map m.ladle,
    entryLists := s.entryLists ++ i.entryLists.map (fun x => (m.cluster x.1, m.id x.2)),
    launches := s.launches ++ i.launches.map (fun l => { l with part := first }),
    casts := s.casts ++ i.casts.map m.cast,
    copies := s.copies ++ i.copies.map m.copy,
    runners := s.runners ++ i.runners.map m.runner,
    tileOps := s.tileOps ++ i.tileOps.map m.tileOp,
    tiles := i.tiles.map (fun t => { t with part := first, vault := m.cluster t.vault }) ++
      s.tiles.filter (fun t => !(i.tiles.any fun x => m.cluster x.vault = t.vault && x.idx = t.idx)),
    flasks := i.flasks.map m.flask ++
      s.flasks.filter (fun t => !(i.flasks.any fun x => m.cluster x.slice = t.slice && x.idx = t.idx)),
    sgs := s.sgs ++ i.sgs.map m.sg,
    accs := s.accs ++ i.accs.map m.acc,
    locks := s.locks ++ i.locks.map (fun l => { l with op := m.id l.op, part := first, slot := l.slot - m.src + m.dst }),
    deliveries := s.deliveries ++ i.deliveries.map (fun d => { d with part := first }),
    mem := i.cells.foldl (fun x c => memWrite x (m.vkey c.1) c.2) s.mem,
    poisoned := i.poisoned.map m.vkey ++ s.poisoned }

/-- What firmware has left in held records and their annexes is read before they are saved (R58, R301, R344). -/
def loadHeld (s : State) (part : Nat) : State :=
  (s.recs.filter fun r => r.part = part && r.held).foldl (fun s r =>
    let s := loadRec s r.tid
    if r.annex = 0 then s else loadAnnex s part r.annex) s

/-- The records and annexes that a restore has added to a partition, all but those of `old`, stand at their places again. -/
def putRecords (s old : State) (part : Nat) : State :=
  let s := ((s.recs.filter fun r => r.part = part && !old.recs.contains r).map (·.tid)).foldl writeRec s
  ((s.annexes.filter fun a => a.part = part && !old.annexes.contains a).map (·.ref)).foldl (fun s x => flushAnnex s part x) s

/-- Restore a partition (R344): its queue contexts, CSRs, ring position and slice come from the image. -/
def restoreWhole (s : State) (p : Part) (i : Image) : State :=
  let old := resetPart s p.first
  let s := addImage old p.first i
  let q := i.part
  let s := s.updPart p.first fun x =>
    { x with
      sbchk := q.sbchk, swin := q.swin, fspill := q.fspill, trapvec := q.trapvec, fltdone := q.fltdone, btbase := q.btbase,
      traplim := q.traplim, sglim := q.sglim, sysring := q.sysring, sysnext := q.sysnext, rechold := q.rechold,
      poolbk := q.poolbk, poolPages := q.poolPages, assayctl := q.assayctl, assaykey := q.assaykey, finj := q.finj,
      finjTid := q.finjTid, enacct := q.enacct, enpol := q.enpol, queues := q.queues, frqix := q.frqix,
      nextFid := q.nextFid, faults := q.faults, sliceVf := q.sliceVf, deficits := q.deficits, drr := q.drr,
      nextLaunch := q.nextLaunch, changed := q.changed, logs := q.logs }
  putRecords (i.spills.foldl (fun s x => putSpill s p.first x) s) old p.first

/-- New names for numbers that are taken: each of a list gets the lowest number from a start on that is free. -/
def renames (taken : List Nat) (start : Nat) : List Nat → List (Nat × Nat)
  | [] => []
  | x :: xs =>
    let y := if taken.contains x then
        (((List.range (taken.length + 1)).map (start + ·)).find? fun n => !taken.contains n).getD start
      else x
    (x, y) :: renames (y :: taken) start xs

/-- An image of one VF with its pool references and launch numbers renamed where the partition uses them already
(notes/assumptions/118.md). -/
def renameImage (s : State) (p : Part) (i : Image) : Image :=
  let used := usedRefs s p.first ++ spillRefs s p
  let refs := renames used 1 (i.recs.map (·.ref) ++ i.annexes.map (·.ref))
  let nums := renames ((s.launches.filter fun l => l.part = p.first).map (·.num)) p.nextLaunch (i.launches.map (·.num))
  let ref (x : Nat) : Nat := if x = 0 then 0 else getL refs x x
  let num (x : Nat) : Nat := getL nums x x
  { i with
    threads := i.threads.map fun t => { t with launch := num t.launch },
    recs := i.recs.map fun r => { r with ref := ref r.ref, annex := ref r.annex },
    annexes := i.annexes.map fun a => { a with ref := ref a.ref },
    launches := i.launches.map fun l => { l with num := num l.num },
    casts := i.casts.map fun c => { c with launch := num c.launch },
    copies := i.copies.map fun c => { c with launch := num c.launch },
    runners := i.runners.map fun c => { c with launch := num c.launch },
    tileOps := i.tileOps.map fun c => { c with launch := num c.launch },
    accs := i.accs.map fun a => { a with launch := num a.launch } }

/-- Restore one VF (R345): its records enter ladles when it next holds the slice. -/
def restoreVf (s : State) (p : Part) (i : Image) : State :=
  let i := renameImage s p i
  let old := s
  let s := addImage s p.first { i with entryLists := [], ladles := [] }
  putRecords (s.updPart p.first fun x =>
    { x with queues := i.part.queues ++ x.queues.filter fun q => !(i.part.queues.any fun y => y.1 = q.1) }) old p.first

/-- The status of a request that may end now, with what it does: 2 `PARTBUSY`, 3 `BADIMAGE`, 4 `TOOSMALL` (R345). -/
def pctxResult (s : State) (p : Part) : State × Nat :=
  let v := p.pctxRun
  let one := v.getLsbD 61
  let vf := bitsN v.toNat 59 56
  let ptr := p.pctxbuf.toNat
  if v.getLsbD 62 then
    match (s.dev.images.find? fun x => x.1 = ptr).map (·.2) with
    | none => (s, 3)
    | some i =>
      if !i.good || i.part.sz ≠ p.sz || (one && i.vf ≠ some vf) || (!one && i.vf.isSome) then (s, 3)
      else if one then
        if s.launches.any fun l => l.part = p.first && l.vf = vf then (s, 2) else (restoreVf s p i, 0)
      else (restoreWhole s p i, 0)
  else if one && vfHolds s p.first vf then (s, 2)
  else
    let size := Config.imageSize s.free
    let s : State := { s with free := s.free + 1 }
    let s := if bitsN v.toNat 31 0 < size then s else loadHeld s p.first
    if bitsN v.toNat 31 0 < size then (s, 4)
    else (s.updDev fun d => { d with images := setL d.images ptr (imageOf s p (if one then some vf else none) size) }, 0)

/-- Whether a request may end: the VFs it covers are pre-empted, and nothing of theirs is on its way. -/
def pctxDone (s : State) (p : Part) : Bool :=
  p.pctxRun.getLsbD 63 && vfQuiet s p.first (pctxCovers p.pctxRun) && p.preempting.isNone && !p.preqMove &&
    nothingInFlight s p.first ((vfThreads s p.first (pctxCovers p.pctxRun)).map (·.tid))

/-- `LEN` after a save is the size of the image. -/
def pctxLen (s : State) (p : Part) (st : Nat) : Nat :=
  if st = 0 ∧ !p.pctxRun.getLsbD 62 then
    (((s.dev.images.find? fun x => x.1 = p.pctxbuf.toNat).map (·.2.size)).getD 0) % 2 ^ 32
  else bitsN p.pctx.toNat 31 0

/-- A request ends (R345): its status, `GO` 0, `CMDDONE`; the VFs go on unless the image was too large. -/
def endPctx (s : State) (p : Part) : State :=
  let r := pctxResult s p
  let v := pctxWith (p.pctx &&& 0x7FFFFFFF00000000#64 ||| BitVec.ofNat 64 (pctxLen r.1 p r.2)) r.2
  let run := pctxWith (setBit p.pctxRun 63 false) r.2
  let s := raiseInt (r.1.updPart p.first fun x => { x with pctx := v, pctxRun := run }) 2
  match s.part? p.first with
  | some x =>
    if x.halts x.sliceVf then s
    else enterFired (checkWakes (startEngines s x.first x.sliceVf) x.first 8) x.first x.sliceVf
  | none => s

/-- `PCTX_COMPLETE` (R345). -/
def execPctxComplete (part : Nat) (s : State) : Outcome :=
  .next (match s.part? part with
    | some p => if pctxDone s p then endPctx s p else s
    | none => s)

end Sys2Proof.Machine
end

