-- ==== Sys2Proof/Machine/Convert.lean ====
section
/-! DEFINITION. Conversion and special functions (R228 to R233). -/

namespace Sys2Proof.Machine

/-- The lane's register as `CVT` reads it, converted; none is `FPTRAP` with the source bits of the element. -/
def cvtWord (rm pol : BitVec 2) (src tgt x : Nat) : Option Nat := cvtOne src tgt (Rm.of rm) pol.toNat x

/-- `FPTRAP` with its information (R331): the pair code, the element and the source bits. -/
def fpTrap (lane tid code element x : Nat) : LaneTrap :=
  { lane, tid, code := Trap.fptrap, info := BitVec.ofNat 64 (x + (code + element * 2 ^ 6) * 2 ^ 32), fault := none,
    store := none }

/-- The trap of a conversion of one element, in either physical lane of a visible lane (R136). -/
def cvtTrap (s : State) (lane : Nat) (t : Thread) (code element : Nat) (src : Thread → Nat)
    (f : Nat → Option Nat) : Option LaneTrap :=
  let one (u : Thread) : Option LaneTrap :=
    if (f (src u)).isNone then some (fpTrap lane t.tid code element (src u)) else none
  firstTrap [one t, (s.twinOf t).bind fun u => one (s.before u)]

/-- A conversion of one element (R231): its trap, and its result in every executing lane. -/
def convertOne (h : Hdr) (d a : Reg) (code : Nat) (src : Word → Nat) (f : Nat → Option Nat) (s : State) : State :=
  runWord h
    { chk := fun s lane t => cvtTrap s lane t code 0 (fun t => src (t.rdV s.time a)) f,
      eff := fun s => putV 4 d (fun t => BitVec.ofNat 32 ((f (src (t.rdV s.time a))).getD 0)) s } s

/-- A conversion of a pair into two elements (R229, R231). -/
def convertTwo (h : Hdr) (d : Reg) (a : PairNo) (code : Nat) (f : Nat → Option Nat) (s : State) : State :=
  runWord h
    { chk := fun s lane t =>
        firstTrap [cvtTrap s lane t code 0 (fun t => (t.rdV s.time (pairLo a)).toNat) f,
                   cvtTrap s lane t code 1 (fun t => (t.rdV s.time (pairHi a)).toNat) f],
      eff := fun s => putV 4 d (fun t =>
        BitVec.ofNat 32 ((f (t.rdV s.time (pairLo a)).toNat).getD 0 +
          (f (t.rdV s.time (pairHi a)).toNat).getD 0 * 2 ^ 16)) s } s

/-- `CVT` (R228 to R231). The source bits that `FPTRAP` reports are those of the whole register, of a narrow source too
(notes/assumptions/107.md). -/
def execCvt (h : Hdr) (d a : Reg) (rm pol : BitVec 2) (src tgt : BitVec 3) (s : State) : Outcome :=
  .next (convertOne h d a (8 * src.toNat + tgt.toNat) BitVec.toNat (cvtWord rm pol src.toNat tgt.toNat) s)

/-- `CVT.f16x2.f32x2` (R229). -/
def execCvtF16x2F32x2 (h : Hdr) (d : Reg) (a : PairNo) (rm pol : BitVec 2) (s : State) : Outcome :=
  .next (convertTwo h d a 0 (cvtWord rm pol 0 1) s)

/-- `CVT.bf16x2.f32x2` (R229). -/
def execCvtBf16x2F32x2 (h : Hdr) (d : Reg) (a : PairNo) (rm pol : BitVec 2) (s : State) : Outcome :=
  .next (convertTwo h d a 9 (cvtWord rm pol 0 2) s)

/-- `CVT.f32.f16hi` (R229). -/
def execCvtF32F16hi (h : Hdr) (d a : Reg) (rm pol : BitVec 2) (s : State) : Outcome :=
  .next (convertOne h d a 18 (fun w => bitsN w.toNat 31 16) (cvtWord rm pol 1 0) s)

/-- `CVT.f32.bf16hi` (R229). -/
def execCvtF32Bf16hi (h : Hdr) (d a : Reg) (rm pol : BitVec 2) (s : State) : Outcome :=
  .next (convertOne h d a 27 (fun w => bitsN w.toNat 31 16) (cvtWord rm pol 2 0) s)

/-- `RCP` (R232, R233). -/
def execRcp (h : Hdr) (d a : Reg) (s : State) : Outcome :=
  .next (varV h d (fun now t => BitVec.ofNat 32 (rcpF (t.rdV now a).toNat)) s)

/-- `RSQ` (R232, R233). -/
def execRsq (h : Hdr) (d a : Reg) (s : State) : Outcome :=
  .next (varV h d (fun now t => BitVec.ofNat 32 (rsqF (t.rdV now a).toNat)) s)

/-- `SQRT` (R232, R233). -/
def execSqrt (h : Hdr) (d a : Reg) (s : State) : Outcome :=
  .next (varV h d (fun now t => BitVec.ofNat 32 (sqrtF (t.rdV now a).toNat)) s)

/-- `EXP2` (R232, R233). -/
def execExp2 (h : Hdr) (d a : Reg) (s : State) : Outcome :=
  .next (varV h d (fun now t => BitVec.ofNat 32 (exp2F (t.rdV now a).toNat)) s)

/-- `LOG2` (R232, R233). -/
def execLog2 (h : Hdr) (d a : Reg) (s : State) : Outcome :=
  .next (varV h d (fun now t => BitVec.ofNat 32 (log2F (t.rdV now a).toNat)) s)

/-- `SIN` (R232, R233). -/
def execSin (h : Hdr) (d a : Reg) (s : State) : Outcome :=
  .next (varV h d (fun now t => BitVec.ofNat 32 (trigF 5 0 (t.rdV now a).toNat)) s)

/-- `COS` (R232, R233). -/
def execCos (h : Hdr) (d a : Reg) (s : State) : Outcome :=
  .next (varV h d (fun now t => BitVec.ofNat 32 (trigF 6 0x3F800000 (t.rdV now a).toNat)) s)

/-- `TANH` (R232, R233). -/
def execTanh (h : Hdr) (d a : Reg) (s : State) : Outcome :=
  .next (varV h d (fun now t => BitVec.ofNat 32 (tanhF (t.rdV now a).toNat)) s)

end Sys2Proof.Machine
end

