-- ==== Sys2Proof/Machine/Fence.lean ====
section
/-! DEFINITION. Fences and tokens (R214 to R218). -/

namespace Sys2Proof.Machine

/-- A fence token (R214). -/
def fenceToken (scope : Nat) (f : BitVec 24) : Word := BitVec.ofNat 32 (scope * 2 ^ 30 + f.toNat)

/-- `FENCE` (R215): the counter advances and the token names it. -/
def fenceWord (h : Hdr) (scope : Nat) (d : Reg) (s : State) : State :=
  runWord h
    { eff := fun s =>
        (sendResult (fun t => [(.v d, fenceToken scope { t with fence := t.fence + 1 }.fenceF)]) s).eachThread
          fun _ t => { t with fence := t.fence + 1 } } s

/-- The key of a wait for the accesses of a scope before a fence (R48, R216). -/
def fenceKey (scope num : Nat) : Nat := 1 + 2 * scope + 8 + 16 * num

/-- The wait of a `FENCEW` (R215): that of an `FWAIT` on the token of its fence, whose number is the next one. -/
def fencewWait (scope : Nat) (s : State) : Option Wait :=
  if s.cur.lanes.all fun x => s.scopeDone x.2 scope then none
  else
    let ks := s.cur.lanes.filterMap fun x => (s.before? x.2).map fun t =>
      (x.1, fenceKey scope ({ t with fence := t.fence + 1 } : Thread).fenceF.toNat)
    some { wtype := 1, key := (ks.head?.map (·.2)).getD (fenceKey scope 0), keys := ks }

/-- `FENCEW` (R215, R217): a fence and the wait on it; the wait asks for the same accesses at every try. -/
def fencewWord (h : Hdr) (scope : Nat) (s : State) : State :=
  runWord h
    { chk := fun s lane t => defTrap s lane t (s.accsOf t.tid scope),
      wait := fencewWait scope,
      eff := fun s => s.eachThread fun b t => { t.acked (s.accsOf b.owner scope) with fence := t.fence + 1 } } s

/-- Scope and number of a token (R214). -/
def tokenScope (w : Word) : Nat := min (bitsN w.toNat 31 30) 2
def tokenNum (w : Word) : Nat := bitsN w.toNat 23 0
/-- The key of a wait on a token (R48, R216). -/
def tokenKey (w : Word) : Nat := fenceKey (tokenScope w) (tokenNum w)

/-- `FENCE.vault` (R215). -/
def execFenceVault (h : Hdr) (d : Reg) (s : State) : Outcome :=
  .next (fenceWord h 0 d s)

/-- `FENCE.part` (R215). -/
def execFencePart (h : Hdr) (d : Reg) (s : State) : Outcome :=
  .next (fenceWord h 1 d s)

/-- `FENCE.sys` (R215). -/
def execFenceSys (h : Hdr) (d : Reg) (s : State) : Outcome :=
  .next (fenceWord h 2 d s)

/-- `FENCEW.vault` (R215). -/
def execFencewVault (h : Hdr) (s : State) : Outcome :=
  .next (fencewWord h 0 s)

/-- `FENCEW.part` (R215). -/
def execFencewPart (h : Hdr) (s : State) : Outcome :=
  .next (fencewWord h 1 s)

/-- `FENCEW.sys` (R215). -/
def execFencewSys (h : Hdr) (s : State) : Outcome :=
  .next (fencewWord h 2 s)

/-- `FWAIT` (R216 to R218). -/
def execFwait (h : Hdr) (a : Reg) (s : State) : Outcome :=
  .next (runWord h
    { chk := fun s lane t =>
        let w := t.rdV s.time a
        firstTrap [protectIf (fun t => t.rdV s.time a) s lane t,
          defTrap s lane t (s.covered t.tid (tokenScope w) (tokenNum w))],
      wait := fun s =>
        let ks := s.cur.lanes.filterMap fun x => (s.before? x.2).map fun t => (x.1, x.2, t.rdV s.time a)
        if ks.all fun k => s.coveredDone k.2.1 (tokenScope k.2.2) (tokenNum k.2.2) then none
        else some { wtype := 1, key := tokenKey ((ks.head?.map fun k => k.2.2).getD 0),
                    keys := ks.map fun k => (k.1, tokenKey k.2.2) },
      eff := fun s => s.eachThread fun b t =>
        let w := b.rdV s.time a
        t.acked (s.covered b.owner (tokenScope w) (tokenNum w)) } s)

end Sys2Proof.Machine
end

