-- ==== Sys2Proof/Machine/Flask.lean ====
section
/-! DEFINITION. Flasks at their homes (R278 to R288, R304): creation, membership, phases and results. -/

namespace Sys2Proof.Machine

/-! ### Homes and handles (R278 to R280) -/

def flaskHomes (p : Part) : Nat := min 16 (2 ^ p.sz)
/-- The entries of one home. -/
def homeEntries (p : Part) : Nat := 1024 * 2 ^ p.sz / flaskHomes p
/-- The L2 slice at which a home lies (R278). -/
def flaskSlice (p : Part) (h : Nat) : Nat := 2 * (p.first + h * (2 ^ p.sz / flaskHomes p))
/-- The home of a name. -/
def nameHome (p : Part) (n : DWord) : Nat :=
  ((n.extractLsb' 0 16) ^^^ (n.extractLsb' 16 16) ^^^ (n.extractLsb' 32 16) ^^^ (n.extractLsb' 48 16)).toNat % flaskHomes p
/-- `LIMIT` as it acts. -/
def flaskLimit (p : Part) : Nat :=
  if p.sglim.toNat = 0 ∨ 1024 * 2 ^ p.sz < p.sglim.toNat then 1024 * 2 ^ p.sz else p.sglim.toNat
def liveFlasks (s : State) (part : Nat) : Nat := s.flasks.countP fun f => f.part = part && f.live

def Flask.handle (f : Flask) : Word := BitVec.ofNat 32 (f.gen + f.idx * 2 ^ 12 + f.home * 2 ^ 28)

/-- The live flask of a handle. -/
def flaskOf (s : State) (part : Nat) (h : Word) : Option Flask :=
  (s.flask? part (bitsN h.toNat 31 28) (bitsN h.toNat 27 12)).bind fun f =>
    if f.live ∧ f.gen = bitsN h.toNat 11 0 then some f else none

/-- The live flask of a name. -/
def flaskNamed (s : State) (part : Nat) (n : DWord) : Option Flask :=
  s.flasks.find? fun f => f.part = part && f.live && f.name = n

def putFlask (s : State) (f : Flask) : State :=
  { s with flasks := f :: s.flasks.filter fun x => !(x.slice = f.slice && x.idx = f.idx) }

def Flask.hasMember (f : Flask) (w : Who) : Bool := f.members.any fun m => m.who = w

/-- A new flask in the free entry of lowest index (R282, R304); none where the limit or the home is full. -/
def makeFlask (s : State) (p : Part) (n : DWord) : Option Flask :=
  let home := nameHome p n
  let slice := flaskSlice p home
  if flaskLimit p ≤ liveFlasks s p.first then none
  else
    ((List.range (homeEntries p)).find? fun i => (s.flask? p.first home i).isNone).map fun i =>
      { part := p.first, home, idx := i, live := true, name := n, slice,
        gen := ((s.flasks.find? fun x => x.slice = slice && x.idx = i).map Flask.gen).getD 1,
        members := [], phase := 0, isOpen := false, expect := 0, op := 0, arrived := [], held := [], mix := false,
        faultMark := false, dropMark := false }

/-! ### Results (R285) -/

/-- The values contributed under the phase's operation. -/
def contributions (f : Flask) : List Word := (f.arrived.filter fun a => a.fn = f.op).map (·.value)

/-- The result of a phase. -/
def phaseResult (f : Flask) : Word :=
  let xs := contributions f
  let ns := xs.map BitVec.toNat
  match f.op with
  | 3 => BitVec.ofNat 32 (f.phase % 2 ^ 28)
  | 4 => if xs.any fun x => x = 1 then 1 else 0
  | 5 => if xs.all fun x => x = 1 then 1 else 0
  | 6 => BitVec.ofNat 32 (xs.countP fun x => x = 1)
  | 7 => xs.foldl (· + ·) 0
  | 8 => BitVec.ofNat 32 (sumF32 ns)
  | 9 => (xs.drop 1).foldl (fun m x => if x.slt m then x else m) (xs.headD 0)
  | 10 => (xs.drop 1).foldl (fun m x => if m.slt x then x else m) (xs.headD 0)
  | 11 => BitVec.ofNat 32 ((ns.drop 1).foldl fp32.minF (if (ns.headD 0) |> fp32.isNaN then fp32.nan else ns.headD 0))
  | _ => BitVec.ofNat 32 ((ns.drop 1).foldl fp32.maxF (if (ns.headD 0) |> fp32.isNaN then fp32.nan else ns.headD 0))

/-- The status bits of a delivery (R287). -/
def phaseStatus (f : Flask) : Nat := boolBit f.faultMark + 4 * boolBit f.mix
/-- `STALE` (R287). -/
def staleStatus : Nat := 2

/-! ### Phases (R285) -/

/-- An arrival is counted in the present phase, which it may open. -/
def countArrival (f : Flask) (a : Arrival) : Flask :=
  if f.isOpen then { f with arrived := f.arrived ++ [a], mix := f.mix || a.fn != f.op }
  else { f with isOpen := true, expect := f.members.countP fun m => decide (m.fromPhase ≤ f.phase), arrived := [a],
                op := a.fn, mix := false }

/-- The results of a completed phase are on their way. -/
def sendResults (s : State) (f : Flask) : State :=
  let v := phaseResult f
  let st := phaseStatus f
  { s with sgs := s.sgs.map fun g =>
      if f.arrived.any fun a => a.id = g.id then { g with stage := .result v st f.phase } else g }

/-- Complete phases while every expected member has arrived; held arrivals are applied in order. -/
def settleFlask (s : State) (f : Flask) : Nat → State × Flask
  | 0 => (s, f)
  | n + 1 =>
    if f.isOpen ∧ f.arrived.length = f.expect then
      let s := sendResults s f
      let f' : Flask :=
        { f with phase := f.phase + 1, isOpen := false, expect := 0, arrived := [], held := [], mix := false, faultMark := false }
      settleFlask s (f.held.foldl countArrival f') n
    else (s, f)

/-- Store a flask after an operation: phases complete, and a dropped flask without members is destroyed (R283, R287). -/
def storeFlask (s : State) (f : Flask) : State :=
  let (s, f) := settleFlask s f (f.held.length + 2)
  if f.dropMark && f.members.isEmpty then
    let h := f.handle
    let stale (g : SgReq) : SgReq :=
      match g.kind, g.stage with
      | .arrive x _ _ _, .validated ph => if g.part = f.part ∧ x = h then { g with stage := .result 0 staleStatus ph } else g
      | .arrive x _ _ _, .departed ph => if g.part = f.part ∧ x = h then { g with stage := .result 0 staleStatus ph } else g
      | .arrive x _ _ _, .counted ph => if g.part = f.part ∧ x = h then { g with stage := .result 0 staleStatus ph } else g
      | _, _ => g
    putFlask { s with sgs := s.sgs.map stale } (destroyFlask f)
  else putFlask s f

/-! ### Membership (R282, R283, R286) -/

/-- A thread joins a flask: its handle, none where it may not (R282). -/
def joinFlask (s : State) (f : Flask) (w : Who) : State × Word × Bool :=
  if f.dropMark || f.hasMember w then (s, 0, false)
  else
    let m : Member := { who := w, fromPhase := if f.isOpen then f.phase + 1 else f.phase }
    (putFlask s { f with members := f.members ++ [m] }, f.handle, true)

/-- A member leaves (R286): what it leaves of the phase, a fault mark after a kill, a drop mark. -/
def leaveFlask (s : State) (f : Flask) (w : Who) (killed drop : Bool) : State :=
  match f.members.find? fun m => m.who = w with
  | none => s
  | some m =>
    let owed := f.isOpen && decide (m.fromPhase ≤ f.phase) && !(f.arrived.any fun a => a.who = w)
    let lost := f.held.filter fun a => a.who = w
    let s : State := { s with
      sgs := lost.foldl (fun l a =>
        updL (fun g => g.id = a.id) (fun g => { g with stage := .result 0 staleStatus a.phase }) l) s.sgs }
    storeFlask s { f with
      members := f.members.filter (fun x => x.who ≠ w), expect := if owed then f.expect - 1 else f.expect,
      held := f.held.filter (fun a => a.who ≠ w), faultMark := f.faultMark || killed, dropMark := f.dropMark || drop }

/-- The phase that validation gives an arrival (R284): the open one if the member is counted in it, else the next to
open. -/
def arrivalPhase (f : Flask) (w : Who) : Nat :=
  if f.isOpen ∧ !(f.members.any fun m => m.who = w && decide (m.fromPhase ≤ f.phase)) then f.phase + 1 else f.phase

/-- An arrival reaches the home (R285): it is counted, held for a later phase, or, of a thread that is no member any more,
dropped. -/
def arriveFlask (s : State) (f : Flask) (a : Arrival) : State :=
  if !f.hasMember a.who then s
  else if a.phase ≤ f.phase then storeFlask s (countArrival f a)
  else putFlask s { f with held := f.held ++ [a] }

/-- What `SGSTAT` reads (R288). -/
def flaskStat (f : Flask) (sel : Nat) : Word :=
  match sel with
  | 0 => f.handle
  | 1 => BitVec.ofNat 32 f.members.length
  | 2 => BitVec.ofNat 32 (packBits [(28, f.phase), (1, boolBit f.isOpen), (1, boolBit f.faultMark), (1, boolBit f.dropMark)])
  | _ => BitVec.ofNat 32 (if f.isOpen then f.arrived.length else 0)

end Sys2Proof.Machine
end

