-- ==== Sys2Proof/Machine/Sg.lean ====
section
/-! DEFINITION. The SG words (R272, R273, R282 to R284, R288): requests to the flask homes and the groups that wait for
them. -/

namespace Sys2Proof.Machine

/-! ### Requests -/

/-- A handle register of an SG word. -/
def hreg (a : Reg) : BitVec 3 := a.extractLsb' 0 3

/-- Send a request of a thread to the home of a flask. -/
def sendSg (s : State) (t : Thread) (k : SgKind) (st : SgStage) : State :=
  let g : SgReq := { id := s.nextId, part := t.part, tid := t.tid, who := t.who, kind := k, stage := st, seq := s.nextId }
  { s.bumpId with sgs := s.sgs ++ [g] }

/-- Do something for every active lane's thread in ascending order. -/
def eachLane (f : State → Nat → Thread → State) (s : State) : State :=
  s.cur.lanes.foldl (fun s x => match s.before? x.2 with
    | some t => f s x.1 t
    | none => s) s

/-- The checks of an SG word: `ASSAYVIOL` and `PROTECT` (R272). -/
def sgChk {α : Type} [DecidableEq α] (f : Nat → Thread → α) (s : State) (lane : Nat) (t : Thread) : Option LaneTrap :=
  if s.ctlHere then none else firstTrap [assayIf s lane t, protectIf (f s.time) s lane t]

/-! ### `SGNEW`, `SGJOIN` (R282) -/

/-- A request for membership; those of one word bear one `seq`, and are performed in ascending lane: a lane whose handle register is not null gets p 0 and no request. -/
def enterWord (h : Hdr) (d : Reg) (p : PredNo) (k : Nat → Thread → SgKind) (s : State) : State :=
  runWord h
    { chk := sgChk k,
      eff := fun s =>
        if s.ctlHere then
          s.eachThread fun _ t => (t.setH (hreg d) 0).setP p false
        else
          let first := s.nextId
          let s := eachLane (fun s _ t =>
            let old := t.rdH (hreg d)
            sendSg s t (k s.time t) (if old = 0 then .sent else .reply old false)) s
          let s : State := { s with sgs := updL (fun g => decide (first ≤ g.id)) (fun g => { g with seq := first }) s.sgs }
          s.eachThread fun _ t => (t.pend (.h (hreg d))).pend (.p p) } s

/-- `SGNEW` (R282). -/
def execSgnew (h : Hdr) (d : Reg) (a : PairNo) (p : PredNo) (s : State) : Outcome :=
  .next (enterWord h d p (fun now t => .new (t.rdW now a) (hreg d) p) s)

/-- `SGJOIN` by name (R282). -/
def execSgjoin (h : Hdr) (d : Reg) (a : PairNo) (p : PredNo) (s : State) : Outcome :=
  .next (enterWord h d p (fun now t => .join (t.rdW now a) (hreg d) p) s)

/-- `SGJOIN.h` (R282). -/
def execSgjoinH (h : Hdr) (d a : Reg) (p : PredNo) (s : State) : Outcome :=
  .next (enterWord h d p (fun now t => .joinH (t.rdV now a) (hreg d) p) s)

/-! ### Words that wait for the home's answer (R283, R284) -/

/-- A request of a thread that has not issued yet. -/
def waitingSg (s : State) (tid : Nat) (k : SgKind → Bool) : Option SgReq :=
  s.sgs.find? fun g => g.tid = tid && k g.kind &&
    match g.stage with
    | .sent => true
    | .reply _ _ => true
    | .returned _ => true
    | .stale => true
    | _ => false

/-- Whether the answer to a thread's request is back. -/
def sgBack (s : State) (tid : Nat) (k : SgKind → Bool) : Bool :=
  (waitingSg s tid k).any fun g => match g.stage with
    | .returned _ => true
    | _ => false

/-- `STALEHANDLE` of a null handle, or of one that the home found stale. -/
def nullTrap (a : Reg) (s : State) (lane : Nat) (t : Thread) : Option LaneTrap :=
  if s.ctlHere ∨ t.rdH (hreg a) = 0 ∨ (s.sgs.any fun g => g.tid = t.tid && g.stage = .stale) then some (handleTrap s lane t.tid Trap.stalehandle (t.rdH (hreg a))) else none

def SgKind.isLeave : SgKind → Bool
  | .leave _ _ => true
  | .drop _ _ => true
  | _ => false

def SgKind.isArrive : SgKind → Bool
  | .arrive _ _ _ _ => true
  | _ => false

/-- Send the request of every lane that has none under way. -/
def askHome (is : SgKind → Bool) (k : Nat → Thread → SgKind) (s : State) : State :=
  eachLane (fun s _ t => if (waitingSg s t.tid is).isSome then s else sendSg s t (k s.time t) .sent) s

/-- Forget the answered requests of the active lanes. -/
def dropSg (is : SgKind → Bool) (s : State) : State :=
  { s with sgs := s.sgs.filter fun g =>
      !(is g.kind && (s.cur.lanes.any fun x => x.2 = g.tid) && (match g.stage with | .returned _ => true | _ => false)) }

/-- `SGLEAVE` and `SGDROP`: the home removes the member before the word issues, which clears the register. -/
def leaveWord (h : Hdr) (a : Reg) (k : Nat → Thread → SgKind) (s : State) : State :=
  runWord h
    { chk := fun s lane t =>
        firstTrap [sgChk (fun _ t => t.rdH (hreg a)) s lane t, nullTrap a s lane t],
      pre := askHome SgKind.isLeave k,
      wait := fun s => if s.cur.lanes.all fun x => sgBack s x.2 SgKind.isLeave then none else some homeWait,
      eff := fun s => (dropSg SgKind.isLeave s).eachThread fun _ t => t.setH (hreg a) 0 } s

/-- `SGLEAVE` (R283). -/
def execSgleave (h : Hdr) (a : Reg) (s : State) : Outcome :=
  .next (leaveWord h a (fun _ t => .leave (t.rdH (hreg a)) (hreg a)) s)

/-- `SGDROP` (R283). -/
def execSgdrop (h : Hdr) (a : Reg) (s : State) : Outcome :=
  .next (leaveWord h a (fun _ t => .drop (t.rdH (hreg a)) (hreg a)) s)

/-! ### Arrivals (R284) -/

/-- The key of a wait on an arrival (R48). -/
def arrivalKey (h : Word) (g : SgReq) : Nat :=
  h.toNat + 2 ^ 32 * (match g.stage with
    | .validated p => p % 2 ^ 28
    | .departed p => p % 2 ^ 28
    | .counted p => p % 2 ^ 28
    | .result _ _ p => p % 2 ^ 28
    | _ => 0)

/-- Validation of every lane that has no earlier arrival under way. -/
def validateLanes (fn : Nat) (d a : Reg) (s : State) : State :=
  eachLane (fun s _ t =>
    let h := t.rdH (hreg a)
    if (s.pendingArrival t.tid h).isSome ∨ (waitingSg s t.tid SgKind.isArrive).isSome then s
    else sendSg s t (.arrive h fn 0 d) .sent) s

/-- An arrival waits for an earlier one on the same flask, then for its validation. -/
def arriveWait (a : Reg) (s : State) : Option Wait :=
  let early := s.cur.lanes.filterMap fun x => (s.before? x.2).bind fun t =>
    (s.pendingArrival t.tid (t.rdH (hreg a))).map fun g => (x.1, arrivalKey (t.rdH (hreg a)) g)
  match early with
  | k :: _ => some { wtype := 3, key := k.2, keys := early }
  | [] => if s.cur.lanes.all fun x => sgBack s x.2 SgKind.isArrive then none else some homeWait

/-- A lane's arrival is issued: it takes its contribution and its place in the thread's order. -/
def issueArrival (value : Nat → Thread → Word) (s : State) (t : Thread) : State :=
  match waitingSg s t.tid SgKind.isArrive with
  | none => s
  | some g =>
    let kind := match g.kind with
      | .arrive h fn _ d => .arrive h fn (value s.time t) d
      | k => k
    let ph := match g.stage with
      | .returned ph => ph
      | _ => 0
    s.bumpId.updSg g.id fun g => { g with kind, stage := .validated ph, seq := s.nextId }

/-- `SGBAR`, `SGVOTE`, `SGRED` (R284). -/
def arriveWord (h : Hdr) (fn : Nat) (d a : Reg) (value : Nat → Thread → Word) (s : State) : State :=
  runWord h
    { chk := fun s lane t =>
        firstTrap [sgChk (fun now t => (t.rdH (hreg a), value now t)) s lane t, nullTrap a s lane t],
      pre := validateLanes fn d a,
      wait := arriveWait a,
      eff := fun s =>
        (eachLane (fun s _ t => issueArrival value s t) s).eachThread fun _ t => t.pend (.v d) } s

/-- A predicate as a contribution. -/
def voteOf (b : PredNo) (now : Nat) (t : Thread) : Word := b2w (t.rdP now b)

/-- `SGBAR` (R284). -/
def execSgbar (h : Hdr) (d a : Reg) (s : State) : Outcome := .next (arriveWord h 3 d a (fun _ _ => 0) s)

/-- `SGVOTE.any` (R284). -/
def execSgvoteAny (h : Hdr) (d a : Reg) (b : PredNo) (s : State) : Outcome := .next (arriveWord h 4 d a (voteOf b) s)

/-- `SGVOTE.all` (R284). -/
def execSgvoteAll (h : Hdr) (d a : Reg) (b : PredNo) (s : State) : Outcome := .next (arriveWord h 5 d a (voteOf b) s)

/-- `SGVOTE.cnt` (R284). -/
def execSgvoteCnt (h : Hdr) (d a : Reg) (b : PredNo) (s : State) : Outcome := .next (arriveWord h 6 d a (voteOf b) s)

/-- `SGRED.add.i32` (R284). -/
def execSgredAddI32 (h : Hdr) (d a b : Reg) (s : State) : Outcome :=
  .next (arriveWord h 7 d a (fun now t => t.rdV now b) s)

/-- `SGRED.add.f32` (R284). -/
def execSgredAddF32 (h : Hdr) (d a b : Reg) (s : State) : Outcome :=
  .next (arriveWord h 8 d a (fun now t => t.rdV now b) s)

/-- `SGRED.min.i32` (R284). -/
def execSgredMinI32 (h : Hdr) (d a b : Reg) (s : State) : Outcome :=
  .next (arriveWord h 9 d a (fun now t => t.rdV now b) s)

/-- `SGRED.max.i32` (R284). -/
def execSgredMaxI32 (h : Hdr) (d a b : Reg) (s : State) : Outcome :=
  .next (arriveWord h 10 d a (fun now t => t.rdV now b) s)

/-- `SGRED.min.f32` (R284). -/
def execSgredMinF32 (h : Hdr) (d a b : Reg) (s : State) : Outcome :=
  .next (arriveWord h 11 d a (fun now t => t.rdV now b) s)

/-- `SGRED.max.f32` (R284). -/
def execSgredMaxF32 (h : Hdr) (d a b : Reg) (s : State) : Outcome :=
  .next (arriveWord h 12 d a (fun now t => t.rdV now b) s)

/-! ### `SGSTAT` (R288) -/

/-- `SGSTAT` (R273, R288). -/
def execSgstat (h : Hdr) (d a : Reg) (sel : BitVec 2) (s : State) : Outcome :=
  .next (runWord h
    { chk := sgChk (fun _ t => t.rdH (hreg a)),
      eff := fun s =>
        if s.ctlHere then sendResult (fun _ => [(.v d, 0)]) s
        else
          (eachLane (fun s _ t => sendSg s t (.stat (t.rdH (hreg a)) sel.toNat d) .sent) s).eachThread
            fun _ t => t.pend (.v d) } s)

end Sys2Proof.Machine
end

