-- ==== Sys2Proof/Machine/FlaskEvents.lean ====
section
/-! DEFINITION. The events of state buffers and flasks: requests performed at their homes, replies, validations,
departures and results (R254, R271, R282 to R288). -/

namespace Sys2Proof.Machine

/-! ### State operations (R252, R254, R271) -/

/-- Whether a state operation may be performed: none of its threads has an earlier one of the buffer on its way. -/
def bufOpReady (s : State) (b : BufOp) : Bool :=
  b.stage = .sent && !(s.bufOps.any fun x => x.part = b.part && x.buf = b.buf && x.stage = .sent &&
    x.order.any fun y => b.order.any fun z => z.1 = y.1 && decide (y.2 < z.2))

/-- The home performs a state operation or refuses it. -/
def answerBufOp (s : State) (b : BufOp) : State :=
  let mark (s : State) (st : BufOpStage) : State :=
    { s with bufOps := updL (fun x => x.id = b.id) (fun x => { x with stage := st }) s.bufOps }
  let s := bufOpTouch s b
  match performBufOp s b with
  | .ok (s', counted) => mark s' (.performed counted)
  | .error c => mark s (.refused c)

/-- `BUFFER_STATE_OP` (R254, R271). -/
def execBufferStateOp (id : Nat) (s : State) : Outcome :=
  .next (match s.bufOps.find? fun b => b.id = id with
    | some b => if bufOpReady s b then answerBufOp s b else s
    | none => s)

/-! ### Requests at a flask's home (R282, R283, R286, R288) -/

/-- Whether a request for membership. -/
def SgKind.enters : SgKind → Bool
  | .new _ _ _ => true
  | .join _ _ _ => true
  | .joinH _ _ _ => true
  | _ => false

/-- The departure of an ended thread of the same name, which comes before its next membership. -/
def oldMember (s : State) (g : SgReq) : Bool :=
  s.sgs.any fun x => x.part = g.part && x.who = g.who &&
    match x.kind with
    | .gone _ _ => true
    | _ => false

/-- Whether a request stands before its home: one of a word's memberships only after those of its lower lanes. -/
def homeReady (s : State) (g : SgReq) : Bool :=
  match g.kind, g.stage with
  | .arrive _ _ _ _, .departed _ => true
  | .arrive _ _ _ _, _ => false
  | k, .sent =>
    !k.enters || (!(s.sgs.any fun x => x.kind.enters && x.seq = g.seq && decide (x.id < g.id) && x.stage = .sent) &&
      !oldMember s g)
  | _, _ => false

def dropReq (s : State) (id : Nat) : State := { s with sgs := s.sgs.filter fun g => g.id ≠ id }
def stageReq (s : State) (id : Nat) (st : SgStage) : State := s.updSg id fun g => { g with stage := st }

/-- A join of a flask, if there is one (R282). -/
def joinReq (s : State) (g : SgReq) : Option Flask → State
  | none => stageReq s g.id (.reply 0 false)
  | some f =>
    let r := joinFlask s f g.who
    stageReq r.1 g.id (.reply r.2.1 r.2.2)

/-- The flask that `SGNEW` joins: the live one of the name, or a new one. -/
def newReq (s : State) (g : SgReq) (n : DWord) : State :=
  match flaskNamed s g.part n with
  | some f => joinReq s g (some f)
  | none =>
    match (s.part? g.part).bind fun p => makeFlask s p n with
    | some f => joinReq (putFlask s f) g (some f)
    | none => joinReq s g none

/-- A member leaves by `SGLEAVE` or `SGDROP`, or its handle is stale (R283). -/
def leaveReq (s : State) (g : SgReq) (h : Word) (drop : Bool) : State :=
  match flaskOf s g.part h with
  | some f => stageReq (leaveFlask s f g.who false drop) g.id (.returned 0)
  | none => stageReq s g.id .stale

/-- What `SGSTAT` found is on its way (R288). -/
def statReq (s : State) (g : SgReq) (h : Word) (sel : Nat) (d : Reg) : State :=
  let v := ((flaskOf s g.part h).map fun f => flaskStat f sel).getD 0
  let s := dropReq s g.id
  { s.bumpId with results := s.results ++ [{ id := s.nextId, tid := g.tid, writes := [(.v d, v)] }] }

/-- An arrival reaches the home (R285, R287). -/
def arriveReq (s : State) (g : SgReq) (h : Word) (fn : Nat) (v : Word) (d : Reg) (ph : Nat) : State :=
  match flaskOf s g.part h with
  | none => stageReq s g.id (.result 0 staleStatus ph)
  | some f =>
    if f.hasMember g.who then
      arriveFlask (stageReq s g.id (.counted ph)) f
        { id := g.id, tid := g.tid, who := g.who, phase := ph, fn, value := v, dst := d }
    else stageReq s g.id (.result 0 staleStatus ph)

/-- An ended member departs (R286). -/
def goneReq (s : State) (g : SgReq) (h : Word) (killed : Bool) : State :=
  let s := dropReq s g.id
  match flaskOf s g.part h with
  | some f => leaveFlask s f g.who killed false
  | none => s

/-- The home performs a request; one for membership of an ended thread has no effect. -/
def answerReq (s : State) (g : SgReq) : State :=
  if g.kind.enters && (s.thread? g.tid).isNone then dropReq s g.id
  else match g.kind, g.stage with
  | .new n _ _, _ => newReq s g n
  | .join n _ _, _ => joinReq s g (flaskNamed s g.part n)
  | .joinH h _ _, _ => joinReq s g (flaskOf s g.part h)
  | .leave h _, _ => leaveReq s g h false
  | .drop h _, _ => leaveReq s g h true
  | .stat h sel d, _ => statReq s g h sel d
  | .arrive h fn v d, .departed ph => arriveReq s g h fn v d ph
  | .gone h killed, _ => goneReq s g h killed
  | _, _ => s

/-- `SG_HOME_REQUEST` (R282, R283, R285, R286, R288). -/
def execSgHomeRequest (id : Nat) (s : State) : Outcome :=
  .next (match s.sg? id with
    | some g => if homeReady s g then answerReq s g else s
    | none => s)

/-! ### Replies (R282) -/

/-- The registers of a membership. -/
def SgKind.regs : SgKind → Option (BitVec 3 × BitVec 3)
  | .new _ h p => some (h, p)
  | .join _ h p => some (h, p)
  | .joinH _ h p => some (h, p)
  | _ => none

/-- What a reply writes. -/
def replyWrites (g : SgReq) : Option (List (RegRef × Word)) :=
  match g.kind.regs, g.stage with
  | some (h, p), .reply x ok => some [(.h h, x), (.p p, b2w ok)]
  | _, _ => none

/-- `SG_REPLY` (R282): h(d) and pd are written. -/
def execSgReply (id : Nat) (s : State) : Outcome :=
  .next (match s.sg? id with
    | some g => match replyWrites g with
      | some ws => checkWake (deliverRec (dropReq s id) g.tid ws) g.tid
      | none => s
    | none => s)

/-! ### Arrivals (R284, R287) -/

/-- Whether an arrival stands before its validation. -/
def validateReady (g : SgReq) : Bool := g.kind.isArrive && g.stage = .sent

/-- The handle of an arrival. -/
def SgKind.handleOf : SgKind → Word
  | .arrive h _ _ _ => h
  | _ => 0

/-- `ARRIVAL_VALIDATION` (R284 step 1): the phase of the arrival, or a stale handle. -/
def execArrivalValidation (id : Nat) (s : State) : Outcome :=
  .next (match s.sg? id with
    | some g =>
      if !validateReady g then s
      else if (s.thread? g.tid).isNone then dropReq s id
      else match flaskOf s g.part g.kind.handleOf with
        | some f => stageReq s id (.returned (arrivalPhase f g.who))
        | none => stageReq s id .stale
    | none => s)

/-- The phase of an issued arrival whose thread's earlier accesses in scope `part` are complete (R284 step 4). -/
def departPhase (s : State) (g : SgReq) : Option Nat :=
  match g.kind, g.stage with
  | .arrive _ _ _ _, .validated ph =>
    if (s.accsOf g.tid 1).all fun a => decide (g.seq ≤ a.seq) || a.complete s.time then some ph else none
  | _, _ => none

/-- `SG_ARRIVAL_DEPART` (R284). -/
def execSgArrivalDepart (id : Nat) (s : State) : Outcome :=
  .next (match s.sg? id with
    | some g => match departPhase s g with
      | some ph => stageReq s id (.departed ph)
      | none => s
    | none => s)

/-- What an arrival's result is: register, value and status. -/
def resultOf (g : SgReq) : Option (Reg × Word × Nat) :=
  match g.kind, g.stage with
  | .arrive _ _ _ d, .result v st _ => some (d, v, st)
  | _, _ => none

/-- A result reaches its thread (R284 step 5, R287): vd, `sr.wakest`, and the wake that waited for it. -/
def giveResult (s : State) (g : SgReq) (d : Reg) (v : Word) (st : Nat) : State :=
  let s := deliverRec (dropReq s g.id) g.tid [(.v d, v)]
  checkWake (s.updBoth g.tid fun t => { t with wakest := BitVec.ofNat 32 (3 + st * 2 ^ 8) }) g.tid

/-- `SG_RESULT` (R287). -/
def execSgResult (id : Nat) (s : State) : Outcome :=
  .next (match s.sg? id with
    | some g => match resultOf g with
      | some (d, v, st) => giveResult s g d v st
      | none => s
    | none => s)

end Sys2Proof.Machine
end

