-- ==== Sys2Proof/Machine/Float.lean ====
section
/-! DEFINITION. Floating-point arithmetic (R223 to R227). -/

namespace Sys2Proof.Machine

/-- `FADD` (R223). -/
def execFadd (h : Hdr) (d a b : Reg) (s : State) : Outcome :=
  .next (alu2 h 4 d a b (onWords fp32.add) s)

/-- `FSUB` (R223). -/
def execFsub (h : Hdr) (d a b : Reg) (s : State) : Outcome :=
  .next (alu2 h 4 d a b (onWords fp32.sub) s)

/-- `FMUL` (R223). -/
def execFmul (h : Hdr) (d a b : Reg) (s : State) : Outcome :=
  .next (alu2 h 4 d a b (onWords fp32.mul) s)

/-- `FMIN` (R223). -/
def execFmin (h : Hdr) (d a b : Reg) (s : State) : Outcome :=
  .next (alu2 h 4 d a b (onWords fp32.minF) s)

/-- `FMAX` (R223). -/
def execFmax (h : Hdr) (d a b : Reg) (s : State) : Outcome :=
  .next (alu2 h 4 d a b (onWords fp32.maxF) s)

/-- `FABS` (R223). -/
def execFabs (h : Hdr) (d a : Reg) (s : State) : Outcome :=
  .next (alu1 h 4 d a (fun x => x &&& 0x7FFFFFFF) s)

/-- `FNEG` (R223). -/
def execFneg (h : Hdr) (d a : Reg) (s : State) : Outcome :=
  .next (alu1 h 4 d a (fun x => x ^^^ 0x80000000) s)

/-- `FCPS` (R223). -/
def execFcps (h : Hdr) (d a b : Reg) (s : State) : Outcome :=
  .next (alu2 h 4 d a b (fun x y => (x &&& 0x7FFFFFFF) ||| (y &&& 0x80000000)) s)

/-- `FRND.ne` (R224). -/
def execFrndNe (h : Hdr) (d a : Reg) (s : State) : Outcome :=
  .next (alu1 h 4 d a (fun x => BitVec.ofNat 32 (frnd .ne x.toNat)) s)

/-- `FRND.tz` (R224). -/
def execFrndTz (h : Hdr) (d a : Reg) (s : State) : Outcome :=
  .next (alu1 h 4 d a (fun x => BitVec.ofNat 32 (frnd .tz x.toNat)) s)

/-- `FRND.dn` (R224). -/
def execFrndDn (h : Hdr) (d a : Reg) (s : State) : Outcome :=
  .next (alu1 h 4 d a (fun x => BitVec.ofNat 32 (frnd .dn x.toNat)) s)

/-- `FRND.up` (R224). -/
def execFrndUp (h : Hdr) (d a : Reg) (s : State) : Outcome :=
  .next (alu1 h 4 d a (fun x => BitVec.ofNat 32 (frnd .up x.toNat)) s)

/-- `FCLASS` (R225). -/
def execFclass (h : Hdr) (d a : Reg) (s : State) : Outcome :=
  .next (alu1 h 4 d a (fun x => BitVec.ofNat 32 (fclass x.toNat)) s)

/-- `FSCALE` (R224). -/
def execFscale (h : Hdr) (d a b : Reg) (s : State) : Outcome :=
  .next (alu2 h 4 d a b (fun x y => BitVec.ofNat 32 (fscale x.toNat y.toInt)) s)

/-- `HADD2` (R226). -/
def execHadd2 (h : Hdr) (d a b : Reg) (s : State) : Outcome :=
  .next (alu2 h 4 d a b (packed fp16.add) s)

/-- `HSUB2` (R226). -/
def execHsub2 (h : Hdr) (d a b : Reg) (s : State) : Outcome :=
  .next (alu2 h 4 d a b (packed fp16.sub) s)

/-- `HMUL2` (R226). -/
def execHmul2 (h : Hdr) (d a b : Reg) (s : State) : Outcome :=
  .next (alu2 h 4 d a b (packed fp16.mul) s)

/-- `HMIN2` (R226). -/
def execHmin2 (h : Hdr) (d a b : Reg) (s : State) : Outcome :=
  .next (alu2 h 4 d a b (packed fp16.minF) s)

/-- `HMAX2` (R226). -/
def execHmax2 (h : Hdr) (d a b : Reg) (s : State) : Outcome :=
  .next (alu2 h 4 d a b (packed fp16.maxF) s)

/-- `BADD2` (R226). -/
def execBadd2 (h : Hdr) (d a b : Reg) (s : State) : Outcome :=
  .next (alu2 h 4 d a b (packed bf16.add) s)

/-- `BSUB2` (R226). -/
def execBsub2 (h : Hdr) (d a b : Reg) (s : State) : Outcome :=
  .next (alu2 h 4 d a b (packed bf16.sub) s)

/-- `BMUL2` (R226). -/
def execBmul2 (h : Hdr) (d a b : Reg) (s : State) : Outcome :=
  .next (alu2 h 4 d a b (packed bf16.mul) s)

/-- `BMIN2` (R226). -/
def execBmin2 (h : Hdr) (d a b : Reg) (s : State) : Outcome :=
  .next (alu2 h 4 d a b (packed bf16.minF) s)

/-- `BMAX2` (R226). -/
def execBmax2 (h : Hdr) (d a b : Reg) (s : State) : Outcome :=
  .next (alu2 h 4 d a b (packed bf16.maxF) s)

/-- `FFMA` (R227). -/
def execFfma (h : Hdr) (d a b c : Reg) (s : State) : Outcome :=
  .next (alu3 h 4 d a b c (fun x y z => BitVec.ofNat 32 (fp32.fma x.toNat y.toNat z.toNat)) s)

/-- `HFMA2` (R227). -/
def execHfma2 (h : Hdr) (d a b c : Reg) (s : State) : Outcome :=
  .next (alu3 h 4 d a b c (packed3 fp16.fma) s)

/-- `BFMA2` (R227). -/
def execBfma2 (h : Hdr) (d a b c : Reg) (s : State) : Outcome :=
  .next (alu3 h 4 d a b c (packed3 bf16.fma) s)

end Sys2Proof.Machine
end

