-- ==== Sys2Proof/Machine/Imm.lean ====
section
/-! DEFINITION. Immediate forms (R146, R147). -/

namespace Sys2Proof.Machine

/-- `ADDI` (R146). -/
def execAddi (h : Hdr) (d a : Reg) (imm : BitVec 12) (s : State) : Outcome :=
  .next (alu1 h 2 d a (fun x => x + imm.signExtend 32) s)

/-- `ANDI` (R146). -/
def execAndi (h : Hdr) (d a : Reg) (imm : BitVec 12) (s : State) : Outcome :=
  .next (alu1 h 2 d a (fun x => x &&& imm.signExtend 32) s)

/-- `ORI` (R146). -/
def execOri (h : Hdr) (d a : Reg) (imm : BitVec 12) (s : State) : Outcome :=
  .next (alu1 h 2 d a (fun x => x ||| imm.signExtend 32) s)

/-- `XORI` (R146). -/
def execXori (h : Hdr) (d a : Reg) (imm : BitVec 12) (s : State) : Outcome :=
  .next (alu1 h 2 d a (fun x => x ^^^ imm.signExtend 32) s)

/-- `LUI` (R147). -/
def execLui (h : Hdr) (d : BitVec 4) (imm : BitVec 20) (s : State) : Outcome :=
  .next (fixedV h 2 (d.setWidth 6) (fun _ _ => imm.setWidth 32 <<< 12) s)

/-- `APC` (R147): from the offset of the word itself. -/
def execApc (h : Hdr) (d : BitVec 4) (imm : BitVec 20) (s : State) : Outcome :=
  .next (fixedV h 2 (d.setWidth 6) (fun _ _ => s.cur.wpc + imm.signExtend 32 <<< 12) s)

end Sys2Proof.Machine
end

