-- ==== Sys2Proof/Machine/Int.lean ====
section
/-! DEFINITION. Integer, shift, field, 64-bit, selection and pointer forms (R141 to R145, R148). -/

namespace Sys2Proof.Machine

/-- `ADD` (R141). -/
def execAdd (h : Hdr) (d a b : Reg) (s : State) : Outcome :=
  .next (alu2 h 2 d a b (fun x y => x + y) s)

/-- `SUB` (R141). -/
def execSub (h : Hdr) (d a b : Reg) (s : State) : Outcome :=
  .next (alu2 h 2 d a b (fun x y => x - y) s)

/-- `MUL` (R141). -/
def execMul (h : Hdr) (d a b : Reg) (s : State) : Outcome :=
  .next (alu2 h 4 d a b (fun x y => x * y) s)

/-- `MULHI.i` (R141). -/
def execMulhiI (h : Hdr) (d a b : Reg) (s : State) : Outcome :=
  .next (alu2 h 4 d a b (fun x y => (mulI x y).extractLsb' 32 32) s)

/-- `MULHI.n` (R141). -/
def execMulhiN (h : Hdr) (d a b : Reg) (s : State) : Outcome :=
  .next (alu2 h 4 d a b (fun x y => (mulN x y).extractLsb' 32 32) s)

/-- `MACC` (R141): reads vd. -/
def execMacc (h : Hdr) (d a b : Reg) (s : State) : Outcome :=
  .next (fixedV h 4 d (fun now t => t.rdV now d + t.rdV now a * t.rdV now b) s)

/-- `DIV.i` (R117, R141): a variable-latency result. -/
def execDivI (h : Hdr) (d a b : Reg) (s : State) : Outcome :=
  .next (varV h d (fun now t => divI (t.rdV now a) (t.rdV now b)) s)

/-- `DIV.n` (R117, R141): a variable-latency result. -/
def execDivN (h : Hdr) (d a b : Reg) (s : State) : Outcome :=
  .next (varV h d (fun now t => divN (t.rdV now a) (t.rdV now b)) s)

/-- `REM.i` (R117, R141): a variable-latency result. -/
def execRemI (h : Hdr) (d a b : Reg) (s : State) : Outcome :=
  .next (varV h d (fun now t => remI (t.rdV now a) (t.rdV now b)) s)

/-- `REM.n` (R117, R141): a variable-latency result. -/
def execRemN (h : Hdr) (d a b : Reg) (s : State) : Outcome :=
  .next (varV h d (fun now t => remN (t.rdV now a) (t.rdV now b)) s)

/-- `MIN.i` (R141). -/
def execMinI (h : Hdr) (d a b : Reg) (s : State) : Outcome :=
  .next (alu2 h 2 d a b (fun x y => if y.slt x then y else x) s)

/-- `MIN.n` (R141). -/
def execMinN (h : Hdr) (d a b : Reg) (s : State) : Outcome :=
  .next (alu2 h 2 d a b (fun x y => if y < x then y else x) s)

/-- `MAX.i` (R141). -/
def execMaxI (h : Hdr) (d a b : Reg) (s : State) : Outcome :=
  .next (alu2 h 2 d a b (fun x y => if x.slt y then y else x) s)

/-- `MAX.n` (R141). -/
def execMaxN (h : Hdr) (d a b : Reg) (s : State) : Outcome :=
  .next (alu2 h 2 d a b (fun x y => if x < y then y else x) s)

/-- `ABS` (R141). -/
def execAbs (h : Hdr) (d a : Reg) (s : State) : Outcome :=
  .next (alu1 h 2 d a (fun x => if x.msb then 0 - x else x) s)

/-- `NEG` (R141). -/
def execNeg (h : Hdr) (d a : Reg) (s : State) : Outcome :=
  .next (alu1 h 2 d a (fun x => 0 - x) s)

/-- `AND` (R141). -/
def execAnd (h : Hdr) (d a b : Reg) (s : State) : Outcome :=
  .next (alu2 h 2 d a b (fun x y => x &&& y) s)

/-- `OR` (R141). -/
def execOr (h : Hdr) (d a b : Reg) (s : State) : Outcome :=
  .next (alu2 h 2 d a b (fun x y => x ||| y) s)

/-- `XOR` (R141). -/
def execXor (h : Hdr) (d a b : Reg) (s : State) : Outcome :=
  .next (alu2 h 2 d a b (fun x y => x ^^^ y) s)

/-- `ANDN` (R141). -/
def execAndn (h : Hdr) (d a b : Reg) (s : State) : Outcome :=
  .next (alu2 h 2 d a b (fun x y => x &&& ~~~y) s)

/-- `ORN` (R141). -/
def execOrn (h : Hdr) (d a b : Reg) (s : State) : Outcome :=
  .next (alu2 h 2 d a b (fun x y => x ||| ~~~y) s)

/-- `SHL` (R142). -/
def execShl (h : Hdr) (d a b : Reg) (s : State) : Outcome :=
  .next (alu2 h 2 d a b (fun x y => shlN x y.toNat) s)

/-- `SHR` (R142). -/
def execShr (h : Hdr) (d a b : Reg) (s : State) : Outcome :=
  .next (alu2 h 2 d a b (fun x y => shrN x y.toNat) s)

/-- `SRA` (R142). -/
def execSra (h : Hdr) (d a b : Reg) (s : State) : Outcome :=
  .next (alu2 h 2 d a b (fun x y => sraN x y.toNat) s)

/-- `ROTL` (R142). -/
def execRotl (h : Hdr) (d a b : Reg) (s : State) : Outcome :=
  .next (alu2 h 2 d a b (fun x y => rotlN x y.toNat) s)

/-- `SHLI` (R142). -/
def execShli (h : Hdr) (d a : Reg) (n : BitVec 5) (s : State) : Outcome :=
  .next (alu1 h 2 d a (fun x => shlN x n.toNat) s)

/-- `SHRI` (R142). -/
def execShri (h : Hdr) (d a : Reg) (n : BitVec 5) (s : State) : Outcome :=
  .next (alu1 h 2 d a (fun x => shrN x n.toNat) s)

/-- `SRAI` (R142). -/
def execSrai (h : Hdr) (d a : Reg) (n : BitVec 5) (s : State) : Outcome :=
  .next (alu1 h 2 d a (fun x => sraN x n.toNat) s)

/-- `CLZ` (R141). -/
def execClz (h : Hdr) (d a : Reg) (s : State) : Outcome :=
  .next (alu1 h 2 d a (fun x => BitVec.ofNat 32 (clzN x)) s)

/-- `CTZ` (R141). -/
def execCtz (h : Hdr) (d a : Reg) (s : State) : Outcome :=
  .next (alu1 h 2 d a (fun x => BitVec.ofNat 32 (clzN (brevW x))) s)

/-- `POPC` (R141). -/
def execPopc (h : Hdr) (d a : Reg) (s : State) : Outcome :=
  .next (alu1 h 2 d a (fun x => BitVec.ofNat 32 (ones x)) s)

/-- `BREV` (R141). -/
def execBrev (h : Hdr) (d a : Reg) (s : State) : Outcome :=
  .next (alu1 h 2 d a brevW s)

/-- `BFX.i` (R143). -/
def execBfxI (h : Hdr) (d a b : Reg) (s : State) : Outcome :=
  .next (alu2 h 2 d a b (bfx true) s)

/-- `BFX.n` (R143). -/
def execBfxN (h : Hdr) (d a b : Reg) (s : State) : Outcome :=
  .next (alu2 h 2 d a b (bfx false) s)

/-- `BFI` (R143): reads vd. -/
def execBfi (h : Hdr) (d a b : Reg) (s : State) : Outcome :=
  .next (fixedV h 2 d (fun now t => bfi (t.rdV now d) (t.rdV now a) (t.rdV now b)) s)

/-- `MOV` (R141). -/
def execMov (h : Hdr) (d a : Reg) (s : State) : Outcome :=
  .next (alu1 h 2 d a (fun x => x) s)

/-- `ADD64` (R144). -/
def execAdd64 (h : Hdr) (d a b : PairNo) (s : State) : Outcome :=
  .next (fixedW h 2 d (fun now t => t.rdW now a + t.rdW now b) s)

/-- `SUB64` (R144). -/
def execSub64 (h : Hdr) (d a b : PairNo) (s : State) : Outcome :=
  .next (fixedW h 2 d (fun now t => t.rdW now a - t.rdW now b) s)

/-- `MULW.i` (R144). -/
def execMulwI (h : Hdr) (d : PairNo) (a b : Reg) (s : State) : Outcome :=
  .next (fixedW h 4 d (fun now t => mulI (t.rdV now a) (t.rdV now b)) s)

/-- `MULW.n` (R144). -/
def execMulwN (h : Hdr) (d : PairNo) (a b : Reg) (s : State) : Outcome :=
  .next (fixedW h 4 d (fun now t => mulN (t.rdV now a) (t.rdV now b)) s)

/-- `ADDOF` (R148): the index stays, the offset wraps. -/
def execAddof (h : Hdr) (d a : PairNo) (b : Reg) (s : State) : Outcome :=
  .next (fixedW h 2 d (fun now t => addOffset (t.rdW now a) (t.rdV now b)) s)

/-- `MKPTR` (R148). -/
def execMkptr (h : Hdr) (d a : PairNo) (b : Reg) (s : State) : Outcome :=
  .next (fixedW h 2 d (fun now t => makePointer (t.rdW now a) (t.rdV now b)) s)

/-- `PIX` (R148). -/
def execPix (h : Hdr) (d : Reg) (a : PairNo) (s : State) : Outcome :=
  .next (fixedV h 2 d (fun now t => (t.rdW now a).extractLsb' 48 16 |>.setWidth 32) s)

/-- `SEL.p0` (R145). -/
def execSelP0 (h : Hdr) (d a b : Reg) (s : State) : Outcome :=
  .next (select h d 0 a b s)

/-- `SEL.p1` (R145). -/
def execSelP1 (h : Hdr) (d a b : Reg) (s : State) : Outcome :=
  .next (select h d 1 a b s)

/-- `SEL.p2` (R145). -/
def execSelP2 (h : Hdr) (d a b : Reg) (s : State) : Outcome :=
  .next (select h d 2 a b s)

/-- `SEL.p3` (R145). -/
def execSelP3 (h : Hdr) (d a b : Reg) (s : State) : Outcome :=
  .next (select h d 3 a b s)

/-- `SEL.p4` (R145). -/
def execSelP4 (h : Hdr) (d a b : Reg) (s : State) : Outcome :=
  .next (select h d 4 a b s)

/-- `SEL.p5` (R145). -/
def execSelP5 (h : Hdr) (d a b : Reg) (s : State) : Outcome :=
  .next (select h d 5 a b s)

/-- `SEL.p6` (R145). -/
def execSelP6 (h : Hdr) (d a b : Reg) (s : State) : Outcome :=
  .next (select h d 6 a b s)

end Sys2Proof.Machine
end

