-- ==== Sys2Proof/Machine/Lane.lean ====
section
/-! DEFINITION. Lane forms (R234 to R238). -/

namespace Sys2Proof.Machine

/-- The lanes that take part in a lane form with a thread, in rank order (R234): the active lanes, as the thread's own
physical set sees them. -/
def laneSet (s : State) (t : Thread) : List Thread :=
  s.cur.lanes.filterMap fun x =>
    (s.thread? x.2).bind fun u => if t.shadow then (s.twinOf u).map s.before else some (s.before u)

/-- The rank of a thread among the active lanes. -/
def laneRank (s : State) (t : Thread) : Nat := s.cur.lanes.findIdx fun x => x.1 = s.laneOf t

/-- A result that a lane computes from the values of all: `f` gets them in rank order and the lane's own rank. -/
def laneV (h : Hdr) (d : Reg) (f : Nat → List Thread → Nat → Thread → Word) (s : State) : State :=
  runWord h { eff := fun s => putV 4 d (fun t => f s.time (laneSet s t) (laneRank s t) t) s } s

def laneP (h : Hdr) (p : PredNo) (f : Nat → List Thread → Bool) (s : State) : State :=
  runWord h { eff := fun s => putPred 4 p (fun t => f s.time (laneSet s t)) s } s

/-- A shuffle (R235): the source rank from the own rank and the own distance. -/
def shuffle (h : Hdr) (d a b : Reg) (src : Nat → Nat → Option Nat) (s : State) : State :=
  laneV h d (fun now ts r t =>
    match (src r (t.rdV now b).toNat).bind fun k => ts[k]? with
    | some u => u.rdV now a
    | none => t.rdV now a) s

/-- A reduction over the active lanes (R238). -/
def reduce (h : Hdr) (d a : Reg) (f : List Word → Word) (s : State) : State :=
  laneV h d (fun now ts _ _ => f (ts.map fun t => t.rdV now a)) s

/-- A reduction of a list by a function, its first element where there is one. -/
def foldWords (f : Word → Word → Word) (l : List Word) : Word :=
  match l with
  | [] => 0
  | x :: r => r.foldl f x

/-- A minimum or maximum over FP32 values (R131): a NaN among them gives the canonical NaN. -/
def floatReduce (f : Nat → Nat → Nat) (l : List Word) : Word :=
  if l.any fun x => fp32.isNaN x.toNat then BitVec.ofNat 32 fp32.nan else foldWords (onWords f) l

/-- `SHFL.idx` (R235). -/
def execShflIdx (h : Hdr) (d a b : Reg) (s : State) : Outcome :=
  .next (shuffle h d a b (fun _ t => if 32 ≤ t then none else some t) s)

/-- `SHFL.up` (R235). -/
def execShflUp (h : Hdr) (d a b : Reg) (s : State) : Outcome :=
  .next (shuffle h d a b (fun r t => if r < t then none else some (r - t)) s)

/-- `SHFL.dn` (R235). -/
def execShflDn (h : Hdr) (d a b : Reg) (s : State) : Outcome :=
  .next (shuffle h d a b (fun r t => some (r + t)) s)

/-- `SHFL.xor` (R235). -/
def execShflXor (h : Hdr) (d a b : Reg) (s : State) : Outcome :=
  .next (shuffle h d a b (fun r t => if 32 ≤ t then none else some (r ^^^ t)) s)

/-- `VOTE.any` (R236). -/
def execVoteAny (h : Hdr) (p b : PredNo) (s : State) : Outcome :=
  .next (laneP h p (fun now ts => ts.any fun t => t.rdP now b) s)

/-- `VOTE.all` (R236). -/
def execVoteAll (h : Hdr) (p b : PredNo) (s : State) : Outcome :=
  .next (laneP h p (fun now ts => ts.all fun t => t.rdP now b) s)

/-- `LRANK` (R236). -/
def execLrank (h : Hdr) (d : Reg) (b : PredNo) (s : State) : Outcome :=
  .next (laneV h d (fun now ts r _ => BitVec.ofNat 32 ((ts.take r).countP fun t => t.rdP now b)) s)

/-- `LCNT` (R236). -/
def execLcnt (h : Hdr) (d : Reg) (b : PredNo) (s : State) : Outcome :=
  .next (laneV h d (fun now ts _ _ => BitVec.ofNat 32 (ts.countP fun t => t.rdP now b)) s)

/-- `BCAST` (R237). -/
def execBcast (h : Hdr) (d a b : Reg) (s : State) : Outcome :=
  .next (laneV h d (fun now ts _ _ =>
    let k := ((ts.head?).map fun t => (t.rdV now b).toNat).getD 0
    ((ts[if k < ts.length then k else 0]?).map fun t => t.rdV now a).getD 0) s)

/-- `RDX.add.i32` (R131, R238). -/
def execRdxAddI32 (h : Hdr) (d a : Reg) (s : State) : Outcome :=
  .next (reduce h d a (foldWords fun x y => x + y) s)

/-- `RDX.add.f32` (R131, R238); the sum over one lane is its element, a NaN with a payload too
(notes/assumptions/104.md). -/
def execRdxAddF32 (h : Hdr) (d a : Reg) (s : State) : Outcome :=
  .next (reduce h d a (fun l => BitVec.ofNat 32 (treeSum fp32.add 5 (l.map BitVec.toNat))) s)

/-- `RDX.min.i32` (R131, R238). -/
def execRdxMinI32 (h : Hdr) (d a : Reg) (s : State) : Outcome :=
  .next (reduce h d a (foldWords fun x y => if y.slt x then y else x) s)

/-- `RDX.max.i32` (R131, R238). -/
def execRdxMaxI32 (h : Hdr) (d a : Reg) (s : State) : Outcome :=
  .next (reduce h d a (foldWords fun x y => if x.slt y then y else x) s)

/-- `RDX.min.f32` (R131, R238). -/
def execRdxMinF32 (h : Hdr) (d a : Reg) (s : State) : Outcome :=
  .next (reduce h d a (floatReduce fp32.minF) s)

/-- `RDX.max.f32` (R131, R238). -/
def execRdxMaxF32 (h : Hdr) (d a : Reg) (s : State) : Outcome :=
  .next (reduce h d a (floatReduce fp32.maxF) s)

end Sys2Proof.Machine
end

