-- ==== Sys2Proof/Machine/Inputs.lean ====
section
/-! DEFINITION. What comes from outside: host writes to a partition's memory, and the smallest machine that runs one
word next. -/

namespace Sys2Proof.Machine

open Sys2Proof (Instr)

/-- Whether a term is an event that can arrive from outside: it has no encoding, and it is not the meaning of a fetched
word. -/
def isEvent (i : Instr) : Bool :=
  match i with
  | .illegalEncoding _ => false
  | i => (encodeWord i).isNone

/-- A write that comes from outside, cut at 16-byte boundaries: accesses on their way to the homes of their lines (R387).
`place` gives the key of an address. -/
def writePieces (part : Nat) (place : Nat → Option Nat) : Nat → Nat → List Byte → State → State
  | 0, _, _, s => s
  | n + 1, addr, bs, s =>
    if bs.isEmpty then s
    else
      let k := 16 - addr % 16
      let chunk := bs.take k
      let s := match place addr with
        | none => s
        | some key =>
          let acc : Acc :=
            { id := s.nextId, tid := none, core := 0, part, launch := 0, cast := 0, kind := .host, buf := 0, off := addr,
              size := chunk.length, bkind := 1, addr := key, ty := 4, cp := 0, dst := none, data := leNat chunk, cmp := 0,
              poison := false, lane := 0, pc := 0, seq := s.nextId, mark := 0, stage := .sent, gwct := 0, tag := 0,
              lease := 0 }
          { s with nextId := s.nextId + 1, accs := s.accs ++ [acc] }
      writePieces part place n (addr + chunk.length) (bs.drop k) s

/-- A host write to a set address of channel set 0 of a partition (R387). -/
def hostWrite (part addr : Nat) (data : List Byte) (s : State) : State :=
  match s.part? part with
  | none => s
  | some p => writePieces part (fun a => setKey p 0 4 a) (data.length + 1) addr data s

/-- Bytes outside the device change: host memory or a peer's (R391). A context-switch image that they touch no longer has
its check value (R345). -/
def outsideWrite (key : Nat) (data : List Byte) (s : State) : State :=
  if key < 2 ^ 60 ∨ 2 ^ 64 ≤ key + data.length then s
  else
    let hit (x : Nat × Image) : Bool :=
      decide (hostKey x.1 < key + data.length) && decide (key < hostKey x.1 + 4096 * x.2.size)
    (s.poke key data).updDev fun d => { d with images := d.images.map fun x => if hit x then (x.1, { x.2 with good := false }) else x }

/-! ### Errors, rails and firmware (R26, R199, R269, R354, R355, R369) -/

/-- The slot of the array that shows an error: for the register file the core on which the thread is resident, for weight
buffers and L1 the core, else the place (R24). -/
def arraySlot (s : State) (cls owner place : Nat) : Option Nat :=
  match cls with
  | 0 => (s.thread? owner).bind fun t => match t.loc with
    | .lane c _ _ => some (slotOfCluster (clusterOf c))
    | _ => none
  | 1 => (keyVault place).map fun v => v / 2
  | 2 => if 2 ^ 45 ≤ place ∧ place < 2 ^ 46 then some ((place - 2 ^ 45) / 2 ^ 18 / 16) else none
  | 3 => if (s.l1? owner place).isSome then some (slotOfCluster (clusterOf owner)) else none
  | 4 => (keyChan place).map fun c => c / 40
  | 5 => (keyChan place).map fun c => c / 40
  | 6 => (keyChan place).map fun c => c / 40
  | 7 => if 2 ^ 46 ≤ place ∧ place < 2 ^ 46 + 2 ^ 42 then some ((place - 2 ^ 46) / 2 ^ 36) else none
  | _ => none

/-- The partition that owns the resource of an array error (R24, R369). -/
def arrayOwner (s : State) (cls owner place : Nat) : Option Part := (arraySlot s cls owner place).bind s.partOfSlot

/-- What an uncorrectable error poisons: its granule (R354). -/
def arrayPoison (cls owner place : Nat) (s : State) : State :=
  match cls with
  | 0 => if place < 64 then s.updThread owner fun t => { t with poison := setBit t.poison place true } else s
  | 6 => poisonAt s (place / 64 * 64) 64
  | 7 => poisonAt s (place / 4096 * 4096) 4096
  | _ => poisonAt s place 1

/-- An array shows an error (R354, R369): it is counted in the partition that owns the array, and what an uncorrectable one
reaches is poisoned, whether a partition owns it or not; an L1 drops its copy, which counts as correctable. -/
def arrayError (cls owner place : Nat) (hard : Bool) (s : State) : State :=
  match arrayOwner s cls owner place with
  | none => if hard ∧ cls ≠ 3 ∧ (arraySlot s cls owner place).isSome then arrayPoison cls owner place s else s
  | some p =>
    if cls = 3 then
      let s : State := { s with l1 := s.l1.filter fun c => !(c.core = owner && c.line = place) }
      s.countArray p.first 3 false
    else
      let s := s.countArray p.first cls hard
      if hard then arrayPoison cls owner place s else s

/-- An error of a router, a long link, a bridge or a port is counted in the management block (R26, R369). -/
def linkError (off : Nat) (s : State) : State :=
  if 0x8000 < off ∧ off < 0x100000 ∧ off % 8 = 0 then s.updDev fun d => countError d off else s

/-- The multipliers upset the next step of a matrix operation (R269). -/
def upsetOp (id : Nat) (second : Bool) (row col : Nat) (flip : Word) (s : State) : State :=
  s.updTileOp id fun o => { o with upset := some (second, row, col, flip) }

/-- The rail of an L2 slice has a value (R355): since when it lies at least 10 mV above `VTHR` is kept. -/
def railAt (slice mv : Nat) (s : State) : State :=
  let old := (s.dev.rails.find? fun x => x.1 = slice).bind fun x => x.2.2
  let since := if Config.vthr slice + 10 ≤ mv then some (old.getD s.time) else none
  if slice < 128 then s.updDev fun d => { d with rails := (slice, mv, since) :: d.rails.filter fun x => x.1 ≠ slice }
  else s

/-- The loader's verdict on the object of a kernel descriptor (R110). -/
def loaded (part : Nat) (kernel : DWord) (ok : Bool) (s : State) : State :=
  s.updPart part fun p =>
    { p with rejected := (if ok then [] else [kernel]) ++ p.rejected.filter fun x => x ≠ kernel }

/-- Firmware seals a page of a log (R199). Of a page that is not full the rule does not say where appends go on: the model
leaves the append point where it was (notes/assumptions/138.md). -/
def sealPage (slot page : Nat) (s : State) : State :=
  s.updDev fun d => { d with sealed := if d.sealed.contains (slot, page) then d.sealed else (slot, page) :: d.sealed }

/-! ### A word to run next (notes/assumptions/10.md) -/

/-- The partition, launch, cast and pour that run a placed word. -/
def placePart : Part := { Part.fresh 0 0 1 1 with ilvmap := [(0, 0x28000#64)] }
def placeLaunch : Launch :=
  { part := 0, num := 0, queue := 0, index := 0, vf := 0, proc := 0, bundle := 0, kinfo := 0, codeBuf := 1, chain := [],
    swin := 256, drain := 2000, poolto := 10000, action := 0, gang := 1, ncast := 1, castsz := 1, admitted := 1,
    relaunch := [], kills := [], failed := false, badPrologue := false, corrupt := false, rewritten := false,
    epilogue := 0, selected := [], access := none, fenced := none, holding := [] }
def placeCast : Cast :=
  { part := 0, launch := 0, num := 0, cluster := 0, started := true, pours := [], ended := false, threads := 1,
    alloc := none, orig := none, need := 0, spilled := none, spillBufs := [], queues := [[], [], [], []], pin := none, run := 0, assay := none,
    admittedAt := 0, stealable := false }
def placePour (now : Nat) : Pour :=
  { core := 0, slot := 0, part := 0, launch := 0,
    entries := [{ pc := 0, prio := 0, mask := 1, buf := 1, stall := none, split := none }], k := Vector.replicate 12 0,
    ready := now, last := now, formed := now, fromAnnex := false, readySince := none, promoted := false, refs := [],
    poolStalled := none }

/-- Buffer 1: code, rights R, X and S, one page; its page table at set address 0x1_0000, its frame at 0x2_0000. -/
def placeMem (w : Nat) : List Host.Cell :=
  let e := 4 + 0x49 * 2 ^ 8 + 0x4000 * 2 ^ 48 + 4096 * 2 ^ 64 + 0x10000 * 2 ^ 128
  let at' (m : List Host.Cell) (a n x : Nat) : List Host.Cell :=
    match setKey placePart 0 4 a with
    | some k => memWriteBytes m k (leBytes n x)
    | none => m
  at' (at' (at' [] 64 64 e) 0x10000 8 0x20001) 0x20000 4 w

/-- A machine that runs the word `w` next: both clusters have just asked in vain for casts (R322). -/
def placeWord (s : State) (w : Nat) : State :=
  { State.reset with
    time := s.time, nextId := 2, free := s.free, dev := { s.dev with decayed := s.time / 10 ^ 9 },
    parts := [{ placePart with sliceStart := s.time, sampled := s.time / 10000 }], launches := [placeLaunch], casts := [placeCast], pours := [placePour s.time],
    stealAfter := [(0, s.time + 1000), (1, s.time + 1000)],
    threads := [Thread.fresh 1 0 0 0 0 (.lane 0 0 0) 0], mem := placeMem w }

end Sys2Proof.Machine
end

