-- ==== Sys2Proof/Machine/LinkEvents.lean ====
section
/-! DEFINITION. Register writes of the two masters, power-on reset, `READY`, NelozLink ports and peers, forwarded writes,
and the side-band protocols (R8 to R10, R28 to R31, R305, R306, R363, R375 to R378, R388 to R394). -/

namespace Sys2Proof.Machine

open Sys2Proof (Master Via AlgOffer)

/-! ### Writes of the device status block (R8, R10, R375, R376, R378) -/

/-- `CFGLOCK` (R378). -/
def cfglockWrite (s : State) (m : Master) (v : DWord) : State :=
  let s := if v.getLsbD 4 then requestLock s false m else releaseLock s false m
  let s := if v.getLsbD 1 then requestLock s true m else releaseLock s true m
  if v.getLsbD 5 then s.updDev fun d => d.setView m fun w => { w with lost := false } else s

/-- A word of a margin monitor group (R370, R371): `LOW` is of class C, the others of class M. -/
def eyeWrite (s : State) (m : Master) (off : Nat) (w : Nat) : State :=
  let g := eyeGroup s (eyeBase off)
  if isEyemon off then
    if holds s false m ∧ bitN w 31 = 1 then setEyeLane s { eyeLane s off with low := false } else s
  else if !isEyeGroup off || !holds s true m then s
  else if off % 128 = 120 then setEyeGroup s { g with tmin := BitVec.ofNat 8 (bitsN w 23 16), vmin := BitVec.ofNat 16 w }
  else if off % 128 = 124 then
    setEyeGroup s { g with sp0 := BitVec.ofNat 8 w, sp1 := BitVec.ofNat 8 (bitsN w 15 8), go := g.go || bitN w 31 = 1 }
  else s

/-- A write of the 8 bytes at a multiple of 8: `mask` says which bits, `v` their value in place. -/
def dsbWriteAt (s : State) (m : Master) (base : Nat) (mask v : DWord) : State :=
  let merge (old : DWord) : DWord := (old &&& ~~~mask) ||| (v &&& mask)
  if base = 0x40 then (if mask.getLsbD 0 then cfglockWrite s m v else s)
  else if base = 0x48 then
    if holds s false m then s.updDev fun d => { d with intstat := d.intstat &&& ~~~((v &&& mask).setWidth 5) } else s
  else if base = 0x50 then pcmdWrite s m (merge s.dev.pcmd)
  else if base = 0x60 then mcmdWrite s m (merge s.dev.mcmd)
  else if base = 0x70 then
    if holds s true m then s.updDev fun d => { d with grpcfg := merge d.grpcfg &&& 0x8000011F0000FFFF#64 } else s
  else if 0x3000 ≤ base ∧ base < 0x3200 then
    let p := (base - 0x3000) / 8
    if holds s true m ∧ (s.part? p).isSome ∧ mask.getLsbD 0 then
      s.updDev fun d => { d with encap := setL d.encap p (v.setWidth 16) }
    else s
  else if 0x8000 ≤ base ∧ base < 0x100000 then
    if holds s true m then s.updDev fun d => { d with errs := setL d.errs base (merge (getL d.errs base 0)) } else s
  else if 0x100000 ≤ base ∧ base < 0x400000 then
    let s := if mask.getLsbD 0 then eyeWrite s m base (bitsN v.toNat 31 0) else s
    if mask.getLsbD 32 then eyeWrite s m (base + 4) (bitsN v.toNat 63 32) else s
  else s

/-- A write of 4 or 8 bytes of the device status block; other sizes are ignored. -/
def dsbWrite (s : State) (m : Master) (off size : Nat) (v : DWord) : State :=
  if sizeOk off size then dsbWriteAt s m (off - off % 8) (writeMask off size) (writeBits off size v) else s

/-! ### Writes of a window (R305, R306, R317, R376 to R378, R382, R391, R394) -/

/-- The configuration fields of a queue context: they take effect only while the queue is disabled and idle. Through a VF,
`VF`, `PROC` and `PRIO` stay. -/
def queueConfig (x : Queue) (viaVf : Bool) (w : Nat) : Queue :=
  let x' : Queue :=
    if !x.en && x.idle then
      let y : Queue := { x with size := BitVec.ofNat 4 w, dev := bitN w 25 = 1 }
      if viaVf then y
      else { y with prio := BitVec.ofNat 4 (bitsN w 7 4), vf := BitVec.ofNat 4 (bitsN w 11 8), proc := BitVec.ofNat 12 (bitsN w 23 12) }
    else x
  { x' with en := bitN w 24 = 1 }

/-- A write of 8 bytes of a queue context. -/
def queueWrite (s : State) (p : Part) (viaVf : Bool) (q i : Nat) (mask v : DWord) : State :=
  let merge (old : DWord) : DWord := (old &&& ~~~mask) ||| (v &&& mask)
  match i with
  | 0 => updQueue s p.first q fun x => if !x.en && x.idle then { x with qbase := merge x.qbase } else x
  | 1 =>
    let s := if mask.getLsbD 0 then updQueue s p.first q fun x => queueConfig x viaVf (bitsN v.toNat 31 0) else s
    match mask.getLsbD 32, s.part? p.first with
    | true, some p => tailWrite s p q (BitVec.ofNat 32 (bitsN v.toNat 63 32))
    | _, _ => s
  | 2 =>
    let w := v &&& mask
    updQueue s p.first q fun x =>
      { x with hrej := x.hrej && !w.getLsbD 33, blost := x.blost && !w.getLsbD 34, flost := x.flost && !w.getLsbD 35 }
  | _ => s

/-- Bytes of `PWEIGHT`. -/
def pweightWrite (s : State) (p : Part) (i : Nat) (mask v : DWord) : State :=
  s.updPart p.first fun x =>
    { x with pweight := (List.range 8).foldl (fun l k =>
        if mask.getLsbD (8 * k) then setL l (i + k) (bitsN v.toNat (8 * k + 7) (8 * k)) else l) x.pweight }

/-- Whether an `ILVMAP` entry names only channels of its partition (R382). -/
def ilvOk (p : Part) (v : DWord) : Bool :=
  let n := bitsN v.toNat 23 12
  let f := bitsN v.toNat 11 0
  n = 0 || (decide (40 * p.first ≤ f) && decide (f + n ≤ 40 * (p.first + 2 ^ p.sz)))

/-- Whether an access goes through a peer entry. -/
def throughPeer (s : State) (p : Part) (e : Nat) (a : Acc) : Bool :=
  a.part = p.first && a.bkind = 8 &&
    (let b := btMem s p a.buf
     bitN (btSet b) 11 = 1 && btSet b % 32 = e)

/-- An outstanding access through a peer that went down: a read brings back poison, a write is acknowledged. -/
def loseAcc (s : State) (a : Acc) : State :=
  match a.kind with
  | .load => s.updAcc a.id fun a => { a with stage := .performed, poison := true }
  | .lda => s.updAcc a.id fun a => { a with stage := .performed, poison := true }
  | .atom _ => s.updAcc a.id fun a => { a with stage := .performed, poison := true }
  | _ =>
    let s := s.updAcc a.id fun a => { a with stage := .done, gwct := s.time }
    match a.tid with
    | some t => checkWake s t
    | none => s

/-- The outstanding accesses through an entry of `PEER` whose `UP` fell. -/
def loseThrough (s : State) (p : Part) (e : Nat) : State :=
  (s.accs.filter fun a => throughPeer s p e a && (a.stage = .sent || a.stage = .performed)).foldl loseAcc s

/-- A write of a `PEER` entry: `UP` speaks of the peer that the entry named. -/
def peerWrite (x : PeerEntry) (v : DWord) : PeerEntry :=
  let dev := BitVec.ofNat 5 (bitsN v.toNat 12 8)
  let slot := BitVec.ofNat 6 (bitsN v.toNat 5 0)
  { x with en := v.getLsbD 63, dev, slot, up := x.up && dev = x.dev && slot = x.slot }

/-- The fields of 8 bytes of a `MIGFWD` entry. -/
def migfwdMask (i : Nat) : DWord :=
  match i with
  | 3 => 0x801F3F00FFFFFFFF
  | 2 => BitVec.allOnes 64
  | 1 => 0xFFFFFFFF00000000
  | _ => 0

/-- A register that only the physical function writes, and only with lock C. -/
def lockedWrite (s : State) (p : Part) (base : Nat) (mask v : DWord) : State :=
  let old := windowValue s p base
  let new := (old &&& ~~~mask) ||| (v &&& mask)
  let lo := mask.getLsbD 0
  let hi := mask.getLsbD 32
  let upd (f : Part → Part) : State := s.updPart p.first f
  if base = 0x20000 then
    upd fun x => { x with vfslice := if lo then new.setWidth 32 else x.vfslice, qage := if hi then new.extractLsb' 32 32 else x.qage }
  else if base = 0x20008 then upd fun x => { x with rlrate := if hi then new.extractLsb' 32 32 else x.rlrate }
  else if base = 0x20010 then upd fun x => { x with frq := new &&& 0xFFFFFFFFFFFFF00F#64 }
  else if base = 0x20020 then preqWrite s p mask v
  else if base = 0x20080 then upd fun x => { x with pctxbuf := new }
  else if base = 0x20088 then pctxWrite s p mask v
  else if 0x20200 ≤ base ∧ base < 0x20400 then
    if p.state = 2 ∧ ilvOk p new then
      upd fun x => { x with ilvmap := setL x.ilvmap ((base - 0x20200) / 8) (new &&& 0xFFFFFF#64) }
    else s
  else if 0x20400 ≤ base ∧ base < 0x20500 then
    let e := (base - 0x20400) / 8
    let s := upd fun x => { x with peers := peerWrite (x.peer e) new :: x.peers.filter fun y => y.idx ≠ e }
    if (p.peer e).up && !(peerWrite (p.peer e) new).up then loseThrough s p e else s
  else if 0x20600 ≤ base ∧ base < 0x20800 then
    let m := (base - 0x20600) / 32
    let i := base % 32 / 8
    let w := (new &&& migfwdMask i).toNat
    upd fun x =>
      let e := getL x.migfwd m 0
      { x with migfwd := setL x.migfwd m (e - bitsN e (64 * i + 63) (64 * i) * 2 ^ (64 * i) + w * 2 ^ (64 * i)) }
  else s

/-- A write of the 8 bytes of a window at a multiple of 8, through the physical function or a VF. -/
def windowWriteAt (s : State) (p : Part) (vf : Option Nat) (base : Nat) (mask v : DWord) : State :=
  let lock := holds s false .host
  if base < 0x10000 then
    let q := base / 32
    if 16 * 2 ^ p.sz ≤ q ∨ !(vf.all fun k => (p.queue q).vf.toNat = k) then s
    else queueWrite s p vf.isSome q (base % 32 / 8) mask v
  else if base < 0x20000 then
    if vf.all fun k => k = (base - 0x10000) / 4096 then pweightWrite s p (base - 0x10000) mask v else s
  else if base = 0x20028 then (if mask.getLsbD 0 then sysReply s p.first (bitsN v.toNat 15 0) else s)
  else if 0x20040 ≤ base ∧ base < 0x20080 then
    if lock then s.updPart p.first fun x =>
      let c := (base - 0x20040) / 8
      { x with errcnt := setL x.errcnt c ((getL x.errcnt c 0 &&& ~~~mask) ||| (v &&& mask)) }
    else s
  else if lock ∧ vf.isNone then lockedWrite s p base mask v
  else s

/-- A write of 4 or 8 bytes of a window; other sizes are ignored. -/
def windowWrite (s : State) (p : Part) (vf : Option Nat) (off size : Nat) (v : DWord) : State :=
  if sizeOk off size then windowWriteAt s p vf (off - off % 8) (writeMask off size) (writeBits off size v) else s

/-- `REGISTER_WRITE` (R8, R10): the side-band reaches no window, and a VF only its partition's. -/
def execRegisterWrite (via : Via) (off size : Nat) (v : BitVec 64) (s : State) : Outcome :=
  .next (match via with
    | .dsb m => dsbWrite s m off size v
    | .windowPf .host first => match s.part? first with
      | some p => windowWrite s p none off size v
      | none => s
    | .windowPf .sideBand _ => s
    | .windowVf first vf => match s.part? first with
      | some p => if vf < p.nvf then windowWrite s p (some vf) off size v else s
      | none => s)

/-! ### MCTP (R375) -/

def giveAnswer (s : State) (a : Answer) : State := s.updDev fun d => { d with answer := some a }

/-- `MCTP_DSB_READ` (R375, R376). -/
def execMctpDsbRead (off : Nat) (s : State) : Outcome :=
  .next (giveAnswer s (.dsb (readSized (dsbValue s .sideBand) off 8)))

/-- `MCTP_DSB_WRITE` (R375). -/
def execMctpDsbWrite (off : Nat) (v : BitVec 64) (s : State) : Outcome := .next (dsbWrite s .sideBand off 8 v)

/-! ### Power-on reset and `READY` (R6, R9, R28 to R31, R298, R363, R390) -/

/-- `POWER_ON_RESET` (R9): every register at its reset value and device time at 0. What lies outside the device and in
flash stays; a new digest key is drawn. -/
def execPowerOnReset (s : State) : Outcome :=
  .next { State.reset with
    agenda := s.agenda.map (fun x => (x.1 - s.time, x.2)),
    nextId := s.nextId, free := s.free,
    mem := s.mem.filter (fun c => isFlash c.1 || (decide (2 ^ 60 ≤ c.1) && decide (c.1 < 2 ^ 64))),
    dev := { Dev.reset with
      flashKeys := s.dev.flashKeys, flashFresh := s.dev.flashFresh, sealed := s.dev.sealed, images := s.dev.images, boots := s.dev.boots + 1 } }

/-- A control core out of reset (R298): it waits as under `WFI`, without an activation. -/
def startControl (s : State) (slot : Nat) : State :=
  let tid := s.nextId
  let t : Thread := { Thread.fresh tid 64 65536 0 0 (.lane (1024 + slot) 0 0) 0 with level := .mon }
  let p : Pour :=
    { core := 1024 + slot, slot := 0, part := 64, launch := 65536,
      entries := [{ pc := 0, prio := 0, mask := 1, buf := 0, stall := none, split := none }], k := Vector.replicate 12 0,
      ready := s.time, last := s.time, formed := s.time, fromAnnex := false, readySince := none, promoted := false,
      refs := [], poolStalled := none }
  let b : Bank := { trapvec := 0, trappc := 0, trapcause := 0, trapinfo := 0 }
  let c : Ctl :=
    { slot, tid, idle := true, bankM := b, bankS := b, active := [], pending := [],
      pmp := Vector.replicate 8 { cfg := 0, base := 0, lim := 0 }, waiting := true, oos := false }
  { s with nextId := s.nextId + 1, threads := s.threads ++ [t], pours := s.pours ++ [p], ctls := s.ctls ++ [c] }

/-- A control core in reset. -/
def stopControl (s : State) (slot : Nat) : State :=
  let here (l : Loc) : Bool := match l with | .lane c _ _ => c = 1024 + slot | _ => false
  { s with
    threads := s.threads.filter (fun t => !here t.loc),
    pours := s.pours.filter (fun p => p.core ≠ 1024 + slot),
    accs := s.accs.filter (fun a => a.core ≠ 1024 + slot),
    results := s.results.filter (fun r => !(s.thread? r.tid).any fun t => here t.loc),
    ctls := s.ctls.filter fun c => c.slot ≠ slot }

/-- Whether this device is the one of its group that enables its host bridge, by what it was when a port last trained (R390);
a device that knows of no other is. -/
def bridgeHere (d : Dev) : Bool :=
  let me := bitsN d.grpact.toNat 36 32
  let mine := d.grpact.getLsbD 40
  !d.grpact.getLsbD 63 ||
    (if mine || d.peers.any (fun x => x.2.2) then mine && d.peers.all fun x => !x.2.2 || decide (me < x.2.1)
     else d.peers.all fun x => decide (me < x.2.1))

/-- Whether a `READY` bit is set; a slot's group lies at 64 + 4 times the slot (R29, R30). -/
def readyIs (d : Dev) (bit : Nat) : Bool := decide (bit < 320) && (readyWord d (bit / 64) / 2 ^ (bit % 64)) % 2 = 1

/-- Whether a bit may be set (R31, R390). -/
def maySet (d : Dev) (bit : Nat) : Bool :=
  if bit < 28 then true
  else if bit < 40 then d.peers.any fun x => x.1 = bit - 28
  else if bit = 40 then bridgeHere d
  else if bit < 64 then false
  else decide (bit < 320) && (bit % 4 = 0 || readyIs d (bit - 1))

/-- Set or clear one bit. -/
def putReady (d : Dev) (bit : Nat) (v : Bool) : Dev :=
  if bit < 4 then { d with readyDie := setBit d.readyDie bit v }
  else if bit < 20 then { d with readyStack := setBit d.readyStack (bit - 4) v }
  else if bit < 28 then { d with readyFlash := setBit d.readyFlash (bit - 20) v }
  else if bit < 40 then { d with readyLink := setBit d.readyLink (bit - 28) v }
  else if bit = 40 then { d with readyHost := v }
  else
    let slot := (bit - 64) / 4
    match bit % 4 with
    | 0 => { d with cc := setBit d.cc slot v }
    | 1 => { d with fwm := setBit d.fwm slot v }
    | 2 => { d with fws := setBit d.fws slot v }
    | _ => { d with fwu := setBit d.fwu slot v }

/-- What a function does as it comes into service. -/
def comeUp (s : State) (bit : Nat) : State :=
  if bit < 64 then s
  else if bit % 4 = 0 then startControl (stopControl s ((bit - 64) / 4)) ((bit - 64) / 4)
  else if bit % 4 = 1 then loadImages s ((bit - 64) / 4)
  else s

/-- `READY_SET` (R31). -/
def execReadySet (bit : Nat) (s : State) : Outcome :=
  .next (if maySet s.dev bit && !readyIs s.dev bit then
      settleReady (readyChanged ((comeUp s bit).updDev fun d => putReady d bit true))
    else s)

/-- `READY_CLEAR` (R31): with it every later bit of the same slot. -/
def execReadyClear (bit : Nat) (s : State) : Outcome :=
  .next (if !readyIs s.dev bit then s
    else if bit < 64 then
      let s := s.updDev fun d =>
        let d := putReady d bit false
        if 28 ≤ bit ∧ bit < 40 then { d with peers := d.peers.filter fun x => x.1 ≠ bit - 28 } else d
      settleReady (readyChanged s)
    else
      let slot := (bit - 64) / 4
      clearReadyFrom (if bit % 4 = 0 then stopControl s slot else s) slot (bit % 4))

/-! ### NelozLink (R390, R391, R394) -/

/-- The error counter of group formation (model's place in the counters of the block). -/
def formationCounter : Nat := 0x8008

/-- Another device of the group bears this device's number: all its ports stay down (R390). -/
def groupClash (d : Dev) : Dev :=
  countError { d with clash := some (bitsN d.grpact.toNat 15 0, bitsN d.grpact.toNat 36 32), readyLink := 0, peers := [] }
    formationCounter

/-- A port trains with a peer's `GROUP`, `DEVNUM` and `BRIDGE` (R390). -/
def trainPort (d : Dev) (port : Nat) (peer : DWord) : Dev :=
  let d : Dev := { d with grpact := d.grpcfg }
  let me := d.grpact
  let same := me.getLsbD 63 && peer.getLsbD 63 && me.setWidth 16 = peer.setWidth 16
  let mine := bitsN me.toNat 36 32
  let name := (bitsN me.toNat 15 0, mine)
  let down (d : Dev) : Dev :=
    countError { d with readyLink := setBit d.readyLink port false, peers := d.peers.filter fun x => x.1 ≠ port } formationCounter
  if same && bitsN peer.toNat 36 32 = mine then groupClash d
  else if !same || d.clash = some name then down d
  else
    let d : Dev := { d with
      readyLink := setBit d.readyLink port true,
      peers := (port, bitsN peer.toNat 36 32, peer.getLsbD 40) :: d.peers.filter fun x => x.1 ≠ port }
    { d with readyHost := bridgeHere d }

/-- A device of the group that lies beyond the one at a port becomes known through it (R390, notes/assumptions/130.md). -/
def meetMember (d : Dev) (port num : Nat) (bridge : Bool) : Dev :=
  if !d.readyLink.getLsbD port then d
  else if num % 32 = bitsN d.grpact.toNat 36 32 then groupClash d
  else
    let d : Dev := { d with
      peers := d.peers.filter (fun x => !(x.1 = port && x.2.1 = num % 32)) ++ [(port, num % 32, bridge)] }
    { d with readyHost := bridgeHere d }

/-- A change of the links, with the change of `READY` that it makes (R31). -/
def linkChange (s : State) (f : Dev → Dev) : State :=
  let s' := s.updDev f
  if readyWord s'.dev 0 = readyWord s.dev 0 then s' else readyChanged s'

/-- A member of the group becomes known. -/
def groupMember (port num : Nat) (bridge : Bool) (s : State) : State :=
  if port < 12 then linkChange s fun d => meetMember d port num bridge else s

/-- `PORT_TRAIN` (R390). -/
def execPortTrain (port : Nat) (peer : BitVec 64) (s : State) : Outcome :=
  .next (if port < 12 then linkChange s fun d => trainPort d port peer else s)

/-- Change an entry of `PEER`. -/
def updPeer (s : State) (part e : Nat) (f : PeerEntry → PeerEntry) : State :=
  s.updPart part fun p => if e < 32 then { p with peers := f (p.peer e) :: p.peers.filter fun y => y.idx ≠ e } else p

/-- `PEER_UP` (R391). -/
def execPeerUp (part e : Nat) (s : State) : Outcome := .next (updPeer s part e fun x => { x with up := true })

/-- `PEER_DOWN` (R391). -/
def execPeerDown (part e : Nat) (s : State) : Outcome :=
  .next (match s.part? part with
    | some p =>
      if (p.peer e).up then
        loseThrough (updPeer s part e fun x => { x with up := false }) p e
      else s
    | none => s)

/-- Fields of a `MIGFWD` entry. -/
def migMatches (e buf off n : Nat) : Bool :=
  bitN e 255 = 1 && bitsN e 207 192 = buf && decide (bitsN e 143 96 ≤ off) && decide (off + n ≤ bitsN e 191 144 + 1)

/-- Where a remote write to a buffer is performed here. -/
def remotePlace (s : State) (part buf off : Nat) : Option Nat :=
  match devLocate s part .store (buf * 2 ^ 48 + off) 1 with
  | .ok _ k => some k
  | .trap _ => none

/-- `MIGFWD_FORWARD` (R394): a remote write that an enabled entry names is sent on; another is performed here. -/
def execMigfwdForward (part buf off : Nat) (data : List (BitVec 8)) (s : State) : Outcome :=
  .next (match s.part? part with
    | none => s
    | some p =>
      match p.migfwd.find? fun x => migMatches x.2 buf off data.length with
      | some (_, e) =>
        s.updDev fun d =>
          { d with forwards := d.forwards ++ [{ dev := bitsN e 244 240, slot := bitsN e 237 232, buf := bitsN e 223 208, off, data }] }
      | none => writePieces part (remotePlace s part buf) (data.length + 1) off data (countLost s part .store (buf * 2 ^ 48 + off) 1))

/-! ### SPDM and PLDM (R385, R388) -/

/-- A slot's responder. -/
def spdmOf (s : State) (slot : Nat) : Spdm :=
  (s.dev.spdm.find? fun x => x.slot = slot).getD { slot, version := false, caps := false, algs := none, log := none }
def setSpdm (s : State) (x : Spdm) : State :=
  s.updDev fun d => { d with spdm := x :: d.spdm.filter fun y => y.slot ≠ x.slot }

/-- A request reaches a slot's monitor: it takes the interrupt and answers; without a monitor nothing answers. -/
def spdmAnswer (s : State) (slot : Nat) (f : State → State) : State :=
  if s.dev.fwm.getLsbD slot then f (raiseCtl s slot 4) else s

/-- A request that needs the negotiation: with another outcome it is answered with `ERROR`. -/
def negotiated (s : State) (slot : Nat) (f : State → State) : State :=
  spdmAnswer s slot fun s => if (spdmOf s slot).algs = some true then f s else giveAnswer s .spdmError

/-- A request of the negotiation: once one has selected none, every later one is answered with `ERROR`. -/
def negotiating (s : State) (slot : Nat) (f : State → State) : State :=
  spdmAnswer s slot fun s => if (spdmOf s slot).algs = some false then giveAnswer s .spdmError else f s

/-- `GET_VERSION` (R388): SPDM 1.2, and the exchange begins anew. -/
def execGetVersion (slot : Nat) (s : State) : Outcome :=
  .next (negotiating s slot fun s =>
    giveAnswer (setSpdm s { spdmOf s slot with version := true, caps := false, algs := none }) (.spdmVersion 1 2))

/-- `GET_CAPABILITIES` (R388). -/
def execGetCapabilities (slot : Nat) (s : State) : Outcome :=
  .next (negotiating s slot fun s =>
    if (spdmOf s slot).version then
      giveAnswer (setSpdm s { spdmOf s slot with caps := true }) (.spdmCapabilities true true true false false false false)
    else giveAnswer s .spdmError)

/-- `NEGOTIATE_ALGORITHMS` (R388): the one algorithm set, or none. -/
def execNegotiateAlgorithms (slot : Nat) (offer : AlgOffer) (s : State) : Outcome :=
  .next (negotiating s slot fun s =>
    if (spdmOf s slot).caps then
      let sel := offer.ed448 && offer.sha3_384 && offer.dmtf && offer.rawBits
      giveAnswer (setSpdm s { spdmOf s slot with algs := some sel }) (.spdmAlgorithms sel)
    else giveAnswer s .spdmError)

/-- `GET_DIGESTS` (R388): the digest of the chain in slot 0 is a free value, the same at each request. -/
def execGetDigests (slot : Nat) (s : State) : Outcome :=
  .next (negotiated s slot fun s => giveAnswer s (.spdmDigests 0 (Config.spdm slot)))

/-- `GET_CERTIFICATE` (R388): a part of the one chain. -/
def execGetCertificate (slot chain off len : Nat) (s : State) : Outcome :=
  .next (negotiated s slot fun s => giveAnswer s (if chain = 0 then .spdmCertificate 0 off len else .spdmError))

/-- A signature: a free value. -/
def withSignature (s : State) (f : Nat → Answer) : State :=
  giveAnswer { s with free := s.free + 1 } (f (Config.spdm (64 + s.free)))

/-- `CHALLENGE` (R388). -/
def execChallenge (slot chain nonce : Nat) (s : State) : Outcome :=
  .next (negotiated s slot fun s =>
    if chain = 0 then withSignature s fun sig => .spdmChallenge 0 nonce sig else giveAnswer s .spdmError)

/-- The measurement blocks that an index names: 1 to 3 the images, 255 all of them (R388). -/
def measuredBlocks (log index : Nat) : Option (List (Nat × Nat)) :=
  let block (i : Nat) : Nat × Nat := (i, Config.spdm (2 ^ 64 + 4 * log + i))
  if index = 255 then some [block 1, block 2, block 3]
  else if 1 ≤ index ∧ index ≤ 3 then some [block index]
  else if index = 0 then some []
  else none

/-- `GET_MEASUREMENTS` (R388): digests that stay until the images are loaded again. -/
def execGetMeasurements (slot index nonce : Nat) (s : State) : Outcome :=
  .next (negotiated s slot fun s =>
    match (spdmOf s slot).log.bind fun g => measuredBlocks g index with
    | some bs => withSignature s fun sig => .spdmMeasurements bs nonce sig
    | none => giveAnswer s .spdmError)

/-- `PLDM_TELEMETRY` (R388): a reading is a free value. -/
def execPldmTelemetry (slot : Nat) (s : State) : Outcome :=
  .next (giveAnswer { s with free := s.free + 1 } (.pldm (Config.spdm (2 ^ 128 + 64 * s.free + slot % 64))))

end Sys2Proof.Machine
end

