-- ==== Sys2Proof/Machine/Mask.lean ====
section
/-! DEFINITION. Mask registers (R156 to R158). -/

namespace Sys2Proof.Machine

/-- The pour's mask register. -/
def kread (s : State) (k : BitVec 6) : Word := ((s.curPour?).map fun p => p.kreg k.toNat).getD 0

/-- Write a mask register of the pour (R156): no bit stays for a lane that is not in the pour. -/
def kwrite (k : BitVec 6) (m : Word) (s : State) : State :=
  if hk : k.toNat < 12 then
    s.updPour s.cur.core s.cur.slot fun p => { p with k := p.k.set k.toNat (m &&& s.present) hk }
  else s

/-- A word that writes a mask register. -/
def maskWord (h : Hdr) (k : BitVec 6) (f : State → Word) (s : State) : State :=
  runWord h { eff := fun s => kwrite k (f s) s } s

/-- `KJOIN` (R156). -/
def execKjoin (h : Hdr) (d : BitVec 6) (s : State) : Outcome :=
  .next (maskWord h d (fun s => kread s d ||| s.active) s)

/-- `KLEAVE` (R156). -/
def execKleave (h : Hdr) (d : BitVec 6) (s : State) : Outcome :=
  .next (maskWord h d (fun s => kread s d &&& ~~~s.active) s)

/-- Why the entry that issues `KWAIT` on register `k` may issue: some 1 where it shares no lane with the mask or is
released, some 0 where every entry of the pour waits and none is released, none where it waits (R157, R158). -/
def kwaitOutcome (s : State) (k : Nat) : Option Bool :=
  match s.curPour? with
  | none => some true
  | some p =>
    if s.active &&& p.kreg k = 0 then some true
    else if let some b := s.curEntry?.bind (·.freed) then some b
    else if p.kreg k &&& ~~~(kwaitUnion s p k ||| s.active) = 0 then some true
    else if kstuck s p then some false
    else none

/-- `KWAIT` (R157, R158): an entry that must wait is held without a window. -/
def execKwait (h : Hdr) (p : PredNo) (a : BitVec 6) (s : State) : Outcome :=
  .next (runWord h
    { wait := fun s => if (kwaitOutcome s a.toNat).isNone then some { wtype := 14, key := a.toNat } else none,
      eff := fun s => putPred 1 p (fun _ => (kwaitOutcome s a.toNat).getD true) s } s)

/-- `KBAL` (R156). In a protected launch the model reads the visible lane of a pair alone (notes/assumptions/136.md). -/
def execKbal (h : Hdr) (d : BitVec 6) (b : PredNo) (s : State) : Outcome :=
  .next (maskWord h d (fun s =>
    s.cur.lanes.foldl (fun m x => setBit m x.1 ((s.before? x.2).any fun t => t.rdP s.time b)) (kread s d)) s)

/-- `KMOV` (R156). -/
def execKmov (h : Hdr) (d a : BitVec 6) (s : State) : Outcome :=
  .next (maskWord h d (fun s => kread s a) s)

/-- `KRD` (R156). -/
def execKrd (h : Hdr) (d : Reg) (a : BitVec 6) (s : State) : Outcome :=
  .next (runWord h { eff := fun s => putResult 1 d (fun _ => kread s a) s } s)

/-- `KWR` (R156): from the lowest active lane, of a pair the visible one (notes/assumptions/136.md). -/
def execKwr (h : Hdr) (d : BitVec 6) (a : Reg) (s : State) : Outcome :=
  .next (maskWord h d (fun s => ((s.issuing?).map fun x => x.2.rdV s.time a).getD 0) s)

/-- `KCLR` (R156). -/
def execKclr (h : Hdr) (d : BitVec 6) (s : State) : Outcome :=
  .next (maskWord h d (fun _ => 0) s)

/-- `KFRONT` (R156). -/
def execKfront (h : Hdr) (d sel : BitVec 6) (s : State) : Outcome :=
  .next (runWord h { eff := fun s => putResult 1 d (fun _ =>
    if sel = 0 then s.present else if sel = 1 then BitVec.ofNat 32 s.frontierSize else s.active) s } s)

end Sys2Proof.Machine
end

