-- ==== Sys2Proof/Machine/Mem.lean ====
section
/-! DEFINITION. Loads, stores and prefetches (R203 to R206, R219). -/

namespace Sys2Proof.Machine

/-- A load at a lane's address (R203, R204). -/
def loadAsk (addr : Nat → Thread → Nat × Nat) (ty : BitVec 3) (cp : BitVec 2) (d : Reg) (now : Nat) (t : Thread) : Ask :=
  { op := .load, kind := .load, idx := (addr now t).1, off := (addr now t).2, size := tySize ty, ty := ty.toNat,
    cp := cp.toNat, dst := some d }

/-- A store at a lane's address (R203, R204). -/
def storeAsk (addr : Nat → Thread → Nat × Nat) (ty : BitVec 3) (cp : BitVec 2) (v : Reg) (now : Nat) (t : Thread) : Ask :=
  { op := .store, kind := .store, idx := (addr now t).1, off := (addr now t).2, size := tySize ty, ty := ty.toNat,
    cp := cp.toNat, data := dataOf now t ty v }

/-- `LD` (R203, R204). -/
def execLd (h : Hdr) (d : Reg) (w : PairNo) (t : BitVec 3) (cp : BitVec 2) (imm : BitVec 7) (s : State) : Outcome :=
  .next (accessWord h (loadAsk (fun now u => addrImm now u w t imm) t cp d) s)

/-- `LDX` (R203, R204). -/
def execLdx (h : Hdr) (d : Reg) (w : PairNo) (t : BitVec 3) (cp : BitVec 2) (b : Reg) (s : State) : Outcome :=
  .next (accessWord h (loadAsk (fun now u => addrReg now u w b) t cp d) s)

/-- `ST` (R203 to R205). -/
def execSt (h : Hdr) (v : Reg) (w : PairNo) (t : BitVec 3) (cp : BitVec 2) (imm : BitVec 7) (s : State) : Outcome :=
  .next (accessWord h (storeAsk (fun now u => addrImm now u w t imm) t cp v) s)

/-- `STX` (R203 to R205). -/
def execStx (h : Hdr) (v : Reg) (w : PairNo) (t : BitVec 3) (cp : BitVec 2) (b : Reg) (s : State) : Outcome :=
  .next (accessWord h (storeAsk (fun now u => addrReg now u w b) t cp v) s)

/-- `PREF.l1` (R219): a load of one byte that writes no register. Its copy counts as one of `cp` 01, which a full L1 gives
up first, as the model's choice (notes/assumptions/139.md). -/
def execPrefL1 (h : Hdr) (a : PairNo) (s : State) : Outcome :=
  .next (accessWord h (fun now t =>
    { op := .pref, kind := .load, idx := (addrPair now t a).1, off := (addrPair now t a).2, size := 1, ty := 0, cp := 1 }) s)

/-- `PREF.l2` (R219): a load of one byte that writes no register. -/
def execPrefL2 (h : Hdr) (a : PairNo) (s : State) : Outcome :=
  .next (accessWord h (fun now t =>
    { op := .pref, kind := .load, idx := (addrPair now t a).1, off := (addrPair now t a).2, size := 1, ty := 0, cp := 2 }) s)

end Sys2Proof.Machine
end

