-- ==== Sys2Proof/Machine/Dispatch.lean ====
section
/-! DEFINITION. The meaning of every instruction: one arm per constructor of `Instr`, each one call of its own meaning. -/

namespace Sys2Proof.Machine

open Sys2Proof (Instr)

def exec (i : Instr) (s : State) : Host.Outcome State Fault Refusal :=
  match i with
  | .nop h => Sys2Proof.Machine.execNop h s
  | .exit h => Sys2Proof.Machine.execExit h s
  | .yield h => Sys2Proof.Machine.execYield h s
  | .sleep h a => Sys2Proof.Machine.execSleep h a s
  | .pri h prio => Sys2Proof.Machine.execPri h prio s
  | .trap h imm => Sys2Proof.Machine.execTrap h imm s
  | .launch h d a => Sys2Proof.Machine.execLaunch h d a s
  | .fwdh h d a => Sys2Proof.Machine.execFwdh h d a s
  | .rds h d sel => Sys2Proof.Machine.execRds h d sel s
  | .csrr h d r => Sys2Proof.Machine.execCsrr h d r s
  | .csrw h v r => Sys2Proof.Machine.execCsrw h v r s
  | .csrs h v r => Sys2Proof.Machine.execCsrs h v r s
  | .csrc h v r => Sys2Proof.Machine.execCsrc h v r s
  | .eret h => Sys2Proof.Machine.execEret h s
  | .wfi h => Sys2Proof.Machine.execWfi h s
  | .btinv h a => Sys2Proof.Machine.execBtinv h a s
  | .btsync h => Sys2Proof.Machine.execBtsync h s
  | .dig h a => Sys2Proof.Machine.execDig h a s
  | .add h d a b => Sys2Proof.Machine.execAdd h d a b s
  | .sub h d a b => Sys2Proof.Machine.execSub h d a b s
  | .mul h d a b => Sys2Proof.Machine.execMul h d a b s
  | .mulhiI h d a b => Sys2Proof.Machine.execMulhiI h d a b s
  | .mulhiN h d a b => Sys2Proof.Machine.execMulhiN h d a b s
  | .macc h d a b => Sys2Proof.Machine.execMacc h d a b s
  | .divI h d a b => Sys2Proof.Machine.execDivI h d a b s
  | .divN h d a b => Sys2Proof.Machine.execDivN h d a b s
  | .remI h d a b => Sys2Proof.Machine.execRemI h d a b s
  | .remN h d a b => Sys2Proof.Machine.execRemN h d a b s
  | .minI h d a b => Sys2Proof.Machine.execMinI h d a b s
  | .minN h d a b => Sys2Proof.Machine.execMinN h d a b s
  | .maxI h d a b => Sys2Proof.Machine.execMaxI h d a b s
  | .maxN h d a b => Sys2Proof.Machine.execMaxN h d a b s
  | .abs h d a => Sys2Proof.Machine.execAbs h d a s
  | .neg h d a => Sys2Proof.Machine.execNeg h d a s
  | .and h d a b => Sys2Proof.Machine.execAnd h d a b s
  | .or h d a b => Sys2Proof.Machine.execOr h d a b s
  | .xor h d a b => Sys2Proof.Machine.execXor h d a b s
  | .andn h d a b => Sys2Proof.Machine.execAndn h d a b s
  | .orn h d a b => Sys2Proof.Machine.execOrn h d a b s
  | .shl h d a b => Sys2Proof.Machine.execShl h d a b s
  | .shr h d a b => Sys2Proof.Machine.execShr h d a b s
  | .sra h d a b => Sys2Proof.Machine.execSra h d a b s
  | .rotl h d a b => Sys2Proof.Machine.execRotl h d a b s
  | .shli h d a n => Sys2Proof.Machine.execShli h d a n s
  | .shri h d a n => Sys2Proof.Machine.execShri h d a n s
  | .srai h d a n => Sys2Proof.Machine.execSrai h d a n s
  | .clz h d a => Sys2Proof.Machine.execClz h d a s
  | .ctz h d a => Sys2Proof.Machine.execCtz h d a s
  | .popc h d a => Sys2Proof.Machine.execPopc h d a s
  | .brev h d a => Sys2Proof.Machine.execBrev h d a s
  | .bfxI h d a b => Sys2Proof.Machine.execBfxI h d a b s
  | .bfxN h d a b => Sys2Proof.Machine.execBfxN h d a b s
  | .bfi h d a b => Sys2Proof.Machine.execBfi h d a b s
  | .mov h d a => Sys2Proof.Machine.execMov h d a s
  | .add64 h d a b => Sys2Proof.Machine.execAdd64 h d a b s
  | .sub64 h d a b => Sys2Proof.Machine.execSub64 h d a b s
  | .mulwI h d a b => Sys2Proof.Machine.execMulwI h d a b s
  | .mulwN h d a b => Sys2Proof.Machine.execMulwN h d a b s
  | .addof h d a b => Sys2Proof.Machine.execAddof h d a b s
  | .mkptr h d a b => Sys2Proof.Machine.execMkptr h d a b s
  | .pix h d a => Sys2Proof.Machine.execPix h d a s
  | .selP0 h d a b => Sys2Proof.Machine.execSelP0 h d a b s
  | .selP1 h d a b => Sys2Proof.Machine.execSelP1 h d a b s
  | .selP2 h d a b => Sys2Proof.Machine.execSelP2 h d a b s
  | .selP3 h d a b => Sys2Proof.Machine.execSelP3 h d a b s
  | .selP4 h d a b => Sys2Proof.Machine.execSelP4 h d a b s
  | .selP5 h d a b => Sys2Proof.Machine.execSelP5 h d a b s
  | .selP6 h d a b => Sys2Proof.Machine.execSelP6 h d a b s
  | .addi h d a imm => Sys2Proof.Machine.execAddi h d a imm s
  | .andi h d a imm => Sys2Proof.Machine.execAndi h d a imm s
  | .ori h d a imm => Sys2Proof.Machine.execOri h d a imm s
  | .xori h d a imm => Sys2Proof.Machine.execXori h d a imm s
  | .lui h d imm => Sys2Proof.Machine.execLui h d imm s
  | .apc h d imm => Sys2Proof.Machine.execApc h d imm s
  | .cmpEqB32 h p a b => Sys2Proof.Machine.execCmpEqB32 h p a b s
  | .cmpNeB32 h p a b => Sys2Proof.Machine.execCmpNeB32 h p a b s
  | .cmpLtI32 h p a b => Sys2Proof.Machine.execCmpLtI32 h p a b s
  | .cmpLeI32 h p a b => Sys2Proof.Machine.execCmpLeI32 h p a b s
  | .cmpLtN32 h p a b => Sys2Proof.Machine.execCmpLtN32 h p a b s
  | .cmpLeN32 h p a b => Sys2Proof.Machine.execCmpLeN32 h p a b s
  | .cmpEqB64 h p a b => Sys2Proof.Machine.execCmpEqB64 h p a b s
  | .cmpNeB64 h p a b => Sys2Proof.Machine.execCmpNeB64 h p a b s
  | .cmpLtI64 h p a b => Sys2Proof.Machine.execCmpLtI64 h p a b s
  | .cmpLeI64 h p a b => Sys2Proof.Machine.execCmpLeI64 h p a b s
  | .cmpLtN64 h p a b => Sys2Proof.Machine.execCmpLtN64 h p a b s
  | .cmpLeN64 h p a b => Sys2Proof.Machine.execCmpLeN64 h p a b s
  | .cmpEqF32 h p a b => Sys2Proof.Machine.execCmpEqF32 h p a b s
  | .cmpNeF32 h p a b => Sys2Proof.Machine.execCmpNeF32 h p a b s
  | .cmpLtF32 h p a b => Sys2Proof.Machine.execCmpLtF32 h p a b s
  | .cmpLeF32 h p a b => Sys2Proof.Machine.execCmpLeF32 h p a b s
  | .cmpUnF32 h p a b => Sys2Proof.Machine.execCmpUnF32 h p a b s
  | .cmpiEq h p a imm => Sys2Proof.Machine.execCmpiEq h p a imm s
  | .cmpiNe h p a imm => Sys2Proof.Machine.execCmpiNe h p a imm s
  | .cmpiLtI h p a imm => Sys2Proof.Machine.execCmpiLtI h p a imm s
  | .cmpiGeI h p a imm => Sys2Proof.Machine.execCmpiGeI h p a imm s
  | .cmpiLtN h p a imm => Sys2Proof.Machine.execCmpiLtN h p a imm s
  | .cmpiGeN h p a imm => Sys2Proof.Machine.execCmpiGeN h p a imm s
  | .cmpiBset h p a imm => Sys2Proof.Machine.execCmpiBset h p a imm s
  | .cmpiBclr h p a imm => Sys2Proof.Machine.execCmpiBclr h p a imm s
  | .pand h p a b => Sys2Proof.Machine.execPand h p a b s
  | .por h p a b => Sys2Proof.Machine.execPor h p a b s
  | .pxor h p a b => Sys2Proof.Machine.execPxor h p a b s
  | .pandn h p a b => Sys2Proof.Machine.execPandn h p a b s
  | .pmov h p a => Sys2Proof.Machine.execPmov h p a s
  | .pset h p n => Sys2Proof.Machine.execPset h p n s
  | .p2v h d => Sys2Proof.Machine.execP2v h d s
  | .v2p h a => Sys2Proof.Machine.execV2p h a s
  | .br h p n prio disp => Sys2Proof.Machine.execBr h p n prio disp s
  | .jmp h prio disp => Sys2Proof.Machine.execJmp h prio disp s
  | .call h prio disp => Sys2Proof.Machine.execCall h prio disp s
  | .jr h a prio => Sys2Proof.Machine.execJr h a prio s
  | .callr h a prio => Sys2Proof.Machine.execCallr h a prio s
  | .ret h prio => Sys2Proof.Machine.execRet h prio s
  | .kjoin h d => Sys2Proof.Machine.execKjoin h d s
  | .kleave h d => Sys2Proof.Machine.execKleave h d s
  | .kwait h p a => Sys2Proof.Machine.execKwait h p a s
  | .kbal h d b => Sys2Proof.Machine.execKbal h d b s
  | .kmov h d a => Sys2Proof.Machine.execKmov h d a s
  | .krd h d a => Sys2Proof.Machine.execKrd h d a s
  | .kwr h d a => Sys2Proof.Machine.execKwr h d a s
  | .kclr h d => Sys2Proof.Machine.execKclr h d s
  | .kfront h d sel => Sys2Proof.Machine.execKfront h d sel s
  | .fadd h d a b => Sys2Proof.Machine.execFadd h d a b s
  | .fsub h d a b => Sys2Proof.Machine.execFsub h d a b s
  | .fmul h d a b => Sys2Proof.Machine.execFmul h d a b s
  | .fmin h d a b => Sys2Proof.Machine.execFmin h d a b s
  | .fmax h d a b => Sys2Proof.Machine.execFmax h d a b s
  | .fabs h d a => Sys2Proof.Machine.execFabs h d a s
  | .fneg h d a => Sys2Proof.Machine.execFneg h d a s
  | .fcps h d a b => Sys2Proof.Machine.execFcps h d a b s
  | .frndNe h d a => Sys2Proof.Machine.execFrndNe h d a s
  | .frndTz h d a => Sys2Proof.Machine.execFrndTz h d a s
  | .frndDn h d a => Sys2Proof.Machine.execFrndDn h d a s
  | .frndUp h d a => Sys2Proof.Machine.execFrndUp h d a s
  | .fclass h d a => Sys2Proof.Machine.execFclass h d a s
  | .fscale h d a b => Sys2Proof.Machine.execFscale h d a b s
  | .hadd2 h d a b => Sys2Proof.Machine.execHadd2 h d a b s
  | .hsub2 h d a b => Sys2Proof.Machine.execHsub2 h d a b s
  | .hmul2 h d a b => Sys2Proof.Machine.execHmul2 h d a b s
  | .hmin2 h d a b => Sys2Proof.Machine.execHmin2 h d a b s
  | .hmax2 h d a b => Sys2Proof.Machine.execHmax2 h d a b s
  | .badd2 h d a b => Sys2Proof.Machine.execBadd2 h d a b s
  | .bsub2 h d a b => Sys2Proof.Machine.execBsub2 h d a b s
  | .bmul2 h d a b => Sys2Proof.Machine.execBmul2 h d a b s
  | .bmin2 h d a b => Sys2Proof.Machine.execBmin2 h d a b s
  | .bmax2 h d a b => Sys2Proof.Machine.execBmax2 h d a b s
  | .ffma h d a b c => Sys2Proof.Machine.execFfma h d a b c s
  | .hfma2 h d a b c => Sys2Proof.Machine.execHfma2 h d a b c s
  | .bfma2 h d a b c => Sys2Proof.Machine.execBfma2 h d a b c s
  | .cvt h d a rm pol src tgt => Sys2Proof.Machine.execCvt h d a rm pol src tgt s
  | .cvtF16x2F32x2 h d a rm pol => Sys2Proof.Machine.execCvtF16x2F32x2 h d a rm pol s
  | .cvtBf16x2F32x2 h d a rm pol => Sys2Proof.Machine.execCvtBf16x2F32x2 h d a rm pol s
  | .cvtF32F16hi h d a rm pol => Sys2Proof.Machine.execCvtF32F16hi h d a rm pol s
  | .cvtF32Bf16hi h d a rm pol => Sys2Proof.Machine.execCvtF32Bf16hi h d a rm pol s
  | .rcp h d a => Sys2Proof.Machine.execRcp h d a s
  | .rsq h d a => Sys2Proof.Machine.execRsq h d a s
  | .sqrt h d a => Sys2Proof.Machine.execSqrt h d a s
  | .exp2 h d a => Sys2Proof.Machine.execExp2 h d a s
  | .log2 h d a => Sys2Proof.Machine.execLog2 h d a s
  | .sin h d a => Sys2Proof.Machine.execSin h d a s
  | .cos h d a => Sys2Proof.Machine.execCos h d a s
  | .tanh h d a => Sys2Proof.Machine.execTanh h d a s
  | .shflIdx h d a b => Sys2Proof.Machine.execShflIdx h d a b s
  | .shflUp h d a b => Sys2Proof.Machine.execShflUp h d a b s
  | .shflDn h d a b => Sys2Proof.Machine.execShflDn h d a b s
  | .shflXor h d a b => Sys2Proof.Machine.execShflXor h d a b s
  | .voteAny h p b => Sys2Proof.Machine.execVoteAny h p b s
  | .voteAll h p b => Sys2Proof.Machine.execVoteAll h p b s
  | .lrank h d b => Sys2Proof.Machine.execLrank h d b s
  | .lcnt h d b => Sys2Proof.Machine.execLcnt h d b s
  | .bcast h d a b => Sys2Proof.Machine.execBcast h d a b s
  | .rdxAddI32 h d a => Sys2Proof.Machine.execRdxAddI32 h d a s
  | .rdxAddF32 h d a => Sys2Proof.Machine.execRdxAddF32 h d a s
  | .rdxMinI32 h d a => Sys2Proof.Machine.execRdxMinI32 h d a s
  | .rdxMaxI32 h d a => Sys2Proof.Machine.execRdxMaxI32 h d a s
  | .rdxMinF32 h d a => Sys2Proof.Machine.execRdxMinF32 h d a s
  | .rdxMaxF32 h d a => Sys2Proof.Machine.execRdxMaxF32 h d a s
  | .ld h d w t cp imm => Sys2Proof.Machine.execLd h d w t cp imm s
  | .ldx h d w t cp b => Sys2Proof.Machine.execLdx h d w t cp b s
  | .st h v w t cp imm => Sys2Proof.Machine.execSt h v w t cp imm s
  | .stx h v w t cp b => Sys2Proof.Machine.execStx h v w t cp b s
  | .atomAddI32 h d a b => Sys2Proof.Machine.execAtomAddI32 h d a b s
  | .atomAddF32 h d a b => Sys2Proof.Machine.execAtomAddF32 h d a b s
  | .atomAddBf16x2 h d a b => Sys2Proof.Machine.execAtomAddBf16x2 h d a b s
  | .atomMinI32 h d a b => Sys2Proof.Machine.execAtomMinI32 h d a b s
  | .atomMinN32 h d a b => Sys2Proof.Machine.execAtomMinN32 h d a b s
  | .atomMaxI32 h d a b => Sys2Proof.Machine.execAtomMaxI32 h d a b s
  | .atomMaxN32 h d a b => Sys2Proof.Machine.execAtomMaxN32 h d a b s
  | .atomAnd h d a b => Sys2Proof.Machine.execAtomAnd h d a b s
  | .atomOr h d a b => Sys2Proof.Machine.execAtomOr h d a b s
  | .atomXor h d a b => Sys2Proof.Machine.execAtomXor h d a b s
  | .atomXchg h d a b => Sys2Proof.Machine.execAtomXchg h d a b s
  | .atomCas h d a b => Sys2Proof.Machine.execAtomCas h d a b s
  | .atomInc h d a b => Sys2Proof.Machine.execAtomInc h d a b s
  | .atomXchg64 h d a b => Sys2Proof.Machine.execAtomXchg64 h d a b s
  | .atomCas64 h d a b => Sys2Proof.Machine.execAtomCas64 h d a b s
  | .redAddI32 h a b => Sys2Proof.Machine.execRedAddI32 h a b s
  | .redAddF32 h a b => Sys2Proof.Machine.execRedAddF32 h a b s
  | .redAddBf16x2 h a b => Sys2Proof.Machine.execRedAddBf16x2 h a b s
  | .redMinI32 h a b => Sys2Proof.Machine.execRedMinI32 h a b s
  | .redMaxI32 h a b => Sys2Proof.Machine.execRedMaxI32 h a b s
  | .redAnd h a b => Sys2Proof.Machine.execRedAnd h a b s
  | .redOr h a b => Sys2Proof.Machine.execRedOr h a b s
  | .redXor h a b => Sys2Proof.Machine.execRedXor h a b s
  | .ldaB32 h d a => Sys2Proof.Machine.execLdaB32 h d a s
  | .ldaB64 h d a => Sys2Proof.Machine.execLdaB64 h d a s
  | .strB32 h a b => Sys2Proof.Machine.execStrB32 h a b s
  | .strB64 h a b => Sys2Proof.Machine.execStrB64 h a b s
  | .ldaSys h d a => Sys2Proof.Machine.execLdaSys h d a s
  | .strSys h a b => Sys2Proof.Machine.execStrSys h a b s
  | .fenceVault h d => Sys2Proof.Machine.execFenceVault h d s
  | .fencePart h d => Sys2Proof.Machine.execFencePart h d s
  | .fenceSys h d => Sys2Proof.Machine.execFenceSys h d s
  | .fwait h a => Sys2Proof.Machine.execFwait h a s
  | .fencewVault h => Sys2Proof.Machine.execFencewVault h s
  | .fencewPart h => Sys2Proof.Machine.execFencewPart h s
  | .fencewSys h => Sys2Proof.Machine.execFencewSys h s
  | .prefL1 h a => Sys2Proof.Machine.execPrefL1 h a s
  | .prefL2 h a => Sys2Proof.Machine.execPrefL2 h a s
  | .copy h d a b => Sys2Proof.Machine.execCopy h d a b s
  | .carm h a b => Sys2Proof.Machine.execCarm h a b s
  | .bwaitFull h a => Sys2Proof.Machine.execBwaitFull h a s
  | .bwaitFree h a => Sys2Proof.Machine.execBwaitFree h a s
  | .btake h a => Sys2Proof.Machine.execBtake h a s
  | .bfree h a => Sys2Proof.Machine.execBfree h a s
  | .bstat h d a => Sys2Proof.Machine.execBstat h d a s
  | .run h d a => Sys2Proof.Machine.execRun h d a s
  | .rstop h => Sys2Proof.Machine.execRstop h s
  | .pop h d n => Sys2Proof.Machine.execPop h d n s
  | .qstat h d => Sys2Proof.Machine.execQstat h d s
  | .qreset h m => Sys2Proof.Machine.execQreset h m s
  | .mma h t a wb ty n bs => Sys2Proof.Machine.execMma h t a wb ty n bs s
  | .tzero h d a b => Sys2Proof.Machine.execTzero h d a b s
  | .tld h d a b => Sys2Proof.Machine.execTld h d a b s
  | .tst h v a b => Sys2Proof.Machine.execTst h v a b s
  | .trls h a => Sys2Proof.Machine.execTrls h a s
  | .mmag h d a b => Sys2Proof.Machine.execMmag h d a b s
  | .mmal h d a b => Sys2Proof.Machine.execMmal h d a b s
  | .tstat h d a => Sys2Proof.Machine.execTstat h d a s
  | .sgnew h d a p => Sys2Proof.Machine.execSgnew h d a p s
  | .sgjoin h d a p => Sys2Proof.Machine.execSgjoin h d a p s
  | .sgjoinH h d a p => Sys2Proof.Machine.execSgjoinH h d a p s
  | .sgleave h a => Sys2Proof.Machine.execSgleave h a s
  | .sgbar h d a => Sys2Proof.Machine.execSgbar h d a s
  | .sgvoteAny h d a b => Sys2Proof.Machine.execSgvoteAny h d a b s
  | .sgvoteAll h d a b => Sys2Proof.Machine.execSgvoteAll h d a b s
  | .sgvoteCnt h d a b => Sys2Proof.Machine.execSgvoteCnt h d a b s
  | .sgredAddI32 h d a b => Sys2Proof.Machine.execSgredAddI32 h d a b s
  | .sgredAddF32 h d a b => Sys2Proof.Machine.execSgredAddF32 h d a b s
  | .sgredMinI32 h d a b => Sys2Proof.Machine.execSgredMinI32 h d a b s
  | .sgredMaxI32 h d a b => Sys2Proof.Machine.execSgredMaxI32 h d a b s
  | .sgredMinF32 h d a b => Sys2Proof.Machine.execSgredMinF32 h d a b s
  | .sgredMaxF32 h d a b => Sys2Proof.Machine.execSgredMaxF32 h d a b s
  | .sgstat h d a sel => Sys2Proof.Machine.execSgstat h d a sel s
  | .sgdrop h a => Sys2Proof.Machine.execSgdrop h a s
  | .shortStallExpiry core slot ent => Sys2Proof.Machine.execShortStallExpiry core slot ent s
  | .poolStallConvert part => Sys2Proof.Machine.execPoolStallConvert part s
  | .poolexhaust part launch => Sys2Proof.Machine.execPoolexhaust part launch s
  | .resultWriteback id => Sys2Proof.Machine.execResultWriteback id s
  | .loadResponse id => Sys2Proof.Machine.execLoadResponse id s
  | .storeAck id => Sys2Proof.Machine.execStoreAck id s
  | .storeHorizonReached tid => Sys2Proof.Machine.execStoreHorizonReached tid s
  | .deviceTimeWake tid => Sys2Proof.Machine.execDeviceTimeWake tid s
  | .ladleDrainWindow lad => Sys2Proof.Machine.execLadleDrainWindow lad s
  | .ladleDrain cluster => Sys2Proof.Machine.execLadleDrain cluster s
  | .schedulerForward tid cluster => Sys2Proof.Machine.execSchedulerForward tid cluster s
  | .recordArrival tid => Sys2Proof.Machine.execRecordArrival tid s
  | .homeWrite id => Sys2Proof.Machine.execHomeWrite id s
  | .homeRead id => Sys2Proof.Machine.execHomeRead id s
  | .vaultBankAccess id => Sys2Proof.Machine.execVaultBankAccess id s
  | .l1LeaseExpiry core line => Sys2Proof.Machine.execL1LeaseExpiry core line s
  | .leaseExpiryNotice core line => Sys2Proof.Machine.execLeaseExpiryNotice core line s
  | .updateOnlyGrant core line => Sys2Proof.Machine.execUpdateOnlyGrant core line s
  | .l1Evict core line => Sys2Proof.Machine.execL1Evict core line s
  | .deferredStoreFault id => Sys2Proof.Machine.execDeferredStoreFault id s
  | .faultEntryRetry id => Sys2Proof.Machine.execFaultEntryRetry id s
  | .bufferStateOp id => Sys2Proof.Machine.execBufferStateOp id s
  | .copyComplete id => Sys2Proof.Machine.execCopyComplete id s
  | .bufferFull part buf => Sys2Proof.Machine.execBufferFull part buf s
  | .runnerPush id => Sys2Proof.Machine.execRunnerPush id s
  | .enginePageFault id => Sys2Proof.Machine.execEnginePageFault id s
  | .tileOpArrival id => Sys2Proof.Machine.execTileOpArrival id s
  | .mmaStep id => Sys2Proof.Machine.execMmaStep id s
  | .mmalStep id => Sys2Proof.Machine.execMmalStep id s
  | .sgHomeRequest id => Sys2Proof.Machine.execSgHomeRequest id s
  | .sgReply id => Sys2Proof.Machine.execSgReply id s
  | .sgArrivalDepart id => Sys2Proof.Machine.execSgArrivalDepart id s
  | .sgResult id => Sys2Proof.Machine.execSgResult id s
  | .syscallPost tid => Sys2Proof.Machine.execSyscallPost tid s
  | .launchEnqueue id => Sys2Proof.Machine.execLaunchEnqueue id s
  | .sysdoneWrite part idx => Sys2Proof.Machine.execSysdoneWrite part idx s
  | .fltdoneService part fid => Sys2Proof.Machine.execFltdoneService part fid s
  | .fltdoneFail part fid => Sys2Proof.Machine.execFltdoneFail part fid s
  | .watchdog tid => Sys2Proof.Machine.execWatchdog tid s
  | .vaultSpill part launch cast => Sys2Proof.Machine.execVaultSpill part launch cast s
  | .vaultRestore part launch cast => Sys2Proof.Machine.execVaultRestore part launch cast s
  | .pourPreempt core slot => Sys2Proof.Machine.execPourPreempt core slot s
  | .preemptComplete part => Sys2Proof.Machine.execPreemptComplete part s
  | .vfSliceEnd part => Sys2Proof.Machine.execVfSliceEnd part s
  | .bundleRead part q => Sys2Proof.Machine.execBundleRead part q s
  | .castAdmit part => Sys2Proof.Machine.execCastAdmit part s
  | .depReread part q => Sys2Proof.Machine.execDepReread part q s
  | .castStart cluster => Sys2Proof.Machine.execCastStart cluster s
  | .pourStart cluster => Sys2Proof.Machine.execPourStart cluster s
  | .epilogueStart part launch => Sys2Proof.Machine.execEpilogueStart part launch s
  | .bundleRetire part launch => Sys2Proof.Machine.execBundleRetire part launch s
  | .pourPromote core slot => Sys2Proof.Machine.execPourPromote core slot s
  | .assayDeadline part launch cast => Sys2Proof.Machine.execAssayDeadline part launch cast s
  | .stealRequest cluster => Sys2Proof.Machine.execStealRequest cluster s
  | .stealHandle thief => Sys2Proof.Machine.execStealHandle thief s
  | .stealReply thief => Sys2Proof.Machine.execStealReply thief s
  | .enacctSample part => Sys2Proof.Machine.execEnacctSample part s
  | .rowWindowEnd chan => Sys2Proof.Machine.execRowWindowEnd chan s
  | .assaySetup part launch cast => Sys2Proof.Machine.execAssaySetup part launch cast s
  | .suspicionDecay => Sys2Proof.Machine.execSuspicionDecay s
  | .finjFlip part v => Sys2Proof.Machine.execFinjFlip part v s
  | .finjPoison part tid v => Sys2Proof.Machine.execFinjPoison part tid v s
  | .finjOff part v => Sys2Proof.Machine.execFinjOff part v s
  | .recholdHold part ref => Sys2Proof.Machine.execRecholdHold part ref s
  | .recholdRelease part ref => Sys2Proof.Machine.execRecholdRelease part ref s
  | .qack slot => Sys2Proof.Machine.execQack slot s
  | .interruptEntry slot source => Sys2Proof.Machine.execInterruptEntry slot source s
  | .l2VthrDrop slice => Sys2Proof.Machine.execL2VthrDrop slice s
  | .l2VthrRecover slice => Sys2Proof.Machine.execL2VthrRecover slice s
  | .eyeMeasure off tm vm => Sys2Proof.Machine.execEyeMeasure off tm vm s
  | .laneRetrain off => Sys2Proof.Machine.execLaneRetrain off s
  | .retrainDone off => Sys2Proof.Machine.execRetrainDone off s
  | .powerOnReset => Sys2Proof.Machine.execPowerOnReset s
  | .readySet bit => Sys2Proof.Machine.execReadySet bit s
  | .readyClear bit => Sys2Proof.Machine.execReadyClear bit s
  | .portTrain port peer => Sys2Proof.Machine.execPortTrain port peer s
  | .peerDown part e => Sys2Proof.Machine.execPeerDown part e s
  | .migfwdForward part buf off data => Sys2Proof.Machine.execMigfwdForward part buf off data s
  | .queueTailWrite part q t => Sys2Proof.Machine.execQueueTailWrite part q t s
  | .cfglockCreq m => Sys2Proof.Machine.execCfglockCreq m s
  | .cfglockCrelease m => Sys2Proof.Machine.execCfglockCrelease m s
  | .cfglockMreq m => Sys2Proof.Machine.execCfglockMreq m s
  | .cfglockMrelease m => Sys2Proof.Machine.execCfglockMrelease m s
  | .create m v => Sys2Proof.Machine.execCreate m v s
  | .destroy m v => Sys2Proof.Machine.execDestroy m v s
  | .quiesce m v => Sys2Proof.Machine.execQuiesce m v s
  | .quiesceTimeout part => Sys2Proof.Machine.execQuiesceTimeout part s
  | .resume m v => Sys2Proof.Machine.execResume m v s
  | .reset m v => Sys2Proof.Machine.execReset m v s
  | .scrub m v => Sys2Proof.Machine.execScrub m v s
  | .scrubDone slot => Sys2Proof.Machine.execScrubDone slot s
  | .shakeout m v => Sys2Proof.Machine.execShakeout m v s
  | .shakeoutDone slot => Sys2Proof.Machine.execShakeoutDone slot s
  | .preqPreempt part v => Sys2Proof.Machine.execPreqPreempt part v s
  | .preqMove part v => Sys2Proof.Machine.execPreqMove part v s
  | .pctxSave part v => Sys2Proof.Machine.execPctxSave part v s
  | .pctxRestore part v => Sys2Proof.Machine.execPctxRestore part v s
  | .pctxSaveOnevf part v => Sys2Proof.Machine.execPctxSaveOnevf part v s
  | .pctxRestoreOnevf part v => Sys2Proof.Machine.execPctxRestoreOnevf part v s
  | .pctxComplete part => Sys2Proof.Machine.execPctxComplete part s
  | .mctpDsbRead off => Sys2Proof.Machine.execMctpDsbRead off s
  | .mctpDsbWrite off v => Sys2Proof.Machine.execMctpDsbWrite off v s
  | .getVersion slot => Sys2Proof.Machine.execGetVersion slot s
  | .getCapabilities slot => Sys2Proof.Machine.execGetCapabilities slot s
  | .negotiateAlgorithms slot offer => Sys2Proof.Machine.execNegotiateAlgorithms slot offer s
  | .getDigests slot => Sys2Proof.Machine.execGetDigests slot s
  | .getCertificate slot chain off len => Sys2Proof.Machine.execGetCertificate slot chain off len s
  | .challenge slot chain nonce => Sys2Proof.Machine.execChallenge slot chain nonce s
  | .getMeasurements slot index nonce => Sys2Proof.Machine.execGetMeasurements slot index nonce s
  | .registerWrite via off size v => Sys2Proof.Machine.execRegisterWrite via off size v s
  | .illegalEncoding w => Sys2Proof.Machine.execIllegalEncoding w s
  | .btinvActed part idx => Sys2Proof.Machine.execBtinvActed part idx s
  | .arrivalValidation id => Sys2Proof.Machine.execArrivalValidation id s
  | .peerUp part e => Sys2Proof.Machine.execPeerUp part e s
  | .pldmTelemetry slot => Sys2Proof.Machine.execPldmTelemetry slot s

end Sys2Proof.Machine
end

