-- ==== Sys2Proof/Machine/Schedule.lean ====
section
/-! DEFINITION. What the device does of itself in a cy, and the passing of a cy: which events stand before it, in the order
in which it takes them (notes/assumptions/4.md). -/

namespace Sys2Proof.Machine

open Sys2Proof (Instr)

/-- Whether the device goes on with an object in flight by itself in this cy. -/
def awake (s : State) (id : Nat) : Bool := !(s.slow.any fun x => x.1 = id && decide (s.time < x.2))

/-- An event if a condition holds. -/
def onlyIf (b : Bool) (i : Instr) : List Instr := if b then [i] else []

/-! ### Memory -/

/-- What an access in flight stands before. -/
noncomputable def accDue (s : State) (a : Acc) : List Instr :=
  match a.stage with
  | .sent =>
    if storeFaults s a then [.deferredStoreFault a.id]
    else if (l1Hit s a).isSome then [.loadResponse a.id]
    else if a.gathers then onlyIf (grantDue s a.core (lineOf a.addr)) (.updateOnlyGrant a.core (lineOf a.addr))
    else onlyIf (homeReadReady s a) (.homeRead a.id) ++ onlyIf (homeWritePlace s a).isSome (.homeWrite a.id) ++
      onlyIf (bankReady s a) (.vaultBankAccess a.id)
  | .performed => onlyIf (responseOf s a).isSome (.loadResponse a.id) ++ onlyIf (ackReady a) (.storeAck a.id)
  | .unposted _ => onlyIf (storeRetry s a.id).isSome (.faultEntryRetry a.id)
  | _ => []

noncomputable def memDue (s : State) : List Instr :=
  (s.accs.filter fun a => awake s a.id).flatMap (accDue s) ++
  ((s.results.filter fun r => awake s r.id).map fun r => .resultWriteback r.id) ++
  ((s.ucopies.filter fun u => !u.granted).map fun u => .updateOnlyGrant u.core u.line) ++
  (s.l1.flatMap fun c => onlyIf (leaseOver s c.core c.line) (.l1LeaseExpiry c.core c.line)) ++
  (s.lines.flatMap fun l => l.leases.flatMap fun x => onlyIf (noticeDue s x.1 l.line) (.leaseExpiryNotice x.1 l.line)) ++
  (s.recs.flatMap fun r => onlyIf (horizonReached s r.tid) (.storeHorizonReached r.tid) ++
    onlyIf (sleepOver s r.tid) (.deviceTimeWake r.tid)) ++
  (s.btinvs.flatMap fun b => onlyIf (btinvDue s b.part b.idx) (.btinvActed b.part b.idx))

/-! ### State buffers, flasks and engines -/

noncomputable def flaskDue (s : State) : List Instr :=
  ((s.bufOps.filter fun b => awake s b.id).flatMap fun b => onlyIf (bufOpReady s b) (.bufferStateOp b.id)) ++
  (s.sgs.filter fun g => awake s g.id).flatMap fun g =>
    if validateReady g then [.arrivalValidation g.id]
    else if (departPhase s g).isSome then [.sgArrivalDepart g.id]
    else if (resultOf g).isSome then [.sgResult g.id]
    else if (replyWrites g).isSome then [.sgReply g.id]
    else onlyIf (homeReady s g) (.sgHomeRequest g.id)

noncomputable def engineDue (s : State) : List Instr :=
  let fault (id : Nat) : List Instr :=
    onlyIf (engineFaults s id).isSome (.enginePageFault id) ++ onlyIf (engineRetry s id).isSome (.faultEntryRetry id)
  ((s.copies.filter fun c => awake s c.id).flatMap fun c => fault c.id ++ onlyIf (copyReady c) (.copyComplete c.id)) ++
  (s.deliveries.flatMap fun d => match s.part? d.part with
    | some p => onlyIf (fullDue s p d.buf) (.bufferFull d.part d.buf)
    | none => []) ++
  ((s.runners.filter fun r => awake s r.id).flatMap fun r => fault r.id ++ onlyIf (runnerReady r) (.runnerPush r.id)) ++
  ((s.tileOps.filter fun o => awake s o.id).flatMap fun o =>
    fault o.id ++ onlyIf (tileReady s o) (.tileOpArrival o.id) ++ onlyIf (mmaReady s o) (.mmaStep o.id) ++
      onlyIf (loopReady o) (.mmalStep o.id))

/-! ### Pours and records -/

noncomputable def pourDue (s : State) (p : Pour) : List Instr :=
  ((p.entries.zipIdx).flatMap fun x => onlyIf (stallExpired s p x.1) (.shortStallExpiry p.core p.slot x.2)) ++
  onlyIf (preemptWanted s p) (.pourPreempt p.core p.slot) ++ onlyIf (promoteDue s p) (.pourPromote p.core p.slot)

/-- The clusters of the partitions. -/
def allClusters (s : State) : List Nat := s.parts.flatMap Part.clusters

noncomputable def recordDue (s : State) : List Instr :=
  (s.pours.flatMap (pourDue s)) ++
  (s.parts.flatMap fun p => onlyIf (convertDue s p.first) (.poolStallConvert p.first)) ++
  (s.launches.flatMap fun l => onlyIf (poolTimeout s l.part l.num) (.poolexhaust l.part l.num)) ++
  (s.ladles.flatMap fun l => onlyIf (windowOver s l) (.ladleDrainWindow l.id)) ++
  (s.recs.flatMap fun r => onlyIf (arrives r && awake s r.tid) (.recordArrival r.tid)) ++
  (s.posts.flatMap fun q => match q.bundle with
    | none => onlyIf (syscallPlace s q).isSome (.syscallPost q.tid)
    | some _ => onlyIf (enqueueReady s q.id).isSome (.launchEnqueue q.id)) ++
  (s.threads.flatMap fun t => onlyIf (handlerLate s t.tid) (.watchdog t.tid)) ++
  (s.casts.flatMap fun c => match s.part? c.part with
    | some p => onlyIf (restoreDue s p c) (.vaultRestore c.part c.launch c.num)
    | none => []) ++
  ((allClusters s).flatMap fun c => onlyIf (nextDrain s c).isSome (.ladleDrain c)) ++
  s.casts.flatMap fun c => match s.part? c.part with
    | some p => onlyIf (spillDue s p c) (.vaultSpill c.part c.launch c.num)
    | none => []

/-! ### The front end, partitions and care -/

noncomputable def frontDue (s : State) : List Instr :=
  (s.parts.flatMap fun p =>
    onlyIf (preemptDone s p) (.preemptComplete p.first) ++ onlyIf (sliceOver p s.time) (.vfSliceEnd p.first) ++
    onlyIf (pctxDone s p) (.pctxComplete p.first) ++ onlyIf (quiesceOver s p.first) (.quiesceTimeout p.first) ++
    (p.queues.flatMap fun q => onlyIf (readDue s p q.1) (.bundleRead p.first q.1) ++ onlyIf (rereadDue s p q.1) (.depReread p.first q.1)) ++
    onlyIf (admitDue s p) (.castAdmit p.first) ++ onlyIf (decide (p.sampled < s.time / 10000)) (.enacctSample p.first)) ++
  (s.casts.flatMap fun c => onlyIf (setupPlan s c.part c.launch c.num).isSome (.assaySetup c.part c.launch c.num) ++
    onlyIf (deadlineOver s c) (.assayDeadline c.part c.launch c.num)) ++
  ((allClusters s).flatMap fun c =>
    onlyIf (startPlan s c).isSome (.castStart c) ++ onlyIf (pourPlan s c).isSome (.pourStart c)) ++
  (s.launches.flatMap fun l => onlyIf (epilogueDue s l) (.epilogueStart l.part l.num) ++ onlyIf (retireDue s l) (.bundleRetire l.part l.num)) ++
  (s.steals.flatMap fun x => if x.2.2.isSome then [.stealReply x.1] else [.stealHandle x.1]) ++
  ((allClusters s).flatMap fun c => onlyIf (stealDue s c).isSome (.stealRequest c)) ++
  (s.ctls.flatMap fun c => c.pending.flatMap fun x => onlyIf (interruptReady s c.slot x) (.interruptEntry c.slot x)) ++
  (s.dev.rows.flatMap fun r => onlyIf (rowsOld s r.chan) (.rowWindowEnd r.chan)) ++
  (s.dev.rails.flatMap fun x => onlyIf (railLow s x.1) (.l2VthrDrop x.1) ++ onlyIf (railBack s x.1) (.l2VthrRecover x.1)) ++
  onlyIf (decayDue s) .suspicionDecay

/-- The events that stand before the device in this cy. -/
noncomputable def dueList (s : State) : List Instr := memDue s ++ flaskDue s ++ engineDue s ++ recordDue s ++ frontDue s

/-! ### The passing of a cy -/

/-- Since when a pour has been ready without issuing (R320); a promoted one keeps its place until it issues. -/
def noteReady (s : State) (p : Pour) : Pour :=
  if pourMayIssue s p && (chooseEntry s p).isSome then { p with readySince := some (p.readySince.getD s.time) }
  else if p.promoted then p
  else { p with readySince := none }

/-- The first cy in which a ladle was eligible (R321). -/
def noteEligible (s : State) (l : Ladle) : Ladle :=
  { l with eligibleSince := if ladleEligible s l then some (l.eligibleSince.getD s.time) else l.eligibleSince }

/-- The entries of a pour whose window ends with this cy and whose condition is false (R49). -/
def noteExpired (s : State) (p : Pour) : Pour :=
  let note (e : Entry) : Entry :=
    if windowEnds s p e then { e with stall := e.stall.map fun st => { st with expired := true } } else e
  { p with entries := p.entries.map note }

/-- Whether a write of a thread that has ended is complete: nothing asks for it any more. -/
def accOver (s : State) (a : Acc) : Bool := a.complete s.time && (a.tid.any fun t => (s.thread? t).isNone)

/-- A cy passes (R6); what the engines and the device have written into a buffer table wakes records (R55). -/
def tick (s : State) : State :=
  let s := bufferWakes s
  { s with
    time := s.time + 1, busy := [], pours := (s.pours.map (noteReady s)).map fun p => noteFreed s (noteExpired s p), ladles := s.ladles.map (noteEligible s),
    locks := locksDue (s.time + 1) s.locks, accs := s.accs.filter fun a => !accOver s a,
    vholds := s.vholds.filter (fun x => decide (s.time + 1 < x.free)),
    slow := s.slow.filter fun x => decide (s.time < x.2) }

end Sys2Proof.Machine
end

