-- ==== Sys2Proof/Machine/Step.lean ====
section
/-! DEFINITION. One step of the device: the next thing that arrives, else what is due, else a group that issues, else a
cy that passes. -/

namespace Sys2Proof.Machine

open Sys2Proof (Instr)

/-- Whether an event changes anything. -/
noncomputable def acts (s : State) (i : Instr) : Bool :=
  match exec i s with
  | .next s' => s' != s
  | _ => true

/-- What the device does without its outside: the first event that stands before it and changes anything, else the group
that issues next, else a cy that passes. -/
noncomputable def stepAlone (s : State) : Host.Outcome State Fault Refusal :=
  match (dueList s).find? (acts s) with
  | some i => exec i s
  | none =>
    match chooseIssue s with
    | some c => issue exec s c
    | none => .next (tick s)

/-- An input arrives. -/
def stepInput (x : Input) (s : State) : Host.Outcome State Fault Refusal :=
  match x with
  | .hostWrite part addr data => .next (hostWrite part addr data s)
  | .outside key data => .next (outsideWrite key data s)
  | .arrayError cls owner place hard => .next (arrayError cls owner place hard s)
  | .linkError off => .next (linkError off s)
  | .upset id second row col flip => .next (upsetOp id second row col flip s)
  | .rail slice mv => .next (railAt slice mv s)
  | .sealPage slot page => .next (sealPage slot page s)
  | .loaded part kernel ok => .next (loaded part kernel ok s)
  | .member port num bridge => .next (groupMember port num bridge s)
  | .migrateTile tid off => .next (migrateTile tid off s)
  | .event i => if isEvent i then exec i s else .fault .notAnEvent

/-- One step. -/
noncomputable def step (s : State) : Host.Outcome State Fault Refusal :=
  match s.agenda with
  | (cy, x) :: rest => if cy ≤ s.time then stepInput x { s with agenda := rest } else stepAlone s
  | [] => stepAlone s

/-- A word placed where the next step fetches it (notes/assumptions/10.md). -/
def State.withFetchWord (s : State) (_nbits w : Nat) : State := placeWord s w

end Sys2Proof.Machine
end

