-- ==== Sys2Proof/Safety.lean ====
section
/-! DEFINITION. What a safe run is, and the terms in which the statements speak of single words and of events: the
context of a word, what its group leaves behind, what a result form writes. -/

namespace Sys2Proof

/-- A step goes on: the outside sent no nonsense and the instruction has its meaning. -/
def goesOn (s : Machine.State) : Prop := ∃ t, Machine.step s = .next t

/-- The memory of a state is in canonical form. -/
def memoryOk (s : Machine.State) : Prop := Machine.Memory.wf s.mem = true

namespace Machine

open Sys2Proof (Instr)

/-! ### The context of a word -/

/-- A group of one word on some lanes of entry `e` of pour `p`, for which nothing has trapped yet (R76 to R78). -/
structure OneWord (s : State) (p : Pour) (e : Entry) : Prop where
  phase : s.cur.phase = .alone
  pour : s.curPour? = some p
  entry : s.curEntry? = some e
  lanes : s.cur.lanes ≠ []
  inside : ∀ x ∈ s.cur.lanes, e.mask.getLsbD x.1 = true
  distinct : (s.cur.lanes.map (·.1)).Nodup
  traps : s.cur.traps = []
  transfers : s.cur.transfers = []
  prio : s.cur.newPrio = none
  gone : s.cur.gone = 0
  ends : s.cur.ends = []
  few : p.entries.length ≤ 8

/-- A word whose effect takes place: a group of one word, or a word of a larger group once the checks of all its words
are over (R77). -/
def Runs (s : State) (p : Pour) (e : Entry) : Prop := OneWord s p e ∨ s.cur.phase = .apply

/-- Among entries `es`, lane `l` stands at `pc` of code buffer `buf`, ready to be chosen, with at least priority `prio`
(R44, R152). -/
def StandsAt (es : List Entry) (l : Nat) (pc : Word) (prio : BitVec 4) (buf : Nat) : Prop :=
  ∃ e ∈ es, e.mask.getLsbD l = true ∧ e.pc = pc ∧ e.buf = buf ∧ prio ≤ e.prio ∧ e.stall = none

/-- How a group of one word that nothing stops leaves its pour: with mask registers `k`, and each lane `x` of the group
at the PC and priority `go x`; every other pour as it was (R77, R152). -/
def Moves (s t : State) (p : Pour) (k : Vector Word 12) (buf : Nat) (go : Nat × Nat → Word × BitVec 4) : Prop :=
  (∀ q, ¬(q.core = p.core ∧ q.slot = p.slot) → (q ∈ t.pours ↔ q ∈ s.pours)) ∧
  ∃ q ∈ t.pours, q.core = p.core ∧ q.slot = p.slot ∧ q.part = p.part ∧ q.launch = p.launch ∧ q.k = k ∧
    ∀ x ∈ s.cur.lanes, StandsAt q.entries x.1 (go x).1 (go x).2 buf

/-- A word completes: `exec` answers a next state; a group of one word leaves its pour as `Moves` says, its lanes at the
word behind; and `eff` says what else holds of the next state. -/
def Completes (i : Instr) (s : State) (p : Pour) (e : Entry) (eff : State → Prop) : Prop :=
  ∃ t, exec i s = .next t ∧ (s.cur.phase = .alone → Moves s t p p.k e.buf (fun _ => (s.cur.fall, e.prio))) ∧ eff t

/-- As `Completes`, where the word itself says with which mask registers and where its lanes go on. -/
def CompletesAt (i : Instr) (s : State) (p : Pour) (e : Entry) (k : Vector Word 12) (go : Nat × Nat → Word × BitVec 4)
    (eff : State → Prop) : Prop :=
  ∃ t, exec i s = .next t ∧ (s.cur.phase = .alone → Moves s t p k e.buf go) ∧ eff t

/-- Where lane `x` goes on if `f` gives the threads their targets: there, else behind the word. -/
def State.goes (s : State) (e : Entry) (f : Thread → Option (Word × BitVec 4)) (x : Nat × Nat) : Word × BitVec 4 :=
  ((s.before? x.2).bind f).getD (s.cur.fall, e.prio)

/-- The frontier has room for every place at which a lane of the group then stands (R45, R152). -/
def Fits (s : State) (p : Pour) (e : Entry) (f : Thread → Option (Word × BitVec 4)) : Prop :=
  p.entries.length + (s.cur.lanes.map fun x => (s.goes e f x).1).dedup.length ≤ 9

/-- The physical lanes of every visible lane of the group agree on `f` (R136). -/
def Agree {α : Type} (s : State) (f : Thread → α) : Prop :=
  ∀ x ∈ s.cur.lanes, ∀ u w, s.before? x.2 = some u → s.twinOf u = some w → f u = f (s.before w)

/-- No lane of the group is of a cast selected for assay (R360). -/
def Unselected (s : State) : Prop := ∀ x ∈ s.cur.lanes, ∀ u, s.before? x.2 = some u → s.selected u = false

/-- The lanes of the group lie in a compute core. -/
def OnCompute (s : State) : Prop := s.ctlHere = false

/-- Matrix operations differ at most by a stopped `MMAL` that goes on (R351). -/
def SameOps (s t : State) : Prop :=
  List.Forall₂ (fun o o' : TileOp => o' = { o with stopped := o'.stopped, core := o'.core }) s.tileOps t.tileOps

/-- A state differs from another in threads, pours and the issue context alone. -/
def OnlyThreads (s t : State) : Prop :=
  t = { s with cur := t.cur, threads := t.threads, pours := t.pours, tileOps := t.tileOps } ∧ SameOps s t

/-- `t` is the state `u` but for the issue context, the pours and loops that go on: what stands when a group that was
computed as `u` has closed. -/
def After (u t : State) : Prop :=
  t = { u with cur := t.cur, pours := t.pours, tileOps := t.tileOps } ∧ SameOps u t

/-- The threads once register `r` of every executing thread is pending. -/
def State.pending (s : State) (r : RegRef) : List Thread := (s.eachThread fun _ u => u.pend r).threads

/-- The words of one entry that waits: the group is not issued, and its threads and what is in flight stay as in `u`; loops of
a restored pour go on (R48, R351). -/
def Waits (i : Instr) (s : State) (p : Pour) (e : Entry) (u : State) : Prop :=
  ∃ t, exec i s = .next t ∧ After u t ∧
    ∃ q ∈ t.pours, q.core = p.core ∧ q.slot = p.slot ∧ q.k = p.k ∧
      ∃ y ∈ q.entries, y.pc = e.pc ∧ y.prio = e.prio ∧ y.buf = e.buf ∧ y.mask = e.mask &&& s.active ∧ y.stall.isSome = true

/-- The token `w` stands in register `d` of every lane of the group (R240). -/
def Token (s t : State) (d : Reg) (w : Word) : Prop :=
  After { s with threads := t.threads } t ∧ ∀ x ∈ s.cur.lanes, ∀ u, s.thread? x.2 = some u →
    ∃ u', t.thread? x.2 = some u' ∧ u'.rdV s.time d = w ∧ u'.isPending (.v d) = false

/-- `chk` finds no trap for any lane of the group. -/
def NoneTraps (s : State) (chk : State → Nat → Thread → Option LaneTrap) : Prop :=
  ∀ x ∈ s.cur.lanes, ∀ u, s.before? x.2 = some u → chk s x.1 u = none

/-- No lane of the group is a record. -/
def NoRecords (s : State) : Prop := ∀ x ∈ s.cur.lanes, s.rec? x.2 = none

/-- The state once the block of `n` pieces that a word names has been read and its word issues: it is read unless the word
holds it, and is held no longer (R195). -/
def State.taken (s : State) (lane : Nat) (u : Thread) (ptr n : Nat) : State :=
  let v := if s.cur.phase = .alone ∧ heldBlock s u = none then blockNote s lane u ptr n else s
  { v with held := s.held.filter fun b => !(b.tid = u.tid && b.pc = s.cur.wpc) }

/-- The state once a word that waits has read and holds its block (R195). -/
def State.holding (s : State) (lane : Nat) (u : Thread) (ptr n : Nat) (bad : Bool) : State :=
  if (heldBlock s u).isSome = true then s
  else
    let b : HeldBlock := { tid := u.tid, pc := s.cur.wpc, data := blockRead s lane u ptr n, bad }
    { blockNote s lane u ptr n with held := b :: s.held }

/-- The state once the block of `n` pieces that a word names and cannot read yet has been asked for: nothing but, where the
request is dropped at the boundary of a partition, its loss and the count of it (R195, R383). -/
def State.missed (s : State) (lane : Nat) (u : Thread) (ptr n : Nat) : State :=
  if blockDropped s lane u ptr n = true ∧
      (s.held.any fun b => b.tid = u.tid && b.pc = s.cur.wpc && b.lost) = false then
    { s with held := { tid := u.tid, pc := s.cur.wpc, data := 0, bad := false, lost := true } :: s.held,
             dev := countError s.dev nbdrop }
  else s

/-- Every physical lane of the group has registers that meet `ok`. -/
def EachLane (s : State) (ok : Thread → Prop) : Prop :=
  ∀ x ∈ s.cur.lanes, ∀ u, s.before? x.2 = some u → ok u ∧ ∀ w, s.twinOf u = some w → ok (s.before w)

/-- Every lane of the group has a thread. -/
def Manned (s : State) : Prop := ∀ x ∈ s.cur.lanes, (s.before? x.2).isSome = true

/-- Requests of the lanes of the group have gone to the flask homes; earlier requests keep all but their place in the order
(R282). -/
def Requests (s t : State) (f : Thread → SgKind) (stage : Thread → SgStage) : Prop :=
  ∃ old new, t.sgs = old ++ new ∧ List.Forall₂ (fun g g' : SgReq => g' = { g with seq := g'.seq }) s.sgs old ∧
    List.Forall₂ (fun (x : Nat × Nat) (g : SgReq) => ∃ u, s.before? x.2 = some u ∧ g.tid = u.tid ∧ g.part = u.part ∧ g.who = u.who ∧
      g.kind = f u ∧ g.stage = stage u ∧ s.nextId ≤ g.id ∧ g.id < t.nextId) s.cur.lanes new

/-- TAKING AN EXCEPTION (R326): thread `u` of lane `l`, which left entry `e` of pour `p`, stands at the packet of the
partition's handler, at supervisor level, with PC, cause and information saved. -/
def Enters (s t : State) (p : Pour) (e : Entry) (l : Nat) (u : Thread) (vec : Word) (code : TrapCode) (info : DWord) : Prop :=
  t.thread? u.tid = some { u with
    trappc := s.cur.pc, trapcause := BitVec.ofNat 32 (code.toNat + e.prio.toNat * 2 ^ 8), trapinfo := info, level := .sup,
    trapClass := true, hbuf := vec.toNat / 2 ^ 16, hstart := s.time, stale := [] } ∧
  ∃ q ∈ t.pours, q.core = p.core ∧ q.slot = p.slot ∧
    StandsAt q.entries l (BitVec.ofNat 32 (12 * (vec.toNat % 2 ^ 16))) 15 (vec.toNat / 2 ^ 16)

/-- A group of one lane in a compute core, whose partition has a trap handler; the thread is not in it yet (R326, R329). -/
structure MayTrap (s : State) (p : Pour) (e : Entry) (l : Nat) (u : Thread) (q : Part) : Prop where
  one : OneWord s p e
  lane : s.cur.lanes = [(l, u.tid)]
  thread : s.thread? u.tid = some u
  now : s.before u = u
  compute : s.ctlHere = false
  single : u.twin = 0
  fresh : u.trapClass = false
  part : s.part? u.part = some q
  handler : q.trapvec.toNat / 2 ^ 16 ≠ 0
  room : p.entries.length ≤ 7

/-! ### Results -/

/-- Thread `u` after a fixed-latency result `x` in register `d` (R81, R83, R356). -/
structure WroteV (now lat : Nat) (d : Reg) (x : Word) (u u' : Thread) : Prop where
  value : ∀ n, now + lat ≤ n → u'.rdV n d = x
  early : ∀ n, n < now + lat → u'.rdV n d = u.rdV now d
  other : ∀ n r, r ≠ d → u'.rdV n r = u.rdV n r
  preds : ∀ n q, u'.rdP n q = u.rdP n q
  good : u'.poison = setBit u.poison d.toNat false
  rest : u' = { u with v := u'.v, late := u'.late, poison := u'.poison, trapTok := u'.trapTok }

/-- Thread `u` after a fixed-latency result `b` in predicate `q`; p7 takes nothing (R85). -/
structure WroteP (now lat : Nat) (q : PredNo) (b : Bool) (u u' : Thread) : Prop where
  value : q ≠ 7 → ∀ n, now + lat ≤ n → u'.rdP n q = b
  early : q ≠ 7 → ∀ n, n < now + lat → u'.rdP n q = u.rdP now q
  other : ∀ n r, r ≠ q → u'.rdP n r = u.rdP n r
  regs : ∀ n r, u'.rdV n r = u.rdV n r
  rest : u' = { u with p := u'.p, late := u'.late }
  p7 : q = 7 → u' = u

/-- Every executing thread changes by `r`; the other threads do not change. -/
def EachThread (s t : State) (r : Thread → Thread → Prop) : Prop :=
  List.Forall₂ (fun u u' => if s.isActive u = true then r u u' else u' = u) s.threads t.threads

/-- A fixed-latency result of a word of the V pipe: `x` of the registers as they stood before the group, with the bits
that fault injection inverts (R81, R86, R368). -/
def ResultV (s : State) (lat : Nat) (d : Reg) (x : Thread → Word) (t : State) : Prop :=
  OnlyThreads s t ∧ EachThread s t fun u u' => WroteV s.time lat d (x (s.before u) ^^^ finjFlip s) u u'

/-- The same of a word of another pipe. -/
def ResultS (s : State) (lat : Nat) (d : Reg) (x : Thread → Word) (t : State) : Prop :=
  OnlyThreads s t ∧ EachThread s t fun u u' => WroteV s.time lat d (x (s.before u)) u u'

/-- A fixed-latency result in a predicate. -/
def ResultP (s : State) (lat : Nat) (q : PredNo) (x : Thread → Bool) (t : State) : Prop :=
  OnlyThreads s t ∧ EachThread s t fun u u' => WroteP s.time lat q (x (s.before u)) u u'

/-- A fixed-latency result in a pair: the low half in the even register. -/
def ResultW (s : State) (lat : Nat) (d : PairNo) (x : Thread → DWord) (t : State) : Prop :=
  OnlyThreads s t ∧ EachThread s t fun u u' =>
    ∃ m, WroteV s.time lat (pairLo d) ((x (s.before u)).extractLsb' 0 32 ^^^ finjFlip s) u m ∧
      WroteV s.time lat (pairHi d) ((x (s.before u)).extractLsb' 32 32 ^^^ finjFlip s) m u'

/-- The thread once the registers of a variable-latency result are pending (R82). -/
def Pended (rs : List RegRef) (u u' : Thread) : Prop :=
  u' = { u with pendV := u'.pendV, pendP := u'.pendP, pendH := u'.pendH } ∧
  (∀ r, u.isPending r = true → u'.isPending r = true) ∧ ∀ r ∈ rs, (r = .p 7 ∨ ∃ k, r = .k k) ∨ u'.isPending r = true

/-- A variable-latency result is on its way to every executing thread, computed from the registers as they stood before
the group (R82, R86). -/
def ResultLater (s : State) (ws : Thread → List (RegRef × Word)) (t : State) : Prop :=
  t = { s with cur := t.cur, threads := t.threads, pours := t.pours, tileOps := t.tileOps, results := t.results,
               nextId := t.nextId } ∧ SameOps s t ∧
  EachThread s t (fun u u' => Pended ((ws (s.before u)).map (·.1)) u u') ∧
  ∃ rs, t.results = s.results ++ rs ∧
    List.Forall₂ (fun u (r : PendRes) => r.tid = u.tid ∧ s.nextId ≤ r.id ∧ r.id < t.nextId ∧ r.writes = ws (s.before u))
      (s.threads.filter s.isActive) rs

/-! ### Accesses -/

/-- No core holds gathered values. -/
def NothingGathered (s : State) : Prop := ∀ u ∈ s.ucopies, u.granted = false

/-- Nothing changes but what a word of the M pipe touches as its accesses leave the core: the accesses themselves, the
caches and what reductions have gathered in the core, the digest of a run, and fault injection that is used up and counted
(R171, R173, R186, R363, R368). A byte of memory changes only where gathered values are combined before a table is read. -/
def OnlyAccesses (s t : State) : Prop :=
  OnlyThreads { s with accs := t.accs, nextId := t.nextId, l1 := t.l1, ucopies := t.ucopies, bcache := t.bcache,
                       pcache := t.pcache, parts := t.parts, casts := t.casts, mem := t.mem, poisoned := t.poisoned,
                       lines := t.lines, homeOrder := t.homeOrder, dev := t.dev } t ∧
  (NothingGathered s → t.mem = s.mem ∧ t.poisoned = s.poisoned ∧ t.lines = s.lines ∧ t.homeOrder = s.homeOrder ∧
    t.dev = s.dev) ∧
  List.Forall₂ (fun q q' : Part => 
    q' = { q with finj := q'.finj, finjTid := q'.finjTid, errcnt := q'.errcnt } ∧ (q.finj.getLsbD 31 = false → q' = q)) s.parts t.parts ∧
  List.Forall₂ (fun c c' : Cast => c' = { c with assay := c'.assay }) s.casts t.casts

/-- Access `a` is what lane `x` asks for by `f` (R200, R203, R204, R207). -/
def AccessOf (s : State) (f : Thread → Ask) (x : Nat × Nat) (a : Acc) : Prop :=
  ∃ u, s.before? x.2 = some u ∧ a.tid = some u.tid ∧ a.core = s.cur.core ∧ a.lane = x.1 ∧ a.part = (s.reqOf u s.cur.core x.1).part ∧
    a.kind = (f u).kind ∧ a.buf = (f u).idx ∧ a.off = (f u).off ∧ a.size = (f u).size ∧ a.ty = (f u).ty ∧
    a.cp = (f u).cp ∧ a.dst = (f u).dst ∧ a.data = (f u).data ∧ a.cmp = (f u).cmp ∧ a.mark = u.fence ∧
    s.nextId ≤ a.seq ∧ a.seq < a.id

/-- One access of every lane of the group has left the core, and the registers of its result are pending. What a thread has
observed (R184) is noted where its reduction is gathered at once. -/
def Accesses (s : State) (f : Thread → Ask) (rs : List RegRef) (t : State) : Prop :=
  OnlyAccesses s t ∧ EachThread s t (fun u u' => Pended rs { u with seen := u'.seen } u') ∧
  ∃ as, t.accs = s.accs ++ as ∧ List.Forall₂ (AccessOf s f) s.cur.lanes as

/-- Every lane of the group has a thread of an original run, whose accesses are those of a partition that exists. -/
def Live (s : State) : Prop :=
  ∀ x ∈ s.cur.lanes, ∃ u, s.before? x.2 = some u ∧ u.run = 0 ∧ (s.part? (s.reqOf u s.cur.core x.1).part).isSome = true

/-- The checks of R220 find nothing for any lane of the group. -/
def Clear (s : State) (f : Thread → Ask) : Prop :=
  Agree s f ∧ ∀ x ∈ s.cur.lanes, ∀ u, s.before? x.2 = some u →
    askTrap s x.1 u (f u) = none ∧ ((f u).kind.isAtomic = true → s.selected u = false)

/-! ### Events -/

/-- An event completes: `exec` answers a next state, and `eff` says what holds of it. -/
def Happens (i : Instr) (s : State) (eff : State → Prop) : Prop := ∃ t, exec i s = .next t ∧ eff t

/-- The bytes of `x` lie at `n` places from `k` on, the lowest first (R5). -/
def Holds (m : List Host.Cell) (k n x : Nat) : Prop := ∀ i, i < n → (memRead m (k + i)).toNat = x / 256 ^ i % 256

/-- No core holds gathered values of a line of the range (R186). -/
def NoneGathered (s : State) (k n : Nat) : Prop :=
  ∀ u ∈ s.ucopies, u.granted = true → ¬(k / 128 ≤ u.line ∧ u.line ≤ max (k / 128) ((k + n - 1) / 128))

/-- The home slices of DRAM have been touched, and gathered values that stood before are combined: rows and counts of the
device change, and with gathered values the memory that these reach (R186, R324). -/
def Touched (s t : State) : Prop :=
  t = { s with dev := { s.dev with rows := t.dev.rows, errs := t.dev.errs }, mem := t.mem, poisoned := t.poisoned,
               lines := t.lines, ucopies := t.ucopies, homeOrder := t.homeOrder } ∧
  (NothingGathered s → t = { s with dev := { s.dev with rows := t.dev.rows, errs := t.dev.errs } })

/-- No record waits for a buffer state, which a store at home may change (R55). -/
def NoStateWaits (s : State) : Prop := ∀ r ∈ s.recs, r.wtype = 2 → r.fired.isSome = true

/-- The L1 of a core has room for a line, or holds it (R14). -/
def RoomInL1 (s : State) (core line : Nat) : Prop :=
  (s.l1.filter fun c => c.core = core && c.line ≠ line).length +
    (s.ucopies.filter fun u => u.core = core && u.line ≠ line && u.granted).length < 1024

/-- The line of an access is in its home slice, with the allocation the access asks for, unless that is none (R172, R219). -/
def InSlice (t : State) (a : Acc) (k : Nat) : Prop :=
  keyChan k ≠ none → a.policy ≠ 2 → ∃ x ∈ t.l2, x.line = lineOf k ∧ x.mode = a.policy

/-- The record of a thread stands in a ladle or in an entry list (R59). -/
def Queued (t : State) (tid : Nat) : Prop := (∃ l ∈ t.ladles, ∃ n, (tid, n) ∈ l.members) ∨ ∃ c, (c, tid) ∈ t.entryLists

/-- The wake of a record fires: it is kept in the record, which is queued unless it is held or on its way (R50, R55). -/
def Wakes (s t : State) (tid status : Nat) : Prop :=
  ∀ r, s.rec? tid = some r → t.rec? tid = some { r with fired := some s.time, status } ∧
    (r.held = false → r.transit = none → (s.thread? tid).isSome = true → Queued t tid)

/-- No thread of a gang is left (R339). -/
def GangGone (t : State) (l : Launch) (g : Nat) : Prop :=
  ∀ u ∈ t.threads, u.shadow = false → ¬(u.part = l.part ∧ u.launch = l.num ∧ inGang l g u.cast = true)

/-! ### Exact values and their rounding (R113, R114, R121 to R124) -/

/-- The number that a pattern of a format stands for, its sign aside; the pattern of infinity counts as the power of two
behind the largest finite number, where an unbounded exponent goes on. -/
def Fmt.mag (f : Fmt) (x : Nat) : ℚ :=
  if x / 2 ^ f.fb % 2 ^ f.eb = 0 then (x % 2 ^ f.fb : Nat) * 2 ^ (1 - f.bias - f.fb)
  else (2 ^ f.fb + x % 2 ^ f.fb : Nat) * 2 ^ ((x / 2 ^ f.fb % 2 ^ f.eb : Nat) - f.bias - f.fb)

/-- The kinds of pattern, and the number of a finite one. -/
def Fmt.IsFin (f : Fmt) (x : Nat) : Prop := x % f.signBit < f.infBits
def Fmt.IsInf (f : Fmt) (x : Nat) : Prop := x % f.signBit = f.infBits
def Fmt.IsNaN (f : Fmt) (x : Nat) : Prop := f.infBits < x % f.signBit
def Fmt.value (f : Fmt) (x : Nat) : ℚ := if f.isNeg x = true then -f.mag x else f.mag x

/-- Whether a mode rounds a number of sign `neg` away from zero where it is not exact, nearest apart. -/
def Rm.away (rm : Rm) (neg : Bool) : Bool :=
  match rm with
  | .up => !neg
  | .dn => neg
  | _ => false

/-- The magnitude `q` rounds to the pattern `r`; `f.infBits` is overflow (R121, R124). -/
def Fmt.Rounds (f : Fmt) (rm : Rm) (neg : Bool) (q : ℚ) (r : Nat) : Prop :=
  r ≤ f.infBits ∧
  if rm = .ne then
    (∀ k, r = k + 1 → f.mag k + f.mag r ≤ 2 * q ∧ (f.mag k + f.mag r = 2 * q → r % 2 = 0)) ∧
    (r < f.infBits → 2 * q ≤ f.mag r + f.mag (r + 1) ∧ (2 * q = f.mag r + f.mag (r + 1) → r % 2 = 0))
  else if rm.away neg = true then (∀ k, r = k + 1 → f.mag k < q) ∧ (r < f.infBits → q ≤ f.mag r)
  else f.mag r ≤ q ∧ (r < f.infBits → q < f.mag (r + 1))

/-- The magnitude `q` rounds to the integer `n` (R121, R224). -/
def RoundsInt (rm : Rm) (neg : Bool) (q : ℚ) (n : Nat) : Prop :=
  if rm = .ne then 2 * |q - n| ≤ 1 ∧ (2 * |q - n| = 1 → n % 2 = 0)
  else if rm.away neg = true then (n : ℚ) - 1 < q ∧ q ≤ n
  else (n : ℚ) ≤ q ∧ q < n + 1

/-- The logarithm of the magnitude `q` > 0, in steps of 1/n, rounds to `c` (R122): 2^(c/n) ≤ q says 2^c ≤ q^n. -/
def RoundsLg (n : Nat) (rm : Rm) (neg : Bool) (q : ℚ) (c : Int) : Prop :=
  if rm = .ne then (2 : ℚ) ^ (2 * c - 1) ≤ q ^ (2 * n) ∧ q ^ (2 * n) ≤ 2 ^ (2 * c + 1)
  else if rm.away neg = true then (2 : ℚ) ^ (c - 1) < q ^ n ∧ q ^ n ≤ 2 ^ c
  else (2 : ℚ) ^ c ≤ q ^ n ∧ q ^ n < 2 ^ (c + 1)

/-- The pattern `y` is `q` rounded once to nearest, infinity where that overflows; an exact zero has the sign `z` (R114). -/
def Fmt.Nearest (f : Fmt) (q : ℚ) (z : Bool) (y : Nat) : Prop :=
  ∃ r, f.Rounds .ne false |q| r ∧ y = f.signed (if q = 0 then z else decide (q < 0)) r

/-- What the arithmetic of a format computes (R114, R223, R226, R227). -/
structure Arithmetic (f : Fmt) : Prop where
  add : ∀ a b, f.IsFin a → f.IsFin b → f.Nearest (f.value a + f.value b) (f.isNeg a && f.isNeg b) (f.add a b)
  sub : ∀ a b, f.IsFin a → f.IsFin b → f.Nearest (f.value a - f.value b) (f.isNeg a && !f.isNeg b) (f.sub a b)
  mul : ∀ a b, f.IsFin a → f.IsFin b → f.Nearest (f.value a * f.value b) (f.isNeg a != f.isNeg b) (f.mul a b)
  fma : ∀ a b c, f.IsFin a → f.IsFin b → f.IsFin c →
    f.Nearest (f.value a * f.value b + f.value c) ((f.isNeg a != f.isNeg b) && f.isNeg c) (f.fma a b c)
  nan : ∀ a b c, f.IsNaN a ∨ f.IsNaN b → f.add a b = f.nan ∧ f.sub a b = f.nan ∧ f.mul a b = f.nan ∧ f.minF a b = f.nan ∧
    f.maxF a b = f.nan ∧ f.fma a b c = f.nan ∧ f.fma a c b = f.nan ∧ f.fma c a b = f.nan
  addInf : ∀ a b, f.IsInf a →
    (f.IsFin b → f.add a b = f.signed (f.isNeg a) f.infBits ∧ f.add b a = f.signed (f.isNeg a) f.infBits ∧
      f.sub a b = f.signed (f.isNeg a) f.infBits ∧ f.sub b a = f.signed (!f.isNeg a) f.infBits) ∧
    (f.IsInf b → f.add a b = (if f.isNeg a = f.isNeg b then f.signed (f.isNeg a) f.infBits else f.nan) ∧
      f.sub a b = if f.isNeg a = f.isNeg b then f.nan else f.signed (f.isNeg a) f.infBits)
  mulInf : ∀ a b, f.IsInf a → ¬f.IsNaN b →
    let r := if b % f.signBit = 0 then f.nan else f.signed (f.isNeg a != f.isNeg b) f.infBits
    f.mul a b = r ∧ f.mul b a = r
  fmaInf : ∀ a b c, ¬f.IsNaN a → ¬f.IsNaN b → ¬f.IsNaN c →
    (f.IsInf a ∨ f.IsInf b → f.fma a b c = f.add (f.mul a b) c) ∧
    (f.IsFin a → f.IsFin b → f.IsInf c → f.fma a b c = f.signed (f.isNeg c) f.infBits)
  least : ∀ a b, ¬f.IsNaN a → ¬f.IsNaN b →
    (f.minF a b = a ∨ f.minF a b = b) ∧ (f.maxF a b = a ∨ f.maxF a b = b) ∧
    (f.IsFin a → f.IsFin b → f.value (f.minF a b) = min (f.value a) (f.value b) ∧
      f.value (f.maxF a b) = max (f.value a) (f.value b) ∧
      (f.value a = f.value b → f.isNeg (f.minF a b) = (f.isNeg a || f.isNeg b) ∧
        f.isNeg (f.maxF a b) = (f.isNeg a && f.isNeg b))) ∧
    (f.IsInf a → (f.isNeg a = true → f.isNeg (f.minF a b) = true ∧ f.IsInf (f.minF a b) ∧ (f.IsFin b → f.maxF a b = b)) ∧
      (f.isNeg a = false → f.isNeg (f.maxF a b) = false ∧ f.IsInf (f.maxF a b) ∧ (f.IsFin b → f.minF a b = b)))

/-- The contributions to a phase of a flask: those of the arrivals with the phase's operation (R285). -/
def Flask.contributed (f : Flask) : List Word := f.arrived.filterMap fun a => if a.fn = f.op then some a.value else none

/-- What the result of a phase is (R131, R132, R285). -/
structure PhaseValue (f : Flask) (xs : List Word) (r : Word) : Prop where
  bar : f.op = 3 → r.toNat = f.phase % 2 ^ 28
  any : f.op = 4 → r = if (1 : Word) ∈ xs then 1 else 0
  all : f.op = 5 → r = if xs.all (fun x => x = 1) then 1 else 0
  cnt : f.op = 6 → r = BitVec.ofNat 32 (xs.count 1)
  sum : f.op = 7 → r = xs.sum
  sumNaN : f.op = 8 → ((∃ x ∈ xs, fp32.IsNaN x.toNat) ∨ (0x7F800000 ∈ xs ∧ 0xFF800000 ∈ xs)) → r = 0x7FC00000
  sumInf : f.op = 8 → (∀ x ∈ xs, ¬fp32.IsNaN x.toNat) → ¬(0x7F800000 ∈ xs ∧ 0xFF800000 ∈ xs) →
    ∀ x ∈ xs, fp32.IsInf x.toNat → r = x
  sumFin : f.op = 8 → (∀ x ∈ xs, fp32.IsFin x.toNat) →
    fp32.Nearest (xs.map fun x => fp32.value x.toNat).sum (!xs.isEmpty && xs.all fun x => x = 0x80000000) r.toNat
  least : f.op = 9 → xs ≠ [] → r ∈ xs ∧ ∀ x ∈ xs, r.toInt ≤ x.toInt
  greatest : f.op = 10 → xs ≠ [] → r ∈ xs ∧ ∀ x ∈ xs, x.toInt ≤ r.toInt
  nan : f.op = 11 ∨ f.op = 12 → (∃ x ∈ xs, fp32.IsNaN x.toNat) → r = 0x7FC00000
  leastF : f.op = 11 → xs ≠ [] → (∀ x ∈ xs, ¬fp32.IsNaN x.toNat) → r ∈ xs ∧ ∀ x ∈ xs, fp32.minF r.toNat x.toNat = r.toNat
  greatestF : f.op = 12 → xs ≠ [] → (∀ x ∈ xs, ¬fp32.IsNaN x.toNat) →
    r ∈ xs ∧ ∀ x ∈ xs, fp32.maxF r.toNat x.toNat = r.toNat

/-- What `FRND` computes (R224). -/
def FrndRounds (rm : Rm) (x : Nat) : Prop :=
  (fp32.IsNaN x → frnd rm x = 0x7FC00000) ∧ (fp32.IsInf x → frnd rm x = x) ∧
  (fp32.IsFin x → ∃ n, RoundsInt rm (fp32.isNeg x) (fp32.mag x) n ∧ fp32.IsFin (frnd rm x) ∧
    fp32.isNeg (frnd rm x) = fp32.isNeg x ∧ fp32.mag (frnd rm x) = n)

/-- What `FSCALE` computes (R224). -/
def FscaleRounds (x : Nat) (b : Int) : Prop :=
  (fp32.IsNaN x → fscale x b = 0x7FC00000) ∧ (fp32.IsInf x → fscale x b = x) ∧
  (fp32.IsFin x → fp32.Nearest (fp32.value x * 2 ^ b) (fp32.isNeg x) (fscale x b))

/-- The values that the sources of a conversion stand for (R113, R118, R119, R230). -/
structure ConvertsFrom (x : Nat) : Prop where
  float : ∀ sf ∈ [((0, 32), fp32), ((1, 16), fp16), ((2, 16), bf16)],
    let f : Fmt := sf.2
    let y := x % 2 ^ sf.1.2
    (f.IsNaN y → cvtSource sf.1.1 x = .nan) ∧ (f.IsInf y → cvtSource sf.1.1 x = .inf (f.isNeg y)) ∧
    (f.IsFin y → ∃ (m : Nat) (e : Int), cvtSource sf.1.1 x = .fin (f.isNeg y) m e ∧ (m : ℚ) * 2 ^ e = f.mag y)
  int : ∀ si ∈ [(5, (BitVec.ofNat 32 x).toInt), (6, ((x % 2 ^ 32 : Nat) : Int)), (7, (BitVec.ofNat 8 x).toInt)],
    cvtSource si.1 x = .fin (decide (si.2 < 0)) si.2.natAbs 0
  lg : ∀ sl ∈ [((3, 8), 8), ((4, 6), 4)],
    let w : Nat := sl.1.2
    let n : Nat := sl.2
    let y := x % 2 ^ w
    let c := (BitVec.ofNat (w - 1) y).toInt
    (y = 2 ^ (w - 2) → cvtSource sl.1.1 x = .fin false 0 0) ∧ (y = 2 ^ (w - 1) + 2 ^ (w - 2) → cvtSource sl.1.1 x = .nan) ∧
    (y % 2 ^ (w - 1) ≠ 2 ^ (w - 2) → cvtSource sl.1.1 x = .fin (decide (2 ^ (w - 1) ≤ y))
      ([0x800000, 0x8B95C2, 0x9837F0, 0xA5FED7, 0xB504F3, 0xC5672A, 0xD744FD, 0xEAC0C7].getD ((c % n).toNat * (8 / n)) 0)
      (c / n - 23))

/-- What a conversion into FP32, FP16 or BF16 gives (R124, R231). -/
def ConvertsFloat (src : Nat) (rm : Rm) (pol x : Nat) : Prop :=
  ∀ tf ∈ [(0, fp32), (1, fp16), (2, bf16)],
    let f : Fmt := tf.2
    (cvtSource src x = .nan → cvtOne src tf.1 rm pol x = if pol = 3 then none else some f.nan) ∧
    (∀ neg, cvtSource src x = .inf neg → cvtOne src tf.1 rm pol x = some (f.signed neg f.infBits)) ∧
    ∀ neg m e, cvtSource src x = .fin neg m e → ∃ r, f.Rounds rm neg (m * 2 ^ e) r ∧
      cvtOne src tf.1 rm pol x = if r < f.infBits then some (f.signed neg r)
        else match pol with
          | 0 => some (f.signed neg f.maxFin)
          | 1 => some (f.signed neg f.infBits)
          | 2 => some f.nan
          | _ => none

/-- What a conversion into an integer gives (R124, R231): the target, its width and its range. -/
def ConvertsInt (src : Nat) (rm : Rm) (pol x : Nat) : Prop :=
  ∀ tf ∈ [((5, 32), ((-2 ^ 31 : Int), (2 ^ 31 - 1 : Int))), ((6, 32), (0, 2 ^ 32 - 1)), ((7, 8), (-2 ^ 7, 2 ^ 7 - 1))],
    let w : Nat := tf.1.2
    let beyond (neg : Bool) : Option Nat := match pol with
      | 0 => some ((if neg then tf.2.1 else tf.2.2) % 2 ^ w).toNat
      | 3 => none
      | _ => some (2 ^ (w - 1))
    (cvtSource src x = .nan → cvtOne src tf.1.1 rm pol x = match pol with
      | 0 => some 0
      | 3 => none
      | _ => some (2 ^ (w - 1))) ∧
    (∀ neg, cvtSource src x = .inf neg → cvtOne src tf.1.1 rm pol x = beyond neg) ∧
    ∀ neg m e, cvtSource src x = .fin neg m e → ∃ n, RoundsInt rm neg (m * 2 ^ e) n ∧
      let i : Int := if neg then -(n : Int) else n
      cvtOne src tf.1.1 rm pol x = if tf.2.1 ≤ i ∧ i ≤ tf.2.2 then some (i % 2 ^ w).toNat else beyond neg

/-- What a conversion into LG6 or LG8 gives (R122 to R124, R231): the target, its width and its steps. -/
def ConvertsLg (src : Nat) (rm : Rm) (pol x : Nat) : Prop :=
  ∀ tf ∈ [((3, 8), 8), ((4, 6), 4)],
    let w : Nat := tf.1.2
    let beyond (neg : Bool) : Option Nat := match pol with
      | 0 => some (lgBits w (.num neg (2 ^ (w - 2) - 1)))
      | 3 => none
      | _ => some (lgBits w .nar)
    let place (neg : Bool) (c : Int) : Option Nat :=
      if 2 ^ (w - 2) - 1 < c then beyond neg
      else if c < -(2 ^ (w - 2) - 1) then
        some (lgBits w (if rm.away neg = true then .num neg (-(2 ^ (w - 2) - 1)) else .zero))
      else some (lgBits w (.num neg c))
    (cvtSource src x = .nan → cvtOne src tf.1.1 rm pol x = if pol = 3 then none else some (lgBits w .nar)) ∧
    (∀ neg, cvtSource src x = .inf neg → cvtOne src tf.1.1 rm pol x = beyond neg) ∧
    (∀ neg m e, cvtSource src x = .fin neg m e →
      (m = 0 → cvtOne src tf.1.1 rm pol x = some (lgBits w .zero)) ∧
      (m ≠ 0 → src ≠ 3 → src ≠ 4 → ∃ c, RoundsLg tf.2 rm neg (m * 2 ^ e) c ∧ cvtOne src tf.1.1 rm pol x = place neg c)) ∧
    (src = 3 → tf.1.1 = 4 → ∀ neg c, lgVal 8 (x % 2 ^ 8) = .num neg c → ∃ d : Int,
      cvtOne 3 4 rm pol x = place neg d ∧
      if rm = .ne then |c - 2 * d| ≤ 1 ∧ (|c - 2 * d| = 1 → d % 2 = 0)
      else if rm.away neg = true then c ≤ 2 * d ∧ 2 * d < c + 2 else 2 * d ≤ c ∧ c < 2 * d + 2) ∧
    (src = 4 → tf.1.1 = 3 → ∀ neg c, lgVal 6 (x % 2 ^ 6) = .num neg c → cvtOne 4 3 rm pol x = some (lgBits 8 (.num neg (2 * c))))

/-! ### Operands of register words -/

/-- The word whose bit `i` is `f i`. -/
def wordOf (f : Nat → Bool) : Word := BitVec.ofFnLE fun i : Fin 32 => f i

/-- A function of one v register, of two, of three, read at the time of `s`. -/
def State.on1 (s : State) (a : Reg) (f : Word → Word) (u : Thread) : Word := f (u.rdV s.time a)
def State.on2 (s : State) (a b : Reg) (f : Word → Word → Word) (u : Thread) : Word := f (u.rdV s.time a) (u.rdV s.time b)
def State.on3 (s : State) (a b c : Reg) (f : Word → Word → Word → Word) (u : Thread) : Word :=
  f (u.rdV s.time a) (u.rdV s.time b) (u.rdV s.time c)

end Machine
end Sys2Proof
end

