-- ==== Sys2Proof/Certificates/Slice0/Obligations.lean ====
section
/-! DEFINITION. The statements about the model, for the provers. -/

open Sys2Proof Sys2Proof.Machine

/-- R141, R86, R368: the arithmetic and logic words of the INT form. Each completes and writes its result, computed on the
integers and narrowed, two or four cy later in vd of every executing thread, and nothing else; `DIV` and `REM` stand in
`Division`. -/
def Obligations.IntegerWords : Prop :=
  ∀ (s : State) (p : Pour) (e : Entry) (h : Hdr) (d a b : Reg), Runs s p e →
    Completes (.add h d a b) s p e (ResultV s 2 d (s.on2 a b fun x y => BitVec.ofNat 32 (x.toNat + y.toNat))) ∧
    Completes (.sub h d a b) s p e (ResultV s 2 d (s.on2 a b fun x y => BitVec.ofInt 32 (x.toInt - y.toInt))) ∧
    Completes (.mul h d a b) s p e (ResultV s 4 d (s.on2 a b fun x y => BitVec.ofNat 32 (x.toNat * y.toNat))) ∧
    Completes (.mulhiI h d a b) s p e
      (ResultV s 4 d (s.on2 a b fun x y => BitVec.ofInt 32 (x.toInt * y.toInt / 2 ^ 32))) ∧
    Completes (.mulhiN h d a b) s p e
      (ResultV s 4 d (s.on2 a b fun x y => BitVec.ofNat 32 (x.toNat * y.toNat / 2 ^ 32))) ∧
    Completes (.macc h d a b) s p e
      (ResultV s 4 d (s.on3 d a b fun z x y => BitVec.ofNat 32 (z.toNat + x.toNat * y.toNat))) ∧
    Completes (.minI h d a b) s p e (ResultV s 2 d (s.on2 a b fun x y => if x.toInt ≤ y.toInt then x else y)) ∧
    Completes (.minN h d a b) s p e (ResultV s 2 d (s.on2 a b fun x y => if x.toNat ≤ y.toNat then x else y)) ∧
    Completes (.maxI h d a b) s p e (ResultV s 2 d (s.on2 a b fun x y => if x.toInt ≤ y.toInt then y else x)) ∧
    Completes (.maxN h d a b) s p e (ResultV s 2 d (s.on2 a b fun x y => if x.toNat ≤ y.toNat then y else x)) ∧
    Completes (.abs h d a) s p e (ResultV s 2 d (s.on1 a fun x => if 0 ≤ x.toInt then x else BitVec.ofInt 32 (-x.toInt))) ∧
    Completes (.neg h d a) s p e (ResultV s 2 d (s.on1 a fun x => BitVec.ofInt 32 (-x.toInt))) ∧
    Completes (.mov h d a) s p e (ResultV s 2 d (s.on1 a fun x => x))

/-- R141, R142: the logic, shift, mirror and counting words complete, each with the result that its bits say. -/
def Obligations.BitWords : Prop :=
  ∀ (s : State) (p : Pour) (e : Entry) (h : Hdr) (d a b : Reg) (n : BitVec 5), Runs s p e →
    let bits (f : Word → Word → Nat → Bool) : State → Prop := ResultV s 2 d (s.on2 a b fun x y => wordOf (f x y))
    let left (x : Word) (k : Nat) : Word := wordOf fun i => decide (k ≤ i) && x.getLsbD (i - k)
    let right (x : Word) (k : Nat) : Word := BitVec.ofNat 32 (x.toNat / 2 ^ k)
    let rightI (x : Word) (k : Nat) : Word := BitVec.ofInt 32 (x.toInt / 2 ^ k)
    let counts (f : Word → Nat) : State → Prop := ResultV s 2 d (s.on1 a fun x => BitVec.ofNat 32 (f x))
    Completes (.and h d a b) s p e (bits fun x y i => x.getLsbD i && y.getLsbD i) ∧
    Completes (.or h d a b) s p e (bits fun x y i => x.getLsbD i || y.getLsbD i) ∧
    Completes (.xor h d a b) s p e (bits fun x y i => x.getLsbD i != y.getLsbD i) ∧
    Completes (.andn h d a b) s p e (bits fun x y i => x.getLsbD i && !y.getLsbD i) ∧
    Completes (.orn h d a b) s p e (bits fun x y i => x.getLsbD i || !y.getLsbD i) ∧
    Completes (.shl h d a b) s p e (ResultV s 2 d (s.on2 a b fun x y => left x y.toNat)) ∧
    Completes (.shli h d a n) s p e (ResultV s 2 d (s.on1 a fun x => left x n.toNat)) ∧
    Completes (.shr h d a b) s p e (ResultV s 2 d (s.on2 a b fun x y => right x y.toNat)) ∧
    Completes (.shri h d a n) s p e (ResultV s 2 d (s.on1 a fun x => right x n.toNat)) ∧
    Completes (.sra h d a b) s p e (ResultV s 2 d (s.on2 a b fun x y => rightI x y.toNat)) ∧
    Completes (.srai h d a n) s p e (ResultV s 2 d (s.on1 a fun x => rightI x n.toNat)) ∧
    Completes (.rotl h d a b) s p e (bits fun x y i => x.getLsbD ((i + 32 - y.toNat % 32) % 32)) ∧
    Completes (.brev h d a) s p e (ResultV s 2 d (s.on1 a fun x => wordOf fun i => x.getLsbD (31 - i))) ∧
    Completes (.clz h d a) s p e (counts fun x => ((List.range 32).takeWhile fun i => !x.getLsbD (31 - i)).length) ∧
    Completes (.ctz h d a) s p e (counts fun x => ((List.range 32).takeWhile fun i => !x.getLsbD i).length) ∧
    Completes (.popc h d a) s p e (counts fun x => ((List.range 32).filter fun i => x.getLsbD i).length)

/-- R117, R141, R82: division and remainder complete for all operands, without a trap. -/
def Obligations.Division : Prop :=
  ∀ (s : State) (p : Pour) (e : Entry) (h : Hdr) (d a b : Reg), Runs s p e →
    Completes (.divI h d a b) s p e (ResultLater s fun u => [(.v d, s.on2 a b (fun x y =>
      if y.toInt = 0 then BitVec.ofInt 32 (-1) else BitVec.ofInt 32 (x.toInt.tdiv y.toInt)) u ^^^ finjFlip s)]) ∧
    Completes (.divN h d a b) s p e (ResultLater s fun u => [(.v d, s.on2 a b (fun x y =>
      if y.toNat = 0 then 0xFFFFFFFF else BitVec.ofNat 32 (x.toNat / y.toNat)) u ^^^ finjFlip s)]) ∧
    Completes (.remI h d a b) s p e (ResultLater s fun u => [(.v d, s.on2 a b (fun x y =>
      BitVec.ofInt 32 (x.toInt.tmod y.toInt)) u ^^^ finjFlip s)]) ∧
    Completes (.remN h d a b) s p e (ResultLater s fun u => [(.v d, s.on2 a b (fun x y =>
      BitVec.ofNat 32 (x.toNat % y.toNat)) u ^^^ finjFlip s)])

/-- R143: extraction and insertion of fields, bit by bit, and their places in the INT major. -/
def Obligations.FieldWords : Prop :=
  ∀ (s : State) (pr : Pour) (e : Entry) (h : Hdr) (d a b : Reg), Runs s pr e →
    let pos (y : Word) : Nat := y.toNat % 32
    let width (y : Word) : Nat := min (y.toNat / 256 % 64) 32
    Completes (.bfxN h d a b) s pr e (ResultV s 2 d (s.on2 a b fun x y => wordOf fun i =>
      decide (i < width y) && x.getLsbD (pos y + i))) ∧
    Completes (.bfxI h d a b) s pr e (ResultV s 2 d (s.on2 a b fun x y => wordOf fun i =>
      decide (0 < width y) && x.getLsbD (min 31 (pos y + min i (width y - 1))))) ∧
    Completes (.bfi h d a b) s pr e (ResultV s 2 d (s.on3 d a b fun z x y => wordOf fun i =>
      if pos y ≤ i ∧ i < pos y + width y then x.getLsbD (i - pos y) else z.getLsbD i)) ∧
    decode (word h 1 (t3 d a b 32)) = .ok (.bfxI h d a b) ∧ decode (word h 1 (t3 d a b 33)) = .ok (.bfxN h d a b) ∧
    decode (word h 1 (t3 d a b 34)) = .ok (.bfi h d a b)

/-- R144, R148: the words on pairs and on buffer pointers, without a trap on any operand; with an odd register where a pair
is required, or with a b field in `PIX`, the word is none and takes `ILLEGAL`. -/
def Obligations.PairWords : Prop :=
  ∀ (s : State) (p : Pour) (e : Entry) (h : Hdr) (d a b : PairNo) (x y : Reg), Runs s p e →
    Completes (.add64 h d a b) s p e
      (ResultW s 2 d fun u => BitVec.ofNat 64 ((u.rdW s.time a).toNat + (u.rdW s.time b).toNat)) ∧
    Completes (.sub64 h d a b) s p e
      (ResultW s 2 d fun u => BitVec.ofInt 64 ((u.rdW s.time a).toInt - (u.rdW s.time b).toInt)) ∧
    Completes (.mulwI h d x y) s p e
      (ResultW s 4 d fun u => BitVec.ofInt 64 ((u.rdV s.time x).toInt * (u.rdV s.time y).toInt)) ∧
    Completes (.mulwN h d x y) s p e
      (ResultW s 4 d fun u => BitVec.ofNat 64 ((u.rdV s.time x).toNat * (u.rdV s.time y).toNat)) ∧
    Completes (.addof h d a x) s p e (ResultW s 2 d fun u => BitVec.ofNat 64
      ((u.rdW s.time a).toNat / 2 ^ 48 * 2 ^ 48 +
        ((((u.rdW s.time a).toNat % 2 ^ 48 : Nat) + (u.rdV s.time x).toInt : Int) % 2 ^ 48).toNat)) ∧
    Completes (.mkptr h d a x) s p e (ResultW s 2 d fun u => BitVec.ofNat 64
      ((u.rdV s.time x).toNat % 2 ^ 16 * 2 ^ 48 + (u.rdW s.time a).toNat % 2 ^ 48)) ∧
    Completes (.pix h x a) s p e (ResultV s 2 x fun u => BitVec.ofNat 32 ((u.rdW s.time a).toNat / 2 ^ 48)) ∧
    (decode (word h 1 (t3 (d ++ 0#1) (a ++ 0#1) (b ++ 0#1) 36)) = .ok (.add64 h d a b) ∧
      decode (word h 1 (t3 (d ++ 0#1) (a ++ 0#1) (b ++ 0#1) 37)) = .ok (.sub64 h d a b) ∧
      decode (word h 1 (t3 (d ++ 0#1) x y 38)) = .ok (.mulwI h d x y) ∧
      decode (word h 1 (t3 (d ++ 0#1) x y 39)) = .ok (.mulwN h d x y) ∧
      decode (word h 1 (t3 (d ++ 0#1) (a ++ 0#1) x 40)) = .ok (.addof h d a x) ∧
      decode (word h 1 (t3 (d ++ 0#1) (a ++ 0#1) x 41)) = .ok (.mkptr h d a x) ∧
      decode (word h 1 (t3 x (a ++ 0#1) 0 42)) = .ok (.pix h x a)) ∧
    (∀ (i j k fn : BitVec 6), let odd (r : BitVec 6) : Bool := r.getLsbD 0
      ((fn = 36 ∨ fn = 37) ∧ (odd i || odd j || odd k) = true) ∨ ((fn = 38 ∨ fn = 39) ∧ odd i = true) ∨
        ((fn = 40 ∨ fn = 41) ∧ (odd i || odd j) = true) ∨ (fn = 42 ∧ (odd j = true ∨ k ≠ 0)) →
      instrOf (word h 1 (t3 i j k fn)) = .illegalEncoding (word h 1 (t3 i j k fn))) ∧
    ∀ l u q w, MayTrap s p e l u q → ∃ t, exec (.illegalEncoding w) s = .next t ∧
      Enters s t p e l u q.trapvec 0x01 (BitVec.ofNat 64 (s.cur.word.toNat + s.cur.pos * 2 ^ 32))

/-- R145: selection by a predicate. -/
def Obligations.SelectWords : Prop :=
  ∀ (s : State) (p : Pour) (e : Entry) (h : Hdr) (d a b : Reg), Runs s p e →
    let sel (q : PredNo) (u : Thread) : Word := if u.rdP s.time q = true then u.rdV s.time a else u.rdV s.time b
    Completes (.selP0 h d a b) s p e (ResultV s 2 d (sel 0)) ∧ Completes (.selP1 h d a b) s p e (ResultV s 2 d (sel 1)) ∧
    Completes (.selP2 h d a b) s p e (ResultV s 2 d (sel 2)) ∧ Completes (.selP3 h d a b) s p e (ResultV s 2 d (sel 3)) ∧
    Completes (.selP4 h d a b) s p e (ResultV s 2 d (sel 4)) ∧ Completes (.selP5 h d a b) s p e (ResultV s 2 d (sel 5)) ∧
    Completes (.selP6 h d a b) s p e (ResultV s 2 d (sel 6))

/-- R146, R147: the immediate words. -/
def Obligations.ImmediateWords : Prop :=
  ∀ (s : State) (p : Pour) (e : Entry) (h : Hdr) (d a : Reg) (imm : BitVec 12) (d4 : BitVec 4) (i20 : BitVec 20),
    Runs s p e →
    Completes (.addi h d a imm) s p e (ResultV s 2 d (s.on1 a fun x => BitVec.ofInt 32 (x.toInt + imm.toInt))) ∧
    Completes (.andi h d a imm) s p e (ResultV s 2 d (s.on1 a fun x => x &&& BitVec.ofInt 32 imm.toInt)) ∧
    Completes (.ori h d a imm) s p e (ResultV s 2 d (s.on1 a fun x => x ||| BitVec.ofInt 32 imm.toInt)) ∧
    Completes (.xori h d a imm) s p e (ResultV s 2 d (s.on1 a fun x => x ^^^ BitVec.ofInt 32 imm.toInt)) ∧
    Completes (.lui h d4 i20) s p e
      (ResultV s 2 (d4.setWidth 6) fun _ => BitVec.ofNat 32 (i20.toNat * 4096)) ∧
    Completes (.apc h d4 i20) s p e
      (ResultV s 2 (d4.setWidth 6) fun _ => BitVec.ofInt 32 (s.cur.wpc.toNat + i20.toInt * 4096))

/-- R149: the integer comparisons. -/
def Obligations.IntegerComparisons : Prop :=
  ∀ (s : State) (p : Pour) (e : Entry) (h : Hdr) (q : PredNo) (a b : Reg) (c d : PairNo), Runs s p e →
    let on (f : Word → Word → Bool) : State → Prop := ResultP s 2 q fun u => f (u.rdV s.time a) (u.rdV s.time b)
    let onW (f : DWord → DWord → Bool) : State → Prop := ResultP s 2 q fun u => f (u.rdW s.time c) (u.rdW s.time d)
    Completes (.cmpEqB32 h q a b) s p e (on fun x y => x.toNat == y.toNat) ∧
    Completes (.cmpNeB32 h q a b) s p e (on fun x y => x.toNat != y.toNat) ∧
    Completes (.cmpLtI32 h q a b) s p e (on fun x y => decide (x.toInt < y.toInt)) ∧
    Completes (.cmpLeI32 h q a b) s p e (on fun x y => decide (x.toInt ≤ y.toInt)) ∧
    Completes (.cmpLtN32 h q a b) s p e (on fun x y => decide (x.toNat < y.toNat)) ∧
    Completes (.cmpLeN32 h q a b) s p e (on fun x y => decide (x.toNat ≤ y.toNat)) ∧
    Completes (.cmpEqB64 h q c d) s p e (onW fun x y => x.toNat == y.toNat) ∧
    Completes (.cmpNeB64 h q c d) s p e (onW fun x y => x.toNat != y.toNat) ∧
    Completes (.cmpLtI64 h q c d) s p e (onW fun x y => decide (x.toInt < y.toInt)) ∧
    Completes (.cmpLeI64 h q c d) s p e (onW fun x y => decide (x.toInt ≤ y.toInt)) ∧
    Completes (.cmpLtN64 h q c d) s p e (onW fun x y => decide (x.toNat < y.toNat)) ∧
    Completes (.cmpLeN64 h q c d) s p e (onW fun x y => decide (x.toNat ≤ y.toNat))

/-- R149: the FP32 comparisons complete, by the value that R113 gives a bit pattern: with a NaN only NE and UN hold; a zero
equals a zero of the other sign. -/
def Obligations.FloatComparisons : Prop :=
  (∀ x y : Nat, let un : Bool := fp32.isNaN x || fp32.isNaN y
    (un = true → fp32.ltF x y = false ∧ fp32.leF x y = false ∧ fp32.eqF x y = false) ∧
    (un = false → fp32.leF x y = (fp32.ltF x y || fp32.eqF x y) ∧ fp32.eqF x y = (!fp32.ltF x y && !fp32.ltF y x)) ∧
    (fp32.ltF x y = true → fp32.ltF y x = false)) ∧
  (fp32.eqF 0x80000000 0 = true ∧ fp32.ltF 0x80000001 0x80000000 = true ∧ fp32.ltF 0xFF800000 0xFF7FFFFF = true ∧
    fp32.ltF 0x7F7FFFFF 0x7F800000 = true) ∧
  ∀ (s : State) (p : Pour) (e : Entry) (h : Hdr) (q : PredNo) (a b : Reg), Runs s p e →
    let on (f : Nat → Nat → Bool) : State → Prop := ResultP s 2 q fun u => f (u.rdV s.time a).toNat (u.rdV s.time b).toNat
    Completes (.cmpEqF32 h q a b) s p e (on fp32.eqF) ∧
    Completes (.cmpNeF32 h q a b) s p e (on fun x y => !fp32.eqF x y) ∧
    Completes (.cmpLtF32 h q a b) s p e (on fp32.ltF) ∧
    Completes (.cmpLeF32 h q a b) s p e (on fp32.leF) ∧
    Completes (.cmpUnF32 h q a b) s p e (on fun x y => fp32.isNaN x || fp32.isNaN y)

/-- R150: comparisons with an immediate, their places in the CMPI major, and its example; a bit number above 31 makes no
instruction. -/
def Obligations.ImmediateComparisons : Prop :=
  ∀ (s : State) (p : Pour) (e : Entry) (h : Hdr) (q : PredNo) (a : Reg) (imm : BitVec 12) (n : BitVec 5), Runs s p e →
    let on (f : Word → Bool) : State → Prop := ResultP s 2 q fun u => f (u.rdV s.time a)
    Completes (.cmpiEq h q a imm) s p e (on fun x => x.toInt == imm.toInt) ∧
    Completes (.cmpiNe h q a imm) s p e (on fun x => x.toInt != imm.toInt) ∧
    Completes (.cmpiLtI h q a imm) s p e (on fun x => decide (x.toInt < imm.toInt)) ∧
    Completes (.cmpiGeI h q a imm) s p e (on fun x => decide (imm.toInt ≤ x.toInt)) ∧
    Completes (.cmpiLtN h q a imm) s p e (on fun x => decide ((x.toNat : Int) < imm.toInt % 2 ^ 32)) ∧
    Completes (.cmpiGeN h q a imm) s p e (on fun x => decide (imm.toInt % 2 ^ 32 ≤ (x.toNat : Int))) ∧
    Completes (.cmpiBset h q a n) s p e (on fun x => x.toNat / 2 ^ n.toNat % 2 == 1) ∧
    Completes (.cmpiBclr h q a n) s p e (on fun x => x.toNat / 2 ^ n.toNat % 2 == 0) ∧
    (decode (word h 9 (tc q 0 a imm)) = .ok (.cmpiEq h q a imm) ∧ decode (word h 9 (tc q 1 a imm)) = .ok (.cmpiNe h q a imm) ∧
      decode (word h 9 (tc q 2 a imm)) = .ok (.cmpiLtI h q a imm) ∧ decode (word h 9 (tc q 3 a imm)) = .ok (.cmpiGeI h q a imm) ∧
      decode (word h 9 (tc q 4 a imm)) = .ok (.cmpiLtN h q a imm) ∧ decode (word h 9 (tc q 5 a imm)) = .ok (.cmpiGeN h q a imm) ∧
      decode (word h 9 (tc q 6 a (0#7 ++ n))) = .ok (.cmpiBset h q a n) ∧
      decode (word h 9 (tc q 7 a (0#7 ++ n))) = .ok (.cmpiBclr h q a n)) ∧
    (32 ≤ imm.toNat → ∀ cc : BitVec 3, cc = 6 ∨ cc = 7 →
      instrOf (word h 9 (tc q cc a imm)) = .illegalEncoding (word h 9 (tc q cc a imm))) ∧
    decode 0x09285F9C = .ok (.cmpiLtI ⟨0, 0⟩ 1 5 (BitVec.ofInt 12 (-100)))

/-- R151, R85: the words on predicates; a write to p7 takes nothing, and p7 reads as 1. -/
def Obligations.PredicateWords : Prop :=
  ∀ (s : State) (pr : Pour) (e : Entry) (h : Hdr) (q a b : PredNo) (n : BitVec 1) (d : Reg), Runs s pr e →
    let on (f : Bool → Bool → Bool) : State → Prop := ResultP s 2 q fun u => f (u.rdP s.time a) (u.rdP s.time b)
    Completes (.pand h q a b) s pr e (on fun x y => x && y) ∧ Completes (.por h q a b) s pr e (on fun x y => x || y) ∧
    Completes (.pxor h q a b) s pr e (on fun x y => x != y) ∧ Completes (.pandn h q a b) s pr e (on fun x y => x && !y) ∧
    Completes (.pmov h q a) s pr e (on fun x _ => x) ∧
    Completes (.pset h q n) s pr e (ResultP s 2 q fun _ => n.toNat == 1) ∧
    Completes (.p2v h d) s pr e (ResultS s 2 d fun u =>
      wordOf fun i => decide (i < 8) && u.rdP s.time (BitVec.ofNat 3 i)) ∧
    Completes (.v2p h d) s pr e (fun t => OnlyThreads s t ∧ EachThread s t fun u u' =>
      u' = { u with p := u'.p, late := u'.late } ∧ (∀ m r, u'.rdV m r = u.rdV m r) ∧
      ∀ i, i < 7 → ∀ m, (s.time + 2 ≤ m → u'.rdP m (BitVec.ofNat 3 i) = ((s.before u).rdV s.time d).getLsbD i) ∧
        (m < s.time + 2 → u'.rdP m (BitVec.ofNat 3 i) = u.rdP s.time (BitVec.ofNat 3 i)))

/-- R113, R114, R121, R223 to R227: the arithmetic of a format is exact and rounded once, to nearest; the floating-point words
complete with it, each element of a packed word on its own. -/
def Obligations.FloatWords : Prop :=
  (Arithmetic fp32 ∧ Arithmetic fp16 ∧ Arithmetic bf16) ∧
  (∀ (rm : Rm) (x : Nat), x < 2 ^ 32 → FrndRounds rm x) ∧
  (∀ (x : Nat) (b : Int), x < 2 ^ 32 → -2 ^ 31 ≤ b → b < 2 ^ 31 → FscaleRounds x b) ∧
  ∀ (s : State) (p : Pour) (e : Entry) (h : Hdr) (d a b c : Reg), Runs s p e →
    let two (f : Nat → Nat → Nat) : State → Prop := ResultV s 4 d (s.on2 a b fun x y => BitVec.ofNat 32 (f x.toNat y.toNat))
    let each (f : Nat → Nat → Nat) : State → Prop := ResultV s 4 d (s.on2 a b fun x y => BitVec.ofNat 32
      (f (x.toNat % 2 ^ 16) (y.toNat % 2 ^ 16) + f (x.toNat / 2 ^ 16) (y.toNat / 2 ^ 16) * 2 ^ 16))
    let each3 (f : Nat → Nat → Nat → Nat) : State → Prop := ResultV s 4 d (s.on3 a b c fun x y z => BitVec.ofNat 32
      (f (x.toNat % 2 ^ 16) (y.toNat % 2 ^ 16) (z.toNat % 2 ^ 16) +
        f (x.toNat / 2 ^ 16) (y.toNat / 2 ^ 16) (z.toNat / 2 ^ 16) * 2 ^ 16))
    (Completes (.fadd h d a b) s p e (two fp32.add) ∧ Completes (.fsub h d a b) s p e (two fp32.sub) ∧
      Completes (.fmul h d a b) s p e (two fp32.mul) ∧ Completes (.fmin h d a b) s p e (two fp32.minF) ∧
      Completes (.fmax h d a b) s p e (two fp32.maxF) ∧
      Completes (.fabs h d a) s p e (ResultV s 4 d (s.on1 a fun x => BitVec.ofNat 32 (x.toNat % 2 ^ 31))) ∧
      Completes (.fneg h d a) s p e (ResultV s 4 d (s.on1 a fun x => BitVec.ofNat 32 (x.toNat + 2 ^ 31))) ∧
      Completes (.fcps h d a b) s p e (ResultV s 4 d (s.on2 a b fun x y =>
        BitVec.ofNat 32 (x.toNat % 2 ^ 31 + y.toNat / 2 ^ 31 * 2 ^ 31)))) ∧
    (Completes (.hadd2 h d a b) s p e (each fp16.add) ∧ Completes (.hsub2 h d a b) s p e (each fp16.sub) ∧
      Completes (.hmul2 h d a b) s p e (each fp16.mul) ∧ Completes (.hmin2 h d a b) s p e (each fp16.minF) ∧
      Completes (.hmax2 h d a b) s p e (each fp16.maxF) ∧ Completes (.badd2 h d a b) s p e (each bf16.add) ∧
      Completes (.bsub2 h d a b) s p e (each bf16.sub) ∧ Completes (.bmul2 h d a b) s p e (each bf16.mul) ∧
      Completes (.bmin2 h d a b) s p e (each bf16.minF) ∧ Completes (.bmax2 h d a b) s p e (each bf16.maxF)) ∧
    (Completes (.ffma h d a b c) s p e
        (ResultV s 4 d (s.on3 a b c fun x y z => BitVec.ofNat 32 (fp32.fma x.toNat y.toNat z.toNat))) ∧
      Completes (.hfma2 h d a b c) s p e (each3 fp16.fma) ∧ Completes (.bfma2 h d a b c) s p e (each3 bf16.fma)) ∧
    (Completes (.frndNe h d a) s p e (ResultV s 4 d (s.on1 a fun x => BitVec.ofNat 32 (frnd .ne x.toNat))) ∧
      Completes (.frndTz h d a) s p e (ResultV s 4 d (s.on1 a fun x => BitVec.ofNat 32 (frnd .tz x.toNat))) ∧
      Completes (.frndDn h d a) s p e (ResultV s 4 d (s.on1 a fun x => BitVec.ofNat 32 (frnd .dn x.toNat))) ∧
      Completes (.frndUp h d a) s p e (ResultV s 4 d (s.on1 a fun x => BitVec.ofNat 32 (frnd .up x.toNat))) ∧
      Completes (.fclass h d a) s p e (ResultV s 4 d (s.on1 a fun x => BitVec.ofNat 32 (fclass x.toNat))) ∧
      Completes (.fscale h d a b) s p e (ResultV s 4 d (s.on2 a b fun x y => BitVec.ofNat 32 (fscale x.toNat y.toInt))))

/-- R232, R233: the special functions complete for all operands, with the exact results of R232's table. -/
def Obligations.SpecialFunctions : Prop :=
  (∀ f ∈ [rcpF, rsqF, sqrtF, exp2F, log2F, trigF 5 0, trigF 6 0x3F800000, tanhF], ∀ x : Word,
    fp32.isNaN x.toNat = true → f x.toNat = 0x7FC00000) ∧
  (rcpF 0 = 0x7F800000 ∧ rcpF 0x80000000 = 0xFF800000 ∧ rcpF 0xFF800000 = 0x80000000 ∧ rcpF 0xC0000000 = 0xBF000000) ∧
  (rsqF 0 = 0x7F800000 ∧ rsqF 0x80000000 = 0xFF800000 ∧ rsqF 0x7F800000 = 0 ∧ rsqF 0xBF800000 = 0x7FC00000 ∧
    rsqF 0x40800000 = 0x3F000000) ∧
  (sqrtF 0x80000000 = 0x80000000 ∧ sqrtF 0xBF800000 = 0x7FC00000 ∧ sqrtF 0x7F800000 = 0x7F800000) ∧
  (exp2F 0xFF800000 = 0 ∧ exp2F 0x7F800000 = 0x7F800000 ∧ exp2F 0x43000000 = 0x7F800000 ∧ exp2F 0xC3160001 = 0 ∧
    exp2F 0xC3150000 = 1) ∧
  (log2F 0x80000000 = 0xFF800000 ∧ log2F 0xBF800000 = 0x7FC00000 ∧ log2F 0x7F800000 = 0x7F800000 ∧ log2F 0x3F800000 = 0 ∧
    log2F 0x3F000000 = 0xBF800000) ∧
  (trigF 5 0 0x80000000 = 0x80000000 ∧ trigF 5 0 0xFF800000 = 0x7FC00000 ∧ trigF 6 0x3F800000 0x80000000 = 0x3F800000 ∧
    trigF 6 0x3F800000 0x7F800000 = 0x7FC00000) ∧
  (tanhF 0x80000000 = 0x80000000 ∧ tanhF 0xFF800000 = 0xBF800000 ∧ tanhF 0x41200000 = 0x3F800000) ∧
  ∀ (s : State) (p : Pour) (e : Entry) (h : Hdr) (d a : Reg), Runs s p e →
    let later (f : Nat → Nat) : State → Prop :=
      ResultLater s fun u => [(.v d, BitVec.ofNat 32 (f (u.rdV s.time a).toNat) ^^^ finjFlip s)]
    Completes (.rcp h d a) s p e (later rcpF) ∧ Completes (.rsq h d a) s p e (later rsqF) ∧
    Completes (.sqrt h d a) s p e (later sqrtF) ∧ Completes (.exp2 h d a) s p e (later exp2F) ∧
    Completes (.log2 h d a) s p e (later log2F) ∧ Completes (.sin h d a) s p e (later (trigF 5 0)) ∧
    Completes (.cos h d a) s p e (later (trigF 6 0x3F800000)) ∧ Completes (.tanh h d a) s p e (later tanhF)

/-- R228 to R231, R122 to R124, R325, R326, R331: a conversion completes where no executing lane takes `FPTRAP`, which
policies other than `.trap` never do; a lane that takes it enters the handler with the pair of formats, the element and the
source bits (those of the whole register for a narrow source of `CVT`: log 107). A result is the exact value of the source
rounded once into the target, or what the policy gives where that overflows. -/
def Obligations.Conversions : Prop :=
  (∀ (src tgt : Nat) (rm : Rm) (pol x : Nat), pol < 3 → (cvtOne src tgt rm pol x).isSome = true) ∧
  (∀ x, x < 2 ^ 32 → ConvertsFrom x) ∧
  (∀ (src : Nat) (rm : Rm) (pol x : Nat), src < 8 → pol < 4 → x < 2 ^ 32 → ConvertsFloat src rm pol x ∧ ConvertsInt src rm pol x ∧
    ConvertsLg src rm pol x) ∧
  ∀ (s : State) (p : Pour) (e : Entry) (h : Hdr) (d a : Reg) (w : PairNo) (rm pol : BitVec 2) (src tgt : BitVec 3),
    let cv (src tgt x : Nat) : Option Nat := cvtOne src tgt (Rm.of rm) pol.toNat x
    let traps (i : Instr) (l : Nat) (u : Thread) (q : Part) (code element x : Nat) : Prop :=
      ∃ t, exec i s = .next t ∧
        Enters s t p e l u q.trapvec 0x17 (BitVec.ofNat 64 (x + code * 2 ^ 32 + element * 2 ^ 38))
    let one (i : Instr) (code src tgt : Nat) (f : Word → Nat) : Prop :=
      (Runs s p e → EachLane s (fun u => (cv src tgt (f (u.rdV s.time a))).isSome = true) →
        Completes i s p e (ResultV s 4 d (s.on1 a fun x => BitVec.ofNat 32 ((cv src tgt (f x)).getD 0)))) ∧
      ∀ l u q, MayTrap s p e l u q → cv src tgt (f (u.rdV s.time a)) = none → traps i l u q code 0 (f (u.rdV s.time a))
    let two (i : Instr) (code tgt : Nat) : Prop :=
      let x (u : Thread) : Nat := (u.rdV s.time (pairLo w)).toNat
      let y (u : Thread) : Nat := (u.rdV s.time (pairHi w)).toNat
      (Runs s p e → EachLane s (fun u => (cv 0 tgt (x u)).isSome = true ∧ (cv 0 tgt (y u)).isSome = true) →
        Completes i s p e (ResultV s 4 d (s.on2 (pairLo w) (pairHi w) fun x y =>
          BitVec.ofNat 32 ((cv 0 tgt x.toNat).getD 0 + (cv 0 tgt y.toNat).getD 0 * 2 ^ 16)))) ∧
      ∀ l u q, MayTrap s p e l u q →
        (cv 0 tgt (x u) = none → traps i l u q code 0 (x u)) ∧
        ((cv 0 tgt (x u)).isSome = true → cv 0 tgt (y u) = none → traps i l u q code 1 (y u))
    one (.cvt h d a rm pol src tgt) (8 * src.toNat + tgt.toNat) src.toNat tgt.toNat BitVec.toNat ∧
    one (.cvtF32F16hi h d a rm pol) 18 1 0 (fun x => x.toNat / 2 ^ 16) ∧
    one (.cvtF32Bf16hi h d a rm pol) 27 2 0 (fun x => x.toNat / 2 ^ 16) ∧
    two (.cvtF16x2F32x2 h d w rm pol) 0 1 ∧ two (.cvtBf16x2F32x2 h d w rm pol) 9 2

/-- R234 to R238, R131: the lane forms, over the threads of the active lanes in rank order. -/
def Obligations.LaneWords : Prop :=
  ∀ (s : State) (pr : Pour) (e : Entry) (h : Hdr) (d a b : Reg) (q r : PredNo), Runs s pr e →
    let shfl (src : Nat → Nat → Option Nat) : State → Prop := ResultV s 4 d fun u =>
      match (src (laneRank s u) (u.rdV s.time b).toNat).bind fun k => (laneSet s u)[k]? with
      | some w => w.rdV s.time a
      | none => u.rdV s.time a
    let fold (f : List Word → Word) : State → Prop := ResultV s 4 d fun u => f ((laneSet s u).map fun w => w.rdV s.time a)
    let least (l : List Word) : Word := if l = [] then 0 else BitVec.ofInt 32 ((l.map BitVec.toInt).foldr min (2 ^ 31 - 1))
    let greatest (l : List Word) : Word := if l = [] then 0 else BitVec.ofInt 32 ((l.map BitVec.toInt).foldr max (-2 ^ 31))
    Completes (.shflIdx h d a b) s pr e (shfl fun _ n => if n < 32 then some n else none) ∧
    Completes (.shflUp h d a b) s pr e (shfl fun k n => if n ≤ k then some (k - n) else none) ∧
    Completes (.shflDn h d a b) s pr e (shfl fun k n => some (k + n)) ∧
    Completes (.shflXor h d a b) s pr e (shfl fun k n => if n < 32 then some (k ^^^ n) else none) ∧
    Completes (.voteAny h q r) s pr e (ResultP s 4 q fun u => (laneSet s u).any fun w => w.rdP s.time r) ∧
    Completes (.voteAll h q r) s pr e (ResultP s 4 q fun u => (laneSet s u).all fun w => w.rdP s.time r) ∧
    Completes (.lrank h d r) s pr e (ResultV s 4 d fun u =>
      BitVec.ofNat 32 (((laneSet s u).take (laneRank s u)).countP fun w => w.rdP s.time r)) ∧
    Completes (.lcnt h d r) s pr e (ResultV s 4 d fun u => BitVec.ofNat 32 ((laneSet s u).countP fun w => w.rdP s.time r)) ∧
    Completes (.bcast h d a b) s pr e (ResultV s 4 d fun u => match laneSet s u with
      | [] => 0
      | w :: ts => (((w :: ts)[(w.rdV s.time b).toNat]?).getD w).rdV s.time a) ∧
    Completes (.rdxAddI32 h d a) s pr e (fold fun l => BitVec.ofNat 32 (l.map BitVec.toNat).sum) ∧
    Completes (.rdxAddF32 h d a) s pr e (fold fun l => BitVec.ofNat 32 (treeSum fp32.add 5 (l.map BitVec.toNat))) ∧
    Completes (.rdxMinI32 h d a) s pr e (fold least) ∧
    Completes (.rdxMaxI32 h d a) s pr e (fold greatest) ∧
    Completes (.rdxMinF32 h d a) s pr e (fold (floatReduce fp32.minF)) ∧
    Completes (.rdxMaxF32 h d a) s pr e (fold (floatReduce fp32.maxF))

/-- R45, R136, R137, R152 to R155: `NOP`, `PRI` and the control transfers. Targets are computed from the word's own place.
Where the two physical lanes of a visible lane would go to different places, the gang is killed. Where a ninth entry comes
about, the entry of lowest priority leaves the pour: its thread becomes a record of kind 4, or, where the pool has no room,
it stays as a pool-stalled split entry. -/
def Obligations.ControlTransfers : Prop :=
  ∀ (s : State) (p : Pour) (e : Entry) (h : Hdr) (q : PredNo) (n : BitVec 1) (prio : BitVec 4) (d16 : BitVec 16)
    (d19 : BitVec 19) (a : Reg), Runs s p e → s.curEntry? = some e →
    let target (x : Int) : Word := BitVec.ofInt 32 (s.cur.wpc.toNat + 4 * x)
    let stays (t : State) : Prop := OnlyThreads s t ∧ t.threads = s.threads
    let links (t : State) : Prop := ResultS s 2 63 (fun _ => s.cur.fall) t
    let goes (i : Instr) (f : Thread → Option (Word × BitVec 4)) (eff : State → Prop) : Prop :=
      Agree s (fun u => ((f u).map (·.1)).getD s.cur.fall) → Fits s p e f → CompletesAt i s p e p.k (s.goes e f) fun t => eff t ∧
        (s.cur.phase = .apply → ∀ x ∈ s.cur.lanes, ∀ u y, s.before? x.2 = some u → f u = some y →
          { lane := x.1, pc := y.1, prio := y.2, buf := e.buf } ∈ t.cur.transfers)
    Completes (.nop h) s p e stays ∧
    CompletesAt (.pri h prio) s p e p.k (fun _ => (s.cur.fall, prio)) (fun t => stays t ∧
      (s.cur.phase = .apply → t.cur.newPrio = some prio)) ∧
    goes (.br h q n prio d16) (fun u => if u.rdP s.time q = (n.toNat == 0) then some (target d16.toInt, prio) else none) stays ∧
    goes (.jmp h prio d19) (fun _ => some (target d19.toInt, prio)) stays ∧
    goes (.call h prio d19) (fun _ => some (target d19.toInt, prio)) links ∧
    goes (.jr h a prio) (fun u => some (u.rdV s.time a, prio)) stays ∧
    goes (.callr h a prio) (fun u => some (u.rdV s.time a, prio)) links ∧
    goes (.ret h prio) (fun u => some (u.rdV s.time 63, prio)) stays ∧
    ∀ (i : Instr) (f : Thread → Option (Word × BitVec 4)),
      (i = .br h q n prio d16 ∧ f = (fun u => if u.rdP s.time q = (n.toNat == 0) then some (target d16.toInt, prio) else none)) ∨
        (i = .jr h a prio ∧ f = fun u => some (u.rdV s.time a, prio)) ∨
        (i = .callr h a prio ∧ f = fun u => some (u.rdV s.time a, prio)) ∨
        (i = .ret h prio ∧ f = fun u => some (u.rdV s.time 63, prio)) →
      let pc (u : Thread) : Word := ((f u).map (·.1)).getD s.cur.fall
      (∀ l u w ln, OneWord s p e → s.ctlHere = false → s.cur.lanes = [(l, u.tid)] → s.thread? u.tid = some u → s.before u = u →
        s.twinOf u = some w → s.launch? u.part u.launch = some ln → pc u ≠ pc (s.before w) →
        ∃ t, exec i s = .next t ∧ GangGone t ln (ln.gangOf u.cast)) ∧
      ∀ (x y : Nat × Nat) (z : Entry) (m : Nat) (v : Thread), OneWord s p e → s.ctlHere = false →
        Agree s (fun u => ((f u).map (·.1)).getD s.cur.fall) → s.cur.lanes = [x, y] →
        (s.goes e f x).1 ≠ (s.goes e f y).1 →
        p.entries.length = 8 → (p.entries.map fun o => (o.pc, o.buf)).Nodup → (∀ o ∈ p.entries, o.split = none ∧ o.stall = none) →
        (∀ o ∈ p.entries, o ≠ e → o.pc ≠ (s.goes e f x).1 ∧ o.pc ≠ (s.goes e f y).1) → (∀ k, p.kreg k = 0) →
        (∀ u ∈ s.threads, u.trapClass = false) → z ∈ p.entries → z ≠ e → (∀ o ∈ p.entries, o ≠ z → z.prio < o.prio) → z.prio < prio →
        s.lanesIn p.core p.slot z.mask = [(m, v.tid)] → s.thread? v.tid = some v → s.rec? v.tid = none → p.refs = [] →
        ((takeRoom s p.part p.launch 1).isSome = true → ∃ t, exec i s = .next t ∧
          ∃ r ∈ t.recs, r.tid = v.tid ∧ r.kind = 4 ∧ r.wtype = 0 ∧ r.resume = z.pc ∧ r.prio = z.prio ∧ r.buf = z.buf) ∧
        (takeRoom s p.part p.launch 1 = none → ∃ t, exec i s = .next t ∧
          ∃ r ∈ t.pours, r.core = p.core ∧ r.slot = p.slot ∧
            ∃ o ∈ r.entries, o.pc = z.pc ∧ o.mask = z.mask ∧ o.split.isSome = true)

/-- R156 to R158: the words on mask registers complete. A written mask holds no lane that is not in the pour; no other mask
register changes. `KWAIT` lets an entry go on that shares no lane with the mask, that is released, or whose arrival completes
the mask, with 1; an entry that is let go because every entry of the pour waits, with 0; otherwise it holds the entry. -/
def Obligations.MaskWords : Prop :=
  ∀ (s : State) (p : Pour) (e : Entry) (h : Hdr) (d a : BitVec 6) (v : Reg) (q : PredNo), Runs s p e →
    s.curPour? = some p → s.curEntry? = some e →
    (d.toNat < 12 →
      let active (l : Nat) : Bool := decide (l ∈ s.cur.lanes.map (·.1))
      let inPour (l : Nat) : Bool := p.entries.any fun x => x.mask.getLsbD l
      let old (r : BitVec 6) (l : Nat) : Bool := (p.kreg r.toNat).getLsbD l
      let put (f : Nat → Bool) : Vector Word 12 := p.k.setIfInBounds d.toNat (wordOf fun l => f l && inPour l)
      let puts (i : Instr) (f : Nat → Bool) : Prop :=
        CompletesAt i s p e (put f) (fun _ => (s.cur.fall, e.prio)) fun t => OnlyThreads s t ∧ t.threads = s.threads ∧
          ∃ x ∈ t.pours, x.core = p.core ∧ x.slot = p.slot ∧ x.k = put f
      puts (.kjoin h d) (fun l => old d l || active l) ∧
      puts (.kleave h d) (fun l => old d l && !active l) ∧
      puts (.kmov h d a) (old a) ∧
      puts (.kclr h d) (fun _ => false) ∧
      (∀ u l, s.issuing? = some (l, u) → puts (.kwr h d v) (u.rdV s.time v).getLsbD) ∧
      ((∀ x ∈ s.cur.lanes, x.1 < 32) → (s.cur.lanes.map (·.1)).Nodup →
        puts (.kbal h d q) fun l => match s.cur.lanes.find? fun x => x.1 = l with
          | some x => (s.before? x.2).any fun u => u.rdP s.time q
          | none => old d l) ∧
      Completes (.krd h v a) s p e (ResultS s 1 v fun _ => p.kreg a.toNat) ∧
      Completes (.kfront h v 0) s p e (ResultS s 1 v fun _ => wordOf inPour) ∧
      Completes (.kfront h v 1) s p e (ResultS s 1 v fun _ => BitVec.ofNat 32 p.entries.length) ∧
      Completes (.kfront h v 2) s p e (ResultS s 1 v fun _ => wordOf active)) ∧
    let m := p.kreg a.toNat
    let whole : Prop := ∀ l, m.getLsbD l = true → ((kwaitUnion s p a.toNat ||| s.active).getLsbD l) = true
    let passes : Prop := s.active &&& m = 0 ∨ e.freed = some true ∨ (e.freed = none ∧ whole)
    let escapes : Prop := s.active &&& m ≠ 0 ∧ (e.freed = some false ∨ (e.freed = none ∧ ¬whole ∧ kstuck s p = true))
    (passes → Completes (.kwait h q a) s p e (ResultP s 1 q fun _ => true)) ∧
    (escapes → Completes (.kwait h q a) s p e (ResultP s 1 q fun _ => false)) ∧
    (¬passes → ¬escapes → OneWord s p e → ∃ t, exec (.kwait h q a) s = .next t ∧ t.threads = s.threads ∧
      ∃ x ∈ t.pours, x.core = p.core ∧ x.slot = p.slot ∧ x.k = p.k ∧
        ∃ y ∈ x.entries, y.pc = e.pc ∧ y.mask = e.mask &&& s.active ∧ y.stall.isSome = true)

/-- R69, R138 to R140, R253, R259, R262: the words that read what the hardware knows. They write one register and nothing
else, but for the count of state operations that `BSTAT` advances (R271). -/
def Obligations.StatusWords : Prop :=
  ∀ (s : State) (p : Pour) (e : Entry) (h : Hdr) (d a sel : Reg), Runs s p e →
    let reads (i : Instr) (f : Thread → Word) : Prop := Completes i s p e (ResultLater s fun u => [(.v d, f u)])
    (∃ f : Thread → Word, reads (.rds h d sel) f ∧ ∀ u,
      (sel.toNat = 14 → (f u).toNat = s.time % 2 ^ 32) ∧ (sel.toNat = 15 → (f u).toNat = s.time / 2 ^ 32 % 2 ^ 32) ∧
      (sel.toNat = 19 → f u = u.acktag) ∧ (sel.toNat = 20 → f u = u.ackt) ∧
      (s.ctlHere = true → sel.toNat = 6 → f u = 1) ∧
      (s.ctlHere = true → sel.toNat ∉ [6, 14, 15, 19, 20] → f u = 0) ∧
      (s.ctlHere = false →
        (sel.toNat = 0 → (f u).toNat = u.tic % 2 ^ 32) ∧ (sel.toNat = 1 → (f u).toNat = u.cast % 2 ^ 32) ∧
        (sel.toNat = 4 → (f u).toNat = s.laneOf u % 2 ^ 32) ∧
        (sel.toNat = 5 → (f u).toNat = (((List.range (s.laneOf u)).filter fun l => s.active.getLsbD l).length) % 2 ^ 32) ∧
        (sel.toNat = 6 → (f u).toNat = (((List.range 32).filter fun l => s.active.getLsbD l).length) % 2 ^ 32) ∧
        (sel.toNat = 7 → (f u).toNat = s.cur.slot % 2 ^ 32) ∧ (sel.toNat = 8 → (f u).toNat = s.cur.core % 2 ^ 32) ∧
        (sel.toNat = 9 → s.cur.core < 1024 → (f u).toNat = s.cur.core / 8) ∧
        (∀ ln, s.launch? u.part u.launch = some ln → u.cast < 2 ^ 32 →
          (sel.toNat = 2 → (f u).toNat = ln.ncast % 2 ^ 32) ∧ (sel.toNat = 3 → (f u).toNat = ln.castsz % 2 ^ 32) ∧
          (1 ≤ ln.gang → (sel.toNat = 10 → (f u).toNat = u.cast / ln.gang) ∧
            (sel.toNat = 11 → (f u).toNat = u.cast % ln.gang % 2 ^ 32)) ∧
          ∀ r, ln.chain.head? = some r → sel.toNat = 13 → (f u).toNat = r.number % 2 ^ 32) ∧
        (∀ y, s.curEntry? = some y → sel.toNat = 16 → (f u).toNat = y.prio.toNat) ∧
        (sel.toNat = 12 → (f u).toNat = u.launch % 2 ^ 32) ∧ (sel.toNat = 17 → (f u).toNat = u.kind % 2 ^ 32) ∧
        (sel.toNat = 18 → f u = u.wakest))) ∧
    (∀ l u, s.issuing? = some (l, u) → ∃ x : Word, reads (.qstat h d) (fun _ => x) ∧
      (∀ q, q < 4 → (feedQueue s u q).length < 32 → x.toNat / 2 ^ (5 * q) % 32 = (feedQueue s u q).length) ∧
      (x.getLsbD 20 = (s.runners.find? fun r => r.part = u.part && r.launch = u.launch && r.cast = u.cast).any
        fun r => r.paused.isNone) ∧
      (x.getLsbD 21 = (s.runners.find? fun r => r.part = u.part && r.launch = u.launch && r.cast = u.cast).any
        fun r => r.paused.isSome)) ∧
    (Agree s (fun u => u.rdV s.time a) → ∃ x : Word, reads (.tstat h d a) (fun _ => x) ∧
      (issuedTile s a = none → x = 0) ∧
      ∀ hd t, issuedTile s a = some (hd, t) → x.toNat % 4 = t.ncode % 4 ∧ x.getLsbD 2 = t.tall ∧ x.getLsbD 3 = t.i32 ∧
        x.getLsbD 4 = true ∧ x.getLsbD 5 = s.tileOps.any fun o => o.arrived && o.handle = hd && o.part = t.part) ∧
    (Agree s (fun u => u.rdV s.time a) → (∀ x ∈ s.cur.lanes, ∀ u, s.before? x.2 = some u → stateTrap btR a s x.1 u = none) →
      (∀ l u, s.issuing? = some (l, u) → stateOpBefore s ((u.rdV s.time a).toNat % 2 ^ 16) = false) →
      ∃ x : Word, Completes (.bstat h d a) s p e (fun t =>
          OnlyThreads { s with results := t.results, nextId := t.nextId } t ∧
            EachThread s t (fun u u' => u'.stateOps = u.stateOps + 1 ∧ u'.isPending (.v d) = true ∧
              u' = { u with pendV := u'.pendV, stateOps := u'.stateOps }) ∧
            ∃ rs, t.results = s.results ++ rs ∧ List.Forall₂ (fun u (r : PendRes) => r.tid = u.tid ∧ r.writes = [(.v d, x)])
              (s.threads.filter s.isActive) rs) ∧
        ∀ l u q, s.issuing? = some (l, u) → s.part? u.part = some q →
          x.toNat % 8 = btState (btMem s q ((u.rdV s.time a).toNat % 2 ^ 16)))

/-- R291 to R295: `CSRR` returns the register; a form below the register's level, or without one, takes the trap of
`csrStatic` and does not reach this. -/
def Obligations.CsrReads : Prop :=
  ∀ (s : State) (p : Pour) (e : Entry) (h : Hdr) (d : Reg) (r : BitVec 12), Runs s p e →
    (∀ x ∈ s.cur.lanes, ∀ u, s.before? x.2 = some u → csrStatic s.ctlHere 0 r d u.level = none) →
    let f (u : Thread) : DWord := csrRead s s.cur.core u r
    Completes (.csrr h d r) s p e (ResultLater s fun u =>
      if csrWide r then [(.v d, (f u).extractLsb' 0 32), (.v (d + 1), (f u).extractLsb' 32 32)]
      else [(.v d, (f u).setWidth 32)]) ∧
      ∀ u, (r = 0x121 → (f u).toNat = s.time % 2 ^ 64) ∧
        (∀ q, (if s.ctlHere = true then s.partOfSlot (s.cur.core - 1024) else s.part? u.part) = some q →
          (r = 0x001 → (f u).toNat = if q.sbchk then 1 else 0) ∧ (r = 0x002 → (f u).toNat = q.swin.toNat) ∧
          (r = 0x003 → (f u).toNat = q.fspill.toNat) ∧ (r = 0x104 → (f u).toNat = q.fltdone.toNat) ∧ (r = 0x105 → f u = q.btbase) ∧
          (r = 0x106 → (f u).toNat = q.traplim.toNat) ∧ (r = 0x107 → (f u).toNat = q.sglim.toNat) ∧
          (r = 0x108 → f u = q.sysring) ∧ (r = 0x10A → f u = q.rechold) ∧ (r = 0x10B → f u = 0) ∧ (r = 0x10C → f u = q.poolbk) ∧
          (r = 0x110 → (f u).toNat = q.assayctl.toNat) ∧ (r = 0x112 → (f u).toNat = q.finj.toNat) ∧
          (r = 0x120 → f u = q.enacct) ∧ (r = 0x122 → (f u).toNat = q.enpol.toNat) ∧
          (s.ctlHere = false → r = 0x100 → (f u).toNat = q.trapvec.toNat)) ∧
        (s.ctlHere = false → (r = 0x101 → (f u).toNat = u.trappc.toNat) ∧ (r = 0x102 → (f u).toNat = u.trapcause.toNat) ∧
          (r = 0x103 → f u = u.trapinfo)) ∧
        (s.ctlHere = true → ∀ c, s.ctl? (s.cur.core - 1024) = some c →
          let b : Bank := if u.level = .mon then c.bankM else c.bankS
          (r = 0x100 → (f u).toNat = b.trapvec.toNat) ∧ (r = 0x101 → (f u).toNat = b.trappc.toNat) ∧
          (r = 0x102 → (f u).toNat = b.trapcause.toNat) ∧ (r = 0x103 → f u = b.trapinfo) ∧
          ∀ i, ∀ hi : i < 8,
            (r.toNat = 0x200 + i → (f u).toNat = (c.pmp[i]'hi).cfg.toNat) ∧ (r.toNat = 0x208 + i → f u = (c.pmp[i]'hi).base) ∧
            (r.toNat = 0x210 + i → (f u).toNat = (c.pmp[i]'hi).lim.toNat))

/-- R63, R291 to R295, R298, R299, R301, R335, R368, R381: `CSRW` stores the register's writable fields, `CSRS` sets and `CSRC`
clears the bits of the source; no other register of the partition and no general register changes. A control core writes the
registers of the partition that holds its slot, its own layer's trap registers, and its PMP registers, of which a locked
region takes none. A write of `FLTDONE`, `SYSDONE`, `RECHOLD` or `QACK` does what the event of that name does (`FaultEntries`,
`PostsAndReplies`, `RecordsMoved`); of `POOLBK`, one that changes `BUF` while the backing is in use is ignored. Lanes act in
order, each on what the one before left. -/
def Obligations.CsrWrites : Prop :=
  (∀ (s : State) (p : Pour) (e : Entry) (h : Hdr) (v : Reg) (q : Part), Runs s p e → (∀ x ∈ s.parts, x.first = q.first → x = q) →
    ∀ form ∈ [(Instr.csrw h v 0x106, 1, fun _ (x : Word) => x), (.csrs h v 0x106, 2, fun old x => old ||| x),
        (.csrc h v 0x106, 2, fun old x => old &&& ~~~x)],
      (∀ x ∈ s.cur.lanes, ∃ u b, s.thread? x.2 = some u ∧ s.before? x.2 = some b ∧ s.twinOf b = none ∧
        (if s.ctlHere = true then s.partOfSlot (s.cur.core - 1024) else s.part? u.part) = some q ∧
        csrStatic s.ctlHere form.2.1 0x106 v b.level = none) →
      Completes form.1 s p e fun t => OnlyThreads { s with parts := t.parts } t ∧ t.threads = s.threads ∧
        t.parts = s.parts.map fun x => if x.first = q.first then
          { q with traplim := s.cur.lanes.foldl (fun old y => match s.before? y.2 with
            | some b => form.2.2 old (b.rdV s.time v)
            | none => old) q.traplim } else x) ∧
  ∀ (s : State) (p : Pour) (e : Entry) (h : Hdr) (v : Reg) (r : BitVec 12) (l tid : Nat) (u : Thread) (q : Part),
    Runs s p e → s.cur.lanes = [(l, tid)] → s.before? tid = some u → s.thread? tid = some u → u.twin = 0 →
    (if s.ctlHere = true then s.partOfSlot (s.cur.core - 1024) else s.part? u.part) = some q →
    (∀ x ∈ s.parts, x.first = q.first → x = q) →
    let src : DWord := if csrWide r then u.rdV s.time (v + 1) ++ u.rdV s.time v else (u.rdV s.time v).setWidth 64
    let forms : List (Instr × Nat × (DWord → DWord)) :=
      [(.csrw h v r, 1, fun _ => src), (.csrs h v r, 2, fun old => old ||| src), (.csrc h v r, 2, fun old => old &&& ~~~src)]
    ∀ form ∈ forms, csrStatic s.ctlHere form.2.1 r v u.level = none →
      let part (old : DWord) (f : DWord → Part) : Prop :=
        Completes form.1 s p e fun t => OnlyThreads { s with parts := t.parts } t ∧ t.threads = s.threads ∧
          t.parts = s.parts.map fun x => if x.first = q.first then f (form.2.2 old) else x
      let thread (old : DWord) (f : DWord → Thread) : Prop :=
        Completes form.1 s p e fun t => OnlyThreads { s with parts := t.parts } t ∧
          t.part? u.part = some q ∧ t.thread? tid = some (f (form.2.2 old))
      let event (old : DWord) (f : DWord → Instr) : Prop := ∃ s', s' = { s with cur := s'.cur } ∧
        ∃ t', exec (f (form.2.2 old)) s' = .next t' ∧ ∃ t, exec form.1 s = .next t ∧ After t' t
      (r = 0x104 → event (q.fltdone.setWidth 64) fun x => if x.getLsbD 31 = true then .fltdoneFail q.first (x.toNat % 2 ^ 31)
        else .fltdoneService q.first (x.toNat % 2 ^ 31)) ∧
      (r = 0x109 → event (csrRead s s.cur.core u r) fun x => .sysdoneWrite q.first (x.setWidth 16)) ∧
      (r = 0x10A → event q.rechold fun x => if x.getLsbD 63 = true then .recholdHold q.first (x.setWidth 32)
        else .recholdRelease q.first (x.setWidth 32)) ∧
      (r = 0x10B → ((form.2.2 0).getLsbD 0 = true → event 0 fun _ => .qack (s.cur.core - 1024)) ∧
        ((form.2.2 0).getLsbD 0 = false → Completes form.1 s p e (After s))) ∧
      (r = 0x10C →
        let y := form.2.2 q.poolbk &&& 0xFFFF0000FFFFFFFF
        let same : Prop := y.toNat / 2 ^ 48 = q.poolbk.toNat / 2 ^ 48
        (same → part q.poolbk fun _ => { q with poolbk := y }) ∧
        (¬same → backingUsed s q = false → part q.poolbk fun _ => { q with poolbk := y, poolPages := 0 }) ∧
        (¬same → backingUsed s q = true → Completes form.1 s p e (After s))) ∧
      (r = 0x112 → part (q.finj.setWidth 64) fun x =>
        { q with finj := x.setWidth 32 &&& 0xC3FF001F, finjTid := if x.toNat / 2 ^ 30 % 4 = 2 then some tid else none }) ∧
      (r = 0x001 → part (if q.sbchk then 1 else 0) fun x => { q with sbchk := x.getLsbD 0 }) ∧
      (r = 0x002 → part (q.swin.setWidth 64) fun x => { q with swin := x.setWidth 16 }) ∧
      (r = 0x003 → part (q.fspill.setWidth 64) fun x => { q with fspill := x.setWidth 8 }) ∧
      (r = 0x105 → part q.btbase fun x => { q with btbase := x &&& 0xFFFFFFFFFFFFF00F }) ∧
      (r = 0x106 → part (q.traplim.setWidth 64) fun x => { q with traplim := x.setWidth 32 }) ∧
      (r = 0x107 → part (q.sglim.setWidth 64) fun x => { q with sglim := x.setWidth 17 }) ∧
      (r = 0x108 → part q.sysring fun x => { q with sysring := x &&& 0xFFFFFFFFFFFFF00F }) ∧
      (r = 0x110 → part (q.assayctl.setWidth 64) fun x => { q with assayctl := x.setWidth 32 &&& 0xFFFFFF01 }) ∧
      (r = 0x111 → part 0 fun x => { q with assaykey := x }) ∧
      (r = 0x122 → part (q.enpol.setWidth 64) fun x => { q with enpol := x.setWidth 16 }) ∧
      (s.ctlHere = false → r = 0x100 → part (q.trapvec.setWidth 64) fun x => { q with trapvec := x.setWidth 32 }) ∧
      (s.ctlHere = false → r = 0x101 → thread (u.trappc.setWidth 64) fun x => { u with trappc := x.setWidth 32 }) ∧
      (s.ctlHere = false → r = 0x102 → thread (u.trapcause.setWidth 64) fun x => { u with trapcause := x.setWidth 32 &&& 0xCFFF }) ∧
      (s.ctlHere = false → r = 0x103 → thread u.trapinfo fun x => { u with trapinfo := x }) ∧
      (s.ctlHere = true → ∀ c, s.ctl? (s.cur.core - 1024) = some c →
        let core (c' : Ctl) : Prop := Completes form.1 s p e fun t => OnlyThreads { s with ctls := t.ctls } t ∧
          t.threads = s.threads ∧ t.ctl? (s.cur.core - 1024) = some c'
        let b : Bank := if u.level = .mon then c.bankM else c.bankS
        let bank (b' : Bank) : Prop := core (if u.level = .mon then { c with bankM := b' } else { c with bankS := b' })
        (r = 0x100 → bank { b with trapvec := (form.2.2 (b.trapvec.setWidth 64)).setWidth 32 }) ∧
        (r = 0x101 → bank { b with trappc := (form.2.2 (b.trappc.setWidth 64)).setWidth 32 }) ∧
        (r = 0x102 → bank { b with trapcause := (form.2.2 (b.trapcause.setWidth 64)).setWidth 32 &&& 0xCFFF }) ∧
        (r = 0x103 → bank { b with trapinfo := form.2.2 b.trapinfo }) ∧
        ∀ i, ∀ hi : i < 8,
          let x := c.pmp[i]'hi
          (x.cfg.getLsbD 7 = true → r.toNat = 0x200 + i ∨ r.toNat = 0x208 + i ∨ r.toNat = 0x210 + i → core c) ∧
          (x.cfg.getLsbD 7 = false →
            (r.toNat = 0x200 + i → core { c with pmp := c.pmp.set i { x with cfg := (form.2.2 (x.cfg.setWidth 64)).setWidth 8 &&& 0x8F } }) ∧
            (r.toNat = 0x208 + i → core { c with pmp := c.pmp.set i { x with base := form.2.2 x.base } }) ∧
            (r.toNat = 0x210 + i → core { c with pmp := c.pmp.set i { x with lim := (form.2.2 (x.lim.setWidth 64)).setWidth 48 } })))

/-- R200, R203 to R206, R219: loads and stores. An access of each lane leaves the core with the buffer and the offset that
the address registers give and, of a store, the data; the registers of a load are pending. No byte of memory changes
before the home performs the access (`HomePerforms`). A prefetch writes no register and makes at most one load of each
lane, of one byte, which belongs to no thread. -/
def Obligations.LoadsAndStores : Prop :=
  ∀ (s : State) (p : Pour) (e : Entry) (h : Hdr) (d : Reg) (w : PairNo) (ty : BitVec 3) (cp : BitVec 2) (imm : BitVec 7)
    (b : Reg), Runs s p e →
    (Live s → accessOk ty d = true →
      let size : Nat := if ty.toNat < 2 then 1 else if ty.toNat < 4 then 2 else if ty.toNat = 4 then 4 else if ty.toNat = 5 then 8 else 16
      let place (x : Int) (u : Thread) : Nat × Nat :=
        ((u.rdW s.time w).toNat / 2 ^ 48, ((((u.rdW s.time w).toNat % 2 ^ 48 : Nat) + x) % 2 ^ 48).toNat)
      let byImm (u : Thread) : Nat × Nat := place (imm.toInt * size) u
      let byReg (u : Thread) : Nat × Nat := place (u.rdV s.time b).toInt u
      let words : Nat := (size + 3) / 4
      let regs : List RegRef := (List.range words).map fun i => .v (d + BitVec.ofNat 6 i)
      let data (u : Thread) : Nat :=
        ((List.range words).map fun i => (u.rdV s.time (d + BitVec.ofNat 6 i)).toNat * 2 ^ (32 * i)).sum % 2 ^ (8 * size)
      let load (a : Thread → Nat × Nat) (u : Thread) : Ask :=
        { op := .load, kind := .load, idx := (a u).1, off := (a u).2, size, ty := ty.toNat, cp := cp.toNat, dst := some d }
      let store (a : Thread → Nat × Nat) (u : Thread) : Ask :=
        { op := .store, kind := .store, idx := (a u).1, off := (a u).2, size, ty := ty.toNat, cp := cp.toNat, data := data u }
      (Clear s (load byImm) → Completes (.ld h d w ty cp imm) s p e (Accesses s (load byImm) regs)) ∧
      (Clear s (load byReg) → Completes (.ldx h d w ty cp b) s p e (Accesses s (load byReg) regs)) ∧
      (Clear s (store byImm) → Completes (.st h d w ty cp imm) s p e (Accesses s (store byImm) [])) ∧
      (Clear s (store byReg) → Completes (.stx h d w ty cp b) s p e (Accesses s (store byReg) []))) ∧
    ∀ n : Nat,
      let ask (u : Thread) : Ask :=
        { op := .pref, kind := .load, idx := (u.rdW s.time w).toNat / 2 ^ 48, off := (u.rdW s.time w).toNat % 2 ^ 48, size := 1,
          ty := 0, cp := n }
      Clear s ask →
      ∀ i, (n = 1 ∧ i = .prefL1 h w) ∨ (n = 2 ∧ i = .prefL2 h w) →
        Completes i s p e fun t => OnlyAccesses s t ∧ t.threads = s.threads ∧
          ∃ as, t.accs = s.accs ++ as ∧ as.length ≤ s.cur.lanes.length ∧
            ∀ a ∈ as, a.tid = none ∧ a.kind = .load ∧ a.size = 1 ∧ a.dst = none ∧
              ∃ x ∈ s.cur.lanes, ∃ u, s.before? x.2 = some u ∧ a.buf = (ask u).idx ∧ a.off = (ask u).off

/-- R207 to R212: atomics, reductions and acquiring loads leave the core as accesses of their operation. What an
operation computes at the home is `AtomicResults`. -/
def Obligations.Atomics : Prop :=
  ∀ (s : State) (p : Pour) (e : Entry) (h : Hdr) (d b : Reg) (w x y : PairNo), Runs s p e → Live s →
    let idx (u : Thread) : Nat := (u.rdW s.time w).toNat / 2 ^ 48
    let off (u : Thread) : Nat := (u.rdW s.time w).toNat % 2 ^ 48
    let does (i : Instr) (f : Thread → Ask) (rs : List RegRef) : Prop := Clear s f → Completes i s p e (Accesses s f rs)
    let atom (op : RmwOp) (u : Thread) : Ask :=
      { op := .atom op, kind := .atom op, idx := idx u, off := off u, size := 4, ty := 4, dst := some d,
        data := (u.rdV s.time b).toNat, cmp := if op = .cas then (u.rdV s.time d).toNat else 0 }
    let atom64 (op : RmwOp) (u : Thread) : Ask :=
      { op := .atom op, kind := .atom op, idx := idx u, off := off u, size := 8, ty := 5, dst := some (pairLo x),
        data := (u.rdW s.time y).toNat, cmp := if op = .cas64 then (u.rdW s.time x).toNat else 0 }
    let red (op : RmwOp) (u : Thread) : Ask :=
      { op := .red op, kind := .red op, idx := idx u, off := off u, size := 4, ty := 4, data := (u.rdV s.time b).toNat }
    let lda (sys : Bool) (n : Nat) (r : Reg) (u : Thread) : Ask :=
      { op := .lda sys, kind := .lda, idx := idx u, off := off u, size := n, ty := if n = 8 then 5 else 4, cp := 3,
        dst := some r }
    (∀ z ∈ [(Instr.atomAddI32 h d w b, RmwOp.addI32), (.atomAddF32 h d w b, .addF32), (.atomAddBf16x2 h d w b, .addBf16x2),
        (.atomMinI32 h d w b, .minI32), (.atomMinN32 h d w b, .minN32), (.atomMaxI32 h d w b, .maxI32),
        (.atomMaxN32 h d w b, .maxN32), (.atomAnd h d w b, .band), (.atomOr h d w b, .bor), (.atomXor h d w b, .bxor),
        (.atomXchg h d w b, .xchg), (.atomCas h d w b, .cas), (.atomInc h d w b, .inc)],
      does z.1 (atom z.2) [.v d]) ∧
    does (.atomXchg64 h x w y) (atom64 .xchg64) [.v (pairLo x), .v (pairHi x)] ∧
    does (.atomCas64 h x w y) (atom64 .cas64) [.v (pairLo x), .v (pairHi x)] ∧
    (∀ z ∈ [(Instr.redAddI32 h w b, RmwOp.addI32), (.redAddF32 h w b, .addF32), (.redAddBf16x2 h w b, .addBf16x2),
        (.redMinI32 h w b, .minI32), (.redMaxI32 h w b, .maxI32), (.redAnd h w b, .band), (.redOr h w b, .bor),
        (.redXor h w b, .bxor)], does z.1 (red z.2) []) ∧
    does (.ldaB32 h d w) (lda false 4 d) [.v d] ∧ does (.ldaSys h d w) (lda true 4 d) [.v d] ∧
    does (.ldaB64 h x w) (lda false 8 (pairLo x)) [.v (pairLo x), .v (pairHi x)]

/-- R181, R213: a releasing store leaves the core once every earlier access of each thread within its scope is complete. -/
def Obligations.Releases : Prop :=
  ∀ (s : State) (p : Pour) (e : Entry) (h : Hdr) (b : Reg) (w y : PairNo), Runs s p e → Live s →
    let str (sys : Bool) (n : Nat) (data : Thread → Nat) (u : Thread) : Ask :=
      { op := .str sys, kind := .str, idx := (u.rdW s.time w).toNat / 2 ^ 48, off := (u.rdW s.time w).toNat % 2 ^ 48, size := n,
        ty := if n = 8 then 5 else 4, data := data u }
    let does (i : Instr) (scope : Nat) (f : Thread → Ask) : Prop :=
      Clear s f → (∀ z ∈ s.cur.lanes, ∀ a ∈ s.accs, a.tid = some z.2 → scopeCovers scope a.bkind = true →
        a.stage = .done ∧ a.gwct ≤ s.time) → Completes i s p e (Accesses s f [])
    does (.strB32 h w b) 1 (str false 4 fun u => (u.rdV s.time b).toNat) ∧
    does (.strB64 h w y) 1 (str false 8 fun u => (u.rdW s.time y).toNat) ∧
    does (.strSys h w b) 2 (str true 4 fun u => (u.rdV s.time b).toNat)

/-- R214 to R218: a fence advances the counter and its token names it; a wait completes once every access that it covers
is complete, and writes the acknowledgement registers alone. -/
def Obligations.Fences : Prop :=
  ∀ (s : State) (p : Pour) (e : Entry) (h : Hdr) (d a : Reg), Runs s p e →
    let token (scope : Nat) (u : Thread) : Word := BitVec.ofNat 32 (scope * 2 ^ 30 + (u.fence + 1) % 2 ^ 24)
    let fence (i : Instr) (scope : Nat) : Prop :=
      Completes i s p e fun t =>
        OnlyThreads { s with results := t.results, nextId := t.nextId } t ∧
        EachThread s t (fun u u' => u'.fence = u.fence + 1 ∧ u'.isPending (.v d) = true ∧
          u' = { u with pendV := u'.pendV, fence := u'.fence }) ∧
        ∃ rs, t.results = s.results ++ rs ∧
          List.Forall₂ (fun u (r : PendRes) => r.tid = u.tid ∧ r.writes = [(.v d, token scope (s.before u))])
            (s.threads.filter s.isActive) rs
    let acks (l : Thread → List Acc) (u u' : Thread) : Prop :=
      match lastWrite (l (s.before u)) with
      | some x => u'.acktag = x.tag.setWidth 32 ∧ u'.ackt = BitVec.ofNat 32 x.gwct
      | none => u'.acktag = u.acktag ∧ u'.ackt = u.ackt
    let wait (i : Instr) (scope : Nat) : Prop :=
      (∀ z ∈ s.cur.lanes, ∀ x ∈ s.accs, x.tid = some z.2 → scopeCovers scope x.bkind = true →
        x.stage = .done ∧ x.gwct ≤ s.time) →
      Completes i s p e fun t => OnlyThreads s t ∧ EachThread s t fun u u' =>
        u'.fence = u.fence + 1 ∧ acks (fun b => s.accsOf b.owner scope) u u' ∧
          u' = { u with fence := u'.fence, acktag := u'.acktag, ackt := u'.ackt }
    let scopeOf (x : Word) : Nat := min (x.toNat / 2 ^ 30) 2
    fence (.fenceVault h d) 0 ∧ fence (.fencePart h d) 1 ∧ fence (.fenceSys h d) 2 ∧
    wait (.fencewVault h) 0 ∧ wait (.fencewPart h) 1 ∧ wait (.fencewSys h) 2 ∧
    (Agree s (fun u => u.rdV s.time a) →
      (∀ z ∈ s.cur.lanes, ∀ u, s.before? z.2 = some u →
        ∀ x ∈ s.covered z.2 (scopeOf (u.rdV s.time a)) ((u.rdV s.time a).toNat % 2 ^ 24), x.stage = .done ∧ x.gwct ≤ s.time) →
      Completes (.fwait h a) s p e fun t => OnlyThreads s t ∧ EachThread s t fun u u' =>
        acks (fun b => s.covered b.owner (scopeOf (b.rdV s.time a)) ((b.rdV s.time a).toNat % 2 ^ 24)) u u' ∧
          u' = { u with acktag := u'.acktag, ackt := u'.ackt })

/-- R195, R239, R240, R243 to R250: `COPY`. The word reads its block once and holds it while it waits. A block that breaks
R245 gives a `BADPARAM` token; otherwise a copy starts with its range locks, and its token is pending in every active lane.
With a state buffer the word first asks the buffer's home to account its bytes, and waits. Where no core has gathered values,
reading a block changes only what its thread has observed, and, as any load, the caches, the leases and the count of its row;
a block whose read the network drops is asked for no more. -/
def Obligations.CopyWord : Prop :=
  ∀ (s : State) (p : Pour) (e : Entry) (h : Hdr) (d : Reg) (a : PairNo) (b : Reg) (l : Nat) (u : Thread) (ln : Launch),
    Runs s p e → s.issuing? = some (l, u) → s.curLaunch? = some ln →
    Agree s (fun w => (w.rdW s.time a, w.rdV s.time b)) → NoneTraps s (copyTrap a b) →
    let ptr := (u.rdW s.time a).toNat
    let blk := heldRead s l u ptr 8
    let st := (u.rdV s.time b).toNat % 2 ^ 16
    let bad := ((heldBlock s u).map HeldBlock.bad).getD (copyBad blk (copyKind s (s.reqOf u s.cur.core l) blk))
    let slot := clusterOf s.cur.core / 2
    let v := s.taken l u ptr 8
    (heldReady s l u ptr 8 = false → OneWord s p e → Waits (.copy h d a b) s p e (s.missed l u ptr 8)) ∧
    (heldReady s l u ptr 8 = true →
      (bad = true → NoRecords s → Completes (.copy h d a b) s p e (fun t => Token v t d 1)) ∧
      (bad = false → ∀ counted, (st = 0 ∧ bufOpHere s = none ∧ counted = false) ∨
          (st ≠ 0 ∧ ∃ o, bufOpHere s = some o ∧ o.stage = .performed counted) →
        canLock v slot (copyLocks s.nextId u.part slot blk) = true →
        s.copies.countP (fun c => c.cluster = clusterOf s.cur.core) < 16 →
        Completes (.copy h d a b) s p e fun t => ∃ c : CopyOp,
          c.part = u.part ∧ c.launch = u.launch ∧ c.cast = u.cast ∧ c.run = u.run ∧ c.blk = blk ∧ c.state = st ∧ c.vec = 0 ∧
          c.accounted = counted ∧ c.cluster = clusterOf s.cur.core ∧ c.issuer = some u.tid ∧ c.paused = none ∧
          c.stopped = false ∧ c.tokens = s.cur.lanes.map (fun x => (x.2, d)) ∧ c.id = s.nextId ∧
          After { v with threads := v.pending (.v d), copies := s.copies ++ [c],
                         locks := s.locks ++ copyLocks c.id u.part slot blk, nextId := s.nextId + 1,
                         bufOps := s.bufOps.filter fun o => !((bufOpHere s).any fun k => k.id = o.id) } t) ∧
      (bad = false → st ≠ 0 → bufOpHere s = none → OneWord s p e → ∃ o : BufOp,
        o.buf = st ∧ o.kind = .account (cProducer blk) (cSize blk) ∧ o.stage = .sent ∧ o.tid = u.tid ∧ o.part = u.part ∧
        let x := s.holding l u ptr 8 bad
        Waits (.copy h d a b) s p e { x with
          threads := (x.eachThread fun _ w => { w with stateOps := w.stateOps + 1 }).threads,
          bufOps := s.bufOps ++ [o], nextId := s.nextId + 1 })) ∧
    (NothingGathered s →
      v = { s with
        threads := v.threads, held := v.held, l1 := v.l1, l2 := v.l2, llc := v.llc, lines := v.lines, free := v.free,
        dev := { s.dev with rows := v.dev.rows } } ∧
      List.Forall₂ (fun w w' => w' = { w with seen := w'.seen } ∧ (w.tid ≠ u.tid → w' = w)) s.threads v.threads)

/-- R195, R251 to R254, R271: the words on a buffer's state ask its home, wait for the answer and then complete; `CARM`
reads its block first, once; `BWAIT` waits for a state, as it stands once the thread's earlier state operations on the buffer
are performed. What the home does is `BufferStates`. -/
def Obligations.BufferStateWords : Prop :=
  ∀ (s : State) (p : Pour) (e : Entry) (h : Hdr) (a : Reg) (b : PairNo) (l : Nat) (u : Thread), Runs s p e →
    s.issuing? = some (l, u) → Agree s (fun w => (w.rdV s.time a, w.rdW s.time b)) →
    let buf := (u.rdV s.time a).toNat % 2 ^ 16
    let ptr := (u.rdW s.time b).toNat
    let word (i : Instr) (right : Nat → Bool) (k : BufOpKind) (v x : State) : Prop :=
      NoneTraps s (stateTrap right a) →
      (∀ o c, bufOpHere s = some o → o.stage = .performed c → Completes i s p e
        (After { v with bufOps := s.bufOps.filter fun x => x.id ≠ o.id })) ∧
      (bufOpHere s = none → OneWord s p e → ∃ o : BufOp, o.buf = buf ∧ o.kind = k ∧ o.stage = .sent ∧ o.tid = u.tid ∧
        o.part = u.part ∧ Waits i s p e { x with
          threads := (x.eachThread fun _ w => { w with stateOps := w.stateOps + 1 }).threads,
          bufOps := s.bufOps ++ [o], nextId := s.nextId + 1 })
    let wait (i : Instr) (want : Nat) : Prop :=
      NoneTraps s (stateTrap btR a) → ∀ q, s.part? u.part = some q →
      let now := btState (btMem s q buf)
      (stateOpBefore s buf = false → now = want → Completes i s p e
        (After { s with threads := (s.eachThread fun _ w => { w with stateOps := w.stateOps + 1 }).threads })) ∧
      (stateOpBefore s buf = false → now ≠ want → now ≠ 0 → OneWord s p e → Waits i s p e s) ∧
      (stateOpBefore s buf = true → OneWord s p e → Waits i s p e s)
    word (.btake h a) btR .take s s ∧ word (.bfree h a) btR .free s s ∧
    (NoneTraps s (fun s x w => armTrap s b x w) →
      (heldReady s l u ptr 2 = true →
        word (.carm h a b) btD (.arm ((List.range 8).map fun i => heldRead s l u ptr 2 / 2 ^ (32 * i) % 2 ^ 32))
          (s.taken l u ptr 2) (s.holding l u ptr 2 false)) ∧
      (heldReady s l u ptr 2 = false → OneWord s p e → NoneTraps s (stateTrap btD a) → bufOpHere s = none →
        Waits (.carm h a b) s p e (s.missed l u ptr 2))) ∧
    wait (.bwaitFull h a) 3 ∧ wait (.bwaitFree h a) 1

/-- R195, R257 to R259: `RUN` reads its block once and starts a runner with its range locks, or gives a `BADPARAM` token; `RSTOP` asks it to stop; `POP`
takes the head entry of a queue, each lane its own element; `QRESET` empties queues. -/
def Obligations.RunnerWords : Prop :=
  ∀ (s : State) (p : Pour) (e : Entry) (h : Hdr) (d : Reg) (a : PairNo) (n : BitVec 2) (m : BitVec 4) (l : Nat) (u : Thread),
    Runs s p e → s.issuing? = some (l, u) →
    let ptr := (u.rdW s.time a).toNat
    let blk := heldRead s l u ptr 8
    let slot := clusterOf s.cur.core / 2
    let v := s.taken l u ptr 8
    let queues (f : Nat → List (List QElem) → List (List QElem)) : List Cast := s.casts.map fun c =>
      if c.part = u.part ∧ c.launch = u.launch ∧ c.num = u.cast then
        { c with queues := (List.range 4).map fun i => f i (c.queues.getD i []) } else c
    (Agree s (fun w => w.rdW s.time a) → NoneTraps s (runTrap a) → heldReady s l u ptr 8 = true →
      (runBad blk = true → NoRecords s → Completes (.run h d a) s p e (fun t => Token v t d 1)) ∧
      (runBad blk = false → canLock v slot (runLocks s.nextId u.part slot blk) = true →
        s.runners.countP (fun r => r.core = s.cur.core) < 4 →
        Completes (.run h d a) s p e fun t => ∃ r : Runner,
          r.id = s.nextId ∧ r.part = u.part ∧ r.launch = u.launch ∧ r.cast = u.cast ∧ r.core = s.cur.core ∧ r.blk = blk ∧
          r.vec = 0 ∧ r.stream = 0 ∧ r.stopReq = false ∧ r.paused = none ∧ r.tokens = s.cur.lanes.map (fun x => (x.2, d)) ∧
          After { v with threads := v.pending (.v d), runners := s.runners ++ [r],
                         locks := s.locks ++ runLocks r.id u.part slot blk, nextId := s.nextId + 1 } t)) ∧
    Completes (.rstop h) s p e (After { s with runners := match runnerOf s u with
      | some r => s.runners.map fun x => if x.id = r.id then { x with stopReq := true } else x
      | none => s.runners }) ∧
    (Agree s (fun w => w.rdW s.time a) → NoneTraps s (runTrap a) → heldReady s l u ptr 8 = false → OneWord s p e →
      Waits (.run h d a) s p e (s.missed l u ptr 8)) ∧
    (∀ el, (feedQueue s u n.toNat).head? = some el → popTraps s el = [] → Completes (.pop h d n) s p e fun t => ResultLater { s with casts := t.casts }
          (fun w => [(.v d, ((el[physLane s w]?).map (·.1)).getD 0)]) t ∧
        t.casts = queues fun i q => if i = n.toNat then q.drop 1 else q) ∧
    (feedQueue s u n.toNat = [] → OneWord s p e → Waits (.pop h d n) s p e s) ∧
    ((runnerOf s u).all (fun r => r.paused.isSome) = true →
      Completes (.qreset h m) s p e fun t => After { s with casts := t.casts } t ∧
        (m ≠ 0 → t.casts = queues fun i q => if m.getLsbD i then [] else q) ∧ (m = 0 → t.casts = s.casts))

/-- R260 to R262: the words on tiles leave the core as tile operations with their range locks; `TRLS` takes none. -/
def Obligations.TileWords : Prop :=
  ∀ (s : State) (p : Pour) (e : Entry) (h : Hdr) (d a b v : Reg) (w : PairNo) (l : Nat) (u : Thread),
    Runs s p e → s.issuing? = some (l, u) →
    let slot := clusterOf s.cur.core / 2
    let counted (f : Thread → Thread) : List Thread := (s.eachThread fun _ t => f { t with tileOps := t.tileOps + 1 }).threads
    let sends (i : Instr) (k : TileKind) (hd : Word) (ls : List Lock) (f : Thread → Thread) : Prop :=
      Completes i s p e fun t => ∃ o : TileOp,
        o.id = s.nextId ∧ o.kind = k ∧ o.handle = hd ∧ o.part = u.part ∧ o.launch = u.launch ∧ o.cast = u.cast ∧
        o.core = s.cur.core ∧ o.arrived = false ∧ o.stopped = false ∧
        After { s with threads := counted f, tileOps := s.tileOps ++ [o], locks := s.locks ++ ls, nextId := s.nextId + 1 } t
    (Agree s (fun x => (x.rdW s.time w, x.rdV s.time b)) → NoneTraps s (tzeroTrap w b) →
      canLock s slot (tzeroLock s w b) = true →
      sends (.tzero h d w b) (.zero d) 0 (tzeroLock s w b) fun t => t.pend (.v d)) ∧
    (∀ hd x, issuedTile s a = some (hd, x) →
      (Agree s (fun y => (y.rdV s.time a, y.rdV s.time b)) → NoneTraps s (selTrap a b) →
        canLock s slot [tileLock s s.nextId slot x hd false] = true →
        sends (.tld h d a b) (.load d (selList s b)) hd [tileLock s s.nextId slot x hd false] fun t => t.pend (.v d)) ∧
      (Agree s (fun y => (y.rdV s.time v, y.rdV s.time a, y.rdV s.time b)) → NoneTraps s (selTrap a b) →
        canLock s slot [tileLock s s.nextId slot x hd true] = true →
        sends (.tst h v a b) (.store ((selList s b).filterMap fun y => (s.before? y.1).map fun t => (y.1, y.2, t.rdV s.time v)))
          hd [tileLock s s.nextId slot x hd true] fun t => t) ∧
      (Agree s (fun y => y.rdV s.time a) → sends (.trls h a) .release hd [] fun t => t))

/-- R195, R263 to R267: a matrix word leaves the core with what its operands hold; a loop reads its descriptor once, and one
that breaks its rules gives a `BADPARAM` token. -/
def Obligations.MatrixWords : Prop :=
  ∀ (s : State) (p : Pour) (e : Entry) (h : Hdr) (d a : Reg) (b : PairNo) (wb : BitVec 5) (ty : BitVec 3) (n bs : BitVec 2)
    (l : Nat) (u : Thread) (hd : Word) (x : Tile), Runs s p e → s.issuing? = some (l, u) →
    let slot := clusterOf s.cur.core / 2
    let ptr := (u.rdW s.time b).toNat
    let blk := heldRead s l u ptr 8
    let r := s.reqOf u s.cur.core l
    let v := s.taken l u ptr 8
    let counted (f : Thread → Thread) : List Thread := (s.eachThread fun _ t => f { t with tileOps := t.tileOps + 1 }).threads
    (∀ t : Reg, issuedTile s t = some (hd, x) → a.toNat < 60 →
      NoneTraps s (mmaTrap t wb.toNat ty.toNat n.toNat) →
      Agree s (fun w => (w.rdV s.time t, (List.range (aCount ty.toNat)).map fun i => w.rdV s.time (a + BitVec.ofNat 6 i))) →
      s.tileOps.countP (fun o => o.kind = .mma && o.core = s.cur.core) < 4 →
      canLock s slot [tileLock s s.nextId slot x hd true] = true →
      Completes (.mma h t a wb ty n bs) s p e fun z => ∃ o : TileOp,
        o.id = s.nextId ∧ o.kind = .mma ∧ o.handle = hd ∧ o.ty = ty.toNat ∧ o.ncode = n.toNat ∧ o.wb = wb.toNat ∧
        o.bs = bs.toNat ∧ o.rows = aRows s a ty.toNat ∧ o.mask = aMask s ∧ o.need = 0 ∧ o.queue = none ∧ o.stopped = false ∧
        After { s with threads := counted id, tileOps := s.tileOps ++ [o],
                       locks := s.locks ++ [tileLock s s.nextId slot x hd true], nextId := s.nextId + 1 } z) ∧
    (∀ (t : Reg) (el : List QElem), issuedTile s t = some (hd, x) → 60 ≤ a.toNat → (feedQueue s u (a.toNat - 60)).head? = some el →
      NoneTraps s (mmaTrap t wb.toNat ty.toNat n.toNat) → Agree s (fun w => w.rdV s.time t) →
      s.tileOps.countP (fun o => o.kind = .mma && o.core = s.cur.core) < 4 →
      canLock s slot [tileLock s s.nextId slot x hd true] = true →
      Completes (.mma h t a wb ty n bs) s p e fun z => ∃ o : TileOp,
        o.id = s.nextId ∧ o.kind = .mma ∧ o.handle = hd ∧ o.ty = ty.toNat ∧ o.ncode = n.toNat ∧ o.wb = wb.toNat ∧
        o.queue = some (a.toNat - 60) ∧ o.staged = (feedQueue s u (a.toNat - 60)).take (aCount ty.toNat) ∧
        o.need = aCount ty.toNat - o.staged.length ∧ o.rows = [] ∧
        After { s with threads := counted id, tileOps := s.tileOps ++ [o], casts := z.casts,
                       locks := s.locks ++ [tileLock s s.nextId slot x hd true], nextId := s.nextId + 1 } z) ∧
    ∀ gang : Bool, issuedTile s a = some (hd, x) → NoneTraps s (loopTrap gang a b) →
      Agree s (fun w => (w.rdV s.time a, w.rdW s.time b)) →
      let i : Instr := if gang then .mmag h d a b else .mmal h d a b
      let bad := ((heldBlock s u).map HeldBlock.bad).getD (mRefused gang s r blk x)
      (heldReady s l u ptr 8 = false → OneWord s p e → Waits i s p e (s.missed l u ptr 8)) ∧
      (heldReady s l u ptr 8 = true →
        (bad = true → NoRecords s → Completes i s p e fun t => Token v t d 1) ∧
        (bad = false → canLock v slot (loopLocks s gang x hd blk) = true → Completes i s p e fun t => ∃ o : TileOp,
          o.id = s.nextId ∧ o.kind = (if gang then .mmag else .mmal) ∧ o.handle = hd ∧ o.blk = blk ∧ o.vec = 0 ∧
          o.token = some d ∧ o.paused = none ∧ o.stopped = false ∧
          After { v with threads := (v.eachThread fun _ t => { t with tileOps := t.tileOps + 1 }.pend (.v d)).threads,
                         tileOps := s.tileOps ++ [o], locks := s.locks ++ loopLocks s gang x hd blk,
                         nextId := s.nextId + 1 } t))

/-- R273, R282: `SGNEW` and `SGJOIN` send a request of each lane to the flask's home; a lane whose handle register is not
null gets p 0 without one. In a control core they give a null handle and 0. -/
def Obligations.FlaskEntries : Prop :=
  ∀ (s : State) (p : Pour) (e : Entry) (h : Hdr) (d a : BitVec 6) (w : PairNo) (q : PredNo), Runs s p e →
    let hn : BitVec 3 := BitVec.ofNat 3 d.toNat
    let enters (i : Instr) (k : Thread → SgKind) : Prop :=
      (s.ctlHere = false → Manned s → Agree s k → Unselected s → Completes i s p e fun t =>
        Requests s t k (fun u => if u.rdH hn = 0 then .sent else .reply (u.rdH hn) false) ∧
        After { s with threads := (s.eachThread fun _ u => (u.pend (.h hn)).pend (.p q)).threads, sgs := t.sgs,
                       nextId := t.nextId } t) ∧
      (s.ctlHere = true → Completes i s p e
        (After { s with threads := (s.eachThread fun _ u => (u.setH hn 0).setP q false).threads }))
    enters (.sgnew h d w q) (fun u => .new (u.rdW s.time w) hn q) ∧
    enters (.sgjoin h d w q) (fun u => .join (u.rdW s.time w) hn q) ∧
    enters (.sgjoinH h d a q) (fun u => .joinH (u.rdV s.time a) hn q)

/-- R283, R284, R288: leaving, dropping and arriving first ask the home, and wait; with the answer they complete: a leave
clears the register, an arrival takes its contribution and its result is pending. `SGSTAT` asks and goes on. -/
def Obligations.FlaskWords : Prop :=
  ∀ (s : State) (p : Pour) (e : Entry) (h : Hdr) (d a b : BitVec 6) (q : PredNo) (sel : BitVec 2), Runs s p e →
    s.ctlHere = false → Manned s → Unselected s → Agree s (fun u => (u.rdH (hreg a), u.rdV s.time b, u.rdP s.time q)) →
    NoneTraps s (nullTrap a) →
    let leaves (i : Instr) (k : Thread → SgKind) : Prop :=
      ((∀ x ∈ s.cur.lanes, waitingSg s x.2 SgKind.isLeave = none) → OneWord s p e → (s.cur.lanes.map (·.2)).Nodup →
        ∃ u : State, Requests s u k (fun _ => .sent) ∧ u = { s with sgs := u.sgs, nextId := u.nextId } ∧ Waits i s p e u) ∧
      ((∀ x ∈ s.cur.lanes, sgBack s x.2 SgKind.isLeave = true) → Completes i s p e fun t =>
        After { s with threads := (s.eachThread fun _ u => u.setH (hreg a) 0).threads, sgs := t.sgs } t ∧
        ∀ g, g ∈ t.sgs ↔ g ∈ s.sgs ∧ ¬(g.kind.isLeave = true ∧ (∃ x ∈ s.cur.lanes, x.2 = g.tid) ∧ ∃ n, g.stage = .returned n))
    let arrives (i : Instr) (fn : Nat) (value : Thread → Word) : Prop :=
      (∀ x ∈ s.cur.lanes, ∀ u, s.before? x.2 = some u → s.pendingArrival x.2 (u.rdH (hreg a)) = none) →
      ((∀ x ∈ s.cur.lanes, waitingSg s x.2 SgKind.isArrive = none) → OneWord s p e → (s.cur.lanes.map (·.2)).Nodup →
        ∃ u : State, Requests s u (fun w => .arrive (w.rdH (hreg a)) fn 0 d) (fun _ => .sent) ∧
          u = { s with sgs := u.sgs, nextId := u.nextId } ∧ Waits i s p e u) ∧
      ((∀ x ∈ s.cur.lanes, sgBack s x.2 SgKind.isArrive = true) →
        (∀ x ∈ s.cur.lanes, ∀ y ∈ s.cur.lanes, ∀ g k, waitingSg s x.2 SgKind.isArrive = some g →
          waitingSg s y.2 SgKind.isArrive = some k → g.id = k.id → x = y) → Completes i s p e fun t =>
        After { s with threads := s.pending (.v d), sgs := t.sgs, nextId := t.nextId } t ∧
        ∀ x ∈ s.cur.lanes, ∀ u, s.before? x.2 = some u → ∀ g hd f v r n, waitingSg s x.2 SgKind.isArrive = some g →
          g.kind = .arrive hd f v r → g.stage = .returned n →
            ∃ g' ∈ t.sgs, g'.id = g.id ∧ g'.kind = .arrive hd f (value u) r ∧ g'.stage = .validated n)
    leaves (.sgleave h a) (fun u => .leave (u.rdH (hreg a)) (hreg a)) ∧
    leaves (.sgdrop h a) (fun u => .drop (u.rdH (hreg a)) (hreg a)) ∧
    arrives (.sgbar h d a) 3 (fun _ => 0) ∧
    arrives (.sgvoteAny h d a q) 4 (fun u => if u.rdP s.time q then 1 else 0) ∧
    arrives (.sgvoteAll h d a q) 5 (fun u => if u.rdP s.time q then 1 else 0) ∧
    arrives (.sgvoteCnt h d a q) 6 (fun u => if u.rdP s.time q then 1 else 0) ∧
    (∀ x ∈ [(Instr.sgredAddI32 h d a b, 7), (.sgredAddF32 h d a b, 8), (.sgredMinI32 h d a b, 9), (.sgredMaxI32 h d a b, 10),
      (.sgredMinF32 h d a b, 11), (.sgredMaxF32 h d a b, 12)], arrives x.1 x.2 fun u => u.rdV s.time b) ∧
    Completes (.sgstat h d a sel) s p e fun t =>
      Requests s t (fun u => .stat (u.rdH (hreg a)) sel.toNat d) (fun _ => .sent) ∧
      After { s with threads := s.pending (.v d), sgs := t.sgs, nextId := t.nextId } t

/-- R159, R273 to R275: `EXIT` ends the threads of its lanes; `YIELD` makes records where the pool has room, else it does
nothing; `SLEEP` fixes its wake time and waits until it. -/
def Obligations.EndYieldSleep : Prop :=
  ∀ (s : State) (p : Pour) (e : Entry) (h : Hdr) (a : Reg), Runs s p e →
    (s.ctlHere = false → OneWord s p e → ∃ t, exec (.exit h) s = .next t ∧ ∀ x ∈ s.cur.lanes, t.thread? x.2 = none) ∧
    (s.ctlHere = false → s.cur.phase = .apply → ∃ t, exec (.exit h) s = .next t ∧ t = { s with cur := t.cur } ∧
      t.cur.ends = s.cur.ends ++ s.cur.lanes.map fun x => (x.2, .exit)) ∧
    (∀ c u, s.ctlHere = true → s.ctl? (s.cur.core - 1024) = some c → s.thread? c.tid = some u → u.level ≠ .user →
      u.level ∉ c.active → Completes (.exit h) s p e fun t => OnlyThreads { s with ctls := t.ctls } t ∧
        ∃ c', t.ctl? (s.cur.core - 1024) = some c' ∧ c'.waiting = true ∧ c'.tid = c.tid ∧ c'.bankM = c.bankM ∧ c'.bankS = c.bankS) ∧
    (s.ctlHere = true → (∀ x ∈ s.cur.lanes, s.awaitsHome x.2 = false) → Completes (.yield h) s p e (After s)) ∧
    (∀ l u, OneWord s p e → s.ctlHere = false → s.cur.lanes = [(l, u.tid)] → s.thread? u.tid = some u → s.awaitsHome u.tid = false →
      s.rec? u.tid = none →
      (takeRoom s u.part u.launch 1 = none → Completes (.yield h) s p e (After s)) ∧
      (p.refs = [] → (takeRoom s u.part u.launch 1).isSome = true → ∃ t, exec (.yield h) s = .next t ∧
        ∃ r ∈ t.recs, r.tid = u.tid ∧ r.part = u.part ∧ r.kind = 0 ∧ r.wtype = 0 ∧ r.resume = s.cur.fall ∧ r.prio = e.prio ∧
          r.buf = e.buf ∧ r.cluster = clusterOf s.cur.core)) ∧
    (Agree s (fun u => u.rdV s.time a) →
      ((∀ u ∈ s.threads, s.isActive u = true → ∃ k, u.sleepAt = some k ∧ k % 2 ^ 60 ≤ s.time % 2 ^ 60) → Completes (.sleep h a) s p e
        (After { s with threads := (s.eachThread fun _ u => { u with sleepAt := none }).threads })) ∧
      (∀ m, Manned s → (∀ x ∈ s.cur.lanes, ∀ u, s.before? x.2 = some u → u.sleepAt = none ∧ (u.rdV s.time a).toNat ≤ m) →
        (∃ x ∈ s.cur.lanes, ∃ u, s.before? x.2 = some u ∧ (u.rdV s.time a).toNat = m) → s.time % 2 ^ 60 < (s.time + m) % 2 ^ 60 →
        (∀ u ∈ s.threads, s.isActive u = true → u.sleepAt = none) → OneWord s p e → Waits (.sleep h a) s p e
          { s with threads := (s.eachThread fun _ u => { u with sleepAt := some (s.time + m) }).threads }))

/-- R195, R276, R277, R289, R290, R298: `TRAP` posts a system call with v0 to v5 of each lane, which becomes a record that
waits for the reply; in a control core it calls the next layer up. `LAUNCH` reads a bundle of each lane and posts it; in a
control core it gives 2. `FWDH` writes each lane's status: where the lane may not travel, the reason, and it goes on; where
it may, 0, and it goes on as a record, on its way to the cluster or device that the operand names, or in its own cluster. -/
def Obligations.ServiceWords : Prop :=
  ∀ (s : State) (p : Pour) (e : Entry) (h : Hdr) (d a : Reg) (w : PairNo) (imm : BitVec 12), Runs s p e → Manned s →
    let post (x : Nat × Nat) (q : PostReq) (bundle : Option (Nat × Nat)) (code args : Nat) : Prop :=
      ∃ u, s.before? x.2 = some u ∧ q.tid = x.2 ∧ q.part = u.part ∧ q.bundle = bundle ∧ q.code = code ∧ q.pc = s.cur.wpc ∧
        q.args = args ∧ q.placed = none ∧ s.nextId ≤ q.id
    let args (x : Nat × Nat) : Nat := match s.before? x.2 with
      | some u => ((List.range 6).map fun i => (u.rdV s.time (BitVec.ofNat 6 i)).toNat * 2 ^ (32 * i)).sum
      | none => 0
    let waits (x : Nat × Nat) : Nat × EndAct := (x.2, .record
      { kind := 3, wtype := 6, key := 2 ^ 16, resume := s.cur.fall, prio := s.cur.newPrio.getD e.prio, buf := e.buf,
        cluster := clusterOf s.cur.core, lane := x.1, alsoLive := 3 })
    (s.ctlHere = false → Unselected s → Agree s (sysArgs s.time) → NoneTraps s (trapChk fun _ _ => false) →
      ∃ t, exec (.trap h imm) s = .next t ∧
        (∃ qs, t.posts = s.posts ++ qs ∧ List.Forall₂ (fun x q => post x q none imm.toNat (args x)) s.cur.lanes qs) ∧
        (s.cur.phase = .apply → s.curEntry? = some e →
          t = { s with posts := t.posts, nextId := s.nextId + s.cur.lanes.length, cur := t.cur } ∧
          t.cur.ends = s.cur.ends ++ s.cur.lanes.map waits) ∧
        (∀ l u, OneWord s p e → s.cur.lanes = [(l, u.tid)] → s.thread? u.tid = some u → s.awaitsHome u.tid = false →
          s.rec? u.tid = none → p.refs = [] → (takeRoom s u.part u.launch 1).isSome = true →
          ∃ r ∈ t.recs, r.tid = u.tid ∧ r.part = u.part ∧ r.kind = 3 ∧ r.wtype = 6 ∧ r.key = 2 ^ 16 ∧ r.resume = s.cur.fall ∧
            r.prio = e.prio ∧ r.buf = e.buf ∧ r.cluster = clusterOf s.cur.core)) ∧
    (∀ (c : Ctl) (u : Thread), OneWord s p e → s.ctlHere = true → s.ctl? (s.cur.core - 1024) = some c → s.cur.lanes = [(0, c.tid)] →
      s.thread? c.tid = some u → s.before u = u → u.twin = 0 → s.cur.slot = 0 →
      let into : Level := if u.level = .user then .sup else .mon
      let vec := if into = .mon then c.bankM.trapvec else c.bankS.trapvec
      ∃ t, exec (.trap h imm) s = .next t ∧
        (∃ c', t.ctl? (s.cur.core - 1024) = some c' ∧ c'.active = into :: c.active ∧
          (if into = .mon then c'.bankM else c'.bankS) =
            { trapvec := vec, trappc := s.cur.fall, trapinfo := imm.setWidth 64,
              trapcause := BitVec.ofNat 32 (0x20 + e.prio.toNat * 2 ^ 8 + u.level.rank * 2 ^ 14) } ∧
          (if into = .mon then c'.bankS = c.bankS else c'.bankM = c.bankM)) ∧
        t.thread? c.tid = some { u with level := into, hbuf := vec.toNat / 2 ^ 16 } ∧
        ∃ q ∈ t.pours, q.core = s.cur.core ∧ q.slot = 0 ∧ ∃ y, q.entries = [y] ∧
          y.pc = BitVec.ofNat 32 (12 * (vec.toNat % 2 ^ 16)) ∧ y.prio = 15 ∧ y.mask = 1 ∧ y.buf = vec.toNat / 2 ^ 16) ∧
    (∀ ln, s.ctlHere = false → Unselected s → Agree s (fun u => u.rdW s.time w) → s.curLaunch? = some ln →
      NoneTraps s (fun s x u => blockTrap s x u (u.rdW s.time w).toNat 8 128) →
      (∀ x ∈ s.cur.lanes, ∀ u, s.before? x.2 = some u → blockReady s x.1 u (u.rdW s.time w).toNat 8 = true) →
      Completes (.launch h d w) s p e (fun t =>
        After { s with threads := t.threads, posts := t.posts, nextId := t.nextId, mem := t.mem, poisoned := t.poisoned,
                       lines := t.lines, ucopies := t.ucopies, homeOrder := t.homeOrder, l1 := t.l1, l2 := t.l2, llc := t.llc,
                       free := t.free, dev := { s.dev with rows := t.dev.rows } } t ∧
        (NothingGathered s → t.mem = s.mem ∧ t.poisoned = s.poisoned ∧ t.ucopies = s.ucopies) ∧
        EachThread s t (fun u u' => u' = { u.pend (.v d) with seen := u'.seen }) ∧
        (∃ qs, t.posts = s.posts ++ qs ∧ List.Forall₂ (fun x q => (∃ b, post x q (some (b, ln.queue)) 0 0) ∧ q.dst = d)
          s.cur.lanes qs) ∧
        (∀ l u, s.cur.lanes = [(l, u.tid)] → s.before? u.tid = some u →
          ∃ q, t.posts = s.posts ++ [q] ∧ q.bundle = some (blockRead s l u (u.rdW s.time w).toNat 8, ln.queue)))) ∧
    (s.ctlHere = true → Completes (.launch h d w) s p e (ResultLater s fun _ => [(.v d, 2)])) ∧
    let status (u : Thread) : Nat := if s.ctlHere = true then 4 else fwdStatus s u (u.rdV s.time a).toNat
    (Agree s (fun u => u.rdV s.time a) → (∀ x ∈ s.cur.lanes, s.awaitsHome x.2 = false) → (s.cur.lanes.map (·.2)).Nodup → (∀ x ∈ s.cur.lanes, ∀ u, s.thread? x.2 = some u → u.twin = 0) →
      (∀ x ∈ s.cur.lanes, ∀ u, s.before? x.2 = some u → status u ≠ 0) →
      Completes (.fwdh h d a) s p e fun t => After { s with threads := t.threads, nextId := s.nextId + 1 } t ∧
        ∀ x ∈ s.cur.lanes, ∀ u, s.thread? x.2 = some u → ∃ u', t.thread? x.2 = some u' ∧
          u'.rdV s.time d = BitVec.ofNat 32 (status (s.before u)) ∧ ∀ r, r ≠ d → u'.rdV s.time r = u.rdV s.time r) ∧
    ∀ l u, OneWord s p e → s.ctlHere = false → s.cur.lanes = [(l, u.tid)] → s.thread? u.tid = some u → s.before u = u →
      u.twin = 0 → s.awaitsHome u.tid = false → s.rec? u.tid = none → status u = 0 → p.refs = [] →
      (takeRoom s u.part u.launch 1).isSome = true → ∃ t, exec (.fwdh h d a) s = .next t ∧
        (∃ u', t.thread? u.tid = some u' ∧ u'.rdV s.time d = 0) ∧
        ∃ r ∈ t.recs, r.tid = u.tid ∧ r.kind = 0 ∧ r.wtype = 0 ∧ r.resume = s.cur.fall ∧ r.prio = e.prio ∧
          (fwdTarget (u.rdV s.time a).toNat ≠ clusterOf s.cur.core → r.transit = some (fwdTarget (u.rdV s.time a).toNat)) ∧
          (fwdTarget (u.rdV s.time a).toNat = clusterOf s.cur.core → r.transit = none ∧ r.cluster = clusterOf s.cur.core)

/-- R296, R298, R328: `ERET` in a compute core: each lane goes on where its TRAPPC says, at the priority and the level that
TRAPCAUSE holds, and out of the handler. -/
def Obligations.ReturnFromTrap : Prop :=
  (∀ (s : State) (p : Pour) (e : Entry) (h : Hdr) (buf : Nat), Runs s p e → s.ctlHere = false → Manned s →
    (∀ x ∈ s.cur.lanes, ∀ u, s.before? x.2 = some u → u.level ≠ .user ∧ ∃ ln, s.launch? u.part u.launch = some ln ∧ ln.codeBuf = buf) →
    let go (u : Thread) : Word × BitVec 4 := (u.trappc &&& 0xFFFFFFFC, BitVec.ofNat 4 (u.trapcause.toNat / 2 ^ 8 % 16))
    Fits s p e (fun u => some (go u)) →
    ∃ t, exec (.eret h) s = .next t ∧
      (s.cur.phase = .alone → Moves s t p p.k buf (s.goes e fun u => some (go u))) ∧ OnlyThreads s t ∧
      EachThread s t fun u u' => u' = { u with level := u'.level, trapClass := false, hbuf := 0 } ∧
        (u.trapcause.toNat / 2 ^ 14 % 4 = 0 → u'.level = .user) ∧ (u.trapcause.toNat / 2 ^ 14 % 4 ≠ 0 → u'.level = .sup)) ∧
  ∀ (s : State) (p : Pour) (e : Entry) (h : Hdr) (c : Ctl) (u : Thread), OneWord s p e → s.ctlHere = true → s.ctl? (s.cur.core - 1024) = some c →
    s.cur.lanes = [(0, c.tid)] → s.thread? c.tid = some u → s.before u = u → s.cur.slot = 0 → u.level ≠ .user →
    let b : Bank := if u.level = .mon then c.bankM else c.bankS
    let level : Level := if b.trapcause.toNat / 2 ^ 14 % 4 = 0 then .user else if b.trapcause.toNat / 2 ^ 14 % 4 = 3 then .mon else .sup
    ∃ t, exec (.eret h) s = .next t ∧ (∃ u', t.thread? c.tid = some u' ∧ u' = { u with level, hbuf := u'.hbuf }) ∧
      ∃ q ∈ t.pours, q.core = s.cur.core ∧ q.slot = 0 ∧ ∃ y ∈ q.entries, y.pc = b.trappc &&& 0xFFFFFFFC ∧
        y.prio = BitVec.ofNat 4 (b.trapcause.toNat / 2 ^ 8 % 16) ∧ y.mask = 1

/-- R171, R273, R297, R300, R302: the other words of the supervisor, and `DIG`. -/
def Obligations.SupervisorWords : Prop :=
  ∀ (s : State) (p : Pour) (e : Entry) (h : Hdr) (a : Reg), Runs s p e →
    let above : Prop := ∀ x ∈ s.cur.lanes, ∀ u, s.before? x.2 = some u → u.level ≠ .user
    (above → s.ctlHere = false → Completes (.wfi h) s p e (After s)) ∧
    (∀ c u, above → s.ctlHere = true → s.ctl? (s.cur.core - 1024) = some c → s.thread? c.tid = some u →
      (∀ n ∈ c.pending, n < 4 ∧ u.level = .mon) →
      Completes (.wfi h) s p e fun t => After { s with ctls := t.ctls } t ∧
        t.ctl? (s.cur.core - 1024) = some { c with waiting := true }) ∧
    (∀ q, above → s.ctlHere = false → Manned s → Agree s (fun u => u.rdV s.time a) →
      (∀ x ∈ s.cur.lanes, ∀ u, s.before? x.2 = some u → s.part? u.part = some q ∧ (u.rdV s.time a).toNat % 2 ^ 16 < btCount q) →
      let posted : List BtInv := s.cur.lanes.filterMap fun x => (s.before? x.2).map fun u =>
        { part := q.first, idx := (u.rdV s.time a).toNat % 2 ^ 16, tid := x.2, acted := false, waits := [] }
      Completes (.btinv h a) s p e (After { s with btinvs := s.btinvs ++ posted })) ∧
    (above → (∀ x ∈ s.cur.lanes, s.btsyncOk x.2 = true) → Completes (.btsync h) s p e (After { s with
      btinvs := s.btinvs.filter fun b => !(b.acted && s.cur.lanes.any fun x => x.2 = b.tid) })) ∧
    (∀ x, above → OneWord s p e → x ∈ s.cur.lanes → s.btsyncOk x.2 = false → Waits (.btsync h) s p e s) ∧
    (s.ctlHere = true → Agree s (fun u => u.rdV s.time a) → Completes (.dig h a) s p e (After s)) ∧
    (s.ctlHere = false → Unselected s → Agree s (fun u => u.rdV s.time a) → Completes (.dig h a) s p e (After s)) ∧
    ∀ l u c y, s.ctlHere = false → Agree s (fun u => u.rdV s.time a) → s.cur.lanes = [(l, u.tid)] → s.thread? u.tid = some u →
      s.before u = u → u.twin = 0 → s.cast? u.part u.launch u.cast = some c → c.assay = some y →
      Completes (.dig h a) s p e fun t => After { s with threads := t.threads, casts := t.casts } t ∧
        t.thread? u.tid = some { u with digs := u.digs + 1 } ∧
        t.cast? u.part u.launch u.cast = some { c with assay := some { y with
          digest := y.digest + digestBlock (Config.hk s.dev.boots) 0 (u.tic * 2 ^ 32 + u.digs) 4 (u.rdV s.time a).toNat } }

/-- R95, R273, R292, R293, R326: a privileged word at user level takes `PRIV`, with the word and its position as information;
so does a CSR form below the level of its register, and, at every level, one of a register that the form cannot reach. -/
def Obligations.PrivilegeTraps : Prop :=
  ∀ (s : State) (p : Pour) (e : Entry) (h : Hdr) (l : Nat) (u : Thread) (q : Part) (a : Reg), MayTrap s p e l u q →
    let priv (i : Instr) : Prop := ∃ t, exec i s = .next t ∧
      Enters s t p e l u q.trapvec 0x04 (BitVec.ofNat 64 (s.cur.word.toNat + s.cur.pos * 2 ^ 32))
    let forms (r : BitVec 12) : List Instr := [.csrr h a r, .csrw h a r, .csrs h a r, .csrc h a r]
    (u.level = .user → ∀ i ∈ [Instr.eret h, .wfi h, .btinv h a, .btsync h], priv i) ∧
    (a.getLsbD 0 = false →
      (u.level = .user → ∀ r : BitVec 12, r ∈ [0x001, 0x002, 0x003, 0x100, 0x101, 0x102, 0x103, 0x104, 0x105, 0x106, 0x107, 0x108, 0x109,
        0x10A, 0x10C, 0x110, 0x112] → ∀ i ∈ forms r, priv i) ∧
      (∀ i ∈ forms 0x111, priv i) ∧ ∀ r : BitVec 12, r = 0x120 ∨ r = 0x121 → ∀ i ∈ (forms r).drop 1, priv i)

/-- R94, R165, R170, R187, R220, R325, R326, R331: a lane whose access fails a check, other than a page that is not mapped,
takes the trap of that check with the place as information; an unassigned encoding takes `ILLEGAL`. -/
def Obligations.AccessTraps : Prop :=
  ∀ (s : State) (p : Pour) (e : Entry) (h : Hdr) (l : Nat) (u : Thread) (q : Part) (d b : Reg) (w y z : PairNo) (ty : BitVec 3)
    (cp : BitVec 2) (imm : BitVec 7) (code : TrapCode) (x : Word), MayTrap s p e l u q →
    let takes (i : Instr) (op : PortOp) (a : Nat × Nat) (size : Nat) : Prop :=
      portCheck s (s.reqOf u s.cur.core l) op a.1 a.2 size = .trap code → code ≠ Trap.page →
        ∃ t, exec i s = .next t ∧ Enters s t p e l u q.trapvec code (BitVec.ofNat 64 (a.1 * 2 ^ 48 + a.2))
    let at0 : Nat × Nat := ((u.rdW s.time w).toNat / 2 ^ 48, (u.rdW s.time w).toNat % 2 ^ 48)
    (takes (.ld h d w ty cp imm) .load (addrImm s.time u w ty imm) (tySize ty) ∧
      takes (.st h d w ty cp imm) .store (addrImm s.time u w ty imm) (tySize ty) ∧
      takes (.ldx h d w ty cp b) .load (addrReg s.time u w b) (tySize ty) ∧
      takes (.stx h d w ty cp b) .store (addrReg s.time u w b) (tySize ty) ∧
      takes (.prefL1 h w) .pref at0 1 ∧ takes (.prefL2 h w) .pref at0 1 ∧
      takes (.ldaB32 h d w) (.lda false) at0 4 ∧ takes (.ldaSys h d w) (.lda true) at0 4 ∧ takes (.ldaB64 h y w) (.lda false) at0 8 ∧
      takes (.strB32 h w b) (.str false) at0 4 ∧ takes (.strB64 h w y) (.str false) at0 8 ∧ takes (.strSys h w b) (.str true) at0 4) ∧
    (s.selected u = false →
      (∀ o ∈ [(Instr.atomAddI32 h d w b, RmwOp.addI32), (.atomAddF32 h d w b, .addF32), (.atomAddBf16x2 h d w b, .addBf16x2),
          (.atomMinI32 h d w b, .minI32), (.atomMinN32 h d w b, .minN32), (.atomMaxI32 h d w b, .maxI32),
          (.atomMaxN32 h d w b, .maxN32), (.atomAnd h d w b, .band), (.atomOr h d w b, .bor), (.atomXor h d w b, .bxor),
          (.atomXchg h d w b, .xchg), (.atomCas h d w b, .cas), (.atomInc h d w b, .inc)], takes o.1 (.atom o.2) at0 4) ∧
      takes (.atomXchg64 h y w z) (.atom .xchg64) at0 8 ∧ takes (.atomCas64 h y w z) (.atom .cas64) at0 8 ∧
      ∀ o ∈ [(Instr.redAddI32 h w b, RmwOp.addI32), (.redAddF32 h w b, .addF32), (.redAddBf16x2 h w b, .addBf16x2),
        (.redMinI32 h w b, .minI32), (.redMaxI32 h w b, .maxI32), (.redAnd h w b, .band), (.redOr h w b, .bor),
        (.redXor h w b, .bxor)], takes o.1 (.red o.2) at0 4) ∧
    ∃ t, exec (.illegalEncoding x) s = .next t ∧
      Enters s t p e l u q.trapvec 0x01 (BitVec.ofNat 64 (s.cur.word.toNat + s.cur.pos * 2 ^ 32))

/-- R298: a trap of a control core enters the layer above: the bank saves PC, cause with the level left, and information,
and the core goes on at the handler's packet in that layer. A trap in M while M handles an earlier one takes the core out of
service and clears its `READY.CC` bit instead. -/
def Obligations.LayerEntry : Prop :=
  ∀ (s : State) (slot : Nat) (pc : Word) (prio : BitVec 4) (code : TrapCode) (info : DWord) (c : Ctl) (u : Thread) (p : Pour),
    s.ctl? slot = some c → s.thread? c.tid = some u → s.pour? (1024 + slot) 0 = some p →
    code ≠ Trap.page → code ≠ Trap.poison → code ≠ Trap.defstore →
    let t := trapControl s slot pc prio code info
    (u.level = .mon → c.mTrap.isSome = true → ∃ c', t.ctl? slot = some c' ∧ c'.oos = true ∧ c'.active = c.active ∧
      (slot < 64 → t.dev.cc.getLsbD slot = false)) ∧
    (¬(u.level = .mon ∧ c.mTrap.isSome = true) →
    let into : Level := if u.level = .user then .sup else .mon
    let vec := if into = .mon then c.bankM.trapvec else c.bankS.trapvec
    t.mem = s.mem ∧
    (∃ c', t.ctl? slot = some c' ∧ c'.active = into :: c.active ∧ c'.waiting = false ∧
      c'.mTrap = (if into = .mon then some (c.active.length + 1) else c.mTrap) ∧
      (if into = .mon then c'.bankM else c'.bankS) =
        { trapvec := vec, trappc := pc, trapinfo := info,
          trapcause := BitVec.ofNat 32 (code.toNat + prio.toNat * 2 ^ 8 + u.level.rank * 2 ^ 14) } ∧
      (if into = .mon then c'.bankS = c.bankS else c'.bankM = c.bankM)) ∧
    t.thread? c.tid = some { u with level := into, hbuf := vec.toNat / 2 ^ 16 } ∧
    ∃ p', t.pour? (1024 + slot) 0 = some p' ∧ ∃ y, p'.entries = [y] ∧ y.pc = BitVec.ofNat 32 (12 * (vec.toNat % 2 ^ 16)) ∧
      y.prio = 15 ∧ y.mask = 1 ∧ y.buf = vec.toNat / 2 ^ 16 ∧ y.stall = none)

/-- R14, R161, R169, R172 to R177, R186, R204, R205, R219, R383: an access is performed at its home or bank, from what lies
there once the update-only copies of its lines are combined, and its line comes into its slice. A read brings the bytes
back, and a lease copy where the rules permit one; a write takes its GWCT and its tag from its line; no byte outside the
access changes. A prefetch of the slice reads nothing, and poisoned data drop a prefetch; a request to a vault of another
partition is lost. That every read that R173 permits a copy brings one is the model's choice (log 23), and so is the stage of
a lost access (log 122). -/
def Obligations.HomePerforms : Prop :=
  ∀ (s : State) (a : Acc), s.acc? a.id = some a → memWf s.mem = true →
    let others (t : State) : Prop := ∀ b ∈ s.accs, b.id ≠ a.id → b ∈ t.accs
    let mine : Prop := s.reaches (slotOfCluster (clusterOf a.core)) a.addr = true
    let read (t : State) (u : State) : Prop :=
      t.mem = u.mem ∧ (NoneGathered s a.addr a.size → u.mem = s.mem) ∧ others t ∧
      (a.tid ≠ none → t.acc? a.id = some { a with
        stage := .performed, data := u.peek a.addr a.size, gwct := 0, tag := 0, poison := poisonedAt u a.addr a.size })
    let stores (t : State) (k : Nat) : Prop :=
      Holds t.mem k a.size a.data ∧ others t ∧
      (∀ x, ¬(k ≤ x ∧ x < k + a.size) → memRead t.mem x = memRead (combineAt s k a.size).mem x) ∧
      (NoneGathered s k a.size → (combineAt s k a.size).mem = s.mem)
    let clean : Prop := poisonedAt (combineAt s a.addr 1) (128 * lineOf a.addr) 128 = false
    (homeReadReady s a = true → RoomInL1 s a.core (lineOf a.addr) → a.tid ≠ none ∨ (a.cp ≠ 2 ∧ clean) →
      Happens (.homeRead a.id) s fun t =>
        let u := combineAt s a.addr a.size
        read t u ∧ InSlice t a a.addr ∧ (a.tid = none → t.acc? a.id = none) ∧
        (a.kind = .load → a.lease ≠ 0 → a.cp ≠ 3 → poisonedAt u (128 * lineOf a.addr) 128 = false →
          t.l1? a.core (lineOf a.addr) = some
            { core := a.core, line := lineOf a.addr, data := memBytes u.mem (128 * lineOf a.addr) 128, granted := u.homeOrder,
              expiry := s.time + 2 ^ (a.lease + 5), strm := decide (a.cp = 1) } ∧
          s.time + 2 ^ (a.lease + 5) ≤ (lineAt t (lineOf a.addr)).lx)) ∧
    (homeReadReady s a = true → a.tid = none → a.cp = 2 → clean → Happens (.homeRead a.id) s fun t =>
      t.mem = s.mem ∧ InSlice t a a.addr ∧ others t ∧ t.acc? a.id = none) ∧
    (homeReadReady s a = true → a.tid = none → ¬clean → Happens (.homeRead a.id) s fun t =>
      t.l1 = s.l1 ∧ t.l2 = s.l2 ∧ t.threads = s.threads ∧ (NoneGathered s a.addr 1 → t.mem = s.mem) ∧ others t ∧
        t.acc? a.id = none) ∧
    (∀ k, homeWritePlace s a = some k → NoStateWaits s → a.kind = .store ∨ a.kind = .str ∨ a.kind = .host →
      Happens (.homeWrite a.id) s fun t =>
        stores t k ∧ InSlice t a k ∧ (a.kind = .host → t.acc? a.id = none) ∧
        (a.kind ≠ .host → ∃ gwct tag, t.acc? a.id = some { a with addr := k, stage := .performed, gwct, tag } ∧
          (keyChan k ≠ none → (lineAt t (lineOf k)).tag = tag ∧ gwct = max s.time (lineAt t (lineOf k)).lx) ∧
          (keyChan k = none → gwct = s.time ∧ tag = 0))) ∧
    (bankReady s a = true → mine → a.kind = .load ∨ a.kind = .lda →
      Happens (.vaultBankAccess a.id) s fun t => a.tid ≠ none → read t (combineAt s a.addr a.size)) ∧
    (bankReady s a = true → mine → a.kind = .store ∨ a.kind = .str ∨ a.kind = .host →
      Happens (.vaultBankAccess a.id) s fun t =>
        stores t a.addr ∧ t.acc? a.id = some { a with stage := .performed, gwct := s.time, tag := 0 }) ∧
    (bankReady s a = true → ¬mine → Happens (.vaultBankAccess a.id) s fun t =>
      t.mem = s.mem ∧ others t ∧ t.acc? a.id = some { a with stage := .lost } ∧ t.dev = countError s.dev nbdrop)

/-- R207 to R210: what an atomic or a reduction leaves in memory, at its home or its bank: the operation of the old value
and the operand. The old value travels back; no other byte changes. -/
def Obligations.AtomicResults : Prop :=
  ∀ (s : State) (a : Acc) (op : RmwOp) (i : Instr) (k : Nat), s.acc? a.id = some a → memWf s.mem = true →
    (a.kind = .atom op ∨ a.kind = .red op) → NoneGathered s k a.size →
    (i = .homeWrite a.id ∧ homeWritePlace s a = some k ∧ RoomInL1 s a.core (lineOf k) ∧ NoStateWaits s) ∨
      (i = .vaultBankAccess a.id ∧ bankReady s a = true ∧ k = a.addr ∧
        s.reaches (slotOfCluster (clusterOf a.core)) a.addr = true) →
    let old := s.peek k a.size
    let int (x : Nat) : Int := (x + 2 ^ 31) % 2 ^ 32 - 2 ^ 31
    ∃ new : Nat,
      (op = .addI32 → new % 2 ^ 32 = (old + a.data) % 2 ^ 32) ∧
      (op = .addF32 → new = fp32.add (old % 2 ^ 32) (a.data % 2 ^ 32)) ∧
      (op = .addBf16x2 → new % 2 ^ 16 = bf16.add (old % 2 ^ 16) (a.data % 2 ^ 16) % 2 ^ 16 ∧
        new / 2 ^ 16 = bf16.add (old / 2 ^ 16 % 2 ^ 16) (a.data / 2 ^ 16 % 2 ^ 16) % 2 ^ 16) ∧
      (op = .minI32 → new = if int a.data < int old then a.data else old) ∧ (op = .minN32 → new = min old a.data) ∧
      (op = .maxI32 → new = if int old < int a.data then a.data else old) ∧ (op = .maxN32 → new = max old a.data) ∧
      (op = .band → ∀ j, new.testBit j = (old.testBit j && a.data.testBit j)) ∧
      (op = .bor → ∀ j, new.testBit j = (old.testBit j || a.data.testBit j)) ∧
      (op = .bxor → ∀ j, new.testBit j = (old.testBit j != a.data.testBit j)) ∧
      (op = .xchg ∨ op = .xchg64 → new = a.data) ∧
      (op = .cas ∨ op = .cas64 → new = if old = a.cmp then a.data else old) ∧
      (op = .inc → new = if old < a.data then old + 1 else 0) ∧
      Happens i s fun t =>
        Holds t.mem k a.size new ∧ (∀ x, ¬(k ≤ x ∧ x < k + a.size) → memRead t.mem x = memRead s.mem x) ∧
        ∃ b, t.acc? a.id = some b ∧ b.stage = .performed ∧ b.data = old ∧ b.poison = poisonedAt s k a.size

/-- R50, R55, R82, R136, R175, R179, R206, R218, R241, R356: results, data and acknowledgements reach their threads wherever
they lie, one physical lane or both, and the wakes that waited for them fire; poison and traps that come with a result stay
with the register, and a record's registers take the poison of its words. -/
def Obligations.Responses : Prop :=
  ∀ (s : State), memWf s.mem = true →
    let gets (t : State) (n : Nat) (ws : List (RegRef × Word)) : Prop :=
      ∀ w, s.thread? n = some w → ∃ w', t.thread? n = some w' ∧ let x := ws.foldl Thread.deliver w
        { w' with seen := w.seen, poison := x.poison } = x ∧ (s.poisoned = [] → w'.poison = x.poison) ∧
          ∀ j, x.poison.getLsbD j = true → w'.poison.getLsbD j = true
    let both (t : State) (tid : Nat) (ws : List (RegRef × Word)) : Prop :=
      ∀ u, s.thread? tid = some u → u.twin ≠ u.tid → (∀ r, s.rec? tid = some r → r.held = false) →
        gets t tid ws ∧ (u.twin ≠ 0 → gets t u.twin ws)
    (∀ (u : Thread) d x, u.isPending (.v d) = true → (∀ n, (u.deliver (.v d, x)).rdV n d = x) ∧
      (u.deliver (.v d, x)).isPending (.v d) = false) ∧
    (∀ id r, s.results.find? (fun x => x.id = id) = some r → Happens (.resultWriteback id) s fun t =>
      t.results = s.results.filter (fun x => x.id ≠ id) ∧
      (r.bad = false → r.trap = none → r.both = true → both t r.tid r.writes) ∧
      (r.bad = false → r.trap = none → r.both = false → ∀ u, s.thread? r.tid = some u →
        (∀ x, s.rec? u.owner = some x → x.held = false) → gets t r.tid r.writes) ∧
      (∀ u, s.thread? r.tid = some u → ∃ u', t.thread? r.tid = some u' ∧
        ∀ w ∈ r.writes, ∀ d : Reg, w.1 = .v d → u.isPending (.v d) = true →
          (r.bad = true → u'.poison.getLsbD d.toNat = true) ∧ ∀ c h, r.trap = some (c, h) → (d.toNat, c, h) ∈ u'.trapTok) ∧
      (s.rec? r.tid = none → (∀ u, s.thread? r.tid = some u → s.rec? u.owner = none) →
        t = { s with results := t.results, threads := t.threads })) ∧
    (∀ (a : Acc) x tid d, s.acc? a.id = some a → responseOf s a = some (x, false) → a.tid = some tid → a.dst = some d →
      Happens (.loadResponse a.id) s fun t =>
        both t tid (loadWrites a.ty d x) ∧
        (a.reads = true → t.accs = s.accs.filter fun b => b.id ≠ a.id) ∧
        (a.reads = false → t.acc? a.id = some { a with stage := .done, gwct := if a.bkind = 8 then s.time else a.gwct }) ∧
        (s.rec? tid = none → t.mem = s.mem)) ∧
    (∀ (a : Acc) x tid d u l, s.acc? a.id = some a → responseOf s a = some (x, true) → a.tid = some tid → a.dst = some d →
      isCtlCore a.core = false → s.thread? tid = some u → u.shadow = false → s.launch? u.part u.launch = some l →
      Happens (.loadResponse a.id) s fun t => GangGone t l (l.gangOf u.cast)) ∧
    (∀ (a : Acc) tid, s.acc? a.id = some a → ackReady a = true → a.tid = some tid → Happens (.storeAck a.id) s fun t =>
      t.mem = s.mem ∧ t.threads = s.threads ∧
      t.acc? a.id = some { a with stage := .done, gwct := if a.bkind = 8 then s.time else a.gwct }) ∧
    (∀ tid, horizonReached s tid = true → Happens (.storeHorizonReached tid) s fun t => t.mem = s.mem ∧ Wakes s t tid 0) ∧
    (∀ tid, sleepOver s tid = true → Happens (.deviceTimeWake tid) s fun t => t.mem = s.mem ∧ Wakes s t tid 0)

/-- R173, R174, R186: the end of leases, and update-only copies: granted, gathered into, and combined at the home. -/
def Obligations.LeasesAndCopies : Prop :=
  ∀ (s : State) (core line : Nat), memWf s.mem = true →
    let x := lineAt s line
    (leaseOver s core line = true → Happens (.l1LeaseExpiry core line) s fun t =>
      t = { s with l1 := t.l1, lines := t.lines } ∧ t.l1? core line = none ∧
      (∀ c ∈ s.l1, ¬(c.core = core ∧ c.line = line) → c ∈ t.l1) ∧ (lineAt t line).lx = x.lx) ∧
    (noticeDue s core line = true → Happens (.leaseExpiryNotice core line) s fun t =>
      t = { s with lines := t.lines } ∧ (lineAt t line).leases = x.leases.filter (fun y => y.1 ≠ core) ∧
      ((∃ y ∈ x.leases, y.1 ≠ core ∧ s.time < y.2) → (lineAt t line).lx = x.lx) ∧
      ((∀ y ∈ x.leases, y.1 ≠ core → y.2 ≤ s.time) → (lineAt t line).lx = min x.lx s.time)) ∧
    (∀ (a : Acc) op, RoomInL1 s core line → s.acc? a.id = some a → waitingReds s core line = [a] → a.kind = .red op →
      mayPerform s a = true → Happens (.updateOnlyGrant core line) s fun t => t.mem = s.mem ∧
        ∃ u, t.ucopy? core line = some u ∧ u.granted = true ∧
          (∀ v, s.ucopy? core line = some v → v.granted = true → u.gwct = v.gwct ∧
            u.parts = gather v.parts a.addr op a.data a.poison) ∧
          ((∀ v, s.ucopy? core line = some v → v.granted = false) → u.gwct = max s.time x.lx ∧
            u.parts = [{ addr := a.addr, op, value := BitVec.ofNat 32 a.data, poison := a.poison }]) ∧
          t.acc? a.id = some { a with stage := .performed, gwct := u.gwct, tag := 0 }) ∧
    (∀ u, s.ucopy? core line = some u → u.granted = true → Happens (.l1Evict core line) s fun t =>
      t = { s with ucopies := t.ucopies, mem := t.mem, poisoned := t.poisoned, lines := t.lines, homeOrder := t.homeOrder,
                   dev := { s.dev with rows := t.dev.rows } } ∧
      t.ucopy? core line = none ∧ (u.parts = [] → t.mem = s.mem) ∧
      (∀ q, u.parts = [q] → Holds t.mem q.addr 4 (rmwNew q.op (s.peek q.addr 4) q.value.toNat 0) ∧
        ∀ y, ¬(q.addr ≤ y ∧ y < q.addr + 4) → memRead t.mem y = memRead s.mem y))

/-- R205, R217, R241, R332 to R336, R338: faults found after issue are posted to the fault ring where its next entry is
free, and tried again 1,000 cy later where it is not; a serviced fault lets everything that waited on it go on, and one
that fails ends the gangs that waited on it. -/
def Obligations.FaultEntries : Prop :=
  ∀ (s : State) (part : Nat) (p : Part), s.part? part = some p → memWf s.mem = true →
    let free (k : Nat) : Prop := ∃ e, devLocate s part .store (frqPtr p p.frqix) 64 = .ok e k ∧ bitsN (homePeek s k 64) 511 508 = 0
    let full : Prop := ∀ e k, devLocate s part .store (frqPtr p p.frqix) 64 = .ok e k → bitsN (homePeek s k 64) 511 508 ≠ 0
    let missed : Dev := if devLost s part .store (frqPtr p p.frqix) 64 = true then countError s.dev nbdrop else s.dev
    let posted (t : State) : Prop := t.part? part = some { p with
      frqix := (p.frqix + 1) % frqSize p, nextFid := nextFid p % (2 ^ 31 - 1) + 1,
      faults := p.faults ++ [{ fid := nextFid p, ix := p.frqix }] }
    let entry (t : State) (k : Nat) : Prop := NoneGathered s k 64 →
      ∀ x, ¬(k ≤ x ∧ x < k + 64) → memRead t.mem x = memRead s.mem x
    let store (i : Instr) (a : Acc) : Prop :=
      (∀ k, free k → Happens i s fun t => posted t ∧ (a.tid = none → entry t k) ∧
        t.acc? a.id = some { a with stage := .faulted (nextFid p) p.frqix }) ∧
      (full → Happens i s fun t => t = { s with accs := t.accs, dev := missed } ∧ t.acc? a.id = some { a with stage := .unposted (s.time + 1000) })
    let engine (i : Instr) (id : Nat) : Prop :=
      (∀ k, free k → Happens i s fun t => posted t ∧ entry t k ∧
        (∀ c, s.copy? id = some c → t.copy? id = some { c with paused := some (nextFid p), retry := none }) ∧
        (∀ c, s.runner? id = some c → t.runner? id = some { c with paused := some (nextFid p), retry := none }) ∧
        ∀ c, s.tileOp? id = some c → t.tileOp? id = some { c with paused := some (nextFid p), retry := none }) ∧
      (full → Happens i s fun t => t = { s with copies := t.copies, runners := t.runners, tileOps := t.tileOps, dev := missed } ∧
        (∀ c, s.copy? id = some c → t.copy? id = some { c with paused := none, retry := some (s.time + 1000) }) ∧
        (∀ c, s.runner? id = some c → t.runner? id = some { c with paused := none, retry := some (s.time + 1000) }) ∧
        ∀ c, s.tileOp? id = some c → t.tileOp? id = some { c with paused := none, retry := some (s.time + 1000) })
    (∀ a : Acc, a.part = part → s.acc? a.id = some a → storeFaults s a = true → store (.deferredStoreFault a.id) a) ∧
    (∀ a : Acc, a.part = part → s.acc? a.id = some a → (∃ n, a.stage = .unposted n ∧ n ≤ s.time) → store (.faultEntryRetry a.id) a) ∧
    (∀ id f, f.part = part → engineFaults s id = some f → engine (.enginePageFault id) id) ∧
    (∀ id o f, f.part = part → storeRetry s id = none → engineRetry s id = some o → o.fault s = some f →
      engine (.faultEntryRetry id) id) ∧
    (∀ fid, (∃ f ∈ p.faults, f.fid = fid) → Happens (.fltdoneService part fid) s fun t =>
      t.mem = s.mem ∧ t.threads = s.threads ∧
      t.part? part = some { p with fltdone := BitVec.ofNat 32 (fid % 2 ^ 31), faults := p.faults.filter fun f => f.fid ≠ fid } ∧
      (∀ a ∈ s.accs, a.part = part → (∃ n, a.stage = .faulted fid n) → { a with stage := .sent } ∈ t.accs) ∧
      (∀ c, s.copy? c.id = some c → c.part = part → c.paused = some fid → t.copy? c.id = some { c with paused := none }) ∧
      (∀ c, s.runner? c.id = some c → c.part = part → c.paused = some fid → t.runner? c.id = some { c with paused := none }) ∧
      (∀ c, s.tileOp? c.id = some c → c.part = part → c.paused = some fid → t.tileOp? c.id = some { c with paused := none }) ∧
      ∀ r u, s.rec? r.tid = some r → s.thread? r.tid = some u → u.part = part → r.part = part → r.wtype = 5 →
        r.key % 2 ^ 32 = fid → r.fired = none → ∃ r', t.rec? r.tid = some r' ∧ r'.fired = some s.time) ∧
    ∀ fid, (∃ f ∈ p.faults, f.fid = fid) →
      (gangsOn s part fid = [] → Happens (.fltdoneFail part fid) s fun t => ∃ p', t.part? part = some p' ∧
        p'.fltdone = BitVec.ofNat 32 (2 ^ 31 + fid % 2 ^ 31) ∧ ∀ f ∈ p'.faults, f.fid ≠ fid) ∧
      ((∀ x ∈ gangsOn s part fid, ∃ l r, s.launch? part x.1 = some l ∧ l.chain.head? = some r ∧ r.action = 0) →
        Happens (.fltdoneFail part fid) s fun t =>
          ∀ x ∈ gangsOn s part fid, ∀ l, s.launch? part x.1 = some l → GangGone t l x.2)

/-- R252, R254, R271: what the home of a buffer does with an operation on its state: arming, a copy's bytes, taking and
freeing; from another state it refuses. A buffer whose every share is delivered turns full, and the waits on it end. -/
def Obligations.BufferStates : Prop :=
  ∀ (s : State) (part buf : Nat) (p : Part), s.part? part = some p → memWf s.mem = true →
    let e := btMem s p buf
    let now := btState e
    (∀ b : BufOp, b.part = part → b.buf = buf → s.bufOps.find? (fun x => x.id = b.id) = some b → bufOpReady s b = true →
      let answered (t : State) (st : BufOpStage) : Prop := t.bufOps.find? (fun x => x.id = b.id) = some { b with stage := st }
      let refuses (code : TrapCode) : Prop := Happens (.bufferStateOp b.id) s fun t =>
        t = { s with bufOps := t.bufOps } ∧ answered t (.refused code)
      let becomes (st : Nat) : Prop := Happens (.bufferStateOp b.id) s fun t =>
        answered t (.performed false) ∧ t.threads = s.threads ∧ btState (btMem t p buf) = st ∧
        ∀ k, setKey p 0 4 (btAddr p buf) = some k → NoneGathered s k 1 → ∀ x, x ≠ k → memRead t.mem x = memRead s.mem x
      (b.kind = .take → (now = 3 → becomes 4) ∧ (now ≠ 3 → refuses Trap.bufstate)) ∧
      (b.kind = .free → (now = 4 → becomes 1) ∧ (now ≠ 4 → refuses Trap.bufstate)) ∧
      (∀ shares, b.kind = .arm shares →
        (now ≠ 1 ∨ (∀ x ∈ shares, x = 0) → refuses Trap.bufstate) ∧
        (now = 1 → NothingGathered s → (∃ x ∈ shares, x ≠ 0) → (armShares s part e shares).isSome = true → Happens (.bufferStateOp b.id) s fun t =>
          answered t (.performed false) ∧ btState (btMem t p buf) = 2)) ∧
      (∀ producer size, b.kind = .account producer size →
        (now = 0 → Happens (.bufferStateOp b.id) s fun t => t = { s with bufOps := t.bufOps } ∧ answered t (.performed false)) ∧
        (now ≠ 0 → now ≠ 2 → refuses Trap.bufstate) ∧
        (∀ x, now = 2 → NothingGathered s → shareGet s part e producer = some x →
          let turnsAway (code : TrapCode) : Prop := Happens (.bufferStateOp b.id) s fun t =>
            Touched { s with bufOps := t.bufOps } t ∧ answered t (.refused code)
          (shExpect x = 0 → turnsAway Trap.copyrights) ∧
          (shExpect x ≠ 0 → shExpect x < shCommit x + size → turnsAway Trap.bufstate) ∧
          (∀ f k, shExpect x ≠ 0 → shCommit x + size ≤ shExpect x →
            devLocate s part .store (sharePtr e producer) 16 = .ok f k → Happens (.bufferStateOp b.id) s fun t =>
              answered t (.performed true) ∧
              Holds t.mem k 16 (shExpect x + (shCommit x + size) * 2 ^ 32 + shDeliv x * 2 ^ 64) ∧
              ∀ y, ¬(k ≤ y ∧ y < k + 16) → memRead t.mem y = memRead s.mem y)))) ∧
    (fullDue s p buf = true → Happens (.bufferFull part buf) s fun t =>
      t.threads = s.threads ∧ btState (btMem t p buf) = 3 ∧
      (∀ k, setKey p 0 4 (btAddr p buf) = some k → NoneGathered s k 1 → ∀ x, x ≠ k → memRead t.mem x = memRead s.mem x) ∧
      ∀ r u, s.rec? r.tid = some r → s.thread? r.tid = some u → u.part = part → r.part = part → r.wtype = 2 →
        r.key % 2 ^ 16 = buf → r.key / 2 ^ 16 % 8 = 3 → r.fired = none → ∃ r', t.rec? r.tid = some r' ∧ r'.fired = some s.time)

/-- R192, R240, R246, R249 to R252, R258, R263, R311, R324, R383: a copy moves its elements and ends, with its token in the
registers that wait for it and its locks gone; one whose requests the network drops stays; a runner pushes an entry to its
queue, or ends. -/
def Obligations.CopiesAndRunners : Prop :=
  ∀ (s : State), memWf s.mem = true →
    let gives (t : State) (tid : Nat) (d : Reg) (w : Word) : Prop :=
      ∀ u, s.thread? tid = some u → u.isPending (.v d) = true → u.twin = 0 → s.rec? tid = none →
        ∃ u', t.thread? tid = some u' ∧ (∀ n, u'.rdV n d = w) ∧ u'.isPending (.v d) = false
    (∀ (c : CopyOp) (tid : Nat) (d : Reg), s.copy? c.id = some c → copyReady c = true → c.prologue = false →
      c.tokens = [(tid, d)] → c.accounted = false →
      let ends (status : Nat) (eff : State → Prop) : Prop := Happens (.copyComplete c.id) s fun t =>
        t.copy? c.id = none ∧ t.locks = s.locks.filter (fun l => l.op ≠ c.id) ∧ gives t tid d (BitVec.ofNat 32 status) ∧ eff t
      let z := cElem c.blk
      (c.issued = true → copyLost s c = false → c.gwct ≤ s.time → c.vec < cTotal c.blk → flashNotReady s c = true →
        ends 3 fun t => s.rec? tid = none → t.mem = s.mem) ∧
      (c.issued = true → copyLost s c = true → Happens (.copyComplete c.id) s fun t =>
        t = { s with copies := t.copies, dev := countError s.dev nbdrop } ∧ t.copy? c.id = some { c with stuck := true }) ∧
      (∀ x bad k, c.issued = true → copyLost s c = false → c.vec = 0 → flashNotReady s c = false → cTotal c.blk = 1 →
        cDecomp c.blk = false →
        cTarget c.blk ≠ 3 → destKind s c ≠ 7 → flashHole s c = none → c.gwct ≤ s.time →
        engRead s c.eng (bitsN (cSrc c.blk) 63 48) (iterOff (bitsN (cSrc c.blk) 47 0) (cCounts c.blk) (cSstr c.blk) 0) z = some (x, bad) →
        engLocate s c.eng (bitsN (cDst c.blk) 63 48) (destOff c 0) = some k →
        peerGone s c.eng (bitsN (cDst c.blk) 63 48) = false → isFlash k = false → NothingGathered s →
        (touchSource s c 0).isSome = true → (∀ s', touchSource s c 0 = some s' → (rowGo s' k).isSome = true) → (lineAt s (lineOf k)).lx ≤ s.time → s.rec? tid = none → ends 0 fun t =>
          Holds t.mem k z x ∧ ∀ y, ¬(k ≤ y ∧ y < k + z) → memRead t.mem y = memRead s.mem y)) ∧
    (∀ c : CopyOp, s.copy? c.id = some c → copyReady c = true → c.prologue = true → c.issued = false → c.tokens = [] →
      c.accounted = false →
      (copyBad c.blk (copyKind s c.req c.blk) = true → Happens (.copyComplete c.id) s fun t => t.copy? c.id = none ∧
        ∀ l, s.launch? c.part c.launch = some l → t.launch? c.part c.launch = some
          { l with badPrologue := true, writesAt := max l.writesAt c.gwct }) ∧
      (copyBad c.blk (copyKind s c.req c.blk) = false → (copyHulls s c.req c.blk).isSome = false → c.state = 0 →
        canLock s (slotOfCluster c.cluster) (copyLocks c.id c.part (slotOfCluster c.cluster) c.blk) = true →
        s.copies.countP (fun x => x.cluster = c.cluster && x.issued) < 16 → Happens (.copyComplete c.id) s fun t =>
          t = { s with copies := t.copies, locks := s.locks ++ copyLocks c.id c.part (slotOfCluster c.cluster) c.blk } ∧
          t.copy? c.id = some { c with issued := true })) ∧
    ∀ r : Runner, s.runner? r.id = some r → runnerReady r = true →
      let ends (status : Nat) : Prop := Happens (.runnerPush r.id) s fun t =>
        t.runner? r.id = none ∧ t.locks = s.locks.filter (fun l => l.op ≠ r.id) ∧
        ∀ tid d, r.tokens = [(tid, d)] → gives t tid d (BitVec.ofNat 32 status)
      (r.stopReq = true → ends 5) ∧ (r.stopReq = false → nextStream r = none → ends 0) ∧
      ∀ i es c, r.stopReq = false → nextStream r = some i → entryRefused s r i = false →
        let q := rQueue (rStream r.blk i)
        let x := rStream r.blk i
        stagingOn s r q = none → s.cast? r.part r.launch r.cast = some c → c.ended = false → (c.queues.getD q []).length < 16 →
        q < 4 → engReach s r.eng (bitsN (rPtr x) 63 48) (bitsN (rPtr x) 47 0) = true → readEntry s r i = .ok es →
        (engTouch r.eng (bitsN (rPtr x) 63 48) (rSize x) (entryOffs r i) s).isSome = true → Happens (.runnerPush r.id) s fun t =>
          (∃ c', t.cast? r.part r.launch r.cast = some c' ∧ c'.queues.getD q [] = c.queues.getD q [] ++ [es] ∧
            ∀ j, j < 4 → j ≠ q → c'.queues.getD j [] = c.queues.getD j []) ∧
          ((nextStream (advance r)).isSome = true → t.runner? r.id = some (advance r)) ∧
          ((nextStream (advance r)).isSome = false → t.runner? r.id = none)

/-- R240, R241, R257, R260 to R262, R264, R266, R267, R269, R383: tile operations at their home vault, and the steps of the
matrix operations; in a protected launch a product is computed twice, and a difference writes nothing. An operation that finds
its tile gone takes `STALEHANDLE`; that it waits in the register of a `TLD`, and with the threads of an operation without a
register, is the model's choice (log 39), and so is the operation that stays, stuck, where the network drops its requests
(log 122). -/
def Obligations.TileEvents : Prop :=
  ∀ (s : State) (o : TileOp), s.tileOp? o.id = some o → memWf s.mem = true →
    let freed (t : State) : Prop := t.tileOp? o.id = none ∧ t.locks = s.locks.filter fun l => l.op ≠ o.id
    let stuck (t : State) : Prop := t = { s with tileOps := t.tileOps, dev := countError s.dev nbdrop } ∧
      t.tileOp? o.id = some { o with stuck := true }
    let sends (t : State) (xs : List (Nat × RegRef × Word)) : Prop := ∃ rs, t.results = s.results ++ rs ∧
      List.Forall₂ (fun x (r : PendRes) => r.tid = x.1 ∧ r.writes = [(x.2.1, x.2.2)]) xs rs
    let outside (t : State) (keys : List Nat) : Prop :=
      ∀ x, (∀ k ∈ keys, ¬(k ≤ x ∧ x < k + 4)) → memRead t.mem x = memRead s.mem x
    let warned (t : State) : Prop := ∀ x ∈ o.threads, ∀ u, s.thread? x.1 = some u →
      ∃ u', t.thread? x.1 = some u' ∧ (o.handle, o.word) ∈ u'.stale
    (tileReady s o = true →
      let here (eff : State → Prop) : Prop := Happens (.tileOpArrival o.id) s eff
      let g : Eng := { part := o.part, launch := o.launch, cast := o.cast, run := o.run, core := o.core }
      let at0 (s : State) : Option Nat := engLocate s g (bitsN o.blk 63 48) (bitsN o.blk 47 0)
      let near : Bool := engReach s g (bitsN o.blk 63 48) (bitsN o.blk 47 0)
      (∀ d, o.kind = .zero d → near = false → here stuck) ∧
      (∀ d k i gen, o.kind = .zero d → near = true → (∀ x ∈ s.tiles, x.dying = false) → at0 s = some k →
        freeTile s ((k - 2 ^ 44) / 2 ^ 23) = some (i, gen) →
        here fun t => freed t ∧ ∃ x ∈ t.tiles, x.live = true ∧ x.vault = (k - 2 ^ 44) / 2 ^ 23 ∧ x.idx = i ∧ x.gen = gen ∧
          x.part = o.part ∧ x.launch = o.launch ∧ x.off = (k - 2 ^ 44) % 2 ^ 23 ∧
          sends t (o.threads.map fun y => (y.1, .v d, tileHandle x)) ∧
          ∀ a, memRead t.mem a = if k ≤ a ∧ a < k + tileBytes x then 0 else memRead s.mem a) ∧
      (∀ d k, o.kind = .zero d → near = true → (∀ x ∈ s.tiles, x.dying = false) → at0 s = some k →
        freeTile s ((k - 2 ^ 44) / 2 ^ 23) = none →
        here fun t => freed t ∧ t.mem = s.mem ∧ sends t (o.threads.map fun y => (y.1, .v d, 0))) ∧
      (∀ d x, o.kind = .load d [x] → (s.thread? x.1).isSome = true → here fun t =>
        freed t ∧ t.mem = s.mem ∧ t.threads = s.threads ∧ ∃ r : PendRes, t.results = s.results ++ [r] ∧ r.tid = x.1 ∧
          r.both = false ∧
          (∀ tile, tileOf s o.part o.launch o.handle = some tile → tile.dying = false →
            let k := elemKey tile (x.2.toNat / 2 ^ 16) (x.2.toNat % 2 ^ 16)
            r.writes = [(.v d, BitVec.ofNat 32 (s.peek k 4))] ∧ r.bad = poisonedAt s k 4 ∧ r.trap = none) ∧
          (tileOf s o.part o.launch o.handle = none →
            r.writes.map (·.1) = [.v d] ∧ r.trap = some (Trap.stalehandle.toNat, o.handle))) ∧
      (∀ n (w v : Word) tile, o.kind = .store [(n, w, v)] → tileOf s o.part o.launch o.handle = some tile → tile.dying = false →
        let k := elemKey tile (w.toNat / 2 ^ 16) (w.toNat % 2 ^ 16)
        here fun t => freed t ∧ Holds t.mem k 4 v.toNat ∧ outside t [k]) ∧
      ((∃ es, o.kind = .store es) ∨ o.kind = .release → tileOf s o.part o.launch o.handle = none → here fun t =>
        freed t ∧ t.mem = s.mem ∧ warned t) ∧
      (o.kind = .release → here fun t => freed t ∧ t.mem = s.mem ∧ tileOf t o.part o.launch o.handle = none) ∧
      (o.kind = .mma ∨ o.kind = .mmal ∨ o.kind = .mmag → here fun t =>
        t = { s with tileOps := t.tileOps } ∧ t.tileOp? o.id = some { o with arrived := true })) ∧
    (mmaReady s o = true → tileOf s o.part o.launch o.handle = none → Happens (.mmaStep o.id) s fun t =>
      freed t ∧ t.mem = s.mem ∧ warned t) ∧
    (mmaReady s o = true → ∀ tile, tileOf s o.part o.launch o.handle = some tile →
      let img := imgLoose s o.core o.headers
      let rows := mmaOperand o
      let bad := img.2 || (mmaRows o).any fun r => r.2.any (·.2)
      let keys := rows.flatMap fun r => (List.range (nOf o.ncode)).map fun c => elemKey tile r.1 c
      let product := productOf s tile o.ty (nOf o.ncode) 0 img.1 rows
      (bad = false → o.upset = none → Happens (.mmaStep o.id) s fun t => freed t ∧ t.threads = s.threads ∧ outside t keys ∧
        (nOf o.ncode ≤ tileCols tile.ncode → (rows.map (·.1)).Nodup → ∀ r ∈ rows, ∀ c, c < nOf o.ncode →
          Holds t.mem (elemKey tile r.1 c) 4
            (accumulate o.ty (nOf o.ncode) img.1 r.2.1 r.2.2 c (s.peek (elemKey tile r.1 c) 4)))) ∧
      (∀ l, s.launch? o.part o.launch = some l →
        bad = true ∨ (l.protected = true ∧ upsetBy o.upset false product ≠ upsetBy o.upset true product) →
        Happens (.mmaStep o.id) s fun t => GangGone t l (l.gangOf o.cast))) ∧
    (loopReady o = true →
      (tileOf s o.part o.launch o.handle = none → Happens (.mmalStep o.id) s fun t => freed t) ∧
      ∀ tile, tileOf s o.part o.launch o.handle = some tile →
        (iterTotal (mCounts o.blk) ≤ o.vec → Happens (.mmalStep o.id) s fun t => freed t) ∧
        (o.vec < iterTotal (mCounts o.blk) → stepLost s o = true → Happens (.mmalStep o.id) s stuck) ∧
        (∀ u, o.vec + 1 < iterTotal (mCounts o.blk) → stepLost s o = false → loopStep s o tile = .ok u →
          Happens (.mmalStep o.id) s fun t =>
            t.tileOp? o.id = some { o with vec := o.vec + 1, upset := none } ∧ t.mem = u.mem ∧ t.threads = s.threads) ∧
        (∀ u, o.vec + 1 = iterTotal (mCounts o.blk) → stepLost s o = false → loopStep s o tile = .ok u →
          Happens (.mmalStep o.id) s fun t => freed t) ∧
        ∀ code, o.vec < iterTotal (mCounts o.blk) → stepLost s o = false → loopStep s o tile = .trap code →
          Happens (.mmalStep o.id) s fun t => t.tileOp? o.id = none ∧ (code ≠ Trap.protect → freed t))

/-- R131, R132, R280, R282 to R288: requests at the homes of flasks, and the replies, validations, departures and results
that come of them; where a flask is made and where not; the opening, counting and completion of phases, also by a member
that leaves or is killed; the destruction of a dropped flask; the result of a phase. -/
def Obligations.FlaskEvents : Prop :=
  (∀ f : Flask, PhaseValue f f.contributed (phaseResult f)) ∧
  (∀ (s : State) (p : Part) (n : DWord),
    (makeFlask s p n = none ↔ flaskLimit p ≤ (s.flasks.filter fun f => f.part = p.first && f.live).length ∨
      ∀ i, i < homeEntries p → (s.flask? p.first (nameHome p n) i).isSome = true) ∧
    ∀ f, makeFlask s p n = some f → f.part = p.first ∧ f.home = nameHome p n ∧ f.name = n ∧ f.live = true ∧ f.members = [] ∧
      f.phase = 0 ∧ f.isOpen = false ∧ f.dropMark = false ∧ f.faultMark = false ∧ f.idx < homeEntries p ∧
      s.flask? p.first f.home f.idx = none ∧ ∀ i, i < f.idx → (s.flask? p.first f.home i).isSome = true) ∧
  ∀ (s : State) (g : SgReq), s.sg? g.id = some g →
    let stale : Nat := 2
    -- Flask `f`, become `f1`, is stored: a phase with all its arrivals completes, a dropped flask without members goes.
    let stored (f f1 : Flask) (t : State) : Prop :=
      let full : Prop := f1.isOpen = true ∧ f1.arrived.length = f1.expect
      let stays : Prop := f1.dropMark = false ∨ f1.members ≠ []
      (¬full → stays → t.flask? f.part f.home f.idx = some f1) ∧
      (full → stays → f1.held = [] → t.flask? f.part f.home f.idx = some { f1 with
          phase := f1.phase + 1, isOpen := false, expect := 0, arrived := [], held := [], mix := false, faultMark := false } ∧
        ∀ a ∈ f1.arrived, a.id ≠ g.id → ∀ g', s.sg? a.id = some g' →
          t.sg? a.id = some { g' with stage := .result (phaseResult f1) (phaseStatus f1) f1.phase }) ∧
      (full → stays → ∀ b bs, f1.held = b :: bs →
        let f2 : Flask := { f1 with
          phase := f1.phase + 1, isOpen := true, arrived := b :: bs, held := [], op := b.fn, mix := bs.any fun a => a.fn != b.fn,
          faultMark := false, expect := (f1.members.filter fun m => decide (m.fromPhase ≤ f1.phase + 1)).length }
        f2.arrived.length ≠ f2.expect → t.flask? f.part f.home f.idx = some f2) ∧
      (¬full → ¬stays → f.held = [] →
        (∃ f', t.flasks = f' :: s.flasks.filter (fun y => !(y.slice = f.slice && y.idx = f.idx)) ∧ f'.live = false ∧
          f'.slice = f.slice ∧ f'.idx = f.idx ∧ f'.gen = if f.gen = 4095 then 1 else f.gen + 1) ∧
        ∀ g' fn v d ph, g'.id ≠ g.id → s.sg? g'.id = some g' → g'.part = f.part → g'.kind = .arrive f.handle fn v d →
          g'.stage = .validated ph ∨ g'.stage = .departed ph ∨ g'.stage = .counted ph →
          t.sg? g'.id = some { g' with stage := .result 0 stale ph })
    -- Member `m` leaves `f`: what remains, and what becomes of its held arrival.
    let departs (f : Flask) (m : Member) (killed drop : Bool) (t : State) : Prop :=
      let owed : Prop := f.isOpen = true ∧ m.fromPhase ≤ f.phase ∧ ∀ a ∈ f.arrived, a.who ≠ g.who
      ∀ f1 : Flask, f1 = { f with
          members := f.members.filter (fun x => x.who ≠ g.who), expect := f1.expect,
          held := f.held.filter (fun a => a.who ≠ g.who), faultMark := f.faultMark || killed, dropMark := f.dropMark || drop } →
        (owed → f1.expect = f.expect - 1) → (¬owed → f1.expect = f.expect) →
        stored f f1 t ∧
        (¬(f1.isOpen = true ∧ f1.arrived.length = f1.expect) → (f1.dropMark = false ∨ f1.members ≠ []) →
          ∀ a g', f.held.filter (fun a => a.who = g.who) = [a] → a.id ≠ g.id → s.sg? a.id = some g' →
            t.sg? a.id = some { g' with stage := .result 0 stale a.phase })
    let staged (t : State) (st : SgStage) : Prop := t.sg? g.id = some { g with stage := st }
    let only (t : State) : Prop := t = { s with sgs := t.sgs, flasks := t.flasks }
    let live (f : Flask) (h : Word) : Prop := flaskOf s g.part h = some f
    (homeReady s g = true →
      let home (eff : State → Prop) : Prop := Happens (.sgHomeRequest g.id) s eff
      let joins (f : Flask) : Prop :=
        (f.dropMark = false ∧ f.hasMember g.who = false → home fun t => only t ∧ staged t (.reply f.handle true) ∧
          ∃ f', t.flask? f.part f.home f.idx = some f' ∧ f' = { f with
            members := f.members ++ [{ who := g.who, fromPhase := if f.isOpen = true then f.phase + 1 else f.phase }] }) ∧
        (f.dropMark = true ∨ f.hasMember g.who = true → home fun t => only t ∧ staged t (.reply 0 false))
      ((s.thread? g.tid).isSome = true →
        (∀ n h q f, g.kind = .new n h q → flaskNamed s g.part n = some f → joins f) ∧
        (∀ n h q p f, g.kind = .new n h q → flaskNamed s g.part n = none → s.part? g.part = some p → makeFlask s p n = some f →
          home fun t => only t ∧ staged t (.reply f.handle true) ∧ ∃ f', t.flask? f.part f.home f.idx = some f' ∧
            f' = { f with members := [{ who := g.who, fromPhase := 0 }] }) ∧
        (∀ n h q p, g.kind = .new n h q → flaskNamed s g.part n = none → s.part? g.part = some p → makeFlask s p n = none →
          home fun t => only t ∧ t.flasks = s.flasks ∧ staged t (.reply 0 false)) ∧
        (∀ n h q f, g.kind = .join n h q → flaskNamed s g.part n = some f → joins f) ∧
        (∀ n h q, g.kind = .join n h q → flaskNamed s g.part n = none → home fun t => only t ∧ staged t (.reply 0 false)) ∧
        (∀ x h q f, g.kind = .joinH x h q → live f x → joins f) ∧
        (∀ x h q, g.kind = .joinH x h q → flaskOf s g.part x = none → home fun t => only t ∧ staged t (.reply 0 false))) ∧
      (∀ x d f m, g.kind = .leave x d ∨ g.kind = .drop x d → live f x → f.members.find? (fun m => m.who = g.who) = some m →
        home fun t => only t ∧ staged t (.returned 0) ∧ departs f m false (decide (g.kind = .drop x d)) t) ∧
      (∀ x d, g.kind = .leave x d ∨ g.kind = .drop x d → flaskOf s g.part x = none → home fun t => only t ∧ staged t .stale) ∧
      (∀ x sel d f, g.kind = .stat x sel d → live f x → home fun t =>
        t = { s with sgs := s.sgs.filter (fun y => y.id ≠ g.id), nextId := s.nextId + 1,
                     results := s.results ++ [{ id := s.nextId, tid := g.tid, writes := [(.v d, flaskStat f sel)] }] }) ∧
      (∀ x fn v d ph f, g.kind = .arrive x fn v d → g.stage = .departed ph → live f x → f.hasMember g.who = true →
        f.phase < ph → home fun t => only t ∧ staged t (.counted ph) ∧ ∃ f', t.flask? f.part f.home f.idx = some f' ∧
          f' = { f with held := f.held ++ [{ id := g.id, tid := g.tid, who := g.who, phase := ph, fn, value := v, dst := d }] }) ∧
      (∀ x fn v d ph f, g.kind = .arrive x fn v d → g.stage = .departed ph → live f x → f.hasMember g.who = true →
        ph ≤ f.phase →
        let a : Arrival := { id := g.id, tid := g.tid, who := g.who, phase := ph, fn, value := v, dst := d }
        let f1 : Flask :=
          if f.isOpen = true then { f with arrived := f.arrived ++ [a], mix := f.mix || fn != f.op }
          else { f with isOpen := true, expect := (f.members.filter fun m => decide (m.fromPhase ≤ f.phase)).length,
                        arrived := [a], op := fn, mix := false }
        (f1.arrived.length ≠ f1.expect → home fun t => only t ∧ staged t (.counted ph) ∧ stored f f1 t) ∧
        (f1.arrived.length = f1.expect → f.held = [] → home fun t => only t ∧ stored f f1 t ∧
          staged t (.result (phaseResult f1) (phaseStatus f1) f1.phase))) ∧
      (∀ x fn v d ph, g.kind = .arrive x fn v d → g.stage = .departed ph → flaskOf s g.part x = none →
        home fun t => only t ∧ staged t (.result 0 2 ph)) ∧
      (∀ x k f m, g.kind = .gone x k → live f x → f.members.find? (fun m => m.who = g.who) = some m →
        home fun t => only t ∧ t.sg? g.id = none ∧ departs f m k false t) ∧
      (∀ x k, g.kind = .gone x k → flaskOf s g.part x = none → home fun t => t = { s with sgs := s.sgs.filter fun y => y.id ≠ g.id })) ∧
    (∀ ws, replyWrites g = some ws → s.rec? g.tid = none → ∀ u, s.thread? g.tid = some u → u.twin = 0 →
      Happens (.sgReply g.id) s fun t => t = { s with threads := t.threads, sgs := s.sgs.filter fun y => y.id ≠ g.id } ∧
        t.thread? g.tid = some (ws.foldl Thread.deliver u)) ∧
    (validateReady g = true → (s.thread? g.tid).isSome = true → Happens (.arrivalValidation g.id) s fun t => only t ∧
      (∀ f, live f g.kind.handleOf → staged t (.returned (arrivalPhase f g.who))) ∧
      (flaskOf s g.part g.kind.handleOf = none → staged t .stale)) ∧
    (∀ ph, departPhase s g = some ph → Happens (.sgArrivalDepart g.id) s fun t => only t ∧ staged t (.departed ph)) ∧
    ∀ d v st, resultOf g = some (d, v, st) → s.rec? g.tid = none → ∀ u, s.thread? g.tid = some u → u.twin = 0 →
      Happens (.sgResult g.id) s fun t => t = { s with threads := t.threads, sgs := s.sgs.filter fun y => y.id ≠ g.id } ∧
        t.thread? g.tid = some { u.deliver (.v d, v) with wakest := BitVec.ofNat 32 (3 + st * 2 ^ 8) }

/-- R45, R46, R49, R51 to R57, R64, R65, R217, R272, R332, R340, R352: threads become continuation records: after a short stall
that lasts, from pool-stalled entries once there is room, and whole pours that are pre-empted; without room they stay and
wait in order. A record that waits on accesses one of which has a posted fault waits for the service of that fault. No thread
of the pour is a record yet. -/
def Obligations.RecordsMade : Prop :=
  ∀ (s : State) (p : Pour), s.pour? p.core p.slot = some p →
    (∀ e ∈ p.entries, ∀ x ∈ s.lanesIn p.core p.slot e.mask, s.rec? x.2 = none) →
    let lanes (e : Entry) : List (Nat × Nat) := s.lanesIn p.core p.slot e.mask
    let records (t : State) (e : Entry) (kind wtype : Nat) (ps : Bool) : Prop := ∀ x ∈ lanes e, ∃ r ∈ t.recs,
      r.tid = x.2 ∧ (r.kind = kind ∧ r.wtype = wtype ∨ kind = 0 ∧ wtype = 1 ∧ r.kind = 2 ∧ r.wtype = 5) ∧ r.resume = e.pc ∧
        r.prio = e.prio ∧ r.buf = e.buf ∧ r.cluster = clusterOf p.core ∧ r.ps = ps
    let kindOf (st : Stall) : Nat := if st.wtype = 5 then 2 else if st.wtype = 6 then 3 else 0
    let all : List (Nat × Nat) := p.entries.flatMap lanes
    let room (e : Entry) : Bool := (takeRoom s p.part p.launch (lanes e).length).isSome
    let waits (t : State) (i : Nat) (e : Entry) (st : Stall) : Prop := t = { s with pours := t.pours, nextId := s.nextId + 1 } ∧
      t.pour? p.core p.slot = some { p with entries := p.entries.set i { e with stall := some { st with pool := some s.nextId } } }
    (∀ i e st, p.entries[i]? = some e → e.stall = some st → stallExpired s p e = true →
      (room e = true → Happens (.shortStallExpiry p.core p.slot i) s fun t => records t e (kindOf st) st.wtype false) ∧
      (room e = false → Happens (.shortStallExpiry p.core p.slot i) s fun t => waits t i e { st with expired := false })) ∧
    (∀ x i e st, nextAsk s p.part = some x → x.core = p.core → x.slot = p.slot → x.ent = some i → p.entries[i]? = some e →
      e.split = none → e.stall = some st →
      (room e = true → Happens (.poolStallConvert p.part) s fun t => records t e (kindOf st) st.wtype (!st.await)) ∧
      (room e = false → Happens (.poolStallConvert p.part) s fun t => waits t i e { st with await := false })) ∧
    (∀ x, nextAsk s p.part = none → nextToConvert s (stalledForRoom s p.part) [] = some (x, p) →
      (∀ i e st, x.ent = some i → p.entries[i]? = some e → e.split = none → e.stall = some st →
        Happens (.poolStallConvert p.part) s fun t => records t e (kindOf st) st.wtype (!st.await)) ∧
      (∀ i e n, x.ent = some i → p.entries[i]? = some e → e.split = some n →
        Happens (.poolStallConvert p.part) s fun t => records t e 4 0 true) ∧
      (x.ent = none → Happens (.poolStallConvert p.part) s fun t =>
        t.pour? p.core p.slot = none ∧ ∀ e ∈ p.entries, records t e 1 8 true)) ∧
    (preemptWanted s p = true →
      let fits : Bool := (takeRoom s p.part p.launch (all.length + 1)).isSome
      (pourWhole s p = true → fits = true → Happens (.pourPreempt p.core p.slot) s fun t =>
        t.pour? p.core p.slot = none ∧ (∀ e ∈ p.entries, records t e 1 8 false) ∧
        ∃ a ∈ t.annexes, a.part = p.part ∧ a.k = p.k ∧ a.count = all.length ∧
          a.entries = p.entries.map fun e => { e with stall := none, freed := none }) ∧
      (pourWhole s p = false ∨ fits = false → (p.entries.any fun e => entryAwaits s p e || e.leaving s.time) = false →
        Happens (.pourPreempt p.core p.slot) s fun t => t = { s with pours := t.pours, nextId := s.nextId + 1 } ∧
          t.pour? p.core p.slot = some { p with poolStalled := some s.nextId }) ∧
      (pourWhole s p = false ∨ fits = false → (p.entries.any fun e => entryAwaits s p e || e.leaving s.time) = true →
        Happens (.pourPreempt p.core p.slot) s fun t => t = s)) ∧
    (promoteDue s p = true → Happens (.pourPromote p.core p.slot) s fun t =>
      t = { s with pours := t.pours } ∧ t.pour? p.core p.slot = some { p with promoted := true }) ∧
    ∀ l r, s.launch? p.part l.num = some l → l.part = p.part → l.chain.head? = some r → r.action = 0 →
      poolTimeout s p.part l.num = true → Happens (.poolexhaust p.part l.num) s fun t =>
        ∀ g ∈ stalledGangs s p.part l, GangGone t l g

/-- R59 to R61, R66, R69, R301, R321: ladles drain into pours, records travel between clusters, and firmware holds them and
releases them as their bytes then stand (R58). -/
def Obligations.RecordsMoved : Prop :=
  (∀ (s : State) (l : Ladle), s.ladle? l.id = some l → windowOver s l = true → Happens (.ladleDrainWindow l.id) s fun t =>
    t = { s with ladles := t.ladles } ∧ t.ladle? l.id = some { l with aged := true }) ∧
  (∀ (s : State) (cluster core : Nat) (l : Ladle) (x : Launch), nextDrain s cluster = some (l, core) →
    s.launch? l.part l.launch = some x → l.annex = 0 →
    let taken := l.members.take (if bitN x.bundle 771 = 1 then 16 else 32)
    (taken.map (·.1)).Nodup → (∀ m ∈ taken, ∃ r u, s.rec? m.1 = some r ∧ s.thread? m.1 = some u ∧ u.twin = 0) →
    Happens (.ladleDrain cluster) s fun t => ∃ slot, s.pour? core slot = none ∧
      (∃ q ∈ t.pours, q.core = core ∧ q.slot = slot ∧ q.part = l.part ∧ q.launch = l.launch ∧ q.ready = s.time + 1 ∧
        ∃ y, q.entries = [y] ∧ y.pc = l.resume ∧ y.buf = l.buf ∧ y.stall = none ∧
          ∀ i, i < 32 → y.mask.getLsbD i = decide (i < taken.length)) ∧
      ∀ i m r u, taken[i]? = some m → s.rec? m.1 = some r → s.thread? m.1 = some u → t.rec? m.1 = none ∧
        ∃ marks, (s.poisoned = [] → marks = u.poison) ∧
          (r.kind = 1 → t.thread? m.1 = some { u with loc := .lane core slot i, poison := marks }) ∧
          (r.kind ≠ 1 → t.thread? m.1 = some { u with
            loc := .lane core slot i, poison := marks, kind := r.kind,
            wakest := BitVec.ofNat 32 (r.wtype + r.status % 256 * 2 ^ 8) })) ∧
  (∀ (s : State) (tid cluster : Nat) (r : Rec), s.rec? tid = some r → mayForward s r cluster = true →
    Happens (.schedulerForward tid cluster) s fun t =>
      t = { s with nextId := t.nextId, recs := t.recs, ladles := t.ladles, entryLists := t.entryLists } ∧
      ∀ x, (x = r ∨ (r.annex ≠ 0 ∧ x ∈ s.recs ∧ x.part = r.part ∧ x.annex = r.annex)) → s.rec? x.tid = some x →
        t.rec? x.tid = some { x with transit := some cluster, convoy := s.nextId } ∧ ¬Queued t x.tid) ∧
  (∀ (s : State) (tid c : Nat) (r : Rec), s.rec? tid = some r → r.transit = some c → c < 256 →
    (∀ o ∈ s.tileOps, o.stopped = false) → Happens (.recordArrival tid) s fun t => t.mem = s.mem ∧ t.threads = s.threads ∧
      ∃ r', t.rec? tid = some r' ∧ r' = { r with transit := none, convoy := 0, cluster := c, fired := r'.fired, status := r'.status } ∧
        (r.fired.isSome = true → r'.fired = r.fired ∧
          (r.held = false → (s.thread? tid).isSome = true → Queued t tid))) ∧
  ∀ (s : State) (part : Nat) (ref : BitVec 32) (p : Part), s.part? part = some p →
    let st := holdStatus s part ref.toNat
    let reads (t : State) (hold : Nat) : Prop := t.part? part = some
      { p with rechold := BitVec.ofNat 64 (hold * 2 ^ 63 + st * 2 ^ 32 + ref.toNat) }
    (st ≠ 0 → Happens (.recholdHold part ref) s (fun t => t = { s with parts := t.parts } ∧ reads t 1) ∧
      Happens (.recholdRelease part ref) s fun t => t = { s with parts := t.parts } ∧ reads t 0) ∧
    ∀ r, recsOfRef s part ref.toNat = [r] → s.rec? r.tid = some r → r.transit = none →
      (Happens (.recholdHold part ref) s fun t => reads t 1 ∧ t.mem = s.mem ∧ t.rec? r.tid = some { r with held := true } ∧
        ¬Queued t r.tid) ∧
      (r.part = part → r.held = true → r.annex = 0 → (s.thread? r.tid).isSome = true →
        Happens (.recholdRelease part ref) s fun t => reads t 0 ∧
          (∃ r', t.rec? r.tid = some r' ∧ r'.held = false ∧ r'.resume = BitVec.ofNat 32 (placeRead s part r.ref 1) ∧
            r'.prio = BitVec.ofNat 4 (placeRead s part r.ref 1 / 2 ^ 96)) ∧ (r.fired.isSome = true → Queued t r.tid))

/-- R276, R277, R289 to R291, R306, R330: system calls and launches from the device are posted once the thread's earlier
accesses are complete; replies reach the waiting threads; a write of `TAIL` gives bundles; the watchdog. -/
def Obligations.PostsAndReplies : Prop :=
  ∀ (s : State), memWf s.mem = true →
    (∀ (tid k : Nat) (q : PostReq) (u : Thread) (l : Launch) (p : Part), syscallOf s tid = some q → s.thread? tid = some u →
      syscallPlace s q = some k → s.launch? u.part u.launch = some l → s.part? q.part = some p →
      Happens (.syscallPost tid) s fun t =>
        t.posts = s.posts.filter (fun x => x.id ≠ q.id) ∧ t.part? q.part = some { p with sysnext := (p.sysnext + 1) % sysSize p } ∧
        (∀ r, s.rec? tid = some r → r.held = false → t.rec? tid = some { r with key := p.sysnext }) ∧
        (s.rec? tid = none → NoneGathered s k 64 → (∀ x, ¬(k ≤ x ∧ x < k + 64) → memRead t.mem x = memRead s.mem x) ∧
          let e := t.peek k 64
          e % 2 ^ 16 = p.sysnext % 2 ^ 16 ∧ e / 2 ^ 16 % 2 ^ 12 = q.code % 2 ^ 12 ∧ e / 2 ^ 28 % 2 ^ 4 = 1 ∧
          e / 2 ^ 32 % 2 ^ 16 = u.launch % 2 ^ 16 ∧ e / 2 ^ 48 % 2 ^ 16 = u.tic % 2 ^ 16 ∧ e / 2 ^ 64 % 2 ^ 32 = u.cast % 2 ^ 32 ∧
          e / 2 ^ 96 % 2 ^ 32 = q.pc.toNat ∧ e / 2 ^ 192 % 2 ^ 192 = q.args % 2 ^ 192)) ∧
    (∀ (part : Nat) (ix : BitVec 16) (p : Part) (e : Nat) (r : Rec) (u : Thread), s.part? part = some p → ix.toNat < sysSize p →
      sysEntry s p ix.toNat = some e → sysState e = 2 →
      s.recs.find? (fun r => r.part = part && r.wtype = 6 && r.key = ix.toNat && r.fired.isNone) = some r →
      s.rec? r.tid = some r → r.held = false → s.thread? r.tid = some u → u.twin = 0 →
      Happens (.sysdoneWrite part ix) s fun t =>
        (∃ u', t.thread? r.tid = some u' ∧ (∀ n, u'.rdV n 0 = BitVec.ofNat 32 (e / 2 ^ 384)) ∧
          (∀ n, u'.rdV n 1 = BitVec.ofNat 32 (e / 2 ^ 416)) ∧ ∀ n d, 1 < d.toNat → u'.rdV n d = u.rdV n d) ∧
        ∃ r', t.rec? r.tid = some r' ∧ r'.fired = some s.time ∧ r'.status = e / 2 ^ 448 % 2 ^ 8) ∧
    (∀ (id b q : Nat) (r : PostReq) (p : Part) (u : Thread), enqueueReady s id = some (r, b, q) → s.part? r.part = some p →
      p.first = r.part → s.thread? r.tid = some u → u.twin = 0 → u.isPending (.v r.dst) = true → s.rec? r.tid = none →
      let x := p.queue q
      let gives (t : State) (st : Word) : Prop := t.posts = s.posts.filter (fun y => y.id ≠ id) ∧
        ∃ u', t.thread? r.tid = some u' ∧ ∀ n, u'.rdV n r.dst = st
      let advances (t : State) : Prop := gives t 0 ∧
        ∃ p', t.part? r.part = some p' ∧ p'.queue q = { x with tail := x.tail + 1 } ∧ ∀ j, j ≠ q → p'.queue j = p.queue j
      (∀ g, r.placed = some g → Happens (.launchEnqueue id) s fun t => advances t ∧ t.mem = s.mem) ∧
      (r.placed = none → x.en = false ∨ x.dev = false ∨ p.intakeOff = true → Happens (.launchEnqueue id) s fun t =>
        gives t 2 ∧ t.mem = s.mem) ∧
      (r.placed = none → x.en = true → x.dev = true → p.intakeOff = false → x.slots ≤ x.fill →
        Happens (.launchEnqueue id) s fun t => gives t 1 ∧ t.mem = s.mem) ∧
      ∀ ks : Nat → Nat, r.placed = none → x.en = true → x.dev = true → p.intakeOff = false → x.fill < x.slots → NothingGathered s →
        (∀ i, i < 8 → ∃ e, devLocate s p.first .store (ptrAdd (ringPtr x x.tail.toNat) (16 * i)) 16 = .ok e (ks i)) →
        (∀ i j, i < j → j < 8 → ks i + 16 ≤ ks j ∨ ks j + 16 ≤ ks i) → Happens (.launchEnqueue id) s fun t =>
          (∀ i, i < 8 → Holds t.mem (ks i) 16 (b / 2 ^ (128 * i))) ∧
          (∀ y, (∀ i, i < 8 → ¬(ks i ≤ y ∧ y < ks i + 16)) → memRead t.mem y = memRead s.mem y) ∧
          let g := (placeBundle s p q b).2
          (g ≤ s.time → advances t) ∧
          (s.time < g → t.threads = s.threads ∧ t.parts = s.parts ∧
            t.posts = updL (fun y => y.id = id) (fun y => { y with placed := some g }) s.posts)) ∧
    (∀ (part q : Nat) (v : BitVec 32) (p : Part), s.part? part = some p → q < 16 * 2 ^ p.sz →
      let x := p.queue q
      Happens (.queueTailWrite part q v) s fun t => t = { s with parts := t.parts } ∧ ∃ p', t.part? part = some p' ∧
        (∀ j, j ≠ q → p'.queue j = p.queue j) ∧
        p'.queue q = if p.intakeOff = false ∧ (v - x.head).toNat ≤ x.slots ∧ (x.dev = false ∨ x.idle = true) then { x with tail := v }
          else { x with hrej := true }) ∧
    ∀ (tid : Nat) (u : Thread) (l : Launch) (r : Region), s.thread? tid = some u → s.launch? u.part u.launch = some l →
      l.chain.head? = some r → r.action = 0 → handlerLate s tid = true → u.shadow = false →
      Happens (.watchdog tid) s fun t => GangGone t l (l.gangOf u.cast)

/-- R63, R315, R337, R340 to R345, R349, R350: slices and pre-emption, the requests of `PREQ` and `PCTX`, and vault
allocations that go to the pool backing and come back. The model's choices in it: an image is kept as data under the host
bus address of its buffer, with `BADIMAGE` where none stands there (log 81); a request of `PREQ` waits for a pre-emption
that is going on, and one in progress keeps the fields it was accepted with in `preqRun` and `pctxRun` (log 51); where in
the backing a spilled allocation goes (`spillPlace`, log 52); without another VF with work the slice begins again (log 50). -/
def Obligations.Preemption : Prop :=
  ∀ (s : State) (part : Nat) (p : Part), s.part? part = some p → memWf s.mem = true →
    let reads (t : State) (q : Part) : Prop := t.part? part = some q
    let keeps (t : State) : Prop := (∀ o ∈ s.tileOps, o.kind ≠ .mmal) → t.mem = s.mem ∧ t.threads = s.threads
    let copiesStop (t : State) (f : Nat → Bool) : Prop := ∀ c, s.copy? c.id = some c → c.part = part → f c.vf = true →
      (∀ tid, c.issuer = some tid → (s.thread? tid).isSome = true) → t.copy? c.id = some { c with stopped := true }
    (sliceOver p s.time = true →
      (∀ v, nextVf p = some v → Happens (.vfSliceEnd part) s fun t => keeps t ∧
        reads t { p with preempting := some (p.sliceVf, v) } ∧ copiesStop t fun vf => decide (vf = p.sliceVf)) ∧
      (nextVf p = none → Happens (.vfSliceEnd part) s fun t => t = { s with parts := t.parts } ∧ reads t { p with sliceStart := s.time })) ∧
    (∀ vf next, p.preempting = some (vf, next) → preemptDone s p = true →
      let q : Part := { p with preempting := none, sliceVf := next, sliceStart := if p.sliceVf = next then p.sliceStart else s.time }
      (preqWaits p = none → Happens (.preemptComplete part) s fun t => keeps t ∧ reads t q ∧
        (q.halts next = false → ∀ c, s.copy? c.id = some c → c.part = part → c.vf = next →
          t.copy? c.id = some { c with stopped := false })) ∧
      (preqWaits p = some vf → p.preqRun.getLsbD 62 = false → Happens (.preemptComplete part) s fun t => keeps t ∧ reads t { q with
        preq := p.preq &&& 0x7FFFFFFFFFFFFFFF#64, preqRun := p.preqRun &&& 0x7FFFFFFFFFFFFFFF#64 })) ∧
    (∀ v : DWord, holds s false .host = true → v.getLsbD 63 = true →
      let busy := p.preq.getLsbD 63
      let new := v &&& 0xC000000000F07F7F#64
      let begins (i : Instr) : Prop :=
        (p.preempting = none → Happens i s fun t => keeps t ∧
          let vf := v.toNat / 2 ^ 20 % 16
          reads t { p with preq := new, preqRun := new,
                           preempting := some (vf, if p.sliceVf = vf then (nextVf p).getD vf else p.sliceVf) }) ∧
        (p.preempting ≠ none → Happens i s fun t => t = { s with parts := t.parts } ∧ reads t { p with preq := new, preqRun := new })
      let tells (i : Instr) (x : DWord) : Prop := Happens i s fun t => t = { s with parts := t.parts } ∧ reads t { p with preq := x }
      (v.getLsbD 62 = false → busy = false → begins (.preqPreempt part v)) ∧
      (v.getLsbD 62 = true → busy = false → moveOk p v = true → begins (.preqMove part v)) ∧
      (v.getLsbD 62 = true → busy = false → moveOk p v = false → tells (.preqMove part v) (preqWith (v &&& 0x4000000000F07F7F#64) 2)) ∧
      (v.getLsbD 62 = false → busy = true → tells (.preqPreempt part v) (preqWith p.preq 1)) ∧
      (v.getLsbD 62 = true → busy = true → tells (.preqMove part v) (preqWith p.preq 1))) ∧
    (∀ (v : DWord) (i : Instr), holds s false .host = true → v.getLsbD 63 = true →
      (i = .pctxSave part v ∧ v.getLsbD 62 = false ∧ v.getLsbD 61 = false) ∨
      (i = .pctxRestore part v ∧ v.getLsbD 62 = true ∧ v.getLsbD 61 = false) ∨
      (i = .pctxSaveOnevf part v ∧ v.getLsbD 62 = false ∧ v.getLsbD 61 = true) ∨
      (i = .pctxRestoreOnevf part v ∧ v.getLsbD 62 = true ∧ v.getLsbD 61 = true) →
      (p.pctx.getLsbD 63 = false → Happens i s fun t => keeps t ∧
        reads t { p with pctx := v &&& 0xEF000000FFFFFFFF#64, pctxRun := v &&& 0xEF000000FFFFFFFF#64 } ∧
        copiesStop t fun vf => !v.getLsbD 61 || decide (v.toNat / 2 ^ 56 % 16 = vf)) ∧
      (p.pctx.getLsbD 63 = true → Happens i s fun t => t = { s with parts := t.parts } ∧ reads t { p with pctx := pctxWith p.pctx 1 })) ∧
    (pctxDone s p = true → Happens (.pctxComplete part) s fun t =>
      t.dev.intstat.getLsbD 2 = true ∧ ∃ q, t.part? part = some q ∧ q.pctx.getLsbD 63 = false ∧
        let run := p.pctxRun
        let status := q.pctx.toNat / 2 ^ 48 % 2 ^ 8
        let image := (s.dev.images.find? fun x => x.1 = p.pctxbuf.toNat).map (·.2)
        (run.getLsbD 62 = true → image = none → status = 3) ∧
        (∀ i, run.getLsbD 62 = true → image = some i → i.good = false → status = 3) ∧
        (run.getLsbD 62 = false → run.getLsbD 61 = false → run.toNat % 2 ^ 32 < Config.imageSize s.free → status = 4) ∧
        (run.getLsbD 62 = false → run.getLsbD 61 = false → Config.imageSize s.free ≤ run.toNat % 2 ^ 32 → status = 0 ∧
          ∃ i, t.dev.images.find? (fun x => x.1 = p.pctxbuf.toNat) = some (p.pctxbuf.toNat, i) ∧ i.good = true ∧
            ((∀ r ∈ s.recs, r.held = false) →
              i.recs = s.recs.filter (fun r => r.part = p.first && (vfThreads s p.first fun _ => true).any fun u => u.tid = r.tid)))) ∧
    ∀ (c : Cast) (ks : Nat → Nat), c.part = part → s.cast? part c.launch c.num = some c → NothingGathered s →
      (∀ o n x, c.alloc = some (o, n) → spillPlace s p n = some x → spillDue s p c = true →
        let m := (n + 31) / 32
        (∀ i, i < m → backKey s part (x + 32 * i) = some (ks i)) →
        (∀ i j, i < j → j < m → ks i + 32 ≤ ks j ∨ ks j + 32 ≤ ks i) →
        (∀ i, i < m → ks i + 32 ≤ vaultKey c.cluster o ∨ vaultKey c.cluster o + 32 * m ≤ ks i) →
        Happens (.vaultSpill part c.launch c.num) s fun t =>
          t.cast? part c.launch c.num = some { c with
            alloc := none, spilled := some o, spillBufs := allocBufs s p c.cluster o n, spillAt := x } ∧
          (∀ i j, i < m → j < 32 → memRead t.mem (ks i + j) = memRead s.mem (vaultKey c.cluster o + (32 * i + j))) ∧
          ∀ y, (∀ i, i < m → ¬(ks i ≤ y ∧ y < ks i + 32)) → memRead t.mem y = memRead s.mem y) ∧
      ∀ src dst, c.spilled = some src → c.spillBufs = [] → freeVault s c.cluster c.need = some dst → restoreDue s p c = true →
        let m := (c.need + 31) / 32
        (∀ i, i < m → backKey s part (c.spillAt + 32 * i) = some (ks i)) →
        (∀ i, i < m → ks i + 32 ≤ vaultKey c.cluster dst ∨ vaultKey c.cluster dst + 32 * m ≤ ks i) →
        Happens (.vaultRestore part c.launch c.num) s fun t =>
          (∃ c', t.cast? part c.launch c.num = some c' ∧ c'.alloc = some (dst, c.need) ∧ c'.spilled = none ∧
            (c.orig = some (c.cluster, src) → c'.orig = some (c.cluster, dst)) ∧
            (c.orig ≠ some (c.cluster, src) → c'.orig = c.orig)) ∧
          (∀ i j, i < m → j < 32 → memRead t.mem (vaultKey c.cluster dst + (32 * i + j)) = memRead s.mem (ks i + j)) ∧
          ∀ y, ¬(vaultKey c.cluster dst ≤ y ∧ y < vaultKey c.cluster dst + 32 * m) → memRead t.mem y = memRead s.mem y

/-- R38 to R42, R307, R310 to R314, R316, R322, R324, R360: the front end reads bundles, refuses or admits them, starts
casts and pours, runs epilogues and retires launches; clusters steal; energy and rows are counted. -/
def Obligations.FrontEnd : Prop :=
  ∀ (s : State) (part : Nat) (p : Part), s.part? part = some p → memWf s.mem = true →
    let queue (t : State) (q : Nat) (f : Queue → Prop) : Prop := ∃ p', t.part? part = some p' ∧ f (p'.queue q)
    let starts (t : State) (c : Cast) (l : Launch) (core : Nat) : Prop :=
      let j := c.pours.headD 0
      let w := if l.protected = true then 16 else 32
      ∃ slot, s.pour? core slot = none ∧
        (∃ q ∈ t.pours, q.core = core ∧ q.slot = slot ∧ q.part = c.part ∧ q.launch = c.launch ∧ q.k = Vector.replicate 12 0 ∧
          ∃ y, q.entries = [y] ∧ y.pc = BitVec.ofNat 32 (kEntry l.kinfo) ∧ y.buf = l.codeBuf ∧
            ∀ i, i < 32 → y.mask.getLsbD i = (decide (i < w) && decide (j * w + i < c.threads))) ∧
        ∀ i, i < w → j * w + i < c.threads → ∃ u ∈ t.threads, u.tic = j * w + i ∧ u.loc = .lane core slot i ∧ u.part = c.part ∧
          u.launch = c.launch ∧ u.cast = c.num ∧ u.shadow = false ∧ u.run = c.run
    (∀ q, readDue s p q = true →
      let x := p.queue q
      let ptr := ringPtr x x.head.toNat
      let u := devTouchBlock s part .load ptr 16 8
      Touched s u ∧
      (∀ b, blockPoisoned u part ptr 8 = false → devReadBlock u part ptr 8 = some b → Happens (.bundleRead part q) s fun t =>
        t = { u with parts := t.parts } ∧ queue t q fun y => y = { x with
          head := x.head + 1, headBundle := some b, headLaunch := none, since := s.time, depRead := none, depOk := false,
          unretired := x.unretired + 1 }) ∧
      (blockPoisoned u part ptr 8 = true ∨ devReadBlock u part ptr 8 = none → Happens (.bundleRead part q) s fun t =>
        t = { u with parts := t.parts } ∧ queue t q fun y => y = { x with head := x.head + 1, blost := true })) ∧
    (∀ q, rereadDue s p q = true → Happens (.depReread part q) s fun t =>
      (∃ u, Touched s u ∧ t = { u with parts := t.parts }) ∧
      queue t q fun y => y = { p.queue q with depRead := some s.time, depOk := ((p.queue q).headBundle).any fun b => depsOk s part b }) ∧
    (∀ q b st k1 k2 k3, (refusals s p).head? = some (q, b, some st) → fencePlaces s part (bFencePtr b) = some (k1, k2, k3) →
      NothingGathered s → k1 + 4 ≤ k2 → Happens (.castAdmit part) s fun t =>
        Holds t.mem k1 4 st ∧ queue t q fun y => y.refused.isSome = true ∧ y.headBundle = (p.queue q).headBundle) ∧
    (∀ q b k1 k2 k3, (refusals s p).head? = some (q, b, none) → fencePlaces s part (bFencePtr b) = some (k1, k2, k3) →
      NothingGathered s → Happens (.castAdmit part) s fun t =>
        Holds t.mem k3 8 (bFenceVal b) ∧ (∀ x, ¬(k3 ≤ x ∧ x < k3 + 8) → memRead t.mem x = memRead s.mem x) ∧
        queue t q fun y => y.headBundle = none ∧ y.refused = none ∧ y.unretired = (p.queue q).unretired - 1) ∧
    (∀ ds proc a k1 k2 k3, refusals s p = [] → abandoned s p = none → chooseAdm s p = some (ds, proc, a) → a.launch = none →
      sliceRefused s p (p.queue a.q) a.bundle = true → fencePlaces s part (bFencePtr a.bundle) = some (k1, k2, k3) →
      NothingGathered s → k1 + 4 ≤ k2 → Happens (.castAdmit part) s fun t =>
        Holds t.mem k1 4 1 ∧ t.launches = s.launches ∧ t.casts = s.casts ∧ queue t a.q fun y => y.refused.isSome = true) ∧
    (refusals s p = [] → abandoned s p = none → chooseAdm s p = none → Happens (.castAdmit part) s fun t =>
      t = { s with parts := t.parts } ∧ t.part? part = some { p with deficits := idleDeficits p }) ∧
    (∀ ds proc a, refusals s p = [] → abandoned s p = none → chooseAdm s p = some (ds, proc, a) →
      (a.launch = none → sliceRefused s p (p.queue a.q) a.bundle = false) →
      Happens (.castAdmit part) s fun t => t.threads = s.threads ∧
        (a.launch = none → ∃ l ∈ t.launches, l.part = part ∧ l.num = p.nextLaunch ∧ l.bundle = a.bundle ∧ l.queue = a.q) ∧
        (∀ x ∈ a.casts.zip (homesOf s p a.casts.length), ∃ c ∈ t.casts, c.num = x.1 ∧ c.cluster = x.2 ∧ c.part = part ∧
          c.launch = (a.launch.map (·.num)).getD p.nextLaunch ∧ c.started = false ∧ c.ended = false) ∧
        ∃ p', t.part? part = some p' ∧ p'.deficits = ds ∧ p'.drr = proc ∧
          (a.launch = none → p'.nextLaunch = (p.nextLaunch + 1) % 65536) ∧ (a.launch.isSome = true → p'.nextLaunch = p.nextLaunch)) ∧
    (∀ cluster c l o core, startPlan s cluster = some (c, l, o, core) → s.cast? c.part c.launch c.num = some c →
      Happens (.castStart cluster) s fun t => t.mem = s.mem ∧ starts t c l core ∧
        ∃ c', t.cast? c.part c.launch c.num = some c' ∧ c' = { c with
          started := true, pours := c.pours.drop 1, alloc := some (o, c.need), orig := some (c.cluster, o),
          pin := if c.assay.isSome = true then some core else none }) ∧
    (∀ cluster c l core, pourPlan s cluster = some (c, l, core) → s.cast? c.part c.launch c.num = some c →
      Happens (.pourStart cluster) s fun t => t.mem = s.mem ∧ starts t c l core ∧
        t.cast? c.part c.launch c.num = some { c with pours := c.pours.drop 1 }) ∧
    (∀ launch l, s.launch? part launch = some l →
      (epilogueDue s l = true → Happens (.epilogueStart part launch) s fun t => t.threads = s.threads ∧
        (∃ l', t.launch? part launch = some l' ∧ l'.epilogue = 1) ∧
        ∃ c ∈ t.casts, c.num = 2 ^ 32 ∧ c.part = part ∧ c.launch = launch ∧ c.started = false) ∧
      (retireDue s l = true →
        let gone (t : State) : Prop := t.launch? part launch = none ∧ (∀ c ∈ t.casts, ¬(c.part = part ∧ c.launch = launch)) ∧
          queue t l.queue fun y => y.unretired = (p.queue l.queue).unretired - 1
        (∀ g k1 k2 k3, l.fenced = some g → fencePlaces s part (bFencePtr l.bundle) = some (k1, k2, k3) → NothingGathered s →
          Happens (.bundleRetire part launch) s fun t => gone t ∧ Holds t.mem k3 8 (bFenceVal l.bundle)) ∧
        (l.fenced = none → fencePlaces s part (bFencePtr l.bundle) = none → Happens (.bundleRetire part launch) s fun t =>
          gone t ∧ t.mem = s.mem ∧ queue t l.queue fun y => y.flost = true) ∧
        ∀ k1 k2 k3, l.fenced = none → fencePlaces s part (bFencePtr l.bundle) = some (k1, k2, k3) → NothingGathered s → k1 + 4 ≤ k2 →
          keyChan k1 ≠ none → s.time < (lineAt s (lineOf k1)).lx → Happens (.bundleRetire part launch) s fun t =>
            Holds t.mem k1 4 (retireStatus l) ∧ ∃ l', t.launch? part launch = some l' ∧ l'.fenced.isSome = true)) ∧
    (∀ cluster v, stealDue s cluster = some v → Happens (.stealRequest cluster) s fun t =>
      t = { s with steals := s.steals ++ [(cluster, v, none)] }) ∧
    (∀ thief v, s.steals.find? (fun x => x.1 = thief && x.2.2.isNone) = some (thief, v, none) →
      Happens (.stealHandle thief) s fun t => t = { s with casts := t.casts, steals := t.steals } ∧
        (thief, v, some (((stealableCasts s v).take 4).map fun c => (c.launch, c.num))) ∈ t.steals ∧
        ∀ c ∈ (stealableCasts s v).take 4, s.cast? c.part c.launch c.num = some c →
          t.cast? c.part c.launch c.num = some { c with cluster := nowhere }) ∧
    (∀ thief v cs, s.steals.find? (fun x => x.1 = thief && x.2.2.isSome) = some (thief, v, some cs) →
      (cs = [] → Happens (.stealReply thief) s fun t => t = { s with
        steals := s.steals.filter (fun x => x.1 ≠ thief), stealAfter := setL s.stealAfter thief (s.time + 1000) }) ∧
      (cs ≠ [] → s.partOfSlot (slotOfCluster thief) = some p → Happens (.stealReply thief) s fun t =>
        t = { s with casts := t.casts, steals := s.steals.filter (fun x => x.1 ≠ thief), stealAfter := t.stealAfter } ∧
        ∀ x ∈ cs, ∀ c, s.cast? part x.1 x.2 = some c → c.cluster = nowhere → t.cast? part x.1 x.2 = some { c with cluster := thief })) ∧
    (p.sampled < s.time / 10000 → Happens (.enacctSample part) s fun t => t = { s with parts := t.parts, free := s.free + 1 } ∧
      ∃ e p', t.part? part = some p' ∧ p'.enacct = p.enacct + BitVec.ofNat 64 e ∧ p'.sampled = p.sampled + 1) ∧
    ∀ chan, rowsOld s chan = true → Happens (.rowWindowEnd chan) s fun t =>
      t = { s with dev := { s.dev with
        rows := s.dev.rows.filter fun x => !(x.chan = chan && decide (x.last / 32000000 < s.time / 32000000)) } }

/-- R171, R298, R320, R355, R364, R365, R368, R370, R371, R381: care and control: assay runs, suspicion, fault injection, L2
rails, margins, posted removals, interrupts of the control cores, and acknowledged quiesces. -/
def Obligations.CareEvents : Prop :=
  ∀ (s : State),
    (∀ part launch cast c l run core o, setupPlan s part launch cast = some (c, l, run, core, o) →
      s.cast? part launch cast = some c → c.part = part → c.launch = launch → c.num = cast →
      Happens (.assaySetup part launch cast) s fun t => ∃ c', t.cast? part launch cast = some c' ∧ c'.ended = false ∧
        c'.run = run ∧ c'.pin = some core ∧ c'.cluster = clusterOf core ∧ c'.alloc = some (o, c.need) ∧ c'.spilled = none) ∧
    (∀ part launch cast c, s.cast? part launch cast = some c → deadlineOver s c = true →
      Happens (.assayDeadline part launch cast) s fun t => t = { s with casts := t.casts } ∧
        t.cast? part launch cast = some { c with assay := c.assay.map fun a => { a with deadline := none, promoted := true } }) ∧
    (decayDue s = true → Happens .suspicionDecay s fun t => t = { s with dev := t.dev } ∧ t.dev.decayed = s.dev.decayed + 1 ∧
      ∀ core, suspOf t core = ((suspOf s core).1 - 1, (suspOf s core).2)) ∧
    (∀ part p (v : BitVec 32), s.part? part = some p →
      let mode := v.toNat / 2 ^ 30 % 4
      let writes (i : Instr) (tid : Option Nat) : Prop := Happens i s fun t => t = { s with parts := t.parts } ∧
        t.part? part = some { p with finj := v &&& 0xC3FF001F#32, finjTid := tid }
      (mode = 1 → writes (.finjFlip part v) none) ∧ (∀ tid, mode = 2 → writes (.finjPoison part tid v) (some tid)) ∧
      (mode = 0 ∨ mode = 3 → writes (.finjOff part v) none)) ∧
    (∀ slice, slice < 128 → Happens (.l2VthrDrop slice) s fun t =>
      t = { s with l2 := t.l2, dev := { s.dev with decTed := t.dev.decTed, rails := t.dev.rails } } ∧
      (∀ x, x ∈ t.dev.decTed ↔ x = slice ∨ x ∈ s.dev.decTed) ∧
      (∀ x, x ∈ t.l2 ↔ x ∈ s.l2 ∧ ¬(x.slice = slice ∧ 14 ≤ x.way)) ∧ railBack t slice = false) ∧
    (∀ slice, (railBack s slice = false → Happens (.l2VthrRecover slice) s fun t => t = s) ∧
      (railBack s slice = true → Happens (.l2VthrRecover slice) s fun t =>
        t = { s with dev := { s.dev with decTed := t.dev.decTed } } ∧ ∀ x, x ∈ t.dev.decTed ↔ x ≠ slice ∧ x ∈ s.dev.decTed)) ∧
    (∀ off (tm : BitVec 8) (vm : BitVec 16), isEyemon off = true →
      let g := eyeGroup s (off - off % 128)
      let bad := decide (tm.toNat < g.tmin.toNat) || decide (vm.toNat < g.vmin.toNat)
      Happens (.eyeMeasure off tm vm) s fun t =>
        t = { s with dev := { s.dev with eyeLanes := t.dev.eyeLanes, notices := t.dev.notices } } ∧
        (∀ x, x ≠ off → eyeLane t x = eyeLane s x) ∧ eyeLane t off = { off, low := (eyeLane s off).low || bad, tm, vm } ∧
        (bad = false → t.dev.notices = s.dev.notices) ∧
        (bad = true → (eyeLane s off).low = false → Notice.margin off ∈ t.dev.notices)) ∧
    (∀ off, isEyeGroup off = true → (eyeGroup s (off - off % 128)).go = true →
      let g := eyeGroup s (off - off % 128)
      let spare (v : BitVec 8) : BitVec 8 := if 15 < v.toNat then 0xFF else v
      let becomes (i : Instr) (x : EyeGroup) : Prop := Happens i s fun t =>
        t = { s with dev := { s.dev with eyeGroups := t.dev.eyeGroups } } ∧ eyeGroup t (off - off % 128) = x
      becomes (.laneRetrain off) { g with map0 := spare g.sp0, map1 := spare g.sp1 } ∧
      (g.map0 = spare g.sp0 → g.map1 = spare g.sp1 → becomes (.retrainDone off) { g with go := false })) ∧
    (∀ part idx, btinvDue s part idx = true → Happens (.btinvActed part idx) s fun t =>
      t = { s with bcache := t.bcache, pcache := t.pcache, btinvs := t.btinvs } ∧
      (∀ x, x ∈ t.bcache ↔ x ∈ s.bcache ∧ ¬(x.part = part ∧ x.idx = idx)) ∧
      (∀ x, x ∈ t.pcache ↔ x ∈ s.pcache ∧ ¬(x.part = part ∧ x.idx = idx)) ∧
      ∀ b ∈ t.btinvs, b.part = part → b.idx = idx → b.acted = true) ∧
    (∀ slot source c u w e, s.ctl? slot = some c → s.thread? c.tid = some u → s.pour? (1024 + slot) 0 = some w →
      w.entries.head? = some e → interruptReady s slot source = true → Happens (.interruptEntry slot source) s fun t =>
        let into := sourceLevel source
        let vec := if into = .mon then c.bankM.trapvec else c.bankS.trapvec
        t.mem = s.mem ∧
        (∃ c', t.ctl? slot = some c' ∧ c'.active = into :: c.active ∧ c'.waiting = false ∧
          c'.pending = c.pending.filter (fun x => x ≠ source) ∧
          (let cause := BitVec.ofNat 32 (Trap.interrupt.toNat + e.prio.toNat * 2 ^ 8 + u.level.rank * 2 ^ 14)
           (if into = .mon then c'.bankM else c'.bankS) =
             { trapvec := vec, trappc := e.pc, trapinfo := BitVec.ofNat 64 source, trapcause := cause })) ∧
        t.thread? c.tid = some { u with level := into, hbuf := vec.toNat / 2 ^ 16 } ∧
        ∃ q y, t.pour? (1024 + slot) 0 = some q ∧ q.entries = [y] ∧ y.pc = BitVec.ofNat 32 (12 * (vec.toNat % 2 ^ 16)) ∧
          y.prio = 15 ∧ y.buf = vec.toNat / 2 ^ 16) ∧
    ∀ slot p, s.partOfSlot slot = some p → s.part? p.first = some p → p.quiescing.isSome = true →
      (∃ x ∈ p.slots, x ≠ slot ∧ x ∉ p.qack) ∧ (Happens (.qack slot) s fun t => t = { s with parts := t.parts } ∧
        ∃ p', t.part? p.first = some p' ∧ p'.quiescing = p.quiescing ∧ ∀ x, x ∈ p'.qack ↔ x = slot ∨ x ∈ p.qack) ∨
      (∀ x ∈ p.slots, x = slot ∨ x ∈ p.qack) ∧ Happens (.qack slot) s fun t =>
        t.part? p.first = some { p with quiescing := none, qack := [], state := 2 } ∧ t.dev.pcmdst = 0 ∧
          t.dev.intstat.getLsbD 2 = true

/-- R198, R369, R378 to R381, R386 to R388, R395: the locks, and the commands of the two masters. The model's choices in it:
a refused command raises `CMDDONE` too, and a command whose unused `NVF` or `TENANT` bits are set ends with status 3 (log 75);
a core that fails the shakeout has Q = 1 (log 78); the bytes of a slot, those of its flash among them, are cleared at once
when its scrub begins (log 56). -/
def Obligations.Commands : Prop :=
  ∀ (s : State) (m : Sys2Proof.Master) (v : BitVec 64), memWf s.mem = true →
    (∀ x ∈ [(false, Instr.cfglockCreq m, Instr.cfglockCrelease m), (true, .cfglockMreq m, .cfglockMrelease m)],
      let owner (t : State) : Option Sys2Proof.Master := t.dev.owner x.1
      let wins : Bool := m = if x.1 = true then .sideBand else .host
      (Happens x.2.1 s fun t => t = { s with dev := t.dev } ∧
        (owner s = none ∨ owner s = some m → owner t = some m) ∧
        (∀ o, owner s = some o → o ≠ m → (wins = true → owner t = some m ∧ (s.dev.ownedAt x.1 ≠ s.time → (t.dev.view o).lost = true)) ∧
          (wins = false → owner t = some o))) ∧
      Happens x.2.2 s fun t => t = { s with dev := t.dev } ∧
        (owner s = some m → owner t = none) ∧ (owner s ≠ some m → owner t = owner s)) ∧
    let first := cmdFirst v
    let slots : List Nat := (List.range (2 ^ cmdSz v)).map (first + ·)
    let ends (i : Instr) (status : BitVec 8) (eff : State → Prop) : Prop := Happens i s fun t =>
      t.dev.pcmdst = status ∧ t.dev.intstat.getLsbD 2 = true ∧ eff t
    let endsM (i : Instr) (status : BitVec 8) (eff : State → Prop) : Prop := Happens i s fun t =>
      t.dev.mcmdst = status ∧ t.dev.intstat.getLsbD 2 = true ∧ eff t
    (∀ i, (i = .create m v ∧ cmdOp v = 1) ∨ (i = .destroy m v ∧ cmdOp v = 2) ∨ (i = .quiesce m v ∧ cmdOp v = 3) ∨
        (i = .resume m v ∧ cmdOp v = 4) →
      (holds s false m = false → Happens i s fun t => t = { s with dev := { s.dev with pcmdst := 5 } }) ∧
      (holds s false m = true → cmdForm (cmdOp v = 1) 4 v = false → ends i 3 fun t => t = { s with dev := t.dev }) ∧
      (holds s false m = true → cmdForm (cmdOp v = 1) 4 v = true → cmdOverlaps s v = true →
        ends i 4 fun t => t = { s with dev := t.dev })) ∧
    (∀ i, (i = .reset m v ∧ cmdOp v = 1) ∨ (i = .scrub m v ∧ cmdOp v = 2) ∨ (i = .shakeout m v ∧ cmdOp v = 3) →
      (holds s true m = false → Happens i s fun t => t = { s with dev := { s.dev with mcmdst := 5 } }) ∧
      (holds s true m = true → cmdForm false 3 v = false → endsM i 3 fun t => t = { s with dev := t.dev })) ∧
    (holds s false m = true → cmdForm (cmdOp v = 1) 4 v = true → cmdOverlaps s v = false →
      (cmdOp v = 1 → (∀ x ∈ slots, assigned s x = false) → (∀ x ∈ slots, slotReady s.dev x = true) →
        ends (.create m v) 0 fun t =>
          (∃ p, t.part? first = some p ∧ p.sz = cmdSz v ∧ p.nvf = cmdNvf v ∧ p.tenant = cmdTenant v ∧ p.queues = [] ∧
            ∀ q, s.dev.kept.find? (fun x => x.first = first) = some q → q.first = first → p.sysring = q.sysring ∧ p.frq = q.frq ∧
              p.vfslice = q.vfslice ∧ p.qage = q.qage ∧ p.assaykey = q.assaykey ∧ p.peers = q.peers ∧ p.migfwd = q.migfwd) ∧
          ∀ x ∈ slots, (slotCfg s x).tenant ≠ cmdTenant v → x ∈ t.dev.scrubbing) ∧
      (cmdOp v = 1 → (∀ x ∈ slots, assigned s x = false) → (∃ x ∈ slots, slotReady s.dev x = false) → ends (.create m v) 1 fun t =>
        t = { s with dev := t.dev }) ∧
      ∀ p, cmdPart s v = some p →
        (cmdOp v = 2 → p.state = 2 → ends (.destroy m v) 0 fun t => t.part? first = none ∧ t.mem = s.mem ∧
          t.dev.kept.find? (fun x => x.first = first) = some p) ∧
        (cmdOp v = 2 → p.state ≠ 2 → ends (.destroy m v) 2 fun t => t.part? first = some p) ∧
        (cmdOp v = 3 → (∃ q ∈ p.queues, q.2.idle = false) → ends (.quiesce m v) 2 fun t => t.part? first = some p) ∧
        (cmdOp v = 3 → (∀ q ∈ p.queues, q.2.idle = true) → Happens (.quiesce m v) s fun t =>
          t.part? first = some { p with quiescing := some s.time, qack := [] } ∧
          { classM := false, op := 3, first, slots := 2 ^ p.sz } ∈ t.dev.commands ∧
          ∀ c, s.ctl? c.slot = some c → c.slot ∈ p.slots → ∃ c', t.ctl? c.slot = some c' ∧ 2 ∈ c'.pending) ∧
        (cmdOp v = 4 → p.state = 2 → ends (.resume m v) 0 fun t => ∃ p', t.part? first = some p' ∧ p'.state ≠ 2)) ∧
    (holds s true m = true → cmdForm false 3 v = true → cmdOverlaps s v = false →
      (∀ p, cmdOp v = 1 → s.partOfSlot first = some p → s.part? p.first = some p → endsM (.reset m v) 0 fun t =>
        (∀ l ∈ t.launches, l.part ≠ p.first) ∧ (∀ r ∈ t.recs, r.part ≠ p.first) ∧ (∀ a ∈ t.accs, a.part ≠ p.first) ∧
        (∃ q, t.part? p.first = some q ∧ q.assaykey = p.assaykey ∧ q.frq = p.frq ∧ q.trapvec = 0 ∧ q.faults = []) ∧
        ∀ u ∈ t.threads, u.part = p.first → ∃ c sl ln, u.loc = .lane c sl ln ∧ isCtlCore c = true) ∧
      (cmdOp v = 2 → assigned s first = true → endsM (.scrub m v) 3 fun t => t = { s with dev := t.dev }) ∧
      (cmdOp v = 2 → assigned s first = false → Happens (.scrub m v) s fun t => first ∈ t.dev.scrubbing ∧ t.threads = s.threads ∧
        { classM := true, op := 2, first, slots := 1 } ∈ t.dev.commands ∧
        ∀ k, memRead t.mem k =
          if slotClears first k = true ∨ (flashKey first 0 ≤ k ∧ k < flashKey (first + 1) 0) then 0 else memRead s.mem k) ∧
      (cmdOp v = 3 → Happens (.shakeout m v) s fun t => first ∈ t.dev.scrubbing ∧ t.dev.fwm.getLsbD first = false ∧
        t.dev.fws.getLsbD first = false ∧ t.dev.fwu.getLsbD first = false ∧
        { classM := true, op := 3, first, slots := 1 } ∈ t.dev.commands ∧ ∀ p, s.partOfSlot first = some p → t.part? p.first = none)) ∧
    (∀ part p, s.part? part = some p → quiesceOver s part = true → ends (.quiesceTimeout part) 2 fun t =>
      t.part? part = some { p with quiescing := none, qack := [] }) ∧
    (∀ slot, slot ∈ s.dev.scrubbing → Happens (.scrubDone slot) s fun t => slot ∉ t.dev.scrubbing ∧
      t.dev.intstat.getLsbD 4 = true ∧ t.mem = s.mem) ∧
    ∀ slot, slot < 64 → shakeoutOver s slot = true → endsM (.shakeoutDone slot) 0 fun t =>
      t.dev.fwm.getLsbD slot = s.dev.cc.getLsbD slot ∧ t.dev.fws.getLsbD slot = s.dev.cc.getLsbD slot ∧
      (∀ c ∈ t.dev.commands, ¬(c.classM = true ∧ c.op = 3 ∧ c.first = slot)) ∧
      ∀ i, i < 16 → suspOf t (16 * slot + i) =
        if t.dev.passMask.getLsbD i = true then (0, false) else ((suspOf s (16 * slot + i)).1, true)

/-- R8 to R10, R28 to R31, R375, R376, R378, R388, R390, R391, R394: power-on reset, `READY`, ports and peers, forwarded
writes, register writes, and the side-band protocols. The model's choices in it: after a power-on reset all memory but flash
and host memory reads 0 (logs 85 and 1; the manual gives it no value); a slot whose monitor is not running gives no answer
to SPDM (log 84). -/
def Obligations.LinksAndSideBand : Prop :=
  ∀ (s : State), memWf s.mem = true →
    (Happens .powerOnReset s fun t => t.time = 0 ∧ t.parts = [] ∧ t.threads = [] ∧ t.pours = [] ∧ t.recs = [] ∧ t.accs = [] ∧
      t.launches = [] ∧ t.dev.cc = 0 ∧ t.dev.cown = none ∧ t.dev.mown = none ∧ t.dev.commands = [] ∧
      ∀ k, memRead t.mem k = if isFlash k = true ∨ (2 ^ 60 ≤ k ∧ k < 2 ^ 64) then memRead s.mem k else 0) ∧
    (∀ bit, maySet s.dev bit = true → readyIs s.dev bit = false → Happens (.readySet bit) s fun t =>
      t.dev.intstat.getLsbD 0 = true ∧ ∀ b, readyIs t.dev b = (readyIs s.dev b || decide (b = bit))) ∧
    (∀ bit, readyIs s.dev bit = true → Happens (.readyClear bit) s fun t => t.dev.intstat.getLsbD 0 = true ∧
      ∀ b, readyIs t.dev b = (readyIs s.dev b &&
        !(decide (b = bit) || (decide (64 ≤ bit) && decide (b / 4 = bit / 4) && decide (bit ≤ b))))) ∧
    (∀ port (peer : BitVec 64), port < 12 →
      let me := s.dev.grpcfg
      let same : Prop := me.getLsbD 63 = true ∧ peer.getLsbD 63 = true ∧ me.toNat % 2 ^ 16 = peer.toNat % 2 ^ 16
      let num (x : DWord) : Nat := x.toNat / 2 ^ 32 % 2 ^ 5
      (same → num peer ≠ num me → s.dev.clash ≠ some (me.toNat % 2 ^ 16, num me) → Happens (.portTrain port peer) s fun t =>
        t.dev.readyLink.getLsbD port = true ∧ (port, num peer, peer.getLsbD 40) ∈ t.dev.peers ∧ t.dev.grpact = me) ∧
      (same → num peer = num me → Happens (.portTrain port peer) s fun t =>
        t.dev.readyLink = 0 ∧ t.dev.peers = [] ∧ t.dev.grpact = me) ∧
      (¬same → Happens (.portTrain port peer) s fun t =>
        t.dev.readyLink.getLsbD port = false ∧ (∀ x ∈ t.dev.peers, x.1 ≠ port) ∧ t.dev.grpact = me)) ∧
    (∀ part p e, s.part? part = some p → e < 32 →
      (Happens (.peerUp part e) s fun t => t = { s with parts := t.parts } ∧ ∃ p', t.part? part = some p' ∧
        p'.peer e = { p.peer e with up := true } ∧ ∀ j, j ≠ e → p'.peer j = p.peer j) ∧
      ((p.peer e).up = true → Happens (.peerDown part e) s fun t => t.mem = s.mem ∧
        (∃ p', t.part? part = some p' ∧ p'.peer e = { p.peer e with up := false }) ∧
        ∀ a ∈ s.accs, (∀ b ∈ s.accs, b.id = a.id → b = a) → throughPeer s p e a = true → a.stage = .sent ∨ a.stage = .performed →
          (a.reads = true → t.acc? a.id = some { a with stage := .performed, poison := true }) ∧
          (a.kind = .store ∨ a.kind = .str → t.acc? a.id = some { a with stage := .done, gwct := s.time }))) ∧
    (∀ part p buf off (data : List (BitVec 8)), s.part? part = some p →
      (∀ j e, p.migfwd.find? (fun x => migMatches x.2 buf off data.length) = some (j, e) →
        Happens (.migfwdForward part buf off data) s fun t => t = { s with dev := { s.dev with
          forwards := s.dev.forwards ++ [{ dev := bitsN e 244 240, slot := bitsN e 237 232, buf := bitsN e 223 208, off, data }] } }) ∧
      (∀ k, p.migfwd.find? (fun x => migMatches x.2 buf off data.length) = none → data ≠ [] → off % 16 + data.length ≤ 16 →
        remotePlace s part buf off = some k → Happens (.migfwdForward part buf off data) s fun t =>
          ∃ x, t = { s with accs := s.accs ++ [x], nextId := s.nextId + 1 } ∧ x.kind = .host ∧ x.addr = k ∧ x.size = data.length ∧
            x.data = leNat data ∧ x.stage = .sent)) ∧
    (∀ via off size v,
      (sizeOk off size = false → Happens (.registerWrite via off size v) s fun t => t = s) ∧
      (∀ first, via = .windowPf .sideBand first → Happens (.registerWrite via off size v) s fun t => t = s) ∧
      (∀ m, via = .dsb m → off = 0x70 → size = 8 → Happens (.registerWrite via off size v) s fun t =>
        t = { s with dev := { s.dev with grpcfg := if holds s true m = true then v &&& 0x8000011F0000FFFF#64 else s.dev.grpcfg } }) ∧
      (∀ first p, via = .windowPf .host first → s.part? first = some p → off = 0x20088 → size = 8 → holds s false .host = true →
        v.getLsbD 63 = false → Happens (.registerWrite via off size v) s fun t => t = { s with parts := t.parts } ∧
          t.part? first = some { p with pctx := (v &&& 0x6F000000FFFFFFFF#64) ||| (p.pctx &&& 0x80FF000000000000#64) }) ∧
      ∀ first p q, via = .windowPf .host first → s.part? first = some p → off = 32 * q → size = 8 → q < 16 * 2 ^ p.sz → q < 2048 →
        Happens (.registerWrite via off size v) s fun t => t = { s with parts := t.parts } ∧ ∃ p', t.part? first = some p' ∧
          p'.queue q = if (p.queue q).en = false ∧ (p.queue q).idle = true then { p.queue q with qbase := v } else p.queue q) ∧
    (∀ off, Happens (.mctpDsbRead off) s fun t => t = { s with dev := { s.dev with
      answer := some (.dsb (if off % 8 = 0 then dsbValue s .sideBand off else BitVec.allOnes 64)) } }) ∧
    (∀ v, Happens (.mctpDsbWrite 0x70 v) s fun t => t = { s with dev := { s.dev with
      grpcfg := if holds s true .sideBand = true then v &&& 0x8000011F0000FFFF#64 else s.dev.grpcfg } }) ∧
    ∀ slot, let x := spdmOf s slot
      let answers (i : Instr) (f : Answer → Prop) : Prop :=
        (s.dev.fwm.getLsbD slot = false → Happens i s fun t => t = s) ∧
        (s.dev.fwm.getLsbD slot = true → Happens i s fun t => (∃ a, t.dev.answer = some a ∧ f a) ∧ t.mem = s.mem ∧
          ∀ c, s.ctl? slot = some c → ∃ c', t.ctl? slot = some c' ∧ 4 ∈ c'.pending)
      let ready (i : Instr) (f : Answer → Prop) : Prop :=
        (x.algs = some true → answers i f) ∧ (x.algs ≠ some true → answers i fun a => a = .spdmError)
      let refused : Prop := x.algs = some false
      answers (.getVersion slot) (fun a => (refused → a = .spdmError) ∧ (¬refused → a = .spdmVersion 1 2)) ∧
      answers (.getCapabilities slot) (fun a => (refused ∨ x.version = false → a = .spdmError) ∧
        (¬refused → x.version = true → a = .spdmCapabilities true true true false false false false)) ∧
      (∀ o, answers (.negotiateAlgorithms slot o) fun a => (refused ∨ x.caps = false → a = .spdmError) ∧
        (¬refused → x.caps = true → a = .spdmAlgorithms (o.ed448 && o.sha3_384 && o.dmtf && o.rawBits))) ∧
      ready (.getDigests slot) (fun a => ∃ d, a = .spdmDigests 0 d) ∧
      (∀ chain off len, ready (.getCertificate slot chain off len) fun a =>
        a = if chain = 0 then .spdmCertificate 0 off len else .spdmError) ∧
      (∀ chain nonce, ready (.challenge slot chain nonce) fun a =>
        if chain = 0 then ∃ sig, a = .spdmChallenge 0 nonce sig else a = .spdmError) ∧
      (∀ index nonce g, x.log = some g → 1 ≤ index → index ≤ 3 → ready (.getMeasurements slot index nonce) fun a =>
        ∃ d sig, a = .spdmMeasurements [(index, d)] nonce sig) ∧
      Happens (.pldmTelemetry slot) s fun t => t.mem = s.mem ∧ ∃ r, t.dev.answer = some (.pldm r)

/-- R5, R72, R88 to R94: the fields of a word, and words written out from the tables of the encodings decode to what they
stand for; the reserved major, an unlisted function, a set field that a form does not use, and an odd register of a pair
are no instruction. -/
def Obligations.DecodedWords : Prop :=
  (∀ (h : Hdr) (op : BitVec 5) (pl : BitVec 24),
    (word h op pl).toNat = h.c.toNat * 2 ^ 31 + h.s.toNat * 2 ^ 29 + op.toNat * 2 ^ 24 + pl.toNat) ∧
  decode 0b0_00_00000_000000_000000_000000_000000 = .ok (.nop ⟨0, 0⟩) ∧
  decode 0b1_10_00001_000101_000110_000111_000000 = .ok (.add ⟨1, 2⟩ 5 6 7) ∧
  decode 0b0_01_00010_000011_000100_111111111110 = .ok (.addi ⟨0, 1⟩ 3 4 0xFFE) ∧
  decode 0b0_00_00110_1010_00000000000000000101 = .ok (.lui ⟨0, 0⟩ 10 5) ∧
  decode 0b0_00_01000_101_000_000001_000010_001110 = .ok (.cmpLtF32 ⟨0, 0⟩ 5 1 2) ∧
  decode 0b0_00_01011_001_1_0110_0000000000011000 = .ok (.br ⟨0, 0⟩ 1 1 6 24) ∧
  decode 0b0_00_01100_0101_1_0000000000111110010 = .ok (.call ⟨0, 0⟩ 5 498) ∧
  decode 0b0_00_01101_000000_001100_000100_000000 = .ok (.jr ⟨0, 0⟩ 12 4) ∧
  decode 0b0_00_10000_000001_000010_000011_000100 = .ok (.ffma ⟨0, 0⟩ 1 2 3 4) ∧
  decode 0b0_00_10011_001001_000100_011100_000111 = .ok (.cvt ⟨0, 0⟩ 9 4 1 3 0 7) ∧
  decode 0b0_00_10101_010100_000110_000000_001010 = .ok (.rdxAddF32 ⟨0, 0⟩ 20 6) ∧
  decode 0b0_00_10110_000010_00101_100_01_0_1111111 = .ok (.ld ⟨0, 0⟩ 2 5 4 1 0x7F) ∧
  decode 0b0_00_11000_000001_000010_000011_001011 = .ok (.atomCas ⟨0, 0⟩ 1 1 3) ∧
  decode 0b0_00_11100_000001_000100_00011_001_10_00 = .ok (.mma ⟨0, 0⟩ 1 4 3 1 2 0) ∧
  decode 0b0_00_11110_000001_000010_001011_000001 = .ok (.sgjoinH ⟨0, 0⟩ 1 2 3) ∧
  (∀ w ∈ [0b0_00_11111_000000_000000_000000_000000#32, 0b0_00_00000_000000_000000_000000_010010#32,
      0b0_00_00000_000001_000000_000000_000000#32, 0b0_00_00001_000001_000010_000100_100100#32],
    ∃ err, decode w = .error err)

/-- R72, R85, R88 to R94: encoding and decoding agree on every word and on every instruction that has one: every
well-formed instruction that is no event has a word; the encoded word of an instruction decodes to it with every operand;
and a word that decodes is the encoding of what it decodes to, so that no bit is dropped and no two words stand for one
instruction. -/
def Obligations.EncodingAgrees : Prop :=
  (∀ i : Instr, wf i = true → isEvent i = false → (∀ x, i ≠ .illegalEncoding x) → ∃ w, encode i = some w ∧ decode w = .ok i) ∧
  (∀ i : Instr, isEvent i = true → encode i = none) ∧
  ∀ (i : Instr) (w : Word), (encode i = some w → decode w = .ok i) ∧ (decode w = .ok i → encode i = some w)

/-- R6, R9, R28, R42, R52, R63, R84, R294, R301, R317, R330, R335, R359, R378: the machine after power-on reset, a partition's
registers when it is made, and a thread when it starts. Not the manual's but the model's are: the values of `INTSTAT`,
`PCMDST` and `MCMDST` (log 2), and what is left of the state before in the one after a power-on reset, memory among it
(logs 85, 81 and 1). -/
def Obligations.ResetState : Prop :=
  memoryOk State.reset ∧ (∀ s, exec .powerOnReset s = .next { State.reset with
      agenda := s.agenda.map (fun x => (x.1 - s.time, x.2)), nextId := s.nextId, free := s.free,
      mem := s.mem.filter (fun c => isFlash c.1 || (decide (2 ^ 60 ≤ c.1) && decide (c.1 < 2 ^ 64))),
      dev := { Dev.reset with flashKeys := s.dev.flashKeys, flashFresh := s.dev.flashFresh,
                              sealed := s.dev.sealed, images := s.dev.images, boots := s.dev.boots + 1 } }) ∧
  State.reset.time = 0 ∧ State.reset.parts = [] ∧ State.reset.threads = [] ∧ State.reset.pours = [] ∧ State.reset.ctls = [] ∧
  (∀ bit, readyIs State.reset.dev bit = false) ∧ State.reset.dev.cown = none ∧ State.reset.dev.mown = none ∧
  State.reset.dev.intstat = 0 ∧ State.reset.dev.pcmdst = 0 ∧ State.reset.dev.mcmdst = 0 ∧ State.reset.dev.grpcfg = 0 ∧
  (∀ first sz nvf tenant, let p := Part.fresh first sz nvf tenant
    p.sbchk = true ∧ p.swin = 256 ∧ p.fspill = 50 ∧ p.traplim = 10000000 ∧ p.trapvec = 0 ∧ p.assayctl = 0x40271001 ∧
    p.vfslice = 2000 ∧ p.qage = 1000 ∧ p.finj = 0 ∧ p.rechold = 0 ∧ p.poolbk = 0 ∧ p.sysring = 0 ∧ p.frq = 0 ∧ p.enacct = 0) ∧
  ∀ tid part launch cast tic loc (param : DWord), let u := Thread.fresh tid part launch cast tic loc param
    u.rdW 0 0 = param ∧ (∀ r : Reg, 2 ≤ r.toNat → u.rdV 0 r = 0) ∧ (∀ q : PredNo, q ≠ 7 → u.rdP 0 q = false) ∧
    (∀ r, u.rdH r = 0) ∧ u.level = .user ∧ ∀ r, u.isPending r = false

/-- R6, R44, R72, R74 to R78: one step. What arrives from outside comes first, then what is due, then a group that issues, else a
cy passes; and a group of one word whose bytes at the PC decode to an instruction, which no check before it stops, is `exec`
of that instruction in the context of its lanes, with the pipe marked as taken. -/
def Obligations.StepRunsDecoded : Prop :=
  ∀ (s : State),
    (∀ cy i rest, s.agenda = (cy, .event i) :: rest → cy ≤ s.time → isEvent i = true → step s = exec i { s with agenda := rest }) ∧
    (∀ cy part a data rest, s.agenda = (cy, .hostWrite part a data) :: rest → cy ≤ s.time →
      step s = .next (hostWrite part a data { s with agenda := rest })) ∧
    ((∀ x ∈ s.agenda.head?, s.time < x.1) →
      (∀ i, (dueList s).find? (acts s) = some i → step s = exec i s) ∧
      ((dueList s).find? (acts s) = none →
        (chooseIssue s = none → step s = .next (tick s) ∧ (tick s).time = s.time + 1 ∧ (tick s).threads = s.threads ∧
          (tick s).mem = s.mem) ∧
        ∀ (c : Cand) (p : Pour) (e : Entry) (w : Word) (i : Instr) (x : Nat × Thread) (r : List (Nat × Thread)),
          chooseIssue s = some c → s.pour? c.core c.slot = some p → p.entries[c.ent]? = some e →
          let lanes := entryLanes s c.core c.slot e
          lanes = x :: r → (hdrOf w).c = 0 → decode w = .ok i →
          (∀ y ∈ lanes, ∃ f k, portCheck s (s.reqOf y.2 c.core y.1) .fetch e.buf e.pc.toNat 4 = .ok f k ∧
            s.reaches (slotOfCluster (clusterOf c.core)) k = true ∧ NoneGathered s k 12 ∧
            Holds s.mem k 4 w.toNat ∧ poisonedAt s k 4 = false) →
          beginsGroup s c.core c.slot e e.pc = true → groupOk e.pc [w] = true →
          scoreWait s lanes (reads i ++ writes i) = none →
          (∀ y ∈ lanes, staticCode (isCtlCore c.core) i w y.2.level = none ∧
            (sbchkOf s c.core p.part = true → tooEarly s y.2 y.1 [(0, w, reads i)] = none) ∧
            y.2.stale = [] ∧ (assayFirst w = true → y.2.part ≠ 64 → s.selected y.2 = false) ∧
            readTrap y.2 y.1 w (reads i) = none ∧
            ∀ v, s.twinOf y.2 = some v → readTrap v y.1 w (reads i) = none) →
          let u : State := { s with cur :=
            { cursor c e 1 lanes with word := w, wpc := e.pc, pos := 0, phase := .alone } }
          (∀ t, exec i u = .next t → step s = .next (markBusy c.core c.slot [w] s.time t)) ∧ ∃ t, exec i u = .next t))

/-- R5 and the canonical form of memory: a step that goes on from a state whose memory is in canonical form, addresses
rising and no zero byte listed, leaves it so. The form is the model's own (log 1); equal memories are then equal data. -/
def Obligations.MemoryStaysCanonical : Prop := ∀ s t : State, memoryOk s → step s = .next t → memoryOk t
end

