-- ==== Sys2Proof/Laws/Fields.lean ====
section
/-! SUPPORT. The fields of a payload and of a word read back what the formats of R88 put there. -/

namespace Sys2Proof

theorem extract_left {v w : Nat} (x : BitVec v) (y : BitVec w) (s n : Nat) (h : w ≤ s) :
    (x ++ y).extractLsb' s n = x.extractLsb' (s - w) n := BitVec.extractLsb'_append_eq_of_le h

theorem extract_right {v w : Nat} (x : BitVec v) (y : BitVec w) (s n : Nat) (h : s + n ≤ w) :
    (x ++ y).extractLsb' s n = y.extractLsb' s n := BitVec.extractLsb'_append_eq_of_add_le h

section
variable (h : Hdr) (op : BitVec 5) (pl : BitVec 24)

@[simp] theorem hdrOf_word : hdrOf (word h op pl) = h := by
  have h1 : (word h op pl).extractLsb' 31 1 = h.c := by
    rw [word, extract_left _ _ _ _ (by decide)]; simp
  have h2 : (word h op pl).extractLsb' 29 2 = h.s := by
    rw [word, extract_right _ _ _ _ (by decide), extract_left _ _ _ _ (by decide)]; simp
  simp only [hdrOf, h1, h2]
@[simp] theorem opOf_word : opOf (word h op pl) = op := by
  simp only [opOf, word]
  rw [extract_right _ _ _ _ (by decide), extract_right _ _ _ _ (by decide), extract_left _ _ _ _ (by decide)]
  simp
@[simp] theorem payloadOf_word : payloadOf (word h op pl) = pl := by
  simp only [payloadOf, word]
  rw [extract_right _ _ _ _ (by decide), extract_right _ _ _ _ (by decide), extract_right _ _ _ _ (by decide)]
  simp
end

section
variable (d a b n : BitVec 6)
@[simp] theorem fD_t3 : fD (t3 d a b n) = d := by
  simp only [fD, t3]; rw [extract_left _ _ _ _ (by decide)]; simp
@[simp] theorem fA_t3 : fA (t3 d a b n) = a := by
  simp only [fA, t3]; rw [extract_right _ _ _ _ (by decide), extract_left _ _ _ _ (by decide)]; simp
@[simp] theorem fB_t3 : fB (t3 d a b n) = b := by
  simp only [fB, t3]
  rw [extract_right _ _ _ _ (by decide), extract_right _ _ _ _ (by decide), extract_left _ _ _ _ (by decide)]; simp
@[simp] theorem fN_t3 : fN (t3 d a b n) = n := by
  simp only [fN, t3]
  rw [extract_right _ _ _ _ (by decide), extract_right _ _ _ _ (by decide), extract_right _ _ _ _ (by decide)]; simp
@[simp] theorem fD_ti (i : BitVec 12) : fD (ti d a i) = d := by
  simp only [fD, ti]; rw [extract_left _ _ _ _ (by decide)]; simp
@[simp] theorem fA_ti (i : BitVec 12) : fA (ti d a i) = a := by
  simp only [fA, ti]; rw [extract_right _ _ _ _ (by decide), extract_left _ _ _ _ (by decide)]; simp
@[simp] theorem fI12_ti (i : BitVec 12) : fI12 (ti d a i) = i := by
  simp only [fI12, ti]; rw [extract_right _ _ _ _ (by decide), extract_right _ _ _ _ (by decide)]; simp
end

@[simp] theorem fD4_tu (d : BitVec 4) (i : BitVec 20) : fD4 (tu d i) = d := by
  simp only [fD4, tu]; rw [extract_left _ _ _ _ (by decide)]; simp
@[simp] theorem fI20_tu (d : BitVec 4) (i : BitVec 20) : fI20 (tu d i) = i := by
  simp only [fI20, tu]; rw [extract_right _ _ _ _ (by decide)]; simp

section
variable (p cc : BitVec 3) (a : BitVec 6) (i : BitVec 12)
@[simp] theorem fP_tc : fP (tc p cc a i) = p := by
  simp only [fP, tc]; rw [extract_left _ _ _ _ (by decide)]; simp
@[simp] theorem fCc_tc : fCc (tc p cc a i) = cc := by
  simp only [fCc, tc]; rw [extract_right _ _ _ _ (by decide), extract_left _ _ _ _ (by decide)]; simp
@[simp] theorem fA_tc : fA (tc p cc a i) = a := by
  simp only [fA, tc]
  rw [extract_right _ _ _ _ (by decide), extract_right _ _ _ _ (by decide), extract_left _ _ _ _ (by decide)]; simp
@[simp] theorem fI12_tc : fI12 (tc p cc a i) = i := by
  simp only [fI12, tc]
  rw [extract_right _ _ _ _ (by decide), extract_right _ _ _ _ (by decide), extract_right _ _ _ _ (by decide)]; simp
end

section
variable (p : BitVec 3) (n : BitVec 1) (q : BitVec 4) (i : BitVec 16)
@[simp] theorem fP_tb : fP (tb p n q i) = p := by
  simp only [fP, tb]; rw [extract_left _ _ _ _ (by decide)]; simp
@[simp] theorem fNeg_tb : fNeg (tb p n q i) = n := by
  simp only [fNeg, tb]; rw [extract_right _ _ _ _ (by decide), extract_left _ _ _ _ (by decide)]; simp
@[simp] theorem fPrio4_tb : fPrio4 (tb p n q i) = q := by
  simp only [fPrio4, tb]
  rw [extract_right _ _ _ _ (by decide), extract_right _ _ _ _ (by decide), extract_left _ _ _ _ (by decide)]; simp
@[simp] theorem fDisp16_tb : fDisp16 (tb p n q i) = i := by
  simp only [fDisp16, tb]
  rw [extract_right _ _ _ _ (by decide), extract_right _ _ _ _ (by decide), extract_right _ _ _ _ (by decide)]; simp
end

section
variable (q : BitVec 4) (l : BitVec 1) (i : BitVec 19)
@[simp] theorem fD4_tj : fD4 (tj q l i) = q := by
  simp only [fD4, tj]; rw [extract_left _ _ _ _ (by decide)]; simp
@[simp] theorem fL_tj : fL (tj q l i) = l := by
  simp only [fL, tj]; rw [extract_right _ _ _ _ (by decide), extract_left _ _ _ _ (by decide)]; simp
@[simp] theorem fDisp19_tj : fDisp19 (tj q l i) = i := by
  simp only [fDisp19, tj]; rw [extract_right _ _ _ _ (by decide), extract_right _ _ _ _ (by decide)]; simp
end

section
variable (d : BitVec 6) (w : BitVec 5) (t : BitVec 3) (c : BitVec 2) (x : BitVec 1) (i : BitVec 7)
@[simp] theorem fD_tm : fD (tm d w t c x i) = d := by
  simp only [fD, tm]; rw [extract_left _ _ _ _ (by decide)]; simp
@[simp] theorem fW_tm : fW (tm d w t c x i) = w := by
  simp only [fW, tm]; rw [extract_right _ _ _ _ (by decide), extract_left _ _ _ _ (by decide)]; simp
@[simp] theorem fTy_tm : fTy (tm d w t c x i) = t := by
  simp only [fTy, tm]
  rw [extract_right _ _ _ _ (by decide), extract_right _ _ _ _ (by decide), extract_left _ _ _ _ (by decide)]; simp
@[simp] theorem fCp_tm : fCp (tm d w t c x i) = c := by
  simp only [fCp, tm]
  rw [extract_right _ _ _ _ (by decide), extract_right _ _ _ _ (by decide), extract_right _ _ _ _ (by decide),
    extract_left _ _ _ _ (by decide)]
  simp
@[simp] theorem fX_tm : fX (tm d w t c x i) = x := by
  simp only [fX, tm]
  rw [extract_right _ _ _ _ (by decide), extract_right _ _ _ _ (by decide), extract_right _ _ _ _ (by decide),
    extract_right _ _ _ _ (by decide), extract_left _ _ _ _ (by decide)]
  simp
@[simp] theorem fI7_tm : fI7 (tm d w t c x i) = i := by
  simp only [fI7, tm]
  rw [extract_right _ _ _ _ (by decide), extract_right _ _ _ _ (by decide), extract_right _ _ _ _ (by decide),
    extract_right _ _ _ _ (by decide), extract_right _ _ _ _ (by decide)]
  simp
end

section
variable (t a : BitVec 6) (w : BitVec 5) (y : BitVec 3) (n b : BitVec 2)
@[simp] theorem fD_te : fD (te t a w y n b) = t := by
  simp only [fD, te]; rw [extract_left _ _ _ _ (by decide)]; simp
@[simp] theorem fA_te : fA (te t a w y n b) = a := by
  simp only [fA, te]; rw [extract_right _ _ _ _ (by decide), extract_left _ _ _ _ (by decide)]; simp
@[simp] theorem fWb_te : fWb (te t a w y n b) = w := by
  simp only [fWb, te]
  rw [extract_right _ _ _ _ (by decide), extract_right _ _ _ _ (by decide), extract_left _ _ _ _ (by decide)]; simp
@[simp] theorem fYe_te : fYe (te t a w y n b) = y := by
  simp only [fYe, te]
  rw [extract_right _ _ _ _ (by decide), extract_right _ _ _ _ (by decide), extract_right _ _ _ _ (by decide),
    extract_left _ _ _ _ (by decide)]
  simp
@[simp] theorem fNe_te : fNe (te t a w y n b) = n := by
  simp only [fNe, te]
  rw [extract_right _ _ _ _ (by decide), extract_right _ _ _ _ (by decide), extract_right _ _ _ _ (by decide),
    extract_right _ _ _ _ (by decide), extract_left _ _ _ _ (by decide)]
  simp
@[simp] theorem fBs_te : fBs (te t a w y n b) = b := by
  simp only [fBs, te]
  rw [extract_right _ _ _ _ (by decide), extract_right _ _ _ _ (by decide), extract_right _ _ _ _ (by decide),
    extract_right _ _ _ _ (by decide), extract_right _ _ _ _ (by decide)]
  simp
end

/-! ### Readings of one field -/

@[simp] theorem ok_bind {ε α β : Type} (a : α) (f : α → Except ε β) : (Except.ok a >>= f) = f a := rfl
@[simp] theorem zero6_zero : zero6 0#6 = .ok () := rfl
theorem join12 (x : BitVec 12) : x.extractLsb' 6 6 ++ x.extractLsb' 0 6 = x := by
  rw [BitVec.extractLsb'_append_extractLsb'_eq_extractLsb' (by rfl)]; simp
@[simp] theorem pair6_append (n : BitVec 5) : pair6 (n ++ 0#1) = .ok n := by
  simp only [pair6]; rw [extract_right _ _ _ _ (by decide), extract_left _ _ _ _ (by decide)]; simp
@[simp] theorem hi3_append (p : BitVec 3) : hi3 (p ++ 0#3) = .ok p := by
  simp only [hi3]; rw [extract_right _ _ _ _ (by decide), extract_left _ _ _ _ (by decide)]; simp
@[simp] theorem even7_append (x : BitVec 6) : even7 (x ++ 0#1) = .ok x := by
  simp only [even7]; rw [extract_right _ _ _ _ (by decide), extract_left _ _ _ _ (by decide)]; simp
@[simp] theorem lo1_append (x : BitVec 1) : lo1 (0#5 ++ x) = .ok x := by
  simp only [lo1]; rw [extract_left _ _ _ _ (by decide), extract_right _ _ _ _ (by decide)]; simp
@[simp] theorem lo2_append (x : BitVec 2) : lo2 (0#4 ++ x) = .ok x := by
  simp only [lo2]; rw [extract_left _ _ _ _ (by decide), extract_right _ _ _ _ (by decide)]; simp
@[simp] theorem lo3_append (x : BitVec 3) : lo3 (0#3 ++ x) = .ok x := by
  simp only [lo3]; rw [extract_left _ _ _ _ (by decide), extract_right _ _ _ _ (by decide)]; simp
@[simp] theorem lo4_append (x : BitVec 4) : lo4 (0#2 ++ x) = .ok x := by
  simp only [lo4]; rw [extract_left _ _ _ _ (by decide), extract_right _ _ _ _ (by decide)]; simp
@[simp] theorem lo5_append (x : BitVec 5) : lo5 (0#1 ++ x) = .ok x := by
  simp only [lo5]; rw [extract_left _ _ _ _ (by decide), extract_right _ _ _ _ (by decide)]; simp
@[simp] theorem imm5_append (x : BitVec 5) : imm5 (0#7 ++ x) = .ok x := by
  simp only [imm5]; rw [extract_left _ _ _ _ (by decide), extract_right _ _ _ _ (by decide)]; simp
@[simp] theorem join3_append (x : BitVec 3) : join3 (1#3 ++ x) = .ok x := by
  simp only [join3]; rw [extract_left _ _ _ _ (by decide), extract_right _ _ _ _ (by decide)]; simp
@[simp] theorem join_bit0 (p : BitVec 3) : (0#3 ++ p).extractLsb' 3 1 = 0#1 := by
  rw [extract_left _ _ _ _ (by decide)]; rfl
@[simp] theorem join_bit1 (p : BitVec 3) : (1#3 ++ p).extractLsb' 3 1 = 1#1 := by
  rw [extract_left _ _ _ _ (by decide)]; rfl
theorem cvt_codes : ∀ s t : BitVec 3, s ≠ t → (s ++ t).toNat ≠ 0 ∧ (s ++ t).toNat ≠ 9 ∧ (s ++ t).toNat ≠ 18 ∧
    (s ++ t).toNat ≠ 27 ∧ (s ++ t).toNat ≠ 36 ∧ (s ++ t).toNat ≠ 45 ∧ (s ++ t).toNat ≠ 54 ∧ (s ++ t).toNat ≠ 63 := by
  decide
theorem cvt_src (s t : BitVec 3) : (s ++ t).extractLsb' 3 3 = s := by
  rw [extract_left _ _ _ _ (by decide)]; simp
theorem cvt_tgt (s t : BitVec 3) : (s ++ t).extractLsb' 0 3 = t := by
  rw [extract_right _ _ _ _ (by decide)]; simp
@[simp] theorem cvtFields_append (x y : BitVec 2) : cvtFields (x ++ y ++ 0#2) = .ok (x, y) := by
  simp only [cvtFields]
  rw [extract_right _ _ _ _ (by decide), extract_left _ _ _ _ (by decide), extract_left _ _ _ _ (by decide),
    extract_left _ _ _ _ (by decide), extract_right _ _ _ _ (by decide)]
  simp

end Sys2Proof
end

