-- ==== Sys2Proof/Laws/Group.lean ====
section
/-! SUPPORT. What running a group of one word does: its checks, its close and the places of its lanes (R77, R78, R152). -/

namespace Sys2Proof.Machine

/-! ### Lists -/

theorem mem_updL {α : Type} {p : α → Bool} {f : α → α} {l : List α} {x : α} :
    x ∈ updL p f l ↔ ∃ y ∈ l, (if p y then f y else y) = x := by
  simp [updL]

theorem length_updL {α : Type} (p : α → Bool) (f : α → α) (l : List α) : (updL p f l).length = l.length := by
  simp [updL]

/-! ### Places of lanes -/

theorem StandsAt.placeIn_new (es : List Entry) (pc : Word) (prio : BitVec 4) (mask : Word) (buf l : Nat)
    (h : mask.getLsbD l = true) : StandsAt (placeIn es pc prio mask buf) l pc prio buf := by
  have hm : mask ≠ 0 := by rintro rfl; simp at h
  unfold placeIn
  rw [if_neg hm]
  split
  · rename_i hany
    obtain ⟨e, he, hp⟩ := List.any_eq_true.1 hany
    refine ⟨_, mem_updL.2 ⟨e, he, rfl⟩, ?_⟩
    rw [if_pos hp]
    simp only [Bool.and_eq_true, decide_eq_true_eq] at hp
    refine ⟨by simp [h], hp.1.1.1, hp.1.1.2, ?_, rfl⟩
    show prio ≤ if e.prio < prio then prio else e.prio
    split
    · exact BitVec.le_refl prio
    · rename_i hlt; exact BitVec.not_lt.1 hlt
  · exact ⟨_, List.mem_append_right _ (List.mem_singleton.2 rfl), h, rfl, rfl, BitVec.le_refl prio, rfl⟩

theorem StandsAt.placeIn_keep {es : List Entry} {l : Nat} {pc : Word} {prio : BitVec 4} {buf : Nat}
    (hs : StandsAt es l pc prio buf) (pc' : Word) (prio' : BitVec 4) (mask : Word) (buf' : Nat) :
    StandsAt (placeIn es pc' prio' mask buf') l pc prio buf := by
  obtain ⟨e, he, hm, hpc, hb, hp, hst⟩ := hs
  unfold placeIn
  split
  · exact ⟨e, he, hm, hpc, hb, hp, hst⟩
  split
  · refine ⟨_, mem_updL.2 ⟨e, he, rfl⟩, ?_⟩
    split
    · refine ⟨by simp [hm], hpc, hb, ?_, rfl⟩
      show prio ≤ if e.prio < prio' then prio' else e.prio
      split
      · rename_i hlt; exact BitVec.le_trans hp (BitVec.le_of_lt hlt)
      · exact hp
    · exact ⟨hm, hpc, hb, hp, hst⟩
  · exact ⟨e, List.mem_append_left _ he, hm, hpc, hb, hp, hst⟩

theorem length_placeIn_le (es : List Entry) (pc : Word) (prio : BitVec 4) (mask : Word) (buf : Nat) :
    (placeIn es pc prio mask buf).length ≤ es.length + 1 := by
  unfold placeIn
  split
  · omega
  split
  · simp [length_updL]
  · simp

/-- The fold by which transferring lanes are placed. -/
def placeAll (es : List Entry) (ts : List Target) : List Entry :=
  ts.foldl (fun es t => placeIn es t.pc t.prio (laneBit t.lane) t.buf) es

theorem StandsAt.placeAll_keep {es : List Entry} {l : Nat} {pc : Word} {prio : BitVec 4} {buf : Nat} (ts : List Target)
    (hs : StandsAt es l pc prio buf) : StandsAt (placeAll es ts) l pc prio buf := by
  induction ts generalizing es with
  | nil => exact hs
  | cons t ts ih => exact ih (hs.placeIn_keep _ _ _ _)

theorem getLsbD_laneBit (l i : Nat) : (laneBit l).getLsbD i = (decide (i < 32) && decide (i = l)) := by
  simp [laneBit, BitVec.getLsbD_twoPow]
  by_cases h : l = i
  · subst h; simp
  · simp [h, Ne.symm h]

theorem StandsAt.placeAll_new (es : List Entry) (ts : List Target) {t : Target} (ht : t ∈ ts) (hl : t.lane < 32) :
    StandsAt (placeAll es ts) t.lane t.pc t.prio t.buf := by
  induction ts generalizing es with
  | nil => cases ht
  | cons u ts ih =>
    rcases List.mem_cons.1 ht with rfl | h
    · exact (StandsAt.placeIn_new es t.pc t.prio (laneBit t.lane) t.buf t.lane
        (by simp [getLsbD_laneBit, hl])).placeAll_keep ts
    · exact ih _ h

theorem length_placeAll_le (es : List Entry) (ts : List Target) : (placeAll es ts).length ≤ es.length + ts.length := by
  induction ts generalizing es with
  | nil => simp [placeAll]
  | cons t ts ih =>
    have := ih (placeIn es t.pc t.prio (laneBit t.lane) t.buf)
    have h1 := length_placeIn_le es t.pc t.prio (laneBit t.lane) t.buf
    simp only [placeAll, List.foldl_cons, List.length_cons] at *
    omega

theorem mem_insertTarget (x : Target) (l : List Target) (y : Target) : y ∈ insertTarget x l ↔ y = x ∨ y ∈ l := by
  induction l with
  | nil => simp [insertTarget]
  | cons z zs ih =>
    unfold insertTarget
    split
    · simp
    · simp only [List.mem_cons, ih]; tauto

theorem length_insertTarget (x : Target) (l : List Target) : (insertTarget x l).length = l.length + 1 := by
  induction l with
  | nil => rfl
  | cons z zs ih => unfold insertTarget; split <;> simp [ih]

theorem mem_sortTargets (l : List Target) (y : Target) : y ∈ l.foldr insertTarget [] ↔ y ∈ l := by
  induction l with
  | nil => simp
  | cons z zs ih => simp [mem_insertTarget, ih]

theorem length_sortTargets (l : List Target) : (l.foldr insertTarget []).length = l.length := by
  induction l with
  | nil => rfl
  | cons z zs ih => simp [length_insertTarget, ih]

theorem getLsbD_foldl_laneBit (ls : List Nat) (m : Word) (l : Nat) :
    (ls.foldl (fun m x => m ||| laneBit x) m).getLsbD l = (m.getLsbD l || (decide (l < 32) && decide (l ∈ ls))) := by
  induction ls generalizing m with
  | nil => simp
  | cons x xs ih =>
    simp only [List.foldl_cons, ih, BitVec.getLsbD_or, getLsbD_laneBit, List.mem_cons]
    by_cases h2 : l = x
    · subst h2; cases m.getLsbD l <;> cases decide (l < 32) <;> simp
    · simp [h2]

theorem getLsbD_maskOf (ls : List Nat) (l : Nat) : (maskOf ls).getLsbD l = (decide (l < 32) && decide (l ∈ ls)) := by
  simp [maskOf, getLsbD_foldl_laneBit]

/-- The frontier after a group whose lanes all stay: a lane that transfers stands at its target, another lane at the word
behind. -/
theorem frontierAfter_stands {c : Cur} {es : List Entry} {e : Entry} (hg : c.gone = 0) {x : Nat × Nat}
    (hx : x ∈ c.lanes) (hin : e.mask.getLsbD x.1 = true) :
    (∀ t ∈ c.transfers, t.lane = x.1 → StandsAt (frontierAfter c es e) x.1 t.pc t.prio t.buf) ∧
    ((∀ t ∈ c.transfers, t.lane ≠ x.1) →
      StandsAt (frontierAfter c es e) x.1 c.fall (c.newPrio.getD e.prio) e.buf) := by
  have h32 : x.1 < 32 := BitVec.lt_of_getLsbD hin
  constructor
  · intro t ht hl
    have := StandsAt.placeAll_new (placeIn es c.fall (c.newPrio.getD e.prio)
      (e.mask &&& maskOf (c.lanes.map (·.1)) &&& ~~~c.gone &&& ~~~maskOf (c.transfers.map (·.lane))) e.buf)
      (c.transfers.foldr insertTarget []) ((mem_sortTargets _ t).2 ht) (by omega)
    rw [hl] at this
    exact this
  · intro hno
    refine StandsAt.placeAll_keep (c.transfers.foldr insertTarget []) (StandsAt.placeIn_new es _ _ _ _ _ ?_)
    have h1 : x.1 ∈ c.lanes.map (·.1) := List.mem_map_of_mem hx
    have h2 : x.1 ∉ c.transfers.map (·.lane) := by
      intro hm
      obtain ⟨t, ht, he⟩ := List.mem_map.1 hm
      exact hno t ht he
    have h3 : (maskOf (c.lanes.map (·.1))).getLsbD x.1 = true := by
      rw [getLsbD_maskOf]; simp only [h32, h1, decide_true, Bool.and_self]
    have h4 : (maskOf (c.transfers.map (·.lane))).getLsbD x.1 = false := by
      rw [getLsbD_maskOf]; simp only [h2, decide_false, Bool.and_false]
    simp only [hg, BitVec.getLsbD_and, BitVec.getLsbD_not, hin, h3, h4, h32, decide_true, Bool.not_false,
      BitVec.ofNat_eq_ofNat, BitVec.getLsbD_zero, Bool.and_true]

theorem length_frontierAfter_le (c : Cur) (es : List Entry) (e : Entry) :
    (frontierAfter c es e).length ≤ es.length + 1 + c.transfers.length := by
  unfold frontierAfter
  have h1 := length_placeAll_le (placeIn es c.fall (c.newPrio.getD e.prio)
      (e.mask &&& maskOf (c.lanes.map (·.1)) &&& ~~~c.gone &&& ~~~maskOf (c.transfers.map (·.lane))) e.buf)
      (c.transfers.foldr insertTarget [])
  have h2 := length_placeIn_le es c.fall (c.newPrio.getD e.prio)
      (e.mask &&& maskOf (c.lanes.map (·.1)) &&& ~~~c.gone &&& ~~~maskOf (c.transfers.map (·.lane))) e.buf
  rw [length_sortTargets] at h1
  simp only [placeAll] at h1 ⊢
  omega

/-! ### Closing a group -/

theorem takeTraps_nil (s : State) (core slot : Nat) (e : Entry) (pc done : Word) :
    takeTraps s core slot e pc done [] = s := by
  unfold takeTraps
  split
  · rfl
  · simp [takePages, postOthers]

theorem splitWhile_few {s : State} {core slot : Nat} (n : Nat)
    (h : ∀ p, s.pour? core slot = some p → p.entries.length ≤ 8) : splitWhile s core slot n = s := by
  cases n with
  | zero => rfl
  | succ n =>
    unfold splitWhile
    split
    · rfl
    · rename_i p hp
      have := h p hp
      have hc := List.countP_le_length (p := fun e : Entry => e.split.isNone && !e.leaving s.time) (l := p.entries)
      rw [if_neg (by omega)]

theorem sameOps_refl (s : State) : SameOps s s := by
  unfold SameOps
  rw [List.forall₂_same]
  exact fun _ _ => rfl

theorem sameOps_restartLoops (s : State) (core slot : Nat) : SameOps s (restartLoops s core slot) := by
  unfold SameOps restartLoops
  simp only [updL]
  rw [List.forall₂_map_right_iff, List.forall₂_same]
  intro o _
  split <;> rfl

theorem find?_updL {α : Type} (p : α → Bool) (f : α → α) (hf : ∀ x, p x = true → p (f x) = true) (l : List α) :
    (updL p f l).find? p = (l.find? p).map f := by
  induction l with
  | nil => rfl
  | cons x xs ih =>
    by_cases h : p x = true
    · simp [updL, h, hf x h]
    · simp only [updL, List.map_cons, h, Bool.false_eq_true, if_false]
      rw [List.find?_cons_of_neg (by simp [h]), List.find?_cons_of_neg (by simp [h])]
      exact ih

theorem pour?_updPour (s : State) (core slot : Nat) (f : Pour → Pour)
    (hf : ∀ p : Pour, (f p).core = p.core ∧ (f p).slot = p.slot) :
    (s.updPour core slot f).pour? core slot = (s.pour? core slot).map f := by
  unfold State.pour? State.updPour
  refine find?_updL _ f (fun x hx => ?_) _
  simpa [(hf x).1, (hf x).2] using hx

theorem pour?_mem {s : State} {core slot : Nat} {p : Pour} (h : s.pour? core slot = some p) :
    p ∈ s.pours ∧ p.core = core ∧ p.slot = slot := by
  unfold State.pour? at h
  have h1 := List.mem_of_find?_eq_some h
  have h2 := List.find?_some h
  simp only [Bool.and_eq_true, decide_eq_true_eq] at h2
  exact ⟨h1, h2.1, h2.2⟩

theorem curEntry_mem {s : State} {p : Pour} {e : Entry} (hp : s.curPour? = some p) (he : s.curEntry? = some e) :
    p.entries[s.entIdx p]? = some e := by
  simpa [State.curEntry?, hp] using he

/-- The frontier that a group leaves behind. -/
def newFrontier (s : State) (p : Pour) (e : Entry) : List Entry :=
  frontierAfter s.cur (p.entries.eraseIdx (s.entIdx p)) e

theorem length_newFrontier_le {s : State} {p : Pour} {e : Entry} (hp : s.curPour? = some p)
    (he : s.curEntry? = some e) : (newFrontier s p e).length ≤ p.entries.length + s.cur.transfers.length := by
  have h1 := length_frontierAfter_le s.cur (p.entries.eraseIdx (s.entIdx p)) e
  have hlt : s.entIdx p < p.entries.length := (List.getElem?_eq_some_iff.1 (curEntry_mem hp he)).1
  rw [List.length_eraseIdx_of_lt hlt] at h1
  unfold newFrontier
  omega

/-- A group without traps and ends of segments whose frontier has room closes: threads and memory stay, the pour gets
its new frontier, other pours stay. -/
theorem closeGroup_plain {s : State} {p : Pour} {e : Entry} (hp : s.curPour? = some p) (he : s.curEntry? = some e)
    (hends : s.cur.ends = []) (htr : s.cur.traps = []) (hlen : (newFrontier s p e).length ≤ 8)
    (hne : newFrontier s p e ≠ []) :
    OnlyThreads { s with cur := (closeGroup s).cur } (closeGroup s) ∧ (closeGroup s).threads = s.threads ∧
    (closeGroup s).cur = { s.cur.closed with acted := s.threads.countP s.isActive } ∧
    (∀ q : Pour, ¬(q.core = p.core ∧ q.slot = p.slot) → (q ∈ (closeGroup s).pours ↔ q ∈ s.pours)) ∧
    ∃ q ∈ (closeGroup s).pours, q.core = p.core ∧ q.slot = p.slot ∧ q.part = p.part ∧ q.launch = p.launch ∧
      q.k = p.k ∧ q.entries = newFrontier s p e := by
  obtain ⟨hmem, hc, hsl⟩ := pour?_mem hp
  generalize hcl : closeGroup s = t
  unfold closeGroup at hcl
  simp only [hp, he, hends, htr, List.foldl_nil, takeTraps_nil] at hcl
  set f : Pour → Pour := fun q =>
    { q with entries := frontierAfter s.cur (p.entries.eraseIdx (s.entIdx p)) e,
             ready := s.time + 1 + (if (!s.cur.lanes.isEmpty) = true then s.cur.stall else 0), last := s.time,
             readySince := none, promoted := false } with hf
  set u := s.updPour s.cur.core s.cur.slot f with hu
  have hup : u.pour? s.cur.core s.cur.slot = some (f p) := by
    rw [hu, pour?_updPour s _ _ f (fun q => ⟨rfl, rfl⟩)]
    exact congrArg (Option.map f) hp
  generalize hw : dropTrappedBlocks (if (!s.cur.lanes.isEmpty) = true then firstTry u p s.cur.core s.cur.slot else u) = w
    at hcl
  obtain ⟨g, hg, hwu, hso⟩ : ∃ g : Pour → Pour, (∀ q : Pour, g q = { q with refs := (g q).refs }) ∧
      w = { u with tileOps := w.tileOps, pours := (u.updPour s.cur.core s.cur.slot g).pours } ∧ SameOps u w := by
    have hd : ∀ v : State, v.cur = u.cur → dropTrappedBlocks v = v := fun v hv => by
      have : v.cur.traps = [] := by rw [hv]; exact htr
      unfold dropTrappedBlocks
      simp [this]
    rw [← hw]
    by_cases hi : (!s.cur.lanes.isEmpty) = true ∧ ¬p.refs.isEmpty = true
    · have hv : dropTrappedBlocks (firstTry u p s.cur.core s.cur.slot) = firstTry u p s.cur.core s.cur.slot :=
        hd _ (by unfold firstTry; split <;> rfl)
      rw [if_pos hi.1, hv, firstTry, if_neg hi.2]
      exact ⟨fun q => { q with refs := [] }, fun _ => rfl, rfl, sameOps_restartLoops _ _ _⟩
    · have he : (if (!s.cur.lanes.isEmpty) = true then firstTry u p s.cur.core s.cur.slot else u) = u := by
        split
        · rename_i h1
          rw [firstTry, if_pos (not_not.1 fun h2 => hi ⟨h1, h2⟩)]
        · rfl
      rw [he, hd u rfl]
      exact ⟨id, fun _ => rfl, by simp [State.updPour, updL], sameOps_refl u⟩
  have hgp (q : Pour) : (g q).core = q.core ∧ (g q).slot = q.slot := by rw [hg q]; exact ⟨rfl, rfl⟩
  have hwp : w.pour? s.cur.core s.cur.slot = some (g (f p)) := by
    have h1 : w.pour? s.cur.core s.cur.slot = (u.updPour s.cur.core s.cur.slot g).pour? s.cur.core s.cur.slot := by
      rw [hwu]; rfl
    rw [h1, pour?_updPour _ _ _ g hgp, hup]; rfl
  have hge (q : Pour) : (g q).entries = q.entries := by rw [hg q]
  rw [splitWhile_few 33 (fun q hq => by
    rw [hwp] at hq; cases hq; rw [hge]; exact hlen)] at hcl
  have hpours : t.pours = (u.updPour s.cur.core s.cur.slot g).pours.filter fun q =>
      !(q.core = s.cur.core && q.slot = s.cur.slot && q.entries.isEmpty) := by
    rw [← hcl, hwu]; rfl
  have hnonempty : ∀ q : Pour, (f q).entries ≠ [] := fun q => hne
  refine ⟨⟨?_, ?_⟩, ?_, ?_, ?_, ?_⟩
  · rw [← hcl, hwu]; rfl
  · rw [← hcl]; exact hso
  · rw [← hcl, hwu]; rfl
  · rw [← hcl, hwu]; rfl
  · intro q hq
    rw [hpours, List.mem_filter, hu]
    simp only [State.updPour, mem_updL]
    rw [hc, hsl] at hq
    have hn : ¬((decide (q.core = s.cur.core) && decide (q.slot = s.cur.slot)) = true) := by simpa using hq
    constructor
    · rintro ⟨⟨r', ⟨r, hr, rfl⟩, rfl⟩, -⟩
      by_cases hrn : (decide (r.core = s.cur.core) && decide (r.slot = s.cur.slot)) = true
      · have hf' : (decide ((f r).core = s.cur.core) && decide ((f r).slot = s.cur.slot)) = true := hrn
        rw [if_pos hrn, if_pos hf', (hgp (f r)).1, (hgp (f r)).2] at hn
        exact absurd hf' hn
      · rw [if_neg hrn, if_neg hrn]; exact hr
    · intro hqs
      refine ⟨⟨q, ⟨q, hqs, if_neg hn⟩, if_neg hn⟩, ?_⟩
      simp only [Bool.not_eq_true] at hn
      simp [hn]
  · have hin : (decide (p.core = s.cur.core) && decide (p.slot = s.cur.slot)) = true := by simp [hc, hsl]
    refine ⟨g (f p), ?_, (hgp _).1, (hgp _).2, by rw [hg], by rw [hg], by rw [hg], hge _⟩
    rw [hpours, List.mem_filter]
    refine ⟨mem_updL.2 ⟨f p, mem_updL.2 ⟨p, hmem, if_pos hin⟩, if_pos hin⟩, ?_⟩
    have : (g (f p)).entries.isEmpty = false := by
      rw [hge]; simpa [List.isEmpty_eq_false_iff] using hnonempty p
    simp [this]

/-! ### Running a word -/

/-- The check of a word finds no trap for a lane of the group. -/
def NoTrap (sem : Sem) (s : State) : Prop :=
  ∀ x ∈ s.cur.lanes, ∀ t, s.thread? x.2 = some t → sem.chk s x.1 (s.before t) = none

theorem dropTrapped_noteWord {sem : Sem} {s : State} (hn : NoTrap sem s) (ht : s.cur.traps = []) :
    dropTrapped (noteWord sem s) = s := by
  have h1 : (s.cur.lanes.filterMap fun x =>
      if (s.cur.traps.any fun k => k.lane = x.1) = true then none
      else (s.thread? x.2).bind fun t => sem.chk s x.1 (s.before t)) = [] := by
    rw [List.filterMap_eq_nil_iff]
    intro x hx
    rw [ht]
    cases hu : s.thread? x.2 with
    | none => rfl
    | some t => exact hn x hx t hu
  have h2 : noteWord sem s = s := by
    unfold noteWord
    simp only [h1, State.updCur, List.append_nil]
  have h3 : s.cur.lanes.filter (fun x => !(s.cur.traps.any fun k => k.lane = x.1)) = s.cur.lanes := by
    rw [ht]; simp
  rw [h2]
  show { s with cur := { s.cur with lanes := _ } } = s
  rw [h3]

theorem runWord_alone {s : State} {p : Pour} {e : Entry} (ho : OneWord s p e) (h : Hdr) (sem : Sem)
    (hn : NoTrap sem s) (hw : sem.wait (sem.pre s) = none) (hpre : sem.pre s = s) :
    runWord h sem s = closeGroup (sem.eff (keepStall h s)) := by
  have hl : s.cur.lanes.isEmpty = false := by simpa [List.isEmpty_eq_false_iff] using ho.lanes
  unfold runWord
  rw [ho.phase]
  simp only [dropTrapped_noteWord hn ho.traps, hl, hw]
  rw [hpre]
  rfl

theorem runWord_apply {s : State} (ha : s.cur.phase = .apply) (h : Hdr) (sem : Sem) :
    runWord h sem s = sem.eff (keepStall h s) := by
  unfold runWord; rw [ha]

/-- `t` is `u` but for the issue context, pours and loops that go on. -/
abbrev Closes (u t : State) : Prop := After u t

theorem Closes.refl (u : State) : Closes u u := ⟨rfl, sameOps_refl u⟩

/-- A straight-line word completes: its pour goes on behind the word, and what holds of every state that its effect
closes to holds of the next state. -/
theorem completes_of {i : Instr} {s : State} {p : Pour} {e : Entry} (hr : Runs s p e) (h : Hdr) (sem : Sem)
    (hi : exec i s = .next (runWord h sem s)) (hn : NoTrap sem s) (hpre : sem.pre s = s) (hw : sem.wait s = none)
    (hp : (sem.eff (keepStall h s)).pours = s.pours) (hc : (sem.eff (keepStall h s)).cur = (keepStall h s).cur)
    {P : State → Prop} (hP : ∀ t, Closes (sem.eff (keepStall h s)) t → P t) : Completes i s p e P := by
  rcases hr with ho | ha
  · rw [runWord_alone ho h sem hn (by rw [hpre]; exact hw) hpre] at hi
    generalize hu : sem.eff (keepStall h s) = u at *
    have h1 : u.curPour? = some p := by
      have := ho.pour
      simp only [State.curPour?, State.pour?, hp, hc] at this ⊢
      exact this
    have h2 : u.curEntry? = some e := by
      have := ho.entry
      simp only [State.curEntry?, State.curPour?, State.pour?, State.entIdx, hp, hc] at this ⊢
      exact this
    have hcc : u.cur = { s.cur with stall := max s.cur.stall h.s.toNat } := hc
    have htr : u.cur.transfers = [] := by rw [hcc]; exact ho.transfers
    have hst : ∀ x ∈ s.cur.lanes, StandsAt (newFrontier u p e) x.1 s.cur.fall e.prio e.buf := by
      intro x hx
      have := (frontierAfter_stands (c := u.cur) (es := p.entries.eraseIdx (u.entIdx p)) (e := e) (x := x)
        (by rw [hcc]; exact ho.gone) (by rw [hcc]; exact hx) (ho.inside x hx)).2 (by rw [htr]; simp)
      rw [hcc] at this
      have hpr : s.cur.newPrio.getD e.prio = e.prio := by rw [ho.prio]; rfl
      rw [← hpr]
      unfold newFrontier
      rw [hcc]
      exact this
    have hlen : (newFrontier u p e).length ≤ 8 := by
      have := length_newFrontier_le h1 h2
      rw [htr] at this
      simp only [List.length_nil] at this
      exact Nat.le_trans this (by have := ho.few; omega)
    have hne : newFrontier u p e ≠ [] := by
      obtain ⟨x, hx⟩ := List.exists_mem_of_ne_nil _ ho.lanes
      obtain ⟨e', he', -⟩ := hst x hx
      exact List.ne_nil_of_mem he'
    obtain ⟨hO, hthr, -, hoth, q, hq, hqc, hqs, hqp, hql, hqk, hqe⟩ :=
      closeGroup_plain h1 h2 (by rw [hcc]; exact ho.ends) (by rw [hcc]; exact ho.traps) hlen hne
    refine ⟨_, hi, fun _ => ⟨?_, q, hq, hqc, hqs, hqp, hql, hqk, fun x hx => ?_⟩, hP _ ⟨?_, ?_⟩⟩
    · intro q hq; rw [← hp]; exact hoth q hq
    · rw [hqe]; exact hst x hx
    · have := hO.1
      rw [this]; simp only [hthr]
    · exact hO.2
  · rw [runWord_apply ha h sem] at hi
    exact ⟨_, hi, fun (h' : s.cur.phase = .alone) => (by rw [ha] at h'; cases h'), hP _ (Closes.refl _)⟩

/-- What the effect `u` of a word in a group of one leaves to the close: the pour with mask registers `k`, the lanes with
places `go`. -/
structure Leaves (s u : State) (p : Pour) (e : Entry) (k : Vector Word 12) (go : Nat × Nat → Word × BitVec 4) : Prop where
  pour : u.curPour? = some { p with k := k }
  entry : u.curEntry? = some e
  others : ∀ q : Pour, ¬(q.core = p.core ∧ q.slot = p.slot) → (q ∈ u.pours ↔ q ∈ s.pours)
  ends : u.cur.ends = []
  traps : u.cur.traps = []
  room : (newFrontier u { p with k := k } e).length ≤ 8
  places : ∀ x ∈ s.cur.lanes, StandsAt (newFrontier u { p with k := k } e) x.1 (go x).1 (go x).2 e.buf

/-- A word that says itself where its lanes go on completes. -/
theorem completesAt_of {i : Instr} {s : State} {p : Pour} {e : Entry} {k : Vector Word 12}
    {go : Nat × Nat → Word × BitVec 4} (hr : Runs s p e) (h : Hdr) (sem : Sem) (hi : exec i s = .next (runWord h sem s))
    (hn : NoTrap sem s) (hpre : sem.pre s = s) (hw : sem.wait s = none)
    (hl : OneWord s p e → Leaves s (sem.eff (keepStall h s)) p e k go) :
    ∃ t, exec i s = .next t ∧ (s.cur.phase = .alone → Moves s t p k e.buf go) ∧ Closes (sem.eff (keepStall h s)) t ∧
      (s.cur.phase = .apply → t = sem.eff (keepStall h s)) := by
  rcases hr with ho | ha
  · rw [runWord_alone ho h sem hn (by rw [hpre]; exact hw) hpre] at hi
    have hl := hl ho
    generalize hu : sem.eff (keepStall h s) = u at *
    have hne : newFrontier u { p with k := k } e ≠ [] := by
      obtain ⟨x, hx⟩ := List.exists_mem_of_ne_nil _ ho.lanes
      obtain ⟨e', he', -⟩ := hl.places x hx
      exact List.ne_nil_of_mem he'
    obtain ⟨hO, hthr, -, hoth, q, hq, hqc, hqs, hqp, hql, hqk, hqe⟩ :=
      closeGroup_plain hl.pour hl.entry hl.ends hl.traps hl.room hne
    refine ⟨_, hi, fun _ => ⟨fun q hq => ?_, q, hq, hqc, hqs, hqp, hql, hqk, fun x hx => ?_⟩, ⟨?_, ?_⟩, fun hap => ?_⟩
    · rw [← hl.others q hq]; exact hoth q hq
    · rw [hqe]; exact hl.places x hx
    · have := hO.1
      rw [this]; simp only [hthr]
    · exact hO.2
    · rw [ho.phase] at hap; cases hap
  · rw [runWord_apply ha h sem] at hi
    exact ⟨_, hi, fun h' => (by rw [ha] at h'; cases h'), Closes.refl _, fun _ => rfl⟩

theorem length_updL_placeIn {es : List Entry} {pc : Word} {prio : BitVec 4} {mask : Word} {buf : Nat}
    (h : ∃ e ∈ es, e.pc = pc ∧ e.buf = buf ∧ e.split = none ∧ e.holds = false) : (placeIn es pc prio mask buf).length = es.length := by
  obtain ⟨e, he, h1, h2, h3, h4⟩ := h
  unfold placeIn
  split
  · rfl
  · have : es.any (fun e => decide (e.pc = pc) && decide (e.buf = buf) && e.split.isNone && !e.holds) = true :=
      List.any_eq_true.2 ⟨e, he, by simp [h1, h2, h3, h4]⟩
    rw [if_pos this, length_updL]

/-- What is at a place stays there as more lanes are placed. -/
theorem placed_keep {es : List Entry} {pc : Word} {buf : Nat} (h : ∃ e ∈ es, e.pc = pc ∧ e.buf = buf ∧ e.split = none ∧ e.holds = false)
    (pc' : Word) (prio' : BitVec 4) (mask : Word) (buf' : Nat) :
    ∃ e ∈ placeIn es pc' prio' mask buf', e.pc = pc ∧ e.buf = buf ∧ e.split = none ∧ e.holds = false := by
  obtain ⟨e, he, h1, h2, h3, h4⟩ := h
  unfold placeIn
  split
  · exact ⟨e, he, h1, h2, h3, h4⟩
  split
  · refine ⟨_, mem_updL.2 ⟨e, he, rfl⟩, ?_⟩
    split
    · exact ⟨h1, h2, h3, rfl⟩
    · exact ⟨h1, h2, h3, h4⟩
  · exact ⟨e, List.mem_append_left _ he, h1, h2, h3, h4⟩

theorem placed_new (es : List Entry) (pc : Word) (prio : BitVec 4) {mask : Word} (hm : mask ≠ 0) (buf : Nat) :
    ∃ e ∈ placeIn es pc prio mask buf, e.pc = pc ∧ e.buf = buf ∧ e.split = none ∧ e.holds = false := by
  unfold placeIn
  rw [if_neg hm]
  split
  · rename_i hany
    obtain ⟨e, he, hp⟩ := List.any_eq_true.1 hany
    refine ⟨_, mem_updL.2 ⟨e, he, rfl⟩, ?_⟩
    rw [if_pos hp]
    simp only [Bool.and_eq_true, decide_eq_true_eq, Option.isNone_iff_eq_none] at hp
    exact ⟨hp.1.1.1, hp.1.1.2, hp.1.2, rfl⟩
  · exact ⟨_, List.mem_append_right _ (List.mem_singleton.2 rfl), rfl, rfl, rfl, rfl⟩

/-- Places of one code buffer: no more entries than there are places. -/
theorem length_placeAll_dedup (ts : List Target) (buf : Nat) (hb : ∀ t ∈ ts, t.buf = buf) (es : List Entry) (pcs : List Word)
    (hp : ∀ pc ∈ pcs, ∃ e ∈ es, e.pc = pc ∧ e.buf = buf ∧ e.split = none ∧ e.holds = false) :
    (placeAll es ts).length + pcs.dedup.length ≤ es.length + (pcs ++ ts.map (·.pc)).dedup.length := by
  induction ts generalizing es pcs with
  | nil => simp [placeAll]
  | cons t ts ih =>
    have hb' : ∀ u ∈ ts, u.buf = buf := fun u hu => hb u (List.mem_cons_of_mem _ hu)
    have htb := hb t List.mem_cons_self
    have hsame : ∀ l : List Word, (pcs ++ t.pc :: l).dedup.length = ((t.pc :: pcs) ++ l).dedup.length := fun l =>
      (List.perm_middle.dedup).length_eq
    have key := ih hb' (placeIn es t.pc t.prio (laneBit t.lane) t.buf)
    show (placeAll (placeIn es t.pc t.prio (laneBit t.lane) t.buf) ts).length + _ ≤ _
    rw [List.map_cons, hsame]
    by_cases hz : laneBit t.lane = 0
    · have h0 : placeIn es t.pc t.prio (laneBit t.lane) t.buf = es := by unfold placeIn; rw [if_pos hz]
      have h1 := ih hb' es pcs hp
      rw [h0]
      refine Nat.le_trans h1 (Nat.add_le_add_left ?_ _)
      exact ((List.sublist_cons_self t.pc (pcs ++ ts.map (·.pc))).subset |> fun hs =>
        (List.subperm_of_subset (List.nodup_dedup _) fun x hx => List.mem_dedup.2 (hs (List.mem_dedup.1 hx))).length_le)
    · have hin : ∀ pc ∈ t.pc :: pcs, ∃ e ∈ placeIn es t.pc t.prio (laneBit t.lane) t.buf, e.pc = pc ∧ e.buf = buf ∧ e.split = none ∧ e.holds = false := by
        intro pc hpc
        rcases List.mem_cons.1 hpc with rfl | hpc
        · rw [← htb]; exact placed_new es _ _ hz _
        · exact placed_keep (hp pc hpc) _ _ _ _
      have h1 := key (t.pc :: pcs) hin
      by_cases hm : t.pc ∈ pcs
      · have hl : (placeIn es t.pc t.prio (laneBit t.lane) t.buf).length = es.length :=
          length_updL_placeIn (by rw [htb]; exact hp _ hm)
        rw [List.dedup_cons_of_mem hm] at h1
        omega
      · have hl := length_placeIn_le es t.pc t.prio (laneBit t.lane) t.buf
        rw [List.dedup_cons_of_notMem hm, List.length_cons] at h1
        omega

end Sys2Proof.Machine
end

