-- ==== Sys2Proof/Laws/Memory.lean ====
section
/-! SUPPORT. What the operations on memory do: a byte written reads back, every other byte stays, and the canonical form
is kept. -/

namespace Sys2Proof.Machine

@[simp] theorem memRead_nil (a : Nat) : memRead [] a = 0 := rfl
theorem memRead_cons (k : Nat) (v : Byte) (r : List Host.Cell) (a : Nat) :
    memRead ((k, v) :: r) a = if k = a then v else memRead r a := rfl

/-- Below the first listed address nothing is listed. -/
theorem memRead_below : ∀ (m : List Host.Cell) (a : Nat), memWf m = true → (∀ c ∈ m.head?, a < c.1) → memRead m a = 0
  | [], _, _, _ => rfl
  | [(k, v)], a, _, h => by
    have : a < k := h (k, v) rfl
    simp [memRead_cons, Nat.ne_of_gt this]
  | (k, v) :: (k', v') :: r, a, w, h => by
    have hk : a < k := h (k, v) rfl
    simp only [memWf, Bool.and_eq_true, decide_eq_true_eq] at w
    rw [memRead_cons, if_neg (Nat.ne_of_gt hk)]
    exact memRead_below _ a w.2 (by rintro c ⟨⟩; exact Nat.lt_trans hk w.1.2)

/-- The canonical form of a list with a first cell. -/
theorem memWf_cons (k : Nat) (v : Byte) (r : List Host.Cell) :
    memWf ((k, v) :: r) = true ↔ v ≠ 0 ∧ (∀ c ∈ r.head?, k < c.1) ∧ memWf r = true := by
  cases r with
  | nil => simp [memWf]
  | cons c r => obtain ⟨k', v'⟩ := c; simp [memWf, and_assoc]

/-- The first address after a write. -/
theorem head_memWrite (m : List Host.Cell) (a : Nat) (b : Byte) (n : Nat) (w : memWf m = true) (ha : n < a)
    (hm : ∀ c ∈ m.head?, n < c.1) : ∀ c ∈ (memWrite m a b).head?, n < c.1 := by
  cases m with
  | nil => unfold memWrite; split_ifs <;> simp [ha]
  | cons c r =>
    obtain ⟨k, v⟩ := c
    have hk : n < k := hm (k, v) rfl
    rw [memWf_cons] at w
    have hr : ∀ c ∈ r.head?, n < c.1 := fun c hc => Nat.lt_trans hk (w.2.1 c hc)
    unfold memWrite
    split_ifs <;> first | exact hr | (rintro c ⟨⟩; assumption)

/-- A write keeps the canonical form. -/
theorem memWf_memWrite : ∀ (m : List Host.Cell) (a : Nat) (b : Byte), memWf m = true → memWf (memWrite m a b) = true
  | [], a, b, _ => by unfold memWrite; split_ifs <;> simp_all [memWf]
  | (k, v) :: r, a, b, w => by
    have w' := (memWf_cons k v r).1 w
    unfold memWrite
    split_ifs with h1 h2 h3 h4
    · exact w
    · exact (memWf_cons _ _ _).2 ⟨h2, by rintro c ⟨⟩; exact h1, w⟩
    · exact w'.2.2
    · subst h3; exact (memWf_cons _ _ _).2 ⟨h4, w'.2.1, w'.2.2⟩
    · exact (memWf_cons _ _ _).2 ⟨w'.1, head_memWrite r a b k w'.2.2 (by omega) w'.2.1, memWf_memWrite r a b w'.2.2⟩

/-- A byte written reads back. -/
theorem memRead_memWrite_same : ∀ (m : List Host.Cell) (a : Nat) (b : Byte), memWf m = true → memRead (memWrite m a b) a = b
  | [], a, b, _ => by unfold memWrite; split_ifs <;> simp_all [memRead_cons]
  | (k, v) :: r, a, b, w => by
    have w' := (memWf_cons k v r).1 w
    unfold memWrite
    split_ifs with h1 h2 h3 h4
    · rw [h2]; exact memRead_below _ a w (by rintro c ⟨⟩; exact h1)
    · simp [memRead_cons]
    · rw [h4, h3]; exact memRead_below r k w'.2.2 w'.2.1
    · simp [memRead_cons]
    · rw [memRead_cons, if_neg (Ne.symm h3)]; exact memRead_memWrite_same r a b w'.2.2

/-- Every other byte stays. -/
theorem memRead_memWrite_other : ∀ (m : List Host.Cell) (a : Nat) (b : Byte) (x : Nat), x ≠ a →
    memRead (memWrite m a b) x = memRead m x
  | [], a, b, x, h => by unfold memWrite; split_ifs <;> simp [memRead_cons, Ne.symm h]
  | (k, v) :: r, a, b, x, h => by
    unfold memWrite
    split_ifs with h1 h2 h3 h4
    · rfl
    · rw [memRead_cons, if_neg (Ne.symm h)]
    · rw [memRead_cons, if_neg (by omega)]
    · rw [memRead_cons, if_neg (Ne.symm h), memRead_cons, if_neg (by omega)]
    · rw [memRead_cons, memRead_cons, memRead_memWrite_other r a b x h]

/-- A write of bytes keeps the canonical form. -/
theorem memWf_memWriteBytes : ∀ (bs : List Byte) (m : List Host.Cell) (a : Nat), memWf m = true →
    memWf (memWriteBytes m a bs) = true
  | [], _, _, w => w
  | b :: bs, m, a, w => memWf_memWriteBytes bs _ _ (memWf_memWrite m a b w)

/-- Bytes outside the range written stay. -/
theorem memRead_memWriteBytes_other : ∀ (bs : List Byte) (m : List Host.Cell) (a x : Nat), ¬(a ≤ x ∧ x < a + bs.length) →
    memRead (memWriteBytes m a bs) x = memRead m x
  | [], _, _, _, _ => rfl
  | b :: bs, m, a, x, h => by
    simp only [List.length_cons] at h
    rw [memWriteBytes, memRead_memWriteBytes_other bs _ _ x (by omega), memRead_memWrite_other m a b x (by omega)]

/-- The bytes written read back. -/
theorem memRead_memWriteBytes : ∀ (bs : List Byte) (m : List Host.Cell) (a i : Nat) (h : i < bs.length), memWf m = true →
    memRead (memWriteBytes m a bs) (a + i) = bs[i]
  | b :: bs, m, a, 0, _, w => by
    rw [memWriteBytes, memRead_memWriteBytes_other bs _ _ _ (by omega)]; exact memRead_memWrite_same m a b w
  | b :: bs, m, a, i + 1, h, w => by
    have h' : i < bs.length := by simpa using h
    have := memRead_memWriteBytes bs (memWrite m a b) (a + 1) i h' (memWf_memWrite m a b w)
    rw [memWriteBytes, show a + (i + 1) = a + 1 + i from by omega, this]; rfl

/-- Cells taken out of a list in canonical form leave one. -/
theorem memWf_filter (p : Host.Cell → Bool) : ∀ (m : List Host.Cell), memWf m = true →
    memWf (m.filter p) = true ∧ ∀ n, (∀ c ∈ m.head?, n < c.1) → ∀ c ∈ (m.filter p).head?, n < c.1
  | [], _ => ⟨rfl, fun _ h => h⟩
  | (k, v) :: r, w => by
    have w' := (memWf_cons k v r).1 w
    have ih := memWf_filter p r w'.2.2
    by_cases hp : p (k, v) = true
    · rw [List.filter_cons_of_pos hp]
      exact ⟨(memWf_cons _ _ _).2 ⟨w'.1, ih.2 k w'.2.1, ih.1⟩, fun n h => by rintro c ⟨⟩; exact h (k, v) rfl⟩
    · rw [List.filter_cons_of_neg hp]
      exact ⟨ih.1, fun n h => ih.2 n fun c hc => Nat.lt_trans (h (k, v) rfl) (w'.2.1 c hc)⟩

/-- Clearing a range keeps the canonical form. -/
theorem memWf_memClear (m : List Host.Cell) (lo hi : Nat) (w : memWf m = true) : memWf (memClear m lo hi) = true :=
  (memWf_filter _ m w).1

/-- The bytes of a value, one by one. -/
theorem leBytes_get : ∀ (n x i : Nat) (h : i < (leBytes n x).length), ((leBytes n x)[i]).toNat = x / 256 ^ i % 256
  | n + 1, x, 0, _ => by simp [leBytes]
  | n + 1, x, i + 1, h => by
    have h' : i < (leBytes n (x / 256)).length := by simpa [leBytes] using h
    have := leBytes_get n (x / 256) i h'
    simp only [leBytes, List.getElem_cons_succ]
    rw [this, Nat.div_div_eq_div_mul, Nat.pow_succ, Nat.mul_comm]

@[simp] theorem length_leBytes : ∀ n x, (leBytes n x).length = n
  | 0, _ => rfl
  | n + 1, x => by simp [leBytes, length_leBytes n]

end Sys2Proof.Machine
end

