-- ==== Sys2Proof/Laws/Round.lean ====
section
/-! SUPPORT. Rounding of an exact value to an integer and to a floating-point format (R114, R121, R124): the functions of
Machine/Num.lean meet the relations of Safety.lean. -/

namespace Sys2Proof.Machine
open Sys2Proof

/-- The formats of the machine. -/
abbrev Fmt.Ok (f : Fmt) : Prop := 1 ≤ f.fb ∧ 2 ≤ f.eb

theorem Fmt.mag_of (f : Fmt) (be fr : Nat) (hb : be < 2 ^ f.eb) (hf : fr < 2 ^ f.fb) :
    f.mag (be * 2 ^ f.fb + fr) =
      if be = 0 then (fr : ℚ) * 2 ^ (1 - f.bias - f.fb) else (2 ^ f.fb + fr : Nat) * 2 ^ ((be : Int) - f.bias - f.fb) := by
  have h1 : (be * 2 ^ f.fb + fr) / 2 ^ f.fb = be := by
    rw [Nat.mul_comm, Nat.mul_add_div (Nat.two_pow_pos _), Nat.div_eq_of_lt hf, Nat.add_zero]
  have h2 : (be * 2 ^ f.fb + fr) % 2 ^ f.fb = fr := by
    rw [Nat.mul_comm, Nat.mul_add_mod, Nat.mod_eq_of_lt hf]
  rw [Fmt.mag, h1, h2, Nat.mod_eq_of_lt hb]

/-- The spacing of the patterns behind `r`. -/
def Fmt.gap (f : Fmt) (r : Nat) : ℚ := 2 ^ (((max (r / 2 ^ f.fb) 1 : Nat) : Int) - f.bias - f.fb)

theorem Fmt.gap_pos (f : Fmt) (r : Nat) : 0 < f.gap r := by unfold Fmt.gap; positivity

theorem Fmt.mag_succ (f : Fmt) (r : Nat) (h : r < f.infBits) : f.mag (r + 1) = f.mag r + f.gap r := by
  have hp : 0 < 2 ^ f.fb := Nat.two_pow_pos _
  have hb : r / 2 ^ f.fb < 2 ^ f.eb - 1 := Nat.div_lt_of_lt_mul (by rw [Nat.mul_comm]; exact h)
  have hm := Nat.mod_lt r hp
  have hr : r = r / 2 ^ f.fb * 2 ^ f.fb + r % 2 ^ f.fb := by rw [Nat.mul_comm]; exact (Nat.div_add_mod r _).symm
  have hb2 : r / 2 ^ f.fb < 2 ^ f.eb := Nat.lt_of_lt_of_le hb (Nat.sub_le _ _)
  have e1 : f.mag r = _ := (congrArg f.mag hr).trans (f.mag_of _ _ hb2 hm)
  unfold Fmt.gap
  generalize r / 2 ^ f.fb = be at *
  generalize r % 2 ^ f.fb = fr at *
  rw [e1]
  by_cases hc : fr + 1 < 2 ^ f.fb
  · rw [hr, Nat.add_assoc, f.mag_of _ _ (by omega) hc]
    rcases Nat.eq_zero_or_pos be with rfl | hz
    · simp; ring
    · rw [if_neg (by omega), if_neg (by omega), Nat.max_eq_left hz]; push_cast; ring
  · have hfr : fr + 1 = 2 ^ f.fb := by omega
    rw [hr, Nat.add_assoc, hfr, ← Nat.succ_mul, ← Nat.add_zero (_ * _), f.mag_of _ _ (by omega) hp,
      if_neg (Nat.succ_ne_zero be)]
    have hq : ((2 : ℚ) ^ f.fb) = fr + 1 := by exact_mod_cast hfr.symm
    rcases Nat.eq_zero_or_pos be with rfl | hz
    · simp [hq]; ring
    · rw [if_neg (by omega), Nat.max_eq_left hz]
      have : ((be.succ : Nat) : Int) - f.bias - f.fb = ((be : Int) - f.bias - f.fb) + 1 := by push_cast; ring
      rw [this, zpow_add_one₀ (by norm_num)]
      push_cast
      rw [hq]; ring


/-! ### Rounding to an integer -/

theorem RoundsInt.exact {rm : Rm} {neg : Bool} {q : ℚ} {n : Nat} (h : q = n) : RoundsInt rm neg q n := by
  subst h
  unfold RoundsInt
  split
  · simp
  · split <;> exact ⟨by simp, by simp⟩

theorem RoundsInt.lt {rm : Rm} {neg : Bool} {q : ℚ} {n : Nat} (h : RoundsInt rm neg q n) : (n : ℚ) < q + 1 := by
  unfold RoundsInt at h
  split at h
  · have := (abs_le.1 (by linarith [h.1] : |q - n| ≤ 1 / 2)).1
    linarith
  · split at h <;> linarith [h.1, h.2]

/-- `roundShift` rounds as its mode says. -/
theorem roundShift_rounds (rm : Rm) (neg : Bool) (m k : Nat) :
    RoundsInt rm neg ((m : ℚ) / 2 ^ k) (roundShift rm neg m k) := by
  have hp : (0 : ℚ) < 2 ^ k := by positivity
  have hpn : 0 < 2 ^ k := Nat.two_pow_pos k
  have hr : m % 2 ^ k < 2 ^ k := Nat.mod_lt _ hpn
  have hq : (m : ℚ) / 2 ^ k = (m / 2 ^ k : Nat) + (m % 2 ^ k : Nat) / 2 ^ k := by
    have : (m : ℚ) = (2 ^ k : Nat) * (m / 2 ^ k : Nat) + (m % 2 ^ k : Nat) := by exact_mod_cast (Nat.div_add_mod m _).symm
    rw [div_eq_iff (ne_of_gt hp)]
    push_cast at this ⊢
    rw [add_mul, div_mul_cancel₀ _ (ne_of_gt hp)]
    linarith
  unfold roundShift
  rw [hq]
  generalize m / 2 ^ k = a at *
  generalize hb : m % 2 ^ k = b at *
  have hb0 : (0 : ℚ) ≤ b / 2 ^ k := by positivity
  have hb1 : (b : ℚ) / 2 ^ k < 1 := by rw [div_lt_one hp]; exact_mod_cast hr
  have key : ∀ c : Nat, ((c : ℚ) / 2 ^ k ≤ 1 / 2 ↔ 2 * c ≤ 2 ^ k) ∧ ((c : ℚ) / 2 ^ k = 1 / 2 ↔ 2 * c = 2 ^ k) ∧
      ((c : ℚ) / 2 ^ k = 0 ↔ c = 0) := fun c => by
    refine ⟨?_, ?_, ?_⟩
    · rw [div_le_div_iff₀ hp (by norm_num), ← Nat.cast_le (α := ℚ)]; push_cast; constructor <;> intro h <;> linarith
    · rw [div_eq_div_iff (ne_of_gt hp) (by norm_num), ← Nat.cast_inj (R := ℚ)]; push_cast; constructor <;> intro h <;> linarith
    · rw [div_eq_zero_iff]; simp
  obtain ⟨k1, k2, k3⟩ := key b
  generalize (b : ℚ) / 2 ^ k = x at *
  cases rm with
  | ne =>
    simp only [RoundsInt, if_true]
    by_cases hu : 2 ^ k < 2 * b
    · simp only [hu, decide_true, Bool.true_or, if_true]
      have hx : ¬x ≤ 1 / 2 := fun h => by have := k1.1 h; omega
      have : (a : ℚ) + x - (a + 1 : Nat) = -(1 - x) := by push_cast; ring
      rw [this, abs_neg, abs_of_pos (by linarith)]
      exact ⟨by linarith [not_le.1 hx], fun h => absurd (by linarith) hx⟩
    · have hx : x ≤ 1 / 2 := k1.2 (by omega)
      by_cases ht : 2 * b = 2 ^ k
      · have hx := k2.2 ht
        have hk : k ≠ 0 := by rintro rfl; simp at ht
        by_cases ho : a % 2 = 1
        · simp only [ht, hk, ho, lt_irrefl, decide_false, decide_true, Bool.false_or, Bool.true_and, ne_eq, not_false_iff, if_true]
          have : (a : ℚ) + x - (a + 1 : Nat) = -(1 / 2) := by rw [hx]; push_cast; ring
          rw [this]
          exact ⟨by norm_num, fun _ => by rw [Nat.add_mod, ho]⟩
        · simp only [ht, hk, ho, lt_irrefl, decide_false, decide_true, Bool.false_or, Bool.true_and, Bool.and_false, ne_eq,
            not_false_iff]
          have : (a : ℚ) + x - a = 1 / 2 := by rw [hx]; ring
          simp only [Bool.false_eq_true, if_false, this]
          exact ⟨by norm_num, fun _ => by omega⟩
      · simp only [hu, ht, decide_false, Bool.false_or, Bool.false_and, Bool.false_eq_true, if_false]
        have : (a : ℚ) + x - a = x := by ring
        rw [this, abs_of_nonneg hb0]
        exact ⟨by linarith, fun h => absurd (k2.1 (by linarith)) ht⟩
  | tz => simp [RoundsInt, Rm.away, hb0, hb1]
  | dn =>
    cases neg
    · simp [RoundsInt, Rm.away, hb0, hb1]
    · by_cases h0 : b = 0
      · simp [RoundsInt, Rm.away, h0, k3.2 h0]
      · have : 0 < x := lt_of_le_of_ne hb0 fun h => h0 (k3.1 h.symm)
        simp [RoundsInt, Rm.away, h0, this]; linarith
  | up =>
    cases neg
    · by_cases h0 : b = 0
      · simp [RoundsInt, Rm.away, h0, k3.2 h0]
      · have : 0 < x := lt_of_le_of_ne hb0 fun h => h0 (k3.1 h.symm)
        simp [RoundsInt, Rm.away, h0, this]; linarith
    · simp [RoundsInt, Rm.away, hb0, hb1]

theorem roundInt_rounds (rm : Rm) (neg : Bool) (m : Nat) (e : Int) :
    RoundsInt rm neg ((m : ℚ) * 2 ^ e) (roundInt rm neg m e) := by
  unfold roundInt
  split
  · refine RoundsInt.exact ?_
    obtain ⟨k, rfl⟩ := Int.eq_ofNat_of_zero_le ‹_›
    simp
  · obtain ⟨k, hk⟩ := Int.eq_ofNat_of_zero_le (show 0 ≤ -e by omega)
    have : (2 : ℚ) ^ e = ((2 : ℚ) ^ k)⁻¹ := by rw [← neg_neg e, hk]; simp
    rw [hk, this, ← div_eq_mul_inv]
    exact roundShift_rounds rm neg m k


/-! ### Rounding to a format -/

theorem Fmt.infBits_eq (f : Fmt) : f.infBits = (2 ^ f.eb - 1) * 2 ^ f.fb := rfl

theorem Fmt.mag_inf (f : Fmt) (h : f.Ok) : f.mag f.infBits = 2 ^ f.fb * 2 ^ ((2 ^ f.eb - 1 : Nat) - f.bias - f.fb : Int) := by
  have : 2 ^ 2 ≤ 2 ^ f.eb := Nat.pow_le_pow_right (by norm_num) h.2
  rw [f.infBits_eq, ← Nat.add_zero (_ * _), f.mag_of _ _ (by omega) (Nat.two_pow_pos _), if_neg (by omega)]
  push_cast; simp

/-- The pattern with exponent field `b` ≥ 1 and significand `n`, whose leading 1 may stand one place too high or, where
`b` = 1, lower. -/
def Fmt.place (f : Fmt) (b n : Nat) : Nat := (b - 1) * 2 ^ f.fb + n

theorem Fmt.place_facts (f : Fmt) (h : f.Ok) (b n : Nat) (hb : 1 ≤ b) (hb' : b < 2 ^ f.eb - 1) (hn : n ≤ 2 ^ (f.fb + 1))
    (hn' : b = 1 ∨ 2 ^ f.fb ≤ n) :
    let r := f.place b n
    let u : ℚ := 2 ^ ((b : Int) - f.bias - f.fb)
    r ≤ f.infBits ∧ f.mag r = n * u ∧ u ≤ f.gap r ∧ r % 2 = n % 2 ∧
      ∀ k, r = k + 1 → f.gap k ≤ u ∧ (f.gap k = u ∨ n = 2 ^ f.fb ∧ b ≠ 1) := by
  have hp : 0 < 2 ^ f.fb := Nat.two_pow_pos _
  obtain ⟨c, rfl⟩ := Nat.exists_eq_add_of_le' hb
  have h2 : 2 ^ (f.fb + 1) = 2 * 2 ^ f.fb := by ring
  have hu : ∀ x y : Int, x ≤ y → (2 : ℚ) ^ x ≤ 2 ^ y := fun x y hxy => zpow_le_zpow_right₀ (by norm_num) hxy
  have hpar : 2 ^ f.fb % 2 = 0 := by
    obtain ⟨k, hk⟩ := Nat.exists_eq_add_of_le' h.1
    rw [hk, pow_succ]; simp
  simp only [Fmt.place, Nat.add_sub_cancel]
  rw [h2] at hn
  refine ⟨?_, ?_, ?_, ?_, fun k hk => ?_⟩
  · rw [f.infBits_eq]
    calc c * 2 ^ f.fb + n ≤ c * 2 ^ f.fb + 2 * 2 ^ f.fb := by omega
      _ = (c + 2) * 2 ^ f.fb := by ring
      _ ≤ _ := Nat.mul_le_mul_right _ (by omega)
  · rcases Nat.lt_or_ge n (2 ^ f.fb) with h1 | h1
    · have : c = 0 := by omega
      subst this
      rw [f.mag_of _ _ (Nat.two_pow_pos _) h1, if_pos rfl]; norm_num
    · rcases Nat.lt_or_ge n (2 * 2 ^ f.fb) with h3 | h3
      · rw [show c * 2 ^ f.fb + n = (c + 1) * 2 ^ f.fb + (n - 2 ^ f.fb) by rw [Nat.succ_mul]; omega,
          f.mag_of _ _ (by omega) (by omega), if_neg (by omega), Nat.add_sub_cancel' h1]
      · have : n = 2 * 2 ^ f.fb := by omega
        subst this
        rw [show c * 2 ^ f.fb + 2 * 2 ^ f.fb = (c + 2) * 2 ^ f.fb + 0 by ring, f.mag_of _ _ (by omega) hp, if_neg (by omega),
          show ((c + 2 : Nat) : Int) - f.bias - f.fb = ((c + 1 : Nat) - f.bias - f.fb : Int) + 1 by push_cast; ring,
          zpow_add_one₀ (by norm_num)]
        push_cast; ring
  · refine hu _ _ ?_
    have : c + 1 ≤ max ((c * 2 ^ f.fb + n) / 2 ^ f.fb) 1 := by
      rcases Nat.lt_or_ge n (2 ^ f.fb) with h1 | h1
      · omega
      · refine le_max_of_le_left ((Nat.le_div_iff_mul_le hp).2 ?_)
        rw [Nat.succ_mul]; omega
    omega
  · rw [Nat.add_mod, Nat.mul_mod, hpar, Nat.mul_zero, Nat.zero_mod, Nat.zero_add, Nat.mod_mod]
  · have hd : k / 2 ^ f.fb ≤ c + 1 := by
      rw [← Nat.lt_succ_iff, Nat.div_lt_iff_lt_mul hp, Nat.succ_mul, Nat.succ_mul]
      omega
    refine ⟨hu _ _ (by omega), ?_⟩
    rcases Nat.lt_or_ge n (2 ^ f.fb) with h1 | h1
    · left
      have : k / 2 ^ f.fb = 0 := by
        rw [Nat.div_eq_of_lt]; have : c = 0 := by omega
        subst this; omega
      rw [Fmt.gap, this]; congr 1; omega
    · rcases Nat.eq_or_lt_of_le h1 with h3 | h3
      · rcases Nat.eq_zero_or_pos c with rfl | hc
        · left
          rw [Fmt.gap, Nat.div_eq_of_lt (by omega)]; rfl
        · exact .inr ⟨h3.symm, by omega⟩
      · left
        have : c + 1 ≤ k / 2 ^ f.fb := by rw [Nat.le_div_iff_mul_le hp, Nat.succ_mul]; omega
        rw [Fmt.gap, Nat.max_eq_left (by omega), Nat.le_antisymm hd this]

theorem Fmt.mag_lt_succ (f : Fmt) {r : Nat} (h : r < f.infBits) : f.mag r < f.mag (r + 1) := by
  rw [f.mag_succ r h]; linarith [f.gap_pos r]

/-- A number whose quantum is that of exponent field `b`, rounded to a whole count of quanta, is rounded to the format. -/
theorem Fmt.place_rounds (f : Fmt) (h : f.Ok) {rm : Rm} {neg : Bool} {X : ℚ} {b n : Nat} (hb : 1 ≤ b) (hb' : b < 2 ^ f.eb - 1)
    (hr : RoundsInt rm neg (X / 2 ^ ((b : Int) - f.bias - f.fb)) n) (hn : n ≤ 2 ^ (f.fb + 1))
    (hX : b = 1 ∨ 2 ^ f.fb * 2 ^ ((b : Int) - f.bias - f.fb) ≤ X) (hn' : b = 1 ∨ 2 ^ f.fb ≤ n) :
    f.Rounds rm neg X (f.place b n) := by
  obtain ⟨h1, h2, h3, h4, h5⟩ := f.place_facts h b n hb hb' hn hn'
  have hu : (0 : ℚ) < 2 ^ ((b : Int) - f.bias - f.fb) := by positivity
  generalize (2 : ℚ) ^ ((b : Int) - f.bias - f.fb) = u at *
  generalize hR : f.place b n = r at *
  have hX2 : X = X / u * u := (div_mul_cancel₀ _ (ne_of_gt hu)).symm
  generalize X / u = x at *
  have below : ∀ k, r = k + 1 → f.mag k = n * u - f.gap k ∧ 0 < f.gap k ∧ (f.gap k = u ∨ (f.gap k ≤ u ∧ (n : ℚ) * u ≤ X)) := by
    rintro k rfl
    have := f.mag_succ k (by omega)
    refine ⟨by linarith, f.gap_pos k, ?_⟩
    rcases (h5 k rfl).2 with h6 | ⟨h6, h7⟩
    · exact .inl h6
    · exact .inr ⟨(h5 k rfl).1, by rw [h6]; push_cast; exact hX.resolve_left h7⟩
  have above : r < f.infBits → n * u + u ≤ f.mag (r + 1) := fun hlt => by rw [f.mag_succ r hlt]; linarith
  refine ⟨h1, ?_⟩
  have par : n % 2 = 0 → r % 2 = 0 := fun hp => by rw [h4, hp]
  unfold RoundsInt at hr
  split
  · rename_i hne
    rw [if_pos hne] at hr
    have ha := abs_le.1 (by linarith [hr.1] : |x - n| ≤ 1 / 2)
    have tie : x - n = 1 / 2 ∨ x - n = -(1 / 2) → r % 2 = 0 := fun ht => par (hr.2 (by
      rcases ht with ht | ht <;> rw [ht] <;> norm_num))
    refine ⟨fun k hk => ?_, fun hlt => ?_⟩
    · obtain ⟨b1, b2, b3⟩ := below k hk
      rcases b3 with b3 | ⟨b3, b4⟩
      · refine ⟨by nlinarith, fun he => tie (.inr ?_)⟩
        have : (x - n + 1 / 2) * u = 0 := by nlinarith
        linarith [(mul_eq_zero.1 this).resolve_right (ne_of_gt hu)]
      · exact ⟨by linarith, fun he => by linarith⟩
    · have hab := above hlt
      refine ⟨by nlinarith, fun he => tie (.inl ?_)⟩
      have : (x - n - 1 / 2) * u = 0 := le_antisymm (mul_nonpos_of_nonpos_of_nonneg (by linarith) hu.le) (by nlinarith)
      linarith [(mul_eq_zero.1 this).resolve_right (ne_of_gt hu)]
  · rename_i hne
    rw [if_neg hne] at hr
    split
    · rename_i haw
      rw [if_pos haw] at hr
      refine ⟨fun k hk => ?_, fun _ => by nlinarith [hr.2]⟩
      obtain ⟨b1, b2, b3⟩ := below k hk
      rcases b3 with b3 | ⟨b3, b4⟩
      · nlinarith [hr.1]
      · linarith
    · rename_i haw
      rw [if_neg haw] at hr
      exact ⟨by nlinarith [hr.1], fun hlt => lt_of_lt_of_le (by nlinarith [hr.2]) (above hlt)⟩


theorem Fmt.infBits_pos (f : Fmt) (h : f.Ok) : 0 < f.infBits := by
  have : 2 ^ 2 ≤ 2 ^ f.eb := Nat.pow_le_pow_right (by norm_num) h.2
  rw [f.infBits_eq]
  exact Nat.mul_pos (by omega) (Nat.two_pow_pos _)

theorem Fmt.mag_zero (f : Fmt) : f.mag 0 = 0 := by simp [Fmt.mag]

/-- Zero rounds to zero; what lies at or beyond the largest power of two overflows. -/
theorem Fmt.rounds_zero (f : Fmt) (h : f.Ok) (rm : Rm) (neg : Bool) : f.Rounds rm neg 0 0 := by
  have h1 := f.mag_lt_succ (f.infBits_pos h)
  rw [f.mag_zero] at h1
  refine ⟨Nat.zero_le _, ?_⟩
  rw [f.mag_zero]
  split
  · exact ⟨fun k hk => absurd hk (by omega), fun _ => ⟨by linarith, fun _ => rfl⟩⟩
  · split
    · exact ⟨fun k hk => absurd hk (by omega), fun _ => le_refl _⟩
    · exact ⟨le_refl _, fun _ => h1⟩

theorem Fmt.rounds_inf (f : Fmt) {rm : Rm} {neg : Bool} {X : ℚ} (hX : f.mag f.infBits ≤ X) : f.Rounds rm neg X f.infBits := by
  have hk : ∀ k, f.infBits = k + 1 → f.mag k < f.mag f.infBits := fun k hk => by
    have := f.mag_lt_succ (r := k) (by omega)
    rwa [← hk] at this
  refine ⟨le_refl _, ?_⟩
  split
  · exact ⟨fun k h => ⟨by linarith [hk k h], fun he => by linarith [hk k h]⟩, fun hlt => absurd hlt (lt_irrefl _)⟩
  · split
    · exact ⟨fun k h => by linarith [hk k h], fun hlt => absurd hlt (lt_irrefl _)⟩
    · exact ⟨hX, fun hlt => absurd hlt (lt_irrefl _)⟩

/-- The exponent of the quantum of m × 2^e (R114). -/
def Fmt.quantum (f : Fmt) (m : Nat) (e : Int) : Int := max ((Nat.log2 m : Int) + e) (1 - f.bias) - f.fb

/-- `roundRaw` counts quanta, rounded. -/
theorem Fmt.roundRaw_rounds (f : Fmt) (rm : Rm) (neg : Bool) (m : Nat) (e : Int) (hm : m ≠ 0) :
    let q := f.quantum m e
    let n := (f.roundRaw rm neg m e).1
    (f.roundRaw rm neg m e).2 = q ∧ RoundsInt rm neg (m * 2 ^ e / 2 ^ q) n ∧ n ≤ 2 ^ (f.fb + 1) ∧
      (q = 1 - f.bias - f.fb ∨ (2 ^ f.fb * 2 ^ q ≤ (m : ℚ) * 2 ^ e ∧ 2 ^ f.fb ≤ n)) ∧ (q ≤ e → (n : ℚ) * 2 ^ q = m * 2 ^ e) := by
  intro q n
  have hq : (0 : ℚ) < 2 ^ q := by positivity
  have hlog : (2 : ℚ) ^ ((Nat.log2 m : Int) + e) ≤ m * 2 ^ e := by
    rw [zpow_add₀ (by norm_num), zpow_natCast]
    refine mul_le_mul_of_nonneg_right ?_ (by positivity)
    exact_mod_cast Nat.log2_self_le hm
  have hlog' : (m : ℚ) * 2 ^ e < 2 ^ ((Nat.log2 m : Int) + e + 1) := by
    rw [show (Nat.log2 m : Int) + e + 1 = ((Nat.log2 m + 1 : Nat) : Int) + e by push_cast; ring, zpow_add₀ (by norm_num),
      zpow_natCast]
    refine mul_lt_mul_of_pos_right ?_ (by positivity)
    exact_mod_cast Nat.lt_log2_self
  have main : (f.roundRaw rm neg m e).2 = q ∧ RoundsInt rm neg (m * 2 ^ e / 2 ^ q) n ∧ (q ≤ e → (n : ℚ) * 2 ^ q = m * 2 ^ e) := by
    simp only [n, Fmt.roundRaw]
    change (if q ≤ e then _ else _ : Nat × Int).2 = q ∧ RoundsInt rm neg _ (if q ≤ e then _ else _ : Nat × Int).1 ∧
      (q ≤ e → (((if q ≤ e then _ else _ : Nat × Int).1 : Nat) : ℚ) * _ = _)
    split
    · rename_i hle
      obtain ⟨k, hk⟩ := Int.eq_ofNat_of_zero_le (show 0 ≤ e - q by omega)
      have he : (2 : ℚ) ^ e = 2 ^ k * 2 ^ q := by rw [show e = (k : Int) + q by omega, zpow_add₀ (by norm_num), zpow_natCast]
      refine ⟨rfl, RoundsInt.exact ?_, fun _ => ?_⟩
      · rw [div_eq_iff (ne_of_gt hq)]
        show _ = (((m * 2 ^ (e - q).toNat : Nat)) : ℚ) * 2 ^ q
        rw [hk, he]; simp; ring
      · show (((m * 2 ^ (e - q).toNat : Nat)) : ℚ) * 2 ^ q = _
        rw [hk, he]; simp; ring
    · rename_i hle
      obtain ⟨k, hk⟩ := Int.eq_ofNat_of_zero_le (show 0 ≤ q - e by omega)
      refine ⟨rfl, ?_, fun h => absurd h hle⟩
      show RoundsInt rm neg _ (roundShift rm neg m (q - e).toNat)
      have he : (m : ℚ) * 2 ^ e / 2 ^ q = m / 2 ^ k := by
        rw [show q = (k : Int) + e by omega, zpow_add₀ (by norm_num), zpow_natCast]
        field_simp
      rw [hk, he]
      exact roundShift_rounds rm neg m k
  refine ⟨main.1, main.2.1, ?_, ?_, main.2.2⟩
  · have h1 : (m : ℚ) * 2 ^ e / 2 ^ q < 2 ^ (f.fb + 1) := by
      rw [div_lt_iff₀ hq, ← zpow_natCast, ← zpow_add₀ (by norm_num)]
      refine lt_of_lt_of_le hlog' (zpow_le_zpow_right₀ (by norm_num) ?_)
      simp only [q, Fmt.quantum]; push_cast; omega
    have h2 := main.2.1.lt
    have : (n : ℚ) < (2 ^ (f.fb + 1) + 1 : Nat) := by push_cast; linarith
    exact Nat.lt_succ_iff.1 (by exact_mod_cast this)
  · by_cases hc : (Nat.log2 m : Int) + e ≤ 1 - f.bias
    · left; simp only [q, Fmt.quantum]; omega
    · right
      have hqe : (f.fb : Int) + q = (Nat.log2 m : Int) + e := by simp only [q, Fmt.quantum]; omega
      have h1 : 2 ^ f.fb * 2 ^ q ≤ (m : ℚ) * 2 ^ e := by
        rw [← zpow_natCast, ← zpow_add₀ (by norm_num), hqe]; exact hlog
      refine ⟨h1, ?_⟩
      have h2 : (2 : ℚ) ^ f.fb ≤ m * 2 ^ e / 2 ^ q := (le_div_iff₀ hq).2 h1
      have h3 := main.2.1
      unfold RoundsInt at h3
      have : ((2 ^ f.fb : Nat) : ℚ) < (n + 1 : Nat) := by
        push_cast
        split at h3
        · have := (abs_le.1 (by linarith [h3.1] : |(m : ℚ) * 2 ^ e / 2 ^ q - n| ≤ 1 / 2)).2; linarith
        · split at h3 <;> linarith [h3.1, h3.2]
      exact Nat.lt_succ_iff.1 (by exact_mod_cast this)


/-- ROUNDING (R114, R121, R124): m × 2^e rounds to a pattern; `round?` gives it with its sign, and none where it overflows.
A number that is a whole count of quanta does not change. -/
theorem Fmt.round?_rounds (f : Fmt) (h : f.Ok) (rm : Rm) (neg : Bool) (m : Nat) (e : Int) :
    ∃ r, f.Rounds rm neg (m * 2 ^ e) r ∧ f.round? rm neg m e = (if r < f.infBits then some (f.signed neg r) else none) ∧
      (m = 0 ∨ f.quantum m e ≤ e → r < f.infBits → f.mag r = m * 2 ^ e) := by
  by_cases hm : m = 0
  · subst hm
    refine ⟨0, ?_, ?_, fun _ _ => ?_⟩
    · simpa using f.rounds_zero h rm neg
    · rw [if_pos (f.infBits_pos h)]; rfl
    · rw [f.mag_zero]; simp
  · obtain ⟨h1, h2, h3, h4, h5⟩ := f.roundRaw_rounds rm neg m e hm
    have hE : 2 ^ 2 ≤ 2 ^ f.eb := Nat.pow_le_pow_right (by norm_num) h.2
    have hp : 0 < 2 ^ f.fb := Nat.two_pow_pos _
    have hp2 : 2 ^ (f.fb + 1) = 2 * 2 ^ f.fb := by ring
    have hq0 : 1 - f.bias - f.fb ≤ f.quantum m e := by unfold Fmt.quantum; omega
    have hround : f.round? rm neg m e =
        (let x := if (f.roundRaw rm neg m e).1 = 2 ^ (f.fb + 1) then (2 ^ f.fb, f.quantum m e + 1)
          else ((f.roundRaw rm neg m e).1, f.quantum m e)
        if x.1 < 2 ^ f.fb then some (f.signed neg x.1)
        else if ((2 ^ f.eb - 1 : Nat) : Int) ≤ x.2 + f.fb + f.bias then none
        else some (f.signed neg ((x.2 + f.fb + f.bias).toNat * 2 ^ f.fb + (x.1 - 2 ^ f.fb)))) := by
      rw [Fmt.round?, if_neg hm, ← h1]
      rfl
    rw [hround]
    clear hround h1
    generalize f.quantum m e = q at *
    generalize (f.roundRaw rm neg m e).1 = n at *
    obtain ⟨b, hb⟩ := Int.eq_ofNat_of_zero_le (show 0 ≤ q + f.fb + f.bias by omega)
    have hqb : q = (b : Int) - f.bias - f.fb := by omega
    have hb1 : 1 ≤ b := by omega
    have h4' : b = 1 ∨ (2 ^ f.fb * 2 ^ q ≤ (m : ℚ) * 2 ^ e ∧ 2 ^ f.fb ≤ n) := h4.imp (fun h => by omega) id
    by_cases hlt : b < 2 ^ f.eb - 1
    · refine ⟨f.place b n, ?_, ?_, fun hx _ => ?_⟩
      · rw [hqb] at h2 h4'
        exact f.place_rounds h hb1 hlt h2 h3 (h4'.imp id And.left) (h4'.imp id And.right)
      · have hpl : f.place b n + 2 ^ f.fb = b * 2 ^ f.fb + n := by
          obtain ⟨c, rfl⟩ := Nat.exists_eq_add_of_le' hb1
          rw [Fmt.place, Nat.add_sub_cancel, Nat.succ_mul]; omega
        have hinf : f.infBits + 2 ^ f.fb = 2 ^ f.eb * 2 ^ f.fb := by
          rw [f.infBits_eq, ← Nat.succ_mul]; congr 1; omega
        rw [hp2] at h3 ⊢
        have hbe : (b + 2) * 2 ^ f.fb ≤ 2 ^ f.eb * 2 ^ f.fb := Nat.mul_le_mul_right _ (by omega)
        have hbe' : (b + 2) * 2 ^ f.fb = b * 2 ^ f.fb + 2 * 2 ^ f.fb := by ring
        by_cases hc : n = 2 * 2 ^ f.fb
        · rw [if_pos hc]
          simp only [lt_irrefl, if_false]
          rw [show q + 1 + f.fb + f.bias = ((b + 1 : Nat) : Int) by push_cast; omega]
          by_cases hov : b + 1 = 2 ^ f.eb - 1
          · rw [if_pos (by rw [hov]), if_neg]
            rw [show b + 2 = 2 ^ f.eb by omega] at hbe'
            omega
          · have : (b + 3) * 2 ^ f.fb ≤ 2 ^ f.eb * 2 ^ f.fb := Nat.mul_le_mul_right _ (by omega)
            have h3' : (b + 3) * 2 ^ f.fb = b * 2 ^ f.fb + 3 * 2 ^ f.fb := by ring
            rw [if_neg (by omega), if_pos (by omega)]
            congr 2
            rw [Int.toNat_natCast, Nat.sub_self, Nat.add_zero, Nat.succ_mul]; omega
        · rw [if_neg hc]
          dsimp only
          rw [if_pos (show f.place b n < f.infBits by omega)]
          by_cases hs : n < 2 ^ f.fb
          · rw [if_pos hs]
            have : b = 1 := h4'.resolve_right fun h => by omega
            subst this
            congr 2
            omega
          · rw [if_neg hs, hb, if_neg (by omega), Int.toNat_natCast]
            congr 2
            omega
      · rcases hx with hx | hx
        · exact absurd hx hm
        · rw [← h5 hx, (f.place_facts h b n hb1 hlt h3 (h4'.imp id And.right)).2.1, hqb]
    · have h6 := h4'.resolve_left (by omega)
      refine ⟨f.infBits, f.rounds_inf ?_, ?_, fun _ hx => absurd hx (lt_irrefl _)⟩
      · rw [f.mag_inf h]
        refine le_trans (mul_le_mul_of_nonneg_left (zpow_le_zpow_right₀ (by norm_num) ?_) (by positivity)) h6.1
        omega
      · rw [if_neg (lt_irrefl _)]
        by_cases hc : n = 2 ^ (f.fb + 1)
        · rw [if_pos hc]
          dsimp only
          rw [if_neg (lt_irrefl _), if_pos (by omega)]
        · rw [if_neg hc]
          dsimp only
          rw [if_neg (by omega), if_pos (by omega)]

end Sys2Proof.Machine
end

