-- ==== Sys2Proof/Laws/Num.lean ====
section
/-! SUPPORT. What arithmetic, `FRND`, `FSCALE` and the conversions compute (R113, R114, R122 to R124, R223 to R231), in the
relations of Safety.lean. -/

namespace Sys2Proof.Machine
open Sys2Proof

/-! ### The value of a pattern -/

theorem Fmt.fields (f : Fmt) (x : Nat) : x % f.signBit = x / 2 ^ f.fb % 2 ^ f.eb * 2 ^ f.fb + x % 2 ^ f.fb := by
  rw [Fmt.signBit, Nat.pow_add, Nat.mul_comm (2 ^ f.eb), Nat.mod_mul, Nat.mul_comm (2 ^ f.fb), Nat.add_comm]

theorem Fmt.mag_mod (f : Fmt) (x : Nat) : f.mag (x % f.signBit) = f.mag x := by
  have h1 := Nat.mod_lt x (Nat.two_pow_pos f.fb)
  have h2 := Nat.mod_lt (x / 2 ^ f.fb) (Nat.two_pow_pos f.eb)
  rw [f.fields, f.mag_of _ _ h2 h1]; rfl

/-- The exponent field and the fraction say which kind of pattern it is. -/
theorem Fmt.kinds (f : Fmt) (h : f.Ok) (x : Nat) :
    (f.IsNaN x ↔ f.val x = .nan) ∧ (f.IsInf x ↔ ∃ n, f.val x = .inf n) ∧
    (f.IsFin x ↔ ∃ n m e, f.val x = .fin n m e) ∧ (∀ n, f.val x = .inf n → n = f.isNeg x) ∧
    ∀ n m e, f.val x = .fin n m e → n = f.isNeg x ∧ (m : ℚ) * 2 ^ e = f.mag x ∧ (m = 0 ↔ x % f.signBit = 0) := by
  have hE : 2 ^ 2 ≤ 2 ^ f.eb := Nat.pow_le_pow_right (by norm_num) h.2
  have h1 := Nat.mod_lt x (Nat.two_pow_pos f.fb)
  have h2 := Nat.mod_lt (x / 2 ^ f.fb) (Nat.two_pow_pos f.eb)
  have h3 := f.fields x
  have hm : f.mag x = _ := (f.mag_mod x).symm.trans ((congrArg f.mag h3).trans (f.mag_of _ _ h2 h1))
  unfold Fmt.IsNaN Fmt.IsInf Fmt.IsFin Fmt.val Fmt.isNeg
  rw [hm, h3, f.infBits_eq, Fmt.expMax]
  generalize x / 2 ^ f.fb % 2 ^ f.eb = ex at *
  generalize x % 2 ^ f.fb = fr at *
  have hp := Nat.two_pow_pos f.fb
  by_cases hx : ex = 2 ^ f.eb - 1
  · rw [if_pos hx, hx]
    by_cases hf : fr = 0
    · simp [hf]
    · simp [hf, Nat.pos_of_ne_zero hf]
  · have hlt : ex * 2 ^ f.fb + fr < (2 ^ f.eb - 1) * 2 ^ f.fb :=
      calc ex * 2 ^ f.fb + fr < (ex + 1) * 2 ^ f.fb := by rw [Nat.succ_mul]; omega
        _ ≤ _ := Nat.mul_le_mul_right _ (by omega)
    rw [if_neg hx]
    by_cases h0 : ex = 0
    · subst h0
      simp only [if_true]
      refine ⟨by simp; omega, by simp; omega, by simpa using hlt, by simp, ?_⟩
      rintro n m e ⟨⟩
      simp
    · simp only [h0, if_false]
      refine ⟨by simp; omega, by simp; omega, by simpa using hlt, by simp, ?_⟩
      rintro n m e ⟨⟩
      refine ⟨rfl, by push_cast; rfl, ?_⟩
      have : 0 < ex * 2 ^ f.fb := Nat.mul_pos (Nat.pos_of_ne_zero h0) hp
      omega

theorem Fmt.val_fin (f : Fmt) (h : f.Ok) {x : Nat} (hx : f.IsFin x) :
    ∃ m e, f.val x = .fin (f.isNeg x) m e ∧ (m : ℚ) * 2 ^ e = f.mag x ∧ (m = 0 ↔ x % f.signBit = 0) := by
  obtain ⟨-, -, k3, -, k5⟩ := f.kinds h x
  obtain ⟨n, m, e, hv⟩ := k3.1 hx
  obtain ⟨rfl, h1⟩ := k5 n m e hv
  exact ⟨m, e, hv, h1⟩

theorem Fmt.val_inf (f : Fmt) (h : f.Ok) {x : Nat} (hx : f.IsInf x) : f.val x = .inf (f.isNeg x) := by
  obtain ⟨-, k2, -, k4, -⟩ := f.kinds h x
  obtain ⟨n, hv⟩ := k2.1 hx
  rw [hv, k4 n hv]

theorem Fmt.val_nan (f : Fmt) (h : f.Ok) {x : Nat} (hx : f.IsNaN x) : f.val x = .nan := (f.kinds h x).1.1 hx

/-- The value of a pattern with a sign put before it. -/
theorem Fmt.signed_facts (f : Fmt) (neg : Bool) {r : Nat} (hr : r ≤ f.infBits) :
    f.signed neg r % f.signBit = r ∧ f.isNeg (f.signed neg r) = neg := by
  have hs : f.infBits < f.signBit := by
    rw [f.infBits_eq, Fmt.signBit, Nat.pow_add]
    exact Nat.mul_lt_mul_of_pos_right (Nat.sub_lt (Nat.two_pow_pos _) (by norm_num)) (Nat.two_pow_pos _)
  have h0 : r / f.signBit = 0 := Nat.div_eq_of_lt (by omega)
  have hp : 0 < f.signBit := Nat.two_pow_pos _
  unfold Fmt.signed Fmt.isNeg
  cases neg
  · simp [h0, Nat.mod_eq_of_lt (show r < f.signBit by omega)]
  · simp [h0, Nat.add_div_left _ hp, Nat.mod_eq_of_lt (show r < f.signBit by omega)]

/-! ### One rounding of an exact value -/

/-- The number that an exact value stands for. -/
def FVal.num : FVal → ℚ
  | .fin neg m e => if neg then -(m * 2 ^ e) else m * 2 ^ e
  | _ => 0

theorem Fmt.Rounds.ne_sign {f : Fmt} {a b : Bool} {q : ℚ} {r : Nat} (h : f.Rounds .ne a q r) : f.Rounds .ne b q r := by
  unfold Fmt.Rounds at *
  simpa using h

/-- `roundNE` rounds once to nearest; a number that is not zero has its own sign, an exact zero that of the value (R114). -/
theorem Fmt.roundNE_nearest (f : Fmt) (h : f.Ok) (neg : Bool) (m : Nat) (e : Int) :
    f.Nearest (FVal.num (.fin neg m e)) neg (f.roundNE (.fin neg m e)) := by
  obtain ⟨r, h1, h2, -⟩ := f.round?_rounds h .ne neg m e
  have hp : (0 : ℚ) ≤ m * 2 ^ e := by positivity
  have habs : |FVal.num (.fin neg m e)| = m * 2 ^ e := by
    cases neg <;> simp [FVal.num, abs_of_nonneg hp]
  refine ⟨r, ?_, ?_⟩
  · rw [habs]; exact h1.ne_sign
  · have hsgn : (if FVal.num (.fin neg m e) = 0 then neg else decide (FVal.num (.fin neg m e) < 0)) = neg := by
      split
      · rfl
      · rename_i hne
        cases neg
        · simp only [FVal.num, Bool.false_eq_true, if_false] at hne ⊢
          simpa using hp
        · simp only [FVal.num, if_true] at hne ⊢
          have : (0 : ℚ) < m * 2 ^ e := lt_of_le_of_ne hp fun he => hne (by rw [← he]; simp)
          simpa using this
    rw [hsgn, Fmt.roundNE, h2]
    split
    · rfl
    · rename_i hlt
      have : r = f.infBits := Nat.le_antisymm h1.1 (not_lt.1 hlt)
      rw [this]; rfl

/-- Where an exact zero keeps another sign. -/
theorem Fmt.Nearest.zero_sign {f : Fmt} {q : ℚ} {a b : Bool} {y : Nat} (h : f.Nearest q a y) (hab : q = 0 → a = b) :
    f.Nearest q b y := by
  obtain ⟨r, h1, h2⟩ := h
  refine ⟨r, h1, ?_⟩
  rw [h2]
  split
  · rw [hab ‹_›]
  · rfl

theorem ofInt'_num (x : Int) (e : Int) (z : Bool) : FVal.num (ofInt' x e z) = x * 2 ^ e := by
  unfold ofInt'
  split
  · rename_i hx; simp [FVal.num, hx]
  · rcases lt_or_gt_of_ne ‹¬x = 0› with hx | hx
    · have : ((x.natAbs : Nat) : ℚ) = -(x : ℚ) := by
        rw [← Int.cast_natCast, Int.natCast_natAbs, abs_of_neg hx]; push_cast; rfl
      simp [FVal.num, hx, this]
    · have : ((x.natAbs : Nat) : ℚ) = (x : ℚ) := by
        rw [← Int.cast_natCast, Int.natCast_natAbs, abs_of_pos hx]
      simp [FVal.num, not_lt.2 hx.le, this]

/-- An integer count of 2^e, rounded. -/
theorem Fmt.ofInt'_nearest (f : Fmt) (h : f.Ok) (x e : Int) (z : Bool) : f.Nearest (x * 2 ^ e) z (f.roundNE (ofInt' x e z)) := by
  rw [← ofInt'_num x e z]
  unfold ofInt'
  split
  · exact f.roundNE_nearest h _ _ _
  · rename_i hx
    refine (f.roundNE_nearest h _ _ _).zero_sign fun h0 => absurd h0 ?_
    have h0 : (x.natAbs : ℚ) * 2 ^ e ≠ 0 := mul_ne_zero (by simpa using hx) (by positivity)
    have : ∀ b, FVal.num (.fin b x.natAbs e) ≠ 0 := fun b => by
      cases b
      · simpa only [FVal.num, Bool.false_eq_true, if_false] using h0
      · simpa only [FVal.num, if_true] using neg_ne_zero.2 h0
    exact this _


/-! ### Exact sums and products (R114) -/

theorem scaled_num (neg : Bool) (m : Nat) {e lo : Int} (h : lo ≤ e) :
    (((if neg then -1 else 1) * (m * 2 ^ (e - lo).toNat : Nat) : Int) : ℚ) * 2 ^ lo = FVal.num (.fin neg m e) := by
  obtain ⟨k, hk⟩ := Int.eq_ofNat_of_zero_le (show 0 ≤ e - lo by omega)
  rw [hk, show e = (k : Int) + lo by omega, FVal.num, zpow_add₀ (by norm_num), zpow_natCast]
  cases neg <;> simp <;> ring

/-- The exact sum of two finite numbers, rounded; an exact zero is −0 where both numbers are (R114). -/
theorem Fmt.add_fin (f : Fmt) (h : f.Ok) (x y : Bool) (m n : Nat) (e d : Int) :
    f.Nearest (FVal.num (.fin x m e) + FVal.num (.fin y n d)) (x && y)
      (f.roundNE (FVal.add (.fin x m e) (.fin y n d))) := by
  have hs : FVal.num (.fin x m e) + FVal.num (.fin y n d) =
      (((if x then -1 else 1) * (m * 2 ^ (e - min e d).toNat : Nat) + (if y then -1 else 1) * (n * 2 ^ (d - min e d).toNat : Nat) : Int) : ℚ) *
        2 ^ min e d := by
    rw [← scaled_num x m (min_le_left e d), ← scaled_num y n (min_le_right e d), ← add_mul]
    push_cast
    rfl
  rw [hs]
  refine (f.ofInt'_nearest h _ _ (x && y && m = 0 && n = 0)).zero_sign fun h0 => ?_
  rw [← hs] at h0
  have pm : (0 : ℚ) ≤ m * 2 ^ e := by positivity
  have pn : (0 : ℚ) ≤ n * 2 ^ d := by positivity
  cases x <;> cases y <;> simp [FVal.num] at h0 ⊢
  have h1 : (m : ℚ) * 2 ^ e = 0 := by linarith
  have h2 : (n : ℚ) * 2 ^ d = 0 := by linarith
  exact ⟨by exact_mod_cast (mul_eq_zero.1 h1).resolve_right (by positivity),
    by exact_mod_cast (mul_eq_zero.1 h2).resolve_right (by positivity)⟩

theorem FVal.mul_num (x y : Bool) (m n : Nat) (e d : Int) :
    FVal.num (.fin (x != y) (m * n) (e + d)) = FVal.num (.fin x m e) * FVal.num (.fin y n d) := by
  cases x <;> cases y <;> simp [FVal.num, zpow_add₀] <;> ring

theorem Fmt.value_eq (f : Fmt) {x : Nat} {n : Bool} {m : Nat} {e : Int} (hn : n = f.isNeg x) (hm : (m : ℚ) * 2 ^ e = f.mag x) :
    f.value x = FVal.num (.fin n m e) := by
  subst hn; rw [Fmt.value, FVal.num, hm]

/-- A finite pattern as an exact number. -/
theorem Fmt.val_num (f : Fmt) (h : f.Ok) {x : Nat} (hx : f.IsFin x) :
    ∃ m e, f.val x = .fin (f.isNeg x) m e ∧ FVal.num (.fin (f.isNeg x) m e) = f.value x ∧ (m = 0 ↔ x % f.signBit = 0) := by
  obtain ⟨m, e, h1, h2, h3⟩ := f.val_fin h hx
  exact ⟨m, e, h1, (f.value_eq rfl h2).symm, h3⟩

theorem Fmt.add_nearest (f : Fmt) (h : f.Ok) (a b : Nat) (ha : f.IsFin a) (hb : f.IsFin b) :
    f.Nearest (f.value a + f.value b) (f.isNeg a && f.isNeg b) (f.add a b) := by
  obtain ⟨m, e, h1, h2, -⟩ := f.val_num h ha
  obtain ⟨n, d, h3, h4, -⟩ := f.val_num h hb
  rw [Fmt.add, h1, h3, ← h2, ← h4]
  exact f.add_fin h _ _ _ _ _ _

theorem Fmt.sub_nearest (f : Fmt) (h : f.Ok) (a b : Nat) (ha : f.IsFin a) (hb : f.IsFin b) :
    f.Nearest (f.value a - f.value b) (f.isNeg a && !f.isNeg b) (f.sub a b) := by
  obtain ⟨m, e, h1, h2, -⟩ := f.val_num h ha
  obtain ⟨n, d, h3, h4, -⟩ := f.val_num h hb
  have hneg : -FVal.num (.fin (f.isNeg b) n d) = FVal.num (.fin (!f.isNeg b) n d) := by
    cases f.isNeg b <;> simp [FVal.num]
  rw [Fmt.sub, h1, h3, ← h2, ← h4, sub_eq_add_neg, hneg]
  exact f.add_fin h _ _ _ _ _ _

theorem Fmt.mul_nearest (f : Fmt) (h : f.Ok) (a b : Nat) (ha : f.IsFin a) (hb : f.IsFin b) :
    f.Nearest (f.value a * f.value b) (f.isNeg a != f.isNeg b) (f.mul a b) := by
  obtain ⟨m, e, h1, h2, -⟩ := f.val_num h ha
  obtain ⟨n, d, h3, h4, -⟩ := f.val_num h hb
  rw [Fmt.mul, h1, h3, ← h2, ← h4, ← FVal.mul_num]
  exact f.roundNE_nearest h _ _ _

theorem Fmt.fma_nearest (f : Fmt) (h : f.Ok) (a b c : Nat) (ha : f.IsFin a) (hb : f.IsFin b) (hc : f.IsFin c) :
    f.Nearest (f.value a * f.value b + f.value c) ((f.isNeg a != f.isNeg b) && f.isNeg c) (f.fma a b c) := by
  obtain ⟨m, e, h1, h2, -⟩ := f.val_num h ha
  obtain ⟨n, d, h3, h4, -⟩ := f.val_num h hb
  obtain ⟨k, g, h5, h6, -⟩ := f.val_num h hc
  rw [Fmt.fma, h1, h3, h5, ← h2, ← h4, ← h6, ← FVal.mul_num]
  exact f.add_fin h _ _ _ _ _ _

/-! ### NaN and infinities -/

theorem Fmt.roundNE_inf (f : Fmt) (h : f.Ok) (n : Bool) :
    f.roundNE (.inf n) = f.signed n f.infBits ∧ f.val (f.signed n f.infBits) = .inf n := by
  obtain ⟨h1, h2⟩ := f.signed_facts n (le_refl f.infBits)
  refine ⟨rfl, ?_⟩
  rw [f.val_inf h h1, h2]

theorem Fmt.val_of_nan (f : Fmt) (h : f.Ok) : f.val f.nan = .nan := by
  refine f.val_nan h ?_
  have hp : 0 < 2 ^ (f.fb - 1) := Nat.two_pow_pos _
  have hlt : f.infBits + 2 ^ (f.fb - 1) < f.signBit := by
    have h1 : 2 ^ (f.fb - 1) < 2 ^ f.fb := Nat.pow_lt_pow_right (by norm_num) (by have := h.1; omega)
    have h2 : f.infBits + 2 ^ f.fb = f.signBit := by
      rw [f.infBits_eq, ← Nat.succ_mul, Fmt.signBit, Nat.pow_add]
      have := Nat.two_pow_pos f.eb
      congr 1; omega
    omega
  rw [Fmt.IsNaN, Fmt.nan, Nat.mod_eq_of_lt hlt]
  omega

/-- The three kinds, and nothing else. -/
theorem Fmt.kind_cases (f : Fmt) (x : Nat) : f.IsNaN x ∨ f.IsInf x ∨ f.IsFin x := by
  unfold Fmt.IsNaN Fmt.IsInf Fmt.IsFin; omega

theorem Fmt.isNaN_iff (f : Fmt) (h : f.Ok) (x : Nat) : f.isNaN x = true ↔ f.IsNaN x := by
  rw [Fmt.isNaN, decide_eq_true_iff]; exact (f.kinds h x).1.symm

theorem FVal.nan_add (v : FVal) : FVal.add .nan v = .nan := by cases v <;> rfl
theorem FVal.nan_mul (v : FVal) : FVal.mul .nan v = .nan := by cases v <;> rfl
theorem FVal.add_nan (v : FVal) : FVal.add v .nan = .nan := by cases v <;> rfl
theorem FVal.mul_nan (v : FVal) : FVal.mul v .nan = .nan := by cases v <;> rfl


theorem Fmt.of_nan (f : Fmt) (h : f.Ok) (a b c : Nat) (hab : f.IsNaN a ∨ f.IsNaN b) :
    f.add a b = f.nan ∧ f.sub a b = f.nan ∧ f.mul a b = f.nan ∧ f.minF a b = f.nan ∧ f.maxF a b = f.nan ∧
      f.fma a b c = f.nan ∧ f.fma a c b = f.nan ∧ f.fma c a b = f.nan := by
  have hr : f.roundNE .nan = f.nan := rfl
  have hn : FVal.neg .nan = .nan := rfl
  rcases hab with hx | hx
  · have hv := f.val_nan h hx
    have hi := (f.isNaN_iff h a).2 hx
    simp [Fmt.add, Fmt.sub, Fmt.mul, Fmt.fma, Fmt.minF, Fmt.maxF, hv, hi, FVal.nan_add, FVal.nan_mul, FVal.mul_nan, hr]
  · have hv := f.val_nan h hx
    have hi := (f.isNaN_iff h b).2 hx
    simp [Fmt.add, Fmt.sub, Fmt.mul, Fmt.fma, Fmt.minF, Fmt.maxF, hv, hi, FVal.nan_add, FVal.add_nan, FVal.mul_nan, hr, hn]

theorem Fmt.add_inf (f : Fmt) (h : f.Ok) (a b : Nat) (ha : f.IsInf a) :
    (f.IsFin b → f.add a b = f.signed (f.isNeg a) f.infBits ∧ f.add b a = f.signed (f.isNeg a) f.infBits ∧
      f.sub a b = f.signed (f.isNeg a) f.infBits ∧ f.sub b a = f.signed (!f.isNeg a) f.infBits) ∧
    (f.IsInf b → f.add a b = (if f.isNeg a = f.isNeg b then f.signed (f.isNeg a) f.infBits else f.nan) ∧
      f.sub a b = if f.isNeg a = f.isNeg b then f.nan else f.signed (f.isNeg a) f.infBits) := by
  have hv := f.val_inf h ha
  refine ⟨fun hb => ?_, fun hb => ?_⟩
  · obtain ⟨m, e, hw, -⟩ := f.val_fin h hb
    simp [Fmt.add, Fmt.sub, hv, hw, FVal.add, FVal.neg, Fmt.roundNE]
  · have hw := f.val_inf h hb
    simp only [Fmt.add, Fmt.sub, hv, hw, FVal.add, FVal.neg]
    cases f.isNeg a <;> cases f.isNeg b <;> exact ⟨rfl, rfl⟩

theorem Fmt.mul_inf (f : Fmt) (h : f.Ok) (a b : Nat) (ha : f.IsInf a) (hb : ¬f.IsNaN b) :
    let r := if b % f.signBit = 0 then f.nan else f.signed (f.isNeg a != f.isNeg b) f.infBits
    f.mul a b = r ∧ f.mul b a = r := by
  have hv := f.val_inf h ha
  have hc : ∀ x y : Bool, (x != y) = (y != x) := by decide
  rcases (f.kind_cases b).resolve_left hb with hb | hb
  · have hw := f.val_inf h hb
    have : b % f.signBit ≠ 0 := by rw [hb]; exact (f.infBits_pos h).ne'
    simp only [Fmt.mul, hv, hw, FVal.mul, Fmt.roundNE, if_neg this]
    exact ⟨trivial, by rw [hc]⟩
  · obtain ⟨m, e, hw, -, h0⟩ := f.val_fin h hb
    simp only [Fmt.mul, hv, hw, FVal.mul]
    by_cases hm : m = 0
    · simp only [hm, if_true, Fmt.roundNE, if_pos (h0.1 hm), and_self]
    · simp only [hm, if_false, Fmt.roundNE, if_neg fun hz => hm (h0.2 hz)]
      exact ⟨trivial, by rw [hc]⟩

theorem Fmt.fma_inf (f : Fmt) (h : f.Ok) (a b c : Nat) (ha : ¬f.IsNaN a) (hb : ¬f.IsNaN b) :
    (f.IsInf a ∨ f.IsInf b → f.fma a b c = f.add (f.mul a b) c) ∧
    (f.IsFin a → f.IsFin b → f.IsInf c → f.fma a b c = f.signed (f.isNeg c) f.infBits) := by
  refine ⟨fun hab => ?_, fun ha hb hc => ?_⟩
  · have hp : ∀ v, v = .nan ∨ (∃ n, v = .inf n) → f.val (f.roundNE v) = v := by
      rintro v (rfl | ⟨n, rfl⟩)
      · exact f.val_of_nan h
      · exact (f.roundNE_inf h n).2
    rw [Fmt.fma, Fmt.add, Fmt.mul, hp]
    rcases hab with hx | hx
    · rw [f.val_inf h hx]
      rcases (f.kind_cases b).resolve_left hb with hy | hy
      · rw [f.val_inf h hy]; exact .inr ⟨_, rfl⟩
      · obtain ⟨m, e, hw, -⟩ := f.val_fin h hy
        rw [hw, FVal.mul]; split
        · exact .inl rfl
        · exact .inr ⟨_, rfl⟩
    · rw [f.val_inf h hx]
      rcases (f.kind_cases a).resolve_left ha with hy | hy
      · rw [f.val_inf h hy]; exact .inr ⟨_, rfl⟩
      · obtain ⟨m, e, hw, -⟩ := f.val_fin h hy
        rw [hw, FVal.mul]; split
        · exact .inl rfl
        · exact .inr ⟨_, rfl⟩
  · obtain ⟨m, e, h1, -⟩ := f.val_fin h ha
    obtain ⟨n, d, h2, -⟩ := f.val_fin h hb
    simp [Fmt.fma, h1, h2, f.val_inf h hc, FVal.mul, FVal.add, Fmt.roundNE]

/-! ### The lesser and the greater (R223) -/

theorem Fmt.mag_mono (f : Fmt) {r r' : Nat} (hlt : r < r') (h' : r' ≤ f.infBits) : f.mag r < f.mag r' := by
  induction r', hlt using Nat.le_induction with
  | base => exact f.mag_lt_succ (by omega)
  | succ n hn ih => exact (ih (by omega)).trans (f.mag_lt_succ (by omega))

theorem Fmt.mag_nonneg (f : Fmt) (x : Nat) : 0 ≤ f.mag x := by unfold Fmt.mag; split <;> positivity

/-- Among finite patterns the order of the keys is that of the values, −0 before +0. -/
theorem Fmt.key_value (f : Fmt) {a b : Nat} (ha : f.IsFin a) (hb : f.IsFin b) :
    (f.key a < f.key b → f.value a < f.value b ∨ (f.value a = f.value b ∧ f.isNeg a = true ∧ f.isNeg b = false)) ∧
    (f.key a = f.key b → f.value a = f.value b ∧ f.isNeg a = f.isNeg b) := by
  unfold Fmt.IsFin at ha hb
  have na := f.mag_nonneg a
  have nb := f.mag_nonneg b
  have lt : ∀ x y, x % f.signBit < f.infBits → y % f.signBit < f.infBits → x % f.signBit < y % f.signBit → f.mag x < f.mag y :=
    fun x y _ hy hxy => by rw [← f.mag_mod x, ← f.mag_mod y]; exact f.mag_mono hxy hy.le
  have eq : ∀ x y, x % f.signBit = y % f.signBit → f.mag x = f.mag y :=
    fun x y hxy => by rw [← f.mag_mod x, ← f.mag_mod y, hxy]
  unfold Fmt.key Fmt.value
  refine ⟨fun hk => ?_, fun hk => ?_⟩
  · cases h1 : f.isNeg a <;> cases h2 : f.isNeg b <;> simp only [h1, h2, Bool.false_eq_true, if_false, if_true] at hk ⊢
    · exact .inl (lt _ _ ha hb (by omega))
    · omega
    · rcases (add_nonneg na nb).lt_or_eq with h | h
      · exact .inl (by linarith)
      · exact .inr ⟨by linarith, by simp⟩
    · exact .inl (neg_lt_neg (lt _ _ hb ha (by omega)))
  · cases h1 : f.isNeg a <;> cases h2 : f.isNeg b <;> simp only [h1, h2, Bool.false_eq_true, if_false, if_true] at hk ⊢
    · exact ⟨eq _ _ (by omega), trivial⟩
    · omega
    · omega
    · exact ⟨by rw [eq a b (by omega)], trivial⟩

theorem Fmt.least (f : Fmt) (h : f.Ok) (a b : Nat) (ha : ¬f.IsNaN a) (hb : ¬f.IsNaN b) :
    (f.minF a b = a ∨ f.minF a b = b) ∧ (f.maxF a b = a ∨ f.maxF a b = b) ∧
    (f.IsFin a → f.IsFin b → f.value (f.minF a b) = min (f.value a) (f.value b) ∧
      f.value (f.maxF a b) = max (f.value a) (f.value b) ∧
      (f.value a = f.value b → f.isNeg (f.minF a b) = (f.isNeg a || f.isNeg b) ∧
        f.isNeg (f.maxF a b) = (f.isNeg a && f.isNeg b))) := by
  have na : f.isNaN a = false := by rw [Bool.eq_false_iff]; exact fun hx => ha ((f.isNaN_iff h a).1 hx)
  have nb : f.isNaN b = false := by rw [Bool.eq_false_iff]; exact fun hx => hb ((f.isNaN_iff h b).1 hx)
  unfold Fmt.minF Fmt.maxF
  rw [na, nb]
  simp only [Bool.or_self, Bool.false_eq_true, if_false]
  refine ⟨by split <;> simp, by split <;> simp, fun fa fb => ?_⟩
  rcases lt_trichotomy (f.key a) (f.key b) with hk | hk | hk
  · rw [if_neg (by omega), if_pos hk]
    rcases (f.key_value fa fb).1 hk with hv | ⟨hv, s1, s2⟩
    · exact ⟨(min_eq_left hv.le).symm, (max_eq_right hv.le).symm, fun he => absurd he hv.ne⟩
    · exact ⟨(min_eq_left hv.le).symm, (max_eq_right hv.le).symm, fun _ => by simp [s1, s2]⟩
  · obtain ⟨hv, hs⟩ := (f.key_value fa fb).2 hk
    rw [if_neg (by omega), if_neg (by omega), hv]
    simp [hs]
  · rw [if_pos hk, if_neg (by omega)]
    rcases (f.key_value fb fa).1 hk with hv | ⟨hv, s1, s2⟩
    · exact ⟨(min_eq_right hv.le).symm, (max_eq_left hv.le).symm, fun he => absurd he hv.ne'⟩
    · exact ⟨(min_eq_right hv.le).symm, (max_eq_left hv.le).symm, fun _ => by simp [s1, s2]⟩

theorem Fmt.least_inf (f : Fmt) (h : f.Ok) (a b : Nat) (ha : f.IsInf a) (hb : ¬f.IsNaN b) :
    (f.isNeg a = true → f.isNeg (f.minF a b) = true ∧ f.IsInf (f.minF a b) ∧ (f.IsFin b → f.maxF a b = b)) ∧
    (f.isNeg a = false → f.isNeg (f.maxF a b) = false ∧ f.IsInf (f.maxF a b) ∧ (f.IsFin b → f.minF a b = b)) := by
  have na : f.isNaN a = false := by
    rw [Bool.eq_false_iff]; intro hx; have := (f.isNaN_iff h a).1 hx; unfold Fmt.IsNaN at this; unfold Fmt.IsInf at ha; omega
  have nb : f.isNaN b = false := by rw [Bool.eq_false_iff]; exact fun hx => hb ((f.isNaN_iff h b).1 hx)
  unfold Fmt.minF Fmt.maxF
  rw [na, nb]
  simp only [Bool.or_self, Bool.false_eq_true, if_false]
  unfold Fmt.IsNaN at hb
  unfold Fmt.IsInf at ha ⊢
  unfold Fmt.IsFin Fmt.key
  refine ⟨fun hn => ?_, fun hn => ?_⟩ <;> simp only [hn, ha, Bool.false_eq_true, if_false, if_true]
  · cases h2 : f.isNeg b <;> simp only [Bool.false_eq_true, if_false, if_true]
    · rw [if_neg (by omega), if_pos (by omega)]; exact ⟨hn, ha, fun _ => rfl⟩
    · rw [if_neg (by omega)]
      exact ⟨hn, ha, fun hf => by rw [if_pos (by omega)]⟩
  · cases h2 : f.isNeg b <;> simp only [Bool.false_eq_true, if_false, if_true]
    · rw [if_neg (by omega)]
      exact ⟨hn, ha, fun hf => by rw [if_pos (by omega)]⟩
    · rw [if_neg (by omega), if_pos (by omega)]; exact ⟨hn, ha, fun _ => rfl⟩


/-! ### `FRND` and `FSCALE` (R224) -/

theorem fp32_ok : fp32.Ok := ⟨by decide, by decide⟩
theorem fp16_ok : fp16.Ok := ⟨by decide, by decide⟩
theorem bf16_ok : bf16.Ok := ⟨by decide, by decide⟩

theorem Fmt.val_bound (f : Fmt) (h : f.Ok) {x : Nat} {n : Bool} {m : Nat} {e : Int} (hv : f.val x = .fin n m e) :
    m < 2 ^ (f.fb + 1) ∧ 1 - f.bias - f.fb ≤ e ∧ f.IsFin x := by
  have h1 := Nat.mod_lt x (Nat.two_pow_pos f.fb)
  refine ⟨?_, ?_, (f.kinds h x).2.2.1.2 ⟨n, m, e, hv⟩⟩ <;> simp only [Fmt.val] at hv <;> split at hv
  · split at hv <;> simp at hv
  · split at hv
    · obtain ⟨-, rfl, -⟩ := FVal.fin.inj hv; rw [pow_succ]; omega
    · obtain ⟨-, rfl, -⟩ := FVal.fin.inj hv; rw [pow_succ]; omega
  · split at hv <;> simp at hv
  · split at hv
    · obtain ⟨-, -, rfl⟩ := FVal.fin.inj hv; exact le_refl _
    · obtain ⟨-, -, rfl⟩ := FVal.fin.inj hv; omega

theorem fp32_mag_inf : fp32.mag fp32.infBits = 2 ^ 128 := by
  rw [fp32.mag_inf fp32_ok]; simp only [fp32, Fmt.bias]; norm_num

theorem Fmt.rounds_lt_inf {f : Fmt} (h : f.Ok) {neg : Bool} {X : ℚ} {r : Nat} (hr : f.Rounds .ne neg X r)
    (hX : 2 * X < f.mag f.infBits) : r < f.infBits := by
  refine lt_of_le_of_ne hr.1 fun he => ?_
  obtain ⟨k, hk⟩ := Nat.exists_eq_add_of_lt (f.infBits_pos h)
  rw [Nat.zero_add] at hk
  have := hr.2
  rw [if_pos rfl] at this
  have := (this.1 k (by omega)).1
  rw [he] at this
  linarith [f.mag_nonneg k]

theorem frnd_rounds (rm : Rm) (x : Nat) : FrndRounds rm x := by
  have ok := fp32_ok
  refine ⟨fun hx => ?_, fun hx => ?_, fun hx => ?_⟩
  · rw [frnd, fp32.val_nan ok hx]; rfl
  · rw [frnd, fp32.val_inf ok hx]
  · obtain ⟨m, e, hv, hmag, -⟩ := fp32.val_fin ok hx
    obtain ⟨hm, -, -⟩ := fp32.val_bound ok hv
    simp only [frnd, hv]
    have hr := roundInt_rounds rm (fp32.isNeg x) m e
    rw [hmag] at hr
    by_cases he : 0 ≤ e
    · rw [if_pos he]
      have : roundInt rm (fp32.isNeg x) m e = m * 2 ^ e.toNat := if_pos he
      obtain ⟨k, rfl⟩ := Int.eq_ofNat_of_zero_le he
      refine ⟨m * 2 ^ k, ?_, hx, rfl, ?_⟩
      · rw [this] at hr; exact hr
      · rw [← hmag]; simp
    · rw [if_neg he]
      generalize roundInt rm (fp32.isNeg x) m e = n at *
      refine ⟨n, hr, ?_⟩
      have hm' : fp32.mag x < 2 ^ 23 := by
        rw [← hmag]
        have h1 : (m : ℚ) < 2 ^ 24 := by exact_mod_cast hm
        have h2 : (2 : ℚ) ^ e ≤ 2 ^ (-1 : Int) := zpow_le_zpow_right₀ (by norm_num) (by omega)
        have h3 : (0 : ℚ) < 2 ^ e := by positivity
        calc (m : ℚ) * 2 ^ e < 2 ^ 24 * 2 ^ e := mul_lt_mul_of_pos_right h1 h3
          _ ≤ 2 ^ 24 * 2 ^ (-1 : Int) := mul_le_mul_of_nonneg_left h2 (by norm_num)
          _ = 2 ^ 23 := by norm_num
      have hn : n ≤ 2 ^ 23 := by
        have h1 : (n : ℚ) < (2 ^ 23 + 1 : Nat) := by push_cast; linarith [hr.lt]
        exact Nat.lt_succ_iff.1 (by exact_mod_cast h1)
      obtain ⟨r, h1, h2, h3⟩ := fp32.round?_rounds ok .ne (fp32.isNeg x) n 0
      rw [zpow_zero, mul_one] at h1 h3
      have hlt := Fmt.rounds_lt_inf ok h1 (by
        rw [fp32_mag_inf]
        have : (n : ℚ) ≤ (2 ^ 23 : Nat) := by exact_mod_cast hn
        push_cast at this; linarith)
      rw [h2, if_pos hlt, Option.getD_some]
      obtain ⟨s1, s2⟩ := fp32.signed_facts (fp32.isNeg x) hlt.le
      refine ⟨by rw [Fmt.IsFin, s1]; exact hlt, s2, ?_⟩
      rw [← fp32.mag_mod, s1]
      refine h3 (.inr ?_) hlt
      have : Nat.log2 n ≤ 23 := by
        rcases Nat.eq_zero_or_pos n with rfl | h0
        · decide
        · exact Nat.lt_succ_iff.1 ((Nat.log2_lt (by omega)).2 (by omega))
      simp only [Fmt.quantum, fp32, Fmt.bias]
      omega

theorem Fmt.rounds_inf_of {f : Fmt} {neg : Bool} {X : ℚ} {r : Nat} (hr : f.Rounds .ne neg X r) (hX : f.mag f.infBits ≤ X) :
    r = f.infBits := by
  refine (lt_or_eq_of_le hr.1).resolve_left fun hlt => ?_
  have := hr.2
  rw [if_pos rfl] at this
  have := (this.2 hlt).1
  have h1 := f.mag_mono hlt le_rfl
  have h2 : f.mag (r + 1) ≤ f.mag f.infBits := by
    rcases Nat.eq_or_lt_of_le (show r + 1 ≤ f.infBits by omega) with h | h
    · rw [h]
    · exact (f.mag_mono h le_rfl).le
  linarith

theorem fp32_mag_one : fp32.mag 1 = 2 ^ (-149 : Int) := by
  simp only [fp32, Fmt.mag, Fmt.bias]; norm_num

/-- Below half of the least pattern a number rounds to zero. -/
theorem fp32_rounds_tiny {neg : Bool} {X : ℚ} (hX : X < 2 ^ (-150 : Int)) (r : Nat) :
    fp32.Rounds .ne neg X r ↔ r = 0 := by
  have h2 : (2 : ℚ) ^ (-150 : Int) * 2 = 2 ^ (-149 : Int) := by norm_num
  constructor
  · intro hr
    by_contra hne
    obtain ⟨k, rfl⟩ := Nat.exists_eq_succ_of_ne_zero hne
    have h1 := hr.2
    rw [if_pos rfl] at h1
    have h3 := (h1.1 k rfl).1
    have h4 : fp32.mag 1 ≤ fp32.mag (k + 1) := by
      rcases Nat.eq_zero_or_pos k with rfl | hk
      · exact le_refl _
      · exact (fp32.mag_mono (by omega) hr.1).le
    rw [fp32_mag_one] at h4
    have := fp32.mag_nonneg k
    linarith
  · rintro rfl
    refine ⟨Nat.zero_le _, ?_⟩
    rw [if_pos rfl, fp32.mag_zero, fp32_mag_one]
    exact ⟨fun k hk => absurd hk (by omega), fun _ => ⟨by linarith, fun _ => rfl⟩⟩

theorem FVal.abs_num (neg : Bool) (m : Nat) (e : Int) : |FVal.num (.fin neg m e)| = m * 2 ^ e := by
  have : (0 : ℚ) ≤ m * 2 ^ e := by positivity
  cases neg <;> simp [FVal.num, abs_of_nonneg this]

theorem FVal.num_scale (neg : Bool) (m : Nat) (e b : Int) :
    FVal.num (.fin neg m e) * 2 ^ b = FVal.num (.fin neg m (e + b)) := by
  cases neg <;> simp [FVal.num, zpow_add₀] <;> ring

theorem FVal.sign_num (neg : Bool) {m : Nat} (hm : m ≠ 0) (e : Int) :
    FVal.num (.fin neg m e) ≠ 0 ∧ decide (FVal.num (.fin neg m e) < 0) = neg := by
  have : (0 : ℚ) < m * 2 ^ e := mul_pos (by exact_mod_cast Nat.pos_of_ne_zero hm) (by positivity)
  cases neg
  · simp only [FVal.num, Bool.false_eq_true, if_false]; exact ⟨this.ne', by simpa using this.le⟩
  · simp only [FVal.num, if_true]; exact ⟨(neg_lt_zero.2 this).ne, by simpa using this⟩

theorem fscale_rounds (x : Nat) (b : Int) (hx32 : x < 2 ^ 32) : FscaleRounds x b := by
  have ok := fp32_ok
  refine ⟨fun hx => ?_, fun hx => ?_, fun hx => ?_⟩
  · rw [fscale, fp32.val_nan ok hx]; rfl
  · rw [fscale, fp32.val_inf ok hx]
  · obtain ⟨m, e, hv, hnum, h0⟩ := fp32.val_num ok hx
    obtain ⟨hm, hlo, -⟩ := fp32.val_bound ok hv
    simp only [fscale, hv]
    rw [← hnum]
    by_cases hz : m = 0
    · have hx0 := h0.1 hz
      refine ⟨0, ?_, ?_⟩
      · rw [hz]; simpa [FVal.num] using fp32.rounds_zero ok .ne false
      · rw [if_pos hz, hz]
        have : FVal.num (.fin (fp32.isNeg x) 0 e) * 2 ^ b = 0 := by simp [FVal.num]
        rw [if_pos this]
        simp only [fp32, Fmt.signBit, Fmt.signed, Fmt.isNeg] at hx0 ⊢
        by_cases h : x / 2 ^ (8 + 23) % 2 = 1
        · simp only [h, decide_true, if_true]; omega
        · simp only [h, decide_false, Bool.false_eq_true, if_false]; omega
    · rw [if_neg hz, FVal.num_scale]
      have hs := fun k => FVal.sign_num (fp32.isNeg x) hz (e + k)
      have hq : (m : ℚ) * 2 ^ e < 2 ^ 128 := by
        have h1 := FVal.abs_num (fp32.isNeg x) m e
        rw [← h1, hnum, ← fp32_mag_inf]
        have h2 : |fp32.value x| = fp32.mag x := by
          rw [Fmt.value]; split
          · rw [abs_neg, abs_of_nonneg (fp32.mag_nonneg x)]
          · rw [abs_of_nonneg (fp32.mag_nonneg x)]
        rw [h2, ← fp32.mag_mod]
        exact fp32.mag_mono hx le_rfl
      have hlow : (2 : ℚ) ^ (-149 : Int) ≤ m * 2 ^ e := by
        have h1 : (1 : ℚ) ≤ m := by exact_mod_cast Nat.pos_of_ne_zero hz
        have h2 : (2 : ℚ) ^ (-149 : Int) ≤ 2 ^ e := zpow_le_zpow_right₀ (by norm_num) (by
          have : (1 : Int) - fp32.bias - fp32.fb = -149 := by decide
          omega)
        have h3 : (0 : ℚ) < 2 ^ e := by positivity
        nlinarith
      have hsc : ∀ k : Int, (m : ℚ) * 2 ^ (e + k) = m * 2 ^ e * 2 ^ k := fun k => by rw [zpow_add₀ (by norm_num)]; ring
      obtain ⟨r, h1, h2⟩ := fp32.roundNE_nearest ok (fp32.isNeg x) m (e + max (-600) (min 600 b))
      rw [if_neg (hs _).1, (hs _).2] at h2
      rw [FVal.abs_num, hsc] at h1
      refine ⟨r, ?_, by rw [if_neg (hs _).1, (hs _).2, h2]⟩
      rw [FVal.abs_num, hsc]
      rcases lt_trichotomy b (-600) with hb | hb | hb
      · rw [show max (-600) (min 600 b) = (-600 : Int) by omega] at h1
        have up : ∀ k : Int, k ≤ -600 → (m : ℚ) * 2 ^ e * 2 ^ k < 2 ^ (-150 : Int) := fun k hk => by
          have h3 : (2 : ℚ) ^ k ≤ 2 ^ (-600 : Int) := zpow_le_zpow_right₀ (by norm_num) hk
          have h4 : (0 : ℚ) < 2 ^ k := by positivity
          calc (m : ℚ) * 2 ^ e * 2 ^ k < 2 ^ 128 * 2 ^ k := mul_lt_mul_of_pos_right hq h4
            _ ≤ 2 ^ 128 * 2 ^ (-600 : Int) := mul_le_mul_of_nonneg_left h3 (by positivity)
            _ < _ := by
              rw [← zpow_natCast, ← zpow_add₀ (by norm_num)]
              exact zpow_lt_zpow_right₀ (by norm_num) (by norm_num)
        rw [fp32_rounds_tiny (up _ le_rfl)] at h1
        rw [fp32_rounds_tiny (up _ hb.le), h1]
      · rw [show max (-600) (min 600 b) = b by omega] at h1; exact h1
      · by_cases hb' : b ≤ 600
        · rw [show max (-600) (min 600 b) = b by omega] at h1; exact h1
        · rw [show max (-600) (min 600 b) = (600 : Int) by omega] at h1
          have dn : ∀ k : Int, 600 ≤ k → fp32.mag fp32.infBits ≤ (m : ℚ) * 2 ^ e * 2 ^ k := fun k hk => by
            rw [fp32_mag_inf]
            have h3 : (2 : ℚ) ^ (600 : Int) ≤ 2 ^ k := zpow_le_zpow_right₀ (by norm_num) hk
            have h4 : (2 : ℚ) ^ 128 ≤ 2 ^ (-149 : Int) * 2 ^ (600 : Int) := by
              rw [← zpow_natCast, ← zpow_add₀ (by norm_num)]
              exact zpow_le_zpow_right₀ (by norm_num) (by norm_num)
            exact h4.trans (mul_le_mul hlow h3 (by positivity) (by positivity))
          rw [Fmt.rounds_inf_of h1 (dn _ le_rfl)]
          exact fp32.rounds_inf (dn b (by omega))


/-! ### Conversions (R124, R230, R231) -/

theorem ofInt'_zero (i : Int) : ofInt' i 0 false = .fin (decide (i < 0)) i.natAbs 0 := by
  unfold ofInt'; split
  · rename_i h; subst h; rfl
  · rfl

theorem convertsFloat (src : Nat) (rm : Rm) (pol x : Nat) (hs : src < 8) : ConvertsFloat src rm pol x := by
  have main : ∀ (f : Fmt), f.Ok →
      (cvtSource src x = .nan → cvtFloat f rm pol (cvtSource src x) = if pol = 3 then none else some f.nan) ∧
      (∀ neg, cvtSource src x = .inf neg → cvtFloat f rm pol (cvtSource src x) = some (f.signed neg f.infBits)) ∧
      ∀ neg m e, cvtSource src x = .fin neg m e → ∃ r, f.Rounds rm neg (m * 2 ^ e) r ∧
        cvtFloat f rm pol (cvtSource src x) = if r < f.infBits then some (f.signed neg r)
          else match pol with
            | 0 => some (f.signed neg f.maxFin)
            | 1 => some (f.signed neg f.infBits)
            | 2 => some f.nan
            | _ => none := fun f ok => by
    refine ⟨fun h => by rw [h]; rfl, fun neg h => by rw [h]; rfl, fun neg m e h => ?_⟩
    obtain ⟨r, h1, h2, -⟩ := f.round?_rounds ok rm neg m e
    refine ⟨r, h1, ?_⟩
    rw [h]; unfold cvtFloat; simp only [h2]
    by_cases hr : r < f.infBits
    · rw [if_pos hr, if_pos hr]
    · rw [if_neg hr, if_neg hr] <;> rcases pol with _ | _ | _ | pol <;> rfl
  intro tf htf
  simp only [List.mem_cons, List.not_mem_nil, or_false] at htf
  rcases htf with rfl | rfl | rfl
  · have : cvtOne src 0 rm pol x = cvtFloat fp32 rm pol (cvtSource src x) := by
      interval_cases src <;> rfl
    rw [this]; exact main fp32 fp32_ok
  · have : cvtOne src 1 rm pol x = cvtFloat fp16 rm pol (cvtSource src x) := by
      interval_cases src <;> rfl
    rw [this]; exact main fp16 fp16_ok
  · have : cvtOne src 2 rm pol x = cvtFloat bf16 rm pol (cvtSource src x) := by
      interval_cases src <;> rfl
    rw [this]; exact main bf16 bf16_ok



/-- Zero or more: an exact value rounded to an integer, its sign put before it. -/
theorem cvtInt_fin (w : Nat) (sg : Bool) (rm : Rm) (pol : Nat) (neg : Bool) (m : Nat) (e : Int) :
    ∃ n, RoundsInt rm neg (m * 2 ^ e) n ∧
      let lo : Int := if sg then -2 ^ (w - 1) else 0
      let hi : Int := if sg then 2 ^ (w - 1) - 1 else 2 ^ w - 1
      let i : Int := if neg then -(n : Int) else n
      cvtInt w sg rm pol (.fin neg m e) = if lo ≤ i ∧ i ≤ hi then some (i % 2 ^ w).toNat else cvtInt w sg rm pol (.inf neg) := by
  refine ⟨roundInt rm neg m e, roundInt_rounds rm neg m e, ?_⟩
  have hi : (if neg then -1 else 1 : Int) * (roundInt rm neg m e : Nat) =
      if neg then -(roundInt rm neg m e : Int) else roundInt rm neg m e := by cases neg <;> simp
  simp only [cvtInt, hi, natMod]
  generalize (if neg = true then -(roundInt rm neg m e : Int) else (roundInt rm neg m e : Int)) = i
  generalize (if sg = true then -2 ^ (w - 1) else 0 : Int) = lo
  generalize (if sg = true then 2 ^ (w - 1) - 1 else 2 ^ w - 1 : Int) = hi'
  by_cases h : lo ≤ i ∧ i ≤ hi'
  · rw [if_pos h, if_neg (by omega)]
  · rw [if_neg h, if_pos (by omega)]

theorem convertsInt (src : Nat) (rm : Rm) (pol x : Nat) (hs : src < 8) : ConvertsInt src rm pol x := by
  intro tf htf
  simp only [List.mem_cons, List.not_mem_nil, or_false] at htf
  rcases htf with rfl | rfl | rfl
  · have : cvtOne src 5 rm pol x = cvtInt 32 true rm pol (cvtSource src x) := by interval_cases src <;> rfl
    simp only [this]
    refine ⟨fun h => by rw [h]; rcases pol with _ | _ | _ | _ | pol <;> rfl,
      fun neg h => by rw [h]; rcases pol with _ | _ | _ | _ | pol <;> cases neg <;> rfl, fun neg m e h => ?_⟩
    obtain ⟨n, h1, h2⟩ := cvtInt_fin 32 true rm pol neg m e
    refine ⟨n, h1, ?_⟩
    rw [h, h2]
    rcases pol with _ | _ | _ | _ | pol <;> cases neg <;> rfl
  · have : cvtOne src 6 rm pol x = cvtInt 32 false rm pol (cvtSource src x) := by interval_cases src <;> rfl
    simp only [this]
    refine ⟨fun h => by rw [h]; rcases pol with _ | _ | _ | _ | pol <;> rfl,
      fun neg h => by rw [h]; rcases pol with _ | _ | _ | _ | pol <;> cases neg <;> rfl, fun neg m e h => ?_⟩
    obtain ⟨n, h1, h2⟩ := cvtInt_fin 32 false rm pol neg m e
    refine ⟨n, h1, ?_⟩
    rw [h, h2]
    rcases pol with _ | _ | _ | _ | pol <;> cases neg <;> rfl
  · have : cvtOne src 7 rm pol x = cvtInt 8 true rm pol (cvtSource src x) := by interval_cases src <;> rfl
    simp only [this]
    refine ⟨fun h => by rw [h]; rcases pol with _ | _ | _ | _ | pol <;> rfl,
      fun neg h => by rw [h]; rcases pol with _ | _ | _ | _ | pol <;> cases neg <;> rfl, fun neg m e h => ?_⟩
    obtain ⟨n, h1, h2⟩ := cvtInt_fin 8 true rm pol neg m e
    refine ⟨n, h1, ?_⟩
    rw [h, h2]
    rcases pol with _ | _ | _ | _ | pol <;> cases neg <;> rfl

/-- A logarithmic code of `w` bits. -/
theorem lgToF_lgVal (w n y : Nat) (hw : (w, n) = (8, 8) ∨ (w, n) = (6, 4)) (hy : y < 2 ^ w) :
    let c := (BitVec.ofNat (w - 1) y).toInt
    (y = 2 ^ (w - 2) → lgToF w (lgVal w y) = .fin false 0 0) ∧ (y = 2 ^ (w - 1) + 2 ^ (w - 2) → lgToF w (lgVal w y) = .nan) ∧
    (y % 2 ^ (w - 1) ≠ 2 ^ (w - 2) → lgToF w (lgVal w y) = .fin (decide (2 ^ (w - 1) ≤ y))
      ([0x800000, 0x8B95C2, 0x9837F0, 0xA5FED7, 0xB504F3, 0xC5672A, 0xD744FD, 0xEAC0C7].getD ((c % n).toNat * (8 / n)) 0)
      (c / n - 23)) := by
  rcases hw with hw | hw
  · obtain ⟨rfl, rfl⟩ := Prod.mk.inj hw
    revert y; decide +kernel
  · obtain ⟨rfl, rfl⟩ := Prod.mk.inj hw
    revert y; decide +kernel

theorem convertsFrom (x : Nat) (hx : x < 2 ^ 32) : ConvertsFrom x where
  float := by
    have main : ∀ (f : Fmt) (v : FVal) (y : Nat), f.Ok → v = f.val y →
        (f.IsNaN y → v = .nan) ∧ (f.IsInf y → v = .inf (f.isNeg y)) ∧
        (f.IsFin y → ∃ (m : Nat) (e : Int), v = .fin (f.isNeg y) m e ∧ (m : ℚ) * 2 ^ e = f.mag y) := by
      rintro f v y ok rfl
      refine ⟨f.val_nan ok, f.val_inf ok, fun h => ?_⟩
      obtain ⟨m, e, h1, h2, -⟩ := f.val_fin ok h
      exact ⟨m, e, h1, h2⟩
    intro sf hsf
    simp only [List.mem_cons, List.not_mem_nil, or_false] at hsf
    rcases hsf with rfl | rfl | rfl
    · exact main fp32 _ _ fp32_ok (by rw [Nat.mod_eq_of_lt hx]; rfl)
    · exact main fp16 _ _ fp16_ok rfl
    · exact main bf16 _ _ bf16_ok rfl
  int := by
    have sg : ∀ w, 0 < w → sgn w x = (BitVec.ofNat w x).toInt := fun w hw => by
      rw [sgn, BitVec.toInt_eq_toNat_cond, BitVec.toNat_ofNat]
      have : 2 ^ w = 2 * 2 ^ (w - 1) := by rw [← pow_succ']; congr 1; omega
      by_cases h : x % 2 ^ w < 2 ^ (w - 1)
      · rw [if_pos h, if_pos (by omega)]
      · rw [if_neg h, if_neg (by omega)]; push_cast; rfl
    intro si hsi
    simp only [List.mem_cons, List.not_mem_nil, or_false] at hsi
    rcases hsi with rfl | rfl | rfl
    · exact (congrArg (fun i => ofInt' i 0 false) (sg 32 (by norm_num))).trans (ofInt'_zero _)
    · exact ofInt'_zero _
    · exact (congrArg (fun i => ofInt' i 0 false) (sg 8 (by norm_num))).trans (ofInt'_zero _)
  lg := by
    intro sl hsl
    simp only [List.mem_cons, List.not_mem_nil, or_false] at hsl
    rcases hsl with rfl | rfl
    · exact lgToF_lgVal 8 8 _ (.inl rfl) (Nat.mod_lt _ (by norm_num))
    · exact lgToF_lgVal 6 4 _ (.inr rfl) (Nat.mod_lt _ (by norm_num))

/-! ### Logarithmic targets (R122 to R124) -/

/-- A natural power in the bounds of its logarithm, scaled. -/
theorem log2_scaled (p : Nat) (k : Int) (hp : p ≠ 0) :
    (2 : ℚ) ^ ((Nat.log2 p : Int) + k) ≤ p * 2 ^ k ∧ (p : ℚ) * 2 ^ k < 2 ^ ((Nat.log2 p : Int) + k + 1) ∧
    (p = 2 ^ Nat.log2 p ↔ (p : ℚ) * 2 ^ k = 2 ^ ((Nat.log2 p : Int) + k)) := by
  have h2 : (2 : ℚ) ≠ 0 := two_ne_zero
  have hk : (0 : ℚ) < 2 ^ k := zpow_pos two_pos k
  have h1 : (2 : ℚ) ^ Nat.log2 p ≤ p := by exact_mod_cast Nat.log2_self_le hp
  have h3 : (p : ℚ) < 2 ^ (Nat.log2 p + 1) := by exact_mod_cast Nat.lt_log2_self
  refine ⟨?_, ?_, ?_⟩
  · rw [zpow_add₀ h2, zpow_natCast]; gcongr
  · rw [show (Nat.log2 p : Int) + k + 1 = ((Nat.log2 p + 1 : Nat) : Int) + k by push_cast; ring, zpow_add₀ h2, zpow_natCast]
    gcongr
  · rw [zpow_add₀ h2, zpow_natCast, mul_left_inj' hk.ne']
    exact_mod_cast Iff.rfl

theorem lgRound_rounds (w : Nat) (rm : Rm) (neg : Bool) (m : Nat) (e : Int) (hm : m ≠ 0) :
    ∃ c, RoundsLg (lgSteps w) rm neg (m * 2 ^ e) c ∧ lgRound w rm neg m e = lgPlace w rm neg c := by
  have h2 : (2 : ℚ) ≠ 0 := two_ne_zero
  have one : (1 : ℚ) < 2 := by norm_num
  generalize hn : lgSteps w = n
  have pw : ∀ j : Nat, ((m : ℚ) * 2 ^ e) ^ j = (m ^ j : Nat) * 2 ^ (j * e) := fun j => by
    rw [mul_pow, Nat.cast_pow, ← zpow_natCast ((2 : ℚ) ^ e), ← zpow_mul, mul_comm e]
  obtain ⟨a1, a2, a3⟩ := log2_scaled (m ^ n) (n * e) (pow_ne_zero n hm)
  obtain ⟨b1, b2, -⟩ := log2_scaled (m ^ (2 * n)) ((2 * n : Nat) * e) (pow_ne_zero _ hm)
  rw [← pw] at a1 a2 a3 b1 b2
  have sq : ((m : ℚ) * 2 ^ e) ^ (2 * n) = (((m : ℚ) * 2 ^ e) ^ n) ^ 2 := by rw [mul_comm 2 n, pow_mul]
  have hl : ((2 * n : Nat) : Int) * e = 2 * (n : Int) * e := by push_cast; ring
  rw [hl] at b1 b2
  have up : ∀ {i j : Int}, (2 : ℚ) ^ i ≤ 2 ^ j ↔ i ≤ j := fun {i j} => zpow_le_zpow_iff_right₀ one
  refine ⟨_, ?_, by unfold lgRound; rfl⟩
  simp only [hn]
  rw [RoundsLg, sq]
  rw [sq] at b1 b2
  generalize ((m : ℚ) * 2 ^ e) ^ n = y at *
  generalize hlo : (Nat.log2 (m ^ n) : Int) + n * e = lo at *
  have lo2 : ((2 : ℚ) ^ lo) ^ 2 = 2 ^ (2 * lo) := by rw [← zpow_natCast, ← zpow_mul]; congr 1; push_cast; ring
  have hi2 : ((2 : ℚ) ^ (lo + 1)) ^ 2 = 2 ^ (2 * lo + 2) := by rw [← zpow_natCast, ← zpow_mul]; congr 1; push_cast; ring
  have pos : (0 : ℚ) < 2 ^ lo := zpow_pos two_pos _
  have y1 : (2 : ℚ) ^ (2 * lo) ≤ y ^ 2 := lo2 ▸ by gcongr
  have y2 : y ^ 2 ≤ 2 ^ (2 * lo + 2) := hi2 ▸ pow_le_pow_left₀ (pos.le.trans a1) a2.le 2
  have lt1 : ∀ {i : Int}, (2 : ℚ) ^ (i - 1) < 2 ^ i := fun {i} => zpow_lt_zpow_right₀ one (by omega)
  by_cases hx : m ^ n = 2 ^ Nat.log2 (m ^ n)
  · have hy := a3.1 hx
    rw [if_pos hx]
    split
    · exact ⟨le_trans (up.2 (by omega)) y1, by rw [hy, lo2]; exact up.2 (by omega)⟩
    · split
      · exact ⟨hy ▸ lt1, hy.le⟩
      · exact ⟨a1, a2⟩
  · rw [if_neg hx]
    have strict : (2 : ℚ) ^ lo < y := lt_of_le_of_ne a1 fun h => hx (a3.2 h.symm)
    have s1 : (2 : ℚ) ^ (lo + 1 - 1) < y := by rwa [add_sub_cancel_right]
    have s2 : y < 2 ^ (lo + 1 + 1) := a2.trans_le (up.2 (by omega))
    cases rm
    · simp only [if_true]
      by_cases hu : 2 * lo + 1 ≤ (Nat.log2 (m ^ (2 * n)) : Int) + 2 * n * e
      · rw [if_pos (decide_eq_true hu)]
        exact ⟨le_trans (up.2 (by omega)) b1, y2.trans (up.2 (by omega))⟩
      · rw [if_neg (by simpa using hu)]
        exact ⟨le_trans (up.2 (by omega)) y1, b2.le.trans (up.2 (by omega))⟩
    · exact ⟨a1, a2⟩
    · cases neg
      · exact ⟨a1, a2⟩
      · exact ⟨s1, a2.le⟩
    · cases neg
      · exact ⟨s1, a2.le⟩
      · exact ⟨a1, a2⟩

/-- A logarithm placed, as the bits of a result under a policy. -/
theorem lgPlace_bits (w : Nat) (rm : Rm) (pol : Nat) (neg : Bool) (c : Int) :
    (match lgPlace w rm neg c with
      | some x => some (lgBits w x)
      | none => lgOver w pol neg) =
    if 2 ^ (w - 2) - 1 < c then lgOver w pol neg
    else if c < -(2 ^ (w - 2) - 1) then
      some (lgBits w (if rm.away neg = true then .num neg (-(2 ^ (w - 2) - 1)) else .zero))
    else some (lgBits w (.num neg c)) := by
  unfold lgPlace
  dsimp only
  by_cases h1 : 2 ^ (w - 2) - 1 < c
  · rw [if_pos h1, if_pos h1]
  · rw [if_neg h1, if_neg h1]
    by_cases h2 : c < -(2 ^ (w - 2) - 1)
    · rw [if_pos h2, if_pos h2]; cases rm <;> cases neg <;> rfl
    · rw [if_neg h2, if_neg h2]

theorem cvtLg_fin (w : Nat) (rm : Rm) (pol : Nat) (neg : Bool) (m : Nat) (e : Int) (hm : m ≠ 0) :
    ∃ c, RoundsLg (lgSteps w) rm neg (m * 2 ^ e) c ∧ cvtLg w rm pol (.fin neg m e) =
      match lgPlace w rm neg c with
      | some x => some (lgBits w x)
      | none => lgOver w pol neg := by
  obtain ⟨c, h1, h2⟩ := lgRound_rounds w rm neg m e hm
  exact ⟨c, h1, by unfold cvtLg; dsimp only; rw [if_neg hm, h2] <;> cases lgPlace w rm neg c <;> rfl⟩

theorem lgTable_ne (i : Nat) : lgTable i ≠ 0 := by
  rcases i with _ | _ | _ | _ | _ | _ | _ | i <;> exact Nat.succ_ne_zero _

theorem lgToF_kinds (w : Nat) (v : LgVal) : (lgToF w v = .nan → v = .nar) ∧ (∀ neg, lgToF w v ≠ .inf neg) ∧
    ∀ neg e, lgToF w v = .fin neg 0 e → v = .zero := by
  cases v with
  | zero => exact ⟨nofun, nofun, fun _ _ _ => rfl⟩
  | nar => exact ⟨fun _ => rfl, nofun, nofun⟩
  | num neg c => exact ⟨nofun, nofun, fun _ _ h => absurd (FVal.fin.inj h).2.1 (lgTable_ne _)⟩

/-- LG8 to LG6: the count of eighths halved and rounded (R123). -/
theorem lg8to6_rounds (rm : Rm) (neg : Bool) (c : Int) : ∃ d : Int, lg8to6 rm neg c = lgPlace 6 rm neg d ∧
    if rm = .ne then |c - 2 * d| ≤ 1 ∧ (|c - 2 * d| = 1 → d % 2 = 0)
    else if rm.away neg = true then c ≤ 2 * d ∧ 2 * d < c + 2 else 2 * d ≤ c ∧ c < 2 * d + 2 := by
  refine ⟨_, rfl, ?_⟩
  by_cases h : c % 2 = 0
  · rw [if_pos h]
    have e : c - 2 * (c / 2) = 0 := by omega
    split
    · rw [e]; exact ⟨by decide, fun h => by cases h⟩
    · split <;> omega
  · rw [if_neg h]
    cases rm
    · simp only [if_true]
      by_cases hu : c / 2 % 2 = 0
      · rw [if_pos hu, abs_le]; exact ⟨by omega, fun _ => hu⟩
      · rw [if_neg hu, abs_le]; exact ⟨by omega, fun _ => by omega⟩
    all_goals cases neg <;> (split <;> simp_all [Rm.away]) <;> omega

theorem convertsLg (src : Nat) (rm : Rm) (pol x : Nat) (hs : src < 8) : ConvertsLg src rm pol x := by
  have main : ∀ (w : Nat) (y : Option Nat), y = cvtLg w rm pol (cvtSource src x) →
      (cvtSource src x = .nan → y = if pol = 3 then none else some (lgBits w .nar)) ∧
      (∀ neg, cvtSource src x = .inf neg → y = lgOver w pol neg) ∧
      ∀ neg m e, cvtSource src x = .fin neg m e → (m = 0 → y = some (lgBits w .zero)) ∧
        (m ≠ 0 → ∃ c, RoundsLg (lgSteps w) rm neg (m * 2 ^ e) c ∧ y =
          if 2 ^ (w - 2) - 1 < c then lgOver w pol neg
          else if c < -(2 ^ (w - 2) - 1) then
            some (lgBits w (if rm.away neg = true then .num neg (-(2 ^ (w - 2) - 1)) else .zero))
          else some (lgBits w (.num neg c))) := by
    rintro w y rfl
    refine ⟨fun h => by rw [h]; rfl, fun neg h => by rw [h]; rfl, fun neg m e h => ⟨fun hm => ?_, fun hm => ?_⟩⟩
    · rw [h]; subst hm; rfl
    · obtain ⟨c, h1, h2⟩ := cvtLg_fin w rm pol neg m e hm
      exact ⟨c, h1, by rw [h, h2, lgPlace_bits]⟩
  intro tf htf
  simp only [List.mem_cons, List.not_mem_nil, or_false] at htf
  rcases htf with rfl | rfl
  · by_cases h4 : src = 4
    · subst h4
      have ks := lgToF_kinds 6 (lgVal 6 (x % 2 ^ 6))
      refine ⟨fun h => ?_, fun neg h => absurd h (ks.2.1 neg), fun neg m e h => ⟨fun hm => ?_, fun _ _ h => absurd rfl h⟩,
        fun h => absurd h (by decide), fun _ _ neg c h => ?_⟩
      · rw [cvtOne, ks.1 h]
      · subst hm; rw [cvtOne, ks.2.2 neg e h]
      · rw [cvtOne, h]
    · have : cvtOne src 3 rm pol x = cvtLg 8 rm pol (cvtSource src x) := by
        interval_cases src <;> first | rfl | exact absurd rfl h4
      obtain ⟨h1, h2, h3⟩ := main 8 _ this
      rcases pol with _ | _ | _ | _ | pol <;>
        exact ⟨h1, h2, fun neg m e h => ⟨(h3 neg m e h).1, fun hm _ _ => (h3 neg m e h).2 hm⟩,
        fun _ h => absurd h (by decide), fun h => absurd h h4⟩
  · by_cases h3 : src = 3
    · subst h3
      have ks := lgToF_kinds 8 (lgVal 8 (x % 2 ^ 8))
      refine ⟨fun h => ?_, fun neg h => absurd h (ks.2.1 neg), fun neg m e h => ⟨fun hm => ?_, fun _ h => absurd rfl h⟩,
        fun _ _ neg c h => ?_, fun h => absurd h (by decide)⟩
      · rw [cvtOne, ks.1 h]
      · subst hm; rw [cvtOne, ks.2.2 neg e h]
      · obtain ⟨d, h1, h2⟩ := lg8to6_rounds rm neg c
        refine ⟨d, ?_, h2⟩
        rw [cvtOne, h]
        dsimp only
        rw [h1]
        rcases pol with _ | _ | _ | _ | pol <;> exact lgPlace_bits 6 rm _ neg d
    · have : cvtOne src 4 rm pol x = cvtLg 6 rm pol (cvtSource src x) := by
        interval_cases src <;> first | rfl | exact absurd rfl h3
      obtain ⟨h1, h2, h3'⟩ := main 6 _ this
      rcases pol with _ | _ | _ | _ | pol <;>
        exact ⟨h1, h2, fun neg m e h => ⟨(h3' neg m e h).1, fun hm _ _ => (h3' neg m e h).2 hm⟩,
        fun h => absurd h h3, fun _ h => absurd h (by decide)⟩

end Sys2Proof.Machine
end

