-- ==== Sys2Proof/Laws/PerInstr.lean ====
section
/-! SUPPORT. The family RoundTrip: the encoded word of each instruction decodes to it. -/

namespace Sys2Proof.Laws

/-- The word of `i`, where it has one, decodes to `i` (R88, R91 to R94). -/
def RoundTrip.Statement (i : Instr) : Prop := ∀ w, encode i = some w → decode w = .ok i

theorem RoundTrip.of_major {i : Instr} {h : Hdr} {op : BitVec 5} {pl : BitVec 24}
    (he : encodeWord i = some (word h op pl)) (hm : wf i = true → decodeMajor h op pl = .ok i) : RoundTrip.Statement i := by
  intro w hw
  simp only [encode] at hw
  split at hw
  · rename_i hwf
    rw [he] at hw
    cases hw
    simp [decode, hm hwf, hwf]
  · cases hw

theorem RoundTrip.of_event {i : Instr} (he : encodeWord i = none) : RoundTrip.Statement i := by
  intro w hw
  simp [encode, he] at hw

theorem RoundTrip.nop (h : Hdr) : RoundTrip.Statement (.nop h) :=
  RoundTrip.of_major rfl (fun _ => by simp [decodeMajor, decodeSys])
theorem RoundTrip.exit (h : Hdr) : RoundTrip.Statement (.exit h) :=
  RoundTrip.of_major rfl (fun _ => by simp [decodeMajor, decodeSys])
theorem RoundTrip.yield (h : Hdr) : RoundTrip.Statement (.yield h) :=
  RoundTrip.of_major rfl (fun _ => by simp [decodeMajor, decodeSys])
theorem RoundTrip.sleep (h : Hdr) (a : BitVec 6) : RoundTrip.Statement (.sleep h a) :=
  RoundTrip.of_major rfl (fun _ => by simp [decodeMajor, decodeSys])
theorem RoundTrip.pri (h : Hdr) (prio : BitVec 4) : RoundTrip.Statement (.pri h prio) :=
  RoundTrip.of_major rfl (fun _ => by simp [decodeMajor, decodeSys])
theorem RoundTrip.trap (h : Hdr) (imm : BitVec 12) : RoundTrip.Statement (.trap h imm) :=
  RoundTrip.of_major rfl (fun _ => by simp [decodeMajor, decodeSys, join12])
theorem RoundTrip.launch (h : Hdr) (d : BitVec 6) (a : BitVec 5) : RoundTrip.Statement (.launch h d a) :=
  RoundTrip.of_major rfl (fun _ => by simp [decodeMajor, decodeSys])
theorem RoundTrip.fwdh (h : Hdr) (d : BitVec 6) (a : BitVec 6) : RoundTrip.Statement (.fwdh h d a) :=
  RoundTrip.of_major rfl (fun _ => by simp [decodeMajor, decodeSys])
theorem RoundTrip.rds (h : Hdr) (d : BitVec 6) (sel : BitVec 6) : RoundTrip.Statement (.rds h d sel) :=
  RoundTrip.of_major rfl (fun _ => by simp [decodeMajor, decodeSys])
theorem RoundTrip.csrr (h : Hdr) (d : BitVec 6) (r : BitVec 12) : RoundTrip.Statement (.csrr h d r) :=
  RoundTrip.of_major rfl (fun _ => by simp [decodeMajor, decodeSys, join12])
theorem RoundTrip.csrw (h : Hdr) (v : BitVec 6) (r : BitVec 12) : RoundTrip.Statement (.csrw h v r) :=
  RoundTrip.of_major rfl (fun _ => by simp [decodeMajor, decodeSys, join12])
theorem RoundTrip.csrs (h : Hdr) (v : BitVec 6) (r : BitVec 12) : RoundTrip.Statement (.csrs h v r) :=
  RoundTrip.of_major rfl (fun _ => by simp [decodeMajor, decodeSys, join12])
theorem RoundTrip.csrc (h : Hdr) (v : BitVec 6) (r : BitVec 12) : RoundTrip.Statement (.csrc h v r) :=
  RoundTrip.of_major rfl (fun _ => by simp [decodeMajor, decodeSys, join12])
theorem RoundTrip.eret (h : Hdr) : RoundTrip.Statement (.eret h) :=
  RoundTrip.of_major rfl (fun _ => by simp [decodeMajor, decodeSys])
theorem RoundTrip.wfi (h : Hdr) : RoundTrip.Statement (.wfi h) :=
  RoundTrip.of_major rfl (fun _ => by simp [decodeMajor, decodeSys])
theorem RoundTrip.btinv (h : Hdr) (a : BitVec 6) : RoundTrip.Statement (.btinv h a) :=
  RoundTrip.of_major rfl (fun _ => by simp [decodeMajor, decodeSys])
theorem RoundTrip.btsync (h : Hdr) : RoundTrip.Statement (.btsync h) :=
  RoundTrip.of_major rfl (fun _ => by simp [decodeMajor, decodeSys])
theorem RoundTrip.dig (h : Hdr) (a : BitVec 6) : RoundTrip.Statement (.dig h a) :=
  RoundTrip.of_major rfl (fun _ => by simp [decodeMajor, decodeSys])
theorem RoundTrip.add (h : Hdr) (d : BitVec 6) (a : BitVec 6) (b : BitVec 6) : RoundTrip.Statement (.add h d a b) :=
  RoundTrip.of_major rfl (fun _ => by simp [decodeMajor, decodeInt])
theorem RoundTrip.sub (h : Hdr) (d : BitVec 6) (a : BitVec 6) (b : BitVec 6) : RoundTrip.Statement (.sub h d a b) :=
  RoundTrip.of_major rfl (fun _ => by simp [decodeMajor, decodeInt])
theorem RoundTrip.mul (h : Hdr) (d : BitVec 6) (a : BitVec 6) (b : BitVec 6) : RoundTrip.Statement (.mul h d a b) :=
  RoundTrip.of_major rfl (fun _ => by simp [decodeMajor, decodeInt])
theorem RoundTrip.mulhiI (h : Hdr) (d : BitVec 6) (a : BitVec 6) (b : BitVec 6) : RoundTrip.Statement (.mulhiI h d a b) :=
  RoundTrip.of_major rfl (fun _ => by simp [decodeMajor, decodeInt])
theorem RoundTrip.mulhiN (h : Hdr) (d : BitVec 6) (a : BitVec 6) (b : BitVec 6) : RoundTrip.Statement (.mulhiN h d a b) :=
  RoundTrip.of_major rfl (fun _ => by simp [decodeMajor, decodeInt])
theorem RoundTrip.macc (h : Hdr) (d : BitVec 6) (a : BitVec 6) (b : BitVec 6) : RoundTrip.Statement (.macc h d a b) :=
  RoundTrip.of_major rfl (fun _ => by simp [decodeMajor, decodeInt])
theorem RoundTrip.divI (h : Hdr) (d : BitVec 6) (a : BitVec 6) (b : BitVec 6) : RoundTrip.Statement (.divI h d a b) :=
  RoundTrip.of_major rfl (fun _ => by simp [decodeMajor, decodeInt])
theorem RoundTrip.divN (h : Hdr) (d : BitVec 6) (a : BitVec 6) (b : BitVec 6) : RoundTrip.Statement (.divN h d a b) :=
  RoundTrip.of_major rfl (fun _ => by simp [decodeMajor, decodeInt])
theorem RoundTrip.remI (h : Hdr) (d : BitVec 6) (a : BitVec 6) (b : BitVec 6) : RoundTrip.Statement (.remI h d a b) :=
  RoundTrip.of_major rfl (fun _ => by simp [decodeMajor, decodeInt])
theorem RoundTrip.remN (h : Hdr) (d : BitVec 6) (a : BitVec 6) (b : BitVec 6) : RoundTrip.Statement (.remN h d a b) :=
  RoundTrip.of_major rfl (fun _ => by simp [decodeMajor, decodeInt])
theorem RoundTrip.minI (h : Hdr) (d : BitVec 6) (a : BitVec 6) (b : BitVec 6) : RoundTrip.Statement (.minI h d a b) :=
  RoundTrip.of_major rfl (fun _ => by simp [decodeMajor, decodeInt])
theorem RoundTrip.minN (h : Hdr) (d : BitVec 6) (a : BitVec 6) (b : BitVec 6) : RoundTrip.Statement (.minN h d a b) :=
  RoundTrip.of_major rfl (fun _ => by simp [decodeMajor, decodeInt])
theorem RoundTrip.maxI (h : Hdr) (d : BitVec 6) (a : BitVec 6) (b : BitVec 6) : RoundTrip.Statement (.maxI h d a b) :=
  RoundTrip.of_major rfl (fun _ => by simp [decodeMajor, decodeInt])
theorem RoundTrip.maxN (h : Hdr) (d : BitVec 6) (a : BitVec 6) (b : BitVec 6) : RoundTrip.Statement (.maxN h d a b) :=
  RoundTrip.of_major rfl (fun _ => by simp [decodeMajor, decodeInt])
theorem RoundTrip.abs (h : Hdr) (d : BitVec 6) (a : BitVec 6) : RoundTrip.Statement (.abs h d a) :=
  RoundTrip.of_major rfl (fun _ => by simp [decodeMajor, decodeInt])
theorem RoundTrip.neg (h : Hdr) (d : BitVec 6) (a : BitVec 6) : RoundTrip.Statement (.neg h d a) :=
  RoundTrip.of_major rfl (fun _ => by simp [decodeMajor, decodeInt])
theorem RoundTrip.and (h : Hdr) (d : BitVec 6) (a : BitVec 6) (b : BitVec 6) : RoundTrip.Statement (.and h d a b) :=
  RoundTrip.of_major rfl (fun _ => by simp [decodeMajor, decodeInt])
theorem RoundTrip.or (h : Hdr) (d : BitVec 6) (a : BitVec 6) (b : BitVec 6) : RoundTrip.Statement (.or h d a b) :=
  RoundTrip.of_major rfl (fun _ => by simp [decodeMajor, decodeInt])
theorem RoundTrip.xor (h : Hdr) (d : BitVec 6) (a : BitVec 6) (b : BitVec 6) : RoundTrip.Statement (.xor h d a b) :=
  RoundTrip.of_major rfl (fun _ => by simp [decodeMajor, decodeInt])
theorem RoundTrip.andn (h : Hdr) (d : BitVec 6) (a : BitVec 6) (b : BitVec 6) : RoundTrip.Statement (.andn h d a b) :=
  RoundTrip.of_major rfl (fun _ => by simp [decodeMajor, decodeInt])
theorem RoundTrip.orn (h : Hdr) (d : BitVec 6) (a : BitVec 6) (b : BitVec 6) : RoundTrip.Statement (.orn h d a b) :=
  RoundTrip.of_major rfl (fun _ => by simp [decodeMajor, decodeInt])
theorem RoundTrip.shl (h : Hdr) (d : BitVec 6) (a : BitVec 6) (b : BitVec 6) : RoundTrip.Statement (.shl h d a b) :=
  RoundTrip.of_major rfl (fun _ => by simp [decodeMajor, decodeInt])
theorem RoundTrip.shr (h : Hdr) (d : BitVec 6) (a : BitVec 6) (b : BitVec 6) : RoundTrip.Statement (.shr h d a b) :=
  RoundTrip.of_major rfl (fun _ => by simp [decodeMajor, decodeInt])
theorem RoundTrip.sra (h : Hdr) (d : BitVec 6) (a : BitVec 6) (b : BitVec 6) : RoundTrip.Statement (.sra h d a b) :=
  RoundTrip.of_major rfl (fun _ => by simp [decodeMajor, decodeInt])
theorem RoundTrip.rotl (h : Hdr) (d : BitVec 6) (a : BitVec 6) (b : BitVec 6) : RoundTrip.Statement (.rotl h d a b) :=
  RoundTrip.of_major rfl (fun _ => by simp [decodeMajor, decodeInt])
theorem RoundTrip.shli (h : Hdr) (d : BitVec 6) (a : BitVec 6) (n : BitVec 5) : RoundTrip.Statement (.shli h d a n) :=
  RoundTrip.of_major rfl (fun _ => by simp [decodeMajor, decodeInt])
theorem RoundTrip.shri (h : Hdr) (d : BitVec 6) (a : BitVec 6) (n : BitVec 5) : RoundTrip.Statement (.shri h d a n) :=
  RoundTrip.of_major rfl (fun _ => by simp [decodeMajor, decodeInt])
theorem RoundTrip.srai (h : Hdr) (d : BitVec 6) (a : BitVec 6) (n : BitVec 5) : RoundTrip.Statement (.srai h d a n) :=
  RoundTrip.of_major rfl (fun _ => by simp [decodeMajor, decodeInt])
theorem RoundTrip.clz (h : Hdr) (d : BitVec 6) (a : BitVec 6) : RoundTrip.Statement (.clz h d a) :=
  RoundTrip.of_major rfl (fun _ => by simp [decodeMajor, decodeInt])
theorem RoundTrip.ctz (h : Hdr) (d : BitVec 6) (a : BitVec 6) : RoundTrip.Statement (.ctz h d a) :=
  RoundTrip.of_major rfl (fun _ => by simp [decodeMajor, decodeInt])
theorem RoundTrip.popc (h : Hdr) (d : BitVec 6) (a : BitVec 6) : RoundTrip.Statement (.popc h d a) :=
  RoundTrip.of_major rfl (fun _ => by simp [decodeMajor, decodeInt])
theorem RoundTrip.brev (h : Hdr) (d : BitVec 6) (a : BitVec 6) : RoundTrip.Statement (.brev h d a) :=
  RoundTrip.of_major rfl (fun _ => by simp [decodeMajor, decodeInt])
theorem RoundTrip.bfxI (h : Hdr) (d : BitVec 6) (a : BitVec 6) (b : BitVec 6) : RoundTrip.Statement (.bfxI h d a b) :=
  RoundTrip.of_major rfl (fun _ => by simp [decodeMajor, decodeInt])
theorem RoundTrip.bfxN (h : Hdr) (d : BitVec 6) (a : BitVec 6) (b : BitVec 6) : RoundTrip.Statement (.bfxN h d a b) :=
  RoundTrip.of_major rfl (fun _ => by simp [decodeMajor, decodeInt])
theorem RoundTrip.bfi (h : Hdr) (d : BitVec 6) (a : BitVec 6) (b : BitVec 6) : RoundTrip.Statement (.bfi h d a b) :=
  RoundTrip.of_major rfl (fun _ => by simp [decodeMajor, decodeInt])
theorem RoundTrip.mov (h : Hdr) (d : BitVec 6) (a : BitVec 6) : RoundTrip.Statement (.mov h d a) :=
  RoundTrip.of_major rfl (fun _ => by simp [decodeMajor, decodeInt])
theorem RoundTrip.add64 (h : Hdr) (d : BitVec 5) (a : BitVec 5) (b : BitVec 5) : RoundTrip.Statement (.add64 h d a b) :=
  RoundTrip.of_major rfl (fun _ => by simp [decodeMajor, decodeInt])
theorem RoundTrip.sub64 (h : Hdr) (d : BitVec 5) (a : BitVec 5) (b : BitVec 5) : RoundTrip.Statement (.sub64 h d a b) :=
  RoundTrip.of_major rfl (fun _ => by simp [decodeMajor, decodeInt])
theorem RoundTrip.mulwI (h : Hdr) (d : BitVec 5) (a : BitVec 6) (b : BitVec 6) : RoundTrip.Statement (.mulwI h d a b) :=
  RoundTrip.of_major rfl (fun _ => by simp [decodeMajor, decodeInt])
theorem RoundTrip.mulwN (h : Hdr) (d : BitVec 5) (a : BitVec 6) (b : BitVec 6) : RoundTrip.Statement (.mulwN h d a b) :=
  RoundTrip.of_major rfl (fun _ => by simp [decodeMajor, decodeInt])
theorem RoundTrip.addof (h : Hdr) (d : BitVec 5) (a : BitVec 5) (b : BitVec 6) : RoundTrip.Statement (.addof h d a b) :=
  RoundTrip.of_major rfl (fun _ => by simp [decodeMajor, decodeInt])
theorem RoundTrip.mkptr (h : Hdr) (d : BitVec 5) (a : BitVec 5) (b : BitVec 6) : RoundTrip.Statement (.mkptr h d a b) :=
  RoundTrip.of_major rfl (fun _ => by simp [decodeMajor, decodeInt])
theorem RoundTrip.pix (h : Hdr) (d : BitVec 6) (a : BitVec 5) : RoundTrip.Statement (.pix h d a) :=
  RoundTrip.of_major rfl (fun _ => by simp [decodeMajor, decodeInt])
theorem RoundTrip.selP0 (h : Hdr) (d : BitVec 6) (a : BitVec 6) (b : BitVec 6) : RoundTrip.Statement (.selP0 h d a b) :=
  RoundTrip.of_major rfl (fun _ => by simp [decodeMajor, decodeInt])
theorem RoundTrip.selP1 (h : Hdr) (d : BitVec 6) (a : BitVec 6) (b : BitVec 6) : RoundTrip.Statement (.selP1 h d a b) :=
  RoundTrip.of_major rfl (fun _ => by simp [decodeMajor, decodeInt])
theorem RoundTrip.selP2 (h : Hdr) (d : BitVec 6) (a : BitVec 6) (b : BitVec 6) : RoundTrip.Statement (.selP2 h d a b) :=
  RoundTrip.of_major rfl (fun _ => by simp [decodeMajor, decodeInt])
theorem RoundTrip.selP3 (h : Hdr) (d : BitVec 6) (a : BitVec 6) (b : BitVec 6) : RoundTrip.Statement (.selP3 h d a b) :=
  RoundTrip.of_major rfl (fun _ => by simp [decodeMajor, decodeInt])
theorem RoundTrip.selP4 (h : Hdr) (d : BitVec 6) (a : BitVec 6) (b : BitVec 6) : RoundTrip.Statement (.selP4 h d a b) :=
  RoundTrip.of_major rfl (fun _ => by simp [decodeMajor, decodeInt])
theorem RoundTrip.selP5 (h : Hdr) (d : BitVec 6) (a : BitVec 6) (b : BitVec 6) : RoundTrip.Statement (.selP5 h d a b) :=
  RoundTrip.of_major rfl (fun _ => by simp [decodeMajor, decodeInt])
theorem RoundTrip.selP6 (h : Hdr) (d : BitVec 6) (a : BitVec 6) (b : BitVec 6) : RoundTrip.Statement (.selP6 h d a b) :=
  RoundTrip.of_major rfl (fun _ => by simp [decodeMajor, decodeInt])
theorem RoundTrip.addi (h : Hdr) (d : BitVec 6) (a : BitVec 6) (imm : BitVec 12) : RoundTrip.Statement (.addi h d a imm) :=
  RoundTrip.of_major rfl (fun _ => by simp [decodeMajor])
theorem RoundTrip.andi (h : Hdr) (d : BitVec 6) (a : BitVec 6) (imm : BitVec 12) : RoundTrip.Statement (.andi h d a imm) :=
  RoundTrip.of_major rfl (fun _ => by simp [decodeMajor])
theorem RoundTrip.ori (h : Hdr) (d : BitVec 6) (a : BitVec 6) (imm : BitVec 12) : RoundTrip.Statement (.ori h d a imm) :=
  RoundTrip.of_major rfl (fun _ => by simp [decodeMajor])
theorem RoundTrip.xori (h : Hdr) (d : BitVec 6) (a : BitVec 6) (imm : BitVec 12) : RoundTrip.Statement (.xori h d a imm) :=
  RoundTrip.of_major rfl (fun _ => by simp [decodeMajor])
theorem RoundTrip.lui (h : Hdr) (d : BitVec 4) (imm : BitVec 20) : RoundTrip.Statement (.lui h d imm) :=
  RoundTrip.of_major rfl (fun _ => by simp [decodeMajor])
theorem RoundTrip.apc (h : Hdr) (d : BitVec 4) (imm : BitVec 20) : RoundTrip.Statement (.apc h d imm) :=
  RoundTrip.of_major rfl (fun _ => by simp [decodeMajor])
theorem RoundTrip.cmpEqB32 (h : Hdr) (p : BitVec 3) (a : BitVec 6) (b : BitVec 6) : RoundTrip.Statement (.cmpEqB32 h p a b) :=
  RoundTrip.of_major rfl (fun _ => by simp [decodeMajor, decodeCmp])
theorem RoundTrip.cmpNeB32 (h : Hdr) (p : BitVec 3) (a : BitVec 6) (b : BitVec 6) : RoundTrip.Statement (.cmpNeB32 h p a b) :=
  RoundTrip.of_major rfl (fun _ => by simp [decodeMajor, decodeCmp])
theorem RoundTrip.cmpLtI32 (h : Hdr) (p : BitVec 3) (a : BitVec 6) (b : BitVec 6) : RoundTrip.Statement (.cmpLtI32 h p a b) :=
  RoundTrip.of_major rfl (fun _ => by simp [decodeMajor, decodeCmp])
theorem RoundTrip.cmpLeI32 (h : Hdr) (p : BitVec 3) (a : BitVec 6) (b : BitVec 6) : RoundTrip.Statement (.cmpLeI32 h p a b) :=
  RoundTrip.of_major rfl (fun _ => by simp [decodeMajor, decodeCmp])
theorem RoundTrip.cmpLtN32 (h : Hdr) (p : BitVec 3) (a : BitVec 6) (b : BitVec 6) : RoundTrip.Statement (.cmpLtN32 h p a b) :=
  RoundTrip.of_major rfl (fun _ => by simp [decodeMajor, decodeCmp])
theorem RoundTrip.cmpLeN32 (h : Hdr) (p : BitVec 3) (a : BitVec 6) (b : BitVec 6) : RoundTrip.Statement (.cmpLeN32 h p a b) :=
  RoundTrip.of_major rfl (fun _ => by simp [decodeMajor, decodeCmp])
theorem RoundTrip.cmpEqB64 (h : Hdr) (p : BitVec 3) (a : BitVec 5) (b : BitVec 5) : RoundTrip.Statement (.cmpEqB64 h p a b) :=
  RoundTrip.of_major rfl (fun _ => by simp [decodeMajor, decodeCmp])
theorem RoundTrip.cmpNeB64 (h : Hdr) (p : BitVec 3) (a : BitVec 5) (b : BitVec 5) : RoundTrip.Statement (.cmpNeB64 h p a b) :=
  RoundTrip.of_major rfl (fun _ => by simp [decodeMajor, decodeCmp])
theorem RoundTrip.cmpLtI64 (h : Hdr) (p : BitVec 3) (a : BitVec 5) (b : BitVec 5) : RoundTrip.Statement (.cmpLtI64 h p a b) :=
  RoundTrip.of_major rfl (fun _ => by simp [decodeMajor, decodeCmp])
theorem RoundTrip.cmpLeI64 (h : Hdr) (p : BitVec 3) (a : BitVec 5) (b : BitVec 5) : RoundTrip.Statement (.cmpLeI64 h p a b) :=
  RoundTrip.of_major rfl (fun _ => by simp [decodeMajor, decodeCmp])
theorem RoundTrip.cmpLtN64 (h : Hdr) (p : BitVec 3) (a : BitVec 5) (b : BitVec 5) : RoundTrip.Statement (.cmpLtN64 h p a b) :=
  RoundTrip.of_major rfl (fun _ => by simp [decodeMajor, decodeCmp])
theorem RoundTrip.cmpLeN64 (h : Hdr) (p : BitVec 3) (a : BitVec 5) (b : BitVec 5) : RoundTrip.Statement (.cmpLeN64 h p a b) :=
  RoundTrip.of_major rfl (fun _ => by simp [decodeMajor, decodeCmp])
theorem RoundTrip.cmpEqF32 (h : Hdr) (p : BitVec 3) (a : BitVec 6) (b : BitVec 6) : RoundTrip.Statement (.cmpEqF32 h p a b) :=
  RoundTrip.of_major rfl (fun _ => by simp [decodeMajor, decodeCmp])
theorem RoundTrip.cmpNeF32 (h : Hdr) (p : BitVec 3) (a : BitVec 6) (b : BitVec 6) : RoundTrip.Statement (.cmpNeF32 h p a b) :=
  RoundTrip.of_major rfl (fun _ => by simp [decodeMajor, decodeCmp])
theorem RoundTrip.cmpLtF32 (h : Hdr) (p : BitVec 3) (a : BitVec 6) (b : BitVec 6) : RoundTrip.Statement (.cmpLtF32 h p a b) :=
  RoundTrip.of_major rfl (fun _ => by simp [decodeMajor, decodeCmp])
theorem RoundTrip.cmpLeF32 (h : Hdr) (p : BitVec 3) (a : BitVec 6) (b : BitVec 6) : RoundTrip.Statement (.cmpLeF32 h p a b) :=
  RoundTrip.of_major rfl (fun _ => by simp [decodeMajor, decodeCmp])
theorem RoundTrip.cmpUnF32 (h : Hdr) (p : BitVec 3) (a : BitVec 6) (b : BitVec 6) : RoundTrip.Statement (.cmpUnF32 h p a b) :=
  RoundTrip.of_major rfl (fun _ => by simp [decodeMajor, decodeCmp])
theorem RoundTrip.cmpiEq (h : Hdr) (p : BitVec 3) (a : BitVec 6) (imm : BitVec 12) : RoundTrip.Statement (.cmpiEq h p a imm) :=
  RoundTrip.of_major rfl (fun _ => by simp [decodeMajor, decodeCmpi])
theorem RoundTrip.cmpiNe (h : Hdr) (p : BitVec 3) (a : BitVec 6) (imm : BitVec 12) : RoundTrip.Statement (.cmpiNe h p a imm) :=
  RoundTrip.of_major rfl (fun _ => by simp [decodeMajor, decodeCmpi])
theorem RoundTrip.cmpiLtI (h : Hdr) (p : BitVec 3) (a : BitVec 6) (imm : BitVec 12) : RoundTrip.Statement (.cmpiLtI h p a imm) :=
  RoundTrip.of_major rfl (fun _ => by simp [decodeMajor, decodeCmpi])
theorem RoundTrip.cmpiGeI (h : Hdr) (p : BitVec 3) (a : BitVec 6) (imm : BitVec 12) : RoundTrip.Statement (.cmpiGeI h p a imm) :=
  RoundTrip.of_major rfl (fun _ => by simp [decodeMajor, decodeCmpi])
theorem RoundTrip.cmpiLtN (h : Hdr) (p : BitVec 3) (a : BitVec 6) (imm : BitVec 12) : RoundTrip.Statement (.cmpiLtN h p a imm) :=
  RoundTrip.of_major rfl (fun _ => by simp [decodeMajor, decodeCmpi])
theorem RoundTrip.cmpiGeN (h : Hdr) (p : BitVec 3) (a : BitVec 6) (imm : BitVec 12) : RoundTrip.Statement (.cmpiGeN h p a imm) :=
  RoundTrip.of_major rfl (fun _ => by simp [decodeMajor, decodeCmpi])
theorem RoundTrip.cmpiBset (h : Hdr) (p : BitVec 3) (a : BitVec 6) (imm : BitVec 5) : RoundTrip.Statement (.cmpiBset h p a imm) :=
  RoundTrip.of_major rfl (fun _ => by simp [decodeMajor, decodeCmpi])
theorem RoundTrip.cmpiBclr (h : Hdr) (p : BitVec 3) (a : BitVec 6) (imm : BitVec 5) : RoundTrip.Statement (.cmpiBclr h p a imm) :=
  RoundTrip.of_major rfl (fun _ => by simp [decodeMajor, decodeCmpi])
theorem RoundTrip.pand (h : Hdr) (p : BitVec 3) (a : BitVec 3) (b : BitVec 3) : RoundTrip.Statement (.pand h p a b) :=
  RoundTrip.of_major rfl (fun _ => by simp [decodeMajor, decodePrd])
theorem RoundTrip.por (h : Hdr) (p : BitVec 3) (a : BitVec 3) (b : BitVec 3) : RoundTrip.Statement (.por h p a b) :=
  RoundTrip.of_major rfl (fun _ => by simp [decodeMajor, decodePrd])
theorem RoundTrip.pxor (h : Hdr) (p : BitVec 3) (a : BitVec 3) (b : BitVec 3) : RoundTrip.Statement (.pxor h p a b) :=
  RoundTrip.of_major rfl (fun _ => by simp [decodeMajor, decodePrd])
theorem RoundTrip.pandn (h : Hdr) (p : BitVec 3) (a : BitVec 3) (b : BitVec 3) : RoundTrip.Statement (.pandn h p a b) :=
  RoundTrip.of_major rfl (fun _ => by simp [decodeMajor, decodePrd])
theorem RoundTrip.pmov (h : Hdr) (p : BitVec 3) (a : BitVec 3) : RoundTrip.Statement (.pmov h p a) :=
  RoundTrip.of_major rfl (fun _ => by simp [decodeMajor, decodePrd])
theorem RoundTrip.pset (h : Hdr) (p : BitVec 3) (n : BitVec 1) : RoundTrip.Statement (.pset h p n) :=
  RoundTrip.of_major rfl (fun _ => by simp [decodeMajor, decodePrd])
theorem RoundTrip.p2v (h : Hdr) (d : BitVec 6) : RoundTrip.Statement (.p2v h d) :=
  RoundTrip.of_major rfl (fun _ => by simp [decodeMajor, decodePrd])
theorem RoundTrip.v2p (h : Hdr) (a : BitVec 6) : RoundTrip.Statement (.v2p h a) :=
  RoundTrip.of_major rfl (fun _ => by simp [decodeMajor, decodePrd])
theorem RoundTrip.br (h : Hdr) (p : BitVec 3) (n : BitVec 1) (prio : BitVec 4) (disp : BitVec 16) : RoundTrip.Statement (.br h p n prio disp) :=
  RoundTrip.of_major rfl (fun _ => by simp [decodeMajor])
theorem RoundTrip.jmp (h : Hdr) (prio : BitVec 4) (disp : BitVec 19) : RoundTrip.Statement (.jmp h prio disp) :=
  RoundTrip.of_major rfl (fun _ => by simp [decodeMajor])
theorem RoundTrip.call (h : Hdr) (prio : BitVec 4) (disp : BitVec 19) : RoundTrip.Statement (.call h prio disp) :=
  RoundTrip.of_major rfl (fun _ => by simp [decodeMajor])
theorem RoundTrip.jr (h : Hdr) (a : BitVec 6) (prio : BitVec 4) : RoundTrip.Statement (.jr h a prio) :=
  RoundTrip.of_major rfl (fun _ => by simp [decodeMajor, decodeJr])
theorem RoundTrip.callr (h : Hdr) (a : BitVec 6) (prio : BitVec 4) : RoundTrip.Statement (.callr h a prio) :=
  RoundTrip.of_major rfl (fun _ => by simp [decodeMajor, decodeJr])
theorem RoundTrip.ret (h : Hdr) (prio : BitVec 4) : RoundTrip.Statement (.ret h prio) :=
  RoundTrip.of_major rfl (fun _ => by simp [decodeMajor, decodeJr])
theorem RoundTrip.kjoin (h : Hdr) (d : BitVec 6) : RoundTrip.Statement (.kjoin h d) :=
  RoundTrip.of_major rfl (fun _ => by simp [decodeMajor, decodeKm])
theorem RoundTrip.kleave (h : Hdr) (d : BitVec 6) : RoundTrip.Statement (.kleave h d) :=
  RoundTrip.of_major rfl (fun _ => by simp [decodeMajor, decodeKm])
theorem RoundTrip.kwait (h : Hdr) (p : BitVec 3) (a : BitVec 6) : RoundTrip.Statement (.kwait h p a) :=
  RoundTrip.of_major rfl (fun _ => by simp [decodeMajor, decodeKm])
theorem RoundTrip.kbal (h : Hdr) (d : BitVec 6) (b : BitVec 3) : RoundTrip.Statement (.kbal h d b) :=
  RoundTrip.of_major rfl (fun _ => by simp [decodeMajor, decodeKm])
theorem RoundTrip.kmov (h : Hdr) (d : BitVec 6) (a : BitVec 6) : RoundTrip.Statement (.kmov h d a) :=
  RoundTrip.of_major rfl (fun _ => by simp [decodeMajor, decodeKm])
theorem RoundTrip.krd (h : Hdr) (d : BitVec 6) (a : BitVec 6) : RoundTrip.Statement (.krd h d a) :=
  RoundTrip.of_major rfl (fun _ => by simp [decodeMajor, decodeKm])
theorem RoundTrip.kwr (h : Hdr) (d : BitVec 6) (a : BitVec 6) : RoundTrip.Statement (.kwr h d a) :=
  RoundTrip.of_major rfl (fun _ => by simp [decodeMajor, decodeKm])
theorem RoundTrip.kclr (h : Hdr) (d : BitVec 6) : RoundTrip.Statement (.kclr h d) :=
  RoundTrip.of_major rfl (fun _ => by simp [decodeMajor, decodeKm])
theorem RoundTrip.kfront (h : Hdr) (d : BitVec 6) (sel : BitVec 6) : RoundTrip.Statement (.kfront h d sel) :=
  RoundTrip.of_major rfl (fun _ => by simp [decodeMajor, decodeKm])
theorem RoundTrip.fadd (h : Hdr) (d : BitVec 6) (a : BitVec 6) (b : BitVec 6) : RoundTrip.Statement (.fadd h d a b) :=
  RoundTrip.of_major rfl (fun _ => by simp [decodeMajor, decodeFalu])
theorem RoundTrip.fsub (h : Hdr) (d : BitVec 6) (a : BitVec 6) (b : BitVec 6) : RoundTrip.Statement (.fsub h d a b) :=
  RoundTrip.of_major rfl (fun _ => by simp [decodeMajor, decodeFalu])
theorem RoundTrip.fmul (h : Hdr) (d : BitVec 6) (a : BitVec 6) (b : BitVec 6) : RoundTrip.Statement (.fmul h d a b) :=
  RoundTrip.of_major rfl (fun _ => by simp [decodeMajor, decodeFalu])
theorem RoundTrip.fmin (h : Hdr) (d : BitVec 6) (a : BitVec 6) (b : BitVec 6) : RoundTrip.Statement (.fmin h d a b) :=
  RoundTrip.of_major rfl (fun _ => by simp [decodeMajor, decodeFalu])
theorem RoundTrip.fmax (h : Hdr) (d : BitVec 6) (a : BitVec 6) (b : BitVec 6) : RoundTrip.Statement (.fmax h d a b) :=
  RoundTrip.of_major rfl (fun _ => by simp [decodeMajor, decodeFalu])
theorem RoundTrip.fabs (h : Hdr) (d : BitVec 6) (a : BitVec 6) : RoundTrip.Statement (.fabs h d a) :=
  RoundTrip.of_major rfl (fun _ => by simp [decodeMajor, decodeFalu])
theorem RoundTrip.fneg (h : Hdr) (d : BitVec 6) (a : BitVec 6) : RoundTrip.Statement (.fneg h d a) :=
  RoundTrip.of_major rfl (fun _ => by simp [decodeMajor, decodeFalu])
theorem RoundTrip.fcps (h : Hdr) (d : BitVec 6) (a : BitVec 6) (b : BitVec 6) : RoundTrip.Statement (.fcps h d a b) :=
  RoundTrip.of_major rfl (fun _ => by simp [decodeMajor, decodeFalu])
theorem RoundTrip.frndNe (h : Hdr) (d : BitVec 6) (a : BitVec 6) : RoundTrip.Statement (.frndNe h d a) :=
  RoundTrip.of_major rfl (fun _ => by simp [decodeMajor, decodeFalu])
theorem RoundTrip.frndTz (h : Hdr) (d : BitVec 6) (a : BitVec 6) : RoundTrip.Statement (.frndTz h d a) :=
  RoundTrip.of_major rfl (fun _ => by simp [decodeMajor, decodeFalu])
theorem RoundTrip.frndDn (h : Hdr) (d : BitVec 6) (a : BitVec 6) : RoundTrip.Statement (.frndDn h d a) :=
  RoundTrip.of_major rfl (fun _ => by simp [decodeMajor, decodeFalu])
theorem RoundTrip.frndUp (h : Hdr) (d : BitVec 6) (a : BitVec 6) : RoundTrip.Statement (.frndUp h d a) :=
  RoundTrip.of_major rfl (fun _ => by simp [decodeMajor, decodeFalu])
theorem RoundTrip.fclass (h : Hdr) (d : BitVec 6) (a : BitVec 6) : RoundTrip.Statement (.fclass h d a) :=
  RoundTrip.of_major rfl (fun _ => by simp [decodeMajor, decodeFalu])
theorem RoundTrip.fscale (h : Hdr) (d : BitVec 6) (a : BitVec 6) (b : BitVec 6) : RoundTrip.Statement (.fscale h d a b) :=
  RoundTrip.of_major rfl (fun _ => by simp [decodeMajor, decodeFalu])
theorem RoundTrip.hadd2 (h : Hdr) (d : BitVec 6) (a : BitVec 6) (b : BitVec 6) : RoundTrip.Statement (.hadd2 h d a b) :=
  RoundTrip.of_major rfl (fun _ => by simp [decodeMajor, decodeFalu])
theorem RoundTrip.hsub2 (h : Hdr) (d : BitVec 6) (a : BitVec 6) (b : BitVec 6) : RoundTrip.Statement (.hsub2 h d a b) :=
  RoundTrip.of_major rfl (fun _ => by simp [decodeMajor, decodeFalu])
theorem RoundTrip.hmul2 (h : Hdr) (d : BitVec 6) (a : BitVec 6) (b : BitVec 6) : RoundTrip.Statement (.hmul2 h d a b) :=
  RoundTrip.of_major rfl (fun _ => by simp [decodeMajor, decodeFalu])
theorem RoundTrip.hmin2 (h : Hdr) (d : BitVec 6) (a : BitVec 6) (b : BitVec 6) : RoundTrip.Statement (.hmin2 h d a b) :=
  RoundTrip.of_major rfl (fun _ => by simp [decodeMajor, decodeFalu])
theorem RoundTrip.hmax2 (h : Hdr) (d : BitVec 6) (a : BitVec 6) (b : BitVec 6) : RoundTrip.Statement (.hmax2 h d a b) :=
  RoundTrip.of_major rfl (fun _ => by simp [decodeMajor, decodeFalu])
theorem RoundTrip.badd2 (h : Hdr) (d : BitVec 6) (a : BitVec 6) (b : BitVec 6) : RoundTrip.Statement (.badd2 h d a b) :=
  RoundTrip.of_major rfl (fun _ => by simp [decodeMajor, decodeFalu])
theorem RoundTrip.bsub2 (h : Hdr) (d : BitVec 6) (a : BitVec 6) (b : BitVec 6) : RoundTrip.Statement (.bsub2 h d a b) :=
  RoundTrip.of_major rfl (fun _ => by simp [decodeMajor, decodeFalu])
theorem RoundTrip.bmul2 (h : Hdr) (d : BitVec 6) (a : BitVec 6) (b : BitVec 6) : RoundTrip.Statement (.bmul2 h d a b) :=
  RoundTrip.of_major rfl (fun _ => by simp [decodeMajor, decodeFalu])
theorem RoundTrip.bmin2 (h : Hdr) (d : BitVec 6) (a : BitVec 6) (b : BitVec 6) : RoundTrip.Statement (.bmin2 h d a b) :=
  RoundTrip.of_major rfl (fun _ => by simp [decodeMajor, decodeFalu])
theorem RoundTrip.bmax2 (h : Hdr) (d : BitVec 6) (a : BitVec 6) (b : BitVec 6) : RoundTrip.Statement (.bmax2 h d a b) :=
  RoundTrip.of_major rfl (fun _ => by simp [decodeMajor, decodeFalu])
theorem RoundTrip.ffma (h : Hdr) (d : BitVec 6) (a : BitVec 6) (b : BitVec 6) (c : BitVec 6) : RoundTrip.Statement (.ffma h d a b c) :=
  RoundTrip.of_major rfl (fun _ => by simp [decodeMajor])
theorem RoundTrip.hfma2 (h : Hdr) (d : BitVec 6) (a : BitVec 6) (b : BitVec 6) (c : BitVec 6) : RoundTrip.Statement (.hfma2 h d a b c) :=
  RoundTrip.of_major rfl (fun _ => by simp [decodeMajor])
theorem RoundTrip.bfma2 (h : Hdr) (d : BitVec 6) (a : BitVec 6) (b : BitVec 6) (c : BitVec 6) : RoundTrip.Statement (.bfma2 h d a b c) :=
  RoundTrip.of_major rfl (fun _ => by simp [decodeMajor])
theorem RoundTrip.cvt (h : Hdr) (d a : BitVec 6) (rm pol : BitVec 2) (src tgt : BitVec 3) :
    RoundTrip.Statement (.cvt h d a rm pol src tgt) :=
  RoundTrip.of_major rfl (fun hw => by
    obtain ⟨h0, h1, h2, h3, h4, h5, h6, h7⟩ := cvt_codes src tgt (by simpa [wf] using hw)
    simp only [decodeMajor, decodeCvt, fD_t3, fA_t3, fB_t3, fN_t3, cvtFields_append, ok_bind]
    split <;> simp_all [cvt_src, cvt_tgt])
theorem RoundTrip.cvtF16x2F32x2 (h : Hdr) (d : BitVec 6) (a : BitVec 5) (rm : BitVec 2) (pol : BitVec 2) : RoundTrip.Statement (.cvtF16x2F32x2 h d a rm pol) :=
  RoundTrip.of_major rfl (fun _ => by simp [decodeMajor, decodeCvt])
theorem RoundTrip.cvtBf16x2F32x2 (h : Hdr) (d : BitVec 6) (a : BitVec 5) (rm : BitVec 2) (pol : BitVec 2) : RoundTrip.Statement (.cvtBf16x2F32x2 h d a rm pol) :=
  RoundTrip.of_major rfl (fun _ => by simp [decodeMajor, decodeCvt])
theorem RoundTrip.cvtF32F16hi (h : Hdr) (d : BitVec 6) (a : BitVec 6) (rm : BitVec 2) (pol : BitVec 2) : RoundTrip.Statement (.cvtF32F16hi h d a rm pol) :=
  RoundTrip.of_major rfl (fun _ => by simp [decodeMajor, decodeCvt])
theorem RoundTrip.cvtF32Bf16hi (h : Hdr) (d : BitVec 6) (a : BitVec 6) (rm : BitVec 2) (pol : BitVec 2) : RoundTrip.Statement (.cvtF32Bf16hi h d a rm pol) :=
  RoundTrip.of_major rfl (fun _ => by simp [decodeMajor, decodeCvt])
theorem RoundTrip.rcp (h : Hdr) (d : BitVec 6) (a : BitVec 6) : RoundTrip.Statement (.rcp h d a) :=
  RoundTrip.of_major rfl (fun _ => by simp [decodeMajor, decodeSfu])
theorem RoundTrip.rsq (h : Hdr) (d : BitVec 6) (a : BitVec 6) : RoundTrip.Statement (.rsq h d a) :=
  RoundTrip.of_major rfl (fun _ => by simp [decodeMajor, decodeSfu])
theorem RoundTrip.sqrt (h : Hdr) (d : BitVec 6) (a : BitVec 6) : RoundTrip.Statement (.sqrt h d a) :=
  RoundTrip.of_major rfl (fun _ => by simp [decodeMajor, decodeSfu])
theorem RoundTrip.exp2 (h : Hdr) (d : BitVec 6) (a : BitVec 6) : RoundTrip.Statement (.exp2 h d a) :=
  RoundTrip.of_major rfl (fun _ => by simp [decodeMajor, decodeSfu])
theorem RoundTrip.log2 (h : Hdr) (d : BitVec 6) (a : BitVec 6) : RoundTrip.Statement (.log2 h d a) :=
  RoundTrip.of_major rfl (fun _ => by simp [decodeMajor, decodeSfu])
theorem RoundTrip.sin (h : Hdr) (d : BitVec 6) (a : BitVec 6) : RoundTrip.Statement (.sin h d a) :=
  RoundTrip.of_major rfl (fun _ => by simp [decodeMajor, decodeSfu])
theorem RoundTrip.cos (h : Hdr) (d : BitVec 6) (a : BitVec 6) : RoundTrip.Statement (.cos h d a) :=
  RoundTrip.of_major rfl (fun _ => by simp [decodeMajor, decodeSfu])
theorem RoundTrip.tanh (h : Hdr) (d : BitVec 6) (a : BitVec 6) : RoundTrip.Statement (.tanh h d a) :=
  RoundTrip.of_major rfl (fun _ => by simp [decodeMajor, decodeSfu])
theorem RoundTrip.shflIdx (h : Hdr) (d : BitVec 6) (a : BitVec 6) (b : BitVec 6) : RoundTrip.Statement (.shflIdx h d a b) :=
  RoundTrip.of_major rfl (fun _ => by simp [decodeMajor, decodeLane])
theorem RoundTrip.shflUp (h : Hdr) (d : BitVec 6) (a : BitVec 6) (b : BitVec 6) : RoundTrip.Statement (.shflUp h d a b) :=
  RoundTrip.of_major rfl (fun _ => by simp [decodeMajor, decodeLane])
theorem RoundTrip.shflDn (h : Hdr) (d : BitVec 6) (a : BitVec 6) (b : BitVec 6) : RoundTrip.Statement (.shflDn h d a b) :=
  RoundTrip.of_major rfl (fun _ => by simp [decodeMajor, decodeLane])
theorem RoundTrip.shflXor (h : Hdr) (d : BitVec 6) (a : BitVec 6) (b : BitVec 6) : RoundTrip.Statement (.shflXor h d a b) :=
  RoundTrip.of_major rfl (fun _ => by simp [decodeMajor, decodeLane])
theorem RoundTrip.voteAny (h : Hdr) (p : BitVec 3) (b : BitVec 3) : RoundTrip.Statement (.voteAny h p b) :=
  RoundTrip.of_major rfl (fun _ => by simp [decodeMajor, decodeLane])
theorem RoundTrip.voteAll (h : Hdr) (p : BitVec 3) (b : BitVec 3) : RoundTrip.Statement (.voteAll h p b) :=
  RoundTrip.of_major rfl (fun _ => by simp [decodeMajor, decodeLane])
theorem RoundTrip.lrank (h : Hdr) (d : BitVec 6) (b : BitVec 3) : RoundTrip.Statement (.lrank h d b) :=
  RoundTrip.of_major rfl (fun _ => by simp [decodeMajor, decodeLane])
theorem RoundTrip.lcnt (h : Hdr) (d : BitVec 6) (b : BitVec 3) : RoundTrip.Statement (.lcnt h d b) :=
  RoundTrip.of_major rfl (fun _ => by simp [decodeMajor, decodeLane])
theorem RoundTrip.bcast (h : Hdr) (d : BitVec 6) (a : BitVec 6) (b : BitVec 6) : RoundTrip.Statement (.bcast h d a b) :=
  RoundTrip.of_major rfl (fun _ => by simp [decodeMajor, decodeLane])
theorem RoundTrip.rdxAddI32 (h : Hdr) (d : BitVec 6) (a : BitVec 6) : RoundTrip.Statement (.rdxAddI32 h d a) :=
  RoundTrip.of_major rfl (fun _ => by simp [decodeMajor, decodeLane])
theorem RoundTrip.rdxAddF32 (h : Hdr) (d : BitVec 6) (a : BitVec 6) : RoundTrip.Statement (.rdxAddF32 h d a) :=
  RoundTrip.of_major rfl (fun _ => by simp [decodeMajor, decodeLane])
theorem RoundTrip.rdxMinI32 (h : Hdr) (d : BitVec 6) (a : BitVec 6) : RoundTrip.Statement (.rdxMinI32 h d a) :=
  RoundTrip.of_major rfl (fun _ => by simp [decodeMajor, decodeLane])
theorem RoundTrip.rdxMaxI32 (h : Hdr) (d : BitVec 6) (a : BitVec 6) : RoundTrip.Statement (.rdxMaxI32 h d a) :=
  RoundTrip.of_major rfl (fun _ => by simp [decodeMajor, decodeLane])
theorem RoundTrip.rdxMinF32 (h : Hdr) (d : BitVec 6) (a : BitVec 6) : RoundTrip.Statement (.rdxMinF32 h d a) :=
  RoundTrip.of_major rfl (fun _ => by simp [decodeMajor, decodeLane])
theorem RoundTrip.rdxMaxF32 (h : Hdr) (d : BitVec 6) (a : BitVec 6) : RoundTrip.Statement (.rdxMaxF32 h d a) :=
  RoundTrip.of_major rfl (fun _ => by simp [decodeMajor, decodeLane])
theorem RoundTrip.ld (h : Hdr) (d : BitVec 6) (w : BitVec 5) (t : BitVec 3) (cp : BitVec 2) (imm : BitVec 7) : RoundTrip.Statement (.ld h d w t cp imm) :=
  RoundTrip.of_major rfl (fun _ => by simp [decodeMajor])
theorem RoundTrip.ldx (h : Hdr) (d : BitVec 6) (w : BitVec 5) (t : BitVec 3) (cp : BitVec 2) (b : BitVec 6) : RoundTrip.Statement (.ldx h d w t cp b) :=
  RoundTrip.of_major rfl (fun _ => by simp [decodeMajor])
theorem RoundTrip.st (h : Hdr) (v : BitVec 6) (w : BitVec 5) (t : BitVec 3) (cp : BitVec 2) (imm : BitVec 7) : RoundTrip.Statement (.st h v w t cp imm) :=
  RoundTrip.of_major rfl (fun _ => by simp [decodeMajor])
theorem RoundTrip.stx (h : Hdr) (v : BitVec 6) (w : BitVec 5) (t : BitVec 3) (cp : BitVec 2) (b : BitVec 6) : RoundTrip.Statement (.stx h v w t cp b) :=
  RoundTrip.of_major rfl (fun _ => by simp [decodeMajor])
theorem RoundTrip.atomAddI32 (h : Hdr) (d : BitVec 6) (a : BitVec 5) (b : BitVec 6) : RoundTrip.Statement (.atomAddI32 h d a b) :=
  RoundTrip.of_major rfl (fun _ => by simp [decodeMajor, decodeAtom])
theorem RoundTrip.atomAddF32 (h : Hdr) (d : BitVec 6) (a : BitVec 5) (b : BitVec 6) : RoundTrip.Statement (.atomAddF32 h d a b) :=
  RoundTrip.of_major rfl (fun _ => by simp [decodeMajor, decodeAtom])
theorem RoundTrip.atomAddBf16x2 (h : Hdr) (d : BitVec 6) (a : BitVec 5) (b : BitVec 6) : RoundTrip.Statement (.atomAddBf16x2 h d a b) :=
  RoundTrip.of_major rfl (fun _ => by simp [decodeMajor, decodeAtom])
theorem RoundTrip.atomMinI32 (h : Hdr) (d : BitVec 6) (a : BitVec 5) (b : BitVec 6) : RoundTrip.Statement (.atomMinI32 h d a b) :=
  RoundTrip.of_major rfl (fun _ => by simp [decodeMajor, decodeAtom])
theorem RoundTrip.atomMinN32 (h : Hdr) (d : BitVec 6) (a : BitVec 5) (b : BitVec 6) : RoundTrip.Statement (.atomMinN32 h d a b) :=
  RoundTrip.of_major rfl (fun _ => by simp [decodeMajor, decodeAtom])
theorem RoundTrip.atomMaxI32 (h : Hdr) (d : BitVec 6) (a : BitVec 5) (b : BitVec 6) : RoundTrip.Statement (.atomMaxI32 h d a b) :=
  RoundTrip.of_major rfl (fun _ => by simp [decodeMajor, decodeAtom])
theorem RoundTrip.atomMaxN32 (h : Hdr) (d : BitVec 6) (a : BitVec 5) (b : BitVec 6) : RoundTrip.Statement (.atomMaxN32 h d a b) :=
  RoundTrip.of_major rfl (fun _ => by simp [decodeMajor, decodeAtom])
theorem RoundTrip.atomAnd (h : Hdr) (d : BitVec 6) (a : BitVec 5) (b : BitVec 6) : RoundTrip.Statement (.atomAnd h d a b) :=
  RoundTrip.of_major rfl (fun _ => by simp [decodeMajor, decodeAtom])
theorem RoundTrip.atomOr (h : Hdr) (d : BitVec 6) (a : BitVec 5) (b : BitVec 6) : RoundTrip.Statement (.atomOr h d a b) :=
  RoundTrip.of_major rfl (fun _ => by simp [decodeMajor, decodeAtom])
theorem RoundTrip.atomXor (h : Hdr) (d : BitVec 6) (a : BitVec 5) (b : BitVec 6) : RoundTrip.Statement (.atomXor h d a b) :=
  RoundTrip.of_major rfl (fun _ => by simp [decodeMajor, decodeAtom])
theorem RoundTrip.atomXchg (h : Hdr) (d : BitVec 6) (a : BitVec 5) (b : BitVec 6) : RoundTrip.Statement (.atomXchg h d a b) :=
  RoundTrip.of_major rfl (fun _ => by simp [decodeMajor, decodeAtom])
theorem RoundTrip.atomCas (h : Hdr) (d : BitVec 6) (a : BitVec 5) (b : BitVec 6) : RoundTrip.Statement (.atomCas h d a b) :=
  RoundTrip.of_major rfl (fun _ => by simp [decodeMajor, decodeAtom])
theorem RoundTrip.atomInc (h : Hdr) (d : BitVec 6) (a : BitVec 5) (b : BitVec 6) : RoundTrip.Statement (.atomInc h d a b) :=
  RoundTrip.of_major rfl (fun _ => by simp [decodeMajor, decodeAtom])
theorem RoundTrip.atomXchg64 (h : Hdr) (d : BitVec 5) (a : BitVec 5) (b : BitVec 5) : RoundTrip.Statement (.atomXchg64 h d a b) :=
  RoundTrip.of_major rfl (fun _ => by simp [decodeMajor, decodeAtom])
theorem RoundTrip.atomCas64 (h : Hdr) (d : BitVec 5) (a : BitVec 5) (b : BitVec 5) : RoundTrip.Statement (.atomCas64 h d a b) :=
  RoundTrip.of_major rfl (fun _ => by simp [decodeMajor, decodeAtom])
theorem RoundTrip.redAddI32 (h : Hdr) (a : BitVec 5) (b : BitVec 6) : RoundTrip.Statement (.redAddI32 h a b) :=
  RoundTrip.of_major rfl (fun _ => by simp [decodeMajor, decodeAtom])
theorem RoundTrip.redAddF32 (h : Hdr) (a : BitVec 5) (b : BitVec 6) : RoundTrip.Statement (.redAddF32 h a b) :=
  RoundTrip.of_major rfl (fun _ => by simp [decodeMajor, decodeAtom])
theorem RoundTrip.redAddBf16x2 (h : Hdr) (a : BitVec 5) (b : BitVec 6) : RoundTrip.Statement (.redAddBf16x2 h a b) :=
  RoundTrip.of_major rfl (fun _ => by simp [decodeMajor, decodeAtom])
theorem RoundTrip.redMinI32 (h : Hdr) (a : BitVec 5) (b : BitVec 6) : RoundTrip.Statement (.redMinI32 h a b) :=
  RoundTrip.of_major rfl (fun _ => by simp [decodeMajor, decodeAtom])
theorem RoundTrip.redMaxI32 (h : Hdr) (a : BitVec 5) (b : BitVec 6) : RoundTrip.Statement (.redMaxI32 h a b) :=
  RoundTrip.of_major rfl (fun _ => by simp [decodeMajor, decodeAtom])
theorem RoundTrip.redAnd (h : Hdr) (a : BitVec 5) (b : BitVec 6) : RoundTrip.Statement (.redAnd h a b) :=
  RoundTrip.of_major rfl (fun _ => by simp [decodeMajor, decodeAtom])
theorem RoundTrip.redOr (h : Hdr) (a : BitVec 5) (b : BitVec 6) : RoundTrip.Statement (.redOr h a b) :=
  RoundTrip.of_major rfl (fun _ => by simp [decodeMajor, decodeAtom])
theorem RoundTrip.redXor (h : Hdr) (a : BitVec 5) (b : BitVec 6) : RoundTrip.Statement (.redXor h a b) :=
  RoundTrip.of_major rfl (fun _ => by simp [decodeMajor, decodeAtom])
theorem RoundTrip.ldaB32 (h : Hdr) (d : BitVec 6) (a : BitVec 5) : RoundTrip.Statement (.ldaB32 h d a) :=
  RoundTrip.of_major rfl (fun _ => by simp [decodeMajor, decodeAtom])
theorem RoundTrip.ldaB64 (h : Hdr) (d : BitVec 5) (a : BitVec 5) : RoundTrip.Statement (.ldaB64 h d a) :=
  RoundTrip.of_major rfl (fun _ => by simp [decodeMajor, decodeAtom])
theorem RoundTrip.strB32 (h : Hdr) (a : BitVec 5) (b : BitVec 6) : RoundTrip.Statement (.strB32 h a b) :=
  RoundTrip.of_major rfl (fun _ => by simp [decodeMajor, decodeAtom])
theorem RoundTrip.strB64 (h : Hdr) (a : BitVec 5) (b : BitVec 5) : RoundTrip.Statement (.strB64 h a b) :=
  RoundTrip.of_major rfl (fun _ => by simp [decodeMajor, decodeAtom])
theorem RoundTrip.ldaSys (h : Hdr) (d : BitVec 6) (a : BitVec 5) : RoundTrip.Statement (.ldaSys h d a) :=
  RoundTrip.of_major rfl (fun _ => by simp [decodeMajor, decodeAtom])
theorem RoundTrip.strSys (h : Hdr) (a : BitVec 5) (b : BitVec 6) : RoundTrip.Statement (.strSys h a b) :=
  RoundTrip.of_major rfl (fun _ => by simp [decodeMajor, decodeAtom])
theorem RoundTrip.fenceVault (h : Hdr) (d : BitVec 6) : RoundTrip.Statement (.fenceVault h d) :=
  RoundTrip.of_major rfl (fun _ => by simp [decodeMajor, decodeFence])
theorem RoundTrip.fencePart (h : Hdr) (d : BitVec 6) : RoundTrip.Statement (.fencePart h d) :=
  RoundTrip.of_major rfl (fun _ => by simp [decodeMajor, decodeFence])
theorem RoundTrip.fenceSys (h : Hdr) (d : BitVec 6) : RoundTrip.Statement (.fenceSys h d) :=
  RoundTrip.of_major rfl (fun _ => by simp [decodeMajor, decodeFence])
theorem RoundTrip.fwait (h : Hdr) (a : BitVec 6) : RoundTrip.Statement (.fwait h a) :=
  RoundTrip.of_major rfl (fun _ => by simp [decodeMajor, decodeFence])
theorem RoundTrip.fencewVault (h : Hdr) : RoundTrip.Statement (.fencewVault h) :=
  RoundTrip.of_major rfl (fun _ => by simp [decodeMajor, decodeFence])
theorem RoundTrip.fencewPart (h : Hdr) : RoundTrip.Statement (.fencewPart h) :=
  RoundTrip.of_major rfl (fun _ => by simp [decodeMajor, decodeFence])
theorem RoundTrip.fencewSys (h : Hdr) : RoundTrip.Statement (.fencewSys h) :=
  RoundTrip.of_major rfl (fun _ => by simp [decodeMajor, decodeFence])
theorem RoundTrip.prefL1 (h : Hdr) (a : BitVec 5) : RoundTrip.Statement (.prefL1 h a) :=
  RoundTrip.of_major rfl (fun _ => by simp [decodeMajor, decodeFence])
theorem RoundTrip.prefL2 (h : Hdr) (a : BitVec 5) : RoundTrip.Statement (.prefL2 h a) :=
  RoundTrip.of_major rfl (fun _ => by simp [decodeMajor, decodeFence])
theorem RoundTrip.copy (h : Hdr) (d : BitVec 6) (a : BitVec 5) (b : BitVec 6) : RoundTrip.Statement (.copy h d a b) :=
  RoundTrip.of_major rfl (fun _ => by simp [decodeMajor, decodeCopy])
theorem RoundTrip.carm (h : Hdr) (a : BitVec 6) (b : BitVec 5) : RoundTrip.Statement (.carm h a b) :=
  RoundTrip.of_major rfl (fun _ => by simp [decodeMajor, decodeCopy])
theorem RoundTrip.bwaitFull (h : Hdr) (a : BitVec 6) : RoundTrip.Statement (.bwaitFull h a) :=
  RoundTrip.of_major rfl (fun _ => by simp [decodeMajor, decodeCopy])
theorem RoundTrip.bwaitFree (h : Hdr) (a : BitVec 6) : RoundTrip.Statement (.bwaitFree h a) :=
  RoundTrip.of_major rfl (fun _ => by simp [decodeMajor, decodeCopy])
theorem RoundTrip.btake (h : Hdr) (a : BitVec 6) : RoundTrip.Statement (.btake h a) :=
  RoundTrip.of_major rfl (fun _ => by simp [decodeMajor, decodeCopy])
theorem RoundTrip.bfree (h : Hdr) (a : BitVec 6) : RoundTrip.Statement (.bfree h a) :=
  RoundTrip.of_major rfl (fun _ => by simp [decodeMajor, decodeCopy])
theorem RoundTrip.bstat (h : Hdr) (d : BitVec 6) (a : BitVec 6) : RoundTrip.Statement (.bstat h d a) :=
  RoundTrip.of_major rfl (fun _ => by simp [decodeMajor, decodeCopy])
theorem RoundTrip.run (h : Hdr) (d : BitVec 6) (a : BitVec 5) : RoundTrip.Statement (.run h d a) :=
  RoundTrip.of_major rfl (fun _ => by simp [decodeMajor, decodeRun])
theorem RoundTrip.rstop (h : Hdr) : RoundTrip.Statement (.rstop h) :=
  RoundTrip.of_major rfl (fun _ => by simp [decodeMajor, decodeRun])
theorem RoundTrip.pop (h : Hdr) (d : BitVec 6) (n : BitVec 2) : RoundTrip.Statement (.pop h d n) :=
  RoundTrip.of_major rfl (fun _ => by simp [decodeMajor, decodeRun])
theorem RoundTrip.qstat (h : Hdr) (d : BitVec 6) : RoundTrip.Statement (.qstat h d) :=
  RoundTrip.of_major rfl (fun _ => by simp [decodeMajor, decodeRun])
theorem RoundTrip.qreset (h : Hdr) (m : BitVec 4) : RoundTrip.Statement (.qreset h m) :=
  RoundTrip.of_major rfl (fun _ => by simp [decodeMajor, decodeRun])
theorem RoundTrip.mma (h : Hdr) (t : BitVec 6) (a : BitVec 6) (wb : BitVec 5) (ty : BitVec 3) (n : BitVec 2) (bs : BitVec 2) : RoundTrip.Statement (.mma h t a wb ty n bs) :=
  RoundTrip.of_major rfl (fun _ => by simp [decodeMajor])
theorem RoundTrip.tzero (h : Hdr) (d : BitVec 6) (a : BitVec 5) (b : BitVec 6) : RoundTrip.Statement (.tzero h d a b) :=
  RoundTrip.of_major rfl (fun _ => by simp [decodeMajor, decodeTile])
theorem RoundTrip.tld (h : Hdr) (d : BitVec 6) (a : BitVec 6) (b : BitVec 6) : RoundTrip.Statement (.tld h d a b) :=
  RoundTrip.of_major rfl (fun _ => by simp [decodeMajor, decodeTile])
theorem RoundTrip.tst (h : Hdr) (v : BitVec 6) (a : BitVec 6) (b : BitVec 6) : RoundTrip.Statement (.tst h v a b) :=
  RoundTrip.of_major rfl (fun _ => by simp [decodeMajor, decodeTile])
theorem RoundTrip.trls (h : Hdr) (a : BitVec 6) : RoundTrip.Statement (.trls h a) :=
  RoundTrip.of_major rfl (fun _ => by simp [decodeMajor, decodeTile])
theorem RoundTrip.mmag (h : Hdr) (d : BitVec 6) (a : BitVec 6) (b : BitVec 5) : RoundTrip.Statement (.mmag h d a b) :=
  RoundTrip.of_major rfl (fun _ => by simp [decodeMajor, decodeTile])
theorem RoundTrip.mmal (h : Hdr) (d : BitVec 6) (a : BitVec 6) (b : BitVec 5) : RoundTrip.Statement (.mmal h d a b) :=
  RoundTrip.of_major rfl (fun _ => by simp [decodeMajor, decodeTile])
theorem RoundTrip.tstat (h : Hdr) (d : BitVec 6) (a : BitVec 6) : RoundTrip.Statement (.tstat h d a) :=
  RoundTrip.of_major rfl (fun _ => by simp [decodeMajor, decodeTile])
theorem RoundTrip.sgnew (h : Hdr) (d : BitVec 6) (a : BitVec 5) (p : BitVec 3) : RoundTrip.Statement (.sgnew h d a p) :=
  RoundTrip.of_major rfl (fun _ => by simp [decodeMajor, decodeSg])
theorem RoundTrip.sgjoin (h : Hdr) (d : BitVec 6) (a : BitVec 5) (p : BitVec 3) : RoundTrip.Statement (.sgjoin h d a p) :=
  RoundTrip.of_major rfl (fun _ => by simp [decodeMajor, decodeSg])
theorem RoundTrip.sgjoinH (h : Hdr) (d : BitVec 6) (a : BitVec 6) (p : BitVec 3) : RoundTrip.Statement (.sgjoinH h d a p) :=
  RoundTrip.of_major rfl (fun _ => by simp [decodeMajor, decodeSg])
theorem RoundTrip.sgleave (h : Hdr) (a : BitVec 6) : RoundTrip.Statement (.sgleave h a) :=
  RoundTrip.of_major rfl (fun _ => by simp [decodeMajor, decodeSg])
theorem RoundTrip.sgbar (h : Hdr) (d : BitVec 6) (a : BitVec 6) : RoundTrip.Statement (.sgbar h d a) :=
  RoundTrip.of_major rfl (fun _ => by simp [decodeMajor, decodeSg])
theorem RoundTrip.sgvoteAny (h : Hdr) (d : BitVec 6) (a : BitVec 6) (b : BitVec 3) : RoundTrip.Statement (.sgvoteAny h d a b) :=
  RoundTrip.of_major rfl (fun _ => by simp [decodeMajor, decodeSg])
theorem RoundTrip.sgvoteAll (h : Hdr) (d : BitVec 6) (a : BitVec 6) (b : BitVec 3) : RoundTrip.Statement (.sgvoteAll h d a b) :=
  RoundTrip.of_major rfl (fun _ => by simp [decodeMajor, decodeSg])
theorem RoundTrip.sgvoteCnt (h : Hdr) (d : BitVec 6) (a : BitVec 6) (b : BitVec 3) : RoundTrip.Statement (.sgvoteCnt h d a b) :=
  RoundTrip.of_major rfl (fun _ => by simp [decodeMajor, decodeSg])
theorem RoundTrip.sgredAddI32 (h : Hdr) (d : BitVec 6) (a : BitVec 6) (b : BitVec 6) : RoundTrip.Statement (.sgredAddI32 h d a b) :=
  RoundTrip.of_major rfl (fun _ => by simp [decodeMajor, decodeSg])
theorem RoundTrip.sgredAddF32 (h : Hdr) (d : BitVec 6) (a : BitVec 6) (b : BitVec 6) : RoundTrip.Statement (.sgredAddF32 h d a b) :=
  RoundTrip.of_major rfl (fun _ => by simp [decodeMajor, decodeSg])
theorem RoundTrip.sgredMinI32 (h : Hdr) (d : BitVec 6) (a : BitVec 6) (b : BitVec 6) : RoundTrip.Statement (.sgredMinI32 h d a b) :=
  RoundTrip.of_major rfl (fun _ => by simp [decodeMajor, decodeSg])
theorem RoundTrip.sgredMaxI32 (h : Hdr) (d : BitVec 6) (a : BitVec 6) (b : BitVec 6) : RoundTrip.Statement (.sgredMaxI32 h d a b) :=
  RoundTrip.of_major rfl (fun _ => by simp [decodeMajor, decodeSg])
theorem RoundTrip.sgredMinF32 (h : Hdr) (d : BitVec 6) (a : BitVec 6) (b : BitVec 6) : RoundTrip.Statement (.sgredMinF32 h d a b) :=
  RoundTrip.of_major rfl (fun _ => by simp [decodeMajor, decodeSg])
theorem RoundTrip.sgredMaxF32 (h : Hdr) (d : BitVec 6) (a : BitVec 6) (b : BitVec 6) : RoundTrip.Statement (.sgredMaxF32 h d a b) :=
  RoundTrip.of_major rfl (fun _ => by simp [decodeMajor, decodeSg])
theorem RoundTrip.sgstat (h : Hdr) (d : BitVec 6) (a : BitVec 6) (sel : BitVec 2) : RoundTrip.Statement (.sgstat h d a sel) :=
  RoundTrip.of_major rfl (fun _ => by simp [decodeMajor, decodeSg])
theorem RoundTrip.sgdrop (h : Hdr) (a : BitVec 6) : RoundTrip.Statement (.sgdrop h a) :=
  RoundTrip.of_major rfl (fun _ => by simp [decodeMajor, decodeSg])
theorem RoundTrip.shortStallExpiry (core slot ent : Nat) : RoundTrip.Statement (.shortStallExpiry core slot ent) := RoundTrip.of_event rfl
theorem RoundTrip.poolStallConvert (part : Nat) : RoundTrip.Statement (.poolStallConvert part) := RoundTrip.of_event rfl
theorem RoundTrip.poolexhaust (part launch : Nat) : RoundTrip.Statement (.poolexhaust part launch) := RoundTrip.of_event rfl
theorem RoundTrip.resultWriteback (id : Nat) : RoundTrip.Statement (.resultWriteback id) := RoundTrip.of_event rfl
theorem RoundTrip.loadResponse (id : Nat) : RoundTrip.Statement (.loadResponse id) := RoundTrip.of_event rfl
theorem RoundTrip.storeAck (id : Nat) : RoundTrip.Statement (.storeAck id) := RoundTrip.of_event rfl
theorem RoundTrip.storeHorizonReached (tid : Nat) : RoundTrip.Statement (.storeHorizonReached tid) := RoundTrip.of_event rfl
theorem RoundTrip.deviceTimeWake (tid : Nat) : RoundTrip.Statement (.deviceTimeWake tid) := RoundTrip.of_event rfl
theorem RoundTrip.ladleDrainWindow (lad : Nat) : RoundTrip.Statement (.ladleDrainWindow lad) := RoundTrip.of_event rfl
theorem RoundTrip.ladleDrain (cluster : Nat) : RoundTrip.Statement (.ladleDrain cluster) := RoundTrip.of_event rfl
theorem RoundTrip.schedulerForward (tid cluster : Nat) : RoundTrip.Statement (.schedulerForward tid cluster) := RoundTrip.of_event rfl
theorem RoundTrip.recordArrival (tid : Nat) : RoundTrip.Statement (.recordArrival tid) := RoundTrip.of_event rfl
theorem RoundTrip.homeWrite (id : Nat) : RoundTrip.Statement (.homeWrite id) := RoundTrip.of_event rfl
theorem RoundTrip.homeRead (id : Nat) : RoundTrip.Statement (.homeRead id) := RoundTrip.of_event rfl
theorem RoundTrip.vaultBankAccess (id : Nat) : RoundTrip.Statement (.vaultBankAccess id) := RoundTrip.of_event rfl
theorem RoundTrip.l1LeaseExpiry (core line : Nat) : RoundTrip.Statement (.l1LeaseExpiry core line) := RoundTrip.of_event rfl
theorem RoundTrip.leaseExpiryNotice (core line : Nat) : RoundTrip.Statement (.leaseExpiryNotice core line) := RoundTrip.of_event rfl
theorem RoundTrip.updateOnlyGrant (core line : Nat) : RoundTrip.Statement (.updateOnlyGrant core line) := RoundTrip.of_event rfl
theorem RoundTrip.l1Evict (core line : Nat) : RoundTrip.Statement (.l1Evict core line) := RoundTrip.of_event rfl
theorem RoundTrip.deferredStoreFault (id : Nat) : RoundTrip.Statement (.deferredStoreFault id) := RoundTrip.of_event rfl
theorem RoundTrip.faultEntryRetry (id : Nat) : RoundTrip.Statement (.faultEntryRetry id) := RoundTrip.of_event rfl
theorem RoundTrip.bufferStateOp (id : Nat) : RoundTrip.Statement (.bufferStateOp id) := RoundTrip.of_event rfl
theorem RoundTrip.copyComplete (id : Nat) : RoundTrip.Statement (.copyComplete id) := RoundTrip.of_event rfl
theorem RoundTrip.bufferFull (part buf : Nat) : RoundTrip.Statement (.bufferFull part buf) := RoundTrip.of_event rfl
theorem RoundTrip.runnerPush (id : Nat) : RoundTrip.Statement (.runnerPush id) := RoundTrip.of_event rfl
theorem RoundTrip.enginePageFault (id : Nat) : RoundTrip.Statement (.enginePageFault id) := RoundTrip.of_event rfl
theorem RoundTrip.tileOpArrival (id : Nat) : RoundTrip.Statement (.tileOpArrival id) := RoundTrip.of_event rfl
theorem RoundTrip.mmaStep (id : Nat) : RoundTrip.Statement (.mmaStep id) := RoundTrip.of_event rfl
theorem RoundTrip.mmalStep (id : Nat) : RoundTrip.Statement (.mmalStep id) := RoundTrip.of_event rfl
theorem RoundTrip.sgHomeRequest (id : Nat) : RoundTrip.Statement (.sgHomeRequest id) := RoundTrip.of_event rfl
theorem RoundTrip.sgReply (id : Nat) : RoundTrip.Statement (.sgReply id) := RoundTrip.of_event rfl
theorem RoundTrip.sgArrivalDepart (id : Nat) : RoundTrip.Statement (.sgArrivalDepart id) := RoundTrip.of_event rfl
theorem RoundTrip.sgResult (id : Nat) : RoundTrip.Statement (.sgResult id) := RoundTrip.of_event rfl
theorem RoundTrip.syscallPost (tid : Nat) : RoundTrip.Statement (.syscallPost tid) := RoundTrip.of_event rfl
theorem RoundTrip.launchEnqueue (id : Nat) : RoundTrip.Statement (.launchEnqueue id) := RoundTrip.of_event rfl
theorem RoundTrip.sysdoneWrite (part : Nat) (idx : BitVec 16) : RoundTrip.Statement (.sysdoneWrite part idx) := RoundTrip.of_event rfl
theorem RoundTrip.fltdoneService (part fid : Nat) : RoundTrip.Statement (.fltdoneService part fid) := RoundTrip.of_event rfl
theorem RoundTrip.fltdoneFail (part fid : Nat) : RoundTrip.Statement (.fltdoneFail part fid) := RoundTrip.of_event rfl
theorem RoundTrip.watchdog (tid : Nat) : RoundTrip.Statement (.watchdog tid) := RoundTrip.of_event rfl
theorem RoundTrip.vaultSpill (part launch cast : Nat) : RoundTrip.Statement (.vaultSpill part launch cast) := RoundTrip.of_event rfl
theorem RoundTrip.vaultRestore (part launch cast : Nat) : RoundTrip.Statement (.vaultRestore part launch cast) := RoundTrip.of_event rfl
theorem RoundTrip.pourPreempt (core slot : Nat) : RoundTrip.Statement (.pourPreempt core slot) := RoundTrip.of_event rfl
theorem RoundTrip.preemptComplete (part : Nat) : RoundTrip.Statement (.preemptComplete part) := RoundTrip.of_event rfl
theorem RoundTrip.vfSliceEnd (part : Nat) : RoundTrip.Statement (.vfSliceEnd part) := RoundTrip.of_event rfl
theorem RoundTrip.bundleRead (part q : Nat) : RoundTrip.Statement (.bundleRead part q) := RoundTrip.of_event rfl
theorem RoundTrip.castAdmit (part : Nat) : RoundTrip.Statement (.castAdmit part) := RoundTrip.of_event rfl
theorem RoundTrip.depReread (part q : Nat) : RoundTrip.Statement (.depReread part q) := RoundTrip.of_event rfl
theorem RoundTrip.castStart (cluster : Nat) : RoundTrip.Statement (.castStart cluster) := RoundTrip.of_event rfl
theorem RoundTrip.pourStart (cluster : Nat) : RoundTrip.Statement (.pourStart cluster) := RoundTrip.of_event rfl
theorem RoundTrip.epilogueStart (part launch : Nat) : RoundTrip.Statement (.epilogueStart part launch) := RoundTrip.of_event rfl
theorem RoundTrip.bundleRetire (part launch : Nat) : RoundTrip.Statement (.bundleRetire part launch) := RoundTrip.of_event rfl
theorem RoundTrip.pourPromote (core slot : Nat) : RoundTrip.Statement (.pourPromote core slot) := RoundTrip.of_event rfl
theorem RoundTrip.assayDeadline (part launch cast : Nat) : RoundTrip.Statement (.assayDeadline part launch cast) := RoundTrip.of_event rfl
theorem RoundTrip.stealRequest (cluster : Nat) : RoundTrip.Statement (.stealRequest cluster) := RoundTrip.of_event rfl
theorem RoundTrip.stealHandle (thief : Nat) : RoundTrip.Statement (.stealHandle thief) := RoundTrip.of_event rfl
theorem RoundTrip.stealReply (thief : Nat) : RoundTrip.Statement (.stealReply thief) := RoundTrip.of_event rfl
theorem RoundTrip.enacctSample (part : Nat) : RoundTrip.Statement (.enacctSample part) := RoundTrip.of_event rfl
theorem RoundTrip.rowWindowEnd (chan : Nat) : RoundTrip.Statement (.rowWindowEnd chan) := RoundTrip.of_event rfl
theorem RoundTrip.assaySetup (part launch cast : Nat) : RoundTrip.Statement (.assaySetup part launch cast) := RoundTrip.of_event rfl
theorem RoundTrip.suspicionDecay : RoundTrip.Statement .suspicionDecay := RoundTrip.of_event rfl
theorem RoundTrip.finjFlip (part : Nat) (v : BitVec 32) : RoundTrip.Statement (.finjFlip part v) := RoundTrip.of_event rfl
theorem RoundTrip.finjPoison (part tid : Nat) (v : BitVec 32) : RoundTrip.Statement (.finjPoison part tid v) := RoundTrip.of_event rfl
theorem RoundTrip.finjOff (part : Nat) (v : BitVec 32) : RoundTrip.Statement (.finjOff part v) := RoundTrip.of_event rfl
theorem RoundTrip.recholdHold (part : Nat) (ref : BitVec 32) : RoundTrip.Statement (.recholdHold part ref) := RoundTrip.of_event rfl
theorem RoundTrip.recholdRelease (part : Nat) (ref : BitVec 32) : RoundTrip.Statement (.recholdRelease part ref) := RoundTrip.of_event rfl
theorem RoundTrip.qack (slot : Nat) : RoundTrip.Statement (.qack slot) := RoundTrip.of_event rfl
theorem RoundTrip.interruptEntry (slot source : Nat) : RoundTrip.Statement (.interruptEntry slot source) := RoundTrip.of_event rfl
theorem RoundTrip.l2VthrDrop (slice : Nat) : RoundTrip.Statement (.l2VthrDrop slice) := RoundTrip.of_event rfl
theorem RoundTrip.l2VthrRecover (slice : Nat) : RoundTrip.Statement (.l2VthrRecover slice) := RoundTrip.of_event rfl
theorem RoundTrip.eyeMeasure (off : Nat) (tm : BitVec 8) (vm : BitVec 16) : RoundTrip.Statement (.eyeMeasure off tm vm) := RoundTrip.of_event rfl
theorem RoundTrip.laneRetrain (off : Nat) : RoundTrip.Statement (.laneRetrain off) := RoundTrip.of_event rfl
theorem RoundTrip.retrainDone (off : Nat) : RoundTrip.Statement (.retrainDone off) := RoundTrip.of_event rfl
theorem RoundTrip.powerOnReset : RoundTrip.Statement .powerOnReset := RoundTrip.of_event rfl
theorem RoundTrip.readySet (bit : Nat) : RoundTrip.Statement (.readySet bit) := RoundTrip.of_event rfl
theorem RoundTrip.readyClear (bit : Nat) : RoundTrip.Statement (.readyClear bit) := RoundTrip.of_event rfl
theorem RoundTrip.portTrain (port : Nat) (peer : BitVec 64) : RoundTrip.Statement (.portTrain port peer) := RoundTrip.of_event rfl
theorem RoundTrip.peerDown (part e : Nat) : RoundTrip.Statement (.peerDown part e) := RoundTrip.of_event rfl
theorem RoundTrip.migfwdForward (part buf off : Nat) (data : List (BitVec 8)) : RoundTrip.Statement (.migfwdForward part buf off data) := RoundTrip.of_event rfl
theorem RoundTrip.queueTailWrite (part q : Nat) (t : BitVec 32) : RoundTrip.Statement (.queueTailWrite part q t) := RoundTrip.of_event rfl
theorem RoundTrip.cfglockCreq (m : Master) : RoundTrip.Statement (.cfglockCreq m) := RoundTrip.of_event rfl
theorem RoundTrip.cfglockCrelease (m : Master) : RoundTrip.Statement (.cfglockCrelease m) := RoundTrip.of_event rfl
theorem RoundTrip.cfglockMreq (m : Master) : RoundTrip.Statement (.cfglockMreq m) := RoundTrip.of_event rfl
theorem RoundTrip.cfglockMrelease (m : Master) : RoundTrip.Statement (.cfglockMrelease m) := RoundTrip.of_event rfl
theorem RoundTrip.create (m : Master) (v : BitVec 64) : RoundTrip.Statement (.create m v) := RoundTrip.of_event rfl
theorem RoundTrip.destroy (m : Master) (v : BitVec 64) : RoundTrip.Statement (.destroy m v) := RoundTrip.of_event rfl
theorem RoundTrip.quiesce (m : Master) (v : BitVec 64) : RoundTrip.Statement (.quiesce m v) := RoundTrip.of_event rfl
theorem RoundTrip.quiesceTimeout (part : Nat) : RoundTrip.Statement (.quiesceTimeout part) := RoundTrip.of_event rfl
theorem RoundTrip.resume (m : Master) (v : BitVec 64) : RoundTrip.Statement (.resume m v) := RoundTrip.of_event rfl
theorem RoundTrip.reset (m : Master) (v : BitVec 64) : RoundTrip.Statement (.reset m v) := RoundTrip.of_event rfl
theorem RoundTrip.scrub (m : Master) (v : BitVec 64) : RoundTrip.Statement (.scrub m v) := RoundTrip.of_event rfl
theorem RoundTrip.scrubDone (slot : Nat) : RoundTrip.Statement (.scrubDone slot) := RoundTrip.of_event rfl
theorem RoundTrip.shakeout (m : Master) (v : BitVec 64) : RoundTrip.Statement (.shakeout m v) := RoundTrip.of_event rfl
theorem RoundTrip.shakeoutDone (slot : Nat) : RoundTrip.Statement (.shakeoutDone slot) := RoundTrip.of_event rfl
theorem RoundTrip.preqPreempt (part : Nat) (v : BitVec 64) : RoundTrip.Statement (.preqPreempt part v) := RoundTrip.of_event rfl
theorem RoundTrip.preqMove (part : Nat) (v : BitVec 64) : RoundTrip.Statement (.preqMove part v) := RoundTrip.of_event rfl
theorem RoundTrip.pctxSave (part : Nat) (v : BitVec 64) : RoundTrip.Statement (.pctxSave part v) := RoundTrip.of_event rfl
theorem RoundTrip.pctxRestore (part : Nat) (v : BitVec 64) : RoundTrip.Statement (.pctxRestore part v) := RoundTrip.of_event rfl
theorem RoundTrip.pctxSaveOnevf (part : Nat) (v : BitVec 64) : RoundTrip.Statement (.pctxSaveOnevf part v) := RoundTrip.of_event rfl
theorem RoundTrip.pctxRestoreOnevf (part : Nat) (v : BitVec 64) : RoundTrip.Statement (.pctxRestoreOnevf part v) := RoundTrip.of_event rfl
theorem RoundTrip.pctxComplete (part : Nat) : RoundTrip.Statement (.pctxComplete part) := RoundTrip.of_event rfl
theorem RoundTrip.mctpDsbRead (off : Nat) : RoundTrip.Statement (.mctpDsbRead off) := RoundTrip.of_event rfl
theorem RoundTrip.mctpDsbWrite (off : Nat) (v : BitVec 64) : RoundTrip.Statement (.mctpDsbWrite off v) := RoundTrip.of_event rfl
theorem RoundTrip.getVersion (slot : Nat) : RoundTrip.Statement (.getVersion slot) := RoundTrip.of_event rfl
theorem RoundTrip.getCapabilities (slot : Nat) : RoundTrip.Statement (.getCapabilities slot) := RoundTrip.of_event rfl
theorem RoundTrip.negotiateAlgorithms (slot : Nat) (offer : AlgOffer) : RoundTrip.Statement (.negotiateAlgorithms slot offer) := RoundTrip.of_event rfl
theorem RoundTrip.getDigests (slot : Nat) : RoundTrip.Statement (.getDigests slot) := RoundTrip.of_event rfl
theorem RoundTrip.getCertificate (slot chain off len : Nat) : RoundTrip.Statement (.getCertificate slot chain off len) := RoundTrip.of_event rfl
theorem RoundTrip.challenge (slot chain nonce : Nat) : RoundTrip.Statement (.challenge slot chain nonce) := RoundTrip.of_event rfl
theorem RoundTrip.getMeasurements (slot index nonce : Nat) : RoundTrip.Statement (.getMeasurements slot index nonce) := RoundTrip.of_event rfl
theorem RoundTrip.registerWrite (via : Via) (off size : Nat) (v : BitVec 64) : RoundTrip.Statement (.registerWrite via off size v) := RoundTrip.of_event rfl
theorem RoundTrip.illegalEncoding (w : BitVec 32) : RoundTrip.Statement (.illegalEncoding w) := RoundTrip.of_event rfl
theorem RoundTrip.btinvActed (part idx : Nat) : RoundTrip.Statement (.btinvActed part idx) := RoundTrip.of_event rfl
theorem RoundTrip.arrivalValidation (id : Nat) : RoundTrip.Statement (.arrivalValidation id) := RoundTrip.of_event rfl
theorem RoundTrip.peerUp (part e : Nat) : RoundTrip.Statement (.peerUp part e) := RoundTrip.of_event rfl
theorem RoundTrip.pldmTelemetry (slot : Nat) : RoundTrip.Statement (.pldmTelemetry slot) := RoundTrip.of_event rfl

end Sys2Proof.Laws
end

