-- ==== Sys2Proof/Laws/Results.lean ====
section
/-! SUPPORT. What the result forms of register words write (R81 to R86, R356). -/

namespace Sys2Proof.Machine

/-! ### One thread -/

theorem find?_filter_of_imp {α : Type} (p q : α → Bool) (l : List α) (h : ∀ x ∈ l, p x = true → q x = true) :
    (l.filter q).find? p = l.find? p := by
  induction l with
  | nil => rfl
  | cons x xs ih =>
    have ih := ih fun y hy => h y (List.mem_cons_of_mem _ hy)
    by_cases hq : q x = true
    · rw [List.filter_cons_of_pos hq, List.find?_cons, List.find?_cons, ih]
    · have hp : ¬p x = true := fun hp => hq (h x List.mem_cons_self hp)
      rw [List.filter_cons_of_neg hq, List.find?_cons_of_neg (by simpa using hp), ih]

theorem find?_filter_none {α : Type} (p q : α → Bool) (l : List α) (h : ∀ x, q x = true → p x = false) :
    (l.filter q).find? p = none := by
  rw [List.find?_eq_none]
  intro x hx
  simp [h x (List.mem_filter.1 hx).2]

theorem setV_rdV_same (t : Thread) (d : Reg) (x : Word) (n : Nat) : (t.setV d x).rdV n d = x := by
  have h : (t.setV d x).late.find? (fun l => decide (l.reg = .v d) && decide (n < l.ready)) = none :=
    find?_filter_none _ _ _ fun l hl => by
      simp only [ne_eq, decide_not, Bool.not_eq_true', decide_eq_false_iff_not] at hl
      simp [hl]
  simp only [Thread.rdV, h]
  simp [Thread.setV]

theorem setV_rdV_other (t : Thread) (d r : Reg) (x : Word) (n : Nat) (h : r ≠ d) : (t.setV d x).rdV n r = t.rdV n r := by
  have hf : (t.setV d x).late.find? (fun l => decide (l.reg = .v r) && decide (n < l.ready)) =
      t.late.find? (fun l => decide (l.reg = .v r) && decide (n < l.ready)) :=
    find?_filter_of_imp _ _ _ fun l _ hl => by
      simp only [Bool.and_eq_true, decide_eq_true_eq] at hl
      simp [hl.1, h]
  simp only [Thread.rdV, hf]
  have : (t.setV d x).v[r.toNat]'r.isLt = t.v[r.toNat]'r.isLt := by
    simp only [Thread.setV]
    rw [Vector.getElem_set_ne]
    exact fun he => h (BitVec.eq_of_toNat_eq he.symm)
  rw [this]

theorem setV_rdP (t : Thread) (d : Reg) (x : Word) (n : Nat) (q : PredNo) : (t.setV d x).rdP n q = t.rdP n q := by
  have hf : (t.setV d x).late.find? (fun l => decide (l.reg = .p q) && decide (n < l.ready)) =
      t.late.find? (fun l => decide (l.reg = .p q) && decide (n < l.ready)) :=
    find?_filter_of_imp _ _ _ fun l _ hl => by
      simp only [Bool.and_eq_true, decide_eq_true_eq] at hl
      simp [hl.1]
  simp only [Thread.rdP, hf]
  rfl

theorem wroteV_putV (t : Thread) (now lat : Nat) (d : Reg) (x : Word) : WroteV now lat d x t (t.putV now lat d x) where
  value n hn := by
    have h1 : (t.putV now lat d x).rdV n d = (t.setV d x).rdV n d := by
      simp only [Thread.rdV, Thread.putV]
      rw [List.find?_cons_of_neg (by simp; omega)]
    rw [h1, setV_rdV_same]
  early n hn := by
    simp only [Thread.putV]
    rw [Thread.rdV, List.find?_cons_of_pos (by simp; omega)]
  other n r hr := by
    have h1 : (t.putV now lat d x).rdV n r = (t.setV d x).rdV n r := by
      simp only [Thread.rdV, Thread.putV]
      rw [List.find?_cons_of_neg (by simp [Ne.symm hr])]
    rw [h1, setV_rdV_other _ _ _ _ _ hr]
  preds n q := by
    have h1 : (t.putV now lat d x).rdP n q = (t.setV d x).rdP n q := by
      simp only [Thread.rdP, Thread.putV]
      rw [List.find?_cons_of_neg (by simp)]
    rw [h1, setV_rdP]
  good := rfl
  rest := rfl

theorem getLsbD_setBit {n : Nat} (x : BitVec n) (i j : Nat) (b : Bool) (h : i < n) :
    (setBit x i b).getLsbD j = if j = i then b else x.getLsbD j := by
  unfold setBit
  by_cases hj : j = i
  · subst hj; cases b <;> simp [h]
  · have h1 : (BitVec.twoPow n i).getLsbD j = false := by simp [BitVec.getLsbD_twoPow]; omega
    rcases Nat.lt_or_ge j n with hlt | hge
    · cases b <;> simp [hj, hlt]
    · cases b <;> simp [hj, BitVec.getLsbD_of_ge _ _ hge]

theorem setP_of_ne (t : Thread) {q : PredNo} (b : Bool) (h : ¬q = 7) :
    t.setP q b = { t with p := setBit t.p q.toNat b, late := t.late.filter (fun l => l.reg ≠ .p q) } := if_neg h

theorem putP_of_ne (t : Thread) (now lat : Nat) {q : PredNo} (b : Bool) (h : ¬q = 7) :
    t.putP now lat q b =
      { t.setP q b with late := { reg := .p q, old := b2w (t.rdP now q), ready := now + lat } :: (t.setP q b).late } :=
  if_neg h

theorem setP_rdP_same (t : Thread) (q : PredNo) (b : Bool) (n : Nat) (h7 : q ≠ 7) : (t.setP q b).rdP n q = b := by
  have h : (t.setP q b).late.find? (fun l => decide (l.reg = .p q) && decide (n < l.ready)) = none := by
    simp only [Thread.setP, if_neg h7]
    refine find?_filter_none _ _ _ fun l hl => ?_
    simp only [ne_eq, decide_not, Bool.not_eq_true', decide_eq_false_iff_not] at hl
    simp [hl]
  simp only [Thread.rdP, if_neg h7, h]
  simp only [Thread.setP, if_neg h7]
  have h7' : q.toNat < 7 := by
    have := q.isLt
    rcases Nat.lt_or_ge q.toNat 7 with h | h
    · exact h
    · exact absurd (BitVec.eq_of_toNat_eq (show q.toNat = (7 : PredNo).toNat by simp; omega)) h7
  rw [getLsbD_setBit _ _ _ _ h7', if_pos rfl]

theorem setP_rdP_other (t : Thread) (q r : PredNo) (b : Bool) (n : Nat) (h : r ≠ q) :
    (t.setP q b).rdP n r = t.rdP n r := by
  by_cases h7 : q = 7
  · simp [Thread.setP, h7]
  have hf : (t.setP q b).late.find? (fun l => decide (l.reg = .p r) && decide (n < l.ready)) =
      t.late.find? (fun l => decide (l.reg = .p r) && decide (n < l.ready)) := by
    simp only [Thread.setP, if_neg h7]
    refine find?_filter_of_imp _ _ _ fun l _ hl => ?_
    simp only [Bool.and_eq_true, decide_eq_true_eq] at hl
    simp [hl.1, h]
  simp only [Thread.rdP, hf]
  have h7' : q.toNat < 7 := by
    have := q.isLt
    rcases Nat.lt_or_ge q.toNat 7 with h | h
    · exact h
    · exact absurd (BitVec.eq_of_toNat_eq (show q.toNat = (7 : PredNo).toNat by simp; omega)) h7
  have : (t.setP q b).p.getLsbD r.toNat = t.p.getLsbD r.toNat := by
    simp only [Thread.setP, if_neg h7]
    rw [getLsbD_setBit _ _ _ _ h7', if_neg]
    exact fun he => h (BitVec.eq_of_toNat_eq he)
  rw [this]

theorem setP_rdV (t : Thread) (q : PredNo) (b : Bool) (n : Nat) (r : Reg) : (t.setP q b).rdV n r = t.rdV n r := by
  by_cases h7 : q = 7
  · simp [Thread.setP, h7]
  have hf : (t.setP q b).late.find? (fun l => decide (l.reg = .v r) && decide (n < l.ready)) =
      t.late.find? (fun l => decide (l.reg = .v r) && decide (n < l.ready)) := by
    simp only [Thread.setP, if_neg h7]
    refine find?_filter_of_imp _ _ _ fun l _ hl => ?_
    simp only [Bool.and_eq_true, decide_eq_true_eq] at hl
    simp [hl.1]
  simp only [Thread.rdV, hf]
  rw [setP_of_ne _ _ h7]

theorem wroteP_putP (t : Thread) (now lat : Nat) (q : PredNo) (b : Bool) : WroteP now lat q b t (t.putP now lat q b) where
  value h7 n hn := by
    have h1 : (t.putP now lat q b).rdP n q = (t.setP q b).rdP n q := by
      simp only [Thread.rdP, Thread.putP, if_neg h7]
      rw [List.find?_cons_of_neg (by simp; omega)]
    rw [h1, setP_rdP_same _ _ _ _ h7]
  early h7 n hn := by
    simp only [Thread.putP, if_neg h7]
    rw [Thread.rdP, if_neg h7, List.find?_cons_of_pos (by simp; omega)]
    cases h : t.rdP now q <;> simp [b2w]
  other n r hr := by
    by_cases h7 : q = 7
    · simp [Thread.putP, h7]
    have h1 : (t.putP now lat q b).rdP n r = (t.setP q b).rdP n r := by
      simp only [Thread.rdP, Thread.putP, if_neg h7]
      rw [List.find?_cons_of_neg (by simp [Ne.symm hr])]
    rw [h1, setP_rdP_other _ _ _ _ _ hr]
  regs n r := by
    by_cases h7 : q = 7
    · simp [Thread.putP, h7]
    have h1 : (t.putP now lat q b).rdV n r = (t.setP q b).rdV n r := by
      simp only [Thread.rdV, Thread.putP, if_neg h7]
      rw [List.find?_cons_of_neg (by simp)]
    rw [h1, setP_rdV]
  rest := by
    by_cases h7 : q = 7
    · simp [Thread.putP, h7]
    · rw [putP_of_ne _ _ _ _ h7, setP_of_ne _ _ h7]
  p7 h7 := by simp [Thread.putP, h7]

/-! ### Every executing thread -/

theorem eachThread_of_eq {s t : State} {f : Thread → Thread → Thread} {r : Thread → Thread → Prop}
    (ht : t.threads = (s.eachThread f).threads) (hr : ∀ u ∈ s.threads, r u (f (s.before u) u)) :
    EachThread s t r := by
  unfold EachThread
  rw [ht, State.eachThread, List.forall₂_map_right_iff, List.forall₂_same]
  intro u hu
  by_cases h : s.isActive u = true
  · simp [h, hr u hu]
  · simp [h]

@[simp] theorem keepStall_before (h : Hdr) (s : State) : (keepStall h s).before = s.before := rfl
@[simp] theorem keepStall_isActive (h : Hdr) (s : State) : (keepStall h s).isActive = s.isActive := rfl
@[simp] theorem keepStall_threads (h : Hdr) (s : State) : (keepStall h s).threads = s.threads := rfl
@[simp] theorem keepStall_time (h : Hdr) (s : State) : (keepStall h s).time = s.time := rfl
@[simp] theorem keepStall_flip (h : Hdr) (s : State) : finjFlip (keepStall h s) = finjFlip s := rfl

theorem onlyThreads_of_closes {s t : State} (h : Hdr) {f : Thread → Thread → Thread}
    (hc : Closes ((keepStall h s).eachThread f) t) : OnlyThreads s t ∧ t.threads = (s.eachThread f).threads := by
  obtain ⟨h1, h2⟩ := hc
  refine ⟨⟨?_, h2⟩, ?_⟩ <;> rw [h1] <;> rfl

theorem noTrap_default (sem : Sem) (h : sem.chk = fun _ _ _ => none) (s : State) : NoTrap sem s := by
  intro x _ t _; rw [h]

/-! ### The shapes of register words -/

section
variable {i : Instr} {s : State} {p : Pour} {e : Entry} (hr : Runs s p e) (h : Hdr)
include hr

/-- A word that changes each executing thread by `f` of what it was before the group. -/
theorem completes_each {sem : Sem} {f : Thread → Thread → Thread} (hi : exec i s = .next (runWord h sem s))
    (hn : NoTrap sem s) (hpre : sem.pre s = s) (hw : sem.wait s = none)
    (he : sem.eff (keepStall h s) = (keepStall h s).eachThread f) {r : Thread → Thread → Prop}
    (hf : ∀ u ∈ s.threads, r u (f (s.before u) u)) :
    Completes i s p e fun t => OnlyThreads s t ∧ EachThread s t r :=
  completes_of hr h sem hi hn hpre hw (by rw [he]; rfl) (by rw [he]; rfl) fun t ht => by
    rw [he] at ht
    have := onlyThreads_of_closes h ht
    exact ⟨this.1, eachThread_of_eq this.2 hf⟩

theorem completes_fixedV {lat : Nat} {d : Reg} {f : Nat → Thread → Word} (hi : exec i s = .next (fixedV h lat d f s)) :
    Completes i s p e (ResultV s lat d (f s.time)) :=
  completes_each (f := fun b t => t.putV s.time lat d (f s.time b ^^^ finjFlip s)) hr h hi (noTrap_default _ rfl s) rfl
    rfl rfl fun u _ => wroteV_putV u _ _ _ _

theorem completes_putResult {lat : Nat} {d : Reg} {sem : Sem} {f : Thread → Word} (hi : exec i s = .next (runWord h sem s))
    (hn : NoTrap sem s) (hpre : sem.pre s = s) (hw : sem.wait s = none)
    (he : sem.eff (keepStall h s) = putResult lat d f (keepStall h s)) : Completes i s p e (ResultS s lat d f) :=
  completes_each hr h hi hn hpre hw he fun u _ => wroteV_putV u _ _ _ _

theorem completes_putV {lat : Nat} {d : Reg} {sem : Sem} {f : Thread → Word} (hi : exec i s = .next (runWord h sem s))
    (hn : NoTrap sem s) (hpre : sem.pre s = s) (hw : sem.wait s = none)
    (he : sem.eff (keepStall h s) = putV lat d f (keepStall h s)) : Completes i s p e (ResultV s lat d f) :=
  completes_each (f := fun b t => t.putV s.time lat d (f b ^^^ finjFlip s)) hr h hi hn hpre hw he fun u _ => wroteV_putV u _ _ _ _

theorem completes_putPred {lat : Nat} {q : PredNo} {sem : Sem} {f : Thread → Bool}
    (hi : exec i s = .next (runWord h sem s)) (hn : NoTrap sem s) (hpre : sem.pre s = s) (hw : sem.wait s = none)
    (he : sem.eff (keepStall h s) = putPred lat q f (keepStall h s)) : Completes i s p e (ResultP s lat q f) :=
  completes_each hr h hi hn hpre hw he fun u _ => wroteP_putP u _ _ _ _

theorem completes_fixedP {lat : Nat} {q : PredNo} {f : Nat → Thread → Bool}
    (hi : exec i s = .next (fixedP h lat q f s)) : Completes i s p e (ResultP s lat q (f s.time)) :=
  completes_putPred hr h hi (noTrap_default _ rfl s) rfl rfl rfl

theorem completes_fixedW {lat : Nat} {d : PairNo} {f : Nat → Thread → DWord}
    (hi : exec i s = .next (fixedW h lat d f s)) : Completes i s p e (ResultW s lat d (f s.time)) :=
  completes_each (f := fun b t => t.putW s.time lat d (f s.time b ^^^ (finjFlip s ++ finjFlip s))) hr h hi
      (noTrap_default _ rfl s) rfl rfl rfl fun u _ => by
    have h1 : ∀ (w : DWord) (y : Word), (w ^^^ (y ++ y)).extractLsb' 0 32 = w.extractLsb' 0 32 ^^^ y := fun w y => by
      rw [BitVec.extractLsb'_xor, BitVec.extractLsb'_append_eq_right]
    have h2 : ∀ (w : DWord) (y : Word), (w ^^^ (y ++ y)).extractLsb' 32 32 = w.extractLsb' 32 32 ^^^ y := fun w y => by
      rw [BitVec.extractLsb'_xor, BitVec.extractLsb'_append_eq_left]
    refine ⟨_, ?_, by rw [← h2]; exact wroteV_putV _ _ _ _ _⟩
    rw [← h1]
    exact wroteV_putV _ _ _ _ _
end

/-! ### Variable-latency results -/

theorem isPending_pend (t : Thread) (r : RegRef) : (r = .p 7 ∨ ∃ k, r = .k k) ∨ (t.pend r).isPending r = true := by
  cases r with
  | v n => right; simp only [Thread.pend, Thread.isPending]; rw [getLsbD_setBit _ _ _ _ n.isLt, if_pos rfl]
  | p n =>
    by_cases h7 : n = 7
    · exact .inl (.inl (by rw [h7]))
    · right
      simp only [Thread.pend, if_neg h7, Thread.isPending]
      rw [getLsbD_setBit _ _ _ _ n.isLt, if_pos rfl]
      simpa using h7
  | k n => exact .inl (.inr ⟨n, rfl⟩)
  | h n => right; simp only [Thread.pend, Thread.isPending]; rw [getLsbD_setBit _ _ _ _ n.isLt, if_pos rfl]

theorem isPending_pend_mono (t : Thread) (r q : RegRef) (h : t.isPending q = true) : (t.pend r).isPending q = true := by
  cases r with
  | v n =>
    cases q <;> simp only [Thread.pend, Thread.isPending] at h ⊢ <;> try exact h
    rw [getLsbD_setBit _ _ _ _ n.isLt]; split <;> [rfl; exact h]
  | p n =>
    by_cases h7 : n = 7
    · simpa [Thread.pend, h7] using h
    · cases q <;> simp only [Thread.pend, if_neg h7, Thread.isPending] at h ⊢ <;> try exact h
      rw [getLsbD_setBit _ _ _ _ n.isLt]; split
      · simp only [Bool.and_eq_true] at h; rw [h.1]; rfl
      · exact h
  | k n => exact h
  | h n =>
    cases q <;> simp only [Thread.pend, Thread.isPending] at h ⊢ <;> try exact h
    rw [getLsbD_setBit _ _ _ _ n.isLt]; split <;> [rfl; exact h]

theorem pend_rest (t : Thread) (r : RegRef) :
    t.pend r = { t with pendV := (t.pend r).pendV, pendP := (t.pend r).pendP, pendH := (t.pend r).pendH } := by
  cases r with
  | p n =>
    by_cases h7 : n = 7
    · simp [Thread.pend, h7]
    · have : t.pend (.p n) = { t with pendP := setBit t.pendP n.toNat true } := if_neg h7
      rw [this]
  | _ => rfl

theorem pended_foldl (ws : List (RegRef × Word)) (t : Thread) :
    Pended (ws.map (·.1)) t (ws.foldl (fun t w => t.pend w.1) t) := by
  induction ws generalizing t with
  | nil => exact ⟨rfl, fun _ h => h, by simp⟩
  | cons w ws ih =>
    obtain ⟨h1, h2, h3⟩ := ih (t.pend w.1)
    refine ⟨?_, fun r hr => h2 r (isPending_pend_mono t w.1 r hr), ?_⟩
    · simp only [List.foldl_cons]; rw [h1, pend_rest t w.1]
    · intro r hr
      rcases List.mem_cons.1 (show r ∈ w.1 :: ws.map (·.1) from hr) with rfl | hr
      · rcases isPending_pend t w.1 with h | h
        · exact .inl h
        · exact .inr (h2 _ h)
      · exact h3 r hr

theorem sent_results (s : State) (ts : List Thread) (ws : Thread → List (RegRef × Word)) (n k : Nat) :
    List.Forall₂ (fun (u : Thread) (r : PendRes) => r.tid = u.tid ∧ n + k ≤ r.id ∧ r.id < n + k + ts.length ∧
        r.writes = ws (s.before u)) ts
      ((ts.zipIdx k).map fun x => { id := n + x.2, tid := x.1.tid, writes := ws (s.before x.1), both := false }) := by
  induction ts generalizing k with
  | nil => exact .nil
  | cons t ts ih =>
    refine .cons ⟨rfl, Nat.le_refl _, by simp, rfl⟩ ?_
    refine (ih (k + 1)).imp fun u r h => ⟨h.1, by omega, ?_, h.2.2.2⟩
    simp only [List.length_cons]; omega

theorem completes_sendResult {i : Instr} {s : State} {p : Pour} {e : Entry} (hr : Runs s p e) (h : Hdr) {sem : Sem}
    {ws : Thread → List (RegRef × Word)} (hi : exec i s = .next (runWord h sem s))
    (hn : NoTrap sem s) (hpre : sem.pre s = s) (hw : sem.wait s = none)
    (he : sem.eff (keepStall h s) = sendResult ws (keepStall h s)) : Completes i s p e (ResultLater s ws) := by
  refine completes_of hr h sem hi hn hpre hw (by rw [he]; rfl) (by rw [he]; rfl) fun t ht => ?_
  rw [he] at ht
  obtain ⟨h1, h2⟩ := ht
  have hthr : t.threads = (s.eachThread fun b t => (ws b).foldl (fun t w => t.pend w.1) t).threads := by rw [h1]; rfl
  have hnid : t.nextId = s.nextId + (s.threads.filter s.isActive).length := by rw [h1]; rfl
  have := sent_results s (s.threads.filter s.isActive) ws s.nextId 0
  refine ⟨?_, h2, eachThread_of_eq hthr fun u _ => pended_foldl _ _,
    ((s.threads.filter s.isActive).zipIdx 0).map fun x => { id := s.nextId + x.2, tid := x.1.tid, writes := ws (s.before x.1), both := false },
    ?_, ?_⟩
  · rw [h1]; rfl
  · rw [h1]; rfl
  · rw [hnid]; exact this

theorem completes_varV {i : Instr} {s : State} {p : Pour} {e : Entry} (hr : Runs s p e) (h : Hdr) {d : Reg}
    {f : Nat → Thread → Word} (hi : exec i s = .next (varV h d f s)) :
    Completes i s p e (ResultLater s fun t => [(.v d, f s.time t ^^^ finjFlip s)]) :=
  completes_sendResult hr h hi (noTrap_default _ rfl s) rfl rfl rfl

end Sys2Proof.Machine
end

