-- ==== Sys2Proof/Laws/State.lean ====
section
/-! SUPPORT. The fields of a state after each of its updates: all but the one that is updated stay. What an update of a list
does to the entry it names, and that a write to memory keeps the canonical form. -/

namespace Sys2Proof.Machine.State

variable (s : State)

/-! ### `updThread` -/

section
variable (tid : Nat) (f : Thread → Thread)
@[simp] theorem updThread_time : (s.updThread tid f).time = s.time := rfl
@[simp] theorem updThread_agenda : (s.updThread tid f).agenda = s.agenda := rfl
@[simp] theorem updThread_slow : (s.updThread tid f).slow = s.slow := rfl
@[simp] theorem updThread_nextId : (s.updThread tid f).nextId = s.nextId := rfl
@[simp] theorem updThread_free : (s.updThread tid f).free = s.free := rfl
@[simp] theorem updThread_homeOrder : (s.updThread tid f).homeOrder = s.homeOrder := rfl
@[simp] theorem updThread_cur : (s.updThread tid f).cur = s.cur := rfl
@[simp] theorem updThread_pours : (s.updThread tid f).pours = s.pours := rfl
@[simp] theorem updThread_recs : (s.updThread tid f).recs = s.recs := rfl
@[simp] theorem updThread_annexes : (s.updThread tid f).annexes = s.annexes := rfl
@[simp] theorem updThread_ladles : (s.updThread tid f).ladles = s.ladles := rfl
@[simp] theorem updThread_entryLists : (s.updThread tid f).entryLists = s.entryLists := rfl
@[simp] theorem updThread_mem : (s.updThread tid f).mem = s.mem := rfl
@[simp] theorem updThread_poisoned : (s.updThread tid f).poisoned = s.poisoned := rfl
@[simp] theorem updThread_lines : (s.updThread tid f).lines = s.lines := rfl
@[simp] theorem updThread_l1 : (s.updThread tid f).l1 = s.l1 := rfl
@[simp] theorem updThread_l2 : (s.updThread tid f).l2 = s.l2 := rfl
@[simp] theorem updThread_llc : (s.updThread tid f).llc = s.llc := rfl
@[simp] theorem updThread_ucopies : (s.updThread tid f).ucopies = s.ucopies := rfl
@[simp] theorem updThread_accs : (s.updThread tid f).accs = s.accs := rfl
@[simp] theorem updThread_results : (s.updThread tid f).results = s.results := rfl
@[simp] theorem updThread_held : (s.updThread tid f).held = s.held := rfl
@[simp] theorem updThread_btinvs : (s.updThread tid f).btinvs = s.btinvs := rfl
@[simp] theorem updThread_bcache : (s.updThread tid f).bcache = s.bcache := rfl
@[simp] theorem updThread_pcache : (s.updThread tid f).pcache = s.pcache := rfl
@[simp] theorem updThread_locks : (s.updThread tid f).locks = s.locks := rfl
@[simp] theorem updThread_copies : (s.updThread tid f).copies = s.copies := rfl
@[simp] theorem updThread_runners : (s.updThread tid f).runners = s.runners := rfl
@[simp] theorem updThread_tileOps : (s.updThread tid f).tileOps = s.tileOps := rfl
@[simp] theorem updThread_tiles : (s.updThread tid f).tiles = s.tiles := rfl
@[simp] theorem updThread_wtags : (s.updThread tid f).wtags = s.wtags := rfl
@[simp] theorem updThread_bufOps : (s.updThread tid f).bufOps = s.bufOps := rfl
@[simp] theorem updThread_deliveries : (s.updThread tid f).deliveries = s.deliveries := rfl
@[simp] theorem updThread_flasks : (s.updThread tid f).flasks = s.flasks := rfl
@[simp] theorem updThread_sgs : (s.updThread tid f).sgs = s.sgs := rfl
@[simp] theorem updThread_posts : (s.updThread tid f).posts = s.posts := rfl
@[simp] theorem updThread_launches : (s.updThread tid f).launches = s.launches := rfl
@[simp] theorem updThread_casts : (s.updThread tid f).casts = s.casts := rfl
@[simp] theorem updThread_vholds : (s.updThread tid f).vholds = s.vholds := rfl
@[simp] theorem updThread_parts : (s.updThread tid f).parts = s.parts := rfl
@[simp] theorem updThread_ctls : (s.updThread tid f).ctls = s.ctls := rfl
@[simp] theorem updThread_steals : (s.updThread tid f).steals = s.steals := rfl
@[simp] theorem updThread_stealAfter : (s.updThread tid f).stealAfter = s.stealAfter := rfl
@[simp] theorem updThread_busy : (s.updThread tid f).busy = s.busy := rfl
@[simp] theorem updThread_dev : (s.updThread tid f).dev = s.dev := rfl
end

/-! ### `updPour` -/

section
variable (core slot : Nat) (f : Pour → Pour)
@[simp] theorem updPour_time : (s.updPour core slot f).time = s.time := rfl
@[simp] theorem updPour_agenda : (s.updPour core slot f).agenda = s.agenda := rfl
@[simp] theorem updPour_slow : (s.updPour core slot f).slow = s.slow := rfl
@[simp] theorem updPour_nextId : (s.updPour core slot f).nextId = s.nextId := rfl
@[simp] theorem updPour_free : (s.updPour core slot f).free = s.free := rfl
@[simp] theorem updPour_homeOrder : (s.updPour core slot f).homeOrder = s.homeOrder := rfl
@[simp] theorem updPour_cur : (s.updPour core slot f).cur = s.cur := rfl
@[simp] theorem updPour_threads : (s.updPour core slot f).threads = s.threads := rfl
@[simp] theorem updPour_recs : (s.updPour core slot f).recs = s.recs := rfl
@[simp] theorem updPour_annexes : (s.updPour core slot f).annexes = s.annexes := rfl
@[simp] theorem updPour_ladles : (s.updPour core slot f).ladles = s.ladles := rfl
@[simp] theorem updPour_entryLists : (s.updPour core slot f).entryLists = s.entryLists := rfl
@[simp] theorem updPour_mem : (s.updPour core slot f).mem = s.mem := rfl
@[simp] theorem updPour_poisoned : (s.updPour core slot f).poisoned = s.poisoned := rfl
@[simp] theorem updPour_lines : (s.updPour core slot f).lines = s.lines := rfl
@[simp] theorem updPour_l1 : (s.updPour core slot f).l1 = s.l1 := rfl
@[simp] theorem updPour_l2 : (s.updPour core slot f).l2 = s.l2 := rfl
@[simp] theorem updPour_llc : (s.updPour core slot f).llc = s.llc := rfl
@[simp] theorem updPour_ucopies : (s.updPour core slot f).ucopies = s.ucopies := rfl
@[simp] theorem updPour_accs : (s.updPour core slot f).accs = s.accs := rfl
@[simp] theorem updPour_results : (s.updPour core slot f).results = s.results := rfl
@[simp] theorem updPour_held : (s.updPour core slot f).held = s.held := rfl
@[simp] theorem updPour_btinvs : (s.updPour core slot f).btinvs = s.btinvs := rfl
@[simp] theorem updPour_bcache : (s.updPour core slot f).bcache = s.bcache := rfl
@[simp] theorem updPour_pcache : (s.updPour core slot f).pcache = s.pcache := rfl
@[simp] theorem updPour_locks : (s.updPour core slot f).locks = s.locks := rfl
@[simp] theorem updPour_copies : (s.updPour core slot f).copies = s.copies := rfl
@[simp] theorem updPour_runners : (s.updPour core slot f).runners = s.runners := rfl
@[simp] theorem updPour_tileOps : (s.updPour core slot f).tileOps = s.tileOps := rfl
@[simp] theorem updPour_tiles : (s.updPour core slot f).tiles = s.tiles := rfl
@[simp] theorem updPour_wtags : (s.updPour core slot f).wtags = s.wtags := rfl
@[simp] theorem updPour_bufOps : (s.updPour core slot f).bufOps = s.bufOps := rfl
@[simp] theorem updPour_deliveries : (s.updPour core slot f).deliveries = s.deliveries := rfl
@[simp] theorem updPour_flasks : (s.updPour core slot f).flasks = s.flasks := rfl
@[simp] theorem updPour_sgs : (s.updPour core slot f).sgs = s.sgs := rfl
@[simp] theorem updPour_posts : (s.updPour core slot f).posts = s.posts := rfl
@[simp] theorem updPour_launches : (s.updPour core slot f).launches = s.launches := rfl
@[simp] theorem updPour_casts : (s.updPour core slot f).casts = s.casts := rfl
@[simp] theorem updPour_vholds : (s.updPour core slot f).vholds = s.vholds := rfl
@[simp] theorem updPour_parts : (s.updPour core slot f).parts = s.parts := rfl
@[simp] theorem updPour_ctls : (s.updPour core slot f).ctls = s.ctls := rfl
@[simp] theorem updPour_steals : (s.updPour core slot f).steals = s.steals := rfl
@[simp] theorem updPour_stealAfter : (s.updPour core slot f).stealAfter = s.stealAfter := rfl
@[simp] theorem updPour_busy : (s.updPour core slot f).busy = s.busy := rfl
@[simp] theorem updPour_dev : (s.updPour core slot f).dev = s.dev := rfl
end

/-! ### `updRec` -/

section
variable (tid : Nat) (f : Rec → Rec)
@[simp] theorem updRec_time : (s.updRec tid f).time = s.time := rfl
@[simp] theorem updRec_agenda : (s.updRec tid f).agenda = s.agenda := rfl
@[simp] theorem updRec_slow : (s.updRec tid f).slow = s.slow := rfl
@[simp] theorem updRec_nextId : (s.updRec tid f).nextId = s.nextId := rfl
@[simp] theorem updRec_free : (s.updRec tid f).free = s.free := rfl
@[simp] theorem updRec_homeOrder : (s.updRec tid f).homeOrder = s.homeOrder := rfl
@[simp] theorem updRec_cur : (s.updRec tid f).cur = s.cur := rfl
@[simp] theorem updRec_threads : (s.updRec tid f).threads = s.threads := rfl
@[simp] theorem updRec_pours : (s.updRec tid f).pours = s.pours := rfl
@[simp] theorem updRec_annexes : (s.updRec tid f).annexes = s.annexes := rfl
@[simp] theorem updRec_ladles : (s.updRec tid f).ladles = s.ladles := rfl
@[simp] theorem updRec_entryLists : (s.updRec tid f).entryLists = s.entryLists := rfl
@[simp] theorem updRec_mem : (s.updRec tid f).mem = s.mem := rfl
@[simp] theorem updRec_poisoned : (s.updRec tid f).poisoned = s.poisoned := rfl
@[simp] theorem updRec_lines : (s.updRec tid f).lines = s.lines := rfl
@[simp] theorem updRec_l1 : (s.updRec tid f).l1 = s.l1 := rfl
@[simp] theorem updRec_l2 : (s.updRec tid f).l2 = s.l2 := rfl
@[simp] theorem updRec_llc : (s.updRec tid f).llc = s.llc := rfl
@[simp] theorem updRec_ucopies : (s.updRec tid f).ucopies = s.ucopies := rfl
@[simp] theorem updRec_accs : (s.updRec tid f).accs = s.accs := rfl
@[simp] theorem updRec_results : (s.updRec tid f).results = s.results := rfl
@[simp] theorem updRec_held : (s.updRec tid f).held = s.held := rfl
@[simp] theorem updRec_btinvs : (s.updRec tid f).btinvs = s.btinvs := rfl
@[simp] theorem updRec_bcache : (s.updRec tid f).bcache = s.bcache := rfl
@[simp] theorem updRec_pcache : (s.updRec tid f).pcache = s.pcache := rfl
@[simp] theorem updRec_locks : (s.updRec tid f).locks = s.locks := rfl
@[simp] theorem updRec_copies : (s.updRec tid f).copies = s.copies := rfl
@[simp] theorem updRec_runners : (s.updRec tid f).runners = s.runners := rfl
@[simp] theorem updRec_tileOps : (s.updRec tid f).tileOps = s.tileOps := rfl
@[simp] theorem updRec_tiles : (s.updRec tid f).tiles = s.tiles := rfl
@[simp] theorem updRec_wtags : (s.updRec tid f).wtags = s.wtags := rfl
@[simp] theorem updRec_bufOps : (s.updRec tid f).bufOps = s.bufOps := rfl
@[simp] theorem updRec_deliveries : (s.updRec tid f).deliveries = s.deliveries := rfl
@[simp] theorem updRec_flasks : (s.updRec tid f).flasks = s.flasks := rfl
@[simp] theorem updRec_sgs : (s.updRec tid f).sgs = s.sgs := rfl
@[simp] theorem updRec_posts : (s.updRec tid f).posts = s.posts := rfl
@[simp] theorem updRec_launches : (s.updRec tid f).launches = s.launches := rfl
@[simp] theorem updRec_casts : (s.updRec tid f).casts = s.casts := rfl
@[simp] theorem updRec_vholds : (s.updRec tid f).vholds = s.vholds := rfl
@[simp] theorem updRec_parts : (s.updRec tid f).parts = s.parts := rfl
@[simp] theorem updRec_ctls : (s.updRec tid f).ctls = s.ctls := rfl
@[simp] theorem updRec_steals : (s.updRec tid f).steals = s.steals := rfl
@[simp] theorem updRec_stealAfter : (s.updRec tid f).stealAfter = s.stealAfter := rfl
@[simp] theorem updRec_busy : (s.updRec tid f).busy = s.busy := rfl
@[simp] theorem updRec_dev : (s.updRec tid f).dev = s.dev := rfl
end

/-! ### `updPart` -/

section
variable (p : Nat) (f : Part → Part)
@[simp] theorem updPart_time : (s.updPart p f).time = s.time := rfl
@[simp] theorem updPart_agenda : (s.updPart p f).agenda = s.agenda := rfl
@[simp] theorem updPart_slow : (s.updPart p f).slow = s.slow := rfl
@[simp] theorem updPart_nextId : (s.updPart p f).nextId = s.nextId := rfl
@[simp] theorem updPart_free : (s.updPart p f).free = s.free := rfl
@[simp] theorem updPart_homeOrder : (s.updPart p f).homeOrder = s.homeOrder := rfl
@[simp] theorem updPart_cur : (s.updPart p f).cur = s.cur := rfl
@[simp] theorem updPart_threads : (s.updPart p f).threads = s.threads := rfl
@[simp] theorem updPart_pours : (s.updPart p f).pours = s.pours := rfl
@[simp] theorem updPart_recs : (s.updPart p f).recs = s.recs := rfl
@[simp] theorem updPart_annexes : (s.updPart p f).annexes = s.annexes := rfl
@[simp] theorem updPart_ladles : (s.updPart p f).ladles = s.ladles := rfl
@[simp] theorem updPart_entryLists : (s.updPart p f).entryLists = s.entryLists := rfl
@[simp] theorem updPart_mem : (s.updPart p f).mem = s.mem := rfl
@[simp] theorem updPart_poisoned : (s.updPart p f).poisoned = s.poisoned := rfl
@[simp] theorem updPart_lines : (s.updPart p f).lines = s.lines := rfl
@[simp] theorem updPart_l1 : (s.updPart p f).l1 = s.l1 := rfl
@[simp] theorem updPart_l2 : (s.updPart p f).l2 = s.l2 := rfl
@[simp] theorem updPart_llc : (s.updPart p f).llc = s.llc := rfl
@[simp] theorem updPart_ucopies : (s.updPart p f).ucopies = s.ucopies := rfl
@[simp] theorem updPart_accs : (s.updPart p f).accs = s.accs := rfl
@[simp] theorem updPart_results : (s.updPart p f).results = s.results := rfl
@[simp] theorem updPart_held : (s.updPart p f).held = s.held := rfl
@[simp] theorem updPart_btinvs : (s.updPart p f).btinvs = s.btinvs := rfl
@[simp] theorem updPart_bcache : (s.updPart p f).bcache = s.bcache := rfl
@[simp] theorem updPart_pcache : (s.updPart p f).pcache = s.pcache := rfl
@[simp] theorem updPart_locks : (s.updPart p f).locks = s.locks := rfl
@[simp] theorem updPart_copies : (s.updPart p f).copies = s.copies := rfl
@[simp] theorem updPart_runners : (s.updPart p f).runners = s.runners := rfl
@[simp] theorem updPart_tileOps : (s.updPart p f).tileOps = s.tileOps := rfl
@[simp] theorem updPart_tiles : (s.updPart p f).tiles = s.tiles := rfl
@[simp] theorem updPart_wtags : (s.updPart p f).wtags = s.wtags := rfl
@[simp] theorem updPart_bufOps : (s.updPart p f).bufOps = s.bufOps := rfl
@[simp] theorem updPart_deliveries : (s.updPart p f).deliveries = s.deliveries := rfl
@[simp] theorem updPart_flasks : (s.updPart p f).flasks = s.flasks := rfl
@[simp] theorem updPart_sgs : (s.updPart p f).sgs = s.sgs := rfl
@[simp] theorem updPart_posts : (s.updPart p f).posts = s.posts := rfl
@[simp] theorem updPart_launches : (s.updPart p f).launches = s.launches := rfl
@[simp] theorem updPart_casts : (s.updPart p f).casts = s.casts := rfl
@[simp] theorem updPart_vholds : (s.updPart p f).vholds = s.vholds := rfl
@[simp] theorem updPart_ctls : (s.updPart p f).ctls = s.ctls := rfl
@[simp] theorem updPart_steals : (s.updPart p f).steals = s.steals := rfl
@[simp] theorem updPart_stealAfter : (s.updPart p f).stealAfter = s.stealAfter := rfl
@[simp] theorem updPart_busy : (s.updPart p f).busy = s.busy := rfl
@[simp] theorem updPart_dev : (s.updPart p f).dev = s.dev := rfl
end

/-! ### `updLaunch` -/

section
variable (p n : Nat) (f : Launch → Launch)
@[simp] theorem updLaunch_time : (s.updLaunch p n f).time = s.time := rfl
@[simp] theorem updLaunch_agenda : (s.updLaunch p n f).agenda = s.agenda := rfl
@[simp] theorem updLaunch_slow : (s.updLaunch p n f).slow = s.slow := rfl
@[simp] theorem updLaunch_nextId : (s.updLaunch p n f).nextId = s.nextId := rfl
@[simp] theorem updLaunch_free : (s.updLaunch p n f).free = s.free := rfl
@[simp] theorem updLaunch_homeOrder : (s.updLaunch p n f).homeOrder = s.homeOrder := rfl
@[simp] theorem updLaunch_cur : (s.updLaunch p n f).cur = s.cur := rfl
@[simp] theorem updLaunch_threads : (s.updLaunch p n f).threads = s.threads := rfl
@[simp] theorem updLaunch_pours : (s.updLaunch p n f).pours = s.pours := rfl
@[simp] theorem updLaunch_recs : (s.updLaunch p n f).recs = s.recs := rfl
@[simp] theorem updLaunch_annexes : (s.updLaunch p n f).annexes = s.annexes := rfl
@[simp] theorem updLaunch_ladles : (s.updLaunch p n f).ladles = s.ladles := rfl
@[simp] theorem updLaunch_entryLists : (s.updLaunch p n f).entryLists = s.entryLists := rfl
@[simp] theorem updLaunch_mem : (s.updLaunch p n f).mem = s.mem := rfl
@[simp] theorem updLaunch_poisoned : (s.updLaunch p n f).poisoned = s.poisoned := rfl
@[simp] theorem updLaunch_lines : (s.updLaunch p n f).lines = s.lines := rfl
@[simp] theorem updLaunch_l1 : (s.updLaunch p n f).l1 = s.l1 := rfl
@[simp] theorem updLaunch_l2 : (s.updLaunch p n f).l2 = s.l2 := rfl
@[simp] theorem updLaunch_llc : (s.updLaunch p n f).llc = s.llc := rfl
@[simp] theorem updLaunch_ucopies : (s.updLaunch p n f).ucopies = s.ucopies := rfl
@[simp] theorem updLaunch_accs : (s.updLaunch p n f).accs = s.accs := rfl
@[simp] theorem updLaunch_results : (s.updLaunch p n f).results = s.results := rfl
@[simp] theorem updLaunch_held : (s.updLaunch p n f).held = s.held := rfl
@[simp] theorem updLaunch_btinvs : (s.updLaunch p n f).btinvs = s.btinvs := rfl
@[simp] theorem updLaunch_bcache : (s.updLaunch p n f).bcache = s.bcache := rfl
@[simp] theorem updLaunch_pcache : (s.updLaunch p n f).pcache = s.pcache := rfl
@[simp] theorem updLaunch_locks : (s.updLaunch p n f).locks = s.locks := rfl
@[simp] theorem updLaunch_copies : (s.updLaunch p n f).copies = s.copies := rfl
@[simp] theorem updLaunch_runners : (s.updLaunch p n f).runners = s.runners := rfl
@[simp] theorem updLaunch_tileOps : (s.updLaunch p n f).tileOps = s.tileOps := rfl
@[simp] theorem updLaunch_tiles : (s.updLaunch p n f).tiles = s.tiles := rfl
@[simp] theorem updLaunch_wtags : (s.updLaunch p n f).wtags = s.wtags := rfl
@[simp] theorem updLaunch_bufOps : (s.updLaunch p n f).bufOps = s.bufOps := rfl
@[simp] theorem updLaunch_deliveries : (s.updLaunch p n f).deliveries = s.deliveries := rfl
@[simp] theorem updLaunch_flasks : (s.updLaunch p n f).flasks = s.flasks := rfl
@[simp] theorem updLaunch_sgs : (s.updLaunch p n f).sgs = s.sgs := rfl
@[simp] theorem updLaunch_posts : (s.updLaunch p n f).posts = s.posts := rfl
@[simp] theorem updLaunch_casts : (s.updLaunch p n f).casts = s.casts := rfl
@[simp] theorem updLaunch_vholds : (s.updLaunch p n f).vholds = s.vholds := rfl
@[simp] theorem updLaunch_parts : (s.updLaunch p n f).parts = s.parts := rfl
@[simp] theorem updLaunch_ctls : (s.updLaunch p n f).ctls = s.ctls := rfl
@[simp] theorem updLaunch_steals : (s.updLaunch p n f).steals = s.steals := rfl
@[simp] theorem updLaunch_stealAfter : (s.updLaunch p n f).stealAfter = s.stealAfter := rfl
@[simp] theorem updLaunch_busy : (s.updLaunch p n f).busy = s.busy := rfl
@[simp] theorem updLaunch_dev : (s.updLaunch p n f).dev = s.dev := rfl
end

/-! ### `updCast` -/

section
variable (p l c : Nat) (f : Cast → Cast)
@[simp] theorem updCast_time : (s.updCast p l c f).time = s.time := rfl
@[simp] theorem updCast_agenda : (s.updCast p l c f).agenda = s.agenda := rfl
@[simp] theorem updCast_slow : (s.updCast p l c f).slow = s.slow := rfl
@[simp] theorem updCast_nextId : (s.updCast p l c f).nextId = s.nextId := rfl
@[simp] theorem updCast_free : (s.updCast p l c f).free = s.free := rfl
@[simp] theorem updCast_homeOrder : (s.updCast p l c f).homeOrder = s.homeOrder := rfl
@[simp] theorem updCast_cur : (s.updCast p l c f).cur = s.cur := rfl
@[simp] theorem updCast_threads : (s.updCast p l c f).threads = s.threads := rfl
@[simp] theorem updCast_pours : (s.updCast p l c f).pours = s.pours := rfl
@[simp] theorem updCast_recs : (s.updCast p l c f).recs = s.recs := rfl
@[simp] theorem updCast_annexes : (s.updCast p l c f).annexes = s.annexes := rfl
@[simp] theorem updCast_ladles : (s.updCast p l c f).ladles = s.ladles := rfl
@[simp] theorem updCast_entryLists : (s.updCast p l c f).entryLists = s.entryLists := rfl
@[simp] theorem updCast_mem : (s.updCast p l c f).mem = s.mem := rfl
@[simp] theorem updCast_poisoned : (s.updCast p l c f).poisoned = s.poisoned := rfl
@[simp] theorem updCast_lines : (s.updCast p l c f).lines = s.lines := rfl
@[simp] theorem updCast_l1 : (s.updCast p l c f).l1 = s.l1 := rfl
@[simp] theorem updCast_l2 : (s.updCast p l c f).l2 = s.l2 := rfl
@[simp] theorem updCast_llc : (s.updCast p l c f).llc = s.llc := rfl
@[simp] theorem updCast_ucopies : (s.updCast p l c f).ucopies = s.ucopies := rfl
@[simp] theorem updCast_accs : (s.updCast p l c f).accs = s.accs := rfl
@[simp] theorem updCast_results : (s.updCast p l c f).results = s.results := rfl
@[simp] theorem updCast_held : (s.updCast p l c f).held = s.held := rfl
@[simp] theorem updCast_btinvs : (s.updCast p l c f).btinvs = s.btinvs := rfl
@[simp] theorem updCast_bcache : (s.updCast p l c f).bcache = s.bcache := rfl
@[simp] theorem updCast_pcache : (s.updCast p l c f).pcache = s.pcache := rfl
@[simp] theorem updCast_locks : (s.updCast p l c f).locks = s.locks := rfl
@[simp] theorem updCast_copies : (s.updCast p l c f).copies = s.copies := rfl
@[simp] theorem updCast_runners : (s.updCast p l c f).runners = s.runners := rfl
@[simp] theorem updCast_tileOps : (s.updCast p l c f).tileOps = s.tileOps := rfl
@[simp] theorem updCast_tiles : (s.updCast p l c f).tiles = s.tiles := rfl
@[simp] theorem updCast_wtags : (s.updCast p l c f).wtags = s.wtags := rfl
@[simp] theorem updCast_bufOps : (s.updCast p l c f).bufOps = s.bufOps := rfl
@[simp] theorem updCast_deliveries : (s.updCast p l c f).deliveries = s.deliveries := rfl
@[simp] theorem updCast_flasks : (s.updCast p l c f).flasks = s.flasks := rfl
@[simp] theorem updCast_sgs : (s.updCast p l c f).sgs = s.sgs := rfl
@[simp] theorem updCast_posts : (s.updCast p l c f).posts = s.posts := rfl
@[simp] theorem updCast_launches : (s.updCast p l c f).launches = s.launches := rfl
@[simp] theorem updCast_vholds : (s.updCast p l c f).vholds = s.vholds := rfl
@[simp] theorem updCast_parts : (s.updCast p l c f).parts = s.parts := rfl
@[simp] theorem updCast_ctls : (s.updCast p l c f).ctls = s.ctls := rfl
@[simp] theorem updCast_steals : (s.updCast p l c f).steals = s.steals := rfl
@[simp] theorem updCast_stealAfter : (s.updCast p l c f).stealAfter = s.stealAfter := rfl
@[simp] theorem updCast_busy : (s.updCast p l c f).busy = s.busy := rfl
@[simp] theorem updCast_dev : (s.updCast p l c f).dev = s.dev := rfl
end

/-! ### `updAcc` -/

section
variable (id : Nat) (f : Acc → Acc)
@[simp] theorem updAcc_time : (s.updAcc id f).time = s.time := rfl
@[simp] theorem updAcc_agenda : (s.updAcc id f).agenda = s.agenda := rfl
@[simp] theorem updAcc_slow : (s.updAcc id f).slow = s.slow := rfl
@[simp] theorem updAcc_nextId : (s.updAcc id f).nextId = s.nextId := rfl
@[simp] theorem updAcc_free : (s.updAcc id f).free = s.free := rfl
@[simp] theorem updAcc_homeOrder : (s.updAcc id f).homeOrder = s.homeOrder := rfl
@[simp] theorem updAcc_cur : (s.updAcc id f).cur = s.cur := rfl
@[simp] theorem updAcc_threads : (s.updAcc id f).threads = s.threads := rfl
@[simp] theorem updAcc_pours : (s.updAcc id f).pours = s.pours := rfl
@[simp] theorem updAcc_recs : (s.updAcc id f).recs = s.recs := rfl
@[simp] theorem updAcc_annexes : (s.updAcc id f).annexes = s.annexes := rfl
@[simp] theorem updAcc_ladles : (s.updAcc id f).ladles = s.ladles := rfl
@[simp] theorem updAcc_entryLists : (s.updAcc id f).entryLists = s.entryLists := rfl
@[simp] theorem updAcc_mem : (s.updAcc id f).mem = s.mem := rfl
@[simp] theorem updAcc_poisoned : (s.updAcc id f).poisoned = s.poisoned := rfl
@[simp] theorem updAcc_lines : (s.updAcc id f).lines = s.lines := rfl
@[simp] theorem updAcc_l1 : (s.updAcc id f).l1 = s.l1 := rfl
@[simp] theorem updAcc_l2 : (s.updAcc id f).l2 = s.l2 := rfl
@[simp] theorem updAcc_llc : (s.updAcc id f).llc = s.llc := rfl
@[simp] theorem updAcc_ucopies : (s.updAcc id f).ucopies = s.ucopies := rfl
@[simp] theorem updAcc_results : (s.updAcc id f).results = s.results := rfl
@[simp] theorem updAcc_held : (s.updAcc id f).held = s.held := rfl
@[simp] theorem updAcc_btinvs : (s.updAcc id f).btinvs = s.btinvs := rfl
@[simp] theorem updAcc_bcache : (s.updAcc id f).bcache = s.bcache := rfl
@[simp] theorem updAcc_pcache : (s.updAcc id f).pcache = s.pcache := rfl
@[simp] theorem updAcc_locks : (s.updAcc id f).locks = s.locks := rfl
@[simp] theorem updAcc_copies : (s.updAcc id f).copies = s.copies := rfl
@[simp] theorem updAcc_runners : (s.updAcc id f).runners = s.runners := rfl
@[simp] theorem updAcc_tileOps : (s.updAcc id f).tileOps = s.tileOps := rfl
@[simp] theorem updAcc_tiles : (s.updAcc id f).tiles = s.tiles := rfl
@[simp] theorem updAcc_wtags : (s.updAcc id f).wtags = s.wtags := rfl
@[simp] theorem updAcc_bufOps : (s.updAcc id f).bufOps = s.bufOps := rfl
@[simp] theorem updAcc_deliveries : (s.updAcc id f).deliveries = s.deliveries := rfl
@[simp] theorem updAcc_flasks : (s.updAcc id f).flasks = s.flasks := rfl
@[simp] theorem updAcc_sgs : (s.updAcc id f).sgs = s.sgs := rfl
@[simp] theorem updAcc_posts : (s.updAcc id f).posts = s.posts := rfl
@[simp] theorem updAcc_launches : (s.updAcc id f).launches = s.launches := rfl
@[simp] theorem updAcc_casts : (s.updAcc id f).casts = s.casts := rfl
@[simp] theorem updAcc_vholds : (s.updAcc id f).vholds = s.vholds := rfl
@[simp] theorem updAcc_parts : (s.updAcc id f).parts = s.parts := rfl
@[simp] theorem updAcc_ctls : (s.updAcc id f).ctls = s.ctls := rfl
@[simp] theorem updAcc_steals : (s.updAcc id f).steals = s.steals := rfl
@[simp] theorem updAcc_stealAfter : (s.updAcc id f).stealAfter = s.stealAfter := rfl
@[simp] theorem updAcc_busy : (s.updAcc id f).busy = s.busy := rfl
@[simp] theorem updAcc_dev : (s.updAcc id f).dev = s.dev := rfl
end

/-! ### `updCopy` -/

section
variable (id : Nat) (f : CopyOp → CopyOp)
@[simp] theorem updCopy_time : (s.updCopy id f).time = s.time := rfl
@[simp] theorem updCopy_agenda : (s.updCopy id f).agenda = s.agenda := rfl
@[simp] theorem updCopy_slow : (s.updCopy id f).slow = s.slow := rfl
@[simp] theorem updCopy_nextId : (s.updCopy id f).nextId = s.nextId := rfl
@[simp] theorem updCopy_free : (s.updCopy id f).free = s.free := rfl
@[simp] theorem updCopy_homeOrder : (s.updCopy id f).homeOrder = s.homeOrder := rfl
@[simp] theorem updCopy_cur : (s.updCopy id f).cur = s.cur := rfl
@[simp] theorem updCopy_threads : (s.updCopy id f).threads = s.threads := rfl
@[simp] theorem updCopy_pours : (s.updCopy id f).pours = s.pours := rfl
@[simp] theorem updCopy_recs : (s.updCopy id f).recs = s.recs := rfl
@[simp] theorem updCopy_annexes : (s.updCopy id f).annexes = s.annexes := rfl
@[simp] theorem updCopy_ladles : (s.updCopy id f).ladles = s.ladles := rfl
@[simp] theorem updCopy_entryLists : (s.updCopy id f).entryLists = s.entryLists := rfl
@[simp] theorem updCopy_mem : (s.updCopy id f).mem = s.mem := rfl
@[simp] theorem updCopy_poisoned : (s.updCopy id f).poisoned = s.poisoned := rfl
@[simp] theorem updCopy_lines : (s.updCopy id f).lines = s.lines := rfl
@[simp] theorem updCopy_l1 : (s.updCopy id f).l1 = s.l1 := rfl
@[simp] theorem updCopy_l2 : (s.updCopy id f).l2 = s.l2 := rfl
@[simp] theorem updCopy_llc : (s.updCopy id f).llc = s.llc := rfl
@[simp] theorem updCopy_ucopies : (s.updCopy id f).ucopies = s.ucopies := rfl
@[simp] theorem updCopy_accs : (s.updCopy id f).accs = s.accs := rfl
@[simp] theorem updCopy_results : (s.updCopy id f).results = s.results := rfl
@[simp] theorem updCopy_held : (s.updCopy id f).held = s.held := rfl
@[simp] theorem updCopy_btinvs : (s.updCopy id f).btinvs = s.btinvs := rfl
@[simp] theorem updCopy_bcache : (s.updCopy id f).bcache = s.bcache := rfl
@[simp] theorem updCopy_pcache : (s.updCopy id f).pcache = s.pcache := rfl
@[simp] theorem updCopy_locks : (s.updCopy id f).locks = s.locks := rfl
@[simp] theorem updCopy_runners : (s.updCopy id f).runners = s.runners := rfl
@[simp] theorem updCopy_tileOps : (s.updCopy id f).tileOps = s.tileOps := rfl
@[simp] theorem updCopy_tiles : (s.updCopy id f).tiles = s.tiles := rfl
@[simp] theorem updCopy_wtags : (s.updCopy id f).wtags = s.wtags := rfl
@[simp] theorem updCopy_bufOps : (s.updCopy id f).bufOps = s.bufOps := rfl
@[simp] theorem updCopy_deliveries : (s.updCopy id f).deliveries = s.deliveries := rfl
@[simp] theorem updCopy_flasks : (s.updCopy id f).flasks = s.flasks := rfl
@[simp] theorem updCopy_sgs : (s.updCopy id f).sgs = s.sgs := rfl
@[simp] theorem updCopy_posts : (s.updCopy id f).posts = s.posts := rfl
@[simp] theorem updCopy_launches : (s.updCopy id f).launches = s.launches := rfl
@[simp] theorem updCopy_casts : (s.updCopy id f).casts = s.casts := rfl
@[simp] theorem updCopy_vholds : (s.updCopy id f).vholds = s.vholds := rfl
@[simp] theorem updCopy_parts : (s.updCopy id f).parts = s.parts := rfl
@[simp] theorem updCopy_ctls : (s.updCopy id f).ctls = s.ctls := rfl
@[simp] theorem updCopy_steals : (s.updCopy id f).steals = s.steals := rfl
@[simp] theorem updCopy_stealAfter : (s.updCopy id f).stealAfter = s.stealAfter := rfl
@[simp] theorem updCopy_busy : (s.updCopy id f).busy = s.busy := rfl
@[simp] theorem updCopy_dev : (s.updCopy id f).dev = s.dev := rfl
end

/-! ### `updRunner` -/

section
variable (id : Nat) (f : Runner → Runner)
@[simp] theorem updRunner_time : (s.updRunner id f).time = s.time := rfl
@[simp] theorem updRunner_agenda : (s.updRunner id f).agenda = s.agenda := rfl
@[simp] theorem updRunner_slow : (s.updRunner id f).slow = s.slow := rfl
@[simp] theorem updRunner_nextId : (s.updRunner id f).nextId = s.nextId := rfl
@[simp] theorem updRunner_free : (s.updRunner id f).free = s.free := rfl
@[simp] theorem updRunner_homeOrder : (s.updRunner id f).homeOrder = s.homeOrder := rfl
@[simp] theorem updRunner_cur : (s.updRunner id f).cur = s.cur := rfl
@[simp] theorem updRunner_threads : (s.updRunner id f).threads = s.threads := rfl
@[simp] theorem updRunner_pours : (s.updRunner id f).pours = s.pours := rfl
@[simp] theorem updRunner_recs : (s.updRunner id f).recs = s.recs := rfl
@[simp] theorem updRunner_annexes : (s.updRunner id f).annexes = s.annexes := rfl
@[simp] theorem updRunner_ladles : (s.updRunner id f).ladles = s.ladles := rfl
@[simp] theorem updRunner_entryLists : (s.updRunner id f).entryLists = s.entryLists := rfl
@[simp] theorem updRunner_mem : (s.updRunner id f).mem = s.mem := rfl
@[simp] theorem updRunner_poisoned : (s.updRunner id f).poisoned = s.poisoned := rfl
@[simp] theorem updRunner_lines : (s.updRunner id f).lines = s.lines := rfl
@[simp] theorem updRunner_l1 : (s.updRunner id f).l1 = s.l1 := rfl
@[simp] theorem updRunner_l2 : (s.updRunner id f).l2 = s.l2 := rfl
@[simp] theorem updRunner_llc : (s.updRunner id f).llc = s.llc := rfl
@[simp] theorem updRunner_ucopies : (s.updRunner id f).ucopies = s.ucopies := rfl
@[simp] theorem updRunner_accs : (s.updRunner id f).accs = s.accs := rfl
@[simp] theorem updRunner_results : (s.updRunner id f).results = s.results := rfl
@[simp] theorem updRunner_held : (s.updRunner id f).held = s.held := rfl
@[simp] theorem updRunner_btinvs : (s.updRunner id f).btinvs = s.btinvs := rfl
@[simp] theorem updRunner_bcache : (s.updRunner id f).bcache = s.bcache := rfl
@[simp] theorem updRunner_pcache : (s.updRunner id f).pcache = s.pcache := rfl
@[simp] theorem updRunner_locks : (s.updRunner id f).locks = s.locks := rfl
@[simp] theorem updRunner_copies : (s.updRunner id f).copies = s.copies := rfl
@[simp] theorem updRunner_tileOps : (s.updRunner id f).tileOps = s.tileOps := rfl
@[simp] theorem updRunner_tiles : (s.updRunner id f).tiles = s.tiles := rfl
@[simp] theorem updRunner_wtags : (s.updRunner id f).wtags = s.wtags := rfl
@[simp] theorem updRunner_bufOps : (s.updRunner id f).bufOps = s.bufOps := rfl
@[simp] theorem updRunner_deliveries : (s.updRunner id f).deliveries = s.deliveries := rfl
@[simp] theorem updRunner_flasks : (s.updRunner id f).flasks = s.flasks := rfl
@[simp] theorem updRunner_sgs : (s.updRunner id f).sgs = s.sgs := rfl
@[simp] theorem updRunner_posts : (s.updRunner id f).posts = s.posts := rfl
@[simp] theorem updRunner_launches : (s.updRunner id f).launches = s.launches := rfl
@[simp] theorem updRunner_casts : (s.updRunner id f).casts = s.casts := rfl
@[simp] theorem updRunner_vholds : (s.updRunner id f).vholds = s.vholds := rfl
@[simp] theorem updRunner_parts : (s.updRunner id f).parts = s.parts := rfl
@[simp] theorem updRunner_ctls : (s.updRunner id f).ctls = s.ctls := rfl
@[simp] theorem updRunner_steals : (s.updRunner id f).steals = s.steals := rfl
@[simp] theorem updRunner_stealAfter : (s.updRunner id f).stealAfter = s.stealAfter := rfl
@[simp] theorem updRunner_busy : (s.updRunner id f).busy = s.busy := rfl
@[simp] theorem updRunner_dev : (s.updRunner id f).dev = s.dev := rfl
end

/-! ### `updTileOp` -/

section
variable (id : Nat) (f : TileOp → TileOp)
@[simp] theorem updTileOp_time : (s.updTileOp id f).time = s.time := rfl
@[simp] theorem updTileOp_agenda : (s.updTileOp id f).agenda = s.agenda := rfl
@[simp] theorem updTileOp_slow : (s.updTileOp id f).slow = s.slow := rfl
@[simp] theorem updTileOp_nextId : (s.updTileOp id f).nextId = s.nextId := rfl
@[simp] theorem updTileOp_free : (s.updTileOp id f).free = s.free := rfl
@[simp] theorem updTileOp_homeOrder : (s.updTileOp id f).homeOrder = s.homeOrder := rfl
@[simp] theorem updTileOp_cur : (s.updTileOp id f).cur = s.cur := rfl
@[simp] theorem updTileOp_threads : (s.updTileOp id f).threads = s.threads := rfl
@[simp] theorem updTileOp_pours : (s.updTileOp id f).pours = s.pours := rfl
@[simp] theorem updTileOp_recs : (s.updTileOp id f).recs = s.recs := rfl
@[simp] theorem updTileOp_annexes : (s.updTileOp id f).annexes = s.annexes := rfl
@[simp] theorem updTileOp_ladles : (s.updTileOp id f).ladles = s.ladles := rfl
@[simp] theorem updTileOp_entryLists : (s.updTileOp id f).entryLists = s.entryLists := rfl
@[simp] theorem updTileOp_mem : (s.updTileOp id f).mem = s.mem := rfl
@[simp] theorem updTileOp_poisoned : (s.updTileOp id f).poisoned = s.poisoned := rfl
@[simp] theorem updTileOp_lines : (s.updTileOp id f).lines = s.lines := rfl
@[simp] theorem updTileOp_l1 : (s.updTileOp id f).l1 = s.l1 := rfl
@[simp] theorem updTileOp_l2 : (s.updTileOp id f).l2 = s.l2 := rfl
@[simp] theorem updTileOp_llc : (s.updTileOp id f).llc = s.llc := rfl
@[simp] theorem updTileOp_ucopies : (s.updTileOp id f).ucopies = s.ucopies := rfl
@[simp] theorem updTileOp_accs : (s.updTileOp id f).accs = s.accs := rfl
@[simp] theorem updTileOp_results : (s.updTileOp id f).results = s.results := rfl
@[simp] theorem updTileOp_held : (s.updTileOp id f).held = s.held := rfl
@[simp] theorem updTileOp_btinvs : (s.updTileOp id f).btinvs = s.btinvs := rfl
@[simp] theorem updTileOp_bcache : (s.updTileOp id f).bcache = s.bcache := rfl
@[simp] theorem updTileOp_pcache : (s.updTileOp id f).pcache = s.pcache := rfl
@[simp] theorem updTileOp_locks : (s.updTileOp id f).locks = s.locks := rfl
@[simp] theorem updTileOp_copies : (s.updTileOp id f).copies = s.copies := rfl
@[simp] theorem updTileOp_runners : (s.updTileOp id f).runners = s.runners := rfl
@[simp] theorem updTileOp_tiles : (s.updTileOp id f).tiles = s.tiles := rfl
@[simp] theorem updTileOp_wtags : (s.updTileOp id f).wtags = s.wtags := rfl
@[simp] theorem updTileOp_bufOps : (s.updTileOp id f).bufOps = s.bufOps := rfl
@[simp] theorem updTileOp_deliveries : (s.updTileOp id f).deliveries = s.deliveries := rfl
@[simp] theorem updTileOp_flasks : (s.updTileOp id f).flasks = s.flasks := rfl
@[simp] theorem updTileOp_sgs : (s.updTileOp id f).sgs = s.sgs := rfl
@[simp] theorem updTileOp_posts : (s.updTileOp id f).posts = s.posts := rfl
@[simp] theorem updTileOp_launches : (s.updTileOp id f).launches = s.launches := rfl
@[simp] theorem updTileOp_casts : (s.updTileOp id f).casts = s.casts := rfl
@[simp] theorem updTileOp_vholds : (s.updTileOp id f).vholds = s.vholds := rfl
@[simp] theorem updTileOp_parts : (s.updTileOp id f).parts = s.parts := rfl
@[simp] theorem updTileOp_ctls : (s.updTileOp id f).ctls = s.ctls := rfl
@[simp] theorem updTileOp_steals : (s.updTileOp id f).steals = s.steals := rfl
@[simp] theorem updTileOp_stealAfter : (s.updTileOp id f).stealAfter = s.stealAfter := rfl
@[simp] theorem updTileOp_busy : (s.updTileOp id f).busy = s.busy := rfl
@[simp] theorem updTileOp_dev : (s.updTileOp id f).dev = s.dev := rfl
end

/-! ### `updSg` -/

section
variable (id : Nat) (f : SgReq → SgReq)
@[simp] theorem updSg_time : (s.updSg id f).time = s.time := rfl
@[simp] theorem updSg_agenda : (s.updSg id f).agenda = s.agenda := rfl
@[simp] theorem updSg_slow : (s.updSg id f).slow = s.slow := rfl
@[simp] theorem updSg_nextId : (s.updSg id f).nextId = s.nextId := rfl
@[simp] theorem updSg_free : (s.updSg id f).free = s.free := rfl
@[simp] theorem updSg_homeOrder : (s.updSg id f).homeOrder = s.homeOrder := rfl
@[simp] theorem updSg_cur : (s.updSg id f).cur = s.cur := rfl
@[simp] theorem updSg_threads : (s.updSg id f).threads = s.threads := rfl
@[simp] theorem updSg_pours : (s.updSg id f).pours = s.pours := rfl
@[simp] theorem updSg_recs : (s.updSg id f).recs = s.recs := rfl
@[simp] theorem updSg_annexes : (s.updSg id f).annexes = s.annexes := rfl
@[simp] theorem updSg_ladles : (s.updSg id f).ladles = s.ladles := rfl
@[simp] theorem updSg_entryLists : (s.updSg id f).entryLists = s.entryLists := rfl
@[simp] theorem updSg_mem : (s.updSg id f).mem = s.mem := rfl
@[simp] theorem updSg_poisoned : (s.updSg id f).poisoned = s.poisoned := rfl
@[simp] theorem updSg_lines : (s.updSg id f).lines = s.lines := rfl
@[simp] theorem updSg_l1 : (s.updSg id f).l1 = s.l1 := rfl
@[simp] theorem updSg_l2 : (s.updSg id f).l2 = s.l2 := rfl
@[simp] theorem updSg_llc : (s.updSg id f).llc = s.llc := rfl
@[simp] theorem updSg_ucopies : (s.updSg id f).ucopies = s.ucopies := rfl
@[simp] theorem updSg_accs : (s.updSg id f).accs = s.accs := rfl
@[simp] theorem updSg_results : (s.updSg id f).results = s.results := rfl
@[simp] theorem updSg_held : (s.updSg id f).held = s.held := rfl
@[simp] theorem updSg_btinvs : (s.updSg id f).btinvs = s.btinvs := rfl
@[simp] theorem updSg_bcache : (s.updSg id f).bcache = s.bcache := rfl
@[simp] theorem updSg_pcache : (s.updSg id f).pcache = s.pcache := rfl
@[simp] theorem updSg_locks : (s.updSg id f).locks = s.locks := rfl
@[simp] theorem updSg_copies : (s.updSg id f).copies = s.copies := rfl
@[simp] theorem updSg_runners : (s.updSg id f).runners = s.runners := rfl
@[simp] theorem updSg_tileOps : (s.updSg id f).tileOps = s.tileOps := rfl
@[simp] theorem updSg_tiles : (s.updSg id f).tiles = s.tiles := rfl
@[simp] theorem updSg_wtags : (s.updSg id f).wtags = s.wtags := rfl
@[simp] theorem updSg_bufOps : (s.updSg id f).bufOps = s.bufOps := rfl
@[simp] theorem updSg_deliveries : (s.updSg id f).deliveries = s.deliveries := rfl
@[simp] theorem updSg_flasks : (s.updSg id f).flasks = s.flasks := rfl
@[simp] theorem updSg_posts : (s.updSg id f).posts = s.posts := rfl
@[simp] theorem updSg_launches : (s.updSg id f).launches = s.launches := rfl
@[simp] theorem updSg_casts : (s.updSg id f).casts = s.casts := rfl
@[simp] theorem updSg_vholds : (s.updSg id f).vholds = s.vholds := rfl
@[simp] theorem updSg_parts : (s.updSg id f).parts = s.parts := rfl
@[simp] theorem updSg_ctls : (s.updSg id f).ctls = s.ctls := rfl
@[simp] theorem updSg_steals : (s.updSg id f).steals = s.steals := rfl
@[simp] theorem updSg_stealAfter : (s.updSg id f).stealAfter = s.stealAfter := rfl
@[simp] theorem updSg_busy : (s.updSg id f).busy = s.busy := rfl
@[simp] theorem updSg_dev : (s.updSg id f).dev = s.dev := rfl
end

/-! ### `updCtl` -/

section
variable (slot : Nat) (f : Ctl → Ctl)
@[simp] theorem updCtl_time : (s.updCtl slot f).time = s.time := rfl
@[simp] theorem updCtl_agenda : (s.updCtl slot f).agenda = s.agenda := rfl
@[simp] theorem updCtl_slow : (s.updCtl slot f).slow = s.slow := rfl
@[simp] theorem updCtl_nextId : (s.updCtl slot f).nextId = s.nextId := rfl
@[simp] theorem updCtl_free : (s.updCtl slot f).free = s.free := rfl
@[simp] theorem updCtl_homeOrder : (s.updCtl slot f).homeOrder = s.homeOrder := rfl
@[simp] theorem updCtl_cur : (s.updCtl slot f).cur = s.cur := rfl
@[simp] theorem updCtl_threads : (s.updCtl slot f).threads = s.threads := rfl
@[simp] theorem updCtl_pours : (s.updCtl slot f).pours = s.pours := rfl
@[simp] theorem updCtl_recs : (s.updCtl slot f).recs = s.recs := rfl
@[simp] theorem updCtl_annexes : (s.updCtl slot f).annexes = s.annexes := rfl
@[simp] theorem updCtl_ladles : (s.updCtl slot f).ladles = s.ladles := rfl
@[simp] theorem updCtl_entryLists : (s.updCtl slot f).entryLists = s.entryLists := rfl
@[simp] theorem updCtl_mem : (s.updCtl slot f).mem = s.mem := rfl
@[simp] theorem updCtl_poisoned : (s.updCtl slot f).poisoned = s.poisoned := rfl
@[simp] theorem updCtl_lines : (s.updCtl slot f).lines = s.lines := rfl
@[simp] theorem updCtl_l1 : (s.updCtl slot f).l1 = s.l1 := rfl
@[simp] theorem updCtl_l2 : (s.updCtl slot f).l2 = s.l2 := rfl
@[simp] theorem updCtl_llc : (s.updCtl slot f).llc = s.llc := rfl
@[simp] theorem updCtl_ucopies : (s.updCtl slot f).ucopies = s.ucopies := rfl
@[simp] theorem updCtl_accs : (s.updCtl slot f).accs = s.accs := rfl
@[simp] theorem updCtl_results : (s.updCtl slot f).results = s.results := rfl
@[simp] theorem updCtl_held : (s.updCtl slot f).held = s.held := rfl
@[simp] theorem updCtl_btinvs : (s.updCtl slot f).btinvs = s.btinvs := rfl
@[simp] theorem updCtl_bcache : (s.updCtl slot f).bcache = s.bcache := rfl
@[simp] theorem updCtl_pcache : (s.updCtl slot f).pcache = s.pcache := rfl
@[simp] theorem updCtl_locks : (s.updCtl slot f).locks = s.locks := rfl
@[simp] theorem updCtl_copies : (s.updCtl slot f).copies = s.copies := rfl
@[simp] theorem updCtl_runners : (s.updCtl slot f).runners = s.runners := rfl
@[simp] theorem updCtl_tileOps : (s.updCtl slot f).tileOps = s.tileOps := rfl
@[simp] theorem updCtl_tiles : (s.updCtl slot f).tiles = s.tiles := rfl
@[simp] theorem updCtl_wtags : (s.updCtl slot f).wtags = s.wtags := rfl
@[simp] theorem updCtl_bufOps : (s.updCtl slot f).bufOps = s.bufOps := rfl
@[simp] theorem updCtl_deliveries : (s.updCtl slot f).deliveries = s.deliveries := rfl
@[simp] theorem updCtl_flasks : (s.updCtl slot f).flasks = s.flasks := rfl
@[simp] theorem updCtl_sgs : (s.updCtl slot f).sgs = s.sgs := rfl
@[simp] theorem updCtl_posts : (s.updCtl slot f).posts = s.posts := rfl
@[simp] theorem updCtl_launches : (s.updCtl slot f).launches = s.launches := rfl
@[simp] theorem updCtl_casts : (s.updCtl slot f).casts = s.casts := rfl
@[simp] theorem updCtl_vholds : (s.updCtl slot f).vholds = s.vholds := rfl
@[simp] theorem updCtl_parts : (s.updCtl slot f).parts = s.parts := rfl
@[simp] theorem updCtl_steals : (s.updCtl slot f).steals = s.steals := rfl
@[simp] theorem updCtl_stealAfter : (s.updCtl slot f).stealAfter = s.stealAfter := rfl
@[simp] theorem updCtl_busy : (s.updCtl slot f).busy = s.busy := rfl
@[simp] theorem updCtl_dev : (s.updCtl slot f).dev = s.dev := rfl
end

/-! ### `updFlask` -/

section
variable (p home idx : Nat) (f : Flask → Flask)
@[simp] theorem updFlask_time : (s.updFlask p home idx f).time = s.time := rfl
@[simp] theorem updFlask_agenda : (s.updFlask p home idx f).agenda = s.agenda := rfl
@[simp] theorem updFlask_slow : (s.updFlask p home idx f).slow = s.slow := rfl
@[simp] theorem updFlask_nextId : (s.updFlask p home idx f).nextId = s.nextId := rfl
@[simp] theorem updFlask_free : (s.updFlask p home idx f).free = s.free := rfl
@[simp] theorem updFlask_homeOrder : (s.updFlask p home idx f).homeOrder = s.homeOrder := rfl
@[simp] theorem updFlask_cur : (s.updFlask p home idx f).cur = s.cur := rfl
@[simp] theorem updFlask_threads : (s.updFlask p home idx f).threads = s.threads := rfl
@[simp] theorem updFlask_pours : (s.updFlask p home idx f).pours = s.pours := rfl
@[simp] theorem updFlask_recs : (s.updFlask p home idx f).recs = s.recs := rfl
@[simp] theorem updFlask_annexes : (s.updFlask p home idx f).annexes = s.annexes := rfl
@[simp] theorem updFlask_ladles : (s.updFlask p home idx f).ladles = s.ladles := rfl
@[simp] theorem updFlask_entryLists : (s.updFlask p home idx f).entryLists = s.entryLists := rfl
@[simp] theorem updFlask_mem : (s.updFlask p home idx f).mem = s.mem := rfl
@[simp] theorem updFlask_poisoned : (s.updFlask p home idx f).poisoned = s.poisoned := rfl
@[simp] theorem updFlask_lines : (s.updFlask p home idx f).lines = s.lines := rfl
@[simp] theorem updFlask_l1 : (s.updFlask p home idx f).l1 = s.l1 := rfl
@[simp] theorem updFlask_l2 : (s.updFlask p home idx f).l2 = s.l2 := rfl
@[simp] theorem updFlask_llc : (s.updFlask p home idx f).llc = s.llc := rfl
@[simp] theorem updFlask_ucopies : (s.updFlask p home idx f).ucopies = s.ucopies := rfl
@[simp] theorem updFlask_accs : (s.updFlask p home idx f).accs = s.accs := rfl
@[simp] theorem updFlask_results : (s.updFlask p home idx f).results = s.results := rfl
@[simp] theorem updFlask_held : (s.updFlask p home idx f).held = s.held := rfl
@[simp] theorem updFlask_btinvs : (s.updFlask p home idx f).btinvs = s.btinvs := rfl
@[simp] theorem updFlask_bcache : (s.updFlask p home idx f).bcache = s.bcache := rfl
@[simp] theorem updFlask_pcache : (s.updFlask p home idx f).pcache = s.pcache := rfl
@[simp] theorem updFlask_locks : (s.updFlask p home idx f).locks = s.locks := rfl
@[simp] theorem updFlask_copies : (s.updFlask p home idx f).copies = s.copies := rfl
@[simp] theorem updFlask_runners : (s.updFlask p home idx f).runners = s.runners := rfl
@[simp] theorem updFlask_tileOps : (s.updFlask p home idx f).tileOps = s.tileOps := rfl
@[simp] theorem updFlask_tiles : (s.updFlask p home idx f).tiles = s.tiles := rfl
@[simp] theorem updFlask_wtags : (s.updFlask p home idx f).wtags = s.wtags := rfl
@[simp] theorem updFlask_bufOps : (s.updFlask p home idx f).bufOps = s.bufOps := rfl
@[simp] theorem updFlask_deliveries : (s.updFlask p home idx f).deliveries = s.deliveries := rfl
@[simp] theorem updFlask_sgs : (s.updFlask p home idx f).sgs = s.sgs := rfl
@[simp] theorem updFlask_posts : (s.updFlask p home idx f).posts = s.posts := rfl
@[simp] theorem updFlask_launches : (s.updFlask p home idx f).launches = s.launches := rfl
@[simp] theorem updFlask_casts : (s.updFlask p home idx f).casts = s.casts := rfl
@[simp] theorem updFlask_vholds : (s.updFlask p home idx f).vholds = s.vholds := rfl
@[simp] theorem updFlask_parts : (s.updFlask p home idx f).parts = s.parts := rfl
@[simp] theorem updFlask_ctls : (s.updFlask p home idx f).ctls = s.ctls := rfl
@[simp] theorem updFlask_steals : (s.updFlask p home idx f).steals = s.steals := rfl
@[simp] theorem updFlask_stealAfter : (s.updFlask p home idx f).stealAfter = s.stealAfter := rfl
@[simp] theorem updFlask_busy : (s.updFlask p home idx f).busy = s.busy := rfl
@[simp] theorem updFlask_dev : (s.updFlask p home idx f).dev = s.dev := rfl
end

/-! ### `updDev` -/

section
variable (f : Dev → Dev)
@[simp] theorem updDev_time : (s.updDev f).time = s.time := rfl
@[simp] theorem updDev_agenda : (s.updDev f).agenda = s.agenda := rfl
@[simp] theorem updDev_slow : (s.updDev f).slow = s.slow := rfl
@[simp] theorem updDev_nextId : (s.updDev f).nextId = s.nextId := rfl
@[simp] theorem updDev_free : (s.updDev f).free = s.free := rfl
@[simp] theorem updDev_homeOrder : (s.updDev f).homeOrder = s.homeOrder := rfl
@[simp] theorem updDev_cur : (s.updDev f).cur = s.cur := rfl
@[simp] theorem updDev_threads : (s.updDev f).threads = s.threads := rfl
@[simp] theorem updDev_pours : (s.updDev f).pours = s.pours := rfl
@[simp] theorem updDev_recs : (s.updDev f).recs = s.recs := rfl
@[simp] theorem updDev_annexes : (s.updDev f).annexes = s.annexes := rfl
@[simp] theorem updDev_ladles : (s.updDev f).ladles = s.ladles := rfl
@[simp] theorem updDev_entryLists : (s.updDev f).entryLists = s.entryLists := rfl
@[simp] theorem updDev_mem : (s.updDev f).mem = s.mem := rfl
@[simp] theorem updDev_poisoned : (s.updDev f).poisoned = s.poisoned := rfl
@[simp] theorem updDev_lines : (s.updDev f).lines = s.lines := rfl
@[simp] theorem updDev_l1 : (s.updDev f).l1 = s.l1 := rfl
@[simp] theorem updDev_l2 : (s.updDev f).l2 = s.l2 := rfl
@[simp] theorem updDev_llc : (s.updDev f).llc = s.llc := rfl
@[simp] theorem updDev_ucopies : (s.updDev f).ucopies = s.ucopies := rfl
@[simp] theorem updDev_accs : (s.updDev f).accs = s.accs := rfl
@[simp] theorem updDev_results : (s.updDev f).results = s.results := rfl
@[simp] theorem updDev_held : (s.updDev f).held = s.held := rfl
@[simp] theorem updDev_btinvs : (s.updDev f).btinvs = s.btinvs := rfl
@[simp] theorem updDev_bcache : (s.updDev f).bcache = s.bcache := rfl
@[simp] theorem updDev_pcache : (s.updDev f).pcache = s.pcache := rfl
@[simp] theorem updDev_locks : (s.updDev f).locks = s.locks := rfl
@[simp] theorem updDev_copies : (s.updDev f).copies = s.copies := rfl
@[simp] theorem updDev_runners : (s.updDev f).runners = s.runners := rfl
@[simp] theorem updDev_tileOps : (s.updDev f).tileOps = s.tileOps := rfl
@[simp] theorem updDev_tiles : (s.updDev f).tiles = s.tiles := rfl
@[simp] theorem updDev_wtags : (s.updDev f).wtags = s.wtags := rfl
@[simp] theorem updDev_bufOps : (s.updDev f).bufOps = s.bufOps := rfl
@[simp] theorem updDev_deliveries : (s.updDev f).deliveries = s.deliveries := rfl
@[simp] theorem updDev_flasks : (s.updDev f).flasks = s.flasks := rfl
@[simp] theorem updDev_sgs : (s.updDev f).sgs = s.sgs := rfl
@[simp] theorem updDev_posts : (s.updDev f).posts = s.posts := rfl
@[simp] theorem updDev_launches : (s.updDev f).launches = s.launches := rfl
@[simp] theorem updDev_casts : (s.updDev f).casts = s.casts := rfl
@[simp] theorem updDev_vholds : (s.updDev f).vholds = s.vholds := rfl
@[simp] theorem updDev_parts : (s.updDev f).parts = s.parts := rfl
@[simp] theorem updDev_ctls : (s.updDev f).ctls = s.ctls := rfl
@[simp] theorem updDev_steals : (s.updDev f).steals = s.steals := rfl
@[simp] theorem updDev_stealAfter : (s.updDev f).stealAfter = s.stealAfter := rfl
@[simp] theorem updDev_busy : (s.updDev f).busy = s.busy := rfl
end

/-! ### `updCur` -/

section
variable (f : Cur → Cur)
@[simp] theorem updCur_time : (s.updCur f).time = s.time := rfl
@[simp] theorem updCur_agenda : (s.updCur f).agenda = s.agenda := rfl
@[simp] theorem updCur_slow : (s.updCur f).slow = s.slow := rfl
@[simp] theorem updCur_nextId : (s.updCur f).nextId = s.nextId := rfl
@[simp] theorem updCur_free : (s.updCur f).free = s.free := rfl
@[simp] theorem updCur_homeOrder : (s.updCur f).homeOrder = s.homeOrder := rfl
@[simp] theorem updCur_threads : (s.updCur f).threads = s.threads := rfl
@[simp] theorem updCur_pours : (s.updCur f).pours = s.pours := rfl
@[simp] theorem updCur_recs : (s.updCur f).recs = s.recs := rfl
@[simp] theorem updCur_annexes : (s.updCur f).annexes = s.annexes := rfl
@[simp] theorem updCur_ladles : (s.updCur f).ladles = s.ladles := rfl
@[simp] theorem updCur_entryLists : (s.updCur f).entryLists = s.entryLists := rfl
@[simp] theorem updCur_mem : (s.updCur f).mem = s.mem := rfl
@[simp] theorem updCur_poisoned : (s.updCur f).poisoned = s.poisoned := rfl
@[simp] theorem updCur_lines : (s.updCur f).lines = s.lines := rfl
@[simp] theorem updCur_l1 : (s.updCur f).l1 = s.l1 := rfl
@[simp] theorem updCur_l2 : (s.updCur f).l2 = s.l2 := rfl
@[simp] theorem updCur_llc : (s.updCur f).llc = s.llc := rfl
@[simp] theorem updCur_ucopies : (s.updCur f).ucopies = s.ucopies := rfl
@[simp] theorem updCur_accs : (s.updCur f).accs = s.accs := rfl
@[simp] theorem updCur_results : (s.updCur f).results = s.results := rfl
@[simp] theorem updCur_held : (s.updCur f).held = s.held := rfl
@[simp] theorem updCur_btinvs : (s.updCur f).btinvs = s.btinvs := rfl
@[simp] theorem updCur_bcache : (s.updCur f).bcache = s.bcache := rfl
@[simp] theorem updCur_pcache : (s.updCur f).pcache = s.pcache := rfl
@[simp] theorem updCur_locks : (s.updCur f).locks = s.locks := rfl
@[simp] theorem updCur_copies : (s.updCur f).copies = s.copies := rfl
@[simp] theorem updCur_runners : (s.updCur f).runners = s.runners := rfl
@[simp] theorem updCur_tileOps : (s.updCur f).tileOps = s.tileOps := rfl
@[simp] theorem updCur_tiles : (s.updCur f).tiles = s.tiles := rfl
@[simp] theorem updCur_wtags : (s.updCur f).wtags = s.wtags := rfl
@[simp] theorem updCur_bufOps : (s.updCur f).bufOps = s.bufOps := rfl
@[simp] theorem updCur_deliveries : (s.updCur f).deliveries = s.deliveries := rfl
@[simp] theorem updCur_flasks : (s.updCur f).flasks = s.flasks := rfl
@[simp] theorem updCur_sgs : (s.updCur f).sgs = s.sgs := rfl
@[simp] theorem updCur_posts : (s.updCur f).posts = s.posts := rfl
@[simp] theorem updCur_launches : (s.updCur f).launches = s.launches := rfl
@[simp] theorem updCur_casts : (s.updCur f).casts = s.casts := rfl
@[simp] theorem updCur_vholds : (s.updCur f).vholds = s.vholds := rfl
@[simp] theorem updCur_parts : (s.updCur f).parts = s.parts := rfl
@[simp] theorem updCur_ctls : (s.updCur f).ctls = s.ctls := rfl
@[simp] theorem updCur_steals : (s.updCur f).steals = s.steals := rfl
@[simp] theorem updCur_stealAfter : (s.updCur f).stealAfter = s.stealAfter := rfl
@[simp] theorem updCur_busy : (s.updCur f).busy = s.busy := rfl
@[simp] theorem updCur_dev : (s.updCur f).dev = s.dev := rfl
end

/-! ### `bumpId` -/

section
@[simp] theorem bumpId_time : s.bumpId.time = s.time := rfl
@[simp] theorem bumpId_agenda : s.bumpId.agenda = s.agenda := rfl
@[simp] theorem bumpId_slow : s.bumpId.slow = s.slow := rfl
@[simp] theorem bumpId_free : s.bumpId.free = s.free := rfl
@[simp] theorem bumpId_homeOrder : s.bumpId.homeOrder = s.homeOrder := rfl
@[simp] theorem bumpId_cur : s.bumpId.cur = s.cur := rfl
@[simp] theorem bumpId_threads : s.bumpId.threads = s.threads := rfl
@[simp] theorem bumpId_pours : s.bumpId.pours = s.pours := rfl
@[simp] theorem bumpId_recs : s.bumpId.recs = s.recs := rfl
@[simp] theorem bumpId_annexes : s.bumpId.annexes = s.annexes := rfl
@[simp] theorem bumpId_ladles : s.bumpId.ladles = s.ladles := rfl
@[simp] theorem bumpId_entryLists : s.bumpId.entryLists = s.entryLists := rfl
@[simp] theorem bumpId_mem : s.bumpId.mem = s.mem := rfl
@[simp] theorem bumpId_poisoned : s.bumpId.poisoned = s.poisoned := rfl
@[simp] theorem bumpId_lines : s.bumpId.lines = s.lines := rfl
@[simp] theorem bumpId_l1 : s.bumpId.l1 = s.l1 := rfl
@[simp] theorem bumpId_l2 : s.bumpId.l2 = s.l2 := rfl
@[simp] theorem bumpId_llc : s.bumpId.llc = s.llc := rfl
@[simp] theorem bumpId_ucopies : s.bumpId.ucopies = s.ucopies := rfl
@[simp] theorem bumpId_accs : s.bumpId.accs = s.accs := rfl
@[simp] theorem bumpId_results : s.bumpId.results = s.results := rfl
@[simp] theorem bumpId_held : s.bumpId.held = s.held := rfl
@[simp] theorem bumpId_btinvs : s.bumpId.btinvs = s.btinvs := rfl
@[simp] theorem bumpId_bcache : s.bumpId.bcache = s.bcache := rfl
@[simp] theorem bumpId_pcache : s.bumpId.pcache = s.pcache := rfl
@[simp] theorem bumpId_locks : s.bumpId.locks = s.locks := rfl
@[simp] theorem bumpId_copies : s.bumpId.copies = s.copies := rfl
@[simp] theorem bumpId_runners : s.bumpId.runners = s.runners := rfl
@[simp] theorem bumpId_tileOps : s.bumpId.tileOps = s.tileOps := rfl
@[simp] theorem bumpId_tiles : s.bumpId.tiles = s.tiles := rfl
@[simp] theorem bumpId_wtags : s.bumpId.wtags = s.wtags := rfl
@[simp] theorem bumpId_bufOps : s.bumpId.bufOps = s.bufOps := rfl
@[simp] theorem bumpId_deliveries : s.bumpId.deliveries = s.deliveries := rfl
@[simp] theorem bumpId_flasks : s.bumpId.flasks = s.flasks := rfl
@[simp] theorem bumpId_sgs : s.bumpId.sgs = s.sgs := rfl
@[simp] theorem bumpId_posts : s.bumpId.posts = s.posts := rfl
@[simp] theorem bumpId_launches : s.bumpId.launches = s.launches := rfl
@[simp] theorem bumpId_casts : s.bumpId.casts = s.casts := rfl
@[simp] theorem bumpId_vholds : s.bumpId.vholds = s.vholds := rfl
@[simp] theorem bumpId_parts : s.bumpId.parts = s.parts := rfl
@[simp] theorem bumpId_ctls : s.bumpId.ctls = s.ctls := rfl
@[simp] theorem bumpId_steals : s.bumpId.steals = s.steals := rfl
@[simp] theorem bumpId_stealAfter : s.bumpId.stealAfter = s.stealAfter := rfl
@[simp] theorem bumpId_busy : s.bumpId.busy = s.busy := rfl
@[simp] theorem bumpId_dev : s.bumpId.dev = s.dev := rfl
end

/-! ### `poke` -/

section
variable (k : Nat) (bs : List Byte)
@[simp] theorem poke_time : (s.poke k bs).time = s.time := rfl
@[simp] theorem poke_agenda : (s.poke k bs).agenda = s.agenda := rfl
@[simp] theorem poke_slow : (s.poke k bs).slow = s.slow := rfl
@[simp] theorem poke_nextId : (s.poke k bs).nextId = s.nextId := rfl
@[simp] theorem poke_free : (s.poke k bs).free = s.free := rfl
@[simp] theorem poke_homeOrder : (s.poke k bs).homeOrder = s.homeOrder := rfl
@[simp] theorem poke_cur : (s.poke k bs).cur = s.cur := rfl
@[simp] theorem poke_threads : (s.poke k bs).threads = s.threads := rfl
@[simp] theorem poke_pours : (s.poke k bs).pours = s.pours := rfl
@[simp] theorem poke_recs : (s.poke k bs).recs = s.recs := rfl
@[simp] theorem poke_annexes : (s.poke k bs).annexes = s.annexes := rfl
@[simp] theorem poke_ladles : (s.poke k bs).ladles = s.ladles := rfl
@[simp] theorem poke_entryLists : (s.poke k bs).entryLists = s.entryLists := rfl
@[simp] theorem poke_poisoned : (s.poke k bs).poisoned = s.poisoned := rfl
@[simp] theorem poke_lines : (s.poke k bs).lines = s.lines := rfl
@[simp] theorem poke_l1 : (s.poke k bs).l1 = s.l1 := rfl
@[simp] theorem poke_l2 : (s.poke k bs).l2 = s.l2 := rfl
@[simp] theorem poke_llc : (s.poke k bs).llc = s.llc := rfl
@[simp] theorem poke_ucopies : (s.poke k bs).ucopies = s.ucopies := rfl
@[simp] theorem poke_accs : (s.poke k bs).accs = s.accs := rfl
@[simp] theorem poke_results : (s.poke k bs).results = s.results := rfl
@[simp] theorem poke_held : (s.poke k bs).held = s.held := rfl
@[simp] theorem poke_btinvs : (s.poke k bs).btinvs = s.btinvs := rfl
@[simp] theorem poke_bcache : (s.poke k bs).bcache = s.bcache := rfl
@[simp] theorem poke_pcache : (s.poke k bs).pcache = s.pcache := rfl
@[simp] theorem poke_locks : (s.poke k bs).locks = s.locks := rfl
@[simp] theorem poke_copies : (s.poke k bs).copies = s.copies := rfl
@[simp] theorem poke_runners : (s.poke k bs).runners = s.runners := rfl
@[simp] theorem poke_tileOps : (s.poke k bs).tileOps = s.tileOps := rfl
@[simp] theorem poke_tiles : (s.poke k bs).tiles = s.tiles := rfl
@[simp] theorem poke_wtags : (s.poke k bs).wtags = s.wtags := rfl
@[simp] theorem poke_bufOps : (s.poke k bs).bufOps = s.bufOps := rfl
@[simp] theorem poke_deliveries : (s.poke k bs).deliveries = s.deliveries := rfl
@[simp] theorem poke_flasks : (s.poke k bs).flasks = s.flasks := rfl
@[simp] theorem poke_sgs : (s.poke k bs).sgs = s.sgs := rfl
@[simp] theorem poke_posts : (s.poke k bs).posts = s.posts := rfl
@[simp] theorem poke_launches : (s.poke k bs).launches = s.launches := rfl
@[simp] theorem poke_casts : (s.poke k bs).casts = s.casts := rfl
@[simp] theorem poke_vholds : (s.poke k bs).vholds = s.vholds := rfl
@[simp] theorem poke_parts : (s.poke k bs).parts = s.parts := rfl
@[simp] theorem poke_ctls : (s.poke k bs).ctls = s.ctls := rfl
@[simp] theorem poke_steals : (s.poke k bs).steals = s.steals := rfl
@[simp] theorem poke_stealAfter : (s.poke k bs).stealAfter = s.stealAfter := rfl
@[simp] theorem poke_busy : (s.poke k bs).busy = s.busy := rfl
@[simp] theorem poke_dev : (s.poke k bs).dev = s.dev := rfl
end

/-! ### `pokeN` -/

section
variable (k n x : Nat)
@[simp] theorem pokeN_time : (s.pokeN k n x).time = s.time := rfl
@[simp] theorem pokeN_agenda : (s.pokeN k n x).agenda = s.agenda := rfl
@[simp] theorem pokeN_slow : (s.pokeN k n x).slow = s.slow := rfl
@[simp] theorem pokeN_nextId : (s.pokeN k n x).nextId = s.nextId := rfl
@[simp] theorem pokeN_free : (s.pokeN k n x).free = s.free := rfl
@[simp] theorem pokeN_homeOrder : (s.pokeN k n x).homeOrder = s.homeOrder := rfl
@[simp] theorem pokeN_cur : (s.pokeN k n x).cur = s.cur := rfl
@[simp] theorem pokeN_threads : (s.pokeN k n x).threads = s.threads := rfl
@[simp] theorem pokeN_pours : (s.pokeN k n x).pours = s.pours := rfl
@[simp] theorem pokeN_recs : (s.pokeN k n x).recs = s.recs := rfl
@[simp] theorem pokeN_annexes : (s.pokeN k n x).annexes = s.annexes := rfl
@[simp] theorem pokeN_ladles : (s.pokeN k n x).ladles = s.ladles := rfl
@[simp] theorem pokeN_entryLists : (s.pokeN k n x).entryLists = s.entryLists := rfl
@[simp] theorem pokeN_poisoned : (s.pokeN k n x).poisoned = s.poisoned := rfl
@[simp] theorem pokeN_lines : (s.pokeN k n x).lines = s.lines := rfl
@[simp] theorem pokeN_l1 : (s.pokeN k n x).l1 = s.l1 := rfl
@[simp] theorem pokeN_l2 : (s.pokeN k n x).l2 = s.l2 := rfl
@[simp] theorem pokeN_llc : (s.pokeN k n x).llc = s.llc := rfl
@[simp] theorem pokeN_ucopies : (s.pokeN k n x).ucopies = s.ucopies := rfl
@[simp] theorem pokeN_accs : (s.pokeN k n x).accs = s.accs := rfl
@[simp] theorem pokeN_results : (s.pokeN k n x).results = s.results := rfl
@[simp] theorem pokeN_held : (s.pokeN k n x).held = s.held := rfl
@[simp] theorem pokeN_btinvs : (s.pokeN k n x).btinvs = s.btinvs := rfl
@[simp] theorem pokeN_bcache : (s.pokeN k n x).bcache = s.bcache := rfl
@[simp] theorem pokeN_pcache : (s.pokeN k n x).pcache = s.pcache := rfl
@[simp] theorem pokeN_locks : (s.pokeN k n x).locks = s.locks := rfl
@[simp] theorem pokeN_copies : (s.pokeN k n x).copies = s.copies := rfl
@[simp] theorem pokeN_runners : (s.pokeN k n x).runners = s.runners := rfl
@[simp] theorem pokeN_tileOps : (s.pokeN k n x).tileOps = s.tileOps := rfl
@[simp] theorem pokeN_tiles : (s.pokeN k n x).tiles = s.tiles := rfl
@[simp] theorem pokeN_wtags : (s.pokeN k n x).wtags = s.wtags := rfl
@[simp] theorem pokeN_bufOps : (s.pokeN k n x).bufOps = s.bufOps := rfl
@[simp] theorem pokeN_deliveries : (s.pokeN k n x).deliveries = s.deliveries := rfl
@[simp] theorem pokeN_flasks : (s.pokeN k n x).flasks = s.flasks := rfl
@[simp] theorem pokeN_sgs : (s.pokeN k n x).sgs = s.sgs := rfl
@[simp] theorem pokeN_posts : (s.pokeN k n x).posts = s.posts := rfl
@[simp] theorem pokeN_launches : (s.pokeN k n x).launches = s.launches := rfl
@[simp] theorem pokeN_casts : (s.pokeN k n x).casts = s.casts := rfl
@[simp] theorem pokeN_vholds : (s.pokeN k n x).vholds = s.vholds := rfl
@[simp] theorem pokeN_parts : (s.pokeN k n x).parts = s.parts := rfl
@[simp] theorem pokeN_ctls : (s.pokeN k n x).ctls = s.ctls := rfl
@[simp] theorem pokeN_steals : (s.pokeN k n x).steals = s.steals := rfl
@[simp] theorem pokeN_stealAfter : (s.pokeN k n x).stealAfter = s.stealAfter := rfl
@[simp] theorem pokeN_busy : (s.pokeN k n x).busy = s.busy := rfl
@[simp] theorem pokeN_dev : (s.pokeN k n x).dev = s.dev := rfl
end

/-! ### The entry an update names -/

theorem find?_updL {α : Type} {p : α → Bool} {f : α → α} (hp : ∀ x, p (f x) = p x) (l : List α) :
    (updL p f l).find? p = (l.find? p).map f := by
  induction l with
  | nil => rfl
  | cons x l ih =>
    cases h : p x <;> simp_all [updL]

theorem find?_updL_other {α : Type} {p q : α → Bool} {f : α → α} (hq : ∀ x, p x = true → q x = false)
    (hf : ∀ x, p x = true → q (f x) = false) (l : List α) : (updL p f l).find? q = l.find? q := by
  induction l with
  | nil => rfl
  | cons x l ih =>
    cases h : p x
    · cases hx : q x <;> simp_all [updL]
    · simp_all [updL]

theorem thread?_updThread (tid : Nat) (f : Thread → Thread) (hf : ∀ u, (f u).tid = u.tid) :
    (s.updThread tid f).thread? tid = (s.thread? tid).map f := find?_updL (fun x => by simp [hf]) _

theorem thread?_updThread_other (tid n : Nat) (f : Thread → Thread) (hf : ∀ u, (f u).tid = u.tid) (hn : n ≠ tid) :
    (s.updThread tid f).thread? n = s.thread? n :=
  find?_updL_other (fun x h => by simp at h ⊢; omega) (fun x h => by simp [hf] at h ⊢; omega) _

theorem part?_updPart (p : Nat) (f : Part → Part) (hf : ∀ u, (f u).first = u.first) :
    (s.updPart p f).part? p = (s.part? p).map f := find?_updL (fun x => by simp [hf]) _

theorem acc?_updAcc (id : Nat) (f : Acc → Acc) (hf : ∀ u, (f u).id = u.id) :
    (s.updAcc id f).acc? id = (s.acc? id).map f := find?_updL (fun x => by simp [hf]) _

/-! ### Memory -/

theorem memWf_poke (k : Nat) (bs : List Byte) (h : memWf s.mem = true) : memWf (s.poke k bs).mem = true :=
  memWf_memWriteBytes bs s.mem k h

theorem memWf_pokeN (k n x : Nat) (h : memWf s.mem = true) : memWf (s.pokeN k n x).mem = true := s.memWf_poke k _ h

end Sys2Proof.Machine.State
end

