-- ==== Sys2Proof/Laws/Transfer.lean ====
section
/-! SUPPORT. Control transfers: where the lanes of a group go on (R152 to R155). -/

namespace Sys2Proof.Machine

theorem dedup_length_le {l m : List Word} (h : l ⊆ m) : l.dedup.length ≤ m.dedup.length :=
  (List.subperm_of_subset (List.nodup_dedup _) fun _ hx => List.mem_dedup.2 (h (List.mem_dedup.1 hx))).length_le

/-- The frontier after a group has at most one entry for each place of a lane beside the other entries. -/
theorem length_frontierAfter_dedup {c : Cur} {es : List Entry} {e : Entry} {places : List Word}
    (hb : ∀ t ∈ c.transfers, t.buf = e.buf) (ht : ∀ t ∈ c.transfers, t.pc ∈ places)
    (hf : ∀ x ∈ c.lanes, (∀ t ∈ c.transfers, t.lane ≠ x.1) → c.fall ∈ places) :
    (frontierAfter c es e).length ≤ es.length + places.dedup.length := by
  have hb' : ∀ t ∈ c.transfers.foldr insertTarget [], t.buf = e.buf := fun t h => hb t ((mem_sortTargets _ t).1 h)
  have hsub : (c.transfers.foldr insertTarget []).map (·.pc) ⊆ places := by
    intro pc hpc
    obtain ⟨t, h, rfl⟩ := List.mem_map.1 hpc
    exact ht t ((mem_sortTargets _ t).1 h)
  have hfa : frontierAfter c es e = placeAll (placeIn es c.fall (c.newPrio.getD e.prio)
      (e.mask &&& maskOf (c.lanes.map (·.1)) &&& ~~~c.gone &&& ~~~maskOf (c.transfers.map (·.lane))) e.buf)
      (c.transfers.foldr insertTarget []) := rfl
  rw [hfa]
  generalize hm : (e.mask &&& maskOf (c.lanes.map (·.1)) &&& ~~~c.gone &&& ~~~maskOf (c.transfers.map (·.lane))) = m
  by_cases hz : m = 0
  · have h0 : placeIn es c.fall (c.newPrio.getD e.prio) m e.buf = es := by unfold placeIn; rw [if_pos hz]
    rw [h0]
    have h1 := length_placeAll_dedup _ e.buf hb' es [] (by simp)
    have h2 := dedup_length_le hsub
    simp only [List.dedup_nil, List.length_nil, List.nil_append] at h1
    omega
  · have hfall : c.fall ∈ places := by
      have : ∃ l, m.getLsbD l = true := by
        by_contra hcon
        exact hz (BitVec.eq_of_getLsbD_eq fun i _ => by simpa using fun h => hcon ⟨i, h⟩)
      obtain ⟨l, hl⟩ := this
      rw [← hm] at hl
      simp only [BitVec.getLsbD_and, BitVec.getLsbD_not, Bool.and_eq_true, getLsbD_maskOf, decide_eq_true_eq] at hl
      obtain ⟨⟨⟨-, -, hlanes⟩, -⟩, h32, hmoved⟩ := hl
      obtain ⟨x, hx, rfl⟩ := List.mem_map.1 hlanes
      refine hf x hx fun t htm heq => ?_
      have : x.1 ∈ c.transfers.map (·.lane) := List.mem_map.2 ⟨t, htm, heq⟩
      simp [h32, this] at hmoved
    have h1 := length_placeAll_dedup _ e.buf hb' (placeIn es c.fall (c.newPrio.getD e.prio) m e.buf) [c.fall]
      (by simpa using placed_new es c.fall _ hz e.buf)
    have h2 := length_placeIn_le es c.fall (c.newPrio.getD e.prio) m e.buf
    have h3 : ([c.fall] ++ (c.transfers.foldr insertTarget []).map (·.pc)).dedup.length ≤ places.dedup.length :=
      dedup_length_le fun pc hpc => by
        rcases List.mem_append.1 hpc with h | h
        · rw [List.mem_singleton.1 h]; exact hfall
        · exact hsub h
    have h4 : ([c.fall] : List Word).dedup.length = 1 := by simp
    omega

/-- The targets that lanes get from `f`. -/
def targetsOf (s : State) (e : Entry) (f : Thread → Option (Word × BitVec 4)) : List Target :=
  s.cur.lanes.filterMap fun x => (s.before? x.2).bind fun t => (f t).map fun y => { lane := x.1, pc := y.1, prio := y.2, buf := e.buf }

theorem mem_targetsOf {s : State} {e : Entry} {f : Thread → Option (Word × BitVec 4)} {t : Target} :
    t ∈ targetsOf s e f ↔ ∃ x ∈ s.cur.lanes, ∃ u y, s.before? x.2 = some u ∧ f u = some y ∧
      t = { lane := x.1, pc := y.1, prio := y.2, buf := e.buf } := by
  simp only [targetsOf, List.mem_filterMap, Option.bind_eq_some_iff, Option.map_eq_some_iff]
  constructor
  · rintro ⟨x, hx, u, hu, y, hy, rfl⟩; exact ⟨x, hx, u, y, hu, hy, rfl⟩
  · rintro ⟨x, hx, u, y, hu, hy, rfl⟩; exact ⟨x, hx, u, hu, y, hy, rfl⟩

/-- A word whose lanes go to the targets of `f` leaves them there, if a lane number stands once in the group. -/
theorem leaves_targets {s u : State} {p : Pour} {e : Entry} {f : Thread → Option (Word × BitVec 4)} (ho : OneWord s p e)
    (hfit : Fits s p e f) (hp : u.pours = s.pours)
    (hc : u.cur = { s.cur with transfers := targetsOf s e f, stall := u.cur.stall }) :
    Leaves s u p e p.k (s.goes e f) := by
  have hpk : { p with k := p.k } = p := rfl
  have hcore : u.cur.core = s.cur.core := by rw [hc]
  have hslot : u.cur.slot = s.cur.slot := by rw [hc]
  have hent : u.cur.ent = s.cur.ent := by rw [hc]
  have hpc : u.cur.pc = s.cur.pc := by rw [hc]
  have h1 : u.curPour? = some p := by
    have := ho.pour
    simp only [State.curPour?, State.pour?, hp, hcore, hslot] at this ⊢
    exact this
  have h2 : u.curEntry? = some e := by
    have := ho.entry
    simp only [State.curEntry?, State.curPour?, State.pour?, State.entIdx, hp, hcore, hslot, hent, hpc] at this ⊢
    exact this
  have hlanes : u.cur.lanes = s.cur.lanes := by rw [hc]
  have hfall : u.cur.fall = s.cur.fall := by rw [hc]
  have hgone : u.cur.gone = 0 := by rw [hc]; exact ho.gone
  have hnp : u.cur.newPrio = none := by rw [hc]; exact ho.prio
  have htr : u.cur.transfers = targetsOf s e f := by rw [hc]
  have same : ∀ x ∈ s.cur.lanes, ∀ y ∈ s.cur.lanes, x.1 = y.1 → x = y := fun x hx y hy hxy =>
    (List.inj_on_of_nodup_map ho.distinct) hx hy hxy
  refine ⟨h1, h2, fun q _ => by rw [hp], by rw [hc]; exact ho.ends, by rw [hc]; exact ho.traps, ?_, fun x hx => ?_⟩
  · have := length_frontierAfter_dedup (c := u.cur) (es := p.entries.eraseIdx (u.entIdx p)) (e := e)
      (places := s.cur.lanes.map fun x => (s.goes e f x).1) ?_ ?_ ?_
    · have hlt : u.entIdx p < p.entries.length := (List.getElem?_eq_some_iff.1 (curEntry_mem h1 h2)).1
      rw [List.length_eraseIdx_of_lt hlt] at this
      have hft : p.entries.length + (s.cur.lanes.map fun x => (s.goes e f x).1).dedup.length ≤ 9 := hfit
      show (frontierAfter u.cur (p.entries.eraseIdx (u.entIdx p)) e).length ≤ 8
      omega
    · intro t ht
      rw [htr, mem_targetsOf] at ht
      obtain ⟨x, hx, w, y, hw, hy, rfl⟩ := ht
      rfl
    · intro t ht
      rw [htr, mem_targetsOf] at ht
      obtain ⟨x, hx, w, y, hw, hy, rfl⟩ := ht
      exact List.mem_map.2 ⟨x, hx, by simp [State.goes, hw, hy]⟩
    · intro x hx hno
      rw [hlanes] at hx
      refine List.mem_map.2 ⟨x, hx, ?_⟩
      rw [hfall]
      cases hw : s.before? x.2 with
      | none => simp [State.goes, hw]
      | some w =>
        cases hy : f w with
        | none => simp [State.goes, hw, hy]
        | some y => exact absurd rfl (hno _ (by rw [htr, mem_targetsOf]; exact ⟨x, hx, w, y, hw, hy, rfl⟩))
  · have key := frontierAfter_stands (c := u.cur) (es := p.entries.eraseIdx (u.entIdx p)) (e := e) (x := x) hgone
      (by rw [hlanes]; exact hx) (ho.inside x hx)
    show StandsAt (frontierAfter u.cur (p.entries.eraseIdx (u.entIdx p)) e) x.1 (s.goes e f x).1 (s.goes e f x).2 e.buf
    have hnot : ((s.before? x.2).bind f = none) → ∀ t ∈ u.cur.transfers, t.lane ≠ x.1 := by
      intro hn t ht hl
      rw [htr, mem_targetsOf] at ht
      obtain ⟨x', hx', w, y, hw, hy, rfl⟩ := ht
      have hxx := same x' hx' x hx hl
      rw [hxx] at hw
      rw [hw, Option.bind_some, hy] at hn
      cases hn
    cases hw : (s.before? x.2).bind f with
    | none =>
      have hgo : s.goes e f x = (s.cur.fall, e.prio) := by unfold State.goes; rw [hw]; rfl
      rw [hgo]
      have := key.2 (hnot hw)
      rw [hfall, hnp] at this
      exact this
    | some y =>
      have hgo : s.goes e f x = y := by unfold State.goes; rw [hw]; rfl
      rw [hgo]
      obtain ⟨w, hw1, hw2⟩ := Option.bind_eq_some_iff.1 hw
      exact key.1 { lane := x.1, pc := y.1, prio := y.2, buf := e.buf }
        (by rw [htr, mem_targetsOf]; exact ⟨x, hx, w, y, hw1, hw2, rfl⟩) rfl

/-- Where the physical lanes agree, the comparison of a protected launch finds nothing (R136). -/
theorem protectIf_agree {α : Type} [DecidableEq α] {s : State} {f : Thread → α} (h : Agree s f) {x : Nat × Nat}
    (hx : x ∈ s.cur.lanes) {t : Thread} (ht : s.thread? x.2 = some t) : protectIf f s x.1 (s.before t) = none := by
  unfold protectIf
  cases hw : s.twinOf (s.before t) with
  | none => rfl
  | some w =>
    have := h x hx (s.before t) w (by simp [State.before?, ht]) hw
    simp only [this, if_pos]

end Sys2Proof.Machine
end

