-- ==== Sys2Proof/Laws/Words.lean ====
section
/-! SUPPORT. A word given bit by bit. -/

namespace Sys2Proof.Machine

@[simp] theorem getLsbD_wordOf (f : Nat → Bool) (i : Nat) : (wordOf f).getLsbD i = (decide (i < 32) && f i) := by
  by_cases h : i < 32 <;> simp [wordOf, BitVec.getLsbD_ofFnLE, h]

/-- A word is the one whose bits it has. -/
theorem eq_wordOf {x : Word} {f : Nat → Bool} (h : ∀ i, i < 32 → x.getLsbD i = f i) : x = wordOf f :=
  BitVec.eq_of_getLsbD_eq fun i hi => by rw [getLsbD_wordOf, h i hi]; simp [hi]

end Sys2Proof.Machine
end

