-- ==== Sys2Proof/Tests/Slice0.lean ====
section
/-! SUPPORT. The model's own tests: words written out from the encodings, terms that are not well-formed, one step of single
instructions with results taken from the manual, and for each statement of `Obligations` states and operands that meet
its hypotheses (names `hyp_…`). -/

set_option Elab.async false

namespace Sys2Proof

open Sys2Proof.Machine

/-! ### Words written out from the tables of R88 to R94

A group of digits is a field: `C`, `S`, `OP`, then the fields of the format. -/

theorem test_word_sys :
    decode 0b0_11_00000_000000_000000_000000_000000 = .ok (.nop ⟨0, 3⟩) ∧
    decode 0b0_00_00000_000000_000101_000000_000011 = .ok (.sleep ⟨0, 0⟩ 5) ∧
    decode 0b0_00_00000_000000_111111_111110_000101 = .ok (.trap ⟨0, 0⟩ 0xFFE) ∧
    decode 0b0_00_00000_000010_000100_000000_000110 = .ok (.launch ⟨0, 0⟩ 2 2) ∧
    decode 0b0_00_00000_000010_000000_010100_001000 = .ok (.rds ⟨0, 0⟩ 2 20) ∧
    decode 0b0_00_00000_000010_000100_000001_001001 = .ok (.csrr ⟨0, 0⟩ 2 0x101) := by decide
theorem test_word_int :
    decode 0b1_01_00001_000101_000110_000111_000000 = .ok (.add ⟨1, 1⟩ 5 6 7) ∧
    decode 0b0_00_00001_000101_000110_000111_100010 = .ok (.bfi ⟨0, 0⟩ 5 6 7) ∧
    decode 0b0_00_00001_000100_000110_001000_100100 = .ok (.add64 ⟨0, 0⟩ 2 3 4) ∧
    decode 0b0_00_00001_000101_000110_000000_101010 = .ok (.pix ⟨0, 0⟩ 5 3) ∧
    decode 0b0_00_00001_000101_000110_000111_110001 = .ok (.selP6 ⟨0, 0⟩ 5 6 7) := by decide
theorem test_word_immediate :
    decode 0b0_00_00010_000011_000100_111111111110 = .ok (.addi ⟨0, 0⟩ 3 4 0xFFE) ∧
    decode 0b0_00_00011_000011_000100_000000000001 = .ok (.andi ⟨0, 0⟩ 3 4 1) ∧
    decode 0b0_00_00100_000011_000100_000000000001 = .ok (.ori ⟨0, 0⟩ 3 4 1) ∧
    decode 0b0_00_00101_000011_000100_000000000001 = .ok (.xori ⟨0, 0⟩ 3 4 1) ∧
    decode 0b0_00_00110_1111_10000000000000000001 = .ok (.lui ⟨0, 0⟩ 15 0x80001) ∧
    decode 0b0_00_00111_0001_00000000000000000010 = .ok (.apc ⟨0, 0⟩ 1 2) := by decide
theorem test_word_compare :
    decode 0b0_00_01000_110_000_000001_000010_000100 = .ok (.cmpLtN32 ⟨0, 0⟩ 6 1 2) ∧
    decode 0b0_00_01000_110_000_000010_000100_000110 = .ok (.cmpEqB64 ⟨0, 0⟩ 6 1 2) ∧
    decode 0b0_00_01001_001_011_000010_100000000000 = .ok (.cmpiGeI ⟨0, 0⟩ 1 2 0x800) ∧
    decode 0b0_00_01001_001_110_000010_000000011111 = .ok (.cmpiBset ⟨0, 0⟩ 1 2 31) := by decide
theorem test_word_predicate :
    decode 0b0_00_01010_001_000_000_010_000_011_000000 = .ok (.pand ⟨0, 0⟩ 1 2 3) ∧
    decode 0b0_00_01010_000101_000000_000000_000110 = .ok (.p2v ⟨0, 0⟩ 5) := by decide
theorem test_word_branch :
    decode 0b0_00_01011_001_1_0110_1111111111111111 = .ok (.br ⟨0, 0⟩ 1 1 6 0xFFFF) ∧
    decode 0b0_00_01100_0101_0_0000000000111110010 = .ok (.jmp ⟨0, 0⟩ 5 498) ∧
    decode 0b0_00_01100_0101_1_0000000000111110010 = .ok (.call ⟨0, 0⟩ 5 498) ∧
    decode 0b0_00_01101_000000_001100_000100_000001 = .ok (.callr ⟨0, 0⟩ 12 4) ∧
    decode 0b0_00_01101_000000_000000_000100_000010 = .ok (.ret ⟨0, 0⟩ 4) := by decide
theorem test_word_mask :
    decode 0b0_00_01110_001011_000000_000000_000000 = .ok (.kjoin ⟨0, 0⟩ 11) ∧
    decode 0b0_00_01110_001011_000011_000000_000100 = .ok (.kmov ⟨0, 0⟩ 11 3) := by decide
theorem test_word_float :
    decode 0b0_00_01111_000001_000010_000011_000000 = .ok (.fadd ⟨0, 0⟩ 1 2 3) ∧
    decode 0b0_00_01111_000001_000010_000000_001100 = .ok (.fclass ⟨0, 0⟩ 1 2) ∧
    decode 0b0_00_10000_000001_000010_000011_000100 = .ok (.ffma ⟨0, 0⟩ 1 2 3 4) ∧
    decode 0b0_00_10001_000001_000010_000011_000100 = .ok (.hfma2 ⟨0, 0⟩ 1 2 3 4) ∧
    decode 0b0_00_10010_000001_000010_000011_000100 = .ok (.bfma2 ⟨0, 0⟩ 1 2 3 4) ∧
    decode 0b0_00_10100_000001_000010_000000_000111 = .ok (.tanh ⟨0, 0⟩ 1 2) := by decide
theorem test_word_convert :
    decode 0b0_00_10011_001001_000100_011100_000111 = .ok (.cvt ⟨0, 0⟩ 9 4 1 3 0 7) := by decide
theorem test_word_lane :
    decode 0b0_00_10101_000001_000010_000011_000011 = .ok (.shflXor ⟨0, 0⟩ 1 2 3) ∧
    decode 0b0_00_10101_000001_000010_000000_001110 = .ok (.rdxMaxF32 ⟨0, 0⟩ 1 2) := by decide
theorem test_word_access :
    decode 0b0_00_10110_000010_00101_100_01_0_1111111 = .ok (.ld ⟨0, 0⟩ 2 5 4 1 0x7F) ∧
    decode 0b0_00_10110_000010_00101_101_00_1_001001_0 = .ok (.ldx ⟨0, 0⟩ 2 5 5 0 9) ∧
    decode 0b0_00_10111_000100_00101_110_00_0_0000001 = .ok (.st ⟨0, 0⟩ 4 5 6 0 1) := by decide
theorem test_word_atomic :
    decode 0b0_00_11000_000001_000010_000011_001011 = .ok (.atomCas ⟨0, 0⟩ 1 1 3) ∧
    decode 0b0_00_11000_000010_000100_000110_001110 = .ok (.atomCas64 ⟨0, 0⟩ 1 2 3) := by decide
theorem test_word_fence :
    decode 0b0_00_11001_000001_000000_000000_000010 = .ok (.fenceSys ⟨0, 0⟩ 1) ∧
    decode 0b0_00_11001_000000_000110_000000_000111 = .ok (.prefL1 ⟨0, 0⟩ 3) := by decide
theorem test_word_engine :
    decode 0b0_00_11010_000001_000010_000011_000000 = .ok (.copy ⟨0, 0⟩ 1 1 3) ∧
    decode 0b0_00_11011_000001_000010_000000_000000 = .ok (.run ⟨0, 0⟩ 1 1) ∧
    decode 0b0_00_11100_000001_000100_00011_001_10_00 = .ok (.mma ⟨0, 0⟩ 1 4 3 1 2 0) ∧
    decode 0b0_00_11101_000001_000010_000011_000010 = .ok (.tst ⟨0, 0⟩ 1 2 3) := by decide
theorem test_word_flask :
    decode 0b0_00_11110_000001_000010_001011_000001 = .ok (.sgjoinH ⟨0, 0⟩ 1 2 3) ∧
    decode 0b0_00_11110_000001_000010_000011_000110 = .ok (.sgvoteCnt ⟨0, 0⟩ 1 2 3) := by decide
/-- R85, R90, R94: words that are no instruction. -/
theorem test_word_none :
    (decode 0b0_00_11111_000000_000000_000000_000000).toBool = false ∧
    (decode 0b0_00_00000_000000_000000_000000_010010).toBool = false ∧
    (decode 0b0_00_00000_000001_000000_000000_000000).toBool = false ∧
    (decode 0b0_00_00001_000001_000010_000100_100100).toBool = false ∧
    (decode 0b0_00_00000_000010_000000_010101_001000).toBool = false ∧
    (decode 0b0_00_01110_001100_000000_000000_000000).toBool = false ∧
    (decode 0b0_00_10110_000010_00101_111_00_0_0000001).toBool = false := by decide
/-- R85, R90, R94, R150: further words that are no instruction. -/
theorem test_word_none_more :
    (decode 0b0_00_10110_000011_00101_101_00_0_0000001).toBool = false ∧
    (decode 0b0_00_10110_000010_00101_100_00_1_001001_1).toBool = false ∧
    (decode 0b0_00_11100_000001_000100_00011_101_00_00).toBool = false ∧
    (decode 0b0_00_11100_000001_000100_00011_001_11_00).toBool = false ∧
    (decode 0b0_00_11110_000000_001000_000000_000010).toBool = false ∧
    (decode 0b0_00_01001_001_110_000010_000000100000).toBool = false := by decide

/-! ### Terms that are not well-formed -/

theorem test_wf_refuses_fields : ∀ i ∈ [Instr.rds ⟨0, 0⟩ 2 21, .kjoin ⟨0, 0⟩ 12, .kleave ⟨0, 0⟩ 12, .kclr ⟨0, 0⟩ 63,
    .kwait ⟨0, 0⟩ 1 12], wf i = false := by decide
theorem test_wf_refuses_masks : ∀ i ∈ [Instr.kbal ⟨0, 0⟩ 12 1, .kmov ⟨0, 0⟩ 12 0, .kmov ⟨0, 0⟩ 0 12, .krd ⟨0, 0⟩ 1 12, .kwr ⟨0, 0⟩ 12 1,
    .kfront ⟨0, 0⟩ 1 3], wf i = false := by decide
theorem test_wf_refuses_types : ∀ i ∈ [Instr.cvt ⟨0, 0⟩ 1 2 0 0 3 3, .ld ⟨0, 0⟩ 1 0 5 0 0, .ldx ⟨0, 0⟩ 2 0 6 0 0, .st ⟨0, 0⟩ 0 0 7 0 0,
    .stx ⟨0, 0⟩ 1 0 5 0 0], wf i = false := by decide
theorem test_wf_refuses_mma : ∀ i ∈ [Instr.mma ⟨0, 0⟩ 0 0 0 5 0 0, .mma ⟨0, 0⟩ 0 0 0 0 3 0, .mma ⟨0, 0⟩ 0 0 0 0 0 1, .mma ⟨0, 0⟩ 0 49 0 0 0 0,
    .mma ⟨0, 0⟩ 0 48 0 2 0 0, .mma ⟨0, 0⟩ 0 0 0 2 0 3, .mma ⟨0, 0⟩ 0 40 0 3 0 0], wf i = false := by decide
theorem test_wf_refuses_handles : ∀ i ∈ [Instr.sgnew ⟨0, 0⟩ 8 0 0, .sgjoin ⟨0, 0⟩ 8 0 0, .sgjoinH ⟨0, 0⟩ 8 0 0, .sgleave ⟨0, 0⟩ 8,
    .sgdrop ⟨0, 0⟩ 8, .sgbar ⟨0, 0⟩ 0 8, .sgvoteAny ⟨0, 0⟩ 0 8 0, .sgvoteAll ⟨0, 0⟩ 0 8 0, .sgvoteCnt ⟨0, 0⟩ 0 8 0,
    .sgredAddI32 ⟨0, 0⟩ 0 8 0, .sgredAddF32 ⟨0, 0⟩ 0 8 0, .sgredMinI32 ⟨0, 0⟩ 0 8 0, .sgredMaxI32 ⟨0, 0⟩ 0 8 0,
    .sgredMinF32 ⟨0, 0⟩ 0 8 0, .sgredMaxF32 ⟨0, 0⟩ 0 8 0, .sgstat ⟨0, 0⟩ 0 8 0], wf i = false := by decide
theorem test_wf_refuses_events : ∀ i ∈ [Instr.interruptEntry 64 0, .interruptEntry 0 6, .ladleDrain 128, .castStart 128,
    .pourStart 128, .stealRequest 128, .stealHandle 128, .stealReply 128, .schedulerForward 1 128, .l2VthrDrop 128,
    .l2VthrRecover 128, .qack 64, .scrubDone 64, .shakeoutDone 64, .readySet 320, .readyClear 320], wf i = false := by decide
theorem test_wf_accepts : ∀ i ∈ [Instr.rds ⟨0, 0⟩ 2 20, .kjoin ⟨0, 0⟩ 11, .kfront ⟨0, 0⟩ 1 2, .cvt ⟨0, 0⟩ 1 2 0 0 3 4,
    .ld ⟨0, 0⟩ 2 0 5 0 0, .ld ⟨0, 0⟩ 4 0 6 0 0, .st ⟨0, 0⟩ 3 0 4 0 0, .mma ⟨0, 0⟩ 0 48 0 0 2 0, .mma ⟨0, 0⟩ 0 47 0 2 0 2,
    .mma ⟨0, 0⟩ 0 63 0 3 0 0, .sgleave ⟨0, 0⟩ 7, .interruptEntry 63 5, .castStart 127, .readySet 319], wf i = true := by decide

/-! ### One word in one lane

`w0` is the machine that runs a placed word, in the context of that word: lane 0 of pour 0 of core 0, thread 1. -/

def oneCur (core : Nat) : Cur := { Cur.reset with core, fall := 4, lanes := [(0, 1)] }
def w0 : State := { placeWord State.reset 0 with cur := oneCur 0 }
def p0 : Pour := placePour 0
def e0 : Entry := { pc := 0, prio := 0, mask := 1, buf := 1, stall := none, split := none }
def u0 : Thread := Thread.fresh 1 0 0 0 0 (.lane 0 0 0) 0
/-- Thread 1 with values in registers. -/
def u0v (l : List (Reg × Word)) : Thread := l.foldl (fun u x => u.setV x.1 x.2) u0
def having (l : List (Reg × Word)) : State := { w0 with threads := [u0v l] }
/-- The state behind, if there is one. -/
def nextOf (r : Host.Outcome State Fault Refusal) : Option State :=
  match r with
  | .next t => some t
  | _ => none
/-- Register `d` of thread 1 at cy `n` after word `i`, run with values `l`. -/
noncomputable def reg (i : Instr) (l : List (Reg × Word)) (n : Nat) (d : Reg) : Option Word :=
  ((nextOf (exec i (having l))).bind fun t => t.thread? 1).map fun u => u.rdV n d
noncomputable def pair (i : Instr) (l : List (Reg × Word)) (n : Nat) (d : PairNo) : Option DWord :=
  ((nextOf (exec i (having l))).bind fun t => t.thread? 1).map fun u => u.rdW n d
noncomputable def pred (i : Instr) (l : List (Reg × Word)) (n : Nat) (q : PredNo) : Option Bool :=
  ((nextOf (exec i (having l))).bind fun t => t.thread? 1).map fun u => u.rdP n q
/-- What is on its way to thread 1. -/
noncomputable def later (i : Instr) (l : List (Reg × Word)) : Option (List (List (RegRef × Word))) :=
  (nextOf (exec i (having l))).map fun t => t.results.map (·.writes)
/-- The entries of pour 0: PC and priority. -/
noncomputable def stands (i : Instr) (l : List (Reg × Word)) : Option (List (Word × BitVec 4)) :=
  ((nextOf (exec i (having l))).bind fun t => t.pour? 0 0).map fun p => p.entries.map fun e => (e.pc, e.prio)
abbrev h0 : Hdr := ⟨0, 0⟩

/-! ### Register words: results by hand from R141 to R154 and R225 to R237 -/

theorem test_add : reg (.add h0 6 6 7) [(6, 0xFFFFFFFF), (7, 2)] 2 6 = some 1 := by decide +kernel
theorem test_add_early : reg (.add h0 6 6 7) [(6, 0xFFFFFFFF), (7, 2)] 1 6 = some 0xFFFFFFFF := by decide +kernel
theorem test_sub : reg (.sub h0 5 6 7) [(6, 3), (7, 5)] 2 5 = some 0xFFFFFFFE := by decide +kernel
theorem test_mul : reg (.mul h0 5 6 6) [(6, 0x10001)] 4 5 = some 0x20001 := by decide +kernel
theorem test_mulhiI : reg (.mulhiI h0 5 6 7) [(6, 0xFFFFFFFF), (7, 2)] 4 5 = some 0xFFFFFFFF := by decide +kernel
theorem test_mulhiN : reg (.mulhiN h0 5 6 7) [(6, 0xFFFFFFFF), (7, 2)] 4 5 = some 1 := by decide +kernel
theorem test_macc : reg (.macc h0 5 6 7) [(5, 1), (6, 2), (7, 3)] 4 5 = some 7 := by decide +kernel
theorem test_minI : reg (.minI h0 5 6 7) [(6, 0xFFFFFFFF), (7, 1)] 2 5 = some 0xFFFFFFFF := by decide +kernel
theorem test_minN : reg (.minN h0 5 6 7) [(6, 0xFFFFFFFF), (7, 1)] 2 5 = some 1 := by decide +kernel
theorem test_maxI : reg (.maxI h0 5 6 7) [(6, 0xFFFFFFFF), (7, 1)] 2 5 = some 1 := by decide +kernel
theorem test_maxN : reg (.maxN h0 5 6 7) [(6, 0xFFFFFFFF), (7, 1)] 2 5 = some 0xFFFFFFFF := by decide +kernel
theorem test_abs : reg (.abs h0 5 6) [(6, 0x80000000)] 2 5 = some 0x80000000 := by decide +kernel
theorem test_neg : reg (.neg h0 5 6) [(6, 1)] 2 5 = some 0xFFFFFFFF := by decide +kernel
theorem test_andn : reg (.andn h0 5 6 7) [(6, 0xF0), (7, 0x30)] 2 5 = some 0xC0 := by decide +kernel
theorem test_orn : reg (.orn h0 5 6 7) [(6, 0), (7, 0xF)] 2 5 = some 0xFFFFFFF0 := by decide +kernel
theorem test_shl : reg (.shl h0 5 6 7) [(6, 1), (7, 32)] 2 5 = some 0 := by decide +kernel
theorem test_shr : reg (.shr h0 5 6 7) [(6, 0x80000000), (7, 31)] 2 5 = some 1 := by decide +kernel
theorem test_sra : reg (.sra h0 5 6 7) [(6, 0x80000000), (7, 40)] 2 5 = some 0xFFFFFFFF := by decide +kernel
theorem test_rotl : reg (.rotl h0 5 6 7) [(6, 0x80000001), (7, 33)] 2 5 = some 3 := by decide +kernel
theorem test_clz : reg (.clz h0 5 6) [(6, 1)] 2 5 = some 31 := by decide +kernel
theorem test_ctz : reg (.ctz h0 5 6) [] 2 5 = some 32 := by decide +kernel
theorem test_popc : reg (.popc h0 5 6) [(6, 0xF0F)] 2 5 = some 8 := by decide +kernel
theorem test_brev : reg (.brev h0 5 6) [(6, 2)] 2 5 = some 0x40000000 := by decide +kernel
theorem test_bfxI : reg (.bfxI h0 5 6 7) [(6, 0xF0), (7, 0x404)] 2 5 = some 0xFFFFFFFF := by decide +kernel
theorem test_bfxN : reg (.bfxN h0 5 6 7) [(6, 0xF0), (7, 0x404)] 2 5 = some 0xF := by decide +kernel
theorem test_bfi : reg (.bfi h0 5 6 7) [(5, 0xF000), (6, 0xFF), (7, 0x404)] 2 5 = some 0xF0F0 := by decide +kernel
theorem test_divI : later (.divI h0 5 6 7) [(6, 0x80000000), (7, 0xFFFFFFFF)] = some [[(.v 5, 0x80000000)]] := by decide +kernel
theorem test_divN_zero : later (.divN h0 5 6 7) [(6, 5)] = some [[(.v 5, 0xFFFFFFFF)]] := by decide +kernel
theorem test_remI : later (.remI h0 5 6 7) [(6, 0xFFFFFFF9), (7, 2)] = some [[(.v 5, 0xFFFFFFFF)]] := by decide +kernel
theorem test_remN_zero : later (.remN h0 5 6 7) [(6, 5)] = some [[(.v 5, 5)]] := by decide +kernel
theorem test_add64 : pair (.add64 h0 2 3 4) [(6, 0xFFFFFFFF), (8, 1)] 2 2 = some 0x100000000 := by decide +kernel
theorem test_mulwI : pair (.mulwI h0 2 6 7) [(6, 0xFFFFFFFF), (7, 2)] 4 2 = some 0xFFFFFFFFFFFFFFFE := by decide +kernel
theorem test_addof : pair (.addof h0 2 3 8) [(6, 0), (7, 0x50000), (8, 0xFFFFFFFF)] 2 2 = some 0x5FFFFFFFFFFFF := by decide +kernel
theorem test_mkptr : pair (.mkptr h0 2 3 8) [(6, 7), (7, 0x90001), (8, 0x10005)] 2 2 = some 0x5000100000007 := by decide +kernel
theorem test_pix : reg (.pix h0 5 3) [(7, 0x90001)] 2 5 = some 9 := by decide +kernel
theorem test_sel : reg (.selP2 h0 5 6 7) [(6, 1), (7, 2)] 2 5 = some 2 := by decide +kernel
theorem test_addi : reg (.addi h0 5 6 0xFFF) [] 2 5 = some 0xFFFFFFFF := by decide +kernel
theorem test_andi : reg (.andi h0 5 6 0x800) [(6, 0xFFFFFFFF)] 2 5 = some 0xFFFFF800 := by decide +kernel
theorem test_lui : reg (.lui h0 15 0x80001) [] 2 15 = some 0x80001000 := by decide +kernel
theorem test_apc : reg (.apc h0 1 0xFFFFF) [] 2 1 = some 0xFFFFF000 := by decide +kernel
theorem test_cmpLtI32 : pred (.cmpLtI32 h0 3 6 7) [(6, 0x80000000)] 2 3 = some true := by decide +kernel
theorem test_cmpLtN32 : pred (.cmpLtN32 h0 3 6 7) [(6, 0x80000000)] 2 3 = some false := by decide +kernel
theorem test_cmpLtF32_zeros : pred (.cmpLtF32 h0 3 6 7) [(6, 0x80000000)] 2 3 = some false := by decide +kernel
theorem test_cmpUnF32 : pred (.cmpUnF32 h0 3 6 7) [(6, 0x7FC00000)] 2 3 = some true := by decide +kernel
theorem test_cmpiLtN : pred (.cmpiLtN h0 3 6 0xFFF) [(6, 5)] 2 3 = some true := by decide +kernel
theorem test_cmpiBset : pred (.cmpiBset h0 3 6 31) [(6, 0x80000000)] 2 3 = some true := by decide +kernel
theorem test_pandn : pred (.pandn h0 3 7 0) [] 2 3 = some true := by decide +kernel
theorem test_p2v : reg (.p2v h0 5) [] 2 5 = some 0x80 := by decide +kernel
theorem test_v2p : pred (.v2p h0 5) [(5, 0x40)] 2 6 = some true := by decide +kernel
theorem test_jmp : stands (.jmp h0 3 0x7FFFF) [] = some [(0xFFFFFFFC, 3)] := by decide +kernel
theorem test_br_not_taken : stands (.br h0 1 0 3 9) [] = some [(4, 0)] := by decide +kernel
theorem test_br_taken : stands (.br h0 1 1 3 9) [] = some [(36, 3)] := by decide +kernel
theorem test_call : reg (.call h0 3 9) [] 2 63 = some 4 := by decide +kernel
theorem test_ret : stands (.ret h0 2) [(63, 0x30)] = some [(0x30, 2)] := by decide +kernel
theorem test_kfront : reg (.kfront h0 5 1) [] 1 5 = some 1 := by decide +kernel
theorem test_kjoin : ((nextOf (exec (.kjoin h0 11) w0)).bind fun t => t.pour? 0 0).map (fun p => p.k[11]) = some 1 := by decide +kernel
theorem test_kwr_absent_lane :
    ((nextOf (exec (.kwr h0 2 6) (having [(6, 7)]))).bind fun t => t.pour? 0 0).map (fun p => p.k[2]) = some 1 := by decide +kernel
theorem test_rds_time : later (.rds h0 5 14) [] = some [[(.v 5, 0)]] := by decide +kernel
theorem test_fadd : reg (.fadd h0 5 6 7) [(6, 0x3F800000), (7, 0x40000000)] 4 5 = some 0x40400000 := by decide +kernel
theorem test_fsub_exact : reg (.fsub h0 5 6 6) [(6, 0x3F800000)] 4 5 = some 0 := by decide +kernel
theorem test_fmul_infinity : reg (.fmul h0 5 6 7) [(6, 0x7F800000)] 4 5 = some 0x7FC00000 := by decide +kernel
theorem test_fmin_zeros : reg (.fmin h0 5 6 7) [(6, 0), (7, 0x80000000)] 4 5 = some 0x80000000 := by decide +kernel
theorem test_fcps : reg (.fcps h0 5 6 7) [(6, 0x3F800000), (7, 0x80000000)] 4 5 = some 0xBF800000 := by decide +kernel
theorem test_frndNe : reg (.frndNe h0 5 6) [(6, 0x40200000)] 4 5 = some 0x40000000 := by decide +kernel
theorem test_frndUp : reg (.frndUp h0 5 6) [(6, 0x40200000)] 4 5 = some 0x40400000 := by decide +kernel
theorem test_fscale : reg (.fscale h0 5 6 7) [(6, 0x3F800000), (7, 0xFFFFFFFF)] 4 5 = some 0x3F000000 := by decide +kernel
theorem test_hadd2 : reg (.hadd2 h0 5 6 7) [(6, 0x3C003C00), (7, 0x40003C00)] 4 5 = some 0x42004000 := by decide +kernel
theorem test_bmul2 : reg (.bmul2 h0 5 6 7) [(6, 0x3F804000), (7, 0x40004000)] 4 5 = some 0x40004080 := by decide +kernel
theorem test_ffma : reg (.ffma h0 5 6 7 8) [(6, 0x40000000), (7, 0x40400000), (8, 0x3F800000)] 4 5 = some 0x40E00000 := by decide +kernel
theorem test_cvt_f32_i32 : reg (.cvt h0 5 6 1 0 0 5) [(6, 0xBFC00000)] 4 5 = some 0xFFFFFFFF := by decide +kernel
theorem test_cvt_f16hi : reg (.cvtF32F16hi h0 5 6 0 0) [(6, 0x3C000000)] 4 5 = some 0x3F800000 := by decide +kernel
theorem test_cvt_f16x2 : reg (.cvtF16x2F32x2 h0 5 3 0 0) [(6, 0x3F800000), (7, 0x40000000)] 4 5 = some 0x40003C00 := by decide +kernel
theorem test_rcp : later (.rcp h0 5 6) [(6, 0x40000000)] = some [[(.v 5, 0x3F000000)]] := by decide +kernel
theorem test_sqrt : later (.sqrt h0 5 6) [(6, 0x40800000)] = some [[(.v 5, 0x40000000)]] := by decide +kernel
theorem test_shflDn : reg (.shflDn h0 5 6 7) [(6, 9), (7, 1)] 4 5 = some 9 := by decide +kernel
theorem test_lcnt : reg (.lcnt h0 5 7) [] 4 5 = some 1 := by decide +kernel
theorem test_rdxAddI32 : reg (.rdxAddI32 h0 5 6) [(6, 9)] 4 5 = some 9 := by decide +kernel

/-! ### The hypotheses of the statements about words are met -/

/-- The group is lane 0 alone, and its thread `u` has no twin. -/
abbrev Single (s : State) (u : Thread) : Prop :=
  s.cur.lanes = [(0, 1)] ∧ s.before? 1 = some u ∧ s.twinOf u = none
theorem Single.each {s : State} {u : Thread} {P : Nat × Nat → Thread → Prop} (h : Single s u) (hp : P (0, 1) u) :
    ∀ x ∈ s.cur.lanes, ∀ v, s.before? x.2 = some v → P x v := by
  intro x hx v hv
  rw [h.1] at hx
  cases List.mem_singleton.1 hx
  cases hv.symm.trans h.2.1
  exact hp
theorem Single.agree {s : State} {u : Thread} {α : Type} (h : Single s u) (f : Thread → α) : Agree s f :=
  fun x hx v w hv hw => by
    rw [h.1] at hx
    cases List.mem_singleton.1 hx
    cases hv.symm.trans h.2.1
    cases hw.symm.trans h.2.2
theorem Single.clear {s : State} {u : Thread} {f : Thread → Ask} (h : Single s u) (ha : askTrap s 0 u (f u) = none)
    (hn : s.selected u = false) : Clear s f :=
  ⟨h.agree f, h.each (P := fun x v => askTrap s x.1 v (f v) = none ∧ ((f v).kind.isAtomic = true → s.selected v = false))
    ⟨ha, fun _ => hn⟩⟩

theorem one_w0 : OneWord w0 p0 e0 := by constructor <;> decide +kernel
theorem runs_w0 : Runs w0 p0 e0 := .inl one_w0
/-- A word of a larger group, after the checks. -/
def wApply : State := { w0 with cur := { w0.cur with phase := .apply, snap := w0.threads } }
theorem runs_apply : Runs wApply p0 e0 := .inr rfl
theorem single_w0 : Single w0 u0 := by decide +kernel
theorem single_apply : Single wApply u0 := by decide +kernel

theorem hyp_IntegerWords : Runs w0 p0 e0 ∧ Runs wApply p0 e0 := ⟨runs_w0, runs_apply⟩
theorem hyp_BitWords : Runs w0 p0 e0 ∧ Runs wApply p0 e0 := ⟨runs_w0, runs_apply⟩
theorem hyp_Division : Runs w0 p0 e0 ∧ Runs wApply p0 e0 := ⟨runs_w0, runs_apply⟩
theorem hyp_FieldWords : Runs w0 p0 e0 ∧ Runs wApply p0 e0 := ⟨runs_w0, runs_apply⟩
theorem hyp_SelectWords : Runs w0 p0 e0 ∧ Runs wApply p0 e0 := ⟨runs_w0, runs_apply⟩
theorem hyp_ImmediateWords : Runs w0 p0 e0 ∧ Runs wApply p0 e0 := ⟨runs_w0, runs_apply⟩
theorem hyp_IntegerComparisons : Runs w0 p0 e0 ∧ Runs wApply p0 e0 := ⟨runs_w0, runs_apply⟩
theorem hyp_FloatComparisons : Runs w0 p0 e0 ∧ Runs wApply p0 e0 := ⟨runs_w0, runs_apply⟩
theorem hyp_ImmediateComparisons : Runs w0 p0 e0 ∧ 32 ≤ (0x020 : BitVec 12).toNat := ⟨runs_w0, by decide⟩
theorem hyp_PredicateWords : Runs w0 p0 e0 ∧ Runs wApply p0 e0 := ⟨runs_w0, runs_apply⟩
theorem hyp_FloatWords : Runs w0 p0 e0 ∧ Runs wApply p0 e0 := ⟨runs_w0, runs_apply⟩
theorem hyp_SpecialFunctions : Runs w0 p0 e0 ∧ fp32.isNaN (0x7F800001 : Word).toNat = true := ⟨runs_w0, by decide⟩
theorem hyp_LaneWords : Runs w0 p0 e0 ∧ Runs wApply p0 e0 := ⟨runs_w0, runs_apply⟩

/-- The handler of the partition: buffer 1, packet 2. -/
def qT : Part := { w0.parts.headD placePart with trapvec := 0x10002 }
def wTrap : State := { w0 with parts := [qT] }
theorem mayTrap_wTrap : MayTrap wTrap p0 e0 0 u0 qT :=
  ⟨by constructor <;> decide +kernel, rfl, by decide +kernel, by decide +kernel, rfl, rfl, rfl, by decide +kernel, by decide,
    by decide⟩
theorem hyp_PairWords : Runs wTrap p0 e0 ∧ MayTrap wTrap p0 e0 0 u0 qT ∧
    (fun (i j k fn : BitVec 6) => (fn = 36 ∨ fn = 37) ∧ (i.getLsbD 0 || j.getLsbD 0 || k.getLsbD 0) = true) 1 2 4 36 :=
  ⟨.inl mayTrap_wTrap.one, mayTrap_wTrap, by decide⟩
/-- `.trap` is policy 3: 1.0 fits an i32. -/
theorem hyp_Conversions : Runs w0 p0 e0 ∧ ∀ u ∈ w0.threads.map w0.before,
    (cvtOne 0 5 (Rm.of 0) (3 : BitVec 2).toNat (u.rdV w0.time 6).toNat).isSome = true := ⟨runs_w0, by decide +kernel⟩
theorem hyp_ControlTransfers (f : Thread → Option (Word × BitVec 4)) :
    Runs w0 p0 e0 ∧ w0.curEntry? = some e0 ∧ Agree w0 (fun u => ((f u).map (·.1)).getD w0.cur.fall) ∧ Fits w0 p0 e0 f :=
  ⟨runs_w0, by decide +kernel, single_w0.agree _, by
    show 1 + (List.map _ [(0, 1)]).dedup.length ≤ 9
    have := (List.dedup_sublist (List.map (fun x : Nat × Nat => (w0.goes e0 f x).1) [(0, 1)])).length_le
    simp only [List.map_cons, List.map_nil, List.length_cons, List.length_nil] at this ⊢
    omega⟩
theorem hyp_ControlTransfers_apply : wApply.cur.phase = .apply ∧ wApply.curEntry? = some e0 ∧ (0, 1) ∈ wApply.cur.lanes ∧
    wApply.before? 1 = some u0 := by decide +kernel
theorem hyp_MaskWords : Runs w0 p0 e0 ∧ w0.curPour? = some p0 ∧ (11 : BitVec 6).toNat < 12 ∧ w0.issuing? = some (0, u0) ∧
    (∀ x ∈ w0.cur.lanes, x.1 < 32) ∧ (w0.cur.lanes.map (·.1)).Nodup := ⟨runs_w0, by decide +kernel⟩
/-- Two lanes in one entry: mask 3 or 1 in k0. -/
def pMask (m : Word) : Pour := { p0 with k := p0.k.set 0 m }
def wMask (m : Word) : State := { w0 with pours := [pMask m] }
theorem hyp_MaskWords_free : Runs (wMask 1) (pMask 1) e0 ∧ (wMask 1).curPour? = some (pMask 1) ∧ e0.freed = none ∧
    ∀ l, l < 32 → ((pMask 1).kreg 0).getLsbD l = true → ((kwaitUnion (wMask 1) (pMask 1) 0 ||| (wMask 1).active).getLsbD l) = true :=
  ⟨.inl (by constructor <;> decide +kernel), by decide +kernel, rfl, by decide +kernel⟩
theorem hyp_MaskWords_waits : Runs (wMask 3) (pMask 3) e0 ∧ (wMask 3).curPour? = some (pMask 3) ∧
    ¬((wMask 3).active &&& (pMask 3).kreg 0 = 0) ∧ ((pMask 3).kreg 0).getLsbD 1 = true ∧
    (kwaitUnion (wMask 3) (pMask 3) 0 ||| (wMask 3).active).getLsbD 1 = false ∧ kstuck (wMask 3) (pMask 3) = false :=
  ⟨.inl (by constructor <;> decide +kernel), by decide +kernel⟩
/-- The same, the word itself in memory: `KWAIT p1, k0`. -/
def wStuck : State := { wMask 3 with mem := placeMem 0b0_00_01110_001_000_000000_000000_000010 }
theorem hyp_MaskWords_stuck : Runs wStuck (pMask 3) e0 ∧ wStuck.curPour? = some (pMask 3) ∧
    (kwaitUnion wStuck (pMask 3) 0 ||| wStuck.active).getLsbD 1 = false ∧ kstuck wStuck (pMask 3) = true :=
  ⟨.inl (by constructor <;> decide +kernel), by decide +kernel⟩

/-! Further contexts: a control core, registers, buffers, a tile. -/

/-- The bytes of a value at a key; zeros are not listed. -/
def cells (k n x : Nat) : List Host.Cell :=
  (leBytes n x).zipIdx.filterMap fun b => if b.1 = 0 then none else some (k + b.2, b.1)
/-- The memory of `w0` with further entries of the buffer table: index and entry, ascending, from index 2 on. -/
def table (l : List (Nat × Nat)) : List Host.Cell :=
  cells 64 64 (4 + 0x49 * 2 ^ 8 + 0x4000 * 2 ^ 48 + 4096 * 2 ^ 64 + 0x10000 * 2 ^ 128) ++
    l.flatMap (fun x => cells (64 * x.1) 64 x.2) ++ cells (2 ^ 33) 8 0x20001
theorem test_table : table [] = placeMem 0 := by decide +kernel
/-- The machine of `w0` with these entries and values in registers. -/
def staged (l : List (Nat × Nat)) (r : List (Reg × Word)) : State := { having r with mem := table l }
/-- A buffer-table entry: a vault buffer of 32 KiB at offset 0x100 of vault 0, every right but X, in state `st`. -/
def vaultEntry (st : Nat) : Nat := 2 + st * 2 ^ 4 + 0x77 * 2 ^ 8 + 0x8000 * 2 ^ 64 + 0x100 * 2 ^ 128
/-- Buffer 2 is that buffer; w2 points to its byte `off`. -/
def wBuf (st off : Nat) (r : List (Reg × Word)) : State :=
  staged [(2, vaultEntry st)] ([(4, BitVec.ofNat 32 off), (5, 0x20000)] ++ r)
/-- A state and its thread 1. -/
def thread1 (s : State) : Thread := s.threads.headD u0

def tile0 : Tile :=
  { vault := 0, idx := 0, gen := 1, live := true, off := 0x200, ncode := 0, tall := false, i32 := false, part := 0, launch := 0,
    gang := 0, buf := 2 }
/-- A tile at 0x200 of vault 0, its handle in v6. -/
def wTile (r : List (Reg × Word)) : State := { wBuf 0 0 ([(6, 1)] ++ r) with tiles := [tile0] }

def ctl0 : Ctl :=
  { slot := 0, tid := 1, idle := false, bankM := ⟨0x10000, 0, 0, 0⟩, bankS := ⟨0x10001, 0, 0, 0⟩, active := [], pending := [],
    pmp := Vector.replicate 8 ⟨0, 0, 0⟩, waiting := false, oos := false }
def uCtl (l : Level) : Thread := { u0 with loc := .lane 1024 0 0, level := l }
def pCtl : Pour := { p0 with core := 1024 }
/-- The control core of slot 0 executes a word at level `l`. -/
def wCtl (l : Level) : State :=
  { w0 with cur := oneCur 1024, threads := [uCtl l], pours := [pCtl], ctls := [ctl0] }
theorem one_wCtl (l : Level) : OneWord (wCtl l) pCtl e0 := by
  constructor <;> cases l <;> decide +kernel
theorem single_wCtl (l : Level) : Single (wCtl l) (uCtl l) := by cases l <;> decide +kernel

theorem hyp_StatusWords : Runs w0 p0 e0 ∧ w0.ctlHere = false ∧ w0.cur.core < 1024 ∧ w0.issuing? = some (0, u0) ∧
    (feedQueue w0 u0 0).length < 32 := ⟨runs_w0, by decide +kernel⟩
theorem hyp_StatusWords_control : Runs (wCtl .user) pCtl e0 ∧ (wCtl .user).ctlHere = true := ⟨.inl (one_wCtl _), rfl⟩
theorem hyp_StatusWords_tile : Runs (wTile []) p0 e0 ∧ Agree (wTile []) (fun u => u.rdV (wTile []).time 6) ∧
    issuedTile (wTile []) 6 = some (1, tile0) ∧ issuedTile (wTile []) 7 = none :=
  ⟨.inl (by constructor <;> decide +kernel), (show Single _ (thread1 (wTile [])) by decide +kernel).agree _, by decide +kernel⟩
theorem hyp_StatusWords_buffer : Runs (wBuf 3 0 [(6, 2)]) p0 e0 ∧ Agree (wBuf 3 0 [(6, 2)]) (fun u => u.rdV 0 6) ∧
    (∀ x ∈ (wBuf 3 0 [(6, 2)]).cur.lanes, ∀ u, (wBuf 3 0 [(6, 2)]).before? x.2 = some u →
      stateTrap btR 6 (wBuf 3 0 [(6, 2)]) x.1 u = none) ∧
    btState (btMem (wBuf 3 0 [(6, 2)]) (w0.parts.headD placePart) 2) = 3 ∧ stateOpBefore (wBuf 3 0 [(6, 2)]) 2 = false :=
  have h : Single (wBuf 3 0 [(6, 2)]) (thread1 (wBuf 3 0 [(6, 2)])) := by decide +kernel
  ⟨.inl (by constructor <;> decide +kernel), h.agree _,
    h.each (P := fun x u => stateTrap btR 6 (wBuf 3 0 [(6, 2)]) x.1 u = none) (by decide +kernel), by decide +kernel⟩

/-- Thread 1 at supervisor level. -/
def wSup : State := { w0 with threads := [{ u0 with level := .sup }] }
theorem single_wSup : Single wSup { u0 with level := .sup } := by decide +kernel
theorem runs_wSup : Runs wSup p0 e0 := .inl (by constructor <;> decide +kernel)
theorem hyp_CsrReads : Runs wSup p0 e0 ∧ (∀ x ∈ wSup.cur.lanes, ∀ u, wSup.before? x.2 = some u →
      csrStatic wSup.ctlHere 0 0x100 2 u.level = none) ∧
    [0x121, 0x001, 0x002, 0x003, 0x100, 0x101, 0x102, 0x103, 0x104, 0x105, 0x106, 0x107, 0x108, 0x10A, 0x10C, 0x110, 0x112,
      0x120].all (fun r => csrStatic false 0 r 2 .sup = none) = true :=
  ⟨runs_wSup, single_wSup.each (P := fun _ u => csrStatic wSup.ctlHere 0 0x100 2 u.level = none) (by decide +kernel),
    by decide +kernel⟩
theorem hyp_CsrReads_control : Runs (wCtl .mon) pCtl e0 ∧ (wCtl .mon).ctl? ((wCtl .mon).cur.core - 1024) = some ctl0 ∧
    (wCtl .mon).partOfSlot ((wCtl .mon).cur.core - 1024) = some (w0.parts.headD placePart) ∧
    (∀ x ∈ (wCtl .mon).cur.lanes, ∀ u, (wCtl .mon).before? x.2 = some u → csrStatic (wCtl .mon).ctlHere 0 0x217 2 u.level = none) ∧
    [0x10B, 0x122, 0x100, 0x103, 0x200, 0x207, 0x208, 0x20F, 0x210, 0x217].all (fun r => csrStatic true 0 r 2 .mon = none) = true :=
  ⟨.inl (one_wCtl _), by decide +kernel, by decide +kernel,
    (single_wCtl .mon).each (P := fun _ u => csrStatic (wCtl .mon).ctlHere 0 0x217 2 u.level = none) (by decide +kernel),
    by decide +kernel⟩
theorem hyp_CsrWrites : Runs wSup p0 e0 ∧ wSup.cur.lanes = [(0, 1)] ∧ wSup.before? 1 = some { u0 with level := .sup } ∧
    wSup.thread? 1 = some { u0 with level := .sup } ∧ wSup.part? 0 = some (w0.parts.headD placePart) ∧
    (∀ x ∈ wSup.parts, x.first = 0 → x = w0.parts.headD placePart) ∧ wSup.ctlHere = false :=
  ⟨runs_wSup, by decide +kernel⟩
theorem hyp_CsrWrites_forms : [0x001, 0x002, 0x003, 0x105, 0x106, 0x107, 0x108, 0x110, 0x100, 0x101, 0x102, 0x103].all
    (fun r => csrStatic false 1 r 2 .sup = none ∧ csrStatic false 2 r 2 .sup = none) = true := by decide +kernel
/-- A locked region 0 and an open region 7. -/
def ctlLock : Ctl := { ctl0 with pmp := ctl0.pmp.set 0 ⟨0x80, 0, 0⟩ }
def wLock : State := { wCtl .mon with ctls := [ctlLock] }
theorem hyp_CsrWrites_control : Runs wLock pCtl e0 ∧ wLock.cur.lanes = [(0, 1)] ∧ wLock.before? 1 = some (uCtl .mon) ∧
    wLock.thread? 1 = some (uCtl .mon) ∧ wLock.ctl? (wLock.cur.core - 1024) = some ctlLock ∧
    (if wLock.ctlHere = true then wLock.partOfSlot (wLock.cur.core - 1024) else wLock.part? 0) = some (w0.parts.headD placePart) ∧
    (∀ x ∈ wLock.parts, x.first = (w0.parts.headD placePart).first → x = w0.parts.headD placePart) ∧
    ctlLock.pmp[0].cfg.getLsbD 7 = true ∧ ctlLock.pmp[7].cfg.getLsbD 7 = false :=
  ⟨.inl (by constructor <;> decide +kernel), by decide +kernel⟩
theorem hyp_CsrWrites_control_forms : [0x111, 0x122, 0x100, 0x101, 0x102, 0x103, 0x200, 0x207, 0x208, 0x20F, 0x210, 0x217].all
    (fun r => csrStatic true 1 r 2 .mon = none ∧ (r ≠ 0x111 → csrStatic true 2 r 2 .mon = none)) = true := by decide +kernel

/-! Accesses: buffer 2 through w2. -/

theorem Single.live {s : State} {u : Thread} (h : Single s u) (hr : u.run = 0)
    (hp : (s.part? (s.reqOf u s.cur.core 0).part).isSome = true) : Live s :=
  fun x hx => by
    rw [h.1] at hx
    cases List.mem_singleton.1 hx
    exact ⟨u, h.2.1, hr, hp⟩
/-- An access of `size` bytes through w2, `x` bytes on. -/
def askAt (op : PortOp) (kind : AccKind) (x : Int) (size ty : Nat) (dst : Option Reg) (data cmp : Nat) (u : Thread) : Ask :=
  { op, kind, idx := (u.rdW 0 2).toNat / 2 ^ 48, off := ((((u.rdW 0 2).toNat % 2 ^ 48 : Nat) + x) % 2 ^ 48).toNat, size, ty,
    cp := 0, dst, data, cmp }
theorem hyp_access (off : Nat) (op : PortOp) (kind : AccKind) (x : Int) (size ty : Nat) (dst : Option Reg) (data cmp : Nat)
    (hs : Single (wBuf 0 off []) (thread1 (wBuf 0 off [])))
    (ha : askTrap (wBuf 0 off []) 0 (thread1 (wBuf 0 off [])) (askAt op kind x size ty dst data cmp (thread1 (wBuf 0 off []))) = none)
    (hn : (wBuf 0 off []).selected (thread1 (wBuf 0 off [])) = false)
    (ho : OneWord (wBuf 0 off []) p0 e0) (hr : (thread1 (wBuf 0 off [])).run = 0)
    (hp : ((wBuf 0 off []).part? ((wBuf 0 off []).reqOf (thread1 (wBuf 0 off [])) (wBuf 0 off []).cur.core 0).part).isSome = true) :
    Runs (wBuf 0 off []) p0 e0 ∧ Live (wBuf 0 off []) ∧ Clear (wBuf 0 off []) (askAt op kind x size ty dst data cmp) :=
  ⟨.inl ho, hs.live hr hp, hs.clear ha hn⟩
/-- The last 16 bytes of the buffer, the last byte, and bytes before the pointer. -/
theorem hyp_LoadsAndStores_b128 : accessOk 6 8 = true ∧ Runs (wBuf 0 0x7FF0 []) p0 e0 ∧ Live (wBuf 0 0x7FF0 []) ∧
    Clear (wBuf 0 0x7FF0 []) (askAt .load .load 0 16 6 (some 8) 0 0) :=
  ⟨by decide, hyp_access _ _ _ _ _ _ _ _ _ (by decide +kernel) (by decide +kernel) (by decide +kernel)
    (by constructor <;> decide +kernel) (by decide +kernel) (by decide +kernel)⟩
theorem hyp_LoadsAndStores_store : accessOk 0 8 = true ∧ Runs (wBuf 0 0x7FFE []) p0 e0 ∧ Live (wBuf 0 0x7FFE []) ∧
    Clear (wBuf 0 0x7FFE []) (askAt .store .store 1 1 0 none 0 0) :=
  ⟨by decide, hyp_access _ _ _ _ _ _ _ _ _ (by decide +kernel) (by decide +kernel) (by decide +kernel)
    (by constructor <;> decide +kernel) (by decide +kernel) (by decide +kernel)⟩
theorem hyp_LoadsAndStores : accessOk 4 9 = true ∧ Runs (wBuf 0 8 []) p0 e0 ∧ Live (wBuf 0 8 []) ∧
    Clear (wBuf 0 8 []) (askAt .load .load (-4) 4 4 (some 9) 0 0) :=
  ⟨by decide, hyp_access _ _ _ _ _ _ _ _ _ (by decide +kernel) (by decide +kernel) (by decide +kernel)
    (by constructor <;> decide +kernel) (by decide +kernel) (by decide +kernel)⟩
theorem hyp_LoadsAndStores_prefetch : Clear (wBuf 0 8 []) (askAt .pref .load 0 1 0 none 0 0) :=
  (hyp_access _ _ _ _ _ _ _ _ _ (by decide +kernel) (by decide +kernel) (by decide +kernel)
    (by constructor <;> decide +kernel) (by decide +kernel) (by decide +kernel)).2.2
theorem hyp_Atomics : Runs (wBuf 0 8 []) p0 e0 ∧ Live (wBuf 0 8 []) ∧
    Clear (wBuf 0 8 []) (askAt (.atom .cas) (.atom .cas) 0 4 4 (some 9) 0 0) :=
  hyp_access _ _ _ _ _ _ _ _ _ (by decide +kernel) (by decide +kernel) (by decide +kernel)
    (by constructor <;> decide +kernel) (by decide +kernel) (by decide +kernel)
/-- Buffer 2 as a global buffer of one page (that of the code buffer). -/
def wGlobal : State := staged [(2, 1 + 0x77 * 2 ^ 8 + 0x4000 * 2 ^ 48 + 4096 * 2 ^ 64 + 0x10000 * 2 ^ 128)] [(4, 8), (5, 0x20000)]
theorem hyp_Atomics_b64 : Runs wGlobal p0 e0 ∧ Live wGlobal ∧
    Clear wGlobal (askAt (.atom .cas64) (.atom .cas64) 0 8 5 (some 8) 0 0) :=
  have h : Single wGlobal (thread1 wGlobal) := by decide +kernel
  ⟨.inl (by constructor <;> decide +kernel), h.live (by decide +kernel) (by decide +kernel),
    h.clear (by decide +kernel) (by decide +kernel)⟩
theorem hyp_Atomics_reduction : Clear (wBuf 0 8 []) (askAt (.red .addF32) (.red .addF32) 0 4 4 none 0 0) :=
  (hyp_access _ _ _ _ _ _ _ _ _ (by decide +kernel) (by decide +kernel) (by decide +kernel)
    (by constructor <;> decide +kernel) (by decide +kernel) (by decide +kernel)).2.2
theorem hyp_Atomics_acquire : Clear (wBuf 0 8 []) (askAt (.lda true) .lda 0 8 5 (some 8) 0 0) :=
  (hyp_access _ _ _ _ _ _ _ _ _ (by decide +kernel) (by decide +kernel) (by decide +kernel)
    (by constructor <;> decide +kernel) (by decide +kernel) (by decide +kernel)).2.2
/-- An access of thread 1 as `stage` says. -/
def accOf (id : Nat) (kind : AccKind) (addr data : Nat) (stage : Stage) : Acc :=
  { id, tid := some 1, core := 0, part := 0, launch := 0, cast := 0, kind, buf := 2, off := 8, size := 4, bkind := 2, addr, ty := 4,
    cp := 0, dst := if kind = .load then some 9 else none, data, cmp := 0, poison := false, lane := 0, pc := 0, seq := id, mark := 0, stage, gwct := 0,
    tag := 0, lease := 0 }
/-- An earlier store of the thread is complete. -/
def wDone : State := { wBuf 0 8 [] with accs := [accOf 1 .store (vaultKey 0 0x108) 7 .done] }
theorem hyp_Releases : Runs wDone p0 e0 ∧ Live wDone ∧ Clear wDone (askAt (.str true) .str 0 4 4 none 0 0) ∧
    ∀ z ∈ wDone.cur.lanes, ∀ a ∈ wDone.accs, a.tid = some z.2 → scopeCovers 2 a.bkind = true → a.stage = .done ∧ a.gwct ≤ wDone.time :=
  have h : Single wDone (thread1 wDone) := by decide +kernel
  ⟨.inl (by constructor <;> decide +kernel), h.live (by decide +kernel) (by decide +kernel),
    h.clear (by decide +kernel) (by decide +kernel), by decide +kernel⟩
theorem hyp_Fences : Runs wDone p0 e0 ∧ Agree wDone (fun u => u.rdV 0 6) ∧ (∀ z ∈ wDone.cur.lanes, ∀ u, wDone.before? z.2 = some u →
    ∀ x ∈ wDone.covered z.2 (min ((u.rdV 0 6).toNat / 2 ^ 30) 2) ((u.rdV 0 6).toNat % 2 ^ 24), x.stage = .done ∧ x.gwct ≤ 0) ∧
    ∀ z ∈ wDone.cur.lanes, ∀ x ∈ wDone.accs, x.tid = some z.2 → scopeCovers 0 x.bkind = true → x.stage = .done ∧ x.gwct ≤ wDone.time :=
  have h : Single wDone (thread1 wDone) := by decide +kernel
  ⟨.inl (by constructor <;> decide +kernel), h.agree _,
    h.each (P := fun z u => ∀ x ∈ wDone.covered z.2 (min ((u.rdV 0 6).toNat / 2 ^ 30) 2) ((u.rdV 0 6).toNat % 2 ^ 24),
      x.stage = .done ∧ x.gwct ≤ 0) (by decide +kernel), by decide +kernel⟩

/-! Engines: a block at the start of buffer 2, to which w2 points; buffer 3 is a tile buffer, to which w4 points. -/

/-- Bytes behind those of a state's memory. -/
def placed (l : List Host.Cell) (s : State) : State := { s with mem := s.mem ++ l }
def wEng (block : Nat) (r : List (Reg × Word)) : State :=
  { placed (cells (vaultKey 0 0x100) 128 block)
      (staged [(2, vaultEntry 0), (3, 3 + 0x77 * 2 ^ 8 + 0x8000 * 2 ^ 64 + 0x10000 * 2 ^ 128)] ([(5, 0x20000), (9, 0x30000)] ++ r)) with
    launches := [{ placeLaunch with kinfo := 2 ^ 40 }] }
def ptr (buf off : Nat) : Nat := buf * 2 ^ 48 + off
theorem Single.none {s : State} {u : Thread} {chk : State → Nat → Thread → Option LaneTrap} (h : Single s u) (hc : chk s 0 u = none) :
    NoneTraps s chk := h.each (P := fun x v => chk s x.1 v = Option.none) hc
/-- Four words from 0x800 to 0x900. -/
def copyBlock : Nat :=
  ptr 2 0x800 + ptr 2 0x900 * 2 ^ 64 + (4 + (1 + (1 + (1 + 1 * 2 ^ 32) * 2 ^ 32) * 2 ^ 32) * 2 ^ 32) * 2 ^ 128 + 4 * 2 ^ 288 + 4 * 2 ^ 448 +
    2 * 2 ^ 608 + 1 * 2 ^ 611
abbrev wCopy (r : List (Reg × Word)) : State := wEng copyBlock r
def req0 (s : State) : Req := s.reqOf (thread1 s) 0 0
theorem hyp_CopyWord : Runs (wCopy []) p0 e0 ∧ (wCopy []).issuing? = some (0, thread1 (wCopy [])) ∧
    (wCopy []).curLaunch? = some { placeLaunch with kinfo := 2 ^ 40 } ∧
    Agree (wCopy []) (fun w => (w.rdW 0 2, w.rdV 0 10)) ∧ NoneTraps (wCopy []) (copyTrap 2 10) ∧
    heldReady (wCopy []) 0 (thread1 (wCopy [])) ((thread1 (wCopy [])).rdW 0 2).toNat 8 = true ∧
    heldRead (wCopy []) 0 (thread1 (wCopy [])) ((thread1 (wCopy [])).rdW 0 2).toNat 8 = copyBlock ∧
    heldBlock (wCopy []) (thread1 (wCopy [])) = none ∧ (wCopy []).ucopies = [] ∧
    copyBad copyBlock (copyKind (wCopy []) (req0 (wCopy [])) copyBlock) = false ∧ bufOpHere (wCopy []) = none ∧
    canLock ((wCopy []).taken 0 (thread1 (wCopy [])) ((thread1 (wCopy [])).rdW 0 2).toNat 8) 0
      (copyLocks (wCopy []).nextId 0 0 copyBlock) = true ∧
    (wCopy []).copies.countP (fun c => c.cluster = clusterOf (wCopy []).cur.core) < 16 :=
  have h : Single (wCopy []) (thread1 (wCopy [])) := by decide +kernel
  ⟨.inl (by constructor <;> decide +kernel), by decide +kernel, by decide +kernel, h.agree _, h.none (by decide +kernel),
    by decide +kernel⟩
/-- An acquiring load of the thread is on its way: the block cannot be read yet. -/
def wAcq (s : State) : State := { s with accs := [accOf 1 .lda (vaultKey 0 0x100) 0 .sent] }
theorem hyp_CopyWord_waits :
    heldReady (wAcq (wCopy [])) 0 (thread1 (wCopy [])) ((thread1 (wCopy [])).rdW 0 2).toNat 8 = false ∧
    OneWord (wAcq (wCopy [])) p0 e0 ∧ NoneTraps (wAcq (wCopy [])) (copyTrap 2 10) :=
  have h : Single (wAcq (wCopy [])) (thread1 (wAcq (wCopy []))) := by decide +kernel
  ⟨by decide +kernel, by constructor <;> decide +kernel, h.none (by decide +kernel)⟩
/-- A reserved bit is set. -/
theorem hyp_CopyWord_bad : OneWord (wEng (2 ^ 1000) []) p0 e0 ∧ NoneTraps (wEng (2 ^ 1000) []) (copyTrap 2 10) ∧
    NoRecords (wEng (2 ^ 1000) []) ∧ copyBad (2 ^ 1000) 0 = true :=
  have h : Single (wEng (2 ^ 1000) []) (thread1 (wEng (2 ^ 1000) [])) := by decide +kernel
  ⟨by constructor <;> decide +kernel, h.none (by decide +kernel), fun _ _ => rfl, by decide +kernel⟩
/-- A copy with state buffer 2 asks first, and starts with the home's answer. -/
theorem hyp_CopyWord_state : OneWord (wCopy [(10, 2)]) p0 e0 ∧ NoneTraps (wCopy [(10, 2)]) (copyTrap 2 10) ∧
    bufOpHere (wCopy [(10, 2)]) = none ∧
    copyBad copyBlock (copyKind (wCopy [(10, 2)]) (req0 (wCopy [(10, 2)])) copyBlock) = false :=
  have h : Single (wCopy [(10, 2)]) (thread1 (wCopy [(10, 2)])) := by decide +kernel
  ⟨by constructor <;> decide +kernel, h.none (by decide +kernel), by decide +kernel⟩
def bufOp0 (k : BufOpKind) (st : BufOpStage) : BufOp :=
  { id := 1, part := 0, buf := 2, kind := k, tid := 1, pc := 0, order := [], stage := st }
def wCounted : State := { wCopy [(10, 2)] with bufOps := [bufOp0 (.account 0 16) (.performed true)] }
theorem hyp_CopyWord_counted : NoneTraps wCounted (copyTrap 2 10) ∧
    bufOpHere wCounted = some (bufOp0 (.account 0 16) (.performed true)) ∧
    canLock (wCounted.taken 0 (thread1 wCounted) ((thread1 wCounted).rdW 0 2).toNat 8) 0
      (copyLocks wCounted.nextId 0 0 copyBlock) = true ∧
    heldReady wCounted 0 (thread1 wCounted) ((thread1 wCounted).rdW 0 2).toNat 8 = true :=
  have h : Single wCounted (thread1 wCounted) := by decide +kernel
  ⟨h.none (by decide +kernel), by decide +kernel⟩

theorem hyp_BufferStateWords : OneWord (wBuf 3 0 [(6, 2)]) p0 e0 ∧ (wBuf 3 0 [(6, 2)]).issuing? = some (0, thread1 (wBuf 3 0 [(6, 2)])) ∧
    Agree (wBuf 3 0 [(6, 2)]) (fun w => (w.rdV 0 6, w.rdW 0 2)) ∧ NoneTraps (wBuf 3 0 [(6, 2)]) (stateTrap btR 6) ∧
    NoneTraps (wBuf 3 0 [(6, 2)]) (stateTrap btD 6) ∧ bufOpHere (wBuf 3 0 [(6, 2)]) = none ∧
    (wBuf 3 0 [(6, 2)]).part? 0 = some (w0.parts.headD placePart) ∧
    btState (btMem (wBuf 3 0 [(6, 2)]) (w0.parts.headD placePart) 2) = 3 :=
  have h : Single (wBuf 3 0 [(6, 2)]) (thread1 (wBuf 3 0 [(6, 2)])) := by decide +kernel
  ⟨by constructor <;> decide +kernel, by decide +kernel, h.agree _, h.none (by decide +kernel), h.none (by decide +kernel),
    by decide +kernel⟩
/-- `BWAIT.free` on the full buffer waits; with the answer of the home an operation completes. -/
theorem hyp_BufferStateWords_waits : btState (btMem (wBuf 3 0 [(6, 2)]) (w0.parts.headD placePart) 2) ≠ 1 ∧
    btState (btMem (wBuf 1 0 [(6, 2)]) (w0.parts.headD placePart) 2) = 1 ∧
    bufOpHere { wBuf 3 0 [(6, 2)] with bufOps := [bufOp0 .take (.performed false)] } = some (bufOp0 .take (.performed false)) := by
  decide +kernel
theorem hyp_BufferStateWords_arm : NoneTraps (wBuf 1 0 [(6, 2)]) (fun s x w => armTrap s 2 x w) ∧
    heldReady (wBuf 1 0 [(6, 2)]) 0 (thread1 (wBuf 1 0 [(6, 2)])) ((thread1 (wBuf 1 0 [(6, 2)])).rdW 0 2).toNat 2 = true ∧
    heldReady (wAcq (wBuf 1 0 [(6, 2)])) 0 (thread1 (wBuf 1 0 [(6, 2)])) ((thread1 (wBuf 1 0 [(6, 2)])).rdW 0 2).toNat 2 = false ∧
    stateOpBefore (wBuf 1 0 [(6, 2)]) 2 = false ∧
    stateOpBefore { wBuf 1 0 [(6, 2)] with bufOps := [{ bufOp0 .take .sent with order := [(1, 1)] }] } 2 = true :=
  have h : Single (wBuf 1 0 [(6, 2)]) (thread1 (wBuf 1 0 [(6, 2)])) := by decide +kernel
  ⟨h.none (by decide +kernel), by decide +kernel⟩

/-- A runner of one stream: 32 lanes, 4 bytes apart, from 0x800 on, to queue 0. -/
def runBlock : Nat :=
  1 + 1 * 2 ^ 16 + 1 * 2 ^ 32 + 1 * 2 ^ 48 + 1 * 2 ^ 64 + 1 * 2 ^ 80 + (ptr 2 0x800 + 4 * 2 ^ 184 + 4 * 2 ^ 208) * 2 ^ 128
theorem hyp_RunnerWords : Runs (wEng runBlock []) p0 e0 ∧ (wEng runBlock []).issuing? = some (0, thread1 (wEng runBlock [])) ∧
    Agree (wEng runBlock []) (fun w => w.rdW 0 2) ∧ NoneTraps (wEng runBlock []) (runTrap 2) ∧
    heldReady (wEng runBlock []) 0 (thread1 (wEng runBlock [])) ((thread1 (wEng runBlock [])).rdW 0 2).toNat 8 = true ∧
    heldRead (wEng runBlock []) 0 (thread1 (wEng runBlock [])) ((thread1 (wEng runBlock [])).rdW 0 2).toNat 8 = runBlock ∧
    runBad runBlock = false ∧
    canLock ((wEng runBlock []).taken 0 (thread1 (wEng runBlock [])) ((thread1 (wEng runBlock [])).rdW 0 2).toNat 8) 0
      (runLocks (wEng runBlock []).nextId 0 0 runBlock) = true ∧
    (wEng runBlock []).runners.countP (fun r => r.core = (wEng runBlock []).cur.core) < 4 ∧
    heldReady (wAcq (wEng runBlock [])) 0 (thread1 (wEng runBlock [])) ((thread1 (wEng runBlock [])).rdW 0 2).toNat 8 = false ∧
    (runnerOf (wEng runBlock []) (thread1 (wEng runBlock []))).all (fun r => r.paused.isSome) = true ∧
    feedQueue (wEng runBlock []) (thread1 (wEng runBlock [])) 0 = [] :=
  have h : Single (wEng runBlock []) (thread1 (wEng runBlock [])) := by decide +kernel
  ⟨.inl (by constructor <;> decide +kernel), by decide +kernel, h.agree _, h.none (by decide +kernel), by decide +kernel⟩
theorem hyp_RunnerWords_bad : runBad (2 ^ 127) = true ∧ NoneTraps (wEng (2 ^ 127) []) (runTrap 2) ∧ NoRecords (wEng (2 ^ 127) []) :=
  have h : Single (wEng (2 ^ 127) []) (thread1 (wEng (2 ^ 127) [])) := by decide +kernel
  ⟨by decide +kernel, h.none (by decide +kernel), fun _ _ => rfl⟩
/-- An entry at the head of queue 3. -/
def wQueue : State := { w0 with casts := [{ placeCast with queues := [[], [], [], [[(7, false)]]] }] }
theorem hyp_RunnerWords_pop : Runs wQueue p0 e0 ∧ wQueue.issuing? = some (0, u0) ∧
    (feedQueue wQueue u0 (3 : BitVec 2).toNat).head? = some [(7, false)] ∧
    popTraps wQueue [(7, false)] = [] := ⟨.inl (by constructor <;> decide +kernel), by decide +kernel⟩

/-- Buffer 3 is a tile buffer. -/
abbrev wT (r : List (Reg × Word)) : State := { wEng 0 ([(6, 1)] ++ r) with tiles := [tile0] }
theorem hyp_TileWords : Runs (wT []) p0 e0 ∧ (wT []).issuing? = some (0, thread1 (wT [])) ∧
    Agree (wT []) (fun x => (x.rdW 0 4, x.rdV 0 10)) ∧ NoneTraps (wT []) (tzeroTrap 4 10) ∧
    canLock (wT []) 0 (tzeroLock (wT []) 4 10) = true ∧ issuedTile (wT []) 6 = some (1, tile0) ∧
    NoneTraps (wT []) (selTrap 6 10) ∧ canLock (wT []) 0 [tileLock (wT []) (wT []).nextId 0 tile0 1 true] = true ∧
    canLock (wT []) 0 [tileLock (wT []) (wT []).nextId 0 tile0 1 false] = true :=
  have h : Single (wT []) (thread1 (wT [])) := by decide +kernel
  ⟨.inl (by constructor <;> decide +kernel), by decide +kernel, h.agree _, h.none (by decide +kernel), by decide +kernel,
    by decide +kernel, h.none (by decide +kernel), by decide +kernel⟩

/-- An image of 2 KiB of zeros in weight slot 0 (bf16, N = 32), packed as zero elements. -/
def wImage : State :=
  { placed (cells (weightKey 0 0 0) 8 (1 + 3 * 2 ^ 4 + 32 * 2 ^ 8 + 2048 * 2 ^ 24)) (wT []) with
    wtags := [{ core := 0, slot := 0, part := 0, launch := 0 }], casts := wQueue.casts }
theorem hyp_MatrixWords : Runs wImage p0 e0 ∧ wImage.issuing? = some (0, thread1 wImage) ∧ issuedTile wImage 6 = some (1, tile0) ∧
    NoneTraps wImage (mmaTrap 6 0 0 0) ∧
    Agree wImage (fun w => (w.rdV 0 6, (List.range (aCount 0)).map fun i => w.rdV 0 (20 + BitVec.ofNat 6 i))) ∧
    canLock wImage 0 [tileLock wImage wImage.nextId 0 tile0 1 true] = true ∧
    wImage.tileOps.countP (fun o => o.kind = .mma && o.core = wImage.cur.core) < 4 ∧
    (feedQueue wImage (thread1 wImage) ((63 : BitVec 6).toNat - 60)).head? = some [(7, false)] :=
  have h : Single wImage (thread1 wImage) := by decide +kernel
  ⟨.inl (by constructor <;> decide +kernel), by decide +kernel, by decide +kernel, h.none (by decide +kernel), h.agree _,
    by decide +kernel⟩
/-- A loop of one iteration: A from 0x800 on, 64 bytes a row. -/
def loopBlock : Nat := ptr 2 0x800 + 64 * 2 ^ 128 + (1 + 1 * 2 ^ 16 + 1 * 2 ^ 32 + 1 * 2 ^ 48 + 1 * 2 ^ 64) * 2 ^ 192
def wLoop (b : Nat) : State := { wEng b [(6, 1)] with tiles := [tile0] }
theorem hyp_MatrixWords_loop : issuedTile (wLoop loopBlock) 6 = some (1, tile0) ∧ NoneTraps (wLoop loopBlock) (loopTrap false 6 2) ∧
    heldReady (wLoop loopBlock) 0 (thread1 (wLoop loopBlock)) ((thread1 (wLoop loopBlock)).rdW 0 2).toNat 8 = true ∧
    heldRead (wLoop loopBlock) 0 (thread1 (wLoop loopBlock)) ((thread1 (wLoop loopBlock)).rdW 0 2).toNat 8 = loopBlock ∧
    mRefused false (wLoop loopBlock) (req0 (wLoop loopBlock)) loopBlock tile0 = false ∧
    canLock (State.taken (wLoop loopBlock) 0 (thread1 (wLoop loopBlock)) ((thread1 (wLoop loopBlock)).rdW 0 2).toNat 8) 0 (loopLocks (wLoop loopBlock) false tile0 1 loopBlock) = true :=
  have h : Single (wLoop loopBlock) (thread1 (wLoop loopBlock)) := by decide +kernel
  ⟨by decide +kernel, h.none (by decide +kernel), by decide +kernel⟩
theorem hyp_MatrixWords_waits : heldReady (wAcq (wLoop loopBlock)) 0 (thread1 (wLoop loopBlock))
    ((thread1 (wLoop loopBlock)).rdW 0 2).toNat 8 = false := by decide +kernel
theorem hyp_MatrixWords_refused : NoneTraps (wLoop (2 ^ 1000)) (loopTrap false 6 2) ∧ NoRecords (wLoop (2 ^ 1000)) ∧
    mRefused false (wLoop (2 ^ 1000)) (req0 (wLoop (2 ^ 1000))) (2 ^ 1000) tile0 = true :=
  have h : Single (wLoop (2 ^ 1000)) (thread1 (wLoop (2 ^ 1000))) := by decide +kernel
  ⟨h.none (by decide +kernel), fun _ _ => rfl, by decide +kernel⟩
/-- A gang's loop: N = 128, a tall tile, a gang of two. -/
def gangBlock : Nat := loopBlock + 2 * 2 ^ 179
def tileTall : Tile := { tile0 with ncode := 3, tall := true }
def wGang : State := { wEng gangBlock [(6, 1)] with tiles := [tileTall], launches := [{ placeLaunch with gang := 2, ncast := 2 }] }
theorem hyp_MatrixWords_gang : issuedTile wGang 6 = some (1, tileTall) ∧ NoneTraps wGang (loopTrap true 6 2) ∧
    heldReady wGang 0 (thread1 wGang) ((thread1 wGang).rdW 0 2).toNat 8 = true ∧
    heldRead wGang 0 (thread1 wGang) ((thread1 wGang).rdW 0 2).toNat 8 = gangBlock ∧
    mRefused true wGang (req0 wGang) gangBlock tileTall = false ∧
    canLock (State.taken wGang 0 (thread1 wGang) ((thread1 wGang).rdW 0 2).toNat 8) 0 (loopLocks wGang true tileTall 1 gangBlock) = true :=
  have h : Single wGang (thread1 wGang) := by decide +kernel
  ⟨by decide +kernel, h.none (by decide +kernel), by decide +kernel⟩

/-! Flasks: handle 5 in h2. -/

theorem Single.manned {s : State} {u : Thread} (h : Single s u) : Manned s := fun x hx => by
  rw [h.1] at hx
  cases List.mem_singleton.1 hx
  simp only [h.2.1, Option.isSome_some]
theorem Single.unselected {s : State} {u : Thread} (h : Single s u) (hu : s.selected u = false) : Unselected s :=
  h.each (P := fun _ v => s.selected v = false) hu
theorem hyp_FlaskEntries : Runs w0 p0 e0 ∧ w0.ctlHere = false ∧ Manned w0 ∧ Agree w0 (fun u => SgKind.new (u.rdW 0 2) 2 1) ∧
    Unselected w0 := ⟨runs_w0, rfl, single_w0.manned, single_w0.agree _, single_w0.unselected (by decide +kernel)⟩
theorem hyp_FlaskEntries_control : Runs (wCtl .user) pCtl e0 ∧ (wCtl .user).ctlHere = true := ⟨.inl (one_wCtl _), rfl⟩
def uFlask : Thread := u0.setH 2 5
def wFlask (l : List SgReq) : State := { w0 with threads := [uFlask], sgs := l }
def sg0 (k : SgKind) (st : SgStage) : SgReq := { id := 1, part := 0, tid := 1, who := uFlask.who, kind := k, stage := st, seq := 1 }
theorem hyp_FlaskWords : OneWord (wFlask []) p0 e0 ∧ (wFlask []).ctlHere = false ∧ Manned (wFlask []) ∧ Unselected (wFlask []) ∧
    Agree (wFlask []) (fun u => (u.rdH (hreg 2), u.rdV 0 6, u.rdP 0 1)) ∧ NoneTraps (wFlask []) (nullTrap 2) ∧
    (∀ x ∈ (wFlask []).cur.lanes, waitingSg (wFlask []) x.2 SgKind.isLeave = none) ∧
    (∀ x ∈ (wFlask []).cur.lanes, waitingSg (wFlask []) x.2 SgKind.isArrive = none) ∧
    (∀ x ∈ (wFlask []).cur.lanes, ∀ u, (wFlask []).before? x.2 = some u → (wFlask []).pendingArrival x.2 (u.rdH (hreg 2)) = none) ∧
    ((wFlask []).cur.lanes.map (·.2)).Nodup :=
  have h : Single (wFlask []) uFlask := by decide +kernel
  ⟨by constructor <;> decide +kernel, rfl, h.manned, h.unselected (by decide +kernel), h.agree _, h.none (by decide +kernel),
    by decide +kernel, by decide +kernel, h.each (P := fun x u => (wFlask []).pendingArrival x.2 (u.rdH (hreg 2)) = none) (by decide +kernel),
    by decide +kernel⟩
theorem hyp_FlaskWords_answered :
    (∀ x ∈ (wFlask [sg0 (.drop 5 2) (.returned 0)]).cur.lanes, sgBack (wFlask [sg0 (.drop 5 2) (.returned 0)]) x.2 SgKind.isLeave = true) ∧
    (∀ x ∈ (wFlask [sg0 (.arrive 5 3 0 9) (.returned 4)]).cur.lanes,
      sgBack (wFlask [sg0 (.arrive 5 3 0 9) (.returned 4)]) x.2 SgKind.isArrive = true) ∧
    (∀ x ∈ w0.cur.lanes, ∀ y ∈ w0.cur.lanes, x = y) := by decide +kernel

/-! Ends, records and waits. -/

theorem hyp_EndYieldSleep : OneWord w0 p0 e0 ∧ w0.ctlHere = false ∧ w0.cur.lanes = [(0, u0.tid)] ∧ w0.thread? u0.tid = some u0 ∧
    w0.awaitsHome u0.tid = false ∧ w0.rec? u0.tid = none ∧ (takeRoom w0 u0.part u0.launch 1).isSome = true ∧ p0.refs = [] :=
  ⟨one_w0, by decide +kernel⟩
theorem hyp_EndYieldSleep_no_room : takeRoom { w0 with parts := [] } u0.part u0.launch 1 = none ∧ OneWord { w0 with parts := [] } p0 e0 :=
  ⟨by decide +kernel, by constructor <;> decide +kernel⟩
theorem hyp_EndYieldSleep_control : Runs (wCtl .sup) pCtl e0 ∧ (wCtl .sup).ctlHere = true ∧
    (wCtl .sup).ctl? ((wCtl .sup).cur.core - 1024) = some ctl0 ∧ (wCtl .sup).thread? ctl0.tid = some (uCtl .sup) ∧
    (uCtl .sup).level ≠ .user ∧ (uCtl .sup).level ∉ ctl0.active ∧ ∀ x ∈ (wCtl .sup).cur.lanes, (wCtl .sup).awaitsHome x.2 = false :=
  ⟨.inl (one_wCtl _), by decide +kernel⟩
/-- v6 holds 5; a thread that has slept until cy 0. -/
def wSleep : State := having [(6, 5)]
theorem hyp_EndYieldSleep_sleeps : OneWord wSleep p0 e0 ∧ Manned wSleep ∧ Agree wSleep (fun u => u.rdV 0 6) ∧
    (∀ x ∈ wSleep.cur.lanes, ∀ u, wSleep.before? x.2 = some u → u.sleepAt = none ∧ (u.rdV 0 6).toNat ≤ 5) ∧
    (∀ u ∈ wSleep.threads, (u.rdV 0 6).toNat = 5 ∧ u.sleepAt = none) ∧ wSleep.time % 2 ^ 60 < (wSleep.time + 5) % 2 ^ 60 :=
  have h : Single wSleep (u0v [(6, 5)]) := by decide +kernel
  ⟨by constructor <;> decide +kernel, h.manned, h.agree _,
    h.each (P := fun _ u => u.sleepAt = none ∧ (u.rdV 0 6).toNat ≤ 5) (by decide +kernel), by decide +kernel⟩
theorem hyp_EndYieldSleep_awake : ∀ u ∈ [{ u0 with sleepAt := some 0 }], ∃ k, u.sleepAt = some k ∧ k % 2 ^ 60 ≤ w0.time % 2 ^ 60 :=
  fun u hu => by cases List.mem_singleton.1 hu; exact ⟨0, rfl, Nat.le_refl 0⟩

/-! Services: the call ring in buffer 2; a bundle in buffer 2; v6 names a cluster, v7 none. -/

def wRing : State := { wBuf 0 0 [(6, 1), (7, 0x80)] with parts := [{ w0.parts.headD placePart with sysring := 0x2000000000000 }] }
theorem hyp_ServiceWords : Runs wRing p0 e0 ∧ Manned wRing ∧ wRing.ctlHere = false ∧ Unselected wRing ∧ Agree wRing (sysArgs wRing.time) ∧
    NoneTraps wRing (trapChk fun _ _ => false) ∧ p0.refs = [] ∧ wRing.curLaunch? = some placeLaunch ∧
    NoneTraps wRing (fun s x u => blockTrap s x u (u.rdW s.time 2).toNat 8 128) ∧ wRing.ucopies = [] ∧
    ∀ x ∈ wRing.cur.lanes, ∀ u, wRing.before? x.2 = some u → blockReady wRing x.1 u (u.rdW wRing.time 2).toNat 8 = true :=
  have h : Single wRing (thread1 wRing) := by decide +kernel
  ⟨.inl (by constructor <;> decide +kernel), h.manned, rfl, h.unselected (by decide +kernel), h.agree _, h.none (by decide +kernel),
    rfl, by decide +kernel, h.none (by decide +kernel), rfl,
    h.each (P := fun x u => blockReady wRing x.1 u (u.rdW wRing.time 2).toNat 8 = true) (by decide +kernel)⟩
theorem hyp_ServiceWords_forward : OneWord wRing p0 e0 ∧ wRing.cur.lanes = [(0, (thread1 wRing).tid)] ∧
    wRing.thread? (thread1 wRing).tid = some (thread1 wRing) ∧ wRing.before (thread1 wRing) = thread1 wRing ∧ (thread1 wRing).twin = 0 ∧
    wRing.awaitsHome (thread1 wRing).tid = false ∧ wRing.rec? (thread1 wRing).tid = none ∧
    fwdStatus wRing (thread1 wRing) ((thread1 wRing).rdV wRing.time 6).toNat = 0 ∧
    (takeRoom wRing (thread1 wRing).part (thread1 wRing).launch 1).isSome = true ∧
    fwdStatus wRing (thread1 wRing) ((thread1 wRing).rdV wRing.time 7).toNat = 2 :=
  ⟨by constructor <;> decide +kernel, by decide +kernel⟩
theorem hyp_ServiceWords_control (l : Level) : OneWord (wCtl l) pCtl e0 ∧ Manned (wCtl l) ∧ (wCtl l).ctlHere = true ∧
    (wCtl l).ctl? ((wCtl l).cur.core - 1024) = some ctl0 ∧ (wCtl l).cur.lanes = [(0, ctl0.tid)] ∧
    (wCtl l).thread? ctl0.tid = some (uCtl l) ∧ (wCtl l).before (uCtl l) = uCtl l ∧ (uCtl l).twin = 0 ∧ (wCtl l).cur.slot = 0 :=
  ⟨one_wCtl _, (single_wCtl _).manned, by cases l <;> decide +kernel⟩

/-! Levels and traps. -/

def wRet : State := { w0 with threads := [{ u0 with level := .sup, trapClass := true, trappc := 0x43, trapcause := 0x4700 }] }
theorem hyp_ReturnFromTrap : Runs wRet p0 e0 ∧ wRet.ctlHere = false ∧ Manned wRet ∧
    (∀ x ∈ wRet.cur.lanes, ∀ u, wRet.before? x.2 = some u → u.level ≠ .user ∧
      ∃ ln, wRet.launch? u.part u.launch = some ln ∧ ln.codeBuf = 1) ∧
    Fits wRet p0 e0 (fun u => some (u.trappc &&& 0xFFFFFFFC, BitVec.ofNat 4 (u.trapcause.toNat / 2 ^ 8 % 16))) :=
  have h : Single wRet (thread1 wRet) := by decide +kernel
  ⟨.inl (by constructor <;> decide +kernel), rfl, h.manned,
    h.each (P := fun _ u => u.level ≠ .user ∧ ∃ ln, wRet.launch? u.part u.launch = some ln ∧ ln.codeBuf = 1)
      ⟨by decide, placeLaunch, by decide +kernel, rfl⟩, by unfold Fits; decide +kernel⟩
theorem hyp_ReturnFromTrap_control : OneWord (wCtl .mon) pCtl e0 ∧ (wCtl .mon).ctlHere = true ∧
    (wCtl .mon).ctl? ((wCtl .mon).cur.core - 1024) = some ctl0 ∧ (wCtl .mon).cur.lanes = [(0, ctl0.tid)] ∧
    (wCtl .mon).thread? ctl0.tid = some (uCtl .mon) ∧ (wCtl .mon).before (uCtl .mon) = uCtl .mon ∧ (wCtl .mon).cur.slot = 0 ∧
    (uCtl .mon).level ≠ .user := ⟨one_wCtl _, by decide +kernel⟩
theorem hyp_SupervisorWords : Runs wSup p0 e0 ∧ (∀ x ∈ wSup.cur.lanes, ∀ u, wSup.before? x.2 = some u → u.level ≠ .user) ∧
    wSup.ctlHere = false ∧ Manned wSup ∧ Agree wSup (fun u => u.rdV wSup.time 6) ∧ Unselected wSup ∧
    (∀ x ∈ wSup.cur.lanes, ∀ u, wSup.before? x.2 = some u → wSup.part? u.part = some (w0.parts.headD placePart) ∧
      (u.rdV wSup.time 6).toNat % 2 ^ 16 < btCount (w0.parts.headD placePart)) ∧
    ∀ x ∈ wSup.cur.lanes, wSup.btsyncOk x.2 = true :=
  ⟨runs_wSup, single_wSup.each (P := fun _ u => u.level ≠ .user) (by decide), rfl, single_wSup.manned, single_wSup.agree _,
    single_wSup.unselected (by decide +kernel),
    single_wSup.each (P := fun _ u => wSup.part? u.part = some (w0.parts.headD placePart) ∧
      (u.rdV wSup.time 6).toNat % 2 ^ 16 < btCount (w0.parts.headD placePart)) (by decide +kernel), by decide +kernel⟩
theorem hyp_SupervisorWords_control : Runs (wCtl .sup) pCtl e0 ∧ (wCtl .sup).ctlHere = true ∧
    (wCtl .sup).ctl? ((wCtl .sup).cur.core - 1024) = some ctl0 ∧ (wCtl .sup).thread? ctl0.tid = some (uCtl .sup) ∧
    ∀ n ∈ ctl0.pending, n < 4 ∧ (uCtl .sup).level = .mon := ⟨.inl (one_wCtl _), by decide +kernel⟩
/-- An invalidation of the thread that the caches have not acted on. -/
def wInv : State := { wSup with btinvs := [{ part := 0, idx := 2, tid := 1, acted := false, waits := [] }] }
theorem hyp_SupervisorWords_waits : OneWord wInv p0 e0 ∧ (0, 1) ∈ wInv.cur.lanes ∧ wInv.btsyncOk 1 = false :=
  ⟨by constructor <;> decide +kernel, by decide +kernel⟩
/-- The cast is selected for assay. -/
def assay0 : Assay := { digests := [], digest := 0, decided := false, verdict := 0, deadline := none, promoted := false }
def wAssay : State := { w0 with casts := [{ placeCast with assay := some assay0 }] }
theorem hyp_SupervisorWords_assay : Runs wAssay p0 e0 ∧ wAssay.ctlHere = false ∧ wAssay.cur.lanes = [(0, u0.tid)] ∧
    wAssay.thread? u0.tid = some u0 ∧ wAssay.before u0 = u0 ∧ u0.twin = 0 ∧
    wAssay.cast? u0.part u0.launch u0.cast = some { placeCast with assay := some assay0 } :=
  ⟨.inl (by constructor <;> decide +kernel), by decide +kernel⟩
theorem hyp_PrivilegeTraps : MayTrap wTrap p0 e0 0 u0 qT ∧ u0.level = .user := ⟨mayTrap_wTrap, rfl⟩
theorem hyp_AccessTraps : MayTrap wTrap p0 e0 0 u0 qT ∧ portCheck wTrap (wTrap.reqOf u0 wTrap.cur.core 0) .load
    (addrImm wTrap.time u0 2 4 0).1 (addrImm wTrap.time u0 2 4 0).2 (tySize 4) = .trap Trap.bounds ∧
    portCheck wTrap (wTrap.reqOf u0 wTrap.cur.core 0) .store (addrImm wTrap.time u0 2 4 0).1 (addrImm wTrap.time u0 2 4 0).2 (tySize 4) =
      .trap Trap.bounds ∧ Trap.bounds ≠ Trap.page := ⟨mayTrap_wTrap, by decide +kernel⟩
theorem hyp_LayerEntry (l : Level) : (wCtl l).ctl? 0 = some ctl0 ∧ (wCtl l).thread? ctl0.tid = some (uCtl l) ∧
    (wCtl l).pour? (1024 + 0) 0 = some pCtl ∧ Trap.illegal ≠ Trap.page ∧ Trap.illegal ≠ Trap.poison ∧ Trap.illegal ≠ Trap.defstore ∧
    ¬((uCtl l).level = .mon ∧ ctl0.mTrap.isSome = true) := by cases l <;> decide +kernel
/-- M handles a trap. -/
def wTwice : State := { wCtl .mon with ctls := [{ ctl0 with mTrap := some 1, active := [.mon] }] }
theorem hyp_LayerEntry_twice : wTwice.ctl? 0 = some { ctl0 with mTrap := some 1, active := [.mon] } ∧
    wTwice.thread? ctl0.tid = some (uCtl .mon) ∧ wTwice.pour? (1024 + 0) 0 = some pCtl ∧ (uCtl .mon).level = .mon := by decide +kernel

/-! ### The hypotheses of the statements about events are met

Places: `kG`, byte 8 of the page of the global buffer; `kV`, byte 8 of the vault buffer. -/

def kG : Nat := 2 ^ 34 + 8
def kV : Nat := vaultKey 0 0x108
theorem none_gathered {s : State} (h : s.ucopies = []) (k n : Nat) : NoneGathered s k n := fun u hu => by
  rw [h] at hu; exact absurd hu List.not_mem_nil
theorem row_free {s : State} (h : s.dev.rows = []) (id k : Nat) : rowFree s id k = true := by
  unfold rowFree
  split
  · simp [rowCount, h]
  · rfl
def withAcc (s : State) (a : Acc) : State := { s with accs := [a] }
def aLoad : Acc := { accOf 1 .load kG 0 .sent with lease := 3, bkind := 1 }
theorem hyp_HomePerforms : (withAcc wGlobal aLoad).acc? aLoad.id = some aLoad ∧ memWf (withAcc wGlobal aLoad).mem = true ∧
    homeReadReady (withAcc wGlobal aLoad) aLoad = true ∧ NoneGathered (withAcc wGlobal aLoad) aLoad.addr aLoad.size ∧
    poisonedAt (combineAt (withAcc wGlobal aLoad) aLoad.addr aLoad.size) (128 * lineOf aLoad.addr) 128 = false ∧
    RoomInL1 (withAcc wGlobal aLoad) aLoad.core (lineOf aLoad.addr) ∧ aLoad.tid ≠ none ∧ aLoad.kind = .load ∧ aLoad.lease ≠ 0 ∧
    aLoad.cp ≠ 3 :=
  ⟨by decide +kernel, by decide +kernel, by unfold homeReadReady; rw [row_free rfl]; decide +kernel, none_gathered rfl _ _,
    by decide +kernel, by unfold RoomInL1; decide +kernel, by decide +kernel⟩
/-- A prefetch into the slice. -/
def aPref : Acc := { aLoad with tid := none, cp := 2 }
theorem hyp_HomePerforms_prefetch : homeReadReady (withAcc wGlobal aPref) aPref = true := by
  unfold homeReadReady; rw [row_free rfl]; decide +kernel
def aStore (k : Nat) (kind : AccKind) : Acc := accOf 1 kind k 7 .sent
theorem hyp_HomePerforms_write : homeWritePlace (withAcc wGlobal (aStore kG .store)) (aStore kG .store) = some kG ∧
    homeWritePlace (withAcc wGlobal (aStore kG .host)) (aStore kG .host) = some kG := by
  constructor <;> (unfold homeWritePlace; simp only [row_free (s := withAcc wGlobal _) rfl]; decide +kernel)
theorem hyp_HomePerforms_vault : (withAcc (wBuf 0 8 []) (aStore kV .load)).acc? 1 = some (aStore kV .load) ∧
    memWf (wBuf 0 8 []).mem = true ∧ bankReady (withAcc (wBuf 0 8 []) (aStore kV .load)) (aStore kV .load) = true ∧
    bankReady (withAcc (wBuf 0 8 []) (aStore kV .store)) (aStore kV .store) = true ∧ keyChan kV = none ∧ keyChan kG ≠ none ∧
    (wBuf 0 8 []).reaches (slotOfCluster (clusterOf (aStore kV .load).core)) kV = true := by decide +kernel
/-- A vault of another partition. -/
theorem hyp_HomePerforms_foreign :
    bankReady (withAcc (wBuf 0 8 []) (aStore (vaultKey 2 8) .load)) (aStore (vaultKey 2 8) .load) = true ∧
    (withAcc (wBuf 0 8 []) (aStore (vaultKey 2 8) .load)).reaches 0 (vaultKey 2 8) = false := by decide +kernel
theorem hyp_AtomicResults (op : RmwOp) : NoneGathered (withAcc wGlobal (aStore kG (.atom op))) kG 4 ∧ memWf wGlobal.mem = true ∧
    (withAcc wGlobal (aStore kG (.atom op))).acc? 1 = some (aStore kG (.atom op)) ∧
    RoomInL1 (withAcc wGlobal (aStore kG (.atom op))) 0 (lineOf kG) ∧
    homeWritePlace (withAcc wGlobal (aStore kG (.atom op))) (aStore kG (.atom op)) = some kG := by
  refine ⟨none_gathered rfl _ _, by decide +kernel, rfl, by unfold RoomInL1; simp [withAcc, wGlobal, staged, having, w0, State.reset, placeWord], ?_⟩
  unfold homeWritePlace
  simp only [row_free (s := withAcc wGlobal _) rfl]
  cases op <;> decide +kernel
theorem hyp_AtomicResults_bank : bankReady (withAcc (wBuf 0 8 []) (aStore kV (.red .addF32))) (aStore kV (.red .addF32)) = true ∧
    (aStore kV (.red .addF32)).addr = kV ∧ (withAcc (wBuf 0 8 []) (aStore kV (.red .addF32))).reaches 0 kV = true := by decide +kernel

def wResult : State :=
  { w0 with threads := [u0.pend (.v 5)], results := [{ id := 3, tid := 1, writes := [(.v 5, 7)] }] }
def aBack (poison : Bool) : Acc := { accOf 1 .load kV 7 .performed with poison }
/-- A result that is poisoned and traps, or of one physical lane. -/
theorem hyp_Responses_marked : ({ id := 3, tid := 1, writes := [(.v 5, 7)] } : PendRes).both = true ∧
    ({ id := 3, tid := 1, writes := [(.v 5, 7)], both := false } : PendRes).both = false ∧
    ({ id := 3, tid := 1, writes := [(.v 5, 7)], bad := true, trap := some (6, 1) } : PendRes).bad = true := by decide
theorem hyp_Responses : memWf wResult.mem = true ∧ wResult.results.find? (fun x => x.id = 3) = some { id := 3, tid := 1, writes := [(.v 5, 7)] } ∧
    wResult.thread? 1 = some (u0.pend (.v 5)) ∧ (u0.pend (.v 5)).twin ≠ (u0.pend (.v 5)).tid ∧ (u0.pend (.v 5)).isPending (.v 5) = true ∧
    wResult.rec? 1 = none := by decide +kernel
theorem hyp_Responses_load : (withAcc w0 (aBack false)).acc? 1 = some (aBack false) ∧
    responseOf (withAcc w0 (aBack false)) (aBack false) = some (7, false) ∧
    responseOf (withAcc w0 (aBack true)) (aBack true) = some (7, true) ∧ (aBack true).tid = some 1 ∧ (aBack true).dst = some 9 ∧
    isCtlCore (aBack true).core = false ∧ (withAcc w0 (aBack true)).thread? 1 = some u0 ∧ u0.shadow = false ∧
    (withAcc w0 (aBack true)).launch? u0.part u0.launch = some placeLaunch := by decide +kernel
theorem hyp_Responses_store : (withAcc w0 (accOf 1 .store kV 7 .performed)).acc? 1 = some (accOf 1 .store kV 7 .performed) ∧
    ackReady (accOf 1 .store kV 7 .performed) = true := by decide +kernel
/-- The record of thread 1, waiting as said. -/
def rec1 (wtype key : Nat) : Rec :=
  { tid := 1, part := 0, cluster := 0, kind := 0, prio := 3, resume := 0x40, buf := 1, wtype, key, livemask := 0, faultix := 0, annex := 0,
    lane := 0, ref := 1, ps := false, asRun := false, pt := false, tile := none, fired := none, status := 0, held := false,
    transit := none, convoy := 0 }
def wRec (r : Rec) : State := { w0 with pours := [], threads := [{ u0 with loc := .record }], recs := [r] }
theorem hyp_Responses_wakes : horizonReached (wRec (rec1 1 1)) 1 = true ∧ sleepOver (wRec (rec1 4 0)) 1 = true ∧
    (wRec (rec1 4 0)).rec? 1 = some (rec1 4 0) ∧ (rec1 4 0).held = false ∧ (rec1 4 0).transit = none ∧
    ((wRec (rec1 4 0)).thread? 1).isSome = true := by decide +kernel

def wLease : State :=
  { w0 with l1 := [{ core := 0, line := 5, data := [], granted := 0, expiry := 0 }],
            lines := [{ line := 5, lx := 9, tag := 0, leases := [(0, 0), (1, 4)] }, { line := 6, lx := 9, tag := 0, leases := [(0, 0)] }] }
theorem hyp_LeasesAndCopies : memWf wLease.mem = true ∧ leaseOver wLease 0 5 = true ∧
    noticeDue { wLease with l1 := [] } 0 5 = true ∧ noticeDue wLease 0 6 = true ∧
    (∃ y ∈ (lineAt wLease 5).leases, y.1 ≠ 0 ∧ wLease.time < y.2) ∧ ∀ y ∈ (lineAt wLease 6).leases, y.1 ≠ 0 → y.2 ≤ wLease.time := by
  decide +kernel
def aRed : Acc := { accOf 1 (.red .addI32) kG 7 .sent with bkind := 1, lease := 3 }
def copyU (granted : Bool) (parts : List Partial) : UCopy := { core := 0, line := kG / 128, granted, gwct := 0, parts }
theorem hyp_LeasesAndCopies_reductions : (withAcc wGlobal aRed).acc? aRed.id = some aRed ∧
    RoomInL1 (withAcc wGlobal aRed) 0 (kG / 128) ∧ waitingReds (withAcc wGlobal aRed) 0 (kG / 128) = [aRed] ∧ mayPerform (withAcc wGlobal aRed) aRed = true ∧
    { withAcc wGlobal aRed with ucopies := [copyU true []] }.ucopy? 0 (kG / 128) = some (copyU true []) ∧
    { withAcc wGlobal aRed with ucopies := [copyU false []] }.ucopy? 0 (kG / 128) = some (copyU false []) := by
  unfold RoomInL1; decide +kernel

/-- The fault ring in buffer 2 (64 bytes an entry); buffer 4 has a page that is not mapped. -/
def pFault (l : List FaultId) : Part := { w0.parts.headD placePart with frq := 0x2000000000000, faults := l }
def wFault (ring : Nat) (l : List FaultId) : State :=
  { placed (cells (vaultKey 0 0x100) 64 ring)
      (staged [(2, vaultEntry 0), (4, 1 + 0x77 * 2 ^ 8 + 0x4000 * 2 ^ 48 + 8192 * 2 ^ 64 + 0x10000 * 2 ^ 128)] []) with parts := [pFault l] }
def aFault (stage : Stage) : Acc := { accOf 1 .store (lateKey 0 4 4096) 7 stage with buf := 4, off := 4096 }
theorem hyp_FaultEntries : (wFault 0 []).part? 0 = some (pFault []) ∧ memWf (wFault 0 []).mem = true ∧
    devLocate (wFault 0 []) 0 .store (frqPtr (pFault []) (pFault []).frqix) 64 = .ok (vaultEntry 0) (vaultKey 0 0x100) ∧
    bitsN ((wFault 0 []).peek (vaultKey 0 0x100) 64) 511 508 = 0 ∧
    storeFaults (withAcc (wFault 0 []) (aFault .sent)) (aFault .sent) = true ∧
    (withAcc (wFault 0 []) (aFault (.unposted 0))).acc? 1 = some (aFault (.unposted 0)) := by decide +kernel
theorem hyp_FaultEntries_full :
    devLocate (wFault (2 ^ 508) []) 0 .store (frqPtr (pFault []) (pFault []).frqix) 64 = .ok (vaultEntry 0) (vaultKey 0 0x100) ∧
    bitsN ((wFault (2 ^ 508) []).peek (vaultKey 0 0x100) 64) 511 508 ≠ 0 := by decide +kernel
def copyOf (blk : Nat) : CopyOp :=
  { id := 1, part := 0, launch := 0, gang := some 0, cast := 0, run := 0, vf := 0, proc := 0, level := .user, cluster := 0, issuer := none,
    tokens := [(1, 9)], blk, state := 0, accounted := false, vec := 0, paused := none, retry := none, stopped := false,
    prologue := false, gwct := 0, order := [], pc := 0 }
/-- A copy whose source is the page that is not mapped. -/
def copyFar : CopyOp := copyOf (copyBlock - ptr 2 0x800 + ptr 4 4096)
def wFar (retry : Option Nat) : State := { wFault 0 [] with copies := [{ copyFar with retry }] }
theorem hyp_FaultEntries_engine : (engineFaults (wFar none) 1).map (·.part) = some 0 ∧ storeRetry (wFar (some 0)) 1 = none ∧
    ((engineRetry (wFar (some 0)) 1).bind fun o => o.fault (wFar (some 0))).map (·.part) = some 0 := by decide +kernel
/-- Fault 1 is outstanding, and the copy waits on it. -/
def region0 : Region :=
  { ptr := 0, number := 0, action := 0, prio := 0, poolrec := 0, maxcores := 0, vaultb := 0, energy := 0, assay := 0 }
def wServe : State :=
  { wFault 0 [{ fid := 1, ix := 0 }] with
    copies := [{ copyFar with paused := some 1 }], launches := [{ placeLaunch with chain := [region0] }],
    accs := [aFault (.faulted 1 0)] }
theorem hyp_FaultEntries_serviced : wServe.part? 0 = some (pFault [{ fid := 1, ix := 0 }]) ∧
    (∃ f ∈ (pFault [{ fid := 1, ix := 0 }]).faults, f.fid = 1) ∧ aFault (.faulted 1 0) ∈ wServe.accs ∧
    wServe.copy? 1 = some { copyFar with paused := some 1 } ∧
    (∀ x ∈ gangsOn wServe 0 1, (wServe.launch? 0 x.1).any (fun l => l.chain.head? = some region0) = true) ∧ region0.action = 0 ∧
    gangsOn (wFault 0 [{ fid := 1, ix := 0 }]) 0 1 = [] := by decide +kernel

/-- The vault buffer with its share table at 0x400, and the share of producer 0. -/
def wShare (st share : Nat) (r : List Rec) (b : List BufOp) : State :=
  { placed (cells (vaultKey 0 0x500) 16 share) (staged [(2, vaultEntry st + ptr 2 0x400 * 2 ^ 192)] []) with recs := r, bufOps := b }
def bufS (k : BufOpKind) : BufOp := bufOp0 k .sent
theorem hyp_BufferStates : (wShare 3 0 [] [bufS .take]).part? 0 = some (w0.parts.headD placePart) ∧ memWf (wShare 3 0 [] [bufS .take]).mem = true ∧
    (wShare 3 0 [] [bufS .take]).bufOps.find? (fun x => x.id = (bufS .take).id) = some (bufS .take) ∧
    bufOpReady (wShare 3 0 [] [bufS .take]) (bufS .take) = true ∧ btState (btMem (wShare 3 0 [] [bufS .take]) (w0.parts.headD placePart) 2) = 3 ∧
    btState (btMem (wShare 4 0 [] [bufS .free]) (w0.parts.headD placePart) 2) = 4 := by decide +kernel
theorem hyp_BufferStates_arm : btState (btMem (wShare 1 0 [] []) (w0.parts.headD placePart) 2) = 1 ∧ (∃ x ∈ [16, 0], x ≠ 0) ∧
    (armShares (wShare 1 0 [] []) 0 (btMem (wShare 1 0 [] []) (w0.parts.headD placePart) 2) [16, 0]).isSome = true := by decide +kernel
/-- 32 bytes are expected of producer 0, of which 16 are committed. -/
theorem hyp_BufferStates_account :
    let s := wShare 2 (32 + 16 * 2 ^ 32) [] []
    let e := btMem s (w0.parts.headD placePart) 2
    btState e = 2 ∧ shareGet s 0 e 0 = some (32 + 16 * 2 ^ 32) ∧ shExpect (32 + 16 * 2 ^ 32) ≠ 0 ∧
      shCommit (32 + 16 * 2 ^ 32) + 16 ≤ shExpect (32 + 16 * 2 ^ 32) ∧ shExpect (32 + 16 * 2 ^ 32) < shCommit (32 + 16 * 2 ^ 32) + 17 ∧
      devLocate s 0 .store (sharePtr e 0) 16 = .ok e (vaultKey 0 0x500) := by decide +kernel
theorem hyp_BufferStates_full : NoneGathered (wShare 2 0 [] []) (vaultKey 0 0x500) 16 ∧
    fullDue { wShare 2 (32 + 32 * 2 ^ 32 + 32 * 2 ^ 64) [rec1 2 (2 + 3 * 2 ^ 16)] [] with threads := [{ u0 with loc := .record }] }
      (w0.parts.headD placePart) 2 = true ∧ (rec1 2 (2 + 3 * 2 ^ 16)).fired = none := ⟨none_gathered rfl _ _, by decide +kernel⟩

/-- One word from 0x800 to 0x900, for thread 1. -/
def oneBlock : Nat :=
  ptr 2 0x800 + ptr 2 0x900 * 2 ^ 64 + (1 + (1 + (1 + (1 + 1 * 2 ^ 32) * 2 ^ 32) * 2 ^ 32) * 2 ^ 32) * 2 ^ 128 + 2 * 2 ^ 608 + 1 * 2 ^ 611
def wMove (c : CopyOp) : State :=
  { staged [(2, vaultEntry 0), (5, 6 + 0x77 * 2 ^ 8 + 0x4000 * 2 ^ 48 + 4096 * 2 ^ 64 + 0x10000 * 2 ^ 128)] [] with
    threads := [u0.pend (.v 9)], copies := [c] }
theorem hyp_CopiesAndRunners : memWf (wMove (copyOf oneBlock)).mem = true ∧ (wMove (copyOf oneBlock)).copy? 1 = some (copyOf oneBlock) ∧
    copyReady (copyOf oneBlock) = true ∧ flashNotReady (wMove (copyOf oneBlock)) (copyOf oneBlock) = false ∧ cTotal oneBlock = 1 ∧
    cDecomp oneBlock = false ∧ cTarget oneBlock ≠ 3 ∧ destKind (wMove (copyOf oneBlock)) (copyOf oneBlock) ≠ 7 ∧
    engRead (wMove (copyOf oneBlock)) (copyOf oneBlock).eng 2 (iterOff 0x800 (cCounts oneBlock) (cSstr oneBlock) 0) 4 = some (0, false) ∧
    engLocate (wMove (copyOf oneBlock)) (copyOf oneBlock).eng 2 (destOff (copyOf oneBlock) 0) = some (vaultKey 0 0xA00) ∧
    peerGone (wMove (copyOf oneBlock)) (copyOf oneBlock).eng 2 = false ∧ isFlash (vaultKey 0 0xA00) = false ∧
    copyLost (wMove (copyOf oneBlock)) (copyOf oneBlock) = false ∧ (copyOf oneBlock).issued = true ∧
    (touchSource (wMove (copyOf oneBlock)) (copyOf oneBlock) 0).isSome = true ∧
    ((touchSource (wMove (copyOf oneBlock)) (copyOf oneBlock) 0).all fun s => (rowGo s (vaultKey 0 0xA00)).isSome) = true ∧
    (lineAt (wMove (copyOf oneBlock)) (lineOf (vaultKey 0 0xA00))).lx ≤ 0 ∧ (wMove (copyOf oneBlock)).thread? 1 = some (u0.pend (.v 9)) ∧
    (u0.pend (.v 9)).isPending (.v 9) = true ∧ (u0.pend (.v 9)).twin = 0 := by decide +kernel
/-- The source lies in flash that is not ready. -/
theorem hyp_CopiesAndRunners_flash : flashNotReady (wMove (copyOf (oneBlock + 3 * 2 ^ 48))) (copyOf (oneBlock + 3 * 2 ^ 48)) = true ∧
    cTotal (oneBlock + 3 * 2 ^ 48) ≠ 0 := by decide +kernel
/-- A vault buffer of another partition's cluster: the network drops the requests. -/
theorem hyp_CopiesAndRunners_lost :
    copyLost { wMove (copyOf oneBlock) with mem := table [(2, vaultEntry 0 + 2 * 2 ^ 23 * 2 ^ 128)] } (copyOf oneBlock) = true := by
  decide +kernel
def copyPro (blk : Nat) : CopyOp := { copyOf blk with prologue := true, issued := false, tokens := [], issuer := none }
theorem hyp_CopiesAndRunners_prologue : copyReady (copyPro oneBlock) = true ∧
    copyBad (2 ^ 1000) (copyKind (wMove (copyPro (2 ^ 1000))) (copyPro (2 ^ 1000)).req (2 ^ 1000)) = true ∧
    copyBad oneBlock (copyKind (wMove (copyPro oneBlock)) (copyPro oneBlock).req oneBlock) = false ∧
    (copyHulls (wMove (copyPro oneBlock)) (copyPro oneBlock).req oneBlock).isSome = false ∧
    (copyPro oneBlock).state = 0 ∧
    (wMove (copyPro oneBlock)).copies.countP (fun x => x.cluster = (copyPro oneBlock).cluster && x.issued) < 16 ∧
    canLock (wMove (copyPro oneBlock)) 0 (copyLocks 1 0 0 oneBlock) = true := by decide +kernel
def run0 (vec : Nat) : Runner :=
  { id := 1, part := 0, launch := 0, cast := 0, run := 0, core := 0, issuer := none, tokens := [(1, 9)], blk := runBlock, vec, stream := 0,
    stopReq := false, paused := none, retry := none, stopped := false, sup := false, pc := 0 }
def wRun : State := { wMove (copyOf oneBlock) with copies := [], runners := [run0 0] }
theorem hyp_CopiesAndRunners_runner : wRun.runner? 1 = some (run0 0) ∧ runnerReady (run0 0) = true ∧ nextStream (run0 1) = none ∧
    nextStream (run0 0) = some 0 ∧ entryRefused wRun (run0 0) 0 = false ∧ stagingOn wRun (run0 0) (rQueue (rStream runBlock 0)) = none ∧
    engReach wRun (run0 0).eng (bitsN (rPtr (rStream runBlock 0)) 63 48) (bitsN (rPtr (rStream runBlock 0)) 47 0) = true ∧
    (engTouch (run0 0).eng (bitsN (rPtr (rStream runBlock 0)) 63 48) (rSize (rStream runBlock 0)) (entryOffs (run0 0) 0) wRun).isSome =
      true ∧ placeCast.ended = false ∧ (placeCast.queues.getD 0 []).length < 16 ∧ (advance (run0 0)).vec = 1 ∧
    wRun.cast? 0 0 0 = some placeCast ∧ rQueue (rStream runBlock 0) = 0 ∧
    (readEntry wRun (run0 0) 0).toOption = some (List.replicate 32 (0, false)) := by decide +kernel

/-- A tile operation of thread 1. -/
def tileOp0 (k : TileKind) (handle : Word) (arrived : Bool) : TileOp :=
  { id := 1, part := 0, launch := 0, cast := 0, run := 0, core := 0, handle, kind := k, threads := [(1, 0, 0)], issuer := 1, arrived, ty := 0,
    ncode := 0, wb := 0, bs := 0, mask := 1, rows := [(0, List.replicate 16 (0, false))], queue := none, staged := [], need := 0,
    headers := [], blk := 0, vec := 0, token := none, paused := none, retry := none, stopped := false, pc := 0 }
def withOp (s : State) (o : TileOp) : State := { s with tileOps := [o] }
def opZero : TileOp := { tileOp0 (.zero 9) 0 false with blk := ptr 3 0 }
theorem hyp_TileEvents : (withOp (wT []) opZero).tileOp? opZero.id = some opZero ∧ memWf (withOp (wT []) opZero).mem = true ∧
    tileReady (withOp (wT []) opZero) opZero = true ∧
    engLocate (withOp (wT []) opZero) { part := 0, launch := 0, cast := 0, run := 0, core := 0 } 3 0 = some (vaultKey 0 0x10000) ∧
    freeTile (withOp (wT []) opZero) 0 = some (1, 1) ∧ (∀ x ∈ (withOp (wT []) opZero).tiles, x.dying = false) ∧
    engReach (withOp (wT []) opZero) { part := 0, launch := 0, cast := 0, run := 0, core := 0 } 3 0 = true ∧
    (vaultKey 0 0x10000 - 2 ^ 44) / 2 ^ 23 = 0 := by decide +kernel
/-- The vault has no free tile; the buffer lies in a vault of another partition. -/
theorem hyp_TileEvents_none :
    freeTile { withOp (wT []) opZero with tiles := (List.range 1024).map fun i => { tile0 with idx := i } } 0 = none := by
  simp only [freeTile, Option.map_eq_none_iff, List.find?_eq_none]
  intro i hi
  simpa [tile0] using hi
theorem hyp_TileEvents_foreign :
    engReach { withOp (wT []) opZero with mem := table [(3, 3 + 0x77 * 2 ^ 8 + 0x8000 * 2 ^ 64 + 2 * 2 ^ 23 * 2 ^ 128)] }
      { part := 0, launch := 0, cast := 0, run := 0, core := 0 } 3 0 = false := by decide +kernel
def opLoad : TileOp := tileOp0 (.load 9 [(1, 0)]) 1 false
def opStore : TileOp := tileOp0 (.store [(1, 0, 7)]) 1 false
theorem hyp_TileEvents_access : tileReady (withOp (wT []) opLoad) opLoad = true ∧ (∃ y ∈ opLoad.threads, y.1 = 1) ∧
    tileOf (withOp (wT []) opLoad) 0 0 1 = some tile0 ∧ tile0.dying = false ∧ tileOf (withOp (wT []) opLoad) 0 0 2 = none ∧ poisonedAt (withOp (wT []) opLoad) (elemKey tile0 0 0) 4 = false ∧
    tileReady (withOp (wT []) opStore) opStore = true ∧ tileReady (withOp (wT []) (tileOp0 .release 1 false)) (tileOp0 .release 1 false) = true ∧
    tileReady (withOp (wT []) (tileOp0 .mma 1 false)) (tileOp0 .mma 1 false) = true := by decide +kernel
def opMma : TileOp := { tileOp0 .mma 1 true with headers := [(0, 1 + 3 * 2 ^ 4 + 32 * 2 ^ 8 + 2048 * 2 ^ 24)] }
def wMma (bad : List Nat) : State := { withOp wImage opMma with poisoned := bad }
/-- An upset of multiplier row 16 in the second computation shows in row 0. -/
theorem hyp_TileEvents_upset (img : List (BitVec 8)) :
    upsetBy (some (true, 16, 0, 1)) false (productOf (wMma []) tile0 0 32 0 img (mmaOperand opMma)) ≠
      upsetBy (some (true, 16, 0, 1)) true (productOf (wMma []) tile0 0 32 0 img (mmaOperand opMma)) := by
  obtain ⟨r, rs, hr⟩ : ∃ r rs, mmaOperand opMma = (0, r) :: rs := ⟨_, _, rfl⟩
  obtain ⟨v, l, hp⟩ : ∃ v l, productOf (wMma []) tile0 0 32 0 img (mmaOperand opMma) = (0, 0, v) :: l := by
    rw [hr, productOf, List.range_succ_eq_map]
    exact ⟨_, _, rfl⟩
  rw [hp]
  intro h
  have h := congrArg (fun x => (x.headD (0, 0, 0)).2.2) h
  simp [upsetBy, mulRow] at h
  have h2 := congrArg (fun x => Nat.testBit x 0) h
  simp at h2
  omega
theorem hyp_TileEvents_product : mmaReady (wMma []) opMma = true ∧ opMma.upset = none ∧ tileOf (wMma []) 0 0 1 = some tile0 ∧
    ((imgLoose (wMma []) 0 opMma.headers).2 || (mmaRows opMma).any fun r => r.2.any (·.2)) = false ∧
    nOf opMma.ncode ≤ tileCols tile0.ncode ∧ ((mmaOperand opMma).map (·.1)).Nodup ∧
    (imgLoose (wMma [weightKey 0 0 0]) 0 opMma.headers).2 = true ∧
    ((wMma []).launch? 0 0).isSome = true := by decide +kernel
def opLoop (blk vec : Nat) : TileOp := { tileOp0 .mmal 1 true with blk, vec, token := some 9 }
/-- Whether a step of a loop goes through; or ends in a trap. -/
def stepOk (s : State) (o : TileOp) (t : Tile) : Option TrapCode :=
  match loopStep s o t with
  | .ok _ => none
  | .trap c => some c
  | .fault _ _ => some 0
  | .held => some 0
theorem hyp_TileEvents_loop : loopReady (opLoop loopBlock 0) = true ∧ tileOf (withOp wImage (opLoop loopBlock 0)) 0 0 1 = some tile0 ∧
    iterTotal (mCounts loopBlock) = 1 ∧ stepLost (withOp wImage (opLoop loopBlock 0)) (opLoop loopBlock 0) = false ∧
    stepLost { withOp wImage (opLoop loopBlock 0) with mem := table [(2, vaultEntry 0 + 2 * 2 ^ 23 * 2 ^ 128)] } (opLoop loopBlock 0) = true ∧ stepOk (withOp wImage (opLoop loopBlock 0)) (opLoop loopBlock 0) tile0 = none ∧
    stepOk (withOp (wT []) (opLoop loopBlock 0)) (opLoop loopBlock 0) tile0 = some Trap.bufstate := by decide +kernel
/-- Two iterations. -/
def loopTwice : Nat := loopBlock + 1 * 2 ^ 192
theorem hyp_TileEvents_loop_goes_on : iterTotal (mCounts loopTwice) = 2 ∧
    stepOk (withOp wImage (opLoop loopTwice 0)) (opLoop loopTwice 0) tile0 = none := by decide +kernel

def flask0 : Flask :=
  { part := 0, home := 0, idx := 0, gen := 5, live := true, name := 77, members := [], phase := 0, isOpen := false, expect := 0, op := 0,
    arrived := [], held := [], mix := false, faultMark := false, dropMark := false }
def withFlask (f : Flask) (k : SgKind) (st : SgStage) : State :=
  { wFlask [sg0 k st] with flasks := [f], nextId := 2 }
def other : Who := { uFlask.who with tic := 9 }
def member (w : Who) : Member := { who := w, fromPhase := 0 }
theorem hyp_FlaskEvents : (withFlask flask0 (.new 77 2 1) .sent).sg? 1 = some (sg0 (.new 77 2 1) .sent) ∧
    homeReady (withFlask flask0 (.new 77 2 1) .sent) (sg0 (.new 77 2 1) .sent) = true ∧
    ((withFlask flask0 (.new 77 2 1) .sent).thread? 1).isSome = true ∧
    flaskNamed (withFlask flask0 (.new 77 2 1) .sent) 0 77 = some flask0 ∧ flask0.dropMark = false ∧ flask0.hasMember uFlask.who = false ∧
    flaskNamed (withFlask flask0 (.join 78 2 1) .sent) 0 78 = none ∧
    (makeFlask { withFlask flask0 (.new 78 2 1) .sent with parts := [{ w0.parts.headD placePart with sglim := 256 }] }
      { w0.parts.headD placePart with sglim := 256 } 78).isSome = true ∧
    homeReady (withFlask flask0 (.join 77 2 1) .sent) (sg0 (.join 77 2 1) .sent) = true ∧
    homeReady (withFlask flask0 (.joinH 5 2 1) .sent) (sg0 (.joinH 5 2 1) .sent) = true ∧
    flaskOf (withFlask flask0 (.joinH 5 2 1) .sent) 0 5 = some flask0 ∧ flaskOf (withFlask flask0 (.joinH 5 2 1) .sent) 0 6 = none := by
  decide +kernel
def flask2 : Flask := { flask0 with members := [member uFlask.who, member other] }
theorem hyp_FlaskEvents_members : homeReady (withFlask flask2 (.leave 5 2) .sent) (sg0 (.leave 5 2) .sent) = true ∧ flask2.isOpen = false ∧
    flask2.held = [] ∧ flask2.hasMember uFlask.who = true ∧ (∃ m ∈ flask2.members, m.who ≠ uFlask.who) ∧
    homeReady (withFlask flask2 (.stat 5 0 9) .sent) (sg0 (.stat 5 0 9) .sent) = true ∧
    homeReady (withFlask flask2 (.gone 6 false) .sent) (sg0 (.gone 6 false) .sent) = true ∧
    flaskOf (withFlask flask2 (.gone 6 false) .sent) 0 6 = none := by decide +kernel
/-- A phase in progress that expects two members, or one. -/
def flaskOpen (expect : Nat) : Flask := { flask2 with isOpen := true, expect, op := 3 }
theorem hyp_FlaskEvents_arrivals :
    homeReady (withFlask (flaskOpen 2) (.arrive 5 3 0 9) (.departed 0)) (sg0 (.arrive 5 3 0 9) (.departed 0)) = true ∧
    flaskOf (withFlask (flaskOpen 2) (.arrive 5 3 0 9) (.departed 0)) 0 5 = some (flaskOpen 2) ∧
    (flaskOpen 2).hasMember uFlask.who = true ∧ 0 ≤ (flaskOpen 2).phase ∧ (flaskOpen 2).phase < 1 ∧
    (flaskOpen 2).arrived.length + 1 ≠ (flaskOpen 2).expect ∧ (flaskOpen 1).arrived.length + 1 = (flaskOpen 1).expect ∧
    flaskOf (withFlask (flaskOpen 2) (.arrive 6 3 0 9) (.departed 0)) 0 6 = none := by decide +kernel
theorem hyp_FlaskEvents_replies : replyWrites (sg0 (.new 77 2 1) (.reply 5 true)) = some [(.h 2, 5), (.p 1, 1)] ∧
    (withFlask flask2 (.new 77 2 1) (.reply 5 true)).rec? 1 = none ∧ (withFlask flask2 (.new 77 2 1) (.reply 5 true)).thread? 1 = some uFlask ∧
    uFlask.twin = 0 ∧ validateReady (sg0 (.arrive 5 3 0 9) .sent) = true ∧
    departPhase (withFlask flask2 (.arrive 5 3 0 9) (.validated 4)) (sg0 (.arrive 5 3 0 9) (.validated 4)) = some 4 ∧
    resultOf (sg0 (.arrive 5 3 0 9) (.result 7 0 4)) = some (9, 7, 0) := by decide +kernel

/-! Records made and moved. -/

def part0 : Part := w0.parts.headD placePart
/-- A stall of the entry whose window has ended; before or after it asked for a record. -/
def stall0 (pool : Option Nat) : Stall := { start := 0, tried := 256, wtype := 0, key := 0, keys := [], pool, expired := pool.isNone }
def wStall (p : Pour) (r : Nat) : State :=
  { w0 with time := 300, pours := [p], launches := [{ placeLaunch with chain := [{ region0 with poolrec := r }] }] }
def pWith (e : Entry) : Pour := { p0 with entries := [e] }
def eStall (pool : Option Nat) : Entry := { e0 with stall := some (stall0 pool) }
/-- No thread of the pour is a record. -/
def noRecs (s : State) (p : Pour) : Prop := ∀ e ∈ p.entries, ∀ x ∈ s.lanesIn p.core p.slot e.mask, s.rec? x.2 = none
theorem hyp_RecordsMade_residents :
    noRecs (wStall (pWith (eStall none)) 4) (pWith (eStall none)) ∧ noRecs (wStall (pWith (eStall none)) 0) (pWith (eStall none)) ∧
    noRecs (wStall (pWith (eStall (some 0))) 4) (pWith (eStall (some 0))) ∧
    noRecs (wStall (pWith { e0 with split := some 0 }) 4) (pWith { e0 with split := some 0 }) ∧
    (let e := { e0 with stall := some { stall0 (some 0) with await := true } }
     noRecs (wStall (pWith e) 4) (pWith e) ∧ noRecs (wStall (pWith e) 0) (pWith e)) ∧
    noRecs { wStall p0 4 with parts := [{ part0 with preempting := some (0, 1) }] } p0 := by
  unfold noRecs; decide +kernel
theorem hyp_RecordsMade : (wStall (pWith (eStall none)) 4).pour? 0 0 = some (pWith (eStall none)) ∧
    stallExpired (wStall (pWith (eStall none)) 4) (pWith (eStall none)) (eStall none) = true ∧
    (takeRoom (wStall (pWith (eStall none)) 4) 0 0 1).isSome = true ∧ (takeRoom (wStall (pWith (eStall none)) 0) 0 0 1).isSome = false := by
  decide +kernel
theorem hyp_RecordsMade_later :
    (let p := pWith (eStall (some 0))
     (nextToConvert (wStall p 4) (stalledForRoom (wStall p 4) 0) []).map (fun x => (x.1.ent, x.2)) = some (some 0, p) ∧
       (nextAsk (wStall p 4) 0).isNone = true) ∧
    (let p := pWith { e0 with split := some 0 }
     (nextToConvert (wStall p 4) (stalledForRoom (wStall p 4) 0) []).map (fun x => (x.1.ent, x.2)) = some (some 0, p)) ∧
    (let p := { p0 with poolStalled := some 0 }
     (nextToConvert (wStall p 4) (stalledForRoom (wStall p 4) 0) []).map (fun x => (x.1.ent, x.2)) = some (none, p)) := by decide +kernel
/-- The entry waited for its flask homes, which have answered. -/
theorem hyp_RecordsMade_ask :
    let e := { e0 with stall := some { stall0 (some 0) with await := true } }
    (nextAsk (wStall (pWith e) 4) 0).map (fun x => (x.core, x.slot, x.ent)) = some (0, 0, some 0) ∧ e.split = none ∧
    (takeRoom (wStall (pWith e) 4) 0 0 1).isSome = true ∧ (takeRoom (wStall (pWith e) 0) 0 0 1).isSome = false := by decide +kernel
theorem hyp_RecordsMade_preempt :
    (let s := { wStall p0 4 with parts := [{ part0 with preempting := some (0, 1) }] }
     preemptWanted s p0 = true ∧ pourWhole s p0 = true ∧ (takeRoom s 0 0 2).isSome = true) ∧
    (let s := { wStall p0 0 with parts := [{ part0 with preempting := some (0, 1) }] }
     preemptWanted s p0 = true ∧ (takeRoom s 0 0 2).isSome = false ∧ p0.entries.any (entryAwaits s p0) = false) ∧
    (let s := { wStall p0 4 with parts := [{ part0 with preempting := some (0, 1) }], sgs := [sg0 (.new 7 2 1) .sent] }
     preemptWanted s p0 = true ∧ p0.entries.any (entryAwaits s p0) = true) ∧
    promoteDue { wStall p0 0 with time := 5000 } { p0 with readySince := some 0 } = true ∧
    (let s := { wStall { p0 with poolStalled := some 0 } 0 with time := 10000000 }
     poolTimeout s 0 0 = true ∧ (s.launch? 0 0).isSome = true ∧ region0.action = 0) := by decide +kernel

def ladle0 : Ladle :=
  { id := 7, part := 0, cluster := 0, launch := 0, resume := 0x40, annex := 0, buf := 1, pin := none, members := [(1, 0)],
    eligibleSince := none, aged := false }
def woken : Rec := { rec1 1 1 with fired := some 0 }
def wLadle (l : Ladle) : State := { wRec woken with time := 5000, ladles := [l] }
theorem hyp_RecordsMoved : (wLadle ladle0).ladle? 7 = some ladle0 ∧ windowOver (wLadle ladle0) ladle0 = true ∧
    nextDrain (wLadle { ladle0 with aged := true }) 0 = some ({ ladle0 with aged := true }, 0) ∧
    (wLadle ladle0).launch? 0 0 = some placeLaunch ∧ ladle0.annex = 0 ∧ ((ladle0.members.take 32).map (·.1)).Nodup ∧ (wLadle ladle0).rec? 1 = some woken ∧
    ((wLadle ladle0).thread? 1).isSome = true ∧ u0.twin = 0 ∧ mayForward (wLadle ladle0) woken 1 = true := by decide +kernel
theorem hyp_RecordsMoved_held : (wRec { woken with transit := some 1 }).rec? 1 = some { woken with transit := some 1 } ∧
    holdStatus (wRec woken) 0 0 = 1 ∧ holdStatus (wRec woken) 0 1 = 0 ∧ recsOfRef (wRec woken) 0 1 = [woken] ∧ woken.transit = none ∧
    recsOfRef (wRec { woken with held := true }) 0 1 = [{ woken with held := true }] ∧
    woken.part = 0 ∧ woken.annex = 0 ∧ ((wRec { woken with held := true }).thread? 1).isSome = true ∧ (wRec woken).tileOps = [] ∧
    (wRec woken).part? 0 = some part0 := by decide +kernel

/-! Posts and replies: the call ring and the queue's ring lie in the vault buffer 2; offset 0x100 of vault 0. -/

def post0 (bundle : Option (Nat × Nat)) : PostReq :=
  { id := 4, tid := 1, part := 0, bundle, dst := 9, code := 3, pc := 0x10, args := 5, seq := 1 }
def wPost (q : Queue) (bundle : Option (Nat × Nat)) (ring : Nat) : State :=
  { placed (cells (vaultKey 0 0x100) 64 ring) (staged [(2, vaultEntry 0)] []) with
    threads := [u0.pend (.v 9)], posts := [post0 bundle], parts := [{ part0 with sysring := 0x2000000000000, queues := [(0, q)] }] }
def ring0 : Queue := { Queue.fresh with en := true, dev := true, qbase := 0x2000000000000 }
theorem hyp_PostsAndReplies : memWf (wPost ring0 none 0).mem = true ∧ syscallOf (wPost ring0 none 0) 1 = some (post0 none) ∧
    syscallPlace (wPost ring0 none 0) (post0 none) = some (vaultKey 0 0x100) ∧ ((wPost ring0 none 0).launch? 0 0).isSome = true ∧
    (wPost ring0 none 0).rec? 1 = none := by decide +kernel
def placeOf (r : PortRes) : Option Nat :=
  match r with
  | .ok _ k => some k
  | .trap _ => none
def calling : State :=
  { wPost ring0 none (2 * 2 ^ 28) with recs := [rec1 6 0], threads := [{ u0 with loc := .record }] }
theorem hyp_PostsAndReplies_reply : memWf calling.mem = true ∧ 0 < sysSize { part0 with sysring := 0x2000000000000 } ∧
    (sysEntry calling (calling.parts.headD part0) 0).map sysState = some 2 ∧
    calling.recs.find? (fun r => r.part = 0 && r.wtype = 6 && r.key = 0 && r.fired.isNone) = some (rec1 6 0) := by decide +kernel
theorem hyp_PostsAndReplies_launch : enqueueReady (wPost ring0 (some (77, 0)) 0) 4 = some (post0 (some (77, 0)), 77, 0) ∧
    (u0.pend (.v 9)).isPending (.v 9) = true ∧ ring0.fill < ring0.slots ∧ Queue.fresh.en = false ∧
    { ring0 with tail := 1000 }.slots ≤ { ring0 with tail := 1000 }.fill ∧ part0.intakeOff = false ∧ (0 - ring0.head).toNat ≤ ring0.slots ∧
    ∀ i ∈ List.range 8, placeOf (devLocate (wPost ring0 (some (77, 0)) 0) 0 .store (ptrAdd (ringPtr ring0 0) (16 * i)) 16) =
      some (vaultKey 0 (0x100 + 16 * i)) := by decide +kernel
/-- The slots are written; the store to the last is acknowledged at 7. -/
theorem hyp_PostsAndReplies_placed :
    enqueueReady { wPost ring0 none 0 with posts := [{ post0 (some (77, 0)) with placed := some 0 }] } 4 =
      some ({ post0 (some (77, 0)) with placed := some 0 }, 77, 0) ∧ (post0 (some (77, 0))).placed = none ∧ part0.first = 0 ∧
    (wPost ring0 (some (77, 0)) 0).ucopies = [] ∧
    (placeBundle (wPost ring0 (some (77, 0)) 0) { part0 with sysring := 0x2000000000000, queues := [(0, ring0)] } 0 77).2 ≤ 0 := by decide +kernel
theorem hyp_PostsAndReplies_watchdog :
    handlerLate { w0 with time := 300, threads := [{ u0 with trapClass := true }], parts := [{ part0 with traplim := 5 }] } 1 = true ∧
    u0.shadow = false := by decide +kernel

/-! Pre-emption: queue 0 has work of virtual function 1. -/

def busy1 (n : Nat) : Part := { part0 with queues := [(0, { ring0 with tail := BitVec.ofNat 32 n, vf := 1 })] }
def wBusy (n : Nat) : State := { w0 with time := 3000000, parts := [busy1 n], pours := [] }
def hosted (s : State) : State := { s with dev := { s.dev with cown := some .host, mown := some .sideBand } }
theorem hyp_Preemption : (wBusy 1).part? 0 = some (busy1 1) ∧ memWf (wBusy 1).mem = true ∧ sliceOver (busy1 1) 3000000 = true ∧
    nextVf (busy1 1) = some 1 ∧ sliceOver (busy1 0) 3000000 = true ∧ nextVf (busy1 0) = none ∧
    preemptDone (wBusy 1) { busy1 1 with preempting := some (0, 1) } = true ∧ preqWaits (busy1 1) = none ∧
    holds (hosted (wBusy 1)) false .host = true ∧ (0xC000000000000001#64).getLsbD 63 = true ∧ (busy1 1).preq.getLsbD 63 = false ∧
    moveOk (busy1 1) 0xC000000000000001#64 = true ∧ moveOk (busy1 1) 0xC000000000000101#64 = false ∧
    preqWaits { busy1 1 with preempting := some (0, 1), preqRun := 0x8000000000000000#64 } = some 0 ∧
    (busy1 1).pctx.getLsbD 63 = false ∧ pctxDone (wBusy 1) { busy1 1 with pctxRun := 0x8000000000000000#64 } = true ∧
    (wBusy 1).dev.images = [] := by decide +kernel
/-- The whole of cast 0 holds vault bytes and waits on a page; buffer 2 is the backing of the pool. -/
def castHeld : Cast := { placeCast with alloc := some (0x100, 32), need := 32 }
def wSpill (c : Cast) (r : Rec) : State :=
  { staged [(2, 1 + 2 ^ 7 + 0x77 * 2 ^ 8 + 0x4000 * 2 ^ 48 + 4096 * 2 ^ 64 + 0x10000 * 2 ^ 128)] [] with
    threads := [{ u0 with loc := .record }], pours := [], recs := [r], casts := [c],
    parts := [{ part0 with poolbk := 0x2000000000000, fspill := 50 }] }
theorem hyp_Preemption_spill : (wSpill castHeld { rec1 5 1 with kind := 2 }).cast? 0 0 0 = some castHeld ∧
    spillDue (wSpill castHeld { rec1 5 1 with kind := 2 }) { part0 with poolbk := 0x2000000000000, fspill := 50 } castHeld = true ∧
    spillPlace (wSpill castHeld { rec1 5 1 with kind := 2 }) { part0 with poolbk := 0x2000000000000, fspill := 50 } 32 = some 3456 ∧
    backKey (wSpill castHeld { rec1 5 1 with kind := 2 }) 0 3456 = some (2 ^ 34 + 3456) := by decide +kernel
/-- The allocation is in the backing, and a ladle with the cast's thread would drain. -/
def castOut : Cast := { castHeld with alloc := none, spilled := some 0x100, spillAt := 3456, orig := some (0, 0x100) }
def wOut : State := { wSpill castOut woken with time := 5000, ladles := [{ ladle0 with aged := true }] }
theorem hyp_Preemption_restore : restoreDue wOut { part0 with poolbk := 0x2000000000000, fspill := 50 } castOut = true ∧
    castOut.spillBufs = [] ∧ freeVault wOut 0 32 = some 0 ∧ backKey wOut 0 3456 = some (2 ^ 34 + 3456) ∧
    castOut.orig = some (castOut.cluster, 0x100) := by decide +kernel

/-! The front end. Buffer 2: the ring of queue 0, at 0x80 a kernel of one thread, at 0x100 a region, at 0x200 a fence. -/

def bundle0 (rcb : Nat) : Nat :=
  ptr 2 0x80 + rcb * 2 ^ 128 + ptr 2 0x200 * 2 ^ 192 + 9 * 2 ^ 256 + 1 * 2 ^ 640 + 1 * 2 ^ 672 + 1 * 2 ^ 768
def wFront (p : Part) : State :=
  { placed (cells (vaultKey 0 0x100) 128 (bundle0 (ptr 2 0x100)) ++ cells (vaultKey 0 0x180) 64 (1 * 2 ^ 96) ++
      cells (vaultKey 0 0x200) 128 (0x1FF * 2 ^ 112))
      (staged [(2, vaultEntry 0)] []) with
    time := 20000, threads := [], pours := [], casts := [], launches := [], parts := [p] }
def partQ (q : Queue) : Part := { part0 with queues := [(0, q)] }
def headed (b : Nat) : Queue := { ring0 with head := 1, tail := 1, headBundle := some b, depRead := some 0, depOk := true, unretired := 1 }
def refuse (b : Nat) : Queue := { headed b with refused := some 0 }
theorem hyp_FrontEnd_read : (wFront (partQ { ring0 with tail := 1 })).part? 0 = some (partQ { ring0 with tail := 1 }) ∧
    memWf (wFront part0).mem = true ∧ readDue (wFront part0) (partQ { ring0 with tail := 1 }) 0 = true ∧
    blockPoisoned (devTouchBlock (wFront part0) 0 .load (ringPtr ring0 0) 16 8) 0 (ringPtr ring0 0) 8 = false ∧
    devReadBlock (devTouchBlock (wFront part0) 0 .load (ringPtr ring0 0) 16 8) 0 (ringPtr ring0 0) 8 = some (bundle0 (ptr 2 0x100)) ∧
    devReadBlock (devTouchBlock (wFront part0) 0 .load (ptr 9 0) 16 8) 0 (ptr 9 0) 8 = none ∧ rereadDue (wFront part0) (partQ (headed 0)) 0 = true := by decide +kernel
theorem hyp_FrontEnd_refused :
    (refusals (wFront (partQ (headed 0))) (partQ (headed 0))).head? = some (0, 0, some 1) ∧
    (refusals (wFront part0) (partQ (headed (bundle0 0)))).head?.map (fun x => x.2.2.isSome) = some true ∧
    fencePlaces (wFront part0) 0 (bFencePtr (bundle0 0)) = some (vaultKey 0 0x308, vaultKey 0 0x30C, vaultKey 0 0x300) ∧
    (refusals (wFront part0) (partQ (refuse (bundle0 0)))).head? = some (0, bundle0 0, none) := by decide +kernel
def admits : Part := partQ (headed (bundle0 (ptr 2 0x100)))
theorem hyp_FrontEnd_admit : refusals (wFront admits) admits = [] ∧ abandoned (wFront admits) admits = none ∧
    (chooseAdm (wFront admits) admits).map (fun x => (x.2.2.launch, x.2.2.casts)) = some (none, [0]) := by decide +kernel
/-- The launch that queue 0 admitted: one cast that has not started, or that has ended. -/
def launchQ (b : Nat) : Launch := { placeLaunch with bundle := b, kinfo := 1 * 2 ^ 96 }
def castQ : Cast := { placeCast with started := false, pours := [0], stealable := true }
def wLaunch (l : Launch) (c : List Cast) : State := { wFront (partQ { headed l.bundle with headBundle := none }) with launches := [l], casts := c }
theorem hyp_FrontEnd_start : startPlan (wLaunch (launchQ 0) [castQ]) 0 = some (castQ, launchQ 0, 0, 0) ∧
    (wLaunch (launchQ 0) [castQ]).cast? 0 0 0 = some castQ ∧
    pourPlan (wLaunch (launchQ 0) [{ castQ with started := true }]) 0 = some ({ castQ with started := true }, launchQ 0, 0) := by
  decide +kernel
def castEnd : Cast := { castQ with started := true, ended := true, pours := [] }
theorem hyp_FrontEnd_over : (wLaunch (launchQ (1 * 2 ^ 512)) [castEnd]).launch? 0 0 = some (launchQ (1 * 2 ^ 512)) ∧
    epilogueDue (wLaunch (launchQ (1 * 2 ^ 512)) [castEnd]) (launchQ (1 * 2 ^ 512)) = true ∧
    retireDue (wLaunch { launchQ (bundle0 0) with fenced := some 0 } [castEnd]) { launchQ (bundle0 0) with fenced := some 0 } = true ∧
    retireDue (wLaunch (launchQ 0) [castEnd]) (launchQ 0) = true ∧ fencePlaces (wLaunch (launchQ 0) [castEnd]) 0 (bFencePtr 0) = none := by
  decide +kernel
/-- A fence in the global page of buffer 3, whose line a lease covers. -/
def fenceG : Nat := ptr 3 0x10 * 2 ^ 192
def wLeased : State :=
  { wLaunch (launchQ fenceG) [castEnd] with
    mem := (staged [(2, vaultEntry 0), (3, 1 + 0x77 * 2 ^ 8 + 0x4000 * 2 ^ 48 + 4096 * 2 ^ 64 + 0x10000 * 2 ^ 128)] []).mem }
def leased (k : Nat) : State := { wLeased with lines := [{ (lineAt wLeased (lineOf k)) with lx := 30000 }] }
theorem hyp_FrontEnd_leased : ∃ k1 k2 k3, fencePlaces (leased (2 ^ 34 + 0x18)) 0 (bFencePtr fenceG) = some (k1, k2, k3) ∧ k1 + 4 ≤ k2 ∧
    keyChan k1 ≠ none ∧ (leased (2 ^ 34 + 0x18)).time < (lineAt (leased (2 ^ 34 + 0x18)) (lineOf k1)).lx ∧
    retireDue (leased (2 ^ 34 + 0x18)) (launchQ fenceG) = true := ⟨2 ^ 34 + 0x18, 2 ^ 34 + 0x1C, 2 ^ 34 + 0x10, by decide +kernel⟩
def wSteal (l : List (Nat × Nat × Option (List (Nat × Nat)))) : State := { wLaunch (launchQ 0) [castQ] with steals := l }
theorem hyp_FrontEnd_steal : stealDue (wSteal []) 1 = some 0 ∧
    ((wSteal [(1, 0, none)]).steals.find? (fun x => x.1 = 1 && x.2.2.isNone)).map (·.2.1) = some 0 ∧
    ((stealableCasts (wSteal [(1, 0, none)]) 0).take 4).contains castQ = true ∧ (wSteal [(1, 0, none)]).cast? 0 0 0 = some castQ ∧
    ((wSteal [(1, 0, some [(0, 0)])]).steals.find? (fun x => x.1 = 1 && x.2.2.isSome)).map (·.2.2) = some (some [(0, 0)]) ∧
    ((wSteal []).partOfSlot (slotOfCluster 1)).map (·.first) = some 0 ∧ (partQ (headed 0)).sampled < 20000 / 10000 := by decide +kernel
def row0 (last : Nat) : RowCount := { chan := 2, row := 0, count := 3, last }
theorem hyp_FrontEnd_rows :
    rowsOld { w0 with time := 64000000, dev := { w0.dev with rows := [row0 0] } } 2 = true := by decide +kernel

/-! Care and control. -/

/-- The cast has ended its first run on core 0, with a digest; its second run is due on a core of another cluster. -/
def castAssay (deadline : Option Nat) : Cast :=
  { castEnd with orig := some (0, 0), assay := some { assay0 with digests := [(0, 5)], deadline } }
theorem hyp_CareEvents_assay : (setupPlan (wLaunch (launchQ 0) [castAssay none]) 0 0 0).map (fun x => x.2.2.1) = some 1 ∧
    (wLaunch (launchQ 0) [castAssay none]).cast? 0 0 0 = some (castAssay none) ∧
    deadlineOver (wLaunch (launchQ 0) [castAssay (some 20000)]) (castAssay (some 20000)) = true := by decide +kernel
def eyeAsked : EyeGroup := { EyeGroup.fresh 0x100000 with go := true, map0 := 0xFF, sp0 := 0xFF, map1 := 0xFF, sp1 := 0xFF }
theorem hyp_CareEvents : decayDue { w0 with time := 2000000000 } = true ∧ w0.part? 0 = some part0 ∧
    (0x40000000#32).toNat / 2 ^ 30 % 4 = 1 ∧ (0x80000005#32).toNat / 2 ^ 30 % 4 = 2 ∧ isEyemon 0x100000 = true ∧
    isEyeGroup 0x100050 = true ∧
    (eyeGroup { w0 with dev := { w0.dev with eyeGroups := [eyeAsked] } } 0x100000).go = true ∧ eyeAsked.map0 = 0xFF ∧ eyeAsked.map1 = 0xFF ∧ btinvDue wInv 0 2 = true := by decide +kernel
def ctlAsked : Ctl := { ctl0 with pending := [4] }
def wAsked : State := { wCtl .user with ctls := [ctlAsked] }
theorem hyp_CareEvents_interrupt : wAsked.ctl? 0 = some ctlAsked ∧
    wAsked.thread? ctlAsked.tid = some (uCtl .user) ∧ wAsked.pour? (1024 + 0) 0 = some pCtl ∧
    pCtl.entries.head? = some e0 ∧ interruptReady wAsked 0 4 = true := by decide +kernel
def quiet1 : Part := { part0 with sz := 1, quiescing := some 0 }
def wQuiet : State := { w0 with parts := [quiet1] }
theorem hyp_CareEvents_quiesce : wQuiet.partOfSlot 1 = some quiet1 ∧ wQuiet.part? quiet1.first = some quiet1 ∧ (0 ∈ quiet1.slots ∧ 0 ≠ 1 ∧ 0 ∉ quiet1.qack) ∧
    ∀ x ∈ quiet1.slots, x = 1 ∨ x ∈ [0] := by decide +kernel

/-! Commands: the words of the commands for slot 0. -/

def cmd (op tenant nvf : Nat) : BitVec 64 := BitVec.ofNat 64 (op * 2 ^ 60 + nvf * 2 ^ 32 + tenant)
def ready0 (s : State) : State :=
  { hosted s with dev := { (hosted s).dev with readyDie := 1, readyStack := 1, cc := 1, fwm := 1, fws := 1, fwu := 1 } }
theorem hyp_Commands : memWf (hosted w0).mem = true ∧ holds (hosted w0) false .host = true ∧ holds (hosted w0) false .sideBand = false ∧
    holds (hosted w0) true .sideBand = true ∧ holds (hosted w0) true .host = false ∧ cmdOp (cmd 1 7 1) = 1 ∧
    cmdForm true 4 (cmd 1 7 1) = true ∧ cmdForm true 4 (cmd 1 0 1) = false ∧ cmdForm false 3 (cmd 1 0 0) = true ∧
    cmdForm false 3 (cmd 1 0 1) = false ∧ cmdOverlaps (hosted w0) (cmd 1 7 1) = false ∧
    cmdOverlaps { w0 with dev := { w0.dev with commands := [{ classM := true, op := 2, first := 0, slots := 1 }] } } (cmd 1 7 1) = true ∧
    (hosted w0).dev.owner false = some .host ∧ w0.dev.owner false = none := by decide +kernel
theorem hyp_Commands_create : assigned { w0 with parts := [] } 0 = false ∧ slotReady (ready0 w0).dev 0 = true ∧ slotReady w0.dev 0 = false ∧
    cmdPart w0 (cmd 2 0 0) = some part0 ∧ cmdPart { w0 with parts := [{ part0 with state := 2 }] } (cmd 2 0 0) = some { part0 with state := 2 } ∧
    part0.state ≠ 2 ∧ cmdOp (cmd 2 0 0) = 2 ∧ cmdOp (cmd 3 0 0) = 3 ∧ cmdOp (cmd 4 0 0) = 4 ∧
    (∃ q ∈ (busy1 1).queues, q.2.idle = false) ∧ (∀ q ∈ part0.queues, q.2.idle = true) ∧ assigned w0 0 = true ∧
    w0.partOfSlot 0 = some part0 ∧ w0.part? part0.first = some part0 := by decide +kernel
theorem hyp_Commands_over :
    quiesceOver { w0 with time := 20000000, parts := [{ part0 with quiescing := some 0 }] } 0 = true ∧
    0 ∈ { w0.dev with scrubbing := [0] }.scrubbing ∧
    shakeoutOver { w0 with dev := { w0.dev with commands := [{ classM := true, op := 3, first := 0, slots := 1 }] } } 0 = true := by
  decide +kernel

/-! Links and the side band. -/

def grouped (n : Nat) : BitVec 64 := BitVec.ofNat 64 (2 ^ 63 + n * 2 ^ 32 + 7)
def wGroup : State := { w0 with dev := { w0.dev with grpcfg := grouped 1 } }
theorem hyp_LinksAndSideBand : memWf w0.mem = true ∧ maySet w0.dev 0 = true ∧ readyIs w0.dev 0 = false ∧ readyIs (ready0 w0).dev 0 = true ∧
    wGroup.dev.grpcfg.getLsbD 63 = true ∧ (grouped 2).getLsbD 63 = true ∧ wGroup.dev.grpcfg.toNat % 2 ^ 16 = (grouped 2).toNat % 2 ^ 16 ∧
    (grouped 2).toNat / 2 ^ 32 % 2 ^ 5 ≠ wGroup.dev.grpcfg.toNat / 2 ^ 32 % 2 ^ 5 ∧ wGroup.dev.clash = none ∧
    (0#64).getLsbD 63 ≠ true := by decide +kernel
/-- Buffer 2 is remote, through peer 0. -/
def wPeer (l : List Acc) : State :=
  { staged [(2, 8 + 0x77 * 2 ^ 8 + 0x8000 * 2 ^ 64 + 2 ^ 59)] [] with
    parts := [{ part0 with peers := [{ idx := 0, en := true, up := true, dev := 1, slot := 0 }] }], accs := l }
def aPeer (k : AccKind) : Acc := { accOf 1 k (2 ^ 60) 7 .sent with bkind := 8, buf := 2 }
theorem hyp_LinksAndSideBand_peer : throughPeer (wPeer [aPeer .load]) ((wPeer []).parts.headD part0) 0 (aPeer .load) = true ∧
    throughPeer (wPeer [aPeer .store]) ((wPeer []).parts.headD part0) 0 (aPeer .store) = true ∧
    (((wPeer []).parts.headD part0).peer 0).up = true ∧ (aPeer .load).reads = true := by decide +kernel
def moved : Nat := 2 ^ 255 + 2 * 2 ^ 192 + 100 * 2 ^ 144
theorem hyp_LinksAndSideBand_moved :
    [(0, moved)].find? (fun x => migMatches x.2 2 16 4) = some (0, moved) ∧
    (part0.migfwd.find? fun x => migMatches x.2 2 16 4) = none ∧ remotePlace (wBuf 0 8 []) 0 2 16 = some (vaultKey 0 0x110) ∧
    sizeOk 3 8 = false ∧ sizeOk 0 8 = true ∧ holds (hosted w0) true .sideBand = true := by decide +kernel
theorem hyp_LinksAndSideBand_spdm : w0.dev.fwm.getLsbD 0 = false ∧ (ready0 w0).dev.fwm.getLsbD 0 = true ∧
    (spdmOf w0 0).algs ≠ some true ∧
    (let x : Spdm := { slot := 0, version := true, caps := true, algs := some true, log := some 5 }
     spdmOf { w0 with dev := { w0.dev with spdm := [x] } } 0 = x) := by decide +kernel

/-! Encodings, steps and memory. -/

theorem hyp_EncodingAgrees : encode (.nop h0) = some 0 ∧ decode 0 = .ok (.nop h0) := by decide
theorem hyp_MemoryStaysCanonical : Memory.wf State.reset.mem = true ∧ nextOf (step State.reset) = some (tick State.reset) := by decide +kernel
/-- Right after a `NOP` has been placed; with an event, or a write, that has arrived; and with an access whose store is acknowledged. -/
def sNop : State := State.reset.withFetchWord 32 0
def cNop : Cand := { core := 0, slot := 0, ent := 0 }
theorem hyp_StepRunsDecoded : (∀ x ∈ sNop.agenda.head?, sNop.time < x.1) ∧ ((dueList sNop).find? (acts sNop)).isNone = true ∧
    chooseIssue sNop = some cNop ∧ sNop.pour? 0 0 = some p0 ∧ p0.entries[0]? = some e0 ∧ entryLanes sNop 0 0 e0 = [(0, u0)] ∧
    (hdrOf 0).c = 0 ∧ decode 0 = .ok (.nop h0) ∧ poisonedAt sNop (2 ^ 34) 4 = false ∧ beginsGroup sNop 0 0 e0 e0.pc = true ∧
    groupOk e0.pc [0] = true ∧ scoreWait sNop [(0, u0)] [] = none ∧ tooEarly sNop u0 0 [(posOf e0.pc, 0, [])] = none ∧
    readTrap u0 0 0 [] = none := by decide +kernel
/-- The placed word ADDI v3, v4, 5 runs as the first instruction after reset, and the PC moves on. -/
theorem test_step_addi : ((nextOf (step (State.reset.withFetchWord 32 0b0_00_00010_000011_000100_000000000101))).map fun t =>
    ((t.thread? 1).map fun u => u.rdV 2 3, (t.pour? 0 0).map fun p => p.entries.map (·.pc))) = some (some 5, some [4]) := by
  decide +kernel
def sEvent : State := { State.reset with agenda := [(0, .event .powerOnReset)] }
theorem hyp_StepRunsDecoded_event : sEvent.agenda = [(0, .event .powerOnReset)] ∧ isEvent .powerOnReset = true := by decide +kernel
/-- An acknowledged store is due. -/
theorem hyp_StepRunsDecoded_due : ((dueList (withAcc w0 (accOf 1 .store kV 7 .performed))).find?
    (acts (withAcc w0 (accOf 1 .store kV 7 .performed)))).isSome = true := by decide +kernel

/-! ### Further witnesses: the clauses of larger statements -/

theorem Single.lane {s : State} {u : Thread} {ok : Thread → Prop} (h : Single s u) (hu : ok u) : EachLane s ok :=
  h.each (P := fun _ v => ok v ∧ ∀ w, s.twinOf v = some w → ok (s.before w))
    ⟨hu, fun w hw => by cases hw.symm.trans h.2.2⟩
/-- v4 holds a NaN, which policy 3 traps on; 1.0 fits an FP16. -/
def uNan : Thread := u0v [(4, 0x7FC00000), (6, 0x3F800000), (7, 0x7F800001)]
def wNan : State := { wTrap with threads := [uNan] }
theorem hyp_Conversions_lanes : EachLane wNan (fun u => (cvtOne 0 1 (Rm.of 0) 3 (u.rdV 0 6).toNat).isSome = true) ∧
    EachLane wNan (fun u => (cvtOne 0 1 (Rm.of 0) 2 (u.rdV 0 (pairLo 3)).toNat).isSome = true ∧
      (cvtOne 0 1 (Rm.of 0) 2 (u.rdV 0 (pairHi 3)).toNat).isSome = true) :=
  have h : Single wNan uNan := by decide +kernel
  ⟨h.lane (by decide +kernel), h.lane (by decide +kernel)⟩
theorem hyp_Conversions_traps : MayTrap wNan p0 e0 0 uNan qT ∧ cvtOne 0 0 (Rm.of 0) 3 (uNan.rdV 0 4).toNat = none ∧
    (cvtOne 0 1 (Rm.of 0) 3 (uNan.rdV 0 6).toNat).isSome = true ∧ cvtOne 0 1 (Rm.of 0) 3 (uNan.rdV 0 7).toNat = none ∧
    cvtOne 1 0 (Rm.of 0) 3 ((uNan.rdV 0 4).toNat / 2 ^ 16) = none :=
  ⟨⟨by constructor <;> decide +kernel, rfl, by decide +kernel, by decide +kernel, rfl, rfl, rfl, by decide +kernel, by decide,
    by decide⟩, by decide +kernel⟩

/-- Thread 2 is the other physical lane of thread 1, and p1 differs. -/
def uVis : Thread := { u0 with twin := 2 }
def uOdd : Thread := { (u0.setP 1 true) with tid := 2, shadow := true, twin := 1 }
def wOdd : State := { w0 with threads := [uVis, uOdd] }
theorem hyp_ControlTransfers_protect : OneWord wOdd p0 e0 ∧ wOdd.ctlHere = false ∧ wOdd.cur.lanes = [(0, uVis.tid)] ∧
    wOdd.thread? uVis.tid = some uVis ∧ wOdd.before uVis = uVis ∧ wOdd.twinOf uVis = some uOdd ∧
    (wOdd.launch? 0 0).isSome = true ∧ uVis.rdP 0 1 ≠ (wOdd.before uOdd).rdP 0 1 :=
  ⟨by constructor <;> decide +kernel, by decide +kernel⟩
/-- Eight entries: that of the word has lanes 0 and 1, whose v6 differ; that of lane 2 has the lowest priority. -/
def eFull (i : Nat) : Entry :=
  { e0 with pc := BitVec.ofNat 32 (400 * i), prio := if i = 1 then 0 else 1, mask := if i = 0 then 3 else BitVec.ofNat 32 (2 ^ (i + 1)) }
def pFull : Pour := { p0 with entries := (List.range 8).map eFull }
def uFull (i : Nat) : Thread :=
  { u0v [(6, BitVec.ofNat 32 (1002 + 1000 * i))] with tid := i + 1, loc := .lane 0 0 i }
def wFull (room : Nat) : State :=
  { w0 with pours := [pFull], threads := (List.range 9).map uFull, cur := { oneCur 0 with lanes := [(0, 1), (1, 2)] },
            launches := [{ placeLaunch with chain := [{ region0 with poolrec := room }] }] }
theorem hyp_ControlTransfers_frontier (room : Nat) (h : room = 4 ∨ room = 0) : OneWord (wFull room) pFull (eFull 0) ∧
    (wFull room).ctlHere = false ∧ Agree (wFull room) (fun u => u.rdV 0 6) ∧
    ((wFull room).goes (eFull 0) (fun u => some (u.rdV 0 6, 5)) (0, 1)).1 ≠
      ((wFull room).goes (eFull 0) (fun u => some (u.rdV 0 6, 5)) (1, 2)).1 ∧
    pFull.entries.length = 8 ∧ (pFull.entries.map fun o => (o.pc, o.buf)).Nodup ∧
    (∀ o ∈ pFull.entries, o.split = none ∧ o.stall = none) ∧
    (∀ o ∈ pFull.entries, o ≠ eFull 0 → o.pc ≠ 1002 ∧ o.pc ≠ 2002) ∧ (∀ k, k < 12 → pFull.kreg k = 0) ∧
    (∀ u ∈ (wFull room).threads, u.trapClass = false) ∧ eFull 1 ∈ pFull.entries ∧
    (∀ o ∈ pFull.entries, o ≠ eFull 1 → (eFull 1).prio < o.prio) ∧
    (wFull room).lanesIn pFull.core pFull.slot (eFull 1).mask = [(2, 3)] ∧ (wFull room).thread? 3 = some (uFull 2) ∧
    (wFull room).rec? 3 = none ∧ pFull.refs = [] ∧
    (takeRoom (wFull room) 0 0 1).isSome = decide (room = 4) := by
  rcases h with rfl | rfl
  all_goals refine ⟨by constructor <;> decide +kernel, by decide +kernel, fun x hx u w hu hw => ?_, by decide +kernel⟩
  all_goals
    have : ∀ x ∈ (wFull 4).cur.lanes, ((wFull 4).before? x.2).all fun u => ((wFull 4).twinOf u).isNone := by decide +kernel
    have h0 : ∀ x ∈ (wFull 0).cur.lanes, ((wFull 0).before? x.2).all fun u => ((wFull 0).twinOf u).isNone := by decide +kernel
    first
      | (have h1 := this x hx; rw [hu] at h1; simp [hw] at h1)
      | (have h1 := h0 x hx; rw [hu] at h1; simp [hw] at h1)

/-- A launch with a chain. -/
def wChain : State := { w0 with launches := [{ placeLaunch with chain := [region0] }] }
theorem hyp_StatusWords_selectors : Runs wChain p0 e0 ∧ wChain.launch? u0.part u0.launch = some { placeLaunch with chain := [region0] } ∧
    u0.cast < 2 ^ 32 ∧ 1 ≤ placeLaunch.gang ∧ wChain.curEntry? = some e0 :=
  ⟨.inl (by constructor <;> decide +kernel), by decide +kernel⟩

theorem hyp_CsrWrites_events : (∀ m ∈ [1, 2], ∀ r ∈ [0x104, 0x109, 0x10A, 0x10C, 0x112], csrStatic false m r 2 .sup = none) ∧
    (∀ m ∈ [1, 2], csrStatic true m 0x10B 2 .mon = none) ∧ backingUsed wSup part0 = false ∧
    backingUsed { wSup with casts := [{ placeCast with spilled := some 0 }] } part0 = true ∧
    (0x0001000000000000#64).toNat / 2 ^ 48 ≠ part0.poolbk.toNat / 2 ^ 48 := by decide +kernel
/-- Two lanes at supervisor level, the later lane first in the list. -/
def wTwo : State :=
  { wFull 4 with threads := (List.range 9).map fun i => { uFull i with level := .sup } }
theorem hyp_CsrWrites_lanes : Runs wTwo pFull (eFull 0) ∧ (∀ x ∈ wTwo.parts, x.first = part0.first → x = part0) ∧
    ∀ x ∈ wTwo.cur.lanes, (wTwo.thread? x.2).any (fun u => wTwo.part? u.part = some part0) = true ∧
      ∀ m ∈ [1, 2], (wTwo.before? x.2).any (fun b => (wTwo.twinOf b).isNone && csrStatic wTwo.ctlHere m 0x106 6 b.level = none) =
        true := ⟨.inl (by constructor <;> decide +kernel), by decide +kernel⟩

theorem hyp_PrivilegeTraps_forms : (4 : Reg).getLsbD 0 = false ∧ u0.level = .user := by decide
theorem hyp_AccessTraps_all : wTrap.selected u0 = false ∧
    ∀ o ∈ [PortOp.pref, .lda false, .lda true, .str false, .str true, .atom .inc, .atom .cas64, .red .bxor],
      portCheck wTrap (wTrap.reqOf u0 wTrap.cur.core 0) o ((u0.rdW 0 2).toNat / 2 ^ 48) ((u0.rdW 0 2).toNat % 2 ^ 48) 4 =
        .trap Trap.bounds := by decide +kernel

theorem hyp_HomePerforms_poisoned : poisonedAt (combineAt (withAcc wGlobal aPref) aPref.addr 1) (128 * lineOf aPref.addr) 128 = false ∧
    poisonedAt (combineAt { withAcc wGlobal aPref with poisoned := [kG] } aPref.addr 1) (128 * lineOf aPref.addr) 128 = true ∧
    NoStateWaits (withAcc wGlobal (aStore kG .store)) := by unfold NoStateWaits; decide +kernel
theorem hyp_CopiesAndRunners_hole : flashHole (wMove (copyOf oneBlock)) (copyOf oneBlock) = none := by decide +kernel
/-- The tile of an operation has gone. -/
theorem hyp_TileEvents_gone : tileOf (withOp (wT []) (tileOp0 .release 2 false)) 0 0 2 = none ∧
    tileReady (withOp (wT []) (tileOp0 .release 2 false)) (tileOp0 .release 2 false) = true ∧
    mmaReady (wMma []) { opMma with handle := 2 } = true ∧ tileOf (wMma []) 0 0 2 = none ∧ (∃ x ∈ opMma.threads, x.1 = 1) := by
  decide +kernel

/-- No room for a flask: the limit is one. -/
def partOne : Part := { part0 with sglim := 1 }
theorem hyp_FlaskEvents_refused : flaskNamed { withFlask flask0 (.new 78 2 1) .sent with parts := [partOne] } 0 78 = none ∧
    { withFlask flask0 (.new 78 2 1) .sent with parts := [partOne] }.part? 0 = some partOne ∧
    makeFlask { withFlask flask0 (.new 78 2 1) .sent with parts := [partOne] } partOne 78 = none := by decide +kernel
def arrivalOf (n : Nat) (w : Who) (ph : Nat) : Arrival := { id := n, tid := n, who := w, phase := ph, fn := 3, value := 0, dst := 9 }
/-- The first arrival of a phase that expects two, and of one that expects it alone. -/
theorem hyp_FlaskEvents_opens : flask2.isOpen = false ∧ flask2.hasMember uFlask.who = true ∧
    (flask2.members.filter fun m => decide (m.fromPhase ≤ flask2.phase)).length = 2 ∧
    (let f : Flask := { flask0 with members := [member uFlask.who] }
     f.hasMember uFlask.who = true ∧ (f.members.filter fun m => decide (m.fromPhase ≤ f.phase)).length = 1 ∧ f.held = []) := by
  decide +kernel
/-- A member that owes an arrival leaves, or is killed: the phase is then whole; with a held arrival the next phase opens. -/
def third : Who := { uFlask.who with tic := 10 }
def flask3 : Flask :=
  { flask0 with members := [member uFlask.who, member other, member third], isOpen := true, expect := 3, op := 3,
                arrived := [arrivalOf 7 other 0, arrivalOf 8 third 0], held := [arrivalOf 9 other 1] }
theorem hyp_FlaskEvents_departs : flaskOf (withFlask flask3 (.gone 5 true) .sent) 0 5 = some flask3 ∧
    homeReady (withFlask flask3 (.gone 5 true) .sent) (sg0 (.gone 5 true) .sent) = true ∧
    flask3.members.find? (fun m => m.who = uFlask.who) = some (member uFlask.who) ∧
    (∀ a ∈ flask3.arrived, a.who ≠ uFlask.who) ∧ flask3.arrived.length = flask3.expect - 1 ∧
    (flask3.held.map (·.id)) = [9] ∧
    ([member other, member third].filter fun m => decide (m.fromPhase ≤ flask3.phase + 1)).length = 2 ∧
    (flask2.held.filter (fun a => a.who = uFlask.who)) = [] := by decide +kernel
/-- A member whose arrival for the next phase is held leaves. -/
def flaskHeld : Flask := { flask2 with isOpen := true, expect := 2, arrived := [arrivalOf 1 uFlask.who 0], held := [arrivalOf 9 uFlask.who 1] }
theorem hyp_FlaskEvents_held : flaskHeld.held.filter (fun a => a.who = uFlask.who) = [arrivalOf 9 uFlask.who 1] ∧
    ¬(flaskHeld.arrived.length = flaskHeld.expect) := by decide +kernel
/-- The last member of a dropped flask leaves: it is destroyed, and arrivals on their way are stale. -/
def flaskLast : Flask := { flask0 with members := [member uFlask.who], dropMark := true }
theorem hyp_FlaskEvents_destroyed : flaskLast.dropMark = true ∧ flaskLast.held = [] ∧ flaskLast.isOpen = false ∧
    flaskLast.members.filter (fun m => m.who ≠ uFlask.who) = [] ∧
    flaskOf { withFlask flaskLast (.leave 5 2) .sent with sgs := [sg0 (.leave 5 2) .sent, { sg0 (.arrive 5 3 0 9) (.departed 0) with id := 2 }] }
      0 5 = some flaskLast ∧ flaskLast.handle = 5 := by decide +kernel
/-- Contributions of every kind. -/
theorem hyp_FlaskEvents_values : ({ flask0 with op := 9, arrived := [{ arrivalOf 1 other 0 with fn := 9, value := 7 }] } : Flask).contributed = [7] ∧
    fp32.IsFin 0x3F800000 ∧ fp32.IsInf 0xFF800000 ∧ fp32.IsNaN 0x7F800001 := by
  unfold Fmt.IsFin Fmt.IsInf Fmt.IsNaN; decide +kernel

/-- The lanes of an entry leave in the next cy. -/
theorem hyp_RecordsMade_leaving :
    let e := { e0 with stall := some { stall0 none with await := true, wtype := 5, start := 300 } }
    e.leaving 300 = true ∧ (takeRoom (wStall (pWith e) 0) 0 0 2).isSome = false := by decide +kernel
/-- A record in transit, and no matrix operation is stopped. -/
theorem hyp_RecordsMoved_arrives : ∀ o ∈ (wRec { woken with transit := some 1 }).tileOps, o.stopped = false := by decide +kernel
/-- The registers of a partition that was. -/
def wKept : State := { ready0 w0 with parts := [], dev := { (ready0 w0).dev with kept := [part0] } }
theorem hyp_Commands_kept : wKept.dev.kept.find? (fun x => x.first = 0) = some part0 ∧ part0.first = 0 ∧ assigned wKept 0 = false ∧
    slotReady wKept.dev 0 = true ∧ cmdOverlaps wKept (cmd 1 7 1) = false := by decide +kernel
theorem hyp_LinksAndSideBand_refused : (let x : Spdm := { slot := 0, version := true, caps := true, algs := some false, log := none }
    (spdmOf { w0 with dev := { w0.dev with spdm := [x] } } 0).algs = some false) := by decide +kernel
theorem hyp_EncodingAgrees_none : isEvent .powerOnReset = true ∧ wf (.nop h0) = true ∧ isEvent (.nop h0) = false := by decide
theorem hyp_StepRunsDecoded_checks : sbchkOf sNop 0 0 = true ∧ tooEarly sNop u0 0 [(0, 0, [])] = none ∧ u0.stale = [] ∧
    assayFirst 0 = false ∧ sNop.reaches 0 (2 ^ 34) = true ∧ sNop.ucopies = [] := by decide +kernel

end Sys2Proof
end

section
/-! SUPPORT. What leaves memory alone: for each operation on the state that writes no byte of memory, that the list
of cells stays. The canonical form of memory (the obligation MemoryStaysCanonical) and every statement with
`t.mem = s.mem` rest on these. -/

namespace Sys2Proof.Machine

open Sys2Proof (Master)

/-- A choice between states, seen at memory. -/
@[simp] theorem State.ite_mem (c : Prop) [Decidable c] (s t : State) :
    (if c then s else t).mem = if c then s.mem else t.mem := by
  split <;> rfl

/-- A walk over a list each of whose steps leaves memory leaves it. -/
@[simp] theorem foldl_mem {α : Type} {f : State → α → State} (hf : ∀ s x, (f s x).mem = s.mem)
    (l : List α) (s : State) :
    (l.foldl f s).mem = s.mem := by
  induction l generalizing s with
  | nil => rfl
  | cons x l ih => rw [List.foldl_cons, ih, hf]

/-! ### Store -/

@[simp] theorem State.countArray_mem (s : State) (part cls : Nat) (hard : Bool) :
    (State.countArray s part cls hard).mem = s.mem := rfl

/-! ### Coherence -/

@[simp] theorem healAt_mem (s : State) (k size : Nat) : (healAt s k size).mem = s.mem := rfl
@[simp] theorem poisonAt_mem (s : State) (k size : Nat) : (poisonAt s k size).mem = s.mem := rfl
@[simp] theorem putLine_mem (s : State) (l : Line) : (putLine s l).mem = s.mem := rfl
@[simp] theorem stamp_mem (s : State) (key : Nat) : (stamp s key).1.mem = s.mem := by
  unfold stamp
  split <;> simp
@[simp] theorem touchRow_mem (s : State) (id k : Nat) : (touchRow s id k).mem = s.mem := by
  unfold touchRow
  split <;> simp
@[simp] theorem queueRow_mem (s : State) (k : Nat) : (queueRow s k).mem = s.mem := by
  unfold queueRow
  split <;> simp
@[simp] theorem llcBring_mem (s : State) (k : Nat) : (llcBring s k).mem = s.mem := by
  unfold llcBring
  split <;> simp
@[simp] theorem l2Bring_mem (s : State) (k mode : Nat) : (l2Bring s k mode).mem = s.mem := by simp [l2Bring]
theorem rowGo_mem {s t : State} {k : Nat} (e : rowGo s k = some t) : t.mem = s.mem := by
  unfold rowGo at e
  split_ifs at e <;> cases e <;> simp

/-! ### Port -/

@[simp] theorem dropFlit_mem (s : State) : (dropFlit s).mem = s.mem := rfl
@[simp] theorem countLost_mem (s : State) (part : Nat) (op : PortOp) (ptr size : Nat) :
    (countLost s part op ptr size).mem = s.mem := by simp [countLost]

/-! ### Regs -/

@[simp] theorem putV_mem (lat : Nat) (d : Reg) (f : Thread → Word) (s : State) : (putV lat d f s).mem = s.mem := rfl
@[simp] theorem State.updBoth_mem (s : State) (tid : Nat) (f : Thread → Thread) :
    (State.updBoth s tid f).mem = s.mem := by
  unfold State.updBoth
  split <;> simp
@[simp] theorem State.deliverTo_mem (s : State) (tid : Nat) (ws : List (RegRef × Word)) :
    (State.deliverTo s tid ws).mem = s.mem := by simp [State.deliverTo]

/-! ### Pool -/

theorem takeRoom_mem {s t : State} {part launch n : Nat} (e : takeRoom s part launch n = some t) : t.mem = s.mem := by
  unfold takeRoom at e
  split at e <;> cases e
  rfl
@[simp] theorem recPoison_mem (s : State) (tid : Nat) : (recPoison s tid).mem = s.mem := by
  unfold recPoison
  (repeat' split) <;> simp
@[simp] theorem enterLadle_mem (s : State) (tid : Nat) : (enterLadle s tid).mem = s.mem := by
  simp only [enterLadle]
  (repeat' split) <;> simp
@[simp] theorem leaveLadle_mem (s : State) (tid : Nat) : (leaveLadle s tid).mem = s.mem := rfl
@[simp] theorem serveEntryLists_mem (s : State) : (serveEntryLists s).mem = s.mem := by simp [serveEntryLists]
@[simp] theorem fireWake_mem (s : State) (tid status : Nat) : (fireWake s tid status).mem = s.mem := by
  unfold fireWake
  split <;> simp
@[simp] theorem checkWake_mem (s : State) (tid : Nat) : (checkWake s tid).mem = s.mem := by
  unfold checkWake
  split <;> simp
@[simp] theorem checkWakes_mem (s : State) (part wtype : Nat) : (checkWakes s part wtype).mem = s.mem := by
  simp [checkWakes]
@[simp] theorem bufferWakes_mem (s : State) : (bufferWakes s).mem = s.mem := by simp [bufferWakes]
@[simp] theorem settleMove_mem (s : State) (part : Nat) : (settleMove s part).mem = s.mem := by
  unfold settleMove
  split <;> simp
@[simp] theorem leavePour_mem (s : State) (core slot lane : Nat) : (leavePour s core slot lane).mem = s.mem := by
  simp [leavePour]

/-! ### Kill -/

@[simp] theorem updQueue_mem (s : State) (part q : Nat) (f : Queue → Queue) : (updQueue s part q f).mem = s.mem := rfl
@[simp] theorem raiseInt_mem (s : State) (bit : Nat) : (raiseInt s bit).mem = s.mem := rfl
@[simp] theorem raiseCtl_mem (s : State) (slot source : Nat) : (raiseCtl s slot source).mem = s.mem := rfl
@[simp] theorem raiseS_mem (s : State) (p : Part) (source : Nat) : (raiseS s p source).mem = s.mem :=
  foldl_mem (fun _ _ => by rfl) _ _
@[simp] theorem settleTiles_mem (s : State) : (settleTiles s).mem = s.mem := rfl
@[simp] theorem setSusp_mem (s : State) (core n : Nat) (q : Bool) : (setSusp s core n q).mem = s.mem := rfl
@[simp] theorem departures_mem (s : State) (t : Thread) (killed : Bool) : (departures s t killed).mem = s.mem := by
  simp [departures]
@[simp] theorem freeLocksAt_mem (s : State) (op done : Nat) : (freeLocksAt s op done).mem = s.mem := rfl
@[simp] theorem freeLocks_mem (s : State) (op : Nat) : (freeLocks s op).mem = s.mem := rfl
@[simp] theorem endOps_mem (s : State) (ids : List Nat) : (endOps s ids).mem = s.mem :=
  foldl_mem (fun s id => by split <;> simp) _ _
@[simp] theorem unpin_mem (s : State) (c : Cast) : (unpin s c).mem = s.mem := by simp [unpin]
@[simp] theorem dropRun_mem (s : State) (c : Cast) : (dropRun s c).mem = s.mem := by simp [dropRun]
@[simp] theorem killEngines_mem (s : State) (l : Launch) (g : Nat) : (killEngines s l g).mem = s.mem := by
  simp [killEngines]
@[simp] theorem holdRanges_mem (s : State) (l : Launch) (g : Nat) : (holdRanges s l g).mem = s.mem := by
  simp [holdRanges]
@[simp] theorem readyChanged_mem (s : State) : (readyChanged s).mem = s.mem :=
  foldl_mem (fun _ _ => by rfl) _ _

/-! ### Ops -/

@[simp] theorem State.eachThread_mem (s : State) (f : Thread → Thread → Thread) :
    (State.eachThread s f).mem = s.mem := rfl
@[simp] theorem noteWord_mem (sem : Sem) (s : State) : (noteWord sem s).mem = s.mem := rfl
@[simp] theorem dropTrapped_mem (s : State) : (dropTrapped s).mem = s.mem := rfl
@[simp] theorem missFault_mem (s : State) (part : Nat) : (missFault s part).mem = s.mem := by
  unfold missFault
  split <;> simp
@[simp] theorem enterLayer_mem (s : State) (slot : Nat) (into : Level) (ret : Word) (prio : BitVec 4) (code : TrapCode)
    (info : DWord) :
    (enterLayer s slot into ret prio code info).mem = s.mem := by
  unfold enterLayer
  (repeat' split) <;> simp
@[simp] theorem openInfo_mem (s : State) (code : TrapCode) (info : DWord) :
    (openInfo s code info).1.mem = s.mem := by
  unfold openInfo
  split <;> simp
@[simp] theorem enterMon_mem (s : State) (slot : Nat) (pc : Word) (prio : BitVec 4) (code : TrapCode) (info : DWord) :
    (enterMon s slot pc prio code info).mem = s.mem := by simp [enterMon]
@[simp] theorem dropAnswers_mem (s : State) (tid : Nat) : (dropAnswers s tid).mem = s.mem := rfl
@[simp] theorem recordNext_mem (s : State) (core slot lane : Nat) (i : RecInit) :
    (recordNext s core slot lane i).mem = s.mem := rfl
@[simp] theorem missPage_mem (s : State) (tid : Nat) : (missPage s tid).mem = s.mem := by simp [missPage]
@[simp] theorem returnLayer_mem (s : State) (slot : Nat) (layer : Level) :
    (returnLayer s slot layer).mem = s.mem := by
  unfold returnLayer
  split <;> simp
@[simp] theorem freePour_mem (s : State) (core slot : Nat) : (freePour s core slot).mem = s.mem := rfl
@[simp] theorem restartLoops_mem (s : State) (core slot : Nat) : (restartLoops s core slot).mem = s.mem := rfl
@[simp] theorem firstTry_mem (s : State) (p : Pour) (core slot : Nat) : (firstTry s p core slot).mem = s.mem := by
  simp [firstTry]
@[simp] theorem dropTrappedBlocks_mem (s : State) : (dropTrappedBlocks s).mem = s.mem := rfl
@[simp] theorem keepStall_mem (hd : Hdr) (s : State) : (keepStall hd s).mem = s.mem := rfl
@[simp] theorem putResult_mem (lat : Nat) (d : Reg) (f : Thread → Word) (s : State) :
    (putResult lat d f s).mem = s.mem := rfl
@[simp] theorem putPair_mem (lat : Nat) (d : PairNo) (f : Thread → DWord) (s : State) :
    (putPair lat d f s).mem = s.mem := rfl
@[simp] theorem putPred_mem (lat : Nat) (d : PredNo) (f : Thread → Bool) (s : State) :
    (putPred lat d f s).mem = s.mem := rfl
@[simp] theorem sendResult_mem (ws : Thread → List (RegRef × Word)) (s : State) : (sendResult ws s).mem = s.mem := rfl
@[simp] theorem transfer_mem (f : Thread → Option (Word × BitVec 4)) (s : State) : (transfer f s).mem = s.mem := rfl

/-! ### Flags -/

@[simp] theorem putPreds_mem (a : Reg) (s : State) : (putPreds a s).mem = s.mem := rfl

/-! ### Access -/

@[simp] theorem addDigest_mem (s : State) (t : Thread) (idx off size data : Nat) :
    (addDigest s t idx off size data).mem = s.mem := rfl
@[simp] theorem noteSeenAt_mem (s : State) (tid : Option Nat) (k size n : Nat) :
    (noteSeenAt s tid k size n).mem = s.mem := by
  unfold noteSeenAt
  split <;> simp
@[simp] theorem noteSeen_mem (s : State) (tid : Option Nat) (k size : Nat) :
    (noteSeen s tid k size).mem = s.mem := by simp [noteSeen]
@[simp] theorem noteCopy_mem (s : State) (tid : Option Nat) (c : L1Copy) (k size : Nat) :
    (noteCopy s tid c k size).mem = s.mem := by simp [noteCopy]
@[simp] theorem patchL1_mem (s : State) (core key size data : Nat) (poison : Bool) :
    (patchL1 s core key size data poison).mem = s.mem := by simp [patchL1]
@[simp] theorem dropL1_mem (s : State) (core key : Nat) : (dropL1 s core key).mem = s.mem := rfl
@[simp] theorem sendRed_mem (s : State) (a : Acc) (op : RmwOp) : (sendRed s a op).mem = s.mem := by
  simp only [sendRed]
  (repeat' split) <;> simp

@[simp] theorem injected_mem (s : State) (t : Thread) (k : AccKind) : (injected s t k).2.mem = s.mem := by
  unfold injected
  split
  · split_ifs <;> rfl
  · rfl

/-! ### Service -/

@[simp] theorem unstall_mem (s : State) (tid : Nat) : (unstall s tid).mem = s.mem := by
  unfold unstall
  (repeat' split) <;> simp
@[simp] theorem endFault_mem (s : State) (part fid : Nat) : (endFault s part fid).mem = s.mem := rfl
@[simp] theorem resumeOps_mem (s : State) (part fid : Nat) : (resumeOps s part fid).mem = s.mem := rfl
@[simp] theorem fltService_mem (s : State) (part fid : Nat) : (fltService s part fid).mem = s.mem := by
  simp [fltService]
@[simp] theorem failPrologues_mem (s : State) (part fid : Nat) : (failPrologues s part fid).mem = s.mem :=
  foldl_mem (fun _ _ => by rfl) _ _
@[simp] theorem holdRecs_mem (s : State) (rs : List Rec) : (holdRecs s rs).mem = s.mem := by
  rw [holdRecs, serveEntryLists_mem]
  exact foldl_mem (fun _ _ => by rfl) _ _
@[simp] theorem setFinj_mem (s : State) (part : Nat) (tid : Option Nat) (v : Word) :
    (setFinj s part tid v).mem = s.mem := rfl
@[simp] theorem setPoolbk_mem (s : State) (part : Nat) (v : DWord) : (setPoolbk s part v).mem = s.mem := by
  unfold setPoolbk
  split <;> simp
@[simp] theorem endCommand_mem (s : State) (classM : Bool) (op first status : Nat) :
    (endCommand s classM op first status).mem = s.mem := rfl
@[simp] theorem qackSlot_mem (s : State) (slot : Nat) : (qackSlot s slot).mem = s.mem := by
  unfold qackSlot
  split <;> simp

/-! ### Engine -/

@[simp] theorem addLocks_mem (s : State) (ls : List Lock) : (addLocks s ls).mem = s.mem := rfl

/-! ### Csr -/

@[simp] theorem setTrapRegs_mem (s : State) (core : Nat) (t : Thread) (f : Bank → Bank) :
    (setTrapRegs s core t f).mem = s.mem := by simp [setTrapRegs]

/-! ### System -/

@[simp] theorem addEnds_mem (s : State) (es : List (Nat × Nat × EndAct)) : (addEnds s es).mem = s.mem := rfl
theorem takeOne_mem {s s' : State} {t : Thread} (e : takeOne s t = some s') : s'.mem = s.mem := takeRoom_mem e
@[simp] theorem exitControl_mem (s : State) : (exitControl s).mem = s.mem := by
  unfold exitControl
  (repeat' split) <;> simp
@[simp] theorem yieldLane_mem (s : State) (x : Nat × Nat) : (yieldLane s x).mem = s.mem := by
  unfold yieldLane
  split
  · next e =>
    obtain ⟨_, _, e⟩ := Option.bind_eq_some_iff.1 e
    simp [takeOne_mem e]
  · rfl
@[simp] theorem sleepPre_mem (a : Reg) (s : State) : (sleepPre a s).mem = s.mem := rfl
@[simp] theorem trapLane_mem (imm : BitVec 12) (s : State) (x : Nat × Nat) : (trapLane imm s x).mem = s.mem := by
  unfold trapLane
  split <;> simp
@[simp] theorem trapCall_mem (imm : BitVec 12) (s : State) : (trapCall imm s).mem = s.mem :=
  foldl_mem (fun _ _ => by rfl) _ _
@[simp] theorem loseBlock_mem (s : State) (lane : Nat) (t : Thread) (ptr n : Nat) :
    (loseBlock s lane t ptr n).mem = s.mem := by simp [loseBlock]
@[simp] theorem letGo_mem (s : State) (t : Thread) : (letGo s t).mem = s.mem := rfl
@[simp] theorem launchLost_mem (a : PairNo) (s : State) : (launchLost a s).mem = s.mem :=
  foldl_mem (fun _ _ => by split <;> simp) _ _
@[simp] theorem fwdLane_mem (d a : Reg) (convoy : Nat) (s : State) (x : Nat × Nat) :
    (fwdLane d a convoy s x).mem = s.mem := by
  simp only [fwdLane]
  split
  · rfl
  split_ifs
  · simp
  · simp
  split
  · simp
  · next e => simp [takeOne_mem e]
@[simp] theorem eretLanes_mem (s : State) : (eretLanes s).mem = s.mem := rfl
@[simp] theorem btinvLane_mem (a : Reg) (s : State) (x : Nat × Nat) : (btinvLane a s x).mem = s.mem := by
  unfold btinvLane
  (repeat' split) <;> simp
@[simp] theorem digLane_mem (a : Reg) (s : State) (x : Nat × Nat) : (digLane a s x).mem = s.mem := by
  unfold digLane
  split <;> simp

/-! ### Copy -/

@[simp] theorem noteChanged_mem (s : State) (part buf tid : Nat) : (noteChanged s part buf tid).mem = s.mem := by
  unfold noteChanged
  (repeat' split) <;> simp
@[simp] theorem sendBufOp_mem (s : State) (buf : Nat) (k : BufOpKind) : (sendBufOp s buf k).mem = s.mem := by
  unfold sendBufOp
  (repeat' split) <;> simp
@[simp] theorem dropBufOp_mem (s : State) : (dropBufOp s).mem = s.mem := by
  unfold dropBufOp
  split <;> simp
@[simp] theorem letGoHere_mem (s : State) : (letGoHere s).mem = s.mem := by
  unfold letGoHere
  split <;> simp

/-! ### MemEvents -/

@[simp] theorem performed_mem (s : State) (id data gwct : Nat) (tag : BitVec 16) (poison : Bool) :
    (performed s id data gwct tag poison).mem = s.mem := rfl
@[simp] theorem ownBytes_mem (s : State) (a : Acc) : (ownBytes s a).mem = s.mem := rfl
@[simp] theorem loseRequest_mem (s : State) (a : Acc) : (loseRequest s a).mem = s.mem := rfl
@[simp] theorem answered_mem (s : State) (a : Acc) : (answered s a).mem = s.mem := by simp [answered]
@[simp] theorem gatherAll_mem (core line : Nat) : ∀ (as : List Acc) (s : State), (gatherAll core line as s).mem = s.mem
  | [], _ => rfl
  | a :: as, s => by
    unfold gatherAll
    split
    · simp [gatherAll_mem core line as]
    · rfl

/-! ### Runner -/

@[simp] theorem updQueueOf_mem (s : State) (part launch cast q : Nat) (f : List (List QElem) → List (List QElem)) :
    (updQueueOf s part launch cast q f).mem = s.mem := rfl

/-! ### Tile -/

@[simp] theorem countTileOp_mem (s : State) : (countTileOp s).mem = s.mem := rfl
@[simp] theorem sendTileOp_mem (s : State) (o : TileOp) (ls : List Lock) : (sendTileOp s o ls).mem = s.mem := rfl

/-! ### EngineEvents -/

@[simp] theorem noteFlash_mem (s : State) (k n : Nat) : (noteFlash s k n).mem = s.mem := rfl
@[simp] theorem takePlace_mem (s : State) (c : CopyOp) : (takePlace s c).1.mem = s.mem := by
  unfold takePlace
  split <;> simp
@[simp] theorem tagSlots_mem (s : State) (c : CopyOp) : (tagSlots s c).mem = s.mem := by simp [tagSlots]
@[simp] theorem freeSources_mem (s : State) (op : Nat) : (freeSources s op).mem = s.mem := rfl
@[simp] theorem pushEntry_mem (s : State) (r : Runner) (q : Nat) (e : List QElem) :
    (pushEntry s r q e).mem = s.mem := by
  unfold pushEntry
  split <;> simp
@[simp] theorem freeStream_mem (s : State) (r : Runner) (i : Nat) : (freeStream s r i).mem = s.mem := by
  unfold freeStream
  (repeat' split) <;> simp
@[simp] theorem dropTileOp_mem (s : State) (id : Nat) : (dropTileOp s id).mem = s.mem := rfl
@[simp] theorem sendBack_mem (s : State) (tid : Nat) (ws : List (RegRef × Word)) :
    (sendBack s tid ws).mem = s.mem := rfl
@[simp] theorem loadTile_mem (s : State) (o : TileOp) (d : Reg) (sel : List (Nat × Word)) :
    (loadTile s o d sel).mem = s.mem := by
  unfold loadTile
  split <;> simp
@[simp] theorem staleOp_mem (s : State) (o : TileOp) : (staleOp s o).mem = s.mem := foldl_mem (fun _ _ => by rfl) _ _
@[simp] theorem dropTile_mem (s : State) (o : TileOp) : (dropTile s o).mem = s.mem := by simp [dropTile]
@[simp] theorem holdOp_mem (s : State) (id : Nat) (paused retry : Option Nat) :
    (holdOp s id paused retry).mem = s.mem := rfl

/-! ### Issue -/

@[simp] theorem withTraps_mem (s : State) (ks : List LaneTrap) : (withTraps s ks).mem = s.mem := rfl
@[simp] theorem atWord_mem (s : State) (w : Word) (i : Nat) (ph : Phase) : (atWord s w i ph).mem = s.mem := rfl
@[simp] theorem readTraps_mem (s : State) (w : Word) : (readTraps s w).mem = s.mem := rfl
@[simp] theorem countFlips_mem (core : Nat) (ws : List Word) (s : State) : (countFlips core ws s).mem = s.mem := by
  unfold countFlips
  split
  · split_ifs
    · exact foldl_mem (fun _ _ => by rfl) _ _
    · rfl
  · rfl
@[simp] theorem markBusy_mem (core slot : Nat) (ws : List Word) (t0 : Nat) (s : State) :
    (markBusy core slot ws t0 s).mem = s.mem := by simp [markBusy]

/-! ### RecordEvents -/

@[simp] theorem restoreLoop_mem (s : State) (r : Rec) : (restoreLoop s r).mem = s.mem := by
  unfold restoreLoop
  split <;> simp
@[simp] theorem sendRecs_mem (s : State) (rs : List Rec) (cluster : Nat) : (sendRecs s rs cluster).mem = s.mem := by
  rw [sendRecs, serveEntryLists_mem]
  exact foldl_mem (fun _ _ => by rfl) _ _
@[simp] theorem enterFired_mem (s : State) (part vf : Nat) : (enterFired s part vf).mem = s.mem := by
  simp [enterFired]

/-! ### AdmitEvents -/

@[simp] theorem rereadDeps_mem (s : State) (part : Nat) : (rereadDeps s part).mem = s.mem := rfl
@[simp] theorem lostFence_mem (s : State) (part q ptr : Nat) : (lostFence s part q ptr).mem = s.mem := by
  simp [lostFence]
@[simp] theorem prologueCopies_mem (s : State) (p : Part) (l : Launch) (cluster : Nat) :
    (prologueCopies s p l cluster).mem = s.mem := by simp [prologueCopies]
@[simp] theorem startPour_mem (s : State) (l : Launch) (c : Cast) (j core : Nat) :
    (startPour s l c j core).mem = s.mem := by simp [startPour]
@[simp] theorem startCast_mem (s : State) (c : Cast) (l : Launch) (o core : Nat) :
    (startCast s c l o core).mem = s.mem := by
  unfold startCast
  split <;> simp
@[simp] theorem freeLaunch_mem (s : State) (l : Launch) : (freeLaunch s l).mem = s.mem := rfl
@[simp] theorem tailWrite_mem (s : State) (p : Part) (q : Nat) (t : BitVec 32) :
    (tailWrite s p q t).mem = s.mem := by simp [tailWrite]

/-! ### CareEvents -/

@[simp] theorem setEyeLane_mem (s : State) (x : EyeLane) : (setEyeLane s x).mem = s.mem := rfl
@[simp] theorem setEyeGroup_mem (s : State) (x : EyeGroup) : (setEyeGroup s x).mem = s.mem := rfl
@[simp] theorem takeInterrupt_mem (s : State) (slot source : Nat) : (takeInterrupt s slot source).mem = s.mem := by
  unfold takeInterrupt
  split <;> simp

/-! ### Commands -/

@[simp] theorem requestLock_mem (s : State) (classM : Bool) (m : Master) : (requestLock s classM m).mem = s.mem := rfl
@[simp] theorem releaseLock_mem (s : State) (classM : Bool) (m : Master) : (releaseLock s classM m).mem = s.mem := rfl
@[simp] theorem setSlot_mem (s : State) (x : SlotCfg) : (setSlot s x).mem = s.mem := rfl
@[simp] theorem settleScrub_mem (s : State) (p : Part) : (settleScrub s p).mem = s.mem := by
  unfold settleScrub
  split
  · rfl
  · exact foldl_mem (fun _ _ => by rfl) _ _
@[simp] theorem endScrub_mem (s : State) (slot : Nat) : (endScrub s slot).mem = s.mem := by
  simp only [endScrub]
  (repeat' split) <;> simp
@[simp] theorem giveStatus_mem (s : State) (classM : Bool) (st : Nat) : (giveStatus s classM st).mem = s.mem := rfl
@[simp] theorem removePart_mem (s : State) (p : Part) : (removePart s p).mem = s.mem := foldl_mem (fun _ _ => by rfl) _ _
@[simp] theorem startCommand_mem (s : State) (classM : Bool) (v : DWord) (slots : Nat) :
    (startCommand s classM v slots).mem = s.mem := rfl
@[simp] theorem healthOf_mem (slot : Nat) (mask : BitVec 16) (s : State) (i : Nat) :
    (healthOf slot mask s i).mem = s.mem := by simp [healthOf]
@[simp] theorem loadImages_mem (s : State) (slot : Nat) : (loadImages s slot).mem = s.mem := rfl

/-! ### Flask -/

@[simp] theorem putFlask_mem (s : State) (f : Flask) : (putFlask s f).mem = s.mem := rfl
@[simp] theorem sendResults_mem (s : State) (f : Flask) : (sendResults s f).mem = s.mem := rfl
@[simp] theorem settleFlask_mem : ∀ (n : Nat) (s : State) (f : Flask), (settleFlask s f n).1.mem = s.mem
  | 0, _, _ => rfl
  | n + 1, s, f => by
    unfold settleFlask
    split
    · simp [settleFlask_mem n]
    · rfl
@[simp] theorem storeFlask_mem (s : State) (f : Flask) : (storeFlask s f).mem = s.mem := by simp [storeFlask]
@[simp] theorem joinFlask_mem (s : State) (f : Flask) (w : Who) : (joinFlask s f w).1.mem = s.mem := by
  unfold joinFlask
  split <;> simp
@[simp] theorem leaveFlask_mem (s : State) (f : Flask) (w : Who) (killed drop : Bool) :
    (leaveFlask s f w killed drop).mem = s.mem := by
  unfold leaveFlask
  split <;> simp
@[simp] theorem arriveFlask_mem (s : State) (f : Flask) (a : Arrival) : (arriveFlask s f a).mem = s.mem := by
  simp [arriveFlask]

/-! ### Sg -/

@[simp] theorem sendSg_mem (s : State) (t : Thread) (k : SgKind) (st : SgStage) : (sendSg s t k st).mem = s.mem := rfl
theorem eachLane_mem {f : State → Nat → Thread → State} (hf : ∀ s l t, (f s l t).mem = s.mem) (s : State) :
    (eachLane f s).mem = s.mem :=
  foldl_mem (fun s x => by split <;> simp [hf]) _ _
@[simp] theorem askHome_mem (is : SgKind → Bool) (k : Nat → Thread → SgKind) (s : State) :
    (askHome is k s).mem = s.mem :=
  eachLane_mem (fun _ _ _ => by split <;> simp) s
@[simp] theorem dropSg_mem (is : SgKind → Bool) (s : State) : (dropSg is s).mem = s.mem := rfl
@[simp] theorem validateLanes_mem (fn : Nat) (d a : Reg) (s : State) : (validateLanes fn d a s).mem = s.mem :=
  eachLane_mem (fun _ _ _ => by dsimp only; split <;> simp) s
@[simp] theorem issueArrival_mem (value : Nat → Thread → Word) (s : State) (t : Thread) :
    (issueArrival value s t).mem = s.mem := by
  unfold issueArrival
  split <;> simp

/-! ### FlaskEvents -/

@[simp] theorem dropReq_mem (s : State) (id : Nat) : (dropReq s id).mem = s.mem := rfl
@[simp] theorem stageReq_mem (s : State) (id : Nat) (st : SgStage) : (stageReq s id st).mem = s.mem := rfl
@[simp] theorem joinReq_mem (s : State) (g : SgReq) (a : Option Flask) : (joinReq s g a).mem = s.mem := by
  unfold joinReq
  split <;> simp
@[simp] theorem newReq_mem (s : State) (g : SgReq) (n : DWord) : (newReq s g n).mem = s.mem := by
  unfold newReq
  (repeat' split) <;> simp
@[simp] theorem leaveReq_mem (s : State) (g : SgReq) (hd : Word) (drop : Bool) :
    (leaveReq s g hd drop).mem = s.mem := by
  unfold leaveReq
  split <;> simp
@[simp] theorem statReq_mem (s : State) (g : SgReq) (hd : Word) (sel : Nat) (d : Reg) :
    (statReq s g hd sel d).mem = s.mem := rfl
@[simp] theorem arriveReq_mem (s : State) (g : SgReq) (hd : Word) (fn : Nat) (v : Word) (d : Reg) (ph : Nat) :
    (arriveReq s g hd fn v d ph).mem = s.mem := by
  unfold arriveReq
  split <;> simp
@[simp] theorem goneReq_mem (s : State) (g : SgReq) (hd : Word) (killed : Bool) :
    (goneReq s g hd killed).mem = s.mem := by
  simp only [goneReq]
  (repeat' split) <;> simp
@[simp] theorem answerReq_mem (s : State) (g : SgReq) : (answerReq s g).mem = s.mem := by
  unfold answerReq
  (repeat' split) <;> simp

/-! ### Inputs -/

@[simp] theorem writePieces_mem (part : Nat) (place : Nat → Option Nat) :
    ∀ (n addr : Nat) (bs : List Byte) (s : State), (writePieces part place n addr bs s).mem = s.mem
  | 0, _, _, _ => rfl
  | n + 1, addr, bs, s => by
    unfold writePieces
    split
    · rfl
    · rw [writePieces_mem part place n]
      split <;> rfl
@[simp] theorem hostWrite_mem (part addr : Nat) (data : List Byte) (s : State) :
    (hostWrite part addr data s).mem = s.mem := by
  unfold hostWrite
  split <;> simp
@[simp] theorem arrayPoison_mem (cls owner place : Nat) (s : State) :
    (arrayPoison cls owner place s).mem = s.mem := by
  unfold arrayPoison
  split <;> simp
@[simp] theorem arrayError_mem (cls owner place : Nat) (hard : Bool) (s : State) :
    (arrayError cls owner place hard s).mem = s.mem := by
  unfold arrayError
  split <;> simp
@[simp] theorem linkError_mem (off : Nat) (s : State) : (linkError off s).mem = s.mem := by simp [linkError]
@[simp] theorem upsetOp_mem (id : Nat) (second : Bool) (row col : Nat) (flip : Word) (s : State) :
    (upsetOp id second row col flip s).mem = s.mem := rfl
@[simp] theorem railAt_mem (slice mv : Nat) (s : State) : (railAt slice mv s).mem = s.mem := by simp [railAt]
@[simp] theorem loaded_mem (part : Nat) (kernel : DWord) (ok : Bool) (s : State) :
    (loaded part kernel ok s).mem = s.mem := rfl
@[simp] theorem sealPage_mem (slot page : Nat) (s : State) : (sealPage slot page s).mem = s.mem := rfl

/-! ### LinkEvents -/

@[simp] theorem cfglockWrite_mem (s : State) (m : Master) (v : DWord) : (cfglockWrite s m v).mem = s.mem := by
  simp [cfglockWrite]
@[simp] theorem eyeWrite_mem (s : State) (m : Master) (off w : Nat) : (eyeWrite s m off w).mem = s.mem := by
  simp [eyeWrite]
@[simp] theorem queueWrite_mem (s : State) (p : Part) (viaVf : Bool) (q i : Nat) (mask v : DWord) :
    (queueWrite s p viaVf q i mask v).mem = s.mem := by
  simp only [queueWrite]
  (repeat' split) <;> simp
@[simp] theorem pweightWrite_mem (s : State) (p : Part) (i : Nat) (mask v : DWord) :
    (pweightWrite s p i mask v).mem = s.mem := rfl
@[simp] theorem loseAcc_mem (s : State) (a : Acc) : (loseAcc s a).mem = s.mem := by
  unfold loseAcc
  (repeat' split) <;> simp
@[simp] theorem loseThrough_mem (s : State) (p : Part) (e : Nat) : (loseThrough s p e).mem = s.mem := by
  simp [loseThrough]
@[simp] theorem giveAnswer_mem (s : State) (a : Answer) : (giveAnswer s a).mem = s.mem := rfl
@[simp] theorem startControl_mem (s : State) (slot : Nat) : (startControl s slot).mem = s.mem := rfl
@[simp] theorem stopControl_mem (s : State) (slot : Nat) : (stopControl s slot).mem = s.mem := rfl
@[simp] theorem comeUp_mem (s : State) (bit : Nat) : (comeUp s bit).mem = s.mem := by simp [comeUp]
@[simp] theorem linkChange_mem (s : State) (f : Dev → Dev) : (linkChange s f).mem = s.mem := by simp [linkChange]
@[simp] theorem groupMember_mem (port num : Nat) (bridge : Bool) (s : State) :
    (groupMember port num bridge s).mem = s.mem := by simp [groupMember]
@[simp] theorem updPeer_mem (s : State) (part e : Nat) (f : PeerEntry → PeerEntry) :
    (updPeer s part e f).mem = s.mem := rfl
@[simp] theorem setSpdm_mem (s : State) (x : Spdm) : (setSpdm s x).mem = s.mem := rfl
theorem spdmAnswer_mem {f : State → State} (hf : ∀ s, (f s).mem = s.mem) (s : State) (slot : Nat) :
    (spdmAnswer s slot f).mem = s.mem := by
  unfold spdmAnswer
  split
  · exact hf _
  · rfl
theorem negotiating_mem {f : State → State} (hf : ∀ s, (f s).mem = s.mem) (s : State) (slot : Nat) :
    (negotiating s slot f).mem = s.mem :=
  spdmAnswer_mem (fun s => by split <;> simp [hf]) s slot
theorem negotiated_mem {f : State → State} (hf : ∀ s, (f s).mem = s.mem) (s : State) (slot : Nat) :
    (negotiated s slot f).mem = s.mem :=
  spdmAnswer_mem (fun s => by split <;> simp [hf]) s slot
@[simp] theorem withSignature_mem (s : State) (f : Nat → Answer) : (withSignature s f).mem = s.mem := rfl

/-! ### Mask -/

@[simp] theorem kwrite_mem (k : BitVec 6) (m : Word) (s : State) : (kwrite k m s).mem = s.mem := by
  unfold kwrite
  split <;> simp

/-! ### Schedule -/

@[simp] theorem tick_mem (s : State) : (tick s).mem = s.mem := by simp [tick]

end Sys2Proof.Machine
end

section
/-! SUPPORT. What writes memory keeps its canonical form (the obligation MemoryStaysCanonical): one lemma for each
operation on the state that may write a byte of memory, in the order of the model's files. -/

namespace Sys2Proof.Machine

open Sys2Proof (Instr Master)

/-- A choice between memories. -/
@[simp] theorem memWf_ite (c : Prop) [Decidable c] (a b : List Host.Cell) :
    memWf (if c then a else b) = true ↔ if c then memWf a = true else memWf b = true := by
  split <;> rfl

/-- A walk over a list each of whose steps keeps the canonical form keeps it. -/
@[simp] theorem memWf_foldl {α : Type} {f : State → α → State}
    (hf : ∀ s x, memWf s.mem = true → memWf (f s x).mem = true) (l : List α) {s : State} (h : memWf s.mem = true) :
    memWf (l.foldl f s).mem = true :=
  List.foldlRecOn (motive := fun s : State => memWf s.mem = true) l f h fun s h x _ => hf s x h

/-- Cells written one by one keep the canonical form. -/
theorem memWf_foldl_memWrite {α : Type} (k : α → Nat) (v : α → Byte) (l : List α) {m : List Host.Cell}
    (h : memWf m = true) : memWf (l.foldl (fun m x => memWrite m (k x) (v x)) m) = true :=
  List.foldlRecOn (motive := fun m => memWf m = true) l _ h fun m h _ _ => memWf_memWrite m _ _ h

/-- What a write of a field of a buffer's entry can do. (Unfolded as a constant: the kernel would evaluate `setKey`.) -/
theorem btPoke_cases : ∀ (s : State) (p : Part) (idx o n x : Nat),
    btPoke s p idx o n x = s ∨ ∃ k, btPoke s p idx o n x = (writeHome s k n x false).1 := by
  have e : @btPoke = @btPoke := rfl
  conv at e => rhs; delta btPoke
  rw [e]
  intro s p idx o n x
  beta_reduce
  generalize setKey p 0 4 (btAddr p idx + o) = k
  cases k with
  | none => exact .inl rfl
  | some k => exact .inr ⟨k, rfl⟩

/-- What a walk's access can do. (Unfolded as a constant: the kernel would evaluate `setKey`.) -/
theorem walkTouch_cases : ∀ (s : State) (p : Part) (a n : Nat),
    walkTouch s p a n = s ∨ ∃ k, walkTouch s p a n = combineAt s k n := by
  have e : @walkTouch = @walkTouch := rfl
  conv at e => rhs; delta walkTouch
  rw [e]
  intro s p a n
  beta_reduce
  generalize setKey p 0 4 a = k
  cases k with
  | none => exact .inl rfl
  | some k => exact .inr ⟨k, rfl⟩

section
variable {s : State} (h : memWf s.mem = true)
include h

/-! ### Coherence -/

@[simp] theorem memWf_storeAt {k size x : Nat} {poison : Bool} : memWf (storeAt s k size x poison).mem = true := by
  simp [storeAt, State.memWf_pokeN, h]
@[simp] theorem memWf_applyPartial {p : Partial} : memWf (applyPartial s p).mem = true := by simp [applyPartial, h]
@[simp] theorem memWf_combineLine {l : Nat} : memWf (combineLine s l).mem = true := by
  simp +contextual [combineLine, h]
@[simp] theorem memWf_evictU {core line : Nat} : memWf (evictU s core line).mem = true := by
  simp only [evictU]
  (repeat' split) <;> simp +contextual [h]
@[simp] theorem memWf_l1Room {core line : Nat} : memWf (l1Room s core line).mem = true := by simp [l1Room, h]
@[simp] theorem memWf_combineAt {k n : Nat} : memWf (combineAt s k n).mem = true := by
  simp +contextual [combineAt, h]
@[simp] theorem memWf_writeHome {k n v : Nat} {poison : Bool} : memWf (writeHome s k n v poison).1.mem = true := by
  simp [writeHome, h]

/-! ### Port -/

@[simp] theorem memWf_btPoke {p : Part} {idx o n x : Nat} : memWf (btPoke s p idx o n x).mem = true := by
  obtain e | ⟨k, e⟩ := btPoke_cases s p idx o n x
  · rw [e]; exact h
  · rw [e]; exact memWf_writeHome h
@[simp] theorem memWf_setBufState {p : Part} {idx st : Nat} : memWf (setBufState s p idx st).mem = true := by
  simp [setBufState, h]
@[simp] theorem memWf_walkTouch {p : Part} {a n : Nat} : memWf (walkTouch s p a n).mem = true := by
  obtain e | ⟨k, e⟩ := walkTouch_cases s p a n
  · rw [e]; exact h
  · rw [e]; exact memWf_combineAt h
@[simp] theorem memWf_noteCaches {core part idx off e : Nat} :
    memWf (noteCaches s core part idx off e).mem = true := by
  -- the walk is kept closed, so that the kernel does not evaluate `setKey`
  obtain ⟨walk, hwalk, hw⟩ : ∃ w, @walkTouch = w ∧
      ∀ {u : State} {p : Part} {a n : Nat}, memWf u.mem = true → memWf (w u p a n).mem = true :=
    ⟨_, rfl, fun h => memWf_walkTouch h⟩
  unfold noteCaches
  rw [hwalk]
  split
  · exact h
  · extract_lets _ s' _ _
    have h' : memWf s'.mem = true := by
      unfold s'
      split
      · exact h
      · exact hw h
    split
    · exact h'
    split
    · exact h'
    · exact hw h'
@[simp] theorem memWf_devTouch {part : Nat} {op : PortOp} {ptr size : Nat} :
    memWf (devTouch s part op ptr size).mem = true := by
  unfold devTouch
  split <;> simp [h]
@[simp] theorem memWf_devPut {k n v : Nat} : memWf (devPut s k n v).mem = true := by simp [devPut, h]
@[simp] theorem memWf_devStore {k n v : Nat} : memWf (devStore s k n v).mem = true := by simp [devStore, h]

/-! ### Pool -/

@[simp] theorem memWf_devTouchBlock {part : Nat} {op : PortOp} {ptr w n : Nat} :
    memWf (devTouchBlock s part op ptr w n).mem = true :=
  memWf_foldl (fun s i h => by split <;> simp [h]) _ (memWf_devTouch h)
@[simp] theorem memWf_touchAll {part : Nat} {rs : DevReads} : memWf (touchAll s part rs).mem = true := by
  simp +contextual [touchAll, h]
@[simp] theorem memWf_placeWrite {part ref : Nat} {bs : List Byte} {bad : List Nat} :
    memWf (placeWrite s part ref bs bad).mem = true := by
  refine memWf_foldl (fun s o h => ?_) _ (memWf_foldl (fun s i h => ?_) _ h)
  · split <;> simp [h]
  · split
    · split_ifs <;> simp [h]
    · exact h
@[simp] theorem memWf_placeTouch {part ref : Nat} : memWf (placeTouch s part ref).mem = true :=
  memWf_foldl (fun s i h => by split <;> simp [h]) _ h
@[simp] theorem memWf_writeRec {tid : Nat} : memWf (writeRec s tid).mem = true := by
  unfold writeRec
  split <;> simp [h]
@[simp] theorem memWf_flushRec {tid : Nat} : memWf (flushRec s tid).mem = true := by simp [flushRec, h]
@[simp] theorem memWf_loadRec {tid : Nat} : memWf (loadRec s tid).mem = true := by
  unfold loadRec
  split <;> simp [h]
@[simp] theorem memWf_flushAnnex {part ref : Nat} : memWf (flushAnnex s part ref).mem = true := by
  unfold flushAnnex
  split <;> simp [h]
@[simp] theorem memWf_loadAnnex {part ref : Nat} : memWf (loadAnnex s part ref).mem = true := by simp [loadAnnex, h]
@[simp] theorem memWf_reloadHeld {tid : Nat} : memWf (reloadHeld s tid).mem = true := by simp [reloadHeld, h]
@[simp] theorem memWf_deliverRec {tid : Nat} {ws : List (RegRef × Word)} :
    memWf (deliverRec s tid ws).mem = true := by simp [deliverRec, h]
@[simp] theorem memWf_deliverLane {tid own : Nat} {ws : List (RegRef × Word)} :
    memWf (deliverLane s tid own ws).mem = true := by simp [deliverLane, h]
@[simp] theorem memWf_meetStoreFault {tid : Nat} : memWf (meetStoreFault s tid).mem = true := by
  unfold meetStoreFault
  (repeat' split) <;> simp [h]
@[simp] theorem memWf_makeRec {tid : Nat} {i : RecInit} : memWf (makeRec s tid i).mem = true := by
  simp only [makeRec]
  split
  · exact h
  · simp only [checkWake_mem]
    refine memWf_meetStoreFault (memWf_writeRec ?_)
    simp only [State.updBoth_mem]
    (repeat' split) <;> simp [h]
theorem memWf_convert {part launch core : Nat} {ts : List (Nat × Nat)} {i : RecInit} {t : State}
    (e : convert s part launch core ts i = some t) : memWf t.mem = true := by
  obtain ⟨u, hu, rfl⟩ := Option.map_eq_some_iff.1 e
  exact memWf_foldl (fun _ _ h => memWf_makeRec h) _ (by rw [takeRoom_mem hu]; exact h)
@[simp] theorem memWf_splitOne {core slot : Nat} : memWf (splitOne s core slot).mem = true := by
  unfold splitOne
  split
  · exact h
  split
  · exact h
  split
  · next e => exact memWf_convert h e
  · exact h
@[simp] theorem memWf_splitWhile {core slot n : Nat} : memWf (splitWhile s core slot n).mem = true := by
  induction n generalizing s with
  | zero => exact h
  | succ n ih =>
    unfold splitWhile
    split
    · exact h
    · split_ifs
      · exact ih (memWf_splitOne h)
      · exact h

/-! ### Kill -/

@[simp] theorem memWf_bumpHold {part idx : Nat} {up : Bool} : memWf (bumpHold s part idx up).mem = true := by
  simp only [bumpHold]
  (repeat' split) <;> simp [h]
@[simp] theorem memWf_endHold {part launch : Nat} : memWf (endHold s part launch).mem = true := by
  simp only [endHold]
  (repeat' split) <;> simp +contextual [h]
@[simp] theorem memWf_decide' {part launch cast verdict : Nat} :
    memWf (decide' s part launch cast verdict).mem = true := by simp [decide', h]
@[simp] theorem memWf_dropFromAnnex {ref part : Nat} : memWf (dropFromAnnex s ref part).mem = true := by
  simp [dropFromAnnex, h]
@[simp] theorem memWf_dropRec {tid : Nat} : memWf (dropRec s tid).mem = true := by
  unfold dropRec
  split <;> simp [h]
@[simp] theorem memWf_endThread {tid : Nat} {killed : Bool} : memWf (endThread s tid killed).mem = true := by
  unfold endThread
  (repeat' split) <;> simp [h]
@[simp] theorem memWf_restartRun {c : Cast} : memWf (restartRun s c).mem = true := by
  simp +contextual [restartRun, h]
@[simp] theorem memWf_quarantineRuns {core : Nat} : memWf (quarantineRuns s core).mem = true := by
  simp +contextual [quarantineRuns, h]
@[simp] theorem memWf_addSusp {core pts : Nat} : memWf (addSusp s core pts).mem = true := by simp [addSusp, h]
@[simp] theorem memWf_judge {c : Cast} : memWf (judge s c).mem = true := by
  unfold judge
  split
  · exact h
  split
  · split_ifs <;> simp [h]
  · have h' : ∀ f, memWf ((decide' s c.part c.launch c.num 2).updLaunch c.part c.launch f).mem = true :=
      fun _ => memWf_decide' h
    dsimp only
    split_ifs
    · exact memWf_addSusp (memWf_decide' h)
    · exact memWf_addSusp (h' _)
    · exact memWf_addSusp (memWf_addSusp (memWf_addSusp (h' _)))
  · dsimp only
    refine memWf_endHold ?_
    split_ifs <;> simp [h]
  · exact h
@[simp] theorem memWf_castEnd {part launch cast : Nat} : memWf (castEnd s part launch cast).mem = true := by
  simp only [castEnd]
  (repeat' split) <;> simp [h]
@[simp] theorem memWf_checkCastEnd {part launch cast : Nat} :
    memWf (checkCastEnd s part launch cast).mem = true := by
  unfold checkCastEnd
  split <;> simp [h]
@[simp] theorem memWf_exitThread {tid : Nat} : memWf (exitThread s tid).mem = true := by
  unfold exitThread
  split <;> simp [h]
@[simp] theorem memWf_clearShares {part ptr : Nat} : memWf (clearShares s part ptr).mem = true :=
  memWf_foldl (fun s i h => by
    split
    · split_ifs <;> simp [h]
    · simp [h]) _ h
@[simp] theorem memWf_freeChanged {part launch g : Nat} : memWf (freeChanged s part launch g).mem = true := by
  unfold freeChanged
  split
  · exact h
  · simp only [checkWakes_mem, State.updPart_mem]
    refine memWf_foldl (fun s b h => ?_) _ h
    split_ifs <;> simp [h]
@[simp] theorem memWf_killGang {part launch g : Nat} : memWf (killGang s part launch g).mem = true := by
  unfold killGang
  split
  · exact h
  · dsimp only
    refine memWf_endHold ?_
    simp only [State.updLaunch_mem]
    refine memWf_freeChanged ?_
    rw [killEngines_mem, holdRanges_mem]
    exact memWf_foldl (fun _ _ h => memWf_endThread h) _ h
@[simp] theorem memWf_clearFaultRing {p : Part} : memWf (clearFaultRing s p).mem = true :=
  memWf_foldl (fun s i h => by
    split
    · split_ifs <;> simp [h]
    · simp [h]) _ h
@[simp] theorem memWf_resetPart {part : Nat} : memWf (resetPart s part).mem = true := by
  unfold resetPart
  split
  · exact h
  · exact (memWf_filter _ _ (memWf_clearFaultRing h)).1
@[simp] theorem memWf_settlePart {p : Part} : memWf (settlePart s p).mem = true := by simp [settlePart, h]
@[simp] theorem memWf_settleReady : memWf (settleReady s).mem = true := by
  simp +contextual [settleReady, h]
@[simp] theorem memWf_clearReadyFrom {slot bit : Nat} : memWf (clearReadyFrom s slot bit).mem = true := by
  simp [clearReadyFrom, h]
@[simp] theorem memWf_killRegion {part number : Nat} : memWf (killRegion s part number).mem = true :=
  memWf_foldl (fun _ _ h => memWf_foldl (fun _ _ h => memWf_killGang h) _ h) _ h
@[simp] theorem memWf_applyAction {part launch g : Nat} {rs : List Region} :
    memWf (applyAction s part launch g rs).mem = true := by
  induction rs with
  | nil => exact memWf_resetPart h
  | cons r rs ih =>
    unfold applyAction
    split
    · exact memWf_killGang h
    · exact memWf_killRegion h
    · exact ih
@[simp] theorem memWf_escalate {part launch g : Nat} : memWf (escalate s part launch g).mem = true := by
  unfold escalate
  split <;> simp [h]
@[simp] theorem memWf_escalateThread {tid : Nat} : memWf (escalateThread s tid).mem = true := by
  unfold escalateThread
  (repeat' split) <;> simp [h]
@[simp] theorem memWf_killThreadGang {tid : Nat} : memWf (killThreadGang s tid).mem = true := by
  unfold killThreadGang
  (repeat' split) <;> simp [h]

/-! ### Ops -/

theorem memWf_postFault {part slot src ty cluster buf off launch pc lanes done region : Nat} {iter : List Nat}
    {x : State × Nat × Nat}
    (e : postFault s part slot src ty cluster buf off launch pc lanes done region iter = some x) :
    memWf x.1.mem = true := by
  unfold postFault at e
  split at e
  · cases e
  split at e
  · cases e
  split_ifs at e
  cases e
  exact memWf_devStore h
@[simp] theorem memWf_placeLanes {core slot : Nat} {pc : Word} {prio : BitVec 4} {mask : Word} {buf : Nat} :
    memWf (placeLanes s core slot pc prio mask buf).mem = true := by simp [placeLanes, h]
@[simp] theorem memWf_trapControl {slot : Nat} {pc : Word} {prio : BitVec 4} {code : TrapCode} {info : DWord} :
    memWf (trapControl s slot pc prio code info).mem = true := by
  simp only [trapControl]
  (repeat' split) <;> simp [h]
@[simp] theorem memWf_enterTrap {core slot : Nat} {pc : Word} {prio : BitVec 4} {from' : Nat} {k : LaneTrap} :
    memWf (enterTrap s core slot pc prio from' k).mem = true := by
  unfold enterTrap
  (repeat' split) <;> simp [h]
@[simp] theorem memWf_recordOrStall {core slot lane tid : Nat} {i : RecInit} :
    memWf (recordOrStall s core slot lane tid i).mem = true := by
  unfold recordOrStall
  split
  · exact h
  simp only []
  split
  · next e =>
    split_ifs at e
    exact memWf_convert h e
  · exact h
theorem memWf_postPage {core tid : Nat} {pc done lanes : Word} {f : Nat × Nat × Nat × Nat} {ks : List LaneTrap}
    {x : State × Nat × Nat} (e : postPage s core tid pc done lanes f ks = some x) : memWf x.1.mem = true :=
  memWf_postFault h e
@[simp] theorem memWf_postOthers {core : Nat} {pc done : Word} {all ks : List LaneTrap} :
    memWf (postOthers s core pc done all ks).mem = true := by
  refine List.foldlRecOn (motive := fun acc : State × List (Nat × Nat) => memWf acc.1.mem = true) ks _ h fun a h k _ =>
    List.foldlRecOn (motive := fun acc : State × List (Nat × Nat) => memWf acc.1.mem = true) k.also _ h
      fun a h f _ => ?_
  split_ifs
  · exact h
  · cases e : postPage a.1 core k.tid pc done 0 f all with
    | none => simpa using h
    | some x => exact memWf_postPage h e
@[simp] theorem memWf_takePages {core slot : Nat} {e : Entry} {pc done : Word} {ks : List LaneTrap} {n : Nat} :
    memWf (takePages s core slot e pc done ks n).mem = true := by
  induction n generalizing s ks with
  | zero => exact h
  | succ n ih =>
    unfold takePages
    split
    · exact h
    split
    · exact h
    · refine ih ?_
      split
      · next e => exact memWf_foldl (fun _ _ h => by simpa using h) _ (memWf_postPage h e)
      · exact memWf_foldl (fun _ _ h => memWf_recordOrStall h) _ (by simpa using h)
@[simp] theorem memWf_takeKill {core : Nat} {k : LaneTrap} : memWf (takeKill s core k).mem = true := by
  simp [takeKill, h]
@[simp] theorem memWf_takeTraps {core slot : Nat} {e : Entry} {pc done : Word} {ks : List LaneTrap} :
    memWf (takeTraps s core slot e pc done ks).mem = true := by
  unfold takeTraps
  split
  · split
    · exact memWf_trapControl h
    · exact h
  · have hr : ∀ {l : List LaneTrap} {i : LaneTrap → RecInit} {s : State}, memWf s.mem = true →
        memWf (l.foldl (fun s k => recordOrStall s core slot k.lane k.tid (i k)) s).mem = true :=
      fun h => memWf_foldl (fun _ _ h => memWf_recordOrStall h) _ h
    exact memWf_foldl (fun _ _ h => memWf_takeKill h) _ (memWf_foldl (fun _ _ h => memWf_enterTrap h) _
      (hr (memWf_postOthers (memWf_takePages (hr h)))))
@[simp] theorem memWf_endLane {core slot : Nat} {prio : BitVec 4} {x : Nat × EndAct} :
    memWf (endLane core slot prio s x).mem = true := by
  unfold endLane
  split <;> simp [h]
@[simp] theorem memWf_closeGroup : memWf (closeGroup s).mem = true := by
  unfold closeGroup
  split
  · simp only [State.updCur_mem, freePour_mem]
    refine memWf_splitWhile (memWf_takeTraps (memWf_foldl (fun _ _ h => memWf_endLane h) _ ?_))
    split_ifs <;> simpa using h
  · exact h
@[simp] theorem memWf_stallGroup {w : Wait} : memWf (stallGroup s w).mem = true := by
  unfold stallGroup
  split <;> simp [h]
/-- A word keeps the canonical form when what it leaves behind at its first try and its effect keep it. -/
theorem memWf_runWord {hd : Hdr} {sem : Sem} (hpre : ∀ s, memWf s.mem = true → memWf (sem.pre s).mem = true)
    (heff : ∀ s, memWf s.mem = true → memWf (sem.eff s).mem = true) : memWf (runWord hd sem s).mem = true := by
  have hclose : ∀ u, memWf u.mem = true → memWf (closeGroup (sem.eff (keepStall hd u))).mem = true := fun u hu =>
    memWf_closeGroup (heff _ (by simpa using hu))
  unfold runWord
  split
  · simpa using h
  · simp only []
    split
    · exact hpre s h
    · exact hpre s h
  · exact heff _ (by simpa using h)
  · simp only [State.ite_mem, memWf_ite]
    have h1 : memWf (dropTrapped (noteWord sem s)).mem = true := by simpa using h
    split_ifs
    · exact memWf_closeGroup h1
    · split
      · exact memWf_stallGroup (hpre _ h1)
      · exact hclose _ (hpre _ h1)
/-- A word without a first try of its own. -/
theorem memWf_runWord_eff {hd : Hdr} {sem : Sem} (hpre : ∀ s, sem.pre s = s)
    (heff : ∀ s, memWf s.mem = true → memWf (sem.eff s).mem = true) : memWf (runWord hd sem s).mem = true :=
  memWf_runWord h (fun s h => by rw [hpre]; exact h) heff

/-! ### Flags -/

@[simp] theorem memWf_fixedV {hd : Hdr} {lat : Nat} {d : Reg} {f : Nat → Thread → Word} :
    memWf (fixedV hd lat d f s).mem = true :=
  memWf_runWord_eff h (fun _ => rfl) fun _ h => h
@[simp] theorem memWf_fixedW {hd : Hdr} {lat : Nat} {d : PairNo} {f : Nat → Thread → DWord} :
    memWf (fixedW hd lat d f s).mem = true :=
  memWf_runWord_eff h (fun _ => rfl) fun _ h => h
@[simp] theorem memWf_fixedP {hd : Hdr} {lat : Nat} {p : PredNo} {f : Nat → Thread → Bool} :
    memWf (fixedP hd lat p f s).mem = true :=
  memWf_runWord_eff h (fun _ => rfl) fun _ h => h
@[simp] theorem memWf_varV {hd : Hdr} {d : Reg} {f : Nat → Thread → Word} : memWf (varV hd d f s).mem = true :=
  memWf_runWord_eff h (fun _ => rfl) fun _ h => h
@[simp] theorem memWf_alu1 {hd : Hdr} {lat : Nat} {d a : Reg} {f : Word → Word} :
    memWf (alu1 hd lat d a f s).mem = true := by simp [alu1, h]
@[simp] theorem memWf_alu2 {hd : Hdr} {lat : Nat} {d a b : Reg} {f : Word → Word → Word} :
    memWf (alu2 hd lat d a b f s).mem = true := by simp [alu2, h]
@[simp] theorem memWf_alu3 {hd : Hdr} {lat : Nat} {d a b c : Reg} {f : Word → Word → Word → Word} :
    memWf (alu3 hd lat d a b c f s).mem = true := by simp [alu3, h]
@[simp] theorem memWf_select {hd : Hdr} {d : Reg} {p : PredNo} {a b : Reg} :
    memWf (select hd d p a b s).mem = true := by simp [select, h]
@[simp] theorem memWf_compare {hd : Hdr} {p : PredNo} {a b : Reg} {f : Word → Word → Bool} :
    memWf (compare hd p a b f s).mem = true := by simp [compare, h]
@[simp] theorem memWf_compareW {hd : Hdr} {p : PredNo} {a b : PairNo} {f : DWord → DWord → Bool} :
    memWf (compareW hd p a b f s).mem = true := by simp [compareW, h]
@[simp] theorem memWf_test {hd : Hdr} {p : PredNo} {a : Reg} {f : Word → Bool} :
    memWf (test hd p a f s).mem = true := by simp [test, h]

/-! ### Access -/

@[simp] theorem memWf_grantLease {core line code : Nat} {strm : Bool} :
    memWf (grantLease s core line code strm).mem = true := by simp [grantLease, h]
@[simp] theorem memWf_leaseAfter {a : Acc} {wants : Bool} : memWf (leaseAfter s a wants).mem = true := by
  simp [leaseAfter, h]
@[simp] theorem memWf_sendLane {seq : Nat} {lane : Nat} {t : Thread} {a : Ask} :
    memWf (sendLane seq s lane t a).mem = true := by
  unfold sendLane
  split
  · exact h
  dsimp only
  split
  · simp only [State.ite_mem, memWf_ite, State.bumpId_mem, injected_mem, addDigest_mem]
    split_ifs <;> exact h
  · next p _ _ e k _ =>
    have h' := @memWf_noteCaches s h s.cur.core p.first a.idx a.off e
    generalize noteCaches s s.cur.core p.first a.idx a.off e = s' at h' ⊢
    simp only [State.ite_mem, memWf_ite]
    (repeat' split) <;> simp [h']
@[simp] theorem memWf_sendAll {f : Nat → Thread → Ask} : memWf (sendAll f s).mem = true :=
  memWf_foldl (fun _ _ h => by split <;> simp [h]) _ h
@[simp] theorem memWf_accessWord {hd : Hdr} {f : Nat → Thread → Ask} : memWf (accessWord hd f s).mem = true :=
  memWf_runWord_eff h (fun _ => rfl) fun _ h => memWf_sendAll h
@[simp] theorem memWf_releaseWord {hd : Hdr} {scope : Nat} {f : Nat → Thread → Ask} :
    memWf (releaseWord hd scope f s).mem = true :=
  memWf_runWord_eff h (fun _ => rfl) fun _ h => memWf_sendAll h

/-! ### Service -/

@[simp] theorem memWf_fltFail {part fid : Nat} : memWf (fltFail s part fid).mem = true := by
  simp +contextual [fltFail, h]
@[simp] theorem memWf_setSysState {p : Part} {ix st : Nat} : memWf (setSysState s p ix st).mem = true := by
  unfold setSysState
  split <;> simp [h]
@[simp] theorem memWf_sysReply {part ix : Nat} : memWf (sysReply s part ix).mem = true := by
  unfold sysReply
  split
  · exact h
  split
  · exact h
  split
  · exact h
  · have h' := @memWf_setSysState s h
    dsimp only
    split
    · simp [h']
    · exact memWf_foldl (fun _ _ h => by simpa using h) _ h'
@[simp] theorem memWf_releaseRecs {rs : List Rec} : memWf (releaseRecs s rs).mem = true :=
  memWf_foldl (fun s r h => by
    simp only [State.ite_mem, memWf_ite, enterLadle_mem, checkWake_mem, State.updRec_mem]
    split_ifs <;> simp [h]) _ h
@[simp] theorem memWf_rechold {part : Nat} {hold : Bool} {ref : Nat} :
    memWf (rechold s part hold ref).mem = true := by simp [rechold, h]

/-! ### Engine -/

@[simp] theorem memWf_giveToken {ts : List (Nat × Reg)} {w : Word} : memWf (giveToken s ts w).mem = true := by
  simp +contextual [giveToken, h]
theorem memWf_engTouch {g : Eng} {idx n : Nat} {os : List Nat} {t : State} (e : engTouch g idx n os s = some t) :
    memWf t.mem = true := by
  induction os generalizing s with
  | nil => cases e; exact h
  | cons o os ih =>
    unfold engTouch at e
    split at e
    · exact ih h e
    · obtain ⟨u, hu, e⟩ := Option.bind_eq_some_iff.1 e
      refine ih ?_ e
      rw [← rowGo_mem hu] at h
      split_ifs <;> simp [h]

/-! ### Csr -/

@[simp] theorem memWf_partCsrWrite {core : Nat} {t : Thread} {p : Part} {r : BitVec 12} {v : DWord} :
    memWf (partCsrWrite s core t p r v).mem = true := by
  unfold partCsrWrite
  split <;> simp [h]
@[simp] theorem memWf_csrWrite {core : Nat} {t : Thread} {r : BitVec 12} {v : DWord} :
    memWf (csrWrite s core t r v).mem = true := by
  unfold csrWrite
  (repeat' split) <;> simp [h]
@[simp] theorem memWf_csrStore {hd : Hdr} {mode : Nat} {v : Reg} {r : BitVec 12} {f : DWord → DWord → DWord} :
    memWf (csrStore hd mode v r f s).mem = true :=
  memWf_runWord_eff h (fun _ => rfl) fun _ h => memWf_foldl (fun _ _ h => by split <;> simp [h]) _ h

/-! ### System -/

@[simp] theorem memWf_pieceNote {lane : Nat} {t : Thread} {ptr : Nat} :
    memWf (pieceNote lane t s ptr).mem = true := by
  unfold pieceNote
  (repeat' split) <;> simp [h]
@[simp] theorem memWf_blockNote {lane : Nat} {t : Thread} {ptr n : Nat} :
    memWf (blockNote s lane t ptr n).mem = true := by
  simp only [blockNote]
  (repeat' split) <;> simp +contextual [h]
@[simp] theorem memWf_holdBlock {lane : Nat} {t : Thread} {ptr n : Nat} {bad : Bool} :
    memWf (holdBlock s lane t ptr n bad).mem = true := by simp [holdBlock, h]
@[simp] theorem memWf_launchLane {word : Nat} {d : Reg} {a : PairNo} {x : Nat × Nat} :
    memWf (launchLane word d a s x).mem = true := by
  unfold launchLane
  split <;> simp [h]

/-! ### Copy -/

theorem memWf_getD {o : Option State} (ho : ∀ t, o = some t → memWf t.mem = true) : memWf (o.getD s).mem = true := by
  cases o with
  | none => exact h
  | some t => exact ho t rfl
theorem memWf_sharePut {part e i x : Nat} {t : State} (he : sharePut s part e i x = some t) : memWf t.mem = true := by
  unfold sharePut at he
  split at he
  · cases he; exact memWf_writeHome h
  · cases he
@[simp] theorem memWf_touchShares {part buf : Nat} {i : Option Nat} :
    memWf (touchShares s part buf i).mem = true := by
  unfold touchShares
  (repeat' split) <;> simp [h]
theorem memWf_armShares {part e : Nat} {shares : List Nat} {t : State} (he : armShares s part e shares = some t) :
    memWf t.mem = true := by
  refine List.foldlRecOn (motive := fun o : Option State => ∀ u, o = some u → memWf u.mem = true) _ _ ?_ ?_ t he
  · rintro u ⟨⟩; exact h
  · intro o ho i _ u hu
    obtain ⟨v, hv, hu⟩ := Option.bind_eq_some_iff.1 hu
    exact memWf_sharePut (ho v hv) hu
@[simp] theorem memWf_changeState {p : Part} {buf st : Nat} : memWf (changeState s p buf st).mem = true := by
  simp [changeState, h]
@[simp] theorem memWf_bufOpTouch {b : BufOp} : memWf (bufOpTouch s b).mem = true := by
  unfold bufOpTouch
  split <;> simp [h]
@[simp] theorem memWf_copyPre {a : PairNo} {b : Reg} : memWf (copyPre a b s).mem = true := by
  unfold copyPre
  split <;> simp [h]
@[simp] theorem memWf_copyEff {d : Reg} {a : PairNo} {b : Reg} : memWf (copyEff d a b s).mem = true := by
  unfold copyEff
  split <;> simp [h]
@[simp] theorem memWf_stateWord {hd : Hdr} {right : Nat → Bool} {a : Reg} {k : BufOpKind} :
    memWf (stateWord hd right a k s).mem = true :=
  memWf_runWord h (fun s h => by rw [sendBufOp_mem s]; exact h) fun s h => by rw [dropBufOp_mem s]; exact h
@[simp] theorem memWf_holdArm {b : PairNo} : memWf (holdArm s b).mem = true := by
  unfold holdArm
  split <;> simp [h]
@[simp] theorem memWf_bwaitWord {hd : Hdr} {a : Reg} {want : Nat} : memWf (bwaitWord hd a want s).mem = true :=
  memWf_runWord_eff h (fun _ => rfl) fun _ h => h

/-! ### MemEvents -/

@[simp] theorem memWf_readNow {a : Acc} : memWf (readNow s a).mem = true := by simp [readNow, h]
@[simp] theorem memWf_storeNow {a : Acc} : memWf (storeNow s a).mem = true := by simp [storeNow, h]
@[simp] theorem memWf_rmwNow {a : Acc} {op : RmwOp} : memWf (rmwNow s a op).mem = true := by simp [rmwNow, h]
@[simp] theorem memWf_performAt {a : Acc} : memWf (performAt s a).mem = true := by
  unfold performAt
  split <;> simp [h]
@[simp] theorem memWf_homeReadDo {a : Acc} : memWf (homeReadDo s a).mem = true := by simp [homeReadDo, h]
@[simp] theorem memWf_homeWriteDo {a : Acc} {k : Nat} : memWf (homeWriteDo s a k).mem = true := by
  simp only [homeWriteDo]
  (repeat' split) <;> simp [h]
@[simp] theorem memWf_markResult {r : PendRes} {due : List (RegRef × Word)} {own : Nat} :
    memWf (markResult s r due own).mem = true := by simp [markResult, h]
@[simp] theorem memWf_loadResponse {a : Acc} {x : Nat × Bool} : memWf (loadResponse s a x).mem = true := by
  simp only [loadResponse]
  (repeat' split) <;> simp [h]
@[simp] theorem memWf_grantCopy {core line : Nat} : memWf (grantCopy s core line).mem = true := by
  simp only [grantCopy]
  (repeat' split) <;> simp [h]
theorem memWf_postStoreFault {a : Acc} {x : State × Nat × Nat} (e : postStoreFault s a = some x) :
    memWf x.1.mem = true := memWf_postFault h e
@[simp] theorem memWf_faultStore {a : Acc} : memWf (faultStore s a).mem = true := by
  unfold faultStore
  split
  · next u _ _ e =>
    have h' : memWf u.mem = true := memWf_postStoreFault h e
    dsimp only
    split
    · exact memWf_meetStoreFault (by simpa using h')
    · exact h'
  · simpa using h

/-! ### Runner -/

@[simp] theorem memWf_runEff {d : Reg} {a : PairNo} : memWf (runEff d a s).mem = true := by
  unfold runEff
  split <;> simp [h]

/-! ### Tile -/

@[simp] theorem memWf_writeProduct {t : Tile} {xs : List (Nat × Nat × Nat)} :
    memWf (writeProduct s t xs).mem = true := by
  simp +contextual [writeProduct, h]
@[simp] theorem memWf_loopEff {gang : Bool} {d a : Reg} {b : PairNo} : memWf (loopEff gang d a b s).mem = true := by
  unfold loopEff
  split <;> simp [h]
@[simp] theorem memWf_loopWord {gang : Bool} {hd : Hdr} {d a : Reg} {b : PairNo} :
    memWf (loopWord gang hd d a b s).mem = true :=
  memWf_runWord h (fun _ h => by dsimp only; split <;> simp [h]) fun _ h => memWf_loopEff h

/-! ### EngineEvents -/

theorem memWf_touchSource {c : CopyOp} {n : Nat} {t : State} (e : touchSource s c n = some t) : memWf t.mem = true := by
  unfold touchSource at e
  dsimp only at e
  split at e <;> exact memWf_engTouch h e
theorem memWf_destElem {c : CopyOp} {kind n x : Nat} {poison : Bool} {r : State × Nat}
    (e : destElem s c kind n x poison = .ok r) : memWf r.1.mem = true := by
  unfold destElem at e
  dsimp only at e
  split at e
  · cases e
    exact memWf_foldl (fun _ _ h => memWf_storeAt h) _ h
  split at e
  · cases e
  split at e
  · cases e; exact h
  split at e
  · cases e
  · next hu =>
    cases e
    rw [← rowGo_mem hu] at h
    refine memWf_writeHome ?_
    split_ifs <;> simp [h]
theorem memWf_moveElems {c : CopyOp} {kind : Nat} {out : List (Byte × Bool) × StreamEnd} {fuel n g : Nat} :
    memWf (moveElems c kind out fuel s n g).1.mem = true := by
  induction fuel generalizing s n g with
  | zero => exact h
  | succ fuel ih =>
    unfold moveElems
    split
    · exact h
    split
    · exact h
    · next e =>
      split at e
      · next hu => exact ih (memWf_destElem (memWf_touchSource h hu) e)
      · cases e
@[simp] theorem memWf_moveCopy {c : CopyOp} : memWf (moveCopy s c).1.mem = true := memWf_moveElems h
@[simp] theorem memWf_endToken {ts : List (Nat × Reg)} {w : Word} : memWf (endToken s ts w).mem = true := by
  simp [endToken, h]
@[simp] theorem memWf_settleShare {c : CopyOp} {ok : Bool} : memWf (settleShare s c ok).mem = true := by
  unfold settleShare
  split
  · exact h
  extract_lets e s'
  have h' : memWf s'.mem = true := by
    unfold s'
    split_ifs <;> simp [h]
  clear_value s'
  split
  · exact h'
  split
  · exact h'
  extract_lets y s''
  have h'' : memWf s''.mem = true := memWf_getD h' fun _ e => memWf_sharePut h' e
  split_ifs <;> exact h''
@[simp] theorem memWf_endCopy {c : CopyOp} {status info : Nat} : memWf (endCopy s c status info).mem = true := by
  simp [endCopy, h]
@[simp] theorem memWf_runCopy {c : CopyOp} : memWf (runCopy s c).mem = true := by
  unfold runCopy
  split
  · simpa using h
  split
  · simp [h]
  split
  · simp [h]
  · have h' : memWf (takePlace s c).1.mem = true := by rw [takePlace_mem]; exact h
    generalize takePlace s c = x at h' ⊢
    obtain ⟨s', c'⟩ := x
    have hm := @memWf_moveCopy s' h' c'
    dsimp only
    split
    · exact hm
    · exact hm
    · exact memWf_endCopy (by simpa using hm)
    · simp only [State.ite_mem, memWf_ite]
      split_ifs <;> simp [hm]
theorem memWf_performBufOp {b : BufOp} {r : State × Bool} (e : performBufOp s b = .ok r) : memWf r.1.mem = true := by
  -- the entry and the change of its state are kept closed, so that the kernel does not evaluate `setKey`
  obtain ⟨change, hchange, hc⟩ : ∃ f, @changeState = f ∧
      ∀ {u : State} {p : Part} {b n : Nat}, memWf u.mem = true → memWf (f u p b n).mem = true :=
    ⟨_, rfl, fun h => memWf_changeState h⟩
  obtain ⟨bt, hbt⟩ : ∃ f, @btMem = f := ⟨_, rfl⟩
  unfold performBufOp at e
  rw [hchange, hbt] at e
  split at e
  · cases e
  dsimp only at e
  split at e
  · split at e
    · cases e
    split at e
    · cases e
    · next ha =>
      cases e
      have h' := memWf_armShares h ha
      rw [noteChanged_mem]
      exact hc h'
  · split at e
    · cases e; exact h
    split at e
    · cases e
    split at e
    · cases e
    split at e
    · cases e
    split at e
    · cases e
    split at e
    · next hp => cases e; exact memWf_sharePut h hp
    · cases e
  · split at e <;> cases e
    rw [noteChanged_mem]
    exact hc h
  · split at e <;> cases e
    exact hc h
@[simp] theorem memWf_issueCopy {c : CopyOp} : memWf (issueCopy s c).mem = true := by
  unfold issueCopy
  dsimp only
  split
  · simp [h]
  split
  · simp [h]
  split
  · exact h
  split
  · exact h
  split
  · next e => exact memWf_performBufOp (memWf_bufOpTouch h) e
  · simp [h]
@[simp] theorem memWf_endRunner {r : Runner} {status : Nat} : memWf (endRunner s r status).mem = true := by
  simp [endRunner, h]
@[simp] theorem memWf_runRunner {r : Runner} : memWf (runRunner s r).mem = true := by
  unfold runRunner
  split
  · exact memWf_endRunner h
  split
  · exact memWf_endRunner h
  dsimp only
  split
  · have h' := @memWf_endRunner s h r 0
    split
    · exact memWf_escalate h'
    · exact h'
  split
  · simpa using h
  split
  · split_ifs <;> simp [h]
  split
  · next hu =>
    have h' := memWf_engTouch h hu
    split_ifs <;> simp [h']
  · exact h
@[simp] theorem memWf_zeroBytes {k n : Nat} : memWf (zeroBytes s k n).mem = true := memWf_memClear _ _ _ h
@[simp] theorem memWf_zeroTile {o : TileOp} {d : Reg} : memWf (zeroTile s o d).mem = true := by
  simp only [zeroTile]
  (repeat' split) <;> simp +contextual [h]
@[simp] theorem memWf_storeTile {o : TileOp} {es : List (Nat × Word × Word)} :
    memWf (storeTile s o es).mem = true := by
  simp only [storeTile]
  (repeat' split) <;> simp +contextual [h]
@[simp] theorem memWf_arriveTile {o : TileOp} : memWf (arriveTile s o).mem = true := by
  unfold arriveTile
  split <;> simp [h]
@[simp] theorem memWf_killOp {o : TileOp} : memWf (killOp s o).mem = true := by
  unfold killOp
  split <;> simp [h]
@[simp] theorem memWf_protectOp {o : TileOp} : memWf (protectOp s o).mem = true := by simp [protectOp, h]
@[simp] theorem memWf_runMma {o : TileOp} : memWf (runMma s o).mem = true := by
  simp only [runMma]
  (repeat' split) <;> simp [h]
theorem memWf_stepTouch {o : TileOp} {t : State} (e : stepTouch s o = some t) : memWf t.mem = true := by
  obtain ⟨u, hu, e⟩ := Option.bind_eq_some_iff.1 e
  have h' := memWf_engTouch h hu
  split at e
  · exact memWf_engTouch h' e
  · cases e; exact h'
@[simp] theorem memWf_endLoop {o : TileOp} : memWf (endLoop s o).mem = true := by simp [endLoop, h]
@[simp] theorem memWf_trapLoop {o : TileOp} {code : TrapCode} : memWf (trapLoop s o code).mem = true := by
  simp +contextual [trapLoop, h]
theorem memWf_loopStep {o : TileOp} {t : Tile} {u : State} (e : loopStep s o t = .ok u) : memWf u.mem = true := by
  unfold loopStep at e
  split at e
  · cases e
  · cases e
  · next hs =>
    split at e
    · cases e
    split at e
    · cases e
      exact memWf_writeProduct (memWf_stepTouch h hs)
    · cases e
@[simp] theorem memWf_runLoop {o : TileOp} : memWf (runLoop s o).mem = true := by
  unfold runLoop
  split
  · exact memWf_trapLoop h
  split
  · exact memWf_endLoop h
  split
  · simpa using h
  split
  · exact h
  · exact h
  · split_ifs
    · exact memWf_trapLoop (memWf_addSusp h)
    · exact memWf_trapLoop h
  · next e =>
    have h' := memWf_loopStep h e
    dsimp only
    split
    · exact memWf_endLoop (by simpa using h')
    · simpa using h'
@[simp] theorem memWf_postEngine {id : Nat} {f : EngFault} : memWf (postEngine s id f).mem = true := by
  unfold postEngine
  split
  · next e => simpa using memWf_postFault h e
  · simpa using h

/-! ### Issue -/

@[simp] theorem memWf_fetchNote {core : Nat} {e : Entry} {lanes : List (Nat × Thread)} :
    memWf (fetchNote s core e lanes).mem = true :=
  memWf_foldl (fun _ _ h => by split <;> simp [h]) _ h

/-! ### RecordEvents -/

theorem memWf_convertLanes {p : Pour} {ts : List (Nat × Nat)} {f : Nat → RecInit} {t : State}
    (e : convertLanes s p ts f = some t) : memWf t.mem = true := by
  obtain ⟨u, hu, rfl⟩ := Option.map_eq_some_iff.1 e
  exact memWf_foldl (fun _ _ h => memWf_makeRec h) _ (by rw [takeRoom_mem hu]; exact h)
@[simp] theorem memWf_expireStall {p : Pour} {i : Nat} {e : Entry} {st : Stall} :
    memWf (expireStall s p i e st).mem = true := by
  unfold expireStall
  split
  · next e => exact memWf_convertLanes h e
  · exact h
theorem memWf_annexPour {p : Pour} {ps : Bool} {t : State} (e : annexPour s p ps = some t) : memWf t.mem = true := by
  unfold annexPour at e
  dsimp only at e
  split at e
  · cases e
  · obtain ⟨u, hu, rfl⟩ := Option.map_eq_some_iff.1 e
    rw [← takeRoom_mem hu] at h
    refine memWf_flushAnnex ?_
    exact memWf_foldl (fun _ _ h => memWf_makeRec h) _ h
@[simp] theorem memWf_preemptPour {p : Pour} : memWf (preemptPour s p).mem = true := by
  unfold preemptPour
  split
  · next e => exact memWf_annexPour h e
  · split_ifs <;> exact h
@[simp] theorem memWf_convertWaiting {x : Waiting} {p : Pour} : memWf (convertWaiting s x p).mem = true := by
  unfold convertWaiting
  split
  · exact memWf_getD h fun _ e => memWf_annexPour h e
  split
  · exact h
  dsimp only
  split
  · exact memWf_getD h fun _ e => memWf_convertLanes h e
  · exact memWf_getD h fun _ e => memWf_convertLanes h e
  · exact h
@[simp] theorem memWf_askRoom {w : Waiting} : memWf (askRoom s w).mem = true := by
  unfold askRoom
  split <;> simp [h]
@[simp] theorem memWf_drainLadle {l : Ladle} {x : Launch} {core : Nat} :
    memWf (drainLadle s l x core).mem = true := by simp [drainLadle, h]
@[simp] theorem memWf_noteLoop {tid : Nat} : memWf (noteLoop s tid).mem = true := by
  unfold noteLoop
  split <;> simp [h]
@[simp] theorem memWf_stopEngines {part : Nat} {f : Nat → Bool} : memWf (stopEngines s part f).mem = true := by
  simp +contextual [stopEngines, h]
@[simp] theorem memWf_resumeLoop {r : Rec} : memWf (resumeLoop s r).mem = true := by
  simp only [resumeLoop]
  (repeat' split) <;> simp [h]
@[simp] theorem memWf_resumeLoops {part vf : Nat} : memWf (resumeLoops s part vf).mem = true := by
  simp +contextual [resumeLoops, h]
@[simp] theorem memWf_startEngines {part vf : Nat} : memWf (startEngines s part vf).mem = true := by
  simp [startEngines, h]
@[simp] theorem memWf_arriveRecs {r : Rec} {cluster : Nat} : memWf (arriveRecs s r cluster).mem = true := by
  simp only [arriveRecs]
  (repeat' split) <;> simp +contextual [h]
@[simp] theorem memWf_startPreempt {part vf next : Nat} : memWf (startPreempt s part vf next).mem = true := by
  simp [startPreempt, h]
@[simp] theorem memWf_startPreq {p : Part} {vf : Nat} : memWf (startPreq s p vf).mem = true := by simp [startPreq, h]
@[simp] theorem memWf_finishPreq {p : Part} {vf : Nat} : memWf (finishPreq s p vf).mem = true := by
  unfold finishPreq
  split
  · exact h
  · rw [settleMove_mem]
    refine memWf_foldl (fun s x h => ?_) _ (by simpa using h)
    dsimp only
    split <;> simp [h]
@[simp] theorem memWf_passSlice {part vf next : Nat} : memWf (passSlice s part vf next).mem = true := by
  simp only [passSlice]
  (repeat' split) <;> simp [h]
@[simp] theorem memWf_copyPiece {src dst : Nat} : memWf (copyPiece s src dst).mem = true := by
  unfold copyPiece
  extract_lets s' marks
  have h' : memWf s'.mem = true := by simp [s', h]
  clear_value s'
  dsimp only
  exact memWf_memWriteBytes _ _ _ h'
@[simp] theorem memWf_copyPieces {src dst : Nat → Option Nat} {n : Nat} :
    memWf (copyPieces src dst n s).mem = true := by
  induction n with
  | zero => exact h
  | succ n ih =>
    unfold copyPieces
    dsimp only
    split
    · refine memWf_copyPiece ?_
      split_ifs <;> simp [ih]
    · exact ih
@[simp] theorem memWf_moveBytes {src dst n : Nat} : memWf (moveBytes s src dst n).mem = true :=
  memWf_foldl_memWrite _ _ _ (memWf_memClear _ _ _ (memWf_memClear _ _ _ h))
@[simp] theorem memWf_spillCast {p : Part} {c : Cast} {o n at' : Nat} :
    memWf (spillCast s p c o n at').mem = true := by simp [spillCast, h]
@[simp] theorem memWf_moveEntry {p : Part} {idx cluster src dst : Nat} :
    memWf (moveEntry s p idx cluster src dst).mem = true := by
  -- the write is kept closed, so that the kernel does not evaluate `setKey`
  obtain ⟨write, hwrite, hw⟩ : ∃ f, @btPoke = f ∧
      ∀ {u : State} {p : Part} {i o n x : Nat}, memWf u.mem = true → memWf (f u p i o n x).mem = true :=
    ⟨_, rfl, fun h => memWf_btPoke h⟩
  unfold moveEntry
  rw [hwrite]
  exact hw h
@[simp] theorem memWf_restoreCast {p : Part} {c : Cast} {src dst : Nat} :
    memWf (restoreCast s p c src dst).mem = true := by
  simp +contextual [restoreCast, h]
@[simp] theorem memWf_keySyscall {t : Thread} {ix : Nat} : memWf (keySyscall s t ix).mem = true := by
  unfold keySyscall
  (repeat' split) <;> simp [h]
@[simp] theorem memWf_postSyscall {t : Thread} {l : Launch} {q : PostReq} {k : Nat} :
    memWf (postSyscall s t l q k).mem = true := by simp [postSyscall, h]

/-! ### AdmitEvents -/

theorem memWf_fenceStatus {part ptr status launch : Nat} {x : State × Nat}
    (e : fenceStatus s part ptr status launch = some x) : memWf x.1.mem = true := by
  obtain ⟨u, -, rfl⟩ := Option.map_eq_some_iff.1 e
  dsimp only
  refine memWf_writeHome (memWf_writeHome ?_)
  rw [queueRow_mem]
  exact h
@[simp] theorem memWf_fenceValue {part q ptr val : Nat} : memWf (fenceValue s part q ptr val).mem = true := by
  unfold fenceValue
  split <;> simp [h]
@[simp] theorem memWf_readBundle {p : Part} {q : Nat} : memWf (readBundle s p q).mem = true := by
  unfold readBundle
  dsimp only
  split <;> simp [h]
@[simp] theorem memWf_refuseBundle {p : Part} {q b status : Nat} : memWf (refuseBundle s p q b status).mem = true := by
  unfold refuseBundle
  extract_lets _ _ s' _
  have h' : memWf s'.mem = true := @memWf_touchAll s h p.first (bundleReads s p.first b true)
  clear_value s'
  split
  · simpa using h'
  · next e =>
    have h'' := memWf_fenceStatus h' e
    rw [updQueue_mem]
    exact h''
@[simp] theorem memWf_finishRefused {p : Part} {q b : Nat} : memWf (finishRefused s p q b).mem = true := by
  simp [finishRefused, h]
@[simp] theorem memWf_beginHold {p : Part} {l : Launch} : memWf (beginHold s p l).mem = true := by
  simp +contextual [beginHold, h]
@[simp] theorem memWf_admitCasts {p : Part} {a : Adm} : memWf (admitCasts s p a).mem = true := by simp [admitCasts, h]
@[simp] theorem memWf_admitNext {p : Part} {ds : List (Nat × Int)} {proc : Nat} {a : Adm} :
    memWf (admitNext s p ds proc a).mem = true := by simp [admitNext, h]
@[simp] theorem memWf_retire {l : Launch} : memWf (retire s l).mem = true := by
  unfold retire
  dsimp only
  split
  · simp [h]
  split
  · simp [h]
  · next e =>
    have h' := memWf_fenceStatus h e
    split_ifs <;> simp [h']
@[simp] theorem memWf_placeBundle {p : Part} {q b : Nat} : memWf (placeBundle s p q b).1.mem = true := by
  refine List.foldlRecOn (motive := fun r : State × Nat => memWf r.1.mem = true) _ _ h fun r h i _ => ?_
  split
  · refine memWf_writeHome ?_
    split_ifs <;> simp [h]
  · exact h
@[simp] theorem memWf_endPost {r : PostReq} {status : Nat} : memWf (endPost s r status).mem = true := by
  simp [endPost, h]
@[simp] theorem memWf_advanceTail {r : PostReq} {q : Nat} : memWf (advanceTail s r q).mem = true := by
  simp [advanceTail, h]
@[simp] theorem memWf_enqueue {p : Part} {r : PostReq} {q b : Nat} : memWf (enqueue s p r q b).mem = true := by
  simp [enqueue, h]

/-! ### Branch -/

@[simp] theorem memWf_moveWord {hd : Hdr} {link : Bool} {f : Nat → Thread → Option (Word × BitVec 4)} :
    memWf (moveWord hd link f s).mem = true :=
  memWf_runWord_eff h (fun _ => rfl) fun _ h => by simpa using h

/-! ### CareEvents -/

@[simp] theorem memWf_setupThread {l : Launch} {c : Cast} {run core : Nat} {tic : Nat} :
    memWf (setupThread l c run core s tic).mem = true := by simp [setupThread, h]
@[simp] theorem memWf_setupRun {c : Cast} {l : Launch} {run core o : Nat} :
    memWf (setupRun s c l run core o).mem = true :=
  memWf_foldl (fun _ _ h => memWf_setupThread h) _
    (memWf_getD h fun _ e => by rw [takeRoom_mem e]; exact h)
@[simp] theorem memWf_migrateTile {tid off : Nat} : memWf (migrateTile tid off s).mem = true := by
  unfold migrateTile
  split
  · dsimp only
    split
    · split
      · exact h
      · refine memWf_flushRec ?_
        rw [State.updRec_mem]
        refine memWf_reloadHeld ?_
        dsimp only
        exact memWf_moveBytes h
    · exact h
  · exact h

/-! ### Commands -/

@[simp] theorem memWf_beginScrub {slot : Nat} : memWf (beginScrub s slot).mem = true := (memWf_filter _ _ h).1
@[simp] theorem memWf_createPart {first sz nvf : Nat} {tenant : BitVec 32} :
    memWf (createPart s first sz nvf tenant).mem = true := by
  simp +contextual [createPart, h]
@[simp] theorem memWf_pcmdRun {v : DWord} : memWf (pcmdRun s v).mem = true := by
  unfold pcmdRun
  (repeat' split) <;> simp [h]
@[simp] theorem memWf_pcmdWrite {m : Master} {v : DWord} : memWf (pcmdWrite s m v).mem = true := by
  simp [pcmdWrite, h]
@[simp] theorem memWf_beginShakeout {slot : Nat} : memWf (beginShakeout s slot).mem = true := by
  unfold beginShakeout
  rw [raiseCtl_mem]
  refine memWf_beginScrub (memWf_clearReadyFrom ?_)
  split <;> simp [h]
@[simp] theorem memWf_mcmdRun {v : DWord} : memWf (mcmdRun s v).mem = true := by
  simp only [mcmdRun]
  (repeat' split) <;> simp [h]
@[simp] theorem memWf_mcmdWrite {m : Master} {v : DWord} : memWf (mcmdWrite s m v).mem = true := by
  simp [mcmdWrite, h]
@[simp] theorem memWf_endShakeout {slot : Nat} : memWf (endShakeout s slot).mem = true := by simp [endShakeout, h]
@[simp] theorem memWf_preqWrite {p : Part} {mask v : DWord} : memWf (preqWrite s p mask v).mem = true := by
  simp [preqWrite, h]
@[simp] theorem memWf_preqArrives {part : Nat} {v : DWord} : memWf (preqArrives part v s).mem = true := by
  unfold preqArrives
  split <;> simp [h]
@[simp] theorem memWf_pctxWrite {p : Part} {mask v : DWord} : memWf (pctxWrite s p mask v).mem = true := by
  simp [pctxWrite, h]
@[simp] theorem memWf_pctxArrives {part : Nat} {v : DWord} : memWf (pctxArrives part v s).mem = true := by
  unfold pctxArrives
  split <;> simp [h]
@[simp] theorem memWf_putSpill {part : Nat} {x : Nat × List (Byte × Bool)} : memWf (putSpill s part x).mem = true :=
  memWf_foldl (fun _ _ h => by split <;> simp [h]) _ h
@[simp] theorem memWf_addImage {first : Nat} {i : Image} : memWf (addImage s first i).mem = true :=
  memWf_foldl_memWrite _ _ _ h
@[simp] theorem memWf_loadHeld {part : Nat} : memWf (loadHeld s part).mem = true :=
  memWf_foldl (fun s r h => by
    dsimp only
    split_ifs <;> simp [h]) _ h
@[simp] theorem memWf_putRecords {old : State} {part : Nat} : memWf (putRecords s old part).mem = true :=
  memWf_foldl (fun _ _ h => memWf_flushAnnex h) _ (memWf_foldl (fun _ _ h => memWf_writeRec h) _ h)
@[simp] theorem memWf_restoreWhole {p : Part} {i : Image} : memWf (restoreWhole s p i).mem = true := by
  unfold restoreWhole
  refine memWf_putRecords (memWf_foldl (fun _ _ h => memWf_putSpill h) _ ?_)
  rw [State.updPart_mem]
  exact memWf_addImage (memWf_resetPart h)
@[simp] theorem memWf_restoreVf {p : Part} {i : Image} : memWf (restoreVf s p i).mem = true := by
  unfold restoreVf
  refine memWf_putRecords ?_
  rw [State.updPart_mem]
  exact memWf_addImage h
@[simp] theorem memWf_pctxResult {p : Part} : memWf (pctxResult s p).1.mem = true := by
  simp only [pctxResult]
  (repeat' split) <;> simp [h]
@[simp] theorem memWf_endPctx {p : Part} : memWf (endPctx s p).mem = true := by
  simp only [endPctx]
  (repeat' split) <;> simp [h]

/-! ### Convert -/

@[simp] theorem memWf_convertOne {hd : Hdr} {d a : Reg} {code : Nat} {src : Word → Nat} {f : Nat → Option Nat} :
    memWf (convertOne hd d a code src f s).mem = true :=
  memWf_runWord_eff h (fun _ => rfl) fun _ h => h
@[simp] theorem memWf_convertTwo {hd : Hdr} {d : Reg} {a : PairNo} {code : Nat} {f : Nat → Option Nat} :
    memWf (convertTwo hd d a code f s).mem = true :=
  memWf_runWord_eff h (fun _ => rfl) fun _ h => h

/-! ### Fence -/

@[simp] theorem memWf_fenceWord {hd : Hdr} {scope : Nat} {d : Reg} : memWf (fenceWord hd scope d s).mem = true :=
  memWf_runWord_eff h (fun _ => rfl) fun _ h => h
@[simp] theorem memWf_fencewWord {hd : Hdr} {scope : Nat} : memWf (fencewWord hd scope s).mem = true :=
  memWf_runWord_eff h (fun _ => rfl) fun _ h => h

/-! ### Sg -/

@[simp] theorem memWf_enterWord {hd : Hdr} {d : Reg} {p : PredNo} {k : Nat → Thread → SgKind} :
    memWf (enterWord hd d p k s).mem = true :=
  memWf_runWord_eff h (fun _ => rfl) fun s h => by
    dsimp only
    split_ifs
    · exact h
    · exact (congrArg (memWf · = true) (eachLane_mem (fun _ _ _ => sendSg_mem ..) s)).mpr h
@[simp] theorem memWf_leaveWord {hd : Hdr} {a : Reg} {k : Nat → Thread → SgKind} :
    memWf (leaveWord hd a k s).mem = true :=
  memWf_runWord h (fun _ h => by simpa using h) fun _ h => h
@[simp] theorem memWf_arriveWord {hd : Hdr} {fn : Nat} {d a : Reg} {value : Nat → Thread → Word} :
    memWf (arriveWord hd fn d a value s).mem = true :=
  memWf_runWord h (fun _ h => by simpa using h) fun s h => by
    rw [State.eachThread_mem, eachLane_mem fun _ _ _ => issueArrival_mem ..]
    exact h

/-! ### FlaskEvents -/

@[simp] theorem memWf_answerBufOp {b : BufOp} : memWf (answerBufOp s b).mem = true := by
  unfold answerBufOp
  dsimp only
  split
  · next e => exact memWf_performBufOp (memWf_bufOpTouch h) e
  · exact memWf_bufOpTouch h
@[simp] theorem memWf_giveResult {g : SgReq} {d : Reg} {v : Word} {st : Nat} :
    memWf (giveResult s g d v st).mem = true := by simp [giveResult, h]

/-! ### Lane -/

@[simp] theorem memWf_laneV {hd : Hdr} {d : Reg} {f : Nat → List Thread → Nat → Thread → Word} :
    memWf (laneV hd d f s).mem = true :=
  memWf_runWord_eff h (fun _ => rfl) fun _ h => h
@[simp] theorem memWf_laneP {hd : Hdr} {p : PredNo} {f : Nat → List Thread → Bool} :
    memWf (laneP hd p f s).mem = true :=
  memWf_runWord_eff h (fun _ => rfl) fun _ h => h
@[simp] theorem memWf_shuffle {hd : Hdr} {d a b : Reg} {src : Nat → Nat → Option Nat} :
    memWf (shuffle hd d a b src s).mem = true := by simp [shuffle, h]
@[simp] theorem memWf_reduce {hd : Hdr} {d a : Reg} {f : List Word → Word} :
    memWf (reduce hd d a f s).mem = true := by simp [reduce, h]

/-! ### Inputs -/

@[simp] theorem memWf_outsideWrite {key : Nat} {data : List Byte} : memWf (outsideWrite key data s).mem = true := by
  simp [outsideWrite, State.memWf_poke, h]

/-! ### LinkEvents -/

@[simp] theorem memWf_dsbWriteAt {m : Master} {base : Nat} {mask v : DWord} :
    memWf (dsbWriteAt s m base mask v).mem = true := by simp [dsbWriteAt, h]
@[simp] theorem memWf_dsbWrite {m : Master} {off size : Nat} {v : DWord} :
    memWf (dsbWrite s m off size v).mem = true := by simp [dsbWrite, h]
@[simp] theorem memWf_lockedWrite {p : Part} {base : Nat} {mask v : DWord} :
    memWf (lockedWrite s p base mask v).mem = true := by simp [lockedWrite, h]
@[simp] theorem memWf_windowWriteAt {p : Part} {vf : Option Nat} {base : Nat} {mask v : DWord} :
    memWf (windowWriteAt s p vf base mask v).mem = true := by simp [windowWriteAt, h]
@[simp] theorem memWf_windowWrite {p : Part} {vf : Option Nat} {off size : Nat} {v : DWord} :
    memWf (windowWrite s p vf off size v).mem = true := by simp [windowWrite, h]
end

end Sys2Proof.Machine
end

section
/-! SUPPORT. Every arm of `exec` keeps the canonical form of memory: a lemma for each word and each event whose meaning
is not one call of an operation with such a lemma, then `exec` itself, by the constructors of `Instr`. -/

namespace Sys2Proof.Machine

open Sys2Proof (Instr Master)

/-- The canonical form of memory in what a word or an event answers. -/
def KeepsForm (o : Outcome) : Prop := ∀ t, o = .next t → memWf t.mem = true

@[simp] theorem keepsForm_next (t : State) : KeepsForm (.next t) ↔ memWf t.mem = true :=
  ⟨fun h => h t rfl, by rintro h _ ⟨⟩; exact h⟩
@[simp] theorem keepsForm_fault (f : Fault) : KeepsForm (.fault f) := by rintro _ ⟨⟩
@[simp] theorem keepsForm_refused (r : Refusal) : KeepsForm (.refused r) := by rintro _ ⟨⟩

section
variable {s : State} (h : memWf s.mem = true)
include h

theorem keepsForm_word {hd : Hdr} {sem : Sem} (hpre : ∀ u, sem.pre u = u)
    (heff : ∀ u, memWf u.mem = true → memWf (sem.eff u).mem = true) : KeepsForm (.next (runWord hd sem s)) :=
  (keepsForm_next _).2 (memWf_runWord_eff h hpre heff)

theorem keepsForm_execNop {hd : Hdr} : KeepsForm (execNop hd s) :=
  keepsForm_word h (fun _ => rfl) fun _ hu => hu
theorem keepsForm_execIllegalEncoding {w : BitVec 32} : KeepsForm (execIllegalEncoding w s) :=
  keepsForm_word h (fun _ => rfl) fun _ hu => hu
theorem keepsForm_execExit {hd : Hdr} : KeepsForm (execExit hd s) :=
  keepsForm_word h (fun _ => rfl) fun u hu => by
    dsimp only; split <;> simp [hu]
theorem keepsForm_execYield {hd : Hdr} : KeepsForm (execYield hd s) :=
  keepsForm_word h (fun _ => rfl) fun u hu => by
    dsimp only; split <;> simp [hu]
theorem keepsForm_execSleep {hd : Hdr} {a : Reg} : KeepsForm (execSleep hd a s) :=
  (keepsForm_next _).2 <| memWf_runWord h (fun u hu => by simp [hu]) fun u hu => by simp [hu]
theorem keepsForm_execPri {hd : Hdr} {p : BitVec 4} : KeepsForm (execPri hd p s) :=
  keepsForm_word h (fun _ => rfl) fun u hu => by simpa using hu
theorem keepsForm_execTrap {hd : Hdr} {imm : BitVec 12} : KeepsForm (execTrap hd imm s) :=
  keepsForm_word h (fun _ => rfl) fun u hu => by
    dsimp only; split <;> simp [hu]
theorem keepsForm_execLaunch {hd : Hdr} {d : Reg} {a : PairNo} : KeepsForm (execLaunch hd d a s) :=
  (keepsForm_next _).2 <| memWf_runWord h (fun u hu => by dsimp only; split <;> simp [hu]) fun u hu => by
    dsimp only; split
    · simp [hu]
    · rw [State.eachThread_mem]
      exact memWf_foldl (fun _ _ hu => memWf_launchLane hu) _ hu
theorem keepsForm_execFwdh {hd : Hdr} {d a : Reg} : KeepsForm (execFwdh hd d a s) :=
  keepsForm_word h (fun _ => rfl) fun u hu => by simp [hu]
theorem keepsForm_execRds {hd : Hdr} {d sel : Reg} : KeepsForm (execRds hd d sel s) :=
  keepsForm_word h (fun _ => rfl) fun u hu => by simp [hu]
theorem keepsForm_execCsrr {hd : Hdr} {d : Reg} {r : BitVec 12} : KeepsForm (execCsrr hd d r s) :=
  keepsForm_word h (fun _ => rfl) fun u hu => by simp [hu]
theorem keepsForm_execEret {hd : Hdr} : KeepsForm (execEret hd s) :=
  keepsForm_word h (fun _ => rfl) fun u hu => by
    dsimp only; split
    · exact memWf_foldl (fun u _ hu => by rw [addEnds_mem]; exact hu) _ hu
    · rw [eretLanes_mem]; exact hu
theorem keepsForm_execWfi {hd : Hdr} : KeepsForm (execWfi hd s) :=
  keepsForm_word h (fun _ => rfl) fun u hu => by
    dsimp only; split <;> simp [hu]
theorem keepsForm_execBtinv {hd : Hdr} {a : Reg} : KeepsForm (execBtinv hd a s) :=
  keepsForm_word h (fun _ => rfl) fun u hu => by simp [hu]
theorem keepsForm_execBtsync {hd : Hdr} : KeepsForm (execBtsync hd s) :=
  keepsForm_word h (fun _ => rfl) fun _ hu => hu
theorem keepsForm_execDig {hd : Hdr} {a : Reg} : KeepsForm (execDig hd a s) :=
  keepsForm_word h (fun _ => rfl) fun u hu => by
    dsimp only; split <;> simp [hu]
theorem keepsForm_execP2v {hd : Hdr} {d : Reg} : KeepsForm (execP2v hd d s) :=
  keepsForm_word h (fun _ => rfl) fun u hu => by simp [hu]
theorem keepsForm_execV2p {hd : Hdr} {a : Reg} : KeepsForm (execV2p hd a s) :=
  keepsForm_word h (fun _ => rfl) fun u hu => by simp [hu]
theorem keepsForm_execKwait {hd : Hdr} {p : PredNo} {a : BitVec 6} : KeepsForm (execKwait hd p a s) :=
  keepsForm_word h (fun _ => rfl) fun u hu => by simp [hu]
theorem keepsForm_execKrd {hd : Hdr} {d : Reg} {a : BitVec 6} : KeepsForm (execKrd hd d a s) :=
  keepsForm_word h (fun _ => rfl) fun u hu => by simp [hu]
theorem keepsForm_execKfront {hd : Hdr} {d a : BitVec 6} : KeepsForm (execKfront hd d a s) :=
  keepsForm_word h (fun _ => rfl) fun u hu => by simp [hu]
theorem keepsForm_execFwait {hd : Hdr} {a : Reg} : KeepsForm (execFwait hd a s) :=
  keepsForm_word h (fun _ => rfl) fun u hu => by simp [hu]
theorem keepsForm_execCopy {hd : Hdr} {d b : Reg} {a : PairNo} : KeepsForm (execCopy hd d a b s) :=
  (keepsForm_next _).2 <| memWf_runWord h (fun u hu => by simp [hu]) fun u hu => by simp [hu]
theorem keepsForm_execCarm {hd : Hdr} {a : Reg} {b : PairNo} : KeepsForm (execCarm hd a b s) :=
  (keepsForm_next _).2 <| memWf_runWord h (fun u hu => by dsimp only; split <;> simp [hu]) fun u hu => by simp [hu]
theorem keepsForm_execBstat {hd : Hdr} {d a : Reg} : KeepsForm (execBstat hd d a s) :=
  keepsForm_word h (fun _ => rfl) fun u hu => by simp [hu]
theorem keepsForm_execRun {hd : Hdr} {d : Reg} {a : PairNo} : KeepsForm (execRun hd d a s) :=
  (keepsForm_next _).2 <| memWf_runWord h (fun u hu => by dsimp only; split <;> simp [hu]) fun u hu => by simp [hu]
theorem keepsForm_execRstop {hd : Hdr} : KeepsForm (execRstop hd s) :=
  keepsForm_word h (fun _ => rfl) fun u hu => by
    dsimp only; split <;> simp [hu]
theorem keepsForm_execPop {hd : Hdr} {d : Reg} {n : BitVec 2} : KeepsForm (execPop hd d n s) :=
  keepsForm_word h (fun _ => rfl) fun u hu => by
    dsimp only; split <;> simp [hu]
theorem keepsForm_execQstat {hd : Hdr} {d : Reg} : KeepsForm (execQstat hd d s) :=
  keepsForm_word h (fun _ => rfl) fun u hu => by simp [hu]
theorem keepsForm_execQreset {hd : Hdr} {m : BitVec 4} : KeepsForm (execQreset hd m s) :=
  keepsForm_word h (fun _ => rfl) fun u hu => by
    dsimp only; split
    · exact memWf_foldl (fun u i hu => by split <;> simp [hu]) _ hu
    · exact hu
theorem keepsForm_execMma {hd : Hdr} {t a : Reg} {wb : BitVec 5} {ty : BitVec 3} {n bs : BitVec 2} :
    KeepsForm (execMma hd t a wb ty n bs s) :=
  keepsForm_word h (fun _ => rfl) fun u hu => by
    dsimp only; split
    · split <;> simp [hu]
    · exact hu
theorem keepsForm_execTzero {hd : Hdr} {d b : Reg} {a : PairNo} : KeepsForm (execTzero hd d a b s) :=
  keepsForm_word h (fun _ => rfl) fun u hu => by
    dsimp only; split <;> simp [hu]
theorem keepsForm_execTld {hd : Hdr} {d a b : Reg} : KeepsForm (execTld hd d a b s) :=
  keepsForm_word h (fun _ => rfl) fun u hu => by
    dsimp only; split <;> simp [hu]
theorem keepsForm_execTst {hd : Hdr} {v a b : Reg} : KeepsForm (execTst hd v a b s) :=
  keepsForm_word h (fun _ => rfl) fun u hu => by
    dsimp only; split <;> simp [hu]
theorem keepsForm_execTrls {hd : Hdr} {a : Reg} : KeepsForm (execTrls hd a s) :=
  keepsForm_word h (fun _ => rfl) fun u hu => by simp [hu]
theorem keepsForm_execTstat {hd : Hdr} {d a : Reg} : KeepsForm (execTstat hd d a s) :=
  keepsForm_word h (fun _ => rfl) fun u hu => by simp [hu]
theorem keepsForm_execSgstat {hd : Hdr} {d a : Reg} {sel : BitVec 2} : KeepsForm (execSgstat hd d a sel s) :=
  keepsForm_word h (fun _ => rfl) fun u hu => by
    dsimp only; split
    · simp [hu]
    · rw [State.eachThread_mem, eachLane_mem fun _ _ _ => sendSg_mem ..]
      exact hu
theorem keepsForm_maskWord {hd : Hdr} {k : BitVec 6} {f : State → Word} : KeepsForm (.next (maskWord hd k f s)) :=
  keepsForm_word h (fun _ => rfl) fun u hu => by simp [hu]

/-! ### MemEvents -/

theorem keepsForm_execHomeRead {id : Nat} : KeepsForm (execHomeRead id s) := by
  unfold execHomeRead
  split <;> simp [h]
theorem keepsForm_execHomeWrite {id : Nat} : KeepsForm (execHomeWrite id s) := by
  unfold execHomeWrite
  (repeat' split) <;> simp [h]
theorem keepsForm_execVaultBankAccess {id : Nat} : KeepsForm (execVaultBankAccess id s) := by
  unfold execVaultBankAccess
  split <;> simp [h]
theorem keepsForm_execResultWriteback {id : Nat} : KeepsForm (execResultWriteback id s) := by
  unfold execResultWriteback
  split <;> simp [h]
theorem keepsForm_execLoadResponse {id : Nat} : KeepsForm (execLoadResponse id s) := by
  unfold execLoadResponse
  (repeat' split) <;> simp [h]
theorem keepsForm_execStoreAck {id : Nat} : KeepsForm (execStoreAck id s) := by
  unfold execStoreAck
  (repeat' split) <;> simp [h]
theorem keepsForm_execStoreHorizonReached {tid : Nat} : KeepsForm (execStoreHorizonReached tid s) :=
  by simp [execStoreHorizonReached, h]
theorem keepsForm_execDeviceTimeWake {tid : Nat} : KeepsForm (execDeviceTimeWake tid s) :=
  by simp [execDeviceTimeWake, h]
theorem keepsForm_execL1LeaseExpiry {core line : Nat} : KeepsForm (execL1LeaseExpiry core line s) :=
  by simp [execL1LeaseExpiry, h]
theorem keepsForm_execLeaseExpiryNotice {core line : Nat} : KeepsForm (execLeaseExpiryNotice core line s) :=
  by simp [execLeaseExpiryNotice, h]
theorem keepsForm_execUpdateOnlyGrant {core line : Nat} : KeepsForm (execUpdateOnlyGrant core line s) :=
  by simp [execUpdateOnlyGrant, h]
theorem keepsForm_execDeferredStoreFault {id : Nat} : KeepsForm (execDeferredStoreFault id s) := by
  unfold execDeferredStoreFault
  split <;> simp [h]

/-! ### EngineEvents -/

theorem keepsForm_execCopyComplete {id : Nat} : KeepsForm (execCopyComplete id s) := by
  unfold execCopyComplete
  split <;> simp [h]
theorem keepsForm_execBufferFull {part buf : Nat} : KeepsForm (execBufferFull part buf s) := by
  unfold execBufferFull
  split <;> simp [h]
theorem keepsForm_execRunnerPush {id : Nat} : KeepsForm (execRunnerPush id s) := by
  unfold execRunnerPush
  split <;> simp [h]
theorem keepsForm_execTileOpArrival {id : Nat} : KeepsForm (execTileOpArrival id s) := by
  unfold execTileOpArrival
  split <;> simp [h]
theorem keepsForm_execMmaStep {id : Nat} : KeepsForm (execMmaStep id s) := by
  unfold execMmaStep
  split <;> simp [h]
theorem keepsForm_execMmalStep {id : Nat} : KeepsForm (execMmalStep id s) := by
  unfold execMmalStep
  split <;> simp [h]
theorem keepsForm_execEnginePageFault {id : Nat} : KeepsForm (execEnginePageFault id s) := by
  unfold execEnginePageFault
  split <;> simp [h]
theorem keepsForm_execFaultEntryRetry {id : Nat} : KeepsForm (execFaultEntryRetry id s) := by
  unfold execFaultEntryRetry
  (repeat' split) <;> simp [h]

/-! ### RecordEvents -/

theorem keepsForm_execShortStallExpiry {core slot ent : Nat} : KeepsForm (execShortStallExpiry core slot ent s) := by
  unfold execShortStallExpiry
  (repeat' split) <;> simp [h]
theorem keepsForm_execPourPreempt {core slot : Nat} : KeepsForm (execPourPreempt core slot s) := by
  unfold execPourPreempt
  split <;> simp [h]
theorem keepsForm_execPoolStallConvert {part : Nat} : KeepsForm (execPoolStallConvert part s) := by
  unfold execPoolStallConvert
  (repeat' split) <;> simp [h]
theorem keepsForm_execPoolexhaust {part launch : Nat} : KeepsForm (execPoolexhaust part launch s) := by
  rw [execPoolexhaust, keepsForm_next]
  split
  · split
    · exact memWf_foldl (fun _ _ hu => memWf_escalate hu) _ h
    · exact h
  · exact h
theorem keepsForm_execLadleDrainWindow {lad : Nat} : KeepsForm (execLadleDrainWindow lad s) := by
  unfold execLadleDrainWindow
  split <;> simp [h]
theorem keepsForm_execLadleDrain {cluster : Nat} : KeepsForm (execLadleDrain cluster s) := by
  unfold execLadleDrain
  (repeat' split) <;> simp [h]
theorem keepsForm_execSchedulerForward {tid cluster : Nat} : KeepsForm (execSchedulerForward tid cluster s) := by
  unfold execSchedulerForward
  split <;> simp [h]
theorem keepsForm_execRecordArrival {tid : Nat} : KeepsForm (execRecordArrival tid s) := by
  unfold execRecordArrival
  split <;> simp [h]
theorem keepsForm_execVfSliceEnd {part : Nat} : KeepsForm (execVfSliceEnd part s) := by
  unfold execVfSliceEnd
  (repeat' split) <;> simp [h]
theorem keepsForm_execPreemptComplete {part : Nat} : KeepsForm (execPreemptComplete part s) := by
  unfold execPreemptComplete
  (repeat' split) <;> simp [h]
theorem keepsForm_execVaultSpill {part launch cast : Nat} : KeepsForm (execVaultSpill part launch cast s) := by
  unfold execVaultSpill
  (repeat' split) <;> simp [h]
theorem keepsForm_execVaultRestore {part launch cast : Nat} : KeepsForm (execVaultRestore part launch cast s) := by
  unfold execVaultRestore
  (repeat' split) <;> simp [h]
theorem keepsForm_execSyscallPost {tid : Nat} : KeepsForm (execSyscallPost tid s) := by
  unfold execSyscallPost
  (repeat' split) <;> simp [h]
theorem keepsForm_execWatchdog {tid : Nat} : KeepsForm (execWatchdog tid s) :=
  by simp [execWatchdog, h]
theorem keepsForm_execPourPromote {core slot : Nat} : KeepsForm (execPourPromote core slot s) := by
  unfold execPourPromote
  split <;> simp [h]

/-! ### AdmitEvents -/

theorem keepsForm_execBundleRead {part q : Nat} : KeepsForm (execBundleRead part q s) := by
  unfold execBundleRead
  split <;> simp [h]
theorem keepsForm_execDepReread {part q : Nat} : KeepsForm (execDepReread part q s) := by
  unfold execDepReread
  split <;> simp [h]
theorem keepsForm_execCastAdmit {part : Nat} : KeepsForm (execCastAdmit part s) := by
  unfold execCastAdmit
  (repeat' split) <;> simp [h]
theorem keepsForm_execCastStart {cluster : Nat} : KeepsForm (execCastStart cluster s) := by
  unfold execCastStart
  split <;> simp [h]
theorem keepsForm_execPourStart {cluster : Nat} : KeepsForm (execPourStart cluster s) := by
  unfold execPourStart
  split <;> simp [h]
theorem keepsForm_execEpilogueStart {part launch : Nat} : KeepsForm (execEpilogueStart part launch s) := by
  unfold execEpilogueStart
  split <;> simp [h]
theorem keepsForm_execBundleRetire {part launch : Nat} : KeepsForm (execBundleRetire part launch s) := by
  unfold execBundleRetire
  split <;> simp [h]
theorem keepsForm_execLaunchEnqueue {id : Nat} : KeepsForm (execLaunchEnqueue id s) := by
  unfold execLaunchEnqueue
  (repeat' split) <;> simp [h]
theorem keepsForm_execQueueTailWrite {part q : Nat} {t : BitVec 32} : KeepsForm (execQueueTailWrite part q t s) := by
  unfold execQueueTailWrite
  split <;> simp [h]
theorem keepsForm_execStealRequest {cluster : Nat} : KeepsForm (execStealRequest cluster s) := by
  unfold execStealRequest
  split <;> simp [h]
theorem keepsForm_execStealHandle {thief : Nat} : KeepsForm (execStealHandle thief s) := by
  rw [execStealHandle, keepsForm_next]
  split
  · rw [foldl_mem fun _ _ => State.updCast_mem ..]
    exact h
  · exact h
theorem keepsForm_execStealReply {thief : Nat} : KeepsForm (execStealReply thief s) := by
  rw [execStealReply, keepsForm_next]
  split
  · dsimp only
    split
    · exact h
    · split
      · rw [foldl_mem fun _ _ => State.updCast_mem ..]
        exact h
      · exact h
  · exact h
theorem keepsForm_execEnacctSample {part : Nat} : KeepsForm (execEnacctSample part s) := by
  unfold execEnacctSample
  split <;> simp [h]
theorem keepsForm_execRowWindowEnd {chan : Nat} : KeepsForm (execRowWindowEnd chan s) :=
  by simp [execRowWindowEnd, h]

/-! ### CareEvents -/

theorem keepsForm_execAssaySetup {part launch cast : Nat} : KeepsForm (execAssaySetup part launch cast s) := by
  unfold execAssaySetup
  split <;> simp [h]
theorem keepsForm_execAssayDeadline {part launch cast : Nat} : KeepsForm (execAssayDeadline part launch cast s) := by
  unfold execAssayDeadline
  split <;> simp [h]
theorem keepsForm_execSuspicionDecay : KeepsForm (execSuspicionDecay s) :=
  by simp [execSuspicionDecay, h]
theorem keepsForm_execFinjFlip {part : Nat} {v : BitVec 32} : KeepsForm (execFinjFlip part v s) :=
  by simp [execFinjFlip, h]
theorem keepsForm_execFinjPoison {part tid : Nat} {v : BitVec 32} : KeepsForm (execFinjPoison part tid v s) :=
  by simp [execFinjPoison, h]
theorem keepsForm_execFinjOff {part : Nat} {v : BitVec 32} : KeepsForm (execFinjOff part v s) :=
  by simp [execFinjOff, h]
theorem keepsForm_execL2VthrDrop {slice : Nat} : KeepsForm (execL2VthrDrop slice s) :=
  by simp [execL2VthrDrop, h]
theorem keepsForm_execL2VthrRecover {slice : Nat} : KeepsForm (execL2VthrRecover slice s) :=
  by simp [execL2VthrRecover, h]
theorem keepsForm_execEyeMeasure {off : Nat} {tm : BitVec 8} {vm : BitVec 16} : KeepsForm (execEyeMeasure off tm vm s) :=
  by simp [execEyeMeasure, h]
theorem keepsForm_execLaneRetrain {off : Nat} : KeepsForm (execLaneRetrain off s) :=
  by simp [execLaneRetrain, h]
theorem keepsForm_execRetrainDone {off : Nat} : KeepsForm (execRetrainDone off s) :=
  by simp [execRetrainDone, h]
theorem keepsForm_execBtinvActed {part idx : Nat} : KeepsForm (execBtinvActed part idx s) :=
  by simp [execBtinvActed, h]
theorem keepsForm_execInterruptEntry {slot source : Nat} : KeepsForm (execInterruptEntry slot source s) :=
  by simp [execInterruptEntry, h]

/-! ### Commands -/

theorem keepsForm_execScrubDone {slot : Nat} : KeepsForm (execScrubDone slot s) :=
  by simp [execScrubDone, h]
theorem keepsForm_execCreate {m : Master} {v : BitVec 64} : KeepsForm (execCreate m v s) :=
  by simp [execCreate, h]
theorem keepsForm_execDestroy {m : Master} {v : BitVec 64} : KeepsForm (execDestroy m v s) :=
  by simp [execDestroy, h]
theorem keepsForm_execQuiesce {m : Master} {v : BitVec 64} : KeepsForm (execQuiesce m v s) :=
  by simp [execQuiesce, h]
theorem keepsForm_execResume {m : Master} {v : BitVec 64} : KeepsForm (execResume m v s) :=
  by simp [execResume, h]
theorem keepsForm_execQuiesceTimeout {part : Nat} : KeepsForm (execQuiesceTimeout part s) :=
  by simp [execQuiesceTimeout, h]
theorem keepsForm_execReset {m : Master} {v : BitVec 64} : KeepsForm (execReset m v s) :=
  by simp [execReset, h]
theorem keepsForm_execScrub {m : Master} {v : BitVec 64} : KeepsForm (execScrub m v s) :=
  by simp [execScrub, h]
theorem keepsForm_execShakeout {m : Master} {v : BitVec 64} : KeepsForm (execShakeout m v s) :=
  by simp [execShakeout, h]
theorem keepsForm_execShakeoutDone {slot : Nat} : KeepsForm (execShakeoutDone slot s) :=
  by simp [execShakeoutDone, h]
theorem keepsForm_execPreqPreempt {part : Nat} {v : BitVec 64} : KeepsForm (execPreqPreempt part v s) :=
  by simp [execPreqPreempt, h]
theorem keepsForm_execPreqMove {part : Nat} {v : BitVec 64} : KeepsForm (execPreqMove part v s) :=
  by simp [execPreqMove, h]
theorem keepsForm_execPctxSave {part : Nat} {v : BitVec 64} : KeepsForm (execPctxSave part v s) :=
  by simp [execPctxSave, h]
theorem keepsForm_execPctxRestore {part : Nat} {v : BitVec 64} : KeepsForm (execPctxRestore part v s) :=
  by simp [execPctxRestore, h]
theorem keepsForm_execPctxSaveOnevf {part : Nat} {v : BitVec 64} : KeepsForm (execPctxSaveOnevf part v s) :=
  by simp [execPctxSaveOnevf, h]
theorem keepsForm_execPctxRestoreOnevf {part : Nat} {v : BitVec 64} : KeepsForm (execPctxRestoreOnevf part v s) :=
  by simp [execPctxRestoreOnevf, h]
theorem keepsForm_execPctxComplete {part : Nat} : KeepsForm (execPctxComplete part s) := by
  unfold execPctxComplete
  split <;> simp [h]

/-! ### FlaskEvents -/

theorem keepsForm_execBufferStateOp {id : Nat} : KeepsForm (execBufferStateOp id s) := by
  unfold execBufferStateOp
  split <;> simp [h]
theorem keepsForm_execSgHomeRequest {id : Nat} : KeepsForm (execSgHomeRequest id s) := by
  unfold execSgHomeRequest
  split <;> simp [h]
theorem keepsForm_execSgReply {id : Nat} : KeepsForm (execSgReply id s) := by
  unfold execSgReply
  (repeat' split) <;> simp [h]
theorem keepsForm_execArrivalValidation {id : Nat} : KeepsForm (execArrivalValidation id s) := by
  unfold execArrivalValidation
  (repeat' split) <;> simp [h]
theorem keepsForm_execSgArrivalDepart {id : Nat} : KeepsForm (execSgArrivalDepart id s) := by
  unfold execSgArrivalDepart
  (repeat' split) <;> simp [h]
theorem keepsForm_execSgResult {id : Nat} : KeepsForm (execSgResult id s) := by
  unfold execSgResult
  (repeat' split) <;> simp [h]

/-! ### LinkEvents -/

theorem keepsForm_execRegisterWrite {via : Via} {off size : Nat} {v : BitVec 64} :
    KeepsForm (execRegisterWrite via off size v s) := by
  unfold execRegisterWrite
  (repeat' split) <;> simp [h]
theorem keepsForm_execPowerOnReset : KeepsForm (execPowerOnReset s) := by
  rw [execPowerOnReset, keepsForm_next]
  exact (memWf_filter _ _ h).1
theorem keepsForm_execReadySet {bit : Nat} : KeepsForm (execReadySet bit s) :=
  by simp [execReadySet, h]
theorem keepsForm_execReadyClear {bit : Nat} : KeepsForm (execReadyClear bit s) :=
  by simp [execReadyClear, h]
theorem keepsForm_execPortTrain {port : Nat} {peer : BitVec 64} : KeepsForm (execPortTrain port peer s) :=
  by simp [execPortTrain, h]
theorem keepsForm_execPeerDown {part e : Nat} : KeepsForm (execPeerDown part e s) := by
  unfold execPeerDown
  split <;> simp [h]
theorem keepsForm_execMigfwdForward {part buf off : Nat} {data : List (BitVec 8)} :
    KeepsForm (execMigfwdForward part buf off data s) := by
  unfold execMigfwdForward
  (repeat' split) <;> simp [h]
theorem keepsForm_execGetVersion {slot : Nat} : KeepsForm (execGetVersion slot s) := by
  rw [execGetVersion, keepsForm_next, negotiating_mem fun _ => by simp]
  exact h
theorem keepsForm_execGetCapabilities {slot : Nat} : KeepsForm (execGetCapabilities slot s) := by
  rw [execGetCapabilities, keepsForm_next, negotiating_mem fun _ => by split <;> simp]
  exact h
theorem keepsForm_execNegotiateAlgorithms {slot : Nat} {offer : AlgOffer} :
    KeepsForm (execNegotiateAlgorithms slot offer s) := by
  rw [execNegotiateAlgorithms, keepsForm_next, negotiating_mem fun _ => by split <;> simp]
  exact h
theorem keepsForm_execGetDigests {slot : Nat} : KeepsForm (execGetDigests slot s) := by
  rw [execGetDigests, keepsForm_next, negotiated_mem fun _ => by rw [giveAnswer_mem]]
  exact h
theorem keepsForm_execGetCertificate {slot chain off len : Nat} :
    KeepsForm (execGetCertificate slot chain off len s) := by
  rw [execGetCertificate, keepsForm_next, negotiated_mem fun _ => by rw [giveAnswer_mem]]
  exact h
theorem keepsForm_execChallenge {slot chain nonce : Nat} : KeepsForm (execChallenge slot chain nonce s) := by
  rw [execChallenge, keepsForm_next, negotiated_mem fun _ => by split <;> simp]
  exact h
theorem keepsForm_execGetMeasurements {slot index nonce : Nat} : KeepsForm (execGetMeasurements slot index nonce s) := by
  rw [execGetMeasurements, keepsForm_next, negotiated_mem fun _ => by split <;> simp]
  exact h

/-- The canonical form of memory is kept by every instruction and every event. -/
theorem keepsForm_exec (i : Instr) : KeepsForm (exec i s) := by
  cases i with
  | nop => exact keepsForm_execNop h
  | exit => exact keepsForm_execExit h
  | yield => exact keepsForm_execYield h
  | sleep => exact keepsForm_execSleep h
  | pri => exact keepsForm_execPri h
  | trap => exact keepsForm_execTrap h
  | launch => exact keepsForm_execLaunch h
  | fwdh => exact keepsForm_execFwdh h
  | rds => exact keepsForm_execRds h
  | csrr => exact keepsForm_execCsrr h
  | eret => exact keepsForm_execEret h
  | wfi => exact keepsForm_execWfi h
  | btinv => exact keepsForm_execBtinv h
  | btsync => exact keepsForm_execBtsync h
  | dig => exact keepsForm_execDig h
  | p2v => exact keepsForm_execP2v h
  | v2p => exact keepsForm_execV2p h
  | kwait => exact keepsForm_execKwait h
  | krd => exact keepsForm_execKrd h
  | kfront => exact keepsForm_execKfront h
  | fwait => exact keepsForm_execFwait h
  | copy => exact keepsForm_execCopy h
  | carm => exact keepsForm_execCarm h
  | bstat => exact keepsForm_execBstat h
  | run => exact keepsForm_execRun h
  | rstop => exact keepsForm_execRstop h
  | pop => exact keepsForm_execPop h
  | qstat => exact keepsForm_execQstat h
  | qreset => exact keepsForm_execQreset h
  | mma => exact keepsForm_execMma h
  | tzero => exact keepsForm_execTzero h
  | tld => exact keepsForm_execTld h
  | tst => exact keepsForm_execTst h
  | trls => exact keepsForm_execTrls h
  | tstat => exact keepsForm_execTstat h
  | sgstat => exact keepsForm_execSgstat h
  | illegalEncoding => exact keepsForm_execIllegalEncoding h
  | csrw | csrs | csrc => exact (keepsForm_next _).2 (memWf_csrStore h)
  | add | sub | mul | mulhiI | mulhiN | minI | minN | maxI | maxN | and | or | xor | andn | orn | shl | shr |
  sra | rotl | bfxI | bfxN | fadd | fsub | fmul | fmin | fmax | fcps | fscale | hadd2 | hsub2 | hmul2 | hmin2 |
  hmax2 | badd2 | bsub2 | bmul2 | bmin2 | bmax2 =>
    exact (keepsForm_next _).2 (memWf_alu2 h)
  | macc | bfi | pix | lui | apc => exact (keepsForm_next _).2 (memWf_fixedV h)
  | divI | divN | remI | remN | rcp | rsq | sqrt | exp2 | log2 | sin | cos | tanh =>
    exact (keepsForm_next _).2 (memWf_varV h)
  | abs | neg | shli | shri | srai | clz | ctz | popc | brev | mov | addi | andi | ori | xori | fabs | fneg |
  frndNe | frndTz | frndDn | frndUp | fclass =>
    exact (keepsForm_next _).2 (memWf_alu1 h)
  | add64 | sub64 | mulwI | mulwN | addof | mkptr => exact (keepsForm_next _).2 (memWf_fixedW h)
  | selP0 | selP1 | selP2 | selP3 | selP4 | selP5 | selP6 => exact (keepsForm_next _).2 (memWf_select h)
  | cmpEqB32 | cmpNeB32 | cmpLtI32 | cmpLeI32 | cmpLtN32 | cmpLeN32 | cmpEqF32 | cmpNeF32 | cmpLtF32 | cmpLeF32
  | cmpUnF32 =>
    exact (keepsForm_next _).2 (memWf_compare h)
  | cmpEqB64 | cmpNeB64 | cmpLtI64 | cmpLeI64 | cmpLtN64 | cmpLeN64 =>
    exact (keepsForm_next _).2 (memWf_compareW h)
  | cmpiEq | cmpiNe | cmpiLtI | cmpiGeI | cmpiLtN | cmpiGeN | cmpiBset | cmpiBclr =>
    exact (keepsForm_next _).2 (memWf_test h)
  | pand | por | pxor | pandn | pmov | pset => exact (keepsForm_next _).2 (memWf_fixedP h)
  | br | jmp | call | jr | callr | ret => exact (keepsForm_next _).2 (memWf_moveWord h)
  | kjoin | kleave | kbal | kmov | kwr | kclr => exact keepsForm_maskWord h
  | ffma | hfma2 | bfma2 => exact (keepsForm_next _).2 (memWf_alu3 h)
  | cvt | cvtF32F16hi | cvtF32Bf16hi => exact (keepsForm_next _).2 (memWf_convertOne h)
  | cvtF16x2F32x2 | cvtBf16x2F32x2 => exact (keepsForm_next _).2 (memWf_convertTwo h)
  | shflIdx | shflUp | shflDn | shflXor => exact (keepsForm_next _).2 (memWf_shuffle h)
  | voteAny | voteAll => exact (keepsForm_next _).2 (memWf_laneP h)
  | lrank | lcnt | bcast => exact (keepsForm_next _).2 (memWf_laneV h)
  | rdxAddI32 | rdxAddF32 | rdxMinI32 | rdxMaxI32 | rdxMinF32 | rdxMaxF32 =>
    exact (keepsForm_next _).2 (memWf_reduce h)
  | ld | ldx | st | stx | atomAddI32 | atomAddF32 | atomAddBf16x2 | atomMinI32 | atomMinN32 | atomMaxI32 |
  atomMaxN32 | atomAnd | atomOr | atomXor | atomXchg | atomCas | atomInc | atomXchg64 | atomCas64 | redAddI32 |
  redAddF32 | redAddBf16x2 | redMinI32 | redMaxI32 | redAnd | redOr | redXor | ldaB32 | ldaB64 | ldaSys | prefL1
  | prefL2 =>
    exact (keepsForm_next _).2 (memWf_accessWord h)
  | strB32 | strB64 | strSys => exact (keepsForm_next _).2 (memWf_releaseWord h)
  | fenceVault | fencePart | fenceSys => exact (keepsForm_next _).2 (memWf_fenceWord h)
  | fencewVault | fencewPart | fencewSys => exact (keepsForm_next _).2 (memWf_fencewWord h)
  | bwaitFull | bwaitFree => exact (keepsForm_next _).2 (memWf_bwaitWord h)
  | btake | bfree => exact (keepsForm_next _).2 (memWf_stateWord h)
  | mmag | mmal => exact (keepsForm_next _).2 (memWf_loopWord h)
  | sgnew | sgjoin | sgjoinH => exact (keepsForm_next _).2 (memWf_enterWord h)
  | sgleave | sgdrop => exact (keepsForm_next _).2 (memWf_leaveWord h)
  | sgbar | sgvoteAny | sgvoteAll | sgvoteCnt | sgredAddI32 | sgredAddF32 | sgredMinI32 | sgredMaxI32 |
  sgredMinF32 | sgredMaxF32 =>
    exact (keepsForm_next _).2 (memWf_arriveWord h)
  | shortStallExpiry => exact keepsForm_execShortStallExpiry h
  | poolStallConvert => exact keepsForm_execPoolStallConvert h
  | resultWriteback => exact keepsForm_execResultWriteback h
  | loadResponse => exact keepsForm_execLoadResponse h
  | storeAck => exact keepsForm_execStoreAck h
  | ladleDrainWindow => exact keepsForm_execLadleDrainWindow h
  | ladleDrain => exact keepsForm_execLadleDrain h
  | schedulerForward => exact keepsForm_execSchedulerForward h
  | recordArrival => exact keepsForm_execRecordArrival h
  | homeWrite => exact keepsForm_execHomeWrite h
  | homeRead => exact keepsForm_execHomeRead h
  | vaultBankAccess => exact keepsForm_execVaultBankAccess h
  | deferredStoreFault => exact keepsForm_execDeferredStoreFault h
  | faultEntryRetry => exact keepsForm_execFaultEntryRetry h
  | bufferStateOp => exact keepsForm_execBufferStateOp h
  | copyComplete => exact keepsForm_execCopyComplete h
  | bufferFull => exact keepsForm_execBufferFull h
  | runnerPush => exact keepsForm_execRunnerPush h
  | enginePageFault => exact keepsForm_execEnginePageFault h
  | tileOpArrival => exact keepsForm_execTileOpArrival h
  | mmaStep => exact keepsForm_execMmaStep h
  | mmalStep => exact keepsForm_execMmalStep h
  | sgHomeRequest => exact keepsForm_execSgHomeRequest h
  | sgReply => exact keepsForm_execSgReply h
  | sgArrivalDepart => exact keepsForm_execSgArrivalDepart h
  | sgResult => exact keepsForm_execSgResult h
  | syscallPost => exact keepsForm_execSyscallPost h
  | launchEnqueue => exact keepsForm_execLaunchEnqueue h
  | vaultSpill => exact keepsForm_execVaultSpill h
  | vaultRestore => exact keepsForm_execVaultRestore h
  | pourPreempt => exact keepsForm_execPourPreempt h
  | preemptComplete => exact keepsForm_execPreemptComplete h
  | vfSliceEnd => exact keepsForm_execVfSliceEnd h
  | bundleRead => exact keepsForm_execBundleRead h
  | castAdmit => exact keepsForm_execCastAdmit h
  | depReread => exact keepsForm_execDepReread h
  | castStart => exact keepsForm_execCastStart h
  | pourStart => exact keepsForm_execPourStart h
  | epilogueStart => exact keepsForm_execEpilogueStart h
  | bundleRetire => exact keepsForm_execBundleRetire h
  | pourPromote => exact keepsForm_execPourPromote h
  | assayDeadline => exact keepsForm_execAssayDeadline h
  | stealRequest => exact keepsForm_execStealRequest h
  | stealHandle => exact keepsForm_execStealHandle h
  | stealReply => exact keepsForm_execStealReply h
  | enacctSample => exact keepsForm_execEnacctSample h
  | assaySetup => exact keepsForm_execAssaySetup h
  | peerDown => exact keepsForm_execPeerDown h
  | migfwdForward => exact keepsForm_execMigfwdForward h
  | queueTailWrite => exact keepsForm_execQueueTailWrite h
  | pctxComplete => exact keepsForm_execPctxComplete h
  | registerWrite => exact keepsForm_execRegisterWrite h
  | arrivalValidation => exact keepsForm_execArrivalValidation h
  | poolexhaust => exact keepsForm_execPoolexhaust h
  | storeHorizonReached => exact keepsForm_execStoreHorizonReached h
  | deviceTimeWake => exact keepsForm_execDeviceTimeWake h
  | l1LeaseExpiry => exact keepsForm_execL1LeaseExpiry h
  | leaseExpiryNotice => exact keepsForm_execLeaseExpiryNotice h
  | updateOnlyGrant => exact keepsForm_execUpdateOnlyGrant h
  | watchdog => exact keepsForm_execWatchdog h
  | rowWindowEnd => exact keepsForm_execRowWindowEnd h
  | suspicionDecay => exact keepsForm_execSuspicionDecay h
  | finjFlip => exact keepsForm_execFinjFlip h
  | finjPoison => exact keepsForm_execFinjPoison h
  | finjOff => exact keepsForm_execFinjOff h
  | interruptEntry => exact keepsForm_execInterruptEntry h
  | l2VthrDrop => exact keepsForm_execL2VthrDrop h
  | l2VthrRecover => exact keepsForm_execL2VthrRecover h
  | eyeMeasure => exact keepsForm_execEyeMeasure h
  | readySet => exact keepsForm_execReadySet h
  | readyClear => exact keepsForm_execReadyClear h
  | portTrain => exact keepsForm_execPortTrain h
  | create => exact keepsForm_execCreate h
  | destroy => exact keepsForm_execDestroy h
  | quiesce => exact keepsForm_execQuiesce h
  | quiesceTimeout => exact keepsForm_execQuiesceTimeout h
  | resume => exact keepsForm_execResume h
  | reset => exact keepsForm_execReset h
  | scrub => exact keepsForm_execScrub h
  | scrubDone => exact keepsForm_execScrubDone h
  | shakeout => exact keepsForm_execShakeout h
  | shakeoutDone => exact keepsForm_execShakeoutDone h
  | preqPreempt => exact keepsForm_execPreqPreempt h
  | preqMove => exact keepsForm_execPreqMove h
  | pctxSave => exact keepsForm_execPctxSave h
  | pctxRestore => exact keepsForm_execPctxRestore h
  | pctxSaveOnevf => exact keepsForm_execPctxSaveOnevf h
  | pctxRestoreOnevf => exact keepsForm_execPctxRestoreOnevf h
  | btinvActed => exact keepsForm_execBtinvActed h
  | l1Evict => exact (keepsForm_next _).2 (memWf_evictU h)
  | sysdoneWrite => exact (keepsForm_next _).2 (memWf_sysReply h)
  | fltdoneService => exact (keepsForm_next _).2 (by rw [fltService_mem]; exact h)
  | fltdoneFail => exact (keepsForm_next _).2 (memWf_fltFail h)
  | recholdHold | recholdRelease => exact (keepsForm_next _).2 (memWf_rechold h)
  | qack => exact (keepsForm_next _).2 (by rw [qackSlot_mem]; exact h)
  | laneRetrain => exact keepsForm_execLaneRetrain h
  | retrainDone => exact keepsForm_execRetrainDone h
  | powerOnReset => exact keepsForm_execPowerOnReset h
  | cfglockCreq | cfglockMreq => exact (keepsForm_next _).2 (by rw [requestLock_mem]; exact h)
  | cfglockCrelease | cfglockMrelease => exact (keepsForm_next _).2 (by rw [releaseLock_mem]; exact h)
  | mctpDsbRead | pldmTelemetry => exact (keepsForm_next _).2 (by rw [giveAnswer_mem]; exact h)
  | mctpDsbWrite => exact (keepsForm_next _).2 (memWf_dsbWrite h)
  | getVersion => exact keepsForm_execGetVersion h
  | getCapabilities => exact keepsForm_execGetCapabilities h
  | negotiateAlgorithms => exact keepsForm_execNegotiateAlgorithms h
  | getDigests => exact keepsForm_execGetDigests h
  | getCertificate => exact keepsForm_execGetCertificate h
  | challenge => exact keepsForm_execChallenge h
  | getMeasurements => exact keepsForm_execGetMeasurements h
  | peerUp => exact (keepsForm_next _).2 (by rw [updPeer_mem]; exact h)
end

end Sys2Proof.Machine
end

section
/-! SUPPORT. A group of words, an input and a step keep the canonical form of memory; then the obligation. -/

namespace Sys2Proof.Machine

open Sys2Proof (Instr)

/-- The state that a group is left in by what comes before its words run. -/
def Prep.state : Prep → State
  | .closed s => s
  | .go s _ => s

theorem memWf_prepare {s : State} (h : memWf s.mem = true) (c : Cand) : memWf (prepare s c).state.mem = true := by
  unfold prepare
  split
  · exact h
  · dsimp only
    split
    · exact memWf_stallGroup (by simpa using h)
    · have hf : ∀ e lanes, memWf (fetchNote s c.core e lanes).mem = true := fun _ _ => memWf_fetchNote h
      (repeat' split) <;> simp [Prep.state, hf]

section
variable {ex : Instr → State → Outcome} (hex : ∀ i s, memWf s.mem = true → KeepsForm (ex i s))
include hex

theorem keepsForm_checkWords (ws : List (Word × Nat)) {s : State} (h : memWf s.mem = true) :
    KeepsForm (checkWords ex s ws) := by
  induction ws generalizing s with
  | nil => exact (keepsForm_next s).2 h
  | cons x r ih =>
    rw [checkWords]
    split
    · next e => exact ih (hex _ (readTraps (atWord s _ _ _) _) h _ e)
    · exact keepsForm_fault _
    · exact keepsForm_refused _

theorem keepsForm_runWords (ph : Phase) (ws : List (Word × Nat)) {s : State} (h : memWf s.mem = true) :
    KeepsForm (runWords ex ph s ws) := by
  induction ws generalizing s with
  | nil => exact (keepsForm_next s).2 h
  | cons x r ih =>
    rw [runWords]
    split
    · next e => exact ih (hex _ (atWord s _ _ _) h _ e)
    · exact keepsForm_fault _
    · exact keepsForm_refused _

theorem keepsForm_runMany (ws : List Word) (n : Nat) {s : State} (h : memWf s.mem = true) :
    KeepsForm (runMany ex ws n s) := by
  induction n generalizing s with
  | zero => exact (keepsForm_next _).2 (memWf_closeGroup h)
  | succ n ih =>
    rw [runMany]
    split
    · next s' e =>
      have hs : memWf (dropTrapped s').mem = true := by
        rw [dropTrapped_mem]
        exact keepsForm_checkWords hex _ h _ e
      dsimp only
      split
      · exact (keepsForm_next _).2 (memWf_closeGroup hs)
      · split
        · exact ih hs
        · split
          · next u e =>
            have hu := keepsForm_runWords hex .hold _ hs _ e
            split
            · exact (keepsForm_next _).2 (memWf_stallGroup hu)
            · split
              · next t e => exact (keepsForm_next _).2 (memWf_closeGroup (keepsForm_runWords hex .apply _ hu _ e))
              · exact keepsForm_runWords hex .apply _ hu
          · exact keepsForm_runWords hex .hold _ hs
    · exact keepsForm_checkWords hex _ h

theorem keepsForm_issue {s : State} (h : memWf s.mem = true) (c : Cand) : KeepsForm (issue ex s c) := by
  have hp := memWf_prepare h c
  unfold issue
  split
  · next s' e => exact (keepsForm_next _).2 (by rw [e] at hp; exact hp)
  · next s' ws e =>
    rw [e] at hp
    have h1 : ∀ w, KeepsForm (ex (instrOf w) (atWord s' w 0 .alone)) := fun w => hex _ _ hp
    have h2 : KeepsForm (runMany ex ws 33 s') := keepsForm_runMany hex ws 33 hp
    dsimp only
    split
    · next t e =>
      rw [keepsForm_next, markBusy_mem]
      split at e
      · exact h1 _ _ e
      · exact h2 _ e
    · split
      · exact h1 _
      · exact h2
end

section
variable {s : State} (h : memWf s.mem = true)
include h

theorem keepsForm_stepAlone : KeepsForm (stepAlone s) := by
  unfold stepAlone
  split
  · exact keepsForm_exec h _
  · split
    · exact keepsForm_issue (fun i _ hs => keepsForm_exec hs i) h _
    · exact (keepsForm_next _).2 (by rw [tick_mem]; exact h)

theorem keepsForm_stepInput (x : Input) : KeepsForm (stepInput x s) := by
  cases x with
  | hostWrite => exact (keepsForm_next _).2 (by rw [hostWrite_mem]; exact h)
  | outside => exact (keepsForm_next _).2 (memWf_outsideWrite h)
  | arrayError => exact (keepsForm_next _).2 (by rw [arrayError_mem]; exact h)
  | linkError => exact (keepsForm_next _).2 (by rw [linkError_mem]; exact h)
  | upset => exact (keepsForm_next _).2 (by rw [upsetOp_mem]; exact h)
  | rail => exact (keepsForm_next _).2 (by rw [railAt_mem]; exact h)
  | sealPage => exact (keepsForm_next _).2 (by rw [sealPage_mem]; exact h)
  | loaded => exact (keepsForm_next _).2 (by rw [loaded_mem]; exact h)
  | member => exact (keepsForm_next _).2 (by rw [groupMember_mem]; exact h)
  | migrateTile => exact (keepsForm_next _).2 (memWf_migrateTile h)
  | event i =>
    dsimp only [stepInput]
    split
    · exact keepsForm_exec h i
    · exact keepsForm_fault _

/-- The invariant's step: nothing that the machine does, whatever it was fed, leaves the canonical form. -/
theorem keepsForm_step : KeepsForm (step s) := by
  unfold step
  split
  · next cy x rest _ =>
    split
    · exact keepsForm_stepInput (s := { s with agenda := rest }) h _
    · exact keepsForm_stepAlone h
  · exact keepsForm_stepAlone h
end

end Sys2Proof.Machine

namespace Sys2Proof

/-- Settles O60. A function of the model that writes memory does so through `memWrite`, `memWriteBytes`, `memClear` or a
filter of the cells, and each of these keeps the cells in order and free of zero bytes (`memWf_memWrite`,
`memWf_filter`); all else leaves the cells alone. The lemmas above carry this through every operation, event and
word to `step`. -/
theorem memoryStaysCanonical : Obligations.MemoryStaysCanonical := by
  unfold Obligations.MemoryStaysCanonical
  intro s t hs ht
  exact Machine.keepsForm_step hs t ht

end Sys2Proof
end

section
/-! SUPPORT. What a step that settles `READY` may change of the device, `READY` bit by bit, and a bit that is set or
cleared. -/

namespace Sys2Proof.Machine

open Sys2Proof

/-! ### What a housekeeping step may change of the device -/

/-- Only counters, the activations of rows and the notices of the device differ, and a raised status-change interrupt stays
raised. -/
def Noted (d d' : Dev) : Prop :=
  ∃ rows errs is ns m, d' = { d with rows := rows, errs := errs, intstat := is, notices := ns, hostMsgs := m } ∧
    (d.intstat.getLsbD 0 = true → is.getLsbD 0 = true)

theorem Noted.refl (d : Dev) : Noted d d := ⟨_, _, _, _, _, rfl, id⟩

theorem Noted.of_eq {d d' : Dev} (h : d' = d) : Noted d d' := h ▸ .refl d

theorem Noted.trans {a b c : Dev} (h1 : Noted a b) (h2 : Noted b c) : Noted a c := by
  obtain ⟨_, _, _, _, _, rfl, i1⟩ := h1
  obtain ⟨_, _, _, _, _, rfl, i2⟩ := h2
  exact ⟨_, _, _, _, _, rfl, fun h => i2 (i1 h)⟩

theorem noted_foldl {α : Type} {f : State → α → State} (hf : ∀ s x, Noted s.dev (f s x).dev) (l : List α) (s : State) :
    Noted s.dev (l.foldl f s).dev := by
  induction l generalizing s with
  | nil => exact .refl _
  | cons x l ih => exact (hf s x).trans (ih _)

theorem noted_queueRow (s : State) (k : Nat) : Noted s.dev (queueRow s k).dev := by
  unfold queueRow
  split
  · exact ⟨_, s.dev.errs, _, _, _, rfl, id⟩
  · exact .refl _

theorem noted_dropFlit (s : State) : Noted s.dev (dropFlit s).dev := ⟨_, _, _, _, _, rfl, id⟩

theorem stamp_dev (s : State) (k : Nat) : (stamp s k).1.dev = s.dev := by
  unfold stamp
  split <;> rfl

theorem storeAt_dev (s : State) (k n x : Nat) (p : Bool) : (storeAt s k n x p).dev = s.dev := by
  unfold storeAt
  split <;> rfl

theorem noted_applyPartial (s : State) (p : Partial) : Noted s.dev (applyPartial s p).dev := .of_eq (storeAt_dev ..)

theorem noted_combineLine (s : State) (l : Nat) : Noted s.dev (combineLine s l).dev := by
  unfold combineLine
  dsimp only
  split
  · exact .refl _
  · rw [stamp_dev]
    exact (noted_queueRow s (128 * l)).trans (noted_foldl noted_applyPartial _ _)

theorem noted_combineAt (s : State) (k n : Nat) : Noted s.dev (combineAt s k n).dev := by
  unfold combineAt
  split
  · exact .refl _
  · exact noted_foldl (fun s i => noted_combineLine ..) _ _

theorem noted_devPut (s : State) (k n x : Nat) : Noted s.dev (devPut s k n x).dev :=
  (noted_combineAt s k n).trans (.of_eq ((stamp_dev ..).trans (storeAt_dev ..)))

theorem noted_devStore (s : State) (k n x : Nat) : Noted s.dev (devStore s k n x).dev :=
  (noted_queueRow s k).trans (noted_devPut ..)

theorem noted_countLost (s : State) (part : Nat) (op : PortOp) (ptr n : Nat) : Noted s.dev (countLost s part op ptr n).dev := by
  unfold countLost
  split
  · exact noted_dropFlit s
  · exact .refl _

theorem noted_clearFaultRing (s : State) (p : Part) : Noted s.dev (clearFaultRing s p).dev := by
  refine noted_foldl (fun s i => ?_) _ _
  split
  · split
    · exact noted_devStore ..
    · exact noted_devPut ..
  · exact noted_countLost ..

theorem noted_resetPart (s : State) (part : Nat) : Noted s.dev (resetPart s part).dev := by
  unfold resetPart
  split
  · exact .refl _
  · exact noted_clearFaultRing ..

theorem noted_raiseInt (s : State) (bit : Nat) : Noted s.dev (raiseInt s bit).dev :=
  ⟨_, _, _, _, _, rfl, fun h => by simp [setBit, h]⟩

theorem noted_settlePart (s : State) (p : Part) : Noted s.dev (settlePart s p).dev := by
  unfold settlePart
  dsimp only
  split
  · exact .refl _
  · have h : ∀ c : Bool, ∀ u : State, Noted u.dev (if c = true then raiseInt u 3 else u).dev := fun c u => by
      split
      · exact noted_raiseInt u 3
      · exact .refl _
    split
    · exact (h _ (s.updPart _ _)).trans (noted_resetPart ..)
    · exact h _ (s.updPart _ _)

theorem noted_settleReady (s : State) : Noted s.dev (settleReady s).dev := noted_foldl noted_settlePart _ s

theorem readyChanged_dev (s : State) : (readyChanged s).dev = (raiseInt s 0).dev := by
  unfold readyChanged
  generalize raiseInt s 0 = u
  exact List.foldlRecOn (motive := fun v : State => v.dev = u.dev) s.ctls _ rfl fun v h c _ => h

theorem noted_readyChanged (s : State) : Noted s.dev (readyChanged s).dev := by
  rw [readyChanged_dev]
  exact noted_raiseInt s 0

theorem Noted.intstat {d d' : Dev} (h : Noted d d') (hd : d.intstat.getLsbD 0 = true) : d'.intstat.getLsbD 0 = true := by
  obtain ⟨_, _, _, _, _, rfl, hi⟩ := h
  exact hi hd

theorem readyChanged_raises (s : State) : (readyChanged s).dev.intstat.getLsbD 0 = true := by
  rw [readyChanged_dev]
  exact (getLsbD_setBit s.dev.intstat 0 0 true (by decide)).trans (if_pos rfl)

theorem Noted.readyIs {d d' : Dev} (h : Noted d d') (b : Nat) : readyIs d' b = readyIs d b := by
  obtain ⟨_, _, _, _, _, rfl, -⟩ := h
  rfl

/-! ### `READY` bit by bit -/

/-- The bits of a slot: `CC`, `FWM`, `FWS`, `FWU` (R30). -/
def slotBit (d : Dev) (s : Nat) : Nat → Bool
  | 0 => d.cc.getLsbD s
  | 1 => d.fwm.getLsbD s
  | 2 => d.fws.getLsbD s
  | _ => d.fwu.getLsbD s

/-- A `READY` bit by the register that holds it (R29, R30). -/
def readyBit (d : Dev) (b : Nat) : Bool :=
  if b < 4 then d.readyDie.getLsbD b
  else if b < 20 then d.readyStack.getLsbD (b - 4)
  else if b < 28 then d.readyFlash.getLsbD (b - 20)
  else if b < 40 then d.readyLink.getLsbD (b - 28)
  else if b < 64 then decide (b = 40) && d.readyHost
  else decide (b < 320) && slotBit d ((b - 64) / 4) (b % 4)

/-- A slot's four bits as a number. -/
def slotNibble (d : Dev) (s : Nat) : Nat :=
  boolBit (d.cc.getLsbD s) + 2 * boolBit (d.fwm.getLsbD s) + 4 * boolBit (d.fws.getLsbD s) + 8 * boolBit (d.fwu.getLsbD s)

theorem testBit_add_mul_two_pow (x y i j : Nat) (hx : x < 2 ^ i) :
    (x + y * 2 ^ i).testBit j = if j < i then x.testBit j else y.testBit (j - i) := by
  rw [Nat.add_comm, Nat.mul_comm, Nat.testBit_two_pow_mul_add _ hx]

theorem testBit_toNat_add_mul {n : Nat} (x : BitVec n) (y j : Nat) :
    (x.toNat + y * 2 ^ n).testBit j = if j < n then x.getLsbD j else y.testBit (j - n) := by
  rw [testBit_add_mul_two_pow _ _ _ _ x.isLt, BitVec.testBit_toNat]

theorem testBit_boolBit (c : Bool) (j : Nat) : (boolBit c).testBit j = (decide (j = 0) && c) := by
  cases c
  · simp [boolBit]
  · cases j <;> simp [boolBit, Nat.testBit_succ]

theorem readyWord_zero_testBit (d : Dev) (b : Nat) (hb : b < 64) : (readyWord d 0).testBit b = readyBit d b := by
  have e : readyWord d 0 = d.readyDie.toNat + (d.readyStack.toNat + (d.readyFlash.toNat + (d.readyLink.toNat +
      boolBit d.readyHost * 2 ^ 12) * 2 ^ 8) * 2 ^ 16) * 2 ^ 4 := by
    rw [readyWord, if_pos rfl]
    omega
  rw [e, testBit_toNat_add_mul, testBit_toNat_add_mul, testBit_toNat_add_mul, testBit_toNat_add_mul, testBit_boolBit, readyBit]
  have h1 : b - 4 < 16 ↔ b < 20 := by omega
  have h2 : b - 20 < 8 ↔ b < 28 := by omega
  have h3 : b - 28 < 12 ↔ b < 40 := by omega
  simp only [Nat.sub_sub, Nat.reduceAdd, h1, h2, h3, hb, if_true]
  split
  · rfl
  split
  · rfl
  split
  · rfl
  split
  · rfl
  congr 2
  simp only [eq_iff_iff]
  omega

theorem slotNibble_lt (d : Dev) (s : Nat) : slotNibble d s < 2 ^ 4 := by
  have h : ∀ c, boolBit c ≤ 1 := by decide
  have h1 := h (d.cc.getLsbD s)
  have h2 := h (d.fwm.getLsbD s)
  have h3 := h (d.fws.getLsbD s)
  have h4 := h (d.fwu.getLsbD s)
  unfold slotNibble
  omega

theorem testBit_nibbles (f : Nat → Nat) (hf : ∀ m, f m < 2 ^ 4) (n j : Nat) :
    ((List.range n).foldl (fun x m => x + f m * 2 ^ (4 * m)) 0) < 2 ^ (4 * n) ∧
    ((List.range n).foldl (fun x m => x + f m * 2 ^ (4 * m)) 0).testBit j =
      (decide (j < 4 * n) && (f (j / 4)).testBit (j % 4)) := by
  induction n with
  | zero => simp
  | succ n ih =>
    obtain ⟨hlt, hbit⟩ := ih
    have hn := hf n
    rw [List.range_succ, List.foldl_append, List.foldl_cons, List.foldl_nil]
    constructor
    · rw [Nat.mul_succ, Nat.pow_add]
      nlinarith
    · rw [testBit_add_mul_two_pow _ _ _ _ hlt, hbit]
      split
      · simp_all; omega
      · by_cases h : j < 4 * (n + 1)
        · have : j / 4 = n := by omega
          have : j - 4 * n = j % 4 := by omega
          simp_all
        · rw [Nat.testBit_lt_two_pow (lt_of_lt_of_le hn (Nat.pow_le_pow_right (by decide) (by omega)))]
          simp [h]

theorem boolBit_lt (c : Bool) : boolBit c < 2 ^ 1 := by cases c <;> decide

theorem slotNibble_testBit (d : Dev) (s j : Nat) (hj : j < 4) :
    (slotNibble d s).testBit j = slotBit d s j := by
  have e : slotNibble d s = boolBit (d.cc.getLsbD s) + (boolBit (d.fwm.getLsbD s) + (boolBit (d.fws.getLsbD s) +
      boolBit (d.fwu.getLsbD s) * 2 ^ 1) * 2 ^ 1) * 2 ^ 1 := by
    unfold slotNibble
    omega
  rw [e, testBit_add_mul_two_pow _ _ _ _ (boolBit_lt _), testBit_add_mul_two_pow _ _ _ _ (boolBit_lt _),
    testBit_add_mul_two_pow _ _ _ _ (boolBit_lt _)]
  simp only [testBit_boolBit]
  match j, hj with
  | 0, _ => simp [slotBit]
  | 1, _ => simp [slotBit]
  | 2, _ => simp [slotBit]
  | 3, _ => simp [slotBit]

theorem readyWord_slot_testBit (d : Dev) (b : Nat) (hb : 64 ≤ b) :
    (readyWord d (b / 64)).testBit (b % 64) = (slotNibble d ((b - 64) / 4)).testBit (b % 4) := by
  have e : readyWord d (b / 64) =
      (List.range 16).foldl (fun x m => x + slotNibble d (16 * (b / 64 - 1) + m) * 2 ^ (4 * m)) 0 := by
    rw [readyWord, if_neg (by omega)]
    rfl
  rw [e, (testBit_nibbles (fun m => slotNibble d (16 * (b / 64 - 1) + m)) (fun m => slotNibble_lt d _) 16 (b % 64)).2]
  have h1 : 16 * (b / 64 - 1) + b % 64 / 4 = (b - 64) / 4 := by omega
  have h2 : b % 64 % 4 = b % 4 := by omega
  have h3 : b % 64 < 4 * 16 := by omega
  rw [h1, h2, decide_eq_true h3, Bool.true_and]

theorem readyIs_eq_readyBit (d : Dev) (b : Nat) : readyIs d b = readyBit d b := by
  have e : readyIs d b = (decide (b < 320) && (readyWord d (b / 64)).testBit (b % 64)) := by
    rw [readyIs, Nat.testBit_eq_decide_div_mod_eq]
  rw [e]
  by_cases hb : b < 64
  · rw [Nat.div_eq_of_lt hb, Nat.mod_eq_of_lt hb, readyWord_zero_testBit d b hb, decide_eq_true (by omega), Bool.true_and]
  · rw [readyWord_slot_testBit d b (by omega), slotNibble_testBit d _ _ (Nat.mod_lt b (by decide)), readyBit,
      if_neg (by omega), if_neg (by omega), if_neg (by omega), if_neg (by omega), if_neg hb]

theorem getLsbD_setBit_shift {n : Nat} (x : BitVec n) (lo i j : Nat) (v : Bool) (hi : lo ≤ i) (hj : lo ≤ j)
    (hn : i - lo < n) :
    (setBit x (i - lo) v).getLsbD (j - lo) = if j = i then v else x.getLsbD (j - lo) := by
  rw [getLsbD_setBit _ _ _ _ hn]
  congr 1
  simp only [eq_iff_iff]
  omega

theorem readyBit_putReady_low (d : Dev) (bit : Nat) (v : Bool) (hbit : bit ≤ 40) (b : Nat) :
    readyBit (putReady d bit v) b = if b = bit then v else readyBit d b := by
  have h0 := getLsbD_setBit_shift d.readyDie 0 bit b v
  have h1 := getLsbD_setBit_shift d.readyStack 4 bit b v
  have h2 := getLsbD_setBit_shift d.readyFlash 20 bit b v
  have h3 := getLsbD_setBit_shift d.readyLink 28 bit b v
  simp only [Nat.sub_zero, Nat.zero_le, true_implies] at h0
  unfold putReady
  split
  · simp only [readyBit, slotBit]; grind
  split
  · simp only [readyBit, slotBit]; grind
  split
  · simp only [readyBit, slotBit]; grind
  split
  · simp only [readyBit, slotBit]; grind
  · rw [if_pos (by omega)]; simp only [readyBit, slotBit]; grind

theorem slotBit_putReady (d : Dev) (bit : Nat) (v : Bool) (hlo : 64 ≤ bit) (hhi : bit < 320) (s k : Nat) (hk : k < 4) :
    slotBit (putReady d bit v) s k = if s = (bit - 64) / 4 ∧ k = bit % 4 then v else slotBit d s k := by
  have hs : (bit - 64) / 4 < 64 := by omega
  have h0 := getLsbD_setBit d.cc ((bit - 64) / 4) s v hs
  have h1 := getLsbD_setBit d.fwm ((bit - 64) / 4) s v hs
  have h2 := getLsbD_setBit d.fws ((bit - 64) / 4) s v hs
  have h3 := getLsbD_setBit d.fwu ((bit - 64) / 4) s v hs
  unfold putReady
  rw [if_neg (by omega), if_neg (by omega), if_neg (by omega), if_neg (by omega), if_neg (by omega)]
  dsimp only
  split <;> (simp only [slotBit]; grind)

theorem readyBit_slot (d : Dev) {b : Nat} (hb : ¬b < 64) :
    readyBit d b = (decide (b < 320) && slotBit d ((b - 64) / 4) (b % 4)) := by
  rw [readyBit, if_neg (by omega), if_neg (by omega), if_neg (by omega), if_neg (by omega), if_neg hb]

theorem readyBit_putReady (d : Dev) (bit : Nat) (v : Bool) (hbit : bit ≤ 40 ∨ (64 ≤ bit ∧ bit < 320)) (b : Nat) :
    readyBit (putReady d bit v) b = if b = bit then v else readyBit d b := by
  rcases hbit with hbit | ⟨hlo, hhi⟩
  · exact readyBit_putReady_low d bit v hbit b
  · have hlow : b < 64 → readyBit (putReady d bit v) b = readyBit d b := fun hb => by
      unfold putReady
      rw [if_neg (by omega), if_neg (by omega), if_neg (by omega), if_neg (by omega), if_neg (by omega)]
      dsimp only
      split <;> simp [readyBit, hb]
    by_cases hb : b < 64
    · rw [hlow hb, if_neg (by omega)]
    · rw [readyBit_slot _ hb, readyBit_slot _ hb, slotBit_putReady d bit v hlo hhi _ _ (Nat.mod_lt b (by decide))]
      grind

theorem readyBit_of_range {d : Dev} {bit : Nat} (h : readyBit d bit = true) : bit ≤ 40 ∨ (64 ≤ bit ∧ bit < 320) := by
  unfold readyBit at h
  grind

theorem maySet_range {d : Dev} {bit : Nat} (h : maySet d bit = true) : bit ≤ 40 ∨ (64 ≤ bit ∧ bit < 320) := by
  unfold maySet at h
  grind

theorem comeUp_readyBit (s : State) (bit b : Nat) : readyBit (comeUp s bit).dev b = readyBit s.dev b := by
  unfold comeUp
  split
  · rfl
  split
  · rfl
  split
  · rfl
  · rfl

/-- What `READY` shows after a change that is announced and settled. -/
theorem readyIs_settled (u : State) (b : Nat) : readyIs (settleReady (readyChanged u)).dev b = readyBit u.dev b := by
  rw [((noted_readyChanged u).trans (noted_settleReady _)).readyIs, readyIs_eq_readyBit]

theorem settled_raises (u : State) : (settleReady (readyChanged u)).dev.intstat.getLsbD 0 = true :=
  (noted_settleReady _).intstat (readyChanged_raises u)

theorem updDev_dev (s : State) (f : Dev → Dev) : (s.updDev f).dev = f s.dev := rfl

theorem happens_readySet {s : State} {bit : Nat} (hmay : maySet s.dev bit = true) (hnot : readyIs s.dev bit = false) :
    Happens (.readySet bit) s fun t =>
      t.dev.intstat.getLsbD 0 = true ∧ ∀ b, readyIs t.dev b = (readyIs s.dev b || decide (b = bit)) := by
  refine ⟨_, congrArg Host.Outcome.next (if_pos (by rw [hmay, hnot]; rfl)), settled_raises _, fun b => ?_⟩
  rw [readyIs_settled, readyIs_eq_readyBit, updDev_dev, readyBit_putReady _ _ _ (maySet_range hmay), comeUp_readyBit]
  by_cases h : b = bit <;> simp [h]

/-- The device with a slot's bits from `k` on cleared (R31). -/
def clearedFrom (d : Dev) (slot k : Nat) : Dev :=
  { d with cc := if k = 0 then setBit d.cc slot false else d.cc,
           fwm := if k ≤ 1 then setBit d.fwm slot false else d.fwm,
           fws := if k ≤ 2 then setBit d.fws slot false else d.fws,
           fwu := setBit d.fwu slot false }

theorem clearReadyFrom_eq (s : State) (slot k : Nat) :
    clearReadyFrom s slot k = settleReady (readyChanged (s.updDev fun d => clearedFrom d slot k)) := rfl

theorem slotBit_clearedFrom (d : Dev) (slot k s j : Nat) (hs : slot < 64) (hk : k < 4) (hj : j < 4) :
    slotBit (clearedFrom d slot k) s j = (slotBit d s j && !(decide (s = slot) && decide (k ≤ j))) := by
  have h0 := getLsbD_setBit d.cc slot s false hs
  have h1 := getLsbD_setBit d.fwm slot s false hs
  have h2 := getLsbD_setBit d.fws slot s false hs
  have h3 := getLsbD_setBit d.fwu slot s false hs
  match j, hj with
  | 0, _ => simp only [slotBit, clearedFrom]; grind
  | 1, _ => simp only [slotBit, clearedFrom]; grind
  | 2, _ => simp only [slotBit, clearedFrom]; grind
  | 3, _ => simp only [slotBit, clearedFrom]; grind

theorem readyBit_clearedFrom (d : Dev) (bit b : Nat) (hlo : 64 ≤ bit) (hhi : bit < 320) :
    readyBit (clearedFrom d ((bit - 64) / 4) (bit % 4)) b = (readyBit d b && !(decide (b / 4 = bit / 4) && decide (bit ≤ b))) := by
  by_cases hb : b < 64
  · have hne : ¬b / 4 = bit / 4 := by omega
    simp [readyBit, clearedFrom, hb, hne]
  · have e : ((b - 64) / 4 = (bit - 64) / 4 ∧ bit % 4 ≤ b % 4) ↔ (b / 4 = bit / 4 ∧ bit ≤ b) := by omega
    rw [readyBit_slot _ hb, readyBit_slot _ hb,
      slotBit_clearedFrom _ _ _ _ _ (by omega) (Nat.mod_lt _ (by decide)) (Nat.mod_lt b (by decide)),
      ← Bool.decide_and, ← Bool.decide_and, decide_eq_decide.2 e, Bool.and_assoc]

theorem happens_readyClear {s : State} {bit : Nat} (hset : readyIs s.dev bit = true) :
    Happens (.readyClear bit) s fun t => t.dev.intstat.getLsbD 0 = true ∧
      ∀ b, readyIs t.dev b = (readyIs s.dev b &&
        !(decide (b = bit) || (decide (64 ≤ bit) && decide (b / 4 = bit / 4) && decide (bit ≤ b)))) := by
  have hr := readyBit_of_range ((readyIs_eq_readyBit s.dev bit).symm.trans hset)
  by_cases hlow : bit < 64
  · refine ⟨_, congrArg Host.Outcome.next ((if_neg (by simp [hset])).trans (if_pos hlow)), settled_raises _, fun b => ?_⟩
    rw [readyIs_settled, readyIs_eq_readyBit, updDev_dev]
    have hp : ∀ (c : Prop) [Decidable c] (d : Dev) ps, readyBit (if c then { d with peers := ps } else d) b = readyBit d b :=
      fun _ _ _ _ => by split <;> rfl
    rw [hp, readyBit_putReady _ _ _ hr]
    by_cases h : b = bit
    · simp [h]
    · simp [h, hlow]
  · refine ⟨_, congrArg Host.Outcome.next ((if_neg (by simp [hset])).trans (if_neg hlow)), settled_raises _, fun b => ?_⟩
    have hd : (if bit % 4 = 0 then stopControl s ((bit - 64) / 4) else s).dev = s.dev := by split <;> rfl
    dsimp only
    rw [clearReadyFrom_eq, readyIs_settled, readyIs_eq_readyBit, updDev_dev, hd,
      readyBit_clearedFrom _ _ _ (by omega) (by omega)]
    by_cases h : b = bit
    · simp [h]
    · simp [h, Nat.le_of_not_lt hlow]

end Sys2Proof.Machine
end

section
/-! SUPPORT. The ports and peers of a device, and forwarded writes (R390, R391, R394). -/

namespace Sys2Proof.Machine

open Sys2Proof

/-- A change of the links shows in the device, but for the notice of it. -/
theorem noted_linkChange (s : State) (f : Dev → Dev) : Noted (f s.dev) (linkChange s f).dev := by
  have h : ∀ (c : Prop) [Decidable c] (u : State), Noted u.dev (if c then u else readyChanged u).dev := fun c _ u => by
    split
    · exact .refl _
    · exact noted_readyChanged u
  exact h _ (s.updDev f)

theorem Noted.links {d d' : Dev} (h : Noted d d') :
    d'.readyLink = d.readyLink ∧ d'.peers = d.peers ∧ d'.grpact = d.grpact := by
  obtain ⟨_, _, _, _, _, rfl, -⟩ := h
  exact ⟨rfl, rfl, rfl⟩

theorem setWidth_eq_iff_mod {m n : Nat} (x y : BitVec n) :
    x.setWidth m = y.setWidth m ↔ x.toNat % 2 ^ m = y.toNat % 2 ^ m := by
  rw [← BitVec.toNat_inj, BitVec.toNat_setWidth, BitVec.toNat_setWidth]

/-- A port trains: the device is what `trainPort` gives, but for the notice. -/
theorem happens_portTrain {s : State} {port : Nat} {peer : BitVec 64} (hp : port < 12) {P : State → Prop}
    (hP : ∀ t, Noted (trainPort s.dev port peer) t.dev → P t) : Happens (.portTrain port peer) s P :=
  ⟨_, congrArg Host.Outcome.next (if_pos hp), hP _ (noted_linkChange s _)⟩

/-- Whether both ends of a port are of one group (R390). -/
def sameGroup (me peer : DWord) : Bool := me.getLsbD 63 && peer.getLsbD 63 && me.setWidth 16 = peer.setWidth 16

theorem sameGroup_iff (me peer : DWord) : sameGroup me peer = true ↔
    me.getLsbD 63 = true ∧ peer.getLsbD 63 = true ∧ me.toNat % 2 ^ 16 = peer.toNat % 2 ^ 16 := by
  rw [sameGroup, Bool.and_eq_true, Bool.and_eq_true, decide_eq_true_eq, setWidth_eq_iff_mod, and_assoc]

theorem bitsN_devnum (x : DWord) : bitsN x.toNat 36 32 = x.toNat / 2 ^ 32 % 2 ^ 5 := by
  rw [bitsN, Nat.shiftRight_eq_div_pow]

theorem bitsN_group (x : DWord) : bitsN x.toNat 15 0 = x.toNat % 2 ^ 16 := by
  rw [bitsN, Nat.shiftRight_zero]

/-- A port that stays down. -/
def portDown (d : Dev) (port : Nat) : Dev :=
  countError { d with readyLink := setBit d.readyLink port false, peers := d.peers.filter fun x => x.1 ≠ port } formationCounter

/-- A port that comes up with its peer. -/
def portUp (d : Dev) (port : Nat) (peer : DWord) : Dev :=
  let d : Dev := { d with
    readyLink := setBit d.readyLink port true,
    peers := (port, bitsN peer.toNat 36 32, peer.getLsbD 40) :: d.peers.filter fun x => x.1 ≠ port }
  { d with readyHost := bridgeHere d }

/-- `trainPort` by its three outcomes (R390). -/
theorem trainPort_eq (d : Dev) (port : Nat) (peer : DWord) : trainPort d port peer =
    if sameGroup d.grpcfg peer && decide (bitsN peer.toNat 36 32 = bitsN d.grpcfg.toNat 36 32) then
      groupClash { d with grpact := d.grpcfg }
    else if !sameGroup d.grpcfg peer ||
        decide (d.clash = some (bitsN d.grpcfg.toNat 15 0, bitsN d.grpcfg.toNat 36 32)) then
      portDown { d with grpact := d.grpcfg } port
    else portUp { d with grpact := d.grpcfg } port peer := rfl

theorem trainPort_up {d : Dev} {port : Nat} {peer : DWord} (hs : sameGroup d.grpcfg peer = true)
    (hn : peer.toNat / 2 ^ 32 % 2 ^ 5 ≠ d.grpcfg.toNat / 2 ^ 32 % 2 ^ 5)
    (hc : d.clash ≠ some (d.grpcfg.toNat % 2 ^ 16, d.grpcfg.toNat / 2 ^ 32 % 2 ^ 5)) :
    trainPort d port peer = portUp { d with grpact := d.grpcfg } port peer := by
  rw [trainPort_eq, bitsN_devnum, bitsN_devnum, bitsN_group, 
    if_neg (by rw [hs, Bool.true_and, decide_eq_true_eq]; exact hn),
    if_neg (by rw [hs, Bool.not_true, Bool.false_or, decide_eq_true_eq]; exact hc)]

theorem trainPort_clash {d : Dev} {port : Nat} {peer : DWord} (hs : sameGroup d.grpcfg peer = true)
    (hn : peer.toNat / 2 ^ 32 % 2 ^ 5 = d.grpcfg.toNat / 2 ^ 32 % 2 ^ 5) :
    trainPort d port peer = groupClash { d with grpact := d.grpcfg } := by
  rw [trainPort_eq, bitsN_devnum, bitsN_devnum, 
    if_pos (by rw [hs, Bool.true_and, decide_eq_true_eq]; exact hn)]

theorem trainPort_other {d : Dev} {port : Nat} {peer : DWord} (hs : sameGroup d.grpcfg peer = false) :
    trainPort d port peer = portDown { d with grpact := d.grpcfg } port := by
  rw [trainPort_eq, if_neg (by simp [hs]), if_pos (by simp [hs])]

section
variable {s : State} {port : Nat} {peer : DWord} (hp : port < 12)
include hp

theorem happens_portTrain_up (hs : sameGroup s.dev.grpcfg peer = true)
    (hn : peer.toNat / 2 ^ 32 % 2 ^ 5 ≠ s.dev.grpcfg.toNat / 2 ^ 32 % 2 ^ 5)
    (hc : s.dev.clash ≠ some (s.dev.grpcfg.toNat % 2 ^ 16, s.dev.grpcfg.toNat / 2 ^ 32 % 2 ^ 5)) :
    Happens (.portTrain port peer) s fun t => t.dev.readyLink.getLsbD port = true ∧
      (port, peer.toNat / 2 ^ 32 % 2 ^ 5, peer.getLsbD 40) ∈ t.dev.peers ∧ t.dev.grpact = s.dev.grpcfg := by
  refine happens_portTrain hp fun t h => ?_
  obtain ⟨hl, hpeers, hg⟩ := h.links
  rw [trainPort_up hs hn hc] at hl hpeers hg
  rw [hl, hpeers, hg]
  exact ⟨(getLsbD_setBit _ _ _ _ hp).trans (if_pos rfl), by rw [← bitsN_devnum]; exact List.mem_cons_self, rfl⟩

theorem happens_portTrain_clash (hs : sameGroup s.dev.grpcfg peer = true)
    (hn : peer.toNat / 2 ^ 32 % 2 ^ 5 = s.dev.grpcfg.toNat / 2 ^ 32 % 2 ^ 5) :
    Happens (.portTrain port peer) s fun t => t.dev.readyLink = 0 ∧ t.dev.peers = [] ∧ t.dev.grpact = s.dev.grpcfg := by
  refine happens_portTrain hp fun t h => ?_
  obtain ⟨hl, hpeers, hg⟩ := h.links
  rw [trainPort_clash hs hn] at hl hpeers hg
  exact ⟨hl, hpeers, hg⟩

theorem happens_portTrain_other (hs : sameGroup s.dev.grpcfg peer = false) :
    Happens (.portTrain port peer) s fun t =>
      t.dev.readyLink.getLsbD port = false ∧ (∀ x ∈ t.dev.peers, x.1 ≠ port) ∧ t.dev.grpact = s.dev.grpcfg := by
  refine happens_portTrain hp fun t h => ?_
  obtain ⟨hl, hpeers, hg⟩ := h.links
  rw [trainPort_other hs] at hl hpeers hg
  rw [hl, hpeers, hg]
  exact ⟨(getLsbD_setBit _ _ _ _ hp).trans (if_pos rfl), fun x hx => by simpa using (List.mem_filter.1 hx).2, rfl⟩
end

/-! ### What a check of a wake condition leaves -/

theorem enterLadle_eq (s : State) (tid : Nat) :
    ∃ n l e, enterLadle s tid = { s with nextId := n, ladles := l, entryLists := e } := by
  unfold enterLadle
  split
  · split
    · exact ⟨_, _, _, rfl⟩
    · dsimp only
      split
      · exact ⟨s.nextId, _, s.entryLists, rfl⟩
      · split
        · exact ⟨_, _, s.entryLists, rfl⟩
        · exact ⟨s.nextId, s.ladles, _, rfl⟩
  · exact ⟨_, _, _, rfl⟩

theorem checkWake_eq (s : State) (tid : Nat) :
    ∃ r n l e, checkWake s tid = { s with recs := r, nextId := n, ladles := l, entryLists := e } := by
  have hfire : ∀ c, ∃ r n l e, fireWake s tid c = { s with recs := r, nextId := n, ladles := l, entryLists := e } := fun c => by
    unfold fireWake
    split
    · exact ⟨_, _, _, _, rfl⟩
    · split
      · exact ⟨_, _, _, _, rfl⟩
      · obtain ⟨n, l, e, h⟩ := enterLadle_eq (s.updRec tid fun r => { r with fired := some s.time, status := c }) tid
        exact ⟨_, n, l, e, h⟩
  unfold checkWake
  split
  · exact ⟨_, _, _, _, rfl⟩
  · split
    · exact hfire _
    · exact ⟨_, _, _, _, rfl⟩

/-! ### The accesses through a peer that went down (R391) -/

/-- What becomes of an access whose peer went down. -/
def Acc.lostAt (now : Nat) (k : AccKind) (a : Acc) : Acc :=
  match k with
  | .load | .lda | .atom _ => { a with stage := .performed, poison := true }
  | _ => { a with stage := .done, gwct := now }

theorem Acc.lostAt_id (now : Nat) (k : AccKind) (a : Acc) : (a.lostAt now k).id = a.id := by cases k <;> rfl

theorem Acc.lostAt_twice (now : Nat) (k : AccKind) (a : Acc) : (a.lostAt now k).lostAt now k = a.lostAt now k := by
  cases k <;> rfl

theorem loseAcc_eq (s : State) (a : Acc) :
    ∃ r n l e, loseAcc s a =
      { s.updAcc a.id (Acc.lostAt s.time a.kind) with recs := r, nextId := n, ladles := l, entryLists := e } := by
  unfold loseAcc
  cases a.kind with
  | load | lda | atom => exact ⟨_, _, _, _, rfl⟩
  | _ =>
    dsimp only
    split
    · exact checkWake_eq (s.updAcc a.id _) _
    · exact ⟨_, _, _, _, rfl⟩

theorem acc?_updAcc_other (s : State) (id n : Nat) (f : Acc → Acc) (hf : ∀ u, (f u).id = u.id) (hn : n ≠ id) :
    (s.updAcc id f).acc? n = s.acc? n :=
  State.find?_updL_other (fun x h => by simp at h ⊢; omega) (fun x h => by simp [hf] at h ⊢; omega) _

theorem loseAcc_acc? (s : State) (a : Acc) (id : Nat) :
    (loseAcc s a).acc? id = if a.id = id then (s.acc? id).map (Acc.lostAt s.time a.kind) else s.acc? id := by
  obtain ⟨r, n, l, e, h⟩ := loseAcc_eq s a
  rw [h]
  split
  · next hid =>
    subst hid
    exact State.acc?_updAcc s _ _ (Acc.lostAt_id _ _)
  · next hid => exact acc?_updAcc_other s a.id id _ (Acc.lostAt_id _ _) (Ne.symm hid)

theorem loseAcc_time (s : State) (a : Acc) : (loseAcc s a).time = s.time := by
  obtain ⟨r, n, l, e, h⟩ := loseAcc_eq s a
  rw [h]
  rfl

theorem loseAcc_parts (s : State) (a : Acc) : (loseAcc s a).parts = s.parts := by
  obtain ⟨r, n, l, e, h⟩ := loseAcc_eq s a
  rw [h]
  rfl

/-- Where an identifier names one access, a walk over the lost ones changes it once. -/
theorem foldl_loseAcc_acc? {a : Acc} (l : List Acc) (hl : ∀ b ∈ l, b.id = a.id → b = a) (s : State) :
    (l.foldl loseAcc s).acc? a.id = if a ∈ l then (s.acc? a.id).map (Acc.lostAt s.time a.kind) else s.acc? a.id := by
  induction l generalizing s with
  | nil => rfl
  | cons b l ih =>
    rw [List.foldl_cons, ih (fun c hc => hl c (List.mem_cons_of_mem _ hc)), loseAcc_acc?, loseAcc_time]
    by_cases hb : b = a
    · subst hb
      simp only [if_true, List.mem_cons_self]
      split
      · rw [Option.map_map]
        congr 1
        exact funext (Acc.lostAt_twice _ _)
      · rfl
    · have hid : b.id ≠ a.id := fun h => hb (hl b List.mem_cons_self h)
      have hm : a ∈ b :: l ↔ a ∈ l := by simp [Ne.symm hb]
      simp only [if_neg hid, hm]

theorem foldl_loseAcc_parts (l : List Acc) (s : State) : (l.foldl loseAcc s).parts = s.parts :=
  List.foldlRecOn (motive := fun v : State => v.parts = s.parts) l _ rfl fun v h c _ => (loseAcc_parts v c).trans h

theorem acc?_of_unique {s : State} {a : Acc} (ha : a ∈ s.accs) (hu : ∀ b ∈ s.accs, b.id = a.id → b = a) :
    s.acc? a.id = some a := by
  have h : (s.acc? a.id).isSome = true := List.find?_isSome.2 ⟨a, ha, by simp⟩
  obtain ⟨b, hb⟩ := Option.isSome_iff_exists.1 h
  rw [hb, hu b (List.mem_of_find?_eq_some hb) (by simpa using List.find?_some hb)]

theorem loseThrough_acc? {s : State} {p : Part} {e : Nat} {a : Acc} (ha : a ∈ s.accs)
    (hu : ∀ b ∈ s.accs, b.id = a.id → b = a) (hp : throughPeer s p e a = true)
    (hs : a.stage = .sent ∨ a.stage = .performed) :
    (loseThrough s p e).acc? a.id = some (a.lostAt s.time a.kind) := by
  have hm : a ∈ s.accs.filter fun a => throughPeer s p e a && (a.stage = .sent || a.stage = .performed) :=
    List.mem_filter.2 ⟨ha, by simpa [hp] using hs⟩
  rw [loseThrough, foldl_loseAcc_acc? _ fun b hb => hu b (List.mem_of_mem_filter hb), if_pos hm, acc?_of_unique ha hu]
  rfl

/-! The bytes that a lookup sees do not depend on the partitions' registers. -/

/-- Other partitions' registers. -/
def State.withParts (ps : List Part) (s : State) : State := { s with parts := ps }

theorem queueRow_withParts (ps : List Part) (s : State) (k : Nat) :
    queueRow (s.withParts ps) k = (queueRow s k).withParts ps := by
  unfold queueRow
  split <;> rfl

theorem stamp_withParts (ps : List Part) (s : State) (k : Nat) : (stamp (s.withParts ps) k).1 = (stamp s k).1.withParts ps := by
  unfold stamp
  split <;> rfl

theorem applyPartial_withParts (ps : List Part) (s : State) (p : Partial) :
    applyPartial (s.withParts ps) p = (applyPartial s p).withParts ps := by
  have hp : ∀ a n, poisonedAt (s.withParts ps) a n = poisonedAt s a n := fun _ _ => rfl
  unfold applyPartial storeAt
  dsimp only
  rw [hp]
  split <;> rfl

/-- The gathered values of a line, in the order in which they are combined (R186). -/
def gatheredOf (s : State) (l : Nat) : List Partial :=
  let cs := s.ucopies.filter fun u => u.line = l && u.granted
  (sortN (cs.map (·.core))).flatMap fun c => (cs.filter fun u => u.core = c).flatMap (·.parts)

/-- A line's gathering copies are gone. -/
def dropCopies (l : Nat) (s : State) : State := { s with ucopies := s.ucopies.filter fun u => !(u.line = l && u.granted) }

theorem combineLine_eq (s : State) (l : Nat) : combineLine s l = dropCopies l
    (if (gatheredOf s l).isEmpty then s
    else (stamp ((gatheredOf s l).foldl applyPartial (queueRow s (128 * l))) (128 * l)).1) := rfl

theorem combineLine_withParts (ps : List Part) (s : State) (l : Nat) :
    combineLine (s.withParts ps) l = (combineLine s l).withParts ps := by
  have hg : gatheredOf (s.withParts ps) l = gatheredOf s l := rfl
  rw [combineLine_eq, combineLine_eq, hg]
  split
  · rfl
  · rw [queueRow_withParts, List.foldl_hom (State.withParts ps) (H := fun s p => applyPartial_withParts ps s p),
      stamp_withParts]
    rfl

theorem combineAt_withParts (ps : List Part) (s : State) (k n : Nat) :
    combineAt (s.withParts ps) k n = (combineAt s k n).withParts ps := by
  have hu : (s.withParts ps).ucopies = s.ucopies := rfl
  unfold combineAt
  rw [hu]
  split
  · rfl
  · exact List.foldl_hom (State.withParts ps) fun s i => combineLine_withParts ps s (k / 128 + i)

theorem homePeek_updPart (s : State) (m : Nat) (f : Part → Part) (k n : Nat) : homePeek (s.updPart m f) k n = homePeek s k n := by
  have h : s.updPart m f = s.withParts (updL (fun x => x.first = m) f s.parts) := rfl
  rw [homePeek, h, combineAt_withParts]
  rfl

/-- What a read of a table gives. (Unfolded as a constant: the kernel would evaluate `setKey`.) -/
theorem tableNat_eq : ∀ (s : State) (p : Part) (a n : Nat),
    tableNat s p a n = (setKey p 0 4 a).elim 0 fun k => homePeek s k n := by
  have e : @tableNat = @tableNat := rfl
  conv at e => rhs; delta tableNat
  rw [e]
  intro s p a n
  beta_reduce
  generalize setKey p 0 4 a = k
  cases k with
  | none => rfl
  | some k => rfl

theorem tableNat_congr {s s' : State} (h : ∀ k n, homePeek s k n = homePeek s' k n) (p : Part) (a n : Nat) :
    tableNat s p a n = tableNat s' p a n := by
  rw [tableNat_eq, tableNat_eq, funext fun k => h k n]

theorem btMem_congr {s s' : State} (h : ∀ k n, homePeek s k n = homePeek s' k n) (p : Part) (i : Nat) :
    btMem s p i = btMem s' p i := by
  rw [btMem, btMem, tableNat_congr h]

theorem throughPeer_updPart (s : State) (n : Nat) (f : Part → Part) (p : Part) (e : Nat) (a : Acc) :
    throughPeer (s.updPart n f) p e a = throughPeer s p e a := by
  rw [throughPeer, throughPeer, btMem_congr (homePeek_updPart s n f)]

/-! ### An entry of `PEER` (R391) -/

theorem peer_idx (p : Part) (e : Nat) : (p.peer e).idx = e := by
  unfold Part.peer
  cases h : p.peers.find? fun x => x.idx = e with
  | none => rfl
  | some x => simpa using List.find?_some h

/-- The partition with one entry changed. -/
def putPeer (p : Part) (e : Nat) (f : PeerEntry → PeerEntry) : Part :=
  { p with peers := f (p.peer e) :: p.peers.filter fun y => y.idx ≠ e }

theorem peer_putPeer_same (p : Part) (e : Nat) {f : PeerEntry → PeerEntry} (hf : ∀ x, (f x).idx = x.idx) :
    (putPeer p e f).peer e = f (p.peer e) := by
  rw [Part.peer, putPeer, List.find?_cons_of_pos (by simp [hf, peer_idx]), Option.getD_some]

theorem peer_putPeer_other (p : Part) {e j : Nat} (hj : j ≠ e) {f : PeerEntry → PeerEntry} (hf : ∀ x, (f x).idx = x.idx) :
    (putPeer p e f).peer j = p.peer j := by
  have h : (fun a : PeerEntry => decide (decide (a.idx ≠ e) = true ∧ decide (a.idx = j) = true)) =
      fun a => decide (a.idx = j) :=
    funext fun a => by by_cases ha : a.idx = j <;> simp [ha, hj]
  rw [Part.peer, putPeer, List.find?_cons_of_neg (by simp [hf, peer_idx, Ne.symm hj]), List.find?_filter, h, Part.peer]

theorem part?_updPeer {s : State} {part e : Nat} {p : Part} (hp : s.part? part = some p) (he : e < 32)
    (f : PeerEntry → PeerEntry) : (updPeer s part e f).part? part = some (putPeer p e f) := by
  have h : updPeer s part e f = s.updPart part fun p => putPeer p e f := by
    unfold updPeer
    simp only [if_pos he]
    rfl
  rw [h, State.part?_updPart s part (fun p => putPeer p e f) fun _ => rfl, hp]
  rfl

theorem happens_peerUp {s : State} {part e : Nat} {p : Part} (hp : s.part? part = some p) (he : e < 32) :
    Happens (.peerUp part e) s fun t => t = { s with parts := t.parts } ∧ ∃ p', t.part? part = some p' ∧
      p'.peer e = { p.peer e with up := true } ∧ ∀ j, j ≠ e → p'.peer j = p.peer j :=
  ⟨_, rfl, rfl, _, part?_updPeer hp he _, peer_putPeer_same p e fun _ => rfl, fun _ hj => peer_putPeer_other p hj fun _ => rfl⟩

theorem execPeerDown_eq {s : State} {part e : Nat} {p : Part} (hp : s.part? part = some p) (hup : (p.peer e).up = true) :
    exec (.peerDown part e) s = .next (loseThrough (updPeer s part e fun x => { x with up := false }) p e) := by
  change execPeerDown part e s = _
  simp only [execPeerDown, hp, hup, if_true]

theorem happens_peerDown {s : State} {part e : Nat} {p : Part} (hp : s.part? part = some p) (he : e < 32)
    (hup : (p.peer e).up = true) : Happens (.peerDown part e) s fun t => t.mem = s.mem ∧
      (∃ p', t.part? part = some p' ∧ p'.peer e = { p.peer e with up := false }) ∧
      ∀ a ∈ s.accs, (∀ b ∈ s.accs, b.id = a.id → b = a) → throughPeer s p e a = true → a.stage = .sent ∨ a.stage = .performed →
        (a.reads = true → t.acc? a.id = some { a with stage := .performed, poison := true }) ∧
        (a.kind = .store ∨ a.kind = .str → t.acc? a.id = some { a with stage := .done, gwct := s.time }) := by
  refine ⟨_, execPeerDown_eq hp hup, by rw [loseThrough_mem, updPeer_mem],
    ⟨_, ?_, peer_putPeer_same p e (f := fun x => { x with up := false }) fun _ => rfl⟩, ?_⟩
  · rw [← part?_updPeer hp he]
    exact congrArg (List.find? _) (foldl_loseAcc_parts _ _)
  · intro a ha hu hthrough hstage
    have hlost : (loseThrough (updPeer s part e fun x => { x with up := false }) p e).acc? a.id =
        some (a.lostAt s.time a.kind) :=
      loseThrough_acc? ha hu (by rw [updPeer, throughPeer_updPart, hthrough]) hstage
    rw [hlost]
    constructor
    · intro hr
      unfold Acc.reads at hr
      cases hk : a.kind <;> simp_all [Acc.lostAt]
    · rintro (hk | hk) <;> simp only [Acc.lostAt, hk]

/-! ### Forwarded writes (R394) -/

theorem happens_migfwdForward_sent {s : State} {part buf off : Nat} {data : List (BitVec 8)} {p : Part} {j e : Nat}
    (hp : s.part? part = some p) (hm : p.migfwd.find? (fun x => migMatches x.2 buf off data.length) = some (j, e)) :
    Happens (.migfwdForward part buf off data) s fun t => t = { s with dev := { s.dev with
      forwards := s.dev.forwards ++
        [{ dev := bitsN e 244 240, slot := bitsN e 237 232, buf := bitsN e 223 208, off, data }] } } := by
  refine ⟨_, ?_, rfl⟩
  change execMigfwdForward part buf off data s = _
  simp only [execMigfwdForward, hp, hm]
  rfl

/-- A write of no bytes. -/
theorem writePieces_nil (part : Nat) (place : Nat → Option Nat) (n addr : Nat) (s : State) :
    writePieces part place n addr [] s = s := by
  cases n <;> rfl

/-- The access of one piece of a write from outside. -/
def outsideAcc (s : State) (part addr key : Nat) (bs : List Byte) : Acc :=
  { id := s.nextId, tid := none, core := 0, part, launch := 0, cast := 0, kind := .host, buf := 0, off := addr,
    size := bs.length, bkind := 1, addr := key, ty := 4, cp := 0, dst := none, data := leNat bs, cmp := 0,
    poison := false, lane := 0, pc := 0, seq := s.nextId, mark := 0, stage := .sent, gwct := 0, tag := 0, lease := 0 }

theorem writePieces_one {part addr key n : Nat} {place : Nat → Option Nat} {bs : List Byte} (s : State) (hne : bs ≠ [])
    (hfit : addr % 16 + bs.length ≤ 16) (hk : place addr = some key) :
    writePieces part place (n + 1) addr bs s =
      { s with nextId := s.nextId + 1, accs := s.accs ++ [outsideAcc s part addr key bs] } := by
  have hlen : bs.length ≤ 16 - addr % 16 := by omega
  rw [writePieces, if_neg (by simpa using hne)]
  simp only [hk, List.take_of_length_le hlen, List.drop_eq_nil_of_le hlen, writePieces_nil]
  rfl

theorem countLost_of_place {s : State} {part buf off k : Nat} (h : remotePlace s part buf off = some k) :
    countLost s part .store (buf * 2 ^ 48 + off) 1 = s := by
  have hl : devLost s part .store (buf * 2 ^ 48 + off) 1 = false := by
    by_contra hlost
    rw [Bool.not_eq_false] at hlost
    unfold remotePlace devLocate at h
    rw [if_pos hlost] at h
    cases h
  rw [countLost, hl]
  rfl

theorem happens_migfwdForward_here {s : State} {part buf off k : Nat} {data : List (BitVec 8)} {p : Part}
    (hp : s.part? part = some p) (hm : p.migfwd.find? (fun x => migMatches x.2 buf off data.length) = none)
    (hne : data ≠ []) (hfit : off % 16 + data.length ≤ 16) (hk : remotePlace s part buf off = some k) :
    Happens (.migfwdForward part buf off data) s fun t =>
      ∃ x, t = { s with accs := s.accs ++ [x], nextId := s.nextId + 1 } ∧ x.kind = .host ∧ x.addr = k ∧
        x.size = data.length ∧ x.data = leNat data ∧ x.stage = .sent := by
  refine ⟨_, ?_, outsideAcc s part off k data, rfl, rfl, rfl, rfl, rfl, rfl⟩
  change execMigfwdForward part buf off data s = _
  simp only [execMigfwdForward, hp, hm]
  rw [countLost_of_place hk, writePieces_one s hne hfit hk]

end Sys2Proof.Machine
end

section
/-! SUPPORT. Register writes, the side band and power-on reset; then the obligation LinksAndSideBand. -/

namespace Sys2Proof.Machine

open Sys2Proof

/-! ### Register writes (R8, R10, R376) -/

theorem merge_allOnes (old v : DWord) : (old &&& ~~~BitVec.allOnes 64) ||| (v &&& BitVec.allOnes 64) = v := by
  rw [BitVec.not_allOnes, BitVec.and_zero, BitVec.zero_or, BitVec.and_allOnes]

theorem sizeOk_eight {off : Nat} (h : off % 8 = 0) : sizeOk off 8 = true := by simp [sizeOk, h]

theorem dsbWrite_eight {s : State} {m : Master} {off : Nat} {v : DWord} (h : off % 8 = 0) :
    dsbWrite s m off 8 v = dsbWriteAt s m off (BitVec.allOnes 64) v := by
  rw [dsbWrite, sizeOk_eight h, if_pos rfl, h, Nat.sub_zero]
  rfl

theorem windowWrite_eight {s : State} {p : Part} {vf : Option Nat} {off : Nat} {v : DWord} (h : off % 8 = 0) :
    windowWrite s p vf off 8 v = windowWriteAt s p vf off (BitVec.allOnes 64) v := by
  rw [windowWrite, sizeOk_eight h, if_pos rfl, h, Nat.sub_zero]
  rfl

theorem dsbWrite_grpcfg (s : State) (m : Master) (v : DWord) : dsbWrite s m 0x70 8 v =
    { s with dev := { s.dev with grpcfg := if holds s true m = true then v &&& 0x8000011F0000FFFF#64 else s.dev.grpcfg } } := by
  rw [dsbWrite_eight rfl]
  unfold dsbWriteAt
  simp only [merge_allOnes, Nat.reduceEqDiff, if_false, if_true]
  split <;> rfl

theorem happens_registerWrite_otherSize {s : State} {via : Via} {off size : Nat} {v : BitVec 64} (h : sizeOk off size = false) :
    Happens (.registerWrite via off size v) s fun t => t = s := by
  have hd : ∀ m, dsbWrite s m off size v = s := fun m => by rw [dsbWrite, h]; rfl
  have hw : ∀ p vf, windowWrite s p vf off size v = s := fun p vf => by rw [windowWrite, h]; rfl
  refine ⟨s, ?_, rfl⟩
  change execRegisterWrite via off size v s = _
  unfold execRegisterWrite
  simp only [hd, hw]
  congr 1
  split
  · rfl
  · split <;> rfl
  · rfl
  · split
    · split <;> rfl
    · rfl

theorem happens_registerWrite_sideBand {s : State} {first off size : Nat} {v : BitVec 64} :
    Happens (.registerWrite (.windowPf .sideBand first) off size v) s fun t => t = s := ⟨s, rfl, rfl⟩

theorem happens_registerWrite_grpcfg {s : State} {m : Master} {v : BitVec 64} :
    Happens (.registerWrite (.dsb m) 0x70 8 v) s fun t => t = { s with dev := { s.dev with
      grpcfg := if holds s true m = true then v &&& 0x8000011F0000FFFF#64 else s.dev.grpcfg } } :=
  ⟨_, congrArg Host.Outcome.next (dsbWrite_grpcfg s m v), rfl⟩

theorem execRegisterWrite_window {s : State} {first off : Nat} {v : BitVec 64} {p : Part} (hp : s.part? first = some p)
    (h : off % 8 = 0) : exec (.registerWrite (.windowPf .host first) off 8 v) s =
      .next (windowWriteAt s p none off (BitVec.allOnes 64) v) := by
  change execRegisterWrite (.windowPf .host first) off 8 v s = _
  simp only [execRegisterWrite, hp, windowWrite_eight h]

theorem first_of_part? {s : State} {first : Nat} {p : Part} (hp : s.part? first = some p) : p.first = first := by
  simpa using List.find?_some hp

theorem part?_updPart_of {s : State} {n : Nat} {p : Part} (hp : s.part? n = some p) (f : Part → Part)
    (hf : ∀ u, (f u).first = u.first) : (s.updPart p.first f).part? n = some (f p) := by
  rw [first_of_part? hp, State.part?_updPart s n f hf, hp]
  rfl

/-- `PCTX` when a write starts nothing (R345): its fields, with `GO` and the status as they were. -/
theorem pctx_kept (x v : DWord) :
    pctxWith (setBit (pctxFields v) 63 (x.getLsbD 63)) (bitsN x.toNat 55 48) =
      (v &&& 0x6F000000FFFFFFFF#64) ||| (x &&& 0x80FF000000000000#64) := by
  have hstat : BitVec.ofNat 64 (bitsN x.toNat 55 48 % 256 * 2 ^ 48) = x &&& 0x00FF000000000000#64 := by
    have hK : ∀ i < 64, (0x00FF000000000000#64).getLsbD i = (decide (48 ≤ i) && decide (i - 48 < 8)) := by decide
    refine BitVec.eq_of_getLsbD_eq fun i hi => ?_
    rw [BitVec.getLsbD_ofNat, bitsN, show 256 = 2 ^ 8 from rfl, Nat.testBit_mul_two_pow,
      Nat.testBit_mod_two_pow, Nat.testBit_mod_two_pow, Nat.testBit_shiftRight, BitVec.getLsbD_and, hK i hi, BitVec.testBit_toNat]
    by_cases h : 48 ≤ i
    · simp [h, hi]
      rw [Bool.and_comm]
    · simp [h]
  have hK : ∀ i < 64, (0xEF000000FFFFFFFF#64).getLsbD i = ((0x6F000000FFFFFFFF#64).getLsbD i || decide (i = 63)) ∧
      (0x80FF000000000000#64).getLsbD i = ((0x00FF000000000000#64).getLsbD i || decide (i = 63)) ∧
      ((0x6F000000FFFFFFFF#64).getLsbD i && (0x00FF000000000000#64).getLsbD i) = false ∧
      (i = 63 → (0x00FF000000000000#64).getLsbD i = false ∧ (0x6F000000FFFFFFFF#64).getLsbD i = false) := by decide
  rw [pctxWith, hstat]
  refine BitVec.eq_of_getLsbD_eq fun i hi => ?_
  obtain ⟨h1, h2, h3, h4⟩ := hK i hi
  simp only [BitVec.getLsbD_or, BitVec.getLsbD_and, BitVec.getLsbD_not, pctxFields, h1, h2,
    getLsbD_setBit _ _ _ _ (show 63 < 64 by decide)]
  by_cases h : i = 63
  · subst h
    simp
  · simp only [h, decide_false, Bool.or_false, if_false, hi, decide_true, Bool.true_and]
    cases hF : (0x00FF000000000000#64).getLsbD i with
    | false => simp
    | true =>
      rw [hF, Bool.and_true] at h3
      simp [h3]

theorem pctxWrite_stays {s : State} {p : Part} {v : DWord} (hv : v.getLsbD 63 = false) :
    pctxWrite s p (BitVec.allOnes 64) v = s.updPart p.first fun x =>
      { x with pctx := (v &&& 0x6F000000FFFFFFFF#64) ||| (p.pctx &&& 0x80FF000000000000#64) } := by
  have hk := pctx_kept p.pctx v
  unfold pctxWrite
  simp only [merge_allOnes]
  simp only [BitVec.and_allOnes, hv, Bool.not_false, Bool.false_eq_true, if_false, if_true]
  split
  · next h => rw [h] at hk; rw [hk]
  · next h => rw [Bool.not_eq_true] at h; rw [h] at hk; rw [hk]

theorem lockedWrite_pctx (s : State) (p : Part) (mask v : DWord) : lockedWrite s p 0x20088 mask v = pctxWrite s p mask v := by
  unfold lockedWrite
  simp only [Nat.reduceEqDiff, if_false, if_true]

theorem windowWriteAt_locked {s : State} {p : Part} {base : Nat} {mask v : DWord} (hl : holds s false .host = true)
    (hb : 0x20080 ≤ base) : windowWriteAt s p none base mask v = lockedWrite s p base mask v := by
  unfold windowWriteAt
  dsimp only
  rw [if_neg (by omega), if_neg (by omega), if_neg (by omega), if_neg (by omega), if_pos ⟨hl, rfl⟩]

theorem windowWriteAt_pctx {s : State} {p : Part} {v : DWord} (hl : holds s false .host = true) (hv : v.getLsbD 63 = false) :
    windowWriteAt s p none 0x20088 (BitVec.allOnes 64) v = s.updPart p.first fun x =>
      { x with pctx := (v &&& 0x6F000000FFFFFFFF#64) ||| (p.pctx &&& 0x80FF000000000000#64) } := by
  rw [windowWriteAt_locked hl (by decide), lockedWrite_pctx, pctxWrite_stays hv]

theorem happens_registerWrite_pctx {s : State} {first : Nat} {v : BitVec 64} {p : Part} (hp : s.part? first = some p)
    (hl : holds s false .host = true) (hv : v.getLsbD 63 = false) :
    Happens (.registerWrite (.windowPf .host first) 0x20088 8 v) s fun t => t = { s with parts := t.parts } ∧
      t.part? first = some { p with pctx := (v &&& 0x6F000000FFFFFFFF#64) ||| (p.pctx &&& 0x80FF000000000000#64) } := by
  refine ⟨_, (execRegisterWrite_window hp rfl).trans (congrArg Host.Outcome.next (windowWriteAt_pctx hl hv)), rfl, ?_⟩
  exact part?_updPart_of hp _ fun _ => rfl

/-! A queue context (R305). -/

theorem queue_setL_same (p : Part) (q : Nat) (x : Queue) : { p with queues := setL p.queues q x }.queue q = x := by
  simp [Part.queue, getL, setL]

theorem windowWriteAt_qbase {s : State} {p : Part} {q : Nat} {v : DWord} (hq : q < 16 * 2 ^ p.sz) (hq' : q < 2048) :
    windowWriteAt s p none (32 * q) (BitVec.allOnes 64) v =
      updQueue s p.first q fun x => if !x.en && x.idle then { x with qbase := v } else x := by
  have h1 : 32 * q / 32 = q := by omega
  have h2 : 32 * q % 32 / 8 = 0 := by omega
  unfold windowWriteAt
  dsimp only
  rw [if_pos (by omega), h1, h2, if_neg (by simp; omega)]
  unfold queueWrite
  simp only [merge_allOnes]

theorem happens_registerWrite_qbase {s : State} {first q : Nat} {v : BitVec 64} {p : Part} (hp : s.part? first = some p)
    (hq : q < 16 * 2 ^ p.sz) (hq' : q < 2048) :
    Happens (.registerWrite (.windowPf .host first) (32 * q) 8 v) s fun t => t = { s with parts := t.parts } ∧
      ∃ p', t.part? first = some p' ∧ p'.queue q =
        if (p.queue q).en = false ∧ (p.queue q).idle = true then { p.queue q with qbase := v } else p.queue q := by
  refine ⟨_, (execRegisterWrite_window hp (by omega)).trans (congrArg Host.Outcome.next (windowWriteAt_qbase hq hq')), rfl,
    _, part?_updPart_of hp _ fun _ => rfl, ?_⟩
  rw [queue_setL_same]
  simp only [Bool.and_eq_true, Bool.not_eq_true']

/-! ### The side band (R375) -/

theorem happens_mctpDsbRead {s : State} {off : Nat} : Happens (.mctpDsbRead off) s fun t => t = { s with dev := { s.dev with
    answer := some (.dsb (if off % 8 = 0 then dsbValue s .sideBand off else BitVec.allOnes 64)) } } := by
  have h : readSized (dsbValue s .sideBand) off 8 = if off % 8 = 0 then dsbValue s .sideBand off else BitVec.allOnes 64 := by
    by_cases ho : off % 8 = 0 <;> simp [readSized, sizeOk, ho]
  refine ⟨_, rfl, ?_⟩
  rw [h]
  rfl

theorem happens_mctpDsbWrite_grpcfg {s : State} {v : BitVec 64} : Happens (.mctpDsbWrite 0x70 v) s fun t => t = { s with
    dev := { s.dev with grpcfg := if holds s true .sideBand = true then v &&& 0x8000011F0000FFFF#64 else s.dev.grpcfg } } :=
  ⟨_, congrArg Host.Outcome.next (dsbWrite_grpcfg s .sideBand v), rfl⟩

/-! ### SPDM and PLDM (R388) -/

theorem self_mem_insertN (x : Nat) (l : List Nat) : x ∈ insertN x l := by
  induction l with
  | nil => exact List.mem_singleton_self x
  | cons y ys ih =>
    unfold insertN
    split
    · exact List.mem_cons_self
    · split
      · next h => exact h ▸ List.mem_cons_self
      · exact List.mem_cons_of_mem _ ih

theorem raiseCtl_ctl? {s : State} {slot : Nat} {c : Ctl} (source : Nat) (h : s.ctl? slot = some c) :
    (raiseCtl s slot source).ctl? slot = some { c with pending := insertN source c.pending } :=
  (State.find?_updL (f := fun c : Ctl => { c with pending := insertN source c.pending }) (fun _ => rfl) _).trans
    (congrArg (Option.map _) h)

/-- A responder's answer: nothing else that a statement on SPDM names changes. -/
structure Gives (a : Answer) (u t : State) : Prop where
  answer : t.dev.answer = some a
  mem : t.mem = u.mem
  ctls : t.ctls = u.ctls

/-- What comes of a request to a slot's monitor: nothing without a monitor, else an answer and the interrupt. -/
def Answers (s : State) (slot : Nat) (i : Instr) (f : Answer → Prop) : Prop :=
  (s.dev.fwm.getLsbD slot = false → Happens i s fun t => t = s) ∧
  (s.dev.fwm.getLsbD slot = true → Happens i s fun t => (∃ a, t.dev.answer = some a ∧ f a) ∧ t.mem = s.mem ∧
    ∀ c, s.ctl? slot = some c → ∃ c', t.ctl? slot = some c' ∧ 4 ∈ c'.pending)

theorem answers_of_gives {s : State} {slot : Nat} {i : Instr} {f : Answer → Prop} {g : State → State} {a : Answer}
    (hexec : exec i s = .next (spdmAnswer s slot g)) (hg : Gives a (raiseCtl s slot 4) (g (raiseCtl s slot 4))) (ha : f a) :
    Answers s slot i f := by
  constructor
  · intro h
    refine ⟨s, ?_, rfl⟩
    rw [hexec, spdmAnswer, h]
    rfl
  · intro h
    refine ⟨g (raiseCtl s slot 4), ?_, ⟨a, hg.answer, ha⟩, hg.mem, fun c hc =>
      ⟨{ c with pending := insertN 4 c.pending }, ?_, self_mem_insertN 4 c.pending⟩⟩
    · rw [hexec, spdmAnswer, h, if_pos rfl]
    · rw [State.ctl?, hg.ctls]
      exact raiseCtl_ctl? 4 hc

theorem gives_giveAnswer (u : State) (a : Answer) : Gives a u (giveAnswer u a) := ⟨rfl, rfl, rfl⟩

theorem gives_setSpdm (u : State) (x : Spdm) (a : Answer) : Gives a u (giveAnswer (setSpdm u x) a) := ⟨rfl, rfl, rfl⟩

theorem gives_withSignature (u : State) (f : Nat → Answer) :
    Gives (f (Config.spdm (64 + u.free))) u (withSignature u f) := ⟨rfl, rfl, rfl⟩

theorem spdmOf_raiseCtl (s : State) (slot source : Nat) : spdmOf (raiseCtl s slot source) slot = spdmOf s slot := rfl

section
variable {s : State} {slot : Nat} {i : Instr} {f : Answer → Prop} {g : State → State} {a : Answer}

/-- A request of the negotiation (R388). -/
theorem answers_negotiating (hexec : exec i s = .next (negotiating s slot g))
    (hr : (spdmOf s slot).algs = some false → f .spdmError)
    (hg : (spdmOf s slot).algs ≠ some false → Gives a (raiseCtl s slot 4) (g (raiseCtl s slot 4)) ∧ f a) :
    Answers s slot i f := by
  by_cases h : (spdmOf s slot).algs = some false
  · refine answers_of_gives hexec ?_ (hr h)
    rw [spdmOf_raiseCtl, if_pos h]
    exact gives_giveAnswer ..
  · obtain ⟨hg, ha⟩ := hg h
    refine answers_of_gives hexec ?_ ha
    rw [spdmOf_raiseCtl, if_neg h]
    exact hg

/-- A request after the negotiation (R388). -/
theorem answers_negotiated (hexec : exec i s = .next (negotiated s slot g))
    (hg : Gives a (raiseCtl s slot 4) (g (raiseCtl s slot 4))) (ha : f a) :
    ((spdmOf s slot).algs = some true → Answers s slot i f) ∧
    ((spdmOf s slot).algs ≠ some true → Answers s slot i fun a => a = .spdmError) := by
  constructor
  · intro h
    refine answers_of_gives hexec ?_ ha
    rw [spdmOf_raiseCtl, if_pos h]
    exact hg
  · intro h
    refine answers_of_gives hexec ?_ rfl
    rw [spdmOf_raiseCtl, if_neg h]
    exact gives_giveAnswer ..
end

section
variable (s : State) (slot : Nat)

theorem answers_getVersion : Answers s slot (.getVersion slot) fun a =>
    ((spdmOf s slot).algs = some false → a = .spdmError) ∧ (¬(spdmOf s slot).algs = some false → a = .spdmVersion 1 2) :=
  answers_negotiating rfl (fun h => ⟨fun _ => rfl, absurd h⟩) fun h => ⟨gives_setSpdm .., fun h' => absurd h' h, fun _ => rfl⟩

theorem answers_getCapabilities : Answers s slot (.getCapabilities slot) fun a =>
    ((spdmOf s slot).algs = some false ∨ (spdmOf s slot).version = false → a = .spdmError) ∧
    (¬(spdmOf s slot).algs = some false → (spdmOf s slot).version = true →
      a = .spdmCapabilities true true true false false false false) := by
  cases hv : (spdmOf s slot).version with
  | false =>
    refine answers_negotiating rfl (fun _ => ⟨fun _ => rfl, fun _ h => by cases h⟩) (a := .spdmError) fun _ =>
      ⟨?_, fun _ => rfl, fun _ h => by cases h⟩
    rw [spdmOf_raiseCtl, hv]
    exact gives_giveAnswer ..
  | true =>
    refine answers_negotiating rfl (fun h => ⟨fun _ => rfl, fun h' => absurd h h'⟩) fun h =>
      ⟨?_, fun h' => absurd h' (by simp [h]), fun _ _ => rfl⟩
    rw [spdmOf_raiseCtl, hv, if_pos rfl]
    exact gives_setSpdm ..

theorem answers_negotiateAlgorithms (o : AlgOffer) : Answers s slot (.negotiateAlgorithms slot o) fun a =>
    ((spdmOf s slot).algs = some false ∨ (spdmOf s slot).caps = false → a = .spdmError) ∧
    (¬(spdmOf s slot).algs = some false → (spdmOf s slot).caps = true →
      a = .spdmAlgorithms (o.ed448 && o.sha3_384 && o.dmtf && o.rawBits)) := by
  cases hv : (spdmOf s slot).caps with
  | false =>
    refine answers_negotiating rfl (fun _ => ⟨fun _ => rfl, fun _ h => by cases h⟩) (a := .spdmError) fun _ =>
      ⟨?_, fun _ => rfl, fun _ h => by cases h⟩
    rw [spdmOf_raiseCtl, hv]
    exact gives_giveAnswer ..
  | true =>
    refine answers_negotiating rfl (fun h => ⟨fun _ => rfl, fun h' => absurd h h'⟩) fun h =>
      ⟨?_, fun h' => absurd h' (by simp [h]), fun _ _ => rfl⟩
    rw [spdmOf_raiseCtl, hv, if_pos rfl]
    exact gives_setSpdm ..

theorem gives_challenge (u : State) (chain nonce : Nat) : ∃ a, Gives a u (if chain = 0 then
      withSignature u fun sig => .spdmChallenge 0 nonce sig else giveAnswer u .spdmError) ∧
    if chain = 0 then ∃ sig, a = .spdmChallenge 0 nonce sig else a = .spdmError := by
  by_cases h : chain = 0
  · simp only [if_pos h]
    exact ⟨_, gives_withSignature .., _, rfl⟩
  · simp only [if_neg h]
    exact ⟨_, gives_giveAnswer .., rfl⟩

theorem measuredBlocks_one (g index : Nat) (h1 : 1 ≤ index) (h3 : index ≤ 3) :
    measuredBlocks g index = some [(index, Config.spdm (2 ^ 64 + 4 * g + index))] := by
  unfold measuredBlocks
  rw [if_neg (by omega), if_pos ⟨h1, h3⟩]
end

theorem happens_pldmTelemetry {s : State} {slot : Nat} : Happens (.pldmTelemetry slot) s fun t =>
    t.mem = s.mem ∧ ∃ r, t.dev.answer = some (.pldm r) := ⟨_, rfl, rfl, _, rfl⟩

/-! ### Power-on reset (R9) -/

theorem memRead_filter (f : Nat → Bool) (m : List Host.Cell) (k : Nat) :
    memRead (m.filter fun c => f c.1) k = if f k = true then memRead m k else 0 := by
  induction m with
  | nil => simp
  | cons c r ih =>
    obtain ⟨k', v⟩ := c
    rw [memRead_cons, List.filter_cons]
    by_cases hk : k' = k
    · subst hk
      cases hf : f k' with
      | true => simp [memRead_cons]
      | false => simpa [hf] using ih
    · cases hf : f k' with
      | true => simpa [memRead_cons, hk] using ih
      | false => simpa [hk] using ih

theorem happens_powerOnReset {s : State} : Happens .powerOnReset s fun t => t.time = 0 ∧ t.parts = [] ∧ t.threads = [] ∧
    t.pours = [] ∧ t.recs = [] ∧ t.accs = [] ∧ t.launches = [] ∧ t.dev.cc = 0 ∧ t.dev.cown = none ∧ t.dev.mown = none ∧
    t.dev.commands = [] ∧
    ∀ k, memRead t.mem k = if isFlash k = true ∨ (2 ^ 60 ≤ k ∧ k < 2 ^ 64) then memRead s.mem k else 0 := by
  refine ⟨_, rfl, rfl, rfl, rfl, rfl, rfl, rfl, rfl, rfl, rfl, rfl, rfl, fun k => ?_⟩
  exact (memRead_filter (fun k => isFlash k || (decide (2 ^ 60 ≤ k) && decide (k < 2 ^ 64))) s.mem k).trans
    (by simp only [Bool.or_eq_true, Bool.and_eq_true, decide_eq_true_eq])

end Sys2Proof.Machine

namespace Sys2Proof
open Machine

/-- Settles O55. Each part is a lemma of its own above. -/
theorem linksAndSideBand : Obligations.LinksAndSideBand := by
  unfold Obligations.LinksAndSideBand
  intro s _
  refine ⟨happens_powerOnReset, fun _ => happens_readySet, fun _ => happens_readyClear, fun port peer hp => ⟨?_, ?_, ?_⟩,
    fun part p e hpart he => ⟨happens_peerUp hpart he, happens_peerDown hpart he⟩,
    fun part p buf off data hpart => ⟨fun j e => happens_migfwdForward_sent hpart, fun k => happens_migfwdForward_here hpart⟩,
    fun via off size v => ⟨happens_registerWrite_otherSize, ?_, ?_, ?_, ?_⟩,
    fun off => happens_mctpDsbRead, fun v => happens_mctpDsbWrite_grpcfg, fun slot =>
    ⟨answers_getVersion s slot, answers_getCapabilities s slot, answers_negotiateAlgorithms s slot, ?_, ?_, ?_, ?_,
      happens_pldmTelemetry⟩⟩
  · exact fun hs hn hc => happens_portTrain_up hp ((sameGroup_iff _ _).2 hs) hn hc
  · exact fun hs hn => happens_portTrain_clash hp ((sameGroup_iff _ _).2 hs) hn
  · exact fun hs => happens_portTrain_other hp (Bool.eq_false_iff.2 fun h => hs ((sameGroup_iff _ _).1 h))
  · rintro first rfl
    exact happens_registerWrite_sideBand
  · rintro m rfl rfl rfl
    exact happens_registerWrite_grpcfg
  · rintro first p rfl hp rfl rfl hl hv
    exact happens_registerWrite_pctx hp hl hv
  · rintro first p q rfl hp rfl rfl hq hq'
    exact happens_registerWrite_qbase hp hq hq'
  · exact answers_negotiated rfl (gives_giveAnswer ..) ⟨_, rfl⟩
  · exact fun chain off len => answers_negotiated rfl (gives_giveAnswer ..) rfl
  · intro chain nonce
    obtain ⟨a, hg, ha⟩ := gives_challenge (raiseCtl s slot 4) chain nonce
    exact answers_negotiated rfl hg ha
  · intro index nonce g hlog h1 h3
    exact answers_negotiated rfl (by
      rw [spdmOf_raiseCtl, hlog]
      simp only [Option.bind_some, measuredBlocks_one g index h1 h3]
      exact gives_withSignature ..) ⟨_, _, rfl⟩
end Sys2Proof
end

section
/-! SUPPORT. The obligation DecodedWords: the fields of a word as one number, and the words of the tables. -/

namespace Sys2Proof

theorem toNat_append_eq_add {m n : Nat} (x : BitVec m) (y : BitVec n) :
    (x ++ y).toNat = x.toNat * 2 ^ n + y.toNat := by
  rw [BitVec.toNat_append, ← Nat.shiftLeft_add_eq_or_of_lt y.isLt, Nat.shiftLeft_eq]

theorem word_toNat (h : Hdr) (op : BitVec 5) (pl : BitVec 24) :
    (word h op pl).toNat = h.c.toNat * 2 ^ 31 + h.s.toNat * 2 ^ 29 + op.toNat * 2 ^ 24 + pl.toNat := by
  simp only [word, toNat_append_eq_add]
  omega

/-- Settles O56: the fields by `word_toNat`, each word of the tables by evaluating `decode` on it. -/
theorem decodedWords : Obligations.DecodedWords := by
  unfold Obligations.DecodedWords
  refine ⟨word_toNat, rfl, rfl, rfl, rfl, rfl, rfl, rfl, rfl, rfl, rfl, rfl, rfl, rfl, rfl, rfl, ?_⟩
  simp only [List.forall_mem_cons, List.not_mem_nil, false_implies, implies_true, and_true]
  exact ⟨⟨_, rfl⟩, ⟨_, rfl⟩, ⟨_, rfl⟩, ⟨_, rfl⟩⟩

end Sys2Proof
end

section
/-! SUPPORT. The obligation ResetState: a thread when it starts, and `READY` after power-on reset. -/

namespace Sys2Proof.Machine

section
variable (tid part launch cast tic : Nat) (loc : Loc) (param : DWord)

theorem fresh_rdW_zero : (Thread.fresh tid part launch cast tic loc param).rdW 0 0 = param := by
  have hlo : (Thread.fresh tid part launch cast tic loc param).rdV 0 (pairLo 0) = param.extractLsb' 0 32 := rfl
  have hhi : (Thread.fresh tid part launch cast tic loc param).rdV 0 (pairHi 0) = param.extractLsb' 32 32 := rfl
  rw [Thread.rdW, hlo, hhi, BitVec.extractLsb'_append_extractLsb'_eq_extractLsb' (by decide)]
  exact BitVec.extractLsb'_eq_self

theorem fresh_rdV_rest (r : Reg) (h : 2 ≤ r.toNat) : (Thread.fresh tid part launch cast tic loc param).rdV 0 r = 0 := by
  have h0 : 0 ≠ r.toNat := by omega
  have h1 : 1 ≠ r.toNat := by omega
  simp [Thread.fresh, Thread.rdV, h0, h1]

theorem fresh_rdP (q : PredNo) (h : q ≠ 7) : (Thread.fresh tid part launch cast tic loc param).rdP 0 q = false := by
  rw [Thread.rdP, if_neg h]
  simp [Thread.fresh]

theorem fresh_rdH (r : BitVec 3) : (Thread.fresh tid part launch cast tic loc param).rdH r = 0 := by
  simp [Thread.fresh, Thread.rdH]

theorem fresh_isPending (r : RegRef) : (Thread.fresh tid part launch cast tic loc param).isPending r = false := by
  cases r <;> simp [Thread.fresh, Thread.isPending]
end

theorem slotBit_reset (s j : Nat) : slotBit State.reset.dev s j = false := by
  unfold slotBit
  split <;> simp [State.reset, Dev.reset]

theorem readyIs_reset (bit : Nat) : readyIs State.reset.dev bit = false := by
  rw [readyIs_eq_readyBit, readyBit, slotBit_reset]
  simp [State.reset, Dev.reset]

end Sys2Proof.Machine

namespace Sys2Proof
open Machine

/-- Settles O58: the registers by evaluating the reset values, a thread's reads and `READY` by the lemmas above. -/
theorem resetState : Obligations.ResetState := by
  unfold Obligations.ResetState
  refine ⟨rfl, fun _ => rfl, rfl, rfl, rfl, rfl, rfl, readyIs_reset, rfl, rfl, rfl, rfl, rfl, rfl, ?_, ?_⟩
  · intro first sz nvf tenant
    exact ⟨rfl, rfl, rfl, rfl, rfl, rfl, rfl, rfl, rfl, rfl, rfl, rfl, rfl, rfl⟩
  · intro tid part launch cast tic loc param
    exact ⟨fresh_rdW_zero .., fresh_rdV_rest tid part launch cast tic loc param,
      fresh_rdP tid part launch cast tic loc param, fresh_rdH tid part launch cast tic loc param, rfl,
      fresh_isPending tid part launch cast tic loc param⟩

end Sys2Proof
end

section
/-! SUPPORT. One step: a fetch where nothing is gathered, the checks before a group of one word, and the order of a step;
then the obligation StepRunsDecoded. -/

namespace Sys2Proof.Machine

open Sys2Proof

/-- Every arm of `exec` goes on. -/
theorem exec_next (i : Instr) (s : State) : ∃ t, exec i s = .next t := by
  cases i <;> exact ⟨_, rfl⟩

/-! ### A fetch where nothing is gathered (R186) -/

theorem combineLine_of_none {s : State} {l : Nat} (h : ∀ u ∈ s.ucopies, u.granted = true → u.line ≠ l) :
    combineLine s l = s := by
  have hno : ∀ u ∈ s.ucopies, (decide (u.line = l) && u.granted) = false := fun u hu => by
    cases hg : u.granted with
    | false => simp
    | true => simp [h u hu hg]
  have hg : gatheredOf s l = [] := by
    have hf : (s.ucopies.filter fun u => decide (u.line = l) && u.granted) = [] :=
      List.filter_eq_nil_iff.2 fun u hu => by simp [hno u hu]
    rw [gatheredOf, hf]
    rfl
  have hk : (s.ucopies.filter fun u => !(decide (u.line = l) && u.granted)) = s.ucopies :=
    List.filter_eq_self.2 fun u hu => by simp [hno u hu]
  rw [combineLine_eq, hg, List.isEmpty_nil, if_pos rfl, dropCopies, hk]

theorem combineAt_of_noneGathered {s : State} {k n m : Nat} (h : NoneGathered s k n) (hm : m ≤ n) :
    combineAt s k m = s := by
  unfold combineAt
  split
  · rfl
  · refine List.foldlRecOn (motive := fun u : State => u = s) _ _ rfl fun u hu i hi => ?_
    rw [hu]
    refine combineLine_of_none fun c hc hg hl => h c hc hg ?_
    have := List.mem_range.1 hi
    omega

theorem memNat_of_holds {m : List Host.Cell} {n : Nat} : ∀ {k x : Nat}, Holds m k n x → memNat m k n = x % 256 ^ n := by
  induction n with
  | zero => exact fun {_ x} _ => (Nat.mod_one x).symm
  | succ n ih =>
    intro k x h
    have h0 : (memRead m k).toNat = x % 256 := by simpa using h 0 (Nat.succ_pos n)
    have hr : Holds m (k + 1) n (x / 256) := fun i hi => by
      rw [Nat.div_div_eq_div_mul, ← Nat.pow_succ', Nat.add_assoc, Nat.add_comm 1 i]
      exact h (i + 1) (Nat.succ_lt_succ hi)
    calc memNat m k (n + 1) = (memRead m k).toNat + 256 * memNat m (k + 1) n := rfl
      _ = x % 256 ^ (n + 1) := by rw [h0, ih hr, Nat.pow_succ', Nat.mod_mul]

/-- What the obligation StepRunsDecoded says of each lane's fetch of `w` at `pc`. -/
def Fetches (s : State) (core : Nat) (e : Entry) (w : Word) (y : Nat × Thread) : Prop :=
  ∃ f k, portCheck s (s.reqOf y.2 core y.1) .fetch e.buf e.pc.toNat 4 = .ok f k ∧
    s.reaches (slotOfCluster (clusterOf core)) k = true ∧ NoneGathered s k 12 ∧ Holds s.mem k 4 w.toNat ∧
    poisonedAt s k 4 = false

section
variable {s : State} {core : Nat} {e : Entry} {w : Word}

theorem fetchLane_of_fetches {y : Nat × Thread} (h : Fetches s core e w y) :
    fetchLane s core y.1 y.2 e.buf e.pc = .ok w := by
  obtain ⟨f, k, hport, -, hgath, hmem, hgood⟩ := h
  have hpeek : homePeek s k 4 = w.toNat := by
    rw [homePeek, combineAt_of_noneGathered hgath (by decide)]
    exact (memNat_of_holds hmem).trans (Nat.mod_eq_of_lt w.isLt)
  unfold fetchLane
  dsimp only
  rw [hport]
  dsimp only
  rw [hgood, if_neg Bool.false_ne_true, hpeek, BitVec.ofNat_toNat, BitVec.setWidth_eq]

variable {lanes : List (Nat × Thread)} (h : ∀ y ∈ lanes, Fetches s core e w y)
include h

theorem fetchLost_of_fetches : fetchLost s core e lanes = false := by
  refine List.any_eq_false.2 fun y hy => ?_
  obtain ⟨f, k, hport, hreach, -⟩ := h y hy
  rw [hport]
  simp [hreach]

theorem fetchNote_of_fetches : fetchNote s core e lanes = s := by
  refine List.foldlRecOn (motive := fun u : State => u = s) _ _ rfl fun u hu y hy => ?_
  obtain ⟨f, k, hport, -, hgath, -⟩ := h y hy
  rw [hu, hport]
  exact combineAt_of_noneGathered hgath (Nat.le_refl 12)

theorem fetchRun_of_fetches (hne : lanes ≠ []) (hc : (hdrOf w).c = 0) (n : Nat) :
    fetchRun s core e.buf (n + 1) e.pc lanes = ([w], []) := by
  have htrap : ∀ y ∈ lanes, fetchTrap s core e.buf e.pc y = none := fun y hy => by
    rw [fetchTrap, fetchLane_of_fetches (h y hy)]
  have hks : lanes.filterMap (fetchTrap s core e.buf e.pc) = [] := List.filterMap_eq_nil_iff.2 htrap
  have hgood : (lanes.filter fun y => (fetchTrap s core e.buf e.pc y).isNone) = lanes :=
    List.filter_eq_self.2 fun y hy => by rw [htrap y hy]; rfl
  obtain ⟨y, r, rfl⟩ := List.exists_cons_of_ne_nil hne
  unfold fetchRun
  dsimp only
  rw [hks, hgood, List.head?_cons, Option.map_some, fetchLane_of_fetches (h y List.mem_cons_self)]
  dsimp only
  rw [if_neg (by simp [hc])]
end

/-! ### The checks before a word acts, where none stops it -/

theorem withTraps_nil {s : State} (h : s.cur.traps = []) : withTraps s [] = s := by
  have hc : ({ s.cur with traps := s.cur.traps ++ [], lanes := s.cur.lanes.filter fun x =>
      !((s.cur.traps ++ []).any fun k => k.lane = x.1) } : Cur) = s.cur := by
    simp [h]
    exact congrArg (fun l => { s.cur with traps := l }) h.symm
  exact congrArg (fun c => { s with cur := c }) hc

theorem untrapped_nil (lanes : List (Nat × Thread)) : untrapped [] lanes = lanes := by simp [untrapped]

theorem staticTraps_nil {core : Nat} {pc w : Word} {i : Instr} {lanes : List (Nat × Thread)} (hd : decode w = .ok i)
    (hg : groupOk pc [w] = true) (h : ∀ y ∈ lanes, staticCode (isCtlCore core) i w y.2.level = none) :
    staticTraps core pc [w] true lanes = [] := by
  unfold staticTraps
  dsimp only
  rw [hg, if_neg (by decide)]
  refine List.filterMap_eq_nil_iff.2 fun y hy => ?_
  simp [hd, h y hy]

theorem laneReadTrap_none {s : State} {w : Word} {i : Instr} {y : Nat × Thread} (hd : decode w = .ok i)
    (hstale : y.2.stale = []) (hassay : assayFirst w = true → y.2.part ≠ 64 → s.selected y.2 = false)
    (hown : readTrap y.2 y.1 w (reads i) = none) (htwin : ∀ v, s.twinOf y.2 = some v → readTrap v y.1 w (reads i) = none) :
    laneReadTrap s [w] y = none := by
  have hi : readsW w = reads i := by rw [readsW, instrOf, hd]
  have h1 : staleOpTrap y.2 y.1 = none := by rw [staleOpTrap, hstale]; rfl
  have h2 : (if assayFirst w && y.2.part != 64 then
      (assayIf s y.1 y.2).map fun k => { k with info := (0 : BitVec 32) ++ w } else none) = none := by
    split
    · next h =>
      obtain ⟨ha, hp⟩ := Bool.and_eq_true_iff.1 h
      rw [assayIf, hassay ha (by simpa using hp)]
      rfl
    · rfl
  have h4 : ((s.twinOf y.2).bind fun u => readTrap u y.1 w (reads i)) = none :=
    Option.bind_eq_none_iff.2 htwin
  rw [laneReadTrap, List.findSome?_cons, sourceTrap, hi, h1, h2, hown, h4]
  rfl

/-! ### A step that issues one word -/

/-- What the obligation StepRunsDecoded asks of each lane beside its fetch. -/
def NoReadStops (s : State) (core part : Nat) (w : Word) (i : Instr) (y : Nat × Thread) : Prop :=
  staticCode (isCtlCore core) i w y.2.level = none ∧
    (sbchkOf s core part = true → tooEarly s y.2 y.1 [(0, w, reads i)] = none) ∧
    y.2.stale = [] ∧ (assayFirst w = true → y.2.part ≠ 64 → s.selected y.2 = false) ∧
    readTrap y.2 y.1 w (reads i) = none ∧ ∀ v, s.twinOf y.2 = some v → readTrap v y.1 w (reads i) = none

theorem prepare_one {s : State} {c : Cand} {p : Pour} {e : Entry} {w : Word} {i : Instr}
    (hp : s.pour? c.core c.slot = some p) (he : p.entries[c.ent]? = some e)
    (hne : entryLanes s c.core c.slot e ≠ []) (hc : (hdrOf w).c = 0) (hd : decode w = .ok i)
    (hf : ∀ y ∈ entryLanes s c.core c.slot e, Fetches s c.core e w y)
    (hb : beginsGroup s c.core c.slot e e.pc = true) (hg : groupOk e.pc [w] = true)
    (hw : scoreWait s (entryLanes s c.core c.slot e) (reads i ++ writes i) = none)
    (hn : ∀ y ∈ entryLanes s c.core c.slot e, NoReadStops s c.core p.part w i y) :
    prepare s c = .go { s with cur := cursor c e 1 (entryLanes s c.core c.slot e) } [w] := by
  have hi : instrOf w = i := by rw [instrOf, hd]
  have hr : readsW w = reads i := congrArg reads hi
  have hwr : writesW w = writes i := congrArg writes hi
  have htag : ([w].zipIdx.map fun x => (x.2, x.1, readsW x.1)) = [(0, w, reads i)] := congrArg (fun r => [(0, w, r)]) hr
  have hfg : fetchGroup s c.core c.slot e = ([w], []) := fetchRun_of_fetches hf hne hc 2
  have hst : staticTraps c.core e.pc [w] true (entryLanes s c.core c.slot e) = [] :=
    staticTraps_nil hd hg fun y hy => (hn y hy).1
  have hus : (if sbchkOf s c.core p.part then (entryLanes s c.core c.slot e).filterMap fun x =>
      tooEarly s x.2 x.1 [(0, w, reads i)] else []) = [] := by
    split
    · next h => exact List.filterMap_eq_nil_iff.2 fun y hy => (hn y hy).2.1 h
    · rfl
  have hrs : (entryLanes s c.core c.slot e).filterMap (laneReadTrap s [w]) = [] :=
    List.filterMap_eq_nil_iff.2 fun y hy => by
      obtain ⟨-, -, hstale, hassay, hown, htwin⟩ := hn y hy
      exact laneReadTrap_none hd hstale hassay hown htwin
  have hcur : ∀ n lanes, withTraps (s.updCur fun _ => cursor c e n lanes) [] = s.updCur fun _ => cursor c e n lanes :=
    fun _ _ => withTraps_nil rfl
  have hempty : (entryLanes s c.core c.slot e).isEmpty = false := List.isEmpty_eq_false_iff.2 hne
  unfold prepare
  rw [hp, Option.bind_some, he, Option.map_some]
  dsimp only
  rw [fetchLost_of_fetches hf, if_neg Bool.false_ne_true, fetchNote_of_fetches hf, hfg]
  dsimp only
  rw [hb, untrapped_nil, hst, untrapped_nil, hempty]
  simp only [hcur, List.flatMap_cons, List.flatMap_nil, List.append_nil, hr, hwr, hw, htag, hus, hrs, untrapped_nil, hempty,
    Bool.false_eq_true, if_false, List.length_cons, List.length_nil, Nat.zero_add, if_true]
  rfl

/-- The obligation's state in which the word runs. -/
theorem atWord_alone (s : State) (c : Cand) (e : Entry) (w : Word) (lanes : List (Nat × Thread)) :
    atWord { s with cur := cursor c e 1 lanes } w 0 .alone =
      { s with cur := { cursor c e 1 lanes with word := w, wpc := e.pc, pos := 0, phase := .alone } } := by
  have h : e.pc + BitVec.ofNat 32 (4 * 0) = e.pc := BitVec.add_zero e.pc
  exact congrArg (fun x => { s with cur := { cursor c e 1 lanes with word := w, wpc := x, pos := 0, phase := .alone } }) h

theorem issue_one {s s' : State} {c : Cand} {w : Word} {i : Instr} (hprep : prepare s c = .go s' [w]) (hd : decode w = .ok i)
    {t : State} (ht : exec i (atWord s' w 0 .alone) = .next t) :
    issue exec s c = .next (markBusy c.core c.slot [w] s.time t) := by
  have hi : instrOf w = i := by rw [instrOf, hd]
  unfold issue
  rw [hprep]
  dsimp only
  rw [hi, ht]

/-! ### The order of a step, and a cy that passes -/

theorem step_input {s : State} {cy : Nat} {x : Input} {rest : List (Nat × Input)} (h : s.agenda = (cy, x) :: rest)
    (hcy : cy ≤ s.time) : step s = stepInput x { s with agenda := rest } := by
  rw [step, h]
  exact if_pos hcy

theorem step_alone {s : State} (h : ∀ x ∈ s.agenda.head?, s.time < x.1) : step s = stepAlone s := by
  unfold step
  split
  · next cy x rest e => exact if_neg (Nat.not_le.2 (h (cy, x) (by rw [e]; rfl)))
  · rfl

theorem stepAlone_due {s : State} {i : Instr} (h : (dueList s).find? (acts s) = some i) : stepAlone s = exec i s := by
  rw [stepAlone, h]

theorem stepAlone_issue {s : State} {c : Cand} (h : (dueList s).find? (acts s) = none) (hc : chooseIssue s = some c) :
    stepAlone s = issue exec s c := by
  rw [stepAlone, h]
  dsimp only
  rw [hc]

theorem stepAlone_tick {s : State} (h : (dueList s).find? (acts s) = none) (hc : chooseIssue s = none) :
    stepAlone s = .next (tick s) := by
  rw [stepAlone, h]
  dsimp only
  rw [hc]

theorem bufferWakes_kept (s : State) : (bufferWakes s).time = s.time ∧ (bufferWakes s).threads = s.threads := by
  have hwake : ∀ (u : State) tid, (checkWake u tid).time = u.time ∧ (checkWake u tid).threads = u.threads := fun u tid => by
    obtain ⟨_, _, _, _, h⟩ := checkWake_eq u tid
    rw [h]
    exact ⟨rfl, rfl⟩
  have hwakes : ∀ (u : State) part k, (checkWakes u part k).time = u.time ∧ (checkWakes u part k).threads = u.threads :=
    fun u part k => List.foldlRecOn (motive := fun v : State => v.time = u.time ∧ v.threads = u.threads) _ _ ⟨rfl, rfl⟩
      fun v hv r _ => ⟨(hwake v _).1.trans hv.1, (hwake v _).2.trans hv.2⟩
  exact List.foldlRecOn (motive := fun v : State => v.time = s.time ∧ v.threads = s.threads) _ _ ⟨rfl, rfl⟩
    fun v hv p _ => ⟨(hwakes v _ _).1.trans hv.1, (hwakes v _ _).2.trans hv.2⟩

theorem tick_kept (s : State) : (tick s).time = s.time + 1 ∧ (tick s).threads = s.threads ∧ (tick s).mem = s.mem :=
  ⟨congrArg (· + 1) (bufferWakes_kept s).1, (bufferWakes_kept s).2, tick_mem s⟩

end Sys2Proof.Machine

namespace Sys2Proof
open Machine

/-- Settles O59: the order by `step_input`, `step_alone` and the cases of `stepAlone`; a group of one word passes the checks
before it (`prepare_one`) and is then `exec` of its instruction (`issue_one`). -/
theorem stepRunsDecoded : Obligations.StepRunsDecoded := by
  unfold Obligations.StepRunsDecoded
  intro s
  refine ⟨fun cy i rest h hcy hi => ?_, fun cy part a data rest h hcy => step_input h hcy, fun halone => ⟨fun i hdue => ?_,
    fun hnone => ⟨fun hidle => ⟨?_, tick_kept s⟩, ?_⟩⟩⟩
  · rw [step_input h hcy]
    exact if_pos hi
  · rw [step_alone halone, stepAlone_due hdue]
  · rw [step_alone halone, stepAlone_tick hnone hidle]
  · intro c p e w i x r hchoose hpour hentry lanes hlanes hlast hdecode hfetch hbegins hgroup hscore hreads
    have hne : lanes ≠ [] := by rw [hlanes]; exact List.cons_ne_nil x r
    have hprep := prepare_one hpour hentry hne hlast hdecode hfetch hbegins hgroup hscore hreads
    refine ⟨fun t ht => ?_, exec_next i _⟩
    rw [step_alone halone, stepAlone_issue hnone hchoose]
    exact issue_one hprep hdecode ((congrArg (exec i) (atWord_alone s c e w lanes)).trans ht)

end Sys2Proof
end

section
/-! SUPPORT. What an access performed at its home or its bank does (R169, R172 to R177, R186): the combination of gathered
values, the slice, the lease copy and the store, one lemma each; then the obligation HomePerforms. -/

namespace Sys2Proof.Machine

open Sys2Proof

/-! ### The accesses in flight -/

/-- Every other access in flight stays as it is. -/
def KeepsOthers (id : Nat) (s t : State) : Prop := ∀ b ∈ s.accs, b.id ≠ id → b ∈ t.accs

theorem KeepsOthers.of_accs {id : Nat} {s t : State} (h : t.accs = s.accs) : KeepsOthers id s t :=
  fun _ hb _ => h ▸ hb

theorem KeepsOthers.trans {id : Nat} {s t u : State} (h : KeepsOthers id s t) (h' : KeepsOthers id t u) :
    KeepsOthers id s u := fun b hb hn => h' b (h b hb hn) hn

theorem keepsOthers_updAcc (s : State) (id : Nat) (f : Acc → Acc) : KeepsOthers id s (s.updAcc id f) :=
  fun b hb hn => List.mem_map.2 ⟨b, hb, if_neg (by simpa using hn)⟩

/-- An access is gone. -/
def dropAcc (id : Nat) (s : State) : State := { s with accs := s.accs.filter fun x => x.id ≠ id }

theorem keepsOthers_dropAcc (s : State) (id : Nat) : KeepsOthers id s (dropAcc id s) :=
  fun _ hb hn => List.mem_filter.2 ⟨hb, by simpa using hn⟩

theorem acc?_dropAcc (s : State) (id : Nat) : (dropAcc id s).acc? id = none := by
  simp [dropAcc, State.acc?]

/-- The access of an identifier is replaced. -/
theorem acc?_updAcc_const {s : State} {a b : Acc} (ha : s.acc? a.id = some a) (hb : b.id = a.id) :
    (s.updAcc a.id fun _ => b).acc? a.id = some b := by
  have hf : (s.updAcc a.id fun _ => b) = s.updAcc a.id fun x => if x.id = a.id then b else x := by
    unfold State.updAcc updL
    congr 1
    exact List.map_congr_left fun x _ => by by_cases hx : x.id = a.id <;> simp [hx]
  rw [hf, State.acc?_updAcc s a.id _ (fun x => by split <;> simp_all), ha]
  exact congrArg some (if_pos rfl)

theorem acc?_performed {s : State} {a : Acc} (ha : s.acc? a.id = some a) (data gwct : Nat) (tag : BitVec 16)
    (poison : Bool) : (performed s a.id data gwct tag poison).acc? a.id =
      some { a with stage := .performed, data, gwct, tag, poison } := by
  exact (State.acc?_updAcc s a.id (fun b => { b with stage := .performed, data, gwct, tag, poison }) fun _ => rfl).trans
    (congrArg (Option.map _) ha)

/-! ### What a combination reads and what it changes (R186) -/

/-- Two states agree in what their homes hold: the bytes, their poison, the lines, the gathered values and the order of
writes. -/
structure SameHome (s t : State) : Prop where
  mem : t.mem = s.mem
  poisoned : t.poisoned = s.poisoned
  lines : t.lines = s.lines
  ucopies : t.ucopies = s.ucopies
  homeOrder : t.homeOrder = s.homeOrder

theorem SameHome.refl (s : State) : SameHome s s := ⟨rfl, rfl, rfl, rfl, rfl⟩

theorem sameHome_queueRow (s : State) (k : Nat) : SameHome s (queueRow s k) := by
  unfold queueRow
  split <;> exact ⟨rfl, rfl, rfl, rfl, rfl⟩

namespace SameHome
variable {s t u : State}

theorem symm (h : SameHome s t) : SameHome t s :=
  ⟨h.mem.symm, h.poisoned.symm, h.lines.symm, h.ucopies.symm, h.homeOrder.symm⟩

theorem trans (h : SameHome s t) (h' : SameHome t u) : SameHome s u :=
  ⟨h'.mem.trans h.mem, h'.poisoned.trans h.poisoned, h'.lines.trans h.lines, h'.ucopies.trans h.ucopies,
    h'.homeOrder.trans h.homeOrder⟩

theorem peek (h : SameHome s t) (k n : Nat) : t.peek k n = s.peek k n := congrArg (memNat · k n) h.mem

theorem poisonedAt (h : SameHome s t) (k n : Nat) : poisonedAt t k n = poisonedAt s k n :=
  congrArg (fun l => List.any l _) h.poisoned

theorem lineAt (h : SameHome s t) (l : Nat) : lineAt t l = lineAt s l := by
  rw [Machine.lineAt, State.line?, h.lines]
  rfl

theorem queueRow (h : SameHome s t) (k : Nat) : SameHome (queueRow s k) (queueRow t k) :=
  ((sameHome_queueRow s k).symm.trans h).trans (sameHome_queueRow t k)

theorem storeAt (h : SameHome s t) (k n x : Nat) (poison : Bool) :
    SameHome (storeAt s k n x poison) (storeAt t k n x poison) := by
  have hm : memWriteBytes t.mem k (leBytes n x) = memWriteBytes s.mem k (leBytes n x) := by rw [h.mem]
  cases poison with
  | true => exact ⟨hm, congrArg (List.map _ _ ++ ·) h.poisoned, h.lines, h.ucopies, h.homeOrder⟩
  | false => exact ⟨hm, congrArg (List.filter _) h.poisoned, h.lines, h.ucopies, h.homeOrder⟩

theorem applyPartial (h : SameHome s t) (p : Partial) : SameHome (applyPartial s p) (applyPartial t p) := by
  unfold Machine.applyPartial
  dsimp only
  rw [h.peek, h.poisonedAt]
  exact h.storeAt ..

theorem foldl_applyPartial (h : SameHome s t) (ps : List Partial) :
    SameHome (ps.foldl Machine.applyPartial s) (ps.foldl Machine.applyPartial t) :=
  List.foldl_rel (r := SameHome) h fun p _ _ _ h => h.applyPartial p

theorem stamp (h : SameHome s t) (k : Nat) : SameHome (stamp s k).1 (stamp t k).1 := by
  have hl : Machine.lineAt { t with homeOrder := t.homeOrder + 1 } (lineOf k) =
      Machine.lineAt { s with homeOrder := s.homeOrder + 1 } (lineOf k) := h.lineAt _
  have ho : t.homeOrder + 1 = s.homeOrder + 1 := by rw [h.homeOrder]
  unfold Machine.stamp
  dsimp only
  rw [hl]
  split
  · exact ⟨h.mem, h.poisoned, congrArg (fun l => _ :: List.filter _ l) h.lines, h.ucopies, ho⟩
  · exact ⟨h.mem, h.poisoned, h.lines, h.ucopies, ho⟩

theorem dropCopies (h : SameHome s t) (l : Nat) : SameHome (dropCopies l s) (dropCopies l t) :=
  ⟨h.mem, h.poisoned, h.lines, congrArg (List.filter _) h.ucopies, h.homeOrder⟩

theorem combineLine (h : SameHome s t) (l : Nat) : SameHome (combineLine s l) (combineLine t l) := by
  have hg : gatheredOf t l = gatheredOf s l := by rw [gatheredOf, h.ucopies]; rfl
  rw [combineLine_eq, combineLine_eq, hg]
  apply SameHome.dropCopies
  split
  · exact h
  · exact ((h.queueRow _).foldl_applyPartial _).stamp _

/-- What a combination leaves at the homes depends on what they held alone. -/
theorem combineAt (h : SameHome s t) (k n : Nat) : SameHome (combineAt s k n) (combineAt t k n) := by
  unfold Machine.combineAt
  rw [h.ucopies]
  split
  · exact h
  · exact List.foldl_rel (r := SameHome) h fun i _ _ _ h => h.combineLine _

end SameHome

/-- The homes and the counts of the device alone change, and no gathered values come. -/
def AtHome (s t : State) : Prop :=
  ∃ d m p l u o, u.Sublist s.ucopies ∧
    t = { s with dev := d, mem := m, poisoned := p, lines := l, ucopies := u, homeOrder := o }

namespace AtHome
variable {s t u : State}

theorem refl (s : State) : AtHome s s := ⟨_, _, _, _, _, _, List.Sublist.refl _, rfl⟩

theorem trans (h : AtHome s t) (h' : AtHome t u) : AtHome s u := by
  obtain ⟨d, m, p, l, c, o, hc, rfl⟩ := h
  obtain ⟨d', m', p', l', c', o', hc', rfl⟩ := h'
  exact ⟨d', m', p', l', c', o', hc'.trans hc, rfl⟩

theorem foldl {α : Type} {f : State → α → State} (hf : ∀ s x, AtHome s (f s x)) (l : List α) (s : State) :
    AtHome s (l.foldl f s) := List.foldlRecOn (motive := AtHome s) l f (refl s) fun _ h x _ => h.trans (hf _ x)

variable (h : AtHome s t)
include h

theorem accs : t.accs = s.accs := by obtain ⟨_, _, _, _, _, _, _, rfl⟩ := h; rfl
theorem time : t.time = s.time := by obtain ⟨_, _, _, _, _, _, _, rfl⟩ := h; rfl
theorem threads : t.threads = s.threads := by obtain ⟨_, _, _, _, _, _, _, rfl⟩ := h; rfl
theorem l1 : t.l1 = s.l1 := by obtain ⟨_, _, _, _, _, _, _, rfl⟩ := h; rfl
theorem l2 : t.l2 = s.l2 := by obtain ⟨_, _, _, _, _, _, _, rfl⟩ := h; rfl
theorem ucopies : t.ucopies.Sublist s.ucopies := by obtain ⟨_, _, _, _, _, _, hu, rfl⟩ := h; exact hu
theorem acc? (id : Nat) : t.acc? id = s.acc? id := congrArg (List.find? _) h.accs

end AtHome

theorem atHome_queueRow (s : State) (k : Nat) : AtHome s (queueRow s k) := by
  unfold queueRow
  split
  · exact ⟨_, _, _, _, _, _, List.Sublist.refl _, rfl⟩
  · exact .refl s

theorem atHome_storeAt (s : State) (k n x : Nat) (poison : Bool) : AtHome s (storeAt s k n x poison) := by
  cases poison <;> exact ⟨_, _, _, _, _, _, List.Sublist.refl _, rfl⟩

theorem atHome_stamp (s : State) (k : Nat) : AtHome s (stamp s k).1 := by
  unfold stamp
  split <;> exact ⟨_, _, _, _, _, _, List.Sublist.refl _, rfl⟩

theorem atHome_dropCopies (l : Nat) (s : State) : AtHome s (dropCopies l s) :=
  ⟨_, _, _, _, _, _, List.filter_sublist, rfl⟩

theorem atHome_touchRow (s : State) (id k : Nat) : AtHome s (touchRow s id k) := by
  unfold touchRow
  split
  · exact ⟨_, _, _, _, _, _, List.Sublist.refl _, rfl⟩
  · exact .refl s

theorem atHome_combineLine (s : State) (l : Nat) : AtHome s (combineLine s l) := by
  rw [combineLine_eq]
  split
  · exact atHome_dropCopies l s
  · exact (((atHome_queueRow s _).trans (.foldl (fun _ _ => atHome_storeAt ..) _ _)).trans (atHome_stamp _ _)).trans
      (atHome_dropCopies l _)

theorem atHome_combineAt (s : State) (k n : Nat) : AtHome s (combineAt s k n) := by
  unfold combineAt
  split
  · exact .refl s
  · exact .foldl (fun _ _ => atHome_combineLine _ _) _ _

theorem atHome_writeHome (s : State) (k n x : Nat) (poison : Bool) : AtHome s (writeHome s k n x poison).1 :=
  ((atHome_combineAt s k n).trans (atHome_storeAt ..)).trans (atHome_stamp _ k)

/-! ### A write's place in the order of its line (R175) -/

@[simp] theorem lineAt_line (s : State) (l : Nat) : (lineAt s l).line = l := by
  unfold lineAt State.line?
  cases h : s.lines.find? fun x => x.line = l with
  | none => rfl
  | some x => simpa using List.find?_some h

theorem lineAt_putLine (s : State) {x : Line} {l : Nat} (hl : x.line = l) : lineAt (putLine s x) l = x := by
  rw [lineAt, State.line?, putLine, List.find?_cons_of_pos (by simp [hl])]
  rfl

/-- GWCT and tag are those that the line of a place gives, and those of a place without lines (R175, R177). -/
def Stamped (t : State) (k gwct : Nat) (tag : BitVec 16) : Prop :=
  (keyChan k ≠ none → (lineAt t (lineOf k)).tag = tag ∧ gwct = max t.time (lineAt t (lineOf k)).lx) ∧
    (keyChan k = none → gwct = t.time ∧ tag = 0)

theorem stamped_stamp (s : State) (k : Nat) : Stamped (stamp s k).1 k (stamp s k).2.1 (stamp s k).2.2 := by
  unfold stamp
  dsimp only
  split
  · next h =>
    have hl := lineAt_putLine { s with homeOrder := s.homeOrder + 1 }
      (x := { lineAt s (lineOf k) with tag := (lineAt s (lineOf k)).tag + 1 }) (lineAt_line s (lineOf k))
    exact ⟨fun _ => ⟨congrArg Line.tag hl, congrArg (max s.time) (congrArg Line.lx hl).symm⟩,
      fun hn => absurd h (by simp [hn])⟩
  · next h => exact ⟨fun hn => absurd (Option.isSome_iff_ne_none.2 hn) h, fun _ => ⟨rfl, rfl⟩⟩

/-! ### The row and the slice (R172, R324) -/

/-- An access reaches its place: it activates its row, and its line comes into its slice. -/
def arrive (s : State) (a : Acc) (k : Nat) : State := l2Bring (touchRow s a.id k) k a.policy

theorem touchRow_eq (s : State) (id k : Nat) : ∃ d, touchRow s id k = { s with dev := d } := by
  unfold touchRow
  split
  · exact ⟨_, rfl⟩
  · exact ⟨s.dev, rfl⟩

theorem llcBring_eq (s : State) (k : Nat) : ∃ f c, llcBring s k = { s with free := f, llc := c } := by
  unfold llcBring
  split
  · exact ⟨s.free, s.llc, rfl⟩
  · dsimp only
    split_ifs
    · exact ⟨s.free, s.llc, rfl⟩
    · exact ⟨s.free, _, rfl⟩
    · exact ⟨_, _, rfl⟩

theorem l2Bring_eq (s : State) (k mode : Nat) : ∃ f l c, l2Bring s k mode = { s with free := f, l2 := l, llc := c } := by
  obtain ⟨f, c, h⟩ := llcBring_eq s k
  unfold l2Bring
  dsimp only
  rw [h]
  split
  · exact ⟨s.free, s.l2, s.llc, rfl⟩
  split
  · split
    · exact ⟨s.free, s.l2, s.llc, rfl⟩
    · exact ⟨s.free, _, s.llc, rfl⟩
  split
  · exact ⟨f, s.l2, c, rfl⟩
  · exact ⟨_, _, c, rfl⟩

theorem arrive_eq (s : State) (a : Acc) (k : Nat) :
    ∃ d f l c, arrive s a k = { s with dev := d, free := f, l2 := l, llc := c } := by
  obtain ⟨d, hd⟩ := touchRow_eq s a.id k
  obtain ⟨f, l, c, h⟩ := l2Bring_eq { s with dev := d } k a.policy
  exact ⟨d, f, l, c, by rw [arrive, hd, h]⟩

section
variable (s : State) (a : Acc) (k : Nat)

theorem sameHome_touchRow (id : Nat) : SameHome s (touchRow s id k) := by
  obtain ⟨_, h⟩ := touchRow_eq s id k
  rw [h]
  exact ⟨rfl, rfl, rfl, rfl, rfl⟩

theorem sameHome_arrive : SameHome s (arrive s a k) := by
  obtain ⟨_, _, _, _, h⟩ := arrive_eq s a k
  rw [h]
  exact ⟨rfl, rfl, rfl, rfl, rfl⟩

theorem arrive_accs : (arrive s a k).accs = s.accs := by obtain ⟨_, _, _, _, h⟩ := arrive_eq s a k; rw [h]
theorem arrive_time : (arrive s a k).time = s.time := by obtain ⟨_, _, _, _, h⟩ := arrive_eq s a k; rw [h]
theorem arrive_l1 : (arrive s a k).l1 = s.l1 := by obtain ⟨_, _, _, _, h⟩ := arrive_eq s a k; rw [h]
theorem arrive_acc? (id : Nat) : (arrive s a k).acc? id = s.acc? id := congrArg (List.find? _) (arrive_accs s a k)

end

theorem mem_l2_l2Bring (s : State) {k mode : Nat} (hk : keyChan k ≠ none) (hm : mode ≠ 2) :
    ∃ x ∈ (l2Bring s k mode).l2, x.line = lineOf k ∧ x.mode = mode := by
  have hk' : ¬(keyChan k).isNone = true := by simpa using hk
  unfold l2Bring
  dsimp only
  rw [if_neg hk']
  split
  · next hany =>
    obtain ⟨x, hx, hl⟩ := List.any_eq_true.1 hany
    exact ⟨{ x with mode }, List.mem_map.2 ⟨x, hx, if_pos hl⟩, by simpa using hl, rfl⟩
  · exact ⟨_, List.mem_cons_self, rfl, rfl⟩

theorem inSlice_of_l2 {s t : State} {a : Acc} {k : Nat} (h : t.l2 = (arrive s a k).l2) : InSlice t a k :=
  fun hk hm => h ▸ mem_l2_l2Bring _ hk hm

/-! ### A read (R173, R176) -/

/-- A read leaves the bytes that lie at its place once the gathered values are combined, and brings them back. -/
def BringsBack (s : State) (a : Acc) (t : State) : Prop :=
  t.mem = (combineAt s a.addr a.size).mem ∧ (NoneGathered s a.addr a.size → (combineAt s a.addr a.size).mem = s.mem) ∧
    KeepsOthers a.id s t ∧ (a.tid ≠ none → t.acc? a.id = some { a with
      stage := .performed, data := (combineAt s a.addr a.size).peek a.addr a.size, gwct := 0, tag := 0,
      poison := poisonedAt (combineAt s a.addr a.size) a.addr a.size })

theorem noteSeen_eq (s : State) (tid : Option Nat) (k n : Nat) : ∃ l, noteSeen s tid k n = { s with threads := l } := by
  unfold noteSeen noteSeenAt
  split
  · exact ⟨s.threads, rfl⟩
  · exact ⟨_, rfl⟩

theorem readNow_eq (s : State) (a : Acc) : ∃ l, readNow s a =
    { performed (combineAt s a.addr a.size) a.id ((combineAt s a.addr a.size).peek a.addr a.size) 0 0
        (poisonedAt (combineAt s a.addr a.size) a.addr a.size) with threads := l } := noteSeen_eq ..

theorem sameHome_readNow (s : State) (a : Acc) : SameHome (combineAt s a.addr a.size) (readNow s a) := by
  obtain ⟨_, h⟩ := readNow_eq s a
  rw [h]
  exact ⟨rfl, rfl, rfl, rfl, rfl⟩

section
variable (s : State) (a : Acc)

theorem readNow_time : (readNow s a).time = s.time := by
  obtain ⟨_, h⟩ := readNow_eq s a
  rw [h]
  exact (atHome_combineAt ..).time

theorem readNow_l1 : (readNow s a).l1 = s.l1 := by
  obtain ⟨_, h⟩ := readNow_eq s a
  rw [h]
  exact (atHome_combineAt ..).l1

theorem readNow_l2 : (readNow s a).l2 = s.l2 := by
  obtain ⟨_, h⟩ := readNow_eq s a
  rw [h]
  exact (atHome_combineAt ..).l2

theorem readNow_accs : (readNow s a).accs =
    (performed (combineAt s a.addr a.size) a.id ((combineAt s a.addr a.size).peek a.addr a.size) 0 0
      (poisonedAt (combineAt s a.addr a.size) a.addr a.size)).accs := by
  obtain ⟨_, h⟩ := readNow_eq s a
  rw [h]

end

theorem bringsBack_readNow {s v : State} {a : Acc} (hv : SameHome s v) (haccs : v.accs = s.accs)
    (ha : s.acc? a.id = some a) : BringsBack s a (readNow v a) := by
  have hc : SameHome (combineAt s a.addr a.size) (combineAt v a.addr a.size) := hv.combineAt ..
  have hin : (combineAt v a.addr a.size).accs = s.accs := (atHome_combineAt ..).accs.trans haccs
  refine ⟨(hc.trans (sameHome_readNow v a)).mem, fun hn => by rw [combineAt_of_noneGathered hn le_rfl], ?_, fun _ => ?_⟩
  · exact (KeepsOthers.of_accs hin).trans ((keepsOthers_updAcc _ a.id _).trans (.of_accs (readNow_accs v a)))
  · rw [← hc.peek, ← hc.poisonedAt]
    exact (congrArg (List.find? _) (readNow_accs v a)).trans
      (acc?_performed ((congrArg (List.find? _) hin).trans ha) ..)

theorem BringsBack.congr {s t t' : State} {a : Acc} (h : BringsBack s a t) (hm : t'.mem = t.mem) (hacc : t'.accs = t.accs) :
    BringsBack s a t' := by
  obtain ⟨hmem, hnone, hothers, hback⟩ := h
  exact ⟨hm.trans hmem, hnone, hothers.trans (.of_accs hacc), fun ht => (congrArg (List.find? _) hacc).trans (hback ht)⟩

/-! ### The lease copy (R173, R174) -/

/-- An L1 with room has it still when no copy has come. -/
theorem RoomInL1.congr {s t : State} {core line : Nat} (h : RoomInL1 s core line) (h1 : t.l1 = s.l1)
    (hu : t.ucopies.Sublist s.ucopies) : RoomInL1 t core line := by
  unfold RoomInL1 at h ⊢
  rw [h1]
  exact Nat.lt_of_le_of_lt (Nat.add_le_add_left (hu.filter _).length_le _) h

theorem l1Room_of_room {s : State} {core line : Nat} (h : RoomInL1 s core line) : l1Room s core line = s := if_pos h

/-- Where the L1 has room, a lease changes the copies and the lines alone. -/
theorem leaseAfter_eq {s : State} {a : Acc} (h : RoomInL1 s a.core (lineOf a.addr)) (wants : Bool) :
    ∃ c l, leaseAfter s a wants = { s with l1 := c, lines := l } := by
  unfold leaseAfter grantLease
  dsimp only
  rw [l1Room_of_room h]
  split_ifs
  · exact ⟨_, _, rfl⟩
  · exact ⟨_, s.lines, rfl⟩
  · exact ⟨s.l1, s.lines, rfl⟩

/-- The copy of its line that an access brings its core from what the homes hold. -/
def grantedCopy (u : State) (now : Nat) (a : Acc) : L1Copy :=
  { core := a.core, line := lineOf a.addr, data := memBytes u.mem (128 * lineOf a.addr) 128, granted := u.homeOrder,
    expiry := now + 2 ^ (a.lease + 5), strm := decide (a.cp = 1) }

theorem SameHome.grantedCopy {s t : State} (h : SameHome s t) (now : Nat) (a : Acc) :
    grantedCopy t now a = grantedCopy s now a := by rw [Machine.grantedCopy, h.mem, h.homeOrder]; rfl

theorem leaseAfter_grants {s : State} {a : Acc} (h : RoomInL1 s a.core (lineOf a.addr)) (hl : a.lease ≠ 0)
    (hp : poisonedAt s (128 * lineOf a.addr) 128 = false) :
    (leaseAfter s a true).l1? a.core (lineOf a.addr) = some (grantedCopy s s.time a) ∧
      s.time + 2 ^ (a.lease + 5) ≤ (lineAt (leaseAfter s a true) (lineOf a.addr)).lx := by
  have he : leaseAfter s a true = grantLease s a.core (lineOf a.addr) a.lease (decide (a.cp = 1)) :=
    if_pos ⟨hl, .inl rfl, by rw [hp]; rfl⟩
  rw [he, grantLease, l1Room_of_room h]
  refine ⟨List.find?_cons_of_pos (by simp), ?_⟩
  have hline := lineAt_putLine s (x := { lineAt s (lineOf a.addr) with
    lx := max (lineAt s (lineOf a.addr)).lx (s.time + 2 ^ (a.lease + 5)),
    leases := (a.core, s.time + 2 ^ (a.lease + 5)) ::
      (lineAt s (lineOf a.addr)).leases.filter fun y => y.1 ≠ a.core }) (lineAt_line s (lineOf a.addr))
  exact (Nat.le_max_right _ _).trans (Nat.le_of_eq (congrArg Line.lx hline).symm)

/-! ### A read at its home (R172, R176, R219) -/

theorem exec_homeRead {s : State} {a : Acc} (ha : s.acc? a.id = some a) (hr : homeReadReady s a = true) :
    exec (.homeRead a.id) s = .next (homeReadDo s a) := by
  change execHomeRead a.id s = _
  simp only [execHomeRead, ha, hr, if_true]

/-- The line of an access holds no poison, once its gathered values are combined. -/
def CleanLine (s : State) (a : Acc) : Prop := poisonedAt (combineAt s a.addr 1) (128 * lineOf a.addr) 128 = false

theorem poisonedAt_touchRow (s : State) (a : Acc) :
    poisonedAt (combineAt (touchRow s a.id a.addr) a.addr 1) (128 * lineOf a.addr) 128 =
      poisonedAt (combineAt s a.addr 1) (128 * lineOf a.addr) 128 :=
  ((sameHome_touchRow s a.addr a.id).combineAt ..).poisonedAt ..

section
variable {s : State} {a : Acc}

theorem homeReadDo_of_thread (ht : a.tid ≠ none) : homeReadDo s a =
    leaseAfter (readNow (arrive s a a.addr) a) a (decide (a.kind = .load) && a.cp != 3) := by
  have hn : ¬a.tid.isNone = true := by simpa using ht
  unfold homeReadDo
  dsimp only
  rw [if_neg fun h => hn h.1, if_neg hn]
  rfl

theorem homeReadDo_of_prefetch (ht : a.tid = none) (hc : CleanLine s a) : homeReadDo s a = dropAcc a.id
    (if a.cp = 2 then arrive s a a.addr else leaseAfter (readNow (arrive s a a.addr) a) a true) := by
  have hn : a.tid.isNone = true := by simp [ht]
  unfold homeReadDo
  dsimp only
  rw [if_neg fun h => by rw [poisonedAt_touchRow, hc] at h; exact Bool.false_ne_true h.2, if_pos hn]
  rfl

theorem homeReadDo_of_poisoned (ht : a.tid = none) (hc : ¬CleanLine s a) :
    homeReadDo s a = dropAcc a.id (combineAt (touchRow s a.id a.addr) a.addr 1) := by
  unfold homeReadDo
  dsimp only
  rw [if_pos ⟨by simp [ht], by rw [poisonedAt_touchRow]; exact Bool.not_eq_false _ ▸ hc⟩, dropAcc,
    (atHome_combineAt (touchRow s a.id a.addr) a.addr 1).accs]

end

/-- A load that R173 permits a copy brings its core one, and the line's lease horizon covers it. -/
def BringsCopy (s : State) (a : Acc) (t : State) : Prop :=
  a.kind = .load → a.lease ≠ 0 → a.cp ≠ 3 →
    poisonedAt (combineAt s a.addr a.size) (128 * lineOf a.addr) 128 = false →
      t.l1? a.core (lineOf a.addr) = some (grantedCopy (combineAt s a.addr a.size) s.time a) ∧
      s.time + 2 ^ (a.lease + 5) ≤ (lineAt t (lineOf a.addr)).lx

section
variable {s : State} {a : Acc}

/-- A read that has reached its home, and the copy that it brings. -/
theorem leaseAfter_readNow (ha : s.acc? a.id = some a) (hroom : RoomInL1 s a.core (lineOf a.addr)) {wants : Bool}
    (hw : a.kind = .load → a.cp ≠ 3 → wants = true) {t : State}
    (ht : t = leaseAfter (readNow (arrive s a a.addr) a) a wants) :
    BringsBack s a t ∧ InSlice t a a.addr ∧ BringsCopy s a t := by
  have hin : SameHome s (arrive s a a.addr) := sameHome_arrive s a a.addr
  have hhome : SameHome (combineAt s a.addr a.size) (readNow (arrive s a a.addr) a) :=
    (hin.combineAt ..).trans (sameHome_readNow _ a)
  have htime : (readNow (arrive s a a.addr) a).time = s.time := (readNow_time ..).trans (arrive_time ..)
  have hr : RoomInL1 (readNow (arrive s a a.addr) a) a.core (lineOf a.addr) :=
    hroom.congr ((readNow_l1 ..).trans (arrive_l1 ..)) (hhome.ucopies ▸ (atHome_combineAt ..).ucopies)
  have hback := bringsBack_readNow hin (arrive_accs s a a.addr) ha
  have hl2 := readNow_l2 (arrive s a a.addr) a
  obtain ⟨c, l, he⟩ := leaseAfter_eq hr wants
  refine ⟨?_, inSlice_of_l2 (by rw [ht, he]; exact hl2), fun hk hl hc hp => ?_⟩
  · rw [ht, he]
    exact hback.congr rfl rfl
  · have hg := leaseAfter_grants hr hl ((hhome.poisonedAt ..).trans hp)
    rw [htime, hhome.grantedCopy] at hg
    rw [ht, hw hk hc]
    exact hg

theorem happens_homeRead (ha : s.acc? a.id = some a) (hr : homeReadReady s a = true)
    (hroom : RoomInL1 s a.core (lineOf a.addr)) (hc : a.tid ≠ none ∨ a.cp ≠ 2 ∧ CleanLine s a) :
    Happens (.homeRead a.id) s fun t =>
      BringsBack s a t ∧ InSlice t a a.addr ∧ (a.tid = none → t.acc? a.id = none) ∧ BringsCopy s a t := by
  refine ⟨_, exec_homeRead ha hr, ?_⟩
  by_cases ht : a.tid = none
  · obtain ⟨hcp, hclean⟩ := hc.resolve_left (not_not.2 ht)
    obtain ⟨⟨hmem, hnone, hothers, -⟩, hslice, hcopy⟩ := leaseAfter_readNow ha hroom (fun _ _ => rfl) rfl
    rw [homeReadDo_of_prefetch ht hclean, if_neg hcp]
    exact ⟨⟨hmem, hnone, hothers.trans (keepsOthers_dropAcc _ _), fun hn => absurd ht hn⟩, hslice,
      fun _ => acc?_dropAcc _ _, hcopy⟩
  · obtain ⟨hback, hslice, hcopy⟩ := leaseAfter_readNow ha hroom (by simp +contextual) (homeReadDo_of_thread ht)
    exact ⟨hback, hslice, fun hn => absurd hn ht, hcopy⟩

theorem happens_homeRead_slice (ha : s.acc? a.id = some a) (hr : homeReadReady s a = true) (ht : a.tid = none)
    (hcp : a.cp = 2) (hc : CleanLine s a) : Happens (.homeRead a.id) s fun t =>
      t.mem = s.mem ∧ InSlice t a a.addr ∧ KeepsOthers a.id s t ∧ t.acc? a.id = none := by
  refine ⟨_, exec_homeRead ha hr, ?_⟩
  rw [homeReadDo_of_prefetch ht hc, if_pos hcp]
  exact ⟨(sameHome_arrive ..).mem, inSlice_of_l2 rfl,
    (KeepsOthers.of_accs (arrive_accs ..)).trans (keepsOthers_dropAcc _ _), acc?_dropAcc _ _⟩

theorem happens_homeRead_poisoned (ha : s.acc? a.id = some a) (hr : homeReadReady s a = true) (ht : a.tid = none)
    (hc : ¬CleanLine s a) : Happens (.homeRead a.id) s fun t =>
      t.l1 = s.l1 ∧ t.l2 = s.l2 ∧ t.threads = s.threads ∧ (NoneGathered s a.addr 1 → t.mem = s.mem) ∧
        KeepsOthers a.id s t ∧ t.acc? a.id = none := by
  refine ⟨_, exec_homeRead ha hr, ?_⟩
  have hhome : SameHome (combineAt s a.addr 1) (combineAt (touchRow s a.id a.addr) a.addr 1) :=
    (sameHome_touchRow ..).combineAt ..
  have hat : AtHome s (combineAt (touchRow s a.id a.addr) a.addr 1) := (atHome_touchRow ..).trans (atHome_combineAt ..)
  rw [homeReadDo_of_poisoned ht hc]
  exact ⟨hat.l1, hat.l2, hat.threads, fun hn => hhome.mem.trans (by rw [combineAt_of_noneGathered hn le_rfl]),
    (KeepsOthers.of_accs hat.accs).trans (keepsOthers_dropAcc _ _), acc?_dropAcc _ _⟩

end

/-! ### A store (R173, R175) -/

/-- The bytes of an access lie at a place, and every other byte is as the combination of gathered values leaves it. -/
def StoresAt (s : State) (a : Acc) (k : Nat) (t : State) : Prop :=
  Holds t.mem k a.size a.data ∧ KeepsOthers a.id s t ∧
    (∀ x, ¬(k ≤ x ∧ x < k + a.size) → memRead t.mem x = memRead (combineAt s k a.size).mem x) ∧
    (NoneGathered s k a.size → (combineAt s k a.size).mem = s.mem)

theorem holds_memWriteBytes {m : List Host.Cell} (hm : memWf m = true) (k n x : Nat) :
    Holds (memWriteBytes m k (leBytes n x)) k n x := fun i hi => by
  have hl : i < (leBytes n x).length := by rwa [length_leBytes]
  rw [memRead_memWriteBytes _ _ _ _ hl hm, leBytes_get]

theorem writeHome_mem (s : State) (k n x : Nat) (poison : Bool) :
    (writeHome s k n x poison).1.mem = memWriteBytes (combineAt s k n).mem k (leBytes n x) := by
  cases poison <;> exact stamp_mem _ k

/-- A store, at the place that the access names. -/
theorem storeNow_eq (s : State) (a : Acc) : ∃ l c, storeNow s a =
    { performed (writeHome s a.addr a.size a.data a.poison).1 a.id a.data (writeHome s a.addr a.size a.data a.poison).2.1
        (writeHome s a.addr a.size a.data a.poison).2.2 a.poison with threads := l, l1 := c } := by
  obtain ⟨l, h⟩ := noteSeen_eq (performed (writeHome s a.addr a.size a.data a.poison).1 a.id a.data
    (writeHome s a.addr a.size a.data a.poison).2.1 (writeHome s a.addr a.size a.data a.poison).2.2 a.poison)
    a.tid a.addr a.size
  unfold storeNow
  dsimp only
  rw [h]
  split
  · exact ⟨l, _, rfl⟩
  · exact ⟨l, _, rfl⟩

theorem storesAt_storeNow {s v : State} {a : Acc} (hwf : memWf s.mem = true) (hv : SameHome s v)
    (hothers : KeepsOthers a.id s v) : StoresAt s a a.addr (storeNow v a) := by
  have hmem : (storeNow v a).mem = memWriteBytes (combineAt s a.addr a.size).mem a.addr (leBytes a.size a.data) := by
    obtain ⟨l, c, h⟩ := storeNow_eq v a
    rw [h, ← (hv.combineAt a.addr a.size).mem]
    exact writeHome_mem ..
  refine ⟨?_, ?_, fun x hx => ?_, fun hn => by rw [combineAt_of_noneGathered hn le_rfl]⟩
  · rw [hmem]
    exact holds_memWriteBytes (memWf_combineAt hwf) _ _ _
  · obtain ⟨l, c, h⟩ := storeNow_eq v a
    rw [h]
    exact hothers.trans ((KeepsOthers.of_accs (atHome_writeHome ..).accs).trans (keepsOthers_updAcc _ a.id _))
  · rw [hmem, memRead_memWriteBytes_other _ _ _ _ (by rwa [length_leBytes])]

theorem storeNow_l2 (s : State) (a : Acc) : (storeNow s a).l2 = s.l2 := by
  obtain ⟨l, c, h⟩ := storeNow_eq s a
  rw [h]
  exact (atHome_writeHome ..).l2

theorem acc?_storeNow {s : State} {a : Acc} (ha : s.acc? a.id = some a) : ∃ gwct tag,
    (storeNow s a).acc? a.id = some { a with stage := .performed, gwct, tag } ∧
      (keyChan a.addr ≠ none → (lineAt (storeNow s a) (lineOf a.addr)).tag = tag ∧
        gwct = max s.time (lineAt (storeNow s a) (lineOf a.addr)).lx) ∧
      (keyChan a.addr = none → gwct = s.time ∧ tag = 0) := by
  have hat := atHome_writeHome s a.addr a.size a.data a.poison
  have hst : Stamped (writeHome s a.addr a.size a.data a.poison).1 a.addr _ _ := stamped_stamp _ a.addr
  obtain ⟨l, c, h⟩ := storeNow_eq s a
  rw [h]
  refine ⟨_, _, acc?_performed ((hat.acc? a.id).trans ha) .., ?_⟩
  rw [Stamped, hat.time] at hst
  exact hst

/-! ### A write at its home (R175, R205) -/

theorem exec_homeWrite {s : State} {a : Acc} {k : Nat} (ha : s.acc? a.id = some a) (hk : homeWritePlace s a = some k) :
    exec (.homeWrite a.id) s = .next (bufferWakes (homeWriteDo s a k)) := by
  change execHomeWrite a.id s = _
  simp only [execHomeWrite, ha, hk]

/-- Records, their lists and the identifiers alone change. -/
def OnlyWakes (s t : State) : Prop := ∃ r n l e, t = { s with recs := r, nextId := n, ladles := l, entryLists := e }

theorem onlyWakes_foldl {α : Type} {f : State → α → State} (hf : ∀ s x, OnlyWakes s (f s x)) (l : List α) (s : State) :
    OnlyWakes s (l.foldl f s) := by
  refine List.foldlRecOn (motive := OnlyWakes s) l f ⟨_, _, _, _, rfl⟩ fun u hu x _ => ?_
  obtain ⟨_, _, _, _, rfl⟩ := hu
  obtain ⟨_, _, _, _, h⟩ := hf _ x
  exact ⟨_, _, _, _, h⟩

theorem onlyWakes_bufferWakes (s : State) : OnlyWakes s (bufferWakes s) :=
  onlyWakes_foldl (fun s _ => onlyWakes_foldl checkWake_eq _ s) _ _

/-- A write has reached its home, at the place its address has now. -/
def placed (s : State) (a : Acc) (k : Nat) : State :=
  let u := (arrive s a k).updAcc a.id fun _ => { a with addr := k }
  if isLate a.addr && (a.kind = .store || a.kind = .str) then patchL1 u a.core k a.size a.data a.poison else u

theorem patchL1_eq (s : State) (core k n x : Nat) (poison : Bool) : ∃ c, patchL1 s core k n x poison = { s with l1 := c } := by
  unfold patchL1
  split <;> exact ⟨_, rfl⟩

theorem placed_eq (s : State) (a : Acc) (k : Nat) :
    ∃ c, placed s a k = { (arrive s a k).updAcc a.id fun _ => { a with addr := k } with l1 := c } := by
  unfold placed
  dsimp only
  split
  · exact patchL1_eq ..
  · exact ⟨_, rfl⟩

section
variable (s : State) (a : Acc) (k : Nat)

theorem sameHome_placed : SameHome s (placed s a k) := by
  obtain ⟨c, h⟩ := placed_eq s a k
  obtain ⟨hm, hp, hl, hu, ho⟩ := sameHome_arrive s a k
  rw [h]
  exact ⟨hm, hp, hl, hu, ho⟩

theorem placed_time : (placed s a k).time = s.time := by
  obtain ⟨c, h⟩ := placed_eq s a k
  rw [h]
  exact arrive_time s a k

theorem placed_l2 : (placed s a k).l2 = (arrive s a k).l2 := by
  obtain ⟨c, h⟩ := placed_eq s a k
  rw [h]
  rfl

theorem keepsOthers_placed : KeepsOthers a.id s (placed s a k) := by
  obtain ⟨c, h⟩ := placed_eq s a k
  rw [h]
  exact (KeepsOthers.of_accs (arrive_accs s a k)).trans (keepsOthers_updAcc _ a.id _)

end

theorem acc?_placed {s : State} {a : Acc} (ha : s.acc? a.id = some a) (k : Nat) :
    (placed s a k).acc? a.id = some { a with addr := k } := by
  obtain ⟨c, h⟩ := placed_eq s a k
  rw [h]
  exact acc?_updAcc_const ((arrive_acc? s a k a.id).trans ha) rfl

theorem homeWriteDo_of_store {s : State} {a : Acc} (k : Nat) (h : a.kind = .store ∨ a.kind = .str) :
    homeWriteDo s a k = storeNow (placed s a k) { a with addr := k } := by
  obtain h | h := h
  · simp only [homeWriteDo, performAt, placed, h]
    rfl
  · simp only [homeWriteDo, performAt, placed, h]
    rfl

theorem homeWriteDo_of_host {s : State} {a : Acc} (k : Nat) (h : a.kind = .host) :
    homeWriteDo s a k = dropAcc a.id (storeNow (placed s a k) { a with addr := k }) := by
  simp only [homeWriteDo, placed, h]
  rfl

section
variable {s : State} {a : Acc} {k : Nat}

theorem happens_homeWrite (ha : s.acc? a.id = some a) (hwf : memWf s.mem = true) (hk : homeWritePlace s a = some k)
    (hkind : a.kind = .store ∨ a.kind = .str ∨ a.kind = .host) : Happens (.homeWrite a.id) s fun t =>
      StoresAt s a k t ∧ InSlice t a k ∧ (a.kind = .host → t.acc? a.id = none) ∧
      (a.kind ≠ .host → ∃ gwct tag, t.acc? a.id = some { a with addr := k, stage := .performed, gwct, tag } ∧
        (keyChan k ≠ none → (lineAt t (lineOf k)).tag = tag ∧ gwct = max s.time (lineAt t (lineOf k)).lx) ∧
        (keyChan k = none → gwct = s.time ∧ tag = 0)) := by
  have hst : StoresAt s a k (storeNow (placed s a k) { a with addr := k }) :=
    storesAt_storeNow (a := { a with addr := k }) hwf (sameHome_placed s a k) (keepsOthers_placed s a k)
  have hl2 : (storeNow (placed s a k) { a with addr := k }).l2 = (arrive s a k).l2 :=
    (storeNow_l2 ..).trans (placed_l2 s a k)
  refine ⟨_, exec_homeWrite ha hk, ?_⟩
  obtain ⟨_, _, _, _, hwakes⟩ := onlyWakes_bufferWakes (homeWriteDo s a k)
  rw [hwakes]
  by_cases hh : a.kind = .host
  · obtain ⟨hmem, hothers, hrest⟩ := hst
    rw [homeWriteDo_of_host k hh]
    exact ⟨⟨hmem, hothers.trans (keepsOthers_dropAcc _ _), hrest⟩, inSlice_of_l2 hl2, fun _ => acc?_dropAcc _ _,
      fun hn => absurd hh hn⟩
  · have hacc := acc?_storeNow (a := { a with addr := k }) (acc?_placed ha k)
    rw [placed_time] at hacc
    rw [homeWriteDo_of_store k (hkind.imp_right fun h => h.resolve_right hh)]
    exact ⟨hst, inSlice_of_l2 hl2, fun h => absurd h hh, fun _ => hacc⟩

/-! ### The bank of a vault (R169, R177, R383) -/

theorem exec_vaultBankAccess (ha : s.acc? a.id = some a) (hr : bankReady s a = true) :
    exec (.vaultBankAccess a.id) s = .next
      (if s.reaches (slotOfCluster (clusterOf a.core)) a.addr then performAt s a else loseRequest s a) := by
  change execVaultBankAccess a.id s = _
  simp only [execVaultBankAccess, ha, hr, if_true]

/-- The place of an access that a bank performs has no line. -/
theorem keyChan_of_bankReady (hr : bankReady s a = true) : keyChan a.addr = none := by
  obtain ⟨hv, -⟩ := Bool.and_eq_true_iff.1 hr
  unfold keyVault at hv
  split at hv
  · next h => exact if_neg (Nat.not_lt.2 h.1)
  · exact absurd hv Bool.false_ne_true

theorem happens_vaultBankAccess_read (ha : s.acc? a.id = some a) (hr : bankReady s a = true)
    (hmine : s.reaches (slotOfCluster (clusterOf a.core)) a.addr = true) (hkind : a.kind = .load ∨ a.kind = .lda) :
    Happens (.vaultBankAccess a.id) s (BringsBack s a) := by
  have hp : performAt s a = readNow s a := by obtain h | h := hkind <;> simp only [performAt, h]
  refine ⟨_, exec_vaultBankAccess ha hr, ?_⟩
  rw [if_pos hmine, hp]
  exact bringsBack_readNow (.refl s) rfl ha

theorem happens_vaultBankAccess_store (ha : s.acc? a.id = some a) (hwf : memWf s.mem = true) (hr : bankReady s a = true)
    (hmine : s.reaches (slotOfCluster (clusterOf a.core)) a.addr = true)
    (hkind : a.kind = .store ∨ a.kind = .str ∨ a.kind = .host) : Happens (.vaultBankAccess a.id) s fun t =>
      StoresAt s a a.addr t ∧ t.acc? a.id = some { a with stage := .performed, gwct := s.time, tag := 0 } := by
  have hp : performAt s a = storeNow s a := by obtain h | h | h := hkind <;> simp only [performAt, h]
  refine ⟨_, exec_vaultBankAccess ha hr, ?_⟩
  rw [if_pos hmine, hp]
  obtain ⟨gwct, tag, hacc, -, hnone⟩ := acc?_storeNow ha
  obtain ⟨rfl, rfl⟩ := hnone (keyChan_of_bankReady hr)
  exact ⟨storesAt_storeNow hwf (.refl s) (.of_accs rfl), hacc⟩

theorem happens_vaultBankAccess_lost (ha : s.acc? a.id = some a) (hr : bankReady s a = true)
    (hmine : ¬s.reaches (slotOfCluster (clusterOf a.core)) a.addr = true) : Happens (.vaultBankAccess a.id) s fun t =>
      t.mem = s.mem ∧ KeepsOthers a.id s t ∧ t.acc? a.id = some { a with stage := .lost } ∧
        t.dev = countError s.dev nbdrop := by
  refine ⟨_, exec_vaultBankAccess ha hr, ?_⟩
  rw [if_neg hmine]
  exact ⟨rfl, keepsOthers_updAcc s a.id _,
    (State.acc?_updAcc s a.id (fun b => { b with stage := .lost }) fun _ => rfl).trans (congrArg (Option.map _) ha), rfl⟩

end

end Sys2Proof.Machine

namespace Sys2Proof
open Machine

/-- Settles O39: one lemma for each event and kind of access, `happens_homeRead` to `happens_vaultBankAccess_lost`. The
combination at the access's place reads and leaves what it would if the row and the slice had not been touched
(`SameHome.combineAt`). -/
theorem homePerforms : Obligations.HomePerforms := by
  unfold Obligations.HomePerforms
  intro s a ha hwf
  exact ⟨fun hr hroom hc => happens_homeRead ha hr hroom hc, fun hr ht hcp hc => happens_homeRead_slice ha hr ht hcp hc,
    fun hr ht hc => happens_homeRead_poisoned ha hr ht hc, fun k hk _ hkind => happens_homeWrite ha hwf hk hkind,
    fun hr hmine hkind => (happens_vaultBankAccess_read ha hr hmine hkind).imp fun _ h => ⟨h.1, fun _ => h.2⟩,
    fun hr hmine hkind => happens_vaultBankAccess_store ha hwf hr hmine hkind,
    fun hr hmine => happens_vaultBankAccess_lost ha hr hmine⟩

end Sys2Proof
end

section
/-! PROOF. O18 fails: `BSTAT` in a group whose lane has no thread. -/

namespace Sys2Proof.Machine

open Sys2Proof (Instr)

/-- `w0` without its thread, while a `BTAKE` on buffer 0 is on its way to the home. -/
def wUnmanned : State := { w0 with threads := [], bufOps := [{ bufOp0 .take .sent with buf := 0, order := [(1, 1)] }] }

theorem oneWord_wUnmanned : OneWord wUnmanned p0 e0 := by constructor <;> decide +kernel

/-- No thread of `wUnmanned` issues. -/
theorem issuing?_wUnmanned : wUnmanned.issuing? = none := by decide +kernel

theorem before?_wUnmanned : ∀ x ∈ wUnmanned.cur.lanes, wUnmanned.before? x.2 = none := by decide +kernel

/-- `BSTAT` waits for the `BTAKE` on its way: every entry of the pour is stalled. -/
theorem stalled_bstat_wUnmanned : (nextOf (exec (.bstat h0 5 0) wUnmanned)).map (fun t =>
    t.pours.all fun q => q.entries.all fun y => y.stall.isSome) = some true := by decide +kernel

/-- A word after which every entry is stalled does not complete in a group of one word. -/
theorem not_completes_of_stalled {i : Instr} {s : State} {p : Pour} {e : Entry} {eff : State → Prop}
    (hphase : s.cur.phase = .alone) (hlanes : s.cur.lanes ≠ [])
    (hst : (nextOf (exec i s)).map (fun t => t.pours.all fun q => q.entries.all fun y => y.stall.isSome) = some true) :
    ¬Completes i s p e eff := by
  rintro ⟨t, ht, hmove, -⟩
  obtain ⟨-, q, hq, -, -, -, -, -, hstand⟩ := hmove hphase
  obtain ⟨x, hx⟩ := List.exists_mem_of_ne_nil _ hlanes
  obtain ⟨y, hy, -, -, -, -, hnone⟩ := hstand x hx
  simp only [ht, nextOf, Option.map_some, Option.some.injEq, List.all_eq_true] at hst
  simpa [hnone] using hst q hq y hy

end Sys2Proof.Machine

namespace Sys2Proof
open Machine

/-- Refutes O18: where the lane of the group has no thread, `BSTAT` looks at buffer 0 of nothing, and an operation of that
number on its way makes the word wait. -/
theorem not_statusWords : ¬Obligations.StatusWords := by
  unfold Obligations.StatusWords
  intro h
  obtain ⟨-, -, -, hbstat⟩ := h wUnmanned p0 e0 h0 5 0 0 (.inl oneWord_wUnmanned)
  obtain ⟨x, hx, -⟩ := hbstat (fun x hx u _ hu => absurd hu (by simp [before?_wUnmanned x hx]))
    (fun x hx u hu => absurd hu (by simp [before?_wUnmanned x hx]))
    (fun l u hu => absurd hu (by simp [issuing?_wUnmanned]))
  exact not_completes_of_stalled oneWord_wUnmanned.phase oneWord_wUnmanned.lanes stalled_bstat_wUnmanned hx

end Sys2Proof
end

section
/-! PROOF. O20 fails: a write of `SYSDONE` makes a ninth frontier entry, and the close of the group splits one off (R45). -/

namespace Sys2Proof.Machine

open Sys2Proof (Instr)

/-! ### What a reply leaves unchanged where no thread is a record -/

theorem atHome_setSysState (s : State) (p : Part) (ix st : Nat) : AtHome s (setSysState s p ix st) := by
  unfold setSysState
  split
  · exact (atHome_queueRow ..).trans (atHome_writeHome ..)
  · unfold countLost
    split
    · exact ⟨_, _, _, _, _, _, List.Sublist.refl _, rfl⟩
    · exact AtHome.refl s

theorem recs_updBoth (s : State) (tid : Nat) (f : Thread → Thread) : (s.updBoth tid f).recs = s.recs := by
  unfold State.updBoth
  split
  · rfl
  · split <;> rfl

theorem recs_unstall (s : State) (tid : Nat) : (unstall s tid).recs = s.recs := by
  unfold unstall
  split
  · split <;> rfl
  · rfl

/-- A reply to threads that wait in their slots makes no record. -/
theorem recs_sysReply_of_none {s : State} (h : s.recs = []) (part ix : Nat) : (sysReply s part ix).recs = [] := by
  unfold sysReply
  split
  · exact h
  next p _ =>
    split
    · exact h
    · split
      · exact h
      · have hr : (setSysState s p ix 0).recs = [] := by
          obtain ⟨_, _, _, _, _, _, -, hs⟩ := atHome_setSysState s p ix 0
          rw [hs]
          exact h
        simp only [hr, List.find?_nil, Option.map_none]
        exact List.foldlRecOn (motive := fun t : State => t.recs = []) _ _ hr fun t ht tid _ => (recs_unstall _ tid).trans ((recs_updBoth ..).trans ht)

/-! ### The state -/

/-- Entry 0 is that of the word; lanes 1 and 2 await replies in their slots at one PC, lane 1 that of ring entry 0; lanes
3 to 8 stand at six more places. -/
def eReply (i : Nat) : Entry :=
  if i = 0 then e0
  else { eFull i with
    mask := if i = 1 then 6 else BitVec.ofNat 32 (2 ^ (i + 1))
    stall := if i = 1 then some { start := 0, tried := 0, wtype := 6, key := 1, keys := [(1, 0)], pool := some 0 } else none }
def pReply : Pour := { p0 with entries := (List.range 8).map eReply }
/-- Thread 1 runs at supervisor level, ring entry 0 is replied, and the pool has room for four records. -/
def wReply : State :=
  { wPost ring0 none (2 * 2 ^ 28) with
    threads := (List.range 9).map fun i => { uFull i with level := .sup }, pours := [pReply], posts := [],
    launches := [{ placeLaunch with chain := [{ region0 with poolrec := 4 }] }] }
def partReply : Part := wReply.parts.headD part0
def uReply : Thread := thread1 wReply

theorem oneWord_wReply : OneWord wReply pReply e0 := by constructor <;> decide +kernel
theorem before_wReply : wReply.cur.lanes = [(0, 1)] ∧ wReply.before? 1 = some uReply ∧ wReply.thread? 1 = some uReply ∧
    uReply.twin = 0 ∧ (if wReply.ctlHere = true then wReply.partOfSlot (wReply.cur.core - 1024) else wReply.part? uReply.part) =
      some partReply ∧ (∀ x ∈ wReply.parts, x.first = partReply.first → x = partReply) ∧
    csrStatic wReply.ctlHere 1 0x109 2 uReply.level = none ∧ wReply.recs = [] := by decide +kernel

/-- The reply lets lane 1 go on in an entry of its own, the ninth, and a thread becomes a record. -/
theorem recs_csrw_wReply : (nextOf (exec (.csrw h0 2 0x109) wReply)).map (fun t => t.recs.isEmpty) = some false := by
  decide +kernel

end Sys2Proof.Machine

namespace Sys2Proof
open Machine

/-- Refutes O20: the write of `SYSDONE` does more than the event of that name where the reply makes a ninth frontier entry;
the entry of lowest priority then leaves the pour as records (R45), which the event does not do. -/
theorem not_csrWrites : ¬Obligations.CsrWrites := by
  unfold Obligations.CsrWrites
  intro h
  obtain ⟨hlanes, hbefore, hthread, htwin, hpart, hparts, hstatic, hrecs⟩ := before_wReply
  have hforms := h.2 wReply pReply e0 h0 2 0x109 0 1 uReply partReply (.inl oneWord_wReply) hlanes hbefore hthread htwin
    hpart hparts _ (List.mem_cons_self ..) hstatic
  obtain ⟨-, hsysdone, -⟩ := hforms
  obtain ⟨s', hs', t', ht', t, ht, hafter, -⟩ := hsysdone rfl
  have hnone : t'.recs = [] := by
    cases ht'
    exact recs_sysReply_of_none (by rw [hs']; exact hrecs) _ _
  have hsome := recs_csrw_wReply
  rw [ht, hafter] at hsome
  simp [nextOf, hnone] at hsome

end Sys2Proof
end

section
/-! PROOF. O16 fails: `PROTECT` in a later run of an assay, on a core that reaches its threshold with it. -/

namespace Sys2Proof.Machine

open Sys2Proof (Instr)

/-- Two physical lanes of cast 0, which make its second run on core 0, and whose v6 differ; thread 3 is a record of cast 1,
of the same gang. -/
def uRerun : Thread := { u0v [(6, 400)] with twin := 2, run := 1 }
def uRerunOdd : Thread := { u0v [(6, 800)] with tid := 2, shadow := true, twin := 1, run := 1 }
def uGang : Thread := { u0 with tid := 3, cast := 1, loc := .record }
/-- The first run was made on core 5. -/
def castRerun : Cast := { placeCast with run := 1, pin := some 0, assay := some { assay0 with digests := [(5, 0)] } }
def launchGang : Launch := { placeLaunch with gang := 2, ncast := 2 }
/-- Core 0 has 60 of the 64 suspicion points at which it is quarantined. -/
def wRerun : State :=
  { w0 with
    threads := [uRerun, uRerunOdd, uGang], launches := [launchGang], casts := [castRerun, { placeCast with num := 1 }]
    dev := { w0.dev with susp := [(0, 60, false)] } }

theorem oneWord_wRerun : OneWord wRerun p0 e0 := by constructor <;> decide +kernel
theorem protect_wRerun : wRerun.ctlHere = false ∧ wRerun.cur.lanes = [(0, uRerun.tid)] ∧
    wRerun.thread? uRerun.tid = some uRerun ∧ wRerun.before uRerun = uRerun ∧ wRerun.twinOf uRerun = some uRerunOdd ∧
    wRerun.launch? uRerun.part uRerun.launch = some launchGang ∧
    uRerun.rdV wRerun.time 6 ≠ (wRerun.before uRerunOdd).rdV wRerun.time 6 := by decide +kernel

/-- The gang of cast 0 is that of cast 1. -/
theorem gang_uGang : uGang.shadow = false ∧ uGang.part = launchGang.part ∧ uGang.launch = launchGang.num ∧
    inGang launchGang (launchGang.gangOf uRerun.cast) uGang.cast = true := by decide +kernel

/-- Quarantine throws the run away, its threads with it; then no thread is left that names the gang, and thread 3 stays. -/
theorem threads_jr_wRerun : (nextOf (exec (.jr h0 6 1) wRerun)).map (fun t => t.threads) = some [uGang] := by decide +kernel

end Sys2Proof.Machine

namespace Sys2Proof
open Machine

/-- Refutes O16: where the suspicion points of the kill quarantine the core, the threads of a later run end first (R366), and
the gang kill, which is given by the thread, finds none. -/
theorem not_controlTransfers : ¬Obligations.ControlTransfers := by
  unfold Obligations.ControlTransfers
  intro h
  obtain ⟨-, -, -, -, -, -, -, -, hkill⟩ :=
    h wRerun p0 e0 h0 0 0 1 0 0 6 (.inl oneWord_wRerun) oneWord_wRerun.entry
  obtain ⟨hctl, hlanes, hthread, hbefore, htwin, hlaunch, hdiffer⟩ := protect_wRerun
  obtain ⟨t, ht, hgone⟩ := (hkill _ _ (.inr (.inl ⟨rfl, rfl⟩))).1 0 uRerun uRerunOdd launchGang oneWord_wRerun hctl hlanes
    hthread hbefore htwin hlaunch hdiffer
  have hleft : t.threads = [uGang] := by
    have hrun := threads_jr_wRerun
    rw [ht] at hrun
    exact Option.some.inj hrun
  obtain ⟨hshadow, hgang⟩ := gang_uGang
  exact hgone uGang (by simp [hleft]) hshadow hgang

end Sys2Proof
end

section
/-! PROOF. What the work of the record pool leaves unchanged: frames of the bytes of records, of ladles and of wakes, and what
they leave of the threads. -/

namespace Sys2Proof.Machine

open Sys2Proof

/-! ### The homes and the pool -/

/-- The homes, the records and what they wait in change; no thread, no pour and no access does. -/
def InPool (s t : State) : Prop :=
  ∃ d m p l u o r n la en an, t = { s with
    dev := d, mem := m, poisoned := p, lines := l, ucopies := u, homeOrder := o, recs := r, nextId := n, ladles := la,
    entryLists := en, annexes := an }

theorem AtHome.inPool {s t : State} (h : AtHome s t) : InPool s t := by
  obtain ⟨_, _, _, _, _, _, -, rfl⟩ := h
  exact ⟨_, _, _, _, _, _, _, _, _, _, _, rfl⟩

theorem OnlyWakes.inPool {s t : State} (h : OnlyWakes s t) : InPool s t := by
  obtain ⟨_, _, _, _, rfl⟩ := h
  exact ⟨_, _, _, _, _, _, _, _, _, _, _, rfl⟩

namespace InPool
variable {s t u : State}

theorem refl (s : State) : InPool s s := ⟨_, _, _, _, _, _, _, _, _, _, _, rfl⟩

theorem trans (h : InPool s t) (h' : InPool t u) : InPool s u := by
  obtain ⟨_, _, _, _, _, _, _, _, _, _, _, rfl⟩ := h
  obtain ⟨_, _, _, _, _, _, _, _, _, _, _, rfl⟩ := h'
  exact ⟨_, _, _, _, _, _, _, _, _, _, _, rfl⟩

variable (h : InPool s t)
include h

theorem threads : t.threads = s.threads := by obtain ⟨_, _, _, _, _, _, _, _, _, _, _, rfl⟩ := h; rfl
theorem thread? (n : Nat) : t.thread? n = s.thread? n := congrArg (List.find? _) h.threads
theorem launches : t.launches = s.launches := by obtain ⟨_, _, _, _, _, _, _, _, _, _, _, rfl⟩ := h; rfl
theorem pours : t.pours = s.pours := by obtain ⟨_, _, _, _, _, _, _, _, _, _, _, rfl⟩ := h; rfl
theorem accs : t.accs = s.accs := by obtain ⟨_, _, _, _, _, _, _, _, _, _, _, rfl⟩ := h; rfl
theorem results : t.results = s.results := by obtain ⟨_, _, _, _, _, _, _, _, _, _, _, rfl⟩ := h; rfl

end InPool

namespace AtHome
variable {s t : State} (h : AtHome s t)
include h

theorem recs : t.recs = s.recs := by obtain ⟨_, _, _, _, _, _, -, rfl⟩ := h; rfl
theorem rec? (n : Nat) : t.rec? n = s.rec? n := congrArg (List.find? _) h.recs
theorem annexes : t.annexes = s.annexes := by obtain ⟨_, _, _, _, _, _, -, rfl⟩ := h; rfl

end AtHome

namespace OnlyWakes
variable {s t u : State}

theorem refl (s : State) : OnlyWakes s s := ⟨_, _, _, _, rfl⟩

theorem trans (h : OnlyWakes s t) (h' : OnlyWakes t u) : OnlyWakes s u := by
  obtain ⟨_, _, _, _, rfl⟩ := h
  obtain ⟨_, _, _, _, rfl⟩ := h'
  exact ⟨_, _, _, _, rfl⟩

theorem mem (h : OnlyWakes s t) : t.mem = s.mem := by obtain ⟨_, _, _, _, rfl⟩ := h; rfl
theorem threads (h : OnlyWakes s t) : t.threads = s.threads := h.inPool.threads

end OnlyWakes

/-! ### The bytes of records -/

theorem atHome_devPut (s : State) (k n x : Nat) : AtHome s (devPut s k n x) := atHome_writeHome s k n x false

theorem atHome_devStore (s : State) (k n x : Nat) : AtHome s (devStore s k n x) :=
  (atHome_queueRow s k).trans (atHome_devPut ..)

theorem atHome_placeWrite (s : State) (part ref : Nat) (bs : List Byte) (bad : List Nat) :
    AtHome s (placeWrite s part ref bs bad) := by
  unfold placeWrite
  refine (AtHome.foldl (fun s i => ?_) _ s).trans (AtHome.foldl (fun s o => ?_) bad _)
  · split
    · split
      · exact atHome_devStore ..
      · exact atHome_devPut ..
    · exact AtHome.refl s
  · split
    · exact ⟨_, _, _, _, _, _, List.Sublist.refl _, rfl⟩
    · exact AtHome.refl s

theorem atHome_placeTouch (s : State) (part ref : Nat) : AtHome s (placeTouch s part ref) :=
  AtHome.foldl (fun s i => by
    split
    · exact (atHome_combineAt ..).trans (atHome_queueRow ..)
    · exact AtHome.refl s) _ s

theorem atHome_writeRec (s : State) (tid : Nat) : AtHome s (writeRec s tid) := by
  unfold writeRec
  split
  · exact atHome_placeWrite ..
  · exact AtHome.refl s

theorem atHome_flushAnnex (s : State) (part ref : Nat) : AtHome s (flushAnnex s part ref) := by
  unfold flushAnnex
  split
  · exact atHome_placeWrite ..
  · exact AtHome.refl s

theorem inPool_loadAnnex (s : State) (part ref : Nat) : InPool s (loadAnnex s part ref) := by
  obtain ⟨_, _, _, _, _, _, -, h⟩ := atHome_placeTouch s part ref
  unfold loadAnnex
  rw [h]
  exact ⟨_, _, _, _, _, _, _, _, _, _, _, rfl⟩

/-! ### Threads once a record has been written again -/

/-- Thread `w` but for its poison, which covers that of `w`; it is the same where nothing is poisoned. -/
def Marked (clean : Prop) (w w' : Thread) : Prop :=
  ∃ m, w' = { w with poison := m } ∧ (clean → m = w.poison) ∧ ∀ j, w.poison.getLsbD j = true → m.getLsbD j = true

theorem Marked.refl (clean : Prop) (w : Thread) : Marked clean w w := ⟨_, rfl, fun _ => rfl, fun _ h => h⟩

theorem getLsbD_foldl_setBit {n : Nat} {bad : Nat → Bool} {l : List Nat} {x : BitVec n} {j : Nat}
    (h : x.getLsbD j = true) : (l.foldl (fun m i => if bad i then setBit m i true else m) x).getLsbD j = true := by
  refine List.foldlRecOn (motive := fun m : BitVec n => m.getLsbD j = true) l _ h fun m hm i _ => ?_
  split
  · simp [setBit, hm]
  · exact hm

theorem recPoison_eq (s : State) (tid : Nat) : ∃ th, recPoison s tid = { s with threads := th } := by
  unfold recPoison
  split
  · exact ⟨_, rfl⟩
  · split <;> exact ⟨_, rfl⟩

/-- An update keeps the numbers of threads. -/
theorem thread?_updThread_any (s : State) (tid n : Nat) (f : Thread → Thread) (hf : ∀ u, (f u).tid = u.tid) :
    (s.updThread tid f).thread? n = (s.thread? n).map fun u => if n = tid then f u else u := by
  by_cases hn : n = tid
  · simp [hn, State.thread?_updThread s tid f hf]
  · simp [hn, State.thread?_updThread_other s tid n f hf hn]

theorem thread?_recPoison {s : State} {tid n : Nat} {w : Thread} (h : s.thread? n = some w) :
    ∃ w', (recPoison s tid).thread? n = some w' ∧ Marked (s.poisoned = []) w w' := by
  unfold recPoison
  split
  · exact ⟨w, h, .refl _ w⟩
  next hp =>
    split
    · dsimp only
      rw [thread?_updThread_any _ _ _ _ (by intro; rfl), h]
      refine ⟨_, rfl, ?_⟩
      split
      · exact ⟨_, rfl, fun hc => absurd (by simp [hc]) hp, fun j => getLsbD_foldl_setBit⟩
      · exact .refl _ w
    · exact ⟨w, h, .refl _ w⟩

theorem thread?_flushRec {s : State} {tid n : Nat} {w : Thread} (h : s.thread? n = some w) :
    ∃ w', (flushRec s tid).thread? n = some w' ∧ Marked (s.poisoned = []) w w' := by
  obtain ⟨w', hw, hm⟩ := thread?_recPoison (tid := tid) h
  exact ⟨w', ((atHome_writeRec _ tid).inPool.thread? n).trans hw, hm⟩

theorem flushRec_of_none {s : State} {tid : Nat} (h : s.rec? tid = none) : flushRec s tid = s := by
  have hp : recPoison s tid = s := by simp [recPoison, h]
  simp [flushRec, hp, writeRec, h]

/-- Writing a record again changes the homes, and poison of its thread. -/
theorem flushRec_eq (s : State) (tid : Nat) : ∃ th, AtHome { s with threads := th } (flushRec s tid) := by
  obtain ⟨th, h⟩ := recPoison_eq s tid
  exact ⟨th, h ▸ atHome_writeRec (recPoison s tid) tid⟩

/-! ### Threads and their records -/

theorem updBoth_eq (s : State) (tid : Nat) (f : Thread → Thread) : ∃ th, s.updBoth tid f = { s with threads := th } := by
  unfold State.updBoth
  split
  · exact ⟨_, rfl⟩
  · split <;> exact ⟨_, rfl⟩

theorem reloadHeld_of_free {s : State} {tid : Nat} (h : ∀ r, s.rec? tid = some r → r.held = false) :
    reloadHeld s tid = s := by
  unfold reloadHeld
  cases hr : s.rec? tid with
  | none => rfl
  | some r => simp [h r hr]

end Sys2Proof.Machine
end

section
/-! PROOF. The end of threads: a gang that is killed has none left (R159, R339). -/

namespace Sys2Proof.Machine

open Sys2Proof

/-! ### Frames -/

/-- What no kill changes of a launch. -/
def Launch.frame (l : Launch) : Nat × Nat × List Region × Nat := (l.part, l.num, l.chain, l.gang)

/-- No thread comes or changes, and launches keep their frames. -/
structure Thins (s t : State) : Prop where
  threads : ∀ u ∈ t.threads, u ∈ s.threads
  launch : ∀ p n, (t.launch? p n).map Launch.frame = (s.launch? p n).map Launch.frame

namespace Thins
variable {s t u : State}

theorem of_eq (ht : t.threads = s.threads) (hl : t.launches = s.launches) : Thins s t :=
  ⟨fun _ h => ht ▸ h, fun p n => by simp [State.launch?, hl]⟩

theorem refl (s : State) : Thins s s := of_eq rfl rfl

theorem trans (h : Thins s t) (h' : Thins t u) : Thins s u :=
  ⟨fun x hx => h.threads x (h'.threads x hx), fun p n => (h'.launch p n).trans (h.launch p n)⟩

theorem foldl {α : Type} {f : State → α → State} (hf : ∀ s x, Thins s (f s x)) (l : List α) (s : State) :
    Thins s (l.foldl f s) := List.foldlRecOn (motive := Thins s) l f (refl s) fun _ h x _ => h.trans (hf _ x)

theorem with_casts (h : Thins s t) (cs : List Cast) : Thins s { t with casts := cs } := h.trans (of_eq rfl rfl)
theorem with_tiles (h : Thins s t) (ts : List Tile) : Thins s { t with tiles := ts } := h.trans (of_eq rfl rfl)
theorem with_copies (h : Thins s t) (cs : List CopyOp) : Thins s { t with copies := cs } := h.trans (of_eq rfl rfl)
theorem with_ops (h : Thins s t) (cs : List CopyOp) (rs : List Runner) (os : List TileOp) :
    Thins s { t with copies := cs, runners := rs, tileOps := os } := h.trans (of_eq rfl rfl)
theorem with_calls (h : Thins s t) (b : List BufOp) (p : List PostReq) : Thins s { t with bufOps := b, posts := p } :=
  h.trans (of_eq rfl rfl)

end Thins

theorem InPool.thins {s t : State} (h : InPool s t) : Thins s t := .of_eq h.threads h.launches
theorem AtHome.thins {s t : State} (h : AtHome s t) : Thins s t := h.inPool.thins

theorem thins_updLaunch (s : State) (p n : Nat) {f : Launch → Launch} (hf : ∀ l, (f l).frame = l.frame) :
    Thins s (s.updLaunch p n f) := by
  refine ⟨fun _ h => h, fun p' n' => ?_⟩
  have hkey (l : Launch) : (decide ((f l).part = p') && decide ((f l).num = n')) = (decide (l.part = p') && decide (l.num = n')) := by
    have := hf l
    simp only [Launch.frame, Prod.mk.injEq] at this
    rw [this.1, this.2.1]
  simp only [State.launch?, State.updLaunch, updL, List.find?_map, Option.map_map]
  have hfind : s.launches.find? ((fun x : Launch => decide (x.part = p') && decide (x.num = n')) ∘ fun x =>
      if (decide (x.part = p) && decide (x.num = n)) = true then f x else x) =
      s.launches.find? fun x => decide (x.part = p') && decide (x.num = n') := by
    congr 1
    funext x
    simp only [Function.comp]
    split
    · exact hkey x
    · rfl
  rw [hfind]
  congr 1
  funext x
  simp only [Function.comp]
  split
  · exact hf x
  · rfl

/-! ### Pieces of the end of a thread -/

theorem departures_eq (s : State) (t : Thread) (killed : Bool) :
    ∃ n g, departures s t killed = { s with nextId := n, sgs := g } := by
  refine List.foldlRecOn (motive := fun u : State => ∃ n g, u = { s with nextId := n, sgs := g }) _ _ ⟨_, _, rfl⟩ fun u hu h _ => ?_
  obtain ⟨_, _, rfl⟩ := hu
  exact ⟨_, _, rfl⟩

theorem leavePour_eq (s : State) (core slot lane : Nat) : ∃ ps, leavePour s core slot lane = { s with pours := ps } := by
  unfold leavePour
  dsimp only
  split <;> exact ⟨_, rfl⟩

theorem thins_departures (s : State) (t : Thread) (killed : Bool) : Thins s (departures s t killed) := by
  obtain ⟨_, _, h⟩ := departures_eq s t killed
  exact .of_eq (by rw [h]) (by rw [h])

theorem thins_leavePour (s : State) (core slot lane : Nat) : Thins s (leavePour s core slot lane) := by
  obtain ⟨_, h⟩ := leavePour_eq s core slot lane
  exact .of_eq (by rw [h]) (by rw [h])

theorem onlyWakes_enterLadle (s : State) (tid : Nat) : OnlyWakes s (enterLadle s tid) := by
  obtain ⟨_, _, _, h⟩ := enterLadle_eq s tid
  exact ⟨_, _, _, _, h⟩

theorem onlyWakes_serveEntryLists (s : State) : OnlyWakes s (serveEntryLists s) :=
  onlyWakes_foldl (fun s x => by
    obtain ⟨_, _, _, h⟩ := enterLadle_eq { s with entryLists := s.entryLists.filter fun y => y.2 ≠ x.2 } x.2
    exact ⟨_, _, _, _, h⟩) _ s

theorem onlyWakes_checkWakes (s : State) (part wtype : Nat) : OnlyWakes s (checkWakes s part wtype) :=
  onlyWakes_foldl checkWake_eq _ s

theorem settleMove_eq (s : State) (part : Nat) : ∃ ps, OnlyWakes { s with parts := ps } (settleMove s part) := by
  unfold settleMove
  split
  · exact ⟨_, .refl _⟩
  · split
    · exact ⟨_, onlyWakes_checkWakes ..⟩
    · exact ⟨_, .refl _⟩

theorem inPool_dropFromAnnex (s : State) (ref part : Nat) : InPool s (dropFromAnnex s ref part) := by
  have hload : InPool s (if s.recs.any fun r => r.part = part && r.annex = ref && r.held then loadAnnex s part ref else s) := by
    split
    · exact inPool_loadAnnex ..
    · exact .refl s
  refine (hload.trans ?_).trans (atHome_flushAnnex ..).inPool
  exact ⟨_, _, _, _, _, _, _, _, _, _, _, rfl⟩

theorem dropRec_eq (s : State) (tid : Nat) : ∃ ps, InPool { s with parts := ps } (dropRec s tid) := by
  unfold dropRec
  split
  · exact ⟨_, .refl _⟩
  next r _ =>
    obtain ⟨ps, h⟩ := settleMove_eq (serveEntryLists (if r.annex = 0 then { leaveLadle s tid with recs := s.recs.filter fun x => x.tid ≠ tid }
      else dropFromAnnex { leaveLadle s tid with recs := s.recs.filter fun x => x.tid ≠ tid } r.annex r.part)) r.part
    refine ⟨ps, InPool.trans ?_ h.inPool⟩
    have hleave : InPool s { leaveLadle s tid with recs := s.recs.filter fun x => x.tid ≠ tid } :=
      ⟨_, _, _, _, _, _, _, _, _, _, _, rfl⟩
    have hserve := (onlyWakes_serveEntryLists (if r.annex = 0 then { leaveLadle s tid with recs := s.recs.filter fun x => x.tid ≠ tid }
      else dropFromAnnex { leaveLadle s tid with recs := s.recs.filter fun x => x.tid ≠ tid } r.annex r.part)).inPool
    have hall : InPool s (serveEntryLists (if r.annex = 0 then { leaveLadle s tid with recs := s.recs.filter fun x => x.tid ≠ tid }
        else dropFromAnnex { leaveLadle s tid with recs := s.recs.filter fun x => x.tid ≠ tid } r.annex r.part)) := by
      refine hleave.trans (InPool.trans ?_ hserve)
      split
      · exact .refl _
      · exact inPool_dropFromAnnex ..
    obtain ⟨_, _, _, _, _, _, _, _, _, _, _, h'⟩ := hall
    rw [h']
    exact ⟨_, _, _, _, _, _, _, _, _, _, _, rfl⟩

theorem dropRec_threads (s : State) (tid : Nat) : (dropRec s tid).threads = s.threads := by
  obtain ⟨_, h⟩ := dropRec_eq s tid
  exact h.threads

theorem dropRec_launches (s : State) (tid : Nat) : (dropRec s tid).launches = s.launches := by
  obtain ⟨_, h⟩ := dropRec_eq s tid
  exact h.launches

/-! ### The end of a thread and of a gang -/

/-- What remains of the threads once one has ended. -/
theorem endThread_spec (s : State) (tid : Nat) (killed : Bool) :
    Thins s (endThread s tid killed) ∧ ∀ u ∈ (endThread s tid killed).threads, u.tid ≠ tid := by
  unfold endThread
  split
  next h =>
    exact ⟨.refl s, fun u hu htid => absurd (List.find?_eq_none.1 h u hu) (by simp [htid])⟩
  next t _ =>
    have hleave : Thins s (match t.loc with
        | .lane c sl ln => leavePour (departures s t killed) c sl ln
        | _ => departures s t killed) := by
      refine (thins_departures s t killed).trans ?_
      split
      · exact thins_leavePour ..
      · exact .refl _
    have hdrop (v : State) : Thins v (dropRec v tid) := .of_eq (dropRec_threads v tid) (dropRec_launches v tid)
    refine ⟨(hleave.trans (hdrop _)).trans ⟨fun u hu => List.mem_of_mem_filter hu, fun _ _ => rfl⟩, fun u hu htid => ?_⟩
    simpa [htid] using (List.mem_filter.1 hu).2

theorem thins_updPart (s : State) (p : Nat) (f : Part → Part) : Thins s (s.updPart p f) := .of_eq rfl rfl

theorem thins_freeLocksAt (s : State) (op done : Nat) : Thins s (freeLocksAt s op done) := .of_eq rfl rfl

theorem thins_settleTiles (s : State) : Thins s (settleTiles s) := .of_eq rfl rfl

theorem thins_endOps (s : State) (ids : List Nat) : Thins s (endOps s ids) := by
  unfold endOps
  refine Thins.trans (Thins.with_ops (Thins.foldl (fun s id => ?_) ids s) _ _ _) (thins_settleTiles _)
  dsimp only
  split
  · exact (thins_freeLocksAt ..).trans (thins_updLaunch _ _ _ fun _ => rfl)
  · exact thins_freeLocksAt ..

theorem thins_killEngines (s : State) (l : Launch) (g : Nat) : Thins s (killEngines s l g) := by
  unfold killEngines
  dsimp only
  exact Thins.trans (Thins.with_tiles (thins_endOps _ _) _) (thins_settleTiles _)

theorem thins_holdRanges (s : State) (l : Launch) (g : Nat) : Thins s (holdRanges s l g) := by
  unfold holdRanges
  dsimp only
  split
  · exact .refl s
  · exact .of_eq rfl rfl

theorem atHome_btPoke (s : State) (p : Part) (idx o n x : Nat) : AtHome s (btPoke s p idx o n x) := by
  obtain h | ⟨k, h⟩ := btPoke_cases s p idx o n x
  · rw [h]
    exact .refl s
  · rw [h]
    exact atHome_writeHome s k n x false

theorem atHome_countLost (s : State) (part : Nat) (op : PortOp) (ptr size : Nat) : AtHome s (countLost s part op ptr size) := by
  unfold countLost
  split
  · exact ⟨_, _, _, _, _, _, List.Sublist.refl _, rfl⟩
  · exact .refl s

theorem atHome_clearShares (s : State) (part ptr : Nat) : AtHome s (clearShares s part ptr) :=
  AtHome.foldl (fun s i => by
    split
    · split
      · exact atHome_devStore ..
      · exact atHome_devPut ..
    · exact atHome_countLost ..) _ s

theorem thins_freeChanged (s : State) (part launch g : Nat) : Thins s (freeChanged s part launch g) := by
  unfold freeChanged
  split
  · exact .refl s
  next p _ =>
    dsimp only
    refine Thins.trans ?_ (onlyWakes_checkWakes _ _ _).inPool.thins
    refine Thins.trans ?_ (thins_updPart _ _ _)
    refine Thins.with_copies ?_ _
    refine (AtHome.foldl (fun s b => ?_) _ s).thins
    split
    · exact (atHome_btPoke ..).trans (atHome_clearShares ..)
    · exact .refl s

theorem thins_endHold (s : State) (part launch : Nat) : Thins s (endHold s part launch) := by
  unfold endHold
  split
  · exact .refl s
  · split
    · refine (Thins.foldl (fun s i => ?_) _ s).trans (thins_updLaunch _ _ _ fun _ => rfl)
      unfold bumpHold
      split
      · exact .refl s
      · exact (atHome_btPoke ..).thins
    · exact .refl s

/-- Once threads have ended, none of their numbers is left. -/
theorem foldl_endThread_spec (killed : Bool) (l : List Nat) (s : State) :
    Thins s (l.foldl (fun s tid => endThread s tid killed) s) ∧
      ∀ u ∈ (l.foldl (fun s tid => endThread s tid killed) s).threads, u.tid ∉ l := by
  induction l generalizing s with
  | nil => exact ⟨.refl s, fun _ _ => List.not_mem_nil⟩
  | cons tid l ih =>
    obtain ⟨hthin, hout⟩ := ih (endThread s tid killed)
    obtain ⟨hthin', hout'⟩ := endThread_spec s tid killed
    refine ⟨hthin'.trans hthin, fun u hu => ?_⟩
    rw [List.mem_cons, not_or]
    exact ⟨hout' u (hthin.threads u hu), hout u hu⟩

/-- A gang that is killed has no thread left. -/
theorem killGang_spec {s : State} {part launch : Nat} {l : Launch} (hl : s.launch? part launch = some l) (g : Nat) :
    Thins s (killGang s part launch g) ∧ ∀ u ∈ (killGang s part launch g).threads, u.shadow = false →
      ¬(u.part = part ∧ u.launch = launch ∧ inGang l g u.cast = true) := by
  have hend := foldl_endThread_spec true ((s.threads.filter fun t =>
    t.part = part && t.launch = launch && inGang l g t.cast && !t.shadow).map (·.tid)) s
  have hrest : Thins (((s.threads.filter fun t => t.part = part && t.launch = launch && inGang l g t.cast && !t.shadow).map
      (·.tid)).foldl (fun s tid => endThread s tid true) s) (killGang s part launch g) := by
    unfold killGang
    simp only [hl]
    refine Thins.trans (Thins.with_casts ?_ _) (thins_endHold ..)
    refine Thins.trans (Thins.with_calls ?_ _ _) (thins_updLaunch _ _ _ fun _ => rfl)
    exact ((thins_holdRanges ..).trans (thins_killEngines ..)).trans (thins_freeChanged ..)
  obtain ⟨hthin, hout⟩ := hend
  refine ⟨hthin.trans hrest, fun u hu hsh ⟨hp, hln, hg⟩ => hout u (hrest.threads u hu) ?_⟩
  exact List.mem_map.2 ⟨u, List.mem_filter.2 ⟨hthin.threads u (hrest.threads u hu), by simp [hp, hln, hg, hsh]⟩, rfl⟩

theorem launch?_some {s : State} {p n : Nat} {l : Launch} (h : s.launch? p n = some l) : l.part = p ∧ l.num = n := by
  simpa using List.find?_some h

theorem gangGone_killGang {s : State} {part launch : Nat} {l : Launch} (hl : s.launch? part launch = some l) (g : Nat) :
    GangGone (killGang s part launch g) l g := by
  obtain ⟨rfl, rfl⟩ := launch?_some hl
  exact (killGang_spec hl g).2

/-- A gang that is gone does not come back while no thread comes. -/
theorem GangGone.mono {s t : State} {l : Launch} {g : Nat} (h : GangGone s l g) (ht : Thins s t) : GangGone t l g :=
  fun u hu => h u (ht.threads u hu)

end Sys2Proof.Machine
end

section
/-! PROOF. O41: results, data and acknowledgements reach their threads (R50, R55, R82, R206). -/

namespace Sys2Proof.Machine

open Sys2Proof

/-! ### Delivery into a thread -/

theorem deliver_of_pending {u : Thread} {d : Reg} (x : Word) (h : u.isPending (.v d) = true) :
    u.deliver (.v d, x) = (u.setV d x).unpend (.v d) := by
  simp [Thread.deliver, h]

theorem rdV_deliver {u : Thread} {d : Reg} (x : Word) (h : u.isPending (.v d) = true) (n : Nat) :
    (u.deliver (.v d, x)).rdV n d = x := by
  rw [deliver_of_pending x h]
  exact setV_rdV_same u d x n

theorem isPending_deliver {u : Thread} {d : Reg} (x : Word) (h : u.isPending (.v d) = true) :
    (u.deliver (.v d, x)).isPending (.v d) = false := by
  rw [deliver_of_pending x h]
  simp [Thread.unpend, Thread.isPending, getLsbD_setBit _ _ _ _ d.isLt]

/-- A delivery neither reads nor changes what the thread has observed, nor who it is. -/
theorem deliver_withSeen (u : Thread) (z : List (Nat × Nat)) (w : RegRef × Word) :
    ({ u with seen := z } : Thread).deliver w = { u.deliver w with seen := z } := by
  obtain ⟨r, x⟩ := w
  unfold Thread.deliver
  have hp : ({ u with seen := z } : Thread).isPending r = u.isPending r := by cases r <;> rfl
  simp only [hp]
  split
  · rfl
  · cases r with
    | p n =>
      simp only [Thread.setP]
      split <;> rfl
    | _ => rfl

theorem foldl_deliver_withSeen (u : Thread) (z : List (Nat × Nat)) (ws : List (RegRef × Word)) :
    ws.foldl Thread.deliver { u with seen := z } = { ws.foldl Thread.deliver u with seen := z } := by
  induction ws generalizing u with
  | nil => rfl
  | cons w ws ih => rw [List.foldl_cons, List.foldl_cons, deliver_withSeen, ih]

theorem deliver_seen (u : Thread) (w : RegRef × Word) : (u.deliver w).seen = u.seen := by
  have := congrArg Thread.seen (deliver_withSeen u u.seen w)
  exact this

theorem deliver_who (u : Thread) (w : RegRef × Word) : (u.deliver w).tid = u.tid ∧ (u.deliver w).twin = u.twin := by
  obtain ⟨r, x⟩ := w
  unfold Thread.deliver
  split
  · exact ⟨rfl, rfl⟩
  · cases r with
    | p n =>
      simp only [Thread.setP]
      split <;> exact ⟨rfl, rfl⟩
    | _ => exact ⟨rfl, rfl⟩

theorem foldl_deliver_tid (ws : List (RegRef × Word)) (u : Thread) : (ws.foldl Thread.deliver u).tid = u.tid :=
  List.foldlRecOn (motive := fun w : Thread => w.tid = u.tid) ws _ rfl fun w hw x _ => (deliver_who w x).1.trans hw

theorem foldl_deliver_seen (ws : List (RegRef × Word)) (u : Thread) : (ws.foldl Thread.deliver u).seen = u.seen :=
  List.foldlRecOn (motive := fun w : Thread => w.seen = u.seen) ws _ rfl fun w hw x _ => (deliver_seen w x).trans hw

/-! ### Delivery to a thread and its shadow -/

theorem thread?_tid {s : State} {n : Nat} {u : Thread} (h : s.thread? n = some u) : u.tid = n := by
  simpa using List.find?_some h

/-- What an update of a thread and its shadow makes of a thread. -/
theorem thread?_updBoth {s : State} {tid n : Nat} {u w : Thread} {f : Thread → Thread} (hf : ∀ x, (f x).tid = x.tid)
    (hu : s.thread? tid = some u) (htwin : u.twin ≠ tid) (hw : s.thread? n = some w) :
    (s.updBoth tid f).thread? n = some (if n = tid ∨ (u.twin ≠ 0 ∧ n = u.twin) then f w else w) := by
  unfold State.updBoth
  simp only [hu]
  by_cases h0 : u.twin = 0
  · simp only [h0, if_true, thread?_updThread_any _ _ _ _ hf, hw, Option.map_some]
    simp
  · simp only [h0, if_false, thread?_updThread_any _ _ _ _ hf, hw, Option.map_some]
    by_cases h1 : n = tid
    · simp [h1, Ne.symm htwin]
    · simp [h1, h0]

theorem isSome_thread?_updThread {s : State} {tid n : Nat} {f : Thread → Thread} (hf : ∀ x, (f x).tid = x.tid)
    (h : (s.thread? n).isSome = true) : ((s.updThread tid f).thread? n).isSome = true := by
  rw [thread?_updThread_any _ _ _ _ hf, Option.isSome_map]
  exact h

theorem isSome_thread?_updBoth {s : State} {tid n : Nat} {f : Thread → Thread} (hf : ∀ x, (f x).tid = x.tid)
    (h : (s.thread? n).isSome = true) : ((s.updBoth tid f).thread? n).isSome = true := by
  unfold State.updBoth
  split
  · exact h
  · split
    · exact isSome_thread?_updThread hf h
    · exact isSome_thread?_updThread hf (isSome_thread?_updThread hf h)

theorem isSome_thread?_flushRec {s : State} {tid n : Nat} (h : (s.thread? n).isSome = true) :
    ((flushRec s tid).thread? n).isSome = true := by
  obtain ⟨w, hw⟩ := Option.isSome_iff_exists.1 h
  obtain ⟨w', hw', -⟩ := thread?_flushRec (tid := tid) hw
  rw [hw']
  rfl

/-! ### Frames of the delivery -/

/-- The threads, the homes, the records and what these wait in change. -/
def Delivers (s t : State) : Prop := ∃ th, InPool { s with threads := th } t

namespace Delivers
variable {s t u : State}

theorem refl (s : State) : Delivers s s := ⟨_, .refl s⟩

theorem trans (h : Delivers s t) (h' : Delivers t u) : Delivers s u := by
  obtain ⟨_, _, _, _, _, _, _, _, _, _, _, _, rfl⟩ := h
  obtain ⟨_, _, _, _, _, _, _, _, _, _, _, _, rfl⟩ := h'
  exact ⟨_, _, _, _, _, _, _, _, _, _, _, _, rfl⟩

theorem of_inPool (h : InPool s t) : Delivers s t := ⟨s.threads, h⟩

variable (h : Delivers s t)
include h

theorem accs : t.accs = s.accs := by obtain ⟨_, h⟩ := h; exact h.accs
theorem results : t.results = s.results := by obtain ⟨_, h⟩ := h; exact h.results

end Delivers

theorem delivers_updThread (s : State) (tid : Nat) (f : Thread → Thread) : Delivers s (s.updThread tid f) := ⟨_, .refl _⟩

theorem delivers_updBoth (s : State) (tid : Nat) (f : Thread → Thread) : Delivers s (s.updBoth tid f) := by
  obtain ⟨th, h⟩ := updBoth_eq s tid f
  exact ⟨th, h ▸ .refl _⟩

theorem delivers_flushRec (s : State) (tid : Nat) : Delivers s (flushRec s tid) := by
  obtain ⟨th, h⟩ := flushRec_eq s tid
  exact ⟨th, h.inPool⟩

/-- Reading a record back changes its thread alike in every number. -/
theorem loadRec_spec (s : State) (tid : Nat) : Delivers s (loadRec s tid) ∧
    ∀ n, (s.thread? n).isSome = true → ((loadRec s tid).thread? n).isSome = true := by
  unfold loadRec
  split
  next r t _ _ =>
    have htouch := (atHome_placeTouch s r.part r.ref).inPool
    refine ⟨(Delivers.of_inPool htouch).trans (Delivers.trans ?_ (delivers_updBoth _ _ _)), fun n hn =>
      isSome_thread?_updBoth (by intro; rfl) ?_⟩
    · exact .of_inPool ⟨_, _, _, _, _, _, _, _, _, _, _, rfl⟩
    · rw [← htouch.thread? n] at hn
      exact hn
  · exact ⟨.refl s, fun _ h => h⟩

theorem reloadHeld_spec (s : State) (tid : Nat) : Delivers s (reloadHeld s tid) ∧
    ∀ n, (s.thread? n).isSome = true → ((reloadHeld s tid).thread? n).isSome = true := by
  unfold reloadHeld
  split
  · exact loadRec_spec s tid
  · exact ⟨.refl s, fun _ h => h⟩

theorem deliverRec_spec (s : State) (tid : Nat) (ws : List (RegRef × Word)) : Delivers s (deliverRec s tid ws) ∧
    ∀ n, (s.thread? n).isSome = true → ((deliverRec s tid ws).thread? n).isSome = true := by
  obtain ⟨hd, hn⟩ := reloadHeld_spec s tid
  exact ⟨(hd.trans (delivers_updBoth _ _ _)).trans (delivers_flushRec _ _), fun n h =>
    isSome_thread?_flushRec (isSome_thread?_updBoth (fun x => foldl_deliver_tid ws x) (hn n h))⟩

theorem deliverLane_spec (s : State) (tid own : Nat) (ws : List (RegRef × Word)) : Delivers s (deliverLane s tid own ws) ∧
    ∀ n, (s.thread? n).isSome = true → ((deliverLane s tid own ws).thread? n).isSome = true := by
  obtain ⟨hd, hn⟩ := reloadHeld_spec s own
  exact ⟨(hd.trans (delivers_updThread _ _ _)).trans (delivers_flushRec _ _), fun n h =>
    isSome_thread?_flushRec (isSome_thread?_updThread (fun x => foldl_deliver_tid ws x) (hn n h))⟩

/-! ### What a thread gets -/

/-- Thread `n` of `s` has taken the writes `ws`; what it has observed aside, and poison of its record's words. -/
def Gets (s t : State) (n : Nat) (ws : List (RegRef × Word)) : Prop :=
  ∀ w, s.thread? n = some w → ∃ w', t.thread? n = some w' ∧ let x := ws.foldl Thread.deliver w
    { w' with seen := w.seen, poison := x.poison } = x ∧ (s.poisoned = [] → w'.poison = x.poison) ∧
      ∀ j, x.poison.getLsbD j = true → w'.poison.getLsbD j = true

theorem Marked.gets {clean : Prop} {w x w' : Thread} (h : Marked clean x w') (hs : x.seen = w.seen) :
    { w' with seen := w.seen, poison := x.poison } = x ∧ (clean → w'.poison = x.poison) ∧
      ∀ j, x.poison.getLsbD j = true → w'.poison.getLsbD j = true := by
  obtain ⟨m, rfl, hclean, hmore⟩ := h
  exact ⟨by rw [← hs], hclean, hmore⟩

theorem Gets.congr {s t t' : State} {n : Nat} {ws : List (RegRef × Word)} (h : Gets s t n ws) (ht : t'.thread? n = t.thread? n) :
    Gets s t' n ws := fun w hw => ht ▸ h w hw

/-- A thread and its shadow take a late result. -/
theorem gets_deliverRec {s : State} {tid : Nat} {u : Thread} (ws : List (RegRef × Word)) (hu : s.thread? tid = some u)
    (htwin : u.twin ≠ tid) (hfree : ∀ r, s.rec? tid = some r → r.held = false) :
    Gets s (deliverRec s tid ws) tid ws ∧ (u.twin ≠ 0 → Gets s (deliverRec s tid ws) u.twin ws) := by
  have key (n : Nat) (hn : n = tid ∨ (u.twin ≠ 0 ∧ n = u.twin)) : Gets s (deliverRec s tid ws) n ws := by
    intro w hw
    have hboth := thread?_updBoth (f := fun t => ws.foldl Thread.deliver t) (fun x => foldl_deliver_tid ws x) hu htwin hw
    rw [if_pos hn] at hboth
    obtain ⟨w', hw', hm⟩ := thread?_flushRec (tid := tid) hboth
    refine ⟨w', by rw [deliverRec, reloadHeld_of_free hfree]; exact hw', ?_⟩
    have hclean : (s.updBoth tid fun t => ws.foldl Thread.deliver t).poisoned = s.poisoned := by
      obtain ⟨_, h⟩ := updBoth_eq s tid fun t => ws.foldl Thread.deliver t
      rw [h]
    rw [hclean] at hm
    exact hm.gets (foldl_deliver_seen ws w)
  exact ⟨key tid (.inl rfl), fun h => key u.twin (.inr ⟨h, rfl⟩)⟩

/-- One physical lane takes a result. -/
theorem gets_deliverLane {s : State} {tid own : Nat} (ws : List (RegRef × Word))
    (hfree : ∀ r, s.rec? own = some r → r.held = false) : Gets s (deliverLane s tid own ws) tid ws := by
  intro w hw
  have hupd : (s.updThread tid fun t => ws.foldl Thread.deliver t).thread? tid = some (ws.foldl Thread.deliver w) := by
    rw [State.thread?_updThread s tid _ (fun x => foldl_deliver_tid ws x), hw]
    rfl
  obtain ⟨w', hw', hm⟩ := thread?_flushRec (tid := own) hupd
  exact ⟨w', by rw [deliverLane, reloadHeld_of_free hfree]; exact hw', hm.gets (foldl_deliver_seen ws w)⟩

end Sys2Proof.Machine
end

section
/-! PROOF. O41: the events of results, data, acknowledgements and wakes (R50, R55, R82, R206). -/

namespace Sys2Proof.Machine

open Sys2Proof

/-! ### Poison and traps that come with a result (R241, R260, R354) -/

/-- What comes with result `r` stays with the register of one of its writes. -/
def markReg (r : PendRes) (t : Thread) (w : RegRef × Word) : Thread :=
  match w.1 with
  | .v n =>
    let t := if r.bad then { t with poison := setBit t.poison n.toNat true } else t
    match r.trap with
    | some (c, h) => { t with trapTok := (n.toNat, c, h) :: t.trapTok }
    | none => t
  | _ => t

theorem markResult_eq (s : State) (r : PendRes) (due : List (RegRef × Word)) (own : Nat) : markResult s r due own =
    if !r.bad && r.trap.isNone then s else flushRec (s.updThread r.tid fun t => due.foldl (markReg r) t) own := rfl

theorem markReg_tid (r : PendRes) (t : Thread) (w : RegRef × Word) : (markReg r t w).tid = t.tid := by
  unfold markReg
  split
  · dsimp only
    split <;> split <;> rfl
  · rfl

theorem foldl_markReg_tid (r : PendRes) (due : List (RegRef × Word)) (t : Thread) : (due.foldl (markReg r) t).tid = t.tid :=
  List.foldlRecOn (motive := fun u : Thread => u.tid = t.tid) due _ rfl fun u hu w _ => (markReg_tid r u w).trans hu

/-- Register `d` has what came with the result. -/
def HasMark (r : PendRes) (d : Reg) (t : Thread) : Prop :=
  (r.bad = true → t.poison.getLsbD d.toNat = true) ∧ ∀ c h, r.trap = some (c, h) → (d.toNat, c, h) ∈ t.trapTok

theorem hasMark_markReg (r : PendRes) (d : Reg) (t : Thread) (x : Word) : HasMark r d (markReg r t (.v d, x)) := by
  have hbit : (setBit t.poison d.toNat true).getLsbD d.toNat = true := by simp [getLsbD_setBit _ _ _ _ d.isLt]
  unfold HasMark markReg
  cases hb : r.bad <;> cases ht : r.trap <;> simp [hbit] <;> exact fun _ _ h => .inl h.symm

theorem HasMark.markReg {r : PendRes} {d : Reg} {t : Thread} (h : HasMark r d t) (w : RegRef × Word) :
    HasMark r d (markReg r t w) := by
  obtain ⟨hbad, htrap⟩ := h
  have hset (n : Reg) (hb : t.poison.getLsbD d.toNat = true) : (setBit t.poison n.toNat true).getLsbD d.toNat = true := by
    simp [setBit, hb]
  unfold HasMark Machine.markReg
  split
  next n _ =>
    cases hb : r.bad <;> cases ht : r.trap <;> simp_all
  · exact ⟨hbad, htrap⟩

theorem hasMark_foldl {r : PendRes} {d : Reg} {x : Word} {due : List (RegRef × Word)} (h : (.v d, x) ∈ due) (t : Thread) :
    HasMark r d (due.foldl (markReg r) t) := by
  induction due generalizing t with
  | nil => simp at h
  | cons w due ih =>
    rw [List.foldl_cons]
    obtain h | h := List.mem_cons.1 h
    · subst h
      exact List.foldlRecOn (motive := HasMark r d) due _ (hasMark_markReg r d t x) fun u hu w _ => hu.markReg w
    · exact ih h _

theorem Marked.hasMark {r : PendRes} {d : Reg} {clean : Prop} {t t' : Thread} (h : Marked clean t t') (hm : HasMark r d t) :
    HasMark r d t' := by
  obtain ⟨m, rfl, -, hmore⟩ := h
  exact ⟨fun hb => hmore _ (hm.1 hb), hm.2⟩

theorem delivers_markResult (s : State) (r : PendRes) (due : List (RegRef × Word)) (own : Nat) :
    Delivers s (markResult s r due own) := by
  rw [markResult_eq]
  split
  · exact .refl s
  · exact (delivers_updThread ..).trans (delivers_flushRec ..)

/-- Every register due has its mark, where the thread is there. -/
theorem thread?_markResult {s : State} {r : PendRes} {due : List (RegRef × Word)} (own : Nat)
    (h : (s.thread? r.tid).isSome = true) : ∃ u, (markResult s r due own).thread? r.tid = some u ∧
      ∀ w ∈ due, ∀ d, w.1 = .v d → HasMark r d u := by
  obtain ⟨v, hv⟩ := Option.isSome_iff_exists.1 h
  rw [markResult_eq]
  split
  next hno =>
    simp only [Bool.and_eq_true, Bool.not_eq_true', Option.isNone_iff_eq_none] at hno
    refine ⟨v, hv, fun w _ d _ => ?_⟩
    simp [HasMark, hno.1, hno.2]
  · have hupd : (s.updThread r.tid fun t => due.foldl (markReg r) t).thread? r.tid = some (due.foldl (markReg r) v) := by
      rw [State.thread?_updThread s r.tid _ (fun x => foldl_markReg_tid r due x), hv]
      rfl
    obtain ⟨u, hu, hm⟩ := thread?_flushRec (tid := own) hupd
    exact ⟨u, hu, fun w hw d hd => hm.hasMark (hasMark_foldl (x := w.2) (by rw [← hd]; exact hw) v)⟩

/-! ### `RESULT_WRITEBACK` (R82) -/

theorem onlyWakes_checkWake (s : State) (tid : Nat) : OnlyWakes s (checkWake s tid) := checkWake_eq s tid

theorem checkWake_of_none {s : State} {tid : Nat} (h : s.rec? tid = none) : checkWake s tid = s := by
  simp [checkWake, h]

theorem reloadHeld_of_none {s : State} {tid : Nat} (h : s.rec? tid = none) : reloadHeld s tid = s :=
  reloadHeld_of_free fun r hr => by simp [h] at hr

/-- Result `r` is no longer on its way. -/
def State.took (s : State) (r : PendRes) : State := { s with results := s.results.filter fun x => x.id ≠ r.id }

/-- The writes of a result whose registers await them. -/
def State.due (s : State) (r : PendRes) : List (RegRef × Word) :=
  r.writes.filter fun w => (s.thread? r.tid).any fun t => t.isPending w.1

/-- The thread whose record the result goes to. -/
def State.ownerOf (s : State) (tid : Nat) : Nat := ((s.thread? tid).map Thread.owner).getD tid

/-- The state once the writes of a result have been made. -/
def State.wrote (s : State) (r : PendRes) : State :=
  if r.both then deliverRec (s.took r) r.tid r.writes else deliverLane (s.took r) r.tid (s.ownerOf r.tid) r.writes

theorem exec_resultWriteback {s : State} {id : Nat} {r : PendRes} (h : s.results.find? (fun x => x.id = id) = some r) :
    exec (.resultWriteback id) s =
      .next (checkWake (markResult (s.wrote r) r (s.due r) (s.ownerOf r.tid)) (s.ownerOf r.tid)) := by
  have hid : r.id = id := by simpa using List.find?_some h
  subst hid
  change execResultWriteback r.id s = _
  simp only [execResultWriteback, h]
  rfl

section
variable (s : State) (r : PendRes)

theorem wrote_spec : Delivers (s.took r) (s.wrote r) ∧
    ∀ n, (s.thread? n).isSome = true → ((s.wrote r).thread? n).isSome = true := by
  unfold State.wrote
  split
  · exact deliverRec_spec (s.took r) _ _
  · exact deliverLane_spec (s.took r) _ _ _

theorem markResult_plain (hbad : r.bad = false) (htrap : r.trap = none) (v : State) (due : List (RegRef × Word)) (own : Nat) :
    markResult v r due own = v := by simp [markResult_eq, hbad, htrap]

/-- Where neither the thread nor its owner is a record, a result changes threads alone. -/
theorem resultWriteback_frame (hr : s.rec? r.tid = none) (hown : s.rec? (s.ownerOf r.tid) = none) :
    let t := checkWake (markResult (s.wrote r) r (s.due r) (s.ownerOf r.tid)) (s.ownerOf r.tid)
    t = { s with results := t.results, threads := t.threads } := by
  have hwrote : ∃ th, s.wrote r = { s.took r with threads := th } := by
    unfold State.wrote
    split
    · unfold deliverRec
      rw [reloadHeld_of_none (s := s.took r) hr]
      obtain ⟨th, h⟩ := updBoth_eq (s.took r) r.tid fun t => r.writes.foldl Thread.deliver t
      exact ⟨th, by rw [State.deliverTo, h, flushRec_of_none (s := { s.took r with threads := th }) hr]⟩
    · unfold deliverLane
      rw [reloadHeld_of_none (s := s.took r) hown]
      exact ⟨_, flushRec_of_none (s := { s.took r with threads := _ }) hown⟩
  obtain ⟨th, hw⟩ := hwrote
  have hmark : ∃ th, markResult (s.wrote r) r (s.due r) (s.ownerOf r.tid) = { s.took r with threads := th } := by
    rw [markResult_eq, hw]
    split
    · exact ⟨th, rfl⟩
    · exact ⟨_, flushRec_of_none (s := { s.took r with threads := _ }) hown⟩
  obtain ⟨th', hm⟩ := hmark
  simp only [hm, checkWake_of_none (s := { s.took r with threads := th' }) hown]
  rfl

end

theorem ownerOf_of_thread {s : State} {tid : Nat} {u : Thread} (h : s.thread? tid = some u) : s.ownerOf tid = u.owner := by
  simp [State.ownerOf, h]

theorem ownerOf_of_none {s : State} {tid : Nat} (h : s.thread? tid = none) : s.ownerOf tid = tid := by
  simp [State.ownerOf, h]

theorem happens_resultWriteback {s : State} {id : Nat} {r : PendRes} (h : s.results.find? (fun x => x.id = id) = some r) :
    Happens (.resultWriteback id) s fun t =>
      t.results = s.results.filter (fun x => x.id ≠ id) ∧
      (r.bad = false → r.trap = none → r.both = true → ∀ u, s.thread? r.tid = some u → u.twin ≠ u.tid →
        (∀ x, s.rec? r.tid = some x → x.held = false) →
          Gets s t r.tid r.writes ∧ (u.twin ≠ 0 → Gets s t u.twin r.writes)) ∧
      (r.bad = false → r.trap = none → r.both = false → ∀ u, s.thread? r.tid = some u →
        (∀ x, s.rec? u.owner = some x → x.held = false) → Gets s t r.tid r.writes) ∧
      (∀ u, s.thread? r.tid = some u → ∃ u', t.thread? r.tid = some u' ∧
        ∀ w ∈ r.writes, ∀ d : Reg, w.1 = .v d → u.isPending (.v d) = true → HasMark r d u') ∧
      (s.rec? r.tid = none → (∀ u, s.thread? r.tid = some u → s.rec? u.owner = none) →
        t = { s with results := t.results, threads := t.threads }) := by
  have hid : r.id = id := by simpa using List.find?_some h
  refine ⟨_, exec_resultWriteback h, ?_, ?_, ?_, ?_, ?_⟩
  · have hall := ((wrote_spec s r).1.trans (delivers_markResult _ r (s.due r) (s.ownerOf r.tid))).trans
      (.of_inPool (onlyWakes_checkWake _ (s.ownerOf r.tid)).inPool)
    rw [hall.results, State.took, hid]
  · intro hbad htrap hboth u hu htwin hfree
    rw [markResult_plain r hbad htrap]
    have hw : s.wrote r = deliverRec (s.took r) r.tid r.writes := if_pos hboth
    have hne : u.twin ≠ r.tid := thread?_tid hu ▸ htwin
    obtain ⟨h1, h2⟩ := gets_deliverRec (s := s.took r) r.writes hu hne hfree
    have hk (n : Nat) := (onlyWakes_checkWake (deliverRec (s.took r) r.tid r.writes) (s.ownerOf r.tid)).inPool.thread? n
    rw [hw]
    exact ⟨Gets.congr h1 (hk _), fun h0 => Gets.congr (h2 h0) (hk _)⟩
  · intro hbad htrap hboth u hu hfree
    rw [markResult_plain r hbad htrap]
    have hw : s.wrote r = deliverLane (s.took r) r.tid (s.ownerOf r.tid) r.writes := if_neg (by simp [hboth])
    rw [← ownerOf_of_thread hu] at hfree
    rw [hw]
    exact Gets.congr (gets_deliverLane (s := s.took r) (own := s.ownerOf r.tid) r.writes hfree)
      ((onlyWakes_checkWake _ _).inPool.thread? _)
  · intro u hu
    obtain ⟨u', hu', hmark⟩ := thread?_markResult (due := s.due r) (s.ownerOf r.tid) ((wrote_spec s r).2 r.tid (by rw [hu]; rfl))
    refine ⟨u', ((onlyWakes_checkWake _ _).inPool.thread? _).trans hu', fun w hw d hd hpend => hmark w ?_ d hd⟩
    exact List.mem_filter.2 ⟨hw, by simp [hu, hd, hpend]⟩
  · intro hr hown
    refine resultWriteback_frame s r hr ?_
    cases hu : s.thread? r.tid with
    | none => rw [ownerOf_of_none hu, hr]
    | some u => rw [ownerOf_of_thread hu, hown u hu]

/-! ### `LOAD_RESPONSE` (R50, R206, R357) -/

/-- Two states differ in what threads have observed alone. -/
def OnlySeen (s t : State) : Prop :=
  (∃ th, t = { s with threads := th }) ∧
  ∀ n, (t.thread? n).map (fun w => { w with seen := [] }) = (s.thread? n).map fun w => { w with seen := [] }

theorem OnlySeen.refl (s : State) : OnlySeen s s := ⟨⟨_, rfl⟩, fun _ => rfl⟩

theorem OnlySeen.trans {s t u : State} (h : OnlySeen s t) (h' : OnlySeen t u) : OnlySeen s u := by
  obtain ⟨⟨_, rfl⟩, hs⟩ := h
  obtain ⟨⟨_, rfl⟩, hs'⟩ := h'
  exact ⟨⟨_, rfl⟩, fun n => (hs' n).trans (hs n)⟩

theorem onlySeen_noteSeenAt (s : State) (tid : Option Nat) (k size n : Nat) : OnlySeen s (noteSeenAt s tid k size n) := by
  unfold noteSeenAt
  split
  · exact .refl s
  next t =>
    refine ⟨⟨_, rfl⟩, fun m => ?_⟩
    rw [thread?_updThread_any _ _ _ _ (by intro; rfl), Option.map_map]
    congr 1
    funext w
    simp only [Function.comp]
    split <;> rfl

theorem onlySeen_noteCopy (s : State) (tid : Option Nat) (c : L1Copy) (k size : Nat) : OnlySeen s (noteCopy s tid c k size) :=
  List.foldlRecOn (motive := OnlySeen s) _ _ (.refl s) fun _ h _ _ => h.trans (onlySeen_noteSeenAt ..)

/-- What a thread and its shadow get, from a state that differs in what they have observed. -/
theorem OnlySeen.gets {s v t : State} {n : Nat} {ws : List (RegRef × Word)} (h : OnlySeen s v) (hg : Gets v t n ws) :
    Gets s t n ws := by
  intro w hw
  have hn := h.2 n
  rw [hw, Option.map_some, Option.map_eq_some_iff] at hn
  obtain ⟨y, hy, hyw⟩ := hn
  have hyw' : y = { w with seen := y.seen } := by
    obtain ⟨_, _⟩ := y
    simp only [Thread.mk.injEq] at hyw ⊢
    simp [hyw]
  obtain ⟨w', hw', hval, hclean, hmore⟩ := hg y hy
  have hfold : ws.foldl Thread.deliver y = { ws.foldl Thread.deliver w with seen := y.seen } := by
    conv_lhs => rw [hyw']
    exact foldl_deliver_withSeen w y.seen ws
  have hpois : v.poisoned = s.poisoned := by
    obtain ⟨⟨_, rfl⟩, -⟩ := h
    rfl
  rw [hfold] at hval hclean hmore
  refine ⟨w', hw', ?_, fun hs => hclean (hpois.trans hs), hmore⟩
  have := congrArg (fun x : Thread => { x with seen := w.seen }) hval
  refine this.trans ?_
  rw [← foldl_deliver_seen ws w]

/-- What a response brings has been noted, and the access is answered. -/
def State.responded (s : State) (a : Acc) : State :=
  answered (match l1Hit s a with
    | some c => if a.stage = .sent then noteCopy s a.tid c a.addr a.size else s
    | none => s) a

theorem loadResponse_good {s : State} {a : Acc} {x tid : Nat} {d : Reg} (ht : a.tid = some tid) (hd : a.dst = some d) :
    loadResponse s a (x, false) = checkWake (deliverRec (s.responded a) tid (loadWrites a.ty d x)) tid := by
  simp only [loadResponse, State.responded, ht, hd, Bool.false_eq_true, if_false] <;> rfl

theorem loadResponse_bad {s : State} {a : Acc} {x tid : Nat} {d : Reg} (ht : a.tid = some tid) (hd : a.dst = some d)
    (hc : isCtlCore a.core = false) : loadResponse s a (x, true) = killThreadGang (s.responded a) tid := by
  simp only [loadResponse, State.responded, ht, hd, hc, if_true, Bool.false_eq_true, if_false] <;> rfl

theorem exec_loadResponse {s : State} {a : Acc} {x : Nat × Bool} (ha : s.acc? a.id = some a) (hx : responseOf s a = some x) :
    exec (.loadResponse a.id) s = .next (loadResponse s a x) := by
  change execLoadResponse a.id s = _
  simp only [execLoadResponse, ha, hx]

/-- The answer of an access: a read is gone, another is complete. -/
def answerOf (now : Nat) (a : Acc) : Acc := { a with stage := .done, gwct := if a.bkind = 8 then now else a.gwct }

theorem answered_eq (s : State) (a : Acc) : ∃ ac, answered s a = { s with accs := ac } := by
  unfold answered
  split <;> exact ⟨_, rfl⟩

/-- The response changes the accesses and what threads have observed. -/
theorem responded_spec {s : State} (a : Acc) : ∃ v, OnlySeen s v ∧ s.responded a = answered v a := by
  unfold State.responded
  split
  · split
    · exact ⟨_, onlySeen_noteCopy .., rfl⟩
    · exact ⟨s, .refl s, rfl⟩
  · exact ⟨s, .refl s, rfl⟩

theorem responded_eq (s : State) (a : Acc) : ∃ th ac, s.responded a = { s with threads := th, accs := ac } := by
  obtain ⟨v, ⟨⟨th, rfl⟩, -⟩, hv⟩ := responded_spec (s := s) a
  obtain ⟨ac, hac⟩ := answered_eq { s with threads := th } a
  exact ⟨th, ac, hv.trans hac⟩

theorem responded_rec? (s : State) (a : Acc) (n : Nat) : (s.responded a).rec? n = s.rec? n := by
  obtain ⟨_, _, h⟩ := responded_eq s a
  rw [h]
  rfl

theorem responded_accs_read {s : State} {a : Acc} (hr : a.reads = true) :
    (s.responded a).accs = s.accs.filter fun b => b.id ≠ a.id := by
  obtain ⟨v, ⟨⟨th, rfl⟩, -⟩, hv⟩ := responded_spec (s := s) a
  rw [hv, answered, if_pos hr]

theorem responded_acc? {s : State} {a : Acc} (ha : s.acc? a.id = some a) (hr : a.reads = false) :
    (s.responded a).acc? a.id = some (answerOf s.time a) := by
  obtain ⟨v, ⟨⟨th, rfl⟩, -⟩, hv⟩ := responded_spec (s := s) a
  rw [hv, answered, if_neg (by simp [hr])]
  exact (State.acc?_updAcc _ a.id _ (by intro; rfl)).trans (congrArg (Option.map _) ha)

/-- The threads of the answered state, but for what they have observed. -/
theorem responded_onlySeen (s : State) (a : Acc) : ∃ v, OnlySeen s v ∧ (s.responded a).threads = v.threads ∧
    (s.responded a).poisoned = v.poisoned ∧ (s.responded a).launches = v.launches := by
  obtain ⟨v, hv, h⟩ := responded_spec (s := s) a
  obtain ⟨ac, hac⟩ := answered_eq v a
  exact ⟨v, hv, by rw [h, hac], by rw [h, hac], by rw [h, hac]⟩

/-- Threads of a state that differs in what they have observed. -/
theorem OnlySeen.thread? {s v : State} (h : OnlySeen s v) {n : Nat} {w : Thread} (hw : s.thread? n = some w) :
    ∃ z, v.thread? n = some { w with seen := z } := by
  have hn := h.2 n
  rw [hw, Option.map_some, Option.map_eq_some_iff] at hn
  obtain ⟨y, hy, hyw⟩ := hn
  refine ⟨y.seen, hy.trans ?_⟩
  obtain ⟨_, _⟩ := y
  simp only [Thread.mk.injEq] at hyw
  simp [hyw]

theorem gets_responded {s t : State} {a : Acc} {n : Nat} {ws : List (RegRef × Word)} (h : Gets (s.responded a) t n ws) :
    Gets s t n ws := by
  obtain ⟨v, hv, hth, hp, -⟩ := responded_onlySeen s a
  refine hv.gets fun w hw => ?_
  rw [← hp]
  exact h w (by rw [State.thread?, hth]; exact hw)

theorem happens_loadResponse {s : State} {a : Acc} {x tid : Nat} {d : Reg} (ha : s.acc? a.id = some a)
    (hx : responseOf s a = some (x, false)) (ht : a.tid = some tid) (hd : a.dst = some d) :
    Happens (.loadResponse a.id) s fun t =>
      (∀ u, s.thread? tid = some u → u.twin ≠ u.tid → (∀ r, s.rec? tid = some r → r.held = false) →
        Gets s t tid (loadWrites a.ty d x) ∧ (u.twin ≠ 0 → Gets s t u.twin (loadWrites a.ty d x))) ∧
      (a.reads = true → t.accs = s.accs.filter fun b => b.id ≠ a.id) ∧
      (a.reads = false → t.acc? a.id = some (answerOf s.time a)) ∧ (s.rec? tid = none → t.mem = s.mem) := by
  have hall : Delivers (s.responded a) (checkWake (deliverRec (s.responded a) tid (loadWrites a.ty d x)) tid) :=
    (deliverRec_spec ..).1.trans (.of_inPool (onlyWakes_checkWake ..).inPool)
  refine ⟨_, (exec_loadResponse ha hx).trans (by rw [loadResponse_good ht hd]), ?_, ?_, ?_, ?_⟩
  · intro u hu htwin hfree
    obtain ⟨v, hv, hth, -, -⟩ := responded_onlySeen s a
    obtain ⟨z, hz⟩ := hv.thread? hu
    have hu' : (s.responded a).thread? tid = some { u with seen := z } := by
      rw [State.thread?, hth]
      exact hz
    have hne : ({ u with seen := z } : Thread).twin ≠ tid := thread?_tid hu ▸ htwin
    obtain ⟨h1, h2⟩ := gets_deliverRec (loadWrites a.ty d x) hu' hne (by rw [responded_rec?]; exact hfree)
    have hk (n : Nat) := (onlyWakes_checkWake (deliverRec (s.responded a) tid (loadWrites a.ty d x)) tid).inPool.thread? n
    exact ⟨gets_responded (Gets.congr h1 (hk _)), fun h0 => gets_responded (Gets.congr (h2 h0) (hk _))⟩
  · intro hr
    rw [hall.accs, responded_accs_read hr]
  · intro hr
    rw [State.acc?, hall.accs]
    exact responded_acc? ha hr
  · intro hr
    have hnone : (s.responded a).rec? tid = none := (responded_rec? s a tid).trans hr
    rw [(onlyWakes_checkWake ..).mem, deliverRec, reloadHeld_of_none hnone, State.deliverTo]
    obtain ⟨th, h⟩ := updBoth_eq (s.responded a) tid fun t => (loadWrites a.ty d x).foldl Thread.deliver t
    obtain ⟨_, _, hr'⟩ := responded_eq s a
    rw [h, flushRec_of_none (s := { s.responded a with threads := th }) hnone, hr']

theorem happens_loadResponse_poisoned {s : State} {a : Acc} {x tid : Nat} {d : Reg} {u : Thread} {l : Launch}
    (ha : s.acc? a.id = some a) (hx : responseOf s a = some (x, true)) (ht : a.tid = some tid) (hd : a.dst = some d)
    (hc : isCtlCore a.core = false) (hu : s.thread? tid = some u) (hl : s.launch? u.part u.launch = some l) :
    Happens (.loadResponse a.id) s fun t => GangGone t l (l.gangOf u.cast) := by
  refine ⟨_, (exec_loadResponse ha hx).trans (by rw [loadResponse_bad ht hd hc]), ?_⟩
  obtain ⟨v, hv, hth, -, -⟩ := responded_onlySeen s a
  obtain ⟨z, hz⟩ := hv.thread? hu
  obtain ⟨_, _, hr⟩ := responded_eq s a
  have hu' : (s.responded a).thread? tid = some { u with seen := z } := by
    rw [State.thread?, hth]
    exact hz
  have hl' : (s.responded a).launch? u.part u.launch = some l := by
    rw [hr]
    exact hl
  simp only [killThreadGang, hu', hl']
  exact gangGone_killGang hl' _

/-! ### `STORE_ACK` and the wakes of records (R50, R55, R175) -/

theorem happens_storeAck {s : State} {a : Acc} (ha : s.acc? a.id = some a) (hr : ackReady a = true) {tid : Nat}
    (ht : a.tid = some tid) : Happens (.storeAck a.id) s fun t =>
      t.mem = s.mem ∧ t.threads = s.threads ∧ t.acc? a.id = some (answerOf s.time a) := by
  have hexec : exec (.storeAck a.id) s = .next (if ((s.updAcc a.id (answerOf s.time)).thread? tid).isSome
      then checkWake (s.updAcc a.id (answerOf s.time)) tid else s.updAcc a.id (answerOf s.time)) := by
    change execStoreAck a.id s = _
    simp only [execStoreAck, ha, hr, ht]
    rfl
  refine ⟨_, hexec, ?_⟩
  have hwake : OnlyWakes (s.updAcc a.id (answerOf s.time)) (if ((s.updAcc a.id (answerOf s.time)).thread? tid).isSome
      then checkWake (s.updAcc a.id (answerOf s.time)) tid else s.updAcc a.id (answerOf s.time)) := by
    split
    · exact onlyWakes_checkWake ..
    · exact .refl _
  refine ⟨hwake.mem, hwake.threads, ?_⟩
  rw [State.acc?, hwake.inPool.accs]
  exact (State.acc?_updAcc s a.id _ (by intro; rfl)).trans (congrArg (Option.map _) ha)

theorem mem_insertMember (s : State) (x : Nat × Nat) (l : List (Nat × Nat)) : x ∈ insertMember s x l := by
  induction l with
  | nil => simp [insertMember]
  | cons y ys ih =>
    unfold insertMember
    dsimp only
    split
    · exact List.mem_cons_self ..
    · exact List.mem_cons_of_mem _ ih

theorem mem_of_minBy {α : Type} {f : α → Nat} {l : List α} {x : α} (h : minBy f l = some x) : x ∈ l := by
  induction l generalizing x with
  | nil => simp [minBy] at h
  | cons y ys ih =>
    unfold minBy at h
    split at h
    · cases h
      exact List.mem_cons_self ..
    next z hz =>
      split at h
      · cases h
        exact List.mem_cons_self ..
      · cases h
        exact List.mem_cons_of_mem _ (ih hz)

/-- A record that is neither held nor on its way is queued once it enters a ladle. -/
theorem queued_enterLadle {s : State} {tid : Nat} {r : Rec} (hr : s.rec? tid = some r) (ht : (s.thread? tid).isSome = true)
    (hheld : r.held = false) (htransit : r.transit = none) : Queued (enterLadle s tid) tid := by
  obtain ⟨u, hu⟩ := Option.isSome_iff_exists.1 ht
  simp only [enterLadle, hr, hu, hheld, htransit, Option.isSome_none, Bool.or_self, Bool.false_eq_true, if_false]
  split
  next l hl =>
    have hmem := List.mem_of_mem_filter (mem_of_minBy hl)
    refine .inl ⟨{ l with members := insertMember s (tid, s.time) l.members }, ?_, s.time, mem_insertMember ..⟩
    exact mem_updL.2 ⟨l, hmem, by simp⟩
  · split
    · exact .inl ⟨_, List.mem_append_right _ (List.mem_singleton.2 rfl), s.time, List.mem_singleton.2 rfl⟩
    · exact .inr ⟨_, List.mem_append_right _ (List.mem_singleton.2 rfl)⟩

theorem rec?_tid {s : State} {n : Nat} {r : Rec} (h : s.rec? n = some r) : r.tid = n := by
  simpa using List.find?_some h

theorem rec?_updRec (s : State) (tid : Nat) {f : Rec → Rec} (hf : ∀ r, (f r).tid = r.tid) :
    (s.updRec tid f).rec? tid = (s.rec? tid).map f := State.find?_updL (fun r => by simp [hf]) _

theorem enterLadle_rec? (s : State) (tid n : Nat) : (enterLadle s tid).rec? n = s.rec? n := by
  obtain ⟨_, _, _, h⟩ := enterLadle_eq s tid
  rw [h]
  rfl

theorem onlyWakes_fireWake (s : State) (tid status : Nat) : OnlyWakes s (fireWake s tid status) := by
  unfold fireWake
  split
  · exact .refl s
  · split
    · exact .refl s
    · exact OnlyWakes.trans ⟨_, _, _, _, rfl⟩ (onlyWakes_enterLadle _ tid)

/-- A wake that has not fired fires (R50, R55). -/
theorem wakes_fireWake {s : State} {tid status : Nat} (h : ∀ r, s.rec? tid = some r → r.fired = none) :
    Wakes s (fireWake s tid status) tid status := by
  intro r hr
  have hfired := h r hr
  simp only [fireWake, hr, hfired, Option.isSome_none, Bool.false_eq_true, if_false]
  have hrec : (s.updRec tid fun r => { r with fired := some s.time, status }).rec? tid =
      some { r with fired := some s.time, status } := by
    rw [rec?_updRec _ _ (by intro; rfl), hr]
    rfl
  exact ⟨(enterLadle_rec? ..).trans hrec, fun hheld htransit ht => queued_enterLadle hrec ht hheld htransit⟩

theorem happens_storeHorizonReached {s : State} {tid : Nat} (h : horizonReached s tid = true) :
    Happens (.storeHorizonReached tid) s fun t => t.mem = s.mem ∧ Wakes s t tid 0 := by
  refine ⟨fireWake s tid 0, ?_, (onlyWakes_fireWake ..).mem, wakes_fireWake fun r hr => ?_⟩
  · change execStoreHorizonReached tid s = _
    rw [execStoreHorizonReached, if_pos h]
  · simp only [horizonReached, hr, Option.any_some, Bool.and_eq_true, Option.isNone_iff_eq_none] at h
    exact h.1.2

theorem happens_deviceTimeWake {s : State} {tid : Nat} (h : sleepOver s tid = true) :
    Happens (.deviceTimeWake tid) s fun t => t.mem = s.mem ∧ Wakes s t tid 0 := by
  refine ⟨fireWake s tid 0, ?_, (onlyWakes_fireWake ..).mem, wakes_fireWake fun r hr => ?_⟩
  · change execDeviceTimeWake tid s = _
    rw [execDeviceTimeWake, if_pos h]
  · simp only [sleepOver, hr, Option.any_some, Bool.and_eq_true, Option.isNone_iff_eq_none] at h
    exact h.1.2

end Sys2Proof.Machine

namespace Sys2Proof
open Machine

/-- Settles O41: one lemma for each event, `happens_resultWriteback` to `happens_deviceTimeWake`. A late result reaches its
thread and the shadow through `gets_deliverRec`, one physical lane through `gets_deliverLane`. -/
theorem responses : Obligations.Responses := by
  unfold Obligations.Responses
  intro s _
  refine ⟨fun u d x h => ⟨rdV_deliver x h, isPending_deliver x h⟩, fun id r h => ?_,
    fun a x tid d ha hx ht hd => happens_loadResponse ha hx ht hd,
    fun a x tid d u l ha hx ht hd hc hu _ hl => happens_loadResponse_poisoned ha hx ht hd hc hu hl,
    fun a tid ha hr ht => happens_storeAck ha hr ht, fun tid h => happens_storeHorizonReached h,
    fun tid h => happens_deviceTimeWake h⟩
  obtain ⟨t, ht, hresults, hboth, hlane, hmark, hframe⟩ := happens_resultWriteback h
  exact ⟨t, ht, hresults, hboth, hlane, hmark, hframe⟩

end Sys2Proof
end

section
/-! PROOF. Threads become records (R51, R56, R57): what the making of records leaves of the records that are there. -/

namespace Sys2Proof.Machine

open Sys2Proof

/-! ### Records of one thread while others change -/

/-- Every record of thread `n` is of kind `k` and waits on `w`, or has met a store fault since (R217); none is held. -/
def Fine (n k w : Nat) (s : State) : Prop := ∀ r ∈ s.recs, r.tid = n →
  r.held = false ∧ (r.kind = k ∧ r.wtype = w ∨ k = 0 ∧ w = 1 ∧ r.kind = 2 ∧ r.wtype = 5)

/-- Two records agree in what no wake changes. -/
structure SamePlace (r r' : Rec) : Prop where
  tid : r'.tid = r.tid
  resume : r'.resume = r.resume
  prio : r'.prio = r.prio
  buf : r'.buf = r.buf
  cluster : r'.cluster = r.cluster
  ps : r'.ps = r.ps

theorem SamePlace.refl (r : Rec) : SamePlace r r := ⟨rfl, rfl, rfl, rfl, rfl, rfl⟩

theorem SamePlace.trans {r r' r'' : Rec} (h : SamePlace r r') (h' : SamePlace r' r'') : SamePlace r r'' :=
  ⟨h'.tid.trans h.tid, h'.resume.trans h.resume, h'.prio.trans h.prio, h'.buf.trans h.buf, h'.cluster.trans h.cluster,
    h'.ps.trans h.ps⟩

/-- The records of thread `n` stay as `Fine` says, each in its place. -/
def RecsStay (n k w : Nat) (s t : State) : Prop :=
  Fine n k w s → Fine n k w t ∧ ∀ r ∈ s.recs, r.tid = n → ∃ r' ∈ t.recs, SamePlace r r'

namespace RecsStay
variable {n k w : Nat} {s t u : State}

theorem of_eq (h : t.recs = s.recs) : RecsStay n k w s t := fun hf =>
  ⟨fun r hr => hf r (h ▸ hr), fun r hr _ => ⟨r, h ▸ hr, .refl r⟩⟩

theorem trans (h : RecsStay n k w s t) (h' : RecsStay n k w t u) : RecsStay n k w s u := by
  intro hf
  obtain ⟨hft, hst⟩ := h hf
  obtain ⟨hfu, htu⟩ := h' hft
  refine ⟨hfu, fun r hr hn => ?_⟩
  obtain ⟨r', hr', hp⟩ := hst r hr hn
  obtain ⟨r'', hr'', hp'⟩ := htu r' hr' (hp.tid.trans hn)
  exact ⟨r'', hr'', hp.trans hp'⟩

end RecsStay

/-- An update of records of thread `tid` that keeps those of thread `n` fine. -/
theorem recsStay_updRec {n k w : Nat} (s : State) (tid : Nat) {f : Rec → Rec} (hf : ∀ r, (f r).tid = r.tid)
    (hn : tid = n → ∀ r ∈ s.recs, r.tid = n → SamePlace r (f r) ∧ (Fine n k w s → (f r).held = false ∧
      ((f r).kind = k ∧ (f r).wtype = w ∨ k = 0 ∧ w = 1 ∧ (f r).kind = 2 ∧ (f r).wtype = 5))) :
    RecsStay n k w s (s.updRec tid f) := by
  intro hfine
  refine ⟨fun r hr htid => ?_, fun r hr htid => ?_⟩
  · obtain ⟨y, hy, rfl⟩ := mem_updL.1 hr
    by_cases hyt : y.tid = tid
    · simp only [hyt, decide_true, if_true, hf] at htid ⊢
      exact (hn htid y hy (hyt.trans htid)).2 hfine
    · simp only [hyt, decide_false, Bool.false_eq_true, if_false] at htid ⊢
      exact hfine y hy htid
  · refine ⟨_, mem_updL.2 ⟨r, hr, rfl⟩, ?_⟩
    by_cases hrt : r.tid = tid
    · rw [if_pos (by simpa using hrt)]
      exact (hn (hrt.symm.trans htid) r hr htid).1
    · rw [if_neg (by simpa using hrt)]
      exact .refl r

theorem recs_enterLadle (s : State) (tid : Nat) : (enterLadle s tid).recs = s.recs := by
  obtain ⟨_, _, _, h⟩ := enterLadle_eq s tid
  rw [h]

theorem recsStay_fireWake (n k w : Nat) (s : State) (tid status : Nat) : RecsStay n k w s (fireWake s tid status) := by
  unfold fireWake
  split
  · exact .of_eq rfl
  · split
    · exact .of_eq rfl
    · refine RecsStay.trans ?_ (.of_eq (recs_enterLadle _ _))
      exact recsStay_updRec s tid (by intro; rfl) fun _ r hr hrn => ⟨⟨rfl, rfl, rfl, rfl, rfl, rfl⟩, fun hf => hf r hr hrn⟩

theorem recsStay_checkWake (n k w : Nat) (s : State) (tid : Nat) : RecsStay n k w s (checkWake s tid) := by
  unfold checkWake
  split
  · exact .of_eq rfl
  · split
    · exact recsStay_fireWake n k w s tid _
    · exact .of_eq rfl

theorem recs_flushRec (s : State) (tid : Nat) : (flushRec s tid).recs = s.recs := by
  obtain ⟨_, h⟩ := flushRec_eq s tid
  exact h.recs

/-- Reading the record of another thread back leaves the records of thread `n`. -/
theorem recsStay_reloadHeld_other {n tid : Nat} (k w : Nat) (s : State) (h : tid ≠ n) : RecsStay n k w s (reloadHeld s tid) := by
  unfold reloadHeld
  split
  · unfold loadRec
    split
    next r t _ _ =>
      have htouch := (atHome_placeTouch s r.part r.ref).recs
      refine RecsStay.trans (.of_eq htouch) (RecsStay.trans ?_ (.of_eq (recs_updBoth _ _ _)))
      exact recsStay_updRec _ tid (by intro; rfl) fun hn => absurd hn h
    · exact .of_eq rfl
  · exact .of_eq rfl

theorem recsStay_meetStoreFault (n k w : Nat) (s : State) (tid : Nat) : RecsStay n k w s (meetStoreFault s tid) := by
  unfold meetStoreFault
  split
  · exact .of_eq rfl
  next r hr =>
    split
    next hcond =>
      split
      next fid ix _ =>
        intro hfine
        have hreload : RecsStay n k w s (reloadHeld s tid) := by
          by_cases hn : tid = n
          · subst hn
            have hfree : ∀ x, s.rec? tid = some x → x.held = false := fun x hx =>
              (hfine x (List.mem_of_find?_eq_some hx) (rec?_tid hx)).1
            rw [reloadHeld_of_free hfree]
            exact .of_eq rfl
          · exact recsStay_reloadHeld_other k w s hn
        refine hreload.trans (RecsStay.trans ?_ (.of_eq (recs_flushRec _ _))) hfine
        refine recsStay_updRec _ tid (by intro; rfl) fun hn x hx hxn =>
          ⟨⟨rfl, rfl, rfl, rfl, rfl, rfl⟩, fun hf => ⟨(hf x hx hxn).1, ?_⟩⟩
        have hkind : r.kind = 0 ∧ r.wtype = 1 := by
          simp only [Bool.and_eq_true, decide_eq_true_eq] at hcond
          exact ⟨hcond.1.1.1.1, hcond.1.1.1.2⟩
        obtain ⟨hk, hw⟩ | ⟨-, -, h2, -⟩ := (hfine r (List.mem_of_find?_eq_some hr) ((rec?_tid hr).trans hn)).2
        · exact .inr ⟨hk ▸ hkind.1, hw ▸ hkind.2, rfl, rfl⟩
        · omega
      · exact .of_eq rfl
    · exact .of_eq rfl

/-! ### Making a record -/

/-- What the making of a record leaves of threads, annexes and the launch. -/
structure Making (s t : State) : Prop where
  threads : ∀ n, (s.thread? n).isSome = true → (t.thread? n).isSome = true
  annexes : t.annexes = s.annexes

namespace Making
variable {s t u : State}

theorem refl (s : State) : Making s s := ⟨fun _ h => h, rfl⟩
theorem trans (h : Making s t) (h' : Making t u) : Making s u :=
  ⟨fun n hn => h'.threads n (h.threads n hn), h'.annexes.trans h.annexes⟩
theorem of_eq (ht : t.threads = s.threads) (ha : t.annexes = s.annexes) : Making s t :=
  ⟨fun n hn => by rw [State.thread?, ht]; exact hn, ha⟩

end Making

theorem AtHome.making {s t : State} (h : AtHome s t) : Making s t := .of_eq h.threads h.annexes

theorem OnlyWakes.making {s t : State} (h : OnlyWakes s t) : Making s t := by
  obtain ⟨_, _, _, _, rfl⟩ := h
  exact .of_eq rfl rfl

theorem making_updBoth (s : State) (tid : Nat) {f : Thread → Thread} (hf : ∀ x, (f x).tid = x.tid) : Making s (s.updBoth tid f) := by
  refine ⟨fun n hn => isSome_thread?_updBoth hf hn, ?_⟩
  obtain ⟨_, h⟩ := updBoth_eq s tid f
  rw [h]

theorem making_flushRec (s : State) (tid : Nat) : Making s (flushRec s tid) := by
  refine ⟨fun n hn => isSome_thread?_flushRec hn, ?_⟩
  obtain ⟨_, h⟩ := flushRec_eq s tid
  exact h.annexes

theorem making_reloadHeld (s : State) (tid : Nat) : Making s (reloadHeld s tid) := by
  refine ⟨(reloadHeld_spec s tid).2, ?_⟩
  unfold reloadHeld
  split
  · unfold loadRec
    split
    next r t _ _ =>
      obtain ⟨_, hb⟩ := updBoth_eq _ _ _
      exact (congrArg State.annexes hb).trans (atHome_placeTouch s r.part r.ref).annexes
    · rfl
  · rfl

theorem making_meetStoreFault (s : State) (tid : Nat) : Making s (meetStoreFault s tid) := by
  unfold meetStoreFault
  split
  · exact .refl s
  · split
    · split
      · refine Making.trans ?_ (making_flushRec _ _)
        exact (making_reloadHeld s tid).trans (.of_eq rfl rfl)
      · exact .refl s
    · exact .refl s

theorem atHome_dropFlit (s : State) : AtHome s (dropFlit s) := ⟨_, _, _, _, _, _, List.Sublist.refl _, rfl⟩

theorem atHome_devTouch (s : State) (part : Nat) (op : PortOp) (ptr size : Nat) : AtHome s (devTouch s part op ptr size) := by
  unfold devTouch
  split
  · split
    · exact (atHome_combineAt ..).trans (atHome_queueRow ..)
    · exact atHome_dropFlit s
  · exact .refl s

theorem atHome_devTouchBlock (s : State) (part : Nat) (op : PortOp) (ptr w n : Nat) :
    AtHome s (devTouchBlock s part op ptr w n) := by
  refine (atHome_devTouch s part op ptr w).trans (AtHome.foldl (fun s i => ?_) _ _)
  split
  · split
    · exact atHome_combineAt ..
    · exact atHome_dropFlit s
  · exact .refl s

/-- The state once the lane of a thread that is to become a record has left its pour. -/
def State.laneLeft (s : State) (t : Thread) (i : RecInit) : State :=
  match t.loc with
  | .lane c sl ln => if i.kind = 1 then s else leavePour s c sl ln
  | _ => s

/-- The state once the live map of the code at which it resumes has been read. -/
def State.mapRead (s : State) (t : Thread) (i : RecInit) : State :=
  match s.launch? t.part t.launch with
  | some l =>
    if i.kind = 1 ∨ i.kind = 5 then s.laneLeft t i
    else devTouchBlock (s.laneLeft t i) t.part .load (ptrAdd (l.codeBuf * 2 ^ 48) l.lmBase) 16 l.lmCount
  | none => s.laneLeft t i

/-- The registers that the record saves. -/
def State.saves (s : State) (t : Thread) (i : RecInit) : DWord :=
  if i.kind = 1 ∨ i.kind = 5 then BitVec.allOnes 64
  else ((s.launch? t.part t.launch).map fun l => liveMask s l i.resume).getD (BitVec.allOnes 64) ||| i.alsoLive

/-- The record that a thread becomes. -/
def State.recOf (s : State) (tid : Nat) (t : Thread) (i : RecInit) : Rec :=
  { tid, part := t.part, cluster := i.cluster, kind := i.kind, prio := i.prio, resume := i.resume, buf := i.buf,
    wtype := i.wtype, key := i.key, livemask := s.saves t i, faultix := i.faultix, annex := i.annex, lane := i.lane,
    ref := nextRef s t.part, ps := i.ps, asRun := decide (t.run = 1 ∨ t.run = 2),
    pt := ((s.launch? t.part t.launch).map Launch.protected).getD false, tile := i.tile.orElse fun _ => stoppedBlk s tid,
    fired := none, status := 0, held := false, transit := none, convoy := 0 }

/-- The state once the record has been added to the pool. -/
def State.withRec (s : State) (tid : Nat) (t : Thread) (i : RecInit) : State :=
  let u := (s.mapRead t i).updBoth tid fun x => x.keepLive (s.saves t i)
  { u with recs := u.recs ++ [s.recOf tid t i] }

theorem makeRec_of_thread {s : State} {tid : Nat} {t : Thread} (i : RecInit) (h : s.thread? tid = some t) :
    makeRec s tid i = checkWake (meetStoreFault (writeRec (s.withRec tid t i) tid) tid) tid := by
  simp only [makeRec, h] <;> rfl

section
variable (s : State) (t : Thread) (i : RecInit)

theorem laneLeft_spec : Making s (s.laneLeft t i) ∧ (s.laneLeft t i).recs = s.recs := by
  unfold State.laneLeft
  split
  next c sl ln _ =>
    split
    · exact ⟨.refl s, rfl⟩
    · obtain ⟨_, h⟩ := leavePour_eq s c sl ln
      rw [h]
      exact ⟨.of_eq rfl rfl, rfl⟩
  · exact ⟨.refl s, rfl⟩

theorem mapRead_spec : Making s (s.mapRead t i) ∧ (s.mapRead t i).recs = s.recs := by
  obtain ⟨hm, hr⟩ := laneLeft_spec s t i
  unfold State.mapRead
  split
  · split
    · exact ⟨hm, hr⟩
    · have htouch := atHome_devTouchBlock (s.laneLeft t i) t.part .load
      exact ⟨hm.trans (htouch ..).making, (htouch ..).recs.trans hr⟩
  · exact ⟨hm, hr⟩

theorem withRec_spec (tid : Nat) : Making s (s.withRec tid t i) ∧ (s.withRec tid t i).recs = s.recs ++ [s.recOf tid t i] := by
  obtain ⟨hm, hr⟩ := mapRead_spec s t i
  refine ⟨(hm.trans (making_updBoth _ tid (f := fun x => x.keepLive (s.saves t i)) (by intro; rfl))).trans (.of_eq rfl rfl), ?_⟩
  rw [State.withRec]
  simp only [recs_updBoth, hr]

end

theorem making_makeRec (s : State) (tid : Nat) (i : RecInit) : Making s (makeRec s tid i) := by
  cases h : s.thread? tid with
  | none =>
    simp only [makeRec, h]
    exact .refl s
  | some t =>
    rw [makeRec_of_thread i h]
    exact ((withRec_spec s t i tid).1.trans (atHome_writeRec _ tid).making).trans
      ((making_meetStoreFault _ tid).trans (onlyWakes_checkWake _ tid).making)

/-- A record is made where none of its thread is of another kind; the records that are there stay. -/
theorem makeRec_spec {s : State} {tid : Nat} {t : Thread} (i : RecInit) (h : s.thread? tid = some t) :
    (∀ n, RecsStay n i.kind i.wtype s (makeRec s tid i)) ∧
    (Fine tid i.kind i.wtype s → ∃ r ∈ (makeRec s tid i).recs, SamePlace (s.recOf tid t i) r) := by
  rw [makeRec_of_thread i h]
  have hmem : (writeRec (s.withRec tid t i) tid).recs = s.recs ++ [s.recOf tid t i] := by
    rw [(atHome_writeRec _ tid).recs, (withRec_spec s t i tid).2]
  have hadd (n : Nat) : RecsStay n i.kind i.wtype s (writeRec (s.withRec tid t i) tid) := by
    intro hf
    refine ⟨fun x hx hxn => ?_, fun x hx _ => ⟨x, by rw [hmem]; exact List.mem_append_left _ hx, .refl x⟩⟩
    rw [hmem, List.mem_append, List.mem_singleton] at hx
    obtain hx | rfl := hx
    · exact hf x hx hxn
    · exact ⟨rfl, .inl ⟨rfl, rfl⟩⟩
  have hrest (n : Nat) := (recsStay_meetStoreFault n i.kind i.wtype (writeRec (s.withRec tid t i) tid) tid).trans
    (recsStay_checkWake n i.kind i.wtype _ tid)
  refine ⟨fun n => (hadd n).trans (hrest n), fun hf => ?_⟩
  exact (hrest tid (hadd tid hf).1).2 (s.recOf tid t i) (by rw [hmem]; simp) rfl

/-- Where a thread is a record as `i` says. -/
def IsRecord (t : State) (tid : Nat) (i : RecInit) : Prop := ∃ r ∈ t.recs, r.tid = tid ∧
  (r.kind = i.kind ∧ r.wtype = i.wtype ∨ i.kind = 0 ∧ i.wtype = 1 ∧ r.kind = 2 ∧ r.wtype = 5) ∧ r.resume = i.resume ∧
  r.prio = i.prio ∧ r.buf = i.buf ∧ r.cluster = i.cluster ∧ r.ps = i.ps

/-- Records made one after another, all of one kind: every thread of the list becomes one. -/
theorem foldl_makeRec_spec {α : Type} {k w : Nat} (tidOf : α → Nat) (init : State → α → RecInit) (base : α → RecInit)
    (hbase : ∀ s x, init s x = { base x with tile := (init s x).tile }) (hkw : ∀ x, (base x).kind = k ∧ (base x).wtype = w)
    (xs : List α) (s : State) (hth : ∀ x ∈ xs, (s.thread? (tidOf x)).isSome = true) :
    (∀ n, RecsStay n k w s (xs.foldl (fun s x => makeRec s (tidOf x) (init s x)) s)) ∧
    ((∀ x ∈ xs, Fine (tidOf x) k w s) →
      ∀ x ∈ xs, IsRecord (xs.foldl (fun s x => makeRec s (tidOf x) (init s x)) s) (tidOf x) (base x)) := by
  induction xs generalizing s with
  | nil => exact ⟨fun n => .of_eq rfl, fun _ _ hx => absurd hx List.not_mem_nil⟩
  | cons y ys ih =>
    have hk : (init s y).kind = k ∧ (init s y).wtype = w := by
      rw [hbase s y]
      exact hkw y
    obtain ⟨t, ht⟩ := Option.isSome_iff_exists.1 (hth y (List.mem_cons_self ..))
    obtain ⟨hstay, hnew⟩ := makeRec_spec (init s y) ht
    rw [hk.1, hk.2] at hstay hnew
    obtain ⟨hstays, hmade⟩ := ih (makeRec s (tidOf y) (init s y)) fun x hx =>
      (making_makeRec ..).threads _ (hth x (List.mem_cons_of_mem _ hx))
    rw [List.foldl_cons]
    refine ⟨fun n => (hstay n).trans (hstays n), fun hf x hx => ?_⟩
    obtain rfl | hx := List.mem_cons.1 hx
    · obtain ⟨r, hr, hp⟩ := hnew (hf x (List.mem_cons_self ..))
      obtain ⟨hfine, hpl⟩ := hstays (tidOf x) (hstay _ (hf x (List.mem_cons_self ..))).1
      obtain ⟨r', hr', hp'⟩ := hpl r hr hp.tid
      obtain ⟨htid, hresume, hprio, hbuf, hcluster, hps⟩ := hp.trans hp'
      have hb := hbase s x
      refine ⟨r', hr', htid, ?_, hresume.trans (by rw [hb]; rfl), hprio.trans (by rw [hb]; rfl), hbuf.trans (by rw [hb]; rfl),
        hcluster.trans (by rw [hb]; rfl), hps.trans (by rw [hb]; rfl)⟩
      rw [(hkw x).1, (hkw x).2]
      exact (hfine r' hr' htid).2
    · exact hmade (fun z hz => (hstay _ (hf z (List.mem_cons_of_mem _ hz))).1) x hx

theorem foldl_making {α : Type} (tidOf : α → Nat) (init : State → α → RecInit) (xs : List α) (s : State) :
    Making s (xs.foldl (fun s x => makeRec s (tidOf x) (init s x)) s) :=
  List.foldlRecOn (motive := Making s) xs _ (.refl s) fun _ h _ _ => h.trans (making_makeRec ..)

end Sys2Proof.Machine
end

section
/-! PROOF. O48: the events by which threads become records, or wait for the room (R45, R49, R57, R64, R65, R340). -/

namespace Sys2Proof.Machine

open Sys2Proof

/-! ### Room (R64) -/

theorem takeRoom_of_poolRoom {s : State} {part launch n : Nat} (h : (poolRoom s part launch n).isSome = true) :
    (takeRoom s part launch n).isSome = true := by
  obtain ⟨q, hq⟩ := Option.isSome_iff_exists.1 h
  unfold takeRoom
  cases hp : s.part? part with
  | none => simp [poolRoom, hp] at hq
  | some p => simp [hq]

theorem poolRoom_of_takeRoom {s : State} {part launch n : Nat} (h : (takeRoom s part launch n).isSome = true) :
    (poolRoom s part launch n).isSome = true := by
  unfold takeRoom at h
  split at h
  · simp [*]
  · simp at h

theorem poolRoom_eq_takeRoom (s : State) (part launch n : Nat) :
    (poolRoom s part launch n).isSome = (takeRoom s part launch n).isSome :=
  Bool.eq_iff_iff.2 ⟨takeRoom_of_poolRoom, poolRoom_of_takeRoom⟩

/-- Taking room changes the registers of the partition alone. -/
theorem takeRoom_eq {s t : State} {part launch n : Nat} (h : takeRoom s part launch n = some t) :
    ∃ ps, t = { s with parts := ps } := by
  unfold takeRoom at h
  split at h
  · cases h
    exact ⟨_, rfl⟩
  · cases h

/-- The first in order that converts has room and is ready. -/
theorem nextToConvert_spec {s : State} {xs : List Waiting} {bs : List Nat} {x : Waiting} {p : Pour}
    (h : nextToConvert s xs bs = some (x, p)) :
    roomReady s p x.ent = true ∧ (poolRoom s p.part p.launch (roomNeeded s p x.ent)).isSome = true := by
  induction xs generalizing bs with
  | nil => simp [nextToConvert] at h
  | cons y ys ih =>
    unfold nextToConvert at h
    split at h
    · exact ih h
    · split at h
      · exact ih h
      · dsimp only at h
        split at h
        · exact ih h
        next hready =>
          split at h
          · split at h
            next hroom =>
              cases h
              exact ⟨by simpa using (not_or.1 hready).2, hroom⟩
            · cases h
          · exact ih h

/-! ### Lanes that become records -/

theorem mem_lanesIn {s : State} {core slot : Nat} {m : Word} {x : Nat × Nat} (h : x ∈ s.lanesIn core slot m) :
    (s.thread? x.2).isSome = true := by
  obtain ⟨l, -, hl⟩ := List.mem_filterMap.1 h
  obtain ⟨t, ht, rfl⟩ := Option.map_eq_some_iff.1 hl
  exact List.find?_isSome.2 ⟨t, List.mem_of_find?_eq_some ht, by simp⟩

/-- A thread that is no record has none that is not fine. -/
theorem fine_of_none {s : State} {n : Nat} (h : s.rec? n = none) (k w : Nat) : Fine n k w s := fun r hr hn =>
  absurd (List.find?_eq_none.1 h r hr) (by simp [hn])

/-- Lanes become records where there is room for all. -/
theorem isRecord_convertLanes {s t : State} {p : Pour} {ts : List (Nat × Nat)} {f : Nat → RecInit} {k w : Nat}
    (hkw : ∀ l, (f l).kind = k ∧ (f l).wtype = w) (hth : ∀ x ∈ ts, (s.thread? x.2).isSome = true)
    (hnone : ∀ x ∈ ts, s.rec? x.2 = none) (h : convertLanes s p ts f = some t) :
    ∀ x ∈ ts, IsRecord t x.2 { f x.1 with cluster := clusterOf p.core } := by
  obtain ⟨v, hv, rfl⟩ := Option.map_eq_some_iff.1 h
  obtain ⟨ps, rfl⟩ := takeRoom_eq hv
  exact (foldl_makeRec_spec (fun x : Nat × Nat => x.2) (fun _ x => { f x.1 with cluster := clusterOf p.core })
    (fun x => { f x.1 with cluster := clusterOf p.core }) (fun _ _ => rfl) (fun x => hkw x.1) ts { s with parts := ps } hth).2
    fun x hx => fine_of_none (hnone x hx) k w

/-- What the lanes of entry `e` become. -/
def Records (s t : State) (p : Pour) (e : Entry) (kind wtype : Nat) (ps : Bool) : Prop :=
  ∀ x ∈ s.lanesIn p.core p.slot e.mask, ∃ r ∈ t.recs,
    r.tid = x.2 ∧ (r.kind = kind ∧ r.wtype = wtype ∨ kind = 0 ∧ wtype = 1 ∧ r.kind = 2 ∧ r.wtype = 5) ∧ r.resume = e.pc ∧
      r.prio = e.prio ∧ r.buf = e.buf ∧ r.cluster = clusterOf p.core ∧ r.ps = ps

/-- No thread of the pour is a record. -/
def NoneRecords (s : State) (p : Pour) : Prop := ∀ e ∈ p.entries, ∀ x ∈ s.lanesIn p.core p.slot e.mask, s.rec? x.2 = none

theorem isSome_convertLanes {s : State} {p : Pour} {ts : List (Nat × Nat)} {f : Nat → RecInit} :
    (convertLanes s p ts f).isSome = (takeRoom s p.part p.launch ts.length).isSome := by
  simp [convertLanes]

/-- The kind of a record that an entry's threads become once its wait lasts (R54). -/
def Stall.kindOf (st : Stall) : Nat := if st.wtype = 5 then 2 else if st.wtype = 6 then 3 else 0

section
variable {s : State} {p : Pour} {e : Entry} {st : Stall} {i : Nat}

/-- The lanes of an entry that waits become records of the kind of their wait. -/
theorem records_convertLanes (hnone : NoneRecords s p) (he : e ∈ p.entries) (part : Nat) (ps : Bool)
    (hroom : (takeRoom s p.part p.launch (s.lanesIn p.core p.slot e.mask).length).isSome = true) :
    ∃ t, convertLanes s p (s.lanesIn p.core p.slot e.mask) (stallInit s part e st ps) = some t ∧
      Records s t p e st.kindOf st.wtype ps := by
  obtain ⟨t, ht⟩ := Option.isSome_iff_exists.1 (isSome_convertLanes.trans hroom)
  exact ⟨t, ht, fun x hx => isRecord_convertLanes (k := st.kindOf) (w := st.wtype) (fun _ => ⟨rfl, rfl⟩)
    (fun _ h => mem_lanesIn h) (hnone e he) ht x hx⟩

/-- The lanes of a split entry become records of kind 4 (R45). -/
theorem records_convertLanes_split (hnone : NoneRecords s p) (he : e ∈ p.entries)
    (hroom : (takeRoom s p.part p.launch (s.lanesIn p.core p.slot e.mask).length).isSome = true) :
    ∃ t, convertLanes s p (s.lanesIn p.core p.slot e.mask) (fun lane =>
      { kind := 4, wtype := 0, key := 0, resume := e.pc, prio := e.prio, buf := e.buf, cluster := 0, lane, ps := true }) = some t ∧
      Records s t p e 4 0 true := by
  obtain ⟨t, ht⟩ := Option.isSome_iff_exists.1 (isSome_convertLanes.trans hroom)
  exact ⟨t, ht, fun x hx => isRecord_convertLanes (k := 4) (w := 0) (fun _ => ⟨rfl, rfl⟩)
    (fun _ h => mem_lanesIn h) (hnone e he) ht x hx⟩

/-- The entry waits for room, and takes its place in the order. -/
def WaitsForRoom (s t : State) (p : Pour) (i : Nat) (e : Entry) (st : Stall) : Prop :=
  t = { s with pours := t.pours, nextId := s.nextId + 1 } ∧
  t.pour? p.core p.slot = some { p with entries := p.entries.set i { e with stall := some { st with pool := some s.nextId } } }

theorem pour?_updPour_of (hp : s.pour? p.core p.slot = some p) {f : Pour → Pour}
    (hf : ∀ q, (f q).core = q.core ∧ (f q).slot = q.slot) : (s.updPour p.core p.slot f).pour? p.core p.slot = some (f p) :=
  (pour?_updPour s p.core p.slot f hf).trans (congrArg (Option.map f) hp)

theorem happens_shortStallExpiry (hp : s.pour? p.core p.slot = some p) (hnone : NoneRecords s p) (hi : p.entries[i]? = some e)
    (hst : e.stall = some st) (hx : stallExpired s p e = true) :
    let room := (takeRoom s p.part p.launch (s.lanesIn p.core p.slot e.mask).length).isSome
    (room = true → Happens (.shortStallExpiry p.core p.slot i) s fun t => Records s t p e st.kindOf st.wtype false) ∧
    (room = false → Happens (.shortStallExpiry p.core p.slot i) s fun t => WaitsForRoom s t p i e { st with expired := false }) := by
  have hexec : exec (.shortStallExpiry p.core p.slot i) s = .next (expireStall s p i e st) := by
    change execShortStallExpiry p.core p.slot i s = _
    simp only [execShortStallExpiry, hp, hi, hst, hx, if_true]
  refine ⟨fun hroom => ?_, fun hroom => ?_⟩
  · obtain ⟨t, ht, hr⟩ := records_convertLanes (st := st) hnone (List.mem_of_getElem? hi) p.part false hroom
    exact ⟨t, by rw [hexec, expireStall, ht], hr⟩
  · have hc : convertLanes s p (s.lanesIn p.core p.slot e.mask) (stallInit s p.part e st false) = none := by
      rw [← Option.not_isSome_iff_eq_none, isSome_convertLanes, hroom]
      simp
    refine ⟨_, by rw [hexec, expireStall, hc], rfl, ?_⟩
    exact pour?_updPour_of (s := s.bumpId) hp fun _ => ⟨rfl, rfl⟩

theorem convertWaiting_stalled {x : Waiting} (hx : x.ent = some i) (hi : p.entries[i]? = some e) (hsplit : e.split = none)
    (hst : e.stall = some st) : convertWaiting s x p =
      (convertLanes s p (s.lanesIn p.core p.slot e.mask) (stallInit s p.part e st (!st.await))).getD s := by
  simp only [convertWaiting, hx, hi, hsplit, hst]

theorem convertWaiting_split {x : Waiting} {n : Nat} (hx : x.ent = some i) (hi : p.entries[i]? = some e) (hsplit : e.split = some n) :
    convertWaiting s x p = (convertLanes s p (s.lanesIn p.core p.slot e.mask) fun lane =>
      { kind := 4, wtype := 0, key := 0, resume := e.pc, prio := e.prio, buf := e.buf, cluster := 0, lane, ps := true }).getD s := by
  simp only [convertWaiting, hx, hi, hsplit]

theorem roomNeeded_entry (hi : p.entries[i]? = some e) : roomNeeded s p (some i) = (s.lanesIn p.core p.slot e.mask).length := by
  simp [roomNeeded, hi]

/-- Entry `i` of a pour no longer awaits anything but room, and is number `n` in the order. -/
def Pour.asked (i n : Nat) (p : Pour) : Pour :=
  { p with entries := p.entries.modify i fun e =>
      { e with stall := e.stall.map fun st => { st with await := false, pool := some n } } }

theorem happens_poolStallConvert_asked {x : Waiting} (hp : s.pour? p.core p.slot = some p) (hnone : NoneRecords s p)
    (hask : nextAsk s p.part = some x) (hc : x.core = p.core) (hs : x.slot = p.slot) (hx : x.ent = some i)
    (hi : p.entries[i]? = some e) (hsplit : e.split = none) (hst : e.stall = some st) :
    let room := (takeRoom s p.part p.launch (s.lanesIn p.core p.slot e.mask).length).isSome
    (room = true → Happens (.poolStallConvert p.part) s fun t => Records s t p e st.kindOf st.wtype (!st.await)) ∧
    (room = false → Happens (.poolStallConvert p.part) s fun t => WaitsForRoom s t p i e { st with await := false }) := by
  have hexec : exec (.poolStallConvert p.part) s = .next (askRoom s x) := by
    change execPoolStallConvert p.part s = _
    simp only [execPoolStallConvert, hask]
  have hpool : (poolRoom s p.part p.launch (roomNeeded s p x.ent)).isSome =
      (takeRoom s p.part p.launch (s.lanesIn p.core p.slot e.mask).length).isSome := by
    rw [poolRoom_eq_takeRoom, hx, roomNeeded_entry hi]
  have hask' : askRoom s x = if (takeRoom s p.part p.launch (s.lanesIn p.core p.slot e.mask).length).isSome = true
      then convertWaiting s x p
      else s.bumpId.updPour p.core p.slot (Pour.asked i s.nextId) := by
    rw [← hpool]
    simp only [askRoom, hc, hs, hp, hx]
    rfl
  refine ⟨fun hroom => ?_, fun hroom => ?_⟩
  · obtain ⟨t, ht, hr⟩ := records_convertLanes (st := st) hnone (List.mem_of_getElem? hi) p.part (!st.await) hroom
    exact ⟨t, by rw [hexec, hask', if_pos hroom, convertWaiting_stalled hx hi hsplit hst, ht]; rfl, hr⟩
  · refine ⟨_, by rw [hexec, hask', if_neg (by simp [hroom])], rfl, ?_⟩
    refine (pour?_updPour_of (s := s.bumpId) (f := Pour.asked i s.nextId) hp fun _ => ⟨rfl, rfl⟩).trans ?_
    simp [Pour.asked, List.modify_eq_set_getElem?, hi, hst]

theorem exec_poolStallConvert {x : Waiting} (hask : nextAsk s p.part = none)
    (hx : nextToConvert s (stalledForRoom s p.part) [] = some (x, p)) :
    exec (.poolStallConvert p.part) s = .next (convertWaiting s x p) := by
  change execPoolStallConvert p.part s = _
  simp only [execPoolStallConvert, hask, hx]

/-- The room that the first in order needs. -/
theorem takeRoom_of_nextToConvert {x : Waiting} (hx : nextToConvert s (stalledForRoom s p.part) [] = some (x, p))
    (hent : x.ent = some i) (hi : p.entries[i]? = some e) :
    (takeRoom s p.part p.launch (s.lanesIn p.core p.slot e.mask).length).isSome = true := by
  have hroom := (nextToConvert_spec hx).2
  rw [hent, roomNeeded_entry hi] at hroom
  exact takeRoom_of_poolRoom hroom

theorem happens_poolStallConvert_stalled {x : Waiting} (hnone : NoneRecords s p) (hask : nextAsk s p.part = none)
    (hx : nextToConvert s (stalledForRoom s p.part) [] = some (x, p)) (hent : x.ent = some i) (hi : p.entries[i]? = some e)
    (hsplit : e.split = none) (hst : e.stall = some st) :
    Happens (.poolStallConvert p.part) s fun t => Records s t p e st.kindOf st.wtype (!st.await) := by
  obtain ⟨t, ht, hr⟩ := records_convertLanes (st := st) hnone (List.mem_of_getElem? hi) p.part (!st.await)
    (takeRoom_of_nextToConvert hx hent hi)
  exact ⟨t, by rw [exec_poolStallConvert hask hx, convertWaiting_stalled hent hi hsplit hst, ht]; rfl, hr⟩

theorem happens_poolStallConvert_split {x : Waiting} {n : Nat} (hnone : NoneRecords s p) (hask : nextAsk s p.part = none)
    (hx : nextToConvert s (stalledForRoom s p.part) [] = some (x, p)) (hent : x.ent = some i) (hi : p.entries[i]? = some e)
    (hsplit : e.split = some n) : Happens (.poolStallConvert p.part) s fun t => Records s t p e 4 0 true := by
  obtain ⟨t, ht, hr⟩ := records_convertLanes_split hnone (List.mem_of_getElem? hi) (takeRoom_of_nextToConvert hx hent hi)
  exact ⟨t, by rw [exec_poolStallConvert hask hx, convertWaiting_split hent hi hsplit, ht]; rfl, hr⟩

end

/-! ### Whole pours (R57, R65, R340) -/

section
variable (s : State) (p : Pour)

/-- The lanes of a pour, each with its entry. -/
def State.lanesOf (s : State) (p : Pour) : List (Entry × Nat × Nat) :=
  p.entries.flatMap fun e => (s.lanesIn p.core p.slot e.mask).map fun x => (e, x)

/-- The record that a lane of a pour becomes when the pour goes whole into annex `ref`. -/
def annexInit (p : Pour) (ref : Nat) (ps : Bool) (x : Entry × Nat × Nat) : RecInit :=
  { kind := 1, wtype := 8, key := 0, resume := x.1.pc, prio := x.1.prio, buf := x.1.buf, cluster := clusterOf p.core,
    annex := ref, lane := x.2.1, ps }

/-- The annex of a pour, under the reference `ref`. -/
def annexOf (s : State) (p : Pour) (ref : Nat) : Annex :=
  { ref, part := p.part, entries := p.entries.map fun e => { e with stall := none, freed := none },
    k := p.k, count := (s.lanesOf p).length }

/-- The pour leaves the core and its threads become records. -/
def annexDo (s v : State) (p : Pour) (ps : Bool) : State :=
  let u := (s.lanesOf p).foldl (fun s x => makeRec s x.2.2 { annexInit p (nextRef v p.part) ps x with tile := tileBlkOf s x.2.2 })
    { v with annexes := v.annexes ++ [annexOf s p (nextRef v p.part)] }
  flushAnnex { u with
    pours := u.pours.filter (fun q => !(q.core = p.core && q.slot = p.slot)),
    tileOps := updL (fun o => o.kind = .mmal && (s.lanesOf p).any fun x => x.2.2 = o.issuer) (fun o => { o with stopped := true })
      u.tileOps } p.part (nextRef v p.part)

theorem annexPour_eq (ps : Bool) : annexPour s p ps = if !pourWhole s p then none
    else (takeRoom s p.part p.launch ((s.lanesOf p).length + 1)).map fun v => annexDo s v p ps := rfl

theorem length_lanesOf : (s.lanesOf p).length = (p.entries.flatMap fun e => s.lanesIn p.core p.slot e.mask).length := by
  simp [State.lanesOf, List.length_flatMap]

theorem roomNeeded_pour : roomNeeded s p none = (s.lanesOf p).length + 1 := by
  have key (es : List Entry) (n : Nat) : es.foldl (fun n e => n + (s.lanesIn p.core p.slot e.mask).length) n =
      n + (es.map fun e => (s.lanesIn p.core p.slot e.mask).length).sum := by
    induction es generalizing n with
    | nil => simp
    | cons e es ih => simp [ih, Nat.add_assoc]
  simp [roomNeeded, key, State.lanesOf, List.length_flatMap]

variable {s p}

theorem mem_lanesOf {x : Entry × Nat × Nat} : x ∈ s.lanesOf p ↔ x.1 ∈ p.entries ∧ x.2 ∈ s.lanesIn p.core p.slot x.1.mask := by
  obtain ⟨e, y⟩ := x
  simp only [State.lanesOf, List.mem_flatMap, List.mem_map, Prod.mk.injEq]
  constructor
  · rintro ⟨e', he, y', hy, rfl, rfl⟩
    exact ⟨he, hy⟩
  · rintro ⟨he, hy⟩
    exact ⟨e, he, y, hy, rfl, rfl⟩

/-- A pour that goes whole into an annex: it leaves its core, its threads are records, and the annex holds its entries. -/
def Annexed (s t : State) (p : Pour) (ps : Bool) : Prop :=
  t.pour? p.core p.slot = none ∧ (∀ e ∈ p.entries, Records s t p e 1 8 ps) ∧
  ∃ a ∈ t.annexes, a.part = p.part ∧ a.k = p.k ∧ a.count = (s.lanesOf p).length ∧
    a.entries = p.entries.map fun e => { e with stall := none, freed := none }

theorem annexed_annexPour (hnone : NoneRecords s p) (hw : pourWhole s p = true) (ps : Bool)
    (hroom : (takeRoom s p.part p.launch ((s.lanesOf p).length + 1)).isSome = true) :
    ∃ t, annexPour s p ps = some t ∧ Annexed s t p ps := by
  obtain ⟨v, hv⟩ := Option.isSome_iff_exists.1 hroom
  refine ⟨annexDo s v p ps, by simp [annexPour_eq, hw, hv], ?_⟩
  obtain ⟨parts, rfl⟩ := takeRoom_eq hv
  set v : State := { s with parts }
  set v' : State := { v with annexes := v.annexes ++ [annexOf s p (nextRef v p.part)] }
  set u := (s.lanesOf p).foldl (fun s x => makeRec s x.2.2
    { annexInit p (nextRef v p.part) ps x with tile := tileBlkOf s x.2.2 }) v' with hu
  obtain ⟨-, hmade⟩ := foldl_makeRec_spec (k := 1) (w := 8) (fun x : Entry × Nat × Nat => x.2.2)
    (fun s x => { annexInit p (nextRef v p.part) ps x with tile := tileBlkOf s x.2.2 }) (annexInit p (nextRef v p.part) ps)
    (fun _ _ => rfl) (fun _ => ⟨rfl, rfl⟩) (s.lanesOf p) v' fun x hx => mem_lanesIn (mem_lanesOf.1 hx).2
  have hann : u.annexes = v'.annexes := (foldl_making (fun x : Entry × Nat × Nat => x.2.2)
    (fun s x => { annexInit p (nextRef v p.part) ps x with tile := tileBlkOf s x.2.2 }) (s.lanesOf p) v').annexes
  have hflush := atHome_flushAnnex { u with
    pours := u.pours.filter (fun q => !(q.core = p.core && q.slot = p.slot)),
    tileOps := updL (fun o => o.kind = .mmal && (s.lanesOf p).any fun x => x.2.2 = o.issuer) (fun o => { o with stopped := true })
      u.tileOps } p.part (nextRef v p.part)
  refine ⟨?_, fun e he x hx => ?_, annexOf s p (nextRef v p.part), ?_, rfl, rfl, rfl, rfl⟩
  · rw [State.pour?, annexDo, hflush.inPool.pours]
    refine List.find?_eq_none.2 fun q hq => ?_
    have hout := (List.mem_filter.1 hq).2
    rwa [Bool.not_eq_true', ← Bool.not_eq_true] at hout
  · obtain ⟨r, hr, h⟩ := hmade (fun y hy => fine_of_none (hnone y.1 (mem_lanesOf.1 hy).1 y.2 (mem_lanesOf.1 hy).2) 1 8)
      (e, x) (mem_lanesOf.2 ⟨he, hx⟩)
    refine ⟨r, ?_, h⟩
    rw [annexDo, hflush.recs]
    exact hr
  · rw [annexDo, hflush.annexes, hann]
    simp [v']

theorem happens_poolStallConvert_pour {x : Waiting} (hnone : NoneRecords s p) (hask : nextAsk s p.part = none)
    (hx : nextToConvert s (stalledForRoom s p.part) [] = some (x, p)) (hent : x.ent = none) :
    Happens (.poolStallConvert p.part) s fun t => Annexed s t p true := by
  obtain ⟨hready, hroom⟩ := nextToConvert_spec hx
  rw [hent, roomNeeded_pour] at hroom
  rw [hent] at hready
  obtain ⟨t, ht, ha⟩ := annexed_annexPour hnone hready true (takeRoom_of_poolRoom hroom)
  refine ⟨t, (exec_poolStallConvert hask hx).trans ?_, ha⟩
  simp [convertWaiting, hent, ht]

theorem exec_pourPreempt (hp : s.pour? p.core p.slot = some p) (hw : preemptWanted s p = true) :
    exec (.pourPreempt p.core p.slot) s = .next (preemptPour s p) := by
  change execPourPreempt p.core p.slot s = _
  simp only [execPourPreempt, hp, hw, if_true]

theorem happens_pourPreempt_whole (hp : s.pour? p.core p.slot = some p) (hnone : NoneRecords s p)
    (hwant : preemptWanted s p = true) (hw : pourWhole s p = true)
    (hroom : (takeRoom s p.part p.launch ((s.lanesOf p).length + 1)).isSome = true) :
    Happens (.pourPreempt p.core p.slot) s fun t => Annexed s t p false := by
  obtain ⟨t, ht, ha⟩ := annexed_annexPour hnone hw false hroom
  exact ⟨t, by rw [exec_pourPreempt hp hwant, preemptPour, ht], ha⟩

/-- A pour that does not go whole waits for room, unless threads of it await other things. -/
theorem preemptPour_of_stays (h : pourWhole s p = false ∨
      (takeRoom s p.part p.launch ((s.lanesOf p).length + 1)).isSome = false) : preemptPour s p =
    if (p.entries.any fun e => entryAwaits s p e || e.leaving s.time) = true then s
    else s.bumpId.updPour p.core p.slot fun p => { p with poolStalled := some s.nextId } := by
  have hnone : annexPour s p false = none := by
    rw [annexPour_eq]
    obtain h | h := h
    · simp [h]
    · split
      · rfl
      · rw [Option.map_eq_none_iff, ← Option.not_isSome_iff_eq_none, h]
        simp
  rw [preemptPour, hnone]

theorem happens_pourPreempt_waits (hp : s.pour? p.core p.slot = some p) (hwant : preemptWanted s p = true)
    (h : pourWhole s p = false ∨ (takeRoom s p.part p.launch ((s.lanesOf p).length + 1)).isSome = false)
    (hawait : (p.entries.any fun e => entryAwaits s p e || e.leaving s.time) = false) :
    Happens (.pourPreempt p.core p.slot) s fun t => t = { s with pours := t.pours, nextId := s.nextId + 1 } ∧
      t.pour? p.core p.slot = some { p with poolStalled := some s.nextId } := by
  refine ⟨_, by rw [exec_pourPreempt hp hwant, preemptPour_of_stays h, if_neg (by simp [hawait])], rfl, ?_⟩
  exact pour?_updPour_of (s := s.bumpId) (f := fun q => { q with poolStalled := some s.nextId }) hp fun _ => ⟨rfl, rfl⟩

theorem happens_pourPreempt_awaits (hp : s.pour? p.core p.slot = some p) (hwant : preemptWanted s p = true)
    (h : pourWhole s p = false ∨ (takeRoom s p.part p.launch ((s.lanesOf p).length + 1)).isSome = false)
    (hawait : (p.entries.any fun e => entryAwaits s p e || e.leaving s.time) = true) :
    Happens (.pourPreempt p.core p.slot) s fun t => t = s :=
  ⟨s, by rw [exec_pourPreempt hp hwant, preemptPour_of_stays h, if_pos hawait], rfl⟩

theorem happens_pourPromote (hp : s.pour? p.core p.slot = some p) (hdue : promoteDue s p = true) :
    Happens (.pourPromote p.core p.slot) s fun t =>
      t = { s with pours := t.pours } ∧ t.pour? p.core p.slot = some { p with promoted := true } := by
  refine ⟨s.updPour p.core p.slot fun q => { q with promoted := true }, ?_, rfl,
    pour?_updPour_of (f := fun q => { q with promoted := true }) hp fun _ => ⟨rfl, rfl⟩⟩
  change execPourPromote p.core p.slot s = _
  simp only [execPourPromote, hp, hdue, if_true]

end

/-! ### `POOLEXHAUST` (R64, R338) -/

/-- Escalation of a gang whose innermost region ends gangs (R338). -/
theorem escalate_gang {s : State} {part launch : Nat} {l : Launch} {r : Region} (hl : s.launch? part launch = some l)
    (hr : l.chain.head? = some r) (ha : r.action = 0) (g : Nat) : escalate s part launch g = killGang s part launch g := by
  obtain ⟨rest, hc⟩ := List.head?_eq_some_iff.1 hr
  simp only [escalate, hl, hc, applyAction, ha]

theorem GangGone.of_frame {s : State} {l l' : Launch} {g : Nat} (h : GangGone s l' g) (hf : l'.frame = l.frame) :
    GangGone s l g := by
  simp only [Launch.frame, Prod.mk.injEq] at hf
  obtain ⟨hp, hn, -, hg⟩ := hf
  intro u hu hsh hmine
  refine h u hu hsh ?_
  rw [hp, hn, inGang, hg]
  exact hmine

/-- Gangs escalated one after another are gone. -/
theorem gangGone_foldl_escalate {part : Nat} {l : Launch} {r : Region} (hr : l.chain.head? = some r) (ha : r.action = 0)
    (gs : List Nat) (s : State) (hl : (s.launch? part l.num).map Launch.frame = some l.frame) :
    Thins s (gs.foldl (fun s g => escalate s part l.num g) s) ∧
      ∀ g ∈ gs, GangGone (gs.foldl (fun s g => escalate s part l.num g) s) l g := by
  induction gs generalizing s with
  | nil => exact ⟨.refl s, fun _ h => absurd h List.not_mem_nil⟩
  | cons g gs ih =>
    obtain ⟨l', hl', hf⟩ := Option.map_eq_some_iff.1 hl
    have hchain : l'.chain.head? = some r := by
      simp only [Launch.frame, Prod.mk.injEq] at hf
      rw [hf.2.2.1, hr]
    rw [List.foldl_cons, escalate_gang hl' hchain ha]
    obtain ⟨hthin, -⟩ := killGang_spec hl' g
    obtain ⟨hthin', hgone⟩ := ih (killGang s part l.num g) ((hthin.launch ..).trans hl)
    refine ⟨hthin.trans hthin', fun x hx => ?_⟩
    obtain rfl | hx := List.mem_cons.1 hx
    · exact ((gangGone_killGang hl' x).of_frame hf).mono hthin'
    · exact hgone x hx

theorem happens_poolexhaust {s : State} {part : Nat} {l : Launch} {r : Region} (hl : s.launch? part l.num = some l)
    (hr : l.chain.head? = some r) (ha : r.action = 0) (hto : poolTimeout s part l.num = true) :
    Happens (.poolexhaust part l.num) s fun t => ∀ g ∈ stalledGangs s part l, GangGone t l g := by
  refine ⟨_, ?_, (gangGone_foldl_escalate hr ha (stalledGangs s part l) s (by rw [hl]; rfl)).2⟩
  change execPoolexhaust part l.num s = _
  simp only [execPoolexhaust, hto, hl, if_true]

end Sys2Proof.Machine

namespace Sys2Proof
open Machine

/-- Settles O48: one lemma for each event, `happens_shortStallExpiry` to `happens_poolexhaust`. That earlier records stay in
place while later ones are made and their wakes are looked at is `foldl_makeRec_spec`. -/
theorem recordsMade : Obligations.RecordsMade := by
  unfold Obligations.RecordsMade
  intro s p hp hnone
  refine ⟨fun i e st hi hst hx => happens_shortStallExpiry hp hnone hi hst hx,
    fun x i e st hask hc hs hx hi hsplit hst => happens_poolStallConvert_asked hp hnone hask hc hs hx hi hsplit hst,
    fun x hask hx => ⟨fun i e st hent hi hsplit hst => happens_poolStallConvert_stalled hnone hask hx hent hi hsplit hst,
      fun i e n hent hi hsplit => happens_poolStallConvert_split hnone hask hx hent hi hsplit, fun hent => ?_⟩,
    fun hwant => ?_, fun hdue => happens_pourPromote hp hdue,
    fun l r hl _ hr ha hto => happens_poolexhaust hl hr ha hto⟩
  · obtain ⟨t, ht, hpour, hrecs, -⟩ := happens_poolStallConvert_pour hnone hask hx hent
    exact ⟨t, ht, hpour, hrecs⟩
  · rw [← length_lanesOf]
    exact ⟨fun hw hroom => happens_pourPreempt_whole hp hnone hwant hw hroom,
      fun h hawait => happens_pourPreempt_waits hp hwant h hawait,
      fun h hawait => happens_pourPreempt_awaits hp hwant h hawait⟩

end Sys2Proof
end

section
/-! PROOF. O49: ladles drain, records travel, and firmware holds and releases them (R59 to R61, R66, R301). -/

namespace Sys2Proof.Machine

open Sys2Proof

/-! ### Lists -/

theorem getElem?_filterMap_of_isSome {α β : Type} {f : α → Option β} {l : List α} (h : ∀ a ∈ l, (f a).isSome = true) (i : Nat) :
    (l.filterMap f)[i]? = l[i]?.bind f := by
  induction l generalizing i with
  | nil => rfl
  | cons a l ih =>
    obtain ⟨b, hb⟩ := Option.isSome_iff_exists.1 (h a (List.mem_cons_self ..))
    rw [List.filterMap_cons_some hb]
    cases i with
    | zero => simp [hb]
    | succ i => simpa using ih (fun a ha => h a (List.mem_cons_of_mem _ ha)) i

/-! ### Pour slots (R44, R321) -/

/-- A core with fewer than 16 pours has a free slot. -/
theorem pour?_freeSlot {s : State} {core : Nat} (h : slotsTaken s core < 16) : s.pour? core (freeSlot s core) = none := by
  unfold freeSlot
  cases hf : (List.range 16).find? fun i => (s.pour? core i).isNone with
  | some i => simpa using List.find?_some hf
  | none =>
    exfalso
    have hall : List.range 16 ⊆ (s.pours.filter fun p => p.core = core).map (·.slot) := by
      intro i hi
      have hne : s.pour? core i ≠ none := by simpa using List.find?_eq_none.1 hf i hi
      obtain ⟨p, hp⟩ := Option.ne_none_iff_exists'.1 hne
      have hcore : p.core = core ∧ p.slot = i := by simpa using List.find?_some hp
      exact List.mem_map.2 ⟨p, List.mem_filter.2 ⟨List.mem_of_find?_eq_some hp, by simp [hcore.1]⟩, hcore.2⟩
    have hle := (List.subperm_of_subset List.nodup_range hall).length_le
    rw [List.length_range, List.length_map, ← List.countP_eq_length_filter] at hle
    exact absurd h (by simpa [slotsTaken] using hle)

theorem coreOpen_of_bestCore {s : State} {cs : List Nat} {c : Nat} (h : bestCore s cs = some c) : coreOpen s c = true :=
  (List.mem_filter.1 (mem_of_minBy h)).2

theorem coreOpen_of_pourCore {s : State} {l : Launch} {cluster c : Nat} {pin : Option Nat}
    (h : pourCore s l cluster pin = some c) : coreOpen s c = true := by
  unfold pourCore at h
  split at h
  · split at h
    next hc =>
      cases h
      exact hc.1
    · cases h
  · split at h
    · cases h
    next c' hbest =>
      split at h
      · cases h
        exact coreOpen_of_bestCore hbest
      · exact coreOpen_of_bestCore h

theorem slotsTaken_of_coreOpen {s : State} {c : Nat} (h : coreOpen s c = true) : slotsTaken s c < 16 := by
  simp only [coreOpen, Bool.and_eq_true, decide_eq_true_eq] at h
  exact h.1

/-! ### Queued records (R59) -/

/-- A record does not enter a ladle with another. -/
theorem not_queued_enterLadle {s : State} {tid n : Nat} (hn : n ≠ tid) (h : ¬Queued s n) : ¬Queued (enterLadle s tid) n := by
  have hins (l : List (Nat × Nat)) (k : Nat) : (n, k) ∈ insertMember s (tid, s.time) l → (n, k) ∈ l := by
    induction l with
    | nil =>
      intro hm
      rw [insertMember, List.mem_singleton, Prod.mk.injEq] at hm
      exact absurd hm.1 hn
    | cons y ys ih =>
      unfold insertMember
      dsimp only
      split
      · intro hm
        obtain hm | hm := List.mem_cons.1 hm
        · exact absurd (congrArg Prod.fst hm) hn
        · exact hm
      · intro hm
        obtain rfl | hm := List.mem_cons.1 hm
        · exact List.mem_cons_self ..
        · exact List.mem_cons_of_mem _ (ih hm)
  unfold enterLadle
  split
  next r t _ _ =>
    split
    · exact h
    · dsimp only
      split
      · rintro (⟨l, hl, k, hk⟩ | hc)
        · obtain ⟨y, hy, rfl⟩ := mem_updL.1 hl
          split at hk
          · exact h (.inl ⟨y, hy, k, hins _ _ hk⟩)
          · exact h (.inl ⟨y, hy, k, hk⟩)
        · exact h (.inr hc)
      · split
        · rintro (⟨l, hl, k, hk⟩ | hc)
          · obtain hl | hl := List.mem_append.1 hl
            · exact h (.inl ⟨l, hl, k, hk⟩)
            · rw [List.mem_singleton] at hl
              subst hl
              rw [List.mem_singleton, Prod.mk.injEq] at hk
              exact hn hk.1
          · exact h (.inr hc)
        · rintro (hl | ⟨c, hc⟩)
          · exact h (.inl hl)
          · obtain hc | hc := List.mem_append.1 hc
            · exact h (.inr ⟨c, hc⟩)
            · rw [List.mem_singleton, Prod.mk.injEq] at hc
              exact hn hc.2
  · exact h

/-- A record that waits in no list enters no ladle as the lists are served. -/
theorem not_queued_serveEntryLists {s : State} {n : Nat} (h : ¬Queued s n) : ¬Queued (serveEntryLists s) n := by
  unfold serveEntryLists
  refine List.foldlRecOn (motive := fun v => ¬Queued v n) _ _ h fun v hv x hx => ?_
  have hn : n ≠ x.2 := fun hc => h (.inr ⟨x.1, by rw [hc]; exact hx⟩)
  refine not_queued_enterLadle hn fun hq => hv ?_
  obtain hl | ⟨c, hc⟩ := hq
  · exact .inl hl
  · exact .inr ⟨c, List.mem_of_mem_filter hc⟩

/-- A record that leaves its ladle is queued no longer. -/
theorem not_queued_leaveLadle_self (s : State) (tid : Nat) : ¬Queued (leaveLadle s tid) tid := by
  rintro (⟨l, hl, k, hk⟩ | ⟨c, hc⟩)
  · obtain ⟨y, -, rfl⟩ := List.mem_map.1 (List.mem_of_mem_filter hl)
    simpa using (List.mem_filter.1 hk).2
  · simpa using (List.mem_filter.1 hc).2

theorem not_queued_leaveLadle {s : State} {n : Nat} (tid : Nat) (h : ¬Queued s n) : ¬Queued (leaveLadle s tid) n := by
  rintro (⟨l, hl, k, hk⟩ | ⟨c, hc⟩)
  · obtain ⟨y, hy, rfl⟩ := List.mem_map.1 (List.mem_of_mem_filter hl)
    exact h (.inl ⟨y, hy, k, List.mem_of_mem_filter hk⟩)
  · exact h (.inr ⟨c, List.mem_of_mem_filter hc⟩)

/-- A record that is queued stays so while others enter ladles. -/
theorem queued_enterLadle_mono {s : State} {n : Nat} (tid : Nat) (h : Queued s n) : Queued (enterLadle s tid) n := by
  have hins (x : Nat × Nat) (l : List (Nat × Nat)) : ∀ y ∈ l, y ∈ insertMember s x l := by
    induction l with
    | nil => simp
    | cons z zs ih =>
      intro y hy
      unfold insertMember
      dsimp only
      split
      · exact List.mem_cons_of_mem _ hy
      · obtain rfl | hy := List.mem_cons.1 hy
        · exact List.mem_cons_self ..
        · exact List.mem_cons_of_mem _ (ih y hy)
  unfold enterLadle
  split
  next r t _ _ =>
    split
    · exact h
    · dsimp only
      split
      next l _ =>
        obtain ⟨y, hy, k, hk⟩ | hc := h
        · refine .inl ⟨_, mem_updL.2 ⟨y, hy, rfl⟩, k, ?_⟩
          split
          · exact hins _ _ _ hk
          · exact hk
        · exact .inr hc
      · split
        · obtain ⟨y, hy, hk⟩ | hc := h
          · exact .inl ⟨y, List.mem_append_left _ hy, hk⟩
          · exact .inr hc
        · obtain hl | ⟨c, hc⟩ := h
          · exact .inl hl
          · exact .inr ⟨c, List.mem_append_left _ hc⟩
  · exact h

/-! ### Records taken out of their ladles (R66, R301) -/

/-- Records of a list leave their ladles and change by `f`. -/
def pullRecs (f : Rec → Rec) (s : State) (rs : List Rec) : State :=
  rs.foldl (fun t r => (leaveLadle t r.tid).updRec r.tid f) s

theorem onlyWakes_pullRecs (f : Rec → Rec) (s : State) (rs : List Rec) : OnlyWakes s (pullRecs f s rs) :=
  List.foldlRecOn (motive := OnlyWakes s) rs _ (.refl s) fun _ h _ _ => h.trans ⟨_, _, _, _, rfl⟩

theorem rec?_updRec_any (s : State) (tid n : Nat) {f : Rec → Rec} (hf : ∀ r, (f r).tid = r.tid) :
    (s.updRec tid f).rec? n = (s.rec? n).map fun r => if n = tid then f r else r := by
  by_cases hn : n = tid
  · subst hn
    simp [rec?_updRec s n hf]
  · rw [State.rec?, State.updRec, State.find?_updL_other]
    · simp [hn]
      rfl
    · intro x hx
      simp only [decide_eq_true_eq] at hx
      simpa [hx] using fun h : tid = n => hn h.symm
    · intro x hx
      simp only [decide_eq_true_eq] at hx
      simpa [hf, hx] using fun h : tid = n => hn h.symm

section
variable {f : Rec → Rec} (hf : ∀ r, (f r).tid = r.tid) (hff : ∀ r, f (f r) = f r)
include hf hff


theorem pullRecs_spec (rs : List Rec) (s : State) (n : Nat) :
    (pullRecs f s rs).rec? n = (s.rec? n).map (fun r => if n ∈ rs.map (·.tid) then f r else r) ∧
    (n ∈ rs.map (·.tid) ∨ ¬Queued s n → ¬Queued (pullRecs f s rs) n) := by
  induction rs generalizing s with
  | nil => simp [pullRecs]
  | cons x rs ih =>
    obtain ⟨hrec, hq⟩ := ih ((leaveLadle s x.tid).updRec x.tid f)
    have hstep : ((leaveLadle s x.tid).updRec x.tid f).rec? n = (s.rec? n).map fun r => if n = x.tid then f r else r :=
      rec?_updRec_any (leaveLadle s x.tid) x.tid n hf
    have hqstep (h : n = x.tid ∨ ¬Queued s n) : ¬Queued ((leaveLadle s x.tid).updRec x.tid f) n := by
      obtain rfl | h := h
      · exact not_queued_leaveLadle_self s x.tid
      · exact not_queued_leaveLadle x.tid h
    refine ⟨?_, fun h => hq ?_⟩
    · rw [show pullRecs f s (x :: rs) = pullRecs f ((leaveLadle s x.tid).updRec x.tid f) rs from rfl, hrec, hstep, Option.map_map]
      congr 1
      funext r
      by_cases h1 : n = x.tid <;> by_cases h2 : n ∈ rs.map (·.tid) <;> simp [h1, h2, hff]
    · by_cases h1 : n = x.tid
      · exact .inr (hqstep (.inl h1))
      · obtain h | h := h
        · rw [List.map_cons, List.mem_cons] at h
          exact .inl (h.resolve_left h1)
        · exact .inr (hqstep (.inr h))

/-- Records that are taken out are as `f` makes them, and are queued no longer. -/
theorem pulled_spec {s : State} {rs : List Rec} {x : Rec} (hx : x ∈ rs) (hr : s.rec? x.tid = some x) :
    (serveEntryLists (pullRecs f s rs)).rec? x.tid = some (f x) ∧ ¬Queued (serveEntryLists (pullRecs f s rs)) x.tid := by
  obtain ⟨hrec, hq⟩ := pullRecs_spec hf hff rs s x.tid
  have hmem : x.tid ∈ rs.map (·.tid) := List.mem_map.2 ⟨x, hx, rfl⟩
  refine ⟨?_, not_queued_serveEntryLists (hq (.inl hmem))⟩
  rw [hr, Option.map_some, if_pos hmem] at hrec
  rw [← hrec]
  exact List.foldlRecOn (motive := fun v : State => v.rec? x.tid = (pullRecs f s rs).rec? x.tid) _ _ rfl fun v hv y _ =>
    (enterLadle_rec? ..).trans hv

end

/-! ### `SCHEDULER_FORWARD` (R66) -/

theorem sendRecs_eq (s : State) (rs : List Rec) (cluster : Nat) : sendRecs s rs cluster =
    serveEntryLists (pullRecs (fun r => { r with transit := some cluster, convoy := s.nextId }) s.bumpId rs) := rfl

theorem mem_travelWith {s : State} {r x : Rec} (hr : r ∈ s.recs)
    (hx : x = r ∨ (r.annex ≠ 0 ∧ x ∈ s.recs ∧ x.part = r.part ∧ x.annex = r.annex)) : x ∈ travelWith s r := by
  unfold travelWith
  split
  next h0 => simpa [h0] using hx
  · obtain rfl | ⟨-, hm, hp, ha⟩ := hx
    · simp [hr]
    · simp [hm, hp, ha]

theorem happens_schedulerForward {s : State} {tid cluster : Nat} {r : Rec} (hr : s.rec? tid = some r)
    (hmay : mayForward s r cluster = true) : Happens (.schedulerForward tid cluster) s fun t =>
      t = { s with nextId := t.nextId, recs := t.recs, ladles := t.ladles, entryLists := t.entryLists } ∧
      ∀ x, (x = r ∨ (r.annex ≠ 0 ∧ x ∈ s.recs ∧ x.part = r.part ∧ x.annex = r.annex)) → s.rec? x.tid = some x →
        t.rec? x.tid = some { x with transit := some cluster, convoy := s.nextId } ∧ ¬Queued t x.tid := by
  have hexec : exec (.schedulerForward tid cluster) s = .next (sendRecs s (travelWith s r) cluster) := by
    change execSchedulerForward tid cluster s = _
    simp only [execSchedulerForward, hr, hmay, if_true]
  refine ⟨_, hexec, ?_, fun x hx hrx => ?_⟩
  · have hw : OnlyWakes s (sendRecs s (travelWith s r) cluster) := by
      rw [sendRecs_eq]
      exact (OnlyWakes.trans ⟨_, _, _, _, rfl⟩ (onlyWakes_pullRecs _ s.bumpId _)).trans (onlyWakes_serveEntryLists _)
    obtain ⟨_, _, _, _, h⟩ := hw
    rw [h]
  · rw [sendRecs_eq]
    exact pulled_spec (f := fun r => { r with transit := some cluster, convoy := s.nextId }) (s := s.bumpId) (fun _ => rfl)
      (fun _ => rfl) (mem_travelWith (List.mem_of_find?_eq_some hr) hx) hrx

/-! ### Wakes that leave a record what it is (R55) -/

/-- Of the record of thread `n` nothing changes but that its wake may fire; it stays queued. -/
def Woken (n : Nat) (s t : State) : Prop :=
  (∀ r, s.rec? n = some r → ∃ r', t.rec? n = some r' ∧ r' = { r with fired := r'.fired, status := r'.status } ∧
    (r.fired.isSome = true → r' = r)) ∧ (Queued s n → Queued t n)

namespace Woken
variable {n : Nat} {s t u : State}

theorem refl (n : Nat) (s : State) : Woken n s s := ⟨fun r hr => ⟨r, hr, rfl, fun _ => rfl⟩, id⟩

theorem trans (h : Woken n s t) (h' : Woken n t u) : Woken n s u := by
  refine ⟨fun r hr => ?_, fun hq => h'.2 (h.2 hq)⟩
  obtain ⟨r', hr', heq, hf⟩ := h.1 r hr
  obtain ⟨r'', hr'', heq', hf'⟩ := h'.1 r' hr'
  refine ⟨r'', hr'', by rw [heq', heq], fun hfired => ?_⟩
  have hsame := hf hfired
  rw [hf' (by rw [hsame]; exact hfired), hsame]

theorem foldl {α : Type} {f : State → α → State} (hf : ∀ s x, Woken n s (f s x)) (l : List α) (s : State) :
    Woken n s (l.foldl f s) := List.foldlRecOn (motive := Woken n s) l f (refl n s) fun _ h x _ => h.trans (hf _ x)

end Woken

theorem woken_enterLadle (n : Nat) (s : State) (tid : Nat) : Woken n s (enterLadle s tid) :=
  ⟨fun r hr => ⟨r, (enterLadle_rec? ..).trans hr, rfl, fun _ => rfl⟩, queued_enterLadle_mono tid⟩

theorem woken_fireWake (n : Nat) (s : State) (tid status : Nat) : Woken n s (fireWake s tid status) := by
  unfold fireWake
  split
  · exact .refl n s
  next x hx =>
    split
    · exact .refl n s
    next hnot =>
      refine Woken.trans ?_ (woken_enterLadle n _ tid)
      refine ⟨fun r hr => ?_, id⟩
      rw [rec?_updRec_any _ _ _ (by intro; rfl), hr]
      refine ⟨_, rfl, ?_, fun hfired => if_neg ?_⟩
      · dsimp only
        split <;> rfl
      · rintro rfl
        rw [hx, Option.some.injEq] at hr
        exact hnot (hr ▸ hfired)

theorem woken_checkWake (n : Nat) (s : State) (tid : Nat) : Woken n s (checkWake s tid) := by
  unfold checkWake
  split
  · exact .refl n s
  · split
    · exact woken_fireWake ..
    · exact .refl n s

theorem woken_settleMove (n : Nat) (s : State) (part : Nat) : Woken n s (settleMove s part) := by
  unfold settleMove
  split
  · exact .refl n s
  · split
    · refine Woken.trans ?_ (Woken.foldl (fun s x => woken_checkWake n s x) _ _)
      exact ⟨fun r hr => ⟨r, hr, rfl, fun _ => rfl⟩, id⟩
    · exact .refl n s

/-! ### `RECORD_ARRIVAL` (R66) -/

/-- Records that have arrived enter ladles, or their wakes are looked at. -/
def greet (s : State) (x : Rec) : State := if x.fired.isSome then enterLadle s x.tid else checkWake s x.tid

theorem woken_greet (n : Nat) (s : State) (x : Rec) : Woken n s (greet s x) := by
  unfold greet
  split
  · exact woken_enterLadle ..
  · exact woken_checkWake ..

theorem onlyWakes_greet (s : State) (x : Rec) : OnlyWakes s (greet s x) := by
  unfold greet
  split
  · exact onlyWakes_enterLadle ..
  · exact onlyWakes_checkWake ..

/-- The record stands at its cluster. -/
def landed (cluster : Nat) (r : Rec) : Rec := { r with transit := none, convoy := 0, cluster }

/-- The records that travel with one. -/
def convoyOf (s : State) (r : Rec) (c : Nat) : List Rec :=
  s.recs.filter fun x => x.part = r.part && x.transit = some c && (x.tid = r.tid || (r.convoy ≠ 0 && x.convoy = r.convoy))

theorem resumeLoops_of_none {s : State} (part vf : Nat) (h : ∀ o ∈ s.tileOps, o.stopped = false) : resumeLoops s part vf = s := by
  have hany (r : Rec) : (s.tileOps.any fun o => o.issuer = r.tid && o.kind = .mmal && o.stopped) = false := by
    simp only [List.any_eq_false]
    intro o ho
    simp [h o ho]
  unfold resumeLoops
  simp [hany]

/-- Records land one after another. -/
theorem foldl_landed_spec (c n : Nat) (rs : List Rec) (s : State) :
    OnlyWakes s (rs.foldl (fun s x => s.updRec x.tid (landed c)) s) ∧
    (rs.foldl (fun s x => s.updRec x.tid (landed c)) s).rec? n =
      (s.rec? n).map fun r => if n ∈ rs.map (·.tid) then landed c r else r := by
  induction rs generalizing s with
  | nil => exact ⟨.refl s, by simp⟩
  | cons x rs ih =>
    obtain ⟨hw, hrec⟩ := ih (s.updRec x.tid (landed c))
    refine ⟨OnlyWakes.trans ⟨_, _, _, _, rfl⟩ hw, ?_⟩
    rw [List.foldl_cons, hrec, rec?_updRec_any _ _ _ (by intro; rfl), Option.map_map]
    congr 1
    funext r
    by_cases h1 : n = x.tid <;> by_cases h2 : n ∈ rs.map (·.tid) <;> simp [h1, h2, landed]

/-- A record that is neither held nor on its way and whose wake has fired is queued once it has been greeted. -/
theorem queued_foldl_greet {x r : Rec} {rs : List Rec} {s : State} (hx : x ∈ rs) (hfired : x.fired.isSome = true)
    (hr : s.rec? x.tid = some r) (hrf : r.fired.isSome = true) (hheld : r.held = false) (htransit : r.transit = none)
    (ht : (s.thread? x.tid).isSome = true) : Queued (rs.foldl greet s) x.tid := by
  induction rs generalizing s with
  | nil => exact absurd hx List.not_mem_nil
  | cons y rs ih =>
    obtain ⟨r', hr', -, hsame⟩ := (woken_greet x.tid s y).1 r hr
    have hr'' : (greet s y).rec? x.tid = some r := by rw [hr', hsame hrf]
    have ht' : ((greet s y).thread? x.tid).isSome = true := by rwa [(onlyWakes_greet s y).inPool.thread?]
    obtain rfl | hx := List.mem_cons.1 hx
    · refine (Woken.foldl (fun s z => woken_greet x.tid s z) rs _).2 ?_
      rw [greet, if_pos hfired]
      exact queued_enterLadle hr ht hheld htransit
    · exact ih hx hr'' ht'

theorem happens_recordArrival {s : State} {tid c : Nat} {r : Rec} (hr : s.rec? tid = some r) (htr : r.transit = some c)
    (hc : c < 256) (hloops : ∀ o ∈ s.tileOps, o.stopped = false) : Happens (.recordArrival tid) s fun t =>
      t.mem = s.mem ∧ t.threads = s.threads ∧
      ∃ r', t.rec? tid = some r' ∧ r' = { r with transit := none, convoy := 0, cluster := c, fired := r'.fired, status := r'.status } ∧
        (r.fired.isSome = true → r'.fired = r.fired ∧
          (r.held = false → (s.thread? tid).isSome = true → Queued t tid)) := by
  have htid := rec?_tid hr
  set v := (convoyOf s r c).foldl (fun s x => s.updRec x.tid (landed c)) s with hv
  set w := (convoyOf s r c).foldl greet v with hw
  obtain ⟨hland, hrec⟩ := foldl_landed_spec c tid (convoyOf s r c) s
  have hgreet : OnlyWakes v w := onlyWakes_foldl (fun s x => onlyWakes_greet s x) _ v
  have hvw := hland.trans hgreet
  have hmine : r ∈ convoyOf s r c := List.mem_filter.2 ⟨List.mem_of_find?_eq_some hr, by simp [htr]⟩
  have hin : tid ∈ (convoyOf s r c).map (·.tid) := List.mem_map.2 ⟨r, hmine, htid⟩
  rw [hr, Option.map_some, if_pos hin, ← hv] at hrec
  have hloops' (part vf : Nat) : resumeLoops w part vf = w := by
    refine resumeLoops_of_none part vf ?_
    obtain ⟨_, _, _, _, h⟩ := hvw
    rw [h]
    exact hloops
  have hexec : exec (.recordArrival tid) s = .next (settleMove w r.part) := by
    change execRecordArrival tid s = _
    have harr : arrives r = true := by simp [arrives, htr, hc]
    have hget : r.transit.getD 0 = c := by simp [htr]
    simp only [execRecordArrival, hr, harr, if_true, hget]
    have : arriveRecs s r c = settleMove (match w.part? r.part with
        | some p => if p.halts p.sliceVf then w else resumeLoops w p.first p.sliceVf
        | none => w) r.part := rfl
    rw [this]
    split
    · simp [hloops']
    · rfl
  have hsettle := woken_settleMove tid w r.part
  have hwoken : Woken tid v (settleMove w r.part) := (Woken.foldl (fun s x => woken_greet tid s x) _ v).trans hsettle
  obtain ⟨r', hr', heq, hfired⟩ := hwoken.1 _ hrec
  obtain ⟨ps, hps⟩ := settleMove_eq w r.part
  refine ⟨_, hexec, hps.mem.trans hvw.mem, hps.threads.trans hvw.threads, r', hr', by rw [heq]; rfl, fun hf => ?_⟩
  refine ⟨by rw [hfired hf]; rfl, fun hheld ht => hsettle.2 ?_⟩
  rw [← htid] at hrec ht ⊢
  exact queued_foldl_greet hmine hf hrec hf hheld rfl (by rwa [hland.inPool.thread?])

/-! ### `RECHOLD` (R58, R301) -/

/-- What a read of `RECHOLD` gives after a write. -/
def holdReg (hold st : Nat) (ref : BitVec 32) (p : Part) : Part :=
  { p with rechold := BitVec.ofNat 64 (hold * 2 ^ 63 + st * 2 ^ 32 + ref.toNat) }

theorem rechold_eq (s : State) (part : Nat) (hold : Bool) (ref : BitVec 32) : rechold s part hold ref.toNat =
    (if holdStatus s part ref.toNat ≠ 0 then s
      else if hold then holdRecs s (recsOfRef s part ref.toNat) else releaseRecs s (recsOfRef s part ref.toNat)).updPart part
        (holdReg (boolBit hold) (holdStatus s part ref.toNat) ref) := by
  simp only [rechold, Nat.mod_eq_of_lt ref.isLt]
  rfl

theorem withRechold_first (p : Part) (x : DWord) : ({ p with rechold := x } : Part).first = p.first := rfl

/-- (By way of any word: the kernel would evaluate that of `holdReg`.) -/
theorem holdReg_first (hold st : Nat) (ref : BitVec 32) (p : Part) : (holdReg hold st ref p).first = p.first :=
  withRechold_first p _

theorem part?_rechold {s v : State} {part : Nat} {p : Part} (hp : s.part? part = some p) (hv : v.parts = s.parts)
    (hold st : Nat) (ref : BitVec 32) : (v.updPart part (holdReg hold st ref)).part? part = some (holdReg hold st ref p) := by
  have hvp : v.part? part = some p := by rw [State.part?, hv]; exact hp
  rw [State.part?_updPart _ _ _ (holdReg_first hold st ref), hvp, Option.map_some]

theorem holdStatus_of_free {s : State} {part ref : Nat} {r : Rec} (h : recsOfRef s part ref = [r]) (ht : r.transit = none) :
    holdStatus s part ref = 0 := by
  simp [holdStatus, h, ht]

section
variable {s : State} {part : Nat} {ref : BitVec 32} {p : Part} (hp : s.part? part = some p)
include hp

theorem happens_rechold_refused (hold : Bool) (hst : holdStatus s part ref.toNat ≠ 0) :
    let t := rechold s part hold ref.toNat
    t = { s with parts := t.parts } ∧ t.part? part = some (holdReg (boolBit hold) (holdStatus s part ref.toNat) ref p) := by
  rw [rechold_eq, if_pos hst]
  exact ⟨rfl, part?_rechold hp rfl ..⟩

variable {r : Rec} (hone : recsOfRef s part ref.toNat = [r]) (hr : s.rec? r.tid = some r) (ht : r.transit = none)
include hone hr ht

theorem happens_recholdHold : Happens (.recholdHold part ref) s fun t =>
    t.part? part = some (holdReg 1 (holdStatus s part ref.toNat) ref p) ∧ t.mem = s.mem ∧
      t.rec? r.tid = some { r with held := true } ∧ ¬Queued t r.tid := by
  have h0 := holdStatus_of_free hone ht
  have hexec : exec (.recholdHold part ref) s =
      .next ((serveEntryLists (pullRecs (fun r => { r with held := true }) s [r])).updPart part (holdReg 1 0 ref)) := by
    change execRecholdHold part ref s = _
    rw [execRecholdHold, rechold_eq, h0, hone]
    rfl
  have hw : OnlyWakes s (serveEntryLists (pullRecs (fun r => { r with held := true }) s [r])) :=
    (onlyWakes_pullRecs _ s _).trans (onlyWakes_serveEntryLists _)
  obtain ⟨hrec, hq⟩ := pulled_spec (f := fun r => { r with held := true }) (fun _ => rfl) (fun _ => rfl)
    (List.mem_singleton.2 (rfl : r = r)) hr
  refine ⟨_, hexec, ?_, hw.mem, hrec, hq⟩
  rw [h0]
  refine part?_rechold hp ?_ ..
  obtain ⟨_, _, _, _, h⟩ := hw
  rw [h]

end

/-! ### What a read of a record gives (R58) -/

/-- The first piece of a record lies in the low bits of the whole. -/
theorem placeRead_low (s : State) (part ref n : Nat) : placeRead s part ref (n + 1) % 2 ^ 256 = placeRead s part ref 1 % 2 ^ 256 := by
  induction n with
  | zero => rfl
  | succ n ih =>
    rw [placeRead, show 256 * (n + 1) = 256 + 256 * n from by omega, Nat.pow_add, Nat.mul_left_comm, Nat.add_mul_mod_self_left]
    exact ih

/-- Low bits of a number are those of its low part. -/
theorem shiftRight_mod_congr {a b : Nat} {hi lo : Nat} (h : a % 2 ^ 256 = b % 2 ^ 256) (hhi : hi + lo ≤ 256) :
    a / 2 ^ lo % 2 ^ hi = b / 2 ^ lo % 2 ^ hi := by
  have key (x : Nat) : x / 2 ^ lo % 2 ^ hi = x % 2 ^ 256 / 2 ^ lo % 2 ^ hi := by
    rw [show 256 = lo + (256 - lo) from by omega, Nat.pow_add, Nat.mod_mul_right_div_self, Nat.mod_mod_of_dvd]
    exact Nat.pow_dvd_pow 2 (by omega)
  rw [key a, key b, h]

/-- The record of a thread as it is read back. -/
theorem loadRec_rec? {s : State} {tid : Nat} {r : Rec} (hr : s.rec? tid = some r) (ht : (s.thread? tid).isSome = true) :
    ∃ k w m b, (loadRec s tid).rec? tid = some { r with
      resume := BitVec.ofNat 32 (placeRead s r.part r.ref 1), prio := BitVec.ofNat 4 (placeRead s r.part r.ref 1 / 2 ^ 96),
      key := k, wtype := w, livemask := m, tile := b } := by
  obtain ⟨u, hu⟩ := Option.isSome_iff_exists.1 ht
  have hlow := placeRead_low s r.part r.ref 11
  have hresume : BitVec.ofNat 32 (bitsN (placeRead s r.part r.ref 12) 31 0) = BitVec.ofNat 32 (placeRead s r.part r.ref 1) := by
    have := shiftRight_mod_congr (hi := 32) (lo := 0) hlow (by omega)
    simp only [Nat.pow_zero, Nat.div_one] at this
    apply BitVec.eq_of_toNat_eq
    simpa [bitsN, Nat.mod_mod] using this
  have hprio : BitVec.ofNat 4 (bitsN (placeRead s r.part r.ref 12) 99 96) = BitVec.ofNat 4 (placeRead s r.part r.ref 1 / 2 ^ 96) := by
    have := shiftRight_mod_congr (hi := 4) (lo := 96) hlow (by omega)
    apply BitVec.eq_of_toNat_eq
    simpa [bitsN, Nat.shiftRight_eq_div_pow, Nat.mod_mod] using this
  simp only [loadRec, hr, hu]
  obtain ⟨_, hb⟩ := updBoth_eq _ _ _
  rw [hb, ← hresume, ← hprio]
  have htouch := (atHome_placeTouch s r.part r.ref).rec? tid
  rw [hr] at htouch
  exact ⟨_, _, _, _, (rec?_updRec (placeTouch s r.part r.ref) tid (by intro; rfl)).trans (congrArg (Option.map _) htouch)⟩

section
variable {s : State} {part : Nat} {ref : BitVec 32} {p : Part} {r : Rec} (hp : s.part? part = some p)
  (hone : recsOfRef s part ref.toNat = [r]) (hr : s.rec? r.tid = some r) (ht : r.transit = none)
include hp hone hr ht

theorem happens_recholdRelease (hpart : r.part = part) (hheld : r.held = true) (hannex : r.annex = 0)
    (hth : (s.thread? r.tid).isSome = true) : Happens (.recholdRelease part ref) s fun t =>
      t.part? part = some (holdReg 0 (holdStatus s part ref.toNat) ref p) ∧
      (∃ r', t.rec? r.tid = some r' ∧ r'.held = false ∧ r'.resume = BitVec.ofNat 32 (placeRead s part r.ref 1) ∧
        r'.prio = BitVec.ofNat 4 (placeRead s part r.ref 1 / 2 ^ 96)) ∧ (r.fired.isSome = true → Queued t r.tid) := by
  subst hpart
  have h0 := holdStatus_of_free hone ht
  have hexec : exec (.recholdRelease r.part ref) s =
      .next ((greet ((loadRec s r.tid).updRec r.tid fun r => { r with held := false }) r).updPart r.part (holdReg 0 0 ref)) := by
    change execRecholdRelease r.part ref s = _
    rw [execRecholdRelease, rechold_eq, h0, hone]
    simp only [ne_eq, not_true_eq_false, if_false, Bool.false_eq_true, releaseRecs, List.foldl_cons, List.foldl_nil, hheld,
      Bool.not_true, hannex, if_true]
    rfl
  obtain ⟨k, w, m, b, hload⟩ := loadRec_rec? hr hth
  have hrec := rec?_updRec (loadRec s r.tid) r.tid (f := fun r => { r with held := false }) (by intro; rfl)
  rw [hload, Option.map_some] at hrec
  have hth' : (((loadRec s r.tid).updRec r.tid fun r => { r with held := false }).thread? r.tid).isSome = true :=
    (loadRec_spec s r.tid).2 r.tid hth
  have hgreet := onlyWakes_greet ((loadRec s r.tid).updRec r.tid fun r => { r with held := false }) r
  refine ⟨_, hexec, ?_, ?_, fun hfired => ?_⟩
  · rw [h0]
    refine part?_rechold hp ?_ ..
    have hparts : (loadRec s r.tid).parts = s.parts := by
      obtain ⟨_, _, _, _, _, _, _, _, _, _, _, _, h⟩ := (loadRec_spec s r.tid).1
      rw [h]
    obtain ⟨_, _, _, _, h⟩ := hgreet
    rw [h]
    exact hparts
  · obtain ⟨r', hr', heq, -⟩ := (woken_greet r.tid _ r).1 _ hrec
    exact ⟨r', hr', by rw [heq], by rw [heq], by rw [heq]⟩
  · rw [greet, if_pos hfired]
    exact queued_enterLadle hrec hth' rfl ht

end

/-! ### `LADLE_DRAIN` (R60, R61) -/

/-- A record's thread goes back to its lane. -/
def putBack (core slot : Nat) (s : State) (y : Rec × Nat) : State :=
  restoreLoop ((recPoison s y.1.tid).updBoth y.1.tid (resumed core slot y.2 y.1)) y.1

theorem resumed_who (core slot lane : Nat) (r : Rec) (u : Thread) :
    (resumed core slot lane r u).tid = u.tid ∧ (resumed core slot lane r u).twin = u.twin := by
  unfold resumed
  dsimp only
  split <;> exact ⟨rfl, rfl⟩

theorem restoreLoop_eq (s : State) (r : Rec) : ∃ os, restoreLoop s r = { s with tileOps := os } := by
  unfold restoreLoop
  split <;> exact ⟨_, rfl⟩

/-- Only threads and the loops of records that go back change. -/
def BackOnly (s t : State) : Prop := ∃ th os, t = { s with threads := th, tileOps := os }

theorem BackOnly.trans {s t u : State} (h : BackOnly s t) (h' : BackOnly t u) : BackOnly s u := by
  obtain ⟨_, _, rfl⟩ := h
  obtain ⟨_, _, rfl⟩ := h'
  exact ⟨_, _, rfl⟩

theorem backOnly_putBack (core slot : Nat) (s : State) (y : Rec × Nat) : BackOnly s (putBack core slot s y) := by
  obtain ⟨th, hp⟩ := recPoison_eq s y.1.tid
  obtain ⟨th', hb⟩ := updBoth_eq (recPoison s y.1.tid) y.1.tid (resumed core slot y.2 y.1)
  obtain ⟨os, hl⟩ := restoreLoop_eq ((recPoison s y.1.tid).updBoth y.1.tid (resumed core slot y.2 y.1)) y.1
  exact ⟨th', os, by rw [putBack, hl, hb, hp]⟩

theorem thread?_recPoison_other {s : State} {tid n : Nat} (h : n ≠ tid) : (recPoison s tid).thread? n = s.thread? n := by
  unfold recPoison
  split
  · rfl
  · split
    · dsimp only
      exact State.thread?_updThread_other _ _ _ _ (by intro; rfl) h
    · rfl

theorem updBoth_single {s : State} {tid : Nat} {u : Thread} (f : Thread → Thread) (hu : s.thread? tid = some u)
    (htwin : u.twin = 0) : s.updBoth tid f = s.updThread tid f := by
  simp only [State.updBoth, hu, htwin, if_true]

/-- What going back to its lane makes of a thread without a shadow, and leaves of the others. -/
theorem thread?_putBack {core slot : Nat} {s : State} {y : Rec × Nat} {u : Thread} (hu : s.thread? y.1.tid = some u)
    (htwin : u.twin = 0) : (∀ n, n ≠ y.1.tid → (putBack core slot s y).thread? n = s.thread? n) ∧
      ∃ u', Marked (s.poisoned = []) u u' ∧ (putBack core slot s y).thread? y.1.tid = some (resumed core slot y.2 y.1 u') := by
  obtain ⟨u', hu', hm⟩ := thread?_recPoison (tid := y.1.tid) hu
  have htwin' : u'.twin = 0 := by
    obtain ⟨m, rfl, -⟩ := hm
    exact htwin
  have hf (x : Thread) := (resumed_who core slot y.2 y.1 x).1
  obtain ⟨os, hl⟩ := restoreLoop_eq ((recPoison s y.1.tid).updBoth y.1.tid (resumed core slot y.2 y.1)) y.1
  have hput (n : Nat) : (putBack core slot s y).thread? n =
      ((recPoison s y.1.tid).updThread y.1.tid (resumed core slot y.2 y.1)).thread? n := by
    rw [putBack, hl, updBoth_single _ hu' htwin']
    rfl
  refine ⟨fun n hn => ?_, u', hm, ?_⟩
  · rw [hput, State.thread?_updThread_other _ _ _ _ hf hn, thread?_recPoison_other hn]
  · rw [hput, State.thread?_updThread _ _ _ hf, hu', Option.map_some]

/-- Records go back one after another, each thread to its lane. -/
theorem foldl_putBack_spec {core slot : Nat} (ys : List (Rec × Nat)) (s : State) (hnodup : (ys.map (·.1.tid)).Nodup)
    (hth : ∀ y ∈ ys, ∃ u, s.thread? y.1.tid = some u ∧ u.twin = 0) :
    BackOnly s (ys.foldl (putBack core slot) s) ∧
    (∀ n, n ∉ ys.map (·.1.tid) → (ys.foldl (putBack core slot) s).thread? n = s.thread? n) ∧
    ∀ y ∈ ys, ∀ u, s.thread? y.1.tid = some u → ∃ u', Marked (s.poisoned = []) u u' ∧
      (ys.foldl (putBack core slot) s).thread? y.1.tid = some (resumed core slot y.2 y.1 u') := by
  induction ys generalizing s with
  | nil => exact ⟨⟨_, _, rfl⟩, fun _ _ => rfl, fun _ h => absurd h List.not_mem_nil⟩
  | cons y ys ih =>
    rw [List.map_cons, List.nodup_cons] at hnodup
    obtain ⟨u, hu, htwin⟩ := hth y (List.mem_cons_self ..)
    obtain ⟨hother, hmine⟩ := thread?_putBack (core := core) (slot := slot) hu htwin
    have hne (z : Rec × Nat) (hz : z ∈ ys) : z.1.tid ≠ y.1.tid := fun h =>
      hnodup.1 (h ▸ List.mem_map.2 ⟨z, hz, rfl⟩)
    have hback := backOnly_putBack core slot s y
    have hpois : (putBack core slot s y).poisoned = s.poisoned := by
      obtain ⟨_, _, h⟩ := hback
      rw [h]
    obtain ⟨hbacks, hothers, hmines⟩ := ih (putBack core slot s y) hnodup.2 fun z hz => by
      rw [hother _ (hne z hz)]
      exact hth z (List.mem_cons_of_mem _ hz)
    rw [List.foldl_cons]
    refine ⟨hback.trans hbacks, fun n hn => ?_, fun z hz v hv => ?_⟩
    · rw [List.map_cons, List.mem_cons, not_or] at hn
      rw [hothers n hn.2, hother n hn.1]
    · obtain rfl | hz := List.mem_cons.1 hz
      · rw [hu, Option.some.injEq] at hv
        subst hv
        obtain ⟨u', hm, hu'⟩ := hmine
        exact ⟨u', hm, (hothers _ hnodup.1).trans hu'⟩
      · rw [← hpois]
        exact hmines z hz v ((hother _ (hne z hz)).trans hv)

/-- The records that a ladle without an annex drains, with their lanes. -/
def drainedOf (s : State) (taken : List (Nat × Nat)) : List (Rec × Nat) := (taken.filterMap fun m => s.rec? m.1).zipIdx

/-- The pour that they make. -/
def drainPour (s : State) (l : Ladle) (core : Nat) (taken : List (Nat × Nat)) : Pour :=
  let rs := taken.filterMap fun m => s.rec? m.1
  { core, slot := freeSlot s core, part := l.part, launch := l.launch,
    entries := [{ pc := l.resume, prio := rs.foldl (fun (m : BitVec 4) r => if m < r.prio then r.prio else m) 0,
                  mask := maskOf ((drainedOf s taken).map (·.2)), buf := l.buf, stall := none, split := none }],
    k := Vector.replicate 12 0, ready := s.time + 1, last := s.time, formed := s.time, fromAnnex := false, readySince := none,
    promoted := false, refs := rs.map (·.ref), poolStalled := none }

/-- The state once a ladle without an annex has drained, before its pour is looked at for splits. -/
def drained (s : State) (l : Ladle) (core : Nat) (taken : List (Nat × Nat)) : State :=
  let gone := (taken.filterMap fun m => s.rec? m.1).map (·.tid)
  let v := (drainedOf s taken).foldl (putBack core (freeSlot s core)) s
  State.updPart { v with
    recs := v.recs.filter (fun r => !gone.contains r.tid)
    annexes := v.annexes.filter (fun _ => true)
    ladles := (v.ladles.map fun y => if y.id = l.id then
      { y with members := y.members.filter (fun m => !(gone.contains m.1)), aged := false } else y).filter fun y => y.members ≠ []
    pours := v.pours ++ [drainPour s l core taken] } l.part fun p => { p with lastPool := v.time }

theorem drainLadle_plain {s : State} {l : Ladle} {x : Launch} {core : Nat} (h : l.annex = 0) : drainLadle s l x core =
    serveEntryLists (splitWhile (drained s l core (l.members.take (pourWidth x))) core (freeSlot s core) 33) := by
  simp only [drainLadle, h, ne_eq, not_true_eq_false, decide_false, if_false, if_true, Bool.false_and, Bool.not_false,
    Prod.mk.eta, List.map_id', Option.toList_none, List.map_nil, List.append_nil]
  rfl

theorem pourWidth_eq (x : Launch) : pourWidth x = if bitN x.bundle 771 = 1 then 16 else 32 := by
  simp [pourWidth, Launch.protected]

/-- The core of a drain is open. -/
theorem coreOpen_of_nextDrain {s : State} {cluster core : Nat} {l : Ladle} (h : nextDrain s cluster = some (l, core)) :
    coreOpen s core = true := by
  obtain ⟨y, -, hy⟩ := List.mem_filterMap.1 (mem_of_minBy h)
  obtain ⟨x, -, hx⟩ := Option.bind_eq_some_iff.1 hy
  obtain ⟨c, hc, hcl⟩ := Option.map_eq_some_iff.1 hx
  rw [Prod.mk.injEq] at hcl
  exact hcl.2 ▸ coreOpen_of_pourCore hc

/-- A record whose thread has one, and no shadow. -/
def Drains (s : State) (m : Nat × Nat) : Prop := ∃ r u, s.rec? m.1 = some r ∧ s.thread? m.1 = some u ∧ u.twin = 0

section
variable {s : State} {taken : List (Nat × Nat)} (hall : ∀ m ∈ taken, Drains s m)
include hall

theorem isSome_rec?_of_drains : ∀ m ∈ taken, (s.rec? m.1).isSome = true := fun m hm => by
  obtain ⟨r, u, hr, -⟩ := hall m hm
  rw [hr]
  rfl

theorem map_tid_drainedOf : (drainedOf s taken).map (·.1.tid) = taken.map (·.1) := by
  have hzip : (drainedOf s taken).map (·.1.tid) = (taken.filterMap fun m => s.rec? m.1).map (·.tid) := by
    conv_rhs => rw [← List.zipIdx_map_fst 0 (taken.filterMap fun m => s.rec? m.1), List.map_map]
    rfl
  rw [hzip]
  have hsome := isSome_rec?_of_drains hall
  clear hall hzip
  induction taken with
  | nil => rfl
  | cons m ms ih =>
    obtain ⟨r, hr⟩ := Option.isSome_iff_exists.1 (hsome m (List.mem_cons_self ..))
    rw [List.filterMap_cons_some (f := fun m : Nat × Nat => s.rec? m.1) hr, List.map_cons, List.map_cons, ih fun x hx => hsome x (List.mem_cons_of_mem _ hx), rec?_tid hr]

theorem length_drained : (taken.filterMap fun m => s.rec? m.1).length = taken.length :=
  List.filterMap_length_eq_length.2 (isSome_rec?_of_drains hall)

theorem mem_drainedOf {i : Nat} {m : Nat × Nat} {r : Rec} (hi : taken[i]? = some m) (hr : s.rec? m.1 = some r) :
    (r, i) ∈ drainedOf s taken := by
  rw [drainedOf, List.mem_zipIdx_iff_getElem?, getElem?_filterMap_of_isSome (isSome_rec?_of_drains hall), hi]
  exact hr

theorem maskOf_drainedOf (i : Nat) (hi : i < 32) : (maskOf ((drainedOf s taken).map (·.2))).getLsbD i = decide (i < taken.length) := by
  rw [getLsbD_maskOf, drainedOf, List.zipIdx_map_snd, length_drained hall]
  simp [hi]

theorem drains_drainedOf : ∀ y ∈ drainedOf s taken, ∃ u, s.thread? y.1.tid = some u ∧ u.twin = 0 := by
  intro y hy
  have hmem : y.1.tid ∈ taken.map (·.1) := map_tid_drainedOf hall ▸ List.mem_map.2 ⟨y, hy, rfl⟩
  obtain ⟨m, hm, htid⟩ := List.mem_map.1 hmem
  obtain ⟨r, u, -, hu, htwin⟩ := hall m hm
  exact ⟨u, htid ▸ hu, htwin⟩

end

theorem serveEntryLists_recs (s : State) : (serveEntryLists s).recs = s.recs :=
  List.foldlRecOn (motive := fun v : State => v.recs = s.recs) _ _ rfl fun _ hv _ _ => (recs_enterLadle ..).trans hv

theorem happens_ladleDrain {s : State} {cluster core : Nat} {l : Ladle} {x : Launch} (hnext : nextDrain s cluster = some (l, core))
    (hx : s.launch? l.part l.launch = some x) (hannex : l.annex = 0) {taken : List (Nat × Nat)}
    (htaken : taken = l.members.take (pourWidth x)) (hnodup : (taken.map (·.1)).Nodup) (hall : ∀ m ∈ taken, Drains s m) :
    Happens (.ladleDrain cluster) s fun t => s.pour? core (freeSlot s core) = none ∧ drainPour s l core taken ∈ t.pours ∧
      ∀ i m r u, taken[i]? = some m → s.rec? m.1 = some r → s.thread? m.1 = some u → t.rec? m.1 = none ∧
        ∃ u', Marked (s.poisoned = []) u u' ∧ t.thread? m.1 = some (resumed core (freeSlot s core) i r u') := by
  have hfree := pour?_freeSlot (slotsTaken_of_coreOpen (coreOpen_of_nextDrain hnext))
  obtain ⟨hback, -, hmine⟩ := foldl_putBack_spec (core := core) (slot := freeSlot s core) (drainedOf s taken) s
    (by rw [map_tid_drainedOf hall]; exact hnodup) (drains_drainedOf hall)
  have hpours : (drained s l core taken).pours = s.pours ++ [drainPour s l core taken] := by
    obtain ⟨_, _, hv⟩ := hback
    simp only [drained, hv, State.updPart_pours]
  have hfew : ∀ p, (drained s l core taken).pour? core (freeSlot s core) = some p → p.entries.length ≤ 8 := by
    intro p hp
    rw [State.pour?, hpours, List.find?_append, show s.pours.find? _ = none from hfree, Option.none_or] at hp
    rw [List.mem_singleton.1 (List.mem_of_find?_eq_some hp)]
    exact (by decide : 1 ≤ 8)
  have hexec : exec (.ladleDrain cluster) s = .next (serveEntryLists (drained s l core taken)) := by
    change execLadleDrain cluster s = _
    simp only [execLadleDrain, hnext, hx]
    rw [drainLadle_plain hannex, ← htaken, splitWhile_few 33 hfew]
  have hserve := (onlyWakes_serveEntryLists (drained s l core taken)).inPool
  refine ⟨_, hexec, hfree, ?_, fun i m r u hi hr hu => ⟨?_, ?_⟩⟩
  · rw [hserve.pours, hpours]
    simp
  · rw [State.rec?, serveEntryLists_recs]
    refine List.find?_eq_none.2 fun y hy hym => ?_
    have hgone : m.1 ∈ (taken.filterMap fun m => s.rec? m.1).map (·.tid) :=
      List.mem_map.2 ⟨r, List.mem_filterMap.2 ⟨m, List.mem_of_getElem? hi, hr⟩, rec?_tid hr⟩
    have hout := (List.mem_filter.1 hy).2
    rw [of_decide_eq_true hym, List.contains_iff_mem.2 hgone] at hout
    exact Bool.false_ne_true hout
  · have htid := rec?_tid hr
    obtain ⟨u', hm, hu'⟩ := hmine (r, i) (mem_drainedOf hall hi hr) u (by rw [htid]; exact hu)
    rw [htid] at hu'
    exact ⟨u', hm, (hserve.thread? _).trans hu'⟩

/-! ### `LADLE_DRAIN_WINDOW` (R60) -/

theorem happens_ladleDrainWindow {s : State} {l : Ladle} (hl : s.ladle? l.id = some l) (hw : windowOver s l = true) :
    Happens (.ladleDrainWindow l.id) s fun t => t = { s with ladles := t.ladles } ∧ t.ladle? l.id = some { l with aged := true } := by
  refine ⟨{ s with ladles := updL (fun x => x.id = l.id) (fun x => { x with aged := true }) s.ladles }, ?_, rfl, ?_⟩
  · change execLadleDrainWindow l.id s = _
    simp only [execLadleDrainWindow, hl, hw, if_true]
  · exact (State.find?_updL (f := fun x : Ladle => { x with aged := true }) (fun _ => rfl) s.ladles).trans
      (congrArg (Option.map _) hl)

end Sys2Proof.Machine

namespace Sys2Proof
open Machine

/-- Settles O49: one lemma for each event, `happens_ladleDrainWindow` to `happens_recholdRelease`. The threads of a drained
ladle go back one after another (`foldl_putBack_spec`); records that leave their ladles stay out of them
(`not_queued_serveEntryLists`). -/
theorem recordsMoved : Obligations.RecordsMoved := by
  unfold Obligations.RecordsMoved
  refine ⟨fun s l hl hw => happens_ladleDrainWindow hl hw, fun s cluster core l x hnext hx hannex => ?_,
    fun s tid cluster r hr hmay => happens_schedulerForward hr hmay,
    fun s tid c r hr htr hc hloops => happens_recordArrival hr htr hc hloops, fun s part ref p hp => ⟨fun hst => ⟨?_, ?_⟩, ?_⟩⟩
  · intro taken hnodup hall
    have htaken : taken = l.members.take (pourWidth x) := by rw [pourWidth_eq]
    obtain ⟨t, ht, hfree, hpour, hmembers⟩ := happens_ladleDrain hnext hx hannex htaken hnodup hall
    refine ⟨t, ht, freeSlot s core, hfree, ⟨_, hpour, rfl, rfl, rfl, rfl, rfl, _, rfl, rfl, rfl, rfl, maskOf_drainedOf hall⟩,
      fun i m r u hi hr hu => ?_⟩
    obtain ⟨hgone, u', ⟨marks, rfl, hclean, -⟩, hu'⟩ := hmembers i m r u hi hr hu
    refine ⟨hgone, marks, hclean, fun hk => ?_, fun hk => ?_⟩
    · simpa [resumed, hk] using hu'
    · simpa [resumed, hk] using hu'
  · exact ⟨_, rfl, happens_rechold_refused hp true hst⟩
  · exact ⟨_, rfl, happens_rechold_refused hp false hst⟩
  · intro r hone hr ht
    exact ⟨happens_recholdHold hp hone hr ht,
      fun hpart hheld hannex hth => happens_recholdRelease hp hone hr ht hpart hheld hannex hth⟩

end Sys2Proof
end

section
/-! PROOF. O51, the slices: engine operations stop and go on, slices end, requests of `PREQ` and `PCTX` begin (R315, R341 to
R345, R349, R350). -/

namespace Sys2Proof.Machine

open Sys2Proof

/-! ### Lists -/

theorem find?_updL_any {α : Type} {p q : α → Bool} {f : α → α} (hp : ∀ x, p (f x) = p x) (l : List α) :
    (updL q f l).find? p = (l.find? p).map fun x => if q x then f x else x := by
  have h : (p ∘ fun x => if q x = true then f x else x) = p := by
    funext x
    simp only [Function.comp]
    split
    · exact hp x
    · rfl
  rw [updL, List.find?_map, h]

theorem part?_updPart_self {s : State} {part : Nat} {p : Part} (hp : s.part? part = some p) (f : Part → Part)
    (hf : ∀ u, (f u).first = u.first) : (s.updPart part f).part? part = some (f p) := by
  rw [State.part?_updPart s part f hf, hp, Option.map_some]

/-! ### Frames of the engines -/

/-- The engine operations change, the threads, the homes, the records and what these wait in. -/
def EnginesRun (s t : State) : Prop :=
  ∃ th c r o, InPool { s with threads := th, copies := c, runners := r, tileOps := o } t

namespace EnginesRun
variable {s t u : State}

theorem refl (s : State) : EnginesRun s s := ⟨_, _, _, _, .refl s⟩

theorem trans (h : EnginesRun s t) (h' : EnginesRun t u) : EnginesRun s u := by
  obtain ⟨_, _, _, _, _, _, _, _, _, _, _, _, _, _, _, rfl⟩ := h
  obtain ⟨_, _, _, _, _, _, _, _, _, _, _, _, _, _, _, rfl⟩ := h'
  exact ⟨_, _, _, _, _, _, _, _, _, _, _, _, _, _, _, rfl⟩

theorem foldl {α : Type} {f : State → α → State} (hf : ∀ s x, EnginesRun s (f s x)) (l : List α) (s : State) :
    EnginesRun s (l.foldl f s) := List.foldlRecOn (motive := EnginesRun s) l f (refl s) fun _ h x _ => h.trans (hf _ x)

theorem parts (h : EnginesRun s t) : t.parts = s.parts := by
  obtain ⟨_, _, _, _, _, _, _, _, _, _, _, _, _, _, _, rfl⟩ := h
  rfl

theorem part? (h : EnginesRun s t) (n : Nat) : t.part? n = s.part? n := congrArg (List.find? _) h.parts

end EnginesRun

theorem Delivers.runs {s t : State} (h : Delivers s t) : EnginesRun s t := by
  obtain ⟨th, h⟩ := h
  exact ⟨th, _, _, _, h⟩

theorem OnlyWakes.runs {s t : State} (h : OnlyWakes s t) : EnginesRun s t := (Delivers.of_inPool h.inPool).runs

theorem Delivers.copies {s t : State} (h : Delivers s t) : t.copies = s.copies := by
  obtain ⟨_, _, _, _, _, _, _, _, _, _, _, _, rfl⟩ := h
  rfl

theorem OnlyWakes.copies {s t : State} (h : OnlyWakes s t) : t.copies = s.copies := (Delivers.of_inPool h.inPool).copies

/-- No loop is at work: nothing is written into a record's tile block. -/
def NoLoops (s : State) : Prop := ∀ o ∈ s.tileOps, o.kind ≠ .mmal

/-! ### Engine operations stop (R341) -/

theorem delivers_noteLoop (s : State) (tid : Nat) : Delivers s (noteLoop s tid) := by
  unfold noteLoop
  split
  · split
    · refine Delivers.trans ?_ (delivers_flushRec _ tid)
      exact (reloadHeld_spec s tid).1.trans (.of_inPool ⟨_, _, _, _, _, _, _, _, _, _, _, rfl⟩)
    · exact .refl s
  · exact .refl s

/-- The operations of the VFs that `f` names are stopped, before the vectors of the loops are written (R241). -/
def halted (s : State) (part : Nat) (f : Nat → Bool) : State :=
  let loop (o : TileOp) : Bool := o.kind = .mmal || o.kind = .mmag || (o.kind = .mma && o.need != 0)
  let live (tid : Option Nat) : Bool := tid.all fun t => (s.thread? t).isSome
  let stops (o : TileOp) : Bool := o.part = part && f (vfOf s part o.launch) && loop o && live (some o.issuer)
  { s with
    copies := updL (fun c => c.part = part && f c.vf && live c.issuer) (fun c => { c with stopped := true }) s.copies,
    runners := updL (fun c => c.part = part && f (vfOf s part c.launch) && live c.issuer) (fun c => { c with stopped := true }) s.runners,
    tileOps := updL stops (fun c => { c with stopped := true }) s.tileOps }

/-- Stopped loops note their vectors in the records of their issuers. -/
def noteLoops (s : State) (os : List TileOp) : State := os.foldl (fun s o => noteLoop s o.issuer) s

theorem delivers_noteLoops (os : List TileOp) (s : State) : Delivers s (noteLoops s os) :=
  List.foldlRecOn (motive := Delivers s) os _ (.refl s) fun _ h o _ => h.trans (delivers_noteLoop _ o.issuer)

theorem stopEngines_eq (s : State) (part : Nat) (f : Nat → Bool) :
    ∃ os, (∀ o ∈ os, o ∈ s.tileOps ∧ o.kind = .mmal) ∧ stopEngines s part f = noteLoops (halted s part f) os := by
  refine ⟨_, fun o ho => ?_, rfl⟩
  obtain ⟨hm, hk⟩ := List.mem_filter.1 ho
  simp only [Bool.and_eq_true, decide_eq_true_eq] at hk
  exact ⟨hm, hk.2⟩

theorem runs_stopEngines (s : State) (part : Nat) (f : Nat → Bool) : EnginesRun s (stopEngines s part f) := by
  obtain ⟨os, -, h⟩ := stopEngines_eq s part f
  rw [h]
  exact EnginesRun.trans ⟨_, _, _, _, .refl _⟩ (delivers_noteLoops os _).runs

/-- Without a loop no byte of memory and no thread changes. -/
theorem stopEngines_of_noLoops {s : State} (part : Nat) (f : Nat → Bool) (h : NoLoops s) :
    (stopEngines s part f).mem = s.mem ∧ (stopEngines s part f).threads = s.threads := by
  obtain ⟨os, hos, he⟩ := stopEngines_eq s part f
  have hnil : os = [] := List.eq_nil_iff_forall_not_mem.2 fun o ho => h o (hos o ho).1 (hos o ho).2
  rw [he, hnil]
  exact ⟨rfl, rfl⟩

/-- A copy of the VFs named whose issuer lives stops. -/
theorem copy?_stopEngines {s : State} {part : Nat} {f : Nat → Bool} {c : CopyOp} (hc : s.copy? c.id = some c)
    (hp : c.part = part) (hf : f c.vf = true) (hlive : ∀ tid, c.issuer = some tid → (s.thread? tid).isSome = true) :
    (stopEngines s part f).copy? c.id = some { c with stopped := true } := by
  obtain ⟨os, -, he⟩ := stopEngines_eq s part f
  have hl : c.issuer.all (fun t => (s.thread? t).isSome) = true := by
    cases h : c.issuer with
    | none => rfl
    | some tid => exact hlive tid h
  have hh : (halted s part f).copy? c.id = some { c with stopped := true } := by
    refine (find?_updL_any (f := fun c : CopyOp => { c with stopped := true }) (fun _ => rfl) s.copies).trans ?_
    rw [show s.copies.find? (fun a => decide (a.id = c.id)) = some c from hc]
    simp [hp, hf, hl]
  rw [he, State.copy?, (delivers_noteLoops os _).copies]
  exact hh

/-! ### Engine operations go on (R342) -/

theorem runs_resumeLoop (s : State) (r : Rec) : EnginesRun s (resumeLoop s r) := by
  have hr := (reloadHeld_spec s r.tid).1.runs
  unfold resumeLoop
  dsimp only
  split
  · exact hr
  next x _ =>
    obtain ⟨os, h⟩ := restoreLoop_eq (reloadHeld s r.tid) x
    rw [h]
    refine EnginesRun.trans ?_ (delivers_flushRec _ x.tid).runs
    exact hr.trans ⟨_, _, _, _, _, _, _, _, _, _, _, _, _, _, _, rfl⟩

theorem copies_resumeLoop (s : State) (r : Rec) : (resumeLoop s r).copies = s.copies := by
  have hr := (reloadHeld_spec s r.tid).1.copies
  unfold resumeLoop
  dsimp only
  split
  · exact hr
  next x _ =>
    obtain ⟨os, h⟩ := restoreLoop_eq (reloadHeld s r.tid) x
    rw [h]
    refine Eq.trans ?_ hr
    exact (delivers_flushRec _ x.tid).copies

theorem runs_resumeLoops (s : State) (part vf : Nat) : EnginesRun s (resumeLoops s part vf) := .foldl runs_resumeLoop _ s

theorem copies_resumeLoops (s : State) (part vf : Nat) : (resumeLoops s part vf).copies = s.copies :=
  List.foldlRecOn (motive := fun u : State => u.copies = s.copies) _ _ rfl fun _ h r _ => (copies_resumeLoop _ r).trans h

theorem resumeLoops_of_noLoops {s : State} (part vf : Nat) (h : NoLoops s) : resumeLoops s part vf = s := by
  have hany (r : Rec) : (s.tileOps.any fun o => o.issuer = r.tid && o.kind = .mmal && o.stopped) = false := by
    simp only [List.any_eq_false]
    intro o ho
    simp [h o ho]
  unfold resumeLoops
  simp [hany]

/-- A VF goes on: its operations, the wakes on its slice, its records whose wake has fired (R342, R345). -/
def resumeVf (s : State) (part vf : Nat) : State := enterFired (checkWakes (startEngines s part vf) part 8) part vf

theorem onlyWakes_enterFired (s : State) (part vf : Nat) : OnlyWakes s (enterFired s part vf) :=
  onlyWakes_foldl onlyWakes_enterLadle _ s

theorem onlyWakes_resumeVf (s : State) (part vf : Nat) : OnlyWakes (startEngines s part vf) (resumeVf s part vf) :=
  (onlyWakes_checkWakes ..).trans (onlyWakes_enterFired ..)

theorem runs_startEngines (s : State) (part vf : Nat) : EnginesRun s (startEngines s part vf) := by
  have h := runs_resumeLoops s part vf
  unfold startEngines
  exact h.trans ⟨_, _, _, _, .refl _⟩

theorem runs_resumeVf (s : State) (part vf : Nat) : EnginesRun s (resumeVf s part vf) :=
  (runs_startEngines s part vf).trans (onlyWakes_resumeVf s part vf).runs

theorem resumeVf_of_noLoops {s : State} (part vf : Nat) (h : NoLoops s) :
    (resumeVf s part vf).mem = s.mem ∧ (resumeVf s part vf).threads = s.threads := by
  have hw := onlyWakes_resumeVf s part vf
  have hs : (startEngines s part vf).mem = s.mem ∧ (startEngines s part vf).threads = s.threads := by
    unfold startEngines
    rw [resumeLoops_of_noLoops part vf h]
    exact ⟨rfl, rfl⟩
  exact ⟨hw.mem.trans hs.1, hw.threads.trans hs.2⟩

/-- A copy of the VF goes on. -/
theorem copy?_resumeVf {s : State} {part vf : Nat} {c : CopyOp} (hc : s.copy? c.id = some c) (hp : c.part = part)
    (hv : c.vf = vf) : (resumeVf s part vf).copy? c.id = some { c with stopped := false } := by
  rw [State.copy?, (onlyWakes_resumeVf s part vf).copies]
  refine (find?_updL_any (f := fun c : CopyOp => { c with stopped := false }) (fun _ => rfl) _).trans ?_
  rw [copies_resumeLoops, show s.copies.find? (fun a => decide (a.id = c.id)) = some c from hc]
  simp [hp, hv]

/-! ### `VF_SLICE_END` (R315) -/

/-- What a pre-emption changes: the partition's register, and engine operations that stop. -/
theorem startPreempt_spec {s : State} {part vf next : Nat} {p : Part} (hp : s.part? part = some p) :
    let t := startPreempt s part vf next
    (NoLoops s → t.mem = s.mem ∧ t.threads = s.threads) ∧
    t.part? part = some { p with preempting := some (vf, next) } ∧
    ∀ c, s.copy? c.id = some c → c.part = part → c.vf = vf → (∀ tid, c.issuer = some tid → (s.thread? tid).isSome = true) →
      t.copy? c.id = some { c with stopped := true } := by
  refine ⟨fun h => stopEngines_of_noLoops part _ h, ?_, fun c hc hpart hvf hlive => ?_⟩
  · exact ((runs_stopEngines _ part _).part? part).trans (part?_updPart_self hp _ fun _ => rfl)
  · exact copy?_stopEngines (s := s.updPart part _) hc hpart (by simpa using hvf) hlive

theorem happens_vfSliceEnd {s : State} {part v : Nat} {p : Part} (hp : s.part? part = some p) (ho : sliceOver p s.time = true)
    (hv : nextVf p = some v) : Happens (.vfSliceEnd part) s fun t => t = startPreempt s part p.sliceVf v := by
  refine ⟨_, ?_, rfl⟩
  change execVfSliceEnd part s = _
  simp only [execVfSliceEnd, hp, ho, if_true, hv]

theorem happens_vfSliceEnd_again {s : State} {part : Nat} {p : Part} (hp : s.part? part = some p)
    (ho : sliceOver p s.time = true) (hv : nextVf p = none) : Happens (.vfSliceEnd part) s fun t =>
      t = { s with parts := t.parts } ∧ t.part? part = some { p with sliceStart := s.time } := by
  refine ⟨s.updPart part fun p => { p with sliceStart := s.time }, ?_, rfl, ?_⟩
  · change execVfSliceEnd part s = _
    simp only [execVfSliceEnd, hp, ho, if_true, hv]
  · exact part?_updPart_self hp _ fun _ => rfl

/-! ### `PREEMPT_COMPLETE` (R342) -/

/-- The partition once its slice has passed. -/
def passed (p : Part) (next now : Nat) : Part :=
  { p with preempting := none, sliceVf := next, sliceStart := if p.sliceVf = next then p.sliceStart else now }

/-- A request of `PREQ` that waits begins, or the one whose pre-emption this was ends (R350). -/
def turnPreq (s : State) (part vf : Nat) : State :=
  match s.part? part with
  | some p =>
    match preqWaits p with
    | some v => if v = vf then finishPreq s p vf else startPreq s p v
    | none => s
  | none => s

/-- A VF goes on unless it is halted. -/
def goOn (s : State) (part vf : Nat) : State :=
  match s.part? part with
  | some p => if p.halts vf then s else resumeVf s part vf
  | none => s

theorem passSlice_eq (s : State) (part vf next : Nat) :
    passSlice s part vf next = goOn (turnPreq (s.updPart part fun p => passed p next s.time) part vf) part next := rfl

theorem execPreemptComplete_eq {s : State} {part vf next : Nat} {p : Part} (hp : s.part? part = some p)
    (hpre : p.preempting = some (vf, next)) (hdone : preemptDone s p = true) :
    exec (.preemptComplete part) s = .next (passSlice s part vf next) := by
  change execPreemptComplete part s = _
  simp only [execPreemptComplete, hp, hpre, hdone, if_true]

/-- What a VF's going on leaves, or nothing where the VF is halted. -/
theorem resumed_spec {s u : State} {part next : Nat} {q : Part} (hq : u.part? part = some q) (hmem : u.mem = s.mem)
    (hth : u.threads = s.threads) (hops : u.tileOps = s.tileOps) :
    let t := if q.halts next then u else resumeVf u part next
    (NoLoops s → t.mem = s.mem ∧ t.threads = s.threads) ∧ t.part? part = some q := by
  dsimp only
  split
  · exact ⟨fun _ => ⟨hmem, hth⟩, hq⟩
  · refine ⟨fun h => ?_, ((runs_resumeVf u part next).part? part).trans hq⟩
    have hno : NoLoops u := by rw [NoLoops, hops]; exact h
    obtain ⟨h1, h2⟩ := resumeVf_of_noLoops part next hno
    exact ⟨h1.trans hmem, h2.trans hth⟩

theorem happens_preemptComplete {s : State} {part vf next : Nat} {p : Part} (hp : s.part? part = some p)
    (hpre : p.preempting = some (vf, next)) (hdone : preemptDone s p = true) (hw : preqWaits p = none) :
    Happens (.preemptComplete part) s fun t => (NoLoops s → t.mem = s.mem ∧ t.threads = s.threads) ∧
      t.part? part = some (passed p next s.time) ∧
      ((passed p next s.time).halts next = false → ∀ c, s.copy? c.id = some c → c.part = part → c.vf = next →
        t.copy? c.id = some { c with stopped := false }) := by
  have hq : (s.updPart part fun p => passed p next s.time).part? part = some (passed p next s.time) :=
    part?_updPart_self hp _ fun _ => rfl
  have hw' : preqWaits (passed p next s.time) = none := hw
  have hpass : passSlice s part vf next = if (passed p next s.time).halts next then s.updPart part fun p => passed p next s.time
      else resumeVf (s.updPart part fun p => passed p next s.time) part next := by
    simp only [passSlice_eq, turnPreq, goOn, hq, hw']
  have hspec := resumed_spec (s := s) (next := next) hq rfl rfl rfl
  refine ⟨_, execPreemptComplete_eq hp hpre hdone, ?_⟩
  rw [hpass]
  refine ⟨hspec.1, hspec.2, fun hh c hc hpart hvf => ?_⟩
  rw [hh, if_neg (by simp)]
  exact copy?_resumeVf hc hpart hvf

theorem setBit_63_false (x : DWord) : setBit x 63 false = x &&& 0x7FFFFFFFFFFFFFFF#64 := by
  have h : ~~~BitVec.twoPow 64 63 = 0x7FFFFFFFFFFFFFFF#64 := by decide
  rw [setBit, if_neg (by simp), h]

theorem bitN_toNat (x : DWord) (i : Nat) : bitN x.toNat i = boolBit (x.getLsbD i) := by
  rw [← BitVec.testBit_toNat, Nat.testBit_eq_decide_div_mod_eq, bitN, Nat.shiftRight_eq_div_pow, boolBit]
  split <;> simp_all

theorem happens_preemptComplete_preq {s : State} {part vf next : Nat} {p : Part} (hp : s.part? part = some p)
    (hpre : p.preempting = some (vf, next)) (hdone : preemptDone s p = true) (hw : preqWaits p = some vf)
    (h62 : p.preqRun.getLsbD 62 = false) :
    Happens (.preemptComplete part) s fun t => (NoLoops s → t.mem = s.mem ∧ t.threads = s.threads) ∧
      t.part? part = some { passed p next s.time with
        preq := p.preq &&& 0x7FFFFFFFFFFFFFFF#64, preqRun := p.preqRun &&& 0x7FFFFFFFFFFFFFFF#64 } := by
  have hq : (s.updPart part fun p => passed p next s.time).part? part = some (passed p next s.time) :=
    part?_updPart_self hp _ fun _ => rfl
  have hw' : preqWaits (passed p next s.time) = some vf := hw
  have hfin (u : State) : finishPreq u (passed p next s.time) vf = u.updPart part Part.preqDone := by
    have hb : bitN (passed p next s.time).preqRun.toNat 62 = 0 := by
      rw [bitN_toNat]
      change boolBit (p.preqRun.getLsbD 62) = 0
      rw [h62]
      rfl
    rw [finishPreq, if_pos hb]
    exact congrArg (fun n => u.updPart n Part.preqDone) ((show (passed p next s.time).first = p.first from rfl).trans (first_of_part? hp))
  have hq2 : ((s.updPart part fun p => passed p next s.time).updPart part Part.preqDone).part? part =
      some (passed p next s.time).preqDone := part?_updPart_self hq _ fun _ => rfl
  have hpass : passSlice s part vf next = if (passed p next s.time).preqDone.halts next then
      (s.updPart part fun p => passed p next s.time).updPart part Part.preqDone
      else resumeVf ((s.updPart part fun p => passed p next s.time).updPart part Part.preqDone) part next := by
    simp only [passSlice_eq, turnPreq, goOn, hq, hw', if_true, hfin, hq2]
  have hspec := resumed_spec (s := s) (next := next) hq2 rfl rfl rfl
  refine ⟨_, execPreemptComplete_eq hp hpre hdone, ?_⟩
  rw [hpass]
  refine ⟨hspec.1, ?_⟩
  rw [← setBit_63_false, ← setBit_63_false]
  exact hspec.2

end Sys2Proof.Machine
end

section
/-! PROOF. O51, the requests: writes of `PREQ` and `PCTX` begin pre-emptions (R344, R345, R349, R350). -/

namespace Sys2Proof.Machine

open Sys2Proof

/-! ### The fields of a request -/

/-- A mask leaves a field that it covers. -/
theorem bitsN_and (v m : DWord) {hi lo : Nat} (h : bitsN m.toNat hi lo = 2 ^ (hi + 1 - lo) - 1) :
    bitsN (v &&& m).toNat hi lo = bitsN v.toNat hi lo := by
  simp only [bitsN] at h ⊢
  rw [BitVec.toNat_and, Nat.shiftRight_and_distrib, Nat.and_mod_two_pow, h, Nat.and_two_pow_sub_one_eq_mod, Nat.mod_mod]

theorem preqFields_move (v : DWord) : (preqFields v).getLsbD 62 = v.getLsbD 62 := by
  rw [preqFields, BitVec.getLsbD_and, show (0xC000000000F07F7F#64).getLsbD 62 = true from by decide, Bool.and_true]

theorem preqFields_vf (v : DWord) : bitsN (preqFields v).toNat 23 20 = v.toNat / 2 ^ 20 % 16 := by
  rw [preqFields, bitsN_and v _ (by decide), bitsN, Nat.shiftRight_eq_div_pow]
  rfl

theorem moveOk_preqFields (p : Part) (v : DWord) : moveOk p (preqFields v) = moveOk p v := by
  rw [moveOk, moveOk, preqFields, bitsN_and v _ (hi := 6) (by decide), bitsN_and v _ (hi := 14) (by decide)]

theorem preqFields_clear (v : DWord) : setBit (preqFields v) 63 false = v &&& 0x4000000000F07F7F#64 := by
  rw [setBit_63_false, preqFields, BitVec.and_assoc]
  rfl

theorem pctxCovers_pctxFields (v : DWord) (vf : Nat) :
    pctxCovers (pctxFields v) vf = (!v.getLsbD 61 || decide (v.toNat / 2 ^ 56 % 16 = vf)) := by
  rw [pctxCovers, pctxFields, bitsN_and v _ (by decide), bitsN, Nat.shiftRight_eq_div_pow, BitVec.getLsbD_and,
    show (0xEF000000FFFFFFFF#64).getLsbD 61 = true from by decide, Bool.and_true]
  rfl

/-! ### `PREQ` (R349, R350) -/

/-- The request is accepted. -/
def accepted (p : Part) (v : DWord) : Part := { p with preq := preqFields v, preqRun := preqFields v }

section
variable {s : State} {p : Part} {v : DWord} (hgo : v.getLsbD 63 = true)
include hgo

theorem preqWrite_busy (hb : p.preq.getLsbD 63 = true) : preqWrite s p (BitVec.allOnes 64) v =
    s.updPart p.first fun p' => { p' with preq := preqWith p.preq 1 } := by
  unfold preqWrite
  simp only [merge_allOnes]
  simp only [BitVec.and_allOnes, hgo, hb, if_true]

theorem preqWrite_bad (hb : p.preq.getLsbD 63 = false) (hm : v.getLsbD 62 = true)
    (hok : moveOk p v = false) : preqWrite s p (BitVec.allOnes 64) v =
      s.updPart p.first fun p => { p with preq := preqWith (v &&& 0x4000000000F07F7F#64) 2 } := by
  unfold preqWrite
  simp only [merge_allOnes]
  simp only [BitVec.and_allOnes, hgo, hb, preqFields_move, moveOk_preqFields, hm, hok,
    preqFields_clear, Bool.not_true, Bool.not_false, Bool.and_self, Bool.or_true, Bool.false_eq_true, if_true, if_false]

theorem preqWrite_begins (hb : p.preq.getLsbD 63 = false)
    (hok : (v.getLsbD 62 && !moveOk p v) = false) : preqWrite s p (BitVec.allOnes 64) v =
      let u := s.updPart p.first fun p => accepted p v
      if p.preempting.isSome then u else startPreq u (accepted p v) (v.toNat / 2 ^ 20 % 16) := by
  unfold preqWrite
  simp only [merge_allOnes]
  simp only [BitVec.and_allOnes, hgo, hb, preqFields_move, moveOk_preqFields, hok, preqFields_vf,
    Bool.not_true, Bool.or_self, Bool.false_eq_true, if_false]
  rfl

end

section
variable {s : State} {part : Nat} {p : Part} {v : DWord} (hp : s.part? part = some p)
include hp

theorem exec_preqPreempt (hl : holds s false .host = true) (hgo : v.getLsbD 63 = true) (hm : v.getLsbD 62 = false) :
    exec (.preqPreempt part v) s = .next (preqWrite s p (BitVec.allOnes 64) v) := by
  change execPreqPreempt part v s = _
  simp only [execPreqPreempt, preqArrives, hgo, hm, hp, hl, Bool.not_false, Bool.and_true, if_true]

theorem exec_preqMove (hl : holds s false .host = true) (hgo : v.getLsbD 63 = true) (hm : v.getLsbD 62 = true) :
    exec (.preqMove part v) s = .next (preqWrite s p (BitVec.allOnes 64) v) := by
  change execPreqMove part v s = _
  simp only [execPreqMove, preqArrives, hgo, hm, hp, hl, Bool.and_true, if_true]

/-- The register alone changes. -/
theorem part?_setPreq (x : DWord) : (s.updPart p.first fun p => { p with preq := x }).part? part = some { p with preq := x } :=
  part?_updPart_of hp _ fun _ => rfl

theorem part?_accepted : (s.updPart p.first fun p => accepted p v).part? part = some (accepted p v) :=
  part?_updPart_of hp _ fun _ => rfl

/-- A request begins: the pre-emption of its VF, or it waits for the one that is going on. -/
theorem preq_begins {i : Instr} (he : exec i s = .next (preqWrite s p (BitVec.allOnes 64) v)) (hgo : v.getLsbD 63 = true)
    (hb : p.preq.getLsbD 63 = false) (hok : (v.getLsbD 62 && !moveOk p v) = false) :
    (p.preempting = none → Happens i s fun t => (NoLoops s → t.mem = s.mem ∧ t.threads = s.threads) ∧
      let vf := v.toNat / 2 ^ 20 % 16
      t.part? part = some { accepted p v with
        preempting := some (vf, if p.sliceVf = vf then (nextVf p).getD vf else p.sliceVf) }) ∧
    (p.preempting ≠ none → Happens i s fun t => t = { s with parts := t.parts } ∧ t.part? part = some (accepted p v)) := by
  have hw := preqWrite_begins (s := s) hgo hb hok
  have hq := part?_accepted (v := v) hp
  constructor
  · intro hn
    have hfirst : (accepted p v).first = part := (show _ = p.first from rfl).trans (first_of_part? hp)
    rw [hn, Option.isSome_none, if_neg (by simp), startPreq, hfirst] at hw
    obtain ⟨hkeep, hread, -⟩ := startPreempt_spec (vf := v.toNat / 2 ^ 20 % 16)
      (next := if p.sliceVf = v.toNat / 2 ^ 20 % 16 then (nextVf p).getD (v.toNat / 2 ^ 20 % 16) else p.sliceVf) hq
    exact ⟨_, he.trans (congrArg _ hw), hkeep, hread⟩
  · intro hn
    rw [Option.isSome_iff_ne_none.2 hn, if_pos rfl] at hw
    exact ⟨_, he.trans (congrArg _ hw), rfl, hq⟩

/-- A request is refused: `STAT` tells. -/
theorem preq_tells {i : Instr} (x : DWord) (he : exec i s = .next (s.updPart p.first fun p => { p with preq := x })) :
    Happens i s fun t => t = { s with parts := t.parts } ∧ t.part? part = some { p with preq := x } :=
  ⟨_, he, rfl, part?_setPreq hp x⟩

end

/-! ### `PCTX` (R344, R345) -/

section
variable {s : State} {p : Part} {v : DWord} (hgo : v.getLsbD 63 = true)
include hgo

theorem pctxWrite_busy (hb : p.pctx.getLsbD 63 = true) : pctxWrite s p (BitVec.allOnes 64) v =
    s.updPart p.first fun p' => { p' with pctx := pctxWith p.pctx 1 } := by
  unfold pctxWrite
  simp only [merge_allOnes]
  simp only [BitVec.and_allOnes, hgo, hb, if_true]

theorem pctxWrite_begins (hb : p.pctx.getLsbD 63 = false) : pctxWrite s p (BitVec.allOnes 64) v =
    stopEngines (s.updPart p.first fun p => { p with pctx := pctxFields v, pctxRun := pctxFields v }) p.first
      (pctxCovers (pctxFields v)) := by
  unfold pctxWrite
  simp only [merge_allOnes]
  simp only [BitVec.and_allOnes, hgo, hb, Bool.not_true, Bool.false_eq_true, if_false]

end

/-- The instruction that a write of `PCTX` with these bits is. -/
def PctxBegins (i : Instr) (part : Nat) (v : DWord) : Prop :=
  (i = .pctxSave part v ∧ v.getLsbD 62 = false ∧ v.getLsbD 61 = false) ∨
  (i = .pctxRestore part v ∧ v.getLsbD 62 = true ∧ v.getLsbD 61 = false) ∨
  (i = .pctxSaveOnevf part v ∧ v.getLsbD 62 = false ∧ v.getLsbD 61 = true) ∨
  (i = .pctxRestoreOnevf part v ∧ v.getLsbD 62 = true ∧ v.getLsbD 61 = true)

section
variable {s : State} {part : Nat} {p : Part} {v : DWord} (hp : s.part? part = some p)
include hp

theorem exec_pctx {i : Instr} (hl : holds s false .host = true) (hgo : v.getLsbD 63 = true) (hi : PctxBegins i part v) :
    exec i s = .next (pctxWrite s p (BitVec.allOnes 64) v) := by
  have ha : pctxArrives part v s = pctxWrite s p (BitVec.allOnes 64) v := by
    simp only [pctxArrives, hp, hl, if_true]
  obtain ⟨rfl, h62, h61⟩ | ⟨rfl, h62, h61⟩ | ⟨rfl, h62, h61⟩ | ⟨rfl, h62, h61⟩ := hi
  · change execPctxSave part v s = _
    simp only [execPctxSave, hgo, h62, h61, ha, Bool.not_false, Bool.and_self, if_true]
  · change execPctxRestore part v s = _
    simp only [execPctxRestore, hgo, h62, h61, ha, Bool.not_false, Bool.and_self, if_true]
  · change execPctxSaveOnevf part v s = _
    simp only [execPctxSaveOnevf, hgo, h62, h61, ha, Bool.not_false, Bool.and_self, if_true]
  · change execPctxRestoreOnevf part v s = _
    simp only [execPctxRestoreOnevf, hgo, h62, h61, ha, Bool.and_self, if_true]

theorem pctx_begins {i : Instr} (hl : holds s false .host = true) (hgo : v.getLsbD 63 = true) (hi : PctxBegins i part v)
    (hb : p.pctx.getLsbD 63 = false) : Happens i s fun t => (NoLoops s → t.mem = s.mem ∧ t.threads = s.threads) ∧
      t.part? part = some { p with pctx := pctxFields v, pctxRun := pctxFields v } ∧
      ∀ c, s.copy? c.id = some c → c.part = part → (!v.getLsbD 61 || decide (v.toNat / 2 ^ 56 % 16 = c.vf)) = true →
        (∀ tid, c.issuer = some tid → (s.thread? tid).isSome = true) → t.copy? c.id = some { c with stopped := true } := by
  have hq := part?_updPart_of hp (fun p => { p with pctx := pctxFields v, pctxRun := pctxFields v }) fun _ => rfl
  refine ⟨_, (exec_pctx hp hl hgo hi).trans (congrArg _ (pctxWrite_begins hgo hb)), fun h => ?_, ?_, fun c hc hpart hf hlive => ?_⟩
  · exact stopEngines_of_noLoops _ _ (s := s.updPart _ _) h
  · exact ((runs_stopEngines _ _ _).part? part).trans hq
  · refine copy?_stopEngines (s := s.updPart _ _) hc (hpart.trans (first_of_part? hp).symm) ?_ hlive
    rw [pctxCovers_pctxFields]
    exact hf

theorem pctx_refused {i : Instr} (hl : holds s false .host = true) (hgo : v.getLsbD 63 = true) (hi : PctxBegins i part v)
    (hb : p.pctx.getLsbD 63 = true) : Happens i s fun t => t = { s with parts := t.parts } ∧
      t.part? part = some { p with pctx := pctxWith p.pctx 1 } :=
  ⟨_, (exec_pctx hp hl hgo hi).trans (congrArg _ (pctxWrite_busy hgo hb)), rfl, part?_updPart_of hp _ fun _ => rfl⟩

end

end Sys2Proof.Machine
end

section
/-! PROOF. O51, the end of context requests (R344, R345). -/

namespace Sys2Proof.Machine

open Sys2Proof

/-! ### Counts of the device -/

/-- Of the device nothing but counts changes: activations of rows and errors. -/
def Counts (s t : State) : Prop := ∃ rows errs, t.dev = { s.dev with rows := rows, errs := errs }

namespace Counts
variable {s t u : State}

theorem of_eq (h : t.dev = s.dev) : Counts s t := ⟨_, _, h⟩

theorem refl (s : State) : Counts s s := .of_eq rfl

theorem trans (h : Counts s t) (h' : Counts t u) : Counts s u := by
  obtain ⟨_, _, h⟩ := h
  obtain ⟨rows, errs, h'⟩ := h'
  exact ⟨rows, errs, by rw [h', h]⟩

theorem foldl {α : Type} {f : State → α → State} (hf : ∀ s x, Counts s (f s x)) (l : List α) (s : State) :
    Counts s (l.foldl f s) := List.foldlRecOn (motive := Counts s) l f (refl s) fun _ h x _ => h.trans (hf _ x)

theorem intstat (h : Counts s t) : t.dev.intstat = s.dev.intstat := by
  obtain ⟨_, _, h⟩ := h
  rw [h]

theorem images (h : Counts s t) : t.dev.images = s.dev.images := by
  obtain ⟨_, _, h⟩ := h
  rw [h]

end Counts

theorem OnlyWakes.dev {s t : State} (h : OnlyWakes s t) : t.dev = s.dev := by
  obtain ⟨_, _, _, _, rfl⟩ := h
  rfl

theorem counts_queueRow (s : State) (k : Nat) : Counts s (queueRow s k) := by
  unfold queueRow
  split
  · exact ⟨_, s.dev.errs, rfl⟩
  · exact .refl s

theorem counts_applyPartial (s : State) (p : Partial) : Counts s (applyPartial s p) := .of_eq (storeAt_dev ..)

theorem counts_combineLine (s : State) (l : Nat) : Counts s (combineLine s l) := by
  rw [combineLine_eq]
  split
  · exact .of_eq rfl
  · have hall := (counts_queueRow s (128 * l)).trans (.foldl counts_applyPartial (gatheredOf s l) _)
    exact (hall.trans (.of_eq (stamp_dev _ (128 * l)))).trans (.of_eq rfl)

theorem counts_combineAt (s : State) (k n : Nat) : Counts s (combineAt s k n) := by
  unfold combineAt
  split
  · exact .refl s
  · exact .foldl (fun s _ => counts_combineLine ..) _ s

theorem counts_devPut (s : State) (k n x : Nat) : Counts s (devPut s k n x) :=
  (counts_combineAt s k n).trans (.of_eq ((stamp_dev ..).trans (storeAt_dev ..)))

theorem counts_devStore (s : State) (k n x : Nat) : Counts s (devStore s k n x) :=
  (counts_queueRow s k).trans (counts_devPut ..)

theorem counts_placeWrite (s : State) (part ref : Nat) (bs : List Byte) (bad : List Nat) :
    Counts s (placeWrite s part ref bs bad) := by
  unfold placeWrite
  refine (Counts.foldl (fun s i => ?_) _ s).trans (.foldl (fun s o => ?_) bad _)
  · split
    · split
      · exact counts_devStore ..
      · exact counts_devPut ..
    · exact .refl s
  · split
    · exact .of_eq rfl
    · exact .refl s

theorem counts_placeTouch (s : State) (part ref : Nat) : Counts s (placeTouch s part ref) :=
  .foldl (fun s i => by
    split
    · exact (counts_combineAt ..).trans (counts_queueRow ..)
    · exact .refl s) _ s

theorem counts_writeRec (s : State) (tid : Nat) : Counts s (writeRec s tid) := by
  unfold writeRec
  split
  · exact counts_placeWrite ..
  · exact .refl s

theorem counts_flushRec (s : State) (tid : Nat) : Counts s (flushRec s tid) := by
  obtain ⟨_, h⟩ := recPoison_eq s tid
  refine Counts.trans ?_ (counts_writeRec (recPoison s tid) tid)
  exact .of_eq (by rw [h])

theorem counts_updBoth (s : State) (tid : Nat) (f : Thread → Thread) : Counts s (s.updBoth tid f) := by
  obtain ⟨_, h⟩ := updBoth_eq s tid f
  exact .of_eq (by rw [h])

theorem counts_loadRec (s : State) (tid : Nat) : Counts s (loadRec s tid) := by
  unfold loadRec
  split
  · refine Counts.trans ?_ (counts_updBoth _ _ _)
    exact counts_placeTouch ..
  · exact .refl s

theorem counts_reloadHeld (s : State) (tid : Nat) : Counts s (reloadHeld s tid) := by
  unfold reloadHeld
  split
  · exact counts_loadRec ..
  · exact .refl s

theorem counts_resumeLoop (s : State) (r : Rec) : Counts s (resumeLoop s r) := by
  have hr := counts_reloadHeld s r.tid
  unfold resumeLoop
  dsimp only
  split
  · exact hr
  next x _ =>
    obtain ⟨os, h⟩ := restoreLoop_eq (reloadHeld s r.tid) x
    rw [h]
    refine Counts.trans ?_ (counts_flushRec _ x.tid)
    exact hr

theorem counts_resumeVf (s : State) (part vf : Nat) : Counts s (resumeVf s part vf) := by
  refine Counts.trans ?_ (.of_eq (onlyWakes_resumeVf s part vf).dev)
  exact (Counts.foldl counts_resumeLoop _ s).trans (.of_eq rfl)

/-! ### Partitions stay -/

/-- The same partitions stand in the same order. -/
def SameParts (s t : State) : Prop := t.parts.map Part.first = s.parts.map Part.first

namespace SameParts
variable {s t u : State}

theorem of_eq (h : t.parts = s.parts) : SameParts s t := congrArg _ h

theorem refl (s : State) : SameParts s s := rfl

theorem trans (h : SameParts s t) (h' : SameParts t u) : SameParts s u := Eq.trans h' h

theorem foldl {α : Type} {f : State → α → State} (hf : ∀ s x, SameParts s (f s x)) (l : List α) (s : State) :
    SameParts s (l.foldl f s) := List.foldlRecOn (motive := SameParts s) l f (refl s) fun _ h x _ => h.trans (hf _ x)

theorem exists_part? {part : Nat} {p : Part} (h : SameParts s t) (hp : s.part? part = some p) : ∃ q, t.part? part = some q := by
  have hm : part ∈ t.parts.map Part.first := by
    rw [h]
    exact List.mem_map.2 ⟨p, List.mem_of_find?_eq_some hp, first_of_part? hp⟩
  obtain ⟨q, hq, hf⟩ := List.mem_map.1 hm
  exact Option.isSome_iff_exists.1 (List.find?_isSome.2 ⟨q, hq, by simpa using hf⟩)

end SameParts

theorem InPool.sameParts {s t : State} (h : InPool s t) : SameParts s t := by
  obtain ⟨_, _, _, _, _, _, _, _, _, _, _, rfl⟩ := h
  rfl

theorem AtHome.sameParts {s t : State} (h : AtHome s t) : SameParts s t := h.inPool.sameParts

theorem sameParts_updPart (s : State) (part : Nat) {f : Part → Part} (hf : ∀ p, p.first = part → (f p).first = part) :
    SameParts s (s.updPart part f) := by
  simp only [SameParts, State.updPart, updL, List.map_map]
  refine List.map_congr_left fun x _ => ?_
  simp only [Function.comp]
  split
  next h => rw [hf x (by simpa using h), (by simpa using h : x.first = part)]
  · rfl

theorem sameParts_resetPart (s : State) (part : Nat) : SameParts s (resetPart s part) := by
  unfold resetPart
  split
  · exact .refl s
  next p hp =>
    have hring : SameParts s (clearFaultRing s p) := .foldl (fun u i => by
      split
      · split
        · exact (atHome_devStore ..).sameParts
        · exact (atHome_devPut ..).sameParts
      · exact (atHome_countLost ..).sameParts) _ s
    refine hring.trans ((sameParts_updPart (clearFaultRing s p) part (f := fun _ => resetRegs (clearFaultRing s p) p) ?_).trans ?_)
    · intro _ _
      exact (show (resetRegs (clearFaultRing s p) p).first = p.first from rfl).trans (first_of_part? hp)
    · exact .of_eq rfl

theorem sameParts_putSpill (s : State) (part : Nat) (x : Nat × List (Byte × Bool)) : SameParts s (putSpill s part x) :=
  .foldl (fun s y => by
    split
    · exact (atHome_storeAt ..).sameParts
    · exact .refl s) _ s

theorem sameParts_putRecords (s old : State) (part : Nat) : SameParts s (putRecords s old part) := by
  unfold putRecords
  exact (SameParts.foldl (fun s x => (atHome_writeRec s x).sameParts) _ s).trans
    (.foldl (fun s x => (atHome_flushAnnex s part x).sameParts) _ _)

theorem sameParts_restoreWhole (s : State) (p : Part) (i : Image) : SameParts s (restoreWhole s p i) := by
  unfold restoreWhole
  refine SameParts.trans ?_ (sameParts_putRecords _ _ _)
  refine SameParts.trans ?_ (.foldl (fun s x => sameParts_putSpill s p.first x) _ _)
  refine SameParts.trans ?_ (sameParts_updPart _ _ fun _ h => h)
  exact (sameParts_resetPart s p.first).trans (.of_eq rfl)

theorem sameParts_restoreVf (s : State) (p : Part) (i : Image) : SameParts s (restoreVf s p i) := by
  unfold restoreVf
  refine SameParts.trans ?_ (sameParts_putRecords _ _ _)
  refine SameParts.trans ?_ (sameParts_updPart _ _ fun _ h => h)
  exact .of_eq rfl

theorem sameParts_loadHeld (s : State) (part : Nat) : SameParts s (loadHeld s part) :=
  .foldl (fun s r => by
    have hload : SameParts s (loadRec s r.tid) := .of_eq (loadRec_spec s r.tid).1.runs.parts
    dsimp only
    split
    · exact hload
    · exact hload.trans (inPool_loadAnnex ..).sameParts) _ s

/-- Without held records a save reads nothing back. -/
theorem loadHeld_of_free {s : State} (part : Nat) (h : ∀ r ∈ s.recs, r.held = false) : loadHeld s part = s := by
  have hnil : (s.recs.filter fun r => r.part = part && r.held) = [] := List.filter_eq_nil_iff.2 fun r hr => by simp [h r hr]
  unfold loadHeld
  rw [hnil]
  rfl

/-! ### What a request comes to (R345) -/

/-- The image that stands at the buffer of a partition. -/
def imageAt (s : State) (p : Part) : Option Image := (s.dev.images.find? fun x => x.1 = p.pctxbuf.toNat).map (·.2)

section
variable {s : State} {p : Part}

theorem pctxResult_noImage (h62 : p.pctxRun.getLsbD 62 = true) (hi : imageAt s p = none) : pctxResult s p = (s, 3) := by
  unfold imageAt at hi
  simp only [pctxResult, h62, hi, if_true]

theorem pctxResult_badImage {i : Image} (h62 : p.pctxRun.getLsbD 62 = true) (hi : imageAt s p = some i) (hg : i.good = false) :
    pctxResult s p = (s, 3) := by
  unfold imageAt at hi
  simp only [pctxResult, h62, hi, hg, Bool.not_false, Bool.true_or, if_true]

theorem pctxResult_small (h62 : p.pctxRun.getLsbD 62 = false) (h61 : p.pctxRun.getLsbD 61 = false)
    (hn : p.pctxRun.toNat % 2 ^ 32 < Config.imageSize s.free) : pctxResult s p = ({ s with free := s.free + 1 }, 4) := by
  have hn' : bitsN p.pctxRun.toNat 31 0 < Config.imageSize s.free := hn
  simp only [pctxResult, h62, h61, hn', Bool.false_and, Bool.false_eq_true, if_true, if_false]

/-- The state from which an image is taken. -/
def saved (s : State) (p : Part) : State := loadHeld { s with free := s.free + 1 } p.first

theorem pctxResult_save (h62 : p.pctxRun.getLsbD 62 = false) (h61 : p.pctxRun.getLsbD 61 = false)
    (hn : Config.imageSize s.free ≤ p.pctxRun.toNat % 2 ^ 32) : pctxResult s p =
      ((saved s p).updDev fun d =>
        { d with images := setL d.images p.pctxbuf.toNat (imageOf (saved s p) p none (Config.imageSize s.free)) }, 0) := by
  have hn' : ¬bitsN p.pctxRun.toNat 31 0 < Config.imageSize s.free := Nat.not_lt.2 hn
  simp only [pctxResult, h62, h61, hn', Bool.false_and, Bool.false_eq_true, if_false]
  rfl

theorem sameParts_pctxResult (s : State) (p : Part) : SameParts s (pctxResult s p).1 := by
  unfold pctxResult
  dsimp only
  split
  · split
    · exact .refl s
    · split
      · exact .refl s
      · split
        · split
          · exact .refl s
          · exact sameParts_restoreVf ..
        · exact sameParts_restoreWhole ..
  · split
    · exact .refl s
    · split
      · exact .of_eq rfl
      · exact (sameParts_loadHeld { s with free := s.free + 1 } p.first).trans (.of_eq rfl)

end

/-! ### `PCTX_COMPLETE` (R345) -/

theorem bitsN_or (a b : DWord) (hi lo : Nat) :
    bitsN (a ||| b).toNat hi lo = bitsN a.toNat hi lo ||| bitsN b.toNat hi lo := by
  simp only [bitsN, BitVec.toNat_or, Nat.shiftRight_or_distrib, Nat.or_mod_two_pow]

theorem stat_pctxWith (x : DWord) (st : Nat) : (pctxWith x st).toNat / 2 ^ 48 % 2 ^ 8 = st % 256 := by
  have hclear : bitsN (x &&& ~~~0x00FF000000000000#64).toNat 55 48 = 0 := by
    have hm : bitsN (~~~0x00FF000000000000#64).toNat 55 48 = 0 := by decide
    simp only [bitsN] at hm ⊢
    rw [BitVec.toNat_and, Nat.shiftRight_and_distrib, Nat.and_mod_two_pow, hm, Nat.and_zero]
  have hset : bitsN (BitVec.ofNat 64 (st % 256 * 2 ^ 48)).toNat 55 48 = st % 256 := by
    rw [BitVec.toNat_ofNat, Nat.mod_eq_of_lt (by omega), bitsN, Nat.shiftRight_eq_div_pow, Nat.mul_div_cancel _ (by decide)]
    omega
  have h : bitsN (pctxWith x st).toNat 55 48 = st % 256 := by rw [pctxWith, bitsN_or, hclear, hset, Nat.zero_or]
  rwa [bitsN, Nat.shiftRight_eq_div_pow] at h

theorem go_pctxWith {x : DWord} (st : Nat) (h : x.getLsbD 63 = false) : (pctxWith x st).getLsbD 63 = false := by
  rw [pctxWith, BitVec.getLsbD_or, BitVec.getLsbD_and, h, Bool.false_and, Bool.false_or, BitVec.getLsbD_ofNat,
    Nat.testBit_lt_two_pow (by omega), Bool.and_false]

/-- What `PCTX` reads after a request. -/
def pctxReg (s : State) (p : Part) : DWord :=
  pctxWith (p.pctx &&& 0x7FFFFFFF00000000#64 ||| BitVec.ofNat 64 (pctxLen (pctxResult s p).1 p (pctxResult s p).2)) (pctxResult s p).2

theorem pctxReg_go (s : State) (p : Part) : (pctxReg s p).getLsbD 63 = false := by
  have hlen (v : State) (st : Nat) : pctxLen v p st < 2 ^ 32 := by
    unfold pctxLen
    split
    · exact Nat.mod_lt _ (by decide)
    · exact Nat.mod_lt _ (by decide)
  refine go_pctxWith _ ?_
  rw [BitVec.getLsbD_or, BitVec.getLsbD_and, show (0x7FFFFFFF00000000#64).getLsbD 63 = false from by decide, Bool.and_false,
    Bool.false_or, BitVec.getLsbD_ofNat, Nat.testBit_lt_two_pow (Nat.lt_trans (hlen _ _) (by decide)), Bool.and_false]

theorem withPctx_first (p : Part) (v w : DWord) : ({ p with pctx := v, pctxRun := w } : Part).first = p.first := rfl

/-- The registers of a request that has ended. -/
def endedReq (s : State) (p x : Part) : Part :=
  { x with pctx := pctxReg s p, pctxRun := pctxWith (setBit p.pctxRun 63 false) (pctxResult s p).2 }

theorem endedReq_first (s : State) (p x : Part) : (endedReq s p x).first = x.first := withPctx_first x _ _

theorem endedReq_pctx (s : State) (p x : Part) : (endedReq s p x).pctx = pctxReg s p := by
  unfold endedReq
  generalize pctxReg s p = v
  generalize pctxWith (setBit p.pctxRun 63 false) (pctxResult s p).2 = w
  rfl

theorem endPctx_eq (s : State) (p : Part) : endPctx s p =
    let u := raiseInt ((pctxResult s p).1.updPart p.first (endedReq s p)) 2
    match u.part? p.first with
    | some x => if x.halts x.sliceVf then u else resumeVf u x.first x.sliceVf
    | none => u := rfl

/-- A request ends: `PCTX` tells its status, and the host is told. -/
theorem endPctx_spec {s : State} {part : Nat} {p : Part} (hp : s.part? part = some p) :
    (endPctx s p).dev.intstat.getLsbD 2 = true ∧ (endPctx s p).dev.images = (pctxResult s p).1.dev.images ∧
    ∃ q, (endPctx s p).part? part = some q ∧ q.pctx = pctxReg s p := by
  obtain ⟨q, hq⟩ := (sameParts_pctxResult s p).exists_part? hp
  have hread : (raiseInt ((pctxResult s p).1.updPart part (endedReq s p)) 2).part? part = some (endedReq s p q) :=
    part?_updPart_self hq _ (endedReq_first s p)
  have hint : (raiseInt ((pctxResult s p).1.updPart part (endedReq s p)) 2).dev.intstat.getLsbD 2 = true := by
    change (setBit (pctxResult s p).1.dev.intstat 2 true).getLsbD 2 = true
    rw [getLsbD_setBit _ _ _ _ (by decide), if_pos rfl]
  have hpctx := endedReq_pctx s p q
  have himg : (raiseInt ((pctxResult s p).1.updPart part (endedReq s p)) 2).dev.images = (pctxResult s p).1.dev.images := rfl
  rw [endPctx_eq, first_of_part? hp]
  generalize raiseInt ((pctxResult s p).1.updPart part (endedReq s p)) 2 = u at hread hint himg ⊢
  generalize endedReq s p q = x at hread hpctx
  simp only [hread]
  split
  · exact ⟨hint, himg, x, hread, hpctx⟩
  · have hc := counts_resumeVf u x.first x.sliceVf
    exact ⟨by rw [hc.intstat]; exact hint, hc.images.trans himg, x, ((runs_resumeVf u x.first x.sliceVf).part? part).trans hread, hpctx⟩

theorem happens_pctxComplete {s : State} {part : Nat} {p : Part} (hp : s.part? part = some p) (hd : pctxDone s p = true) :
    Happens (.pctxComplete part) s fun t =>
      t.dev.intstat.getLsbD 2 = true ∧ ∃ q, t.part? part = some q ∧ q.pctx.getLsbD 63 = false ∧
        let run := p.pctxRun
        let status := q.pctx.toNat / 2 ^ 48 % 2 ^ 8
        (run.getLsbD 62 = true → imageAt s p = none → status = 3) ∧
        (∀ i, run.getLsbD 62 = true → imageAt s p = some i → i.good = false → status = 3) ∧
        (run.getLsbD 62 = false → run.getLsbD 61 = false → run.toNat % 2 ^ 32 < Config.imageSize s.free → status = 4) ∧
        (run.getLsbD 62 = false → run.getLsbD 61 = false → Config.imageSize s.free ≤ run.toNat % 2 ^ 32 → status = 0 ∧
          ∃ i, t.dev.images.find? (fun x => x.1 = p.pctxbuf.toNat) = some (p.pctxbuf.toNat, i) ∧ i.good = true ∧
            ((∀ r ∈ s.recs, r.held = false) →
              i.recs = s.recs.filter (fun r => r.part = p.first && (vfThreads s p.first fun _ => true).any fun u => u.tid = r.tid))) := by
  have hexec : exec (.pctxComplete part) s = .next (endPctx s p) := by
    change execPctxComplete part s = _
    simp only [execPctxComplete, hp, hd, if_true]
  obtain ⟨hint, himg, q, hq, hreg⟩ := endPctx_spec hp
  have hstat {st : Nat} (h : (pctxResult s p).2 = st) : q.pctx.toNat / 2 ^ 48 % 2 ^ 8 = st % 256 := by
    rw [hreg, pctxReg, stat_pctxWith, h]
  refine ⟨_, hexec, hint, q, hq, by rw [hreg]; exact pctxReg_go s p, fun h62 hi => ?_, fun i h62 hi hg => ?_,
    fun h62 h61 hn => ?_, fun h62 h61 hn => ?_⟩
  · exact hstat (by rw [pctxResult_noImage h62 hi])
  · exact hstat (by rw [pctxResult_badImage h62 hi hg])
  · exact hstat (by rw [pctxResult_small h62 h61 hn])
  · have hsave := pctxResult_save h62 h61 hn
    refine ⟨hstat (by rw [hsave]), imageOf (saved s p) p none (Config.imageSize s.free), ?_, rfl, fun hfree => ?_⟩
    · rw [himg, hsave]
      simp [State.updDev, setL]
    · rw [saved, loadHeld_of_free (s := { s with free := s.free + 1 }) p.first hfree]
      rfl

end Sys2Proof.Machine
end

section
/-! PROOF. O51, vault allocations leave and come back (R337, R343), and the statement. -/

namespace Sys2Proof.Machine

open Sys2Proof

/-! ### Pieces of a copy -/

theorem length_memBytes (m : List Host.Cell) : ∀ n a, (memBytes m a n).length = n
  | 0, _ => rfl
  | n + 1, a => by rw [memBytes, List.length_cons, length_memBytes m n (a + 1)]

theorem getElem_memBytes (m : List Host.Cell) : ∀ (n a i : Nat) (h : i < (memBytes m a n).length),
    (memBytes m a n)[i] = memRead m (a + i)
  | _ + 1, _, 0, _ => rfl
  | n + 1, a, i + 1, h => by
    have := getElem_memBytes m n (a + 1) i (by simpa [memBytes] using h)
    simpa [memBytes, Nat.add_right_comm a 1 i, Nat.add_assoc] using this

theorem NothingGathered.noneGathered {s : State} (h : NothingGathered s) (k n : Nat) : NoneGathered s k n :=
  fun u hu hg => absurd hg (by simp [h u hu])

theorem AtHome.nothingGathered {s t : State} (h : AtHome s t) (hs : NothingGathered s) : NothingGathered t :=
  fun u hu => hs u (h.ucopies.subset hu)

theorem AtHome.casts {s t : State} (h : AtHome s t) : t.casts = s.casts := by
  obtain ⟨_, _, _, _, _, _, -, rfl⟩ := h
  rfl

theorem atHome_copyPiece (s : State) (a b : Nat) : AtHome s (copyPiece s a b) := by
  unfold copyPiece
  refine ((atHome_combineAt s a 32).trans ((atHome_combineAt _ b 32).trans (atHome_stamp _ b))).trans ?_
  exact ⟨_, _, _, _, _, _, List.Sublist.refl _, rfl⟩

theorem copyPiece_mem {s : State} (h : NothingGathered s) (a b : Nat) :
    (copyPiece s a b).mem = memWriteBytes s.mem b (memBytes s.mem a 32) := by
  unfold copyPiece
  rw [combineAt_of_noneGathered (h.noneGathered a 32) le_rfl, combineAt_of_noneGathered (h.noneGathered b 32) le_rfl]
  dsimp only
  rw [stamp_mem]

/-- The piece that comes next is copied from where those before have left it. -/
theorem copyPieces_succ {src dst : Nat → Option Nat} {n a b : Nat} (s : State) (hs : src n = some a) (hd : dst n = some b) :
    ∃ u, AtHome (copyPieces src dst n s) u ∧ u.mem = (copyPieces src dst n s).mem ∧
      copyPieces src dst (n + 1) s = copyPiece u a b := by
  simp only [copyPieces, hs, hd]
  split
  · exact ⟨_, (atHome_queueRow _ a).trans (atHome_queueRow _ b), (queueRow_mem ..).trans (queueRow_mem ..), rfl⟩
  · exact ⟨_, .refl _, rfl, rfl⟩

/-- Pieces whose places lie apart are copied as they stood at first. -/
theorem copyPieces_spec {src dst : Nat → Option Nat} {a b : Nat → Nat} {s : State} (hgath : NothingGathered s)
    (hwf : memWf s.mem = true) (n : Nat) (hs : ∀ i, i < n → src i = some (a i)) (hd : ∀ i, i < n → dst i = some (b i))
    (hapart : ∀ i j, i < j → j < n → b i + 32 ≤ b j ∨ b j + 32 ≤ b i)
    (hsrc : ∀ i j, i < n → j < n → b i + 32 ≤ a j ∨ a j + 32 ≤ b i) :
    AtHome s (copyPieces src dst n s) ∧
    (∀ i j, i < n → j < 32 → memRead (copyPieces src dst n s).mem (b i + j) = memRead s.mem (a i + j)) ∧
    ∀ y, (∀ i, i < n → ¬(b i ≤ y ∧ y < b i + 32)) → memRead (copyPieces src dst n s).mem y = memRead s.mem y := by
  induction n with
  | zero => exact ⟨.refl s, fun i j hi => absurd hi (by omega), fun _ _ => rfl⟩
  | succ n ih =>
    obtain ⟨hat, hcopied, hother⟩ := ih (fun i h => hs i (by omega)) (fun i h => hd i (by omega))
      (fun i j h h' => hapart i j h (by omega)) (fun i j h h' => hsrc i j (by omega) (by omega))
    obtain ⟨u, hu, hmem, heq⟩ := copyPieces_succ s (hs n (by omega)) (hd n (by omega))
    have hw : memWf (copyPieces src dst n s).mem = true := memWf_copyPieces hwf
    have hat' := hat.trans hu
    have hlen := length_memBytes (copyPieces src dst n s).mem 32 (a n)
    rw [heq, copyPiece_mem (hat'.nothingGathered hgath), hmem]
    refine ⟨hat'.trans (atHome_copyPiece u _ _), fun i j hi hj => ?_, fun y hy => ?_⟩
    · obtain rfl | hlt := Nat.eq_or_lt_of_le (Nat.le_of_lt_succ hi)
      · rw [memRead_memWriteBytes _ _ _ _ (by omega) hw, getElem_memBytes]
        refine hother _ fun k hk => ?_
        have := hsrc k i (by omega) (by omega)
        omega
      · have := hapart i n hlt (by omega)
        rw [memRead_memWriteBytes_other _ _ _ _ (by omega)]
        exact hcopied i j hlt hj
    · have := hy n (by omega)
      rw [memRead_memWriteBytes_other _ _ _ _ (by omega)]
      exact hother y fun i hi => hy i (by omega)

/-! ### `VAULT_SPILL` and `VAULT_RESTORE` (R337) -/

theorem vaultKey_add (v o x : Nat) : vaultKey v (o + x) = vaultKey v o + x := by
  unfold vaultKey
  omega

theorem cast?_updCast (s : State) (p l n : Nat) {f : Cast → Cast}
    (hf : ∀ c, (f c).part = c.part ∧ (f c).launch = c.launch ∧ (f c).num = c.num) :
    (s.updCast p l n f).cast? p l n = (s.cast? p l n).map f :=
  State.find?_updL (fun c => by rw [(hf c).1, (hf c).2.1, (hf c).2.2]) _

/-- A cast whose allocation has come back at `dst`. -/
def regained (src dst : Nat) (c : Cast) : Cast :=
  { c with alloc := some (dst, c.need), spilled := none, spillBufs := [],
           orig := c.orig.map fun x => if x = (c.cluster, src) then (c.cluster, dst) else x }

section
variable {s : State} {part : Nat} {p : Part} {c : Cast} {ks : Nat → Nat} (hp : s.part? part = some p)
  (hwf : memWf s.mem = true) (hcp : c.part = part) (hc : s.cast? part c.launch c.num = some c) (hgath : NothingGathered s)
include hp hwf hcp hc hgath

theorem happens_vaultSpill {o n x : Nat} (ha : c.alloc = some (o, n)) (hx : spillPlace s p n = some x)
    (hdue : spillDue s p c = true) (hk : ∀ i, i < (n + 31) / 32 → backKey s part (x + 32 * i) = some (ks i))
    (hapart : ∀ i j, i < j → j < (n + 31) / 32 → ks i + 32 ≤ ks j ∨ ks j + 32 ≤ ks i)
    (hsrc : ∀ i, i < (n + 31) / 32 →
      ks i + 32 ≤ vaultKey c.cluster o ∨ vaultKey c.cluster o + 32 * ((n + 31) / 32) ≤ ks i) :
    Happens (.vaultSpill part c.launch c.num) s fun t =>
      t.cast? part c.launch c.num = some { c with
        alloc := none, spilled := some o, spillBufs := allocBufs s p c.cluster o n, spillAt := x } ∧
      (∀ i j, i < (n + 31) / 32 → j < 32 →
        memRead t.mem (ks i + j) = memRead s.mem (vaultKey c.cluster o + (32 * i + j))) ∧
      ∀ y, (∀ i, i < (n + 31) / 32 → ¬(ks i ≤ y ∧ y < ks i + 32)) → memRead t.mem y = memRead s.mem y := by
  have hexec : exec (.vaultSpill part c.launch c.num) s = .next (spillCast s p c o n x) := by
    change execVaultSpill part c.launch c.num s = _
    simp only [execVaultSpill, hp, hc, ha, hx, Option.bind_some, Option.map_some, hdue, if_true]
  obtain ⟨hat, hcopied, hother⟩ := copyPieces_spec (src := fun i => some (vaultKey c.cluster (o + 32 * i)))
    (dst := fun i => backKey s p.first (x + 32 * i)) hgath hwf ((n + 31) / 32)
    (a := fun i => vaultKey c.cluster o + 32 * i) (fun i _ => congrArg some (vaultKey_add ..))
    (fun i hi => by rw [first_of_part? hp]; exact hk i hi) hapart (fun i j hi hj => by have := hsrc i hi; omega)
  refine ⟨_, hexec, ?_, fun i j hi hj => ?_, hother⟩
  · subst hcp
    refine (cast?_updCast (f := fun y => { y with
      alloc := none, spilled := some o, spillBufs := allocBufs s p c.cluster o n, spillAt := x })
      _ _ _ _ fun _ => ⟨rfl, rfl, rfl⟩).trans ?_
    rw [State.cast?, hat.casts, show s.casts.find? _ = some c from hc]
    rfl
  · rw [← Nat.add_assoc]
    exact hcopied i j hi hj

theorem happens_vaultRestore {src dst : Nat} (hs : c.spilled = some src) (hb : c.spillBufs = [])
    (hfree : freeVault s c.cluster c.need = some dst) (hdue : restoreDue s p c = true)
    (hk : ∀ i, i < (c.need + 31) / 32 → backKey s part (c.spillAt + 32 * i) = some (ks i))
    (hsrc : ∀ i, i < (c.need + 31) / 32 →
      ks i + 32 ≤ vaultKey c.cluster dst ∨ vaultKey c.cluster dst + 32 * ((c.need + 31) / 32) ≤ ks i) :
    Happens (.vaultRestore part c.launch c.num) s fun t =>
      (∃ c', t.cast? part c.launch c.num = some c' ∧ c'.alloc = some (dst, c.need) ∧ c'.spilled = none ∧
        (c.orig = some (c.cluster, src) → c'.orig = some (c.cluster, dst)) ∧
        (c.orig ≠ some (c.cluster, src) → c'.orig = c.orig)) ∧
      (∀ i j, i < (c.need + 31) / 32 → j < 32 →
        memRead t.mem (vaultKey c.cluster dst + (32 * i + j)) = memRead s.mem (ks i + j)) ∧
      ∀ y, ¬(vaultKey c.cluster dst ≤ y ∧ y < vaultKey c.cluster dst + 32 * ((c.need + 31) / 32)) →
        memRead t.mem y = memRead s.mem y := by
  have hexec : exec (.vaultRestore part c.launch c.num) s = .next (restoreCast s p c src dst) := by
    change execVaultRestore part c.launch c.num s = _
    simp only [execVaultRestore, hp, hc, hs, hfree, hdue, if_true]
  obtain ⟨hat, hcopied, hother⟩ := copyPieces_spec (src := fun i => backKey s p.first (c.spillAt + 32 * i))
    (dst := fun i => some (vaultKey c.cluster (dst + 32 * i))) hgath hwf ((c.need + 31) / 32)
    (b := fun i => vaultKey c.cluster dst + 32 * i) (fun i hi => by rw [first_of_part? hp]; exact hk i hi)
    (fun i _ => congrArg some (vaultKey_add ..)) (fun i j h _ => by omega)
    (fun i j hi hj => by have := hsrc j hj; omega)
  have hmem : (restoreCast s p c src dst).mem = (copyPieces (fun i => backKey s p.first (c.spillAt + 32 * i))
      (fun i => some (vaultKey c.cluster (dst + 32 * i))) ((c.need + 31) / 32) s).mem := by
    simp only [restoreCast, hb, List.foldl_nil]
    rfl
  refine ⟨_, hexec, ?_, fun i j hi hj => ?_, fun y hy => ?_⟩
  · refine ⟨regained src dst c, ?_, rfl, rfl, fun h => ?_, fun h => ?_⟩
    · subst hcp
      refine (cast?_updCast (f := regained src dst) _ _ _ _ fun _ => ⟨rfl, rfl, rfl⟩).trans ?_
      rw [hb, List.foldl_nil, State.cast?]
      dsimp only
      rw [hat.casts, show s.casts.find? _ = some c from hc]
      rfl
    · simp [regained, h]
    · cases ho : c.orig with
      | none => simp [regained, ho]
      | some y => simpa [regained, ho] using fun hy => absurd (by rw [ho, hy]) h
  · rw [hmem, ← Nat.add_assoc]
    exact hcopied i j hi hj
  · rw [hmem]
    exact hother y fun i hi => by omega

end

end Sys2Proof.Machine

namespace Sys2Proof

open Sys2Proof.Machine

/-- Settles O51, from what each event leaves of the registers of the partition, of the copies, of the image and of memory. -/
theorem preemption : Obligations.Preemption := by
  unfold Obligations.Preemption
  intro s part p hp hwf
  refine ⟨fun hover => ⟨fun v hv => ?_, fun hv => happens_vfSliceEnd_again hp hover hv⟩,
    fun vf next hpre hdone => ⟨fun hw => happens_preemptComplete hp hpre hdone hw,
      fun hw h62 => happens_preemptComplete_preq hp hpre hdone hw h62⟩,
    fun v hl hgo => ⟨fun hm hb => ?_, fun hm hb hok => ?_, fun hm hb hok => ?_, fun hm hb => ?_, fun hm hb => ?_⟩,
    fun v i hl hgo hi => ⟨fun hb => pctx_begins hp hl hgo hi hb, fun hb => pctx_refused hp hl hgo hi hb⟩,
    fun hd => happens_pctxComplete hp hd,
    fun c ks hcp hc hgath => ⟨fun o n x ha hx hdue hk hapart hsrc => ?_, fun src dst hs hb hfree hdue hk hsrc => ?_⟩⟩
  · obtain ⟨hkeep, hread, hcopy⟩ := startPreempt_spec (vf := p.sliceVf) (next := v) hp
    obtain ⟨t, he, rfl⟩ := happens_vfSliceEnd hp hover hv
    exact ⟨_, he, hkeep, hread, fun c hc hpart hvf => hcopy c hc hpart (by simpa using hvf)⟩
  · exact preq_begins hp (exec_preqPreempt hp hl hgo hm) hgo hb (by rw [hm, Bool.false_and])
  · exact preq_begins hp (exec_preqMove hp hl hgo hm) hgo hb (by rw [hok, Bool.not_true, Bool.and_false])
  · exact preq_tells hp _ ((exec_preqMove hp hl hgo hm).trans (congrArg _ (preqWrite_bad hgo hb hm hok)))
  · exact preq_tells hp _ ((exec_preqPreempt hp hl hgo hm).trans (congrArg _ (preqWrite_busy hgo hb)))
  · exact preq_tells hp _ ((exec_preqMove hp hl hgo hm).trans (congrArg _ (preqWrite_busy hgo hb)))
  · exact happens_vaultSpill hp hwf hcp hc hgath ha hx hdue hk hapart hsrc
  · exact happens_vaultRestore hp hwf hcp hc hgath hs hb hfree hdue hk hsrc

end Sys2Proof
end

section
/-! PROOF. O52, what the front end reads and writes: reads of the device, the places of fence records, queue contexts (R305,
R307, R310 to R312). -/

namespace Sys2Proof.Machine

open Sys2Proof

/-! ### What reads of the device leave (R186, R324) -/

/-- Reads of the device alone: what the homes combine, and counts. -/
structure DevRead (s t : State) : Prop where
  atHome : AtHome s t
  counts : Counts s t
  home : NothingGathered s → SameHome s t

namespace DevRead
variable {s t u : State}

theorem refl (s : State) : DevRead s s := ⟨.refl s, .refl s, fun _ => .refl s⟩

theorem trans (h : DevRead s t) (h' : DevRead t u) : DevRead s u :=
  ⟨h.atHome.trans h'.atHome, h.counts.trans h'.counts, fun hn => (h.home hn).trans (h'.home (h.atHome.nothingGathered hn))⟩

theorem foldl {α : Type} {f : State → α → State} (hf : ∀ s x, DevRead s (f s x)) (l : List α) (s : State) :
    DevRead s (l.foldl f s) := List.foldlRecOn (motive := DevRead s) l f (refl s) fun _ h x _ => h.trans (hf _ x)

theorem touched (h : DevRead s t) : Touched s t := by
  obtain ⟨⟨d, m, p, l, u, o, -, rfl⟩, ⟨rows, errs, hd⟩, hh⟩ := h
  refine ⟨?_, fun hn => ?_⟩
  · rw [show d = { s.dev with rows := rows, errs := errs } from hd]
  · obtain ⟨hm, hp, hl, hu, ho⟩ := hh hn
    rw [show d = { s.dev with rows := rows, errs := errs } from hd, show m = s.mem from hm, show p = s.poisoned from hp,
      show l = s.lines from hl, show u = s.ucopies from hu, show o = s.homeOrder from ho]

end DevRead

theorem devRead_queueRow (s : State) (k : Nat) : DevRead s (queueRow s k) :=
  ⟨atHome_queueRow s k, counts_queueRow s k, fun _ => sameHome_queueRow s k⟩

theorem devRead_combineAt (s : State) (k n : Nat) : DevRead s (combineAt s k n) :=
  ⟨atHome_combineAt s k n, counts_combineAt s k n, fun hn => by
    rw [combineAt_of_noneGathered (hn.noneGathered k n) le_rfl]
    exact .refl s⟩

theorem devRead_dropFlit (s : State) : DevRead s (dropFlit s) :=
  ⟨atHome_dropFlit s, ⟨_, _, rfl⟩, fun _ => ⟨rfl, rfl, rfl, rfl, rfl⟩⟩

theorem devRead_devTouch (s : State) (part : Nat) (op : PortOp) (ptr n : Nat) : DevRead s (devTouch s part op ptr n) := by
  unfold devTouch
  split
  · split
    · exact (devRead_combineAt ..).trans (devRead_queueRow ..)
    · exact devRead_dropFlit s
  · exact .refl s

theorem devRead_devTouchBlock (s : State) (part : Nat) (op : PortOp) (ptr w n : Nat) :
    DevRead s (devTouchBlock s part op ptr w n) :=
  (devRead_devTouch s part op ptr w).trans (.foldl (fun s i => by
    split
    · split
      · exact devRead_combineAt ..
      · exact devRead_dropFlit s
    · exact .refl s) _ _)

theorem devRead_touchAll (s : State) (part : Nat) (rs : DevReads) : DevRead s (touchAll s part rs) :=
  .foldl (fun _ _ => devRead_devTouchBlock ..) rs s

theorem AtHome.parts {s t : State} (h : AtHome s t) : t.parts = s.parts := by
  obtain ⟨_, _, _, _, _, _, -, rfl⟩ := h
  rfl

theorem AtHome.part? {s t : State} (h : AtHome s t) (n : Nat) : t.part? n = s.part? n := congrArg (List.find? _) h.parts

/-! ### What the port sees (R170) -/

/-- The port finds the same tables, caches, locks and partitions, at the same cy. -/
structure SameView (s t : State) : Prop where
  peek : ∀ k n, homePeek t k n = homePeek s k n
  time : t.time = s.time
  parts : t.parts = s.parts
  bcache : t.bcache = s.bcache
  pcache : t.pcache = s.pcache
  locks : t.locks = s.locks
  ctls : t.ctls = s.ctls

namespace SameView
variable {s t : State} (h : SameView s t)
include h

theorem part? (n : Nat) : t.part? n = s.part? n := congrArg (List.find? _) h.parts
theorem btSeen (core : Nat) (p : Part) (idx lane : Nat) : btSeen t core p idx lane = btSeen s core p idx lane := by
  rw [Machine.btSeen, Machine.btSeen, h.bcache, h.time, btMem_congr h.peek]

theorem ptSeen (core : Nat) (p : Part) (e idx page lane : Nat) :
    ptSeen t core p e idx page lane = ptSeen s core p e idx page lane := by
  rw [Machine.ptSeen, Machine.ptSeen, h.pcache, h.time, tableNat_congr h.peek]

theorem locate (core : Nat) (p : Part) (e idx off lane : Nat) :
    locate t core p e idx off lane = locate s core p e idx off lane := by
  simp only [Machine.locate, h.ptSeen]

theorem pmpOk (r : Req) (op : PortOp) (idx off size : Nat) : pmpOk t r op idx off size = pmpOk s r op idx off size := by
  simp only [Machine.pmpOk, State.ctl?, h.ctls]

theorem lockedOut (op : PortOp) (p : Part) (idx off size : Nat) :
    lockedOut t op p idx off size = lockedOut s op p idx off size := by
  simp only [Machine.lockedOut, h.locks, btMem_congr h.peek]

theorem portCheck (r : Req) (op : PortOp) (idx off size : Nat) : portCheck t r op idx off size = portCheck s r op idx off size := by
  simp only [Machine.portCheck, portCheck8, h.part?, h.btSeen, h.locate, h.pmpOk, h.lockedOut]

theorem reaches (slot k : Nat) : t.reaches slot k = s.reaches slot k := by
  simp only [State.reaches, State.partOfSlot, h.parts]

theorem devLocate (part : Nat) (op : PortOp) (ptr size : Nat) : devLocate t part op ptr size = devLocate s part op ptr size := by
  have hp : devPlace t part op ptr size = devPlace s part op ptr size := h.portCheck ..
  rw [Machine.devLocate, Machine.devLocate, devLost, devLost, hp]
  simp only [h.reaches]

theorem fencePlaces (part ptr : Nat) : fencePlaces t part ptr = fencePlaces s part ptr := by
  simp only [Machine.fencePlaces, h.devLocate]

end SameView

/-- Counts of the device and the choices left to the part do not bear on what the port sees. -/
theorem SameHome.homePeek {s t : State} (h : SameHome s t) (k n : Nat) : homePeek t k n = homePeek s k n :=
  (h.combineAt k n).peek k n

theorem DevRead.sameView {s t : State} (h : DevRead s t) (hn : NothingGathered s) : SameView s t := by
  have hp := (h.home hn).homePeek
  obtain ⟨⟨_, _, _, _, _, _, -, rfl⟩, -, -⟩ := h
  exact ⟨hp, rfl, rfl, rfl, rfl, rfl, rfl⟩

/-! ### Fence records (R310, R311) -/

/-- The bytes of a write of the device. -/
theorem writeHome_mem_of_nothing {s : State} (hn : NothingGathered s) (k n x : Nat) :
    (writeHome s k n x false).1.mem = memWriteBytes s.mem k (leBytes n x) := by
  rw [writeHome_mem, combineAt_of_noneGathered (hn.noneGathered k n) le_rfl]

theorem holds_memWriteBytes_after {m : List Host.Cell} {k n x k' : Nat} {bs : List Byte} (h : Holds m k n x) (hk : k + n ≤ k') :
    Holds (memWriteBytes m k' bs) k n x := fun i hi => by
  rw [memRead_memWriteBytes_other _ _ _ _ (by omega)]
  exact h i hi

/-- The status of a fence record is written, with the GWCT of that write. -/
def statusWritten (s : State) (k st : Nat) : State × Nat × BitVec 16 := writeHome (queueRow s k) k 4 st false

theorem atHome_statusWritten (s : State) (k st : Nat) : AtHome s (statusWritten s k st).1 :=
  (atHome_queueRow s k).trans (atHome_writeHome ..)

theorem statusWritten_mem {s : State} (hn : NothingGathered s) (k st : Nat) :
    (statusWritten s k st).1.mem = memWriteBytes s.mem k (leBytes 4 st) := by
  rw [statusWritten, writeHome_mem_of_nothing ((atHome_queueRow s k).nothingGathered hn), queueRow_mem]

/-- The write is complete in scope `sys` when the leases of its line have expired, at the earliest (R175). -/
theorem lx_le_statusWritten {s : State} (hn : NothingGathered s) {k : Nat} (hc : keyChan k ≠ none) (st : Nat) :
    (lineAt s (lineOf k)).lx ≤ (statusWritten s k st).2.1 := by
  have hu := (atHome_queueRow s k).nothingGathered hn
  change _ ≤ (stamp (storeAt (combineAt (queueRow s k) k 4) k 4 st false) k).2.1
  rw [combineAt_of_noneGathered (hu.noneGathered k 4) le_rfl, stamp, if_pos (Option.isSome_iff_ne_none.2 hc)]
  refine Nat.le_trans (Nat.le_of_eq ?_) (Nat.le_max_right _ _)
  exact congrArg Line.lx ((sameHome_queueRow s k).lineAt (lineOf k)).symm

/-- Status and launch number are written, the status lower. -/
theorem fenceStatus_spec {s : State} {part ptr k1 k2 k3 : Nat} (st n : Nat)
    (hf : fencePlaces s part ptr = some (k1, k2, k3)) :
    ∃ t g, fenceStatus s part ptr st n = some (t, g) ∧ AtHome s t ∧
      (NothingGathered s → memWf s.mem = true → k1 + 4 ≤ k2 → Holds t.mem k1 4 st) ∧
      (NothingGathered s → keyChan k1 ≠ none → (lineAt s (lineOf k1)).lx ≤ g) := by
  have hat := atHome_statusWritten s k1 st
  have hst : fenceStatus s part ptr st n = some ((writeHome (statusWritten s k1 st).1 k2 4 (n % 2 ^ 16) false).1,
      max (statusWritten s k1 st).2.1 (writeHome (statusWritten s k1 st).1 k2 4 (n % 2 ^ 16) false).2.1) := by
    rw [fenceStatus, hf]
    rfl
  refine ⟨_, _, hst, hat.trans (atHome_writeHome ..), fun hn hw hk => ?_, fun hn hc => ?_⟩
  · rw [writeHome_mem_of_nothing (hat.nothingGathered hn), statusWritten_mem hn]
    exact holds_memWriteBytes_after (holds_memWriteBytes hw k1 4 st) hk
  · exact Nat.le_trans (lx_le_statusWritten hn hc st) (Nat.le_max_left _ _)

/-! ### Queue contexts (R305) -/

theorem part?_updQueue {s : State} {part : Nat} {p : Part} (hp : s.part? part = some p) (q : Nat) (f : Queue → Queue) :
    (updQueue s part q f).part? part = some { p with queues := setL p.queues q (f (p.queue q)) } :=
  part?_updPart_self hp _ fun _ => rfl

/-- A queue context is as `f` makes it. -/
theorem queue_updQueue {s : State} {part : Nat} {p : Part} (hp : s.part? part = some p) (q : Nat) (f : Queue → Queue) :
    ∃ p', (updQueue s part q f).part? part = some p' ∧ p'.queue q = f (p.queue q) :=
  ⟨_, part?_updQueue hp q f, queue_setL_same p q _⟩

/-- Dependences are read again; of a queue context nothing else changes. -/
theorem queue_rereadDeps {s : State} {part : Nat} {p : Part} (hp : s.part? part = some p) (q : Nat) :
    ∃ p', (rereadDeps s part).part? part = some p' ∧ p'.queue q = { p.queue q with depRead := none } := by
  refine ⟨_, part?_updPart_self hp _ fun _ => rfl, ?_⟩
  simp only [Part.queue, getL, List.find?_map]
  change (((p.queues.find? fun x => decide (x.1 = q)).map _).map _).getD _ = _
  cases p.queues.find? fun x => decide (x.1 = q) with
  | none => rfl
  | some x => rfl

/-- The value of a fence record is written, and the dependences of the partition are read again. -/
theorem fenceValue_spec {s : State} {part ptr k1 k2 k3 : Nat} {p : Part} (q val : Nat) (hp : s.part? part = some p)
    (hf : fencePlaces s part ptr = some (k1, k2, k3)) :
    (∃ u ps, AtHome s u ∧ fenceValue s part q ptr val = { u with parts := ps }) ∧
    (∀ q', ∃ p', (fenceValue s part q ptr val).part? part = some p' ∧ p'.queue q' = { p.queue q' with depRead := none }) ∧
    (NothingGathered s → memWf s.mem = true → Holds (fenceValue s part q ptr val).mem k3 8 val ∧
      ∀ x, ¬(k3 ≤ x ∧ x < k3 + 8) → memRead (fenceValue s part q ptr val).mem x = memRead s.mem x) := by
  have hv : fenceValue s part q ptr val = rereadDeps (devStore s k3 8 val) part := by rw [fenceValue, hf]
  have hat := atHome_devStore s k3 8 val
  rw [hv]
  refine ⟨⟨devStore s k3 8 val, _, hat, rfl⟩, fun q' => queue_rereadDeps ((hat.part? part).trans hp) q', fun hn hw => ?_⟩
  have hmem : (rereadDeps (devStore s k3 8 val) part).mem = memWriteBytes s.mem k3 (leBytes 8 val) := by
    change (writeHome (queueRow s k3) k3 8 val false).1.mem = _
    rw [writeHome_mem_of_nothing ((atHome_queueRow s k3).nothingGathered hn), queueRow_mem]
  rw [hmem]
  exact ⟨holds_memWriteBytes hw k3 8 val, fun x hx => memRead_memWriteBytes_other _ _ _ _ (by rwa [length_leBytes])⟩

end Sys2Proof.Machine
end

section
/-! PROOF. O52, bundles are read, refused and retried (R307, R310 to R312), and what the front end counts (R313, R316, R324). -/

namespace Sys2Proof.Machine

open Sys2Proof

/-! ### `BUNDLE_READ` and `DEP_REREAD` (R307, R312) -/

/-- The state in which the bundle at the head of a queue has been read. -/
def headRead (s : State) (p : Part) (q : Nat) : State :=
  devTouchBlock s p.first .load (ringPtr (p.queue q) (p.queue q).head.toNat) 16 8

/-- What stands at the head of a queue, if it can be read. -/
def headOf (s : State) (p : Part) (q : Nat) : Option Nat :=
  if blockPoisoned (headRead s p q) p.first (ringPtr (p.queue q) (p.queue q).head.toNat) 8 then none
  else devReadBlock (headRead s p q) p.first (ringPtr (p.queue q) (p.queue q).head.toNat) 8

/-- A queue context that has read its head. -/
def headDone (now : Nat) (x : Queue) : Option Nat → Queue
  | some b => { x with head := x.head + 1, headBundle := some b, headLaunch := none, since := now, depRead := none,
                       depOk := false, unretired := x.unretired + 1 }
  | none => { x with head := x.head + 1, blost := true }

theorem readBundle_eq (s : State) (p : Part) (q : Nat) : readBundle s p q =
    updQueue (headRead s p q) p.first q fun x => headDone (headRead s p q).time x (headOf s p q) := by
  unfold readBundle
  change (match headOf s p q with | some b => _ | none => _) = _
  cases headOf s p q with
  | none => rfl
  | some b => rfl

section
variable {s : State} {part : Nat} {p : Part} (hp : s.part? part = some p)
include hp

theorem exec_bundleRead {q : Nat} (hd : readDue s p q = true) : exec (.bundleRead part q) s = .next (readBundle s p q) := by
  change execBundleRead part q s = _
  simp only [execBundleRead, hp, hd, if_true]

theorem happens_bundleRead {q : Nat} (hd : readDue s p q = true) :
    let x := p.queue q
    let ptr := ringPtr x x.head.toNat
    let u := devTouchBlock s part .load ptr 16 8
    Touched s u ∧
    (∀ b, blockPoisoned u part ptr 8 = false → devReadBlock u part ptr 8 = some b → Happens (.bundleRead part q) s fun t =>
      t = { u with parts := t.parts } ∧ ∃ p', t.part? part = some p' ∧ p'.queue q = { x with
        head := x.head + 1, headBundle := some b, headLaunch := none, since := s.time, depRead := none, depOk := false,
        unretired := x.unretired + 1 }) ∧
    (blockPoisoned u part ptr 8 = true ∨ devReadBlock u part ptr 8 = none → Happens (.bundleRead part q) s fun t =>
      t = { u with parts := t.parts } ∧ ∃ p', t.part? part = some p' ∧
        p'.queue q = { x with head := x.head + 1, blost := true }) := by
  have hfirst := first_of_part? hp
  have hr : DevRead s (headRead s p q) := devRead_devTouchBlock ..
  have hexec := exec_bundleRead hp hd
  have hqueue := queue_updQueue ((hr.atHome.part? part).trans hp) q fun x => headDone (headRead s p q).time x (headOf s p q)
  rw [readBundle_eq, hfirst] at hexec
  have htouch := hr.touched
  have htime := hr.atHome.time
  have hof : headOf s p q = if blockPoisoned (headRead s p q) p.first (ringPtr (p.queue q) (p.queue q).head.toNat) 8 then none
    else devReadBlock (headRead s p q) p.first (ringPtr (p.queue q) (p.queue q).head.toNat) 8 := rfl
  have hu : headRead s p q = devTouchBlock s part .load (ringPtr (p.queue q) (p.queue q).head.toNat) 16 8 := by
    rw [headRead, hfirst]
  rw [hfirst] at hof
  dsimp only
  rw [← hu]
  refine ⟨htouch, fun b hb hread => ⟨_, hexec, rfl, ?_⟩, fun hbad => ⟨_, hexec, rfl, ?_⟩⟩
  · rw [hb, hread, if_neg Bool.false_ne_true] at hof
    rw [hof, htime] at hqueue ⊢
    exact hqueue
  · have hnone : headOf s p q = none := by
      rw [hof]
      obtain h | h := hbad
      · rw [h, if_pos rfl]
      · rw [h, ite_self]
    rw [hnone] at hqueue ⊢
    exact hqueue

theorem happens_depReread {q : Nat} (hd : rereadDue s p q = true) : Happens (.depReread part q) s fun t =>
    (∃ u, Touched s u ∧ t = { u with parts := t.parts }) ∧ ∃ p', t.part? part = some p' ∧
      p'.queue q = { p.queue q with depRead := some s.time, depOk := ((p.queue q).headBundle).any fun b => depsOk s part b } := by
  have hr := devRead_touchAll s part (depReads s part (((p.queue q).headBundle).getD 0))
  have hexec : exec (.depReread part q) s = .next (updQueue
      (touchAll s part (depReads s part (((p.queue q).headBundle).getD 0))) part q fun x =>
        { x with depRead := some s.time, depOk := ((p.queue q).headBundle).any fun b => depsOk s part b }) := by
    change execDepReread part q s = _
    simp only [execDepReread, hp, hd, if_true]
  exact ⟨_, hexec, ⟨_, hr.touched, rfl⟩, queue_updQueue ((hr.atHome.part? part).trans hp) q _⟩

/-! ### Refusals (R310, R311) -/

/-- What the front end reads of a bundle that it refuses. -/
def refusalReads (s : State) (part b : Nat) : State :=
  { touchAll s part (bundleReads s part b true) with free := s.free + 1 }

omit hp in
theorem sameView_refusalReads (b : Nat) (hn : NothingGathered s) : SameView s (refusalReads s part b) := by
  have hr := devRead_touchAll s part (bundleReads s part b true)
  have hv := hr.sameView hn
  have hpeek (k n : Nat) : homePeek (refusalReads s part b) k n = homePeek (touchAll s part (bundleReads s part b true)) k n :=
    (show SameHome (touchAll s part (bundleReads s part b true)) (refusalReads s part b) from
      ⟨rfl, rfl, rfl, rfl, rfl⟩).homePeek k n
  exact ⟨fun k n => (hpeek k n).trans (hv.peek k n), hv.time, hv.parts, hv.bcache, hv.pcache, hv.locks, hv.ctls⟩

omit hp in
theorem refuseBundle_of_some {t : State} {q b st g : Nat}
    (h : fenceStatus (refusalReads s p.first b) p.first (bFencePtr b) st (Config.value32 s.free).toNat = some (t, g)) :
    refuseBundle s p q b st = updQueue t p.first q fun x => { x with refused := some g } := by
  unfold refuseBundle
  change (match fenceStatus (refusalReads s p.first b) p.first (bFencePtr b) st (Config.value32 s.free).toNat with
    | none => _
    | some (s, g) => _) = _
  generalize fenceStatus (refusalReads s p.first b) p.first (bFencePtr b) st (Config.value32 s.free).toNat = o at h ⊢
  rw [h]

/-- A bundle is refused: its status is written, and the queue waits for that write. -/
theorem refuseBundle_spec {k1 k2 k3 : Nat} (q b st : Nat) (hf : fencePlaces s part (bFencePtr b) = some (k1, k2, k3))
    (hn : NothingGathered s) (hw : memWf s.mem = true) (hk : k1 + 4 ≤ k2) :
    Holds (refuseBundle s p q b st).mem k1 4 st ∧ (refuseBundle s p q b st).launches = s.launches ∧
    (refuseBundle s p q b st).casts = s.casts ∧ ∃ p', (refuseBundle s p q b st).part? part = some p' ∧
      (p'.queue q).refused.isSome = true ∧ (p'.queue q).headBundle = (p.queue q).headBundle := by
  have hr := devRead_touchAll s part (bundleReads s part b true)
  have hhome := hr.home hn
  have hu : NothingGathered (refusalReads s part b) := hr.atHome.nothingGathered hn
  obtain ⟨t, g, hst, hat, hholds, -⟩ := fenceStatus_spec st (Config.value32 s.free).toNat
    (((sameView_refusalReads (part := part) b hn).fencePlaces part (bFencePtr b)).trans hf)
  have heq : refuseBundle s p q b st = updQueue t part q fun x => { x with refused := some g } := by
    rw [refuseBundle_of_some (by rw [first_of_part? hp]; exact hst), first_of_part? hp]
  have hpart : t.part? part = some p := ((hat.part? part).trans (hr.atHome.part? part)).trans hp
  obtain ⟨p', hp', hq⟩ := queue_updQueue hpart q fun x => { x with refused := some g }
  rw [heq]
  refine ⟨hholds hu (by rw [show (refusalReads s part b).mem = s.mem from hhome.mem]; exact hw) hk,
    hat.inPool.launches.trans hr.atHome.inPool.launches, hat.casts.trans hr.atHome.casts, p', hp', ?_, ?_⟩
  · rw [hq]
    rfl
  · rw [hq]

theorem happens_castAdmit_refuse {q b st k1 k2 k3 : Nat} (hhead : (refusals s p).head? = some (q, b, some st))
    (hf : fencePlaces s part (bFencePtr b) = some (k1, k2, k3)) (hn : NothingGathered s) (hw : memWf s.mem = true)
    (hk : k1 + 4 ≤ k2) : Happens (.castAdmit part) s fun t => Holds t.mem k1 4 st ∧ ∃ p', t.part? part = some p' ∧
      (p'.queue q).refused.isSome = true ∧ (p'.queue q).headBundle = (p.queue q).headBundle := by
  have hexec : exec (.castAdmit part) s = .next (refuseBundle s p q b st) := by
    change execCastAdmit part s = _
    simp only [execCastAdmit, hp, hhead]
  obtain ⟨hholds, -, -, hq⟩ := refuseBundle_spec hp q b st hf hn hw hk
  exact ⟨_, hexec, hholds, hq⟩

theorem happens_castAdmit_finish {q b k1 k2 k3 : Nat} (hhead : (refusals s p).head? = some (q, b, none))
    (hf : fencePlaces s part (bFencePtr b) = some (k1, k2, k3)) (hn : NothingGathered s) (hw : memWf s.mem = true) :
    Happens (.castAdmit part) s fun t => Holds t.mem k3 8 (bFenceVal b) ∧
      (∀ x, ¬(k3 ≤ x ∧ x < k3 + 8) → memRead t.mem x = memRead s.mem x) ∧ ∃ p', t.part? part = some p' ∧
        (p'.queue q).headBundle = none ∧ (p'.queue q).refused = none ∧ (p'.queue q).unretired = (p.queue q).unretired - 1 := by
  have hexec : exec (.castAdmit part) s = .next (finishRefused s p q b) := by
    change execCastAdmit part s = _
    simp only [execCastAdmit, hp, hhead]
  obtain ⟨-, hqueue, hmem⟩ := fenceValue_spec q (bFenceVal b) hp hf
  obtain ⟨hholds, hother⟩ := hmem hn hw
  obtain ⟨p1, hp1, hq1⟩ := hqueue q
  obtain ⟨p', hp', hq⟩ := queue_updQueue hp1 q fun x =>
    { x with headBundle := none, refused := none, unretired := x.unretired - 1 }
  simp only [finishRefused, first_of_part? hp] at hexec
  refine ⟨_, hexec, hholds, hother, p', hp', ?_, ?_, ?_⟩
  · rw [hq]
  · rw [hq]
  · rw [hq, hq1]

theorem happens_castAdmit_slice {ds : List (Nat × Int)} {proc k1 k2 k3 : Nat} {a : Adm} (hno : refusals s p = [])
    (hab : abandoned s p = none) (hch : chooseAdm s p = some (ds, proc, a)) (ha : a.launch = none)
    (hsl : sliceRefused s p (p.queue a.q) a.bundle = true)
    (hf : fencePlaces s part (bFencePtr a.bundle) = some (k1, k2, k3)) (hn : NothingGathered s) (hw : memWf s.mem = true)
    (hk : k1 + 4 ≤ k2) : Happens (.castAdmit part) s fun t => Holds t.mem k1 4 1 ∧ t.launches = s.launches ∧
      t.casts = s.casts ∧ ∃ p', t.part? part = some p' ∧ (p'.queue a.q).refused.isSome = true := by
  have hexec : exec (.castAdmit part) s = .next (refuseBundle s p a.q a.bundle 1) := by
    change execCastAdmit part s = _
    simp only [execCastAdmit, hp, hno, List.head?_nil, hab, hch, admitNext, ha, Option.isNone_none, hsl, and_self, if_true]
  obtain ⟨hholds, hl, hc, p', hp', href, -⟩ := refuseBundle_spec hp a.q a.bundle 1 hf hn hw hk
  exact ⟨_, hexec, hholds, hl, hc, p', hp', href⟩

theorem happens_castAdmit_idle (hno : refusals s p = []) (hab : abandoned s p = none) (hch : chooseAdm s p = none) :
    Happens (.castAdmit part) s fun t => t = { s with parts := t.parts } ∧
      t.part? part = some { p with deficits := idleDeficits p } := by
  have hexec : exec (.castAdmit part) s = .next (s.updPart part fun p => { p with deficits := idleDeficits p }) := by
    change execCastAdmit part s = _
    simp only [execCastAdmit, hp, hno, List.head?_nil, hab, hch]
  exact ⟨_, hexec, rfl, part?_updPart_self hp _ fun _ => rfl⟩

/-! ### Energy (R313) -/

theorem happens_enacctSample (hs : p.sampled < s.time / 10000) : Happens (.enacctSample part) s fun t =>
    t = { s with parts := t.parts, free := s.free + 1 } ∧
    ∃ e p', t.part? part = some p' ∧ p'.enacct = p.enacct + BitVec.ofNat 64 e ∧ p'.sampled = p.sampled + 1 := by
  have hexec : exec (.enacctSample part) s = .next (({ s with free := s.free + 1 } : State).updPart part fun p =>
      { p with enacct := p.enacct + BitVec.ofNat 64 (Config.energy s.free), sampled := p.sampled + 1,
               enLog := (s.time, Config.energy s.free) :: p.enLog.filter fun x => decide (s.time < x.1 + 1000000) }) := by
    change execEnacctSample part s = _
    simp only [execEnacctSample, hp, hs, if_true]
  exact ⟨_, hexec, rfl, Config.energy s.free, _, part?_updPart_self hp _ fun _ => rfl, rfl, rfl⟩

end

/-! ### Rows (R324) -/

theorem happens_rowWindowEnd {s : State} {chan : Nat} (h : rowsOld s chan = true) : Happens (.rowWindowEnd chan) s fun t =>
    t = { s with dev := { s.dev with
      rows := s.dev.rows.filter fun x => !(x.chan = chan && decide (x.last / 32000000 < s.time / 32000000)) } } := by
  have hexec : exec (.rowWindowEnd chan) s =
      .next (s.updDev fun d => { d with rows := d.rows.filter fun x => !rowOld s chan x }) := by
    change execRowWindowEnd chan s = _
    simp only [execRowWindowEnd, h, if_true]
  exact ⟨_, hexec, rfl⟩

/-! ### Steals (R322) -/

theorem happens_stealRequest {s : State} {cluster v : Nat} (h : stealDue s cluster = some v) :
    Happens (.stealRequest cluster) s fun t => t = { s with steals := s.steals ++ [(cluster, v, none)] } := by
  have hexec : exec (.stealRequest cluster) s = .next { s with steals := s.steals ++ [(cluster, v, none)] } := by
    change execStealRequest cluster s = _
    simp only [execStealRequest, h]
  exact ⟨_, hexec, rfl⟩

/-- Casts of a list of keys change by `f`. -/
def moveCasts (f : Cast → Cast) (s : State) (ks : List (Nat × Nat × Nat)) : State :=
  ks.foldl (fun s k => s.updCast k.1 k.2.1 k.2.2 f) s

/-- A change of where a cast stands. -/
structure Rehomes (f : Cast → Cast) : Prop where
  key : ∀ c, (f c).part = c.part ∧ (f c).launch = c.launch ∧ (f c).num = c.num
  again : ∀ c, f (f c) = f c

theorem moveCasts_frame (f : Cast → Cast) (s : State) (ks : List (Nat × Nat × Nat)) :
    ∃ cs, moveCasts f s ks = { s with casts := cs } :=
  List.foldlRecOn (motive := fun u : State => ∃ cs, u = { s with casts := cs }) ks _ ⟨_, rfl⟩ fun u hu k _ => by
    obtain ⟨cs, rfl⟩ := hu
    exact ⟨_, rfl⟩

theorem cast?_updCast_any {f : Cast → Cast} (hf : Rehomes f) (s : State) (k : Nat × Nat × Nat) (p l n : Nat) :
    (s.updCast k.1 k.2.1 k.2.2 f).cast? p l n = (s.cast? p l n).map fun c => if (p, l, n) = k then f c else c := by
  refine (find?_updL_any (fun c => ?_) s.casts).trans ?_
  · rw [(hf.key c).1, (hf.key c).2.1, (hf.key c).2.2]
  · cases hc : s.cast? p l n with
    | none => rw [show s.casts.find? _ = none from hc]; rfl
    | some c =>
      rw [show s.casts.find? _ = some c from hc]
      have hkey := List.find?_some hc
      simp only [Bool.and_eq_true, decide_eq_true_eq] at hkey
      obtain ⟨⟨rfl, rfl⟩, rfl⟩ := hkey
      obtain ⟨a, b, d⟩ := k
      simp only [Option.map_some, Bool.and_eq_true, decide_eq_true_eq, Prod.mk.injEq, and_assoc]

theorem cast?_moveCasts {f : Cast → Cast} (hf : Rehomes f) (ks : List (Nat × Nat × Nat)) (s : State) (p l n : Nat) :
    (moveCasts f s ks).cast? p l n = (s.cast? p l n).map fun c => if (p, l, n) ∈ ks then f c else c := by
  induction ks generalizing s with
  | nil => simp [moveCasts]
  | cons k ks ih =>
    rw [show moveCasts f s (k :: ks) = moveCasts f (s.updCast k.1 k.2.1 k.2.2 f) ks from rfl, ih, cast?_updCast_any hf,
      Option.map_map]
    congr 1
    funext c
    by_cases h1 : (p, l, n) = k <;> by_cases h2 : (p, l, n) ∈ ks <;> simp [h1, h2, hf.again]

/-- A cast that is on its way between clusters. -/
def toNowhere (c : Cast) : Cast := { c with cluster := nowhere }

/-- A cast that was on its way has arrived at its thief. -/
def toThief (thief : Nat) (c : Cast) : Cast := if c.cluster = nowhere then { c with cluster := thief } else c

theorem rehomes_toNowhere : Rehomes toNowhere := ⟨fun _ => ⟨rfl, rfl, rfl⟩, fun _ => rfl⟩

theorem rehomes_toThief (thief : Nat) : Rehomes (toThief thief) := by
  refine ⟨fun c => ?_, fun c => ?_⟩
  · unfold toThief
    split <;> exact ⟨rfl, rfl, rfl⟩
  · by_cases h : c.cluster = nowhere
    · simp [toThief, h]
    · simp [toThief, h]

/-- At most four casts of a cluster have set out. -/
def setOut (s : State) (v : Nat) : State :=
  moveCasts toNowhere s (((stealableCasts s v).take 4).map fun c => (c.part, c.launch, c.num))

theorem happens_stealHandle {s : State} {thief v : Nat}
    (h : s.steals.find? (fun x => x.1 = thief && x.2.2.isNone) = some (thief, v, none)) :
    Happens (.stealHandle thief) s fun t => t = { s with casts := t.casts, steals := t.steals } ∧
      (thief, v, some (((stealableCasts s v).take 4).map fun c => (c.launch, c.num))) ∈ t.steals ∧
      ∀ c ∈ (stealableCasts s v).take 4, s.cast? c.part c.launch c.num = some c →
        t.cast? c.part c.launch c.num = some { c with cluster := nowhere } := by
  have hexec : exec (.stealHandle thief) s = .next { setOut s v with steals := (setOut s v).steals.map fun x =>
      if x.1 = thief then (thief, v, some (((stealableCasts s v).take 4).map fun c => (c.launch, c.num))) else x } := by
    change execStealHandle thief s = _
    simp only [execStealHandle, h, setOut, moveCasts, List.foldl_map]
    rfl
  obtain ⟨xs, hu⟩ := moveCasts_frame toNowhere s (((stealableCasts s v).take 4).map fun c => (c.part, c.launch, c.num))
  change setOut s v = _ at hu
  refine ⟨_, hexec, ?_, ?_, fun c hc hcast => ?_⟩
  · rw [hu]
  · rw [hu]
    exact List.mem_map.2 ⟨_, List.mem_of_find?_eq_some h, if_pos rfl⟩
  · refine (cast?_moveCasts rehomes_toNowhere _ s c.part c.launch c.num).trans ?_
    rw [hcast, Option.map_some, if_pos (List.mem_map.2 ⟨c, hc, rfl⟩)]
    rfl

theorem happens_stealReply_none {s : State} {thief v : Nat}
    (h : s.steals.find? (fun x => x.1 = thief && x.2.2.isSome) = some (thief, v, some [])) :
    Happens (.stealReply thief) s fun t => t = { s with
      steals := s.steals.filter (fun x => x.1 ≠ thief), stealAfter := setL s.stealAfter thief (s.time + 1000) } := by
  refine ⟨_, ?_, rfl⟩
  change execStealReply thief s = _
  simp only [execStealReply, h, List.isEmpty_nil, if_true]

/-- The thief has its reply: it asks again in the next cy at the earliest. -/
def replied (s : State) (thief : Nat) : State :=
  { s with steals := s.steals.filter fun x => x.1 ≠ thief, stealAfter := setL s.stealAfter thief (s.time + 1) }

theorem happens_stealReply {s : State} {part thief v : Nat} {p : Part} (hp : s.part? part = some p) {cs : List (Nat × Nat)}
    (h : s.steals.find? (fun x => x.1 = thief && x.2.2.isSome) = some (thief, v, some cs)) (hne : cs ≠ [])
    (hslot : s.partOfSlot (slotOfCluster thief) = some p) : Happens (.stealReply thief) s fun t =>
      t = { s with casts := t.casts, steals := s.steals.filter (fun x => x.1 ≠ thief), stealAfter := t.stealAfter } ∧
      ∀ x ∈ cs, ∀ c, s.cast? part x.1 x.2 = some c → c.cluster = nowhere →
        t.cast? part x.1 x.2 = some { c with cluster := thief } := by
  have hexec : exec (.stealReply thief) s =
      .next (moveCasts (toThief thief) (replied s thief) (cs.map fun x => (part, x.1, x.2))) := by
    change execStealReply thief s = _
    have hemp : cs.isEmpty = false := by simpa using hne
    have hslot' : ({ s with steals := s.steals.filter fun x => x.1 ≠ thief } : State).partOfSlot (slotOfCluster thief) = some p :=
      hslot
    simp only [execStealReply, h, hemp, Bool.false_eq_true, if_false, hslot', first_of_part? hp, moveCasts, List.foldl_map]
    rfl
  obtain ⟨xs, hu⟩ := moveCasts_frame (toThief thief) (replied s thief) (cs.map fun x => (part, x.1, x.2))
  refine ⟨_, hexec, by rw [hu]; rfl, fun x hx c hc hno => ?_⟩
  rw [cast?_moveCasts (rehomes_toThief thief), show (replied s thief).cast? part x.1 x.2 = some c from hc, Option.map_some,
    if_pos (List.mem_map.2 ⟨x, hx, rfl⟩), toThief, if_pos hno]

end Sys2Proof.Machine
end

section
/-! PROOF. O52, casts and pours start, epilogues run, and launches retire (R42, R311, R314, R361). -/

namespace Sys2Proof.Machine

open Sys2Proof

/-! ### A pour starts (R42) -/

/-- Lane `i` of a new pour takes its thread, and in a protected launch the shadow too (R136). -/
def putThread (l : Launch) (c : Cast) (j core slot : Nat) (s : State) (i : Nat) : State :=
  let one (tid i : Nat) : Thread :=
    { Thread.fresh tid c.part c.launch c.num (j * pourWidth l + i) (.lane core slot i) l.param with run := c.run }
  if l.protected then
    { s with nextId := s.nextId + 2,
             threads := s.threads ++ [{ one s.nextId i with twin := s.nextId + 1 },
               { one (s.nextId + 1) i with shadow := true, twin := s.nextId }] }
  else { s with nextId := s.nextId + 1, threads := s.threads ++ [one s.nextId i] }

/-- The lanes of pour `j` of a cast. -/
def lanesOf (l : Launch) (c : Cast) (j : Nat) : List Nat :=
  (List.range (pourWidth l)).filter fun i => decide (j * pourWidth l + i < c.threads)

/-- Pour `j` of a cast as it starts. -/
def firstPour (s : State) (l : Launch) (c : Cast) (j core : Nat) : Pour :=
  { core, slot := freeSlot s core, part := c.part, launch := c.launch,
    entries := [{ pc := BitVec.ofNat 32 (kEntry l.kinfo), prio := BitVec.ofNat 4 (kPrio l.kinfo), mask := maskOf (lanesOf l c j),
                  buf := l.codeBuf, stall := none, split := none }],
    k := Vector.replicate 12 0, ready := s.time + 1, last := s.time, formed := s.time, fromAnnex := false,
    readySince := none, promoted := false, refs := [], poolStalled := none }

/-- The threads of a pour are put on their lanes. -/
def manned (s : State) (l : Launch) (c : Cast) (j core : Nat) : State :=
  (lanesOf l c j).foldl (putThread l c j core (freeSlot s core)) s

theorem startPour_eq (s : State) (l : Launch) (c : Cast) (j core : Nat) : startPour s l c j core =
    { manned s l c j core with pours := (manned s l c j core).pours ++ [firstPour s l c j core] } := rfl

/-- Thread `u` is that of lane `i` of a pour of a cast. -/
def LaneThread (l : Launch) (c : Cast) (j core slot i : Nat) (u : Thread) : Prop :=
  u.tic = j * pourWidth l + i ∧ u.loc = .lane core slot i ∧ u.part = c.part ∧ u.launch = c.launch ∧ u.cast = c.num ∧
    u.shadow = false ∧ u.run = c.run

theorem putThread_spec (l : Launch) (c : Cast) (j core slot : Nat) (s : State) (i : Nat) :
    (∃ n th, putThread l c j core slot s i = { s with nextId := n, threads := th }) ∧
    (∀ u ∈ s.threads, u ∈ (putThread l c j core slot s i).threads) ∧
    ∃ u ∈ (putThread l c j core slot s i).threads, LaneThread l c j core slot i u := by
  unfold putThread
  dsimp only
  split
  · exact ⟨⟨_, _, rfl⟩, fun u hu => List.mem_append_left _ hu,
      _, List.mem_append_right _ (List.mem_cons_self ..), rfl, rfl, rfl, rfl, rfl, rfl, rfl⟩
  · exact ⟨⟨_, _, rfl⟩, fun u hu => List.mem_append_left _ hu,
      _, List.mem_append_right _ (List.mem_cons_self ..), rfl, rfl, rfl, rfl, rfl, rfl, rfl⟩

theorem foldl_putThread_spec (l : Launch) (c : Cast) (j core slot : Nat) (is : List Nat) (s : State) :
    (∃ n th, is.foldl (putThread l c j core slot) s = { s with nextId := n, threads := th }) ∧
    (∀ u ∈ s.threads, u ∈ (is.foldl (putThread l c j core slot) s).threads) ∧
    ∀ i ∈ is, ∃ u ∈ (is.foldl (putThread l c j core slot) s).threads, LaneThread l c j core slot i u := by
  induction is generalizing s with
  | nil => exact ⟨⟨_, _, rfl⟩, fun _ h => h, by simp⟩
  | cons i is ih =>
    obtain ⟨⟨n, th, h⟩, hkeep, u, hu, hlane⟩ := putThread_spec l c j core slot s i
    obtain ⟨⟨n', th', h'⟩, hkeep', hmine⟩ := ih (putThread l c j core slot s i)
    rw [List.foldl_cons]
    refine ⟨⟨n', th', by rw [h', h]⟩, fun u hu => hkeep' u (hkeep u hu), fun k hk => ?_⟩
    obtain rfl | hk := List.mem_cons.1 hk
    · exact ⟨u, hkeep' u hu, hlane⟩
    · exact hmine k hk

/-- The pour of a cast stands on a core at a slot, its threads on their lanes. -/
def Starts (s t : State) (c : Cast) (l : Launch) (core : Nat) : Prop :=
  let j := c.pours.headD 0
  let w := if l.protected = true then 16 else 32
  ∃ slot, s.pour? core slot = none ∧
    (∃ q ∈ t.pours, q.core = core ∧ q.slot = slot ∧ q.part = c.part ∧ q.launch = c.launch ∧ q.k = Vector.replicate 12 0 ∧
      ∃ y, q.entries = [y] ∧ y.pc = BitVec.ofNat 32 (kEntry l.kinfo) ∧ y.buf = l.codeBuf ∧
        ∀ i, i < 32 → y.mask.getLsbD i = (decide (i < w) && decide (j * w + i < c.threads))) ∧
    ∀ i, i < w → j * w + i < c.threads → ∃ u ∈ t.threads, u.tic = j * w + i ∧ u.loc = .lane core slot i ∧ u.part = c.part ∧
      u.launch = c.launch ∧ u.cast = c.num ∧ u.shadow = false ∧ u.run = c.run

/-- A pour that starts takes a free slot of an open core; nothing but threads, pours and numbers changes. -/
theorem startPour_spec {s u : State} {core : Nat} (l : Launch) (c : Cast) (hopen : coreOpen s core = true)
    (hu : u.pours = s.pours) : Starts s (startPour u l c (c.pours.headD 0) core) c l core ∧
      ∃ n th ps, startPour u l c (c.pours.headD 0) core = { u with nextId := n, threads := th, pours := ps } := by
  have hslot : freeSlot u core = freeSlot s core := by simp only [freeSlot, State.pour?, hu]
  obtain ⟨⟨n, th, hframe⟩, -, hmine⟩ := foldl_putThread_spec l c (c.pours.headD 0) core (freeSlot u core)
    (lanesOf l c (c.pours.headD 0)) u
  rw [startPour_eq]
  refine ⟨⟨freeSlot u core, ?_, ⟨firstPour u l c (c.pours.headD 0) core, ?_, rfl, rfl, rfl, rfl, rfl, _, rfl, rfl, rfl, fun i hi => ?_⟩,
    fun i hi hn => ?_⟩, n, th, _, by rw [manned, hframe]⟩
  · rw [hslot]
    exact pour?_freeSlot (slotsTaken_of_coreOpen hopen)
  · exact List.mem_append_right _ (List.mem_singleton.2 rfl)
  · rw [getLsbD_maskOf]
    simp [lanesOf, hi, pourWidth]
  · exact hmine i (List.mem_filter.2 ⟨List.mem_range.2 hi, by simpa [pourWidth] using hn⟩)

/-! ### `CAST_START` and `POUR_START` (R314) -/

theorem coreOpen_of_startPlan {s : State} {cluster o core : Nat} {c : Cast} {l : Launch}
    (h : startPlan s cluster = some (c, l, o, core)) : coreOpen s core = true := by
  obtain ⟨x, -, hx⟩ := Option.bind_eq_some_iff.1 h
  split at hx
  · obtain ⟨y, hy, hfit⟩ := Option.bind_eq_some_iff.1 hx
    split at hfit
    · simp only [Option.some.injEq, Prod.mk.injEq] at hfit
      obtain ⟨-, -, -, rfl⟩ := hfit
      exact coreOpen_of_pourCore hy
    · simp at hfit
  · simp at hx

theorem coreOpen_of_pourPlan {s : State} {cluster core : Nat} {c : Cast} {l : Launch}
    (h : pourPlan s cluster = some (c, l, core)) : coreOpen s core = true := by
  obtain ⟨x, -, hx⟩ := List.mem_filterMap.1 (mem_of_minBy h)
  obtain ⟨y, -, hy⟩ := Option.bind_eq_some_iff.1 hx
  obtain ⟨z, hz, heq⟩ := Option.map_eq_some_iff.1 hy
  simp only [Prod.mk.injEq] at heq
  obtain ⟨-, -, rfl⟩ := heq
  exact coreOpen_of_pourCore hz

/-- The runner of an access slice takes its place, before the cast starts (R258). -/
def withAccess (s : State) (c : Cast) (l : Launch) (core : Nat) : State :=
  let sl := slotOfCluster (clusterOf core)
  match l.access with
  | some d =>
    let r := accessRunner s l c core d
    { (addLocks s (runLocks r.id l.part sl d)).bumpId with runners := s.runners ++ [r] }
  | none => s

theorem withAccess_eq (s : State) (c : Cast) (l : Launch) (core : Nat) :
    ∃ n ls rs, withAccess s c l core = { s with nextId := n, locks := ls, runners := rs } := by
  unfold withAccess
  dsimp only
  split
  · exact ⟨_, _, _, rfl⟩
  · exact ⟨_, _, _, rfl⟩

/-- A cast that has started. -/
def startedCast (cluster o core : Nat) (c : Cast) : Cast :=
  { c with started := true, pours := c.pours.drop 1, alloc := some (o, c.need), orig := some (cluster, o),
           pin := if c.assay.isSome then some core else none }

theorem startCast_eq (s : State) (c : Cast) (l : Launch) (o core : Nat) : startCast s c l o core =
    startPour ((withAccess s c l core).updCast c.part c.launch c.num fun x => startedCast x.cluster o core x) l c
      (c.pours.headD 0) core := rfl

theorem happens_castStart {s : State} {cluster o core : Nat} {c : Cast} {l : Launch}
    (h : startPlan s cluster = some (c, l, o, core)) (hc : s.cast? c.part c.launch c.num = some c) :
    Happens (.castStart cluster) s fun t => t.mem = s.mem ∧ Starts s t c l core ∧
      t.cast? c.part c.launch c.num = some (startedCast c.cluster o core c) := by
  have hexec : exec (.castStart cluster) s = .next (startCast s c l o core) := by
    change execCastStart cluster s = _
    simp only [execCastStart, h]
  obtain ⟨n, ls, rs, ha⟩ := withAccess_eq s c l core
  obtain ⟨hstarts, n', th, ps, heq⟩ := startPour_spec (u := (withAccess s c l core).updCast c.part c.launch c.num fun x =>
    startedCast x.cluster o core x) l c (coreOpen_of_startPlan h) (by rw [ha]; rfl)
  refine ⟨_, hexec, ?_, hstarts, ?_⟩
  · rw [startCast_eq, heq, ha]
    rfl
  · rw [startCast_eq, heq]
    refine (cast?_updCast (f := fun x => startedCast x.cluster o core x) _ _ _ _ fun _ => ⟨rfl, rfl, rfl⟩).trans ?_
    rw [ha, State.cast?, show s.casts.find? _ = some c from hc]
    rfl

theorem happens_pourStart {s : State} {cluster core : Nat} {c : Cast} {l : Launch}
    (h : pourPlan s cluster = some (c, l, core)) (hc : s.cast? c.part c.launch c.num = some c) :
    Happens (.pourStart cluster) s fun t => t.mem = s.mem ∧ Starts s t c l core ∧
      t.cast? c.part c.launch c.num = some { c with pours := c.pours.drop 1 } := by
  have hexec : exec (.pourStart cluster) s =
      .next (startPour (s.updCast c.part c.launch c.num fun c => { c with pours := c.pours.drop 1 }) l c (c.pours.headD 0) core) := by
    change execPourStart cluster s = _
    simp only [execPourStart, h]
  obtain ⟨hstarts, n', th, ps, heq⟩ := startPour_spec
    (u := s.updCast c.part c.launch c.num fun c => { c with pours := c.pours.drop 1 }) l c (coreOpen_of_pourPlan h) rfl
  refine ⟨_, hexec, by rw [heq]; rfl, hstarts, ?_⟩
  rw [heq]
  refine (cast?_updCast (f := fun c => { c with pours := c.pours.drop 1 }) _ _ _ _ fun _ => ⟨rfl, rfl, rfl⟩).trans ?_
  rw [hc]
  rfl

/-! ### `EPILOGUE_START` (R311) -/

theorem launch?_updLaunch {s : State} {part n : Nat} {l : Launch} (hl : s.launch? part n = some l) {f : Launch → Launch}
    (hf : ∀ x, x.part = part → x.num = n → (f x).part = part ∧ (f x).num = n) :
    (s.updLaunch part n f).launch? part n = some (f l) := by
  refine (Machine.find?_updL _ f (fun x hx => ?_) s.launches).trans ?_
  · simp only [Bool.and_eq_true, decide_eq_true_eq] at hx ⊢
    exact hf x hx.1 hx.2
  · rw [show s.launches.find? _ = some l from hl]
    rfl

/-- The launch while its epilogue runs. -/
def atEpilogue (s : State) (part : Nat) (l : Launch) : Launch :=
  { l with epilogue := 1, kinfo := (kernelAt s part (bEpilogue l.bundle)).getD 0, codeBuf := bitsN (bEpilogue l.bundle) 63 48,
           access := none }

/-- The cast of an epilogue is admitted. -/
def withEpilogue (u : State) (p : Part) (part launch : Nat) (l : Launch) : State :=
  { (u.updLaunch part launch fun _ => l).bumpId with casts := u.casts ++
      [newCast u p l (2 ^ 32) (kThreads l.kinfo) ((homesOf u p 1).headD (2 * p.first)) false] }

theorem exec_epilogueStart {s : State} {part launch : Nat} {p : Part} {l : Launch} (hp : s.part? part = some p)
    (hl : s.launch? part launch = some l) (hd : epilogueDue s l = true) : exec (.epilogueStart part launch) s =
      .next (withEpilogue (devTouchBlock s part .load (bEpilogue l.bundle) 16 4) p part launch (atEpilogue s part l)) := by
  change execEpilogueStart part launch s = _
  simp only [execEpilogueStart, hp, hl, hd, if_true]
  rfl

theorem withEpilogue_spec {u : State} {p : Part} {part launch : Nat} {l l' : Launch} (hl : u.launch? part launch = some l)
    (hpart : l'.part = part) (hnum : l'.num = launch) (hfirst : p.first = part) :
    (withEpilogue u p part launch l').threads = u.threads ∧ (withEpilogue u p part launch l').launch? part launch = some l' ∧
    ∃ c ∈ (withEpilogue u p part launch l').casts, c.num = 2 ^ 32 ∧ c.part = part ∧ c.launch = launch ∧ c.started = false :=
  ⟨rfl, launch?_updLaunch (f := fun _ => l') hl fun _ _ _ => ⟨hpart, hnum⟩,
    _, List.mem_append_right _ (List.mem_singleton.2 rfl), rfl, hfirst, hnum, rfl⟩

theorem happens_epilogueStart {s : State} {part launch : Nat} {p : Part} {l : Launch} (hp : s.part? part = some p)
    (hl : s.launch? part launch = some l) (hd : epilogueDue s l = true) : Happens (.epilogueStart part launch) s fun t =>
      t.threads = s.threads ∧ (∃ l', t.launch? part launch = some l' ∧ l'.epilogue = 1) ∧
      ∃ c ∈ t.casts, c.num = 2 ^ 32 ∧ c.part = part ∧ c.launch = launch ∧ c.started = false := by
  have hat := (devRead_devTouchBlock s part .load (bEpilogue l.bundle) 16 4).atHome
  have hexec := exec_epilogueStart hp hl hd
  generalize devTouchBlock s part .load (bEpilogue l.bundle) 16 4 = u at hat hexec
  have hlu : u.launch? part launch = some l := (congrArg (List.find? _) hat.inPool.launches).trans hl
  obtain ⟨hlp, hln⟩ := launch?_some hl
  obtain ⟨hth, hlaunch, hcast⟩ := withEpilogue_spec (l' := atEpilogue s part l) hlu hlp hln (first_of_part? hp)
  exact ⟨_, hexec, hth.trans hat.threads, ⟨_, hlaunch, rfl⟩, hcast⟩

/-! ### `BUNDLE_RETIRE` (R311) -/

theorem exec_bundleRetire {s : State} {part launch : Nat} {l : Launch} (hl : s.launch? part launch = some l)
    (hd : retireDue s l = true) : exec (.bundleRetire part launch) s = .next (retire s l) := by
  change execBundleRetire part launch s = _
  simp only [execBundleRetire, hl, hd, if_true]

/-- The parts of a launch are gone, and its queue has one bundle fewer to retire. -/
theorem freeLaunch_spec {u : State} {l : Launch} {q : Part} (hq : u.part? l.part = some q) :
    (freeLaunch u l).launch? l.part l.num = none ∧
    (∀ c ∈ (freeLaunch u l).casts, ¬(c.part = l.part ∧ c.launch = l.num)) ∧ (freeLaunch u l).mem = u.mem ∧
    ∃ q', (freeLaunch u l).part? l.part = some q' ∧ (q'.queue l.queue).unretired = (q.queue l.queue).unretired - 1 ∧
      (q'.queue l.queue).flost = (q.queue l.queue).flost := by
  refine ⟨List.find?_eq_none.2 fun x hx => ?_, fun c hc => ?_, rfl, ?_⟩
  · simpa [imp_iff_not_or] using (List.mem_filter.1 hx).2
  · simpa [imp_iff_not_or] using (List.mem_filter.1 hc).2
  · obtain ⟨q', hq', hx⟩ := queue_updQueue (s := { u with
      launches := u.launches.filter (fun x => !(x.part = l.part && x.num = l.num)),
      casts := u.casts.filter (fun c => !(c.part = l.part && c.launch = l.num)),
      accs := u.accs.filter (fun a => !(a.part = l.part && a.launch = l.num)),
      tiles := updL (fun t => t.live && t.part = l.part && t.launch = l.num) releaseTile u.tiles }) hq l.queue fun x =>
      { x with unretired := x.unretired - 1, headBundle := if x.headLaunch = some l.num then none else x.headBundle,
               headLaunch := if x.headLaunch = some l.num then none else x.headLaunch }
    exact ⟨q', hq', by rw [hx], by rw [hx]⟩

section
variable {s : State} {l : Launch}

theorem retire_of_fenced {g : Nat} (h : l.fenced = some g) :
    retire s l = freeLaunch (fenceValue s l.part l.queue (bFencePtr l.bundle) (bFenceVal l.bundle)) l := by
  simp only [retire, h]

theorem retire_of_lost (h : l.fenced = none) (hf : fencePlaces s l.part (bFencePtr l.bundle) = none) :
    retire s l = freeLaunch (lostFence s l.part l.queue (bFencePtr l.bundle)) l := by
  have hst : fenceStatus s l.part (bFencePtr l.bundle) (retireStatus l) l.num = none := by rw [fenceStatus, hf]; rfl
  simp only [retire, h, hst]

theorem retire_of_waits {t : State} {g : Nat} (h : l.fenced = none)
    (hst : fenceStatus s l.part (bFencePtr l.bundle) (retireStatus l) l.num = some (t, g)) (hg : ¬g ≤ t.time) :
    retire s l = t.updLaunch l.part l.num fun l => { l with fenced := some g } := by
  simp only [retire, h, hst, hg, if_false]

end

/-- A lost fence record changes no byte of memory; its queue tells. -/
theorem lostFence_spec {s : State} {part : Nat} {p : Part} (hp : s.part? part = some p) (q ptr : Nat) :
    (lostFence s part q ptr).mem = s.mem ∧ ∃ p', (lostFence s part q ptr).part? part = some p' ∧
      p'.queue q = { p.queue q with flost := true } := by
  have hr (c : Prop) [Decidable c] : (if c then countLost s part .store (ptrAdd ptr 8) 4 else s).mem = s.mem ∧
      (if c then countLost s part .store (ptrAdd ptr 8) 4 else s).part? part = some p := by
    have hmem : (countLost s part .store (ptrAdd ptr 8) 4).mem = s.mem := by
      unfold countLost
      split <;> rfl
    split
    · exact ⟨hmem, ((atHome_countLost ..).part? part).trans hp⟩
    · exact ⟨rfl, hp⟩
  obtain ⟨hm, hpart⟩ := hr (bitsN ptr 3 0 = 0)
  exact ⟨hm, queue_updQueue hpart q _⟩

/-- The parts of a launch are gone, and its queue has one bundle fewer to retire. -/
def LaunchGone (t : State) (part launch : Nat) (p : Part) (q : Nat) : Prop :=
  t.launch? part launch = none ∧ (∀ c ∈ t.casts, ¬(c.part = part ∧ c.launch = launch)) ∧
    ∃ p', t.part? part = some p' ∧ (p'.queue q).unretired = (p.queue q).unretired - 1

section
variable {s : State} {part launch : Nat} {p : Part} {l : Launch} (hp : s.part? part = some p)
  (hl : s.launch? part launch = some l) (hd : retireDue s l = true)
include hp hl hd

theorem happens_bundleRetire_fenced {g k1 k2 k3 : Nat} (hg : l.fenced = some g)
    (hf : fencePlaces s part (bFencePtr l.bundle) = some (k1, k2, k3)) (hn : NothingGathered s) (hw : memWf s.mem = true) :
    Happens (.bundleRetire part launch) s fun t => LaunchGone t part launch p l.queue ∧ Holds t.mem k3 8 (bFenceVal l.bundle) := by
  obtain ⟨rfl, rfl⟩ := launch?_some hl
  obtain ⟨-, hqueue, hmem⟩ := fenceValue_spec l.queue (bFenceVal l.bundle) hp hf
  obtain ⟨q, hq, hqq⟩ := hqueue l.queue
  obtain ⟨h1, h2, h3, q', hq', hun, -⟩ := freeLaunch_spec hq
  refine ⟨_, (exec_bundleRetire hl hd).trans (congrArg _ (retire_of_fenced hg)), ⟨h1, h2, q', hq', ?_⟩, ?_⟩
  · rw [hun, hqq]
  · rw [h3]
    exact (hmem hn hw).1

theorem happens_bundleRetire_lost (hg : l.fenced = none) (hf : fencePlaces s part (bFencePtr l.bundle) = none) :
    Happens (.bundleRetire part launch) s fun t => LaunchGone t part launch p l.queue ∧ t.mem = s.mem ∧
      ∃ p', t.part? part = some p' ∧ (p'.queue l.queue).flost = true := by
  obtain ⟨rfl, rfl⟩ := launch?_some hl
  obtain ⟨hm, q, hq, hqq⟩ := lostFence_spec hp l.queue (bFencePtr l.bundle)
  obtain ⟨h1, h2, h3, q', hq', hun, hlost⟩ := freeLaunch_spec hq
  refine ⟨_, (exec_bundleRetire hl hd).trans (congrArg _ (retire_of_lost hg hf)), ⟨h1, h2, q', hq', ?_⟩, h3.trans hm, q', hq', ?_⟩
  · rw [hun, hqq]
  · rw [hlost, hqq]

theorem happens_bundleRetire_waits {k1 k2 k3 : Nat} (hg : l.fenced = none)
    (hf : fencePlaces s part (bFencePtr l.bundle) = some (k1, k2, k3)) (hn : NothingGathered s) (hw : memWf s.mem = true)
    (hk : k1 + 4 ≤ k2) (hc : keyChan k1 ≠ none) (hlx : s.time < (lineAt s (lineOf k1)).lx) :
    Happens (.bundleRetire part launch) s fun t => Holds t.mem k1 4 (retireStatus l) ∧
      ∃ l', t.launch? part launch = some l' ∧ l'.fenced.isSome = true := by
  obtain ⟨rfl, rfl⟩ := launch?_some hl
  obtain ⟨t, g, hst, hat, hholds, hge⟩ := fenceStatus_spec (retireStatus l) l.num hf
  have hgt : ¬g ≤ t.time := by
    have := hge hn hc
    rw [hat.time]
    omega
  have hlt : t.launch? l.part l.num = some l := (congrArg (List.find? _) hat.inPool.launches).trans hl
  exact ⟨_, (exec_bundleRetire hl hd).trans (congrArg _ (retire_of_waits hg hst hgt)), hholds hn hw hk, _,
    launch?_updLaunch (f := fun l => { l with fenced := some g }) hlt fun _ h1 h2 => ⟨h1, h2⟩, rfl⟩

end

end Sys2Proof.Machine
end

section
/-! PROOF. O52, the admission of casts (R38, R39, R41, R311, R312, R316, R360), and the statement. -/

namespace Sys2Proof.Machine

open Sys2Proof

/-! ### Pieces of an admission -/

/-- The casts of an admission that are selected for assay. -/
def picked (p : Part) (a : Adm) (chain : List (Region × RegEff)) : List Nat := a.casts.filter (selects p a chain)

/-- The launch after an admission. -/
def admLaunch (s : State) (p : Part) (a : Adm) (chain : List (Region × RegEff)) : Launch :=
  let l0 := rebudget (a.launch.getD (newLaunch s p a chain)) chain
  let g := l0.gangOf (a.casts.headD 0)
  { l0 with admitted := if a.again then l0.admitted else l0.admitted + a.casts.length,
            relaunch := if a.again then l0.relaunch.filter (fun x => x ≠ g) else l0.relaunch,
            selected := l0.selected ++ (picked p a chain).filter fun c => !l0.selected.contains c }

def withLaunch (s : State) (p : Part) (a : Adm) (l : Launch) : State :=
  { s with launches :=
    if a.launch.isSome then updL (fun x => x.part = p.first && x.num = l.num) (fun _ => l) s.launches else s.launches ++ [l] }

/-- A cast is admitted to its home cluster. -/
def castIn (p : Part) (l : Launch) (chosen : List Nat) (s : State) (x : Nat × Nat) : State :=
  let n := if x.1 = 2 ^ 32 then kThreads l.kinfo else l.castsz
  { s.bumpId with casts := s.casts ++ [newCast s p l x.1 n x.2 (chosen.contains x.1)] }

/-- What the partition notes of an admission. -/
def admPart (now : Nat) (a : Adm) (chain : List (Region × RegEff)) (p : Part) : Part :=
  let entry := (now, a.casts.length * 2 ^ bEclass a.bundle, chain.map fun x => x.1.number)
  { p with admits := entry :: p.admits.filter (fun x => decide (now < x.1 + 1000000)),
           nextLaunch := if a.launch.isNone then (p.nextLaunch + 1) % 65536 else p.nextLaunch }

/-- The partition and the queue note an admission. -/
def admNote (s : State) (p : Part) (a : Adm) (l : Launch) (chain : List (Region × RegEff)) : State :=
  let s := s.updPart p.first (admPart s.time a chain)
  if a.again then updQueue s p.first a.q fun x => if x.headLaunch = some l.num then { x with since := s.time } else x
  else updQueue s p.first a.q fun x =>
    if l.ncast ≤ l.admitted then { x with headBundle := none, headLaunch := none, since := s.time }
    else { x with headLaunch := some l.num, since := s.time }

/-- The casts of an admission stand in the lists of their clusters. -/
def admPlace (s : State) (p : Part) (a : Adm) (chain : List (Region × RegEff)) : State :=
  let l := admLaunch s p a chain
  (a.casts.zip (homesOf s p a.casts.length)).foldl (castIn p l (picked p a chain)) (withLaunch s p a l)

/-- The prologue's copies are issued with the first cast, and the inputs held with the first selected one. -/
def admIssue (s : State) (p : Part) (a : Adm) (chain : List (Region × RegEff)) (l : Launch) (home : Nat) : State :=
  let s := if a.launch.isNone then prologueCopies s p l home else s
  if (picked p a chain).isEmpty then s else beginHold s p l

theorem admitCasts_eq (s : State) (p : Part) (a : Adm) : admitCasts s p a =
    let chain := admChain s p a
    let u := touchAll s p.first (bundleReads s p.first a.bundle a.launch.isNone)
    let l := admLaunch u p a chain
    admNote (admIssue (admPlace u p a chain) p a chain l ((homesOf u p a.casts.length).headD (2 * p.first))) p a l chain := rfl

/-! ### What they leave -/

/-- Threads, partitions and casts stay, and launches keep what they are of. -/
structure Front (s t : State) : Prop where
  threads : t.threads = s.threads
  parts : t.parts = s.parts
  casts : t.casts = s.casts
  launches : ∀ l ∈ s.launches, ∃ l' ∈ t.launches, l'.part = l.part ∧ l'.num = l.num ∧ l'.bundle = l.bundle ∧ l'.queue = l.queue

namespace Front
variable {s t u : State}

theorem of_eq (ht : t.threads = s.threads) (hp : t.parts = s.parts) (hc : t.casts = s.casts) (hl : t.launches = s.launches) :
    Front s t := ⟨ht, hp, hc, fun l h => ⟨l, hl ▸ h, rfl, rfl, rfl, rfl⟩⟩

theorem refl (s : State) : Front s s := of_eq rfl rfl rfl rfl

theorem trans (h : Front s t) (h' : Front t u) : Front s u := by
  refine ⟨h'.threads.trans h.threads, h'.parts.trans h.parts, h'.casts.trans h.casts, fun l hl => ?_⟩
  obtain ⟨l1, hl1, hp1, hn1, hb1, hq1⟩ := h.launches l hl
  obtain ⟨l2, hl2, hp2, hn2, hb2, hq2⟩ := h'.launches l1 hl1
  exact ⟨l2, hl2, hp2.trans hp1, hn2.trans hn1, hb2.trans hb1, hq2.trans hq1⟩

end Front

theorem AtHome.front {s t : State} (h : AtHome s t) : Front s t := .of_eq h.threads h.parts h.casts h.inPool.launches

theorem front_prologueCopies (s : State) (p : Part) (l : Launch) (cluster : Nat) : Front s (prologueCopies s p l cluster) := by
  unfold prologueCopies
  refine List.foldlRecOn (motive := Front s) _ _ (.refl s) fun u hu e _ => hu.trans ?_
  exact .of_eq rfl rfl rfl rfl

theorem atHome_bumpHold (s : State) (part idx : Nat) (up : Bool) : AtHome s (bumpHold s part idx up) := by
  unfold bumpHold
  split
  · exact .refl s
  · exact atHome_btPoke ..

theorem front_beginHold (s : State) (p : Part) (l : Launch) : Front s (beginHold s p l) := by
  unfold beginHold
  split
  · exact .refl s
  · refine (AtHome.foldl (fun s i => atHome_bumpHold s p.first i true) (inputs s p l.bundle) s).front.trans ?_
    refine ⟨rfl, rfl, rfl, fun x hx => ⟨_, mem_updL.2 ⟨x, hx, rfl⟩, ?_⟩⟩
    split <;> exact ⟨rfl, rfl, rfl, rfl⟩

theorem front_admIssue (s : State) (p : Part) (a : Adm) (chain : List (Region × RegEff)) (l : Launch) (home : Nat) :
    Front s (admIssue s p a chain l home) := by
  have h : Front s (if a.launch.isNone then prologueCopies s p l home else s) := by
    split
    · exact front_prologueCopies ..
    · exact .refl s
  unfold admIssue
  dsimp only
  split
  · exact h
  · exact h.trans (front_beginHold ..)

/-- The casts of a list have been admitted: one of each number, at its cluster. -/
theorem foldl_castIn_spec (p : Part) (l : Launch) (chosen : List Nat) (xs : List (Nat × Nat)) (s : State) :
    (∃ n cs, xs.foldl (castIn p l chosen) s = { s with nextId := n, casts := s.casts ++ cs }) ∧
    ∀ x ∈ xs, ∃ c ∈ (xs.foldl (castIn p l chosen) s).casts, c.num = x.1 ∧ c.cluster = x.2 ∧ c.part = p.first ∧
      c.launch = l.num ∧ c.started = false ∧ c.ended = false := by
  induction xs generalizing s with
  | nil => exact ⟨⟨s.nextId, [], by simp⟩, by simp⟩
  | cons x xs ih =>
    obtain ⟨⟨n, cs, h⟩, hall⟩ := ih (castIn p l chosen s x)
    rw [List.foldl_cons]
    refine ⟨⟨n, newCast s p l x.1 (if x.1 = 2 ^ 32 then kThreads l.kinfo else l.castsz) x.2 (chosen.contains x.1) :: cs, ?_⟩,
      fun y hy => ?_⟩
    · rw [h]
      simp [castIn, State.bumpId]
    · obtain rfl | hy := List.mem_cons.1 hy
      · rw [h]
        exact ⟨_, List.mem_append_left _ (List.mem_append_right _ (List.mem_singleton.2 rfl)), rfl, rfl, rfl, rfl, rfl, rfl⟩
      · exact hall y hy

/-! ### Homes (R41, R314) -/

section
variable {s t : State} (hpours : t.pours = s.pours) (hcasts : t.casts = s.casts) (hsusp : t.dev.susp = s.dev.susp)
include hpours hcasts hsusp

theorem freeSlots_congr (cluster : Nat) : freeSlots t cluster = freeSlots s cluster := by
  simp only [freeSlots, quarantined, suspOf, slotsTaken, slotsPromised, hpours, hcasts, hsusp]

theorem homesOf_congr (p : Part) (n : Nat) : homesOf t p n = homesOf s p n := by
  have hbest (cs : List Nat) : bestCluster t cs = bestCluster s cs := by
    simp only [bestCluster, freeSlots_congr hpours hcasts hsusp]
  simp only [homesOf, hbest]

end

/-! ### The launch of an admission -/

theorem admLaunch_num (s : State) (p : Part) (a : Adm) (chain : List (Region × RegEff)) :
    (admLaunch s p a chain).num = (a.launch.map (·.num)).getD p.nextLaunch := by
  unfold admLaunch rebudget
  cases h : a.launch with
  | none => rfl
  | some l => rfl

theorem admLaunch_new (s : State) (p : Part) (a : Adm) (chain : List (Region × RegEff)) (h : a.launch = none) :
    (admLaunch s p a chain).part = p.first ∧ (admLaunch s p a chain).bundle = a.bundle ∧
      (admLaunch s p a chain).queue = a.q := by
  unfold admLaunch rebudget
  rw [h]
  exact ⟨rfl, rfl, rfl⟩

theorem part?_admNote {s : State} {part : Nat} {p q : Part} {a : Adm} {l : Launch} {chain : List (Region × RegEff)}
    (hq : s.part? part = some q) (hp : p.first = part) : ∃ p', (admNote s p a l chain).part? part = some p' ∧
      p'.deficits = q.deficits ∧ p'.drr = q.drr ∧
      p'.nextLaunch = if a.launch.isNone then (q.nextLaunch + 1) % 65536 else q.nextLaunch := by
  have hmid := part?_updPart_self hq (admPart s.time a chain) fun _ => rfl
  unfold admNote
  rw [hp]
  dsimp only
  split
  · exact ⟨_, part?_updQueue hmid a.q _, rfl, rfl, rfl⟩
  · exact ⟨_, part?_updQueue hmid a.q _, rfl, rfl, rfl⟩

theorem admNote_frame (s : State) (p : Part) (a : Adm) (l : Launch) (chain : List (Region × RegEff)) :
    ∃ ps, admNote s p a l chain = { s with parts := ps } := by
  unfold admNote
  dsimp only
  split <;> exact ⟨_, rfl⟩

/-! ### `CAST_ADMIT` (R311, R312, R316) -/

/-- An admission: its launch where it is a first one, its casts at their homes, the partition's registers. -/
theorem admitCasts_spec {s : State} {part : Nat} {p q : Part} (a : Adm) (hq : s.part? part = some q) (hp : p.first = part) :
    (admitCasts s p a).threads = s.threads ∧
    (a.launch = none → ∃ l ∈ (admitCasts s p a).launches, l.part = part ∧ l.num = p.nextLaunch ∧ l.bundle = a.bundle ∧
      l.queue = a.q) ∧
    (∀ x ∈ a.casts.zip (homesOf s p a.casts.length), ∃ c ∈ (admitCasts s p a).casts, c.num = x.1 ∧ c.cluster = x.2 ∧
      c.part = part ∧ c.launch = (a.launch.map (·.num)).getD p.nextLaunch ∧ c.started = false ∧ c.ended = false) ∧
    ∃ p', (admitCasts s p a).part? part = some p' ∧ p'.deficits = q.deficits ∧ p'.drr = q.drr ∧
      p'.nextLaunch = if a.launch.isNone then (q.nextLaunch + 1) % 65536 else q.nextLaunch := by
  rw [admitCasts_eq]
  generalize admChain s p a = chain
  have hr := devRead_touchAll s p.first (bundleReads s p.first a.bundle a.launch.isNone)
  dsimp only
  generalize touchAll s p.first (bundleReads s p.first a.bundle a.launch.isNone) = u at hr ⊢
  have hsusp : u.dev.susp = s.dev.susp := by
    obtain ⟨_, _, h⟩ := hr.counts
    rw [h]
  have hhomes := homesOf_congr (t := u) hr.atHome.inPool.pours hr.atHome.casts hsusp p a.casts.length
  have hnum := admLaunch_num u p a chain
  have hnew := admLaunch_new u p a chain
  obtain ⟨⟨n, cs, hplace⟩, hcasts⟩ := foldl_castIn_spec p (admLaunch u p a chain) (picked p a chain)
    (a.casts.zip (homesOf u p a.casts.length)) (withLaunch u p a (admLaunch u p a chain))
  change admPlace u p a chain = _ at hplace
  change ∀ x ∈ _, ∃ c ∈ (admPlace u p a chain).casts, _ at hcasts
  have hfront := front_admIssue (admPlace u p a chain) p a chain (admLaunch u p a chain)
    ((homesOf u p a.casts.length).headD (2 * p.first))
  generalize admIssue (admPlace u p a chain) p a chain (admLaunch u p a chain)
    ((homesOf u p a.casts.length).headD (2 * p.first)) = v at hfront ⊢
  obtain ⟨ps, hnote⟩ := admNote_frame v p a (admLaunch u p a chain) chain
  have hparts : v.part? part = some q := by
    rw [State.part?, hfront.parts, hplace]
    exact (hr.atHome.part? part).trans hq
  refine ⟨?_, fun ha => ?_, fun x hx => ?_, part?_admNote hparts hp⟩
  · rw [hnote]
    refine hfront.threads.trans ?_
    rw [hplace]
    exact hr.atHome.threads
  · obtain ⟨hpart, hbundle, hqueue⟩ := hnew ha
    rw [ha, Option.map_none, Option.getD_none] at hnum
    have hmem : admLaunch u p a chain ∈ (admPlace u p a chain).launches := by
      rw [hplace]
      simp [withLaunch, ha]
    obtain ⟨l, hl, h1, h2, h3, h4⟩ := hfront.launches _ hmem
    rw [hnote]
    exact ⟨l, hl, h1.trans (hpart.trans hp), h2.trans hnum, h3.trans hbundle, h4.trans hqueue⟩
  · rw [← hhomes] at hx
    obtain ⟨c, hc, h1, h2, h3, h4, h5, h6⟩ := hcasts x hx
    rw [hnote]
    exact ⟨c, by rw [← hfront.casts] at hc; exact hc, h1, h2, h3.trans hp, h4.trans hnum, h5, h6⟩

theorem happens_castAdmit {s : State} {part : Nat} {p : Part} (hp : s.part? part = some p) {ds : List (Nat × Int)} {proc : Nat}
    {a : Adm} (hno : refusals s p = []) (hab : abandoned s p = none) (hch : chooseAdm s p = some (ds, proc, a))
    (hsl : a.launch = none → sliceRefused s p (p.queue a.q) a.bundle = false) : Happens (.castAdmit part) s fun t =>
      t.threads = s.threads ∧
      (a.launch = none → ∃ l ∈ t.launches, l.part = part ∧ l.num = p.nextLaunch ∧ l.bundle = a.bundle ∧ l.queue = a.q) ∧
      (∀ x ∈ a.casts.zip (homesOf s p a.casts.length), ∃ c ∈ t.casts, c.num = x.1 ∧ c.cluster = x.2 ∧ c.part = part ∧
        c.launch = (a.launch.map (·.num)).getD p.nextLaunch ∧ c.started = false ∧ c.ended = false) ∧
      ∃ p', t.part? part = some p' ∧ p'.deficits = ds ∧ p'.drr = proc ∧
        (a.launch = none → p'.nextLaunch = (p.nextLaunch + 1) % 65536) ∧ (a.launch.isSome = true → p'.nextLaunch = p.nextLaunch) := by
  have hguard : ¬(a.launch.isNone = true ∧ sliceRefused s p (p.queue a.q) a.bundle = true) := by
    rintro ⟨h1, h2⟩
    rw [hsl (Option.isNone_iff_eq_none.1 h1)] at h2
    exact Bool.false_ne_true h2
  have hexec : exec (.castAdmit part) s =
      .next (admitCasts (s.updPart part fun p => { p with deficits := ds, drr := proc }) p a) := by
    change execCastAdmit part s = _
    simp only [execCastAdmit, hp, hno, List.head?_nil, hab, hch, admitNext, if_neg hguard, first_of_part? hp]
  have hq := part?_updPart_self hp (fun p => { p with deficits := ds, drr := proc }) fun _ => rfl
  obtain ⟨hth, hlaunch, hcasts, p', hp', hds, hdrr, hnext⟩ := admitCasts_spec a hq (first_of_part? hp)
  refine ⟨_, hexec, hth, hlaunch, hcasts, p', hp', hds, hdrr, fun h => ?_, fun h => ?_⟩
  · rw [hnext, h]
    rfl
  · rw [hnext, if_neg]
    simp [Option.isSome_iff_ne_none.1 h]

end Sys2Proof.Machine

namespace Sys2Proof

open Sys2Proof.Machine

/-- Settles O52, from what each event of the front end leaves of queues, fence records, launches, casts and pours. -/
theorem frontEnd : Obligations.FrontEnd := by
  unfold Obligations.FrontEnd
  intro s part p hp hwf
  refine ⟨fun q hd => happens_bundleRead hp hd, fun q hd => happens_depReread hp hd,
    fun q b st k1 k2 k3 hhead hf hn hk => happens_castAdmit_refuse hp hhead hf hn hwf hk,
    fun q b k1 k2 k3 hhead hf hn => happens_castAdmit_finish hp hhead hf hn hwf,
    fun ds proc a k1 k2 k3 hno hab hch ha hsl hf hn hk => happens_castAdmit_slice hp hno hab hch ha hsl hf hn hwf hk,
    fun hno hab hch => happens_castAdmit_idle hp hno hab hch,
    fun ds proc a hno hab hch hsl => happens_castAdmit hp hno hab hch hsl,
    fun cluster c l o core h hc => ?_,
    fun cluster c l core h hc => happens_pourStart h hc,
    fun launch l hl => ⟨fun hd => happens_epilogueStart hp hl hd, fun hd =>
      ⟨fun g k1 k2 k3 hg hf hn => happens_bundleRetire_fenced hp hl hd hg hf hn hwf,
        fun hg hf => happens_bundleRetire_lost hp hl hd hg hf,
        fun k1 k2 k3 hg hf hn hk hc hlx => happens_bundleRetire_waits hp hl hd hg hf hn hwf hk hc hlx⟩⟩,
    fun cluster v h => happens_stealRequest h, fun thief v h => happens_stealHandle h,
    fun thief v cs h => ⟨fun hnil => ?_, fun hne hslot => happens_stealReply hp h hne hslot⟩,
    fun hs => happens_enacctSample hp hs, fun chan h => happens_rowWindowEnd h⟩
  · obtain ⟨t, he, hmem, hstarts, hcast⟩ := happens_castStart h hc
    exact ⟨t, he, hmem, hstarts, _, hcast, rfl⟩
  · subst hnil
    exact happens_stealReply_none h

end Sys2Proof
end

section
/-! PROOF. O57: a reading of the fields of a word drops no bit, so that what decodes is encoded by the word itself; with the
family RoundTrip, decoding and encoding are inverse to each other. -/

namespace Sys2Proof

/-! ### Fields put together again -/

theorem append_extract {n k : Nat} (x : BitVec (n + k)) : x.extractLsb' k n ++ x.extractLsb' 0 k = x := by
  rw [BitVec.extractLsb'_append_extractLsb'_eq_extractLsb' (by simp)]
  simp

@[simp] theorem t3_fields (pl : BitVec 24) : t3 (fD pl) (fA pl) (fB pl) (fN pl) = pl := by
  simp only [t3, fD, fA, fB, fN]
  repeat rw [BitVec.extractLsb'_append_extractLsb'_eq_extractLsb' (by rfl)]
  simp
@[simp] theorem ti_fields (pl : BitVec 24) : ti (fD pl) (fA pl) (fI12 pl) = pl := by
  simp only [ti, fD, fA, fI12]
  repeat rw [BitVec.extractLsb'_append_extractLsb'_eq_extractLsb' (by rfl)]
  simp
@[simp] theorem tu_fields (pl : BitVec 24) : tu (fD4 pl) (fI20 pl) = pl := by
  simp only [tu, fD4, fI20]
  repeat rw [BitVec.extractLsb'_append_extractLsb'_eq_extractLsb' (by rfl)]
  simp
@[simp] theorem tc_fields (pl : BitVec 24) : tc (fP pl) (fCc pl) (fA pl) (fI12 pl) = pl := by
  simp only [tc, fP, fCc, fA, fI12]
  repeat rw [BitVec.extractLsb'_append_extractLsb'_eq_extractLsb' (by rfl)]
  simp
@[simp] theorem tb_fields (pl : BitVec 24) : tb (fP pl) (fNeg pl) (fPrio4 pl) (fDisp16 pl) = pl := by
  simp only [tb, fP, fNeg, fPrio4, fDisp16]
  repeat rw [BitVec.extractLsb'_append_extractLsb'_eq_extractLsb' (by rfl)]
  simp
@[simp] theorem tj_fields (pl : BitVec 24) : tj (fD4 pl) (fL pl) (fDisp19 pl) = pl := by
  simp only [tj, fD4, fL, fDisp19]
  repeat rw [BitVec.extractLsb'_append_extractLsb'_eq_extractLsb' (by rfl)]
  simp
@[simp] theorem tm_fields (pl : BitVec 24) : tm (fD pl) (fW pl) (fTy pl) (fCp pl) (fX pl) (fI7 pl) = pl := by
  simp only [tm, fD, fW, fTy, fCp, fX, fI7]
  repeat rw [BitVec.extractLsb'_append_extractLsb'_eq_extractLsb' (by rfl)]
  simp
@[simp] theorem te_fields (pl : BitVec 24) : te (fD pl) (fA pl) (fWb pl) (fYe pl) (fNe pl) (fBs pl) = pl := by
  simp only [te, fD, fA, fWb, fYe, fNe, fBs]
  repeat rw [BitVec.extractLsb'_append_extractLsb'_eq_extractLsb' (by rfl)]
  simp
@[simp] theorem word_fields (w : BitVec 32) : word (hdrOf w) (opOf w) (payloadOf w) = w := by
  simp only [word, hdrOf, opOf, payloadOf]
  repeat rw [BitVec.extractLsb'_append_extractLsb'_eq_extractLsb' (by rfl)]
  simp

/-- An operand of 12 bits stands in two fields. -/
theorem t3_append (d a b n : BitVec 6) : t3 d ((a ++ b).extractLsb' 6 6) ((a ++ b).extractLsb' 0 6) n = t3 d a b n := by
  rw [extract_left _ _ _ _ (by decide), extract_right _ _ _ _ (by decide)]
  simp

/-! ### What a reading of one field answers -/

theorem readHigh_eq_ok {n k : Nat} {x : BitVec (n + k)} {c : BitVec k} {y : BitVec n} {err : DecodeErr} :
    (if x.extractLsb' 0 k = c then .ok (x.extractLsb' k n) else .error err : Except DecodeErr (BitVec n)) = .ok y ↔
      x = y ++ c := by
  constructor
  · intro h
    split at h
    · next hc => rw [← hc, ← Except.ok.inj h, append_extract]
    · cases h
  · rintro rfl
    rw [if_pos (by rw [extract_right _ _ _ _ (by simp)]; simp), extract_left _ _ _ _ (by simp)]
    simp

theorem readLow_eq_ok {n k : Nat} {x : BitVec (n + k)} {c : BitVec n} {y : BitVec k} {err : DecodeErr} :
    (if x.extractLsb' k n = c then .ok (x.extractLsb' 0 k) else .error err : Except DecodeErr (BitVec k)) = .ok y ↔
      x = c ++ y := by
  constructor
  · intro h
    split at h
    · next hc => rw [← hc, ← Except.ok.inj h, append_extract]
    · cases h
  · rintro rfl
    rw [if_pos (by rw [extract_left _ _ _ _ (by simp)]; simp), extract_right _ _ _ _ (by simp)]
    simp

@[simp] theorem zero6_eq_ok {x : BitVec 6} {u : Unit} : zero6 x = .ok u ↔ x = 0 := by simp [zero6]
@[simp] theorem pair6_eq_ok {x : BitVec 6} {y : BitVec 5} : pair6 x = .ok y ↔ x = y ++ 0#1 := readHigh_eq_ok (n := 5) (k := 1)
@[simp] theorem hi3_eq_ok {x : BitVec 6} {y : BitVec 3} : hi3 x = .ok y ↔ x = y ++ 0#3 := readHigh_eq_ok (n := 3) (k := 3)
@[simp] theorem even7_eq_ok {x : BitVec 7} {y : BitVec 6} : even7 x = .ok y ↔ x = y ++ 0#1 := readHigh_eq_ok (n := 6) (k := 1)
@[simp] theorem lo1_eq_ok {x : BitVec 6} {y : BitVec 1} : lo1 x = .ok y ↔ x = 0#5 ++ y := readLow_eq_ok (n := 5) (k := 1)
@[simp] theorem lo2_eq_ok {x : BitVec 6} {y : BitVec 2} : lo2 x = .ok y ↔ x = 0#4 ++ y := readLow_eq_ok (n := 4) (k := 2)
@[simp] theorem lo3_eq_ok {x : BitVec 6} {y : BitVec 3} : lo3 x = .ok y ↔ x = 0#3 ++ y := readLow_eq_ok (n := 3) (k := 3)
@[simp] theorem lo4_eq_ok {x : BitVec 6} {y : BitVec 4} : lo4 x = .ok y ↔ x = 0#2 ++ y := readLow_eq_ok (n := 2) (k := 4)
@[simp] theorem lo5_eq_ok {x : BitVec 6} {y : BitVec 5} : lo5 x = .ok y ↔ x = 0#1 ++ y := readLow_eq_ok (n := 1) (k := 5)
@[simp] theorem join3_eq_ok {x : BitVec 6} {y : BitVec 3} : join3 x = .ok y ↔ x = 1#3 ++ y := readLow_eq_ok (n := 3) (k := 3)
@[simp] theorem imm5_eq_ok {x : BitVec 12} {y : BitVec 5} : imm5 x = .ok y ↔ x = 0#7 ++ y := readLow_eq_ok (n := 7) (k := 5)

@[simp] theorem cvtFields_eq_ok {x : BitVec 6} {y : BitVec 2 × BitVec 2} : cvtFields x = .ok y ↔ x = y.1 ++ y.2 ++ 0#2 := by
  have hhigh : x.extractLsb' 4 2 ++ x.extractLsb' 2 2 = x.extractLsb' 2 4 :=
    BitVec.extractLsb'_append_extractLsb'_eq_extractLsb' rfl
  have hread : cvtFields x = .ok y ↔
      x.extractLsb' 0 2 = 0 ∧ (x.extractLsb' 4 2, x.extractLsb' 2 2) = y := by
    unfold cvtFields; split <;> simp_all
  constructor
  · intro h
    obtain ⟨hlow, rfl⟩ := hread.1 h
    rw [hhigh, ← BitVec.ofNat_eq_ofNat, ← hlow]
    exact (append_extract (n := 4) (k := 2) x).symm
  · rintro rfl
    exact cvtFields_append y.1 y.2

/-! ### The instruction read from a word is encoded by it -/

/-- What a reading of fields answers, if it answers an instruction, is encoded by `w`. -/
def Encodes (r : Except DecodeErr Instr) (w : BitVec 32) : Prop := ∀ i, r = .ok i → encodeWord i = some w

@[simp] theorem encodes_ok {i : Instr} {w : BitVec 32} : Encodes (.ok i) w ↔ encodeWord i = some w := by simp [Encodes]
@[simp] theorem encodes_error (e : DecodeErr) (w : BitVec 32) : Encodes (.error e) w := by simp [Encodes]
@[simp] theorem encodes_bind {α : Type} {x : Except DecodeErr α} {f : α → Except DecodeErr Instr} {w : BitVec 32} :
    Encodes (x >>= f) w ↔ ∀ a, x = .ok a → Encodes (f a) w := by
  cases x with
  | error e => exact iff_of_true (encodes_error e w) (by simp)
  | ok a => simp

/-- It suffices to name the function code by its number, by which the majors are read. -/
theorem Encodes.of_toNat {r : Except DecodeErr Instr} {h : Hdr} {op : BitVec 5} {d a b fn : BitVec 6}
    (H : Encodes r (word h op (t3 d a b (BitVec.ofNat 6 fn.toNat)))) : Encodes r (word h op (t3 d a b fn)) := by
  simpa using H

theorem Encodes.of_payload {r : Except DecodeErr Instr} {h : Hdr} {op : BitVec 5} {pl pl' : BitVec 24} (heq : pl' = pl)
    (H : Encodes r (word h op pl')) : Encodes r (word h op pl) := heq ▸ H

/-! The majors: a case for each function code, in which every field equals what its reading gives, written back. -/

section
variable {h : Hdr} {d a b fn : BitVec 6}

theorem encodes_decodeSys : Encodes (decodeSys h d a b fn) (word h 0 (t3 d a b fn)) := by
  refine .of_toNat ?_
  unfold decodeSys
  split
  case h_6 | h_10 | h_11 | h_12 | h_13 =>
    simp +contextual [*]
    intros
    exact congrArg (fun pl => some (word h 0 pl)) (t3_append ..)
  all_goals simp +contextual [*] <;> intros <;> rfl

theorem encodes_decodeInt : Encodes (decodeInt h d a b fn) (word h 1 (t3 d a b fn)) :=
  .of_toNat (by unfold decodeInt; split <;> simp +contextual [*] <;> intros <;> rfl)

theorem encodes_decodeCmp : Encodes (decodeCmp h d a b fn) (word h 8 (t3 d a b fn)) :=
  .of_toNat (by unfold decodeCmp; split <;> simp +contextual [*] <;> intros <;> rfl)

theorem encodes_decodePrd : Encodes (decodePrd h d a b fn) (word h 10 (t3 d a b fn)) :=
  .of_toNat (by unfold decodePrd; split <;> simp +contextual [*] <;> intros <;> rfl)

theorem encodes_decodeJr : Encodes (decodeJr h d a b fn) (word h 13 (t3 d a b fn)) :=
  .of_toNat (by unfold decodeJr; split <;> simp +contextual [*] <;> intros <;> rfl)

theorem encodes_decodeKm : Encodes (decodeKm h d a b fn) (word h 14 (t3 d a b fn)) :=
  .of_toNat (by unfold decodeKm; split <;> simp +contextual [*] <;> intros <;> rfl)

theorem encodes_decodeFalu : Encodes (decodeFalu h d a b fn) (word h 15 (t3 d a b fn)) :=
  .of_toNat (by unfold decodeFalu; split <;> simp +contextual [*] <;> intros <;> rfl)

theorem encodes_decodeSfu : Encodes (decodeSfu h d a b fn) (word h 20 (t3 d a b fn)) :=
  .of_toNat (by unfold decodeSfu; split <;> simp +contextual [*] <;> intros <;> rfl)

theorem encodes_decodeLane : Encodes (decodeLane h d a b fn) (word h 21 (t3 d a b fn)) :=
  .of_toNat (by unfold decodeLane; split <;> simp +contextual [*] <;> intros <;> rfl)

theorem encodes_decodeAtom : Encodes (decodeAtom h d a b fn) (word h 24 (t3 d a b fn)) :=
  .of_toNat (by unfold decodeAtom; split <;> simp +contextual [*] <;> intros <;> rfl)

theorem encodes_decodeFence : Encodes (decodeFence h d a b fn) (word h 25 (t3 d a b fn)) :=
  .of_toNat (by unfold decodeFence; split <;> simp +contextual [*] <;> intros <;> rfl)

theorem encodes_decodeCopy : Encodes (decodeCopy h d a b fn) (word h 26 (t3 d a b fn)) :=
  .of_toNat (by unfold decodeCopy; split <;> simp +contextual [*] <;> intros <;> rfl)

theorem encodes_decodeRun : Encodes (decodeRun h d a b fn) (word h 27 (t3 d a b fn)) :=
  .of_toNat (by unfold decodeRun; split <;> simp +contextual [*] <;> intros <;> rfl)

theorem encodes_decodeTile : Encodes (decodeTile h d a b fn) (word h 29 (t3 d a b fn)) :=
  .of_toNat (by unfold decodeTile; split <;> simp +contextual [*] <;> intros <;> rfl)

theorem encodes_decodeCvt : Encodes (decodeCvt h d a b fn) (word h 19 (t3 d a b fn)) := by
  unfold decodeCvt
  split
  case h_9 =>
    rw [show t3 d a b fn = t3 d a b (fn.extractLsb' 3 3 ++ fn.extractLsb' 0 3) by
      rw [append_extract (n := 3) (k := 3) fn]]
    simp +contextual
    intros
    rfl
  all_goals refine .of_toNat ?_; simp +contextual [*] <;> intros <;> rfl

theorem encodes_decodeSg : Encodes (decodeSg h d a b fn) (word h 30 (t3 d a b fn)) := by
  refine .of_toNat ?_
  unfold decodeSg
  split
  case h_2 => split <;> simp +contextual [*] <;> intros <;> rfl
  all_goals simp +contextual [*] <;> intros <;> rfl

end

theorem encodes_decodeCmpi {h : Hdr} {p cc : BitVec 3} {a : BitVec 6} {imm : BitVec 12} :
    Encodes (decodeCmpi h p cc a imm) (word h 9 (tc p cc a imm)) := by
  rw [show tc p cc a imm = tc p (BitVec.ofNat 3 cc.toNat) a imm by simp]
  unfold decodeCmpi
  split
  case h_8 =>
    have hlt : cc.toNat < 8 := cc.isLt
    have h7 : cc.toNat = 7 := by grind
    simp +contextual [h7]
    intros
    rfl
  all_goals (simp +contextual [*]; intros; rfl)

/-- The two majors of format TM (R88): an immediate, or an index register. -/
theorem encodes_tm {direct : BitVec 7 → Instr} {indexed : BitVec 6 → Instr} {h : Hdr} {op : BitVec 5} {pl : BitVec 24}
    (hdirect : ∀ i, encodeWord (direct i) = some (word h op (tm (fD pl) (fW pl) (fTy pl) (fCp pl) 0 i)))
    (hindexed : ∀ b, encodeWord (indexed b) = some (word h op (tm (fD pl) (fW pl) (fTy pl) (fCp pl) 1 (b ++ 0#1)))) :
    Encodes (if fX pl = 0 then .ok (direct (fI7 pl)) else do let b ← even7 (fI7 pl); .ok (indexed b)) (word h op pl) := by
  have hpl := tm_fields pl
  have hx : fX pl = 0 ∨ fX pl = 1 := BitVec.eq_zero_or_eq_one (fX pl)
  rcases hx with hx | hx
  · rw [if_pos hx, encodes_ok, hdirect, ← hx, hpl]
  · rw [if_neg (by simp [hx])]
    simp only [encodes_bind, even7_eq_ok, encodes_ok]
    intro b hb
    rw [hindexed, ← hx, ← hb, hpl]

theorem encodes_tj {h : Hdr} {pl : BitVec 24} :
    Encodes (if fL pl = 0 then .ok (.jmp h (fD4 pl) (fDisp19 pl)) else .ok (.call h (fD4 pl) (fDisp19 pl))) (word h 12 pl) := by
  have hpl := tj_fields pl
  have hl : fL pl = 0 ∨ fL pl = 1 := BitVec.eq_zero_or_eq_one (fL pl)
  rcases hl with hl | hl <;> rw [hl] at hpl
  · rw [if_pos hl]
    exact .of_payload hpl (encodes_ok.2 rfl)
  · rw [if_neg (by simp [hl])]
    exact .of_payload hpl (encodes_ok.2 rfl)

theorem encodes_decodeMajor (h : Hdr) (op : BitVec 5) (pl : BitVec 24) :
    Encodes (decodeMajor h op pl) (word h op pl) := by
  rw [show word h op pl = word h (BitVec.ofNat 5 op.toNat) pl by simp]
  unfold decodeMajor
  split
  case h_1 hop => rw [hop]; exact .of_payload (t3_fields pl) encodes_decodeSys
  case h_2 hop => rw [hop]; exact .of_payload (t3_fields pl) encodes_decodeInt
  case h_9 hop => rw [hop]; exact .of_payload (t3_fields pl) encodes_decodeCmp
  case h_10 hop => rw [hop]; exact .of_payload (tc_fields pl) encodes_decodeCmpi
  case h_11 hop => rw [hop]; exact .of_payload (t3_fields pl) encodes_decodePrd
  case h_13 hop => rw [hop]; exact encodes_tj
  case h_14 hop => rw [hop]; exact .of_payload (t3_fields pl) encodes_decodeJr
  case h_15 hop => rw [hop]; exact .of_payload (t3_fields pl) encodes_decodeKm
  case h_16 hop => rw [hop]; exact .of_payload (t3_fields pl) encodes_decodeFalu
  case h_20 hop => rw [hop]; exact .of_payload (t3_fields pl) encodes_decodeCvt
  case h_21 hop => rw [hop]; exact .of_payload (t3_fields pl) encodes_decodeSfu
  case h_22 hop => rw [hop]; exact .of_payload (t3_fields pl) encodes_decodeLane
  case h_23 hop => rw [hop]; refine encodes_tm ?_ ?_ <;> intro <;> rfl
  case h_24 hop => rw [hop]; refine encodes_tm ?_ ?_ <;> intro <;> rfl
  case h_25 hop => rw [hop]; exact .of_payload (t3_fields pl) encodes_decodeAtom
  case h_26 hop => rw [hop]; exact .of_payload (t3_fields pl) encodes_decodeFence
  case h_27 hop => rw [hop]; exact .of_payload (t3_fields pl) encodes_decodeCopy
  case h_28 hop => rw [hop]; exact .of_payload (t3_fields pl) encodes_decodeRun
  case h_30 hop => rw [hop]; exact .of_payload (t3_fields pl) encodes_decodeTile
  case h_31 hop => rw [hop]; exact .of_payload (t3_fields pl) encodes_decodeSg
  case h_3 hop | h_4 hop | h_5 hop | h_6 hop => rw [hop]; exact .of_payload (ti_fields pl) (encodes_ok.2 rfl)
  case h_7 hop | h_8 hop => rw [hop]; exact .of_payload (tu_fields pl) (encodes_ok.2 rfl)
  case h_12 hop => rw [hop]; exact .of_payload (tb_fields pl) (encodes_ok.2 rfl)
  case h_17 hop | h_18 hop | h_19 hop => rw [hop]; exact .of_payload (t3_fields pl) (encodes_ok.2 rfl)
  case h_29 hop => rw [hop]; exact .of_payload (te_fields pl) (encodes_ok.2 rfl)
  case h_32 => exact encodes_error _ _

/-! ### Decoding and encoding -/

theorem decode_eq_ok {w : BitVec 32} {i : Instr} :
    decode w = .ok i ↔ decodeMajor (hdrOf w) (opOf w) (payloadOf w) = .ok i ∧ wf i = true := by
  unfold decode
  split
  · next j hj =>
    rw [hj]
    constructor
    · intro h
      split at h
      · next hwf => cases h; exact ⟨rfl, hwf⟩
      · cases h
    · rintro ⟨h, hwf⟩
      cases h
      rw [if_pos hwf]
  · next e he => simp [he]

theorem encode_of_wf {i : Instr} (h : wf i = true) : encode i = encodeWord i := if_pos h

theorem encode_of_decode {w : BitVec 32} {i : Instr} (h : decode w = .ok i) : encode i = some w := by
  obtain ⟨hmajor, hwf⟩ := decode_eq_ok.1 h
  rw [encode_of_wf hwf, encodes_decodeMajor _ _ _ i hmajor, word_fields]

theorem encodeWord_isNone_of_isEvent {i : Instr} (h : Machine.isEvent i = true) : encodeWord i = none := by
  unfold Machine.isEvent at h
  split at h
  · cases h
  · exact Option.isNone_iff_eq_none.1 h

theorem encodeWord_isSome_of_not_isEvent {i : Instr} (h : Machine.isEvent i = false) (hi : ∀ x, i ≠ .illegalEncoding x) :
    ∃ w, encodeWord i = some w := by
  unfold Machine.isEvent at h
  split at h
  · next x => exact absurd rfl (hi x)
  · exact Option.isSome_iff_exists.1 (by simpa using h)

end Sys2Proof

namespace Sys2Proof.Laws

/-- The family RoundTrip as one law, in the order of the opcode table. -/
theorem roundTrip (i : Instr) : RoundTrip.Statement i :=
  Instr.casesOn (motive := RoundTrip.Statement) i
    RoundTrip.nop RoundTrip.exit RoundTrip.yield RoundTrip.sleep RoundTrip.pri RoundTrip.trap RoundTrip.launch
    RoundTrip.fwdh RoundTrip.rds RoundTrip.csrr RoundTrip.csrw RoundTrip.csrs RoundTrip.csrc RoundTrip.eret RoundTrip.wfi
    RoundTrip.btinv RoundTrip.btsync RoundTrip.dig RoundTrip.add RoundTrip.sub RoundTrip.mul RoundTrip.mulhiI
    RoundTrip.mulhiN RoundTrip.macc RoundTrip.divI RoundTrip.divN RoundTrip.remI RoundTrip.remN RoundTrip.minI
    RoundTrip.minN RoundTrip.maxI RoundTrip.maxN RoundTrip.abs RoundTrip.neg RoundTrip.and RoundTrip.or RoundTrip.xor
    RoundTrip.andn RoundTrip.orn RoundTrip.shl RoundTrip.shr RoundTrip.sra RoundTrip.rotl RoundTrip.shli RoundTrip.shri
    RoundTrip.srai RoundTrip.clz RoundTrip.ctz RoundTrip.popc RoundTrip.brev RoundTrip.bfxI RoundTrip.bfxN RoundTrip.bfi
    RoundTrip.mov RoundTrip.add64 RoundTrip.sub64 RoundTrip.mulwI RoundTrip.mulwN RoundTrip.addof RoundTrip.mkptr
    RoundTrip.pix RoundTrip.selP0 RoundTrip.selP1 RoundTrip.selP2 RoundTrip.selP3 RoundTrip.selP4 RoundTrip.selP5
    RoundTrip.selP6 RoundTrip.addi RoundTrip.andi RoundTrip.ori RoundTrip.xori RoundTrip.lui RoundTrip.apc
    RoundTrip.cmpEqB32 RoundTrip.cmpNeB32 RoundTrip.cmpLtI32 RoundTrip.cmpLeI32 RoundTrip.cmpLtN32 RoundTrip.cmpLeN32
    RoundTrip.cmpEqB64 RoundTrip.cmpNeB64 RoundTrip.cmpLtI64 RoundTrip.cmpLeI64 RoundTrip.cmpLtN64 RoundTrip.cmpLeN64
    RoundTrip.cmpEqF32 RoundTrip.cmpNeF32 RoundTrip.cmpLtF32 RoundTrip.cmpLeF32 RoundTrip.cmpUnF32 RoundTrip.cmpiEq
    RoundTrip.cmpiNe RoundTrip.cmpiLtI RoundTrip.cmpiGeI RoundTrip.cmpiLtN RoundTrip.cmpiGeN RoundTrip.cmpiBset
    RoundTrip.cmpiBclr RoundTrip.pand RoundTrip.por RoundTrip.pxor RoundTrip.pandn RoundTrip.pmov RoundTrip.pset
    RoundTrip.p2v RoundTrip.v2p RoundTrip.br RoundTrip.jmp RoundTrip.call RoundTrip.jr RoundTrip.callr RoundTrip.ret
    RoundTrip.kjoin RoundTrip.kleave RoundTrip.kwait RoundTrip.kbal RoundTrip.kmov RoundTrip.krd RoundTrip.kwr
    RoundTrip.kclr RoundTrip.kfront RoundTrip.fadd RoundTrip.fsub RoundTrip.fmul RoundTrip.fmin RoundTrip.fmax
    RoundTrip.fabs RoundTrip.fneg RoundTrip.fcps RoundTrip.frndNe RoundTrip.frndTz RoundTrip.frndDn RoundTrip.frndUp
    RoundTrip.fclass RoundTrip.fscale RoundTrip.hadd2 RoundTrip.hsub2 RoundTrip.hmul2 RoundTrip.hmin2 RoundTrip.hmax2
    RoundTrip.badd2 RoundTrip.bsub2 RoundTrip.bmul2 RoundTrip.bmin2 RoundTrip.bmax2 RoundTrip.ffma RoundTrip.hfma2
    RoundTrip.bfma2 RoundTrip.cvt RoundTrip.cvtF16x2F32x2 RoundTrip.cvtBf16x2F32x2 RoundTrip.cvtF32F16hi
    RoundTrip.cvtF32Bf16hi RoundTrip.rcp RoundTrip.rsq RoundTrip.sqrt RoundTrip.exp2 RoundTrip.log2 RoundTrip.sin
    RoundTrip.cos RoundTrip.tanh RoundTrip.shflIdx RoundTrip.shflUp RoundTrip.shflDn RoundTrip.shflXor RoundTrip.voteAny
    RoundTrip.voteAll RoundTrip.lrank RoundTrip.lcnt RoundTrip.bcast RoundTrip.rdxAddI32 RoundTrip.rdxAddF32
    RoundTrip.rdxMinI32 RoundTrip.rdxMaxI32 RoundTrip.rdxMinF32 RoundTrip.rdxMaxF32 RoundTrip.ld RoundTrip.ldx
    RoundTrip.st RoundTrip.stx RoundTrip.atomAddI32 RoundTrip.atomAddF32 RoundTrip.atomAddBf16x2 RoundTrip.atomMinI32
    RoundTrip.atomMinN32 RoundTrip.atomMaxI32 RoundTrip.atomMaxN32 RoundTrip.atomAnd RoundTrip.atomOr RoundTrip.atomXor
    RoundTrip.atomXchg RoundTrip.atomCas RoundTrip.atomInc RoundTrip.atomXchg64 RoundTrip.atomCas64 RoundTrip.redAddI32
    RoundTrip.redAddF32 RoundTrip.redAddBf16x2 RoundTrip.redMinI32 RoundTrip.redMaxI32 RoundTrip.redAnd RoundTrip.redOr
    RoundTrip.redXor RoundTrip.ldaB32 RoundTrip.ldaB64 RoundTrip.strB32 RoundTrip.strB64 RoundTrip.ldaSys RoundTrip.strSys
    RoundTrip.fenceVault RoundTrip.fencePart RoundTrip.fenceSys RoundTrip.fwait RoundTrip.fencewVault RoundTrip.fencewPart
    RoundTrip.fencewSys RoundTrip.prefL1 RoundTrip.prefL2 RoundTrip.copy RoundTrip.carm RoundTrip.bwaitFull
    RoundTrip.bwaitFree RoundTrip.btake RoundTrip.bfree RoundTrip.bstat RoundTrip.run RoundTrip.rstop RoundTrip.pop
    RoundTrip.qstat RoundTrip.qreset RoundTrip.mma RoundTrip.tzero RoundTrip.tld RoundTrip.tst RoundTrip.trls
    RoundTrip.mmag RoundTrip.mmal RoundTrip.tstat RoundTrip.sgnew RoundTrip.sgjoin RoundTrip.sgjoinH RoundTrip.sgleave
    RoundTrip.sgbar RoundTrip.sgvoteAny RoundTrip.sgvoteAll RoundTrip.sgvoteCnt RoundTrip.sgredAddI32
    RoundTrip.sgredAddF32 RoundTrip.sgredMinI32 RoundTrip.sgredMaxI32 RoundTrip.sgredMinF32 RoundTrip.sgredMaxF32
    RoundTrip.sgstat RoundTrip.sgdrop RoundTrip.shortStallExpiry RoundTrip.poolStallConvert RoundTrip.poolexhaust
    RoundTrip.resultWriteback RoundTrip.loadResponse RoundTrip.storeAck RoundTrip.storeHorizonReached
    RoundTrip.deviceTimeWake RoundTrip.ladleDrainWindow RoundTrip.ladleDrain RoundTrip.schedulerForward
    RoundTrip.recordArrival RoundTrip.homeWrite RoundTrip.homeRead RoundTrip.vaultBankAccess RoundTrip.l1LeaseExpiry
    RoundTrip.leaseExpiryNotice RoundTrip.updateOnlyGrant RoundTrip.l1Evict RoundTrip.deferredStoreFault
    RoundTrip.faultEntryRetry RoundTrip.bufferStateOp RoundTrip.copyComplete RoundTrip.bufferFull RoundTrip.runnerPush
    RoundTrip.enginePageFault RoundTrip.tileOpArrival RoundTrip.mmaStep RoundTrip.mmalStep RoundTrip.sgHomeRequest
    RoundTrip.sgReply RoundTrip.sgArrivalDepart RoundTrip.sgResult RoundTrip.syscallPost RoundTrip.launchEnqueue
    RoundTrip.sysdoneWrite RoundTrip.fltdoneService RoundTrip.fltdoneFail RoundTrip.watchdog RoundTrip.vaultSpill
    RoundTrip.vaultRestore RoundTrip.pourPreempt RoundTrip.preemptComplete RoundTrip.vfSliceEnd RoundTrip.bundleRead
    RoundTrip.castAdmit RoundTrip.depReread RoundTrip.castStart RoundTrip.pourStart RoundTrip.epilogueStart
    RoundTrip.bundleRetire RoundTrip.pourPromote RoundTrip.assayDeadline RoundTrip.stealRequest RoundTrip.stealHandle
    RoundTrip.stealReply RoundTrip.enacctSample RoundTrip.rowWindowEnd RoundTrip.assaySetup RoundTrip.suspicionDecay
    RoundTrip.finjFlip RoundTrip.finjPoison RoundTrip.finjOff RoundTrip.recholdHold RoundTrip.recholdRelease
    RoundTrip.qack RoundTrip.interruptEntry RoundTrip.l2VthrDrop RoundTrip.l2VthrRecover RoundTrip.eyeMeasure
    RoundTrip.laneRetrain RoundTrip.retrainDone RoundTrip.powerOnReset RoundTrip.readySet RoundTrip.readyClear
    RoundTrip.portTrain RoundTrip.peerDown RoundTrip.migfwdForward RoundTrip.queueTailWrite RoundTrip.cfglockCreq
    RoundTrip.cfglockCrelease RoundTrip.cfglockMreq RoundTrip.cfglockMrelease RoundTrip.create RoundTrip.destroy
    RoundTrip.quiesce RoundTrip.quiesceTimeout RoundTrip.resume RoundTrip.reset RoundTrip.scrub RoundTrip.scrubDone
    RoundTrip.shakeout RoundTrip.shakeoutDone RoundTrip.preqPreempt RoundTrip.preqMove RoundTrip.pctxSave
    RoundTrip.pctxRestore RoundTrip.pctxSaveOnevf RoundTrip.pctxRestoreOnevf RoundTrip.pctxComplete RoundTrip.mctpDsbRead
    RoundTrip.mctpDsbWrite RoundTrip.getVersion RoundTrip.getCapabilities RoundTrip.negotiateAlgorithms
    RoundTrip.getDigests RoundTrip.getCertificate RoundTrip.challenge RoundTrip.getMeasurements RoundTrip.registerWrite
    RoundTrip.illegalEncoding RoundTrip.btinvActed RoundTrip.arrivalValidation RoundTrip.peerUp RoundTrip.pldmTelemetry

end Sys2Proof.Laws

namespace Sys2Proof

/-- Settles O57: the words of the family RoundTrip decode to their instructions, and `encodes_decodeMajor` gives the other
direction. -/
theorem encodingAgrees : Obligations.EncodingAgrees := by
  unfold Obligations.EncodingAgrees
  refine ⟨fun i hwf hev hi => ?_, fun i hev => ?_, fun i w => ⟨Laws.roundTrip i w, encode_of_decode⟩⟩
  · obtain ⟨w, hw⟩ := encodeWord_isSome_of_not_isEvent hev hi
    have hi : encode i = some w := (encode_of_wf hwf).trans hw
    exact ⟨w, hi, Laws.roundTrip i w hi⟩
  · unfold encode
    rw [encodeWord_isNone_of_isEvent hev, ite_self]

end Sys2Proof
end

section
/-! SUPPORT. A trap that the handler takes (R325, R326): the one lane of a group that finds it leaves the group and stands at
the handler's packet. -/

namespace Sys2Proof.Machine

/-- A trap that the handler takes (R325). -/
abbrev HandTaken (code : TrapCode) : Prop :=
  code ≠ Trap.page ∧ code ≠ Trap.defstore ∧ code ≠ Trap.poison ∧ code ≠ Trap.protect ∧ code ≠ Trap.retry

theorem handlerBuf_eq (vec : Word) : bitsN vec.toNat 31 16 = vec.toNat / 2 ^ 16 := by
  have := vec.isLt
  simp only [bitsN, Nat.shiftRight_eq_div_pow]
  omega
theorem handlerPacket_eq (vec : Word) : bitsN vec.toNat 15 0 = vec.toNat % 2 ^ 16 := by
  simp [bitsN]

theorem takeTraps_handTaken {s : State} {core : Nat} (hc : isCtlCore core = false) {k : LaneTrap} (hk : HandTaken k.code)
    (slot : Nat) (e : Entry) (pc done : Word) :
    takeTraps s core slot e pc done [k] = enterTrap s core slot pc e.prio e.buf k := by
  obtain ⟨hpage, hdefstore, hpoison, hprotect, hretry⟩ := hk
  simp [takeTraps, hc, hpage, hdefstore, hpoison, hprotect, hretry, takePages, postOthers]

@[simp] theorem dropAnswers_thread? (s : State) (tid n : Nat) :
    (dropAnswers s tid).thread? n = (s.updThread tid fun t => { t with stale := [] }).thread? n := rfl

@[simp] theorem dropAnswers_pour? (s : State) (tid core slot : Nat) :
    (dropAnswers s tid).pour? core slot = s.pour? core slot := rfl

@[simp] theorem updThread_pour? (s : State) (tid : Nat) (f : Thread → Thread) (core slot : Nat) :
    (s.updThread tid f).pour? core slot = s.pour? core slot := rfl
@[simp] theorem updPour_thread? (s : State) (core slot : Nat) (f : Pour → Pour) (n : Nat) :
    (s.updPour core slot f).thread? n = s.thread? n := rfl

/-- Where the frontier has room, placing lanes cuts nothing off. -/
theorem placeLanes_room {s : State} {core slot : Nat} {p : Pour} (hp : s.pour? core slot = some p)
    (hroom : p.entries.length ≤ 7) (pc : Word) (prio : BitVec 4) (mask : Word) (buf : Nat) :
    placeLanes s core slot pc prio mask buf =
      s.updPour core slot fun p => { p with entries := placeIn p.entries pc prio mask buf } := by
  refine splitWhile_few 33 fun r hr => ?_
  rw [pour?_updPour _ _ _ _ (by exact fun _ => ⟨rfl, rfl⟩), hp] at hr
  cases hr
  have := length_placeIn_le p.entries pc prio mask buf
  simp only
  omega

/-- Thread `u` in the handler whose packet `vec` names, for a trap at `pc` (R326). -/
def Thread.handling (u : Thread) (now : Nat) (pc : Word) (prio : BitVec 4) (vec : Word) (code : TrapCode)
    (info : DWord) : Thread :=
  { u with
    trappc := pc, trapcause := BitVec.ofNat 32 (code.toNat + prio.toNat * 2 ^ 8), trapinfo := info, level := .sup,
    trapClass := true, hbuf := vec.toNat / 2 ^ 16, hstart := now, stale := [] }

/-- Entries once a lane stands at the packet of the handler (R326). -/
def atHandler (es : List Entry) (vec : Word) (lane : Nat) : List Entry :=
  placeIn es (BitVec.ofNat 32 (12 * (vec.toNat % 2 ^ 16))) 15 (laneBit lane) (vec.toNat / 2 ^ 16)

/-- Entry to the handler (R326): what becomes of the thread, and where its lane stands. -/
theorem enterTrap_handler {s : State} {core slot : Nat} {p : Pour} {u : Thread} {q : Part} {k : LaneTrap}
    (hu : s.thread? k.tid = some u) (hq : s.part? u.part = some q) (hfresh : u.trapClass = false)
    (hvec : q.trapvec.toNat / 2 ^ 16 ≠ 0) (htwin : u.twin = 0) (hp : s.pour? core slot = some p)
    (hroom : p.entries.length ≤ 7) (pc : Word) (prio : BitVec 4) (buf : Nat) :
    let t := enterTrap s core slot pc prio buf k
    t.thread? k.tid = some (u.handling s.time pc prio q.trapvec k.code k.info) ∧
    t.pour? core slot = some { p with entries := atHandler p.entries q.trapvec k.lane } := by
  have hdrop : (dropAnswers s k.tid).thread? k.tid = some { u with stale := [] } := by
    rw [dropAnswers_thread?, State.thread?_updThread _ _ _ (by exact fun _ => rfl), hu]; rfl
  simp only [enterTrap, hu, hq, hfresh, handlerBuf_eq, handlerPacket_eq, hvec, Bool.false_eq_true, or_self, if_false]
  rw [updBoth_single _ hdrop htwin, placeLanes_room (p := p) (by rw [updThread_pour?, dropAnswers_pour?, hp]) hroom]
  constructor
  · rw [updPour_thread?, State.thread?_updThread _ _ _ (by exact fun _ => rfl), hdrop]
    simp [Thread.enterHandler, Thread.handling, trapCauseOf, Level.rank]
  · rw [pour?_updPour _ _ _ _ (by exact fun _ => ⟨rfl, rfl⟩), updThread_pour?, dropAnswers_pour?, hp]
    rfl

/-- The group once its one lane has taken trap `k`. -/
def State.trapped (s : State) (k : LaneTrap) : State := s.updCur fun c => { c with lanes := [], traps := [k] }

/-- With no lane left, nothing is placed behind the group. -/
theorem frontierAfter_trapped {s : State} {k : LaneTrap} (ht : s.cur.transfers = []) (es : List Entry) (e : Entry) :
    frontierAfter (s.trapped k).cur es e = es := by
  simp [frontierAfter, State.trapped, State.updCur, ht, maskOf, placeIn]

theorem mem_freePour {s : State} {core slot : Nat} {p : Pour} (hp : p ∈ s.pours) (hne : p.entries ≠ []) :
    p ∈ (freePour s core slot).pours := by
  simp [freePour, hp, hne]

/-- A pour that entry `e` has left in cy `now`, with entries `es`. -/
def Pour.leftWith (r : Pour) (es : List Entry) (now : Nat) : Pour :=
  { r with entries := es, ready := now + 1, last := now, readySince := none, promoted := false }

/-- The state from which the trap is taken: the entry has left the pour, and the thread's held block is let go. -/
def State.leftEntry (s : State) (p : Pour) (k : LaneTrap) : State :=
  dropTrappedBlocks ((s.trapped k).updPour s.cur.core s.cur.slot fun r =>
    r.leftWith (p.entries.eraseIdx (s.entIdx p)) s.time)

theorem leftEntry_pour? {s : State} {p : Pour} (hp : s.curPour? = some p) (k : LaneTrap) :
    (s.leftEntry p k).pour? s.cur.core s.cur.slot = some (p.leftWith (p.entries.eraseIdx (s.entIdx p)) s.time) :=
  (pour?_updPour _ _ _ _ (by exact fun _ => ⟨rfl, rfl⟩)).trans (congrArg (Option.map _) hp)

theorem closeGroup_trapped {s : State} {p : Pour} {e : Entry} {k : LaneTrap} (ho : OneWord s p e) :
    ∃ f, closeGroup (s.trapped k) =
      (freePour (splitWhile (takeTraps (s.leftEntry p k) s.cur.core s.cur.slot e s.cur.pc 0 [k]) s.cur.core s.cur.slot 33)
        s.cur.core s.cur.slot).updCur f := by
  have hp : (s.trapped k).curPour? = some p := ho.pour
  have he : (s.trapped k).curEntry? = some e := ho.entry
  have hends : (s.trapped k).cur.ends = [] := ho.ends
  have hlanes : (s.trapped k).cur.lanes = [] := rfl
  have htraps : (s.trapped k).cur.traps = [k] := rfl
  unfold closeGroup
  simp only [hp, he, hends, hlanes, htraps, List.foldl_nil, frontierAfter_trapped ho.transfers]
  exact ⟨_, rfl⟩

theorem atHandler_stands {l : Nat} (hl : l < 32) (es : List Entry) (vec : Word) :
    StandsAt (atHandler es vec l) l (BitVec.ofNat 32 (12 * (vec.toNat % 2 ^ 16))) 15 (vec.toNat / 2 ^ 16) :=
  StandsAt.placeIn_new _ _ _ _ _ _ (by simp [getLsbD_laneBit, hl])

/-- A group whose one lane takes a trap of the handler closes: the lane enters the handler. -/
theorem enters_closeGroup {s : State} {p : Pour} {e : Entry} {l : Nat} {u : Thread} {q : Part} {k : LaneTrap}
    (hm : MayTrap s p e l u q) (hlane : k.lane = l) (htid : k.tid = u.tid) (hk : HandTaken k.code) :
    Enters s (closeGroup (s.trapped k)) p e l u q.trapvec k.code k.info := by
  subst hlane
  have hl : k.lane < 32 := BitVec.lt_of_getLsbD (hm.one.inside (k.lane, u.tid) (by simp [hm.lane]))
  have hlen : (p.entries.eraseIdx (s.entIdx p)).length ≤ 7 := (List.length_eraseIdx_le ..).trans hm.room
  obtain ⟨hthread, hat⟩ := enterTrap_handler (s := s.leftEntry p k) (htid ▸ hm.thread) hm.part hm.fresh hm.handler
    hm.single (leftEntry_pour? hm.one.pour k) hlen s.cur.pc e.prio e.buf
  obtain ⟨f, hclose⟩ := closeGroup_trapped (k := k) hm.one
  rw [takeTraps_handTaken hm.compute hk, splitWhile_few 33 fun r hr => ?few] at hclose
  case few =>
    cases hat.symm.trans hr
    exact (length_placeIn_le ..).trans (Nat.succ_le_succ hlen)
  have hstands := atHandler_stands hl (p.entries.eraseIdx (s.entIdx p)) q.trapvec
  rw [htid] at hthread
  rw [hclose]
  refine ⟨hthread, _, mem_freePour (pour?_mem hat).1 ?_, rfl, rfl, hstands⟩
  obtain ⟨y, hy, -⟩ := hstands
  exact List.ne_nil_of_mem hy

theorem dropTrapped_noteWord_trap {sem : Sem} {s : State} {p : Pour} {e : Entry} {l : Nat} {u : Thread} {q : Part}
    {k : LaneTrap} (hm : MayTrap s p e l u q) (hchk : sem.chk s l u = some k) (hlane : k.lane = l) :
    dropTrapped (noteWord sem s) = s.trapped k := by
  simp [dropTrapped, noteWord, State.trapped, State.updCur, hm.lane, hm.one.traps, hm.thread, hm.now, hchk, hlane]

/-- A word that finds a trap of the handler for the one lane of its group: the lane enters the handler. -/
theorem enters_runWord {s : State} {p : Pour} {e : Entry} {l : Nat} {u : Thread} {q : Part} {k : LaneTrap} {sem : Sem}
    (hm : MayTrap s p e l u q) (h : Hdr) (hchk : sem.chk s l u = some k) (hlane : k.lane = l) (htid : k.tid = u.tid)
    (hk : HandTaken k.code) : Enters s (runWord h sem s) p e l u q.trapvec k.code k.info := by
  have hrun : runWord h sem s = closeGroup (s.trapped k) := by
    unfold runWord
    rw [hm.one.phase]
    simp only [dropTrapped_noteWord_trap hm hchk hlane]
    rfl
  rw [hrun]
  exact enters_closeGroup hm hlane htid hk

/-- The same for a trap of steps 1 to 3 of R78: the word and its position are its information. -/
theorem enters_of_static {s : State} {p : Pour} {e : Entry} {l : Nat} {u : Thread} {q : Part} {h : Hdr} {sem : Sem}
    {code : TrapCode} (hm : MayTrap s p e l u q) (hchk : sem.chk s l u = some (staticTrap s l u.tid code)) (hk : HandTaken code) :
    Enters s (runWord h sem s) p e l u q.trapvec code (BitVec.ofNat 64 (s.cur.word.toNat + s.cur.pos * 2 ^ 32)) :=
  enters_runWord hm h hchk rfl rfl hk

end Sys2Proof.Machine
end

section
/-! PROOF. O37: what the port's check refuses is a trap of the handler, whatever access asks for it. -/

namespace Sys2Proof.Machine

open Sys2Proof (Instr)

/-! ### The port's checks -/

theorem portCheck8_handTaken {s : State} {r : Req} {p : Part} {op : PortOp} {e idx off size : Nat} {c : TrapCode}
    (h : portCheck8 s r p op e idx off size = some c) : HandTaken c := by
  have hc : c ∈ [Trap.bounds, Trap.flashdirect, Trap.align, Trap.rights, Trap.owner, Trap.atomemu, Trap.rangelock] := by
    unfold portCheck8 at h
    grind
  simp only [List.mem_cons, List.not_mem_nil, or_false] at hc
  rcases hc with rfl | rfl | rfl | rfl | rfl | rfl | rfl <;> decide

theorem portCheck_handTaken {s : State} {r : Req} {op : PortOp} {idx off size : Nat} {c : TrapCode}
    (h : portCheck s r op idx off size = .trap c) (hc : c ≠ Trap.page) : HandTaken c := by
  unfold portCheck at h
  split at h
  · cases h; decide
  · simp only at h
    split at h
    · next h8 => cases h; exact portCheck8_handTaken h8
    · split at h
      · cases h
      · cases h; exact absurd rfl hc

/-! ### Accesses -/

theorem addrPair_eq (now : Nat) (u : Thread) (w : PairNo) :
    addrPair now u w = ((u.rdW now w).toNat / 2 ^ 48, (u.rdW now w).toNat % 2 ^ 48) := by
  have := (u.rdW now w).isLt
  simp only [addrPair, effAddr, bitsN, wrap48, Nat.shiftRight_eq_div_pow, Prod.mk.injEq]
  omega

/-- What the check of an access finds for a lane without a shadow whose request `a` traps at the port (R220). -/
theorem askChk_of_trap {s : State} {l : Nat} {u : Thread} {f : Nat → Thread → Ask} {a : Ask} {code : TrapCode}
    (hf : f s.time u = a) (htwin : u.twin = 0) (hatomic : a.kind.isAtomic = true → s.selected u = false)
    (hport : portCheck s (s.reqOf u s.cur.core l) a.op a.idx a.off a.size = .trap code) (hcode : code ≠ Trap.page) :
    askChk f s l u = some (accessTrap l u.tid code a.idx a.off (srcOf a.op) a.ty) := by
  have hprotect : protectIf (f s.time) s l u = none := by simp [protectIf, State.twinOf, htwin]
  have hassay : (if a.kind.isAtomic = true then assayIf s l u else none) = none := by
    split
    · next h => simp [assayIf, hatomic h]
    · rfl
  have hask : askTrap s l u a = some (accessTrap l u.tid code a.idx a.off (srcOf a.op) a.ty) := by
    simp [askTrap, hport, hcode]
  simp only [askChk, hf, hprotect, hassay, hask, firstTrap]

/-- A word whose first check is that of the access `f`: a lane that fails it enters the handler, with the place `a` as
information (R331). -/
theorem enters_of_portCheck {s : State} {p : Pour} {e : Entry} {l : Nat} {u : Thread} {q : Part} {h : Hdr} {sem : Sem}
    {code : TrapCode} {a : Nat × Nat} (hm : MayTrap s p e l u q) (f : Nat → Thread → Ask)
    (hchk : ∀ k, askChk f s l u = some k → sem.chk s l u = some k)
    (hplace : ((f s.time u).idx, (f s.time u).off) = a) (hatomic : (f s.time u).kind.isAtomic = true → s.selected u = false)
    (hport : portCheck s (s.reqOf u s.cur.core l) (f s.time u).op a.1 a.2 (f s.time u).size = .trap code)
    (hcode : code ≠ Trap.page) :
    Enters s (runWord h sem s) p e l u q.trapvec code (BitVec.ofNat 64 (a.1 * 2 ^ 48 + a.2)) := by
  subst hplace
  exact enters_runWord hm h (hchk _ (askChk_of_trap rfl hm.single hatomic hport hcode)) rfl rfl
    (portCheck_handTaken hport hcode)

section
variable {s : State} {p : Pour} {e : Entry} {l : Nat} {u : Thread} {q : Part} {h : Hdr} {i : Instr} {code : TrapCode}
  {a : Nat × Nat}

/-- Loads, stores, prefetches, atomics, reductions and acquiring loads (R203, R207, R212, R219). -/
theorem enters_of_access (hm : MayTrap s p e l u q) (f : Nat → Thread → Ask) (hexec : exec i s = .next (accessWord h f s))
    (hplace : ((f s.time u).idx, (f s.time u).off) = a) (hatomic : (f s.time u).kind.isAtomic = true → s.selected u = false)
    (hport : portCheck s (s.reqOf u s.cur.core l) (f s.time u).op a.1 a.2 (f s.time u).size = .trap code)
    (hcode : code ≠ Trap.page) :
    ∃ t, exec i s = .next t ∧ Enters s t p e l u q.trapvec code (BitVec.ofNat 64 (a.1 * 2 ^ 48 + a.2)) :=
  ⟨_, hexec, enters_of_portCheck hm f (fun _ => id) hplace hatomic hport hcode⟩

/-- Releasing stores (R213). -/
theorem enters_of_release {scope : Nat} (hm : MayTrap s p e l u q) (f : Nat → Thread → Ask)
    (hexec : exec i s = .next (releaseWord h scope f s)) (hplace : ((f s.time u).idx, (f s.time u).off) = a)
    (hatomic : (f s.time u).kind.isAtomic = true → s.selected u = false)
    (hport : portCheck s (s.reqOf u s.cur.core l) (f s.time u).op a.1 a.2 (f s.time u).size = .trap code)
    (hcode : code ≠ Trap.page) :
    ∃ t, exec i s = .next t ∧ Enters s t p e l u q.trapvec code (BitVec.ofNat 64 (a.1 * 2 ^ 48 + a.2)) :=
  ⟨_, hexec, enters_of_portCheck hm f (fun k hk => by simp only [hk, firstTrap]) hplace hatomic hport hcode⟩

end

/-- What a prefetch asks of a lane (R219). -/
def prefAsk (a : PairNo) (cp now : Nat) (t : Thread) : Ask :=
  { op := .pref, kind := .load, idx := (addrPair now t a).1, off := (addrPair now t a).2, size := 1, ty := 0, cp }

end Sys2Proof.Machine

namespace Sys2Proof
open Machine

/-- Settles O37: each word is an access or a release whose request, with its place and size, is named; `enters_of_static` is the
case of an unassigned encoding. -/
theorem accessTraps : Obligations.AccessTraps := by
  unfold Obligations.AccessTraps
  intro s p e h l u q d b w y z ty cp imm code x hm
  have hpair := addrPair_eq s.time u w
  refine ⟨⟨?_, ?_, ?_, ?_, ?_, ?_, ?_, ?_, ?_, ?_, ?_, ?_⟩, fun hsel => ⟨?_, ?_, ?_, ?_⟩, ?_⟩
  · exact enters_of_access hm (loadAsk (fun now u => addrImm now u w ty imm) ty cp d) rfl rfl nofun
  · exact enters_of_access hm (storeAsk (fun now u => addrImm now u w ty imm) ty cp d) rfl rfl nofun
  · exact enters_of_access hm (loadAsk (fun now u => addrReg now u w b) ty cp d) rfl rfl nofun
  · exact enters_of_access hm (storeAsk (fun now u => addrReg now u w b) ty cp d) rfl rfl nofun
  · exact enters_of_access hm (prefAsk w 1) rfl hpair nofun
  · exact enters_of_access hm (prefAsk w 2) rfl hpair nofun
  · exact enters_of_access hm (ldaAsk false 4 d w) rfl hpair nofun
  · exact enters_of_access hm (ldaAsk true 4 d w) rfl hpair nofun
  · exact enters_of_access hm (ldaAsk false 8 (pairLo y) w) rfl hpair nofun
  · exact enters_of_release hm (strAsk false 4 w fun now t => (t.rdV now b).toNat) rfl hpair nofun
  · exact enters_of_release hm (strAsk false 8 w fun now t => (t.rdW now y).toNat) rfl hpair nofun
  · exact enters_of_release hm (strAsk true 4 w fun now t => (t.rdV now b).toNat) rfl hpair nofun
  · intro o ho
    have hexec : exec o.1 s = .next (accessWord h (atomAsk o.2 d w b) s) := by fin_cases ho <;> rfl
    exact enters_of_access hm (atomAsk o.2 d w b) hexec hpair fun _ => hsel
  · exact enters_of_access hm (atomAsk64 .xchg64 y w z) rfl hpair fun _ => hsel
  · exact enters_of_access hm (atomAsk64 .cas64 y w z) rfl hpair fun _ => hsel
  · intro o ho
    have hexec : exec o.1 s = .next (accessWord h (redAsk o.2 w b) s) := by fin_cases ho <;> rfl
    exact enters_of_access hm (redAsk o.2 w b) hexec hpair fun _ => hsel
  · exact ⟨_, rfl, enters_of_static hm (code := Trap.illegal) rfl (by decide)⟩

end Sys2Proof
end

section
/-! PROOF. O36 fails: a thread of a compute core at monitor level, for which `CSRW` of `ASSAYKEY` is no trap. -/

namespace Sys2Proof.Machine

open Sys2Proof (Instr)

/-- The thread of `wTrap` at monitor level: no thread of a compute core reaches it (R298), but `MayTrap` does not say so. -/
def uMon : Thread := { u0 with level := .mon }
def wMon : State := { wTrap with threads := [uMon] }

theorem mayTrap_wMon : MayTrap wMon p0 e0 0 uMon qT :=
  ⟨by constructor <;> decide +kernel, rfl, by decide +kernel, by decide +kernel, rfl, rfl, rfl, by decide +kernel, by decide,
    by decide⟩

/-- M may write `ASSAYKEY` (R293): the thread stays outside the handler. -/
theorem trapClass_csrw_wMon :
    (nextOf (exec (.csrw h0 2 0x111) wMon)).map (fun t => (t.thread? uMon.tid).map (·.trapClass)) = some (some false) := by
  decide +kernel

end Sys2Proof.Machine

namespace Sys2Proof
open Machine

/-- Refutes O36: of the four CSR forms of `ASSAYKEY`, which are to take `PRIV` at every level, `CSRW` takes none at monitor
level. -/
theorem not_privilegeTraps : ¬Obligations.PrivilegeTraps := by
  unfold Obligations.PrivilegeTraps
  intro h
  obtain ⟨-, hforms⟩ := h wMon p0 e0 h0 0 uMon qT 2 mayTrap_wMon
  obtain ⟨-, hkey, -⟩ := hforms rfl
  obtain ⟨t, ht, hthread, -⟩ := hkey (.csrw h0 2 0x111) (by simp)
  have hrun := trapClass_csrw_wMon
  rw [ht] at hrun
  simp [nextOf, hthread] at hrun

end Sys2Proof
end

section
/-! PROOF. O3: division and remainder, by zero and beyond the range as well (R117, R141). -/

namespace Sys2Proof.Machine

open Sys2Proof

theorem divI_eq (x y : Word) :
    divI x y = if y.toInt = 0 then BitVec.ofInt 32 (-1) else BitVec.ofInt 32 (x.toInt.tdiv y.toInt) := by
  unfold divI
  by_cases h : y = 0
  · simp [h]
  · have hy : y.toInt ≠ 0 := fun h0 => h (BitVec.eq_of_toInt_eq (by simpa using h0))
    rw [if_neg h, if_neg hy]
    exact BitVec.eq_of_toInt_eq (by rw [BitVec.toInt_sdiv, BitVec.toInt_ofInt])

theorem divN_eq (x y : Word) : divN x y = if y.toNat = 0 then 0xFFFFFFFF else BitVec.ofNat 32 (x.toNat / y.toNat) := by
  unfold divN
  by_cases h : y = 0
  · simp [h]
  · have hy : y.toNat ≠ 0 := fun h0 => h (BitVec.eq_of_toNat_eq (by simpa using h0))
    rw [if_neg h, if_neg hy, ← BitVec.toNat_udiv, BitVec.ofNat_toNat, BitVec.setWidth_eq]

theorem remI_eq (x y : Word) : remI x y = BitVec.ofInt 32 (x.toInt.tmod y.toInt) := by
  unfold remI
  by_cases h : y = 0
  · simp [h]
  · rw [if_neg h, ← BitVec.toInt_srem, BitVec.ofInt_toInt]

theorem remN_eq (x y : Word) : remN x y = BitVec.ofNat 32 (x.toNat % y.toNat) := by
  unfold remN
  by_cases h : y = 0
  · simp [h]
  · rw [if_neg h, ← BitVec.toNat_umod, BitVec.ofNat_toNat, BitVec.setWidth_eq]

/-- A late result of two registers, computed by one function of the model and said by an equal one. -/
theorem completes_later2 {i : Instr} {s : State} {p : Pour} {e : Entry} (hr : Runs s p e) (h : Hdr) {d a b : Reg}
    {f g : Word → Word → Word} (hi : exec i s = .next (varV h d (fun now t => f (t.rdV now a) (t.rdV now b)) s))
    (hfg : ∀ x y, f x y = g x y) :
    Completes i s p e (ResultLater s fun u => [(.v d, s.on2 a b g u ^^^ finjFlip s)]) := by
  obtain rfl : f = g := funext₂ hfg
  exact completes_varV hr h hi

end Sys2Proof.Machine

namespace Sys2Proof
open Machine

/-- Settles O3: each word is a variable-latency result of the model's function, which `divI_eq` to `remN_eq` give on the
integers, its cases for zero and for the overflow among them. -/
theorem division : Obligations.Division := by
  unfold Obligations.Division
  intro s p e h d a b hr
  refine ⟨?_, ?_, ?_, ?_⟩
  · exact completes_later2 (f := divI) hr h rfl divI_eq
  · exact completes_later2 (f := divN) hr h rfl divN_eq
  · exact completes_later2 (f := remI) hr h rfl remI_eq
  · exact completes_later2 (f := remN) hr h rfl remN_eq

end Sys2Proof
end

section
/-! PROOF. O12: the arithmetic of the formats, and the floating-point words (R113, R114, R223 to R227). -/

namespace Sys2Proof.Machine

open Sys2Proof

/-! ### The arithmetic of a format (R114) -/

theorem Fmt.arithmetic (f : Fmt) (h : f.Ok) : Arithmetic f where
  add := f.add_nearest h
  sub := f.sub_nearest h
  mul := f.mul_nearest h
  fma := f.fma_nearest h
  nan := f.of_nan h
  addInf := f.add_inf h
  mulInf := f.mul_inf h
  fmaInf a b c ha hb _ := f.fma_inf h a b c ha hb
  least a b ha hb :=
    have ⟨hmin, hmax, hfin⟩ := f.least h a b ha hb
    ⟨hmin, hmax, hfin, fun hinf => f.least_inf h a b hinf hb⟩

/-! ### Packed words (R115) and the sign bit (R223) -/

theorem packed_eq (f : Nat → Nat → Nat) (x y : Word) : packed f x y =
    BitVec.ofNat 32 (f (x.toNat % 2 ^ 16) (y.toNat % 2 ^ 16) + f (x.toNat / 2 ^ 16) (y.toNat / 2 ^ 16) * 2 ^ 16) := by
  simp only [packed, handlerPacket_eq, handlerBuf_eq]

theorem packed3_eq (f : Nat → Nat → Nat → Nat) (x y z : Word) : packed3 f x y z =
    BitVec.ofNat 32 (f (x.toNat % 2 ^ 16) (y.toNat % 2 ^ 16) (z.toNat % 2 ^ 16) +
      f (x.toNat / 2 ^ 16) (y.toNat / 2 ^ 16) (z.toNat / 2 ^ 16) * 2 ^ 16) := by
  simp only [packed3, handlerPacket_eq, handlerBuf_eq]

theorem getLsbD_magnitudeMask (i : Nat) : (0x7FFFFFFF : Word).getLsbD i = decide (i < 31) := by
  rw [show (0x7FFFFFFF : Word) = BitVec.ofNat 32 (2 ^ 31 - 1) from rfl, BitVec.getLsbD_ofNat, Nat.testBit_two_pow_sub_one]
  by_cases h : i < 31 <;> simp [h]; omega

theorem getLsbD_signMask (i : Nat) : (0x80000000 : Word).getLsbD i = decide (i = 31) := by
  rw [show (0x80000000 : Word) = BitVec.ofNat 32 (2 ^ 31) from rfl, BitVec.getLsbD_ofNat, Nat.testBit_two_pow]
  by_cases h : i = 31 <;> simp [h]; omega

theorem and_magnitudeMask (x : Word) : x &&& 0x7FFFFFFF = BitVec.ofNat 32 (x.toNat % 2 ^ 31) := by
  refine BitVec.eq_of_getLsbD_eq fun i hi => ?_
  rw [BitVec.getLsbD_and, getLsbD_magnitudeMask, BitVec.getLsbD_ofNat, Nat.testBit_mod_two_pow, BitVec.testBit_toNat]
  simp [hi, Bool.and_comm]

theorem xor_signMask (x : Word) : x ^^^ 0x80000000 = BitVec.ofNat 32 (x.toNat + 2 ^ 31) := by
  refine BitVec.eq_of_getLsbD_eq fun i hi => ?_
  rw [BitVec.getLsbD_xor, getLsbD_signMask, BitVec.getLsbD_ofNat, Nat.add_comm, ← BitVec.testBit_toNat x]
  rcases Nat.lt_or_eq_of_le (Nat.le_of_lt_succ hi) with h | rfl
  · simp only [Nat.testBit_two_pow_add_gt h, hi, Nat.ne_of_lt h, decide_true, decide_false, Bool.true_and, Bool.xor_false]
  · simp only [Nat.testBit_two_pow_add_eq, hi, decide_true, Bool.true_and, Bool.xor_true]

theorem copySign_eq (x y : Word) :
    (x &&& 0x7FFFFFFF) ||| (y &&& 0x80000000) = BitVec.ofNat 32 (x.toNat % 2 ^ 31 + y.toNat / 2 ^ 31 * 2 ^ 31) := by
  refine BitVec.eq_of_getLsbD_eq fun i hi => ?_
  rw [BitVec.getLsbD_or, BitVec.getLsbD_and, BitVec.getLsbD_and, getLsbD_magnitudeMask, getLsbD_signMask,
    BitVec.getLsbD_ofNat, Nat.add_comm, Nat.mul_comm, Nat.testBit_two_pow_mul_add _ (Nat.mod_lt _ (Nat.two_pow_pos 31)),
    Nat.testBit_mod_two_pow, ← BitVec.testBit_toNat x, ← BitVec.testBit_toNat y, ← Nat.testBit_add]
  rcases Nat.lt_or_eq_of_le (Nat.le_of_lt_succ hi) with h | rfl
  · simp [h, hi, Nat.ne_of_lt h]
  · simp

/-! ### Words that compute from one, two and three registers -/

section
variable {i : Instr} {s : State} {p : Pour} {e : Entry} {h : Hdr} {lat : Nat} {d a b c : Reg} (hr : Runs s p e)
include hr

theorem completes_alu1 {f g : Word → Word} (hi : exec i s = .next (alu1 h lat d a f s)) (hfg : ∀ x, f x = g x) :
    Completes i s p e (ResultV s lat d (s.on1 a g)) := by
  obtain rfl : f = g := funext hfg
  exact completes_fixedV hr h hi

theorem completes_alu2 {f g : Word → Word → Word} (hi : exec i s = .next (alu2 h lat d a b f s))
    (hfg : ∀ x y, f x y = g x y) : Completes i s p e (ResultV s lat d (s.on2 a b g)) := by
  obtain rfl : f = g := funext₂ hfg
  exact completes_fixedV hr h hi

theorem completes_alu3 {f g : Word → Word → Word → Word} (hi : exec i s = .next (alu3 h lat d a b c f s))
    (hfg : ∀ x y z, f x y z = g x y z) : Completes i s p e (ResultV s lat d (s.on3 a b c g)) := by
  obtain rfl : f = g := funext₃ hfg
  exact completes_fixedV hr h hi

end

end Sys2Proof.Machine

namespace Sys2Proof
open Machine

/-- Settles O12: the arithmetic by `Fmt.arithmetic`, `FRND` and `FSCALE` by `frnd_rounds` and `fscale_rounds`; each word is a
fixed-latency result of its model function, which the packed forms apply to each element. -/
theorem floatWords : Obligations.FloatWords := by
  unfold Obligations.FloatWords
  refine ⟨⟨fp32.arithmetic fp32_ok, fp16.arithmetic fp16_ok, bf16.arithmetic bf16_ok⟩, fun rm x _ => frnd_rounds rm x,
    fun x b hx _ _ => fscale_rounds x b hx, fun s p e h d a b c hr => ⟨?_, ?_, ?_, ?_⟩⟩
  · have words (f : Nat → Nat → Nat) (x y : Word) : onWords f x y = BitVec.ofNat 32 (f x.toNat y.toNat) := rfl
    exact ⟨completes_alu2 hr rfl (words _), completes_alu2 hr rfl (words _), completes_alu2 hr rfl (words _),
      completes_alu2 hr rfl (words _), completes_alu2 hr rfl (words _), completes_alu1 hr rfl and_magnitudeMask,
      completes_alu1 hr rfl xor_signMask, completes_alu2 hr rfl copySign_eq⟩
  · have each (f : Nat → Nat → Nat) := packed_eq f
    exact ⟨completes_alu2 hr rfl (each _), completes_alu2 hr rfl (each _), completes_alu2 hr rfl (each _),
      completes_alu2 hr rfl (each _), completes_alu2 hr rfl (each _), completes_alu2 hr rfl (each _),
      completes_alu2 hr rfl (each _), completes_alu2 hr rfl (each _), completes_alu2 hr rfl (each _),
      completes_alu2 hr rfl (each _)⟩
  · exact ⟨completes_alu3 hr rfl fun _ _ _ => rfl, completes_alu3 hr rfl (packed3_eq _), completes_alu3 hr rfl (packed3_eq _)⟩
  · exact ⟨completes_alu1 hr rfl fun _ => rfl, completes_alu1 hr rfl fun _ => rfl, completes_alu1 hr rfl fun _ => rfl,
      completes_alu1 hr rfl fun _ => rfl, completes_alu1 hr rfl fun _ => rfl, completes_alu2 hr rfl fun _ _ => rfl⟩

end Sys2Proof
end

section
/-! PROOF. O47, the results of phases (R131, R132, R285): folds that keep the least, exact sums, and each operation. -/

namespace Sys2Proof.Machine

open Sys2Proof

/-! ### Folds over contributions -/

theorem contributions_eq (f : Flask) : contributions f = f.contributed := by
  unfold contributions Flask.contributed
  induction f.arrived with
  | nil => rfl
  | cons a as ih => by_cases h : a.fn = f.op <;> simp [h, ih]

/-- A fold that takes an element in place of what it has where its key is less ends at an element of least key. -/
theorem foldl_least {α : Type} (k : α → Int) (g : α → α → α) (a : α) (xs : List α)
    (hg : ∀ m ∈ a :: xs, ∀ x ∈ a :: xs, g m x = if k x < k m then x else m) :
    xs.foldl g a ∈ a :: xs ∧ ∀ x ∈ a :: xs, k (xs.foldl g a) ≤ k x := by
  induction xs generalizing a with
  | nil => simp
  | cons x xs ih =>
    have hstep := hg a (by simp) x (by simp)
    have hsub : ∀ y ∈ g a x :: xs, y ∈ a :: x :: xs := fun y hy => by
      rcases List.mem_cons.1 hy with rfl | hy
      · rw [hstep]; split <;> simp
      · simp [hy]
    obtain ⟨hmem, hle⟩ := ih (g a x) fun m hm y hy => hg m (hsub m hm) y (hsub y hy)
    have hhead : k (g a x) ≤ k a ∧ k (g a x) ≤ k x := by
      rw [hstep]
      split <;> omega
    have hfirst := hle _ List.mem_cons_self
    refine ⟨hsub _ hmem, fun y hy => ?_⟩
    rcases List.mem_cons.1 hy with rfl | hy
    · exact hfirst.trans hhead.1
    rcases List.mem_cons.1 hy with rfl | hy
    · exact hfirst.trans hhead.2
    · exact hle y (List.mem_cons_of_mem _ hy)

/-- A fold that keeps `z` once it has it, and takes it at every element with `P`, ends with `z`. -/
theorem foldl_absorbs {α : Type} {z : α} {g : α → α → α} {P : α → Prop} (hz : ∀ x, g z x = z) (hP : ∀ m x, P x → g m x = z)
    (a : α) (xs : List α) (h : a = z ∨ ∃ x ∈ xs, P x) : xs.foldl g a = z := by
  induction xs generalizing a with
  | nil => simpa using h
  | cons x xs ih =>
    refine ih (g a x) ?_
    rcases h with rfl | ⟨y, hy, hPy⟩
    · exact .inl (hz x)
    rcases List.mem_cons.1 hy with rfl | hy
    · exact .inl (hP a y hPy)
    · exact .inr ⟨y, hy, hPy⟩

theorem foldl_add_eq {α : Type} {g : Int → α → Int} {c : α → Int} (hg : ∀ i x, g i x = i + c x) (i : Int) (xs : List α) :
    xs.foldl g i = i + (xs.map c).sum := by
  induction xs generalizing i with
  | nil => simp
  | cons x xs ih => rw [List.foldl_cons, ih, hg, List.map_cons, List.sum_cons, add_assoc]

/-! ### The kinds of a word (R113) -/

theorem fp32_signBit : fp32.signBit = 2 ^ 31 := rfl
theorem fp32_infBits : fp32.infBits = 0x7F800000 := rfl

theorem fp32_isInf_iff (x : Word) : fp32.IsInf x.toNat ↔ x = 0x7F800000 ∨ x = 0xFF800000 := by
  have hx := x.isLt
  have hpos : x = 0x7F800000 ↔ x.toNat = 0x7F800000 := BitVec.toNat_inj.symm
  have hneg : x = 0xFF800000 ↔ x.toNat = 0xFF800000 := BitVec.toNat_inj.symm
  rw [hpos, hneg, Fmt.IsInf, fp32_signBit, fp32_infBits]
  omega

theorem fp32_negZero_iff (x : Word) : (fp32.isNeg x.toNat = true ∧ x.toNat % fp32.signBit = 0) ↔ x = 0x80000000 := by
  have hx := x.isLt
  have hz : x = 0x80000000 ↔ x.toNat = 2 ^ 31 := BitVec.toNat_inj.symm
  rw [hz, Fmt.isNeg, decide_eq_true_iff, fp32_signBit]
  omega

theorem fp32_val_inf_iff (x : Word) (n : Bool) :
    fp32.val x.toNat = .inf n ↔ x = if n = true then 0xFF800000 else 0x7F800000 := by
  constructor
  · intro h
    obtain ⟨-, hinf, -, hsign, -⟩ := fp32.kinds fp32_ok x.toNat
    have hn := hsign n h
    rcases (fp32_isInf_iff x).1 (hinf.2 ⟨n, h⟩) with rfl | rfl <;> subst hn <;> rfl
  · rintro rfl
    cases n <;> rfl

theorem fp32_val_nan_iff (x : Word) : fp32.val x.toNat = .nan ↔ fp32.IsNaN x.toNat := (fp32.kinds fp32_ok x.toNat).1.symm

/-! ### Exact sums (R132) -/

/-- A finite value as a count of 2^base. -/
def FVal.units (base : Int) : FVal → Int
  | .fin neg m e => (if neg then -1 else 1) * (m * 2 ^ (e - base).toNat : Nat)
  | _ => 0

/-- The value is −0. -/
def FVal.isNegZero : FVal → Bool
  | .fin neg m _ => neg && m = 0
  | _ => false

theorem FVal.units_num (neg : Bool) (m : Nat) {e base : Int} (h : base ≤ e) :
    (FVal.units base (.fin neg m e) : ℚ) * 2 ^ base = FVal.num (.fin neg m e) := scaled_num neg m h

/-- With a NaN, or with infinities of both signs, the sum is NaN. -/
theorem sumExact_nan (base : Int) {l : List FVal} (h : .nan ∈ l ∨ (.inf false ∈ l ∧ .inf true ∈ l)) :
    sumExact base l = .nan := by
  unfold sumExact
  split
  · rfl
  · rename_i hn
    rcases h with h | ⟨hp, hm⟩
    · exact absurd (List.any_eq_true.2 ⟨_, h, by simp⟩) hn
    · simp [hp, hm]

/-- An infinity with none of the other sign is the sum. -/
theorem sumExact_inf (base : Int) {l : List FVal} {n : Bool} (hnan : .nan ∉ l) (hn : .inf n ∈ l) (hother : .inf (!n) ∉ l) :
    sumExact base l = .inf n := by
  have hany : (l.any fun v => v = .nan) = false := by
    rw [List.any_eq_false]
    rintro v hv h
    exact hnan (of_decide_eq_true h ▸ hv)
  unfold sumExact
  cases n <;> simp_all

/-- Finite values are summed in units of 2^base. -/
theorem sumExact_fin (base : Int) {l : List FVal} (h : ∀ v ∈ l, ∃ n m e, v = .fin n m e) :
    sumExact base l = ofInt' (l.map (FVal.units base)).sum base (!l.isEmpty && l.all FVal.isNegZero) := by
  have hno : ∀ v, (∀ n m e, v ≠ .fin n m e) → v ∉ l := fun v hv hl => by
    obtain ⟨n, m, e, rfl⟩ := h v hl
    exact hv n m e rfl
  have hany : (l.any fun v => v = .nan) = false := by
    rw [List.any_eq_false]
    rintro v hv hd
    exact hno .nan nofun (of_decide_eq_true hd ▸ hv)
  have hinf : ∀ n, l.contains (.inf n) = false := fun n => by
    simpa using hno (.inf n) nofun
  unfold sumExact
  simp only [hany, hinf, Bool.and_self, Bool.false_eq_true, if_false]
  rw [foldl_add_eq (c := FVal.units base) (fun i v => by cases v <;> simp [FVal.units]), zero_add]
  congr 2

theorem fp32_nearest_lt {q : ℚ} {z : Bool} {y : Nat} (h : fp32.Nearest q z y) : y < 2 ^ 32 := by
  obtain ⟨r, ⟨hr, -⟩, rfl⟩ := h
  generalize (if q = 0 then z else decide (q < 0)) = neg
  rw [fp32_infBits] at hr
  rw [Fmt.signed, fp32_signBit]
  split <;> omega

/-- The finite words of `xs`, summed exactly and rounded once; −0 where all are −0 (R132). -/
theorem sumF32_nearest {xs : List Word} (h : ∀ x ∈ xs, fp32.IsFin x.toNat) :
    fp32.Nearest (xs.map fun x => fp32.value x.toNat).sum (!xs.isEmpty && xs.all fun x => x = 0x80000000)
      (sumF32 (xs.map BitVec.toNat)) := by
  have hfin : ∀ x ∈ xs, ((FVal.units (-149) (fp32.val x.toNat) : ℚ) * 2 ^ (-149 : Int) = fp32.value x.toNat ∧
      (fp32.val x.toNat).isNegZero = decide (x = 0x80000000)) ∧ ∃ n m e, fp32.val x.toNat = .fin n m e := fun x hx => by
    obtain ⟨m, e, hv, hnum, hzero⟩ := fp32.val_num fp32_ok (h x hx)
    obtain ⟨-, hlow, -⟩ := fp32.val_bound fp32_ok hv
    have hbase : (1 : Int) - fp32.bias - fp32.fb = -149 := by decide
    refine ⟨⟨?_, ?_⟩, _, _, _, hv⟩
    · rw [hv, FVal.units_num _ _ (hbase ▸ hlow), hnum]
    · rw [hv, Bool.eq_iff_iff, decide_eq_true_iff, ← fp32_negZero_iff, ← hzero]
      simp [FVal.isNegZero]
  have hsum : (xs.map fun x => fp32.value x.toNat).sum =
      ((((xs.map BitVec.toNat).map fp32.val).map (FVal.units (-149))).sum : Int) * (2 : ℚ) ^ (-149 : Int) := by
    rw [List.map_map, List.map_map, Int.cast_list_sum, List.map_map, ← List.sum_map_mul_right]
    exact congrArg List.sum (List.map_congr_left fun x hx => (hfin x hx).1.1.symm)
  have hzeros : (!xs.isEmpty && xs.all fun x => x = 0x80000000) = (!((xs.map BitVec.toNat).map fp32.val).isEmpty &&
      ((xs.map BitVec.toNat).map fp32.val).all FVal.isNegZero) := by
    rw [List.isEmpty_map, List.isEmpty_map, List.all_map, List.all_map]
    refine congrArg _ (Bool.eq_iff_iff.2 ?_)
    rw [List.all_eq_true, List.all_eq_true]
    exact forall₂_congr fun x hx => by simp [(hfin x hx).1.2]
  rw [sumF32, sumExact_fin, hsum, hzeros]
  · exact fp32.ofInt'_nearest fp32_ok _ _ _
  · simpa using fun x hx => (hfin x hx).2

theorem sumF32_nan {xs : List Word} (h : (∃ x ∈ xs, fp32.IsNaN x.toNat) ∨ (0x7F800000 ∈ xs ∧ 0xFF800000 ∈ xs)) :
    sumF32 (xs.map BitVec.toNat) = 0x7FC00000 := by
  have hmem : ∀ {x : Word} {v}, x ∈ xs → fp32.val x.toNat = v → v ∈ (xs.map BitVec.toNat).map fp32.val := fun hx hv =>
    hv ▸ List.mem_map_of_mem (List.mem_map_of_mem hx)
  rw [sumF32, sumExact_nan]
  · rfl
  · rcases h with ⟨x, hx, hnan⟩ | ⟨hp, hn⟩
    · exact .inl (hmem hx ((fp32_val_nan_iff x).2 hnan))
    · exact .inr ⟨hmem hp ((fp32_val_inf_iff _ false).2 rfl), hmem hn ((fp32_val_inf_iff _ true).2 rfl)⟩

theorem sumF32_inf {xs : List Word} (hnan : ∀ x ∈ xs, ¬fp32.IsNaN x.toNat) (hboth : ¬(0x7F800000 ∈ xs ∧ 0xFF800000 ∈ xs))
    {x : Word} (hx : x ∈ xs) (hinf : fp32.IsInf x.toNat) : sumF32 (xs.map BitVec.toNat) = x.toNat := by
  obtain ⟨n, hn⟩ := (fp32.kinds fp32_ok x.toNat).2.1.1 hinf
  have hxn := (fp32_val_inf_iff x n).1 hn
  rw [sumF32, sumExact_inf (-149) (n := n)]
  · subst hxn
    cases n <;> rfl
  · rw [List.map_map, List.mem_map]
    rintro ⟨y, hy, hv⟩
    exact hnan y hy ((fp32_val_nan_iff y).1 hv)
  · rw [List.map_map, List.mem_map]
    exact ⟨x, hx, hn⟩
  · rw [List.map_map, List.mem_map]
    rintro ⟨y, hy, hv⟩
    have hyn := (fp32_val_inf_iff y _).1 hv
    subst hxn hyn
    cases n
    · exact hboth ⟨hx, hy⟩
    · exact hboth ⟨hy, hx⟩

/-! ### Results (R285) -/

theorem Fmt.nan_absorbs (f : Fmt) (h : f.Ok) (x : Nat) :
    f.minF f.nan x = f.nan ∧ f.maxF f.nan x = f.nan ∧
      (f.IsNaN x → ∀ m, f.minF m x = f.nan ∧ f.maxF m x = f.nan) := by
  obtain ⟨-, -, -, hmin, hmax, -⟩ := f.of_nan h f.nan x 0 (.inl ((f.kinds h f.nan).1.2 (f.val_of_nan h)))
  refine ⟨hmin, hmax, fun hx m => ?_⟩
  obtain ⟨-, -, -, hmin, hmax, -⟩ := f.of_nan h m x 0 (.inr hx)
  exact ⟨hmin, hmax⟩

theorem Fmt.minF_of_number {f : Fmt} (h : f.Ok) {a b : Nat} (ha : ¬f.IsNaN a) (hb : ¬f.IsNaN b) :
    f.minF a b = if f.key b < f.key a then b else a := by
  rw [Fmt.minF, if_neg]
  simp [f.isNaN_iff h, ha, hb]

theorem Fmt.maxF_of_number {f : Fmt} (h : f.Ok) {a b : Nat} (ha : ¬f.IsNaN a) (hb : ¬f.IsNaN b) :
    f.maxF a b = if f.key a < f.key b then b else a := by
  rw [Fmt.maxF, if_neg]
  simp [f.isNaN_iff h, ha, hb]

/-- The fold of `MIN` and `MAX` on FP32 words: from the first, NaN in its canonical form. -/
def foldF32 (g : Nat → Nat → Nat) (xs : List Word) : Word :=
  BitVec.ofNat 32 (((xs.map BitVec.toNat).drop 1).foldl g
    (if fp32.isNaN ((xs.map BitVec.toNat).headD 0) = true then fp32.nan else (xs.map BitVec.toNat).headD 0))

theorem foldF32_nan {g : Nat → Nat → Nat} (hz : ∀ x, g fp32.nan x = fp32.nan) (hP : ∀ m x, fp32.IsNaN x → g m x = fp32.nan)
    {xs : List Word} (h : ∃ x ∈ xs, fp32.IsNaN x.toNat) : foldF32 g xs = 0x7FC00000 := by
  obtain ⟨x, hx, hnan⟩ := h
  obtain _ | ⟨y, ys⟩ := xs
  · simp at hx
  rw [foldF32, foldl_absorbs hz hP]
  · rfl
  rcases List.mem_cons.1 hx with rfl | hx
  · exact .inl (if_pos ((fp32.isNaN_iff fp32_ok _).2 hnan))
  · exact .inr ⟨x.toNat, List.mem_map_of_mem hx, hnan⟩

/-- Without a NaN the fold ends at a contribution of least key. -/
theorem foldF32_least (k : Nat → Int) {g : Nat → Nat → Nat}
    (hg : ∀ a b, ¬fp32.IsNaN a → ¬fp32.IsNaN b → g a b = if k b < k a then b else a) {xs : List Word} (hne : xs ≠ [])
    (h : ∀ x ∈ xs, ¬fp32.IsNaN x.toNat) :
    foldF32 g xs ∈ xs ∧ ∀ x ∈ xs, g (foldF32 g xs).toNat x.toNat = (foldF32 g xs).toNat := by
  obtain ⟨y, ys, rfl⟩ := List.exists_cons_of_ne_nil hne
  have hhead : ¬fp32.isNaN y.toNat = true := fun hn => h y List.mem_cons_self ((fp32.isNaN_iff fp32_ok _).1 hn)
  have hnum : ∀ m ∈ (y :: ys).map BitVec.toNat, ¬fp32.IsNaN m := fun m hm => by
    obtain ⟨x, hx, rfl⟩ := List.mem_map.1 hm
    exact h x hx
  obtain ⟨hmem, hle⟩ := foldl_least k g y.toNat (ys.map BitVec.toNat) fun m hm x hx => hg m x (hnum m hm) (hnum x hx)
  have hfold : foldF32 g (y :: ys) = BitVec.ofNat 32 ((ys.map BitVec.toNat).foldl g y.toNat) := by
    rw [foldF32]
    simp [hhead]
  obtain ⟨r, hr, hval⟩ := List.mem_map.1 (show _ ∈ (y :: ys).map BitVec.toNat from hmem)
  rw [hfold, ← hval, BitVec.ofNat_toNat, BitVec.setWidth_eq]
  refine ⟨hr, fun x hx => ?_⟩
  rw [hg _ _ (h r hr) (h x hx), if_neg]
  rw [hval, not_lt]
  exact hle _ (List.mem_map_of_mem hx)

/-- The fold of `MIN` and `MAX` on integer words ends at a contribution of least key. -/
theorem foldI32_least (k : Word → Int) {g : Word → Word → Word} (hg : ∀ m x, g m x = if k x < k m then x else m)
    {xs : List Word} (hne : xs ≠ []) :
    (xs.drop 1).foldl g (xs.headD 0) ∈ xs ∧ ∀ x ∈ xs, k ((xs.drop 1).foldl g (xs.headD 0)) ≤ k x := by
  obtain ⟨y, ys, rfl⟩ := List.exists_cons_of_ne_nil hne
  exact foldl_least k g y ys fun m _ x _ => hg m x

/-- What each operation makes of the contributions. -/
theorem phaseResult_eq (f : Flask) : phaseResult f = match f.op with
    | 3 => BitVec.ofNat 32 (f.phase % 2 ^ 28)
    | 4 => if f.contributed.any fun x => x = 1 then 1 else 0
    | 5 => if f.contributed.all fun x => x = 1 then 1 else 0
    | 6 => BitVec.ofNat 32 (f.contributed.countP fun x => x = 1)
    | 7 => f.contributed.foldl (· + ·) 0
    | 8 => BitVec.ofNat 32 (sumF32 (f.contributed.map BitVec.toNat))
    | 9 => (f.contributed.drop 1).foldl (fun m x => if x.slt m then x else m) (f.contributed.headD 0)
    | 10 => (f.contributed.drop 1).foldl (fun m x => if m.slt x then x else m) (f.contributed.headD 0)
    | 11 => foldF32 fp32.minF f.contributed
    | _ => foldF32 fp32.maxF f.contributed := by
  rw [← contributions_eq]
  rfl

theorem phaseValue_phaseResult (f : Flask) : PhaseValue f f.contributed (phaseResult f) := by
  rw [phaseResult_eq]
  generalize f.contributed = xs
  have hnan := fp32.nan_absorbs fp32_ok
  constructor
  case bar =>
    intro h
    simp only [h, BitVec.toNat_ofNat]
    omega
  case any => intro h; simp [h]
  case all => intro h; simp [h]
  case cnt =>
    intro h
    simp only [h, List.count_eq_countP]
    congr
  case sum => intro h; simp only [h]; exact List.sum_eq_foldl.symm
  case sumNaN => intro h hx; simp only [h, sumF32_nan hx]; rfl
  case sumInf =>
    intro h hx hboth x hxs hinf
    simp only [h, sumF32_inf hx hboth hxs hinf]
    simp
  case sumFin =>
    intro h hx
    have hy := sumF32_nearest hx
    simp only [h, BitVec.toNat_ofNat]
    rwa [Nat.mod_eq_of_lt (fp32_nearest_lt hy)]
  case least =>
    intro h hne
    simp only [h]
    exact foldI32_least BitVec.toInt (fun m x => by simp [BitVec.slt]) hne
  case greatest =>
    intro h hne
    simp only [h]
    obtain ⟨hmem, hle⟩ := foldI32_least (fun x => -x.toInt) (g := fun m x => if m.slt x then x else m)
      (fun m x => by simp [BitVec.slt]) hne
    exact ⟨hmem, fun x hx => neg_le_neg_iff.1 (hle x hx)⟩
  case nan =>
    rintro (h | h) hx <;> simp only [h]
    · exact foldF32_nan (fun x => (hnan x).1) (fun m x hx => ((hnan x).2.2 hx m).1) hx
    · exact foldF32_nan (fun x => (hnan x).2.1) (fun m x hx => ((hnan x).2.2 hx m).2) hx
  case leastF =>
    intro h hne hx
    simp only [h]
    exact foldF32_least fp32.key (fun _ _ => Fmt.minF_of_number fp32_ok) hne hx
  case greatestF =>
    intro h hne hx
    simp only [h]
    exact foldF32_least (fun x => -fp32.key x) (fun _ _ ha hb => by simp [Fmt.maxF_of_number fp32_ok ha hb]) hne hx

end Sys2Proof.Machine
end

section
/-! PROOF. O47, flasks at their homes: where a flask is made, how it is stored, and what a member that leaves it leaves behind
(R280, R282, R283, R285 to R287). -/

namespace Sys2Proof.Machine

open Sys2Proof

/-! ### New flasks (R280, R282) -/

theorem makeFlask_eq_none_iff (s : State) (p : Part) (n : DWord) :
    makeFlask s p n = none ↔ flaskLimit p ≤ (s.flasks.filter fun f => f.part = p.first && f.live).length ∨
      ∀ i, i < homeEntries p → (s.flask? p.first (nameHome p n) i).isSome = true := by
  have hcount : liveFlasks s p.first = (s.flasks.filter fun f => f.part = p.first && f.live).length :=
    List.countP_eq_length_filter
  unfold makeFlask
  rw [hcount]
  split
  · simp_all
  · rename_i hlim
    simp [hlim, Option.isSome_iff_ne_none]

theorem makeFlask_spec {s : State} {p : Part} {n : DWord} {f : Flask} (h : makeFlask s p n = some f) :
    f.part = p.first ∧ f.home = nameHome p n ∧ f.name = n ∧ f.live = true ∧ f.members = [] ∧
      f.phase = 0 ∧ f.isOpen = false ∧ f.dropMark = false ∧ f.faultMark = false ∧ f.idx < homeEntries p ∧
      s.flask? p.first f.home f.idx = none ∧ ∀ i, i < f.idx → (s.flask? p.first f.home i).isSome = true := by
  unfold makeFlask at h
  split at h
  · simp at h
  · obtain ⟨i, hi, rfl⟩ := Option.map_eq_some_iff.1 h
    obtain ⟨hfree, hmem, hlower⟩ := List.find?_range_eq_some.1 hi
    exact ⟨rfl, rfl, rfl, rfl, rfl, rfl, rfl, rfl, rfl, List.mem_range.1 hmem, by simpa using hfree,
      fun j hj => by simpa [Option.isSome_iff_ne_none] using hlower j hj⟩

/-! ### Stages of requests -/

/-- `t` is `s` but for the stages of the flask requests and for the flasks. -/
def Restages (s t : State) : Prop :=
  ∃ (st : SgReq → SgStage) (fl : List Flask), t = { s with sgs := s.sgs.map fun g => { g with stage := st g }, flasks := fl }

/-- A request once all requests have changed by `φ`, their numbers aside. -/
theorem sg?_of_map {s t : State} {φ : SgReq → SgReq} {n : Nat} {o : Option SgReq} (ht : t.sgs = s.sgs.map φ)
    (hφ : ∀ g, (φ g).id = g.id) (hg : s.sg? n = o) : t.sg? n = o.map φ := by
  have hsame : ((fun g : SgReq => decide (g.id = n)) ∘ φ) = fun g => decide (g.id = n) := by
    funext g
    simp [hφ]
  rw [State.sg?, ht, List.find?_map, hsame]
  exact congrArg (Option.map φ) hg

namespace Restages
variable {s t u : State}

theorem refl (s : State) : Restages s s := ⟨SgReq.stage, s.flasks, by simp⟩

theorem trans (h : Restages s t) (h' : Restages t u) : Restages s u := by
  obtain ⟨st, fl, rfl⟩ := h
  obtain ⟨st', fl', rfl⟩ := h'
  exact ⟨fun g => st' { g with stage := st g }, fl', by simp [List.map_map, Function.comp_def]⟩

variable (h : Restages s t)
include h

theorem only : t = { s with sgs := t.sgs, flasks := t.flasks } := by
  obtain ⟨_, _, rfl⟩ := h
  rfl

theorem sgs : ∃ st : SgReq → SgStage, t.sgs = s.sgs.map fun g => { g with stage := st g } := by
  obtain ⟨st, _, rfl⟩ := h
  exact ⟨st, rfl⟩

theorem sg? {n : Nat} {g : SgReq} (hg : s.sg? n = some g) : ∃ st, t.sg? n = some { g with stage := st } := by
  obtain ⟨st, hsgs⟩ := h.sgs
  have hmap := sg?_of_map hsgs (fun _ => rfl) hg
  exact ⟨st g, hmap⟩

theorem sg?_none {n : Nat} (hg : s.sg? n = none) : t.sg? n = none := by
  obtain ⟨st, hsgs⟩ := h.sgs
  have hmap := sg?_of_map hsgs (fun _ => rfl) hg
  exact hmap

end Restages

theorem map_restages (s : State) {φ : SgReq → SgReq} (h : ∀ g, ∃ st, φ g = { g with stage := st }) :
    Restages s { s with sgs := s.sgs.map φ } := by
  choose st hst using h
  exact ⟨st, s.flasks, by rw [funext hst]⟩

theorem restages_stageReq (s : State) (id : Nat) (st : SgStage) : Restages s (stageReq s id st) :=
  map_restages s fun g => by
    split
    · exact ⟨st, rfl⟩
    · exact ⟨g.stage, rfl⟩

@[simp] theorem flasks_stageReq (s : State) (id : Nat) (st : SgStage) : (stageReq s id st).flasks = s.flasks := rfl

theorem sg?_stageReq {s : State} {id : Nat} {g : SgReq} (st : SgStage) (hg : s.sg? id = some g) :
    (stageReq s id st).sg? id = some { g with stage := st } := by
  have := State.find?_updL (p := fun a : SgReq => a.id = id) (f := fun g => { g with stage := st }) (fun _ => rfl) s.sgs
  exact this.trans (congrArg (Option.map _) hg)

theorem sg?_stageReq_other (s : State) {id n : Nat} (st : SgStage) (hn : n ≠ id) : (stageReq s id st).sg? n = s.sg? n :=
  State.find?_updL_other (fun x h => by simp at h ⊢; omega) (fun x h => by simp at h ⊢; omega) s.sgs

theorem sg?_dropReq (s : State) (id : Nat) : (dropReq s id).sg? id = none := by
  simp [dropReq, State.sg?]

theorem sg?_dropReq_other (s : State) {id n : Nat} (hn : n ≠ id) : (dropReq s id).sg? n = s.sg? n :=
  find?_filter_of_imp _ _ _ fun g _ hg => by simp at hg ⊢; omega

/-- A request whose stage other operations may have changed takes the stage it is given last. -/
theorem Restages.sg?_stageReq {s t : State} {id : Nat} {g : SgReq} (h : Restages s t) (st : SgStage) (hg : s.sg? id = some g) :
    (stageReq t id st).sg? id = some { g with stage := st } := by
  obtain ⟨st', ht⟩ := h.sg? hg
  exact Machine.sg?_stageReq (g := { g with stage := st' }) st ht

/-! ### Flasks in their entries -/

theorem restages_putFlask (s : State) (f : Flask) : Restages s (putFlask s f) := 
  ⟨SgReq.stage, (putFlask s f).flasks, by simp [putFlask]⟩

@[simp] theorem sgs_putFlask (s : State) (f : Flask) : (putFlask s f).sgs = s.sgs := rfl

theorem flask?_putFlask (s : State) {f : Flask} (h : f.live = true) : (putFlask s f).flask? f.part f.home f.idx = some f := by
  simp [putFlask, State.flask?, h]

/-- A live flask of a handle or of a name is live. -/
theorem live_of_flaskOf {s : State} {part : Nat} {h : Word} {f : Flask} (hf : flaskOf s part h = some f) : f.live = true := by
  obtain ⟨x, -, hx⟩ := Option.bind_eq_some_iff.1 hf
  split at hx
  · rename_i hlive
    cases hx
    exact hlive.1
  · simp at hx

theorem live_of_flaskNamed {s : State} {part : Nat} {n : DWord} {f : Flask} (hf : flaskNamed s part n = some f) :
    f.live = true := by
  have := List.find?_some hf
  simp_all

/-- The flasks lie in one entry, with one generation. -/
structure SameEntry (f f1 : Flask) : Prop where
  part : f1.part = f.part
  home : f1.home = f.home
  idx : f1.idx = f.idx
  slice : f1.slice = f.slice
  gen : f1.gen = f.gen
  live : f1.live = f.live

theorem SameEntry.handle {f f1 : Flask} (h : SameEntry f f1) : f1.handle = f.handle := by
  rw [Flask.handle, h.gen, h.idx, h.home]; rfl

/-- The flask stands at its entry once it is put there. -/
theorem SameEntry.flask?_putFlask {f f1 : Flask} (h : SameEntry f f1) (hlive : f.live = true) (s : State) :
    (putFlask s f1).flask? f.part f.home f.idx = some f1 := by
  rw [← h.part, ← h.home, ← h.idx]
  exact Machine.flask?_putFlask s (h.live.trans hlive)

/-! ### Phases (R285) -/

/-- Every expected arrival of the open phase is there. -/
def Flask.Full (f : Flask) : Prop := f.isOpen = true ∧ f.arrived.length = f.expect

/-- The flask after its phase, before what it holds is counted. -/
def Flask.next (f : Flask) : Flask :=
  { f with phase := f.phase + 1, isOpen := false, expect := 0, arrived := [], held := [], mix := false, faultMark := false }

theorem foldl_countArrival_open (as : List Arrival) {f : Flask} (h : f.isOpen = true) :
    as.foldl countArrival f = { f with arrived := f.arrived ++ as, mix := f.mix || as.any fun a => a.fn != f.op } := by
  induction as generalizing f with
  | nil => simp
  | cons a as ih =>
    have hstep : countArrival f a = { f with arrived := f.arrived ++ [a], mix := f.mix || a.fn != f.op } := if_pos h
    rw [List.foldl_cons, hstep, ih (by exact h)]
    simp [Bool.or_assoc]

/-- The flask in its next phase, which the first of the arrivals `b :: bs` that it held opens. -/
def Flask.reopened (f : Flask) (b : Arrival) (bs : List Arrival) : Flask :=
  { f with
    phase := f.phase + 1, isOpen := true, arrived := b :: bs, held := [], op := b.fn, mix := bs.any fun a => a.fn != b.fn,
    faultMark := false, expect := (f.members.filter fun m => decide (m.fromPhase ≤ f.phase + 1)).length }

theorem foldl_countArrival_next (f : Flask) (b : Arrival) (bs : List Arrival) :
    (b :: bs).foldl countArrival f.next = f.reopened b bs := by
  rw [List.foldl_cons, foldl_countArrival_open bs rfl, Flask.reopened, ← List.countP_eq_length_filter]
  rfl

theorem SameEntry.next {f f1 : Flask} (h : SameEntry f f1) : SameEntry f f1.next :=
  ⟨h.part, h.home, h.idx, h.slice, h.gen, h.live⟩

theorem SameEntry.reopened {f f1 : Flask} (h : SameEntry f f1) (b : Arrival) (bs : List Arrival) :
    SameEntry f (f1.reopened b bs) :=
  ⟨h.part, h.home, h.idx, h.slice, h.gen, h.live⟩

theorem restages_sendResults (s : State) (f : Flask) : Restages s (sendResults s f) :=
  map_restages s fun g => by
    split
    · exact ⟨_, rfl⟩
    · exact ⟨g.stage, rfl⟩

/-- The result of a phase is on its way to each that arrived. -/
theorem sg?_sendResults {s : State} {f : Flask} {a : Arrival} {g : SgReq} (ha : a ∈ f.arrived) (hg : s.sg? a.id = some g) :
    (sendResults s f).sg? a.id = some { g with stage := .result (phaseResult f) (phaseStatus f) f.phase } := by
  have hid : g.id = a.id := by simpa using List.find?_some hg
  have hany : (f.arrived.any fun x => x.id = g.id) = true := List.any_eq_true.2 ⟨a, ha, by simp [hid]⟩
  have hsgs : (sendResults s f).sgs = s.sgs.map fun g => if (f.arrived.any fun a => a.id = g.id) = true
      then { g with stage := .result (phaseResult f) (phaseStatus f) f.phase } else g := rfl
  have hmap := sg?_of_map hsgs (fun x => by split <;> rfl) hg
  exact hmap.trans (congrArg some (if_pos hany))

theorem settleFlask_of_not_full {f : Flask} (h : ¬f.Full) (s : State) (n : Nat) : settleFlask s f n = (s, f) := by
  cases n with
  | zero => rfl
  | succ n => exact if_neg h

theorem settleFlask_of_full {f : Flask} (h : f.Full) (s : State) (n : Nat) :
    settleFlask s f (n + 1) = settleFlask (sendResults s f) (f.held.foldl countArrival f.next) n := if_pos h

theorem settleFlask_of_full_unheld {f : Flask} (h : f.Full) (hheld : f.held = []) (s : State) :
    settleFlask s f (f.held.length + 2) = (sendResults s f, f.next) := by
  rw [settleFlask_of_full h, hheld]
  exact settleFlask_of_not_full (by simp [Flask.Full, Flask.next]) _ _

theorem restages_settleFlask (n : Nat) (s : State) (f : Flask) : Restages s (settleFlask s f n).1 := by
  induction n generalizing s f with
  | zero => exact .refl s
  | succ n ih =>
    by_cases h : f.Full
    · rw [settleFlask_of_full h]
      exact (restages_sendResults s f).trans (ih _ _)
    · rw [settleFlask_of_not_full h]
      exact .refl s

/-! ### A flask is stored (R283, R287) -/

/-- What is done with a settled flask: it is put in its entry, or destroyed, and what arrives at it is then stale. -/
theorem storeFlask_cases (s : State) (f : Flask) : ∃ φ : SgReq → SgReq,
    let x := settleFlask s f (f.held.length + 2)
    storeFlask s f = (if (x.2.dropMark && x.2.members.isEmpty) = true
      then putFlask { x.1 with sgs := x.1.sgs.map φ } (destroyFlask x.2) else putFlask x.1 x.2) ∧
    (∀ g, ∃ st, φ g = { g with stage := st }) ∧
    ∀ g fn v d ph, g.part = x.2.part → g.kind = .arrive x.2.handle fn v d →
      g.stage = .validated ph ∨ g.stage = .departed ph ∨ g.stage = .counted ph →
      φ g = { g with stage := .result 0 staleStatus ph } := by
  unfold storeFlask
  generalize settleFlask s f (f.held.length + 2) = x
  refine ⟨_, rfl, fun g => ?_, fun g fn v d ph hpart hkind hstage => ?_⟩
  · split
    case h_4 => exact ⟨g.stage, rfl⟩
    all_goals
      split
      · exact ⟨_, rfl⟩
      · exact ⟨g.stage, rfl⟩
  · rcases hstage with h | h | h <;> simp [hkind, h, hpart]

theorem storeFlask_of_stays {s s' : State} {f f' : Flask} (hset : settleFlask s f (f.held.length + 2) = (s', f'))
    (hstay : f'.dropMark = false ∨ f'.members ≠ []) : storeFlask s f = putFlask s' f' := by
  obtain ⟨φ, hstore, -⟩ := storeFlask_cases s f
  rw [hstore, hset, if_neg]
  rcases hstay with h | h <;> simp [h]

theorem restages_storeFlask (s : State) (f : Flask) : Restages s (storeFlask s f) := by
  obtain ⟨φ, hstore, hφ, -⟩ := storeFlask_cases s f
  have hset := restages_settleFlask (f.held.length + 2) s f
  rw [hstore]
  split
  · exact (hset.trans (map_restages _ hφ)).trans (restages_putFlask _ _)
  · exact hset.trans (restages_putFlask _ _)

/-- What storing flask `f`, become `f1`, for request `g` makes of flasks and requests: a phase with all its arrivals completes,
a dropped flask without members goes. -/
def Stored (s : State) (g : SgReq) (f f1 : Flask) (t : State) : Prop :=
  let stays : Prop := f1.dropMark = false ∨ f1.members ≠ []
  (¬f1.Full → stays → t.flask? f.part f.home f.idx = some f1) ∧
  (f1.Full → stays → f1.held = [] → t.flask? f.part f.home f.idx = some f1.next ∧
    ∀ a ∈ f1.arrived, a.id ≠ g.id → ∀ g', s.sg? a.id = some g' →
      t.sg? a.id = some { g' with stage := .result (phaseResult f1) (phaseStatus f1) f1.phase }) ∧
  (f1.Full → stays → ∀ b bs, f1.held = b :: bs →
    (f1.reopened b bs).arrived.length ≠ (f1.reopened b bs).expect →
      t.flask? f.part f.home f.idx = some (f1.reopened b bs)) ∧
  (¬f1.Full → ¬stays → f.held = [] →
    (∃ f', t.flasks = f' :: s.flasks.filter (fun y => !(y.slice = f.slice && y.idx = f.idx)) ∧ f'.live = false ∧
      f'.slice = f.slice ∧ f'.idx = f.idx ∧ f'.gen = if f.gen = 4095 then 1 else f.gen + 1) ∧
    ∀ g' fn v d ph, g'.id ≠ g.id → s.sg? g'.id = some g' → g'.part = f.part → g'.kind = .arrive f.handle fn v d →
      g'.stage = .validated ph ∨ g'.stage = .departed ph ∨ g'.stage = .counted ph →
      t.sg? g'.id = some { g' with stage := .result 0 staleStatus ph })

/-- What is stored does not depend on what the request itself becomes. -/
theorem Stored.congr {s t t' : State} {g : SgReq} {f f1 : Flask} (h : Stored s g f f1 t) (hfl : t'.flasks = t.flasks)
    (hsg : ∀ n, n ≠ g.id → t'.sg? n = t.sg? n) : Stored s g f f1 t' := by
  have hflask : ∀ p h i, t'.flask? p h i = t.flask? p h i := fun p h i => by unfold State.flask?; rw [hfl]
  obtain ⟨hput, hempty, hheld, hgone⟩ := h
  refine ⟨?_, ?_, ?_, ?_⟩
  · rw [hflask]; exact hput
  · intro hfull hstay hnone
    obtain ⟨hf, ha⟩ := hempty hfull hstay hnone
    exact ⟨by rw [hflask]; exact hf, fun a hmem hid g' hg' => by rw [hsg _ hid]; exact ha a hmem hid g' hg'⟩
  · rw [hflask]; exact hheld
  · intro hfull hstay hnone
    obtain ⟨hf, ha⟩ := hgone hfull hstay hnone
    exact ⟨by rw [hfl]; exact hf, fun g' fn v d ph hid hg' hpart hkind hstage => by
      rw [hsg _ hid]; exact ha g' fn v d ph hid hg' hpart hkind hstage⟩

/-- `u` is `s` but for request `g` and the stages of requests whose arrivals `f` holds. -/
structure Readied (s : State) (g : SgReq) (f : Flask) (u : State) : Prop where
  flasks : u.flasks = s.flasks
  kept : ∀ n g', n ≠ g.id → s.sg? n = some g' → ∃ st, u.sg? n = some { g' with stage := st }
  same : f.held = [] → ∀ n, n ≠ g.id → u.sg? n = s.sg? n

theorem stored_storeFlask {s u : State} {g : SgReq} {f f1 : Flask} (hu : Readied s g f u) (he : SameEntry f f1)
    (hlive : f.live = true) : Stored s g f f1 (storeFlask u f1) := by
  refine ⟨fun hfull hstay => ?_, fun hfull hstay hnone => ?_, fun hfull hstay b bs hheld hnext => ?_,
    fun hfull hstay hnone => ?_⟩
  · rw [storeFlask_of_stays (settleFlask_of_not_full hfull _ _) hstay]
    exact he.flask?_putFlask hlive u
  · rw [storeFlask_of_stays (settleFlask_of_full_unheld hfull hnone u) hstay]
    refine ⟨he.next.flask?_putFlask hlive _, fun a ha hid g' hg' => ?_⟩
    obtain ⟨st, hst⟩ := hu.kept _ g' hid hg'
    exact sg?_sendResults (g := { g' with stage := st }) ha hst
  · have hset := settleFlask_of_full hfull u (f1.held.length + 1)
    rw [show f1.held.foldl countArrival f1.next = f1.reopened b bs by rw [hheld, foldl_countArrival_next],
      settleFlask_of_not_full fun h => hnext h.2] at hset
    rw [storeFlask_of_stays hset hstay]
    exact (he.reopened b bs).flask?_putFlask hlive _
  · obtain ⟨φ, hstore, hφ, hstale⟩ := storeFlask_cases u f1
    rw [settleFlask_of_not_full hfull] at hstore hstale
    simp only [not_or, Bool.not_eq_false, ne_eq, not_not] at hstay
    rw [hstore, if_pos (by simp [hstay])]
    refine ⟨⟨destroyFlask f1, ?_, rfl, he.slice, he.idx, ?_⟩, fun g' fn v d ph hid hg' hpart hkind hstage => ?_⟩
    · rw [← hu.flasks, ← he.slice, ← he.idx]; rfl
    · rw [← he.gen]; rfl
    · rw [← hu.same hnone _ hid] at hg'
      have hsame : ∀ x, (φ x).id = x.id := fun x => by
        obtain ⟨st, hst⟩ := hφ x
        rw [hst]
      have hst := hstale g' fn v d ph (hpart.trans he.part.symm) (by rw [he.handle]; exact hkind) hstage
      rw [← hst]
      exact sg?_of_map rfl hsame hg'

/-! ### A member leaves (R283, R286) -/

/-- Arrivals that their flask holds are lost. -/
def lose (s : State) (as : List Arrival) : State :=
  as.foldl (fun s a => stageReq s a.id (.result 0 staleStatus a.phase)) s

theorem restages_lose (s : State) (as : List Arrival) : Restages s (lose s as) := by
  induction as generalizing s with
  | nil => exact .refl s
  | cons a as ih => exact (restages_stageReq s _ _).trans (ih _)

theorem flasks_lose (s : State) (as : List Arrival) : (lose s as).flasks = s.flasks := by
  induction as generalizing s with
  | nil => rfl
  | cons a as ih => exact (ih _).trans (flasks_stageReq s _ _)

/-- The open phase still expects the arrival of member `m`. -/
def Flask.Owes (f : Flask) (m : Member) (w : Who) : Prop :=
  f.isOpen = true ∧ m.fromPhase ≤ f.phase ∧ ∀ a ∈ f.arrived, a.who ≠ w

/-- Flask `f` once member `m`, thread `w`, has left it: what remains of the phase, a fault mark after a kill, a drop mark. -/
def Flask.without (f : Flask) (m : Member) (w : Who) (killed drop : Bool) : Flask :=
  { f with
    members := f.members.filter (fun x => x.who ≠ w),
    expect := if (f.isOpen && decide (m.fromPhase ≤ f.phase) && !(f.arrived.any fun a => a.who = w)) = true
      then f.expect - 1 else f.expect,
    held := f.held.filter (fun a => a.who ≠ w), faultMark := f.faultMark || killed, dropMark := f.dropMark || drop }

theorem SameEntry.without (f : Flask) (m : Member) (w : Who) (killed drop : Bool) :
    SameEntry f (f.without m w killed drop) := ⟨rfl, rfl, rfl, rfl, rfl, rfl⟩

theorem owes_iff (f : Flask) (m : Member) (w : Who) : f.Owes m w ↔
    (f.isOpen && decide (m.fromPhase ≤ f.phase) && !(f.arrived.any fun a => a.who = w)) = true := by
  simp [Flask.Owes, and_assoc]

theorem leaveFlask_eq (s : State) {f : Flask} {m : Member} {w : Who} (killed drop : Bool)
    (hm : f.members.find? (fun m => m.who = w) = some m) : leaveFlask s f w killed drop =
      storeFlask (lose s (f.held.filter fun a => a.who = w)) (f.without m w killed drop) := by
  have hlose : lose s (f.held.filter fun a => a.who = w) = { s with
      sgs := (f.held.filter fun a => a.who = w).foldl (fun l a =>
        updL (fun g => g.id = a.id) (fun g => { g with stage := .result 0 staleStatus a.phase }) l) s.sgs } :=
    List.foldl_hom (fun l : List SgReq => ({ s with sgs := l } : State)) fun _ _ => rfl
  unfold leaveFlask
  rw [hm, hlose]
  rfl

/-- Member `m` of flask `f`, the thread of request `g`, leaves: what remains, and what becomes of its held arrival. -/
def Departs (s : State) (g : SgReq) (f : Flask) (m : Member) (killed drop : Bool) (t : State) : Prop :=
  ∀ f1 : Flask, f1 = { f with
      members := f.members.filter (fun x => x.who ≠ g.who), expect := f1.expect,
      held := f.held.filter (fun a => a.who ≠ g.who), faultMark := f.faultMark || killed, dropMark := f.dropMark || drop } →
    (f.Owes m g.who → f1.expect = f.expect - 1) → (¬f.Owes m g.who → f1.expect = f.expect) →
    Stored s g f f1 t ∧
    (¬f1.Full → (f1.dropMark = false ∨ f1.members ≠ []) →
      ∀ a g', f.held.filter (fun a => a.who = g.who) = [a] → a.id ≠ g.id → s.sg? a.id = some g' →
        t.sg? a.id = some { g' with stage := .result 0 staleStatus a.phase })

theorem Departs.congr {s t t' : State} {g : SgReq} {f : Flask} {m : Member} {killed drop : Bool}
    (h : Departs s g f m killed drop t) (hfl : t'.flasks = t.flasks) (hsg : ∀ n, n ≠ g.id → t'.sg? n = t.sg? n) :
    Departs s g f m killed drop t' := by
  intro f1 hf1 howed hpaid
  obtain ⟨hstored, hlost⟩ := h f1 hf1 howed hpaid
  refine ⟨hstored.congr hfl hsg, fun hfull hstay a g' ha hid hg' => ?_⟩
  rw [hsg _ hid]
  exact hlost hfull hstay a g' ha hid hg'

/-- A state with the flasks of `s`, and with its requests but for `g`. -/
structure Besides (s : State) (g : SgReq) (u : State) : Prop where
  flasks : u.flasks = s.flasks
  same : ∀ n, n ≠ g.id → u.sg? n = s.sg? n

theorem Besides.readied {s u : State} {g : SgReq} (h : Besides s g u) (f : Flask) : Readied s g f u :=
  ⟨h.flasks, fun n g' hn hg' => ⟨g'.stage, (h.same n hn).trans hg'⟩, fun _ => h.same⟩

theorem Besides.lose {s u : State} {g : SgReq} (h : Besides s g u) (f : Flask) (w : Who) :
    Readied s g f (lose u (f.held.filter fun a => a.who = w)) where
  flasks := (flasks_lose _ _).trans h.flasks
  kept n g' hn hg' := (restages_lose _ _).sg? ((h.same n hn).trans hg')
  same hnone := by
    rw [hnone]
    exact h.same

theorem departs_leaveFlask {s u : State} {g : SgReq} {f : Flask} {m : Member} (hu : Besides s g u) (killed drop : Bool)
    (hm : f.members.find? (fun m => m.who = g.who) = some m) (hlive : f.live = true) :
    Departs s g f m killed drop (leaveFlask u f g.who killed drop) := by
  intro f1 hf1 howed hpaid
  have hwithout : f1 = f.without m g.who killed drop := by
    rw [hf1, Flask.without]
    congr 1
    by_cases h : f.Owes m g.who
    · rw [howed h, if_pos ((owes_iff f m g.who).1 h)]
    · rw [hpaid h, if_neg fun hb => h ((owes_iff f m g.who).2 hb)]
  rw [leaveFlask_eq u killed drop hm, ← hwithout]
  refine ⟨stored_storeFlask (hu.lose f g.who) (hwithout ▸ .without ..) hlive, fun hfull hstay a g' ha hid hg' => ?_⟩
  rw [storeFlask_of_stays (settleFlask_of_not_full hfull _ _) hstay, ha]
  exact sg?_stageReq _ ((hu.same _ hid).trans hg')

theorem restages_leaveFlask (s : State) (f : Flask) (w : Who) (killed drop : Bool) :
    Restages s (leaveFlask s f w killed drop) := by
  cases hm : f.members.find? fun m => m.who = w with
  | none =>
    rw [leaveFlask, hm]
    exact .refl s
  | some m =>
    rw [leaveFlask_eq s killed drop hm]
    exact (restages_lose _ _).trans (restages_storeFlask _ _)

end Sys2Proof.Machine
end

section
/-! PROOF. O47, the events: requests at the homes of flasks, replies, validations, departures and results (R282 to R288). -/

namespace Sys2Proof.Machine

open Sys2Proof

/-! ### Memberships (R282) -/

/-- `t` differs from `s` in flask requests and flasks alone. -/
def OnlyFlasks (s t : State) : Prop := t = { s with sgs := t.sgs, flasks := t.flasks }

theorem Restages.stageReq {s t : State} (h : Restages s t) (id : Nat) (st : SgStage) : Restages s (stageReq t id st) :=
  h.trans (restages_stageReq _ _ _)

section
variable {s : State} {g : SgReq} (hg : s.sg? g.id = some g)
include hg

theorem joinReq_none : OnlyFlasks s (joinReq s g none) ∧
    (joinReq s g none).sg? g.id = some { g with stage := .reply 0 false } :=
  ⟨(restages_stageReq s _ _).only, sg?_stageReq _ hg⟩

/-- A thread that may join does so from the present phase on, or from the next where one is open. -/
theorem joinReq_joins {f : Flask} (hlive : f.live = true) (hdrop : f.dropMark = false) (hmem : f.hasMember g.who = false) :
    OnlyFlasks s (joinReq s g (some f)) ∧ (joinReq s g (some f)).sg? g.id = some { g with stage := .reply f.handle true } ∧
      ∃ f', (joinReq s g (some f)).flask? f.part f.home f.idx = some f' ∧ f' = { f with
        members := f.members ++ [{ who := g.who, fromPhase := if f.isOpen = true then f.phase + 1 else f.phase }] } := by
  have hjoin : joinFlask s f g.who = (putFlask s { f with
      members := f.members ++ [{ who := g.who, fromPhase := if f.isOpen = true then f.phase + 1 else f.phase }] },
      f.handle, true) := if_neg (by simp [hdrop, hmem])
  rw [joinReq, hjoin]
  have hput := restages_putFlask s { f with
    members := f.members ++ [{ who := g.who, fromPhase := if f.isOpen = true then f.phase + 1 else f.phase }] }
  exact ⟨(hput.stageReq _ _).only, hput.sg?_stageReq _ hg, _, flask?_putFlask s hlive, rfl⟩

theorem joinReq_refuses {f : Flask} (h : f.dropMark = true ∨ f.hasMember g.who = true) :
    OnlyFlasks s (joinReq s g (some f)) ∧ (joinReq s g (some f)).sg? g.id = some { g with stage := .reply 0 false } := by
  have hjoin : joinFlask s f g.who = (s, 0, false) := if_pos (by simpa using h)
  rw [joinReq, hjoin]
  exact joinReq_none hg

end

theorem only_joinReq (s : State) (g : SgReq) (o : Option Flask) : OnlyFlasks s (joinReq s g o) := by
  refine Restages.only ?_
  cases o with
  | none => exact restages_stageReq s _ _
  | some f =>
    refine Restages.stageReq ?_ _ _
    unfold joinFlask
    split
    · exact .refl s
    · exact restages_putFlask s _

/-- A thread that makes a flask is its one member, from phase 0 on. -/
theorem newReq_makes {s : State} {g : SgReq} {n : DWord} {p : Part} {f : Flask} (hg : s.sg? g.id = some g)
    (hnone : flaskNamed s g.part n = none) (hp : s.part? g.part = some p) (hmake : makeFlask s p n = some f) :
    OnlyFlasks s (newReq s g n) ∧ (newReq s g n).sg? g.id = some { g with stage := .reply f.handle true } ∧
      ∃ f', (newReq s g n).flask? f.part f.home f.idx = some f' ∧
        f' = { f with members := [{ who := g.who, fromPhase := 0 }] } := by
  obtain ⟨-, -, -, hlive, hmem, hphase, hopen, hdrop, -⟩ := makeFlask_spec hmake
  have hnew : newReq s g n = joinReq (putFlask s f) g (some f) := by
    simp [newReq, hnone, hp, hmake]
  have hnot : f.hasMember g.who = false := by simp [Flask.hasMember, hmem]
  obtain ⟨honly, hstage, f', hf', heq⟩ := joinReq_joins (s := putFlask s f) hg hlive hdrop hnot
  rw [hnew]
  refine ⟨honly, hstage, f', hf', ?_⟩
  rw [heq, hmem, hopen, hphase]
  rfl

/-! ### Requests at their homes (R282, R283, R285, R286) -/

section
variable {s : State} {g : SgReq} (hg : s.sg? g.id = some g) (hready : homeReady s g = true)
include hg hready

theorem exec_sgHomeRequest : exec (.sgHomeRequest g.id) s = .next (answerReq s g) := by
  show Host.Outcome.next _ = _
  simp only [hg, hready, if_true]

/-- What the home makes of the request happens. -/
theorem happens_home {t : State} {eff : State → Prop} (ht : answerReq s g = t) (h : eff t) :
    Happens (.sgHomeRequest g.id) s eff := ⟨t, ht ▸ exec_sgHomeRequest hg hready, h⟩

end

theorem answerReq_enters {s : State} {g : SgReq} (ht : (s.thread? g.tid).isSome = true) :
    (∀ n h q, g.kind = .new n h q → answerReq s g = newReq s g n) ∧
    (∀ n h q, g.kind = .join n h q → answerReq s g = joinReq s g (flaskNamed s g.part n)) ∧
    ∀ x h q, g.kind = .joinH x h q → answerReq s g = joinReq s g (flaskOf s g.part x) := by
  have hthread : (s.thread? g.tid).isNone = false := by simpa using ht
  refine ⟨?_, ?_, ?_⟩ <;> intro x h q hk <;> simp [answerReq, hk, hthread]

theorem answerReq_other {s : State} {g : SgReq} :
    (∀ x d, g.kind = .leave x d → answerReq s g = leaveReq s g x false) ∧
    (∀ x d, g.kind = .drop x d → answerReq s g = leaveReq s g x true) ∧
    (∀ x sel d, g.kind = .stat x sel d → answerReq s g = statReq s g x sel d) ∧
    (∀ x fn v d ph, g.kind = .arrive x fn v d → g.stage = .departed ph → answerReq s g = arriveReq s g x fn v d ph) ∧
    ∀ x k, g.kind = .gone x k → answerReq s g = goneReq s g x k := by
  refine ⟨fun x d hk => ?_, fun x d hk => ?_, fun x sel d hk => ?_, fun x fn v d ph hk hst => ?_, fun x k hk => ?_⟩
  all_goals simp [answerReq, SgKind.enters, *]

theorem besides_refl (s : State) (g : SgReq) : Besides s g s := ⟨rfl, fun _ _ => rfl⟩
theorem besides_stageReq (s : State) (g : SgReq) (st : SgStage) : Besides s g (stageReq s g.id st) :=
  ⟨rfl, fun _ hn => sg?_stageReq_other s st hn⟩
theorem besides_dropReq (s : State) (g : SgReq) : Besides s g (dropReq s g.id) :=
  ⟨rfl, fun _ hn => sg?_dropReq_other s hn⟩

theorem leaveReq_live {s : State} {g : SgReq} {x : Word} {f : Flask} {m : Member} (hg : s.sg? g.id = some g) (drop : Bool)
    (hf : flaskOf s g.part x = some f) (hm : f.members.find? (fun m => m.who = g.who) = some m) :
    OnlyFlasks s (leaveReq s g x drop) ∧ (leaveReq s g x drop).sg? g.id = some { g with stage := .returned 0 } ∧
      Departs s g f m false drop (leaveReq s g x drop) := by
  have hleave := restages_leaveFlask s f g.who false drop
  rw [leaveReq, hf]
  exact ⟨(hleave.stageReq _ _).only, hleave.sg?_stageReq _ hg,
    (departs_leaveFlask (besides_refl s g) false drop hm (live_of_flaskOf hf)).congr rfl fun _ hn => sg?_stageReq_other _ _ hn⟩

theorem goneReq_live {s : State} {g : SgReq} {x : Word} {f : Flask} {m : Member} (killed : Bool)
    (hf : flaskOf s g.part x = some f) (hm : f.members.find? (fun m => m.who = g.who) = some m) :
    OnlyFlasks s (goneReq s g x killed) ∧ (goneReq s g x killed).sg? g.id = none ∧
      Departs s g f m killed false (goneReq s g x killed) := by
  have hgone : goneReq s g x killed = leaveFlask (dropReq s g.id) f g.who killed false := by
    have hf' : flaskOf (dropReq s g.id) g.part x = some f := hf
    simp [goneReq, hf']
  have hleave := restages_leaveFlask (dropReq s g.id) f g.who killed false
  rw [hgone]
  exact ⟨hleave.only, hleave.sg?_none (sg?_dropReq s g.id),
    departs_leaveFlask (besides_dropReq s g) killed false hm (live_of_flaskOf hf)⟩

/-! ### Arrivals (R285) -/

theorem sameEntry_countArrival (f : Flask) (a : Arrival) : SameEntry f (countArrival f a) := by
  unfold countArrival
  split <;> exact ⟨rfl, rfl, rfl, rfl, rfl, rfl⟩

theorem countArrival_open (f : Flask) (a : Arrival) :
    (countArrival f a).isOpen = true ∧ a ∈ (countArrival f a).arrived ∧ (countArrival f a).held = f.held := by
  unfold countArrival
  split
  · exact ⟨‹_›, by simp, rfl⟩
  · exact ⟨rfl, by simp, rfl⟩

theorem members_countArrival {f : Flask} {w : Who} (hmem : f.hasMember w = true) (a : Arrival) :
    (countArrival f a).members ≠ [] := by
  have hsame : (countArrival f a).members = f.members := by
    unfold countArrival
    split <;> rfl
  rw [hsame]
  rintro hnil
  simp [Flask.hasMember, hnil] at hmem

/-- The arrival that a request brings to its flask. -/
def SgReq.arrival (g : SgReq) (fn : Nat) (v : Word) (d : Reg) (ph : Nat) : Arrival :=
  { id := g.id, tid := g.tid, who := g.who, phase := ph, fn, value := v, dst := d }

section
variable {s : State} {g : SgReq} {x : Word} {fn : Nat} {v : Word} {d : Reg} {ph : Nat} {f : Flask}
  (hf : flaskOf s g.part x = some f) (hmem : f.hasMember g.who = true)
include hf hmem

theorem arriveReq_eq : arriveReq s g x fn v d ph = arriveFlask (stageReq s g.id (.counted ph)) f (g.arrival fn v d ph) := by
  simp [arriveReq, SgReq.arrival, hf, hmem]

/-- An arrival of a later phase is held. -/
theorem arriveReq_holds (hg : s.sg? g.id = some g) (hph : f.phase < ph) : OnlyFlasks s (arriveReq s g x fn v d ph) ∧
    (arriveReq s g x fn v d ph).sg? g.id = some { g with stage := .counted ph } ∧
      ∃ f', (arriveReq s g x fn v d ph).flask? f.part f.home f.idx = some f' ∧ f' = { f with
        held := f.held ++ [g.arrival fn v d ph] } := by
  have hput : arriveReq s g x fn v d ph = putFlask (stageReq s g.id (.counted ph)) { f with
      held := f.held ++ [g.arrival fn v d ph] } := by
    rw [arriveReq_eq hf hmem]
    simp [arriveFlask, SgReq.arrival, hmem, Nat.not_le.2 hph]
  have hlive := live_of_flaskOf hf
  rw [hput]
  exact ⟨((restages_stageReq s _ _).trans (restages_putFlask _ _)).only, sg?_stageReq _ hg, _, flask?_putFlask _ hlive, rfl⟩

/-- An arrival of the present phase is counted, and the flask is stored. -/
theorem arriveReq_counts (hph : ph ≤ f.phase) {f1 : Flask} (hf1 : f1 = countArrival f (g.arrival fn v d ph)) :
    arriveReq s g x fn v d ph = storeFlask (stageReq s g.id (.counted ph)) f1 ∧
      OnlyFlasks s (arriveReq s g x fn v d ph) ∧ Stored s g f f1 (arriveReq s g x fn v d ph) := by
  have hstore : arriveReq s g x fn v d ph = storeFlask (stageReq s g.id (.counted ph)) f1 := by
    rw [arriveReq_eq hf hmem, hf1]
    simp [arriveFlask, SgReq.arrival, hmem, hph]
  rw [hstore]
  exact ⟨rfl, ((restages_stageReq s _ _).trans (restages_storeFlask _ _)).only,
    stored_storeFlask ((besides_stageReq s g _).readied f) (hf1 ▸ sameEntry_countArrival f _) (live_of_flaskOf hf)⟩

/-- While arrivals are missing the request stays counted. -/
theorem arriveReq_waits (hg : s.sg? g.id = some g) (hph : ph ≤ f.phase) {f1 : Flask}
    (hf1 : f1 = countArrival f (g.arrival fn v d ph)) (hmiss : f1.arrived.length ≠ f1.expect) :
    (arriveReq s g x fn v d ph).sg? g.id = some { g with stage := .counted ph } := by
  rw [(arriveReq_counts hf hmem hph hf1).1,
    storeFlask_of_stays (settleFlask_of_not_full (fun h => hmiss h.2) _ _) (.inr (hf1 ▸ members_countArrival hmem _))]
  exact sg?_stageReq (.counted ph) hg

/-- The last arrival of a phase has its result at once. -/
theorem arriveReq_completes (hg : s.sg? g.id = some g) (hph : ph ≤ f.phase) {f1 : Flask}
    (hf1 : f1 = countArrival f (g.arrival fn v d ph)) (hall : f1.arrived.length = f1.expect) (hheld : f.held = []) :
    (arriveReq s g x fn v d ph).sg? g.id = some { g with stage := .result (phaseResult f1) (phaseStatus f1) f1.phase } := by
  obtain ⟨hopen, harrived, hh⟩ := countArrival_open f (g.arrival fn v d ph)
  rw [← hf1] at hopen harrived hh
  rw [(arriveReq_counts hf hmem hph hf1).1,
    storeFlask_of_stays (settleFlask_of_full_unheld ⟨hopen, hall⟩ (hh.trans hheld) _)
      (.inr (hf1 ▸ members_countArrival hmem _))]
  have hcounted := sg?_stageReq (.counted ph) hg
  exact sg?_sendResults (g := { g with stage := .counted ph }) harrived hcounted

end

/-! ### Replies and results (R282, R284, R287) -/

theorem updBoth_of_single {s : State} {tid : Nat} {u : Thread} (f : Thread → Thread) (hu : s.thread? tid = some u)
    (htwin : u.twin = 0) : s.updBoth tid f = s.updThread tid f := by
  simp [State.updBoth, hu, htwin]

/-- A thread that is no record and has no shadow takes what is delivered to it. -/
theorem deliverRec_of_single {s : State} {tid : Nat} {u : Thread} (ws : List (RegRef × Word)) (hrec : s.rec? tid = none)
    (hu : s.thread? tid = some u) (htwin : u.twin = 0) :
    deliverRec s tid ws = s.updThread tid fun t => ws.foldl Thread.deliver t := by
  rw [deliverRec, reloadHeld_of_none hrec, State.deliverTo, updBoth_of_single _ hu htwin]
  exact flushRec_of_none hrec

theorem thread?_updThread_of_eq {s : State} {tid : Nat} {u : Thread} {f : Thread → Thread} (hu : s.thread? tid = some u)
    (hf : ∀ t, (f t).tid = t.tid) : (s.updThread tid f).thread? tid = some (f u) := by
  rw [State.thread?_updThread _ _ _ hf, hu]
  rfl

theorem giveResult_of_single {s : State} {g : SgReq} {u : Thread} (d : Reg) (v : Word) (st : Nat) (hrec : s.rec? g.tid = none)
    (hu : s.thread? g.tid = some u) (htwin : u.twin = 0) : giveResult s g d v st =
      ((dropReq s g.id).updThread g.tid fun t => t.deliver (.v d, v)).updThread g.tid fun t =>
        { t with wakest := BitVec.ofNat 32 (3 + st * 2 ^ 8) } := by
  have hdeliver : deliverRec (dropReq s g.id) g.tid [(.v d, v)] =
      (dropReq s g.id).updThread g.tid fun t => t.deliver (.v d, v) := deliverRec_of_single _ hrec hu htwin
  have hthread := thread?_updThread_of_eq (s := dropReq s g.id) hu fun t => (deliver_who t (.v d, v)).1
  rw [giveResult, hdeliver, updBoth_of_single _ hthread ((deliver_who u _).2.trans htwin)]
  exact checkWake_of_none hrec

section
variable {s : State} {g : SgReq} (hg : s.sg? g.id = some g)
include hg

theorem happens_sgReply {ws : List (RegRef × Word)} (hws : replyWrites g = some ws) (hrec : s.rec? g.tid = none) {u : Thread}
    (hu : s.thread? g.tid = some u) (htwin : u.twin = 0) : Happens (.sgReply g.id) s fun t =>
      t = { s with threads := t.threads, sgs := s.sgs.filter fun y => y.id ≠ g.id } ∧
        t.thread? g.tid = some (ws.foldl Thread.deliver u) := by
  have hrun : exec (.sgReply g.id) s = .next (checkWake (deliverRec (dropReq s g.id) g.tid ws) g.tid) := by
    show Host.Outcome.next _ = _
    simp only [hg, hws]
  rw [deliverRec_of_single (s := dropReq s g.id) ws hrec hu htwin] at hrun
  have hquiet := checkWake_of_none (s := (dropReq s g.id).updThread g.tid fun t => ws.foldl Thread.deliver t) hrec
  exact ⟨_, hrun.trans (congrArg _ hquiet), rfl, thread?_updThread_of_eq (s := dropReq s g.id) hu (foldl_deliver_tid ws)⟩

theorem happens_arrivalValidation (hready : validateReady g = true) (ht : (s.thread? g.tid).isSome = true) :
    Happens (.arrivalValidation g.id) s fun t => OnlyFlasks s t ∧
      (∀ f, flaskOf s g.part g.kind.handleOf = some f →
        t.sg? g.id = some { g with stage := .returned (arrivalPhase f g.who) }) ∧
      (flaskOf s g.part g.kind.handleOf = none → t.sg? g.id = some { g with stage := .stale }) := by
  have hthread : (s.thread? g.tid).isNone = false := by simpa using ht
  cases hf : flaskOf s g.part g.kind.handleOf with
  | none =>
    have hrun : exec (.arrivalValidation g.id) s = .next (stageReq s g.id .stale) := by
      show Host.Outcome.next _ = _
      simp [hg, hready, hthread, hf]
    exact ⟨_, hrun, (restages_stageReq s _ _).only, nofun, fun _ => sg?_stageReq _ hg⟩
  | some f =>
    have hrun : exec (.arrivalValidation g.id) s = .next (stageReq s g.id (.returned (arrivalPhase f g.who))) := by
      show Host.Outcome.next _ = _
      simp [hg, hready, hthread, hf]
    refine ⟨_, hrun, (restages_stageReq s _ _).only, fun f' hf' => ?_, nofun⟩
    cases hf'
    exact sg?_stageReq _ hg

theorem happens_sgArrivalDepart {ph : Nat} (hph : departPhase s g = some ph) : Happens (.sgArrivalDepart g.id) s fun t =>
    OnlyFlasks s t ∧ t.sg? g.id = some { g with stage := .departed ph } := by
  have hrun : exec (.sgArrivalDepart g.id) s = .next (stageReq s g.id (.departed ph)) := by
    show Host.Outcome.next _ = _
    simp only [hg, hph]
  exact ⟨_, hrun, (restages_stageReq s _ _).only, sg?_stageReq _ hg⟩

theorem happens_sgResult {d : Reg} {v : Word} {st : Nat} (hres : resultOf g = some (d, v, st)) (hrec : s.rec? g.tid = none)
    {u : Thread} (hu : s.thread? g.tid = some u) (htwin : u.twin = 0) : Happens (.sgResult g.id) s fun t =>
      t = { s with threads := t.threads, sgs := s.sgs.filter fun y => y.id ≠ g.id } ∧
        t.thread? g.tid = some { u.deliver (.v d, v) with wakest := BitVec.ofNat 32 (3 + st * 2 ^ 8) } := by
  have hrun : exec (.sgResult g.id) s = .next (giveResult s g d v st) := by
    show Host.Outcome.next _ = _
    simp only [hg, hres]
  have hthread := thread?_updThread_of_eq (s := dropReq s g.id) hu fun t => (deliver_who t (.v d, v)).1
  rw [giveResult_of_single d v st hrec hu htwin] at hrun
  exact ⟨_, hrun, rfl, thread?_updThread_of_eq hthread fun _ => rfl⟩

end

end Sys2Proof.Machine
end

section
/-! PROOF. O47: the statement. -/

namespace Sys2Proof.Machine

open Sys2Proof

/-- The flask once an arrival is counted, in the words of the statement. -/
theorem countArrival_eq (f : Flask) (a : Arrival) : (if f.isOpen = true
      then { f with arrived := f.arrived ++ [a], mix := f.mix || a.fn != f.op }
      else { f with isOpen := true, expect := (f.members.filter fun m => decide (m.fromPhase ≤ f.phase)).length,
                    arrived := [a], op := a.fn, mix := false }) = countArrival f a := by
  rw [← List.countP_eq_length_filter]
  rfl

end Sys2Proof.Machine

namespace Sys2Proof
open Machine

/-- Settles O47: the results of phases by `phaseValue_phaseResult`, new flasks by `makeFlask_spec`; what a request makes of
its flask by `stored_storeFlask` and `departs_leaveFlask`, which follow the phases that complete when the flask is stored. -/
theorem flaskEvents : Obligations.FlaskEvents := by
  unfold Obligations.FlaskEvents
  refine ⟨phaseValue_phaseResult, fun s p n => ⟨makeFlask_eq_none_iff s p n, fun f => makeFlask_spec⟩, fun s g hg => ?_⟩
  intro stale stored departs staged only live
  obtain ⟨hleave, hdrop, hstat, harrive, hgone⟩ := answerReq_other (s := s) (g := g)
  refine ⟨fun hready => ?_, fun ws hws hrec u => happens_sgReply hg hws hrec, happens_arrivalValidation hg,
    fun ph => happens_sgArrivalDepart hg, fun d v st hres hrec u => happens_sgResult hg hres hrec⟩
  have home {t : State} {eff : State → Prop} (ht : answerReq s g = t) (h : eff t) := happens_home hg hready ht h
  intro home' joins
  have hjoins {f : Flask} (hlive : f.live = true) (hj : answerReq s g = joinReq s g (some f)) : joins f :=
    ⟨fun h => home hj (joinReq_joins hg hlive h.1 h.2), fun h => home hj (joinReq_refuses hg h)⟩
  refine ⟨fun ht => ?_, ?_, ?_, ?_, ?_, ?_, ?_, ?_, ?_⟩
  · obtain ⟨hnew, hjoin, hjoinH⟩ := answerReq_enters ht
    refine ⟨?_, ?_, ?_, ?_, ?_, ?_, ?_⟩
    · intro n h q f hk hf
      refine hjoins (live_of_flaskNamed hf) ((hnew n h q hk).trans ?_)
      rw [newReq, hf]
    · intro n h q p f hk hnone hp hmake
      exact home (hnew n h q hk) (newReq_makes hg hnone hp hmake)
    · intro n h q p hk hnone hp hmake
      have hj : newReq s g n = joinReq s g none := by simp [newReq, hnone, hp, hmake]
      obtain ⟨honly, hstage⟩ := joinReq_none hg
      exact home ((hnew n h q hk).trans hj) ⟨honly, rfl, hstage⟩
    · intro n h q f hk hf
      exact hjoins (live_of_flaskNamed hf) (hf ▸ hjoin n h q hk)
    · intro n h q hk hnone
      exact home (hnone ▸ hjoin n h q hk) (joinReq_none hg)
    · intro x h q f hk hf
      exact hjoins (live_of_flaskOf hf) ((show flaskOf s g.part x = some f from hf) ▸ hjoinH x h q hk)
    · intro x h q hk hnone
      exact home (hnone ▸ hjoinH x h q hk) (joinReq_none hg)
  · rintro x d f m (hk | hk) hf hm
    · have hnot : decide (g.kind = .drop x d) = false := by simp [hk]
      rw [hnot]
      exact home (hleave x d hk) (leaveReq_live hg false hf hm)
    · have hdrops : decide (g.kind = .drop x d) = true := by simp [hk]
      rw [hdrops]
      exact home (hdrop x d hk) (leaveReq_live hg true hf hm)
  · have hstale (x : Word) (drop : Bool) (hnone : flaskOf s g.part x = none) :
        leaveReq s g x drop = stageReq s g.id .stale := by rw [leaveReq, hnone]
    rintro x d (hk | hk) hnone
    · exact home ((hleave x d hk).trans (hstale x _ hnone)) ⟨(restages_stageReq s _ _).only, sg?_stageReq _ hg⟩
    · exact home ((hdrop x d hk).trans (hstale x _ hnone)) ⟨(restages_stageReq s _ _).only, sg?_stageReq _ hg⟩
  · intro x sel d f hk hf
    refine home (hstat x sel d hk) ?_
    have hf' : flaskOf s g.part x = some f := hf
    rw [statReq, hf']
    rfl
  · intro x fn v d ph f hk hst hf hmem hph
    exact home (harrive x fn v d ph hk hst) (arriveReq_holds hf hmem hg hph)
  · intro x fn v d ph f hk hst hf hmem hph a f1
    have hf1 : f1 = countArrival f a := countArrival_eq f a
    obtain ⟨-, honly, hstored⟩ := arriveReq_counts hf hmem hph hf1
    exact ⟨fun hmiss => home (harrive x fn v d ph hk hst) ⟨honly, arriveReq_waits hf hmem hg hph hf1 hmiss, hstored⟩,
      fun hall hheld => home (harrive x fn v d ph hk hst)
        ⟨honly, hstored, arriveReq_completes hf hmem hg hph hf1 hall hheld⟩⟩
  · intro x fn v d ph hk hst hnone
    have hstale : arriveReq s g x fn v d ph = stageReq s g.id (.result 0 staleStatus ph) := by rw [arriveReq, hnone]
    exact home ((harrive x fn v d ph hk hst).trans hstale) ⟨(restages_stageReq s _ _).only, sg?_stageReq _ hg⟩
  · intro x k f m hk hf hm
    exact home (hgone x k hk) (goneReq_live k hf hm)
  · intro x k hk hnone
    have hdropped : goneReq s g x k = dropReq s g.id := by
      have hnone' : flaskOf (dropReq s g.id) g.part x = none := hnone
      simp [goneReq, hnone']
    exact home ((hgone x k hk).trans hdropped) rfl

end Sys2Proof
end
